-- ==== Sys2Proof/Word.lean ====
section
/-!
DEFINITION. The words of the C-512: 64-bit scalars, bytes, 1,024-bit vector registers, 320-bit wide
accumulators (R14, R45, R116), and the sparse table that holds a numbered set of like parts.
-/

namespace Sys2Proof

/-- A scalar register (R14). -/
abbrev Word := BitVec 64
/-- One byte of memory. -/
abbrev Byte := BitVec 8
/-- A vector register, a queue entry, a cistern row: 1,024 bits (R14, R16, R201). -/
abbrev VReg := BitVec 1024
/-- The value part of a wide accumulator (R116). -/
abbrev W320 := BitVec 320
/-- A scalar or vector register number. -/
abbrev Reg := BitVec 5

/-- A numbered set of like parts, listed by rising number; a number that is not listed holds the part's
initial value. -/
abbrev Table (β : Type) := List (Nat × β)

end Sys2Proof
end

