-- ==== Sys2Proof/Syntax.lean ====
section
/-!
DEFINITION. The instructions of the C-512 and the steps of its engines, one constructor for each row of the
opcode table. Rows with an encoding carry the fields of spec/opcode_table.json, by the table's field names.
Rows without an encoding are steps that the manual gives to an engine, the command processor, the host or a
debug module; their operands name what the step is about.
-/

namespace Sys2Proof

/-- A flit: 64 data bits and an 8-bit tag (R45, R80). -/
structure Flit where
  data : Word
  tag : Byte
  deriving DecidableEq, Repr

/-- An inbox message: words 0 and 1 (R93). -/
structure Msg where
  w0 : Word
  w1 : Word
  deriving DecidableEq, Repr

/-- What a walk is for: the permission of R244 that the access needs. -/
inductive Access where
  | read | write | rw | fetch | none
  deriving DecidableEq, Repr

/-- One operation of a supervisor on a thread (R69-R71), or of the host's THRCMD (R381): `issuer` is the thread
that waits, absent for THRCMD. -/
inductive SupKind where
  | read | write | resume
  deriving DecidableEq, Repr
structure SupOp where
  part : Nat
  issuer : Option Nat
  kind : SupKind
  handle : Word
  sel : Word
  value : Word
  rd : Reg
  deriving DecidableEq, Repr
/-- What the target's core replies: a value, or the cause and TRAPVAL of R70. -/
inductive SupResult where
  | value (v : Word)
  | done
  | refused (cause : Nat) (v : Word)
  deriving DecidableEq, Repr

/-- A tile reference of R195 with what its identifier supplies: FMT, S1, ROWS, ROWBYTES, scale data. -/
structure TileRef where
  t : Nat
  core : Nat
  group : Nat
  off : Nat
  fmt : Nat
  scaled : Bool
  stride : Nat
  rows : Nat
  rowBytes : Nat
  scaleBase : Nat
  dim0 : Nat
  nrows : Nat
  readOnly : Bool
  deriving DecidableEq, Repr

/-- Operations of AMO and RED (R294). -/
inductive AmoOp where
  | add | and | or | xor | min | max | minn | maxn | swap | cas | fadd | fmax
  deriving DecidableEq, Repr

/-- What a far access does at its home (R415). -/
inductive FarOp where
  /-- A load performed at the home: bytes, sign extension, destination, acquire scope if any (R284). -/
  | load (rd : Nat) (size : Nat) (nat : Bool) (acq : Option Nat)
  /-- A first-level fill of the sector, then the load that missed, if there is one (R248): destination, size, sign
  extension, acquire scope. -/
  | fill (load : Option (Nat × Nat × Bool × Option Nat))
  /-- A store performed at the home (R250, R284). -/
  | store (bytes : List Byte)
  /-- A write-back of the dirty bytes of one sector: offset and value of each (R249). -/
  | writeBack (bytes : List (Nat × Byte))
  /-- An AMO: operation, size, operand, compare value, destination, acquire scope (R294). -/
  | amo (op : AmoOp) (size : Nat) (b c : Word) (rd : Nat) (acq : Option Nat)
  /-- A RED (R229, R294). -/
  | red (op : AmoOp) (size : Nat) (b : Word)
  /-- The read of a CNTW, with its target (R88). -/
  | count (target : Word)
  /-- A line's part of a PRD: buffer offset and bytes (R331). -/
  | pumpRead (off n : Nat)
  deriving DecidableEq, Repr
/-- A request travelling to its home: the thread or pump that issued it, the virtual address, the memory key of
its first byte, the page's KEY and SA bits. One with 4096 + d for its thread comes in from device d (R385, R386). -/
structure FarReq where
  h : Nat
  pump : Option Nat
  va : Word
  addr : Nat
  key : Nat
  sa : Bool
  op : FarOp
  /-- The cycle in which it was issued, the one in which it left, and the one in which it first reached its home. -/
  sent : Nat := 0
  left : Nat := 0
  reached : Option Nat := none
  /-- The limits of its home have let it in (R377). -/
  entered : Bool := false
  /-- The slice has found that it does not hold the line, and waits for the channel (R413). -/
  dram : Bool := false
  /-- A load that the first-level cache serves behind earlier loads of its thread (R271). -/
  near : Bool := false
  /-- The scope of its release, and whether the release keeps it from leaving (R284, R296). -/
  rel : Option Nat := none
  held : Bool := false
  /-- The word of its instruction, for a trap record (R361). -/
  insn : Nat := 0
  /-- The place in the order at its home of the request with which it has combined (R252). -/
  lead : Option Nat := none
  deriving DecidableEq, Repr

/-- A host atomic on device memory (R278, R382): operation, size, operand, compare value; whether the page has SA = 1; whether it has
read its word and still has to write it. -/
structure HostAtom where
  op : AmoOp
  size : Nat
  b : Word
  c : Word
  sa : Bool
  writes : Bool := false
  deriving DecidableEq, Repr

/-- A pump launch (R315): handle, entry, argument, launching context and core, and the launch-page slot (R317) or
the node (R347) it came from. -/
structure Launch where
  handle : Nat
  entry : Nat
  arg : Word
  ctx : Nat
  core : Nat
  page : Option Nat
  node : Option Nat
  /-- The thread whose OVLD.go it is, and the cycle in which that release began (R316). -/
  rel : Option (Nat × Nat) := none
  deriving DecidableEq, Repr
/-- A request of OVLD or OVLD.go at its pump (R315). -/
structure OvldReq where
  h : Nat
  rd : Reg
  chan : Nat
  handle : Nat
  go : Bool
  entry : Nat
  arg : Word
  /-- The image of OVLD: its memory key and the page's KEY; the cycle of issue. -/
  addr : Nat
  key : Nat := 0
  sent : Nat := 0
  /-- The cycles for which it has waited at lines under locks (R260). `arg` of an OVLD is the image's address. -/
  late : Nat := 0
  deriving DecidableEq, Repr

/-- A task: key and record (R335). -/
structure Task where
  key : Word
  r0 : Word
  r1 : Word
  r2 : Word
  deriving DecidableEq, Repr
/-- What a thread asks of its partition's task queue (R337, R338). -/
inductive TqOp where
  | add (t : Task)
  /-- The four registers by the numbers under which they are awaited; the address of the take. -/
  | take (nums : List Nat) (pc : Word)
  | try_ (nums : List Nat) (pc : Word)
  /-- A task that is given up, while it waits for room (R335, R339). -/
  | back (t : Task)
  deriving DecidableEq, Repr
structure TqReq where
  part : Nat
  h : Nat
  op : TqOp
  /-- The cycle of issue; whether the limit of the serving slice has let it in (R377). -/
  sent : Nat
  entered : Bool := false
  deriving DecidableEq, Repr

/-- A trap record of R361 by its words. -/
structure TrapRecord where
  w0 : Word
  handle : Word
  pc : Word
  value : Word
  insn : Word
  cycle : Word
  deriving DecidableEq, Repr

/-- A function that comes up by itself (R398). -/
inductive ReadyUnit where
  | cluster (g : Nat) | sched | hostAgent | link (p : Nat) | channel (c : Nat)
  | hub (status : Nat) (version : Nat) | baseFail
  deriving DecidableEq, Repr

/-- What a step of an engine is about: one constructor for each row of the opcode table without an encoding, with
the operands of that step. The step itself is the constructor of `Instr` with the same name. -/
inductive Event where
  | tlbiRetire (h : Nat)
  | supervisorOpArrival (op : SupOp)
  | supervisorReply (op : SupOp) (r : SupResult)
  | parkRequestEffect (h : Nat)
  | barrierArrival (h : Nat)
  | barrierRelease (cl ctx b phase : Nat)
  | barrierTimeout (h since : Nat)
  | tstartReady (h : Nat)
  | texitRetire (h : Nat)
  | yieldWake (h since : Nat)
  | gangForm (leader n : Nat)
  | gangTimeout (h since : Nat)
  | flitArrival (src dst chan ctx : Nat) (f : Flit)
  | recvWake (h : Nat)
  | channelClaim (h : Nat)
  | monitorWake (h since : Nat)
  | mwaitTimeout (h since : Nat)
  | cntwWake (h since : Nat)
  | inboxMessageArrival (core ctx : Nat) (m : Msg)
  | uiDelivery (core : Nat)
  | queueWake (h : Nat)
  | drawTileClaim (core num seq : Nat)
  | drawTileLand (core num seq slot idx : Nat) (rows : List (List Byte))
  | bodyStart (core : Nat)
  /-- With `add`: the counter of a draw counts a BDONE that thread h issued in a cycle on a ring slot (R100). -/
  | drawCompleteMessage (core num seq : Nat) (add : Option (Nat × Nat × Nat))
  | tableChangeAck (h cl : Nat)
  | qldEntryArrival (h q id core off : Nat)
  | sfuStart (core : Nat)
  | sfuComplete (core h : Nat)
  | cisternRowMove (h id : Nat)
  | mldcPerform (h tile : Nat) (r : TileRef)
  | mspwEntryArrival (h since idx : Nat)
  | operandArrival (h since idx : Nat)
  | matrixStepStart (core : Nat)
  | matrixStepEnd (core : Nat)
  | multicastRegister (h since idx : Nat)
  | multicastLaunch (cl id : Nat)
  | groupWatchdogExpiry (h since : Nat)
  | wellStoreLand (h core off : Nat) (bytes : List Byte) (sent : Nat)
  | wellwinMirrorUpdate (owner peer : Nat) (rights : BitVec 2)
  | tileLockGrant (h id : Nat)
  | redAck (h : Nat) (va : Word) (flags : BitVec 5) (sent : Nat)
  | farAccessPerform (r : FarReq)
  | sliceLineEvict (line : Nat)
  | tlbWalkComplete (h : Nat) (va : Word) (acc : Access)
  /-- A walker of a die reads a table for a miss, or ends (R246, R247). -/
  | walkRead (die id : Nat)
  | copyPiece (id : Nat)
  | copytRead (id : Nat)
  | copytWrite (id : Nat)
  | copyComplete (id : Nat)
  | bkProbeStart (id : Nat)
  | bkStep (id : Nat)
  | bkComplete (id : Nat)
  | ovldAccept (r : OvldReq)
  | ovldStatus (r : OvldReq) (status : Nat)
  | overlayLoaded (chan slot handle : Nat)
  | kernelLaunchStart (chan : Nat)
  | pumpKernelSaveTimeout (chan : Nat)
  | launchPageQueue (chan : Nat) (l : Launch)
  | zeroFillStep (chan : Nat)
  | tqRequestPerform (r : TqReq)
  | tqAnswer (r : TqReq) (a : Option Task)
  | taskReinsert (part h : Nat) (t : Task)
  | notifyWrite (ctx : Nat) (v : Nat)
  | kernelNode (ctx q : Nat)
  | copyNode (ctx q : Nat)
  | nearMemoryNode (ctx q : Nat)
  | configureNode (ctx q : Nat)
  | conditionNode (ctx q : Nat)
  | loopNode (ctx q : Nat)
  | switchNode (ctx q : Nat)
  | nodeComplete (ctx q : Nat) (live : BitVec 4)
  | retiredUpdate (ctx : Nat)
  | timeSliceExpiry (ctx since : Nat)
  | contextSave (ctx : Nat) (late : Bool)
  | contextRestore (ctx : Nat)
  | contextComplete (ctx : Nat)
  | trapRecordWrite (part : Nat) (r : TrapRecord)
  | faultQueueWrite (part : Nat) (r : TrapRecord)
  | faultQueueAck (part : Nat)
  | create (part : Nat) (arg : Nat)
  | resize (part : Nat) (arg : Nat)
  | destroy (part : Nat)
  | key (part slot : Nat) (arg : Nat)
  | contextCreate (part : Nat)
  | contextDestroy (part ctx : Nat)
  | fqconsWrite (part : Nat) (v : Word)
  | threadRead (part : Nat)
  | threadWrite (part : Nat)
  | threadResume (part : Nat)
  | attest (part : Nat)
  | hostMemAccess (part : Nat) (off : Nat) (store : Option (List Byte)) (atom : Option HostAtom)
  | linkFailure (link : Nat)
  | fabricWindowActivate (part entry : Nat)
  | injectionWindowStart
  | dbgHalt (g : Nat)
  | dbgRun (g : Nat)
  | dbgInvi (g : Nat)
  | dbgRead (g : Nat)
  | dbgWrite (g : Nat)
  | haltTriggerArrival (g : Nat)
  | coreHaltStop (core : Nat) (stop : Bool)
  | moduleReset (index : BitVec 4) (joined : Bool)
  | readySet (u : ReadyUnit)
  | powerThrottle (watts : Nat)
  | thermalHalt (die : Nat) (hot : Bool)
  | registerWrite (fn addr : Nat) (v : Word)
  | illegalInstruction (word : BitVec 32)
  | hashAccessComplete (h : Nat)
  | hostSnoop (line : Nat)
  | backInvalidateResponse (line : Nat)
  | linkFlitReplay (link seq : Nat) (crcOk : Bool)
  deriving DecidableEq, Repr

/-- The instructions and steps, one for each row of spec/opcode_table.json: first the rows with an encoding, in
the table's order, then the steps of the engines, whose operands stand in `Event`. -/
inductive Instr where
  /-- R51. Adds two scalar registers modulo 2^64. -/
  | add (b a d : BitVec 5)
  /-- R51. Subtracts two scalar registers modulo 2^64. -/
  | sub (b a d : BitVec 5)
  /-- R51. Writes the low 64 bits of a product. -/
  | mul (b a d : BitVec 5)
  /-- R51. Writes the high 64 bits of the signed product. -/
  | mulh (b a d : BitVec 5)
  /-- R51. Writes the high 64 bits of the natural product. -/
  | mulhn (b a d : BitVec 5)
  /-- R52. Signed division truncated toward zero, with defined results for zero and overflow. -/
  | div (b a d : BitVec 5)
  /-- R52. Natural division, all ones for a zero divisor. -/
  | divn (b a d : BitVec 5)
  /-- R52. Signed remainder with the sign of the dividend. -/
  | rem (b a d : BitVec 5)
  /-- R52. Natural remainder. -/
  | remn (b a d : BitVec 5)
  /-- R51. Bitwise AND of two registers. -/
  | and (b a d : BitVec 5)
  /-- R51. Bitwise OR of two registers. -/
  | or (b a d : BitVec 5)
  /-- R51. Bitwise XOR of two registers. -/
  | xor (b a d : BitVec 5)
  /-- R51. AND with the complement of the second operand. -/
  | andn (b a d : BitVec 5)
  /-- R51. OR with the complement of the second operand. -/
  | orn (b a d : BitVec 5)
  /-- R51. Shifts left by the low six bits of x[rb]. -/
  | shl (b a d : BitVec 5)
  /-- R51. Logical shift right. -/
  | shr (b a d : BitVec 5)
  /-- R51. Arithmetic shift right. -/
  | sra (b a d : BitVec 5)
  /-- R51. Rotates left. -/
  | rotl (b a d : BitVec 5)
  /-- R51. Rotates right. -/
  | rotr (b a d : BitVec 5)
  /-- R51. Signed minimum. -/
  | min (b a d : BitVec 5)
  /-- R51. Signed maximum. -/
  | max (b a d : BitVec 5)
  /-- R51. Natural minimum. -/
  | minn (b a d : BitVec 5)
  /-- R51. Natural maximum. -/
  | maxn (b a d : BitVec 5)
  /-- R51. Sets 1 when signed less than. -/
  | slt (b a d : BitVec 5)
  /-- R51. Sets 1 when naturally less than. -/
  | sltn (b a d : BitVec 5)
  /-- R51. Counts leading zero bits. -/
  | clz (a d : BitVec 5)
  /-- R51. Counts trailing zero bits. -/
  | ctz (a d : BitVec 5)
  /-- R51. Counts one bits. -/
  | popc (a d : BitVec 5)
  /-- R51. Sign-extends the low byte. -/
  | sextB (a d : BitVec 5)
  /-- R51. Sign-extends the low 16 bits. -/
  | sextH (a d : BitVec 5)
  /-- R51. Sign-extends the low 32 bits. -/
  | sextW (a d : BitVec 5)
  /-- R51. Zero-extends the low byte. -/
  | zextB (a d : BitVec 5)
  /-- R51. Zero-extends the low 16 bits. -/
  | zextH (a d : BitVec 5)
  /-- R51. Zero-extends the low 32 bits. -/
  | zextW (a d : BitVec 5)
  /-- R52. Extracts a signed bit field. -/
  | bfx (b a d : BitVec 5)
  /-- R52. Extracts a natural bit field. -/
  | bfxn (b a d : BitVec 5)
  /-- R52. Inserts a bit field into x[rd]. -/
  | bfi (b a d : BitVec 5)
  /-- R51. Reverses the eight bytes of a register. -/
  | bswap (a d : BitVec 5)
  /-- R53. Translates an address and writes its home slice, channel and attributes. -/
  | hasha (a d : BitVec 5)
  /-- R54. Adds a sign-extended 15-bit immediate. -/
  | addi (i : BitVec 15) (a d : BitVec 5)
  /-- R54. ANDs a sign-extended immediate. -/
  | andi (i : BitVec 15) (a d : BitVec 5)
  /-- R54. ORs a sign-extended immediate. -/
  | ori (i : BitVec 15) (a d : BitVec 5)
  /-- R54. XORs a sign-extended immediate. -/
  | xori (i : BitVec 15) (a d : BitVec 5)
  /-- R55. Shifts left by an immediate count. -/
  | shli (n : BitVec 6) (a d : BitVec 5)
  /-- R55. Logical shift right by an immediate count. -/
  | shri (n : BitVec 6) (a d : BitVec 5)
  /-- R55. Arithmetic shift right by an immediate count. -/
  | srai (n : BitVec 6) (a d : BitVec 5)
  /-- R55. Rotates left by an immediate count. -/
  | roti (n : BitVec 6) (a d : BitVec 5)
  /-- R55. Sets 1 when less than a 12-bit signed immediate. -/
  | slti (i : BitVec 12) (a d : BitVec 5)
  /-- R56. Loads a sign-extended 20-bit immediate shifted left by 12. -/
  | lih (i : BitVec 20) (d : BitVec 5)
  /-- R56. Adds a shifted immediate to the page of its own address. -/
  | addpc (i : BitVec 20) (d : BitVec 5)
  /-- R57. Compares two registers and annuls the next sk instructions when the condition holds. -/
  | sk (b a : BitVec 5) (k : BitVec 2) (c : BitVec 3)
  /-- R57. Compares a register with an immediate and annuls the next sk instructions when it holds. -/
  | ski (i : BitVec 15) (a : BitVec 5) (k : BitVec 2) (c : BitVec 3)
  /-- R58. Branches by a parcel offset when the condition holds. -/
  | bCc (o : BitVec 10) (b a : BitVec 5) (p : BitVec 2) (c : BitVec 3)
  /-- R59. Unconditional branch by a 25-bit parcel offset. -/
  | br (i : BitVec 25)
  /-- R59. Branches and writes the return address to x30. -/
  | call (i : BitVec 25)
  /-- R60. Jumps to a register plus offset and writes the link register. -/
  | jalr (i : BitVec 15) (a d : BitVec 5)
  /-- R61. Decrements a counter and branches while it is nonzero. -/
  | loop (i : BitVec 15) (d : BitVec 5)
  /-- R63. Reads a control register. -/
  | csrr (n : BitVec 12) (d : BitVec 5)
  /-- R63. Writes a control register. -/
  | csrw (n : BitVec 12) (a : BitVec 5)
  /-- R63. Sets bits of a control register indivisibly. -/
  | csrs (n : BitVec 12) (a : BitVec 5)
  /-- R63. Clears bits of a control register indivisibly. -/
  | csrc (n : BitVec 12) (a : BitVec 5)
  /-- R65. Takes one issue slot and does nothing. -/
  | nop
  /-- R65. Raises a precise trap of cause 0x0D with TRAPVAL x[ra]. -/
  | trap (a : BitVec 5)
  /-- R65. Raises a breakpoint trap of cause 0x0E. -/
  | bkpt
  /-- R66. Discards the core's instruction cache and fetch buffers. -/
  | fencei
  /-- R68. Drops to user level and transfers to x[ra]. -/
  | eret (a : BitVec 5)
  /-- R68. Parks the issuing supervisor thread without a trap record. -/
  | halt
  /-- R67. Removes matching translations from every TLB level of the partition. -/
  | tlbi (b a : BitVec 5)
  /-- R71. Sends a resume to a parked thread named by handle. -/
  | tresume (a : BitVec 5)
  /-- R70. Reads one item of a parked thread's state. -/
  | tstatr (b a d : BitVec 5)
  /-- R70. Writes one item of a parked thread's state or requests a park. -/
  | tstatw (b a d : BitVec 5)
  /-- R33. Lane parcel adding vs to vd in F32. -/
  | vaddF32Parcel (s d : BitVec 5)
  /-- R33. Lane parcel subtracting vs from vd in F32. -/
  | vsubF32Parcel (s d : BitVec 5)
  /-- R33. Lane parcel multiplying vd by vs in F32. -/
  | vmulF32Parcel (s d : BitVec 5)
  /-- R33. Lane parcel F32 maximum. -/
  | vmaxF32Parcel (s d : BitVec 5)
  /-- R33. Lane parcel F32 minimum. -/
  | vminF32Parcel (s d : BitVec 5)
  /-- R33. Lane parcel I32 addition. -/
  | vaddI32Parcel (s d : BitVec 5)
  /-- R33. Lane parcel I32 subtraction. -/
  | vsubI32Parcel (s d : BitVec 5)
  /-- R33. Lane parcel bitwise AND. -/
  | vandParcel (s d : BitVec 5)
  /-- R33. Lane parcel bitwise OR. -/
  | vorParcel (s d : BitVec 5)
  /-- R33. Lane parcel bitwise XOR. -/
  | vxorParcel (s d : BitVec 5)
  /-- R34. Copies vs to vd, reading vs once. -/
  | vmovParcel (s d : BitVec 5)
  /-- R33. Lane parcel B16 addition. -/
  | vaddB16Parcel (s d : BitVec 5)
  /-- R33. Lane parcel B16 multiplication. -/
  | vmulB16Parcel (s d : BitVec 5)
  /-- R33. Lane parcel I32 shift left. -/
  | vshlI32Parcel (s d : BitVec 5)
  /-- R33. Lane parcel I32 arithmetic shift right. -/
  | vsraI32Parcel (s d : BitVec 5)
  /-- R33. Lane parcel F32 negation of vs into vd. -/
  | vnegF32Parcel (s d : BitVec 5)
  /-- R36. Issues the following instruction n times, stepping flagged register fields. -/
  | rpt (p q r : BitVec 1) (n : BitVec 6)
  /-- R35. 16-bit no-operation taking one issue slot. -/
  | nop16
  /-- R80. Claims a channel slot and sends a 64-bit flit with a tag to a thread of the cluster. -/
  | send (b a : BitVec 5) (n : BitVec 2)
  /-- R82. Takes the oldest flit of a channel, blocking while it is empty. -/
  | recv (n : BitVec 2) (a d : BitVec 5)
  /-- R82. Takes the oldest flit of a channel or returns all ones when empty. -/
  | recvn (n : BitVec 2) (a d : BitVec 5)
  /-- R84. Arms a monitor on a 64-byte well sector. -/
  | mon (a : BitVec 5) (n : BitVec 2)
  /-- R84. Arms a monitor on a 256-byte global line. -/
  | monG (a : BitVec 5) (n : BitVec 2)
  /-- R86. Waits for a write to selected monitors, a time-out or an interrupt. -/
  | mwait (b : BitVec 5) (m : BitVec 4) (d : BitVec 5)
  /-- R87. Disarms a monitor and clears its record. -/
  | mclr (n : BitVec 2)
  /-- R88. Waits for a 64-bit counter to reach a target, then acquires at scope s. -/
  | cntw (s : BitVec 3) (b a : BitVec 5)
  /-- R90. Arrives at a named barrier and waits for release or time-out. -/
  | bar (b a d : BitVec 5)
  /-- R91. Arrives at a named barrier without waiting. -/
  | bara (b a d : BitVec 5)
  /-- R91. Waits for the phase of a pending BARA arrival. -/
  | barw (a d : BitVec 5)
  /-- R94. Dequeues the oldest inbox message, waiting while empty, and acquires its writes. -/
  | ibx (a d : BitVec 5)
  /-- R94. Dequeues the oldest inbox message or returns zeros when empty. -/
  | ibxn (a d : BitVec 5)
  /-- R97. Swaps the user-interrupt enable bit. -/
  | uien (a d : BitVec 5)
  /-- R97. Returns from a user-interrupt handler to shadow x29. -/
  | uiret
  /-- R75. Starts a thread in a free slot of the issuing core. -/
  | tstart (b a d : BitVec 5)
  /-- R76. Ends the issuing thread once its outstanding work is accepted or acknowledged. -/
  | texit
  /-- R77. Takes the thread out of its rotation for 8 cycles. -/
  | yield
  /-- R78. Requests a gang of size n in the issuing slot. -/
  | gang (b d : BitVec 5)
  /-- R79. Disbands the gang after this instruction. -/
  | ungang
  /-- R180. Checks a request block and starts a draw, returning its handle. -/
  | draw (t : BitVec 8) (a d : BitVec 5)
  /-- R182. Cancels a draw so no new tiles are claimed. -/
  | dcan (a : BitVec 5)
  /-- R183. Returns the delivered and consumed counts and state of a draw. -/
  | dstat (a d : BitVec 5)
  /-- R100. Ends a body: releases, frees the slot, adds to the counter and may complete the draw. -/
  | bdone
  /-- R185. Loads a tensor identifier from a 64-byte descriptor. -/
  | tdef (t : BitVec 8) (a : BitVec 5)
  /-- R186. Makes a tensor identifier invalid. -/
  | tinv (t : BitVec 8)
  /-- R187. Reads a word or the valid bit of a tensor identifier. -/
  | tqry (t : BitVec 8) (b d : BitVec 5)
  /-- R190. Pushes 128 bytes read from a well onto q0 or q1. -/
  | qld (a : BitVec 5) (n : BitVec 2)
  /-- R190. Pops q2 or q3 and writes 128 bytes to a well. -/
  | qst (a : BitVec 5) (n : BitVec 2)
  /-- R190. Pushes two scalar registers as a queue entry. -/
  | qpx (b a : BitVec 5) (n : BitVec 2)
  /-- R149. Lane-wise addition. -/
  | vadd (t : BitVec 3) (b a d : BitVec 5)
  /-- R149. Lane-wise subtraction. -/
  | vsub (t : BitVec 3) (b a d : BitVec 5)
  /-- R149. Lane-wise multiplication. -/
  | vmul (t : BitVec 3) (b a d : BitVec 5)
  /-- R149. Fused multiply-add into vd. -/
  | vfma (t : BitVec 3) (b a d : BitVec 5)
  /-- R149. Fused multiply-subtract of vd. -/
  | vfms (t : BitVec 3) (b a d : BitVec 5)
  /-- R150. Lane-wise minimum, signed or floating. -/
  | vmin (t : BitVec 3) (b a d : BitVec 5)
  /-- R149. Lane-wise natural minimum. -/
  | vminN (t : BitVec 3) (b a d : BitVec 5)
  /-- R150. Lane-wise maximum, signed or floating. -/
  | vmax (t : BitVec 3) (b a d : BitVec 5)
  /-- R149. Lane-wise natural maximum. -/
  | vmaxN (t : BitVec 3) (b a d : BitVec 5)
  /-- R150. Lane-wise absolute value. -/
  | vabs (t : BitVec 3) (a d : BitVec 5)
  /-- R150. Lane-wise negation. -/
  | vneg (t : BitVec 3) (a d : BitVec 5)
  /-- R151. Bitwise AND of vectors. -/
  | vand (t : BitVec 3) (b a d : BitVec 5)
  /-- R151. Bitwise OR of vectors. -/
  | vor (t : BitVec 3) (b a d : BitVec 5)
  /-- R151. Bitwise XOR of vectors. -/
  | vxor (t : BitVec 3) (b a d : BitVec 5)
  /-- R151. Bitwise NOT of a vector. -/
  | vnot (t : BitVec 3) (a d : BitVec 5)
  /-- R151. Lane-wise shift left. -/
  | vshl (t : BitVec 3) (b a d : BitVec 5)
  /-- R151. Lane-wise logical shift right. -/
  | vshr (t : BitVec 3) (b a d : BitVec 5)
  /-- R151. Lane-wise arithmetic shift right. -/
  | vsra (t : BitVec 3) (b a d : BitVec 5)
  /-- R152. Lane-wise compare giving all ones or zero. -/
  | vcmp (t c : BitVec 3) (b a d : BitVec 5)
  /-- R152. Selects lanes of va or vb by vd. -/
  | vsel (t : BitVec 3) (b a d : BitVec 5)
  /-- R154. Converts elements between formats under FRM. -/
  | vcvt (t : BitVec 3) (n : BitVec 1) (s : BitVec 4) (p a d : BitVec 5)
  /-- R155. Divides by a scale and narrows with one rounding. -/
  | vqnt (t : BitVec 3) (n : BitVec 1) (p : BitVec 2) (b a d : BitVec 5)
  /-- R156. Dequantises source elements times a scale into F32. -/
  | vdq (p : BitVec 3) (s : BitVec 2) (b a d : BitVec 5)
  /-- R157. Broadcasts a scalar to every lane. -/
  | vbcast (t : BitVec 3) (a d : BitVec 5)
  /-- R157. Extracts one lane into a scalar register. -/
  | vext (t : BitVec 3) (b a d : BitVec 5)
  /-- R157. Extracts one lane zero-extended. -/
  | vextN (t : BitVec 3) (b a d : BitVec 5)
  /-- R157. Inserts a scalar into one lane. -/
  | vins (t : BitVec 3) (b a d : BitVec 5)
  /-- R157. Permutes lanes by an index vector. -/
  | vperm (t : BitVec 3) (b a d : BitVec 5)
  /-- R157. Slides lanes by a signed scalar amount. -/
  | vslide (t : BitVec 3) (b a d : BitVec 5)
  /-- R157. Writes each lane's index. -/
  | viota (t : BitVec 3) (d : BitVec 5)
  /-- R157. Broadcasts a 10-bit immediate. -/
  | vmovi (t : BitVec 3) (i : BitVec 10) (d : BitVec 5)
  /-- R158. Pairwise tree sum of all lanes into lane 0. -/
  | vrsum (t : BitVec 3) (a d : BitVec 5)
  /-- R158. Tree maximum of all lanes into lane 0. -/
  | vrmax (t : BitVec 3) (a d : BitVec 5)
  /-- R158. Natural tree maximum. -/
  | vrmaxN (t : BitVec 3) (a d : BitVec 5)
  /-- R158. Tree minimum of all lanes into lane 0. -/
  | vrmin (t : BitVec 3) (a d : BitVec 5)
  /-- R158. Natural tree minimum. -/
  | vrminN (t : BitVec 3) (a d : BitVec 5)
  /-- R159. Selects the k largest lanes and their indices. -/
  | vtopk (t : BitVec 3) (k a d : BitVec 5)
  /-- R159. Top-k over N32 lanes. -/
  | vtopkN (t : BitVec 3) (k a d : BitVec 5)
  /-- R160. Correctly rounded reciprocal. -/
  | vrcp (t : BitVec 3) (a d : BitVec 5)
  /-- R160. Correctly rounded reciprocal square root. -/
  | vrsq (t : BitVec 3) (a d : BitVec 5)
  /-- R160. Correctly rounded square root. -/
  | vsqrt (t : BitVec 3) (a d : BitVec 5)
  /-- R160. Correctly rounded division. -/
  | vdiv (t : BitVec 3) (b a d : BitVec 5)
  /-- R160. Correctly rounded 2^a. -/
  | vexp2 (t : BitVec 3) (a d : BitVec 5)
  /-- R160. Correctly rounded log2 a. -/
  | vlog2 (t : BitVec 3) (a d : BitVec 5)
  /-- R160. Correctly rounded sin(pi a). -/
  | vsinp (t : BitVec 3) (a d : BitVec 5)
  /-- R160. Correctly rounded cos(pi a). -/
  | vcosp (t : BitVec 3) (a d : BitVec 5)
  /-- R160. Correctly rounded tanh a. -/
  | vtanh (t : BitVec 3) (a d : BitVec 5)
  /-- R164. Clears a wide accumulator and its flags. -/
  | wclr (w : BitVec 5)
  /-- R164. Adds every lane exactly into a wide accumulator. -/
  | wacc (t : BitVec 3) (a w : BitVec 5)
  /-- R164. Adds lane products, each rounded to 2^-149, into a wide accumulator. -/
  | waccp (t : BitVec 3) (b a w : BitVec 5)
  /-- R117. Rounds a wide accumulator once into lane 0. -/
  | wrnd (w d : BitVec 5)
  /-- R164. Writes a wide accumulator's 48-byte image to a vector register. -/
  | wsave (w d : BitVec 5)
  /-- R164. Loads a wide accumulator from a 48-byte image. -/
  | wload (a w : BitVec 5)
  /-- R168. Adds values into a well hash table by key, lane by lane from LANECUR. -/
  | hacc (u : BitVec 3) (v b a : BitVec 5)
  /-- R170. Looks up keys in a well hash table. -/
  | hlook (u : BitVec 3) (v a d : BitVec 5)
  /-- R170. Clears every entry of a well hash table. -/
  | hclr (u : BitVec 3) (v : BitVec 5)
  /-- R225. Loads a cistern row into a vector register. -/
  | vldc (a d : BitVec 5)
  /-- R225. Stores a vector register into a cistern row. -/
  | vstc (a d : BitVec 5)
  /-- R226. Waits until outstanding row moves are at most n. -/
  | vwaitc (n : BitVec 5)
  /-- R215. Multiplies A by B into a cistern tile, one step per K-block. -/
  | mma (c : BitVec 6) (b a d : BitVec 5)
  /-- R215. MMA with a row mask taken from the selector. -/
  | mmaM (c : BitVec 6) (b a d : BitVec 5)
  /-- R221. Sets a cistern tile to +0.0. -/
  | mzero (c : BitVec 6) (d : BitVec 5)
  /-- R221. Copies one cistern tile to another. -/
  | mcopy (c : BitVec 6) (a : BitVec 5)
  /-- R222. Loads a cistern tile from a dense well tile, widening elements. -/
  | mldc (c : BitVec 6) (a : BitVec 5)
  /-- R223. Stores a cistern tile to a well tile, converting each element. -/
  | mstc (c : BitVec 6) (a : BitVec 5)
  /-- R197. Walks an entry list, adding one block product per entry. -/
  | mspw (c : BitVec 6) (b a : BitVec 5)
  /-- R219. MSPW with a row mask. -/
  | mspwM (c : BitVec 6) (b a d : BitVec 5)
  /-- R282. Loads 1 to 8 bytes from a virtual address, optionally as an acquire. -/
  | ld (p : BitVec 9) (o : BitVec 3) (n : BitVec 1) (z : BitVec 2) (a d : BitVec 5)
  /-- R282. Stores 1 to 8 bytes to a virtual address, optionally as a release. -/
  | st (p : BitVec 9) (o : BitVec 3) (z : BitVec 2) (a d : BitVec 5)
  /-- R285. Loads from a cluster well address. -/
  | ldl (p : BitVec 9) (o : BitVec 3) (n : BitVec 1) (z : BitVec 2) (a d : BitVec 5)
  /-- R285. Stores to a cluster well address. -/
  | stl (p : BitVec 9) (o : BitVec 3) (z : BitVec 2) (a d : BitVec 5)
  /-- R287. Loads a whole tile into the own well as one tile access. -/
  | tld (t : BitVec 8) (b a : BitVec 5) (o : BitVec 3)
  /-- R287. Stores a whole tile from the own well as one tile access. -/
  | tst (t : BitVec 8) (b a : BitVec 5) (o : BitVec 3)
  /-- R294. Atomic add at the home, returning the old value. -/
  | amoAdd (s : BitVec 3) (k : BitVec 2) (w : BitVec 1) (b a d : BitVec 5)
  /-- R294. Atomic AND. -/
  | amoAnd (s : BitVec 3) (k : BitVec 2) (w : BitVec 1) (b a d : BitVec 5)
  /-- R294. Atomic OR. -/
  | amoOr (s : BitVec 3) (k : BitVec 2) (w : BitVec 1) (b a d : BitVec 5)
  /-- R294. Atomic XOR. -/
  | amoXor (s : BitVec 3) (k : BitVec 2) (w : BitVec 1) (b a d : BitVec 5)
  /-- R294. Atomic signed minimum. -/
  | amoMin (s : BitVec 3) (k : BitVec 2) (w : BitVec 1) (b a d : BitVec 5)
  /-- R294. Atomic signed maximum. -/
  | amoMax (s : BitVec 3) (k : BitVec 2) (w : BitVec 1) (b a d : BitVec 5)
  /-- R294. Atomic natural minimum. -/
  | amoMinn (s : BitVec 3) (k : BitVec 2) (w : BitVec 1) (b a d : BitVec 5)
  /-- R294. Atomic natural maximum. -/
  | amoMaxn (s : BitVec 3) (k : BitVec 2) (w : BitVec 1) (b a d : BitVec 5)
  /-- R294. Atomic swap. -/
  | amoSwap (s : BitVec 3) (k : BitVec 2) (w : BitVec 1) (b a d : BitVec 5)
  /-- R294. Atomic compare-and-swap against x[rd]. -/
  | amoCas (s : BitVec 3) (k : BitVec 2) (w : BitVec 1) (b a d : BitVec 5)
  /-- R294. Atomic F32 addition rounded RNE. -/
  | amoFadd (s : BitVec 3) (k : BitVec 2) (b a d : BitVec 5)
  /-- R295. Atomic F32 maximum. -/
  | amoFmax (s : BitVec 3) (k : BitVec 2) (b a d : BitVec 5)
  /-- R294. Reduction add at the home without a result. -/
  | redAdd (s : BitVec 3) (k : BitVec 2) (w : BitVec 1) (b a : BitVec 5)
  /-- R294. Reduction AND. -/
  | redAnd (s : BitVec 3) (k : BitVec 2) (w : BitVec 1) (b a : BitVec 5)
  /-- R294. Reduction OR. -/
  | redOr (s : BitVec 3) (k : BitVec 2) (w : BitVec 1) (b a : BitVec 5)
  /-- R294. Reduction XOR. -/
  | redXor (s : BitVec 3) (k : BitVec 2) (w : BitVec 1) (b a : BitVec 5)
  /-- R294. Reduction signed minimum. -/
  | redMin (s : BitVec 3) (k : BitVec 2) (w : BitVec 1) (b a : BitVec 5)
  /-- R294. Reduction signed maximum. -/
  | redMax (s : BitVec 3) (k : BitVec 2) (w : BitVec 1) (b a : BitVec 5)
  /-- R294. Reduction natural minimum. -/
  | redMinn (s : BitVec 3) (k : BitVec 2) (w : BitVec 1) (b a : BitVec 5)
  /-- R294. Reduction natural maximum. -/
  | redMaxn (s : BitVec 3) (k : BitVec 2) (w : BitVec 1) (b a : BitVec 5)
  /-- R229. Reduction F32 addition at the home, flags returned with the acknowledgement. -/
  | redFadd (s : BitVec 3) (k : BitVec 2) (b a : BitVec 5)
  /-- R295. Reduction F32 maximum. -/
  | redFmax (s : BitVec 3) (k : BitVec 2) (b a : BitVec 5)
  /-- R290. Waits until earlier accesses are performed at scope s, writing back and invalidating the cache for wide scopes. -/
  | fence (s : BitVec 3)
  /-- R291. Writes back dirty first-level bytes of a range. -/
  | cwb (b a : BitVec 5)
  /-- R291. Writes back and drops first-level sectors of a range. -/
  | cinv (b a : BitVec 5)
  /-- R292. Prefetches sectors of a range into the first-level cache. -/
  | pfx (b a : BitVec 5)
  /-- R300. Hands a byte copy to an engine. -/
  | cpy (e f : BitVec 1) (b a d : BitVec 5)
  /-- R231. Hands a whole-tile atomic copy to an engine. -/
  | cpyt (e f : BitVec 1) (b a d : BitVec 5)
  /-- R300. Hands a pattern fill to an engine. -/
  | fill (f : BitVec 1) (b a d : BitVec 5)
  /-- R305. Near-bank copy of DRAM rows. -/
  | bkCpy (b a d : BitVec 5)
  /-- R326. Near-bank fill with an 8-byte pattern. -/
  | bkFil (b a d : BitVec 5)
  /-- R326. Near-bank AND of two sources. -/
  | bkAnd (b a d : BitVec 5)
  /-- R326. Near-bank OR of two sources. -/
  | bkOr (b a d : BitVec 5)
  /-- R326. Near-bank XOR of two sources. -/
  | bkXor (b a d : BitVec 5)
  /-- R326. Near-bank NOT of a source. -/
  | bkNot (b a d : BitVec 5)
  /-- R326. Near-bank bitwise majority of three sources. -/
  | bkMaj (b a d : BitVec 5)
  /-- R315. Requests loading a 4 KiB overlay image into a pump's loading slot. -/
  | ovld (b a d : BitVec 5)
  /-- R315. Queues a kernel launch on a pump. -/
  | ovldGo (b a d : BitVec 5)
  /-- R331. Pump reads memory into its buffer. -/
  | prd (b a d : BitVec 5)
  /-- R331. Pump writes its buffer to memory. -/
  | pwr (b a d : BitVec 5)
  /-- R332. Pump pushes buffer bytes into a well or a home slice. -/
  | ppush (b a d : BitVec 5)
  /-- R333. Ends the kernel, posting its end message or updating its launch slot. -/
  | pend
  /-- R337. Sends a keyed task to the partition's task queue. -/
  | tqadd (a : BitVec 5)
  /-- R337. Takes a task, blocking until one is present. -/
  | tqtake (d : BitVec 5)
  /-- R337. Takes a task or returns empty. -/
  | tqtry (d : BitVec 5)
  /-- R337. Marks the held task kept. -/
  | tcmt
  /-- R337. Finishes the held task. -/
  | tdone
  /-- R67. TLBI retires once no covered TLB holds a match and earlier walks have finished. -/
  | tlbiRetire
  /-- R414. A TSTATR, TSTATW, TRESUME or THRCMD operation reaches the target core, is checked and takes effect, and its reply is sent. -/
  | supervisorOpArrival
  /-- R414. The reply of a supervisor operation reaches the issuing thread and the instruction retires. -/
  | supervisorReply
  /-- R70. A pending park request takes effect at the target's next boundary where parking is possible. -/
  | parkRequestEffect
  /-- R89. An arrival is made once earlier accesses, REDs and dirty bytes are released; it opens, counts or completes a phase. -/
  | barrierArrival
  /-- R90. Fourteen cycles after the completing arrival every waiting participant is released with status 0 and acquires. -/
  | barrierRelease
  /-- R90. BARTMO cycles after its arrival a waiting participant gets status 1 and its arrival is withdrawn. -/
  | barrierTimeout
  /-- R75. The thread started by TSTART enters its rotation two cycles after issue. -/
  | tstartReady
  /-- R76. TEXIT retires after its waits, releases at device scope, disarms monitors, discards flits and makes the slot Exited. -/
  | texitRetire
  /-- R77. Eight cycles after YIELD the thread is back in its rotation. -/
  | yieldWake
  /-- R78. When the last member has issued GANG, every member is back in its rotation n cycles later as a gang. -/
  | gangForm
  /-- R78. A waiting GANG member whose BARTMO expires leaves the request with status 1. -/
  | gangTimeout
  /-- R80. A flit enters its receive channel, or is discarded when no thread of the context holds the slot. -/
  | flitArrival
  /-- R82. A thread blocked in RECV is back in its rotation two cycles after a flit arrives. -/
  | recvWake
  /-- R81. A waiting SEND claims a freed channel slot 5 + 2h cycles after it was freed. -/
  | channelClaim
  /-- R86. Three cycles after a recorded write, a thread blocked in MWAIT returns with status 1. -/
  | monitorWake
  /-- R86. MWAIT returns status 2 T cycles after issue. -/
  | mwaitTimeout
  /-- R88. Three cycles after the update that brings a counter to the target, the blocked CNTW thread is back in rotation and acquires. -/
  | cntwWake
  /-- R93. An engine's completion message enters the core's inbox, or waits at its source while the inbox is full. -/
  | inboxMessageArrival
  /-- R96. A qualifying inbox message makes an access thread enter its user-interrupt handler at a boundary. -/
  | uiDelivery
  /-- R18. A thread blocked on a pair-queue pop or push is back in its rotation once an entry or free space is available. -/
  | queueWake
  /-- R134. A pump checks a tile's pages, claims the lowest free ring slot and reads the tile. -/
  | drawTileClaim
  /-- R103. A tile's rows land in its ring slot as a snapshot with tag and row mask. -/
  | drawTileLand
  /-- R99. A body thread starts on a landed tile once an allowed slot is free. -/
  | bodyStart
  /-- R139. A finished, cancelled or faulted draw posts its KIND 0x03 message to the issuing core. -/
  | drawCompleteMessage
  /-- R185. A cluster acknowledges a TDEF or TINV; the last acknowledgement retires the instruction. -/
  | tableChangeAck
  /-- R192. A peer-well QLD entry becomes poppable 12 + 4h cycles after issue. -/
  | qldEntryArrival
  /-- R161. The special-function unit starts the head request of its queue. -/
  | sfuStart
  /-- R161. Twelve cycles after its start a request's result is written and the instruction retires or traps. -/
  | sfuComplete
  /-- R225. A VLDC or VSTC is performed on its cistern row and CWAITCNT falls a cycle later. -/
  | cisternRowMove
  /-- R222. The rows of an MLDC arrive and the held tile is written. -/
  | mldcPerform
  /-- R198. A run-ahead entry fetch returns and its A-block fetch is issued, or a fault is held. -/
  | mspwEntryArrival
  /-- R206. A K-block operand or A block arrives for a prepared step. -/
  | operandArrival
  /-- R203. The engine starts the next step of the active instruction chosen in cyclic slot order. -/
  | matrixStepStart
  /-- R202. A step writes its tile in its last cycle; the instruction retires, traps or parks at this boundary. -/
  | matrixStepEnd
  /-- R207. A shared fetch request is registered at the owner's well bank and becomes fetcher or joins. -/
  | multicastRegister
  /-- R207. The owner reads the rows for a multicast fetch once the fetcher's checks pass. -/
  | multicastLaunch
  /-- R208. A joined member's watchdog reaches 65,536 and it traps with cause 0x10. -/
  | groupWatchdogExpiry
  /-- R285. A well store's data is written into the well bank 6 + 2h cycles after issue. -/
  | wellStoreLand
  /-- R238. A WELLWIN write reaches a peer core's rights mirror. -/
  | wellwinMirrorUpdate
  /-- R259. A unit's shared or exclusive lock is granted; the last grant performs the tile access. -/
  | tileLockGrant
  /-- R229. A RED's acknowledgement reaches the issuing core and its flags are ORed into FFLAGS. -/
  | redAck
  /-- R415. A far access, fill, write-back, AMO or RED is performed at its home slice and its reply sent. -/
  | farAccessPerform
  /-- R413. A home slice evicts a held line at a time the device chooses. -/
  | sliceLineEvict
  /-- R247. A page walk finishes and every waiting access receives its translation or fault. -/
  | tlbWalkComplete
  /-- R300. A copy engine reads and writes one 64-byte piece of a CPY or FILL, checking each new page. -/
  | copyPiece
  /-- R231. A CPYT reads its whole source at one moment. -/
  | copytRead
  /-- R231. A CPYT writes its whole destination at one moment. -/
  | copytWrite
  /-- R301. A copy's counter is increased as a device-scope release and any message is posted. -/
  | copyComplete
  /-- R322. A command's slice probe marks every operand line and the command starts when the last mark is granted. -/
  | bkProbeStart
  /-- R320. One fast-path step or fallback row of a near-bank command is written. -/
  | bkStep
  /-- R328. A near-bank command's work ends, its marks are released and its KIND 0x02 message is sent. -/
  | bkComplete
  /-- R315. The pump decides an OVLD or OVLD.go request's status and acts on it. -/
  | ovldAccept
  /-- R314. The status of an OVLD reaches the issuing thread 110 cycles after issue and it retires. -/
  | ovldStatus
  /-- R315. The loading slot becomes Loaded 520 cycles after OVLD issue. -/
  | overlayLoaded
  /-- R316. A queued launch starts a near-memory kernel on the pump, or ends with STATUS 2. -/
  | kernelLaunchStart
  /-- R318. A kernel still running 2^20 cycles after a save was requested raises cause 0x10. -/
  | pumpKernelSaveTimeout
  /-- R317. The dispatcher queues the launch on its pump 40 cycles after the swap. -/
  | launchPageQueue
  /-- R324. A pump fills one row per bank with zeros during change-of-owner zeroing. -/
  | zeroFillStep
  /-- R338. The queue performs insertions and takes that reach it, in handle order. -/
  | tqRequestPerform
  /-- R337. A take's answer reaches the thread, setting its task state HELD with an acquire. -/
  | tqAnswer
  /-- R339. A task given up at a save is inserted into the queue 30 or 55 cycles later. -/
  | taskReinsert
  /-- R342. A larger value written to the notify word makes the command processor accept records. -/
  | notifyWrite
  /-- R345. A ready kernel node copies its well image and places its pairs on cores. -/
  | kernelNode
  /-- R346. A ready copy node issues a copy for the context. -/
  | copyNode
  /-- R347. A ready near-memory node queues a pump kernel launch. -/
  | nearMemoryNode
  /-- R348. A ready configure node checks its sources and applies context modes together. -/
  | configureNode
  /-- R349. Reads a word and sends live or cancelled edges by a condition. -/
  | conditionNode
  /-- R349. Reads a word and runs its body again or releases its successors. -/
  | loopNode
  /-- R349. Reads a word and makes one successor edge live. -/
  | switchNode
  /-- R344. A node completes, releases its work, sends its edges and posts any notification. -/
  | nodeComplete
  /-- R342. The command processor stores the new RETIRED count with release. -/
  | retiredUpdate
  /-- R354. A resident context's time slice expires; it is pre-empted or starts a new slice. -/
  | timeSliceExpiry
  /-- R369. A context is stopped, its engines drained and its state written to the save area. -/
  | contextSave
  /-- R370. A waiting context is placed or restored on its cores before its threads issue. -/
  | contextRestore
  /-- R355. A context with no threads or pending work completes and releases its cores. -/
  | contextComplete
  /-- R362. A trap record reaches the ring's home and is written when the ring has room. -/
  | trapRecordWrite
  /-- R364. A record reaching the host agent is written to the fault queue when it has room. -/
  | faultQueueWrite
  /-- R364. The host link acknowledges a fault-queue slot write, FQPROD advances and vector 0 may fire. -/
  | faultQueueAck
  /-- R373. PCMD CREATE checks a partition record, zeroes its units and starts supervisor threads. -/
  | create
  /-- R375. PCMD RESIZE quiesces, migrates, zeroes and reassigns a partition's granules. -/
  | resize
  /-- R373. PCMD DESTROY discards a partition's contexts and tasks and frees its granules. -/
  | destroy
  /-- R378. PCMD KEY loads a partition key slot. -/
  | key
  /-- R341. CTXCMD create reads a context record and creates the context or refuses it. -/
  | contextCreate
  /-- R381. CTXCMD destroy removes a context and gives up its held tasks. -/
  | contextDestroy
  /-- R381. A host write of FQCONS frees fault-queue slots or is ignored when out of range. -/
  | fqconsWrite
  /-- R381. THRCMD read acts as TSTATR issued by the supervisor. -/
  | threadRead
  /-- R381. THRCMD write acts as TSTATW issued by the supervisor. -/
  | threadWrite
  /-- R381. THRCMD resume acts as TRESUME issued by the supervisor. -/
  | threadResume
  /-- R388. ATTEST.GO reads a nonce and writes a signed attestation report. -/
  | attest
  /-- R382. A host CXL.mem access is performed at the line's home slice. -/
  | hostMemAccess
  /-- R380. An unrecoverable link is reported and its outstanding operations end with cause 0x06. -/
  | linkFailure
  /-- R385. A fabric window becomes active once the remote device confirms the reverse entry. -/
  | fabricWindowActivate
  /-- R377. A new 1,024-cycle window resets injection counts and admits waiting requests. -/
  | injectionWindowStart
  /-- R392. DBGCMD HALT halts the cluster and sends triggers. -/
  | dbgHalt
  /-- R394. DBGCMD RUN returns halted threads to their rotations. -/
  | dbgRun
  /-- R390. DBGCMD INVI discards the cluster's instruction caches and fetch buffers. -/
  | dbgInvi
  /-- R395. DBGACC read copies a thread item, well word or cistern word into DBGVAL. -/
  | dbgRead
  /-- R395. DBGACC write stores DBGVAL into a thread item, well word or cistern word. -/
  | dbgWrite
  /-- R392. A halt trigger from another debug module arrives and halts the cluster when TRIGIN is set. -/
  | haltTriggerArrival
  /-- R392. A core of a halting cluster stops issuing 2 + h cycles after the halt. -/
  | coreHaltStop
  /-- R400. Power-on or a RESET write clears every unit and starts bring-up and firmware checks. -/
  | moduleReset
  /-- R398. A function comes up by itself and sets its readiness bit, releasing waiting requests. -/
  | readySet
  /-- R402. Measured power above PWRCAP over a window makes rotations drop issue slots. -/
  | powerThrottle
  /-- R402. A die reaching 105 °C halts every cluster and signals the physical function. -/
  | thermalHalt
  /-- R5. A write to a host-visible register with no behaviour of its own stores its fields. -/
  | registerWrite
  /-- R47. A thread executes a word or parcel that is not an instruction (major 0x00 or 0x32-0x3F, an unassigned code, a reserved control-parcel kind, parcel 0x0000) and takes cause 0x01. -/
  | illegalInstruction
  /-- R148. The lanes or entries of an HACC, HLOOK or HCLR finish at the table's well and the waiting execute thread retires or traps. -/
  | hashAccessComplete
  /-- R383. A CXL.cache snoop from the host reaches the host agent and takes back a host line that the agent holds, including a line kept for an SA = 1 atomic. -/
  | hostSnoop
  /-- R382. The host's answer to a back-invalidate snoop arrives at the home slice, which may then perform the waiting device AMO or RED on the SA = 1 line. -/
  | backInvalidateResponse
  /-- R380. A flit on the UCIe link or a scale-up port arrives with a CRC error or an out-of-sequence number and is retried from the replay buffer, or is discarded as a duplicate. -/
  | linkFlitReplay
  deriving DecidableEq, Repr

/-- The step that an event is an occurrence of. -/
def Event.instr : Event → Instr
  | .tlbiRetire _ => .tlbiRetire
  | .supervisorOpArrival _ => .supervisorOpArrival
  | .supervisorReply _ _ => .supervisorReply
  | .parkRequestEffect _ => .parkRequestEffect
  | .barrierArrival _ => .barrierArrival
  | .barrierRelease _ _ _ _ => .barrierRelease
  | .barrierTimeout _ _ => .barrierTimeout
  | .tstartReady _ => .tstartReady
  | .texitRetire _ => .texitRetire
  | .yieldWake _ _ => .yieldWake
  | .gangForm _ _ => .gangForm
  | .gangTimeout _ _ => .gangTimeout
  | .flitArrival _ _ _ _ _ => .flitArrival
  | .recvWake _ => .recvWake
  | .channelClaim _ => .channelClaim
  | .monitorWake _ _ => .monitorWake
  | .mwaitTimeout _ _ => .mwaitTimeout
  | .cntwWake _ _ => .cntwWake
  | .inboxMessageArrival _ _ _ => .inboxMessageArrival
  | .uiDelivery _ => .uiDelivery
  | .queueWake _ => .queueWake
  | .drawTileClaim _ _ _ => .drawTileClaim
  | .drawTileLand _ _ _ _ _ _ => .drawTileLand
  | .bodyStart _ => .bodyStart
  | .drawCompleteMessage _ _ _ _ => .drawCompleteMessage
  | .tableChangeAck _ _ => .tableChangeAck
  | .qldEntryArrival _ _ _ _ _ => .qldEntryArrival
  | .sfuStart _ => .sfuStart
  | .sfuComplete _ _ => .sfuComplete
  | .cisternRowMove _ _ => .cisternRowMove
  | .mldcPerform _ _ _ => .mldcPerform
  | .mspwEntryArrival _ _ _ => .mspwEntryArrival
  | .operandArrival _ _ _ => .operandArrival
  | .matrixStepStart _ => .matrixStepStart
  | .matrixStepEnd _ => .matrixStepEnd
  | .multicastRegister _ _ _ => .multicastRegister
  | .multicastLaunch _ _ => .multicastLaunch
  | .groupWatchdogExpiry _ _ => .groupWatchdogExpiry
  | .wellStoreLand _ _ _ _ _ => .wellStoreLand
  | .wellwinMirrorUpdate _ _ _ => .wellwinMirrorUpdate
  | .tileLockGrant _ _ => .tileLockGrant
  | .redAck _ _ _ _ => .redAck
  | .farAccessPerform _ => .farAccessPerform
  | .sliceLineEvict _ => .sliceLineEvict
  | .tlbWalkComplete _ _ _ => .tlbWalkComplete
  | .walkRead _ _ => .tlbWalkComplete
  | .copyPiece _ => .copyPiece
  | .copytRead _ => .copytRead
  | .copytWrite _ => .copytWrite
  | .copyComplete _ => .copyComplete
  | .bkProbeStart _ => .bkProbeStart
  | .bkStep _ => .bkStep
  | .bkComplete _ => .bkComplete
  | .ovldAccept _ => .ovldAccept
  | .ovldStatus _ _ => .ovldStatus
  | .overlayLoaded _ _ _ => .overlayLoaded
  | .kernelLaunchStart _ => .kernelLaunchStart
  | .pumpKernelSaveTimeout _ => .pumpKernelSaveTimeout
  | .launchPageQueue _ _ => .launchPageQueue
  | .zeroFillStep _ => .zeroFillStep
  | .tqRequestPerform _ => .tqRequestPerform
  | .tqAnswer _ _ => .tqAnswer
  | .taskReinsert _ _ _ => .taskReinsert
  | .notifyWrite _ _ => .notifyWrite
  | .kernelNode _ _ => .kernelNode
  | .copyNode _ _ => .copyNode
  | .nearMemoryNode _ _ => .nearMemoryNode
  | .configureNode _ _ => .configureNode
  | .conditionNode _ _ => .conditionNode
  | .loopNode _ _ => .loopNode
  | .switchNode _ _ => .switchNode
  | .nodeComplete _ _ _ => .nodeComplete
  | .retiredUpdate _ => .retiredUpdate
  | .timeSliceExpiry _ _ => .timeSliceExpiry
  | .contextSave _ _ => .contextSave
  | .contextRestore _ => .contextRestore
  | .contextComplete _ => .contextComplete
  | .trapRecordWrite _ _ => .trapRecordWrite
  | .faultQueueWrite _ _ => .faultQueueWrite
  | .faultQueueAck _ => .faultQueueAck
  | .create _ _ => .create
  | .resize _ _ => .resize
  | .destroy _ => .destroy
  | .key _ _ _ => .key
  | .contextCreate _ => .contextCreate
  | .contextDestroy _ _ => .contextDestroy
  | .fqconsWrite _ _ => .fqconsWrite
  | .threadRead _ => .threadRead
  | .threadWrite _ => .threadWrite
  | .threadResume _ => .threadResume
  | .attest _ => .attest
  | .hostMemAccess _ _ _ _ => .hostMemAccess
  | .linkFailure _ => .linkFailure
  | .fabricWindowActivate _ _ => .fabricWindowActivate
  | .injectionWindowStart => .injectionWindowStart
  | .dbgHalt _ => .dbgHalt
  | .dbgRun _ => .dbgRun
  | .dbgInvi _ => .dbgInvi
  | .dbgRead _ => .dbgRead
  | .dbgWrite _ => .dbgWrite
  | .haltTriggerArrival _ => .haltTriggerArrival
  | .coreHaltStop _ _ => .coreHaltStop
  | .moduleReset _ _ => .moduleReset
  | .readySet _ => .readySet
  | .powerThrottle _ => .powerThrottle
  | .thermalHalt _ _ => .thermalHalt
  | .registerWrite _ _ _ => .registerWrite
  | .illegalInstruction _ => .illegalInstruction
  | .hashAccessComplete _ => .hashAccessComplete
  | .hostSnoop _ => .hostSnoop
  | .backInvalidateResponse _ => .backInvalidateResponse
  | .linkFlitReplay _ _ _ => .linkFlitReplay

end Sys2Proof
end

