-- ==== Sys2Proof/WellFormed.lean ====
section
/-!
DEFINITION. Which instruction terms are instructions (R47): an encoded term is well formed when no sub-field of
it holds a code that its chapter does not assign; a term that is not raises an illegal-instruction trap when a
thread executes it. An event is well formed when its operands name parts that the module has (R1).
-/

namespace Sys2Proof

/-- The type field is one of the listed codes of R42. -/
def tyIn (t : BitVec 3) (l : List Nat) : Bool := l.contains t.toNat

/-- The control-register numbers that R48 assigns. -/
def csrAssigned (n : Nat) : Bool :=
  [0x000, 0x001, 0x002, 0x003, 0x004, 0x005, 0x010, 0x011, 0x012, 0x020, 0x021, 0x022, 0x030, 0x031, 0x040,
   0x041, 0x050, 0x051, 0x052, 0x053, 0x060, 0x061, 0x062, 0x070, 0x080, 0x081, 0x082, 0x100, 0x101].contains n

/-- SCOPE and KIND of R293: no scope without an ordering, scopes 1-5 with one. -/
def amoQual (s : BitVec 3) (k : BitVec 2) : Bool :=
  if k = 0 then s = 0 else 1 ≤ s.toNat && s.toNat ≤ 5

/-- Well-formedness of an instruction or step. -/
def Instr.wf : Instr → Bool
  | .add _ _ _ => true
  | .sub _ _ _ => true
  | .mul _ _ _ => true
  | .mulh _ _ _ => true
  | .mulhn _ _ _ => true
  | .div _ _ _ => true
  | .divn _ _ _ => true
  | .rem _ _ _ => true
  | .remn _ _ _ => true
  | .and _ _ _ => true
  | .or _ _ _ => true
  | .xor _ _ _ => true
  | .andn _ _ _ => true
  | .orn _ _ _ => true
  | .shl _ _ _ => true
  | .shr _ _ _ => true
  | .sra _ _ _ => true
  | .rotl _ _ _ => true
  | .rotr _ _ _ => true
  | .min _ _ _ => true
  | .max _ _ _ => true
  | .minn _ _ _ => true
  | .maxn _ _ _ => true
  | .slt _ _ _ => true
  | .sltn _ _ _ => true
  | .clz _ _ => true
  | .ctz _ _ => true
  | .popc _ _ => true
  | .sextB _ _ => true
  | .sextH _ _ => true
  | .sextW _ _ => true
  | .zextB _ _ => true
  | .zextH _ _ => true
  | .zextW _ _ => true
  | .bfx _ _ _ => true
  | .bfxn _ _ _ => true
  | .bfi _ _ _ => true
  | .bswap _ _ => true
  | .hasha _ _ => true
  | .addi _ _ _ => true
  | .andi _ _ _ => true
  | .ori _ _ _ => true
  | .xori _ _ _ => true
  | .shli _ _ _ => true
  | .shri _ _ _ => true
  | .srai _ _ _ => true
  | .roti _ _ _ => true
  | .slti _ _ _ => true
  | .lih _ _ => true
  | .addpc _ _ => true
  | .sk _ _ k _ => k ≠ 0
  | .ski i _ k c => k ≠ 0 && (c.toNat < 6 || i.toNat / 64 = 0)
  | .bCc _ _ _ _ _ => true
  | .br _ => true
  | .call _ => true
  | .jalr _ _ _ => true
  | .loop _ _ => true
  | .csrr n _ => csrAssigned n.toNat
  | .csrw n _ => csrAssigned n.toNat
  | .csrs n _ => csrAssigned n.toNat
  | .csrc n _ => csrAssigned n.toNat
  | .nop => true
  | .trap _ => true
  | .bkpt => true
  | .fencei => true
  | .eret _ => true
  | .halt => true
  | .tlbi _ _ => true
  | .tresume _ => true
  | .tstatr _ _ _ => true
  | .tstatw _ _ _ => true
  | .vaddF32Parcel s d => s ≠ 0 || d ≠ 0
  | .vsubF32Parcel _ _ => true
  | .vmulF32Parcel _ _ => true
  | .vmaxF32Parcel _ _ => true
  | .vminF32Parcel _ _ => true
  | .vaddI32Parcel _ _ => true
  | .vsubI32Parcel _ _ => true
  | .vandParcel _ _ => true
  | .vorParcel _ _ => true
  | .vxorParcel _ _ => true
  | .vmovParcel _ _ => true
  | .vaddB16Parcel _ _ => true
  | .vmulB16Parcel _ _ => true
  | .vshlI32Parcel _ _ => true
  | .vsraI32Parcel _ _ => true
  | .vnegF32Parcel _ _ => true
  | .rpt _ _ _ _ => true
  | .nop16 => true
  | .send _ _ _ => true
  | .recv _ _ _ => true
  | .recvn _ _ _ => true
  | .mon _ _ => true
  | .monG _ _ => true
  | .mwait _ _ _ => true
  | .mclr _ => true
  | .cntw s _ _ => s.toNat < 5
  | .bar _ _ _ => true
  | .bara _ _ _ => true
  | .barw _ _ => true
  | .ibx _ _ => true
  | .ibxn _ _ => true
  | .uien _ _ => true
  | .uiret => true
  | .tstart _ _ _ => true
  | .texit => true
  | .yield => true
  | .gang _ _ => true
  | .ungang => true
  | .draw _ _ _ => true
  | .dcan _ => true
  | .dstat _ _ => true
  | .bdone => true
  | .tdef _ _ => true
  | .tinv _ => true
  | .tqry _ _ _ => true
  | .qld _ _ => true
  | .qst _ _ => true
  | .qpx _ _ _ => true
  | .vadd t _ _ _ => tyIn t [0, 1, 2, 5, 6, 7]
  | .vsub t _ _ _ => tyIn t [0, 1, 2, 5, 6, 7]
  | .vmul t _ _ _ => tyIn t [0, 1, 2, 5, 6, 7]
  | .vfma t _ _ _ => tyIn t [0, 1, 2, 5, 6, 7]
  | .vfms t _ _ _ => tyIn t [0, 1, 2, 5, 6, 7]
  | .vmin t _ _ _ => tyIn t [0, 1, 2, 5, 6, 7]
  | .vminN t _ _ _ => tyIn t [5, 6, 7]
  | .vmax t _ _ _ => tyIn t [0, 1, 2, 5, 6, 7]
  | .vmaxN t _ _ _ => tyIn t [5, 6, 7]
  | .vabs t _ _ => tyIn t [0, 1, 2, 5, 6, 7]
  | .vneg t _ _ => tyIn t [0, 1, 2, 5, 6, 7]
  | .vand t _ _ _ => tyIn t [5, 6, 7]
  | .vor t _ _ _ => tyIn t [5, 6, 7]
  | .vxor t _ _ _ => tyIn t [5, 6, 7]
  | .vnot t _ _ => tyIn t [5, 6, 7]
  | .vshl t _ _ _ => tyIn t [5, 6, 7]
  | .vshr t _ _ _ => tyIn t [5, 6, 7]
  | .vsra t _ _ _ => tyIn t [5, 6, 7]
  | .vcmp t c _ _ _ => (tyIn t [0, 1, 2] && c.toNat < 4) || (tyIn t [5, 6, 7] && c.toNat < 6)
  | .vsel _ _ _ _ => true
  | .vcvt t n s _ _ _ => s.toNat < 12 && (n = 0 || tyIn t [5, 6, 7])
  | .vqnt t n _ _ _ _ => tyIn t [1, 2, 3, 4, 6, 7] && (n = 0 || tyIn t [6, 7])
  | .vdq _ _ _ _ _ => true
  | .vbcast _ _ _ => true
  | .vext _ _ _ _ => true
  | .vextN t _ _ _ => tyIn t [5, 6, 7]
  | .vins _ _ _ _ => true
  | .vperm _ _ _ _ => true
  | .vslide _ _ _ _ => true
  | .viota t _ => tyIn t [0, 5, 6]
  | .vmovi t _ _ => tyIn t [0, 5, 6, 7]
  | .vrsum t _ _ => tyIn t [0, 1, 2, 5, 6, 7]
  | .vrmax t _ _ => tyIn t [0, 1, 2, 5, 6, 7]
  | .vrmaxN t _ _ => tyIn t [5, 6, 7]
  | .vrmin t _ _ => tyIn t [0, 1, 2, 5, 6, 7]
  | .vrminN t _ _ => tyIn t [5, 6, 7]
  | .vtopk t _ _ _ => tyIn t [0, 5]
  | .vtopkN t _ _ _ => tyIn t [5]
  | .vrcp t _ _ => tyIn t [0, 1, 2]
  | .vrsq t _ _ => tyIn t [0, 1, 2]
  | .vsqrt t _ _ => tyIn t [0, 1, 2]
  | .vdiv t _ _ _ => tyIn t [0, 1, 2]
  | .vexp2 t _ _ => tyIn t [0, 1, 2]
  | .vlog2 t _ _ => tyIn t [0, 1, 2]
  | .vsinp t _ _ => tyIn t [0, 1, 2]
  | .vcosp t _ _ => tyIn t [0, 1, 2]
  | .vtanh t _ _ => tyIn t [0, 1, 2]
  | .wclr _ => true
  | .wacc t _ _ => tyIn t [0, 1, 2, 5]
  | .waccp t _ _ _ => tyIn t [0, 1, 2, 5]
  | .wrnd _ _ => true
  | .wsave _ _ => true
  | .wload _ _ => true
  | .hacc _ _ _ _ => true
  | .hlook _ _ _ _ => true
  | .hclr _ _ => true
  | .vldc _ _ => true
  | .vstc _ _ => true
  | .vwaitc _ => true
  | .mma _ _ _ _ => true
  | .mmaM _ _ _ _ => true
  | .mzero _ _ => true
  | .mcopy _ _ => true
  | .mldc _ _ => true
  | .mstc _ _ => true
  | .mspw _ _ _ => true
  | .mspwM _ _ _ _ => true
  | .ld _ o n z _ _ => o.toNat < 6 && (n = 0 || z ≠ 3)
  | .st _ o _ _ _ => o.toNat < 6
  | .ldl _ o n z _ _ => o.toNat < 3 && (n = 0 || z ≠ 3)
  | .stl _ o _ _ _ => o.toNat < 3
  | .tld _ _ _ o => o.toNat < 6
  | .tst _ _ _ o => o.toNat < 6
  | .amoAdd s k _ _ _ _ => amoQual s k
  | .amoAnd s k _ _ _ _ => amoQual s k
  | .amoOr s k _ _ _ _ => amoQual s k
  | .amoXor s k _ _ _ _ => amoQual s k
  | .amoMin s k _ _ _ _ => amoQual s k
  | .amoMax s k _ _ _ _ => amoQual s k
  | .amoMinn s k _ _ _ _ => amoQual s k
  | .amoMaxn s k _ _ _ _ => amoQual s k
  | .amoSwap s k _ _ _ _ => amoQual s k
  | .amoCas s k _ _ _ _ => amoQual s k
  | .amoFadd s k _ _ _ => amoQual s k
  | .amoFmax s k _ _ _ => amoQual s k
  | .redAdd s k _ _ _ => amoQual s k && (k = 0 || k = 2)
  | .redAnd s k _ _ _ => amoQual s k && (k = 0 || k = 2)
  | .redOr s k _ _ _ => amoQual s k && (k = 0 || k = 2)
  | .redXor s k _ _ _ => amoQual s k && (k = 0 || k = 2)
  | .redMin s k _ _ _ => amoQual s k && (k = 0 || k = 2)
  | .redMax s k _ _ _ => amoQual s k && (k = 0 || k = 2)
  | .redMinn s k _ _ _ => amoQual s k && (k = 0 || k = 2)
  | .redMaxn s k _ _ _ => amoQual s k && (k = 0 || k = 2)
  | .redFadd s k _ _ => amoQual s k && (k = 0 || k = 2)
  | .redFmax s k _ _ => amoQual s k && (k = 0 || k = 2)
  | .fence s => 1 ≤ s.toNat && s.toNat ≤ 5
  | .cwb _ _ => true
  | .cinv _ _ => true
  | .pfx _ _ => true
  | .cpy _ _ _ _ _ => true
  | .cpyt _ _ _ _ _ => true
  | .fill _ _ _ _ => true
  | .bkCpy _ _ _ => true
  | .bkFil _ _ _ => true
  | .bkAnd _ _ _ => true
  | .bkOr _ _ _ => true
  | .bkXor _ _ _ => true
  | .bkNot _ _ _ => true
  | .bkMaj _ _ _ => true
  | .ovld _ _ _ => true
  | .ovldGo _ _ _ => true
  | .prd _ _ _ => true
  | .pwr _ _ _ => true
  | .ppush _ _ _ => true
  | .pend => true
  | .tqadd _ => true
  | .tqtake _ => true
  | .tqtry _ => true
  | .tcmt => true
  | .tdone => true
  | .tlbiRetire => true
  | .supervisorOpArrival => true
  | .supervisorReply => true
  | .parkRequestEffect => true
  | .barrierArrival => true
  | .barrierRelease => true
  | .barrierTimeout => true
  | .tstartReady => true
  | .texitRetire => true
  | .yieldWake => true
  | .gangForm => true
  | .gangTimeout => true
  | .flitArrival => true
  | .recvWake => true
  | .channelClaim => true
  | .monitorWake => true
  | .mwaitTimeout => true
  | .cntwWake => true
  | .inboxMessageArrival => true
  | .uiDelivery => true
  | .queueWake => true
  | .drawTileClaim => true
  | .drawTileLand => true
  | .bodyStart => true
  | .drawCompleteMessage => true
  | .tableChangeAck => true
  | .qldEntryArrival => true
  | .sfuStart => true
  | .sfuComplete => true
  | .cisternRowMove => true
  | .mldcPerform => true
  | .mspwEntryArrival => true
  | .operandArrival => true
  | .matrixStepStart => true
  | .matrixStepEnd => true
  | .multicastRegister => true
  | .multicastLaunch => true
  | .groupWatchdogExpiry => true
  | .wellStoreLand => true
  | .wellwinMirrorUpdate => true
  | .tileLockGrant => true
  | .redAck => true
  | .farAccessPerform => true
  | .sliceLineEvict => true
  | .tlbWalkComplete => true
  | .copyPiece => true
  | .copytRead => true
  | .copytWrite => true
  | .copyComplete => true
  | .bkProbeStart => true
  | .bkStep => true
  | .bkComplete => true
  | .ovldAccept => true
  | .ovldStatus => true
  | .overlayLoaded => true
  | .kernelLaunchStart => true
  | .pumpKernelSaveTimeout => true
  | .launchPageQueue => true
  | .zeroFillStep => true
  | .tqRequestPerform => true
  | .tqAnswer => true
  | .taskReinsert => true
  | .notifyWrite => true
  | .kernelNode => true
  | .copyNode => true
  | .nearMemoryNode => true
  | .configureNode => true
  | .conditionNode => true
  | .loopNode => true
  | .switchNode => true
  | .nodeComplete => true
  | .retiredUpdate => true
  | .timeSliceExpiry => true
  | .contextSave => true
  | .contextRestore => true
  | .contextComplete => true
  | .trapRecordWrite => true
  | .faultQueueWrite => true
  | .faultQueueAck => true
  | .create => true
  | .resize => true
  | .destroy => true
  | .key => true
  | .contextCreate => true
  | .contextDestroy => true
  | .fqconsWrite => true
  | .threadRead => true
  | .threadWrite => true
  | .threadResume => true
  | .attest => true
  | .hostMemAccess => true
  | .linkFailure => true
  | .fabricWindowActivate => true
  | .injectionWindowStart => true
  | .dbgHalt => true
  | .dbgRun => true
  | .dbgInvi => true
  | .dbgRead => true
  | .dbgWrite => true
  | .haltTriggerArrival => true
  | .coreHaltStop => true
  | .moduleReset => true
  | .readySet => true
  | .powerThrottle => true
  | .thermalHalt => true
  | .registerWrite => true
  | .illegalInstruction => true
  | .hashAccessComplete => true
  | .hostSnoop => true
  | .backInvalidateResponse => true
  | .linkFlitReplay => true

/-- Every operand of an event names a part that the module has (R1): 4,096 threads, 512 cores, 16 clusters, four
dies, 384 near-memory channels, 16 partitions, 64 contexts in each. -/
def Event.wf : Event → Bool
  | .tlbiRetire h => h < 4096
  | .supervisorOpArrival op => op.part < 16 && op.issuer.all (· < 4096)
  | .supervisorReply op _ => op.part < 16 && op.issuer.all (· < 4096)
  | .parkRequestEffect h => h < 4096
  | .barrierArrival h => h < 4096
  | .barrierRelease cl ctx b _ => cl < 16 && ctx < 1024 && b < 32
  | .barrierTimeout h _ => h < 4096
  | .tstartReady h => h < 4096
  | .texitRetire h => h < 4096
  | .yieldWake h _ => h < 4096
  | .gangForm leader n => leader < 4096 && n ≤ 8
  | .gangTimeout h _ => h < 4096
  | .flitArrival src dst chan ctx _ => src < 4096 && dst < 4096 && chan < 4 && ctx < 1024
  | .recvWake h => h < 4096
  | .channelClaim h => h < 4096
  | .monitorWake h _ => h < 4096
  | .mwaitTimeout h _ => h < 4096
  | .cntwWake h _ => h < 4096
  | .inboxMessageArrival core ctx _ => core < 512 && ctx < 1024
  | .uiDelivery core => core < 512
  | .queueWake h => h < 4096
  | .drawTileClaim core num _ => core < 512 && num < 8
  | .drawTileLand core num _ slot _ _ => core < 512 && num < 8 && slot < 256
  | .bodyStart core => core < 512
  | .drawCompleteMessage core num _ add => core < 512 && num < 8 && add.all (·.1 < 4096)
  | .tableChangeAck h cl => h < 4096 && cl < 16
  | .qldEntryArrival h q _ core _ => h < 4096 && q < 2 && core < 512
  | .sfuStart core => core < 512
  | .sfuComplete core h => core < 512 && h < 4096
  | .cisternRowMove h _ => h < 4096
  | .mldcPerform h tile _ => h < 4096 && tile < 64
  | .mspwEntryArrival h _ _ => h < 4096
  | .operandArrival h _ _ => h < 4096
  | .matrixStepStart core => core < 512
  | .matrixStepEnd core => core < 512
  | .multicastRegister h _ _ => h < 4096
  | .multicastLaunch cl _ => cl < 16
  | .groupWatchdogExpiry h _ => h < 4096
  | .wellStoreLand h core _ _ _ => h < 4096 && core < 512
  | .wellwinMirrorUpdate owner peer _ => owner < 512 && peer < 512
  | .tileLockGrant h _ => h < 4096
  | .redAck h _ _ _ => h < 4096
  | .farAccessPerform r => r.h < 4112 && r.pump.all (· < 384)
  | .sliceLineEvict _ => true
  | .tlbWalkComplete h _ _ => h < 4096
  | .walkRead die _ => die < 4
  | .copyPiece _ => true
  | .copytRead _ => true
  | .copytWrite _ => true
  | .copyComplete _ => true
  | .bkProbeStart _ => true
  | .bkStep _ => true
  | .bkComplete _ => true
  | .ovldAccept r => r.h < 4096 && r.chan < 384
  | .ovldStatus r _ => r.h < 4096
  | .overlayLoaded chan slot _ => chan < 384 && slot < 2
  | .kernelLaunchStart chan => chan < 384
  | .pumpKernelSaveTimeout chan => chan < 384
  | .launchPageQueue chan _ => chan < 384
  | .zeroFillStep chan => chan < 384
  | .tqRequestPerform r => r.h < 4096 && r.part < 16
  | .tqAnswer r _ => r.h < 4096
  | .taskReinsert part h _ => part < 16 && h < 4096
  | .notifyWrite ctx _ => ctx < 1024
  | .kernelNode ctx _ => ctx < 1024
  | .copyNode ctx _ => ctx < 1024
  | .nearMemoryNode ctx _ => ctx < 1024
  | .configureNode ctx _ => ctx < 1024
  | .conditionNode ctx _ => ctx < 1024
  | .loopNode ctx _ => ctx < 1024
  | .switchNode ctx _ => ctx < 1024
  | .nodeComplete ctx _ _ => ctx < 1024
  | .retiredUpdate ctx => ctx < 1024
  | .timeSliceExpiry ctx _ => ctx < 1024
  | .contextSave ctx _ => ctx < 1024
  | .contextRestore ctx => ctx < 1024
  | .contextComplete ctx => ctx < 1024
  | .trapRecordWrite part _ => part < 16
  | .faultQueueWrite part _ => part < 16
  | .faultQueueAck part => part < 16
  | .create part _ => part < 16
  | .resize part _ => part < 16
  | .destroy part => part < 16
  | .key part slot _ => part < 16 && slot < 16
  | .contextCreate part => part < 16
  | .contextDestroy part ctx => part < 16 && ctx < 1024
  | .fqconsWrite part _ => part < 16
  | .threadRead part => part < 16
  | .threadWrite part => part < 16
  | .threadResume part => part < 16
  | .attest part => part < 16
  | .hostMemAccess part _ _ _ => part ≤ 16
  | .linkFailure link => link < 17
  | .fabricWindowActivate part entry => part < 16 && entry < 8
  | .injectionWindowStart => true
  | .dbgHalt g => g < 16
  | .dbgRun g => g < 16
  | .dbgInvi g => g < 16
  | .dbgRead g => g < 16
  | .dbgWrite g => g < 16
  | .haltTriggerArrival g => g < 16
  | .coreHaltStop core _ => core < 512
  | .moduleReset _ _ => true
  | .readySet _ => true
  | .powerThrottle watts => watts < 4096
  | .thermalHalt die _ => die < 4
  | .registerWrite _ _ _ => true
  | .illegalInstruction _ => true
  | .hashAccessComplete h => h < 4096
  | .hostSnoop _ => true
  | .backInvalidateResponse _ => true
  | .linkFlitReplay link _ _ => link < 17

end Sys2Proof
end

