-- ==== Sys2Proof/Decode.lean ====
section
/-!
DEFINITION. Reading instructions from parcels (R32-R35, R39, R46) and writing them back. Every row of the opcode
table is one line of the decoder of its major: the row's fixed bits are compared, its fields are taken. A word or
parcel that no row matches is refused by name; the machine then executes ILLEGAL_INSTRUCTION.
-/

namespace Sys2Proof

/-- Field of `len` bits of `w` starting at bit `lo` (R3). -/
def fld (w lo len : Nat) : BitVec len := BitVec.ofNat len (w / 2 ^ lo)

/-- Bits [hi:lo] of `w` as a number, with the width `len`. -/
def bits (w lo len : Nat) : Nat := w / 2 ^ lo % 2 ^ len

/-- Why a stream of parcels does not start with an instruction (R47). -/
inductive DecodeError where
  /-- The stream ends inside the instruction. -/
  | truncated
  /-- A control parcel of a reserved kind, or with a nonzero reserved field (R35). -/
  | controlParcel
  /-- A major opcode that R46 reserves, or ILL. -/
  | reservedMajor
  /-- A code or reserved field that the major's chapter does not assign. -/
  | unassignedCode
  deriving DecidableEq, Repr

/-- Major 0x01. -/
def decMajor01 (w : Nat) : Option Instr :=
  if bits w 22 10 = 0 then some (.add (fld w 17 5) (fld w 12 5) (fld w 7 5)) else
  if bits w 22 10 = 1 then some (.sub (fld w 17 5) (fld w 12 5) (fld w 7 5)) else
  if bits w 22 10 = 2 then some (.mul (fld w 17 5) (fld w 12 5) (fld w 7 5)) else
  if bits w 22 10 = 3 then some (.mulh (fld w 17 5) (fld w 12 5) (fld w 7 5)) else
  if bits w 22 10 = 4 then some (.mulhn (fld w 17 5) (fld w 12 5) (fld w 7 5)) else
  if bits w 22 10 = 5 then some (.div (fld w 17 5) (fld w 12 5) (fld w 7 5)) else
  if bits w 22 10 = 6 then some (.divn (fld w 17 5) (fld w 12 5) (fld w 7 5)) else
  if bits w 22 10 = 7 then some (.rem (fld w 17 5) (fld w 12 5) (fld w 7 5)) else
  if bits w 22 10 = 8 then some (.remn (fld w 17 5) (fld w 12 5) (fld w 7 5)) else
  if bits w 22 10 = 9 then some (.and (fld w 17 5) (fld w 12 5) (fld w 7 5)) else
  if bits w 22 10 = 10 then some (.or (fld w 17 5) (fld w 12 5) (fld w 7 5)) else
  if bits w 22 10 = 11 then some (.xor (fld w 17 5) (fld w 12 5) (fld w 7 5)) else
  if bits w 22 10 = 12 then some (.andn (fld w 17 5) (fld w 12 5) (fld w 7 5)) else
  if bits w 22 10 = 13 then some (.orn (fld w 17 5) (fld w 12 5) (fld w 7 5)) else
  if bits w 22 10 = 14 then some (.shl (fld w 17 5) (fld w 12 5) (fld w 7 5)) else
  if bits w 22 10 = 15 then some (.shr (fld w 17 5) (fld w 12 5) (fld w 7 5)) else
  if bits w 22 10 = 16 then some (.sra (fld w 17 5) (fld w 12 5) (fld w 7 5)) else
  if bits w 22 10 = 17 then some (.rotl (fld w 17 5) (fld w 12 5) (fld w 7 5)) else
  if bits w 22 10 = 18 then some (.rotr (fld w 17 5) (fld w 12 5) (fld w 7 5)) else
  if bits w 22 10 = 19 then some (.min (fld w 17 5) (fld w 12 5) (fld w 7 5)) else
  if bits w 22 10 = 20 then some (.max (fld w 17 5) (fld w 12 5) (fld w 7 5)) else
  if bits w 22 10 = 21 then some (.minn (fld w 17 5) (fld w 12 5) (fld w 7 5)) else
  if bits w 22 10 = 22 then some (.maxn (fld w 17 5) (fld w 12 5) (fld w 7 5)) else
  if bits w 22 10 = 23 then some (.slt (fld w 17 5) (fld w 12 5) (fld w 7 5)) else
  if bits w 22 10 = 24 then some (.sltn (fld w 17 5) (fld w 12 5) (fld w 7 5)) else
  if bits w 17 15 = 800 then some (.clz (fld w 12 5) (fld w 7 5)) else
  if bits w 17 15 = 832 then some (.ctz (fld w 12 5) (fld w 7 5)) else
  if bits w 17 15 = 864 then some (.popc (fld w 12 5) (fld w 7 5)) else
  if bits w 17 15 = 896 then some (.sextB (fld w 12 5) (fld w 7 5)) else
  if bits w 17 15 = 928 then some (.sextH (fld w 12 5) (fld w 7 5)) else
  if bits w 17 15 = 960 then some (.sextW (fld w 12 5) (fld w 7 5)) else
  if bits w 17 15 = 992 then some (.zextB (fld w 12 5) (fld w 7 5)) else
  if bits w 17 15 = 1024 then some (.zextH (fld w 12 5) (fld w 7 5)) else
  if bits w 17 15 = 1056 then some (.zextW (fld w 12 5) (fld w 7 5)) else
  if bits w 22 10 = 34 then some (.bfx (fld w 17 5) (fld w 12 5) (fld w 7 5)) else
  if bits w 22 10 = 35 then some (.bfxn (fld w 17 5) (fld w 12 5) (fld w 7 5)) else
  if bits w 22 10 = 36 then some (.bfi (fld w 17 5) (fld w 12 5) (fld w 7 5)) else
  if bits w 17 15 = 1184 then some (.bswap (fld w 12 5) (fld w 7 5)) else
  if bits w 17 15 = 1216 then some (.hasha (fld w 12 5) (fld w 7 5)) else
  none

/-- Major 0x02. -/
def decMajor02 (w : Nat) : Option Instr :=
  some (.addi (fld w 17 15) (fld w 12 5) (fld w 7 5))

/-- Major 0x03. -/
def decMajor03 (w : Nat) : Option Instr :=
  some (.andi (fld w 17 15) (fld w 12 5) (fld w 7 5))

/-- Major 0x04. -/
def decMajor04 (w : Nat) : Option Instr :=
  some (.ori (fld w 17 15) (fld w 12 5) (fld w 7 5))

/-- Major 0x05. -/
def decMajor05 (w : Nat) : Option Instr :=
  some (.xori (fld w 17 15) (fld w 12 5) (fld w 7 5))

/-- Major 0x06. -/
def decMajor06 (w : Nat) : Option Instr :=
  if bits w 23 9 = 0 then some (.shli (fld w 17 6) (fld w 12 5) (fld w 7 5)) else
  if bits w 23 9 = 64 then some (.shri (fld w 17 6) (fld w 12 5) (fld w 7 5)) else
  if bits w 23 9 = 128 then some (.srai (fld w 17 6) (fld w 12 5) (fld w 7 5)) else
  if bits w 23 9 = 192 then some (.roti (fld w 17 6) (fld w 12 5) (fld w 7 5)) else
  if bits w 29 3 = 4 then some (.slti (fld w 17 12) (fld w 12 5) (fld w 7 5)) else
  none

/-- Major 0x07. -/
def decMajor07 (w : Nat) : Option Instr :=
  some (.lih (fld w 12 20) (fld w 7 5))

/-- Major 0x08. -/
def decMajor08 (w : Nat) : Option Instr :=
  some (.addpc (fld w 12 20) (fld w 7 5))

/-- Major 0x09. -/
def decMajor09 (w : Nat) : Option Instr :=
  if bits w 22 10 = 0 then some (.sk (fld w 17 5) (fld w 12 5) (fld w 10 2) (fld w 7 3)) else
  none

/-- Major 0x0A. -/
def decMajor0A (w : Nat) : Option Instr :=
  some (.ski (fld w 17 15) (fld w 12 5) (fld w 10 2) (fld w 7 3))

/-- Major 0x0B. -/
def decMajor0B (w : Nat) : Option Instr :=
  some (.bCc (fld w 22 10) (fld w 17 5) (fld w 12 5) (fld w 10 2) (fld w 7 3))

/-- Major 0x0C. -/
def decMajor0C (w : Nat) : Option Instr :=
  some (.br (fld w 7 25))

/-- Major 0x0D. -/
def decMajor0D (w : Nat) : Option Instr :=
  some (.call (fld w 7 25))

/-- Major 0x0E. -/
def decMajor0E (w : Nat) : Option Instr :=
  some (.jalr (fld w 17 15) (fld w 12 5) (fld w 7 5))

/-- Major 0x0F. -/
def decMajor0F (w : Nat) : Option Instr :=
  if bits w 12 5 = 0 then some (.loop (fld w 17 15) (fld w 7 5)) else
  none

/-- Major 0x10. -/
def decMajor10 (w : Nat) : Option Instr :=
  some (.ld (fld w 23 9) (fld w 20 3) (fld w 19 1) (fld w 17 2) (fld w 12 5) (fld w 7 5))

/-- Major 0x11. -/
def decMajor11 (w : Nat) : Option Instr :=
  if bits w 19 1 = 0 then some (.st (fld w 23 9) (fld w 20 3) (fld w 17 2) (fld w 12 5) (fld w 7 5)) else
  none

/-- Major 0x12. -/
def decMajor12 (w : Nat) : Option Instr :=
  some (.ldl (fld w 23 9) (fld w 20 3) (fld w 19 1) (fld w 17 2) (fld w 12 5) (fld w 7 5))

/-- Major 0x13. -/
def decMajor13 (w : Nat) : Option Instr :=
  if bits w 19 1 = 0 then some (.stl (fld w 23 9) (fld w 20 3) (fld w 17 2) (fld w 12 5) (fld w 7 5)) else
  none

/-- Major 0x14. -/
def decMajor14 (w : Nat) : Option Instr :=
  if bits w 9 3 = 0 ∧ bits w 17 15 = 0 then some (.qld (fld w 12 5) (fld w 7 2)) else
  if bits w 9 3 = 0 ∧ bits w 17 15 = 32 then some (.qst (fld w 12 5) (fld w 7 2)) else
  if bits w 9 3 = 0 ∧ bits w 22 10 = 2 then some (.qpx (fld w 17 5) (fld w 12 5) (fld w 7 2)) else
  none

/-- Major 0x15. -/
def decMajor15 (w : Nat) : Option Instr :=
  if bits w 10 2 = 0 ∧ bits w 30 2 = 0 then some (.tld (fld w 22 8) (fld w 17 5) (fld w 12 5) (fld w 7 3)) else
  none

/-- Major 0x16. -/
def decMajor16 (w : Nat) : Option Instr :=
  if bits w 10 2 = 0 ∧ bits w 30 2 = 0 then some (.tst (fld w 22 8) (fld w 17 5) (fld w 12 5) (fld w 7 3)) else
  none

/-- Major 0x17. -/
def decMajor17 (w : Nat) : Option Instr :=
  if bits w 22 4 = 0 then some (.amoAdd (fld w 29 3) (fld w 27 2) (fld w 26 1) (fld w 17 5) (fld w 12 5) (fld w 7 5)) else
  if bits w 22 4 = 1 then some (.amoAnd (fld w 29 3) (fld w 27 2) (fld w 26 1) (fld w 17 5) (fld w 12 5) (fld w 7 5)) else
  if bits w 22 4 = 2 then some (.amoOr (fld w 29 3) (fld w 27 2) (fld w 26 1) (fld w 17 5) (fld w 12 5) (fld w 7 5)) else
  if bits w 22 4 = 3 then some (.amoXor (fld w 29 3) (fld w 27 2) (fld w 26 1) (fld w 17 5) (fld w 12 5) (fld w 7 5)) else
  if bits w 22 4 = 4 then some (.amoMin (fld w 29 3) (fld w 27 2) (fld w 26 1) (fld w 17 5) (fld w 12 5) (fld w 7 5)) else
  if bits w 22 4 = 5 then some (.amoMax (fld w 29 3) (fld w 27 2) (fld w 26 1) (fld w 17 5) (fld w 12 5) (fld w 7 5)) else
  if bits w 22 4 = 6 then some (.amoMinn (fld w 29 3) (fld w 27 2) (fld w 26 1) (fld w 17 5) (fld w 12 5) (fld w 7 5)) else
  if bits w 22 4 = 7 then some (.amoMaxn (fld w 29 3) (fld w 27 2) (fld w 26 1) (fld w 17 5) (fld w 12 5) (fld w 7 5)) else
  if bits w 22 4 = 8 then some (.amoSwap (fld w 29 3) (fld w 27 2) (fld w 26 1) (fld w 17 5) (fld w 12 5) (fld w 7 5)) else
  if bits w 22 4 = 9 then some (.amoCas (fld w 29 3) (fld w 27 2) (fld w 26 1) (fld w 17 5) (fld w 12 5) (fld w 7 5)) else
  if bits w 22 5 = 10 then some (.amoFadd (fld w 29 3) (fld w 27 2) (fld w 17 5) (fld w 12 5) (fld w 7 5)) else
  if bits w 22 5 = 11 then some (.amoFmax (fld w 29 3) (fld w 27 2) (fld w 17 5) (fld w 12 5) (fld w 7 5)) else
  none

/-- Major 0x18. -/
def decMajor18 (w : Nat) : Option Instr :=
  if bits w 22 4 = 0 ∧ bits w 7 5 = 0 then some (.redAdd (fld w 29 3) (fld w 27 2) (fld w 26 1) (fld w 17 5) (fld w 12 5)) else
  if bits w 22 4 = 1 ∧ bits w 7 5 = 0 then some (.redAnd (fld w 29 3) (fld w 27 2) (fld w 26 1) (fld w 17 5) (fld w 12 5)) else
  if bits w 22 4 = 2 ∧ bits w 7 5 = 0 then some (.redOr (fld w 29 3) (fld w 27 2) (fld w 26 1) (fld w 17 5) (fld w 12 5)) else
  if bits w 22 4 = 3 ∧ bits w 7 5 = 0 then some (.redXor (fld w 29 3) (fld w 27 2) (fld w 26 1) (fld w 17 5) (fld w 12 5)) else
  if bits w 22 4 = 4 ∧ bits w 7 5 = 0 then some (.redMin (fld w 29 3) (fld w 27 2) (fld w 26 1) (fld w 17 5) (fld w 12 5)) else
  if bits w 22 4 = 5 ∧ bits w 7 5 = 0 then some (.redMax (fld w 29 3) (fld w 27 2) (fld w 26 1) (fld w 17 5) (fld w 12 5)) else
  if bits w 22 4 = 6 ∧ bits w 7 5 = 0 then some (.redMinn (fld w 29 3) (fld w 27 2) (fld w 26 1) (fld w 17 5) (fld w 12 5)) else
  if bits w 22 4 = 7 ∧ bits w 7 5 = 0 then some (.redMaxn (fld w 29 3) (fld w 27 2) (fld w 26 1) (fld w 17 5) (fld w 12 5)) else
  if bits w 22 5 = 10 ∧ bits w 7 5 = 0 then some (.redFadd (fld w 29 3) (fld w 27 2) (fld w 17 5) (fld w 12 5)) else
  if bits w 22 5 = 11 ∧ bits w 7 5 = 0 then some (.redFmax (fld w 29 3) (fld w 27 2) (fld w 17 5) (fld w 12 5)) else
  none

/-- Major 0x19. -/
def decMajor19 (w : Nat) : Option Instr :=
  if bits w 25 7 = 0 ∧ bits w 7 15 = 0 then some (.fence (fld w 22 3)) else
  if bits w 22 10 = 16 ∧ bits w 7 5 = 0 then some (.cwb (fld w 17 5) (fld w 12 5)) else
  if bits w 22 10 = 17 ∧ bits w 7 5 = 0 then some (.cinv (fld w 17 5) (fld w 12 5)) else
  if bits w 22 10 = 18 ∧ bits w 7 5 = 0 then some (.pfx (fld w 17 5) (fld w 12 5)) else
  none

/-- Major 0x1A. -/
def decMajor1A (w : Nat) : Option Instr :=
  if bits w 22 2 = 0 ∧ bits w 26 6 = 0 then some (.cpy (fld w 25 1) (fld w 24 1) (fld w 17 5) (fld w 12 5) (fld w 7 5)) else
  if bits w 22 2 = 1 ∧ bits w 26 6 = 0 then some (.cpyt (fld w 25 1) (fld w 24 1) (fld w 17 5) (fld w 12 5) (fld w 7 5)) else
  if bits w 22 2 = 2 ∧ bits w 25 7 = 0 then some (.fill (fld w 24 1) (fld w 17 5) (fld w 12 5) (fld w 7 5)) else
  none

/-- Major 0x1B. -/
def decMajor1B (w : Nat) : Option Instr :=
  if bits w 22 10 = 0 then some (.bkCpy (fld w 17 5) (fld w 12 5) (fld w 7 5)) else
  if bits w 22 10 = 1 then some (.bkFil (fld w 17 5) (fld w 12 5) (fld w 7 5)) else
  if bits w 22 10 = 2 then some (.bkAnd (fld w 17 5) (fld w 12 5) (fld w 7 5)) else
  if bits w 22 10 = 3 then some (.bkOr (fld w 17 5) (fld w 12 5) (fld w 7 5)) else
  if bits w 22 10 = 4 then some (.bkXor (fld w 17 5) (fld w 12 5) (fld w 7 5)) else
  if bits w 22 10 = 5 then some (.bkNot (fld w 17 5) (fld w 12 5) (fld w 7 5)) else
  if bits w 22 10 = 6 then some (.bkMaj (fld w 17 5) (fld w 12 5) (fld w 7 5)) else
  none

/-- Major 0x1C. -/
def decMajor1C (w : Nat) : Option Instr :=
  if bits w 9 3 = 0 ∧ bits w 22 10 = 0 then some (.send (fld w 17 5) (fld w 12 5) (fld w 7 2)) else
  if bits w 19 13 = 8 then some (.recv (fld w 17 2) (fld w 12 5) (fld w 7 5)) else
  if bits w 19 13 = 16 then some (.recvn (fld w 17 2) (fld w 12 5) (fld w 7 5)) else
  if bits w 9 3 = 0 ∧ bits w 17 15 = 96 then some (.mon (fld w 12 5) (fld w 7 2)) else
  if bits w 9 3 = 0 ∧ bits w 17 15 = 128 then some (.monG (fld w 12 5) (fld w 7 2)) else
  if bits w 16 1 = 0 ∧ bits w 22 10 = 5 then some (.mwait (fld w 17 5) (fld w 12 4) (fld w 7 5)) else
  if bits w 9 23 = 49152 then some (.mclr (fld w 7 2)) else
  if bits w 25 7 = 1 ∧ bits w 7 5 = 0 then some (.cntw (fld w 22 3) (fld w 17 5) (fld w 12 5)) else
  none

/-- Major 0x1D. -/
def decMajor1D (w : Nat) : Option Instr :=
  if bits w 22 10 = 0 then some (.bar (fld w 17 5) (fld w 12 5) (fld w 7 5)) else
  if bits w 22 10 = 1 then some (.bara (fld w 17 5) (fld w 12 5) (fld w 7 5)) else
  if bits w 17 15 = 64 then some (.barw (fld w 12 5) (fld w 7 5)) else
  none

/-- Major 0x1E. -/
def decMajor1E (w : Nat) : Option Instr :=
  if bits w 17 15 = 0 then some (.ibx (fld w 12 5) (fld w 7 5)) else
  if bits w 17 15 = 32 then some (.ibxn (fld w 12 5) (fld w 7 5)) else
  if bits w 17 15 = 64 then some (.uien (fld w 12 5) (fld w 7 5)) else
  if bits w 7 25 = 98304 then some .uiret else
  none

/-- Major 0x1F. -/
def decMajor1F (w : Nat) : Option Instr :=
  if bits w 22 10 = 0 then some (.tstart (fld w 17 5) (fld w 12 5) (fld w 7 5)) else
  if bits w 7 25 = 32768 then some .texit else
  if bits w 7 25 = 65536 then some .yield else
  if bits w 12 5 = 0 ∧ bits w 22 10 = 3 then some (.gang (fld w 17 5) (fld w 7 5)) else
  if bits w 7 25 = 131072 then some .ungang else
  none

/-- Major 0x20. -/
def decMajor20 (w : Nat) : Option Instr :=
  if bits w 17 5 = 0 ∧ bits w 30 2 = 0 then some (.draw (fld w 22 8) (fld w 12 5) (fld w 7 5)) else
  if bits w 17 15 = 8192 ∧ bits w 7 5 = 0 then some (.dcan (fld w 12 5)) else
  if bits w 17 15 = 16384 then some (.dstat (fld w 12 5) (fld w 7 5)) else
  if bits w 7 25 = 25165824 then some .bdone else
  none

/-- Major 0x21. -/
def decMajor21 (w : Nat) : Option Instr :=
  if bits w 17 5 = 0 ∧ bits w 30 2 = 0 ∧ bits w 7 5 = 0 then some (.tdef (fld w 22 8) (fld w 12 5)) else
  if bits w 30 2 = 1 ∧ bits w 7 15 = 0 then some (.tinv (fld w 22 8)) else
  if bits w 12 5 = 0 ∧ bits w 30 2 = 2 then some (.tqry (fld w 22 8) (fld w 17 5) (fld w 7 5)) else
  none

/-- Major 0x22. -/
def decMajor22 (w : Nat) : Option Instr :=
  if bits w 17 15 = 0 ∧ bits w 7 5 = 0 then some (.tqadd (fld w 12 5)) else
  if bits w 12 20 = 1024 then some (.tqtake (fld w 7 5)) else
  if bits w 12 20 = 2048 then some (.tqtry (fld w 7 5)) else
  if bits w 7 25 = 98304 then some .tcmt else
  if bits w 7 25 = 131072 then some .tdone else
  none

/-- Major 0x23. -/
def decMajor23 (w : Nat) : Option Instr :=
  if bits w 22 10 = 0 then some (.ovld (fld w 17 5) (fld w 12 5) (fld w 7 5)) else
  if bits w 22 10 = 1 then some (.ovldGo (fld w 17 5) (fld w 12 5) (fld w 7 5)) else
  if bits w 22 10 = 16 then some (.prd (fld w 17 5) (fld w 12 5) (fld w 7 5)) else
  if bits w 22 10 = 17 then some (.pwr (fld w 17 5) (fld w 12 5) (fld w 7 5)) else
  if bits w 22 10 = 18 then some (.ppush (fld w 17 5) (fld w 12 5) (fld w 7 5)) else
  if bits w 7 25 = 622592 then some .pend else
  none

/-- Major 0x24. -/
def decMajor24 (w : Nat) : Option Instr :=
  if bits w 22 7 = 0 then some (.vadd (fld w 29 3) (fld w 17 5) (fld w 12 5) (fld w 7 5)) else
  if bits w 22 7 = 1 then some (.vsub (fld w 29 3) (fld w 17 5) (fld w 12 5) (fld w 7 5)) else
  if bits w 22 7 = 2 then some (.vmul (fld w 29 3) (fld w 17 5) (fld w 12 5) (fld w 7 5)) else
  if bits w 22 7 = 3 then some (.vfma (fld w 29 3) (fld w 17 5) (fld w 12 5) (fld w 7 5)) else
  if bits w 22 7 = 4 then some (.vfms (fld w 29 3) (fld w 17 5) (fld w 12 5) (fld w 7 5)) else
  if bits w 22 7 = 5 then some (.vmin (fld w 29 3) (fld w 17 5) (fld w 12 5) (fld w 7 5)) else
  if bits w 22 7 = 69 then some (.vminN (fld w 29 3) (fld w 17 5) (fld w 12 5) (fld w 7 5)) else
  if bits w 22 7 = 6 then some (.vmax (fld w 29 3) (fld w 17 5) (fld w 12 5) (fld w 7 5)) else
  if bits w 22 7 = 70 then some (.vmaxN (fld w 29 3) (fld w 17 5) (fld w 12 5) (fld w 7 5)) else
  if bits w 17 12 = 224 then some (.vabs (fld w 29 3) (fld w 12 5) (fld w 7 5)) else
  if bits w 17 12 = 256 then some (.vneg (fld w 29 3) (fld w 12 5) (fld w 7 5)) else
  none

/-- Major 0x25. -/
def decMajor25 (w : Nat) : Option Instr :=
  if bits w 22 7 = 0 then some (.vand (fld w 29 3) (fld w 17 5) (fld w 12 5) (fld w 7 5)) else
  if bits w 22 7 = 1 then some (.vor (fld w 29 3) (fld w 17 5) (fld w 12 5) (fld w 7 5)) else
  if bits w 22 7 = 2 then some (.vxor (fld w 29 3) (fld w 17 5) (fld w 12 5) (fld w 7 5)) else
  if bits w 17 12 = 96 then some (.vnot (fld w 29 3) (fld w 12 5) (fld w 7 5)) else
  if bits w 22 7 = 4 then some (.vshl (fld w 29 3) (fld w 17 5) (fld w 12 5) (fld w 7 5)) else
  if bits w 22 7 = 5 then some (.vshr (fld w 29 3) (fld w 17 5) (fld w 12 5) (fld w 7 5)) else
  if bits w 22 7 = 6 then some (.vsra (fld w 29 3) (fld w 17 5) (fld w 12 5) (fld w 7 5)) else
  none

/-- Major 0x26. -/
def decMajor26 (w : Nat) : Option Instr :=
  if bits w 25 4 = 0 then some (.vcmp (fld w 29 3) (fld w 22 3) (fld w 17 5) (fld w 12 5) (fld w 7 5)) else
  if bits w 22 7 = 8 then some (.vsel (fld w 29 3) (fld w 17 5) (fld w 12 5) (fld w 7 5)) else
  none

/-- Major 0x27. -/
def decMajor27 (w : Nat) : Option Instr :=
  if bits w 27 2 = 0 then some (.vcvt (fld w 29 3) (fld w 26 1) (fld w 22 4) (fld w 17 5) (fld w 12 5) (fld w 7 5)) else
  if bits w 22 2 = 0 ∧ bits w 27 2 = 1 then some (.vqnt (fld w 29 3) (fld w 26 1) (fld w 24 2) (fld w 17 5) (fld w 12 5) (fld w 7 5)) else
  if bits w 27 5 = 2 then some (.vdq (fld w 24 3) (fld w 22 2) (fld w 17 5) (fld w 12 5) (fld w 7 5)) else
  none

/-- Major 0x28. -/
def decMajor28 (w : Nat) : Option Instr :=
  if bits w 17 12 = 0 then some (.vbcast (fld w 29 3) (fld w 12 5) (fld w 7 5)) else
  if bits w 22 7 = 1 then some (.vext (fld w 29 3) (fld w 17 5) (fld w 12 5) (fld w 7 5)) else
  if bits w 22 7 = 65 then some (.vextN (fld w 29 3) (fld w 17 5) (fld w 12 5) (fld w 7 5)) else
  if bits w 22 7 = 2 then some (.vins (fld w 29 3) (fld w 17 5) (fld w 12 5) (fld w 7 5)) else
  if bits w 22 7 = 3 then some (.vperm (fld w 29 3) (fld w 17 5) (fld w 12 5) (fld w 7 5)) else
  if bits w 22 7 = 4 then some (.vslide (fld w 29 3) (fld w 17 5) (fld w 12 5) (fld w 7 5)) else
  if bits w 12 17 = 5120 then some (.viota (fld w 29 3) (fld w 7 5)) else
  if bits w 22 7 = 6 then some (.vmovi (fld w 29 3) (fld w 12 10) (fld w 7 5)) else
  none

/-- Major 0x29. -/
def decMajor29 (w : Nat) : Option Instr :=
  if bits w 17 12 = 0 then some (.vrsum (fld w 29 3) (fld w 12 5) (fld w 7 5)) else
  if bits w 17 12 = 32 then some (.vrmax (fld w 29 3) (fld w 12 5) (fld w 7 5)) else
  if bits w 17 12 = 2080 then some (.vrmaxN (fld w 29 3) (fld w 12 5) (fld w 7 5)) else
  if bits w 17 12 = 64 then some (.vrmin (fld w 29 3) (fld w 12 5) (fld w 7 5)) else
  if bits w 17 12 = 2112 then some (.vrminN (fld w 29 3) (fld w 12 5) (fld w 7 5)) else
  if bits w 22 7 = 3 then some (.vtopk (fld w 29 3) (fld w 17 5) (fld w 12 5) (fld w 7 5)) else
  if bits w 22 7 = 67 then some (.vtopkN (fld w 29 3) (fld w 17 5) (fld w 12 5) (fld w 7 5)) else
  none

/-- Major 0x2A. -/
def decMajor2A (w : Nat) : Option Instr :=
  if bits w 17 12 = 0 then some (.vrcp (fld w 29 3) (fld w 12 5) (fld w 7 5)) else
  if bits w 17 12 = 32 then some (.vrsq (fld w 29 3) (fld w 12 5) (fld w 7 5)) else
  if bits w 17 12 = 64 then some (.vsqrt (fld w 29 3) (fld w 12 5) (fld w 7 5)) else
  if bits w 22 7 = 3 then some (.vdiv (fld w 29 3) (fld w 17 5) (fld w 12 5) (fld w 7 5)) else
  if bits w 17 12 = 128 then some (.vexp2 (fld w 29 3) (fld w 12 5) (fld w 7 5)) else
  if bits w 17 12 = 160 then some (.vlog2 (fld w 29 3) (fld w 12 5) (fld w 7 5)) else
  if bits w 17 12 = 192 then some (.vsinp (fld w 29 3) (fld w 12 5) (fld w 7 5)) else
  if bits w 17 12 = 224 then some (.vcosp (fld w 29 3) (fld w 12 5) (fld w 7 5)) else
  if bits w 17 12 = 256 then some (.vtanh (fld w 29 3) (fld w 12 5) (fld w 7 5)) else
  none

/-- Major 0x2B. -/
def decMajor2B (w : Nat) : Option Instr :=
  if bits w 12 20 = 0 then some (.wclr (fld w 7 5)) else
  if bits w 17 12 = 32 then some (.wacc (fld w 29 3) (fld w 12 5) (fld w 7 5)) else
  if bits w 22 7 = 2 then some (.waccp (fld w 29 3) (fld w 17 5) (fld w 12 5) (fld w 7 5)) else
  if bits w 17 15 = 96 then some (.wrnd (fld w 12 5) (fld w 7 5)) else
  if bits w 17 15 = 128 then some (.wsave (fld w 12 5) (fld w 7 5)) else
  if bits w 17 15 = 160 then some (.wload (fld w 12 5) (fld w 7 5)) else
  none

/-- Major 0x2C. -/
def decMajor2C (w : Nat) : Option Instr :=
  if bits w 27 2 = 0 ∧ bits w 7 5 = 0 then some (.hacc (fld w 29 3) (fld w 22 5) (fld w 17 5) (fld w 12 5)) else
  if bits w 17 5 = 0 ∧ bits w 27 2 = 1 then some (.hlook (fld w 29 3) (fld w 22 5) (fld w 12 5) (fld w 7 5)) else
  if bits w 27 2 = 2 ∧ bits w 7 15 = 0 then some (.hclr (fld w 29 3) (fld w 22 5)) else
  none

/-- Major 0x2D. -/
def decMajor2D (w : Nat) : Option Instr :=
  if bits w 17 15 = 0 then some (.vldc (fld w 12 5) (fld w 7 5)) else
  if bits w 17 15 = 32 then some (.vstc (fld w 12 5) (fld w 7 5)) else
  if bits w 17 15 = 64 ∧ bits w 7 5 = 0 then some (.vwaitc (fld w 12 5)) else
  none

/-- Major 0x2E. -/
def decMajor2E (w : Nat) : Option Instr :=
  if bits w 22 4 = 0 then some (.mma (fld w 26 6) (fld w 17 5) (fld w 12 5) (fld w 7 5)) else
  if bits w 22 4 = 1 then some (.mmaM (fld w 26 6) (fld w 17 5) (fld w 12 5) (fld w 7 5)) else
  if bits w 12 14 = 2048 then some (.mzero (fld w 26 6) (fld w 7 5)) else
  if bits w 17 9 = 96 ∧ bits w 7 5 = 0 then some (.mcopy (fld w 26 6) (fld w 12 5)) else
  if bits w 17 9 = 128 ∧ bits w 7 5 = 0 then some (.mldc (fld w 26 6) (fld w 12 5)) else
  if bits w 17 9 = 160 ∧ bits w 7 5 = 0 then some (.mstc (fld w 26 6) (fld w 12 5)) else
  none

/-- Major 0x2F. -/
def decMajor2F (w : Nat) : Option Instr :=
  if bits w 22 4 = 0 ∧ bits w 7 5 = 0 then some (.mspw (fld w 26 6) (fld w 17 5) (fld w 12 5)) else
  if bits w 22 4 = 1 then some (.mspwM (fld w 26 6) (fld w 17 5) (fld w 12 5) (fld w 7 5)) else
  none

/-- Major 0x30. -/
def decMajor30 (w : Nat) : Option Instr :=
  if bits w 12 5 = 0 ∧ bits w 29 3 = 0 then some (.csrr (fld w 17 12) (fld w 7 5)) else
  if bits w 29 3 = 1 ∧ bits w 7 5 = 0 then some (.csrw (fld w 17 12) (fld w 12 5)) else
  if bits w 29 3 = 2 ∧ bits w 7 5 = 0 then some (.csrs (fld w 17 12) (fld w 12 5)) else
  if bits w 29 3 = 3 ∧ bits w 7 5 = 0 then some (.csrc (fld w 17 12) (fld w 12 5)) else
  none

/-- Major 0x31. -/
def decMajor31 (w : Nat) : Option Instr :=
  if bits w 7 25 = 0 then some .nop else
  if bits w 17 15 = 32 ∧ bits w 7 5 = 0 then some (.trap (fld w 12 5)) else
  if bits w 7 25 = 65536 then some .bkpt else
  if bits w 7 25 = 98304 then some .fencei else
  if bits w 17 15 = 512 ∧ bits w 7 5 = 0 then some (.eret (fld w 12 5)) else
  if bits w 7 25 = 557056 then some .halt else
  if bits w 22 10 = 18 ∧ bits w 7 5 = 0 then some (.tlbi (fld w 17 5) (fld w 12 5)) else
  if bits w 17 15 = 608 ∧ bits w 7 5 = 0 then some (.tresume (fld w 12 5)) else
  if bits w 22 10 = 20 then some (.tstatr (fld w 17 5) (fld w 12 5) (fld w 7 5)) else
  if bits w 22 10 = 21 then some (.tstatw (fld w 17 5) (fld w 12 5) (fld w 7 5)) else
  none

/-- A 32-bit word by its major opcode (R46); bit 0 is 1. -/
def decodeWord (w : Nat) : Option Instr :=
  match bits w 1 6 with
  | 0x01 => decMajor01 w
  | 0x02 => decMajor02 w
  | 0x03 => decMajor03 w
  | 0x04 => decMajor04 w
  | 0x05 => decMajor05 w
  | 0x06 => decMajor06 w
  | 0x07 => decMajor07 w
  | 0x08 => decMajor08 w
  | 0x09 => decMajor09 w
  | 0x0A => decMajor0A w
  | 0x0B => decMajor0B w
  | 0x0C => decMajor0C w
  | 0x0D => decMajor0D w
  | 0x0E => decMajor0E w
  | 0x0F => decMajor0F w
  | 0x10 => decMajor10 w
  | 0x11 => decMajor11 w
  | 0x12 => decMajor12 w
  | 0x13 => decMajor13 w
  | 0x14 => decMajor14 w
  | 0x15 => decMajor15 w
  | 0x16 => decMajor16 w
  | 0x17 => decMajor17 w
  | 0x18 => decMajor18 w
  | 0x19 => decMajor19 w
  | 0x1A => decMajor1A w
  | 0x1B => decMajor1B w
  | 0x1C => decMajor1C w
  | 0x1D => decMajor1D w
  | 0x1E => decMajor1E w
  | 0x1F => decMajor1F w
  | 0x20 => decMajor20 w
  | 0x21 => decMajor21 w
  | 0x22 => decMajor22 w
  | 0x23 => decMajor23 w
  | 0x24 => decMajor24 w
  | 0x25 => decMajor25 w
  | 0x26 => decMajor26 w
  | 0x27 => decMajor27 w
  | 0x28 => decMajor28 w
  | 0x29 => decMajor29 w
  | 0x2A => decMajor2A w
  | 0x2B => decMajor2B w
  | 0x2C => decMajor2C w
  | 0x2D => decMajor2D w
  | 0x2E => decMajor2E w
  | 0x2F => decMajor2F w
  | 0x30 => decMajor30 w
  | 0x31 => decMajor31 w
  | _ => none

/-- A 16-bit parcel (R33, R35); bit 0 is 0. -/
def decodeParcel (w : Nat) : Option Instr :=
  if bits w 1 1 = 0 then
    match bits w 2 4 with
    | 0 => some (.vaddF32Parcel (fld w 11 5) (fld w 6 5))
    | 1 => some (.vsubF32Parcel (fld w 11 5) (fld w 6 5))
    | 2 => some (.vmulF32Parcel (fld w 11 5) (fld w 6 5))
    | 3 => some (.vmaxF32Parcel (fld w 11 5) (fld w 6 5))
    | 4 => some (.vminF32Parcel (fld w 11 5) (fld w 6 5))
    | 5 => some (.vaddI32Parcel (fld w 11 5) (fld w 6 5))
    | 6 => some (.vsubI32Parcel (fld w 11 5) (fld w 6 5))
    | 7 => some (.vandParcel (fld w 11 5) (fld w 6 5))
    | 8 => some (.vorParcel (fld w 11 5) (fld w 6 5))
    | 9 => some (.vxorParcel (fld w 11 5) (fld w 6 5))
    | 10 => some (.vmovParcel (fld w 11 5) (fld w 6 5))
    | 11 => some (.vaddB16Parcel (fld w 11 5) (fld w 6 5))
    | 12 => some (.vmulB16Parcel (fld w 11 5) (fld w 6 5))
    | 13 => some (.vshlI32Parcel (fld w 11 5) (fld w 6 5))
    | 14 => some (.vsraI32Parcel (fld w 11 5) (fld w 6 5))
    | 15 => some (.vnegF32Parcel (fld w 11 5) (fld w 6 5))
    | _ => none
  else if bits w 13 3 = 0 ∧ bits w 2 2 = 0 then some (.rpt (fld w 12 1) (fld w 11 1) (fld w 10 1) (fld w 4 6))
  else if w = 6 then some .nop16 else none

/-- The instruction at the head of a list of parcels, and what follows it (R32). -/
def decode : List (BitVec 16) → Except DecodeError (Instr × List (BitVec 16))
  | [] => .error .truncated
  | p :: rest =>
    if p.toNat % 2 = 0 then
      match decodeParcel p.toNat with
      | some i => .ok (i, rest)
      | none => .error .controlParcel
    else
      match rest with
      | [] => .error .truncated
      | q :: rest' =>
        let w := q.toNat * 65536 + p.toNat
        match decodeWord w with
        | some i => .ok (i, rest')
        | none =>
          if bits w 1 6 = 0 ∨ 0x32 ≤ bits w 1 6 then .error .reservedMajor else .error .unassignedCode

/-- The parcels of the low `nbits` bits of `w`, the lowest first (R2). -/
def parcelsOf (nbits w : Nat) : List (BitVec 16) :=
  (List.range (nbits / 16)).map fun k => fld w (16 * k) 16

/-- The instruction that the decoder reads from a word of the opcode table. -/
def decodeTableWord (nbits w : Nat) : Option Instr :=
  match decode (parcelsOf nbits w) with
  | .ok (i, []) => some i
  | _ => none

/-- A word with one field, two, ... six put in at their lowest bits. -/
def enc1 (m : Nat) {k : Nat} (a : BitVec k) (la : Nat) : Nat := m + a.toNat * 2 ^ la
def enc2 (m : Nat) {k l : Nat} (a : BitVec k) (la : Nat) (b : BitVec l) (lb : Nat) : Nat :=
  enc1 m a la + b.toNat * 2 ^ lb
def enc3 (m : Nat) {k l n : Nat} (a : BitVec k) (la : Nat) (b : BitVec l) (lb : Nat) (c : BitVec n) (lc : Nat) :
    Nat := enc2 m a la b lb + c.toNat * 2 ^ lc
def enc4 (m : Nat) {k l n p : Nat} (a : BitVec k) (la : Nat) (b : BitVec l) (lb : Nat) (c : BitVec n) (lc : Nat)
    (d : BitVec p) (ld : Nat) : Nat := enc3 m a la b lb c lc + d.toNat * 2 ^ ld
def enc5 (m : Nat) {k l n p q : Nat} (a : BitVec k) (la : Nat) (b : BitVec l) (lb : Nat) (c : BitVec n) (lc : Nat)
    (d : BitVec p) (ld : Nat) (e : BitVec q) (le : Nat) : Nat := enc4 m a la b lb c lc d ld + e.toNat * 2 ^ le
def enc6 (m : Nat) {k l n p q r : Nat} (a : BitVec k) (la : Nat) (b : BitVec l) (lb : Nat) (c : BitVec n) (lc : Nat)
    (d : BitVec p) (ld : Nat) (e : BitVec q) (le : Nat) (f : BitVec r) (lf : Nat) : Nat :=
  enc5 m a la b lb c lc d ld e le + f.toNat * 2 ^ lf

/-- The encoding of an instruction: its width in bits and its bits (R33, R35, R39); a step of an engine has none. -/
def encodeTable : Instr → Option (Nat × Nat)
  | .add b a d => some (32, enc3 0x00000003 b 17 a 12 d 7)
  | .sub b a d => some (32, enc3 0x00400003 b 17 a 12 d 7)
  | .mul b a d => some (32, enc3 0x00800003 b 17 a 12 d 7)
  | .mulh b a d => some (32, enc3 0x00C00003 b 17 a 12 d 7)
  | .mulhn b a d => some (32, enc3 0x01000003 b 17 a 12 d 7)
  | .div b a d => some (32, enc3 0x01400003 b 17 a 12 d 7)
  | .divn b a d => some (32, enc3 0x01800003 b 17 a 12 d 7)
  | .rem b a d => some (32, enc3 0x01C00003 b 17 a 12 d 7)
  | .remn b a d => some (32, enc3 0x02000003 b 17 a 12 d 7)
  | .and b a d => some (32, enc3 0x02400003 b 17 a 12 d 7)
  | .or b a d => some (32, enc3 0x02800003 b 17 a 12 d 7)
  | .xor b a d => some (32, enc3 0x02C00003 b 17 a 12 d 7)
  | .andn b a d => some (32, enc3 0x03000003 b 17 a 12 d 7)
  | .orn b a d => some (32, enc3 0x03400003 b 17 a 12 d 7)
  | .shl b a d => some (32, enc3 0x03800003 b 17 a 12 d 7)
  | .shr b a d => some (32, enc3 0x03C00003 b 17 a 12 d 7)
  | .sra b a d => some (32, enc3 0x04000003 b 17 a 12 d 7)
  | .rotl b a d => some (32, enc3 0x04400003 b 17 a 12 d 7)
  | .rotr b a d => some (32, enc3 0x04800003 b 17 a 12 d 7)
  | .min b a d => some (32, enc3 0x04C00003 b 17 a 12 d 7)
  | .max b a d => some (32, enc3 0x05000003 b 17 a 12 d 7)
  | .minn b a d => some (32, enc3 0x05400003 b 17 a 12 d 7)
  | .maxn b a d => some (32, enc3 0x05800003 b 17 a 12 d 7)
  | .slt b a d => some (32, enc3 0x05C00003 b 17 a 12 d 7)
  | .sltn b a d => some (32, enc3 0x06000003 b 17 a 12 d 7)
  | .clz a d => some (32, enc2 0x06400003 a 12 d 7)
  | .ctz a d => some (32, enc2 0x06800003 a 12 d 7)
  | .popc a d => some (32, enc2 0x06C00003 a 12 d 7)
  | .sextB a d => some (32, enc2 0x07000003 a 12 d 7)
  | .sextH a d => some (32, enc2 0x07400003 a 12 d 7)
  | .sextW a d => some (32, enc2 0x07800003 a 12 d 7)
  | .zextB a d => some (32, enc2 0x07C00003 a 12 d 7)
  | .zextH a d => some (32, enc2 0x08000003 a 12 d 7)
  | .zextW a d => some (32, enc2 0x08400003 a 12 d 7)
  | .bfx b a d => some (32, enc3 0x08800003 b 17 a 12 d 7)
  | .bfxn b a d => some (32, enc3 0x08C00003 b 17 a 12 d 7)
  | .bfi b a d => some (32, enc3 0x09000003 b 17 a 12 d 7)
  | .bswap a d => some (32, enc2 0x09400003 a 12 d 7)
  | .hasha a d => some (32, enc2 0x09800003 a 12 d 7)
  | .addi i a d => some (32, enc3 0x00000005 i 17 a 12 d 7)
  | .andi i a d => some (32, enc3 0x00000007 i 17 a 12 d 7)
  | .ori i a d => some (32, enc3 0x00000009 i 17 a 12 d 7)
  | .xori i a d => some (32, enc3 0x0000000B i 17 a 12 d 7)
  | .shli n a d => some (32, enc3 0x0000000D n 17 a 12 d 7)
  | .shri n a d => some (32, enc3 0x2000000D n 17 a 12 d 7)
  | .srai n a d => some (32, enc3 0x4000000D n 17 a 12 d 7)
  | .roti n a d => some (32, enc3 0x6000000D n 17 a 12 d 7)
  | .slti i a d => some (32, enc3 0x8000000D i 17 a 12 d 7)
  | .lih i d => some (32, enc2 0x0000000F i 12 d 7)
  | .addpc i d => some (32, enc2 0x00000011 i 12 d 7)
  | .sk b a k c => some (32, enc4 0x00000013 b 17 a 12 k 10 c 7)
  | .ski i a k c => some (32, enc4 0x00000015 i 17 a 12 k 10 c 7)
  | .bCc o b a p c => some (32, enc5 0x00000017 o 22 b 17 a 12 p 10 c 7)
  | .br i => some (32, enc1 0x00000019 i 7)
  | .call i => some (32, enc1 0x0000001B i 7)
  | .jalr i a d => some (32, enc3 0x0000001D i 17 a 12 d 7)
  | .loop i d => some (32, enc2 0x0000001F i 17 d 7)
  | .csrr n d => some (32, enc2 0x00000061 n 17 d 7)
  | .csrw n a => some (32, enc2 0x20000061 n 17 a 12)
  | .csrs n a => some (32, enc2 0x40000061 n 17 a 12)
  | .csrc n a => some (32, enc2 0x60000061 n 17 a 12)
  | .nop => some (32, 0x00000063)
  | .trap a => some (32, enc1 0x00400063 a 12)
  | .bkpt => some (32, 0x00800063)
  | .fencei => some (32, 0x00C00063)
  | .eret a => some (32, enc1 0x04000063 a 12)
  | .halt => some (32, 0x04400063)
  | .tlbi b a => some (32, enc2 0x04800063 b 17 a 12)
  | .tresume a => some (32, enc1 0x04C00063 a 12)
  | .tstatr b a d => some (32, enc3 0x05000063 b 17 a 12 d 7)
  | .tstatw b a d => some (32, enc3 0x05400063 b 17 a 12 d 7)
  | .vaddF32Parcel s d => some (16, enc2 0x0000 s 11 d 6)
  | .vsubF32Parcel s d => some (16, enc2 0x0004 s 11 d 6)
  | .vmulF32Parcel s d => some (16, enc2 0x0008 s 11 d 6)
  | .vmaxF32Parcel s d => some (16, enc2 0x000C s 11 d 6)
  | .vminF32Parcel s d => some (16, enc2 0x0010 s 11 d 6)
  | .vaddI32Parcel s d => some (16, enc2 0x0014 s 11 d 6)
  | .vsubI32Parcel s d => some (16, enc2 0x0018 s 11 d 6)
  | .vandParcel s d => some (16, enc2 0x001C s 11 d 6)
  | .vorParcel s d => some (16, enc2 0x0020 s 11 d 6)
  | .vxorParcel s d => some (16, enc2 0x0024 s 11 d 6)
  | .vmovParcel s d => some (16, enc2 0x0028 s 11 d 6)
  | .vaddB16Parcel s d => some (16, enc2 0x002C s 11 d 6)
  | .vmulB16Parcel s d => some (16, enc2 0x0030 s 11 d 6)
  | .vshlI32Parcel s d => some (16, enc2 0x0034 s 11 d 6)
  | .vsraI32Parcel s d => some (16, enc2 0x0038 s 11 d 6)
  | .vnegF32Parcel s d => some (16, enc2 0x003C s 11 d 6)
  | .rpt p q r n => some (16, enc4 0x0002 p 12 q 11 r 10 n 4)
  | .nop16 => some (16, 0x0006)
  | .send b a n => some (32, enc3 0x00000039 b 17 a 12 n 7)
  | .recv n a d => some (32, enc3 0x00400039 n 17 a 12 d 7)
  | .recvn n a d => some (32, enc3 0x00800039 n 17 a 12 d 7)
  | .mon a n => some (32, enc2 0x00C00039 a 12 n 7)
  | .monG a n => some (32, enc2 0x01000039 a 12 n 7)
  | .mwait b m d => some (32, enc3 0x01400039 b 17 m 12 d 7)
  | .mclr n => some (32, enc1 0x01800039 n 7)
  | .cntw s b a => some (32, enc3 0x02000039 s 22 b 17 a 12)
  | .bar b a d => some (32, enc3 0x0000003B b 17 a 12 d 7)
  | .bara b a d => some (32, enc3 0x0040003B b 17 a 12 d 7)
  | .barw a d => some (32, enc2 0x0080003B a 12 d 7)
  | .ibx a d => some (32, enc2 0x0000003D a 12 d 7)
  | .ibxn a d => some (32, enc2 0x0040003D a 12 d 7)
  | .uien a d => some (32, enc2 0x0080003D a 12 d 7)
  | .uiret => some (32, 0x00C0003D)
  | .tstart b a d => some (32, enc3 0x0000003F b 17 a 12 d 7)
  | .texit => some (32, 0x0040003F)
  | .yield => some (32, 0x0080003F)
  | .gang b d => some (32, enc2 0x00C0003F b 17 d 7)
  | .ungang => some (32, 0x0100003F)
  | .draw t a d => some (32, enc3 0x00000041 t 22 a 12 d 7)
  | .dcan a => some (32, enc1 0x40000041 a 12)
  | .dstat a d => some (32, enc2 0x80000041 a 12 d 7)
  | .bdone => some (32, 0xC0000041)
  | .tdef t a => some (32, enc2 0x00000043 t 22 a 12)
  | .tinv t => some (32, enc1 0x40000043 t 22)
  | .tqry t b d => some (32, enc3 0x80000043 t 22 b 17 d 7)
  | .qld a n => some (32, enc2 0x00000029 a 12 n 7)
  | .qst a n => some (32, enc2 0x00400029 a 12 n 7)
  | .qpx b a n => some (32, enc3 0x00800029 b 17 a 12 n 7)
  | .vadd t b a d => some (32, enc4 0x00000049 t 29 b 17 a 12 d 7)
  | .vsub t b a d => some (32, enc4 0x00400049 t 29 b 17 a 12 d 7)
  | .vmul t b a d => some (32, enc4 0x00800049 t 29 b 17 a 12 d 7)
  | .vfma t b a d => some (32, enc4 0x00C00049 t 29 b 17 a 12 d 7)
  | .vfms t b a d => some (32, enc4 0x01000049 t 29 b 17 a 12 d 7)
  | .vmin t b a d => some (32, enc4 0x01400049 t 29 b 17 a 12 d 7)
  | .vminN t b a d => some (32, enc4 0x11400049 t 29 b 17 a 12 d 7)
  | .vmax t b a d => some (32, enc4 0x01800049 t 29 b 17 a 12 d 7)
  | .vmaxN t b a d => some (32, enc4 0x11800049 t 29 b 17 a 12 d 7)
  | .vabs t a d => some (32, enc3 0x01C00049 t 29 a 12 d 7)
  | .vneg t a d => some (32, enc3 0x02000049 t 29 a 12 d 7)
  | .vand t b a d => some (32, enc4 0x0000004B t 29 b 17 a 12 d 7)
  | .vor t b a d => some (32, enc4 0x0040004B t 29 b 17 a 12 d 7)
  | .vxor t b a d => some (32, enc4 0x0080004B t 29 b 17 a 12 d 7)
  | .vnot t a d => some (32, enc3 0x00C0004B t 29 a 12 d 7)
  | .vshl t b a d => some (32, enc4 0x0100004B t 29 b 17 a 12 d 7)
  | .vshr t b a d => some (32, enc4 0x0140004B t 29 b 17 a 12 d 7)
  | .vsra t b a d => some (32, enc4 0x0180004B t 29 b 17 a 12 d 7)
  | .vcmp t c b a d => some (32, enc5 0x0000004D t 29 c 22 b 17 a 12 d 7)
  | .vsel t b a d => some (32, enc4 0x0200004D t 29 b 17 a 12 d 7)
  | .vcvt t n s p a d => some (32, enc6 0x0000004F t 29 n 26 s 22 p 17 a 12 d 7)
  | .vqnt t n p b a d => some (32, enc6 0x0800004F t 29 n 26 p 24 b 17 a 12 d 7)
  | .vdq p s b a d => some (32, enc5 0x1000004F p 24 s 22 b 17 a 12 d 7)
  | .vbcast t a d => some (32, enc3 0x00000051 t 29 a 12 d 7)
  | .vext t b a d => some (32, enc4 0x00400051 t 29 b 17 a 12 d 7)
  | .vextN t b a d => some (32, enc4 0x10400051 t 29 b 17 a 12 d 7)
  | .vins t b a d => some (32, enc4 0x00800051 t 29 b 17 a 12 d 7)
  | .vperm t b a d => some (32, enc4 0x00C00051 t 29 b 17 a 12 d 7)
  | .vslide t b a d => some (32, enc4 0x01000051 t 29 b 17 a 12 d 7)
  | .viota t d => some (32, enc2 0x01400051 t 29 d 7)
  | .vmovi t i d => some (32, enc3 0x01800051 t 29 i 12 d 7)
  | .vrsum t a d => some (32, enc3 0x00000053 t 29 a 12 d 7)
  | .vrmax t a d => some (32, enc3 0x00400053 t 29 a 12 d 7)
  | .vrmaxN t a d => some (32, enc3 0x10400053 t 29 a 12 d 7)
  | .vrmin t a d => some (32, enc3 0x00800053 t 29 a 12 d 7)
  | .vrminN t a d => some (32, enc3 0x10800053 t 29 a 12 d 7)
  | .vtopk t k a d => some (32, enc4 0x00C00053 t 29 k 17 a 12 d 7)
  | .vtopkN t k a d => some (32, enc4 0x10C00053 t 29 k 17 a 12 d 7)
  | .vrcp t a d => some (32, enc3 0x00000055 t 29 a 12 d 7)
  | .vrsq t a d => some (32, enc3 0x00400055 t 29 a 12 d 7)
  | .vsqrt t a d => some (32, enc3 0x00800055 t 29 a 12 d 7)
  | .vdiv t b a d => some (32, enc4 0x00C00055 t 29 b 17 a 12 d 7)
  | .vexp2 t a d => some (32, enc3 0x01000055 t 29 a 12 d 7)
  | .vlog2 t a d => some (32, enc3 0x01400055 t 29 a 12 d 7)
  | .vsinp t a d => some (32, enc3 0x01800055 t 29 a 12 d 7)
  | .vcosp t a d => some (32, enc3 0x01C00055 t 29 a 12 d 7)
  | .vtanh t a d => some (32, enc3 0x02000055 t 29 a 12 d 7)
  | .wclr w => some (32, enc1 0x00000057 w 7)
  | .wacc t a w => some (32, enc3 0x00400057 t 29 a 12 w 7)
  | .waccp t b a w => some (32, enc4 0x00800057 t 29 b 17 a 12 w 7)
  | .wrnd w d => some (32, enc2 0x00C00057 w 12 d 7)
  | .wsave w d => some (32, enc2 0x01000057 w 12 d 7)
  | .wload a w => some (32, enc2 0x01400057 a 12 w 7)
  | .hacc u v b a => some (32, enc4 0x00000059 u 29 v 22 b 17 a 12)
  | .hlook u v a d => some (32, enc4 0x08000059 u 29 v 22 a 12 d 7)
  | .hclr u v => some (32, enc2 0x10000059 u 29 v 22)
  | .vldc a d => some (32, enc2 0x0000005B a 12 d 7)
  | .vstc a d => some (32, enc2 0x0040005B a 12 d 7)
  | .vwaitc n => some (32, enc1 0x0080005B n 12)
  | .mma c b a d => some (32, enc4 0x0000005D c 26 b 17 a 12 d 7)
  | .mmaM c b a d => some (32, enc4 0x0040005D c 26 b 17 a 12 d 7)
  | .mzero c d => some (32, enc2 0x0080005D c 26 d 7)
  | .mcopy c a => some (32, enc2 0x00C0005D c 26 a 12)
  | .mldc c a => some (32, enc2 0x0100005D c 26 a 12)
  | .mstc c a => some (32, enc2 0x0140005D c 26 a 12)
  | .mspw c b a => some (32, enc3 0x0000005F c 26 b 17 a 12)
  | .mspwM c b a d => some (32, enc4 0x0040005F c 26 b 17 a 12 d 7)
  | .ld p o n z a d => some (32, enc6 0x00000021 p 23 o 20 n 19 z 17 a 12 d 7)
  | .st p o z a d => some (32, enc5 0x00000023 p 23 o 20 z 17 a 12 d 7)
  | .ldl p o n z a d => some (32, enc6 0x00000025 p 23 o 20 n 19 z 17 a 12 d 7)
  | .stl p o z a d => some (32, enc5 0x00000027 p 23 o 20 z 17 a 12 d 7)
  | .tld t b a o => some (32, enc4 0x0000002B t 22 b 17 a 12 o 7)
  | .tst t b a o => some (32, enc4 0x0000002D t 22 b 17 a 12 o 7)
  | .amoAdd s k w b a d => some (32, enc6 0x0000002F s 29 k 27 w 26 b 17 a 12 d 7)
  | .amoAnd s k w b a d => some (32, enc6 0x0040002F s 29 k 27 w 26 b 17 a 12 d 7)
  | .amoOr s k w b a d => some (32, enc6 0x0080002F s 29 k 27 w 26 b 17 a 12 d 7)
  | .amoXor s k w b a d => some (32, enc6 0x00C0002F s 29 k 27 w 26 b 17 a 12 d 7)
  | .amoMin s k w b a d => some (32, enc6 0x0100002F s 29 k 27 w 26 b 17 a 12 d 7)
  | .amoMax s k w b a d => some (32, enc6 0x0140002F s 29 k 27 w 26 b 17 a 12 d 7)
  | .amoMinn s k w b a d => some (32, enc6 0x0180002F s 29 k 27 w 26 b 17 a 12 d 7)
  | .amoMaxn s k w b a d => some (32, enc6 0x01C0002F s 29 k 27 w 26 b 17 a 12 d 7)
  | .amoSwap s k w b a d => some (32, enc6 0x0200002F s 29 k 27 w 26 b 17 a 12 d 7)
  | .amoCas s k w b a d => some (32, enc6 0x0240002F s 29 k 27 w 26 b 17 a 12 d 7)
  | .amoFadd s k b a d => some (32, enc5 0x0280002F s 29 k 27 b 17 a 12 d 7)
  | .amoFmax s k b a d => some (32, enc5 0x02C0002F s 29 k 27 b 17 a 12 d 7)
  | .redAdd s k w b a => some (32, enc5 0x00000031 s 29 k 27 w 26 b 17 a 12)
  | .redAnd s k w b a => some (32, enc5 0x00400031 s 29 k 27 w 26 b 17 a 12)
  | .redOr s k w b a => some (32, enc5 0x00800031 s 29 k 27 w 26 b 17 a 12)
  | .redXor s k w b a => some (32, enc5 0x00C00031 s 29 k 27 w 26 b 17 a 12)
  | .redMin s k w b a => some (32, enc5 0x01000031 s 29 k 27 w 26 b 17 a 12)
  | .redMax s k w b a => some (32, enc5 0x01400031 s 29 k 27 w 26 b 17 a 12)
  | .redMinn s k w b a => some (32, enc5 0x01800031 s 29 k 27 w 26 b 17 a 12)
  | .redMaxn s k w b a => some (32, enc5 0x01C00031 s 29 k 27 w 26 b 17 a 12)
  | .redFadd s k b a => some (32, enc4 0x02800031 s 29 k 27 b 17 a 12)
  | .redFmax s k b a => some (32, enc4 0x02C00031 s 29 k 27 b 17 a 12)
  | .fence s => some (32, enc1 0x00000033 s 22)
  | .cwb b a => some (32, enc2 0x04000033 b 17 a 12)
  | .cinv b a => some (32, enc2 0x04400033 b 17 a 12)
  | .pfx b a => some (32, enc2 0x04800033 b 17 a 12)
  | .cpy e f b a d => some (32, enc5 0x00000035 e 25 f 24 b 17 a 12 d 7)
  | .cpyt e f b a d => some (32, enc5 0x00400035 e 25 f 24 b 17 a 12 d 7)
  | .fill f b a d => some (32, enc4 0x00800035 f 24 b 17 a 12 d 7)
  | .bkCpy b a d => some (32, enc3 0x00000037 b 17 a 12 d 7)
  | .bkFil b a d => some (32, enc3 0x00400037 b 17 a 12 d 7)
  | .bkAnd b a d => some (32, enc3 0x00800037 b 17 a 12 d 7)
  | .bkOr b a d => some (32, enc3 0x00C00037 b 17 a 12 d 7)
  | .bkXor b a d => some (32, enc3 0x01000037 b 17 a 12 d 7)
  | .bkNot b a d => some (32, enc3 0x01400037 b 17 a 12 d 7)
  | .bkMaj b a d => some (32, enc3 0x01800037 b 17 a 12 d 7)
  | .ovld b a d => some (32, enc3 0x00000047 b 17 a 12 d 7)
  | .ovldGo b a d => some (32, enc3 0x00400047 b 17 a 12 d 7)
  | .prd b a d => some (32, enc3 0x04000047 b 17 a 12 d 7)
  | .pwr b a d => some (32, enc3 0x04400047 b 17 a 12 d 7)
  | .ppush b a d => some (32, enc3 0x04800047 b 17 a 12 d 7)
  | .pend => some (32, 0x04C00047)
  | .tqadd a => some (32, enc1 0x00000045 a 12)
  | .tqtake d => some (32, enc1 0x00400045 d 7)
  | .tqtry d => some (32, enc1 0x00800045 d 7)
  | .tcmt => some (32, 0x00C00045)
  | .tdone => some (32, 0x01000045)
  | _ => none

/-- The parcels of an instruction, lowest address first. -/
def encode (i : Instr) : List (BitVec 16) :=
  match encodeTable i with
  | some (n, w) => parcelsOf n w
  | none => []

/-- Which threads may issue an instruction (R15, R74); a step of an engine is issued by none. -/
inductive Role where
  | access | execute | both | pump | engine
  deriving DecidableEq, Repr

/-- The role column of R15. -/
def Instr.role : Instr → Role
  | .add _ _ _ => .both
  | .sub _ _ _ => .both
  | .mul _ _ _ => .both
  | .mulh _ _ _ => .both
  | .mulhn _ _ _ => .both
  | .div _ _ _ => .both
  | .divn _ _ _ => .both
  | .rem _ _ _ => .both
  | .remn _ _ _ => .both
  | .and _ _ _ => .both
  | .or _ _ _ => .both
  | .xor _ _ _ => .both
  | .andn _ _ _ => .both
  | .orn _ _ _ => .both
  | .shl _ _ _ => .both
  | .shr _ _ _ => .both
  | .sra _ _ _ => .both
  | .rotl _ _ _ => .both
  | .rotr _ _ _ => .both
  | .min _ _ _ => .both
  | .max _ _ _ => .both
  | .minn _ _ _ => .both
  | .maxn _ _ _ => .both
  | .slt _ _ _ => .both
  | .sltn _ _ _ => .both
  | .clz _ _ => .both
  | .ctz _ _ => .both
  | .popc _ _ => .both
  | .sextB _ _ => .both
  | .sextH _ _ => .both
  | .sextW _ _ => .both
  | .zextB _ _ => .both
  | .zextH _ _ => .both
  | .zextW _ _ => .both
  | .bfx _ _ _ => .both
  | .bfxn _ _ _ => .both
  | .bfi _ _ _ => .both
  | .bswap _ _ => .both
  | .hasha _ _ => .both
  | .addi _ _ _ => .both
  | .andi _ _ _ => .both
  | .ori _ _ _ => .both
  | .xori _ _ _ => .both
  | .shli _ _ _ => .both
  | .shri _ _ _ => .both
  | .srai _ _ _ => .both
  | .roti _ _ _ => .both
  | .slti _ _ _ => .both
  | .lih _ _ => .both
  | .addpc _ _ => .both
  | .sk _ _ _ _ => .both
  | .ski _ _ _ _ => .both
  | .bCc _ _ _ _ _ => .both
  | .br _ => .both
  | .call _ => .both
  | .jalr _ _ _ => .both
  | .loop _ _ => .both
  | .csrr _ _ => .both
  | .csrw _ _ => .both
  | .csrs _ _ => .both
  | .csrc _ _ => .both
  | .nop => .both
  | .trap _ => .both
  | .bkpt => .both
  | .fencei => .both
  | .eret _ => .both
  | .halt => .both
  | .tlbi _ _ => .both
  | .tresume _ => .both
  | .tstatr _ _ _ => .both
  | .tstatw _ _ _ => .both
  | .vaddF32Parcel _ _ => .execute
  | .vsubF32Parcel _ _ => .execute
  | .vmulF32Parcel _ _ => .execute
  | .vmaxF32Parcel _ _ => .execute
  | .vminF32Parcel _ _ => .execute
  | .vaddI32Parcel _ _ => .execute
  | .vsubI32Parcel _ _ => .execute
  | .vandParcel _ _ => .execute
  | .vorParcel _ _ => .execute
  | .vxorParcel _ _ => .execute
  | .vmovParcel _ _ => .execute
  | .vaddB16Parcel _ _ => .execute
  | .vmulB16Parcel _ _ => .execute
  | .vshlI32Parcel _ _ => .execute
  | .vsraI32Parcel _ _ => .execute
  | .vnegF32Parcel _ _ => .execute
  | .rpt _ _ _ _ => .both
  | .nop16 => .both
  | .send _ _ _ => .both
  | .recv _ _ _ => .both
  | .recvn _ _ _ => .both
  | .mon _ _ => .access
  | .monG _ _ => .both
  | .mwait _ _ _ => .both
  | .mclr _ => .both
  | .cntw _ _ _ => .both
  | .bar _ _ _ => .both
  | .bara _ _ _ => .both
  | .barw _ _ => .both
  | .ibx _ _ => .access
  | .ibxn _ _ => .access
  | .uien _ _ => .access
  | .uiret => .access
  | .tstart _ _ _ => .both
  | .texit => .both
  | .yield => .both
  | .gang _ _ => .both
  | .ungang => .both
  | .draw _ _ _ => .access
  | .dcan _ => .access
  | .dstat _ _ => .access
  | .bdone => .access
  | .tdef _ _ => .access
  | .tinv _ => .access
  | .tqry _ _ _ => .access
  | .qld _ _ => .access
  | .qst _ _ => .access
  | .qpx _ _ _ => .access
  | .vadd _ _ _ _ => .execute
  | .vsub _ _ _ _ => .execute
  | .vmul _ _ _ _ => .execute
  | .vfma _ _ _ _ => .execute
  | .vfms _ _ _ _ => .execute
  | .vmin _ _ _ _ => .execute
  | .vminN _ _ _ _ => .execute
  | .vmax _ _ _ _ => .execute
  | .vmaxN _ _ _ _ => .execute
  | .vabs _ _ _ => .execute
  | .vneg _ _ _ => .execute
  | .vand _ _ _ _ => .execute
  | .vor _ _ _ _ => .execute
  | .vxor _ _ _ _ => .execute
  | .vnot _ _ _ => .execute
  | .vshl _ _ _ _ => .execute
  | .vshr _ _ _ _ => .execute
  | .vsra _ _ _ _ => .execute
  | .vcmp _ _ _ _ _ => .execute
  | .vsel _ _ _ _ => .execute
  | .vcvt _ _ _ _ _ _ => .execute
  | .vqnt _ _ _ _ _ _ => .execute
  | .vdq _ _ _ _ _ => .execute
  | .vbcast _ _ _ => .execute
  | .vext _ _ _ _ => .execute
  | .vextN _ _ _ _ => .execute
  | .vins _ _ _ _ => .execute
  | .vperm _ _ _ _ => .execute
  | .vslide _ _ _ _ => .execute
  | .viota _ _ => .execute
  | .vmovi _ _ _ => .execute
  | .vrsum _ _ _ => .execute
  | .vrmax _ _ _ => .execute
  | .vrmaxN _ _ _ => .execute
  | .vrmin _ _ _ => .execute
  | .vrminN _ _ _ => .execute
  | .vtopk _ _ _ _ => .execute
  | .vtopkN _ _ _ _ => .execute
  | .vrcp _ _ _ => .execute
  | .vrsq _ _ _ => .execute
  | .vsqrt _ _ _ => .execute
  | .vdiv _ _ _ _ => .execute
  | .vexp2 _ _ _ => .execute
  | .vlog2 _ _ _ => .execute
  | .vsinp _ _ _ => .execute
  | .vcosp _ _ _ => .execute
  | .vtanh _ _ _ => .execute
  | .wclr _ => .execute
  | .wacc _ _ _ => .execute
  | .waccp _ _ _ _ => .execute
  | .wrnd _ _ => .execute
  | .wsave _ _ => .execute
  | .wload _ _ => .execute
  | .hacc _ _ _ _ => .execute
  | .hlook _ _ _ _ => .execute
  | .hclr _ _ => .execute
  | .vldc _ _ => .execute
  | .vstc _ _ => .execute
  | .vwaitc _ => .execute
  | .mma _ _ _ _ => .access
  | .mmaM _ _ _ _ => .access
  | .mzero _ _ => .access
  | .mcopy _ _ => .access
  | .mldc _ _ => .access
  | .mstc _ _ => .access
  | .mspw _ _ _ => .access
  | .mspwM _ _ _ _ => .access
  | .ld _ _ _ _ _ _ => .access
  | .st _ _ _ _ _ => .access
  | .ldl _ _ _ _ _ _ => .access
  | .stl _ _ _ _ _ => .access
  | .tld _ _ _ _ => .access
  | .tst _ _ _ _ => .access
  | .amoAdd _ _ _ _ _ _ => .access
  | .amoAnd _ _ _ _ _ _ => .access
  | .amoOr _ _ _ _ _ _ => .access
  | .amoXor _ _ _ _ _ _ => .access
  | .amoMin _ _ _ _ _ _ => .access
  | .amoMax _ _ _ _ _ _ => .access
  | .amoMinn _ _ _ _ _ _ => .access
  | .amoMaxn _ _ _ _ _ _ => .access
  | .amoSwap _ _ _ _ _ _ => .access
  | .amoCas _ _ _ _ _ _ => .access
  | .amoFadd _ _ _ _ _ => .access
  | .amoFmax _ _ _ _ _ => .access
  | .redAdd _ _ _ _ _ => .access
  | .redAnd _ _ _ _ _ => .access
  | .redOr _ _ _ _ _ => .access
  | .redXor _ _ _ _ _ => .access
  | .redMin _ _ _ _ _ => .access
  | .redMax _ _ _ _ _ => .access
  | .redMinn _ _ _ _ _ => .access
  | .redMaxn _ _ _ _ _ => .access
  | .redFadd _ _ _ _ => .access
  | .redFmax _ _ _ _ => .access
  | .fence _ => .both
  | .cwb _ _ => .access
  | .cinv _ _ => .access
  | .pfx _ _ => .access
  | .cpy _ _ _ _ _ => .access
  | .cpyt _ _ _ _ _ => .access
  | .fill _ _ _ _ => .access
  | .bkCpy _ _ _ => .access
  | .bkFil _ _ _ => .access
  | .bkAnd _ _ _ => .access
  | .bkOr _ _ _ => .access
  | .bkXor _ _ _ => .access
  | .bkNot _ _ _ => .access
  | .bkMaj _ _ _ => .access
  | .ovld _ _ _ => .access
  | .ovldGo _ _ _ => .access
  | .prd _ _ _ => .pump
  | .pwr _ _ _ => .pump
  | .ppush _ _ _ => .pump
  | .pend => .pump
  | .tqadd _ => .access
  | .tqtake _ => .access
  | .tqtry _ => .access
  | .tcmt => .access
  | .tdone => .access
  | .illegalInstruction => .both
  | _ => .engine

/-- The instructions that only supervisor-level threads may issue (R15, R64). -/
def Instr.supervisor : Instr → Bool
  | .eret _ => true
  | .halt => true
  | .tlbi _ _ => true
  | .tresume _ => true
  | .tstatr _ _ _ => true
  | .tstatw _ _ _ => true
  | _ => false

/-- Length in bytes (R32). -/
def Instr.len (i : Instr) : Nat :=
  match encodeTable i with
  | some (n, _) => n / 8
  | none => 4

/-- Whether an instruction may be the target of RPT, and then which of its fields D, A and B may be stepped (R36,
R37, and the rows "As RPT target" of R72, R98, R173, R193, R227, R303, R310, R334). -/
def Instr.rptFields : Instr → Option (Bool × Bool × Bool)
  | .add _ _ _ => some (true, true, true)
  | .sub _ _ _ => some (true, true, true)
  | .mul _ _ _ => some (true, true, true)
  | .mulh _ _ _ => some (true, true, true)
  | .mulhn _ _ _ => some (true, true, true)
  | .div _ _ _ => some (true, true, true)
  | .divn _ _ _ => some (true, true, true)
  | .rem _ _ _ => some (true, true, true)
  | .remn _ _ _ => some (true, true, true)
  | .and _ _ _ => some (true, true, true)
  | .or _ _ _ => some (true, true, true)
  | .xor _ _ _ => some (true, true, true)
  | .andn _ _ _ => some (true, true, true)
  | .orn _ _ _ => some (true, true, true)
  | .shl _ _ _ => some (true, true, true)
  | .shr _ _ _ => some (true, true, true)
  | .sra _ _ _ => some (true, true, true)
  | .rotl _ _ _ => some (true, true, true)
  | .rotr _ _ _ => some (true, true, true)
  | .min _ _ _ => some (true, true, true)
  | .max _ _ _ => some (true, true, true)
  | .minn _ _ _ => some (true, true, true)
  | .maxn _ _ _ => some (true, true, true)
  | .slt _ _ _ => some (true, true, true)
  | .sltn _ _ _ => some (true, true, true)
  | .clz _ _ => some (true, true, false)
  | .ctz _ _ => some (true, true, false)
  | .popc _ _ => some (true, true, false)
  | .sextB _ _ => some (true, true, false)
  | .sextH _ _ => some (true, true, false)
  | .sextW _ _ => some (true, true, false)
  | .zextB _ _ => some (true, true, false)
  | .zextH _ _ => some (true, true, false)
  | .zextW _ _ => some (true, true, false)
  | .bfx _ _ _ => some (true, true, true)
  | .bfxn _ _ _ => some (true, true, true)
  | .bfi _ _ _ => some (true, true, true)
  | .bswap _ _ => some (true, true, false)
  | .hasha _ _ => some (true, true, false)
  | .addi _ _ _ => some (true, true, false)
  | .andi _ _ _ => some (true, true, false)
  | .ori _ _ _ => some (true, true, false)
  | .xori _ _ _ => some (true, true, false)
  | .shli _ _ _ => some (true, true, false)
  | .shri _ _ _ => some (true, true, false)
  | .srai _ _ _ => some (true, true, false)
  | .roti _ _ _ => some (true, true, false)
  | .slti _ _ _ => some (true, true, false)
  | .lih _ _ => some (true, false, false)
  | .addpc _ _ => some (true, false, false)
  | .csrr _ _ => some (true, false, false)
  | .csrw _ _ => some (false, true, false)
  | .csrs _ _ => some (false, true, false)
  | .csrc _ _ => some (false, true, false)
  | .vaddF32Parcel _ _ => some (true, false, true)
  | .vsubF32Parcel _ _ => some (true, false, true)
  | .vmulF32Parcel _ _ => some (true, false, true)
  | .vmaxF32Parcel _ _ => some (true, false, true)
  | .vminF32Parcel _ _ => some (true, false, true)
  | .vaddI32Parcel _ _ => some (true, false, true)
  | .vsubI32Parcel _ _ => some (true, false, true)
  | .vandParcel _ _ => some (true, false, true)
  | .vorParcel _ _ => some (true, false, true)
  | .vxorParcel _ _ => some (true, false, true)
  | .vmovParcel _ _ => some (true, false, true)
  | .vaddB16Parcel _ _ => some (true, false, true)
  | .vmulB16Parcel _ _ => some (true, false, true)
  | .vshlI32Parcel _ _ => some (true, false, true)
  | .vsraI32Parcel _ _ => some (true, false, true)
  | .vnegF32Parcel _ _ => some (true, false, true)
  | .send _ _ _ => some (true, true, true)
  | .recv _ _ _ => some (true, true, true)
  | .recvn _ _ _ => some (true, true, true)
  | .mon _ _ => some (true, true, false)
  | .monG _ _ => some (true, true, false)
  | .mwait _ _ _ => some (true, false, true)
  | .mclr _ => some (true, false, false)
  | .cntw _ _ _ => some (false, true, true)
  | .bar _ _ _ => some (true, true, true)
  | .bara _ _ _ => some (true, true, true)
  | .barw _ _ => some (true, true, false)
  | .draw _ _ _ => some (true, true, false)
  | .dcan _ => some (false, true, false)
  | .dstat _ _ => some (true, true, false)
  | .tdef _ _ => some (false, true, false)
  | .tinv _ => some (false, false, false)
  | .tqry _ _ _ => some (true, false, true)
  | .qld _ _ => some (true, true, false)
  | .qst _ _ => some (true, true, false)
  | .qpx _ _ _ => some (true, true, true)
  | .vadd _ _ _ _ => some (true, true, true)
  | .vsub _ _ _ _ => some (true, true, true)
  | .vmul _ _ _ _ => some (true, true, true)
  | .vfma _ _ _ _ => some (true, true, true)
  | .vfms _ _ _ _ => some (true, true, true)
  | .vmin _ _ _ _ => some (true, true, true)
  | .vminN _ _ _ _ => some (true, true, true)
  | .vmax _ _ _ _ => some (true, true, true)
  | .vmaxN _ _ _ _ => some (true, true, true)
  | .vabs _ _ _ => some (true, true, false)
  | .vneg _ _ _ => some (true, true, false)
  | .vand _ _ _ _ => some (true, true, true)
  | .vor _ _ _ _ => some (true, true, true)
  | .vxor _ _ _ _ => some (true, true, true)
  | .vnot _ _ _ => some (true, true, false)
  | .vshl _ _ _ _ => some (true, true, true)
  | .vshr _ _ _ _ => some (true, true, true)
  | .vsra _ _ _ _ => some (true, true, true)
  | .vcmp _ _ _ _ _ => some (true, true, true)
  | .vsel _ _ _ _ => some (true, true, true)
  | .vcvt _ _ _ _ _ _ => some (true, true, false)
  | .vqnt _ _ _ _ _ _ => some (true, true, true)
  | .vdq _ _ _ _ _ => some (true, true, true)
  | .vbcast _ _ _ => some (true, true, false)
  | .vext _ _ _ _ => some (true, true, true)
  | .vextN _ _ _ _ => some (true, true, true)
  | .vins _ _ _ _ => some (true, true, true)
  | .vperm _ _ _ _ => some (true, true, true)
  | .vslide _ _ _ _ => some (true, true, true)
  | .viota _ _ => some (true, false, false)
  | .vmovi _ _ _ => some (true, false, false)
  | .vrsum _ _ _ => some (true, true, false)
  | .vrmax _ _ _ => some (true, true, false)
  | .vrmaxN _ _ _ => some (true, true, false)
  | .vrmin _ _ _ => some (true, true, false)
  | .vrminN _ _ _ => some (true, true, false)
  | .vtopk _ _ _ _ => some (true, true, false)
  | .vtopkN _ _ _ _ => some (true, true, false)
  | .vrcp _ _ _ => some (true, true, false)
  | .vrsq _ _ _ => some (true, true, false)
  | .vsqrt _ _ _ => some (true, true, false)
  | .vdiv _ _ _ _ => some (true, true, true)
  | .vexp2 _ _ _ => some (true, true, false)
  | .vlog2 _ _ _ => some (true, true, false)
  | .vsinp _ _ _ => some (true, true, false)
  | .vcosp _ _ _ => some (true, true, false)
  | .vtanh _ _ _ => some (true, true, false)
  | .wclr _ => some (true, false, false)
  | .wacc _ _ _ => some (true, true, false)
  | .waccp _ _ _ _ => some (true, true, true)
  | .wrnd _ _ => some (true, true, false)
  | .wsave _ _ => some (true, true, false)
  | .wload _ _ => some (true, true, false)
  | .hacc _ _ _ _ => some (false, false, false)
  | .hlook _ _ _ _ => some (false, false, false)
  | .hclr _ _ => some (false, false, false)
  | .vldc _ _ => some (true, true, false)
  | .vstc _ _ => some (true, true, false)
  | .vwaitc _ => some (false, false, false)
  | .mma _ _ _ _ => some (true, true, true)
  | .mmaM _ _ _ _ => some (true, true, true)
  | .mzero _ _ => some (true, false, false)
  | .mcopy _ _ => some (false, true, false)
  | .mldc _ _ => some (false, true, false)
  | .mstc _ _ => some (false, true, false)
  | .mspw _ _ _ => some (false, true, true)
  | .mspwM _ _ _ _ => some (true, true, true)
  | .ld _ _ _ _ _ _ => some (true, true, false)
  | .st _ _ _ _ _ => some (true, true, false)
  | .ldl _ _ _ _ _ _ => some (true, true, false)
  | .stl _ _ _ _ _ => some (true, true, false)
  | .tld _ _ _ _ => some (false, true, true)
  | .tst _ _ _ _ => some (false, true, true)
  | .amoAdd _ _ _ _ _ _ => some (true, true, true)
  | .amoAnd _ _ _ _ _ _ => some (true, true, true)
  | .amoOr _ _ _ _ _ _ => some (true, true, true)
  | .amoXor _ _ _ _ _ _ => some (true, true, true)
  | .amoMin _ _ _ _ _ _ => some (true, true, true)
  | .amoMax _ _ _ _ _ _ => some (true, true, true)
  | .amoMinn _ _ _ _ _ _ => some (true, true, true)
  | .amoMaxn _ _ _ _ _ _ => some (true, true, true)
  | .amoSwap _ _ _ _ _ _ => some (true, true, true)
  | .amoCas _ _ _ _ _ _ => some (true, true, true)
  | .amoFadd _ _ _ _ _ => some (true, true, true)
  | .amoFmax _ _ _ _ _ => some (true, true, true)
  | .redAdd _ _ _ _ _ => some (false, true, true)
  | .redAnd _ _ _ _ _ => some (false, true, true)
  | .redOr _ _ _ _ _ => some (false, true, true)
  | .redXor _ _ _ _ _ => some (false, true, true)
  | .redMin _ _ _ _ _ => some (false, true, true)
  | .redMax _ _ _ _ _ => some (false, true, true)
  | .redMinn _ _ _ _ _ => some (false, true, true)
  | .redMaxn _ _ _ _ _ => some (false, true, true)
  | .redFadd _ _ _ _ => some (false, true, true)
  | .redFmax _ _ _ _ => some (false, true, true)
  | .fence _ => some (false, false, false)
  | .cwb _ _ => some (false, true, true)
  | .cinv _ _ => some (false, true, true)
  | .pfx _ _ => some (false, true, true)
  | .cpy _ _ _ _ _ => some (true, true, true)
  | .cpyt _ _ _ _ _ => some (true, true, true)
  | .fill _ _ _ _ => some (true, true, true)
  | .bkCpy _ _ _ => some (true, true, true)
  | .bkFil _ _ _ => some (true, true, true)
  | .bkAnd _ _ _ => some (true, true, true)
  | .bkOr _ _ _ => some (true, true, true)
  | .bkXor _ _ _ => some (true, true, true)
  | .bkNot _ _ _ => some (true, true, true)
  | .bkMaj _ _ _ => some (true, true, true)
  | .ovld _ _ _ => some (true, true, true)
  | .ovldGo _ _ _ => some (true, true, true)
  | .prd _ _ _ => some (true, true, true)
  | .pwr _ _ _ => some (true, true, true)
  | .ppush _ _ _ => some (true, true, true)
  | .pend => some (false, false, false)
  | _ => none

end Sys2Proof
end

