-- ==== Sys2Proof/Machine/Bits.lean ====
section
/-!
DEFINITION. Bit fields, little-endian bytes (R2, R3), sparse tables, the canonical sparse memory and small list
helpers. Everything here is structural recursion over lists or plain arithmetic.
-/

namespace Sys2Proof.Machine

/-- Field [hi:lo] of a value as a number (R3). -/
def field (w : Nat) (hi lo : Nat) : Nat := w / 2 ^ lo % 2 ^ (hi + 1 - lo)
/-- Field [hi:lo] of a 64-bit value as a number. -/
def wfield (w : Word) (hi lo : Nat) : Nat := field w.toNat hi lo
/-- Bit n of a 64-bit value. -/
def wbit (w : Word) (n : Nat) : Bool := w.toNat / 2 ^ n % 2 = 1
/-- Bit n of a number. -/
def nbit (w n : Nat) : Bool := w / 2 ^ n % 2 = 1
/-- A number cut to 64 bits. -/
def word (n : Nat) : Word := BitVec.ofNat 64 n
/-- 1 or 0. -/
def b2n (b : Bool) : Nat := if b then 1 else 0
/-- The low n bits of a number read as a two's-complement value. -/
def signedOf (n v : Nat) : Int :=
  let u := v % 2 ^ n
  if 2 ^ (n - 1) ≤ u then (u : Int) - (2 ^ n : Nat) else (u : Int)
/-- An integer cut to n bits, two's complement. -/
def wrapTo (n : Nat) (v : Int) : Nat := (v % ((2 ^ n : Nat) : Int)).toNat
/-- Ceiling of a quotient. -/
def ceilDiv (a b : Nat) : Nat := (a + b - 1) / b
/-- Distance of two numbers. -/
def dist (a b : Nat) : Nat := (a - b) + (b - a)

/-- The bytes of a number, lowest address first (R2). -/
def toBytes (n v : Nat) : List Byte := (List.range n).map fun i => BitVec.ofNat 8 (v / 2 ^ (8 * i))
/-- The number that bytes hold, lowest address first (R2). -/
def ofBytes : List Byte → Nat
  | [] => 0
  | b :: bs => b.toNat + 256 * ofBytes bs
/-- A value of n bytes. -/
def bytesOfWord (n : Nat) (v : Word) : List Byte := toBytes n v.toNat
def wordOfBytes (bs : List Byte) : Word := word (ofBytes bs)
/-- Word k of a list of bytes. -/
def wordAt (bs : List Byte) (k : Nat) : Word := wordOfBytes ((bs.drop (8 * k)).take 8)

/-! Sparse tables: entries by rising number. -/

/-- The entry of a number, or the initial value. -/
def tget {β : Type} (d : β) : Table β → Nat → β
  | [], _ => d
  | (k, b) :: t, n => if n = k then b else if n < k then d else tget d t n
/-- Sets the entry of a number. -/
def tset {β : Type} : Table β → Nat → β → Table β
  | [], n, b => [(n, b)]
  | (k, c) :: t, n, b =>
    if n = k then (n, b) :: t else if n < k then (n, b) :: (k, c) :: t else (k, c) :: tset t n b
/-- Changes the entry of a number. -/
def tmod {β : Type} (d : β) (t : Table β) (n : Nat) (f : β → β) : Table β := tset t n (f (tget d t n))
/-- Removes the entry of a number. -/
def terase {β : Type} : Table β → Nat → Table β
  | [], _ => []
  | (k, c) :: t, n => if n = k then t else if n < k then (k, c) :: t else (k, c) :: terase t n
/-- The entry of a number, if it is listed. -/
def tfind {β : Type} : Table β → Nat → Option β
  | [], _ => none
  | (k, b) :: t, n => if n = k then some b else if n < k then none else tfind t n
/-- Changes every listed entry. -/
def tmap {β : Type} (f : Nat → β → β) (t : Table β) : Table β := t.map fun (k, b) => (k, f k b)

/-! Memory: a byte list in canonical form; an address that is not listed reads 0 (log 5). -/

/-- DESIGN CHOICE (log 5): what a byte of memory that nothing has written reads as. -/
def unlistedByte : Byte := 0
/-- Reads one byte. -/
def memGet : List Host.Cell → Nat → Byte
  | [], _ => unlistedByte
  | (k, b) :: m, a => if a = k then b else if a < k then unlistedByte else memGet m a
/-- Writes one byte and keeps the canonical form. -/
def memSet : List Host.Cell → Nat → Byte → List Host.Cell
  | [], a, v => if v = unlistedByte then [] else [(a, v)]
  | (k, b) :: m, a, v =>
    if a = k then (if v = unlistedByte then m else (k, v) :: m)
    else if a < k then (if v = unlistedByte then (k, b) :: m else (a, v) :: (k, b) :: m)
    else (k, b) :: memSet m a v
/-- Reads n bytes from an address on. -/
def memRead (m : List Host.Cell) (a n : Nat) : List Byte := (List.range n).map fun i => memGet m (a + i)
/-- Writes bytes from an address on. -/
def memWrite (m : List Host.Cell) (a : Nat) : List Byte → List Host.Cell
  | [] => m
  | b :: bs => memWrite (memSet m a b) (a + 1) bs
/-- Zeroes a range: every listed byte of it is removed. -/
def memClear (m : List Host.Cell) (a n : Nat) : List Host.Cell := m.filter fun c => c.1 < a || a + n ≤ c.1
/-- The listed bytes of a range, by their distance from its start. -/
def memWindow (m : List Host.Cell) (a n : Nat) : List Host.Cell :=
  (m.filter fun c => a ≤ c.1 && c.1 < a + n).map fun c => (c.1 - a, c.2)
/-- Writes listed bytes, each at its distance from an address. -/
def memPut (m : List Host.Cell) (a : Nat) (cs : List Host.Cell) : List Host.Cell := cs.foldl (fun m c => memSet m (a + c.1) c.2) m
/-- Every listed key is above a bound, keys rise, and no entry equals what an unlisted byte reads as. -/
def wfFrom : Option Nat → List Host.Cell → Bool
  | _, [] => true
  | lo, (k, b) :: m => (match lo with | none => true | some l => decide (l < k)) && b != unlistedByte && wfFrom (some k) m
/-- The canonical form of memory. -/
def Memory.wf (m : List Host.Cell) : Bool := wfFrom none m

/-! Lists. -/

/-- Sets an entry of a list. -/
def lset {β : Type} (l : List β) (n : Nat) (b : β) : List β := l.set n b
/-- Changes an entry of a list. -/
def lmod {β : Type} (l : List β) (n : Nat) (f : β → β) : List β := l.modify n f
/-- Insertion in the order of a measure, behind equal ones. -/
def insertBy {β : Type} (m : β → Nat) (x : β) : List β → List β
  | [] => [x]
  | y :: l => if m y ≤ m x then y :: insertBy m x l else x :: y :: l
/-- A stable sort by a measure. -/
def sortBy {β : Type} (m : β → Nat) (l : List β) : List β := l.foldl (fun acc x => insertBy m x acc) []
/-- The entry with the least measure, the first among equals. -/
def minBy {β : Type} (m : β → Nat) : List β → Option β
  | [] => none
  | x :: l => match minBy m l with
    | none => some x
    | some y => if m x ≤ m y then some x else some y
/-- Keeps the first of equal entries. -/
def dedup {β : Type} [DecidableEq β] (l : List β) : List β :=
  l.foldl (fun acc x => if acc.contains x then acc else acc ++ [x]) []
/-- Folds a function over 0 ... n − 1. -/
def forUpto {σ : Type} (n : Nat) (s : σ) (f : Nat → σ → σ) : σ := (List.range n).foldl (fun s i => f i s) s
/-- The sum of a list. -/
def sumList (l : List Nat) : Nat := l.foldl (· + ·) 0

end Sys2Proof.Machine
end

