-- ==== Sys2Proof/Config.lean ====
section
/-!
DEFINITION. What the manual leaves to the device or to the outside, as constants without a body: nothing can
be proved of their values. Log entries 3, 4, 7, 8, 9, 10 name where each is used.
-/

namespace Sys2Proof

/-- DESIGN CHOICE (log 3, log 4, log 9): the choices R131, R248, R335 and R413 leave to the device. The model
applies it to a counter of the state, which it then advances. -/
opaque Config.choice : Nat → Nat

/-- DESIGN CHOICE (log 8): what a byte of DRAM written under one key reads as under another (R378), by
the two keys, the address and the stored byte. -/
opaque Config.wrongKey : Nat → Nat → Nat → Byte → Byte

/-- DESIGN CHOICE (log 7): the bytes of a save area whose layout R368 does not give, by the save and the offset. -/
opaque Config.saveByte : Nat → Nat → Byte

/-- DESIGN CHOICE (log 10): SHA-384 of a byte string (R388), and of each running image (R401). -/
opaque Config.sha384 : List Byte → List Byte

/-- DESIGN CHOICE (log 10): the signature r‖s over bytes 0-287 of a report under the device identity key (R387). -/
opaque Config.sign : List Byte → List Byte

/-- DESIGN CHOICE (log 10): by the number of a load of firmware, the hub image, and the base-die image of a stack (R401). -/
opaque Config.hubImage : Nat → List Byte
opaque Config.baseImage : Nat → Nat → List Byte

/-- DESIGN CHOICE (log 10): whether the signature of an image verifies under the firmware key, the version of an image, and the least
version that the hub's fuses allow (R401). -/
opaque Config.verifies : List Byte → Bool
opaque Config.imageVersion : List Byte → Nat
opaque Config.fuseMin : Nat

/-- DESIGN CHOICE (log 10): the device serial number of R388, 16 bytes. -/
opaque Config.serial : List Byte

end Sys2Proof
end

