-- ==== Sys2Proof/Machine/State.lean ====
section
/-!
DEFINITION. The state of the C-512 module: threads, cores, clusters, dies, pumps, contexts, partitions, memory, the
registers of the host interface, and the agenda of steps that its engines have still to take. INVENTORY.md lists
every field with the rule that names it and its reset value; log 6 lists the reset values that no rule gives.
-/

namespace Sys2Proof.Machine

/-- Why the machine stops. -/
inductive Fault where
  /-- Raised by `step`, when the agenda's next entry names a part that the module does not have (log 2). Safe: the
  hardware has no such entry. -/
  | malformedEvent
  deriving DecidableEq, Repr

/-- Why an instruction is refused. -/
inductive Refusal where
  /-- Raised by `exec` for an instruction without a meaning; no instruction is refused. Safe. -/
  | notModelled (mnemonic : String)
  deriving DecidableEq, Repr

/-! ### Threads -/

/-- An RPT that is issuing its repeats: the count n, the step flags D, A, B (R36). -/
structure RptRun where
  n : Nat
  d : Bool
  a : Bool
  b : Bool
  deriving DecidableEq, Repr

/-- What follows instructions: a thread or a pump kernel (R14, R311). -/
structure Seq where
  /-- The program counter. -/
  pc : Word := 0
  /-- x0-x31; x0 reads 0 through `getX`. -/
  x : Vector Word 32 := Vector.replicate 32 0
  /-- RPTSTATE.REMAIN (R38). -/
  rpt : BitVec 7 := 0
  /-- SKIPSTATE.REMAIN (R44). -/
  skip : BitVec 2 := 0
  /-- The RPT whose repeats are issuing; pc then holds the address of the RPT parcel. -/
  rptRun : Option RptRun := none
  deriving DecidableEq, Repr

/-- A wide accumulator (R116). -/
structure WAcc where
  val : W320 := 0
  pinf : Bool := false
  ninf : Bool := false
  nan : Bool := false
  deriving DecidableEq, Repr

/-- Where a monitor is armed: a well sector of the cluster, or a 256-byte line of memory (R84). -/
inductive MonPlace where
  | well (core : Nat) (sector : Nat)
  | line (key : Nat)
  deriving DecidableEq, Repr
/-- A write that lands in the cycle `at_`: bytes of a core's well, or of memory by key (R85). -/
structure Landing where
  core : Option Nat
  first : Nat
  len : Nat
  at_ : Nat
  deriving DecidableEq, Repr
/-- A monitor: its place and its record (R85). -/
structure Mon where
  place : Option MonPlace := none
  hit : Bool := false
  deriving DecidableEq, Repr

/-- A receive channel (R80, R81): flits, and its free slots by the cycle that freed them (0: never used). -/
structure Chan where
  flits : List Flit := []
  free : List Nat := [0, 0, 0, 0]
  deriving DecidableEq, Repr

/-- The arrival of a thread that waits in BAR or BARW, or that BARA left pending (R89-R92). -/
structure BarArr where
  b : Nat
  phase : Nat
  /-- The cycle of the completing arrival. -/
  done : Option Nat := none
  /-- Withdrawn by a time-out. -/
  out : Bool := false
  /-- The cycle in which it times out. -/
  due : Option Nat := none
  deriving DecidableEq, Repr

/-- The task state of a thread (R337). -/
inductive TaskState where
  | none
  | held (t : Task) (pc : Word)
  | kept (t : Task) (pc : Word)
  deriving DecidableEq, Repr

/-- A tensor descriptor (R121, R122); `rows` and `rowBytes` are the fields, counts less one. -/
structure Desc where
  kind : Nat
  fmt : Nat
  well : Bool
  ro : Bool
  rows : Nat
  rowBytes : Nat
  base : Word
  scaleBase : Word
  dim0 : Nat
  dim1 : Nat
  dim2 : Nat
  dim3 : Nat
  s1 : Word
  s2 : Word
  s3 : Word
  deriving DecidableEq, Repr

/-- A unit that tile accesses lock (R254): a 256-byte line of memory, or a 64-byte well sector of a core. -/
inductive LockUnit where
  | line (key : Nat)
  | sector (core : Nat) (off : Nat)
  deriving DecidableEq, Repr

/-- What waits at units for locks, apart from tile accesses, far accesses and near-bank commands, which keep their arrival
themselves (R260). -/
inductive Waiter where
  /-- A copy's read or write (R300). -/
  | copy (id : Nat) (write : Bool)
  /-- A hash instruction (R171). -/
  | hash (h : Nat)
  /-- An MLDC (R222). -/
  | mldc (core tile : Nat)
  /-- A fetch of the matrix engine: an entry, an A operand, a B operand, superscales (R206, R210); of a multicast group. -/
  | operand (h idx kind : Nat)
  | mcast (cl id : Nat)
  /-- The image of an overlay that a thread loads (R314), a record for a trap ring (R362), an access of the host (R383). -/
  | image (h : Nat)
  | ring (p handle : Nat)
  | host (part off : Nat)
  /-- A trace record of a cluster (R396). -/
  | trace (cl : Nat)
  /-- A walker's read for a miss of a die (R247). -/
  | walk (die id : Nat)
  /-- The reports of a pump's kernels to launch pages (R317), the well counters of a core's draws (R100). -/
  | page (chan : Nat)
  | drawCount (core num : Nat)
  /-- The image of a kernel node: its read, its write into wells (R345). -/
  | node (c q : Nat) (write : Bool)
  deriving DecidableEq, Repr
/-- One that waits: since when, and up to which cycle, for it asks again in every cycle; the handle it is ordered by. -/
structure Wait where
  who : Waiter
  reached : Nat
  last : Nat
  key : Nat
  write : Bool
  units : List LockUnit
  deriving DecidableEq, Repr

/-- A hash instruction that has issued (R17, R166): the table as it found it, the operands with their registers, its destination
and the queue entry that is kept for it, the events of its lanes so far, and its result once its table has answered. -/
structure HashWait where
  d : Desc
  rs : List Reg
  ops : List VReg
  dst : Option Reg
  push : Option Nat := none
  fl : BitVec 5 := 0
  done : Option VReg := none
  deriving DecidableEq, Repr

/-- Why a thread is blocked or waits for an answer. -/
inductive Why where
  /-- The reply of a supervisor operation (R414). -/
  | sup
  /-- TLBI: address and control value (R67). -/
  | tlbi (va ctl : Word)
  /-- A TLD, until its tile access is performed (R288). -/
  | tile
  /-- A TDEF or TINV of t, until `left` answers have come; the descriptor once it is read (R185, R186). -/
  | table (t left : Nat) (d : Option Desc)
  /-- The status of OVLD or OVLD.go (R314). -/
  | ovld
  /-- A page walk (R247); the instruction issues again. -/
  | walk
  /-- Entry or space of pair queue q (R17, R18). -/
  | queue (q : Nat)
  /-- A flit in channel n (R82). -/
  | recv (n : Nat)
  /-- A free slot of channel n of thread `dst` (R80). -/
  | send (dst : Nat) (n : Nat)
  /-- MWAIT on the masked monitors (R86). -/
  | mwait (mask : Nat) (rd : Reg)
  /-- The counter at this memory key (R88); the target once the counter has been read and was below it. -/
  | cntw (key : Nat) (target : Option Word) (scope : Nat)
  /-- A BAR or BARA whose arrival waits for a release (R89). -/
  | arrive (b : Nat) (count : Nat) (bara : Bool) (rd : Reg)
  /-- BAR or BARW waiting for its phase (R90). -/
  | barrier (b : Nat) (rd : Reg)
  /-- GANG n (R78). -/
  | gang (n : Nat) (rd : Reg)
  /-- IBX on an empty inbox (R94). -/
  | inbox
  /-- VWAITC n (R226). -/
  | vwaitc (n : Nat)
  /-- The matrix engine's work for this thread (R203). -/
  | matrix
  /-- The special-function unit (R161). -/
  | sfu
  /-- A hash access (R166). -/
  | hash (w : HashWait)
  /-- TQTAKE, until its answer (R337). -/
  | task
  /-- YIELD's eight cycles (R77). -/
  | yield
  /-- TEXIT, until what it waits for is done (R76). -/
  | texit
  /-- A new thread's two cycles before it enters its rotation (R75), or GANG's n (R78). -/
  | start
  deriving DecidableEq, Repr

/-- The state of a slot (R20); `halted` is HALT of R68. -/
inductive Run where
  | unused
  /-- Ready, or waiting for a result that the instruction needs. -/
  | ready
  | blocked (w : Why)
  | parked
  | halted
  | exited
  deriving DecidableEq, Repr

/-- A body's draw identity: the draw number, the ring slot it was started on (R99, R138). -/
structure Body where
  num : Nat
  slot : Nat
  deriving DecidableEq, Repr

/-- A thread slot (R14, R20). -/
structure Thread where
  seq : Seq := {}
  run : Run := .unused
  /-- The cycle in which the thread last blocked or issued a wait; an event about an earlier wait is stale. -/
  since : Nat := 0
  /-- The cycle in which the thread was started: what an earlier thread of the slot has outstanding is not its own. -/
  born : Nat := 0
  /-- When earlier bodies of the slot were started whose accesses may still be outstanding (R100). -/
  borns : List Nat := []
  /-- The first cycle in which the thread may issue (R9). -/
  notBefore : Nat := 0
  /-- Registers whose value is still on its way: number (32 + n: shadow register n), and the cycle in which it is
  usable if that is known (R20, R23). -/
  pend : Table (Option Nat) := []
  /-- A park was requested (R70). -/
  parkReq : Bool := false
  /-- Stopped by a halt of the cluster debug module (R392). -/
  dbgStop : Bool := false
  /-- Stopped at a boundary by the save of its context (R369). -/
  frozen : Bool := false
  ctx : Nat := 0
  sup : Bool := false
  /-- Shadow x24-x29 (R45, R96). -/
  shadow : Vector Word 6 := Vector.replicate 6 0
  shadowRpt : BitVec 7 := 0
  shadowSkip : BitVec 2 := 0
  v : Vector VReg 32 := Vector.replicate 32 0
  w : Vector WAcc 4 := Vector.replicate 4 {}
  fflags : BitVec 5 := 0
  fenable : BitVec 5 := 0
  frm : BitVec 2 := 0
  uivec : Word := 0
  uimask : Word := 0
  uiEn : Bool := false
  uiAct : Bool := false
  complete : Word := 0
  cwait : BitVec 5 := 0
  bartmo : BitVec 32 := 0
  spwidx : BitVec 32 := 0
  lanecur : BitVec 5 := 0
  trapCause : BitVec 8 := 0
  trapPc : Word := 0
  trapVal : Word := 0
  instret : Word := 0
  mons : Vector Mon 4 := Vector.replicate 4 {}
  chans : Vector Chan 4 := Vector.replicate 4 {}
  /-- The claims of SENDs that have still to issue, at most one for a channel: destination thread and channel (R81). -/
  claims : List (Nat × Nat) := []
  task : TaskState := .none
  /-- The arrivals that BAR or BARW wait on or have kept, at most one for a barrier (R92), and the ones that BARA left
  pending (R91). -/
  barWait : List BarArr := []
  bara : List BarArr := []
  /-- Events of acknowledged REDs not yet reported, in program order: cycle of issue, address and flags (R229, R290). -/
  redEvents : List (Nat × Word × BitVec 5) := []
  /-- The gang: leader's handle, size, own index (R27). -/
  gang : Option (Nat × Nat × Nat) := none
  body : Option Body := none
  /-- The kernel node that placed the thread (R345): node number of the context. -/
  node : Option Nat := none
  /-- The thread's launch (R75): what TSTART hands on; 0 for supervisor threads. -/
  launch : Nat := 0
  /-- The thread's DRAW waits for a draw number (R180). -/
  drawWait : Bool := false
  /-- The next instruction ignores its break bit (R391). -/
  brkSkip : Bool := false
  /-- Parked by a trap whose record a restore sends again (R370): its record. -/
  record : Option TrapRecord := none
  /-- The cycle in which the release of the instruction that now waits began (R249). -/
  relAt : Option Nat := none
  /-- The word of the instruction that the thread blocked in, for a trap record (R361). -/
  insn : Nat := 0
  /-- In a gang: the wait of the member's instruction is over, with a status, and its retirement waits for the other
  members; or its instruction is to be undone, since another member has trapped in it (R29, R30). -/
  fin : Option Nat := none
  /-- A save has stopped the thread in this cycle: an instruction of it that would trap now does so first (R358). -/
  meets : Option Nat := none
  /-- The address from which an instruction is fetched that a limit has held up, and the points that it has passed since (R377). -/
  fetchIn : Option (Word × Nat) := none
  /-- The walk that the thread waited for has failed: address and cause (R244); the instruction issues again and traps. -/
  walkFault : Option (Word × Nat) := none
  /-- The trap that it takes comes from an uncorrectable error of an array or a link (R367, R380): its record is in the fault queue as well. -/
  dataError : Bool := false
  deriving DecidableEq, Repr

/-! ### Tensors and draws -/

/-- A ring slot of a draw: the tile it holds by linear index (R134, R143). -/
inductive RingSlot where
  | claimed (idx : Nat)
  | landed (idx : Nat) (cycle : Nat)
  | running (idx : Nat) (h : Nat)
  deriving DecidableEq, Repr

/-- An active draw of a core (R129, R143). -/
structure Draw where
  handle : Nat
  desc : Desc
  /-- The request block as DRAW read it (R127). -/
  origin : List Nat
  extent : List Nat
  bodyPc : Word
  ring : Nat
  logSlots : Nat
  logBytes : Nat
  allow : Nat
  counter : Nat
  /-- Issuing thread, context, level, launch node. -/
  h : Nat
  ctx : Nat
  sup : Bool
  node : Option Nat
  launch : Nat
  /-- Delivered tiles by linear index, and claims (R143). -/
  delivered : List Nat := []
  /-- Tiles whose bodies have issued BDONE, and those that the completion counter has counted (R100, R183). -/
  consumed : Nat := 0
  counted : Nat := 0
  slots : Table RingSlot := []
  /-- Cancelled or ended by a fault: no new claims (R140, R141). -/
  ending : Bool := false
  /-- STATUS and VALUE of a fault (R141). -/
  fault : Option (Nat × Word) := none
  /-- The completion message is on its way. -/
  posted : Bool := false
  /-- By pump: deliveries of other draws since it last delivered a tile of this one, while this one could have had one
  (R136). -/
  passed : Table Nat := []
  deriving DecidableEq, Repr

/-! ### Cores -/

/-- An entry of a pair queue and the first cycle in which it can be popped (R18, R192). -/
structure QEntry where
  val : VReg
  at_ : Nat
  /-- The number of the QLD whose bytes are still on their way. -/
  wait : Option Nat := none
  deriving DecidableEq, Repr
/-- A pair queue (R16): entries, oldest first, and the cycles from which popped entries can be filled (R18). -/
structure Queue where
  ents : List QEntry := []
  freed : List Nat := []
  deriving DecidableEq, Repr

/-- A sector of the first-level cache (R248): 64 bytes, valid and dirty bits, the key of its page. -/
structure Sector where
  data : List Byte
  valid : Nat
  dirty : Nat
  key : Nat
  deriving DecidableEq, Repr

/-- A translation (R242, R246). -/
structure TlbEntry where
  ctx : Nat
  /-- Base of the page and log2 of its size. -/
  va : Nat
  size : Nat
  frame : Nat
  r : Bool
  w : Bool
  x : Bool
  u : Bool
  d : Bool
  nc : Bool
  sa : Bool
  cc : Bool
  home : Nat
  key : Nat
  deriving DecidableEq, Repr
/-- A failed walk or check: the cause and the first failing address (R244). -/
structure MemFault where
  cause : Nat
  va : Word
  deriving DecidableEq, Repr

/-- Operations of the special-function unit (R160). -/
inductive SfuFn where
  | rcp | rsq | sqrt | div | exp2 | log2 | sinp | cosp | tanh
  deriving DecidableEq, Repr
/-- A request of the special-function unit (R161): thread, operation, element type, operands, destination. -/
structure SfuReq where
  h : Nat
  fn : SfuFn
  ty : Nat
  a : VReg
  b : VReg
  d : Reg
  frm : Nat
  /-- First cycle in which it may start. -/
  at_ : Nat
  started : Bool := false
  deriving DecidableEq, Repr

/-- An entry of MSPW's list that has arrived (R197): A block address, tile offset, B block number. -/
structure SpEntry where
  blk : Word
  toff : Nat
  bidx : Nat
  deriving DecidableEq, Repr
/-- A prepared step of a matrix instruction (R198, R204): what has arrived, and a fault that is held. -/
structure Prep where
  entry : Option SpEntry := none
  /-- The step's operand fetches have been issued. -/
  asked : Bool := false
  /-- The rows of the operands, and the cycles from which they are there. -/
  a : Option (List (List Byte)) := none
  b : Option (List (List Byte)) := none
  aAt : Option Nat := none
  bAt : Option Nat := none
  /-- The cycles in which requests of a multicast group register (R207). -/
  regA : Option Nat := none
  regB : Option Nat := none
  /-- The cycle in which the superscales are there, if the step reads them (R216). -/
  checkAt : Option Nat := none
  /-- The cycle in which the scale codes are there, as long as the step waits for them (R216). -/
  codesAt : Option Nat := none
  codesA : List Nat := []
  codesB : List Nat := []
  /-- The checks of the step have passed. -/
  passed : Bool := false
  /-- The kinds of fetch (0 entry, 1 A block, 2 scale codes, 3 superscales) that met a slice without the line (R413); the replies so far, slice
  and cycles, which count once the step starts (R210, R253). -/
  late : List Nat := []
  /-- By kind of fetch, how many of its lines the limits of their homes have let in (R377). -/
  entered : Table Nat := []
  reads : List (Nat × Nat) := []
  fault : Option (Nat × Word) := none
  faultAt : Nat := 0
  /-- The fault is an uncorrectable error (R367). -/
  broken : Bool := false
  deriving DecidableEq, Repr
/-- An active matrix instruction (R203). `a` is absent for MSPW, `list` for MMA. -/
structure MatJob where
  h : Nat
  since : Nat
  /-- The tile of MMA, the base tile of MSPW. -/
  tile : Nat
  steps : Nat
  mask : Nat
  a : Option TileRef
  b : TileRef
  list : Option Desc
  /-- The step at which this issue of the instruction began, and the next one. -/
  first : Nat
  next : Nat
  preps : Table Prep := []
  /-- Superscales (R216). -/
  supA : List Nat := []
  supB : List Nat := []
  /-- A park was requested: no further step starts (R205). -/
  stop : Bool := false
  /-- A trap that follows the step that has ended (R217): TRAPVAL. -/
  trap : Option Word := none
  /-- The cycle in which its last step so far has ended (R205). -/
  ended : Option Nat := none
  deriving DecidableEq, Repr
/-- The step that the engine runs (R203): slot, index, last cycle, tile. -/
structure MatRun where
  slot : Nat
  idx : Nat
  last : Nat
  tile : Nat
  deriving DecidableEq, Repr
/-- What an operation on a cistern tile does: row moves (R225), and MZERO and MCOPY when they are delayed (R220). -/
inductive CisOp where
  | load (row : Nat) (d : Reg)
  | store (row : Nat) (v : VReg)
  | zero
  | copy (src : Nat)
  deriving DecidableEq, Repr
/-- An operation on a tile that is to be performed: thread, tile, cycles of issue and of performance. -/
structure RowMove where
  h : Nat
  tile : Nat
  op : CisOp
  issued : Nat
  at_ : Nat
  performed : Option Nat := none
  deriving DecidableEq, Repr

/-- An MLDC in flight (R222): its tile, its cycle of issue, its rows on their way back, and the word of its instruction. -/
structure MldcHold where
  tile : Nat
  issued : Nat
  rows : Option (List VReg) := none
  insn : Nat := 0
  deriving DecidableEq, Repr

/-- A core (R12, R14). -/
structure Core where
  /-- The context that holds the core, and its stage (R12, R352). -/
  holder : Option Nat := none
  stage : Nat := 0
  /-- The context that held it last, and the cycle in which it was freed (R376). -/
  lastHolder : Option Nat := none
  freedAt : Nat := 0
  well : List Host.Cell := []
  /-- Cistern rows by 32 × tile + row (R201). -/
  cistern : Table VReg := []
  wellwin : Word := 0
  /-- Rights that this core's peers give it, by peer core index: the mirror of R238. -/
  mirror : Table Nat := []
  /-- Messages with the cycles in which they arrived, oldest first (R93, R96). -/
  inbox : List (Nat × Msg) := []
  /-- Messages held at their source while the inbox is full (R93). -/
  held : List Msg := []
  /-- Pair queues by 4 × pair + queue (R16). -/
  queues : Table Queue := []
  /-- Active draws by number (R129). -/
  draws : Table Draw := []
  drawSeq : BitVec 20 := 0
  /-- The slots that the rotations issued from last (R22). -/
  lastA : Nat := 3
  lastE : Nat := 7
  /-- The first-level cache by sector key (R248). -/
  l1 : Table Sector := []
  /-- The instruction cache by parcel key: parcel and break bit (R66, R391). -/
  icache : Table (BitVec 16 × Bool) := []
  tlb : List TlbEntry := []
  /-- The queue of the special-function unit, and when it last started (R161). -/
  sfu : List SfuReq := []
  sfuFree : Nat := 0
  /-- The matrix engine (R203). -/
  jobs : Table MatJob := []
  running : Option MatRun := none
  lastServed : Nat := 3
  /-- Tiles held by an MLDC in flight (R222). -/
  heldTiles : List MldcHold := []
  /-- The tile that the step ended last has written, and when (R202). -/
  lastWrite : Option (Nat × Nat) := none
  /-- Row moves by number (R225). -/
  moves : Table RowMove := []
  /-- Delay accumulators: sum and count (R253, R397). -/
  delays : Table (Nat × Nat) := []
  /-- Replies not yet added: the cycle in which they came, bank, cycles (R397). -/
  delayNew : List (Nat × Nat × Nat) := []
  delaySel : BitVec 9 := 0
  delaySum : BitVec 48 := 0
  delayCnt : BitVec 32 := 0
  /-- Stopped by a halt of its cluster (R392). -/
  halted : Bool := false
  deriving DecidableEq, Repr

/-! ### Clusters and dies -/

/-- A named barrier of a context (R89): the open phase's count and arrivals (0: idle), and the phase number. -/
structure Barrier where
  count : Nat := 0
  arrived : Nat := 0
  phase : Nat := 0
  deriving DecidableEq, Repr
/-- A member of a multicast registration (R207, R208): thread, step, whether it is the A operand, watchdog count; the
instruction that registered, by its address and the instructions before it. -/
structure McMember where
  h : Nat
  idx : Nat
  isA : Bool
  dog : Nat := 0
  pc : Word
  instret : Word
  deriving DecidableEq, Repr
/-- A shared operand fetch (R207): the rows it names; the first member is the fetcher. -/
structure Mcast where
  ctx : Nat
  g : Nat
  owner : Nat
  off : Nat
  stride : Nat
  rowLen : Nat
  members : List McMember
  deriving DecidableEq, Repr
/-- Race state of a well sector (R279): WRITER, and the cores whose read bit is set. -/
structure Race where
  writer : Option Nat := none
  readers : List Nat := []
  deriving DecidableEq, Repr
/-- An event of a trace (R396): its kind, the handle that orders it, and the words of its record. -/
structure TraceRec where
  kind : Nat
  handle : Nat
  w0 : Word
  w1 : Word
  deriving DecidableEq, Repr
/-- A cluster debug module (R390). -/
structure Dbg where
  ctl : Word := 0
  /-- DBGCMD.OP and DBGACC.OP as written last. -/
  cmdOp : Nat := 0
  accOp : Nat := 0
  halted : Bool := false
  frozen : Bool := false
  src : Nat := 0
  ext : Bool := false
  brkBase : Word := 0
  brkLog : Nat := 16
  /-- CODEVA, as an address. -/
  brkVa : Word := 0
  hnd : Word := 0
  sel : Word := 0
  val : Word := 0
  accStatus : Nat := 0
  trcBase : Word := 0
  trcEv : Nat := 0
  trcLog : Nat := 8
  trcPos : Word := 0
  trcLost : Word := 0
  /-- The events of this cycle, and the records that wait for their turn (R396). -/
  trcNow : List TraceRec := []
  trcWait : List TraceRec := []
  /-- Time-outs and wakes that do not count while the cluster is halted, with the cycles that are left (R393). -/
  paused : List (Nat × Event) := []
  deriving DecidableEq, Repr
/-- A cluster. -/
structure Cluster where
  /-- Barriers by 32 × context + number (R89). -/
  bars : Table Barrier := []
  mcast : Table Mcast := []
  /-- Race state by 2^14 × core index + sector (R279). -/
  race : Table Race := []
  /-- Race-detection mode and gang permission of the resident contexts, by context (R348). -/
  raceEn : List Nat := []
  gangOk : List Nat := []
  tlb : List TlbEntry := []
  dbg : Dbg := {}
  /-- The cycle in which the cluster reported ready: its cores' CYCLE counts from there (R5, R48). -/
  readyAt : Nat := 0
  deriving DecidableEq, Repr
/-- A line as its home slice holds it (R378, R413): the key that it was read from DRAM under, none for the key of its data; the key slot under which
it will be written back, if it has been written there. -/
structure HeldLine where
  tag : Option Nat := none
  dirty : Option Nat := none
  deriving DecidableEq, Repr
/-- A miss of a die (R247), one for all accesses of a context to its page: an address of the page; since when; the cycle in which it ends,
as far as can be told; whether a walker has it; the tables that it has read, and whether the next one's line is on its way from its
channel (R413); who waits: threads with their accesses, and engines, for a core's TLB or none. -/
structure Miss where
  ctx : Nat
  va : Nat
  since : Nat
  due : Nat
  begun : Bool
  read : List Nat := []
  late : Bool := false
  /-- The limit of the next read's home has let it in (R377). -/
  entered : Bool := false
  waits : List (Nat × Word × Access) := []
  engines : List (Option Nat × Word × Access) := []
  deriving DecidableEq, Repr
/-- A die: last-level TLB, walker cache (tables' entries by context, level and index prefix), its misses in their order (R247),
over-temperature. -/
structure Die where
  tlb : List TlbEntry := []
  walk : List (Nat × Nat × Nat × Word) := []
  misses : Table Miss := []
  hot : Bool := false
  deriving DecidableEq, Repr

/-! ### Engines of the module -/

/-- A run of bytes of a footprint: in memory or in a core's well, and where it lies in the access's buffer; the
page's memory-encryption key. -/
structure Seg where
  well : Option Nat
  addr : Nat
  off : Nat
  len : Nat
  key : Nat
  /-- The upper half of the last byte lies outside the tensor (R112, R123). -/
  half : Bool := false
  /-- The page's SA bit (R257). -/
  sa : Bool := false
  deriving DecidableEq, Repr
/-- What follows once a tile access is performed. -/
inductive TDone where
  | tld (core off : Nat) (acq : Nat)
  | tst
  /-- The descriptor read of a TDEF (R185). -/
  | tdef
  /-- A QLD of entry id of queue q, a QST (R190). -/
  | qld (q id : Nat)
  | qst
  | drawRead (core num seq slot idx : Nat)
  /-- The rows land in their ring slot (R103). -/
  | drawLand (core num seq slot idx : Nat)
  | copyRead (id : Nat)
  | copyWrite (id : Nat)
  /-- A PPUSH of pump c into a well (R332). -/
  | push (c : Nat)
  deriving DecidableEq, Repr
/-- A tile access (R254): the handle it is ordered by, its units in locking order, how many are granted, its
footprint and its data. -/
structure TAcc where
  h : Nat
  excl : Bool
  units : List LockUnit
  got : Nat := 0
  /-- The cycle in which it reached the unit it waits for. -/
  reqAt : Nat
  /-- The cycle in which it was issued; the scope of its release, and whether that still holds back its first request
  (R288). -/
  sent : Nat
  rel : Option Nat := none
  relWait : Bool := false
  /-- The cycle in which its first request left, its pages translated (R253). -/
  left : Nat := 0
  /-- Its first line's slice has found that it does not hold it (R413). -/
  dram : Bool := false
  /-- The units whose homes' limits have let it in (R377). -/
  entered : Nat := 0
  /-- The word of its instruction, for a trap record (R361). -/
  insn : Nat := 0
  segs : List Seg
  buf : List Byte
  done : TDone
  deriving DecidableEq, Repr
/-- A request that waits for a later window (R377): the point (cluster routers 0-15, slices from 32 on, channels from 160 on), the partition, its
bytes, the line at whose home it waits, what it comes to and how many cycles later; for a fetch of a matrix instruction its kind. -/
structure InjWait where
  point : Nat
  part : Nat
  bytes : Nat := 64
  line : Nat := 0
  after : Nat := 0
  kind : Nat := 0
  ev : Event
  deriving DecidableEq, Repr
/-- A held lock and the last cycle in which it is held, once that is known (R258). -/
structure Lock where
  unit : LockUnit
  excl : Bool
  acc : Nat
  until_ : Option Nat := none
  deriving DecidableEq, Repr

/-- CPY, CPYT, FILL (R297). -/
inductive CopyKind where
  | cpy | cpyt | fill
  deriving DecidableEq, Repr
/-- An outstanding copy (R231, R298-R302). `node` is the copy node it came from (R346). -/
structure Copy where
  kind : CopyKind
  h : Nat
  ctx : Nat
  sup : Bool
  core : Nat
  dstWell : Bool
  srcWell : Bool
  dst : Word
  src : Word
  len : Nat
  complete : Word
  /-- The offset reached: what lies below has been read. -/
  off : Nat := 0
  /-- The cycle from which the next piece is read; Ls and Ld of R231. -/
  t0 : Nat
  ls : Nat
  ld : Nat
  /-- The cycle of issue. -/
  sent : Nat := 0
  /-- The homes that were reached and did not hold their line: 0 source, 1 destination, 2 counter (R413). -/
  dram : List Nat := []
  /-- Its pieces have passed limits: 0 at the destination, 1 at the source, 2 at the cluster's router; whether it waits at one (R377). -/
  entered : List Nat := []
  held : Bool := false
  /-- The source of a CPYT once it is read, and the runs of its destination. -/
  buf : List Byte := []
  dsegs : List Seg := []
  /-- Pieces on their way to the destination: the cycle of the write, offset, bytes (R300), and the place in memory, with its key slot, that the
  page's check has found (R299). -/
  pipe : List (Nat × Nat × List Byte × Nat × Nat) := []
  /-- How R299 ended it: cause, offset, address. -/
  ended : Option (Nat × Nat × Word) := none
  /-- The context is being saved: the copy stops at its next piece (R302). -/
  stop : Bool := false
  node : Option Nat := none
  /-- The kernel node whose thread issued it (R345). -/
  kern : Option Nat := none
  deriving DecidableEq, Repr

/-- Near-bank operations (R326). -/
inductive BkOp where
  | cpy | fil | and | or | xor | not | maj
  deriving DecidableEq, Repr
/-- An outstanding near-bank command (R306, R322, R328). Operands are keys of memory with their lines' key slots. -/
structure Bk where
  op : BkOp
  h : Nat
  ctx : Nat
  chan : Nat
  /-- The cycle of issue. -/
  sent : Nat := 0
  dVa : Word
  d : Nat
  dKey : Nat
  srcs : List (Nat × Nat)
  len : Nat
  pattern : Word
  fast : Bool
  /-- The fallback path works from the last row to the first (R307). -/
  down : Bool := false
  steps : Nat
  cost : Nat
  /-- Lines still to be marked, in ascending order, each with its mark (R322), and the cycle in which the probe reached the
  first of them, if it waits there. -/
  marks : List (Nat × Bool)
  reqAt : Nat := 0
  /-- The source bytes as they stood at the start (R321). -/
  snap : List (List Byte) := []
  started : Bool := false
  /-- The limit of its channel has let it in (R377). -/
  entered : Bool := false
  step : Nat := 0
  t0 : Nat
  /-- The kernel node whose thread issued it (R345). -/
  kern : Option Nat := none
  deriving DecidableEq, Repr

/-! ### Pumps -/

/-- The state of an overlay slot (R312). -/
inductive OvlState where
  | empty | loading | loaded | running
  deriving DecidableEq, Repr
/-- An overlay slot (R312): image, handle, owner core and the owner's context. -/
structure Overlay where
  state : OvlState := .empty
  handle : Nat := 0
  image : List Byte := []
  owner : Nat := 0
  ctx : Nat := 0
  deriving DecidableEq, Repr
/-- The end of a launch that is still to be reported: its STATUS and VALUE, and the cycles between which its kernel issued the accesses
that are performed first (R316). -/
structure LaunchEnd where
  launch : Launch
  status : Nat
  val : Word
  from_ : Nat := 0
  before : Nat := 0
  deriving DecidableEq, Repr
/-- A pump (R311). -/
structure Pump where
  seq : Seq := {}
  pend : Table (Option Nat) := []
  notBefore : Nat := 0
  blocked : Bool := false
  /-- The cycle in which the running kernel started. -/
  since : Nat := 0
  ovl0 : Overlay := {}
  ovl1 : Overlay := {}
  /-- The slot started last (R312). -/
  lastStarted : Option Nat := none
  /-- The kernel region of the pump buffer. -/
  buf : List Host.Cell := []
  /-- The launch queue of 8, and launch-page requests waiting for room in it (R317). -/
  queue : List Launch := []
  dispatch : List Launch := []
  /-- The running kernel and its slot. -/
  kernel : Option (Launch × Nat) := none
  /-- Launches that have ended, still to be reported. -/
  ended : List LaunchEnd := []
  /-- The cycle in which a save of the running kernel's context was requested (R318). -/
  saveReq : Option Nat := none
  /-- Rows per bank that the zero fill has still to fill (R324). -/
  fill : Nat := 0
  /-- The round-robin over draws (R136): tiles that partitions have had claimed in this round, and the draws served in their
  partition's own round: partition, core, number. -/
  turns : Table Nat := []
  served : List (Nat × Nat × Nat) := []
  deriving DecidableEq, Repr

/-! ### Partitions, functions and contexts -/

/-- A partition (R372) and what it owns. -/
structure Part where
  gmask : Nat
  poolg : Nat
  sq : Nat
  weight : Nat
  supcore : Nat
  limcl : Nat
  limsl : Nat
  limch : Nat
  trbase : Nat
  fwd : Nat
  fab : List (Word × Word)
  redw : List (Word × Word)
  sroot : Nat
  saentry : Word
  seentry : Word
  sarg : Word
  sstack : Word
  sstacksz : Nat
  sctxid : Nat
  sslots : Nat
  /-- The record as created or last resized, the one that a RESIZE has taken up, and the key-load history (R375, R388). -/
  record : List Byte
  next : List Byte := []
  keyHist : List Byte := []
  /-- Key slots (R378); a slot that is not listed is clear. -/
  keys : Table Nat := []
  /-- Active fabric-window entries (R385). -/
  fabActive : List Nat := []
  /-- The task queue: tasks in insertion order, held insertions, held takes (R335-R338). -/
  tasks : List Task := []
  addWait : List TqReq := []
  takeWait : List TqReq := []
  /-- Trap records waiting for room in the ring (R362). -/
  ringWait : List TrapRecord := []
  /-- Records waiting at the host agent, and the slot written but not acknowledged, 0 or 1 (R364). -/
  fqWait : List TrapRecord := []
  fqOut : Nat := 0
  /-- No node starts: the partition is being resized (R375). -/
  quiesced : Bool := false
  /-- CREATE is zeroing its units: the supervisor threads are still to start (R374). -/
  creating : Bool := false
  deriving DecidableEq, Repr

/-- The registers of a virtual function (R381). -/
structure Vf where
  ctxOp : Nat := 0
  ctxId : Nat := 0
  ctxStatus : Nat := 0
  ctxArg : Word := 0
  fqBase : Word := 0
  fqLog : Nat := 0
  fqProd : Word := 0
  fqCons : Word := 0
  thrOp : Nat := 0
  thrStatus : Nat := 0
  thandle : Nat := 0
  thsel : Nat := 0
  thval : Word := 0
  attestGo : Bool := false
  attestAddr : Word := 0
  deriving DecidableEq, Repr

/-- The registers of the physical function (R381, R398, R400, R402). -/
structure Pf where
  op : Nat := 0
  part : Nat := 0
  slot : Nat := 0
  status : Nat := 0
  arg : Word := 0
  pwrcap : Nat := 0
  clusters : Nat := 0
  sched : Bool := false
  hostAgt : Bool := false
  links : Nat := 0
  chans : Nat := 0
  hub : Nat := 0
  baseFail : Bool := false
  version : Nat := 0
  devIdx : Nat := 0
  joined : Bool := false
  /-- A reset is in progress (R400). -/
  resetting : Bool := false
  /-- The load of firmware whose images this reset has found (R401). -/
  images : Nat := 0
  /-- Its own copies of the registers that every function has (R381); it reaches no partition by them (log 24). -/
  own : Vf := {}
  deriving DecidableEq, Repr

/-- Where a launch record stands (R344). -/
inductive NodePhase where
  | waiting | running | done | failed
  deriving DecidableEq, Repr
/-- An accepted launch record (R343): its words, the edges that arrived, how many of them live. -/
structure Node where
  words : List Word
  arrived : Nat := 0
  live : Nat := 0
  /-- Edges that have come before the record was accepted: the loop of the record that sent each, and whether it is live (R344, R349). -/
  early : List (Option Nat × Bool) := []
  phase : NodePhase := .waiting
  /-- The loop node of the innermost loop body that the record lies in (R349). -/
  loop : Option Nat := none
  /-- The node's start was scheduled (R351). -/
  queued : Bool := false
  /-- The cycle in which it began to wait for cores, and the cores (R345, R353); whether it waits for its own context as well (R345). -/
  waitAt : Option Nat := none
  need : List Nat := []
  inUse : Bool := false
  /-- The cycle in which its threads are ready, or in which it is evaluated or applied (R351). -/
  startAt : Option Nat := none
  /-- What a configure node has read: tensor table, stage map; the launch page (R348). -/
  src : List (List Byte) := []
  page : Option Nat := none
  /-- The cycle in which it completed. -/
  endAt : Nat := 0
  /-- Its threads that have ended, with the cycles in which they did, whose releases have still to take effect (R344). -/
  ends : List (Nat × Nat) := []
  deriving DecidableEq, Repr

/-- What a save keeps of a context (R368), as data (log 7). -/
structure Saved where
  threads : Table Thread
  cores : Table Core
  bars : List (Nat × Nat × Barrier)
  copies : Table Copy
  launches : List (Nat × Launch)
  overlays : List (Nat × Overlay)
  deriving DecidableEq, Repr
/-- Where a context stands (R352-R355). -/
inductive CtxPhase where
  | idle | resident | saving | saved | restoring
  deriving DecidableEq, Repr
/-- A context (R341) and its modes (R348). -/
structure Ctx where
  part : Nat
  super : Bool := false
  prio : Nat := 0
  root : Nat
  qbase : Word := 0
  qsize : Nat := 0
  tslice : Nat := 0
  notify : Word := 0
  mapva : Word := 0
  save : Nat := 0
  accepted : Nat := 0
  retired : Nat := 0
  failed : Bool := false
  nodes : Table Node := []
  tensors : Table Desc := []
  raceEn : Bool := false
  gangOk : Bool := false
  stageMap : List Word := []
  launchPage : Option Nat := none
  phase : CtxPhase := .idle
  sliceAt : Nat := 0
  /-- What is left of the slice while a cluster of the context is halted (R393). -/
  sliceLeft : Option Nat := none
  waitSince : Option Nat := none
  saved : Option Saved := none
  /-- The cycle in which the save was requested (R369). -/
  saveAt : Nat := 0
  /-- How far it has come: 0 stopping and draining, 1 written back, 2 writing its blocks. -/
  saveStage : Nat := 0
  deriving DecidableEq, Repr

/-! ### The module -/

/-- Where the common instruction stream of a gang stands (R27, R38, R44). -/
structure Path where
  pc : Word
  rpt : BitVec 7
  skip : BitVec 2
  rptRun : Option RptRun
  deriving DecidableEq, Repr
/-- A load that a member of a gang has issued before others have (R28): its register by number, its value once it is there, and the
cycle from which that is usable. -/
structure EarlyLoad where
  rd : Nat
  val : Option Word
  usable : Option Nat
  deriving DecidableEq, Repr
/-- An instruction that some members of a gang have issued and some have not (R28): its word and its break bit, where it stands,
the cycles in which members 0, 1, ... have issued it, and their loads, by member. -/
structure GangInsn where
  i : Instr
  insn : Nat
  brk : Bool
  path : Path
  at_ : List Nat
  early : Table EarlyLoad := []
  deriving DecidableEq, Repr
/-- A gang, by its leader's handle (R28): the instructions that are on their way through its members, oldest first, and where
the leader stands behind them after annulled instructions and an RPT parcel. -/
structure Gang where
  insns : List GangInsn := []
  path : Option Path := none
  deriving DecidableEq, Repr

/-- Who issues: a thread slot by handle, or the kernel core of a pump. -/
inductive Agent where
  | thread (h : Nat)
  | pump (c : Nat)
  deriving DecidableEq, Repr
/-- The instruction that `cur` issues in this step: its word or parcel, whether its break bit is set, whether it turned
out to wait, and the cycle in which a gang member has issued it, if that lies back (R28). -/
structure Issue where
  insn : Nat := 0
  brk : Bool := false
  stall : Bool := false
  cycle : Option Nat := none
  deriving DecidableEq, Repr

/-- The state of the machine. -/
structure State where
  /-- The module cycle count (R24, R377). -/
  cycle : Nat
  /-- Steps that engines have still to take, by due cycle (log 2). -/
  agenda : List (Nat × Event)
  /-- The step that `step` is taking. -/
  ev : Option Event
  cur : Agent
  /-- How far this cycle's issue has come (R22, R63). -/
  cursor : Nat
  /-- Gangs with instructions on their way (R28). -/
  gangs : Table Gang
  issue : Issue
  /-- Counter of free values (log 3) and of request numbers. -/
  freeCtr : Nat
  nextId : Nat
  threads : Table Thread
  cores : Table Core
  clusters : Table Cluster
  dies : Table Die
  pumps : Table Pump
  /-- Memory: PA of this device and of host memory; device d's physical address a at (d + 1) × 2^52 + a. -/
  mem : List Host.Cell
  /-- The key under which each line was written (R378); lines without one are as cleared. -/
  tags : Table Nat
  /-- Lines that home slices hold (R413), and host lines that the host agent holds (R383). -/
  lines : Table HeldLine
  hostLines : Table Unit
  locks : List Lock
  waiting : List Wait
  taccs : Table TAcc
  copies : Table Copy
  bks : Table Bk
  parts : Table Part
  ctxs : Table Ctx
  pf : Pf
  vfs : Table Vf
  /-- MSI-X interrupts raised so far: function and vector (R364, R381, R402). -/
  msix : List (Nat × Nat)
  /-- Bytes injected in this window by point and partition, and requests that wait for a later one (R377). -/
  inj : Table Nat
  injWait : List InjWait
  /-- Lines of SA = 1 pages whose back-invalidate snoop is out, and whose answer has come (R382). -/
  biAsked : List Nat
  biDone : List Nat
  /-- Links that cannot recover (R380), and flits accepted on each link. -/
  linkDown : List Nat
  /-- Lines and well sectors that hold an uncorrectable error: what happens to an array is no step of the module's (R367, log 17). -/
  broken : List LockUnit
  linkSeq : Table Nat
  /-- Issue slots are dropped (R402). -/
  throttle : Bool
  /-- Writes that land in this cycle or later, which a monitor armed in this cycle records (R84). -/
  landings : List Landing
  deriving DecidableEq, Repr

/-- The machine right after module reset (R400): no partition, no context, no thread; every register at the value
that its rule gives, or that log 6 names. The check of the hub image is under way (R401). -/
def State.reset : State :=
  { cycle := 0, agenda := [(1, .readySet (.hub 0 0))], ev := none, cur := .thread 0, cursor := 0, gangs := [], issue := {}, freeCtr := 0,
    nextId := 0, threads := [], cores := [], clusters := [], dies := [], pumps := [], mem := [], tags := [],
    lines := [], hostLines := [], locks := [], waiting := [], taccs := [], copies := [], bks := [], parts := [], ctxs := [],
    pf := {}, vfs := [], msix := [], inj := [], injWait := [], biAsked := [], biDone := [], linkDown := [], broken := [], linkSeq := [], throttle := false,
    landings := [] }

end Sys2Proof.Machine
end

