-- ==== Sys2Proof/Machine/Ops.lean ====
section
/-!
DEFINITION. Named operations over threads, registers and the agenda; homes (R239, R240); taking a trap (R358-R364), faulting a pump
(R318), and what every instruction does before and after its own effect (R15, R23, R36, R391).
-/

namespace Sys2Proof.Machine

/-- What a meaning answers. -/
abbrev Ans := Host.Outcome State Fault Refusal

/-! ### Places (R7, R10, R69, R371) -/

def slotOf (h : Nat) : Nat := h % 8
def coreOf (h : Nat) : Nat := h / 8
def clusterOf (h : Nat) : Nat := h / 256
def dieOf (h : Nat) : Nat := h / 1024
def isAccess (h : Nat) : Bool := h % 8 < 4
/-- The other thread of the pair (R14). -/
def partner (h : Nat) : Nat := if isAccess h then h + 4 else h - 4
/-- Core index 8y + x within its cluster. -/
def coreIdx (c : Nat) : Nat := c % 32
/-- The core of a cluster with an index. -/
def coreIn (cl i : Nat) : Nat := 32 * cl + i % 32
/-- Mesh hops between two cores of one cluster (R10). -/
def hops (a b : Nat) : Nat := dist (a % 8) (b % 8) + dist (a % 32 / 8) (b % 32 / 8)
/-- The die of a channel (R371). -/
def chanDie (c : Nat) : Nat := c / 96

/-! ### Parts of the state -/

def State.thread (s : State) (h : Nat) : Thread := tget {} s.threads h
def State.setThread (s : State) (h : Nat) (t : Thread) : State := { s with threads := tset s.threads h t }
def State.modThread (s : State) (h : Nat) (f : Thread → Thread) : State := s.setThread h (f (s.thread h))
def State.core (s : State) (c : Nat) : Core := tget {} s.cores c
def State.setCore (s : State) (c : Nat) (k : Core) : State := { s with cores := tset s.cores c k }
def State.modCore (s : State) (c : Nat) (f : Core → Core) : State := s.setCore c (f (s.core c))
def State.cluster (s : State) (c : Nat) : Cluster := tget {} s.clusters c
def State.modCluster (s : State) (c : Nat) (f : Cluster → Cluster) : State :=
  { s with clusters := tset s.clusters c (f (s.cluster c)) }
def State.die (s : State) (d : Nat) : Die := tget {} s.dies d
def State.modDie (s : State) (d : Nat) (f : Die → Die) : State := { s with dies := tset s.dies d (f (s.die d)) }
def State.pump (s : State) (c : Nat) : Pump := tget {} s.pumps c
def State.modPump (s : State) (c : Nat) (f : Pump → Pump) : State :=
  { s with pumps := tset s.pumps c (f (s.pump c)) }
def State.part (s : State) (p : Nat) : Option Part := tfind s.parts p
def State.modPart (s : State) (p : Nat) (f : Part → Part) : State :=
  match tfind s.parts p with
  | some x => { s with parts := tset s.parts p (f x) }
  | none => s
def State.vf (s : State) (p : Nat) : Vf := tget {} s.vfs p
def State.modVf (s : State) (p : Nat) (f : Vf → Vf) : State := { s with vfs := tset s.vfs p (f (s.vf p)) }
def State.ctx (s : State) (c : Nat) : Option Ctx := tfind s.ctxs c
def State.modCtx (s : State) (c : Nat) (f : Ctx → Ctx) : State :=
  match tfind s.ctxs c with
  | some x => { s with ctxs := tset s.ctxs c (f x) }
  | none => s
/-- The partition that owns a cluster (R371). -/
def State.partOfCluster (s : State) (cl : Nat) : Option Nat :=
  (s.parts.find? fun p => nbit p.2.gmask cl).map Prod.fst
/-- The partition that owns a channel (R371). -/
def State.partOfChan (s : State) (c : Nat) : Option Nat := s.partOfCluster (c / 24)
/-- Interrupts the host (R381). -/
def State.fire (s : State) (fn vec : Nat) : State := { s with msix := s.msix ++ [(fn, vec)] }
/-- A choice that the manual leaves to the device (log 3), below n, and the state after it. -/
def State.choose (s : State) (n : Nat) : Nat × State :=
  (Config.choice s.freeCtr % n, { s with freeCtr := s.freeCtr + 1 })
/-- A fresh number for a request. -/
def State.fresh (s : State) : Nat × State := (s.nextId, { s with nextId := s.nextId + 1 })

/-! ### Windows and homes (R239, R240, R371) -/

/-- The granules of a partition, ascending (R371). -/
def Part.granules (q : Part) : List Nat := (List.range 16).filter (nbit q.gmask)
def Part.g (q : Part) : Nat := q.granules.length
/-- WindowBase of partition p (R371). -/
def windowBase (p : Nat) : Nat := p * 2 ^ 41
/-- Bytes of a partition's window: 72 GiB a granule. -/
def Part.windowSize (q : Part) : Nat := q.g * (72 * 2 ^ 30)
/-- Channels and slices of a partition (R239). -/
def Part.nc (q : Part) : Nat := 24 * q.g
def Part.ns (q : Part) : Nat := 8 * q.g
def Part.chan (q : Part) (i : Nat) : Nat := 24 * q.granules.getD (i / 24) 0 + i % 24
def Part.slice (q : Part) (i : Nat) : Nat := 8 * q.granules.getD (i / 8) 0 + i % 8
/-- Bytes of the hashed part of the window (R240). -/
def Part.hashed (q : Part) : Nat := q.windowSize - q.poolg * q.nc * 2 ^ 21
/-- The partition whose window holds a physical address of this device. -/
def State.owner (s : State) (pa : Nat) : Option (Nat × Part) :=
  s.parts.find? fun x => windowBase x.1 ≤ pa && pa < windowBase x.1 + x.2.windowSize
/-- Whether an address lies in a pool frame (R240). -/
def isPool (p : Nat) (q : Part) (pa : Nat) : Bool := windowBase p + q.hashed ≤ pa

/-- Where an address is performed: a home slice and its channel, the host agent, or another device. -/
inductive HomeAt where
  | slice (slice chan : Nat)
  | host
  | remote (dev : Nat)
  | nowhere
  deriving DecidableEq, Repr

/-- The slice and the channel of a physical address of a partition's window (R239, R240). -/
def homeIn (p : Nat) (q : Part) (pa : Nat) : HomeAt :=
  let l := (pa - windowBase p) / 256
  let n := l / q.nc
  let r := l % q.nc
  let sl := q.slice ((r + (n * 0x85EBCA6B) % 2 ^ 32 / 2 ^ 16) % q.ns)
  if isPool p q pa then .slice sl (q.chan ((pa - windowBase p - q.hashed) / 2 ^ 21 % q.nc))
  else .slice sl (q.chan ((r + (n * 0x9E3779B1) % 2 ^ 32 / 2 ^ 16) % q.nc))
/-- The home of a key of memory. -/
def State.home (s : State) (key : Nat) : HomeAt :=
  if 2 ^ 52 ≤ key then .remote (key / 2 ^ 52 - 1)
  else if 2 ^ 51 ≤ key then .host
  else match s.owner key with
    | some (p, q) => homeIn p q key
    | none => .nowhere
/-- Whether the home holds the line (R413). -/
def State.lineHeld (s : State) (key : Nat) : Bool := (tfind s.lines (key / 256)).isSome
/-- The latency of R8 from a die to the home of a key whose line is held. Host and other devices have no figure in R8: log 1. -/
def State.nearLatency (s : State) (die key : Nat) : Nat :=
  match s.home key with
  | .slice sl _ => if sl / 32 = die then 60 else 110
  | _ => 110

/-! ### The agenda (log 2) -/

/-- The order of what reaches a unit in one cycle: by handle, then in the thread's program order (R259). -/
def orderKey (h sent : Nat) : Nat := h * 2 ^ 64 + sent
/-- The order in which contexts are served, for one that waits or that begins to in a cycle: PRIO, the time of waiting, CTXID (R353). -/
def waitOrder (c : Nat) (x : Ctx) (now : Nat) : Nat := ((3 - x.prio) * 2 ^ 100 + x.waitSince.getD now) * 1024 + c
/-- The order of the events of one cycle: time-outs, then the rest, and at its end the barrier arrivals; where a rule orders
like events, by ascending handle (R11, R80, R229, R252, R338, R362, R364); ready nodes start in ascending q (R344), those of several contexts in the order of R353. -/
def State.eventRank (s : State) (due : Nat) : Event → Nat × Nat
  | .readySet _ | .dbgHalt _ | .dbgRun _ | .dbgInvi _ | .dbgRead _ | .dbgWrite _ => (0, 0)
  | .barrierTimeout h _ => (1, h)
  | .gangTimeout h _ => (1, h)
  | .multicastRegister h _ _ => (3, h)
  | .multicastLaunch cl id => (5, match tfind (tget {} s.clusters cl).mcast id with
    | some x => queueKey (since (.mcast cl id)) ((x.members.map (·.h)).headD 0) due
    | none => 0)
  | .farAccessPerform r => (5, queueKey (r.reached.getD due) r.h r.sent r.lead)
  | .tileLockGrant h id => (5, match tfind s.taccs id with
      | some a => queueKey (if a.reqAt = 0 then due else min due a.reqAt) h a.sent
      | none => queueKey due h due)
  | .wellStoreLand h _ _ _ sent => (5, queueKey due h sent)
  | .bkProbeStart id => (5, match tfind s.bks id with
      | some b => queueKey (if b.reqAt = 0 then due else b.reqAt) b.h b.sent
      | none => 0)
  | .copyPiece id => (5, match tfind s.copies id with | some c => queueKey (min (since (.copy id false)) (since (.copy id true))) c.h c.sent | none => 0)
  | .hashAccessComplete h => (5, queueKey (since (.hash h)) h due)
  | .operandArrival h c _ => (5, queueKey due h c)
  | .copyComplete id => (5, match tfind s.copies id with | some c => queueKey (since (.copy id true)) c.h c.sent | none => 0)
  | .mldcPerform h t _ => (5, queueKey (since (.mldc (coreOf h) t)) h due)
  | .kernelNode c q | .copyNode c q | .nearMemoryNode c q | .configureNode c q | .conditionNode c q | .loopNode c q
  | .switchNode c q => (2, turn c * 2 ^ 64 + q + 2)
  | .contextRestore c => (2, turn c * 2 ^ 64 + 1)
  | .trapRecordWrite _ r => (6, r.handle.toNat % 4096)
  | .faultQueueWrite _ r => (6, r.handle.toNat % 4096)
  | .taskReinsert _ h _ => (7, h)
  | .tqRequestPerform r => ((match r.op with | .add _ => 7 | _ => 8), r.h)
  | .flitArrival src _ _ _ _ => (9, src)
  | .mwaitTimeout h _ => (10, h)
  | .channelClaim h => (11, h)
  | .groupWatchdogExpiry h _ => (12, h)
  | .barrierArrival h => (13, h)
  | .contextSave _ true => (14, 0)
  | _ => (2, 0)
where
  /-- The place of a context in the order of R353. -/
  turn (c : Nat) : Nat := match s.ctx c with | some x => waitOrder c x due | none => 0
  /-- The cycle in which it reached the units where it waits. -/
  since (w : Waiter) : Nat := ((s.waiting.find? (·.who = w)).map (·.reached)).getD due
  /-- The order of requests at a home or a bank: by arrival, then by handle, then in program order (R252, R259, R260); those that have combined
  come one after the other, in the place of one of them (R252). -/
  queueKey (reached h sent : Nat) (lead : Option Nat := none) : Nat :=
    (reached * 8192 * 2 ^ 64 + lead.getD (orderKey h sent)) * (8192 * 2 ^ 64) + orderKey h sent
/-- Events that follow the instructions of their cycle: the arrivals at barriers (R11), and a save whose threads might still trap in
that cycle (R358). -/
def isLate : Event → Bool
  | .barrierArrival _ => true
  | .contextSave _ late => late
  | _ => false
/-- Insertion behind the entries that are due earlier, or in the same cycle with no greater rank. -/
def insertEvent (rank : Nat → Event → Nat × Nat) (due : Nat) (e : Event) : List (Nat × Event) → List (Nat × Event)
  | [] => [(due, e)]
  | (d, x) :: l =>
    let a := rank d x
    let b := rank due e
    if d < due ∨ (d = due ∧ (a.1 < b.1 ∨ a.1 = b.1 ∧ a.2 ≤ b.2)) then (d, x) :: insertEvent rank due e l
    else (due, e) :: (d, x) :: l
/-- An event in an absolute cycle. -/
def State.at_ (s : State) (due : Nat) (e : Event) : State :=
  { s with agenda := insertEvent s.eventRank (max due s.cycle) e s.agenda }
/-- An event n cycles from now. -/
def State.later (s : State) (n : Nat) (e : Event) : State := s.at_ (s.cycle + n) e
/-- Withdraws events. -/
def State.dropEvents (s : State) (p : Event → Bool) : State :=
  { s with agenda := s.agenda.filter fun x => !p x.2 }

/-- Runs the step of an engine on the event that it is an occurrence of; without one, nothing happens. -/
def onEvent (s : State) (f : Event → State) : Ans :=
  .next (match s.ev with
    | some e => f e
    | none => s)

/-! ### Registers -/

/-- The sequencer of the agent that issues. -/
def State.seq (s : State) : Seq :=
  match s.cur with
  | .thread h => (s.thread h).seq
  | .pump c => (s.pump c).seq
def State.modSeq (s : State) (f : Seq → Seq) : State :=
  match s.cur with
  | .thread h => s.modThread h fun t => { t with seq := f t.seq }
  | .pump c => s.modPump c fun p => { p with seq := f p.seq }
/-- The cycle in which the instruction that issues has issued: a gang member's may lie back (R28). -/
def State.issuedAt (s : State) : Nat := s.issue.cycle.getD s.cycle
/-- The thread that issues; a pump kernel has none. -/
def State.me (s : State) : Nat :=
  match s.cur with
  | .thread h => h
  | .pump _ => 0
def State.self (s : State) : Thread := s.thread s.me
def State.modSelf (s : State) (f : Thread → Thread) : State := s.modThread s.me f
def State.myCore (s : State) : Nat := coreOf s.me
def State.pc (s : State) : Word := s.seq.pc

/-- A register of a sequencer; x0 reads 0 (R14). -/
def Seq.get (q : Seq) (r : Reg) : Word := if r = 0 then 0 else q.x[r.toNat]'r.isLt
/-- Writes a register of a sequencer; x0 discards (R14). -/
def Seq.put (q : Seq) (r : Reg) (v : Word) : Seq := if r = 0 then q else { q with x := q.x.set r.toNat v r.isLt }
/-- The handler's shadow registers stand for x24-x29 (R45). -/
def isShadow (t : Thread) (r : Reg) : Bool := t.uiAct && 24 ≤ r.toNat && r.toNat ≤ 29
def Thread.getX (t : Thread) (r : Reg) : Word :=
  if isShadow t r then t.shadow[(r.toNat - 24) % 6]'(Nat.mod_lt _ (by decide)) else t.seq.get r
/-- The number under which a register of the thread is awaited: 32 + n for a shadow register. -/
def pendNum (t : Thread) (r : Reg) : Nat := if isShadow t r then 32 + (r.toNat - 24) % 6 else r.toNat
/-- Writes a register; a result of an earlier instruction that is still on its way to it comes too late (R23). -/
def Thread.setX (t : Thread) (r : Reg) (v : Word) : Thread :=
  if isShadow t r then
    { t with shadow := t.shadow.set ((r.toNat - 24) % 6) v (Nat.mod_lt _ (by decide)), pend := terase t.pend (pendNum t r) }
  else { t with seq := t.seq.put r v, pend := terase t.pend (pendNum t r) }
/-- x[r] of the agent that issues. -/
def State.getX (s : State) (r : Reg) : Word :=
  match s.cur with
  | .thread h => (s.thread h).getX r
  | .pump c => (s.pump c).seq.get r
def State.setX (s : State) (r : Reg) (v : Word) : State :=
  match s.cur with
  | .thread h => s.modThread h fun t => t.setX r v
  | .pump c => s.modPump c fun p => { p with seq := p.seq.put r v, pend := terase p.pend r.toNat }
/-- Writes the register that an awaited number names. -/
def Thread.setNum (t : Thread) (n : Nat) (v : Word) : Thread :=
  if n < 32 then { t with seq := t.seq.put (BitVec.ofNat 5 n) v }
  else { t with shadow := t.shadow.set ((n - 32) % 6) v (Nat.mod_lt _ (by decide)) }
/-- A result of the thread becomes usable in a known cycle, or when a reply names it (R20, R23). -/
def State.await (s : State) (r : Reg) (from_ : Option Nat) : State :=
  if r = 0 then s else
  match s.cur with
  | .thread h => s.modThread h fun t => { t with pend := tset t.pend (pendNum t r) from_ }
  | .pump c => s.modPump c fun p => { p with pend := tset p.pend r.toNat from_ }
/-- The registers of a table that are still awaited in a cycle. -/
def awaited (pend : Table (Option Nat)) (cycle : Nat) : List Nat :=
  (pend.filter fun x => match x.2 with | none => true | some c => cycle < c).map Prod.fst

/-! ### Going on -/

/-- The instruction of `len` bytes has retired: the repeats of an RPT count down at the RPT parcel (R36, R38), any
other instruction is passed; it counts in INSTRET (R24). -/
def Seq.pass (q : Seq) (len : Nat) : Seq :=
  match q.rptRun with
  | some _ =>
    if q.rpt.toNat ≤ 1 then { q with rpt := 0, rptRun := none, pc := q.pc + word (2 + len) }
    else { q with rpt := q.rpt - 1 }
  | none => { q with pc := q.pc + word len }
def State.count (s : State) : State :=
  match s.cur with
  | .thread h => s.modThread h fun t => { t with instret := t.instret + 1 }
  | .pump _ => s
def State.pass (s : State) (len : Nat) : State := (s.modSeq fun q => q.pass len).count
/-- A control transfer has retired (R62). -/
def State.jump (s : State) (t : Word) : State := (s.modSeq fun q => { q with pc := t }).count
/-- Passes an instruction that a blocked thread had issued; used by the event that completes it. -/
def State.passOf (s : State) (h len : Nat) : State :=
  s.modThread h fun t => { t with seq := t.seq.pass len, instret := t.instret + 1 }
/-- The instruction waits: it has not issued, and is tried again in the next cycle (R20). -/
def State.stalls (s : State) : State := { s with issue := { s.issue with stall := true } }
/-- The thread leaves its rotation (R21). -/
def State.blocks (s : State) (w : Why) : State :=
  s.modSelf fun t => { t with run := .blocked w, since := s.cycle, insn := s.issue.insn }
/-- The thread is back in its rotation in this cycle, and issues in the next (R9). -/
def State.wake (s : State) (h : Nat) : State :=
  s.modThread h fun t =>
    match t.run with
    | .blocked _ => { t with run := .ready, notBefore := s.cycle + 1 }
    | _ => t
/-- A thread that waited (R20) may issue its next instruction in this cycle. -/
def State.goesOn (s : State) (h : Nat) : State :=
  s.modThread h fun t =>
    match t.run with
    | .blocked _ => { t with run := .ready, notBefore := s.cycle }
    | _ => t
/-- Whether a thread is blocked since a cycle. -/
def blockedSince (t : Thread) (since : Nat) : Bool :=
  (match t.run with | .blocked _ => true | _ => false) && t.since = since

/-! ### Gangs (R27-R29) -/

/-- The members of a thread's gang, itself if it has none. -/
def membersOf (t : Thread) (h : Nat) : List Nat :=
  match t.gang with
  | none => [h]
  | some (leader, n, _) => (List.range n).map fun j => leader + 8 * j
/-- The status of an instruction that is to be undone (R29). -/
def undoes : Nat := 99
/-- The event that ends the wait of a member again, on its own: its wait was over with a status v while its gang still held it, or is
to be undone. -/
def finEvent (h v : Nat) (t : Thread) : Option Event :=
  match t.run with
  | .blocked (.cntw _ _ _) => some (.cntwWake h t.since)
  | .blocked (.mwait _ _) => some (if v = 2 then .mwaitTimeout h t.since else .monitorWake h t.since)
  | .blocked (.barrier b _) => if v = undoes then some (.barrierArrival h) else (t.barWait.find? (·.b = b)).map fun w =>
      if v = 0 then .barrierRelease (clusterOf h) t.ctx w.b w.phase else .barrierTimeout h (w.due.getD 0)
  | .blocked (.arrive _ _ _ _) => some (.barrierArrival h)
  | .blocked .sfu => some (.sfuComplete (coreOf h) h)
  | .blocked (.hash _) => some (.hashAccessComplete h)
  | .blocked .matrix => some (.matrixStepEnd (coreOf h))
  | .blocked (.vwaitc _) => some (.cisternRowMove h 0)
  | .blocked .texit => some (.texitRetire h)
  | _ => none
/-- A thread's instruction of a cycle is a load that other members of its gang have still to issue (R28). -/
def State.earlyLoad (s : State) (h sent : Nat) : Bool :=
  match (s.thread h).gang with
  | some (leader, _, j) => (tget {} s.gangs leader).insns.any fun e => (tfind e.early j).isSome && e.at_.getD j 0 = sent
  | none => false
/-- What some members of a gang have issued and others have not has no effect (R28): their loads do not answer. -/
def State.dropGang (s : State) (leader : Nat) : State :=
  { s.dropEvents (fun
    | .farAccessPerform r => r.pump.isNone && s.earlyLoad r.h r.sent && (s.thread r.h).gang.any (·.1 = leader)
    | _ => false) with gangs := terase s.gangs leader }
/-- The thread stands before its instruction again, and issues it from the next cycle on (R29). -/
def State.before (s : State) (h : Nat) : State :=
  s.modThread h fun t => { t with run := .ready, notBefore := s.cycle + 1, relAt := none, fin := none }
/-- A member is in no gang any more; one whose wait was over goes on by itself. -/
def State.leavesGang (s : State) (h : Nat) : State :=
  let t := s.thread h
  let s := (match t.gang with | some (leader, _, _) => s.dropGang leader | none => s).modThread h fun t => { t with gang := none }
  match t.gang, t.fin with
  | some _, some v => (finEvent h v t).elim s (s.later 0)
  | _, _ => s
/-- The members' gang ends; none of them parks (R29). What only the leader and some members had issued has no effect (R28). -/
def State.disband (s : State) (ms : List Nat) : State := ms.foldl State.leavesGang s
/-- A member has trapped at an address: the gang ends, and each other member that waits in the instruction there stands before it
again (R29). -/
def State.trapDisbands (s : State) (h : Nat) (pc : Word) : State :=
  (membersOf (s.thread h) h).foldl (fun s m =>
    let t := s.thread m
    let waits : Bool := match t.run with | .blocked _ => true | _ => false
    (if m ≠ h && waits && t.seq.pc = pc then s.modThread m fun t => { t with fin := some undoes } else s).leavesGang m) s

/-! ### Traps (R358-R364) -/

/-- CYCLE of the cores of a cluster (R24, R48). -/
def State.coreCycle (s : State) (cl : Nat) : Nat := s.cycle - (s.cluster cl).readyAt
/-- Word 0 of a trap record (R361). -/
def recordWord0 (cause part ctx : Nat) (gang : Option (Nat × Nat × Nat)) (sup : Bool) : Word :=
  let g := match gang with
    | some (_, n, j) => 2 ^ 8 + (if n = 2 then 1 else if n = 4 then 2 else 3) * 2 ^ 9 + j * 2 ^ 11
    | none => 0
  word (cause + g + b2n sup * 2 ^ 14 + ctx * 2 ^ 16 + part * 2 ^ 26)
/-- INSN of a record: the word, or the parcel zero-extended (R361). -/
def insnField (w : Nat) : Nat := if w % 2 = 0 then w % 2 ^ 16 else w % 2 ^ 32
/-- The 56 bits of a program counter that TRAPPC holds (R360). -/
def pcField (pc : Word) : Word := word (wfield pc 55 0)
/-- The record of a trap of thread h (R361). -/
def trapRecord (s : State) (h cause : Nat) (pc val : Word) : TrapRecord :=
  let t := s.thread h
  { w0 := recordWord0 cause ((s.partOfCluster (clusterOf h)).getD 0) t.ctx t.gang t.sup
    handle := word h, pc := pcField pc, value := val, insn := word (insnField (if s.ev.isSome then t.insn else s.issue.insn)), cycle := word (s.coreCycle (clusterOf h)) }
/-- Sends a record to the ring, the fault queue, or both (R362-R364); one of an uncorrectable error to the fault queue always (R367).
`lat` is the latency of the ring's home. -/
def sendRecord (s : State) (p cause lat : Nat) (sup hard : Bool) (r : TrapRecord) : State :=
  match s.part p with
  | none => s
  | some q =>
    let fwd := nbit q.fwd cause
    let s := if sup || !fwd then s.later lat (.trapRecordWrite p r) else s
    if sup || fwd || hard then s.later 110 (.faultQueueWrite p r) else s

/-- An event of a cluster's trace (R396); its record is written when the cycle ends, or waits (`State.writeTraces`). -/
def traceEvent (cl kind h cause : Nat) (pc : Word) (s : State) : State :=
  let d := (s.cluster cl).dbg
  if d.trcBase = 0 || !nbit d.trcEv kind then s
  else
    let t := s.thread h
    let w0 := kind + (cl / 4) * 2 ^ 4 + (cl % 4) * 2 ^ 6 + (coreOf h % 32) * 2 ^ 8 + slotOf h * 2 ^ 13
      + t.ctx * 2 ^ 16 + (if kind = 1 then cause else 0) * 2 ^ 26 + (s.coreCycle cl % 2 ^ 32) * 2 ^ 32
    s.modCluster cl fun k => { k with dbg := { k.dbg with
      trcNow := k.dbg.trcNow ++ [{ kind := kind, handle := h, w0 := word w0, w1 := pc }] } }
/-- Bytes written to this device's memory as they are, under whatever key the line has. -/
def putRaw (a : Nat) (bs : List Byte) (s : State) : State := { s with mem := memWrite s.mem a bs }

/-- The cycles of R8 from a die to the home of a partition's trap ring (R362). -/
def ringLatency (s : State) (p : Nat) (die : Nat) : Nat :=
  match s.part p with
  | some q => s.nearLatency die q.trbase
  | none => 110

/-- Thread h parks with a trap at `pc` (R358): the trap registers are written, a pending park request is met, its gang
ends (R29), the record is sent. RPTSTATE and SKIPSTATE hold what is left of an RPT or an annulment (R38, R44). -/
def parkTrap (h cause : Nat) (pc val : Word) (s : State) : State :=
  let p := (s.partOfCluster (clusterOf h)).getD 0
  let sup := (s.thread h).sup
  let hard := (s.thread h).dataError
  let r := trapRecord s h cause pc val
  let s := s.modThread h fun t =>
    { t with run := .parked, parkReq := false, frozen := false, trapCause := BitVec.ofNat 8 cause, trapPc := pcField pc, trapVal := val,
             record := some r, walkFault := none, relAt := none, fin := none, drawWait := false, meets := none,
             seq := { t.seq with rptRun := none } }
  let s := s.trapDisbands h pc
  let s := traceEvent (clusterOf h) 1 h cause pc s
  sendRecord s p cause (ringLatency s p (dieOf h)) sup hard r
/-- A member's wait is over, with a status. No member of a gang retires the instruction before the waits of all are over, so
that they can stop at one boundary (R29, R30); `fin` then ends each wait, in ascending order. If it traps for one of them, nothing
else of the instruction happens: it alone parks, behind `undo`, and the others stand before the instruction (R29). -/
def State.together (s : State) (h v : Nat) (fin : Nat → Nat → State → State) (undo : Nat → State → State := fun _ s => s) : State :=
  let t := s.thread h
  let v := t.fin.getD v
  match t.gang with
  | none => fin h v (s.modThread h fun t => { t with fin := none })
  | some _ =>
    let s := s.modThread h fun t => { t with fin := some v }
    let ms := membersOf t h
    let ended (m : Nat) : Bool := (s.thread m).fin.isSome || (match (s.thread m).run with | .blocked _ => false | _ => true)
    if !ms.all ended then s
    else
      let r := ms.foldl (fun (r : Except State State) m => r.bind fun u => match (u.thread m).fin with
        | none => .ok u
        | some v =>
          let u := fin m v (u.modThread m fun t => { t with fin := none })
          let x := u.thread m
          if x.run = .parked then
            .error (parkTrap m x.trapCause.toNat x.seq.pc x.trapVal ((undo m s).modThread m fun t => { t with fflags := x.fflags, dataError := x.dataError }))
          else .ok u) (Except.ok s)
      match r with
      | .ok u => u
      | .error u => u

/-- Posts a message to a core's inbox (R93): an arrival event in this cycle. -/
def postMsg (core ctx : Nat) (m : Msg) (s : State) : State := s.later 0 (.inboxMessageArrival core ctx m)
/-- Word 0 of a message (R93). -/
def msgWord0 (kind status slot aux : Nat) : Word :=
  word (kind % 256 + status % 256 * 2 ^ 8 + slot % 8 * 2 ^ 16 + aux % 2 ^ 32 * 2 ^ 32)

/-- The overlay slot of a pump. -/
def Pump.ovl (p : Pump) (k : Nat) : Overlay := if k = 0 then p.ovl0 else p.ovl1
def Pump.setOvl (p : Pump) (k : Nat) (o : Overlay) : Pump := if k = 0 then { p with ovl0 := o } else { p with ovl1 := o }

/-- The notification of a node that completes or fails (R350). -/
def notifyNode (c : Nat) (w0 : Word) (q cause : Nat) (s : State) : State :=
  if !wbit w0 16 then s
  else match s.ctx c with
    | none => s
    | some x =>
      if wbit w0 26 then s.fire (x.part + 1) 1
      else postMsg (wfield w0 25 17) c { w0 := msgWord0 6 cause 0 q, w1 := word (wfield w0 3 0) } s
/-- A node of a context fails (R350, R416): the record of R416 reaches the host agent in this cycle, no further node
of the context starts. -/
def failNode (c q cause : Nat) (val : Word) (s : State) : State :=
  match s.ctx c with
  | none => s
  | some x =>
    let w0 := ((tfind x.nodes q).map fun n => n.words.getD 0 0).getD 0
    let r : TrapRecord :=
      { w0 := word (cause + 2 ^ 30 + c * 2 ^ 16 + x.part * 2 ^ 26), handle := 0, pc := word q, value := val,
        insn := word (wfield w0 31 0), cycle := word s.cycle }
    let s := s.later 0 (.faultQueueWrite x.part r)
    let s := s.modCtx c fun x => { x with failed := true, nodes := match tfind x.nodes q with
      | some n => tset x.nodes q { n with phase := .failed }
      | none => x.nodes }
    (notifyNode c w0 q cause s).later 0 (.contextComplete c)

/-- A launch ends (R316, R317, R347); its report follows, once the accesses that its kernel issued between two cycles are performed. -/
def endLaunch (c : Nat) (l : LaunchEnd) (s : State) : State :=
  (s.modPump c fun p => { p with ended := p.ended ++ [l] }).later 0 (.kernelLaunchStart c)

/-- The kernel of pump c faults (R318): a KIND 0x05 message to the slot's owner, the end of the launch, and the
next launch. -/
def pumpFault (c cause : Nat) (val : Word) (s : State) : State :=
  let p := s.pump c
  match p.kernel with
  | none => s
  | some (l, k) =>
    let o := p.ovl k
    let s := s.modPump c fun p =>
      { (p.setOvl k { o with state := .loaded }) with kernel := none, saveReq := none, blocked := false, pend := [],
                                                      seq := {} }
    let aux := p.seq.pc.toNat % 4096 + c * 2 ^ 12
    let s := postMsg o.owner o.ctx { w0 := msgWord0 5 cause 0 aux, w1 := val } s
    endLaunch c { launch := l, status := cause, val := 0, from_ := p.since, before := s.cycle } s

/-- The instruction of the agent that issues raises a cause (R23, R318). -/
def State.trap (s : State) (cause : Nat) (val : Word) : State :=
  match s.cur with
  | .thread h => parkTrap h cause (s.thread h).seq.pc val s
  | .pump c => pumpFault c cause val s

/-! ### The checks of R15 and the break bit -/

/-- Whether the agent's role may issue an instruction (R15, R329). -/
def roleOk (h : Nat) : Role → Bool
  | .access => isAccess h
  | .execute => !isAccess h
  | .both => true
  | .pump => false
  | .engine => true
/-- Whether a pump's kernel core executes an instruction (R329). -/
def pumpRuns : Instr → Bool
  | .add .. | .sub .. | .mul .. | .mulh .. | .mulhn .. | .div .. | .divn .. | .rem .. | .remn .. => true
  | .and .. | .or .. | .xor .. | .andn .. | .orn .. | .shl .. | .shr .. | .sra .. | .rotl .. | .rotr .. => true
  | .min .. | .max .. | .minn .. | .maxn .. | .slt .. | .sltn .. | .clz .. | .ctz .. | .popc .. => true
  | .sextB .. | .sextH .. | .sextW .. | .zextB .. | .zextH .. | .zextW .. | .bfx .. | .bfxn .. | .bfi .. => true
  | .bswap .. | .hasha .. | .addi .. | .andi .. | .ori .. | .xori .. | .shli .. | .shri .. | .srai .. => true
  | .roti .. | .slti .. | .lih .. | .addpc .. | .sk .. | .ski .. | .bCc .. | .br .. | .call .. | .jalr .. => true
  | .loop .. | .rpt .. | .nop16 | .prd .. | .pwr .. | .ppush .. | .pend => true
  | .ld _ ord _ _ _ _ => ord.toNat ≤ 4
  | .st _ ord _ _ _ => ord.toNat ≤ 4
  | .amoAdd sc _ _ _ _ _ | .amoAnd sc _ _ _ _ _ | .amoOr sc _ _ _ _ _ | .amoXor sc _ _ _ _ _ => sc.toNat ≤ 4
  | .amoMin sc _ _ _ _ _ | .amoMax sc _ _ _ _ _ | .amoMinn sc _ _ _ _ _ | .amoMaxn sc _ _ _ _ _ => sc.toNat ≤ 4
  | .amoSwap sc _ _ _ _ _ | .amoCas sc _ _ _ _ _ => sc.toNat ≤ 4
  | .redAdd sc _ _ _ _ | .redAnd sc _ _ _ _ | .redOr sc _ _ _ _ | .redXor sc _ _ _ _ => sc.toNat ≤ 4
  | .redMin sc _ _ _ _ | .redMax sc _ _ _ _ | .redMinn sc _ _ _ _ | .redMaxn sc _ _ _ _ => sc.toNat ≤ 4
  | .fence sc => sc.toNat ≤ 4
  | _ => false
/-- The cause with which a pump refuses an instruction that it does not execute (R329). -/
def pumpCause : Instr → Nat
  | .ovld .. | .ovldGo .. => 2
  | _ => 1

/-- The thread that a time-out or timed wake belongs to: they do not count in a halted cluster (R393). -/
def timedOf : Event → Option Nat
  | .barrierTimeout h _ => some h
  | .gangTimeout h _ => some h
  | .mwaitTimeout h _ => some h
  | .yieldWake h _ => some h
  | .groupWatchdogExpiry h _ => some h
  | _ => none
/-- The time-outs of a cluster stop counting. -/
def State.pauseTimed (s : State) (cl : Nat) : State :=
  let mine (e : Event) : Bool := (timedOf e).any fun h => clusterOf h = cl
  let l := (s.agenda.filter fun x => mine x.2).map fun x => (x.1 - s.cycle, x.2)
  (s.dropEvents mine).modCluster cl fun k => { k with dbg := { k.dbg with paused := k.dbg.paused ++ l } }
/-- The slices of the contexts of a cluster stop counting (R393). -/
def State.pauseSlices (s : State) (cl : Nat) : State :=
  { s with ctxs := tmap (fun c (x : Ctx) =>
      if x.phase = .resident && x.sliceLeft.isNone && s.cores.any fun k => k.1 / 32 = cl && k.2.holder = some c
      then { x with sliceLeft := some (x.sliceAt - s.cycle) } else x) s.ctxs }
/-- They count again. -/
def State.resumeTimed (s : State) (cl : Nat) : State :=
  let l := (s.cluster cl).dbg.paused
  let s := s.modCluster cl fun k => { k with dbg := { k.dbg with paused := [] } }
  l.foldl (fun s (n, e) => s.later n e) s

/-- A halt of a cluster in this cycle (R392): each core stops 2 + h cycles later, and triggers go to the modules of
TRIGOUT. A halted cluster is not halted again. -/
def haltCluster (cl from_ src : Nat) (ext : Bool) (s : State) : State :=
  let d := (s.cluster cl).dbg
  if d.halted then s
  else
    let s := s.modCluster cl fun k => { k with dbg := { k.dbg with halted := true, src := src, ext := ext } }
    let s := traceEvent cl 2 (256 * cl + src) 0 (s.thread (256 * cl + src)).seq.pc s
    let s := (s.pauseTimed cl).pauseSlices cl
    let s := forUpto 32 s fun i s => s.later (2 + hops from_ (coreIn cl i)) (.coreHaltStop (coreIn cl i) true)
    forUpto 16 s fun g s =>
      if nbit d.ctl.toNat (16 + g) then s.later (if g / 4 = cl / 4 then 40 else 90) (.haltTriggerArrival g) else s
/-- A break with BRKHALT = 1 (R391): the thread stops before the instruction and is the source of the halt. -/
def breakHalt (h : Nat) (s : State) : State :=
  let s := s.modThread h fun t => { t with dbgStop := true, brkSkip := !(s.cluster (clusterOf h)).dbg.halted }
  haltCluster (clusterOf h) (coreOf h) (h % 256) false s
/-- The thread meets a set break bit (R65, R391). -/
def breaks (h : Nat) (s : State) : State :=
  let s := traceEvent (clusterOf h) 4 h 0 (s.thread h).seq.pc s
  if wbit (s.cluster (clusterOf h)).dbg.ctl 1 then breakHalt h s else s.trap 0x0E 1

/-- What every instruction does before its own effect: the checks of R15 in their order, the instruction's own
checks of the same kind (`pre`), then the break bit (R391). -/
def checkedBy (i : Instr) (pre : State → Option (Nat × Word)) (s : State) (f : State → State) : Ans :=
  .next (match s.cur with
    | .pump _ =>
      if !pumpRuns i then s.trap (pumpCause i) 0
      else if !i.wf then s.trap 1 0
      else match pre s with
        | some (c, v) => s.trap c v
        | none => f s
    | .thread h =>
      if !i.wf then s.trap 1 0
      else if !roleOk h i.role then s.trap 2 0
      else if i.supervisor && !(s.thread h).sup then s.trap 3 0
      else match pre s with
        | some (c, v) => s.trap c v
        | none => if s.issue.brk then breaks h s else f s)
/-- The same without checks of the instruction's own. -/
def checked (i : Instr) (s : State) (f : State → State) : Ans := checkedBy i (fun _ => none) s f
/-- An instruction whose whole effect is a register result (R9, R51). -/
def result (i : Instr) (d : Reg) (s : State) (f : State → Word) : Ans :=
  checked i s fun s => (s.setX d (f s)).pass i.len

end Sys2Proof.Machine
end

