-- ==== Sys2Proof/Machine/Operands.lean ====
section
/-!
DEFINITION. Operand forms: immediates and offsets (R40, R54-R56), the fields that an RPT steps (R36), field
descriptors (R52), handles and selectors (R69), and the registers that an instruction waits for (R20).
-/

namespace Sys2Proof.Machine

/-- A sign-extended immediate (R40). -/
def imm {n : Nat} (i : BitVec n) : Word := i.signExtend 64
/-- Twice a sign-extended count of parcels (R40). -/
def parcels {n : Nat} (i : BitVec n) : Word := imm i * 2
/-- imm20 placed at bit 12 and sign-extended (R56). -/
def imm20 (i : BitVec 20) : Word := imm i * 4096
/-- The 12-bit offset of the B form: off[11:2] and off[1:0] (R40). -/
def offB (hi : BitVec 10) (lo : BitVec 2) : BitVec 12 := hi ++ lo

/-- The next register of a run, r + k. -/
def regPlus (r : Reg) (k : Nat) : Reg := BitVec.ofNat 5 (r.toNat + k)

/-- Adds j to the five-bit field at bit lo of a word (R36); none when the number would exceed 31. -/
def stepField (w lo j : Nat) (on : Bool) : Option Nat :=
  if on then if bits w lo 5 + j ≤ 31 then some (w + j * 2 ^ lo) else none else some w
/-- Repeat j of the target of an RPT, as a word: the flagged fields are stepped (R36). -/
def stepWord (parcel : Bool) (r : RptRun) (j w : Nat) : Option Nat :=
  if parcel then (stepField w 6 j r.d).bind fun w => stepField w 11 j r.b
  else (stepField w 7 j r.d).bind fun w => (stepField w 12 j r.a).bind fun w => stepField w 17 j r.b

/-- What an instruction waits for (R9, R20, R225): by number the registers that it reads, 64 + n for a v register n that it reads
or writes, 128 for the answer of a take (R337). -/
def usesOf : Instr → List Nat
  | .add b a _ => [b.toNat, a.toNat]
  | .sub b a _ => [b.toNat, a.toNat]
  | .mul b a _ => [b.toNat, a.toNat]
  | .mulh b a _ => [b.toNat, a.toNat]
  | .mulhn b a _ => [b.toNat, a.toNat]
  | .div b a _ => [b.toNat, a.toNat]
  | .divn b a _ => [b.toNat, a.toNat]
  | .rem b a _ => [b.toNat, a.toNat]
  | .remn b a _ => [b.toNat, a.toNat]
  | .and b a _ => [b.toNat, a.toNat]
  | .or b a _ => [b.toNat, a.toNat]
  | .xor b a _ => [b.toNat, a.toNat]
  | .andn b a _ => [b.toNat, a.toNat]
  | .orn b a _ => [b.toNat, a.toNat]
  | .shl b a _ => [b.toNat, a.toNat]
  | .shr b a _ => [b.toNat, a.toNat]
  | .sra b a _ => [b.toNat, a.toNat]
  | .rotl b a _ => [b.toNat, a.toNat]
  | .rotr b a _ => [b.toNat, a.toNat]
  | .min b a _ => [b.toNat, a.toNat]
  | .max b a _ => [b.toNat, a.toNat]
  | .minn b a _ => [b.toNat, a.toNat]
  | .maxn b a _ => [b.toNat, a.toNat]
  | .slt b a _ => [b.toNat, a.toNat]
  | .sltn b a _ => [b.toNat, a.toNat]
  | .clz a _ => [a.toNat]
  | .ctz a _ => [a.toNat]
  | .popc a _ => [a.toNat]
  | .sextB a _ => [a.toNat]
  | .sextH a _ => [a.toNat]
  | .sextW a _ => [a.toNat]
  | .zextB a _ => [a.toNat]
  | .zextH a _ => [a.toNat]
  | .zextW a _ => [a.toNat]
  | .bfx b a _ => [b.toNat, a.toNat]
  | .bfxn b a _ => [b.toNat, a.toNat]
  | .bfi b a d => [b.toNat, a.toNat, d.toNat]
  | .bswap a _ => [a.toNat]
  | .hasha a _ => [a.toNat]
  | .addi _ a _ => [a.toNat]
  | .andi _ a _ => [a.toNat]
  | .ori _ a _ => [a.toNat]
  | .xori _ a _ => [a.toNat]
  | .shli _ a _ => [a.toNat]
  | .shri _ a _ => [a.toNat]
  | .srai _ a _ => [a.toNat]
  | .roti _ a _ => [a.toNat]
  | .slti _ a _ => [a.toNat]
  | .sk b a _ _ => [b.toNat, a.toNat]
  | .ski _ a _ _ => [a.toNat]
  | .bCc _ b a _ _ => [b.toNat, a.toNat]
  | .call _ => []
  | .jalr _ a _ => [a.toNat]
  | .loop _ d => [d.toNat]
  | .csrw _ a => [a.toNat]
  | .csrs _ a => [a.toNat]
  | .csrc _ a => [a.toNat]
  | .trap a => [a.toNat]
  | .eret a => [a.toNat]
  | .tlbi b a => [b.toNat, a.toNat]
  | .tresume a => [a.toNat]
  | .tstatr b a _ => [b.toNat, a.toNat]
  | .tstatw b a d => [b.toNat, a.toNat, d.toNat]
  | .vaddF32Parcel s d => [64 + s.toNat, 64 + d.toNat]
  | .vsubF32Parcel s d => [64 + s.toNat, 64 + d.toNat]
  | .vmulF32Parcel s d => [64 + s.toNat, 64 + d.toNat]
  | .vmaxF32Parcel s d => [64 + s.toNat, 64 + d.toNat]
  | .vminF32Parcel s d => [64 + s.toNat, 64 + d.toNat]
  | .vaddI32Parcel s d => [64 + s.toNat, 64 + d.toNat]
  | .vsubI32Parcel s d => [64 + s.toNat, 64 + d.toNat]
  | .vandParcel s d => [64 + s.toNat, 64 + d.toNat]
  | .vorParcel s d => [64 + s.toNat, 64 + d.toNat]
  | .vxorParcel s d => [64 + s.toNat, 64 + d.toNat]
  | .vmovParcel s d => [64 + s.toNat, 64 + d.toNat]
  | .vaddB16Parcel s d => [64 + s.toNat, 64 + d.toNat]
  | .vmulB16Parcel s d => [64 + s.toNat, 64 + d.toNat]
  | .vshlI32Parcel s d => [64 + s.toNat, 64 + d.toNat]
  | .vsraI32Parcel s d => [64 + s.toNat, 64 + d.toNat]
  | .vnegF32Parcel s d => [64 + s.toNat, 64 + d.toNat]
  | .send b a _ => [b.toNat, a.toNat]
  | .recv _ _ _ => []
  | .recvn _ _ _ => []
  | .mon a _ => [a.toNat]
  | .monG a _ => [a.toNat]
  | .mwait b _ _ => [b.toNat]
  | .cntw _ b a => [b.toNat, a.toNat]
  | .bar b _ _ => [b.toNat]
  | .bara b _ _ => [b.toNat]
  | .ibx _ _ => []
  | .ibxn _ _ => []
  | .uien a _ => [a.toNat]
  | .uiret => [29]
  | .tstart b a d => [b.toNat, a.toNat, d.toNat]
  | .texit => [128]
  | .draw _ a _ => [a.toNat]
  | .dcan a => [a.toNat]
  | .dstat a _ => [a.toNat]
  | .tdef _ a => [a.toNat]
  | .tqry _ b _ => [b.toNat]
  | .qld a _ => [a.toNat]
  | .qst a _ => [a.toNat]
  | .qpx b a _ => [b.toNat, a.toNat]
  | .vadd _ b a d => [64 + b.toNat, 64 + a.toNat, 64 + d.toNat]
  | .vsub _ b a d => [64 + b.toNat, 64 + a.toNat, 64 + d.toNat]
  | .vmul _ b a d => [64 + b.toNat, 64 + a.toNat, 64 + d.toNat]
  | .vfma _ b a d => [64 + b.toNat, 64 + a.toNat, 64 + d.toNat]
  | .vfms _ b a d => [64 + b.toNat, 64 + a.toNat, 64 + d.toNat]
  | .vmin _ b a d => [64 + b.toNat, 64 + a.toNat, 64 + d.toNat]
  | .vminN _ b a d => [64 + b.toNat, 64 + a.toNat, 64 + d.toNat]
  | .vmax _ b a d => [64 + b.toNat, 64 + a.toNat, 64 + d.toNat]
  | .vmaxN _ b a d => [64 + b.toNat, 64 + a.toNat, 64 + d.toNat]
  | .vabs _ a d => [64 + a.toNat, 64 + d.toNat]
  | .vneg _ a d => [64 + a.toNat, 64 + d.toNat]
  | .vand _ b a d => [64 + b.toNat, 64 + a.toNat, 64 + d.toNat]
  | .vor _ b a d => [64 + b.toNat, 64 + a.toNat, 64 + d.toNat]
  | .vxor _ b a d => [64 + b.toNat, 64 + a.toNat, 64 + d.toNat]
  | .vnot _ a d => [64 + a.toNat, 64 + d.toNat]
  | .vshl _ b a d => [64 + b.toNat, 64 + a.toNat, 64 + d.toNat]
  | .vshr _ b a d => [64 + b.toNat, 64 + a.toNat, 64 + d.toNat]
  | .vsra _ b a d => [64 + b.toNat, 64 + a.toNat, 64 + d.toNat]
  | .vcmp _ _ b a d => [64 + b.toNat, 64 + a.toNat, 64 + d.toNat]
  | .vsel _ b a d => [64 + b.toNat, 64 + a.toNat, 64 + d.toNat]
  | .vcvt _ _ _ _ a d => [64 + a.toNat, 64 + d.toNat]
  | .vqnt _ _ _ b a d => [64 + b.toNat, 64 + a.toNat, 64 + d.toNat]
  | .vdq _ _ b a d => [64 + b.toNat, 64 + a.toNat, 64 + d.toNat]
  | .vbcast _ _ d => [64 + d.toNat]
  | .vext _ _ a _ => [64 + a.toNat]
  | .vextN _ _ a _ => [64 + a.toNat]
  | .vins _ _ _ d => [64 + d.toNat]
  | .vperm _ b a d => [64 + d.toNat, 64 + a.toNat, 64 + b.toNat]
  | .vslide _ _ a d => [64 + d.toNat, 64 + a.toNat]
  | .viota _ d => [64 + d.toNat]
  | .vmovi _ _ d => [64 + d.toNat]
  | .vrsum _ a d => [64 + a.toNat, 64 + d.toNat]
  | .vrmax _ a d => [64 + a.toNat, 64 + d.toNat]
  | .vrmaxN _ a d => [64 + a.toNat, 64 + d.toNat]
  | .vrmin _ a d => [64 + a.toNat, 64 + d.toNat]
  | .vrminN _ a d => [64 + a.toNat, 64 + d.toNat]
  | .vtopk _ _ a d => [64 + a.toNat, 64 + d.toNat, 65 + d.toNat]
  | .vtopkN _ _ a d => [64 + a.toNat, 64 + d.toNat, 65 + d.toNat]
  | .vrcp _ a d => [64 + a.toNat, 64 + d.toNat]
  | .vrsq _ a d => [64 + a.toNat, 64 + d.toNat]
  | .vsqrt _ a d => [64 + a.toNat, 64 + d.toNat]
  | .vdiv _ b a d => [64 + b.toNat, 64 + a.toNat, 64 + d.toNat]
  | .vexp2 _ a d => [64 + a.toNat, 64 + d.toNat]
  | .vlog2 _ a d => [64 + a.toNat, 64 + d.toNat]
  | .vsinp _ a d => [64 + a.toNat, 64 + d.toNat]
  | .vcosp _ a d => [64 + a.toNat, 64 + d.toNat]
  | .vtanh _ a d => [64 + a.toNat, 64 + d.toNat]
  | .wacc _ a _ => [64 + a.toNat]
  | .waccp _ b a _ => [64 + b.toNat, 64 + a.toNat]
  | .wrnd _ d => [64 + d.toNat]
  | .wsave _ d => [64 + d.toNat]
  | .wload a _ => [64 + a.toNat]
  | .hacc _ _ b a => [64 + b.toNat, 64 + a.toNat]
  | .hlook _ _ a d => [64 + a.toNat, 64 + d.toNat]
  | .vldc _ d => [64 + d.toNat]
  | .vstc _ d => [64 + d.toNat]
  | .mma _ b a d => [b.toNat, a.toNat, d.toNat]
  | .mmaM _ b a d => [b.toNat, a.toNat, d.toNat]
  | .mzero _ d => [d.toNat]
  | .mcopy _ a => [a.toNat]
  | .mldc _ a => [a.toNat]
  | .mstc _ a => [a.toNat]
  | .mspw _ b a => [b.toNat, a.toNat]
  | .mspwM _ b a d => [b.toNat, a.toNat, d.toNat]
  | .ld _ _ _ _ a _ => [a.toNat]
  | .st _ _ _ a d => [a.toNat, d.toNat]
  | .ldl _ _ _ _ a _ => [a.toNat]
  | .stl _ _ _ a d => [a.toNat, d.toNat]
  | .tld _ b a _ => [b.toNat, a.toNat]
  | .tst _ b a _ => [b.toNat, a.toNat]
  | .amoAdd _ _ _ b a _ => [b.toNat, a.toNat]
  | .amoAnd _ _ _ b a _ => [b.toNat, a.toNat]
  | .amoOr _ _ _ b a _ => [b.toNat, a.toNat]
  | .amoXor _ _ _ b a _ => [b.toNat, a.toNat]
  | .amoMin _ _ _ b a _ => [b.toNat, a.toNat]
  | .amoMax _ _ _ b a _ => [b.toNat, a.toNat]
  | .amoMinn _ _ _ b a _ => [b.toNat, a.toNat]
  | .amoMaxn _ _ _ b a _ => [b.toNat, a.toNat]
  | .amoSwap _ _ _ b a _ => [b.toNat, a.toNat]
  | .amoCas _ _ _ b a d => [b.toNat, a.toNat, d.toNat]
  | .amoFadd _ _ b a _ => [b.toNat, a.toNat]
  | .amoFmax _ _ b a _ => [b.toNat, a.toNat]
  | .redAdd _ _ _ b a => [b.toNat, a.toNat]
  | .redAnd _ _ _ b a => [b.toNat, a.toNat]
  | .redOr _ _ _ b a => [b.toNat, a.toNat]
  | .redXor _ _ _ b a => [b.toNat, a.toNat]
  | .redMin _ _ _ b a => [b.toNat, a.toNat]
  | .redMax _ _ _ b a => [b.toNat, a.toNat]
  | .redMinn _ _ _ b a => [b.toNat, a.toNat]
  | .redMaxn _ _ _ b a => [b.toNat, a.toNat]
  | .redFadd _ _ b a => [b.toNat, a.toNat]
  | .redFmax _ _ b a => [b.toNat, a.toNat]
  | .cwb b a => [b.toNat, a.toNat]
  | .cinv b a => [b.toNat, a.toNat]
  | .pfx b a => [b.toNat, a.toNat]
  | .cpy _ _ b a d => [b.toNat, a.toNat, d.toNat]
  | .cpyt _ _ b a d => [b.toNat, a.toNat, d.toNat]
  | .fill _ b a d => [b.toNat, a.toNat, d.toNat]
  | .bkCpy b a d => [b.toNat, a.toNat, d.toNat]
  | .bkFil b a d => [b.toNat, a.toNat, d.toNat]
  | .bkAnd b a d => [b.toNat, a.toNat, d.toNat, b.toNat + 1]
  | .bkOr b a d => [b.toNat, a.toNat, d.toNat, b.toNat + 1]
  | .bkXor b a d => [b.toNat, a.toNat, d.toNat, b.toNat + 1]
  | .bkNot b a d => [b.toNat, a.toNat, d.toNat]
  | .bkMaj b a d => [b.toNat, a.toNat, d.toNat, b.toNat + 1, b.toNat + 2]
  | .ovld b a _ => [b.toNat, a.toNat]
  | .ovldGo b a _ => [b.toNat, a.toNat]
  | .prd b a d => [b.toNat, a.toNat, d.toNat]
  | .pwr b a d => [b.toNat, a.toNat, d.toNat]
  | .ppush b a d => [b.toNat, a.toNat, d.toNat]
  | .tqadd a => [a.toNat, a.toNat + 1, a.toNat + 2, a.toNat + 3]
  | .tqtake _ => [128]
  | .tqtry _ => [128]
  | .tcmt => [128]
  | .tdone => [128]
  | _ => []

/-- The numbers under which a thread waits for what an instruction uses. -/
def awaits (t : Thread) (i : Instr) : List Nat :=
  (usesOf i).map fun n => if n < 32 then pendNum t (BitVec.ofNat 5 n) else n

/-- The number under which the flags of an AMO.FADD or AMO.FMAX are awaited: no later instruction issues before them
(R295). -/
def flagsNum : Nat := 129
/-- The number under which the answer of a take is awaited (R337). -/
def takeNum : Nat := 128

/-! Handles and selectors (R69) -/

/-- A thread handle without reserved bits. -/
def handleOf (w : Word) : Option Nat := if w.toNat < 4096 then some w.toNat else none

/-- Bit field descriptors of BFX, BFXN and BFI (R52): position and length. -/
def bfPos (b : Word) : Nat := wfield b 5 0
def bfLen (b : Word) : Nat := wfield b 13 8 + 1

end Sys2Proof.Machine
end

