-- ==== Sys2Proof/Machine/Alu.lean ====
section
/-!
DEFINITION. Integer arithmetic and logic (R51, R52), immediates (R54, R55) and constants (R56). HASHA stands with the
memory instructions.
-/

namespace Sys2Proof.Machine

/-! The operations on 64-bit values. -/

/-- High half of the signed product (R51). -/
def mulHigh (a b : Word) : Word := BitVec.ofInt 64 (a.toInt * b.toInt / 2 ^ 64)
/-- High half of the natural product (R51). -/
def mulHighN (a b : Word) : Word := word (a.toNat * b.toNat / 2 ^ 64)
/-- DIV of R52. -/
def divS (a b : Word) : Word :=
  if b = 0 then BitVec.allOnes 64
  else if a = BitVec.intMin 64 ∧ b = BitVec.allOnes 64 then BitVec.intMin 64
  else BitVec.ofInt 64 (a.toInt.tdiv b.toInt)
/-- REM of R52. -/
def remS (a b : Word) : Word :=
  if b = 0 then a
  else if a = BitVec.intMin 64 ∧ b = BitVec.allOnes 64 then 0
  else BitVec.ofInt 64 (a.toInt - a.toInt.tdiv b.toInt * b.toInt)
/-- DIVN of R52. -/
def divN (a b : Word) : Word := if b = 0 then BitVec.allOnes 64 else a / b
/-- REMN of R52. -/
def remN (a b : Word) : Word := if b = 0 then a else a % b
/-- The shift count in x[rb][5:0] (R51). -/
def shCount (b : Word) : Nat := wfield b 5 0
def rotl (a : Word) (n : Nat) : Word := a.rotateLeft n
def rotr (a : Word) (n : Nat) : Word := a.rotateRight n
def minS (a b : Word) : Word := if b.slt a then b else a
def maxS (a b : Word) : Word := if a.slt b then b else a
def minN (a b : Word) : Word := if b.ult a then b else a
def maxN (a b : Word) : Word := if a.ult b then b else a
def boolWord (b : Bool) : Word := if b then 1 else 0
/-- Number of leading zero bits below bit n of a value (R51). -/
def clzBelow (a : Word) : Nat → Nat
  | 0 => 0
  | n + 1 => if a.getLsbD n then 0 else clzBelow a n + 1
/-- Number of trailing zero bits among the top n bits of a value, 64 − n bits being known zero (R51). -/
def ctzFrom (a : Word) : Nat → Nat
  | 0 => 0
  | n + 1 => if a.getLsbD (63 - n) then 0 else ctzFrom a n + 1
/-- Number of 1 bits below bit n (R51). -/
def popBelow (a : Word) : Nat → Nat
  | 0 => 0
  | n + 1 => popBelow a n + b2n (a.getLsbD n)
def clz (a : Word) : Word := word (clzBelow a 64)
def ctz (a : Word) : Word := word (ctzFrom a 64)
def popc (a : Word) : Word := word (popBelow a 64)
/-- The low n bits sign-extended, zero-extended (R51). -/
def sextLow (n : Nat) (a : Word) : Word := (a.truncate n).signExtend 64
def zextLow (n : Nat) (a : Word) : Word := (a.truncate n).zeroExtend 64
/-- 2^L − 1 (R52). -/
def bfMask (len : Nat) : Word := word (2 ^ len - 1)
/-- BFXN of R52. -/
def bfxN (a b : Word) : Word := (a >>> bfPos b) &&& bfMask (bfLen b)
/-- BFX of R52. -/
def bfxS (a b : Word) : Word :=
  let f := bfxN a b
  if f.getLsbD (bfLen b - 1) then f ||| ~~~ bfMask (bfLen b) else f
/-- BFI of R52; d is the old value of x[rd]. -/
def bfiInto (d a b : Word) : Word :=
  let m := bfMask (bfLen b)
  (d &&& ~~~ (m <<< bfPos b)) ||| ((a &&& m) <<< bfPos b)
/-- The eight bytes in reverse order (R51). -/
def bswapWord (a : Word) : Word := wordOfBytes (bytesOfWord 8 a).reverse
/-- The address of the instruction that issues: behind its RPT parcel, if it is a repeat. -/
def State.insnAddr (s : State) : Word := if s.seq.rptRun.isSome then s.pc + 2 else s.pc

/-- An ALU instruction of two sources (R51). -/
def alu2 (i : Instr) (b a d : Reg) (s : State) (f : Word → Word → Word) : Ans :=
  result i d s fun s => f (s.getX a) (s.getX b)
/-- An ALU instruction of one source (R51, R54, R55). -/
def alu1 (i : Instr) (a d : Reg) (s : State) (f : Word → Word) : Ans := result i d s fun s => f (s.getX a)

/-- R51. -/
def execAdd (b a d : Reg) (s : State) : Ans := alu2 (.add b a d) b a d s fun a b => a + b
/-- R51. -/
def execSub (b a d : Reg) (s : State) : Ans := alu2 (.sub b a d) b a d s fun a b => a - b
/-- R51. -/
def execMul (b a d : Reg) (s : State) : Ans := alu2 (.mul b a d) b a d s fun a b => a * b
/-- R51. -/
def execMulh (b a d : Reg) (s : State) : Ans := alu2 (.mulh b a d) b a d s fun a b => mulHigh a b
/-- R51. -/
def execMulhn (b a d : Reg) (s : State) : Ans := alu2 (.mulhn b a d) b a d s fun a b => mulHighN a b
/-- R52. -/
def execDiv (b a d : Reg) (s : State) : Ans := alu2 (.div b a d) b a d s fun a b => divS a b
/-- R52. -/
def execDivn (b a d : Reg) (s : State) : Ans := alu2 (.divn b a d) b a d s fun a b => divN a b
/-- R52. -/
def execRem (b a d : Reg) (s : State) : Ans := alu2 (.rem b a d) b a d s fun a b => remS a b
/-- R52. -/
def execRemn (b a d : Reg) (s : State) : Ans := alu2 (.remn b a d) b a d s fun a b => remN a b
/-- R51. -/
def execAnd (b a d : Reg) (s : State) : Ans := alu2 (.and b a d) b a d s fun a b => a &&& b
/-- R51. -/
def execOr (b a d : Reg) (s : State) : Ans := alu2 (.or b a d) b a d s fun a b => a ||| b
/-- R51. -/
def execXor (b a d : Reg) (s : State) : Ans := alu2 (.xor b a d) b a d s fun a b => a ^^^ b
/-- R51. -/
def execAndn (b a d : Reg) (s : State) : Ans := alu2 (.andn b a d) b a d s fun a b => a &&& ~~~ b
/-- R51. -/
def execOrn (b a d : Reg) (s : State) : Ans := alu2 (.orn b a d) b a d s fun a b => a ||| ~~~ b
/-- R51. -/
def execShl (b a d : Reg) (s : State) : Ans := alu2 (.shl b a d) b a d s fun a b => a <<< shCount b
/-- R51. -/
def execShr (b a d : Reg) (s : State) : Ans := alu2 (.shr b a d) b a d s fun a b => a >>> shCount b
/-- R51. -/
def execSra (b a d : Reg) (s : State) : Ans := alu2 (.sra b a d) b a d s fun a b => a.sshiftRight (shCount b)
/-- R51. -/
def execRotl (b a d : Reg) (s : State) : Ans := alu2 (.rotl b a d) b a d s fun a b => rotl a (shCount b)
/-- R51. -/
def execRotr (b a d : Reg) (s : State) : Ans := alu2 (.rotr b a d) b a d s fun a b => rotr a (shCount b)
/-- R51. -/
def execMin (b a d : Reg) (s : State) : Ans := alu2 (.min b a d) b a d s fun a b => minS a b
/-- R51. -/
def execMax (b a d : Reg) (s : State) : Ans := alu2 (.max b a d) b a d s fun a b => maxS a b
/-- R51. -/
def execMinn (b a d : Reg) (s : State) : Ans := alu2 (.minn b a d) b a d s fun a b => minN a b
/-- R51. -/
def execMaxn (b a d : Reg) (s : State) : Ans := alu2 (.maxn b a d) b a d s fun a b => maxN a b
/-- R51. -/
def execSlt (b a d : Reg) (s : State) : Ans := alu2 (.slt b a d) b a d s fun a b => boolWord (a.slt b)
/-- R51. -/
def execSltn (b a d : Reg) (s : State) : Ans := alu2 (.sltn b a d) b a d s fun a b => boolWord (a.ult b)
/-- R52. -/
def execBfx (b a d : Reg) (s : State) : Ans := alu2 (.bfx b a d) b a d s fun a b => bfxS a b
/-- R52. -/
def execBfxn (b a d : Reg) (s : State) : Ans := alu2 (.bfxn b a d) b a d s fun a b => bfxN a b
/-- R51. -/
def execClz (a d : Reg) (s : State) : Ans := alu1 (.clz a d) a d s fun a => clz a
/-- R51. -/
def execCtz (a d : Reg) (s : State) : Ans := alu1 (.ctz a d) a d s fun a => ctz a
/-- R51. -/
def execPopc (a d : Reg) (s : State) : Ans := alu1 (.popc a d) a d s fun a => popc a
/-- R51. -/
def execSextB (a d : Reg) (s : State) : Ans := alu1 (.sextB a d) a d s fun a => sextLow 8 a
/-- R51. -/
def execSextH (a d : Reg) (s : State) : Ans := alu1 (.sextH a d) a d s fun a => sextLow 16 a
/-- R51. -/
def execSextW (a d : Reg) (s : State) : Ans := alu1 (.sextW a d) a d s fun a => sextLow 32 a
/-- R51. -/
def execZextB (a d : Reg) (s : State) : Ans := alu1 (.zextB a d) a d s fun a => zextLow 8 a
/-- R51. -/
def execZextH (a d : Reg) (s : State) : Ans := alu1 (.zextH a d) a d s fun a => zextLow 16 a
/-- R51. -/
def execZextW (a d : Reg) (s : State) : Ans := alu1 (.zextW a d) a d s fun a => zextLow 32 a
/-- R51. -/
def execBswap (a d : Reg) (s : State) : Ans := alu1 (.bswap a d) a d s fun a => bswapWord a
/-- R52: BFI reads rd. -/
def execBfi (b a d : Reg) (s : State) : Ans :=
  result (.bfi b a d) d s fun s => bfiInto (s.getX d) (s.getX a) (s.getX b)

/-- R54. -/
def execAddi (i : BitVec 15) (a d : Reg) (s : State) : Ans := alu1 (.addi i a d) a d s fun a => a + imm i
/-- R54. -/
def execAndi (i : BitVec 15) (a d : Reg) (s : State) : Ans := alu1 (.andi i a d) a d s fun a => a &&& imm i
/-- R54. -/
def execOri (i : BitVec 15) (a d : Reg) (s : State) : Ans := alu1 (.ori i a d) a d s fun a => a ||| imm i
/-- R54. -/
def execXori (i : BitVec 15) (a d : Reg) (s : State) : Ans := alu1 (.xori i a d) a d s fun a => a ^^^ imm i
/-- R55. -/
def execShli (n : BitVec 6) (a d : Reg) (s : State) : Ans := alu1 (.shli n a d) a d s fun a => a <<< n.toNat
/-- R55. -/
def execShri (n : BitVec 6) (a d : Reg) (s : State) : Ans := alu1 (.shri n a d) a d s fun a => a >>> n.toNat
/-- R55. -/
def execSrai (n : BitVec 6) (a d : Reg) (s : State) : Ans := alu1 (.srai n a d) a d s fun a => a.sshiftRight n.toNat
/-- R55. -/
def execRoti (n : BitVec 6) (a d : Reg) (s : State) : Ans := alu1 (.roti n a d) a d s fun a => rotl a n.toNat
/-- R55. -/
def execSlti (i : BitVec 12) (a d : Reg) (s : State) : Ans :=
  alu1 (.slti i a d) a d s fun a => boolWord (a.slt (imm i))
/-- R56. -/
def execLih (i : BitVec 20) (d : Reg) (s : State) : Ans := result (.lih i d) d s fun _ => imm20 i
/-- R56. -/
def execAddpc (i : BitVec 20) (d : Reg) (s : State) : Ans :=
  result (.addpc i d) d s fun s => (s.insnAddr &&& ~~~ 0xFFF) + imm20 i

end Sys2Proof.Machine
end

