-- ==== Sys2Proof/Machine/Translate.lean ====
section
/-!
DEFINITION. Physical windows, homes and channels (R235, R239, R240, R371), memory keys (R378), page tables and
walks (R241-R245), TLBs (R246, R247), and the checks that translation makes for an access (R244, R283, R385).
-/

namespace Sys2Proof.Machine

/-! ### Lines that slices hold (R413) -/

/-- A slice that does not hold the line reads it from its channel (R413). -/
def State.missesLine (s : State) (key : Nat) : Bool :=
  match s.home key with
  | .slice _ _ => !s.lineHeld key
  | _ => false
/-- The latency by the line's state as it stands (R413). -/
def State.latency (s : State) (die key : Nat) : Nat := if s.missesLine key then 420 else s.nearLatency die key
/-- The lines that a slice holds. -/
def State.sliceLines (s : State) (sl : Nat) : List Nat :=
  (s.lines.map Prod.fst).filter fun l => match s.home (256 * l) with | .slice x _ => x = sl | _ => false
/-- A slice of 4 MiB that is full evicts a line, which one the device chooses (R1, R413, log 4). -/
def State.sliceRoom (s : State) (sl key : Nat) : State :=
  if s.lines.length < 16384 || s.lineHeld key then s
  else
    let l := s.sliceLines sl
    if l.length < 16384 then s
    else match s.choose l.length with
      | (i, s) => { s with lines := terase s.lines (l.getD i 0) }
/-- The host agent's cache of 16 MiB that is full gives a line up, which one it chooses (R383, log 4). -/
def State.agentRoom (s : State) (line : Nat) : State :=
  if s.hostLines.length < 65536 || (tfind s.hostLines line).isSome then s
  else match s.choose s.hostLines.length with
    | (i, s) => { s with hostLines := terase s.hostLines ((s.hostLines.getD i (0, ())).1) }

/-! ### What is usable (R380, R399) -/

/-- The scale-up port of a key of another device (log 17); the host link is number 16. -/
def State.linkOf (s : State) (key : Nat) : Option Nat :=
  match s.home key with
  | .remote d => some (d % 16)
  | .host => some 16
  | _ => none
/-- A key beyond a link that cannot recover (R380). -/
def State.onDeadLink (s : State) (key : Nat) : Bool := (s.linkOf key).any s.linkDown.contains
/-- What an access of a key needs is not usable yet (R399). -/
def State.unready (s : State) (key : Nat) : Bool :=
  !s.onDeadLink key && match s.home key with
  | .remote d => !nbit s.pf.links (d % 16)
  | .host => !s.pf.hostAgt
  | .slice _ ch => !s.lineHeld key && !nbit s.pf.chans ch
  | .nowhere => false

/-! ### Memory keys (R378) -/

/-- A physical access: the key of its first byte, the page's KEY, NC, SA and CC bits. -/
structure Phys where
  key : Nat
  ks : Nat
  nc : Bool
  sa : Bool
  cc : Bool
  deriving DecidableEq, Repr

/-- The tag of the key that a line is read and written under: 0 is plaintext; memory outside this device's DRAM is
not encrypted. -/
def State.keyTag (s : State) (key ks : Nat) : Option Nat :=
  if 2 ^ 51 ≤ key then none
  else match s.owner key with
    | some (p, q) => if isPool p q key && ks = 0 then some 0 else some (1 + tget 0 q.keys ks)
    | none => none
/-- The home fills the line (R413), read from DRAM under a key slot, or under the key of its data. -/
def State.holdLine (s : State) (key : Nat) (ks : Option Nat := none) : State :=
  match s.home key with
  | .slice sl _ =>
    if s.lineHeld key then s
    else
      let s := s.sliceRoom sl key
      { s with lines := tset s.lines (key / 256) { tag := ks.bind (s.keyTag key) } }
  | .host =>
    let s := s.agentRoom (key / 256)
    { s with hostLines := tset s.hostLines (key / 256) () }
  | _ => s
def State.holdLines (s : State) (key n : Nat) (ks : Option Nat := none) : State :=
  forUpto ((key + n - 1) / 256 + 1 - key / 256) s fun i s => s.holdLine (key + 256 * i) ks
/-- A byte read under a key: data written under another key reads as other bytes. A line that its slice holds reads as it was when it was read from
DRAM, whatever key its page names (R378, log 8). -/
def State.readByte (s : State) (key ks : Nat) : Byte :=
  let b := memGet s.mem key
  let under := match tfind s.lines (key / 256) with
    | some l => l.tag
    | none => s.keyTag key ks
  match under, tfind s.tags (key / 256) with
  | some c, some t => if t = c then b else Config.wrongKey t c key b
  | _, _ => b
def State.readBytes (s : State) (key ks n : Nat) : List Byte := (List.range n).map fun i => s.readByte (key + i) ks
def State.readNat (s : State) (key ks n : Nat) : Nat := ofBytes (s.readBytes key ks n)
/-- The lines of the DRAM row of a line of a partition's window (R324): four lines of its channel, or four neighbours
in a pool frame. -/
def rowLines (p : Nat) (q : Part) (pa : Nat) : List Nat :=
  if isPool p q pa then (List.range 4).map fun i => pa / 1024 * 4 + i
  else
    let l := (pa - windowBase p) / 256
    let h (n : Nat) : Nat := (n * 0x9E3779B1) % 2 ^ 32 / 2 ^ 16 % q.nc
    let idx := (l % q.nc + h (l / q.nc)) % q.nc
    (List.range 4).map fun i =>
      let n := l / q.nc / 4 * 4 + i
      windowBase p / 256 + n * q.nc + (idx + q.nc - h n) % q.nc
/-- A line that its slice holds is written there, and will be written back under its slot, whose key is c now (R378). -/
def State.rekeyLine (s : State) (key ks c : Nat) : State :=
  let l := key / 256
  if s.lineHeld key then
    { s with lines := tset s.lines l { dirty := some ks }, mem := memWrite s.mem (256 * l) (s.readBytes (256 * l) ks 256)
             tags := if (tfind s.tags l).isSome then tset s.tags l c else s.tags }
  else s
/-- Takes a line to a key: what was written under another key turns into what it reads as. The first write to a cleared
row writes the whole row under its key (R324). -/
def State.rekey (s : State) (key ks : Nat) : State :=
  match s.keyTag key ks with
  | none => s
  | some c =>
    let l := key / 256
    let s := s.rekeyLine key ks c
    match tfind s.tags l with
    | none =>
      let ls := match s.owner key with | some (p, q) => l :: rowLines p q key | none => [l]
      { s with tags := ls.foldl (fun t i => if (tfind t i).isSome then t else tset t i c) s.tags }
    | some t =>
      if t = c then s
      else { s with mem := memWrite s.mem (256 * l) (s.readBytes (256 * l) ks 256), tags := tset s.tags l c }
/-- Writes bytes under a key, line by line. -/
def State.writeBytes (s : State) (key ks : Nat) (bs : List Byte) : State :=
  let s := forUpto ((key + bs.length - 1) / 256 + 1 - key / 256) s fun i s => s.rekey (key + 256 * i) ks
  { s with mem := memWrite s.mem key bs }

/-! ### Page tables -/

/-- A page table entry read by a walker (R247): under the line's own key (log 8). -/
def State.pte (s : State) (a : Nat) : Nat := ofBytes (memRead s.mem a 8)
def pteFrame (e : Nat) : Nat := field e 51 12 * 4096
/-- R243. `level` is 5 ... 1; a coarse table's entry counts for its own size. -/
def malformed (e level size : Nat) (coarse pool : Bool) : Bool :=
  let leaf := nbit e 7
  nbit e 11 || field e 55 52 ≠ 0
    || (!leaf && (field e 6 1 ≠ 0 || field e 9 8 ≠ 0))
    || (leaf && 4 ≤ level)
    || (!leaf && (level = 1 || coarse))
    || (!leaf && nbit e 10 && (level = 1 || 4 ≤ level))
    || (nbit e 2 && !nbit e 1)
    || (leaf && pteFrame e % 2 ^ size ≠ 0)
    || (leaf && nbit e 10 && !(level = 2 && !coarse && pool))
/-- A walk's leaf: its address, its value, log2 of the page size. -/
structure Walked where
  at_ : Nat
  leaf : Nat
  size : Nat
  deriving DecidableEq, Repr
/-- What a walk has read: the non-leaf entries it met, by level and index prefix, and the addresses it read from memory. -/
structure WalkTrace where
  met : List (Nat × Nat × Word) := []
  reads : List Nat := []
  deriving DecidableEq, Repr
/-- Whether a partition may reach a key of memory: its own window, host memory, or an active fabric window of another device
(R235, R239, R385). -/
def State.partMay (s : State) (p key : Nat) : Bool :=
  if 2 ^ 52 ≤ key then
    let d := key / 2 ^ 52 - 1
    let pa := key % 2 ^ 52
    match s.part p with
    | none => false
    | some q => q.fabActive.any fun i =>
        let e := q.fab.getD i (0, 0)
        wfield e.1 3 0 = d && wfield e.2 51 30 * 2 ^ 30 ≤ pa
          && pa < wfield e.2 51 30 * 2 ^ 30 + wfield e.2 63 52 * 2 ^ 30
  else if 2 ^ 51 ≤ key then true
  else match s.owner key with
    | some (o, _) => o = p
    | none => false
/-- The key of the frame or table that an entry names: HOME says on which device it lies (R242). -/
def State.frameKey (s : State) (e : Nat) : Nat :=
  let home := field e 59 56
  if home = s.pf.devIdx then pteFrame e else (home + 1) * 2 ^ 52 + pteFrame e
/-- A walk from a level down (R241), or the cause: 0x05 for an invalid or malformed entry, 0x06 for a table outside the
partition's windows; with what it has read. Non-leaf entries come from the walker cache when it holds them (R247). -/
def State.walkFrom (s : State) (p va : Nat) (cache : List (Nat × Nat × Word)) : Nat → Nat → Except Nat Walked × WalkTrace
  | 0, _ => (.error 5, {})
  | n + 1, table =>
    let lvl := n + 1
    let pre := va / 2 ^ (12 + 9 * n)
    let a := table + 8 * (pre % 512)
    let hit := cache.find? fun x => x.1 = lvl && x.2.1 = pre
    if hit.isNone && !s.partMay p a then (.error 6, {})
    else
      let e := match hit with
        | some x => x.2.2.toNat
        | none => s.pte a
      let rs := if hit.isSome then [] else [a]
      let pool := match s.owner (s.frameKey e) with | some (o, q) => o = p && isPool o q (pteFrame e) | none => false
      if !nbit e 0 || malformed e lvl (12 + 9 * n) false pool then (.error 5, { reads := rs })
      else if nbit e 7 then (.ok { at_ := a, leaf := e, size := 12 + 9 * n }, { reads := rs })
      else if nbit e 10 then
        let size := if lvl = 3 then 27 else 16
        let a2 := s.frameKey e + 8 * (va / 2 ^ size % (if lvl = 3 then 8 else 32))
        if !s.partMay p a2 then (.error 6, { met := [(lvl, pre, word e)], reads := rs })
        else
          let e2 := s.pte a2
          let tr : WalkTrace := { met := [(lvl, pre, word e)], reads := rs ++ [a2] }
          if !nbit e2 0 || malformed e2 lvl size true false then (.error 5, tr)
          else (.ok { at_ := a2, leaf := e2, size := size }, tr)
      else
        let (r, tr) := s.walkFrom p va cache n (s.frameKey e)
        (r, { met := (lvl, pre, word e) :: tr.met, reads := rs ++ tr.reads })

/-- From where an access is made: its context, level, die and, for a thread, core. -/
structure View where
  ctx : Nat
  sup : Bool
  die : Nat
  core : Option Nat
  deriving DecidableEq, Repr
/-- The view of a thread. -/
def State.viewOf (s : State) (h : Nat) : View :=
  { ctx := (s.thread h).ctx, sup := (s.thread h).sup, die := dieOf h, core := some (coreOf h) }
/-- The view of the agent that issues (R316, R329: a kernel has no user level). -/
def State.view (s : State) : View :=
  match s.cur with
  | .thread h => s.viewOf h
  | .pump c =>
    { ctx := match (s.pump c).kernel with | some (l, _) => l.ctx | none => 0, sup := true, die := chanDie c, core := none }

/-- The permission that an access needs (R244). -/
def permOk (e : TlbEntry) (acc : Access) (sup : Bool) : Bool :=
  (sup || e.u) && match acc with
    | .read => e.r
    | .write => e.w
    | .rw => e.r && e.w
    | .fetch => e.x
    | .none => true
def writes : Access → Bool
  | .write => true
  | .rw => true
  | _ => false
/-- A translation from a leaf. -/
def entryOf (ctx va : Nat) (w : Walked) (dirty : Bool) : TlbEntry :=
  let e := w.leaf
  { ctx := ctx, va := va / 2 ^ w.size * 2 ^ w.size, size := w.size, frame := pteFrame e, r := nbit e 1, w := nbit e 2,
    x := nbit e 3, u := nbit e 4, d := nbit e 6 || dirty, nc := nbit e 8, sa := nbit e 9, cc := nbit e 10,
    home := field e 59 56, key := field e 63 60 }
/-- The key of an address through a translation; memory of other devices has its own range of keys. -/
def State.physOf (s : State) (e : TlbEntry) (va : Nat) : Phys :=
  let pa := e.frame + va % 2 ^ e.size
  { key := if e.home = s.pf.devIdx then pa else (e.home + 1) * 2 ^ 52 + pa, ks := e.key, nc := e.nc, sa := e.sa,
    cc := e.cc && e.size = 21 }
/-- The physical checks of R235, R239 and R385 for the partition of a context: cause 0x06 when they fail. -/
def State.physOk (s : State) (ctx key : Nat) : Bool :=
  match s.ctx ctx with
  | none => false
  | some x => s.partMay x.part key

/-- The entry of a TLB for an address. -/
def tlbHit (l : List TlbEntry) (ctx va : Nat) : Option TlbEntry :=
  l.find? fun e => e.ctx = ctx && e.va / 2 ^ e.size = va / 2 ^ e.size
/-- Puts an entry into a TLB of n entries, the newest first (log 15). -/
def tlbPut (n : Nat) (e : TlbEntry) (l : List TlbEntry) : List TlbEntry :=
  (e :: l.filter fun x => !(x.ctx = e.ctx && x.va = e.va && x.size = e.size)).take n
/-- Puts an entry into every level that serves a view (R246). -/
def State.fillTlb (s : State) (v : View) (e : TlbEntry) : State :=
  let s := s.modDie v.die fun d => { d with tlb := tlbPut 16384 e d.tlb }
  match v.core with
  | none => s
  | some c =>
    let s := s.modCluster (c / 32) fun k => { k with tlb := tlbPut 4096 e k.tlb }
    s.modCore c fun k => { k with tlb := tlbPut 128 e k.tlb }
/-- What the TLBs hold for an address, and the cycles that the level adds (R246). A translation with D = 0 does not
serve a write (R245). -/
def State.tlbFind (s : State) (v : View) (va : Nat) (acc : Access) : Option (TlbEntry × Nat) :=
  let ok (e : TlbEntry) : Bool := e.d || !writes acc
  let c := v.core.bind fun c => ((tlbHit (s.core c).tlb v.ctx va).filter ok).map fun e => (e, 0)
  let k := v.core.bind fun c => ((tlbHit (s.cluster (c / 32)).tlb v.ctx va).filter ok).map fun e => (e, 4)
  let d := ((tlbHit (s.die v.die).tlb v.ctx va).filter ok).map fun e => (e, 12)
  c.orElse fun _ => k.orElse fun _ => d

/-- The walker cache takes the non-leaf entries that a walk met (R247). -/
def addMet (ctx : Nat) (met : List (Nat × Nat × Word)) (l : List (Nat × Nat × Nat × Word)) :
    List (Nat × Nat × Nat × Word) :=
  met.foldl (fun l m => if l.contains (ctx, m) then l else (ctx, m) :: l) l

/-- The walk of a context's address from a die, with the walker cache of the die. -/
def State.walkOf (s : State) (v : View) (x : Ctx) (va : Nat) : Except Nat Walked × WalkTrace :=
  s.walkFrom x.part va (((s.die v.die).walk.filter fun y => y.1 = v.ctx).map fun y => y.2) 5 x.root
/-- The walker cache keeps what a walk has met; the homes hold the lines that it has read (R247, R413). -/
def State.afterWalk (s : State) (v : View) (tr : WalkTrace) : State :=
  tr.reads.foldl State.holdLine (s.modDie v.die fun d => { d with walk := addMet v.ctx tr.met d.walk })
/-- What a walk finds for an access (R244, R245): a fault, or the translation, with A and D set as the access needs. A permission that the
leaf lacks is found here. -/
def State.walkLeaf (s : State) (v : View) (va : Nat) (acc : Access) (r : Except Nat Walked) : Except Nat TlbEntry × State :=
  match r with
  | .error c => (.error c, s)
  | .ok w =>
    if !permOk (entryOf v.ctx va w false) acc v.sup then (.error 6, s)
    else
      let leaf := w.leaf ||| 2 ^ 5 ||| (if writes acc then 2 ^ 6 else 0)
      let s := if leaf = w.leaf then s else { s with mem := memWrite s.mem w.at_ (toBytes 8 leaf) }
      (.ok (entryOf v.ctx va w (writes acc)), s)
/-- The end of a walk for a view (R247): the walker cache keeps what it has met, and every level takes its translation. -/
def State.walk (s : State) (v : View) (va : Nat) (acc : Access) : Except Nat TlbEntry × State :=
  match s.ctx v.ctx with
  | none => (.error 5, s)
  | some x =>
    let (r, tr) := s.walkOf v x va
    match (s.afterWalk v tr).walkLeaf v va acc r with
    | (.ok e, s) => (.ok e, s.fillTlb v e)
    | (.error c, s) => (.error c, s)

/-- The entries that a walk reads from memory. -/
def State.walkReads (s : State) (v : View) (va : Nat) : List Nat :=
  match s.ctx v.ctx with
  | none => []
  | some x => (s.walkOf v x va).2.reads

/-! ### Misses (R246, R247) -/

/-- log2 of the size of the page that a miss is for; a walk that fails has none, and is shared within 4 KiB. -/
def State.missSize (s : State) (v : View) (va : Nat) : Nat :=
  match (s.ctx v.ctx).map fun x => (s.walkOf v x va).1 with
  | some (.ok w) => w.size
  | _ => 12
/-- The miss of a die that is identical with one of an address (R247). -/
def State.findMiss (s : State) (v : View) (va : Nat) : Option (Nat × Miss) :=
  let n := s.missSize v va
  (s.die v.die).misses.find? fun x => x.2.ctx = v.ctx && x.2.va / 2 ^ n = va / 2 ^ n
/-- The walkers of a die (R246). -/
def walkers : Nat := 64
/-- The cycle in which a new miss of a die would have its walker: those before it end first (R247). -/
def State.walkerFree (s : State) (die : Nat) : Nat :=
  let dues := sortBy id ((s.die die).misses.map fun x => x.2.due)
  if dues.length < walkers then s.cycle else max s.cycle (dues.getD (dues.length - walkers) 0)
/-- The cycles from now on in which the miss of an address is over (R246), by the lines that the slices hold now: of one under way, or
of a walk of its own, which takes the reads it makes also where it fails. -/
def State.walkCycles (s : State) (v : View) (va : Nat) : Nat :=
  match s.findMiss v va with
  | some (_, m) => m.due - s.cycle
  | none => s.walkerFree v.die - s.cycle + 12 + sumList ((s.walkReads v va).map (s.latency v.die))
def State.modMiss (s : State) (die id : Nat) (f : Miss → Miss) : State :=
  s.modDie die fun d => match tfind d.misses id with
    | some m => { d with misses := tset d.misses id (f m) }
    | none => d
/-- The tables that a miss has still to read. -/
def State.unread (s : State) (die : Nat) (m : Miss) : List Nat :=
  (s.walkReads { ctx := m.ctx, sup := true, die := die, core := none } m.va).filter fun a => !m.read.contains a
/-- The walker of a miss goes on after n cycles: its next read reaches its home, or it ends. -/
def State.walkOn (s : State) (die id n : Nat) : State :=
  match tfind (s.die die).misses id with
  | none => s
  | some m => match s.unread die m with
    | [] => s.later n (.walkRead die id)
    | a :: _ => s.later (n + s.nearLatency die a) (.walkRead die id)
/-- The walker takes up a miss. -/
def State.walkBegins (s : State) (die id : Nat) : State := (s.modMiss die id fun m => { m with begun := true }).walkOn die id 12
/-- An access joins the miss of its page, or is the first one of a new miss, which waits for a walker (R247). -/
def State.joins (s : State) (v : View) (va : Nat) (f : Miss → Miss) : State :=
  match s.findMiss v va with
  | some (id, _) => s.modMiss v.die id f
  | none =>
    let m : Miss := { ctx := v.ctx, va := va, since := s.cycle, due := s.cycle + s.walkCycles v va, begun := false }
    let free : Bool := ((s.die v.die).misses.filter fun x => x.2.begun).length < walkers
    let (id, s) := s.fresh
    let s := s.modDie v.die fun d => { d with misses := tset d.misses id (f m) }
    if free then s.walkBegins v.die id else s
/-- An engine joins the miss of a page. -/
def State.engineJoins (s : State) (v : View) (va : Nat) (acc : Access) : State :=
  let mine := (v.core, word (va / 4096 * 4096), acc)
  s.joins v va fun m => if m.engines.contains mine then m else { m with engines := mine :: m.engines }

/-- The cycles that translation adds to an access (R246): of the level that holds the page, or of the walk. -/
def State.trExtra (s : State) (v : View) (va : Nat) (acc : Access) : Nat :=
  match s.tlbFind v va acc with
  | some (_, n) => n
  | none => s.walkCycles v va

/-- The same for a footprint: its pages are translated side by side, so the longest counts (log 15). -/
def State.trMost (s : State) (v : View) (acc : Access) (as : List Nat) : Nat := (as.map fun a => s.trExtra v a acc).foldl max 0

/-- A read of the page would set A in its leaf (R245). -/
def State.leafUntouched (s : State) (v : View) (va : Nat) : Bool :=
  (s.tlbFind v va .read).isNone && (s.ctx v.ctx).any fun x => match (s.walkOf v x va).1 with
    | .ok w => !nbit w.leaf 5
    | .error _ => false

/-- What translation answers at once. -/
inductive Tr where
  | ok (p : Phys) (extra : Nat)
  | fault (cause : Nat)
  | miss
  deriving DecidableEq, Repr
/-- The checks of an access through a translation. -/
def State.checkEntry (s : State) (v : View) (e : TlbEntry) (va : Nat) (acc : Access) (extra : Nat) : Tr :=
  let p := s.physOf e va
  if !permOk e acc v.sup then .fault 6
  else if acc ≠ .none && !s.physOk v.ctx p.key then .fault 6
  else .ok p extra
/-- Translates through the TLBs: a miss has to wait for a walk (R247). Bits [63:56] raise cause 0x05 (R234). -/
def State.translate (s : State) (v : View) (va : Word) (acc : Access) : Tr :=
  if wfield va 63 56 ≠ 0 then .fault 5
  else match s.tlbFind v va.toNat acc with
    | some (e, n) => s.checkEntry v e va.toNat acc n
    | none => .miss
/-- Translates for an engine, or for the page checks of a footprint: what a walk finds now. The engine joins the page's miss, whose cycles its
access takes besides (`trExtra`); the TLBs take the translation when they are over. A table beyond a link that cannot recover fails it (R380). -/
def State.translateNow (s : State) (v : View) (va : Word) (acc : Access) : Except Nat Phys × State :=
  match s.translate v va acc with
  | .ok p _ => (.ok p, s)
  | .fault c => (.error c, s)
  | .miss =>
    let r : Except Nat Walked := match s.ctx v.ctx with
      | some x => if (s.walkReads v va.toNat).any s.onDeadLink then .error 6 else (s.walkOf v x va.toNat).1
      | none => .error 5
    match (s.engineJoins v va.toNat acc).walkLeaf v va.toNat acc r with
    | (.error c, s) => (.error c, s)
    | (.ok e, s) =>
      match s.checkEntry v e va.toNat acc 0 with
      | .ok p _ => (.ok p, s)
      | _ => (.error 6, s)
/-- The walk that a translation needs would read a table that is not usable yet (R399). -/
def State.walkStalls (s : State) (v : View) (va : Word) (acc : Access) : Bool := match s.translate v va acc with
  | .miss => (s.walkReads v va.toNat).any s.unready
  | _ => false
/-- The first addresses of the 4 KiB units of a range, and the range's own start: each page of the range holds one. -/
def pagesOf (va n : Nat) : List Nat :=
  if n = 0 then [] else va :: (List.range ((va + n - 1) / 4096 - va / 4096)).map fun i => (va / 4096 + 1 + i) * 4096
/-- Checks every page of a range in ascending order; the fault names the first failing byte (R244). One beyond a link that cannot recover
fails with cause 0x06 (R380). -/
def State.checkRange (s : State) (v : View) (va n : Nat) (acc : Access) : Option MemFault × State :=
  (pagesOf va n).foldl (fun (r, s) a =>
    match r with
    | some f => (some f, s)
    | none => match s.translateNow v (word a) acc with
      | (.ok p, s) => (if s.onDeadLink p.key then some { cause := 6, va := word a } else none, s)
      | (.error c, s) => (some { cause := c, va := word a }, s)) (none, s)
/-- Every page of a range can be translated and accessed as soon as it is asked for (R399). -/
def State.usable (s : State) (v : View) (va n : Nat) (acc : Access) : Bool :=
  (pagesOf va n).all fun a => !s.walkStalls v (word a) acc && match (s.translateNow v (word a) acc).1 with
    | .ok p => !s.unready p.key
    | .error _ => true
/-- Splits a range at the 4 KiB units: address, bytes. -/
def splitPages (va n : Nat) : List (Nat × Nat) :=
  (pagesOf va n).map fun a => (a, min (va + n) ((a / 4096 + 1) * 4096) - a)
/-- The bytes of a virtual range at their homes, each page under its own key; a page that has no translation reads
as nothing was there (its checks were made before). -/
def State.readVirt (s : State) (v : View) (va n : Nat) : List Byte × State :=
  (splitPages va n).foldl (fun (bs, s) (a, k) =>
    match s.translateNow v (word a) .read with
    | (.ok p, s) => (bs ++ s.readBytes p.key p.ks k, s.holdLines p.key k (some p.ks))
    | (.error _, s) => (bs ++ List.replicate k 0, s)) ([], s)

end Sys2Proof.Machine
end

