-- ==== Sys2Proof/Machine/Home.lean ====
section
/-!
DEFINITION. What writes do where they land (R84, R85, R88, R317, R342, R362), wells (R236-R238), locks and marks
(R254-R260, R322), race detection (R279), injection limits (R377), delay accumulators (R253), far accesses on their
way (R251, R415), and what acquires and releases do (R249, R268, R270).
-/

namespace Sys2Proof.Machine

/-- Two ranges of bytes meet. -/
def rangeMeets (a n b m : Nat) : Bool := a < b + m && b < a + n

/-! ### Wells (R236-R238) -/

/-- The core whose well a cluster well address names, and the offset. -/
def wellCore (h : Nat) (a : Word) : Nat := coreIn (clusterOf h) (wfield a 24 20)
def wellOff (a : Word) : Nat := wfield a 19 0
/-- The cluster well address of an offset in a core's well. -/
def wellAddr (core off : Nat) : Word := word (coreIdx core * 2 ^ 20 + off)
def State.wellRead (s : State) (core off n : Nat) : List Byte := memRead (s.core core).well off n
/-- The rights that a core has in an owner's well (R236, R238): bit 0 read, bit 1 write. -/
def State.rights (s : State) (core owner : Nat) : Nat :=
  if core = owner then 3 else tget 0 (s.core core).mirror (coreIdx owner)

/-! ### What a write does where it lands -/

/-- The write lands in the sector or line that a monitor watches (R84, R85). -/
def Landing.meets (l : Landing) (p : MonPlace) : Bool :=
  match p, l.core with
  | .well c sec, some k => c = k && rangeMeets l.first l.len (64 * sec) 64
  | .line key, none => rangeMeets l.first l.len key 256
  | _, _ => false
/-- Every armed monitor on a place that was written records the write in this cycle; a thread that waits on it is back three cycles
later (R84-R86). -/
def State.recordWrite (s : State) (w : Landing) : State :=
  s.threads.foldl (fun s (h, t) =>
    let hits := (List.range 4).filter fun n => match t.mons.toList.getD n {} with | (m : Mon) => m.place.any w.meets
    if hits.isEmpty then s
    else
      let s := s.modThread h fun t => { t with mons := t.mons.map fun m => { m with hit := m.hit || m.place.any w.meets } }
      match t.run with
      | .blocked (.mwait mask _) => if hits.any (nbit mask) then s.later 3 (.monitorWake h t.since) else s
      | _ => s) s
/-- A write is recorded now, or when the locks of its tile store are released (R260), as the cycle begins. -/
def State.recordWrites (s : State) (core : Option Nat) (first len delay : Nat) : State :=
  let w : Landing := { core := core, first := first, len := len, at_ := s.cycle + delay }
  let s := { s with landings := s.landings.filter (fun (x : Landing) => s.cycle ≤ x.at_) ++ [w] }
  if delay = 0 then s.recordWrite w else s
/-- A monitor armed now on a place has recorded a write that is recorded in this cycle (R84). -/
def State.landed (s : State) (p : MonPlace) : Bool := s.landings.any fun w => w.at_ = s.cycle && w.meets p
/-- Writes bytes into a well bank. -/
def State.landWell (s : State) (core off : Nat) (bs : List Byte) (delay : Nat) : State :=
  let s := s.modCore core fun k => { k with well := memWrite k.well off bs }
  s.recordWrites (some core) off bs.length delay

/-- Threads blocked in CNTW on a counter that this update brings to its target are back three cycles later, whatever it holds
then (R88). -/
def State.wakeCounters (s : State) (key n : Nat) : State :=
  s.threads.foldl (fun s (h, t) => match t.run with
    | .blocked (.cntw k (some target) _) =>
      if rangeMeets key n k 8 && target.toNat ≤ ofBytes (memRead s.mem k 8) then s.later 3 (.cntwWake h t.since) else s
    | _ => s) s
/-- A write of a context's notify word reaches the command processor (R342). -/
def State.seeNotify (s : State) (key n : Nat) : State :=
  s.ctxs.foldl (fun s (c, x) =>
    if x.super then s
    else match (s.translateNow { ctx := c, sup := true, die := 0, core := none } x.notify .none).1 with
      | .ok p => if rangeMeets key n p.key 8 then s.later 0 (.notifyWrite c (ofBytes (memRead s.mem p.key 8))) else s
      | .error _ => s) s
/-- The launch that a slot of a launch page requests, and whether it may be queued (R317). -/
def launchAt (s : State) (c : Nat) (x : Ctx) (a : Nat) : Launch × Nat × Bool :=
  let d := ofBytes (memRead s.mem a 8)
  let chan := field d 8 0
  let ok := field d 15 9 = 0 && field d 63 44 = 0 && chan < 384 && s.partOfChan chan = some x.part
    && field d 43 32 % 2 = 0
  ({ handle := field d 31 16, entry := field d 43 32, arg := word (ofBytes (memRead s.mem (a + 8) 8)), ctx := c, core := 0,
     page := some a, node := none }, chan, ok)
/-- A doorbell with a nonzero HANDLE is swapped to 0 and its launch goes to the dispatcher (R317). -/
def State.seeDoorbell (s : State) (key n : Nat) : State :=
  s.ctxs.foldl (fun s (c, x) => match x.launchPage with
    | none => s
    | some page =>
      forUpto 16 s fun k s =>
        let a := page + 256 * k
        if rangeMeets key n a 8 && field (ofBytes (memRead s.mem a 8)) 31 16 ≠ 0 then
          let (l, chan, ok) := launchAt s c x a
          let s := putRaw a (List.replicate 8 0) s
          if ok then s.later 40 (.launchPageQueue chan l) else endLaunch (chan % 384) { launch := l, status := 2, val := 0 } s
        else s) s
/-- What follows a write of n bytes at a key (R85, R88, R317, R342, R413). -/
def State.afterWrite (s : State) (key n delay : Nat) : State :=
  let s := s.holdLines key n
  let s := s.recordWrites none key n delay
  let s := (s.wakeCounters key n).seeNotify key n
  if delay = 0 then s.seeDoorbell key n else s
/-- The writes of tile stores whose locks are released in this cycle are recorded, and what looks at them finds the lines free (R260). -/
def State.recordReleases (s : State) : State :=
  (s.landings.filter fun (w : Landing) => w.at_ = s.cycle).foldl (fun s w =>
    let s := s.recordWrite w
    if w.core.isNone then s.seeDoorbell w.first w.len else s) s

/-- What tells the home of a trap ring that CCOUNT has made room: no record of a trap is all zeros. -/
def roomMade : TrapRecord := { w0 := 0, handle := 0, pc := 0, value := 0, insn := 0, cycle := 0 }
/-- CCOUNT of the partition whose trap ring a write meets (R362). -/
def State.ringOf (s : State) (key n : Nat) : Option (Nat × Part) :=
  s.parts.find? fun x => rangeMeets key n (x.2.trbase + 4104) 8
/-- A write that is performed at its home (R415). A CCOUNT outside its range is not performed and is reported to the
fault queue; another frees slots for waiting records from the next cycle (R362). -/
def State.landMem (s : State) (h key ks : Nat) (bs : List Byte) (delay : Nat := 0) : State :=
  let s := s.holdLines key bs.length (some ks)
  match s.ringOf key bs.length with
  | none => (s.writeBytes key ks bs).afterWrite key bs.length delay
  | some (p, q) =>
    let a := q.trbase + 4104
    let old := ofBytes (memRead s.mem a 8)
    let pcount := ofBytes (memRead s.mem (q.trbase + 4096) 8)
    let s' := s.writeBytes key ks bs
    let new := ofBytes (memRead s'.mem a 8)
    if old ≤ new && new ≤ pcount then
      let s' := s'.afterWrite key bs.length delay
      if q.ringWait ≠ [] && pcount - new < 64 then s'.later 1 (.trapRecordWrite p roomMade) else s'
    else
      let r : TrapRecord := { w0 := recordWord0 6 p (s.thread h).ctx none (s.thread h).sup, handle := word h, pc := 0,
                              value := word new, insn := 0, cycle := word (s.coreCycle (clusterOf h)) }
      s.later 110 (.faultQueueWrite p r)

/-! ### Locks and marks (R258-R260, R322) -/

/-- The place of an access to a well among the keys of memory. -/
def wellKey (core off : Nat) : Nat := 2 ^ 60 + core * 2 ^ 20 + off
def isWellKey (key : Nat) : Bool := 2 ^ 60 ≤ key
def keyCore (key : Nat) : Nat := (key - 2 ^ 60) / 2 ^ 20
/-- Whether an operation writes. -/
def farWrites : FarOp → Bool
  | .load .. => false
  | .fill _ => false
  | .count _ => false
  | .pumpRead .. => false
  | _ => true
/-- Whether an operation reads data for its agent (R367). -/
def farReads : FarOp → Bool
  | .load .. => true
  | .fill load => load.isSome
  | .count _ => true
  | .pumpRead .. => true
  | .amo .. => true
  | _ => false
/-- The bytes that a request touches. -/
def farBytes : FarOp → Nat
  | .load _ n _ _ => n
  | .fill _ => 64
  | .store bs => bs.length
  | .writeBack _ => 64
  | .amo _ n _ _ _ _ => n
  | .red _ n _ => n
  | .count _ => 8
  | .pumpRead _ n => n

/-- The units of a run of memory, of a well. -/
def linesOf (key n : Nat) : List LockUnit :=
  if n = 0 then [] else (List.range ((key + n - 1) / 256 + 1 - key / 256)).map fun i => .line (256 * (key / 256 + i))
def sectorsOf (core off n : Nat) : List LockUnit :=
  if n = 0 then [] else (List.range ((off + n - 1) / 64 + 1 - off / 64)).map fun i => .sector core (64 * (off / 64 + i))
/-- A lock that is held in this cycle. -/
def State.lockLive (s : State) (l : Lock) : Bool := match l.until_ with | none => true | some c => s.cycle ≤ c
/-- The runs and sectors of the 32 rows of a tile reference from an offset on. -/
def rowSegs (r : TileRef) (off len : Nat) : List (Nat × Nat × Nat) := (List.range 32).map fun i => (r.core, off + i * r.stride, len)
def rowUnits (r : TileRef) (off len : Nat) : List LockUnit := (rowSegs r off len).flatMap fun (c, o, n) => sectorsOf c o n
/-- The MLDC that holds a tile of a core (R222). -/
def Core.mldc (k : Core) (tile : Nat) : Option MldcHold := k.heldTiles.find? (·.tile = tile)
/-- Locks on a unit that stop a shared, an exclusive access (R259, R260). -/
def State.lockStops (s : State) (u : LockUnit) (excl : Bool) (self : Option Nat) : Bool :=
  s.locks.any fun l => l.unit = u && s.lockLive l && some l.acc ≠ self && (excl || l.excl)
/-- The units of an access that is no tile access. -/
def reqUnits (r : FarReq) : List LockUnit :=
  if isWellKey r.addr then sectorsOf (keyCore r.addr) (r.addr % 2 ^ 20) (farBytes r.op) else [.line (256 * (r.addr / 256))]
/-- The bank that an access of a request names, for R267. -/
def State.bankOf (s : State) (key : Nat) : Nat :=
  if isWellKey key then 1000 + 16 * keyCore key + key / 64 % 16 else match s.home key with | .slice sl _ => sl | .host => 128 | .remote d => 129 + d | .nowhere => 200
/-- The requests that are on their way, that wait, or that a release holds back. -/
def State.reqs (s : State) : List FarReq :=
  let req (e : Event) : Option FarReq := match e with | .farAccessPerform r => some r | _ => none
  s.agenda.filterMap (fun x => req x.2) ++ s.injWait.filterMap fun x => req x.ev
/-- Whether an agent made a request. -/
def reqBy (r : FarReq) (a : Agent) : Bool :=
  match a, r.pump with
  | .thread h, none => r.h = h
  | .pump c, some d => c = d
  | _, _ => false
def reqAgent (r : FarReq) : Agent := match r.pump with | none => .thread r.h | some c => .pump c
/-- Fills and write-backs: what passes between the first-level cache and the home. -/
def reqCached (r : FarReq) : Bool := match r.op with
  | .fill _ => true
  | .writeBack _ => true
  | _ => false
def reqIsWb (r : FarReq) : Bool := match r.op with | .writeBack _ => true | _ => false
/-- A load that misses, or comes behind one that has missed: it passes through the first-level cache (R271). -/
def reqIsMiss (r : FarReq) : Bool := match r.op with | .fill (some _) => true | _ => false
/-- Accesses of one agent to one bank stay in program order (R267), but for two that pass through the first-level cache (note 1
of R270); of those, loads of one thread stay in program order for the threads of their core (R271). What a core asks of a
sector follows what it has sent there to be written: the core's threads see the sector's bytes in one order (R266). -/
def State.mustFollow (s : State) (q r : FarReq) : Bool :=
  reqBy q (reqAgent r) && q.sent < r.sent && (reqIsMiss q && reqIsMiss r || s.bankOf q.addr = s.bankOf r.addr && !(reqCached q && reqCached r))
    || farWrites q.op && q.pump.isNone && r.pump.isNone && !isWellKey r.addr && coreOf q.h = coreOf r.h && q.addr / 64 = r.addr / 64
        && (q.sent < r.sent || reqIsWb q && !reqIsWb r && q.sent = r.sent)
/-- The latest cycle in which an access that r has to follow is due. -/
def State.lastDue (s : State) (r : FarReq) : Nat :=
  s.agenda.foldl (fun m (d, e) => match e with
    | .farAccessPerform q => if s.mustFollow q r then max m d else m
    | _ => m) 0
/-- A request that waits at a unit, of any kind, has reached it before another one does, or in the same cycle and comes first in the order of
handles and program order, and the two do not both read (R259, R260). A request that follows another one keeps its place among requests, and
asks for no lock yet. -/
def State.earlierWaits (s : State) (u : LockUnit) (excl : Bool) (reached key : Nat) (self : Option Nat) : Bool :=
  let first (c k : Nat) : Bool := c < reached || c = reached && k < key
  let req (e : Event) : Bool := match e with
    | .farAccessPerform r => r.reached.any (fun c => first c (orderKey r.h r.sent)) && (excl || farWrites r.op) && (reqUnits r).contains u
        && (self.isNone || !s.reqs.any fun q => s.mustFollow q r)
    | _ => false
  (s.waiting.any fun w => s.cycle ≤ w.last + 1 && first w.reached w.key && (excl || w.write) && w.units.contains u)
    || (s.taccs.any fun (i, a) => some i ≠ self && !a.relWait && a.units.getD a.got (.line 1) = u && (excl || a.excl)
    && a.reqAt ≤ s.cycle && first a.reqAt (orderKey a.h a.sent))
    || (s.bks.any fun (i, b) => some i ≠ self && b.reqAt ≠ 0 && first b.reqAt (orderKey b.h b.sent) && match b.marks with
        | (l, e) :: _ => .line l = u && (excl || e)
        | [] => false)
    || s.agenda.any (fun x => req x.2)
/-- A unit's home, or the way to it, is not usable yet (R399). -/
def State.unitUnready (s : State) : LockUnit → Bool
  | .line k => s.unready k
  | .sector _ _ => false
/-- A unit lies beyond a link that cannot recover (R380). -/
def State.unitDead (s : State) : LockUnit → Bool
  | .line k => s.onDeadLink k
  | .sector _ _ => false
/-- A unit holds an uncorrectable error (R367). -/
def State.unitBroken (s : State) (u : LockUnit) : Bool := s.broken.contains u
/-- The first sector that holds an uncorrectable error (R367), as a well address. -/
def State.brokenSector (s : State) (us : List LockUnit) : Option Word :=
  us.findSome? fun u => match u with
    | .sector c o => if s.unitBroken u then some (wellAddr c o) else none
    | .line _ => none
/-- Whether an access that is no tile access waits at a unit (R260, R399): a load that arrives at shared locks passes. -/
def State.waitsAt (s : State) (write : Bool) (reached key : Nat) (u : LockUnit) : Bool :=
  s.unitUnready u || s.lockStops u write none || (write || reached < s.cycle) && s.earlierWaits u write reached key none
def State.mustWait (s : State) (us : List LockUnit) (write : Bool) (reached key : Nat) : Bool := us.any (s.waitsAt write reached key)
/-- The cycle in which something reached the units where it waits, this one if it does not wait yet. -/
def State.reachedAt (s : State) (who : Waiter) : Nat := ((s.waiting.find? (·.who = who)).map (·.reached)).getD s.cycle
/-- It is noted that something waits in this cycle at those of its units that it cannot pass (R258, R260). -/
def State.noteWait (s : State) (who : Waiter) (key : Nat) (write : Bool) (us : List LockUnit) : State :=
  let reached := s.reachedAt who
  let w : Wait := { who := who, reached := reached, last := s.cycle, key := key, write := write, units := us.filter (s.waitsAt write reached key) }
  { s with waiting := w :: s.waiting.filter fun w => w.who ≠ who && s.cycle ≤ w.last + 1 }
/-- Nothing is noted of it any more. -/
def State.dropWait (s : State) (who : Waiter) : State := { s with waiting := s.waiting.filter (·.who ≠ who) }
/-- Something that is no tile access is performed at its units, or waits there and asks again (R260). -/
def State.atUnits (s : State) (who : Waiter) (key : Nat) (write : Bool) (us : List LockUnit) (wait go : State → State) : State :=
  if s.mustWait us write (s.reachedAt who) key then wait (s.noteWait who key write us) else go (s.dropWait who)
/-- Forgets locks that have been released. -/
def State.pruneLocks (s : State) : State := { s with locks := s.locks.filter s.lockLive }

/-! ### Race detection (R279) -/

/-- Sectors of a well access: (owner, sector number, address of the access's first byte in it). -/
def raceSectors (segs : List (Nat × Nat × Nat)) : List (Nat × Nat × Word) :=
  segs.flatMap fun (c, off, n) => (List.range ((off + n + 63) / 64 - off / 64)).map fun i =>
    (c, off / 64 + i, wellAddr c (max off (64 * (off / 64 + i))))
/-- Checks an access of core c and sets its marks; the address of the first conflict otherwise. -/
def State.raceCheck (s : State) (c ctx : Nat) (write : Bool) (segs : List (Nat × Nat × Nat)) : Option Word × State :=
  let cl := c / 32
  let k := s.cluster cl
  if !k.raceEn.contains ctx then (none, s)
  else
    let secs := raceSectors segs
    let get (o n : Nat) : Race := tget {} k.race (2 ^ 14 * coreIdx o + n)
    let bad := secs.find? fun (o, n, _) =>
      let r := get o n
      r.writer.any (· ≠ c) || write && r.readers.any (· ≠ c)
    match bad with
    | some (_, _, a) => (some a, s)
    | none =>
      (none, s.modCluster cl fun k => { k with race := secs.foldl (fun t (o, n, _) =>
        tmod {} t (2 ^ 14 * coreIdx o + n) fun r =>
          if write then { r with writer := some c }
          else { r with readers := if r.readers.contains c then r.readers else c :: r.readers }) k.race })
/-- An acquire or release of core c at cluster scope or wider forgets its marks. -/
def State.raceClear (s : State) (c : Nat) : State :=
  s.modCluster (c / 32) fun k => { k with race := k.race.filterMap fun (n, r) =>
    let r : Race := { writer := if r.writer = some c then none else r.writer, readers := r.readers.filter (· ≠ c) }
    if r.writer = none ∧ r.readers = [] then none else some (n, r) }

/-! ### Injection limits (R377) -/

/-- The start of the next window is on the agenda. -/
def State.windowSet (s : State) : State :=
  if s.agenda.any fun x => x.2 = .injectionWindowStart then s
  else s.at_ ((s.cycle / 1024 + 1) * 1024) .injectionWindowStart
/-- The limit of a partition at a point; 0 is none. -/
def State.limitAt (s : State) (point p : Nat) : Nat :=
  match s.part p with
  | none => 0
  | some q => if point < 32 then q.limcl else if point < 160 then q.limsl else q.limch
/-- Lets a request enter at a point, or keeps it for a later window. -/
def State.admitAt (s : State) (w : InjWait) (f : State → State) : State :=
  let limit := s.limitAt w.point w.part
  if limit = 0 then f s
  else
    let k := 16 * w.point + w.part
    let n := tget 0 s.inj k
    let waiting := s.injWait.any fun x => x.point = w.point && x.part = w.part
    if !waiting && (n = 0 || n + w.bytes ≤ 64 * limit) then f { s with inj := tset s.inj k (n + w.bytes) }.windowSet
    else { s with injWait := s.injWait ++ [w] }.windowSet
/-- A request of b bytes of a thread's core leaves its cluster, to come to an event some cycles later. -/
def State.leavesCluster (s : State) (h b after : Nat) (e : Event) (f : State → State) (kind : Nat := 0) : State :=
  let cl := clusterOf h
  s.admitAt { point := cl, part := (s.partOfCluster cl).getD 0, bytes := b, after := after, kind := kind, ev := e } f
/-- A request of b bytes arrives at the home slice of a line, and where that does not hold it at the channel; it goes on with an event if it is
kept. -/
def State.arrivesAt (s : State) (line b : Nat) (e : Event) (f : State → State) : State :=
  match s.home line, s.owner line with
  | .slice sl ch, some (p, _) =>
    let w : InjWait := { point := 32 + sl, part := p, bytes := b, line := line, ev := e }
    s.admitAt w fun s => if s.lineHeld line then f s else s.admitAt { w with point := 160 + ch } f
  | _, _ => f s
/-- Something is under way, on the agenda or at a limit. -/
def State.anyEvent (s : State) (p : Event → Bool) : Bool := s.agenda.any (fun x => p x.2) || s.injWait.any fun x => p x.ev

/-! ### Far accesses (R251, R415) -/

/-- Adds the replies of earlier cycles to the accumulators (R397). -/
def Core.settleDelays (k : Core) (cycle : Nat) : Core :=
  let (old, new) := k.delayNew.partition fun x => x.1 < cycle
  { k with delayNew := new, delays := old.foldl (fun t (_, bank, n) => tmod (0, 0) t bank fun (a, b) =>
      (min (a + min n 0xFFFF) (2 ^ 48 - 1), min (b + 1) (2 ^ 32 - 1))) k.delays }
/-- A reply that arrives in a cycle brings the cycles that it and its request spent on the way (R253). -/
def State.addDelayAt (s : State) (core bank n at_ : Nat) : State :=
  s.modCore core fun k =>
    let k := k.settleDelays s.cycle
    { k with delayNew := k.delayNew ++ [(at_, bank, n)] }
def State.addDelay (s : State) (core bank n : Nat) : State := s.addDelayAt core bank n s.cycle
/-- The home slice of a key answers a thread: its delay field has the cycles of the way, those of R8 for a line that is held, and the cycles that
the request has waited. R253 gives no figure for a hop, and the cycles of the channel's read and of translation count for neither (log 1). -/
def State.answered (s : State) (h key field : Nat) : State :=
  match s.home key with
  | .slice sl _ => s.addDelay (coreOf h) sl field
  | _ => s
/-- Sectors of a well that lie in one bank. -/
def sameBank (us vs : List LockUnit) : Bool :=
  us.any fun u => vs.any fun v => match u, v with
    | .sector c a, .sector d b => c = d && a / 64 % 16 = b / 64 % 16
    | _, _ => false
/-- An earlier access of a thread to a bank of sectors of a well is still to be performed there (R267). -/
def State.banksBehind (s : State) (h : Nat) (us : List LockUnit) (sent : Nat) : Bool :=
  (s.agenda.any fun x => match x.2 with
    | .wellStoreLand g c o bs e => g = h && e < sent && sameBank (sectorsOf c o bs.length) us
    | .farAccessPerform r => r.pump.isNone && r.h = h && r.sent < sent && isWellKey r.addr && sameBank (reqUnits r) us
    | .mldcPerform g t r => g = h && ((s.core (coreOf g)).mldc t).any (fun m => m.rows.isNone && m.issued < sent)
        && sameBank (rowUnits r r.off r.rowBytes) us
    | _ => false)
    || s.taccs.any fun x => x.2.h = h && x.2.sent < sent && match x.2.done with
        | .qld _ _ => sameBank x.2.units us
        | .qst => sameBank x.2.units us
        | .tst => x.2.units.any us.contains
        | _ => false
/-- The same for a range of a well. -/
def State.wellBehind (s : State) (h core off n sent : Nat) : Bool := s.banksBehind h (sectorsOf core off n) sent
/-- Cycles to the place where a request is performed, or where it learns whether its line is held (R8, R285, R329, R413). -/
def State.wayTo (s : State) (r : FarReq) : Nat :=
  if r.near then 10
  else if isWellKey r.addr then
    if coreOf r.h = keyCore r.addr && !farWrites r.op then 4 else 6 + 2 * hops (coreOf r.h) (keyCore r.addr)
  else if r.pump.isSome then 110
  else s.nearLatency (dieOf r.h) r.addr
/-- Puts a request on its way; `delay` cycles pass before it leaves (R246, R249). -/
def State.depart (s : State) (r : FarReq) (delay : Nat) : State :=
  s.later (delay + s.wayTo r) (.farAccessPerform { r with held := false })
/-- A TQTRY that a thread has issued before a cycle has no answer yet (R337). -/
def State.takeOut (s : State) (a : Agent) (sent : Nat) : Bool :=
  let is (e : Event) : Bool := match e with
    | .tqRequestPerform r => a = .thread r.h && r.sent < sent && (match r.op with | .try_ _ _ => true | _ => false)
    | .tqAnswer r _ => a = .thread r.h && r.sent < sent && (match r.op with | .try_ _ _ => true | _ => false)
    | _ => false
  s.anyEvent is
/-- A request leaves: a core's passes its cluster router (R377). -/
def State.leave (s : State) (r : FarReq) (delay : Nat) : State :=
  match r.pump with
  | some _ => s.depart r delay
  | none =>
    if isWellKey r.addr || r.near then s.depart r delay
    else s.leavesCluster r.h 64 (s.wayTo r) (.farAccessPerform { r with held := false }) fun s => s.depart r delay
/-- Sends a request in this cycle. Behind a TQTRY it leaves once the answer has come: the take may acquire (R270, R337). -/
def State.sendFar (s : State) (r : FarReq) (delay : Nat) : State :=
  let r := { r with sent := s.cycle, left := s.cycle + delay, insn := s.issue.insn }
  if s.takeOut (reqAgent r) s.cycle then s.later 1 (.farAccessPerform { r with held := true }) else s.leave r delay

/-! ### The first-level cache (R248, R249) -/

/-- The mask of n bytes from an offset on. -/
def byteMask (off n : Nat) : Nat := (2 ^ n - 1) * 2 ^ off
/-- Dirty bytes of a sector with their offsets. -/
def dirtyBytes (x : Sector) : List (Nat × Byte) :=
  ((List.range 64).filter (nbit x.dirty)).map fun i => (i, x.data.getD i 0)
/-- The write-back of a sector. -/
def writeBackOf (h n : Nat) (x : Sector) : FarReq :=
  { h := h, pump := none, va := 0, addr := 64 * n, key := x.key, sa := false, op := .writeBack (dirtyBytes x) }
/-- Writes back the dirty bytes of the sectors that p selects, one sector a cycle in ascending order (R249). -/
def State.flush (s : State) (h : Nat) (p : Nat → Bool) : State :=
  let c := coreOf h
  let l := (s.core c).l1.filter fun x => x.2.dirty ≠ 0 && p x.1
  let s := (l.foldl (fun (s, i) (n, x) => (s.sendFar (writeBackOf h n x) i, i + 1)) (s, 0)).1
  s.modCore c fun k => { k with l1 := k.l1.map fun (n, x) => (n, if p n then { x with dirty := 0 } else x) }
/-- A fill of a sector of a core is in flight. -/
def State.filling (s : State) (core n : Nat) : Bool :=
  s.reqs.any fun q => q.pump.isNone && coreOf q.h = core && q.addr / 64 = n && match q.op with | .fill _ => true | _ => false
/-- Makes room for a sector: the device chooses the sector that leaves, among those without a fill in flight (R248, log 4). -/
def State.makeRoom (s : State) (h : Nat) : State :=
  let c := coreOf h
  let l := (s.core c).l1.filter fun x => !s.filling c x.1
  if (s.core c).l1.length < 32768 || l = [] then s
  else
    let (i, s) := s.choose l.length
    match l[i]? with
    | none => s
    | some (n, x) =>
      let s := if x.dirty = 0 then s else s.sendFar (writeBackOf h n x) 0
      s.modCore c fun k => { k with l1 := terase k.l1 n }
/-- The bytes of a sector that a request will write. -/
def writesOf (n : Nat) (r : FarReq) : Nat :=
  match r.op with
  | .writeBack l => l.foldl (fun m x => m ||| 2 ^ x.1) 0
  | op => if farWrites op && r.addr / 64 = n then (2 ^ farBytes op - 1) * 2 ^ (r.addr % 64) else 0
/-- The bytes of a sector that the core's requests on their way will write: what the home holds there is not the core's
latest. -/
def State.onTheirWay (s : State) (core n : Nat) : Nat :=
  (s.reqs.filter fun q => q.pump.isNone && coreOf q.h = core && q.addr / 64 = n).foldl (fun m q => m ||| writesOf n q) 0
/-- A fill arrives: bytes that the sector does not hold take the home's values (R248, R249), but for those that the core has
sent to be written there meanwhile (R266). -/
def State.fillSector (s : State) (h n ks : Nat) (bs : List Byte) : State :=
  let c := coreOf h
  let s := if (tfind (s.core c).l1 n).isSome then s else s.makeRoom h
  let out := s.onTheirWay c n
  s.modCore c fun k =>
    let x := tget { data := bs, valid := 0, dirty := 0, key := ks } k.l1 n
    let data := (List.range 64).map fun i => if nbit x.valid i then x.data.getD i 0 else bs.getD i 0
    let all := 2 ^ 64 - 1
    { k with l1 := tset k.l1 n { x with data := data, valid := x.valid ||| (all - (out &&& all)) } }
/-- A store into the cache (R248): the bytes are dirty from now on; an absent sector is created, and the caller has it
filled. -/
def State.putSector (s : State) (h key ks : Nat) (bs : List Byte) (clean : Bool) : State :=
  let c := coreOf h
  let n := key / 64
  let s := if (tfind (s.core c).l1 n).isSome then s else s.makeRoom h
  s.modCore c fun k =>
    let x := tget { data := List.replicate 64 0, valid := 0, dirty := 0, key := ks } k.l1 n
    let off := key % 64
    let m := byteMask off bs.length
    let data := (List.range 64).map fun i => if off ≤ i && i < off + bs.length then bs.getD (i - off) 0 else x.data.getD i 0
    let d := if clean then x.dirty - (x.dirty &&& m) else x.dirty ||| m
    { k with l1 := tset k.l1 n { x with data := data, valid := x.valid ||| m, dirty := d } }
/-- The bytes of an aligned access that the core's cache holds, if it holds all of them. -/
def State.l1Read (s : State) (core key n : Nat) : Option (List Byte) :=
  match tfind (s.core core).l1 (key / 64) with
  | none => none
  | some x =>
    let m := byteMask (key % 64) n
    if x.valid &&& m = m then some ((x.data.drop (key % 64)).take n) else none
/-- Bytes read at the home, with the core's dirty bytes in their place (R284), also those whose write-back is on its way. -/
def State.mergeDirty (s : State) (core key : Nat) (bs : List Byte) : List Byte :=
  let n := key / 64
  let out := (s.reqs.filter fun q => q.pump.isNone && coreOf q.h = core && reqIsWb q && q.addr / 64 = n).foldl
    (fun t q => match q.op with | .writeBack l => l.foldl (fun t x => tset t x.1 x.2) t | _ => t) ([] : Table Byte)
  let x := tget { data := [], valid := 0, dirty := 0, key := 0 } (s.core core).l1 n
  (List.range bs.length).map fun i =>
    let o := key % 64 + i
    if nbit x.dirty o then x.data.getD o 0 else tget (bs.getD i 0) out o
/-- A store of the core has been performed at the home: the copies of its bytes in the cache take its values (R284), unless they are
dirty or another write of the core to them is on its way. -/
def State.refresh (s : State) (core key : Nat) (bs : List Byte) : State :=
  let n := key / 64
  match tfind (s.core core).l1 n with
  | none => s
  | some x =>
    let keep := x.dirty ||| s.onTheirWay core n
    let data := (List.range 64).map fun i =>
      if key % 64 ≤ i && i < key % 64 + bs.length && !nbit keep i then bs.getD (i - key % 64) 0 else x.data.getD i 0
    s.modCore core fun k => { k with l1 := tset k.l1 n { x with data := data } }

/-! ### Acquires and releases (R249, R268, R270, R279) -/

/-- A tile store of the same thread still covers the line (R270). -/
def State.tileWaits (s : State) (units : List LockUnit) : Bool :=
  s.taccs.any fun x => s.cur = .thread x.2.h && (match x.2.done with | .tst => true | _ => false)
    && x.2.units.any units.contains

/-- A held insertion is a thread's TQADD. -/
def reqAdds (r : TqReq) : Bool := match r.op with | .add _ => true | _ => false
/-- The thread whose access or RED an event still has to perform or acknowledge, and its cycle of issue. -/
def accessOf : Event → Option (Agent × Nat)
  | .wellStoreLand h _ _ _ sent => some (.thread h, sent)
  | .redAck h _ _ sent => some (.thread h, sent)
  | .farAccessPerform r => match r.op with
    | .writeBack _ => none
    | .fill none => none
    | _ => some (reqAgent r, r.sent)
  | .tqRequestPerform r => match r.op with
    | .add _ => some (.thread r.h, r.sent)
    | _ => none
  | _ => none
/-- The first cycle whose accesses are those of the thread, or kernel, that was there in a cycle: an earlier thread of the slot
is another. -/
def State.startOf (s : State) (a : Agent) (at_ : Nat) : Nat :=
  match a with
  | .thread h => (((s.thread h).born :: (s.thread h).borns).filter (· ≤ at_)).foldl max 0
  | .pump c => (s.pump c).since
/-- Whether an access that an agent issued in a cycle from one to before another is still to be performed or acknowledged. -/
def State.anyOut (s : State) (a : Agent) (from_ before : Nat) : Bool :=
  let is (e : Event) : Bool := (accessOf e).any fun x => x.1 = a && from_ ≤ x.2 && x.2 < before
  let tile (e : Event) : Bool := match e with
    | .mldcPerform h t _ => a = .thread h && ((s.core (coreOf h)).mldc t).any fun m => m.rows.isNone && from_ ≤ m.issued && m.issued < before
    | _ => false
  s.anyEvent (fun e => is e || tile e)
    || s.parts.any (fun p => p.2.addWait.any fun r => reqAdds r && a = .thread r.h && from_ ≤ r.sent && r.sent < before)
    || s.taccs.any fun x => from_ ≤ x.2.sent && x.2.sent < before && match x.2.done with
        | .tst => a = .thread x.2.h
        | .qld _ _ => a = .thread x.2.h
        | .qst => a = .thread x.2.h
        | .push c => a = .pump c
        | _ => false
/-- Whether an access that an agent issued before a cycle, but for those of earlier threads of its slot, is still to be performed or
acknowledged. -/
def State.outstanding (s : State) (a : Agent) (before : Nat) : Bool := s.anyOut a (s.startOf a before) before
/-- Whether a thread has an atomic to be answered or acknowledged (R296), or a tile access that has not been performed (R264):
a park waits for it. -/
def State.redLeft (s : State) (h : Nat) : Bool :=
  let from_ := (s.thread h).born
  let is : Event → Bool
    | .redAck g _ _ sent => g = h && from_ ≤ sent
    | .farAccessPerform r => r.h = h && r.pump.isNone && from_ ≤ r.sent && (match r.op with
        | .red _ _ _ => !r.held
        | .amo _ _ _ _ _ _ => true
        | _ => false)
    | _ => false
  s.anyEvent is
    || s.taccs.any fun x => x.2.h = h && from_ ≤ x.2.sent && !x.2.relWait && match x.2.done with
        | .tst => true
        | .qld _ _ => true
        | .qst => true
        | _ => false
/-- Whether a RED or TQADD of a thread is still to be acknowledged (R230). -/
def State.redsOut (s : State) (h : Nat) : Bool :=
  let from_ := (s.thread h).born
  let is : Event → Bool
    | .tqRequestPerform r => r.h = h && from_ ≤ r.sent && (match r.op with | .add _ => true | _ => false)
    | .redAck g _ _ sent => g = h && from_ ≤ sent
    | .farAccessPerform r => r.h = h && r.pump.isNone && from_ ≤ r.sent && (match r.op with | .red _ _ _ => true | _ => false)
    | _ => false
  s.anyEvent is
    || s.parts.any fun p => p.2.addWait.any fun r => reqAdds r && r.h = h && from_ ≤ r.sent
/-- Whether an access with an acquire is still to be performed: it comes before every later operation (R270). -/
def State.acqOut (s : State) (a : Agent) : Bool :=
  s.reqs.any fun r => reqBy r a && match r.op with
    | .load _ _ _ acq => acq.isSome
    | .fill (some (_, _, _, acq)) => acq.isSome
    | .amo _ _ _ _ _ acq => acq.isSome
    | _ => false
/-- Whether an access with a release, a TQADD among them (R337), is still to be performed. -/
def State.relOut (s : State) (a : Agent) : Bool :=
  s.reqs.any (fun r => reqBy r a && r.rel.isSome) || (s.taccs.any fun x => a = .thread x.2.h && x.2.rel.isSome)
    || s.anyEvent (fun e => match e with | .tqRequestPerform r => a = .thread r.h && reqAdds r | _ => false)
    || s.parts.any fun p => p.2.addWait.any fun r => a = .thread r.h && reqAdds r
/-- An access waits for the acquires before it, and one that a release is ordered before also for those (R270). -/
def State.ordered (s : State) (afterRel : Bool) (f : State → State) : State :=
  if s.acqOut s.cur || afterRel && s.relOut s.cur then s.stalls else f s
/-- What ends the thread, is a release that it waits for, or takes from an inbox, waits for the answer of a TQTRY as well, which may acquire
(R270, R337); other instructions issue meanwhile, and what they do is performed behind it. -/
def State.gated (s : State) (afterRel : Bool) (f : State → State) : State :=
  if s.takeOut s.cur (s.cycle + 1) then s.stalls else s.ordered afterRel f
/-- A release at a scope (1 core ... 5 system) begins: the dirty bytes start on their way (R249). -/
def State.releaseBegin (s : State) (a : Agent) (scope : Nat) : State :=
  match a with
  | .thread h => if scope < 2 then s else s.flush h fun _ => true
  | .pump _ => s
/-- Whether a release of an agent that began in a cycle has its conditions (R249, R284). -/
def State.releaseDone (s : State) (a : Agent) (began scope : Nat) : Bool :=
  !s.outstanding a began && (scope < 2 || match a with
    | .thread h => !s.reqs.any fun r => reqIsWb r && coreOf r.h = coreOf h && r.sent ≤ began
    | .pump _ => true)
/-- A release of the agent retires (R279). -/
def State.released (s : State) (a : Agent) (scope : Nat) : State :=
  match a with
  | .thread h => if scope < 2 then s else s.raceClear (coreOf h)
  | .pump _ => s
/-- An access of the agent that issues retires, with an acquire or a release or neither (R279). -/
def State.retires (s : State) (q : Option Nat) : State := q.elim s (s.released s.cur)
/-- The effect of an acquire of a thread at a scope on its core's cache (R249). -/
def State.dropClean (s : State) (h scope : Nat) : State :=
  if scope < 2 then s
  else s.modCore (coreOf h) fun k =>
    { k with l1 := k.l1.filterMap fun (n, x) => if x.dirty = 0 then none else some (n, { x with valid := x.dirty }) }
/-- An acquire or a release of a thread at a scope retires: its core's race marks are forgotten (R279). -/
def State.forgets (s : State) (h scope : Nat) : State := if scope < 2 then s else s.raceClear (coreOf h)
/-- An acquire that takes effect in the cycle in which it retires. -/
def State.acquire (s : State) (h scope : Nat) : State := (s.dropClean h scope).forgets h scope
/-- An instruction that waits until a release has taken effect, and then goes on. -/
def State.withRelease (s : State) (scope : Nat) (f : State → State) : State :=
  match s.cur with
  | .pump _ => if s.releaseDone s.cur s.cycle scope then f s else s.stalls
  | .thread h =>
    let s := if s.self.relAt.isSome then s
      else (s.releaseBegin s.cur scope).modThread h fun t => { t with relAt := some s.cycle }
    if s.releaseDone s.cur (s.self.relAt.getD s.cycle) scope then
      f ((s.modThread h fun t => { t with relAt := none }).released s.cur scope)
    else s.stalls
/-- Sends an access with a release: it leaves once the release has its conditions, and the agent goes on (R284, R296). -/
def State.sendReleasing (s : State) (r : FarReq) (scope delay : Nat) : State :=
  let s := s.releaseBegin s.cur scope
  let r := { r with sent := s.cycle, left := s.cycle + delay, rel := some scope, insn := s.issue.insn }
  if s.releaseDone s.cur s.cycle scope && !s.takeOut s.cur s.cycle then s.leave r delay
  else s.later 1 (.farAccessPerform { r with held := true })
/-- Sends an access, with a release if it has one. -/
def State.sendWith (s : State) (rel : Option Nat) (r : FarReq) (delay : Nat) : State :=
  match rel with
  | none => s.sendFar r delay
  | some scope => (s.released s.cur scope).sendReleasing r scope delay

/-! ### Translation for an instruction that issues (R247) -/

/-- A thread's access waits for the miss of its page. -/
def State.threadJoins (s : State) (h : Nat) (va : Word) (acc : Access) : State :=
  s.joins (s.viewOf h) va.toNat fun m => { m with waits := m.waits ++ [(h, va, acc)] }
/-- The thread waits n cycles for a translation, and issues again. -/
def State.awaitLevel (s : State) (n : Nat) (va : Word) (acc : Access) : State :=
  (s.blocks .walk).later n (.tlbWalkComplete s.me va acc)
/-- Translates for the agent that issues. A thread whose translation misses leaves its rotation until the walk is
done and then issues again; a pump has the walk's cycles added to the access (log 15). -/
def State.withPhys (s : State) (va : Word) (acc : Access) (f : Phys → Nat → State → State) : State :=
  let v := s.view
  match s.translate v va acc with
  | .ok p n => f p n (if n = 0 then s else match s.tlbFind v va.toNat acc with
    | some (e, _) => s.fillTlb v e
    | none => s)
  | .fault c => s.trap c va
  | .miss =>
    let n := s.walkCycles v va.toNat
    let waits : State := (s.blocks .walk).threadJoins s.me va acc
    match s.cur with
    | .thread _ => match s.self.walkFault with
      | some (a, c) => if a = va then s.trap c va else waits
      | none => waits
    | .pump _ => match s.translateNow v va acc with
      | (.ok p, s) => f p n s
      | (.error c, s) => s.trap c va

end Sys2Proof.Machine
end

