-- ==== Sys2Proof/Machine/Csr.lean ====
section
/-!
DEFINITION. Control registers (R13, R48, R49, R63): what each reads as and what a write does, for the thread itself and
for a supervisor (R69).
-/

namespace Sys2Proof.Machine

/-- Registers held per access thread, per execute thread (R48). -/
def csrOfAccess (n : Nat) : Bool := n = 0x020 || n = 0x021 || n = 0x022 || n = 0x030 || n = 0x050
def csrOfExecute (n : Nat) : Bool := n = 0x031 || n = 0x051
/-- THREADID (R13). -/
def threadId (h : Nat) (t : Thread) : Nat :=
  slotOf h + match t.gang with
    | none => 0
    | some (_, n, j) => 2 ^ 3 + (if n = 2 then 1 else if n = 4 then 2 else 3) * 2 ^ 4 + j * 2 ^ 6
/-- The cycle in which the instruction that reads CYCLE has issued; a gang member's may lie back (R28). -/
def State.issueCycle (s : State) : Nat := s.issue.cycle.getD s.cycle
/-- A control register as a thread reads it (R48). -/
def State.csrRead (s : State) (h n : Nat) : Word :=
  let t := s.thread h
  let k := s.core (coreOf h)
  if n = 0x000 then word (threadId h t)
  else if n = 0x001 then word (coreOf h)
  else if n = 0x002 then word k.stage
  else if n = 0x003 then word ((s.partOfCluster (clusterOf h)).getD 0)
  else if n = 0x004 then word t.ctx
  else if n = 0x005 then word s.pf.devIdx
  else if n = 0x010 then t.fflags.zeroExtend 64
  else if n = 0x011 then t.fenable.zeroExtend 64
  else if n = 0x012 then t.frm.zeroExtend 64
  else if n = 0x020 then t.uivec
  else if n = 0x021 then t.uimask
  else if n = 0x022 then word (b2n t.uiEn + 2 * b2n t.uiAct + 2 ^ 8 * k.inbox.length)
  else if n = 0x030 then t.complete
  else if n = 0x031 then t.cwait.zeroExtend 64
  else if n = 0x040 then t.bartmo.zeroExtend 64
  else if n = 0x041 then k.wellwin
  else if n = 0x050 then t.spwidx.zeroExtend 64
  else if n = 0x051 then t.lanecur.zeroExtend 64
  else if n = 0x052 then t.seq.rpt.zeroExtend 64
  else if n = 0x053 then t.seq.skip.zeroExtend 64
  else if n = 0x060 then k.delaySel.zeroExtend 64
  else if n = 0x061 then k.delaySum.zeroExtend 64
  else if n = 0x062 then k.delayCnt.zeroExtend 64
  else if n = 0x070 then word (b2n ((s.cluster (clusterOf h)).raceEn.contains t.ctx))
  else if n = 0x080 then t.trapCause.zeroExtend 64
  else if n = 0x081 then t.trapPc &&& 0x00FFFFFFFFFFFFFF
  else if n = 0x082 then t.trapVal
  else if n = 0x100 then word (s.issueCycle - (s.cluster (clusterOf h)).readyAt)
  else if n = 0x101 then t.instret
  else 0
/-- A write of WELLWIN (R237, R238): every peer's mirror takes its field 6 + 2h cycles later. -/
def State.writeWellwin (s : State) (core : Nat) (v : Word) : State :=
  let s := s.modCore core fun k => { k with wellwin := v }
  forUpto 32 s fun i s =>
    let peer := coreIn (core / 32) i
    if peer = core then s
    else s.later (6 + 2 * hops core peer) (.wellwinMirrorUpdate core peer (BitVec.ofNat 2 (wfield v (2 * i + 1) (2 * i))))
/-- A write of DELAYSEL takes a snapshot of the accumulator that it selects, and clears it if CLR is set (R397). -/
def State.writeDelaySel (s : State) (core : Nat) (v : Word) : State :=
  let i := wfield v 8 0
  s.modCore core fun k =>
    let k := k.settleDelays s.cycle
    let (a, b) := tget (0, 0) k.delays i
    { k with delaySel := BitVec.ofNat 9 i, delaySum := BitVec.ofNat 48 a, delayCnt := BitVec.ofNat 32 b,
             delays := if wbit v 63 then terase k.delays i else k.delays }
/-- A write of a control register's writable fields; others ignore it (R5, R48). A thread that a debug module has halted between two
repeats goes on from the RPT parcel with the REMAIN that is written (R38, R395). -/
def State.csrWrite (s : State) (h n : Nat) (v : Word) : State :=
  let c := coreOf h
  let m (f : Thread → Thread) : State := s.modThread h f
  if n = 0x010 then m fun t => { t with fflags := v.truncate 5 }
  else if n = 0x011 then m fun t => { t with fenable := v.truncate 5 }
  else if n = 0x012 then m fun t => { t with frm := v.truncate 2 }
  else if n = 0x020 then m fun t => { t with uivec := v &&& 0x00FFFFFFFFFFFFFE }
  else if n = 0x021 then m fun t => { t with uimask := v &&& 0x7E }
  else if n = 0x022 then m fun t => { t with uiEn := wbit v 0 }
  else if n = 0x030 then m fun t => { t with complete := v &&& 0x00FFFFFFFFFFFFF9 }
  else if n = 0x040 then m fun t => { t with bartmo := v.truncate 32 }
  else if n = 0x041 then s.writeWellwin c v
  else if n = 0x050 then m fun t => { t with spwidx := v.truncate 32 }
  else if n = 0x051 then m fun t => { t with lanecur := v.truncate 5 }
  else if n = 0x052 then m fun t =>
    let waits : Bool := match t.run with | .blocked _ => true | _ => false
    { t with seq := { t.seq with rpt := v.truncate 7, rptRun := if waits then t.seq.rptRun else none } }
  else if n = 0x053 then m fun t => { t with seq := { t.seq with skip := v.truncate 2 } }
  else if n = 0x060 then s.writeDelaySel c v
  else s
/-- The registers that TSTATW writes and CSRW does not: TRAPCAUSE, TRAPPC, TRAPVAL (R48, R69). -/
def State.trapRegWrite (s : State) (h n : Nat) (v : Word) : State :=
  if n = 0x080 then s.modThread h fun t => { t with trapCause := v.truncate 8 }
  else if n = 0x081 then s.modThread h fun t => { t with trapPc := v &&& 0x00FFFFFFFFFFFFFF }
  else if n = 0x082 then s.modThread h fun t => { t with trapVal := v }
  else s.csrWrite h n v

/-- The checks of R63 that a number's holder and range add. -/
def csrCheck (n : Nat) (s : State) : Option (Nat × Word) :=
  if csrOfAccess n && !isAccess s.me || csrOfExecute n && isAccess s.me then some (2, 0)
  else if 0x080 ≤ n && n ≤ 0x0FF && !s.self.sup then some (3, 0)
  else none
/-- What follows a change of the user-interrupt registers (R96): a message that now qualifies is delivered. -/
def State.seeInterrupts (s : State) (core n : Nat) : State :=
  if (n = 0x021 || n = 0x022) && (s.core core).inbox ≠ [] then s.later 1 (.uiDelivery core) else s

/-- A write with the register's old value (R63). A write to SKIPSTATE acts on what follows the instruction (R44); in a gang each member writes its own,
the leader's annuls, and the members then hold the leader's; R44 leaves open what differing values do (log 18). A repeat of an RPT does not write RPTSTATE, which holds what is
left of that RPT (R38, log 18). -/
def csrModify (i : Instr) (n : BitVec 12) (s : State) (skip : Bool) (f : Word → Word) : Ans :=
  checkedBy i (csrCheck n.toNat) s fun s =>
    let v := f (s.csrRead s.me n.toNat)
    let skip := skip || n.toNat = 0x052 && s.seq.rptRun.isSome
    let s := s.pass i.len
    if skip then s else (s.csrWrite s.me n.toNat v).seeInterrupts s.myCore n.toNat
/-- R63. -/
def execCsrr (n : BitVec 12) (d : Reg) (s : State) : Ans :=
  checkedBy (.csrr n d) (csrCheck n.toNat) s fun s => (s.setX d (s.csrRead s.me n.toNat)).pass 4
/-- R63. -/
def execCsrw (n : BitVec 12) (a : Reg) (s : State) : Ans :=
  csrModify (.csrw n a) n s false fun _ => s.getX a
/-- R63: ra = 0 writes nothing. -/
def execCsrs (n : BitVec 12) (a : Reg) (s : State) : Ans :=
  csrModify (.csrs n a) n s (a = 0) fun v => v ||| s.getX a
/-- R63: ra = 0 writes nothing. -/
def execCsrc (n : BitVec 12) (a : Reg) (s : State) : Ans :=
  csrModify (.csrc n a) n s (a = 0) fun v => v &&& ~~~ s.getX a
/-- R238. -/
def execWellwinMirrorUpdate (s : State) : Ans :=
  onEvent s fun | .wellwinMirrorUpdate owner peer rights => s.modCore peer fun k =>
                    { k with mirror := if rights = 0 then terase k.mirror (coreIdx owner)
                                       else tset k.mirror (coreIdx owner) rights.toNat }
                | _ => s

end Sys2Proof.Machine
end

