-- ==== Sys2Proof/Machine/Flags.lean ====
section
/-!
DEFINITION. Conditions (R41), floating-point events in FFLAGS and FENABLE (R172, R174), and the trap that an
enabled event raises (R365).
-/

namespace Sys2Proof.Machine

/-- The condition of a cond field on two values (R41). -/
def cond (c : BitVec 3) (a b : Word) : Bool :=
  if c = 0 then a = b
  else if c = 1 then a ≠ b
  else if c = 2 then a.slt b
  else if c = 3 then !a.slt b
  else if c = 4 then a.ult b
  else if c = 5 then !a.ult b
  else if c = 6 then a.getLsbD (b.toNat % 64)
  else !a.getLsbD (b.toNat % 64)

/-- A set of floating-point events, laid out as FFLAGS (R172). -/
abbrev Fl := BitVec 5
def flNX : Fl := 1
def flUF : Fl := 2
def flOF : Fl := 4
def flDZ : Fl := 8
def flNV : Fl := 16

/-- ORs events into a thread's FFLAGS. -/
def raiseFl (h : Nat) (f : Fl) (s : State) : State := s.modThread h fun t => { t with fflags := t.fflags ||| f }
/-- Whether a set of events holds an enabled one. -/
def enabledFl (t : Thread) (f : Fl) : Bool := f &&& t.fenable ≠ 0
/-- The lowest lane whose events include an enabled one (R174). -/
def trapLane (en : Fl) (lanes : List Fl) : Nat := lanes.findIdx fun f => f &&& en ≠ 0
/-- TRAPVAL of an enabled event: events in [4:0], lane in [14:8] (R174). -/
def fpVal (f : Fl) (lane : Nat) : Word := word (f.toNat + lane * 256)
/-- The events of all lanes, ORed together. -/
def orFl (lanes : List Fl) : Fl := lanes.foldl (· ||| ·) 0
/-- The end of an instruction whose lanes raised events (R174): the events go to FFLAGS; an enabled one traps with
no other effect, otherwise the effect follows. -/
def withEvents (lanes : List Fl) (s : State) (f : State → State) : State :=
  let t := s.self
  let all := orFl lanes
  let s' := raiseFl s.me all s
  if enabledFl t all then s'.trap 9 (fpVal all (trapLane t.fenable lanes)) else f s'

end Sys2Proof.Machine
end

