-- ==== Sys2Proof/Machine/Float.lean ====
section
/-!
DEFINITION. Number formats (R104-R107), rounding (R108-R110), exact arithmetic, the F32 addition and maximum of a home
slice (R229, R295), the CB4 codebook (R112) and block scales (R113).
-/

namespace Sys2Proof.Machine

/-! ### Formats (R104) -/

/-- The floating-point formats. -/
inductive FF where
  | f32 | h16 | b16 | e4 | e5
  deriving DecidableEq, Repr
/-- Bits of a format, of its fraction, and its bias. -/
def FF.width : FF → Nat | .f32 => 32 | .h16 => 16 | .b16 => 16 | .e4 => 8 | .e5 => 8
def FF.frac : FF → Nat | .f32 => 23 | .h16 => 10 | .b16 => 7 | .e4 => 3 | .e5 => 2
def FF.bias : FF → Nat | .f32 => 127 | .h16 => 15 | .b16 => 127 | .e4 => 7 | .e5 => 15
/-- The exponent field of infinities and NaNs, or of the topmost numbers of F8E4. -/
def FF.top (f : FF) : Nat := 2 ^ (f.width - 1 - f.frac) - 1
/-- The exponent of the largest finite magnitude, and its significand as an integer. -/
def FF.emax : FF → Nat | .f32 => 127 | .h16 => 15 | .b16 => 127 | .e4 => 8 | .e5 => 15
def FF.maxSig (f : FF) : Nat := if f = .e4 then 14 else 2 ^ (f.frac + 1) - 1
/-- R105. -/
def FF.canonNaN : FF → Nat | .f32 => 0x7FC00000 | .h16 => 0x7E00 | .b16 => 0x7FC0 | .e4 => 0x7F | .e5 => 0x7E
/-- The code of an infinity; of the largest finite magnitude. -/
def FF.inf (f : FF) (neg : Bool) : Nat := b2n neg * 2 ^ (f.width - 1) + f.top * 2 ^ f.frac
def FF.maxCode (f : FF) (neg : Bool) : Nat :=
  b2n neg * 2 ^ (f.width - 1) + (f.emax + f.bias - 1) * 2 ^ f.frac + f.maxSig
/-- The code of a zero. -/
def FF.zero (f : FF) (neg : Bool) : Nat := b2n neg * 2 ^ (f.width - 1)

/-- A value: (−1)^neg × n / d when finite. -/
inductive FVal where
  | nan
  | inf (neg : Bool)
  | fin (neg : Bool) (n d : Nat)
  deriving DecidableEq, Repr
/-- (−1)^neg × m × 2^k. -/
def scaled (neg : Bool) (m : Nat) (k : Int) : FVal :=
  if 0 ≤ k then .fin neg (m * 2 ^ k.toNat) 1 else .fin neg m (2 ^ (-k).toNat)
/-- The value of a code (R104). -/
def FF.val (f : FF) (c : Nat) : FVal :=
  let neg := nbit c (f.width - 1)
  let e := field c (f.width - 2) f.frac
  let m := c % 2 ^ f.frac
  if f = .e4 then
    if e = 15 && m = 7 then .nan
    else scaled neg (if e = 0 then m else m + 8) ((max e 1 : Nat) - 7 - 3 : Int)
  else if e = f.top then (if m = 0 then .inf neg else .nan)
  else scaled neg (if e = 0 then m else m + 2 ^ f.frac) ((max e 1 : Nat) - (f.bias + f.frac : Nat) : Int)
/-- A signalling NaN (R105). -/
def FF.isSig (f : FF) (c : Nat) : Bool := f ≠ .e4 && f.val c = .nan && !nbit c (f.frac - 1)
def FF.isNaN (f : FF) (c : Nat) : Bool := f.val c = .nan
/-- NV for operands that hold a signalling NaN. -/
def sigFl (f : FF) (cs : List Nat) : Fl := if cs.any f.isSig then flNV else 0

/-! ### Rounding (R108, R109) -/

/-- RoundInt of a / b for a magnitude of the given sign; modes 0 RNE, 1 RTZ, 2 RUP, 3 RDN. -/
def roundInt (a b mode : Nat) (neg : Bool) : Nat :=
  let q := a / b
  let r := a % b
  if r = 0 then q
  else if mode = 0 then (if b < 2 * r || 2 * r = b && q % 2 = 1 then q + 1 else q)
  else if mode = 1 then q
  else if mode = 2 then (if neg then q else q + 1)
  else (if neg then q + 1 else q)
/-- Floor(Log2(n / d)) of a positive quotient. -/
def floorLog2 (n d : Nat) : Int :=
  let k : Int := (Nat.log2 n : Int) - Nat.log2 d
  let ge : Bool := if 0 ≤ k then d * 2 ^ k.toNat ≤ n else d ≤ n * 2 ^ (-k).toNat
  if ge then k else k - 1
/-- Round of R109: the code and the flags. -/
def FF.round (f : FF) (v : FVal) (mode : Nat) : Nat × Fl :=
  match v with
  | .nan => (f.canonNaN, 0)
  | .inf neg => if f = .e4 then (f.maxCode neg, flOF) else (f.inf neg, 0)
  | .fin neg n d =>
    if n = 0 then (f.zero neg, 0)
    else
      let emin : Int := 1 - (f.bias : Int)
      let e := max (floorLog2 n d) emin
      let t : Int := e - f.frac
      let a := if 0 ≤ t then n else n * 2 ^ (-t).toNat
      let b := if 0 ≤ t then d * 2 ^ t.toNat else d
      let m := roundInt a b mode neg
      let nx : Fl := if a % b = 0 then 0 else flNX
      if (f.emax : Int) < e || e = f.emax && f.maxSig < m then
        let fl := flOF ||| flNX
        if f = .e4 then (f.maxCode neg, fl)
        else if mode = 0 then (f.inf neg, fl)
        else if mode = 1 then (f.maxCode neg, fl)
        else if mode = 2 then ((if neg then f.maxCode neg else f.inf neg), fl)
        else ((if neg then f.inf neg else f.maxCode neg), fl)
      else
        let uf : Fl := if nx ≠ 0 && e = emin && m < 2 ^ f.frac then flUF else 0
        (b2n neg * 2 ^ (f.width - 1) + (e - emin).toNat * 2 ^ f.frac + m, nx ||| uf)

/-! ### Exact arithmetic -/

/-- The exact sum; a zero of opposite signs is +0, −0 in RDN (R106). An invalid sum is NaN. -/
def FVal.add (mode : Nat) : FVal → FVal → FVal
  | .nan, _ => .nan
  | _, .nan => .nan
  | .inf a, .inf b => if a = b then .inf a else .nan
  | .inf a, _ => .inf a
  | _, .inf b => .inf b
  | .fin a n d, .fin b m e =>
    let x := n * e
    let y := m * d
    if a = b then .fin a (x + y) (d * e)
    else if x = y then .fin (mode = 3) 0 1
    else if y < x then .fin a (x - y) (d * e)
    else .fin b (y - x) (d * e)
def FVal.neg : FVal → FVal
  | .nan => .nan
  | .inf a => .inf (!a)
  | .fin a n d => .fin (!a) n d
def FVal.isZero : FVal → Bool
  | .fin _ n _ => n = 0
  | _ => false
def FVal.sign : FVal → Bool
  | .nan => false
  | .inf a => a
  | .fin a _ _ => a
/-- The exact product; 0 × ∞ is NaN. -/
def FVal.mul : FVal → FVal → FVal
  | .nan, _ => .nan
  | _, .nan => .nan
  | .fin a n d, .fin b m e => .fin (a != b) (n * m) (d * e)
  | x, y => if x.isZero || y.isZero then .nan else .inf (x.sign != y.sign)
/-- The exact quotient; 0 / 0 and ∞ / ∞ are NaN, a finite value by zero is an infinity. -/
def FVal.div : FVal → FVal → FVal
  | .nan, _ => .nan
  | _, .nan => .nan
  | .inf _, .inf _ => .nan
  | .inf a, .fin b _ _ => .inf (a != b)
  | .fin a _ _, .inf b => .fin (a != b) 0 1
  | .fin a n d, .fin b m e =>
    if m = 0 then (if n = 0 then .nan else .inf (a != b)) else .fin (a != b) (n * e) (d * m)
/-- x < y for values that are no NaN; zeros are equal. -/
def FVal.lt : FVal → FVal → Bool
  | .nan, _ => false
  | _, .nan => false
  | .inf a, .inf b => a && !b
  | .inf a, _ => a
  | _, .inf b => !b
  | .fin a n d, .fin b m e =>
    let x := n * e
    let y := m * d
    if x = 0 && y = 0 then false
    else if a && !b then true
    else if !a && b then false
    else if a then y < x else x < y
/-- NV if an operation on values that are no NaN gives one. -/
def invalid (xs : List FVal) (r : FVal) : Fl := if r = .nan && !xs.contains .nan then flNV else 0

/-- A rounded operation on codes of one format: NaN operands give the canonical NaN (R105). -/
def FF.op (f : FF) (mode : Nat) (cs : List Nat) (g : List FVal → FVal) : Nat × Fl :=
  let vs := cs.map f.val
  let r := g vs
  let (c, fl) := f.round r mode
  (c, fl ||| sigFl f cs ||| invalid vs r)
def FF.add (f : FF) (mode a b : Nat) : Nat × Fl := f.op mode [a, b] fun vs => (vs.getD 0 .nan).add mode (vs.getD 1 .nan)
def FF.sub (f : FF) (mode a b : Nat) : Nat × Fl :=
  f.op mode [a, b] fun vs => (vs.getD 0 .nan).add mode (vs.getD 1 .nan).neg
def FF.mul (f : FF) (mode a b : Nat) : Nat × Fl := f.op mode [a, b] fun vs => (vs.getD 0 .nan).mul (vs.getD 1 .nan)
/-- c + a × b, rounded once; 0 × ∞ raises NV whatever c is. -/
def FF.fma (f : FF) (mode c a b : Nat) (negProd : Bool) : Nat × Fl :=
  let p := (f.val a).mul (f.val b)
  let p := if negProd then p.neg else p
  let (r, fl) := f.op mode [c, a, b] fun vs => (vs.getD 0 .nan).add mode p
  (r, fl ||| invalid [f.val a, f.val b] p)
/-- The total order of numbers in which −0 is smaller than +0. -/
def FF.less (f : FF) (a b : Nat) : Bool :=
  (f.val a).lt (f.val b) || (f.val a).isZero && (f.val b).isZero && nbit a (f.width - 1) && !nbit b (f.width - 1)
/-- The larger value (R295, R150). -/
def FF.max (f : FF) (a b : Nat) : Nat × Fl :=
  if f.isNaN a || f.isNaN b then (f.canonNaN, sigFl f [a, b]) else ((if f.less a b then b else a), 0)
def FF.min (f : FF) (a b : Nat) : Nat × Fl :=
  if f.isNaN a || f.isNaN b then (f.canonNaN, sigFl f [a, b]) else ((if f.less b a then b else a), 0)

/-! ### Integers and conversions (R107, R110) -/

/-- An integer as a value. -/
def ofIntVal (i : Int) : FVal := .fin (i < 0) i.natAbs 1
/-- A rounded conversion of a value to an integer range (R110). -/
def toIntRange (v : FVal) (mode : Nat) (lo hi : Int) : Int × Fl :=
  match v with
  | .nan => (0, flNV)
  | .inf neg => ((if neg then lo else hi), flNV)
  | .fin neg n d =>
    let m := roundInt n d mode neg
    let r : Int := if neg then -(m : Int) else m
    if r < lo then (lo, flNV)
    else if hi < r then (hi, flNV)
    else (r, if n % d = 0 then 0 else flNX)
def clampInt (v lo hi : Int) : Int := if v < lo then lo else if hi < v then hi else v

/-! ### The codebook and scales (R112, R113) -/

/-- v_k of a CB4 code. -/
def cb4 (k : Nat) : Int :=
  [-64, -47, -36, -27, -20, -13, -6, 0, 6, 12, 19, 26, 34, 43, 53, 64].getD (k % 16) 0
/-- The value v_k / 64 of a CB4 code. -/
def cb4Val (k : Nat) : FVal := .fin (cb4 k < 0) (cb4 k).natAbs 64
/-- m(c) of an S8 code. -/
def blockScale (c : Nat) : FVal := .fin false (16 + c % 16) (32 * 2 ^ (c / 16))
/-- A superscale that an instruction may apply: positive and finite (R115). -/
def superscaleOk (c : Nat) : Bool := match FF.f32.val c with
  | .fin neg n _ => !neg && n ≠ 0
  | _ => false

/-! ### Descriptor formats (R122) -/

/-- The floating-point format of an FMT code, if it is one. -/
def fmtFloat (fmt : Nat) : Option FF :=
  if fmt = 0 then some .f32 else if fmt = 1 then some .b16 else if fmt = 2 then some .h16
  else if fmt = 3 then some .e4 else if fmt = 4 then some .e5 else none
/-- The element size in bytes of an FMT code; CB4 counts as 1. -/
def fmtSize (fmt : Nat) : Nat :=
  [4, 2, 2, 1, 1, 4, 2, 1, 4, 2, 1, 1, 8, 8].getD fmt 1

end Sys2Proof.Machine
end

