-- ==== Sys2Proof/Machine/Branch.lean ====
section
/-!
DEFINITION. Compare-skips and branches (R57-R62), the control parcels RPT and NOP16 (R35-R38), NOP, TRAP and BKPT
(R65).
-/

namespace Sys2Proof.Machine

/-- A control transfer to t (R32, R62, R318): an odd target, or on a pump one outside its overlay, raises cause 0x04;
otherwise `f` is done and the transfer takes place. A taken transfer is traced (R396). -/
def transferTo (t : Word) (s : State) (f : State → State) : State :=
  let bad := wbit t 0 || (match s.cur with | .pump _ => 4095 < t.toNat | .thread _ => false)
  if bad then s.trap 4 t
  else
    let pc := s.pc
    let s := (f s).jump t
    match s.cur with
    | .thread h => traceEvent (clusterOf h) 5 h 0 pc s
    | .pump _ => s

/-- R57: the condition holds, so the next sk instructions are annulled (R43, R44). -/
def compareSkip (i : Instr) (k : BitVec 2) (c : BitVec 3) (s : State) (a b : Word) : Ans :=
  checked i s fun s =>
    let s := s.pass 4
    if cond c a b then s.modSeq fun q => { q with skip := k } else s
def execSk (b a : Reg) (k : BitVec 2) (c : BitVec 3) (s : State) : Ans :=
  compareSkip (.sk b a k c) k c s (s.getX a) (s.getX b)
def execSki (i : BitVec 15) (a : Reg) (k : BitVec 2) (c : BitVec 3) (s : State) : Ans :=
  compareSkip (.ski i a k c) k c s (s.getX a) (imm i)

/-- R58. -/
def execBCc (o : BitVec 10) (b a : Reg) (p : BitVec 2) (c : BitVec 3) (s : State) : Ans :=
  checked (.bCc o b a p c) s fun s =>
    if cond c (s.getX a) (s.getX b) then transferTo (s.pc + parcels (offB o p)) s id else s.pass 4
/-- R59. -/
def execBr (i : BitVec 25) (s : State) : Ans :=
  checked (.br i) s fun s => transferTo (s.pc + parcels i) s id
/-- R59. -/
def execCall (i : BitVec 25) (s : State) : Ans :=
  checked (.call i) s fun s => transferTo (s.pc + parcels i) s fun s => s.setX 30 (s.pc + 4)
/-- R60: the target is computed before x[rd] is written. -/
def execJalr (i : BitVec 15) (a d : Reg) (s : State) : Ans :=
  checked (.jalr i a d) s fun s =>
    transferTo (s.getX a + imm i) s fun s => s.setX d (s.pc + 4)
/-- R61: rd = 0 raises cause 0x02. -/
def execLoop (i : BitVec 15) (d : Reg) (s : State) : Ans :=
  checkedBy (.loop i d) (fun _ => if d = 0 then some (2, 0) else none) s fun s =>
    let n := s.getX d - 1
    if n = 0 then (s.setX d n).pass 4 else transferTo (s.pc + parcels i) s fun s => s.setX d n

/-- R35: takes an issue slot and counts in INSTRET. -/
def execNop16 (s : State) : Ans := checked .nop16 s fun s => s.pass 2
/-- R65. -/
def execNop (s : State) : Ans := checked .nop s fun s => s.pass 4
/-- R65. -/
def execTrap (a : Reg) (s : State) : Ans := checked (.trap a) s fun s => s.trap 0x0D (s.getX a)
/-- R65. -/
def execBkpt (s : State) : Ans := checked .bkpt s fun s => s.trap 0x0E 0

/-- Whether the step mask D, A, B may be used with a target (R36, R37). -/
def stepOk (i : Instr) (r : RptRun) : Bool :=
  match i.rptFields with
  | some (d, a, b) => (!r.d || d) && (!r.a || a) && (!r.b || b)
  | none => false
/-- The instruction of a word or parcel. -/
def decodeInsn (parcel : Bool) (w : Nat) : Option Instr := if parcel then decodeParcel w else decodeWord w
/-- The instruction that a blocked thread had issued, with the register numbers of its repeat (R36). -/
def blockedInsn (t : Thread) : Option Instr :=
  let w := match t.seq.rptRun with
    | some r => stepWord (t.insn % 2 = 0) r (r.n - t.seq.rpt.toNat) t.insn
    | none => some t.insn
  w.bind fun w => decodeInsn (w % 2 = 0) w
/-- Whether RPT accepts the target word w: it is an instruction, may be repeated, and the mask fits; on a pump it is not PEND (R37). -/
def rptTargetOk (pump : Bool) (r : RptRun) (parcel : Bool) (w : Nat) : Bool :=
  match decodeInsn parcel w with
  | some .pend => !pump && stepOk .pend r
  | some i => i.wf && stepOk i r
  | none => false
/-- R36-R38: the parcel takes no issue slot; REMAIN = 0 starts at repeat 0, another REMAIN goes on from repeat
n − REMAIN. The target stands in the upper bits of `issue.insn`, where `step` puts what follows an RPT parcel. -/
def execRpt (p q r : BitVec 1) (n : BitVec 6) (s : State) : Ans :=
  let count := n.toNat + 1
  let run : RptRun := { n := count, d := p = 1, a := q = 1, b := r = 1 }
  let target := s.issue.insn / 2 ^ 16
  let parcel := target % 2 = 0
  let w := if parcel then target % 2 ^ 16 else target % 2 ^ 32
  let pump : Bool := match s.cur with | .pump _ => true | .thread _ => false
  checkedBy (.rpt p q r n) (fun s =>
      if !rptTargetOk pump run parcel w then some (1, 0)
      else if count < s.seq.rpt.toNat then some (2, 0)
      else none) s fun s =>
    s.modSeq fun q => { q with rptRun := some run, rpt := if q.rpt = 0 then BitVec.ofNat 7 count else q.rpt }

/-- R47: a word or parcel that is not an instruction. -/
def execIllegalInstruction (s : State) : Ans :=
  .next (if s.ev.isSome then s else s.trap 1 0)

end Sys2Proof.Machine
end

