-- ==== Sys2Proof/Machine/System.lean ====
section
/-!
DEFINITION. System instructions (R64-R71, R414): FENCEI, ERET, HALT, TLBI, and the supervisor's operations on other
threads; THRCMD of the host performs the same operations (R381). Page walks that end (R247).
-/

namespace Sys2Proof.Machine

/-- R72: forbidden in a gang. -/
def noGang (s : State) : Option (Nat × Word) := if s.self.gang.isSome then some (0x11, 0) else none

/-- R66. -/
def execFencei (s : State) : Ans :=
  checked .fencei s fun s => (s.modCore s.myCore fun k => { k with icache := [] }).pass 4
/-- R68. -/
def execEret (a : Reg) (s : State) : Ans :=
  checkedBy (.eret a) noGang s fun s =>
    transferTo (s.getX a) s fun s => s.modSelf fun t => { t with sup := false }
/-- R68: no trap record; the thread continues after it only by RUN (R394). -/
def execHalt (s : State) : Ans :=
  checkedBy .halt noGang s fun s => (s.pass 4).modSelf fun t => { t with run := .halted }

/-! ### TLBI (R67) -/

/-- A translation that TLBI removes, for a partition. -/
def tlbiHits (s : State) (p : Nat) (va ctl : Word) (e : TlbEntry) : Bool :=
  (s.ctx e.ctx).any (·.part = p) && (wbit ctl 17 || e.ctx = wfield ctl 9 0)
    && (wbit ctl 16 || e.va / 2 ^ e.size = va.toNat / 2 ^ e.size)
/-- Removes translations from every level, and with ALLVA from the walkers' caches (R247). -/
def State.invalidate (s : State) (p : Nat) (va ctl : Word) : State :=
  let keep (e : TlbEntry) : Bool := !tlbiHits s p va ctl e
  let ctxHit (c : Nat) : Bool := (s.ctx c).any (·.part = p) && (wbit ctl 17 || c = wfield ctl 9 0)
  { s with
    cores := tmap (fun _ k => { k with tlb := k.tlb.filter keep }) s.cores
    clusters := tmap (fun _ k => { k with tlb := k.tlb.filter keep }) s.clusters
    dies := tmap (fun _ d => { d with tlb := d.tlb.filter keep,
                                      walk := if wbit ctl 16 then d.walk.filter fun x => !ctxHit x.1 else d.walk }) s.dies }
/-- Whether every granule of a partition lies on a die (R67). -/
def allOnDie (q : Part) (die : Nat) : Bool := q.granules.all (· / 4 = die)
/-- R67: it can retire when its figure has passed. -/
def execTlbi (b a : Reg) (s : State) : Ans :=
  checkedBy (.tlbi b a) noGang s fun s =>
    let h := s.me
    let p := s.partOfCluster (clusterOf h)
    let n := match p.bind s.part with
      | some q => if allOnDie q (dieOf h) then 60 else 110
      | none => 60
    (s.blocks (.tlbi (s.getX a) (s.getX b))).later n (.tlbiRetire h)
/-- A walk of the partition that began before the TLBI of thread h has not finished. -/
def State.walksOut (s : State) (h : Nat) : Bool :=
  s.dies.any fun d => d.2.misses.any fun x => x.2.since ≤ (s.thread h).since
    && (s.ctx x.2.ctx).any fun c => some c.part = s.partOfCluster (clusterOf h)
/-- R67: the thread retires TLBI, once every walk begun before it has finished. -/
def execTlbiRetire (s : State) : Ans :=
  onEvent s fun | .tlbiRetire h => match (s.thread h).run with
                    | .blocked (.tlbi va ctl) =>
                      if s.walksOut h then s.later 1 (.tlbiRetire h) else
                      let s := s.invalidate ((s.partOfCluster (clusterOf h)).getD 0) va ctl
                      (s.passOf h 4).goesOn h
                    | _ => s
                | _ => s

/-! ### Walks (R247) -/

/-- Threads that wait for a miss go on: with their translations, or with the faults that they will find (R244, R247); a cause of the walk's own
holds for all of them. -/
def wakeWaits (die : Nat) (m : Miss) (cause : Option Nat) (s : State) : State :=
  let fail (c g : Nat) (a : Word) (s : State) : State := s.modThread g fun t => { t with walkFault := some (a, c) }
  m.waits.foldl (fun s (h, va, acc) =>
    if (s.thread h).run ≠ .blocked .walk || (s.thread h).ctx ≠ m.ctx || dieOf h ≠ die then s
    else match cause with
      | some c => (fail c h va s).goesOn h
      | none => match s.walk (s.viewOf h) va.toNat acc with
        | (.ok _, s) => s.goesOn h
        | (.error c, s) => (fail c h va s).goesOn h) s
/-- The TLBs of the engines that wait take their translations. -/
def wakeEngines (die : Nat) (m : Miss) (s : State) : State :=
  m.engines.foldl (fun s (core, va, acc) => (s.walk { ctx := m.ctx, sup := true, die := die, core := core } va.toNat acc).2) s
/-- The miss that entered first of those without a walker has the one that is free now (R247). -/
def nextMiss (die : Nat) (s : State) : State :=
  match minBy Prod.fst ((s.die die).misses.filter fun x => !x.2.begun) with
  | some (id, _) => s.walkBegins die id
  | none => s
/-- A miss is over: every access that waits for it has its answer in this cycle. -/
def missOver (die id : Nat) (m : Miss) (cause : Option Nat) (s : State) : State :=
  let s := wakeWaits die m cause (s.modDie die fun d => { d with misses := terase d.misses id })
  nextMiss die (if cause.isNone then wakeEngines die m s else s)
/-- A walker reads a table (R246, R413), once the limits of its home let it in (R377): it waits for what is not usable yet (R399) and for locks (R260), and fails over a link that cannot
recover (R380). Behind its last read the miss is over. -/
def walkerReads (die id : Nat) (m : Miss) (a : Nat) (s : State) : State :=
  let again (n : Nat) (s : State) : State := s.later n (.walkRead die id)
  if !m.entered then (s.modMiss die id fun m => { m with entered := true }).arrivesAt a 64 (.walkRead die id) (again 0)
  else if s.unready a then again 1 s
  else if s.onDeadLink a then missOver die id m (some 6) s
  else if s.missesLine a && !m.late then again (420 - s.nearLatency die a) (s.modMiss die id fun m => { m with late := true })
  else s.atUnits (.walk die id) 0 false (linesOf a 8) (again 1) fun s =>
    let m := { m with read := m.read ++ [a], late := false, entered := false }
    let s := (s.holdLine a).modMiss die id fun _ => m
    if s.unread die m = [] then missOver die id m none s else s.walkOn die id 0
/-- The way of a translation from the cluster's or the die's TLB ends, and the thread issues again in this cycle; or a walker reads, or
ends (R244, R246, R247). -/
def execTlbWalkComplete (s : State) : Ans :=
  onEvent s fun | .tlbWalkComplete h va acc => (match (s.thread h).run with
                    | .blocked .walk => (match s.tlbFind (s.viewOf h) va.toNat acc with
                      | some (e, _) => s.fillTlb (s.viewOf h) e
                      | none => s).goesOn h
                    | _ => s)
                | .walkRead die id => (match tfind (s.die die).misses id with
                    | none => s
                    | some m => match s.unread die m with
                      | a :: _ => walkerReads die id m a s
                      | [] => missOver die id m none s)
                | _ => s

/-! ### A supervisor's operations on threads (R69-R71) -/

/-- Check 1 of R70: the handle names a thread of the partition. -/
def handleOk (s : State) (p : Nat) (w : Word) : Bool :=
  match handleOf w with
  | some h => s.partOfCluster (clusterOf h) = some p
  | none => false
/-- Check 2 of R70: class and item of a selector, for a target. -/
def selectorOk (sel : Word) (h : Nat) : Bool :=
  let item := wfield sel 11 0
  let cls := wfield sel 15 12
  if cls = 0 then item < 64 && (item < 32 || isAccess h && 24 ≤ item - 32 && item - 32 ≤ 29)
  else if cls = 1 then csrAssigned item
  else if cls = 2 then item = 0
  else if cls = 3 then item < 512 && !isAccess h
  else if cls = 4 then item < 64 && item % 16 ≤ 5 && !isAccess h
  else cls = 5 && item = 0
/-- The run state as R69 reads it. A parked thread that a halt of its cluster stops as well reads 2 and still counts as parked for
the checks of R70 (log 18). -/
def runState (t : Thread) : Nat :=
  match t.run with
  | .unused => 3
  | .exited => 3
  | .halted => 2
  | .parked => if t.dbgStop then 2 else 1
  | .ready => if t.dbgStop then 2 else 0
  | .blocked _ => if t.dbgStop then 2 else 0
/-- Word k of a vector register, of a wide accumulator (R69). -/
def vWord (v : VReg) (k : Nat) : Word := word (v.toNat / 2 ^ (64 * k))
def vSetWord (v : VReg) (k : Nat) (w : Word) : VReg :=
  BitVec.ofNat 1024 (v.toNat - (vWord v k).toNat * 2 ^ (64 * k) + w.toNat * 2 ^ (64 * k))
def wAccWord (a : WAcc) (k : Nat) : Word :=
  if k < 5 then word (a.val.toNat / 2 ^ (64 * k)) else word (b2n a.pinf + 2 * b2n a.ninf + 4 * b2n a.nan)
def wAccSetWord (a : WAcc) (k : Nat) (w : Word) : WAcc :=
  if k < 5 then
    { a with val := BitVec.ofNat 320 (a.val.toNat - a.val.toNat / 2 ^ (64 * k) % 2 ^ 64 * 2 ^ (64 * k) + w.toNat * 2 ^ (64 * k)) }
  else { a with pinf := wbit w 0, ninf := wbit w 1, nan := wbit w 2 }
def Thread.getV (t : Thread) (n : Nat) : VReg := t.v[n % 32]'(Nat.mod_lt _ (by decide))
def Thread.setV (t : Thread) (n : Nat) (v : VReg) : Thread :=
  { t with v := t.v.set (n % 32) v (Nat.mod_lt _ (by decide)) }
def Thread.getW (t : Thread) (n : Nat) : WAcc := t.w[n % 4]'(Nat.mod_lt _ (by decide))
def Thread.setW (t : Thread) (n : Nat) (a : WAcc) : Thread :=
  { t with w := t.w.set (n % 4) a (Nat.mod_lt _ (by decide)) }
/-- Reads an item of a thread's state (R69). A control register that the target's role does not hold is a register of its own
that nothing else uses (log 18). -/
def State.itemRead (s : State) (h : Nat) (sel : Word) : Word :=
  let t := s.thread h
  let item := wfield sel 11 0
  let cls := wfield sel 15 12
  if cls = 0 then
    if item < 32 then t.seq.get (BitVec.ofNat 5 item) else t.shadow[(item - 56) % 6]'(Nat.mod_lt _ (by decide))
  else if cls = 1 then s.csrRead h item
  else if cls = 2 then t.seq.pc
  else if cls = 3 then vWord (t.getV (item / 16)) (item % 16)
  else if cls = 4 then wAccWord (t.getW (item / 16)) (item % 16)
  else word (runState t)
/-- Writes an item (R69); a write of the run state requests a park. -/
def State.itemWrite (s : State) (h : Nat) (sel v : Word) : State :=
  let item := wfield sel 11 0
  let cls := wfield sel 15 12
  if cls = 0 then
    s.modThread h fun t =>
      if item < 32 then { t with seq := t.seq.put (BitVec.ofNat 5 item) v }
      else { t with shadow := t.shadow.set ((item - 56) % 6) v (Nat.mod_lt _ (by decide)) }
  else if cls = 1 then s.trapRegWrite h item v
  else if cls = 2 then s.modThread h fun t => { t with seq := { t.seq with pc := v, rptRun := none } }
  else if cls = 3 then s.modThread h fun t => t.setV (item / 16) (vSetWord (t.getV (item / 16)) (item % 16) v)
  else if cls = 4 then s.modThread h fun t => t.setW (item / 16) (wAccSetWord (t.getW (item / 16)) (item % 16) v)
  else match (s.thread h).run with
    | .ready | .blocked _ => (s.modThread h fun t => { t with parkReq := true }).later 1 (.parkRequestEffect h)
    | _ => s
/-- A parked thread is back in its rotation (R71); a break that it parked on is passed once (R391). -/
def State.resume (s : State) (h : Nat) : State :=
  s.modThread h fun t =>
    { t with run := .ready, notBefore := s.cycle + 1, record := none, walkFault := none, dataError := false,
             brkSkip := t.brkSkip || (t.trapCause = 0x0E && t.trapVal = 1) }
/-- Check 3 of R70 and R71, and the operation. -/
def supEffect (op : SupOp) (s : State) : SupResult × State :=
  match handleOf op.handle with
  | none => (.refused 6 op.handle, s)
  | some h =>
    let t := s.thread h
    let parked : Bool := t.run = .parked
    match op.kind with
    | .read =>
      if wfield op.sel 15 12 ≠ 5 && !parked then (.refused 2 0, s) else (.value (s.itemRead h op.sel), s)
    | .write =>
      if wfield op.sel 15 12 ≠ 5 && !parked then (.refused 2 0, s)
      else (.done, (s.itemWrite h op.sel op.value).seeInterrupts (coreOf h) (if wfield op.sel 15 12 = 1 then wfield op.sel 11 0 else 0))
    | .resume => if !parked || t.dbgStop then (.refused 2 0, s) else (.done, (s.resume h).seeInterrupts (coreOf h) 0x022)
/-- Checks 1 and 2 of R70, with the operand checks of R69; a run state other than 1 is refused at issue (log 18). -/
def supCheck (s : State) (p : Nat) (kind : SupKind) (handle sel v : Word) : Option (Nat × Word) :=
  if !handleOk s p handle then some (6, handle)
  else match kind with
    | .resume => none
    | _ =>
      if !selectorOk sel (handle.toNat % 4096) then some (2, 0)
      else if kind = .write && wfield sel 15 12 = 2 && wbit v 0 then some (4, v)
      else if kind = .write && wfield sel 15 12 = 5 && v ≠ 1 then some (2, 0)
      else none
/-- The way of an operation and of its reply (R414). -/
def supDelay (a b : Nat) : Nat × Nat :=
  if clusterOf a = clusterOf b then (6 + 2 * hops (coreOf a) (coreOf b), 6 + 2 * hops (coreOf a) (coreOf b))
  else if dieOf a = dieOf b then (30, 30) else (55, 55)
/-- TRESUME, TSTATR, TSTATW: the operation leaves for the target's core; the thread waits for the reply. -/
def supIssue (i : Instr) (kind : SupKind) (handle sel v : Word) (rd : Reg) (s : State) : Ans :=
  checkedBy i (fun s => (noGang s).orElse fun _ =>
      supCheck s ((s.partOfCluster (clusterOf s.me)).getD 0) kind handle sel v) s fun s =>
    let op : SupOp := { part := (s.partOfCluster (clusterOf s.me)).getD 0, issuer := some s.me, kind := kind, handle := handle,
                        sel := sel, value := v, rd := rd }
    (s.blocks .sup).later (supDelay s.me (handle.toNat % 4096)).1 (.supervisorOpArrival op)
/-- R71. -/
def execTresume (a : Reg) (s : State) : Ans := supIssue (.tresume a) .resume (s.getX a) 0 0 0 s
/-- R70. -/
def execTstatr (b a d : Reg) (s : State) : Ans := supIssue (.tstatr b a d) .read (s.getX a) (s.getX b) 0 d s
/-- R70: x[rd] is the value. -/
def execTstatw (b a d : Reg) (s : State) : Ans := supIssue (.tstatw b a d) .write (s.getX a) (s.getX b) (s.getX d) 0 s
/-- R70, R71, R414: the operation takes effect at the target's core and its reply leaves. The reply of THRCMD reaches
the hub die 55 cycles later. -/
def execSupervisorOpArrival (s : State) : Ans :=
  onEvent s fun | .supervisorOpArrival op =>
                    let (r, s) := supEffect op s
                    s.later (match op.issuer with | some h => (supDelay h (op.handle.toNat % 4096)).2 | none => 55)
                      (.supervisorReply op r)
                | _ => s
/-- R70, R414: the instruction retires or traps; THRCMD's STATUS and THVAL are written (R381). -/
def execSupervisorReply (s : State) : Ans :=
  onEvent s fun | .supervisorReply op r => match op.issuer with
                    | none => match r with
                      | .value v => s.modVf op.part fun f => { f with thrStatus := 0, thval := v }
                      | .done => s.modVf op.part fun f => { f with thrStatus := 0 }
                      | .refused _ _ => s.modVf op.part fun f => { f with thrStatus := 2 }
                    | some h => match (s.thread h).run with
                      | .blocked .sup => match r with
                        | .value v => ((s.modThread h fun t => t.setX op.rd v).passOf h 4).goesOn h
                        | .done => (s.passOf h 4).goesOn h
                        | .refused c v => parkTrap h c (s.thread h).seq.pc v s
                      | _ => s
                | _ => s

end Sys2Proof.Machine
end

