-- ==== Sys2Proof/Machine/Sync.lean ====
section
/-!
DEFINITION. Starting and pausing threads (R75, R77), gangs (R78, R79), channels (R80-R83), monitors (R84-R87), counters
(R88), named barriers (R11, R89-R92), the inbox (R93, R94) and user-interrupt enables (R97).
-/

namespace Sys2Proof.Machine

/-- A slot that holds no thread (R75, R76): an exited one is free from the cycle after. -/
def State.slotFree (s : State) (h : Nat) : Bool :=
  let t := s.thread h
  match t.run with
  | .unused | .exited => t.notBefore ≤ s.cycle
  | _ => false
/-- Two destination registers that must differ (R74). -/
def twoDest (a d : Reg) (_ : State) : Option (Nat × Word) := if a = d ∧ a ≠ 0 then some (2, 0) else none

/-! ### Starting and pausing (R75, R77) -/

/-- The queues of a pair are emptied (R16). -/
def Core.clearPair (k : Core) (pair : Nat) : Core :=
  { k with queues := k.queues.filter fun x => x.1 / 4 ≠ pair }
/-- A thread as R26 starts it, with its entry, x1 and x31; a slot's receive channels keep their claims. -/
def startThread (old : Thread) (pc x1 x31 : Word) (ctx : Nat) (sup : Bool) : Thread :=
  { seq := { pc := pc, x := ((Vector.replicate 32 0).set 1 x1).set 31 x31 }, ctx := ctx, sup := sup,
    chans := old.chans.map fun c => { c with flits := [] } }
/-- A thread is placed in a slot in this cycle. What an earlier thread of the slot has outstanding is not its own; it is kept apart
while there is any (R100). On a core that a debug module has stopped, the thread is stopped too (R392). -/
def State.place (s : State) (h : Nat) (t : Thread) : State :=
  let old := s.thread h
  let borns := if s.anyOut (.thread h) 0 s.cycle then old.born :: old.borns else []
  s.setThread h { t with since := s.cycle, born := s.cycle, borns := borns, dbgStop := (s.core (coreOf h)).halted }
/-- R75. -/
def execTstart (b a d : Reg) (s : State) : Ans :=
  checkedBy (.tstart b a d) (fun s =>
      let slot := wfield (s.getX b) 2 0
      if !s.slotFree (8 * s.myCore + slot) then some (2, word slot)
      else if wbit (s.getX a) 0 then some (4, s.getX a)
      else none) s fun s =>
    let h := 8 * s.myCore + wfield (s.getX b) 2 0
    let me := s.self
    let t := startThread (s.thread h) (s.getX a) (s.getX d) (s.getX b &&& ~~~ 0xFFF) me.ctx me.sup
    let s := if s.slotFree (partner h) then s.modCore s.myCore fun k => k.clearPair (slotOf h % 4) else s
    let s := s.place h { t with run := .blocked .start, launch := me.launch, node := me.node }
    (s.pass 4).later 2 (.tstartReady h)
/-- R75: the new thread is in its rotation. -/
def execTstartReady (s : State) : Ans :=
  onEvent s fun | .tstartReady h => match (s.thread h).run with
                    | .blocked .start => s.wake h
                    | _ => s
                | _ => s
/-- R77. -/
def execYield (s : State) : Ans :=
  checked .yield s fun s =>
    if s.issuedAt + 8 ≤ s.cycle then (s.pass 4).modSelf fun t => { t with notBefore := s.issuedAt + 9 }
    else ((s.pass 4).blocks .yield).at_ (s.issuedAt + 8) (.yieldWake s.me s.cycle)
/-- R77. -/
def execYieldWake (s : State) : Ans :=
  onEvent s fun | .yieldWake h since => if blockedSince (s.thread h) since then s.wake h else s
                | _ => s

/-! ### Gangs (R78, R79) -/

/-- Whether thread m waits in GANG n of a context. R78 names cores and slots only: a thread of another context in the same slot
counts as no waiting member (log 18). -/
def inGangWait (s : State) (ctx n m : Nat) : Bool :=
  let t := s.thread m
  t.ctx = ctx && match t.run with | .blocked (.gang k _) => k = n | _ => false
/-- The members of a gang of size n that thread h would be in: the same slot on n cores of its row (R27). -/
def gangRange (h n : Nat) : List Nat := (List.range n).map fun j => h - 8 * (coreOf h % 8 % n) + 8 * j
/-- R78. -/
def execGang (b d : Reg) (s : State) : Ans :=
  let n := 2 ^ b.toNat
  checkedBy (.gang b d) (fun s =>
      let t := s.self
      if b = 0 || 3 < b.toNat then some (2, 0)
      else if !(s.cluster (clusterOf s.me)).gangOk.contains t.ctx || t.gang.isSome then some (0x11, 0)
      else if (gangRange s.me n).any fun m => (s.thread m).ctx = t.ctx &&
          (match (s.thread m).run with | .blocked (.gang k _) => k ≠ n | _ => false) then some (0x11, 0)
      else none) s fun s =>
    let h := s.me
    let t := s.self
    let s := s.blocks (.gang n d)
    let ms := gangRange h n
    if ms.all (inGangWait s t.ctx n) then
      (s.dropEvents fun | .gangTimeout m _ => ms.contains m | _ => false).later n (.gangForm (ms.headD h) n)
    else if t.bartmo = 0 then s
    else s.later t.bartmo.toNat (.gangTimeout h s.cycle)
/-- R78: every member is back as a gang; the leader issues in the next cycle, the members behind it (R28). -/
def execGangForm (s : State) : Ans :=
  onEvent s fun | .gangForm leader n =>
                    let ms := gangRange leader n
                    let c := (s.thread leader).ctx
                    if !ms.all (inGangWait s c n) then s
                    else
                      let q := (s.thread leader).seq.pass 4
                      (ms.foldl (fun (s, j) m => (s.modThread m fun t =>
                          let t := match t.run with | .blocked (.gang _ rd) => t.setX rd 0 | _ => t
                          { t with seq := { t.seq with pc := q.pc, rpt := q.rpt, skip := q.skip, rptRun := q.rptRun },
                                   instret := t.instret + 1, run := .ready, notBefore := s.cycle + 1,
                                   gang := some (leader, n, j) }, j + 1)) (s, 0)).1
                | _ => s
/-- R78. -/
def execGangTimeout (s : State) : Ans :=
  onEvent s fun | .gangTimeout h since => match (s.thread h).run with
                    | .blocked (.gang _ rd) =>
                      if (s.thread h).since = since then ((s.modThread h fun t => t.setX rd 1).passOf h 4).wake h else s
                    | _ => s
                | _ => s
/-- A member that waits in GANG n leaves the request (R78): a gang that was about to form does not, and the other members'
time-outs go on. -/
def leaveGangWait (h n : Nat) (s : State) : State :=
  let ms := gangRange h n
  let forming : Event → Bool := fun
    | .gangForm l k => ms.head? = some l && k = n
    | _ => false
  let formed : Bool := s.agenda.any fun x => forming x.2
  let s := s.dropEvents fun e => forming e || match e with
    | .gangTimeout m _ => m = h
    | _ => false
  if !formed then s else ms.foldl (fun s m =>
    let t := s.thread m
    if m ≠ h && t.bartmo ≠ 0 && inGangWait s (s.thread h).ctx n m then s.at_ (t.since + t.bartmo.toNat) (.gangTimeout m t.since) else s) s
/-- R79. -/
def execUngang (s : State) : Ans :=
  checked .ungang s fun s => (s.pass 4).modSelf fun t => { t with gang := none }

/-! ### Channels (R80-R83) -/

def Thread.chan (t : Thread) (n : Nat) : Chan := t.chans[n % 4]'(Nat.mod_lt _ (by decide))
def Thread.setChan (t : Thread) (n : Nat) (c : Chan) : Thread :=
  { t with chans := t.chans.set (n % 4) c (Nat.mod_lt _ (by decide)) }
/-- The cycle from which a sender can claim a slot that was freed in cycle f (R81); a slot that was never used can be
claimed at any time. -/
def claimFrom (src dst f : Nat) : Nat := if f = 0 then 0 else f + 5 + 2 * hops (coreOf src) (coreOf dst)
/-- Every waiting sender to a channel tries to claim a slot that has just been freed (R80, R81). -/
def State.offerSlot (s : State) (dst n : Nat) : State :=
  s.threads.foldl (fun s (h, t) => match t.run with
    | .blocked (.send d m) =>
      if d = dst && m = n then s.at_ (claimFrom h dst s.cycle) (.channelClaim h) else s
    | _ => s) s
/-- A slot of a channel is freed. -/
def State.freeSlot (s : State) (dst n : Nat) : State :=
  (s.modThread dst fun t => t.setChan n { t.chan n with free := (t.chan n).free ++ [s.cycle] }).offerSlot dst n
/-- Claims a slot of a channel for a sender, if one can be claimed by now. -/
def State.claimSlot (s : State) (src dst n : Nat) : Option State :=
  let c := (s.thread dst).chan n
  match c.free.find? fun f => claimFrom src dst f ≤ s.cycle with
  | none => none
  | some f => some (s.modThread dst fun t => t.setChan n { t.chan n with free := (t.chan n).free.erase f })
/-- The destination that x[rb] names (R80). -/
def sendDest (h : Nat) (b : Word) : Nat := 256 * clusterOf h + wfield b 7 0
/-- A flit is on its way (R80). -/
def State.sendFlit (s : State) (dst n : Nat) (f : Flit) : State :=
  s.later (5 + 2 * hops s.myCore (coreOf dst)) (.flitArrival s.me dst n s.self.ctx f)
/-- R80: a claim that the thread holds, or one it can make now, lets SEND issue. -/
def execSend (b a : Reg) (n : BitVec 2) (s : State) : Ans :=
  checked (.send b a n) s fun s =>
    let dst := sendDest s.me (s.getX b)
    let f : Flit := { data := s.getX a, tag := BitVec.ofNat 8 (wfield (s.getX b) 15 8) }
    if s.self.claims.contains (dst, n.toNat) then
      ((s.modSelf fun t => { t with claims := t.claims.erase (dst, n.toNat) }).sendFlit dst n.toNat f).pass 4
    else match s.claimSlot s.me dst n.toNat with
      | some s => (s.sendFlit dst n.toNat f).pass 4
      | none =>
        let s := s.blocks (.send dst n.toNat)
        ((s.thread dst).chan n.toNat).free.foldl (fun s f => s.at_ (claimFrom s.me dst f) (.channelClaim s.me)) s
/-- R81: a waiting sender claims a slot and issues its SEND in the next cycle. -/
def execChannelClaim (s : State) : Ans :=
  onEvent s fun | .channelClaim h => match (s.thread h).run with
                    | .blocked (.send dst n) => match s.claimSlot h dst n with
                      | some s => (s.modThread h fun t => { t with claims := t.claims ++ [(dst, n)] }).wake h
                      | none => s
                    | _ => s
                | _ => s
/-- R80, R76: a flit enters its channel, or is discarded: also in the cycle in which the thread's TEXIT has retired. -/
def execFlitArrival (s : State) : Ans :=
  onEvent s fun | .flitArrival _ dst n ctx f =>
                    let t := s.thread dst
                    if t.run = .unused || t.run = .exited || t.ctx ≠ ctx then s.freeSlot dst n
                    else
                      let s := s.modThread dst fun t => t.setChan n { t.chan n with flits := (t.chan n).flits ++ [f] }
                      match t.run with
                      | .blocked (.recv m) => if m = n then s.later 2 (.recvWake dst) else s
                      | _ => s
                | _ => s
/-- R82. -/
def execRecvWake (s : State) : Ans :=
  onEvent s fun | .recvWake h => match (s.thread h).run with
                    | .blocked (.recv _) => s.wake h
                    | _ => s
                | _ => s
/-- Takes the oldest flit of a channel (R82). -/
def takeFlit (n : BitVec 2) (a d : Reg) (s : State) (empty : State → State) : State :=
  match (s.self.chan n.toNat).flits with
  | f :: fs =>
    let s := s.modSelf fun t => t.setChan n.toNat { t.chan n.toNat with flits := fs }
    let s := s.freeSlot s.me n.toNat
    ((s.setX d f.data).setX a (f.tag.zeroExtend 64)).pass 4
  | [] => empty s
/-- R82. -/
def execRecv (n : BitVec 2) (a d : Reg) (s : State) : Ans :=
  checkedBy (.recv n a d) (twoDest a d) s fun s => takeFlit n a d s fun s => s.blocks (.recv n.toNat)
/-- R82. -/
def execRecvn (n : BitVec 2) (a d : Reg) (s : State) : Ans :=
  checkedBy (.recvn n a d) (twoDest a d) s fun s => takeFlit n a d s fun s =>
    ((s.setX d 0).setX a (BitVec.allOnes 64)).pass 4

/-! ### Monitors (R84-R87) -/

def Thread.mon (t : Thread) (n : Nat) : Mon := t.mons[n % 4]'(Nat.mod_lt _ (by decide))
def Thread.setMon (t : Thread) (n : Nat) (m : Mon) : Thread :=
  { t with mons := t.mons.set (n % 4) m (Nat.mod_lt _ (by decide)) }
/-- The checks of a load or store of n bytes in a well (R285 items 1 to 4), in their order; race marks are set. -/
def wellCheck (s : State) (h : Nat) (a : Word) (n : Nat) (write checkRace : Bool) : Option (Nat × Word) × State :=
  if wfield a 63 25 ≠ 0 then (some (6, a), s)
  else if a.toNat % n ≠ 0 then (some (4, a), s)
  else if !nbit (s.rights (coreOf h) (wellCore h a)) (b2n write) then (some (7, a), s)
  else if !checkRace then (none, s)
  else match s.raceCheck (coreOf h) (s.thread h).ctx write [(wellCore h a, wellOff a, n)] with
    | (some v, s) => (some (0x0C, v), s)
    | (none, s) => (none, s)
/-- The issuing thread's monitor n is armed on a place; it has recorded what lands in this cycle (R84). -/
def State.armed (s : State) (n : Nat) (p : MonPlace) : State :=
  s.modSelf fun t => t.setMon n { place := some p, hit := s.landed p }
/-- R84. -/
def execMon (a : Reg) (n : BitVec 2) (s : State) : Ans :=
  checkedBy (.mon a n) (fun s => (wellCheck s s.me (s.getX a) 1 false true).1) s fun s =>
    (s.armed n.toNat (.well (wellCore s.me (s.getX a)) (wellOff (s.getX a) / 64))).pass 4
/-- R84. -/
def execMonG (a : Reg) (n : BitVec 2) (s : State) : Ans :=
  checked (.monG a n) s fun s =>
    s.withPhys (s.getX a) .read fun p _ s =>
      (s.armed n.toNat (.line (256 * (p.key / 256)))).pass 4
/-- R87. -/
def execMclr (n : BitVec 2) (s : State) : Ans :=
  checked (.mclr n) s fun s => (s.modSelf fun t => t.setMon n.toNat {}).pass 4
/-- The monitors of a mask have a record; are armed. -/
def Thread.monHit (t : Thread) (mask : Nat) : Bool := (List.range 4).any fun n => nbit mask n && (t.mon n).hit
def Thread.monArmed (t : Thread) (mask : Nat) : Bool :=
  (List.range 4).any fun n => nbit mask n && (t.mon n).place.isSome
/-- Clears the records of a mask. -/
def Thread.clearHits (t : Thread) (mask : Nat) : Thread :=
  (List.range 4).foldl (fun t n => if nbit mask n then t.setMon n { t.mon n with hit := false } else t) t
/-- R86. -/
def execMwait (b : Reg) (m : BitVec 4) (d : Reg) (s : State) : Ans :=
  checkedBy (.mwait b m d) (fun s =>
      if m = 0 then some (2, 0)
      else if !s.self.monArmed m.toNat && wfield (s.getX b) 31 0 = 0 then some (2, word m.toNat)
      else none) s fun s =>
    let mask := m.toNat
    if s.self.monHit mask then
      -- a gang retires together: another member may have to wait (R30)
      if s.self.gang.isSome then (s.blocks (.mwait mask d)).later 0 (.monitorWake s.me s.cycle)
      else ((s.modSelf fun t => t.clearHits mask).setX d 1).pass 4
    else
      let n := wfield (s.getX b) 31 0
      let s := s.blocks (.mwait mask d)
      if n = 0 then s else s.later n (.mwaitTimeout s.me s.cycle)
/-- MWAIT retires with a status; 1 clears the records (R86). -/
def finMwait (h v : Nat) (s : State) : State :=
  match (s.thread h).run with
  | .blocked (.mwait mask rd) =>
    if v = undoes then s.before h
    else ((s.modThread h fun t => (if v = 1 then t.clearHits mask else t).setX rd (word v)).passOf h 4).wake h
  | _ => s
/-- R86: status 1. -/
def execMonitorWake (s : State) : Ans :=
  onEvent s fun | .monitorWake h since => match (s.thread h).run with
                    | .blocked (.mwait _ _) => if (s.thread h).since = since then s.together h 1 finMwait else s
                    | _ => s
                | _ => s
/-- R86: status 2, unless a write has been recorded before. -/
def execMwaitTimeout (s : State) : Ans :=
  onEvent s fun | .mwaitTimeout h since => match (s.thread h).run with
                    | .blocked (.mwait mask _) =>
                      let t := s.thread h
                      if t.since = since && (t.fin = some 2 || !t.monHit mask) then s.together h 2 finMwait else s
                    | _ => s
                | _ => s

/-! ### Counters (R88) -/

/-- R88: the counter is read at its home; one that is below its target is waited for until an update brings it there. -/
def execCntw (c : BitVec 3) (b a : Reg) (s : State) : Ans :=
  checkedBy (.cntw c b a) (fun s => if s.getX a |>.toNat |> (· % 8 ≠ 0) then some (4, s.getX a) else none) s fun s =>
    let target := s.getX b
    s.ordered true fun s => s.withPhys (s.getX a) .read fun p n s =>
      if s.tileWaits (linesOf p.key 8) then s.stalls
      else
        let r : FarReq := { h := s.me, pump := none, va := s.getX a, addr := p.key, key := p.ks, sa := p.sa, op := .count target }
        (s.blocks (.cntw p.key none (c.toNat + 1))).sendFar r n
/-- The wait of a CNTW ends: the thread acquires. One whose read met the target goes on in that cycle. -/
def finCntw (h v : Nat) (s : State) : State :=
  match (s.thread h).run with
  | .blocked (.cntw _ target scope) =>
    if v = undoes then s.before h else
    let s := (s.acquire h scope).passOf h 4
    if target.isNone then s.goesOn h else s.wake h
  | _ => s
/-- R88: the counter has been read and met its target, or an update has brought it there three cycles ago. -/
def execCntwWake (s : State) : Ans :=
  onEvent s fun | .cntwWake h since => match (s.thread h).run with
                    | .blocked (.cntw _ _ _) => if (s.thread h).since = since then s.together h 0 finCntw else s
                    | _ => s
                | _ => s

/-! ### Named barriers (R11, R89-R92) -/

def State.bar (s : State) (cl ctx b : Nat) : Barrier := tget {} (s.cluster cl).bars (32 * ctx + b)
def State.setBar (s : State) (cl ctx b : Nat) (x : Barrier) : State :=
  s.modCluster cl fun k => { k with bars := tset k.bars (32 * ctx + b) x }
/-- An arrival that is pending at a barrier. -/
def Thread.baraAt (t : Thread) (b : Nat) : Option BarArr := t.bara.find? (·.b = b)
/-- An arrival that BAR or BARW waits on, or has kept (R92). -/
def Thread.keptAt (t : Thread) (b : Nat) : Option BarArr := t.barWait.find? (·.b = b)
def Thread.dropKept (t : Thread) (b : Nat) : Thread := { t with barWait := t.barWait.filter (·.b ≠ b) }
def Thread.keep (t : Thread) (w : BarArr) : Thread := { t.dropKept w.b with barWait := (t.dropKept w.b).barWait ++ [w] }
/-- The checks that BAR and BARA share (R89, R91). A kept arrival makes no new one. -/
def arriveCheck (b : Reg) (a : Reg) (s : State) : Option (Nat × Word) :=
  let c := s.getX b
  if c = 0 || 256 < c.toNat then some (2, c)
  else if (s.self.baraAt a.toNat).isSome then some (2, 0)
  else none
/-- An arrival is on its way (R89): it is made in the first cycle in which the release's conditions hold, behind the instructions
of the cycle, so that its arrivals come in the order of R11. -/
def arrives (b : Reg) (a : Reg) (bara : Bool) (d : Reg) (s : State) : State :=
  let s := s.releaseBegin s.cur 2
  (s.blocks (.arrive a.toNat (s.getX b).toNat bara d)).later 0 (.barrierArrival s.me)
/-- BAR and BARW on an arrival that the thread has kept; `again` says that it waited for it before, so that a complete phase
ends the wait at once (R91, R92). -/
def keptArrival (again : Bool) (w : BarArr) (d : Reg) (s : State) : State :=
  let fin (v : Word) (s : State) : State := ((s.modSelf fun t => t.dropKept w.b).setX d v).pass 4
  let wait (s : State) : State := s.blocks (.barrier w.b d)
  if s.self.gang.isSome && (w.out || w.done.isSome) then
    let due := match w.done with | some c => if again then s.cycle else max s.cycle (c + 14) | none => s.cycle
    (wait s).at_ due (if w.out then .barrierTimeout s.me (w.due.getD 0)
      else .barrierRelease (clusterOf s.me) s.self.ctx w.b w.phase)
  else if w.out then fin 1 s
  else match w.done with
    | some c => if again || c + 14 ≤ s.cycle then fin 0 (s.acquire s.me 2) else wait s
    | none => wait s
/-- R90, R92. A BAR of a handler on the barrier of an interrupted BAR finds the arrival that this one has kept, as that one itself would
when issued again: R92 leaves open what else it could do (log 18). -/
def execBar (b a d : Reg) (s : State) : Ans :=
  checkedBy (.bar b a d) (arriveCheck b a) s fun s =>
    match s.self.keptAt a.toNat with
    | some w => keptArrival true w d s
    | none => arrives b a false d s
/-- R91. -/
def execBara (b a d : Reg) (s : State) : Ans :=
  checkedBy (.bara b a d) (arriveCheck b a) s fun s => arrives b a true d s
/-- R91, R92. -/
def execBarw (a d : Reg) (s : State) : Ans :=
  checkedBy (.barw a d) (fun s =>
      if (s.self.baraAt a.toNat).isSome || (s.self.keptAt a.toNat).isSome then none else some (2, 0)) s fun s =>
    match s.self.baraAt a.toNat with
    | some w =>
      let n := s.self.bartmo.toNat
      let due := if n = 0 || w.done.isSome then none else some (s.cycle + n)
      let w := { w with due := due }
      let s := s.modSelf fun t => { t with bara := t.bara.filter fun x => x.b ≠ a.toNat }.keep w
      let s := match due with | some c => s.at_ c (.barrierTimeout s.me c) | none => s
      keptArrival false w d s
    | none => match s.self.keptAt a.toNat with
      | some w => keptArrival true w d s
      | none => s
/-- The arrivals of a completed phase learn the cycle of its completing arrival (R11). -/
def markDone (cl ctx b phase c : Nat) (h : Nat) (t : Thread) : Thread :=
  if clusterOf h ≠ cl || t.ctx ≠ ctx then t
  else
    let f (w : BarArr) : BarArr := if w.b = b && w.phase = phase then { w with done := some c, due := none } else w
    { t with barWait := t.barWait.map f, bara := t.bara.map f }
/-- An arrival is withdrawn (R11): the last one leaves the barrier idle. -/
def withdrawArrival (h : Nat) (w : BarArr) (s : State) : State :=
  let cl := clusterOf h
  let c := (s.thread h).ctx
  let x := s.bar cl c w.b
  if x.phase ≠ w.phase then s
  else if x.arrived ≤ 1 then s.setBar cl c w.b { count := 0, arrived := 0, phase := x.phase + 1 }
  else s.setBar cl c w.b { x with arrived := x.arrived - 1 }
/-- A barrier instruction that waits is undone (R29): the thread stands before it again, with no arrival unless its phase is complete. -/
def unarrive (m : Nat) (s : State) : State :=
  match (s.thread m).run with
  | .blocked (.arrive _ _ _ _) => (s.dropEvents fun | .barrierArrival g => g = m | _ => false).before m
  | .blocked (.barrier b _) => match (s.thread m).keptAt b with
    | some w => (if w.done.isNone && !w.out then (withdrawArrival m w s).modThread m fun t => t.dropKept b else s).before m
    | none => s.before m
  | _ => s
/-- BARA retires (R91). -/
def finBara (h v : Nat) (s : State) : State :=
  match (s.thread h).run with
  | .blocked (.arrive _ _ _ rd) =>
    (s.modThread h fun t => { t.setX rd (word v) with run := .ready, notBefore := s.cycle + 1 }).passOf h 4
  | _ => s
/-- BAR or BARW retires with status 0, and acquires, or 1 (R90). -/
def finBarrier (h v : Nat) (s : State) : State :=
  match (s.thread h).run with
  | .blocked (.barrier b rd) =>
    let s := s.modThread h fun t => (t.dropKept b).setX rd (word v)
    ((if v = 0 then s.acquire h 2 else s).passOf h 4).wake h
  | _ => s
/-- R11, R89: an arrival is made. -/
def arrivalMade (h b count : Nat) (bara : Bool) (rd : Reg) (s : State) : State :=
  let cl := clusterOf h
  let t := s.thread h
  let x := s.bar cl t.ctx b
  let now := s.cycle
  if x.count ≠ 0 && x.count ≠ count then parkTrap h 0x0A t.seq.pc (word count) s
  else
    let s := s.released (.thread h) 2
    let full : Bool := x.arrived + 1 = count
    let due := if full || bara || t.bartmo = 0 then none else some (now + t.bartmo.toNat)
    let w : BarArr := { b := b, phase := x.phase, done := none, due := due }
    let s := s.modThread h fun t =>
      if bara then { t with bara := t.bara ++ [w] }
      else { t.keep w with run := .blocked (.barrier b rd) }
    let s := match due with | some c => s.at_ c (.barrierTimeout h c) | none => s
    let s :=
      if full then
        let s := s.setBar cl t.ctx b { count := 0, arrived := 0, phase := x.phase + 1 }
        let s := { s with threads := tmap (markDone cl t.ctx b x.phase now) s.threads }
        s.at_ (now + 14) (.barrierRelease cl t.ctx b x.phase)
      else s.setBar cl t.ctx b { x with count := count, arrived := x.arrived + 1 }
    if bara then finBara h (if full then 2 else 0) s else s
/-- The arrival of a thread whose release is done. -/
def finArrival (h _ : Nat) (s : State) : State :=
  match (s.thread h).run with
  | .blocked (.arrive b count bara rd) => arrivalMade h b count bara rd s
  | _ => s
/-- R11, R89: the arrivals of a cycle, in the order of their handles; one whose conditions do not hold looks again in the next
cycle. The members of a gang arrive together, since none may trap (R29, log 18). -/
def execBarrierArrival (s : State) : Ans :=
  onEvent s fun | .barrierArrival h => (
                    if (s.thread h).fin = some undoes then unarrive h s
                    else match (s.thread h).run with
                    | .blocked (.arrive _ _ _ _) =>
                      if s.releaseDone (.thread h) (s.thread h).since 2 then s.together h 0 finArrival else s.later 1 (.barrierArrival h)
                    | _ => s)
                | _ => s
/-- R90: every waiting participant of a completed phase is released. -/
def execBarrierRelease (s : State) : Ans :=
  onEvent s fun | .barrierRelease cl ctx b phase =>
                    s.threads.foldl (fun s (h, _) =>
                      let t := s.thread h
                      match t.run, t.keptAt b with
                      | .blocked (.barrier n _), some w =>
                        if clusterOf h = cl && t.ctx = ctx && n = b && w.phase = phase && w.done.isSome && !w.out then
                          s.together h 0 finBarrier
                        else s
                      | _, _ => s) s
                | _ => s
/-- R90, R92: a participant that still waits times out; one that is parked finds it out when it runs again. -/
def execBarrierTimeout (s : State) : Ans :=
  onEvent s fun | .barrierTimeout h due =>
                    let t := s.thread h
                    let ends (b : Nat) (s : State) : State := match t.run with
                      | .blocked (.barrier n _) => if n = b then s.together h 1 finBarrier else s
                      | _ => s
                    match t.barWait.find? fun w => w.due = some due && w.done.isNone with
                    | some w =>
                      if w.out then ends w.b s
                      else ends w.b ((withdrawArrival h w s).modThread h fun t => t.keep { w with out := true })
                    | none => s
                | _ => s

/-! ### The inbox (R93, R94, R97) -/

/-- A message enters the inbox: threads that wait in IBX can take it in this cycle; it may interrupt (R94, R96). -/
def State.enterInbox (s : State) (core : Nat) (m : Msg) : State :=
  let s := s.modCore core fun k => { k with inbox := k.inbox ++ [(s.cycle, m)] }
  let s := forUpto 4 s fun i s => match (s.thread (8 * core + i)).run with
    | .blocked .inbox => s.modThread (8 * core + i) fun t => { t with run := .ready, notBefore := s.cycle }
    | _ => s
  s.later 2 (.uiDelivery core)
/-- The context's cores are in its save area (R369, R370). -/
def Ctx.away (x : Ctx) : Bool := x.saved.isSome && (x.phase = .saved || x.phase = .restoring)
/-- R93: a message of a context that does not hold the core is discarded, or kept for it while it is saved. -/
def execInboxMessageArrival (s : State) : Ans :=
  onEvent s fun | .inboxMessageArrival core ctx m =>
                    let k := s.core core
                    let hold (k : Core) : Core := { k with held := k.held ++ [m] }
                    if (s.ctx ctx).any Ctx.away then s.modCtx ctx fun x => { x with saved := x.saved.map fun v => { v with
                      cores := tmap (fun n k => if n ≠ core then k else if 64 ≤ k.inbox.length then hold k
                        else { k with inbox := k.inbox ++ [(s.cycle, m)] }) v.cores } }
                    else if k.holder ≠ some ctx then s
                    else if 64 ≤ k.inbox.length then s.modCore core hold
                    else s.enterInbox core m
                | _ => s
/-- Takes the oldest message; a held one takes its place (R93, R94). -/
def takeMsg (a d : Reg) (s : State) (empty : State → State) : State :=
  let c := s.myCore
  match (s.core c).inbox with
  | (_, m) :: ms =>
    let s := s.modCore c fun k => { k with inbox := ms }
    let s := match (s.core c).held with
      | [] => if ms = [] then s else s.later 1 (.uiDelivery c)
      | x :: xs => (s.modCore c fun k => { k with held := xs }).enterInbox c x
    (((s.acquire s.me 4).setX d m.w0).setX a m.w1).pass 4
  | [] => empty s
/-- R94. -/
def execIbx (a d : Reg) (s : State) : Ans :=
  checkedBy (.ibx a d) (twoDest a d) s fun s => s.gated true fun s => takeMsg a d s fun s => s.blocks .inbox
/-- R94. -/
def execIbxn (a d : Reg) (s : State) : Ans :=
  checkedBy (.ibxn a d) (twoDest a d) s fun s => s.gated true fun s => takeMsg a d s fun s => ((s.setX d 0).setX a 0).pass 4
/-- R97. -/
def execUien (a d : Reg) (s : State) : Ans :=
  checked (.uien a d) s fun s =>
    let old := s.self.uiEn
    let new := wbit (s.getX a) 0
    ((((s.modSelf fun t => { t with uiEn := new }).setX d (word (b2n old))).pass 4)).seeInterrupts s.myCore 0x022
/-- R97: back to the address in shadow x29. -/
def execUiret (s : State) : Ans :=
  checkedBy .uiret (fun s =>
      let t := s.self
      if !t.uiAct then some (2, 0)
      else if wbit (t.shadow[5]'(by decide)) 0 then some (4, t.shadow[5]'(by decide))
      else none) s fun s =>
    let target := s.self.shadow[5]'(by decide)
    let s := (traceEvent (clusterOf s.me) 5 s.me 0 s.pc s).jump target
    (s.modSelf fun t =>
      { t with uiAct := false, seq := { t.seq with rpt := t.shadowRpt, skip := t.shadowSkip }, shadowRpt := 0,
               shadowSkip := 0 }).seeInterrupts s.myCore 0x022

end Sys2Proof.Machine
end

