-- ==== Sys2Proof/Machine/Mem.lean ====
section
/-!
DEFINITION. Scalar loads and stores (R281-R285), HASHA (R53), FENCE, CWB, CINV and PFX (R289-R292), the home that performs
an access (R251-R253, R260, R415), and lines that slices evict (R413). A pump's LD, ST and FENCE follow R329.
-/

namespace Sys2Proof.Machine

/-! ### Requests of the agent that issues -/

/-- The number under which a register of the agent that issues is awaited. -/
def State.numOf (s : State) (d : Reg) : Nat :=
  match s.cur with
  | .thread h => pendNum (s.thread h) d
  | .pump _ => d.toNat
/-- A request to the home of an address. A pump's has no thread; the last handle stands for it. -/
def State.farReq (s : State) (va : Word) (p : Phys) (op : FarOp) : FarReq :=
  { h := match s.cur with | .thread h => h | .pump _ => 4095
    pump := match s.cur with | .thread _ => none | .pump c => some c
    va := va, addr := p.key, key := p.ks, sa := p.sa, op := op }
/-- The registers that an answer on its way will write, by number: the agent, the cycle of issue, the registers. -/
def answersTo : Event → Option (Agent × Nat × List Nat)
  | .farAccessPerform r => match r.op with
    | .load rd _ _ _ => some (reqAgent r, r.sent, [rd])
    | .fill (some (rd, _, _, _)) => some (reqAgent r, r.sent, [rd])
    | .amo _ _ _ _ rd _ => some (reqAgent r, r.sent, [rd])
    | _ => none
  | .tqRequestPerform r => match r.op with
    | .try_ ns _ => some (.thread r.h, r.sent, ns)
    | _ => none
  | .tqAnswer r _ => match r.op with
    | .try_ ns _ => some (.thread r.h, r.sent, ns)
    | _ => none
  | _ => none
/-- A later instruction of the agent has a result on its way to the register. -/
def State.laterResult (s : State) (a : Agent) (sent n : Nat) : Bool :=
  let early (at_ : Nat) : Bool := match a with | .thread h => s.earlyLoad h at_ | .pump _ => false
  let is (e : Event) : Bool := (answersTo e).any fun x => x.1 = a && sent < x.2.1 && x.2.2.contains n && !early x.2.1
  s.anyEvent is
/-- Whether register n still awaits the result of the agent's instruction of cycle `sent`: no later instruction has written it
since, and none has a result on its way to it (R9, R23). -/
def State.awaitsResult (s : State) (a : Agent) (sent n : Nat) : Bool :=
  (match a with
    | .thread h => (s.thread h).born ≤ sent && tfind (s.thread h).pend n = some none
    | .pump c => (s.pump c).since ≤ sent && tfind (s.pump c).pend n = some none) && !s.laterResult a sent n
/-- The answer of a load that others of the gang have still to issue (R28). -/
def earlyAnswer (h sent : Nat) (v : Word) (s : State) : State :=
  match (s.thread h).gang with
  | none => s
  | some (leader, _, j) =>
    let put (e : GangInsn) : GangInsn := match tfind e.early j with
      | some x => if e.at_.getD j 0 = sent then { e with early := tset e.early j { x with val := some v } } else e
      | none => e
    { s with gangs := tmod {} s.gangs leader fun g => { g with insns := g.insns.map put } }
/-- The reply of a load or AMO writes its register (R284, R296). -/
def deliver (r : FarReq) (rd : Nat) (usable : Option (Option Nat)) (v : Word) (s : State) : State :=
  let settle (l : Table (Option Nat)) : Table (Option Nat) := match usable with
    | none => terase l rd
    | some c => tset l rd c
  if r.pump.isNone && s.earlyLoad r.h r.sent then earlyAnswer r.h r.sent v s
  else if rd = 0 || !s.awaitsResult (reqAgent r) r.sent rd then s else
  match r.pump with
  | none => s.modThread r.h fun t => { t.setNum rd v with pend := settle t.pend }
  | some c => s.modPump c fun p => { p with seq := p.seq.put (BitVec.ofNat 5 rd) v, pend := settle p.pend }
/-- The value of a load (R282). -/
def loadValue (size : Nat) (nat : Bool) (bs : List Byte) : Word :=
  if nat || size = 8 then wordOfBytes bs else BitVec.ofInt 64 (signedOf (8 * size) (ofBytes bs))
/-- The first two checks of R283. -/
def addrCheck (a : Word) (size : Nat) : Option (Nat × Word) :=
  if wfield a 63 56 ≠ 0 then some (5, a) else if a.toNat % size ≠ 0 then some (4, a) else none
/-- A pump reaches no other device and no host memory (R329). -/
def State.ownDevice (s : State) (a : Word) (p : Phys) (f : State → State) : State :=
  match s.cur with
  | .thread _ => f s
  | .pump _ => if 2 ^ 51 ≤ p.key then s.trap 6 a else f s
/-- An access that the first-level cache serves waits for the agent's uncached accesses to the same bank (R270). -/
def State.cachedWaits (s : State) (key : Nat) : Bool :=
  s.reqs.any fun q => reqBy q s.cur && !reqCached q && s.bankOf q.addr = s.bankOf key
/-- A load of the sector by the same thread is still on its way: a store does not pass it (R266). -/
def State.loadsSector (s : State) (key : Nat) : Bool :=
  s.reqs.any fun q => reqBy q s.cur && q.addr / 64 = key / 64 && match q.op with
    | .fill (some _) => true
    | _ => false
/-! ### LD and ST (R282-R284) -/

/-- A load of the agent that has missed is still on its way: what passes through the cache later is performed after it (R271). -/
def State.missOut (s : State) : Bool := s.reqs.any fun q => reqBy q s.cur && reqIsMiss q
/-- R284: from the first-level cache, or at the home. A load that finds its bytes in the cache while an earlier load is on its way
takes them behind it. -/
def loadFrom (acq : Option Nat) (a : Word) (size : Nat) (nat : Bool) (d : Reg) (s : State) : State :=
  s.ordered acq.isSome fun s => s.withPhys a .read fun p n s => s.ownDevice a p fun s =>
    let send (r : FarReq) (s : State) : State := (((s.retires acq).await d none).sendFar r n).pass 4
    let far (op : FarOp) (s : State) : State := send (s.farReq a p op) s
    let atHome (s : State) : State :=
      if s.tileWaits (linesOf p.key size) then s.stalls else far (.load (s.numOf d) size nat acq) s
    match s.cur with
    | .pump _ => atHome s
    | .thread h =>
      if p.nc || acq.any (2 ≤ ·) then atHome s
      else if s.cachedWaits p.key then s.stalls
      else
        let op := FarOp.fill (some (s.numOf d, size, nat, acq))
        match s.l1Read (coreOf h) p.key size with
        | some bs =>
          if s.missOut || s.takeOut s.cur s.cycle then send { s.farReq a p op with near := true } s
          else (((s.retires acq).setX d (loadValue size nat bs)).await d (some (s.issuedAt + 10 + n))).pass 4
        | none => far op s
/-- R284: into the first-level cache, or to the home. A store into the cache waits for earlier loads that have missed (R271). One with a release
shows in the core's cache once it is performed, after what it is ordered behind (R270, R273). -/
def storeTo (rel : Option Nat) (a : Word) (bs : List Byte) (s : State) : State :=
  s.ordered false fun s => s.withPhys a .write fun p n s => s.ownDevice a p fun s =>
    let atHome (s : State) : State :=
      if s.tileWaits (linesOf p.key bs.length) then s.stalls
      else
        let s := match s.cur with
          | .thread h =>
            if (tfind (s.core (coreOf h)).l1 (p.key / 64)).isNone then s
            else if rel.isSome then s.flush h (· = p.key / 64)
            else s.putSector h p.key p.ks bs true
          | .pump _ => s
        (s.sendWith rel (s.farReq a p (.store bs)) n).pass 4
    match s.cur with
    | .pump _ => atHome s
    | .thread h =>
      if p.nc || rel.isSome then (if s.loadsSector p.key then s.stalls else atHome s)
      else if s.cachedWaits p.key || s.missOut then s.stalls
      else
        let absent := (tfind (s.core (coreOf h)).l1 (p.key / 64)).isNone
        let s := s.putSector h p.key p.ks bs false
        (if absent then s.sendFar (s.farReq a { p with key := p.key / 64 * 64 } (.fill none)) n else s).pass 4
/-- The address of a scalar access (R282): DISP counts in units of the access size. -/
def accessAddr (s : State) (p : BitVec 9) (a : Reg) (size : Nat) : Word := s.getX a + imm p * word size
/-- The ordering of an ORD field (R281). -/
def ordScope (o : BitVec 3) : Option Nat := if o = 0 then none else some o.toNat
/-- R282. -/
def execLd (p : BitVec 9) (o : BitVec 3) (n : BitVec 1) (z : BitVec 2) (a d : Reg) (s : State) : Ans :=
  let size := 2 ^ z.toNat
  checkedBy (.ld p o n z a d) (fun s => addrCheck (accessAddr s p a size) size) s fun s =>
    loadFrom (ordScope o) (accessAddr s p a size) size (n = 1) d s
/-- R282. -/
def execSt (p : BitVec 9) (o : BitVec 3) (z : BitVec 2) (a d : Reg) (s : State) : Ans :=
  let size := 2 ^ z.toNat
  checkedBy (.st p o z a d) (fun s => addrCheck (accessAddr s p a size) size) s fun s =>
    storeTo (ordScope o) (accessAddr s p a size) (bytesOfWord size (s.getX d)) s

/-! ### LDL and STL (R285) -/

/-- Item 4 of R285: race detection, for accesses without a qualifier. -/
def raceTrap (ord : Option Nat) (h : Nat) (a : Word) (n : Nat) (write : Bool) (s : State) (f : State → State) : State :=
  if ord.isSome then f s
  else match s.raceCheck (coreOf h) (s.thread h).ctx write [(wellCore h a, wellOff a, n)] with
    | (some v, s) => s.trap 0x0C v
    | (none, s) => f s
/-- R285: the value is taken at the bank, four cycles later at the own well. -/
def execLdl (p : BitVec 9) (o : BitVec 3) (n : BitVec 1) (z : BitVec 2) (a d : Reg) (s : State) : Ans :=
  let size := 2 ^ z.toNat
  checkedBy (.ldl p o n z a d) (fun s => (wellCheck s s.me (accessAddr s p a size) size false false).1) s fun s =>
    let h := s.me
    let va := accessAddr s p a size
    let c := wellCore h va
    let off := wellOff va
    let acq := ordScope o
    s.ordered acq.isSome fun s => raceTrap acq h va size false s fun s =>
      let ph : Phys := { key := wellKey c off, ks := 0, nc := true, sa := false, cc := false }
      (((s.retires acq).await d none).sendFar (s.farReq va ph (.load (s.numOf d) size (n = 1) acq)) 0).pass 4
/-- A store to a well as a request. -/
def wellStore (h core off : Nat) (bs : List Byte) (va : Word) (sent : Nat) : FarReq :=
  { h := h, pump := none, va := va, addr := wellKey core off, key := 0, sa := false, op := .store bs, sent := sent }
/-- R285. -/
def execStl (p : BitVec 9) (o : BitVec 3) (z : BitVec 2) (a d : Reg) (s : State) : Ans :=
  let size := 2 ^ z.toNat
  checkedBy (.stl p o z a d) (fun s => (wellCheck s s.me (accessAddr s p a size) size true false).1) s fun s =>
    let h := s.me
    let va := accessAddr s p a size
    let c := wellCore h va
    let off := wellOff va
    let bs := bytesOfWord size (s.getX d)
    s.ordered false fun s => raceTrap (ordScope o) h va size true s fun s =>
      let r := wellStore h c off bs va s.cycle
      match ordScope o with
      | none => (if s.takeOut s.cur s.cycle then s.sendFar r 0
                 else s.later (6 + 2 * hops (coreOf h) c) (.wellStoreLand h c off bs s.cycle)).pass 4
      | some q => (s.sendWith (some q) r 0).pass 4
/-- R8, R260: a store reaches its well bank. One that cannot be performed now waits there as a request. -/
def execWellStoreLand (s : State) : Ans :=
  onEvent s fun | .wellStoreLand h core off bs sent =>
                    let r := wellStore h core off bs (wellAddr core off) sent
                    if s.wellBehind h core off bs.length sent then s.later 1 (.farAccessPerform r)
                    else if s.mustWait (sectorsOf core off bs.length) true s.cycle (orderKey h sent) then
                      s.later 1 (.farAccessPerform { r with reached := some s.cycle })
                    else s.landWell core off bs 0
                | _ => s

/-! ### Atomics (R229, R294, R295) -/

/-- The new value of a word, and the flags. -/
def amoNew (op : AmoOp) (size m b c : Nat) : Nat × Fl :=
  let w := 8 * size
  let b := b % 2 ^ w
  match op with
  | .add => ((m + b) % 2 ^ w, 0)
  | .and => (m &&& b, 0)
  | .or => (m ||| b, 0)
  | .xor => (m ^^^ b, 0)
  | .min => ((if signedOf w b < signedOf w m then b else m), 0)
  | .max => ((if signedOf w m < signedOf w b then b else m), 0)
  | .minn => (Nat.min m b, 0)
  | .maxn => (Nat.max m b, 0)
  | .swap => (b, 0)
  | .cas => ((if m = c % 2 ^ w then b else m), 0)
  | .fadd => FF.f32.add 0 m b
  | .fmax => FF.f32.max m b
/-- What an AMO returns of the old value (R294). -/
def amoResult (op : AmoOp) (size m : Nat) : Word :=
  match op with
  | .minn => word m
  | .maxn => word m
  | .fadd => word m
  | .fmax => word m
  | _ => if size = 8 then word m else BitVec.ofInt 64 (signedOf (8 * size) m)

/-! ### What the home does (R251, R260, R267, R415) -/

/-- Runs of neighbouring bytes. -/
def runsOf : List (Nat × Byte) → List (Nat × List Byte)
  | [] => []
  | (a, b) :: l => match runsOf l with
    | (c, bs) :: r => if c = a + 1 then (a, b :: bs) :: r else (a, [b]) :: (c, bs) :: r
    | [] => [(a, [b])]
/-- A part of a PRD is in the buffer; with the last one the kernel goes on (R331). -/
def pumpReadDone (r : FarReq) (off : Nat) (bs : List Byte) (s : State) : State :=
  match r.pump with
  | none => s
  | some c =>
    if r.sent < (s.pump c).since || (s.pump c).kernel.isNone then s else
    let more := s.reqs.any fun q => q.pump = some c && match q.op with | .pumpRead .. => true | _ => false
    s.modPump c fun p =>
      let p := { p with buf := memWrite p.buf off bs }
      if more then p else { p with blocked := false, notBefore := s.cycle, seq := p.seq.pass 4 }
/-- An access to a peer's well is performed at its bank; a load's value takes the way back (R285). -/
def performWell (r : FarReq) (s : State) : State :=
  let c := keyCore r.addr
  let off := r.addr % 2 ^ 20
  match r.op with
  | .load rd n nat acq =>
    let v := loadValue n nat (s.wellRead c off n)
    let s := match acq with | some q => s.dropClean r.h q | none => s
    deliver r rd (if c = coreOf r.h then none else some (some (s.cycle + 6 + 2 * hops (coreOf r.h) c))) v s
  | .store bs => s.landWell c off bs 0
  | _ => s
/-- The flags of an AMO arrive with its reply: an enabled one parks the thread behind the AMO (R295). -/
def amoFlags (r : FarReq) (f : Fl) (s : State) : State :=
  match r.pump with
  | some _ => s
  | none =>
    let s := (raiseFl r.h f s).modThread r.h fun t => { t with pend := terase t.pend flagsNum, insn := r.insn }
    if enabledFl (s.thread r.h) f then parkTrap r.h 9 (s.thread r.h).seq.pc r.va s else s
/-- The value of a load behind a fill: the bytes that the core holds, and the home's for the rest (R248). -/
def State.filled (s : State) (core key : Nat) (bs : List Byte) : List Byte :=
  let x := tget { data := [], valid := 0, dirty := 0, key := 0 } (s.core core).l1 (key / 64)
  (List.range bs.length).map fun i => if nbit x.valid (key % 64 + i) then x.data.getD (key % 64 + i) 0 else bs.getD i 0
/-- An AMO or RED on a line of host memory whose page has SA = 0: the agent has read the line, and writes it back later, before any
other access of the device to it; the host may come between (R278, R383). -/
def writesLater (r : FarReq) (new : List Byte) (s : State) : Nat × State :=
  let (n, s) := s.choose 4096
  (n + 1, s.later (n + 1) (.farAccessPerform { r with op := .store new, reached := some 0, rel := none }))
/-- The line is the host's, and its page has SA = 0. -/
def State.unowned (s : State) (r : FarReq) : Bool := !r.sa && s.home r.addr = .host
/-- The write of an AMO or RED, and the cycles until it is performed. -/
def putAtomic (r : FarReq) (new : List Byte) (s : State) : Nat × State :=
  if s.unowned r then writesLater r new s else (0, s.landMem r.h r.addr r.key new)
/-- The target of a request lies in a reduction window of its partition (R386). -/
def State.reduces (s : State) (r : FarReq) : Bool :=
  match s.home r.addr with
  | .remote d => ((s.partOfCluster (clusterOf r.h)).bind s.part).any fun q => q.redw.any fun (w0, w1) =>
      let base := wfield w1 51 30 * 2 ^ 30
      let a := r.addr % 2 ^ 52
      wfield w0 7 0 ≠ 0 && wfield w0 11 8 = d && base ≤ a && a < base + wfield w1 63 52 * 2 ^ 30
  | _ => false
/-- What a RED leaves in memory, and its flags. Switches outside may have merged an FADD with others: what comes of it then, and the
flags of the merged result, are not this device's to say (R386, log 3). -/
def redNew (r : FarReq) (op : AmoOp) (n : Nat) (b : Word) (s : State) : Nat × Fl × State :=
  if op = .fadd && s.reduces r then
    let (v, s) := s.choose (2 ^ (8 * n))
    let (f, s) := s.choose 32
    (v, BitVec.ofNat 5 f, s)
  else
    let (new, f) := amoNew op n (s.readNat r.addr r.key n) b.toNat 0
    (new, f, s)
/-- An access of another device, or a RED that the fabric has merged, is performed at its home in a window of this device, as one access
(R385, R386); what it answers is that device's. -/
def performForeign (r : FarReq) (s : State) : State :=
  if (s.owner r.addr).isNone then s
  else match r.op with
  | .load _ _ _ _ => s.holdLine r.addr (some r.key)
  | .store bs => s.landMem r.h r.addr r.key bs
  | .amo op n b c _ _ => s.landMem r.h r.addr r.key (toBytes n (amoNew op n (s.readNat r.addr r.key n) b.toNat c.toNat).1)
  | .red op n b => s.landMem r.h r.addr r.key (toBytes n (amoNew op n (s.readNat r.addr r.key n) b.toNat 0).1)
  | _ => s
/-- It comes from another device. -/
def isForeign (r : FarReq) : Bool := r.pump.isNone && 4096 ≤ r.h
/-- An access is performed at its home. -/
def performFar (r : FarReq) (s : State) : State :=
  let core := coreOf r.h
  let merged (acq : Option Nat) (bs : List Byte) : List Byte :=
    if r.pump.isSome || acq.isNone then bs else s.mergeDirty core r.addr bs
  let reply (s : State) : State :=
    if r.pump.isSome then s else s.answered r.h r.addr (s.cycle - r.left - if r.dram then 420 - s.wayTo r else 0)
  let home := fun s => s.holdLine r.addr (some r.key)
  match r.op with
  | .load rd n nat acq =>
    let v := loadValue n nat (merged acq (s.readBytes r.addr r.key n))
    let s := deliver r rd none v (reply (home s))
    match acq, r.pump with
    | some q, none => s.dropClean r.h q
    | _, _ => s
  | .fill load =>
    let base := r.addr / 64 * 64
    let bs := s.readBytes base r.key 64
    let s := (reply (home s)).fillSector r.h (r.addr / 64) r.key bs
    match load with
    | none => s
    | some (rd, n, nat, _) => deliver r rd none (loadValue n nat (s.filled core r.addr ((bs.drop (r.addr % 64)).take n))) s
  | .store bs =>
    let s := reply (s.landMem r.h r.addr r.key bs)
    if r.pump.isSome then s else s.refresh core r.addr bs
  | .count target =>
    let s := reply (home s)
    if !blockedSince (s.thread r.h) r.sent then s
    else if target.toNat ≤ (wordOfBytes (s.mergeDirty core r.addr (s.readBytes r.addr r.key 8))).toNat then s.later 0 (.cntwWake r.h r.sent)
    else s.modThread r.h fun t => match t.run with
      | .blocked (.cntw k _ q) => { t with run := .blocked (.cntw k (some target) q) }
      | _ => t
  | .writeBack bs =>
    reply ((runsOf bs).foldl (fun s (o, bs) => s.landMem r.h (r.addr / 64 * 64 + o) r.key bs) s)
  | .amo op n b c rd acq =>
    let m := s.readNat r.addr r.key n
    let (new, f) := amoNew op n m b.toNat c.toNat
    let s := reply (putAtomic r (toBytes n new) s).2
    let s := deliver r rd none (amoResult op n m) s
    let s := match acq, r.pump with
      | some q, none => s.dropClean r.h q
      | _, _ => s
    match op with
    | .fadd | .fmax => amoFlags r f s
    | _ => s
  | .red op n b =>
    let (new, f, s) := redNew r op n b s
    let (k, s) := putAtomic r (toBytes n new) s
    let s := reply s
    if r.pump.isSome then s else s.later k (.redAck r.h r.va f r.sent)
  | .pumpRead off n => pumpReadDone r off (s.readBytes r.addr r.key n) (home s)
/-- A release, or a TQTRY without an answer, holds the request back, or lets it leave (R284, R296, R337). -/
def leaveReleased (r : FarReq) (s : State) : State :=
  if s.takeOut (reqAgent r) r.sent || r.rel.any fun q => !s.releaseDone (reqAgent r) r.sent q then s.later 1 (.farAccessPerform r)
  else s.leave { r with left := s.cycle } 0
/-- The limits of the slice and, for a line that it does not hold, of the channel let the request enter (R377); one that has combined with
another counts with it, unless that still waits there (R252). -/
def enterHome (r : FarReq) (s : State) (f : State → State) : State :=
  let waits : Bool := s.injWait.any fun w => 32 ≤ w.point && match w.ev with
    | .farAccessPerform q => q.addr / 64 = r.addr / 64 && (q.lead = r.lead || r.lead = some (orderKey q.h q.sent))
    | _ => false
  if r.lead.isSome && !waits then f s else s.arrivesAt r.addr 64 (.farAccessPerform r) f
/-- An operation of a thread on a link that cannot recover ends with cause 0x06 (R367, R380): the thread parks and the record goes to
the fault queue as well. -/
def failThread (h sent insn : Nat) (va : Word) (s : State) : State :=
  let live : Bool := match (s.thread h).run with | .ready => true | .blocked _ => true | _ => false
  if !live || sent < (s.thread h).born then s
  else parkTrap h 6 (s.thread h).seq.pc va (s.modThread h fun t => { t with pend := [], dataError := true, insn := insn })
/-- So does a far request; a pump's kernel faults. -/
def failFar (r : FarReq) (s : State) : State :=
  match r.pump, r.op with
  | some c, _ => if r.sent < (s.pump c).since then s else pumpFault c 6 r.va s
  | none, .writeBack _ => s
  | none, .fill none => s
  | none, _ => failThread r.h r.sent r.insn r.va s
/-- Whether a device AMO or RED on an SA = 1 line of this device's memory still waits for the host's answer (R382), and the
state in which it has been asked. -/
def State.snoops (s : State) (r : FarReq) : Bool × State :=
  let l := r.addr / 256
  let atomic : Bool := match r.op with | .amo .. => true | .red .. => true | _ => false
  if !atomic || !r.sa || 2 ^ 51 ≤ r.addr then (false, s)
  else if s.biDone.contains l then (false, { s with biDone := s.biDone.filter (· ≠ l) })
  else if s.biAsked.contains l then (true, s)
  else
    let (n, s) := s.choose 4096
    (true, { s with biAsked := l :: s.biAsked }.later (n + 1) (.backInvalidateResponse l))
/-- A load behind earlier ones takes its bytes from the cache, or misses after all (R271). -/
def performNear (r : FarReq) (s : State) : State :=
  match r.op with
  | .fill (some (rd, n, nat, _)) => (match s.l1Read (coreOf r.h) r.addr n with
      | some bs => deliver r rd none (loadValue n nat bs) s
      | none => s.leave { r with near := false } 0)
  | _ => s
/-- A request that has come to its home keeps its place in the order in which requests came there (R229, R267), unless it is behind one of its
agent that has still to come. -/
def State.arrived (s : State) (r : FarReq) : FarReq :=
  if r.near || isWellKey r.addr && s.wellBehind r.h (keyCore r.addr) (r.addr % 2 ^ 20) (farBytes r.op) r.sent
    || s.reqs.any (fun q => q.reached.isNone && s.mustFollow q r) then r
  else { r with reached := some (r.reached.getD s.cycle) }
/-- A request at its home: it waits for what it follows, for the channel if the slice does not hold its line (R413), for locks, for
what is not usable yet, and for the host's answer. Data with an uncorrectable error ends a read with cause 0x06 (R367). -/
def tryFar (r : FarReq) (s : State) : State :=
  let well := isWellKey r.addr
  let again (n : Nat) (r : FarReq) : State := s.later n (.farAccessPerform (s.arrived r))
  if !well && !r.near && !r.dram && s.missesLine r.addr then again (420 - s.wayTo r) { r with dram := true }
  else if s.reqs.any (fun q => s.mustFollow q r)
      || well && s.wellBehind r.h (keyCore r.addr) (r.addr % 2 ^ 20) (farBytes r.op) r.sent then again (max 1 (s.lastDue r - s.cycle)) r
  else if r.near then performNear r s
  else if s.mustWait (reqUnits r) (farWrites r.op) (r.reached.getD s.cycle) (orderKey r.h r.sent) then
    again 1 r
  else if farReads r.op && (reqUnits r).any s.unitBroken || !well && s.onDeadLink r.addr then failFar r s
  else if well then performWell r s
  else match s.snoops r with
    | (true, s) => s.later 1 (.farAccessPerform (s.arrived r))
    | (false, s) => if isForeign r then performForeign r s else performFar r s
/-- R415: a request at its home. -/
def execFarAccessPerform (s : State) : Ans :=
  onEvent s fun | .farAccessPerform r =>
                    if r.held then leaveReleased r s
                    else if r.entered || r.near || isWellKey r.addr then tryFar r s
                    else enterHome { r with entered := true } s (tryFar { r with entered := true })
                | _ => s
/-- An event takes its place in program order (R290). -/
def addRedEvent (sent : Nat) (va : Word) (f : BitVec 5) (l : List (Nat × Word × BitVec 5)) : List (Nat × Word × BitVec 5) :=
  l.takeWhile (·.1 ≤ sent) ++ (sent, va, f) :: l.dropWhile (·.1 ≤ sent)
/-- R229, R290: the flags of a RED. -/
def execRedAck (s : State) : Ans :=
  onEvent s fun | .redAck h va f sent => if sent < (s.thread h).born then s else s.modThread h fun t =>
                    { t with fflags := t.fflags ||| f, redEvents := if f = 0 then t.redEvents else addRedEvent sent va f t.redEvents }
                | _ => s
/-- R413: a slice evicts a line, when the device chooses (log 4). -/
def execSliceLineEvict (s : State) : Ans :=
  onEvent s fun | .sliceLineEvict line => { s with lines := terase s.lines line }
                | _ => s

/-! ### HASHA (R53) -/

/-- The layout of R53. A frame outside the windows of the thread's partition traps nothing: SLICE and CHAN are those of the window
that holds it, or 0 where none does (log 19). -/
def hashaWord (s : State) (p : Phys) : Word :=
  let attrs := b2n p.nc * 2 ^ 18 + b2n p.sa * 2 ^ 19 + p.ks * 2 ^ 24
  if 2 ^ 52 ≤ p.key then word (attrs + b2n p.cc * 2 ^ 17 + (p.key / 2 ^ 52 - 1) * 2 ^ 20 + 2 ^ 63)
  else
    let at_ := match s.home p.key with | .slice sl ch => sl + ch * 2 ^ 8 | _ => 0
    word (at_ + b2n p.cc * 2 ^ 17 + attrs + s.pf.devIdx * 2 ^ 20)
/-- R53: the thread waits for a translation that its core's TLB does not hold. -/
def execHasha (a d : Reg) (s : State) : Ans :=
  checked (.hasha a d) s fun s =>
    s.withPhys (s.getX a) .none fun p n s =>
      if n ≠ 0 && (match s.cur with | .thread _ => true | .pump _ => false) then s.awaitLevel n (s.getX a) .none
      else
        let s := s.setX d (hashaWord s p)
        (if n = 0 then s else s.await d (some (s.issuedAt + 1 + n))).pass 4

/-! ### FENCE, CWB, CINV, PFX (R290-R292) -/

/-- The earliest acknowledged RED whose flags hold an enabled event (R290). -/
def redEvent (t : Thread) : Option Word := (t.redEvents.find? fun x => enabledFl t x.2.2).map (·.2.1)
/-- The events up to the one that is reported are reported. -/
def dropReported (t : Thread) : Thread :=
  { t with redEvents := t.redEvents.drop (t.redEvents.findIdx (fun x => enabledFl t x.2.2) + 1) }
/-- R290. -/
def execFence (q : BitVec 3) (s : State) : Ans :=
  checked (.fence q) s fun s => s.withRelease q.toNat fun s =>
    match s.cur with
    | .pump _ => s.pass 4
    | .thread h => match redEvent (s.thread h) with
      | some va => (s.modSelf dropReported).trap 9 va
      | none => ((s.modSelf fun t => { t with redEvents := [] }).acquire h q.toNat).pass 4

/-- Every 64-byte sector of a virtual range that has a translation accepted by a test: sector, page attributes. -/
def State.sectorsIn (s : State) (v : View) (acc : Access) (va n : Nat) (ok : Phys → Bool) : List (Nat × Phys) × State :=
  (splitPages va n).foldl (fun (l, s) (a, k) => match s.translateNow v (word a) acc with
    | (.ok p, s) =>
      if ok p then (l ++ (List.range ((p.key + k - 1) / 64 + 1 - p.key / 64)).map fun i => (p.key / 64 + i, p), s) else (l, s)
    | (.error _, s) => (l, s)) ([], s)
/-- The sectors that CWB and CINV act on (R291). -/
def cacheRange (a n : Word) (s : State) : (Nat → Bool) × State :=
  if n = 0 then (fun _ => true, s)
  else
    let (l, s) := s.sectorsIn { s.view with sup := true } .none a.toNat n.toNat fun _ => true
    (fun x => l.any (·.1 = x), s)
/-- CWB and CINV (R291): the thread waits until the write-backs that it began are performed. -/
def writeBackRange (a n : Word) (s : State) (f : (Nat → Bool) → State → State) : State :=
  let h := s.me
  let (p, s) := cacheRange a n s
  let s := if s.self.relAt.isSome then s
    else (s.flush h p).modThread h fun t => { t with relAt := some s.cycle }
  let began := s.self.relAt.getD s.cycle
  if s.reqs.any fun r => reqIsWb r && coreOf r.h = coreOf h && p (r.addr / 64) && r.sent ≤ began then s.stalls
  else (f p (s.modThread h fun t => { t with relAt := none })).pass 4
def rangeCheck (b : Reg) (s : State) : Option (Nat × Word) :=
  if 2 ^ 21 < (s.getX b).toNat then some (2, s.getX b) else none
/-- R291. -/
def execCwb (b a : Reg) (s : State) : Ans :=
  checkedBy (.cwb b a) (rangeCheck b) s fun s => s.ordered false fun s =>
    writeBackRange (s.getX a) (s.getX b) s fun _ s => s
/-- R291: bytes that another thread of the core has stored meanwhile stay. -/
def execCinv (b a : Reg) (s : State) : Ans :=
  checkedBy (.cinv b a) (rangeCheck b) s fun s => s.ordered false fun s =>
    writeBackRange (s.getX a) (s.getX b) s fun p s => s.modCore s.myCore fun k =>
      { k with l1 := k.l1.filterMap fun (n, x) =>
          if !p n then some (n, x) else if x.dirty = 0 then none else some (n, { x with valid := x.dirty }) }
/-- R292. -/
def execPfx (b a : Reg) (s : State) : Ans :=
  checkedBy (.pfx b a) (fun s =>
      let n := (s.getX b).toNat
      if n = 0 || 65536 < n then some (2, 0) else none) s fun s => s.ordered false fun s =>
    let v := s.view
    let extra := (splitPages (s.getX a).toNat (s.getX b).toNat).map fun (a, k) => (a, k, s.trExtra v a .read)
    (extra.foldl (fun s (a, k, delay) =>
      let (l, s) := s.sectorsIn v .read a k fun p => !p.nc
      l.foldl (fun s (n, p) =>
        if (tfind (s.core s.myCore).l1 n).isSome then s
        else s.sendFar (s.farReq (word a) { p with key := 64 * n } (.fill none)) delay) s) s).pass 4

end Sys2Proof.Machine
end

