-- ==== Sys2Proof/Machine/Atomic.lean ====
section
/-! DEFINITION. AMO and RED (R293-R296). -/

namespace Sys2Proof.Machine

/-- The acquire and release of SCOPE and KIND (R293). -/
def amoAcq (q : BitVec 3) (k : BitVec 2) : Option Nat := if k = 1 || k = 3 then some q.toNat else none
def amoRel (q : BitVec 3) (k : BitVec 2) : Option Nat := if k = 2 || k = 3 then some q.toNat else none
/-- The access size of D (R293). -/
def amoSize (w : BitVec 1) : Nat := if w = 1 then 8 else 4
/-- The core's copy of the word's sector is written back and dropped before the request leaves (R250). -/
def State.dropSector (s : State) (key : Nat) : State :=
  match s.cur with
  | .pump _ => s
  | .thread h =>
    (s.flush h (· = key / 64)).modCore (coreOf h) fun k => { k with l1 := terase k.l1 (key / 64) }
/-- The checks, the translation, and the request's way (R283, R294, R296). -/
def atomicGo (acq : Option Nat) (a : Word) (size : Nat) (s : State) (f : Phys → Nat → State → State) : State :=
  s.ordered acq.isSome fun s => s.withPhys a .rw fun p n s => s.ownDevice a p fun s =>
    if s.tileWaits (linesOf p.key size) || s.loadsSector p.key then s.stalls
    else f p n (s.dropSector p.key)
/-- R294, R296. No later instruction issues before the flags of FADD and FMAX (R295). -/
def amo (i : Instr) (op : AmoOp) (q : BitVec 3) (k : BitVec 2) (w : BitVec 1) (b a d : Reg) (s : State) : Ans :=
  let size := amoSize w
  checkedBy i (fun s => addrCheck (s.getX a) size) s fun s =>
    atomicGo (amoAcq q k) (s.getX a) size s fun p n s =>
      let r := s.farReq (s.getX a) p (.amo op size (s.getX b) (s.getX d) (s.numOf d) (amoAcq q k))
      let s := match op with
        | .fadd | .fmax => s.modSelf fun t => { t with pend := tset t.pend flagsNum none, insn := s.issue.insn }
        | _ => s
      (((s.retires (amoAcq q k)).await d none).sendWith (amoRel q k) r n).pass 4
/-- R283's address checks; RED.FADD looks at the alignment first (R229, log 19). -/
def redCheck (op : AmoOp) (a : Word) (size : Nat) : Option (Nat × Word) :=
  if op = .fadd && a.toNat % size ≠ 0 then some (4, a) else addrCheck a size
/-- R229, R294: RED retires at issue. -/
def red (i : Instr) (op : AmoOp) (q : BitVec 3) (k : BitVec 2) (w : BitVec 1) (b a : Reg) (s : State) : Ans :=
  let size := amoSize w
  checkedBy i (fun s => redCheck op (s.getX a) size) s fun s =>
    atomicGo none (s.getX a) size s fun p n s =>
      (s.sendWith (amoRel q k) (s.farReq (s.getX a) p (.red op size (s.getX b))) n).pass 4

/-- R294. -/
def execAmoAdd (q : BitVec 3) (k : BitVec 2) (w : BitVec 1) (b a d : Reg) (s : State) : Ans :=
  amo (.amoAdd q k w b a d) .add q k w b a d s
/-- R294. -/
def execAmoAnd (q : BitVec 3) (k : BitVec 2) (w : BitVec 1) (b a d : Reg) (s : State) : Ans :=
  amo (.amoAnd q k w b a d) .and q k w b a d s
/-- R294. -/
def execAmoOr (q : BitVec 3) (k : BitVec 2) (w : BitVec 1) (b a d : Reg) (s : State) : Ans :=
  amo (.amoOr q k w b a d) .or q k w b a d s
/-- R294. -/
def execAmoXor (q : BitVec 3) (k : BitVec 2) (w : BitVec 1) (b a d : Reg) (s : State) : Ans :=
  amo (.amoXor q k w b a d) .xor q k w b a d s
/-- R294. -/
def execAmoMin (q : BitVec 3) (k : BitVec 2) (w : BitVec 1) (b a d : Reg) (s : State) : Ans :=
  amo (.amoMin q k w b a d) .min q k w b a d s
/-- R294. -/
def execAmoMax (q : BitVec 3) (k : BitVec 2) (w : BitVec 1) (b a d : Reg) (s : State) : Ans :=
  amo (.amoMax q k w b a d) .max q k w b a d s
/-- R294. -/
def execAmoMinn (q : BitVec 3) (k : BitVec 2) (w : BitVec 1) (b a d : Reg) (s : State) : Ans :=
  amo (.amoMinn q k w b a d) .minn q k w b a d s
/-- R294. -/
def execAmoMaxn (q : BitVec 3) (k : BitVec 2) (w : BitVec 1) (b a d : Reg) (s : State) : Ans :=
  amo (.amoMaxn q k w b a d) .maxn q k w b a d s
/-- R294. -/
def execAmoSwap (q : BitVec 3) (k : BitVec 2) (w : BitVec 1) (b a d : Reg) (s : State) : Ans :=
  amo (.amoSwap q k w b a d) .swap q k w b a d s
/-- R294. -/
def execAmoCas (q : BitVec 3) (k : BitVec 2) (w : BitVec 1) (b a d : Reg) (s : State) : Ans :=
  amo (.amoCas q k w b a d) .cas q k w b a d s
/-- R294, R295. -/
def execAmoFadd (q : BitVec 3) (k : BitVec 2) (b a d : Reg) (s : State) : Ans :=
  amo (.amoFadd q k b a d) .fadd q k 0 b a d s
/-- R294, R295. -/
def execAmoFmax (q : BitVec 3) (k : BitVec 2) (b a d : Reg) (s : State) : Ans :=
  amo (.amoFmax q k b a d) .fmax q k 0 b a d s
/-- R294. -/
def execRedAdd (q : BitVec 3) (k : BitVec 2) (w : BitVec 1) (b a : Reg) (s : State) : Ans :=
  red (.redAdd q k w b a) .add q k w b a s
/-- R294. -/
def execRedAnd (q : BitVec 3) (k : BitVec 2) (w : BitVec 1) (b a : Reg) (s : State) : Ans :=
  red (.redAnd q k w b a) .and q k w b a s
/-- R294. -/
def execRedOr (q : BitVec 3) (k : BitVec 2) (w : BitVec 1) (b a : Reg) (s : State) : Ans :=
  red (.redOr q k w b a) .or q k w b a s
/-- R294. -/
def execRedXor (q : BitVec 3) (k : BitVec 2) (w : BitVec 1) (b a : Reg) (s : State) : Ans :=
  red (.redXor q k w b a) .xor q k w b a s
/-- R294. -/
def execRedMin (q : BitVec 3) (k : BitVec 2) (w : BitVec 1) (b a : Reg) (s : State) : Ans :=
  red (.redMin q k w b a) .min q k w b a s
/-- R294. -/
def execRedMax (q : BitVec 3) (k : BitVec 2) (w : BitVec 1) (b a : Reg) (s : State) : Ans :=
  red (.redMax q k w b a) .max q k w b a s
/-- R294. -/
def execRedMinn (q : BitVec 3) (k : BitVec 2) (w : BitVec 1) (b a : Reg) (s : State) : Ans :=
  red (.redMinn q k w b a) .minn q k w b a s
/-- R294. -/
def execRedMaxn (q : BitVec 3) (k : BitVec 2) (w : BitVec 1) (b a : Reg) (s : State) : Ans :=
  red (.redMaxn q k w b a) .maxn q k w b a s
/-- R294, R229, R295. -/
def execRedFadd (q : BitVec 3) (k : BitVec 2) (b a : Reg) (s : State) : Ans :=
  red (.redFadd q k b a) .fadd q k 0 b a s
/-- R294, R229, R295. -/
def execRedFmax (q : BitVec 3) (k : BitVec 2) (b a : Reg) (s : State) : Ans :=
  red (.redFmax q k b a) .fmax q k 0 b a s

end Sys2Proof.Machine
end

