-- ==== Sys2Proof/Machine/Tensor.lean ====
section
/-!
DEFINITION. Tensor descriptors (R121-R124), the footprint of a tile (R123, R256), and the identifier table: TDEF, TINV,
TQRY (R125, R185-R187).
-/

namespace Sys2Proof.Machine

/-! ### Descriptors -/

/-- The words of a descriptor (R121, R122). -/
def Desc.words (d : Desc) : List Word :=
  [word (d.kind + d.fmt * 2 ^ 2 + b2n d.well * 2 ^ 6 + b2n d.ro * 2 ^ 7 + d.rows * 2 ^ 8 + d.rowBytes * 2 ^ 16), d.base, d.scaleBase,
   word (d.dim0 + d.dim1 * 2 ^ 32), word (d.dim2 + d.dim3 * 2 ^ 32), d.s1, d.s2, d.s3]
/-- The descriptor of 64 bytes. -/
def descOf (bs : List Byte) : Desc :=
  let c := wordAt bs 0
  { kind := wfield c 1 0, fmt := wfield c 5 2, well := wbit c 6, ro := wbit c 7, rows := wfield c 12 8, rowBytes := wfield c 23 16,
    base := wordAt bs 1, scaleBase := wordAt bs 2, dim0 := wfield (wordAt bs 3) 31 0, dim1 := wfield (wordAt bs 3) 63 32,
    dim2 := wfield (wordAt bs 4) 31 0, dim3 := wfield (wordAt bs 4) 63 32, s1 := wordAt bs 5, s2 := wordAt bs 6, s3 := wordAt bs 7 }
/-- Bytes and rows of a tile. -/
def Desc.rb (d : Desc) : Nat := d.rowBytes + 1
def Desc.nrows (d : Desc) : Nat := d.rows + 1
/-- Elements of a tile row: W of R123. -/
def Desc.width (d : Desc) : Nat := if d.fmt = 11 then 2 * d.rb else d.rb / fmtSize d.fmt
/-- The extents of the tile grid (R123). -/
def Desc.grid (d : Desc) : List Nat := [ceilDiv d.dim0 (max d.width 1), ceilDiv d.dim1 d.nrows, d.dim2, d.dim3]
def Desc.dims (d : Desc) : List Nat := [d.dim0, d.dim1, d.dim2, d.dim3]
/-- A power of two from 16 to 65,536. -/
def tableSizeOk (n : Nat) : Bool := 16 ≤ n && n ≤ 65536 && 2 ^ Nat.log2 n = n
/-- The offset of the first field that R124 finds wrong, in its order. -/
def descFault (bs : List Byte) : Option Nat :=
  let d := descOf bs
  let c := wordAt bs 0
  let z := fmtSize d.fmt
  let bad (w : Word) : Bool := w.toNat % z ≠ 0
  let kinds : List (Bool × Nat) :=
    if d.kind = 0 then [(d.fmt = 11, 0), (d.scaleBase ≠ 0, 16)]
    else if d.kind = 1 then
      [(d.fmt ≠ 11 && d.fmt ≠ 3 && d.fmt ≠ 4, 0), (d.width % 48 ≠ 0, 0), (d.scaleBase = 0 || d.scaleBase.toNat % 4 ≠ 0, 16), (d.well, 0)]
    else if d.kind = 2 then
      [(!d.well, 0), (d.fmt ≠ 0 && d.fmt ≠ 5 && d.fmt ≠ 8, 0), (!tableSizeOk d.dim0, 24), (d.dim1 ≠ 1, 28), (d.dim2 ≠ 1, 32),
       (d.dim3 ≠ 1, 36)]
    else [(d.well, 0), (d.base.toNat % 16 ≠ 0, 8), (!([1, 2, 3, 4, 7].contains d.fmt), 0)]
  let tests : List (Bool × Nat) :=
    [(wfield c 15 13 ≠ 0 || wfield c 63 24 ≠ 0 || 14 ≤ d.fmt, 0), (d.dim0 = 0, 24), (d.dim1 = 0, 28), (d.dim2 = 0, 32),
     (d.dim3 = 0, 36), (d.rb % z ≠ 0, 0), (bad d.base, 8), (d.dim1 ≠ 1 && bad d.s1, 40), (d.dim2 ≠ 1 && bad d.s2, 48),
     (d.dim3 ≠ 1 && bad d.s3, 56)]
      ++ (List.range 4).map (fun k => (decide (65535 < d.grid.getD k 0), 24 + 4 * k))
      ++ kinds
  (tests.find? Prod.fst).map Prod.snd

/-! ### Footprints -/

/-- A run of a tile's bytes inside the tensor: its address, its place in the tile, its length; whether the upper half of its
last byte lies outside. -/
structure Piece where
  addr : Word
  off : Nat
  len : Nat
  half : Bool
  deriving DecidableEq, Repr
/-- The runs of tile j (R123), one for each row inside the tensor. -/
def Desc.pieces (d : Desc) (j : List Nat) : List Piece :=
  let j0 := j.getD 0 0
  let n := min d.width (d.dim0 - j0 * d.width)
  let (start, len, half) := if d.fmt = 11 then (j0 * d.width / 2, (n + 1) / 2, decide (n % 2 = 1))
    else (j0 * d.width * fmtSize d.fmt, n * fmtSize d.fmt, false)
  (List.range d.nrows).filterMap fun i =>
    let i1 := j.getD 1 0 * d.nrows + i
    if i1 < d.dim1 && len ≠ 0 then
      some { addr := d.base + word start + word i1 * d.s1 + word (j.getD 2 0) * d.s2 + word (j.getD 3 0) * d.s3
             off := i * d.rb, len := len, half := half }
    else none
/-- The row validity mask (R132). -/
def Desc.rowMask (d : Desc) (j : List Nat) : Nat :=
  sumList ((List.range d.nrows).map fun i => if j.getD 1 0 * d.nrows + i < d.dim1 then 2 ^ i else 0)
/-- Tile coordinates of a register (R286) lie in the grid. -/
def coordsOf (w : Word) : List Nat := (List.range 4).map fun k => wfield w (16 * k + 15) (16 * k)
def Desc.inGrid (d : Desc) (j : List Nat) : Bool := (List.range 4).all fun k => j.getD k 0 < d.grid.getD k 0

/-- The page units that runs touch, by their first addresses, in ascending order of the runs. -/
def piecePages (ps : List Piece) : List Nat := ps.flatMap fun p => (splitPages p.addr.toNat p.len).map Prod.fst
/-- The device that holds a key. -/
def State.deviceOf (s : State) (key : Nat) : Nat := if 2 ^ 52 ≤ key then key / 2 ^ 52 - 1 else s.pf.devIdx
/-- The checks of R256 for runs of virtual memory in ascending order, and the runs by their keys; the fault names the
lowest failing address. -/
def State.segsOf (s : State) (v : View) (acc : Access) (ps : List Piece) : Except MemFault (List Seg) × State :=
  let pages := (sortBy (fun p => p.addr.toNat) ps).flatMap fun p =>
    let n := (splitPages p.addr.toNat p.len).length
    (splitPages p.addr.toNat p.len).zipIdx.map fun ((a, k), i) => (p, a, k, decide (i + 1 = n))
  let (r, _, s) := pages.foldl (fun (r, dev, s) (p, a, k, last) =>
    match r with
    | .error e => (.error e, dev, s)
    | .ok l => match s.translateNow v (word a) acc with
      | (.error c, s) => (.error { cause := c, va := word a : MemFault }, dev, s)
      | (.ok ph, s) =>
        let d := s.deviceOf ph.key
        if dev.any (· ≠ d) then (.error { cause := 6, va := word a }, dev, s)
        else
          let seg : Seg := { well := none, addr := ph.key, off := p.off + (a - p.addr.toNat), len := k, key := ph.ks, half := p.half && last, sa := ph.sa }
          (.ok (l ++ [seg]), some d, s)) ((Except.ok [] : Except MemFault (List Seg)), (none : Option Nat), s)
  (r, s)
/-- The units of runs in locking order (R258). -/
def unitKey : LockUnit → Nat
  | .line k => k
  | .sector _ o => o
def unitsOf (l : List Seg) : List LockUnit :=
  dedup (sortBy unitKey (l.flatMap fun g => match g.well with
    | none => linesOf g.addr g.len
    | some c => sectorsOf c g.addr g.len))

/-- Overlays bytes on a buffer. -/
def overlay (buf : List Byte) (off : Nat) (bs : List Byte) : List Byte :=
  buf.take off ++ bs ++ buf.drop (off + bs.length)
/-- Reads runs into a buffer of n zero bytes; half a byte outside the tensor reads as zero. An element outside a tensor of format CB4
reads as four zero bits, where R123 does not say whether zero is the code or the value (log 20). -/
def State.gather (s : State) (n : Nat) (l : List Seg) : List Byte :=
  l.foldl (fun buf g =>
    let bs := match g.well with
      | none => s.readBytes g.addr g.key g.len
      | some c => s.wellRead c g.addr g.len
    let bs := if g.half then bs.dropLast ++ (bs.drop (g.len - 1)).map (· &&& 0x0F) else bs
    overlay buf g.off bs) (List.replicate n 0)
/-- Writes runs from a buffer; half a byte outside the tensor keeps its value. The write is recorded by monitors a cycle
later, when its locks are released (R260). -/
def State.scatter (s : State) (h : Nat) (l : List Seg) (buf : List Byte) : State :=
  l.foldl (fun s g =>
    let bs := (buf.drop g.off).take g.len
    let fix (old : List Byte) : List Byte :=
      if g.half then bs.dropLast ++ (bs.drop (g.len - 1)).zipWith (fun b o => (b &&& 0x0F) ||| (o &&& 0xF0)) (old.drop (g.len - 1))
      else bs
    match g.well with
    | none => s.landMem h g.addr g.key (fix (if g.half then s.readBytes g.addr g.key g.len else [])) 1
    | some c => s.landWell c g.addr (fix (if g.half then s.wellRead c g.addr g.len else [])) 1) s
/-- Lines of runs that the home reads are filled (R413). -/
def State.holdSegs (s : State) (l : List Seg) : State :=
  l.foldl (fun s g => match g.well with | none => s.holdLines g.addr g.len (some g.key) | some _ => s) s
/-- The homes of a tile access's lines have answered the thread that issued it (R253). -/
def State.tileAnswered (s : State) (a : TAcc) : State :=
  let dram (k : Nat) : Nat := if a.dram then 420 - s.nearLatency (dieOf a.h) k else 0
  (dedup (a.segs.flatMap fun g => match g.well with
    | none => linesOf g.addr g.len
    | some _ => [])).foldl (fun s u => match u with
      | .line k => s.answered a.h k (s.cycle - a.left - dram k)
      | .sector _ _ => s) s

/-! ### The identifier table (R125) -/

/-- An entry of a context's table. -/
def State.tensor (s : State) (c t : Nat) : Option Desc := (s.ctx c).bind fun x => tfind x.tensors t
def State.setTensor (s : State) (c t : Nat) (d : Option Desc) : State :=
  s.modCtx c fun x => { x with tensors := match d with
    | some d => tset x.tensors t d
    | none => terase x.tensors t }
/-- The clusters in which a context is resident. -/
def State.residentClusters (s : State) (c : Nat) : List Nat :=
  dedup ((s.cores.filter fun x => x.2.holder = some c).map fun x => x.1 / 32)
/-- The other clusters that have to acknowledge a change. -/
def State.ackClusters (s : State) (h : Nat) : List Nat :=
  (s.residentClusters (s.thread h).ctx).filter (· ≠ clusterOf h)
/-- Their acknowledgements (R185). -/
def State.awaitAcks (s : State) (h : Nat) : State :=
  (s.ackClusters h).foldl (fun s cl => s.later (if cl / 4 = dieOf h then 60 else 110) (.tableChangeAck h cl)) s
/-- The descriptor's read begins: a tile access (R254, R263). -/
def startDescRead (a : TAcc) (n : Nat) (s : State) : State :=
  let (id, s) := s.fresh
  let way := match a.units with | .line k :: _ => s.nearLatency (dieOf a.h) k | _ => 0
  let e := Event.tileLockGrant a.h id
  let a := { a with reqAt := s.cycle + n, left := s.cycle + n - way, relWait := s.takeOut (.thread a.h) a.sent, insn := s.issue.insn }
  let s := { s with taccs := tset s.taccs id a }
  if a.relWait then s.later n e else s.leavesCluster a.h 64 n e fun s => s.later n e
/-- R185, R188: the instruction is in flight from its issue on; its page's translation adds to its read. -/
def execTdef (t : BitVec 8) (a : Reg) (s : State) : Ans :=
  checkedBy (.tdef t a) (fun s => (noGang s).orElse fun _ =>
      if (s.getX a).toNat % 64 ≠ 0 then some (4, s.getX a) else none) s fun s =>
    let h := s.me
    s.ordered false fun s =>
      let n := s.trExtra s.view (s.getX a).toNat .read
      match s.translateNow s.view (s.getX a) .read with
      | (.error c, s) => s.trap c (s.getX a)
      | (.ok p, s) =>
      let s := (s.blocks (.table t.toNat ((s.ackClusters h).length + 1) none)).awaitAcks h
      startDescRead { h := h, excl := false, units := linesOf p.key 64, reqAt := 0, sent := s.cycle, buf := List.replicate 64 0,
                      segs := [{ well := none, addr := p.key, off := 0, len := 64, key := p.ks, sa := p.sa }], done := .tdef }
        (n + s.nearLatency (dieOf h) p.key) s
/-- R186. -/
def execTinv (t : BitVec 8) (s : State) : Ans :=
  checkedBy (.tinv t) noGang s fun s => s.ordered false fun s =>
    let h := s.me
    match s.ackClusters h with
    | [] => (s.setTensor s.self.ctx t.toNat none).pass 4
    | l => (s.blocks (.table t.toNat l.length none)).awaitAcks h
/-- The instruction's entry changes when the last answer has come (R125). -/
def tableAnswer (h t left : Nat) (d : Option Desc) (s : State) : State :=
  if 1 < left then s.modThread h fun x => { x with run := .blocked (.table t (left - 1) d) }
  else ((s.setTensor (s.thread h).ctx t d).passOf h 4).goesOn h
/-- The 64 bytes of a descriptor have been read: a TDEF that breaks R124 traps, and its entry stays as it was (R185). -/
def State.descRead (s : State) (h : Nat) (bs : List Byte) : State :=
  match (s.thread h).run with
  | .blocked (.table t left _) => (match descFault bs with
      | some o => parkTrap h 2 (s.thread h).seq.pc (word o) (s.dropEvents fun | .tableChangeAck g _ => g = h | _ => false)
      | none => tableAnswer h t left (some (descOf bs)) s)
  | _ => s
/-- R185, R186: a cluster acknowledges the change. Until the last answer every instruction finds the old entry, where R125 lets one
on another core find either (log 20). -/
def execTableChangeAck (s : State) : Ans :=
  onEvent s fun | .tableChangeAck h _ => (match (s.thread h).run with
                    | .blocked (.table t left d) => tableAnswer h t left d s
                    | _ => s)
                | _ => s
/-- R187. -/
def execTqry (t : BitVec 8) (b d : Reg) (s : State) : Ans :=
  checkedBy (.tqry t b d) (fun s => if 9 ≤ wfield (s.getX b) 3 0 then some (2, word (wfield (s.getX b) 3 0)) else none) s fun s =>
    let k := wfield (s.getX b) 3 0
    let e := s.tensor s.self.ctx t.toNat
    let v := if k = 8 then word (b2n e.isSome) else match e with
      | some e => e.words.getD k 0
      | none => 0
    (s.setX d v).pass 4
/-- The identifier that an instruction names (R125). -/
def tensorCheck (s : State) (t : BitVec 8) : Option (Nat × Word) :=
  if (s.tensor s.self.ctx t.toNat).isSome then none else some (2, t.zeroExtend 64)

end Sys2Proof.Machine
end

