-- ==== Sys2Proof/Machine/Tile.lean ====
section
/-!
DEFINITION. Tile accesses: locking in order (R254-R263), TLD and TST (R286-R288).
-/

namespace Sys2Proof.Machine

/-! ### The draws of a core, as a tile read finds them (R129, R137, R143) -/

/-- Tiles of a box. -/
def boxSize (extent : List Nat) : Nat := extent.foldl (· * ·) 1
def State.draw (s : State) (core num seq : Nat) : Option Draw :=
  (tfind (s.core core).draws num).filter fun d => d.handle / 4096 = seq
def State.setDraw (s : State) (core num : Nat) (d : Draw) : State :=
  s.modCore core fun k => { k with draws := tset k.draws num d }
def Draw.seq (d : Draw) : Nat := d.handle / 4096
/-- Tiles of the box (R128). -/
def Draw.tiles (d : Draw) : Nat := boxSize d.extent
/-- The tile of a linear index (R143). -/
def Draw.coords (d : Draw) (idx : Nat) : List Nat :=
  let e (k : Nat) : Nat := max (d.extent.getD k 1) 1
  let o (k : Nat) : Nat := d.origin.getD k 0
  [o 0 + idx % e 0, o 1 + idx / e 0 % e 1, o 2 + idx / (e 0 * e 1) % e 2, o 3 + idx / (e 0 * e 1 * e 2) % e 3]
/-- The identifiers of two draws agree in what R137 names. -/
def sameSweep (a b : Desc) : Bool :=
  a.base = b.base && a.fmt = b.fmt && a.rows = b.rows && a.rowBytes = b.rowBytes && a.dim0 = b.dim0 && a.dim1 = b.dim1
    && a.dim2 = b.dim2 && a.dim3 = b.dim3 && a.s1 = b.s1 && a.s2 = b.s2 && a.s3 = b.s3
/-- The reads of other draws that a read may serve as well: same partition, identifiers and tile, the slot claimed, the same bytes of
memory (R137). -/
def State.sharers (s : State) (id : Nat) (a : TAcc) (core num seq idx : Nat) : List (Nat × TAcc) :=
  match s.draw core num seq with
  | none => []
  | some d => s.taccs.filter fun (j, x) => j ≠ id && x.segs = a.segs && match x.done with
      | .drawRead c n q _ i => (s.draw c n q).any fun e =>
          sameSweep d.desc e.desc && e.coords i = d.coords idx && (s.ctx e.ctx).map (·.part) = (s.ctx d.ctx).map (·.part)
      | _ => false

/-! ### Locking -/

/-- The die of a line's home, for the steps of R263; other homes count as places of their own. -/
def State.homeDie (s : State) (key : Nat) : Nat :=
  match s.home key with | .slice sl _ => sl / 32 | .host => 100 | .remote d => 101 + d | .nowhere => 200
/-- The cycles from unit a to the next, unit number i (R263). -/
def State.unitStep (s : State) (a b : LockUnit) (i : Nat) : Nat :=
  match a, b with
  | .line x, .line y => if s.homeDie x = s.homeDie y then 4 else 50
  | _, _ => if i % 16 = 0 then 1 else 0
/-- The cycles to the first unit for an access of a core (R263); a line that its slice does not hold takes more (R413). -/
def State.firstLatency (s : State) (h : Nat) (excl : Bool) (us : List LockUnit) : Nat :=
  match us with
  | [] => 0
  | .line k :: _ => s.nearLatency (dieOf h) k
  | .sector c _ :: _ =>
    if c = coreOf h then 4 else if excl then 6 + 2 * hops (coreOf h) c else 12 + 4 * hops (coreOf h) c
/-- A TQTRY before it has no answer yet (R337). -/
def State.tileHeld (s : State) (a : TAcc) : Bool := match a.done with
  | .tld _ _ _ | .tst | .qld _ _ | .qst | .tdef => s.takeOut (.thread a.h) a.sent
  | .copyRead id => s.takeOut (.thread a.h) a.sent && (tfind s.copies id).any (·.node.isNone)
  | _ => false
/-- The bytes of an entry of a pair queue have been read (R190). -/
def State.fillEntry (s : State) (h q id : Nat) (bs : List Byte) : State :=
  s.modCore (coreOf h) fun k => { k with queues := tmod {} k.queues (4 * (slotOf h % 4) + q) fun (x : Queue) =>
    { x with ents := x.ents.map fun e => if e.wait = some id then { e with val := BitVec.ofNat 1024 (ofBytes bs) } else e } }
/-- Accesses that the core issues for a thread (R254). -/
def tileOfThread (a : TAcc) : Bool := match a.done with
  | .tld _ _ _ | .tst | .tdef | .qld _ _ | .qst => true
  | _ => false
/-- The bytes of an access that lie in memory, by sectors of 64 (R377). -/
def farTileBytes (segs : List Seg) : Nat :=
  64 * sumList ((segs.filter (·.well.isNone)).map fun g => (g.addr + g.len + 63) / 64 - g.addr / 64)
/-- The requests of a tile access leave, its first unit's to arrive n cycles later: a core's pass the cluster router (R377). -/
def State.tileLeaves (s : State) (id : Nat) (a : TAcc) (n : Nat) : State :=
  let e := Event.tileLockGrant a.h id
  let b := farTileBytes a.segs
  let copy (c : Nat) : Bool := (tfind s.copies c).any (·.node.isNone)
  let mine : Bool := tileOfThread a || match a.done with
    | .copyRead c => copy c
    | .copyWrite c => copy c
    | _ => false
  if mine && b ≠ 0 then s.leavesCluster a.h b n e fun s => s.later n e else s.later n e
/-- A tile access begins: its first unit is requested n cycles from now, or once its release has its conditions. -/
def State.startTile (s : State) (a : TAcc) (n : Nat) : State :=
  let (id, s) := s.fresh
  let a := { a with reqAt := s.cycle + n, relWait := a.relWait || s.tileHeld a, insn := s.issue.insn, left := s.cycle + n - s.firstLatency a.h a.excl a.units }
  let s := { s with taccs := tset s.taccs id a }
  if a.relWait then s.later (max n 1) (.tileLockGrant a.h id) else s.tileLeaves id a n
/-- A draw's read is over, its own or one that another draw shares with it; the tile lands in its ring later, in a cycle that the
device chooses (R131, R137). -/
def landDrawRead (id : Nat) (a : TAcc) (buf : List Byte) (s : State) : State :=
  let s := { s with taccs := terase s.taccs id
                    locks := s.locks.map fun (l : Lock) => if l.acc = id then { l with until_ := some s.cycle } else l }
  match a.done with
  | .drawRead core num seq slot idx =>
    let (n, s) := s.choose 65536
    s.later (n + 1) (.drawTileLand core num seq slot idx [buf])
  | _ => s
/-- So for a copy of a thread; a copy node's replies have no issuing core. -/
def State.copyTileAnswered (s : State) (id : Nat) (a : TAcc) : State :=
  if (tfind s.copies id).any fun c => c.node.isNone then s.tileAnswered a else s
/-- A tile access is performed (R258): its locks are held to the end of this cycle. -/
def performTile (id : Nat) (a : TAcc) (s : State) : State :=
  let s := s.pruneLocks
  let s := { s with locks := s.locks.map fun (l : Lock) => if l.acc = id then { l with until_ := some s.cycle } else l
                    taccs := terase s.taccs id }
  match a.done with
  | .tld core off acq =>
    let buf := s.gather a.buf.length a.segs
    let s := ((s.holdSegs a.segs).tileAnswered a).landWell core off buf 0
    (((if acq = 0 then s else s.acquire a.h acq).passOf a.h 4).wake a.h)
  | .tst => (s.scatter a.h a.segs a.buf).tileAnswered a
  | .tdef =>
    let buf := s.gather a.buf.length a.segs
    ((s.holdSegs a.segs).tileAnswered a).descRead a.h buf
  | .qld q n =>
    let g := a.segs.headD { well := none, addr := 0, off := 0, len := 0, key := 0 }
    (s.fillEntry a.h q n (s.gather a.buf.length a.segs)).later 0 (.qldEntryArrival a.h q n (g.well.getD 0) g.addr)
  | .qst => s.scatter a.h a.segs a.buf
  | .drawLand core num seq slot idx => (s.scatter a.h a.segs a.buf).later 0 (.drawTileLand core num seq slot idx [])
  | .drawRead core num seq _ idx =>
    let buf := s.gather a.buf.length a.segs
    let l := s.sharers id a core num seq idx
    let (k, s) := if l = [] then (0, s) else s.choose 2
    ((id, a) :: if k = 0 then [] else l).foldl (fun s x => landDrawRead x.1 x.2 buf s) (s.holdSegs a.segs)
  | .copyRead c =>
    let buf := s.gather a.buf.length a.segs
    let s := (s.holdSegs a.segs).copyTileAnswered c a
    { s with copies := match tfind s.copies c with
        | some x => tset s.copies c { x with buf := buf }
        | none => s.copies }.later 0 (.copytRead c)
  | .copyWrite c => ((s.scatter a.h a.segs a.buf).copyTileAnswered c a).later 0 (.copytWrite c)
  | .push _ => s.scatter a.h a.segs a.buf
/-- Earlier accesses of the thread to the units of its tile access, or to its well banks, those of a TLD's destination among them, are still to be
performed (R267, R269, R270, R285): its first lock request waits for them. -/
def State.tileBehind (s : State) (id : Nat) (a : TAcc) : Bool :=
  a.got = 0 && tileOfThread a
    && (s.taccs.any (fun (j, x) => j < id && x.h = a.h && tileOfThread x && x.sent < a.sent && x.units.any a.units.contains)
      || s.reqs.any (fun q => reqBy q (.thread a.h) && q.sent < a.sent && (!reqCached q || reqIsMiss q) && (reqUnits q).any a.units.contains)
      || a.segs.any (fun g => match g.well with
          | some c => s.wellBehind a.h c g.addr g.len a.sent
          | none => false)
      || match a.done with
          | .tld core off _ => s.wellBehind a.h core off a.buf.length a.sent
          | _ => false)
/-- The slice of a line does not hold it. -/
def State.unitMisses (s : State) : LockUnit → Bool
  | .line k => s.missesLine k
  | .sector _ _ => false
/-- The die from which a tile access is made. -/
def State.tileDie (s : State) (a : TAcc) : Nat := match a.done with
  | .copyRead id => (tfind s.copies id).elim (dieOf a.h) fun c => c.core / 128
  | .copyWrite id => (tfind s.copies id).elim (dieOf a.h) fun c => c.core / 128
  | _ => dieOf a.h
/-- The agent takes CXL.cache ownership of a line of host memory with its lock, where every page of the access has SA = 1 (R257). -/
def State.own (s : State) : LockUnit → State
  | .line k => s.holdLine k
  | .sector _ _ => s
/-- A tile access cannot be performed at a unit: it lies beyond a link that cannot recover (R380), or a thread would read an uncorrectable
error there (R367). -/
def State.unitFails (s : State) (a : TAcc) (u : LockUnit) : Bool :=
  s.unitDead u || s.unitBroken u && match a.done with
    | .tld _ _ _ | .tdef | .qld _ _ => true
    | _ => false
/-- Such an access ends with cause 0x06 (log 17): its thread parks, its copy or its draw ends, its kernel faults. -/
def failTile (id : Nat) (a : TAcc) (u : LockUnit) (s : State) : State :=
  let va := match u with | .line k => word (k % 2 ^ 52) | .sector c o => wellAddr c o
  let s := { s with taccs := terase s.taccs id, locks := s.locks.filter fun l => l.acc ≠ id }
  let copy (c : Nat) : State := { s with copies := match tfind s.copies c with
    | some x => tset s.copies c { x with ended := some (6, 0, va) }
    | none => s.copies }.later 0 (.copytWrite c)
  match a.done with
  | .copyRead c => copy c
  | .copyWrite c => copy c
  | .drawRead core num seq slot _ => match s.draw core num seq with
    | some d => (s.setDraw core num { d with slots := terase d.slots slot, ending := true, fault := some (6, va) }).later 0 (.drawTileClaim core num seq)
    | none => s
  | .push c => if a.sent < (s.pump c).since then s else pumpFault c 6 va s
  | _ => failThread a.h a.sent a.insn va s
/-- The bytes of an access in a unit, by sectors. -/
def bytesAt (segs : List Seg) : LockUnit → Nat
  | .line k => 64 * sumList ((segs.filter (·.well.isNone)).map fun g =>
      (min (g.addr + g.len) (k + 256) + 63) / 64 - max g.addr k / 64)
  | .sector _ _ => 0
/-- The next unit of a tile access is requested, once the limits of its home let it in (R377), and granted if the unit allows it (R258,
R259). -/
def grantUnit (h id : Nat) (a : TAcc) (s : State) : State :=
  match a.units[a.got]? with
  | none => performTile id a s
  | some u =>
    enter u s fun a s =>
    if let some x := a.units.find? (s.unitFails a) then failTile id a x s
    else if s.tileBehind id a then { s with taccs := tset s.taccs id { a with reqAt := s.cycle + 1 } }.later 1 (.tileLockGrant h id)
    else if a.got = 0 && !a.dram && s.unitMisses u then
      let n := 420 - (match u with | .line k => s.nearLatency (s.tileDie a) k | .sector _ _ => 0)
      { s with taccs := tset s.taccs id { a with dram := true, reqAt := s.cycle + n } }.later n (.tileLockGrant h id)
    else if s.unitUnready u || s.lockStops u a.excl (some id) || s.earlierWaits u a.excl a.reqAt (orderKey h a.sent) (some id) then s.later 1 (.tileLockGrant h id)
    else
      let s := if a.segs.all (·.sa) && a.segs.any (fun g => g.well.isNone && 2 ^ 51 ≤ g.addr && (linesOf g.addr g.len).contains u) then s.own u else s
      let s := { s with locks := { unit := u, excl := a.excl, acc := id } :: s.locks }
      let a := { a with got := a.got + 1 }
      match a.units[a.got]? with
      | none => performTile id a s
      | some v =>
        let n := s.unitStep u v a.got
        { s with taccs := tset s.taccs id { a with reqAt := s.cycle + n } }.later n (.tileLockGrant h id)
where
  /-- It arrives at a unit, for the first time. -/
  enter (u : LockUnit) (s : State) (f : TAcc → State → State) : State :=
    match u with
    | .sector _ _ => f a s
    | .line k =>
      if a.got < a.entered then f a s
      else
        let a := { a with entered := a.got + 1 }
        { s with taccs := tset s.taccs id a }.arrivesAt k (bytesAt a.segs u) (.tileLockGrant h id) (f a)
/-- R258, R259, R288. -/
def execTileLockGrant (s : State) : Ans :=
  onEvent s fun | .tileLockGrant h id => (match tfind s.taccs id with
                    | none => s
                    | some a =>
                      if !a.relWait then grantUnit h id a s
                      else if (a.rel.isNone || s.releaseDone (.thread h) a.sent (a.rel.getD 1)) && !s.tileHeld a then
                        let n := s.firstLatency h a.excl a.units
                        let a := { a with relWait := false, reqAt := s.cycle + n, left := s.cycle }
                        { s with taccs := tset s.taccs id a }.tileLeaves id a n
                      else s.later 1 (.tileLockGrant h id))
                | _ => s

/-! ### TLD and TST -/

/-- The range of a tile in the issuer's own well: item 4 of R287. -/
def ownRangeCheck (s : State) (d : Desc) (a : Word) : Option (Nat × Word) :=
  if wfield a 63 25 ≠ 0 || wfield a 24 20 ≠ coreIdx s.myCore || 2 ^ 20 < wellOff a + d.nrows * d.rb then some (6, a)
  else if wellOff a % fmtSize d.fmt ≠ 0 then some (4, a) else none
/-- Items 1 to 4 of R287. -/
def tileCheck (s : State) (t : BitVec 8) (store : Bool) (b a : Reg) : Option (Nat × Word) :=
  match s.tensor s.self.ctx t.toNat with
  | none => some (2, t.zeroExtend 64)
  | some d =>
    if 2 ≤ d.kind then some (2, t.zeroExtend 64)
    else if store && d.ro then some (6, t.zeroExtend 64)
    else if !d.inGrid (coordsOf (s.getX b)) then some (2, s.getX b)
    else ownRangeCheck s d (s.getX a)
/-- Item 5 of R287 for a tensor in a well: the runs, or the cause and the address. -/
def wellSegs (s : State) (h : Nat) (d : Desc) (write : Bool) (ps : List Piece) : Except (Nat × Word) (List Seg) :=
  let owner := wellCore h d.base
  let ps := sortBy (fun p => p.addr.toNat) ps
  match ps.find? fun p => wfield p.addr 63 25 ≠ 0 || wellCore h p.addr ≠ owner || 2 ^ 20 < wellOff p.addr + p.len with
  | some p => .error (6, p.addr)
  | none =>
    if !nbit (s.rights (coreOf h) owner) (b2n write) then .error (7, (ps.headD { addr := d.base, off := 0, len := 0, half := false }).addr)
    else .ok (ps.map fun p => { well := some owner, addr := wellOff p.addr, off := p.off, len := p.len, key := 0, half := p.half })
/-- The footprint of a tile of a thread's tensor, checked (R256, R287), with race detection for a tensor in a well. -/
def tileSegs (d : Desc) (j : List Nat) (write race : Bool) (s : State) (f : List Seg → State → State) : State :=
  let h := s.me
  if d.well then
    match wellSegs s h d write (d.pieces j) with
    | .error (c, v) => s.trap c v
    | .ok l =>
      if !race then f l s
      else match s.raceCheck (coreOf h) s.self.ctx write (l.map fun g => (g.well.getD 0, g.addr, g.len)) with
        | (some v, s) => s.trap 0x0C v
        | (none, s) => f l s
  else match s.segsOf s.view (if write then .write else .read) (d.pieces j) with
    | (.error e, s) => s.trap e.cause e.va
    | (.ok l, s) => f l s
/-- A store of the thread to its own well is still to land in a range. -/
def State.ownStoresTo (s : State) (h off n : Nat) : Bool :=
  s.agenda.any (fun x => match x.2 with
    | .wellStoreLand g c o bs _ => g = h && c = coreOf h && rangeMeets o bs.length off n
    | _ => false)
    || s.reqs.any (fun q => reqBy q (.thread h) && isWellKey q.addr && keyCore q.addr = coreOf h
        && rangeMeets (q.addr % 2 ^ 20) (farBytes q.op) off n && farWrites q.op)
    || s.taccs.any fun x => x.2.h = h && (match x.2.done with | .qst => true | .tst => true | _ => false)
        && x.2.segs.any fun g => g.well = some (coreOf h) && rangeMeets g.addr g.len off n
/-- R287, R288. -/
def execTld (t : BitVec 8) (b a : Reg) (o : BitVec 3) (s : State) : Ans :=
  checkedBy (.tld t b a o) (fun s => tileCheck s t false b a) s fun s =>
    match s.tensor s.self.ctx t.toNat with
    | none => s
    | some d =>
      let h := s.me
      let extra := s.trMost s.view .read (piecePages (d.pieces (coordsOf (s.getX b))))
      s.ordered (o ≠ 0) fun s => tileSegs d (coordsOf (s.getX b)) false (o = 0) s fun l s =>
        let us := unitsOf l
        let acc : TAcc := { h := h, excl := false, units := us, reqAt := 0, sent := s.cycle, segs := l,
                            buf := List.replicate (d.nrows * d.rb) 0, done := .tld s.myCore (wellOff (s.getX a)) o.toNat }
        let n := if d.well then 0 else extra
        (s.blocks .tile).startTile acc (n + s.firstLatency h false us)
/-- R287, R288: the source is read in the issue cycle; a release delays the first lock request. -/
def execTst (t : BitVec 8) (b a : Reg) (o : BitVec 3) (s : State) : Ans :=
  checkedBy (.tst t b a o) (fun s => tileCheck s t true b a) s fun s =>
    match s.tensor s.self.ctx t.toNat with
    | none => s
    | some d =>
      let h := s.me
      let off := wellOff (s.getX a)
      let n := d.nrows * d.rb
      let extra := if d.well then 0 else s.trMost s.view .write (piecePages (d.pieces (coordsOf (s.getX b))))
      s.ordered false fun was => tileSegs d (coordsOf (s.getX b)) true (o = 0) was fun l s =>
        let us := unitsOf l
        if s.ownStoresTo h off n then was.stalls
        else
          let acc : TAcc := { h := h, excl := true, units := us, reqAt := 0, sent := s.cycle, segs := l,
                              buf := s.wellRead s.myCore off n, done := .tst }
          let s := if o = 0 then s.startTile acc (extra + s.firstLatency h true us)
            else ((s.retires (some o.toNat)).releaseBegin s.cur o.toNat).startTile { acc with rel := some o.toNat, relWait := true } (1 + extra)
          s.pass 4

end Sys2Proof.Machine
end

