-- ==== Sys2Proof/Machine/Queues.lean ====
section
/-!
DEFINITION. Pair queues (R16-R19): what an execute instruction pops and pushes, QLD, QST and QPX (R189-R192).
-/

namespace Sys2Proof.Machine

/-- The vector registers that an execute instruction reads, in operand order, and the one that it writes (R17). -/
def vectorUses : Instr → List Reg × Option Reg
  | .vaddF32Parcel s d | .vsubF32Parcel s d | .vmulF32Parcel s d | .vmaxF32Parcel s d | .vminF32Parcel s d
  | .vaddI32Parcel s d | .vsubI32Parcel s d | .vandParcel s d | .vorParcel s d | .vxorParcel s d | .vaddB16Parcel s d
  | .vmulB16Parcel s d | .vshlI32Parcel s d | .vsraI32Parcel s d => ([d, s], some d)
  | .vmovParcel s d | .vnegF32Parcel s d => ([s], some d)
  | .vadd _ b a d | .vsub _ b a d | .vmul _ b a d | .vmin _ b a d | .vminN _ b a d | .vmax _ b a d | .vmaxN _ b a d
  | .vand _ b a d | .vor _ b a d | .vxor _ b a d | .vshl _ b a d | .vshr _ b a d | .vsra _ b a d | .vcmp _ _ b a d
  | .vqnt _ _ _ b a d | .vdq _ _ b a d | .vperm _ b a d | .vdiv _ b a d => ([a, b], some d)
  | .vfma _ b a d | .vfms _ b a d | .vsel _ b a d => ([a, b, d], some d)
  | .vabs _ a d | .vneg _ a d | .vnot _ a d | .vcvt _ _ _ _ a d | .vslide _ _ a d | .vrsum _ a d | .vrmax _ a d
  | .vrmaxN _ a d | .vrmin _ a d | .vrminN _ a d | .vrcp _ a d | .vrsq _ a d | .vsqrt _ a d | .vexp2 _ a d | .vlog2 _ a d
  | .vsinp _ a d | .vcosp _ a d | .vtanh _ a d | .hlook _ _ a d => ([a], some d)
  | .vtopk _ _ a d | .vtopkN _ _ a d => ([a], some d)
  | .vbcast _ _ d | .viota _ d | .vmovi _ _ d | .wrnd _ d | .wsave _ d | .vldc _ d => ([], some d)
  | .vins _ _ _ d => ([d], some d)
  | .vext _ _ a _ | .vextN _ _ a _ | .wacc _ a _ | .wload a _ => ([a], none)
  | .waccp _ b a _ => ([a, b], none)
  | .hacc _ _ b a => ([a, b], none)
  | .vstc _ d => ([d], none)
  | _ => ([], none)
/-- R17: v30 and v31 are never read, v28 and v29 never written. -/
def vectorBad (i : Instr) : Bool :=
  (vectorUses i).1.any (30 ≤ ·.toNat) || (vectorUses i).2.any fun d => d = 28 || d = 29

/-! ### The state of a queue -/

def State.queue (s : State) (core pair q : Nat) : Queue := tget {} (s.core core).queues (4 * pair + q)
def State.modQueue (s : State) (core pair q : Nat) (f : Queue → Queue) : State :=
  s.modCore core fun k => { k with queues := tmod {} k.queues (4 * pair + q) f }
/-- Entries of a queue (R16). -/
def queueSize (q : Nat) : Nat := if q < 2 then 16 else 8
/-- The oldest n entries can be popped in a cycle. -/
def Queue.canPop (x : Queue) (n cycle : Nat) : Bool :=
  n ≤ x.ents.length && (x.ents.take n).all fun e => e.wait.isNone && e.at_ ≤ cycle
/-- A free entry can be filled in a cycle (R18). -/
def Queue.canPush (x : Queue) (q cycle : Nat) : Bool :=
  x.ents.length + (x.freed.filter (cycle < ·)).length < queueSize q
def pairOf (h : Nat) : Nat := slotOf h % 4
/-- The draw is complete: its counter has reached the number of tiles, or it ends and holds no tile (R100, R140). -/
def Draw.isOver (d : Draw) : Bool := d.counted = d.tiles || d.ending && d.slots = []
/-- The thread of a slot has exited or was never started (R19); a slot that an active draw may use counts as started
(R101). -/
def State.slotGone (s : State) (h : Nat) : Bool :=
  s.slotFree h && !(isAccess h && (s.core (coreOf h)).draws.any fun d => nbit d.2.allow (slotOf h) && !d.2.isOver)
/-- What an instruction pops and pushes of its pair's queues: queue and number of pops; queue pushed. -/
def queueUses (i : Instr) : List (Nat × Nat) × Option Nat :=
  match i with
  | .qld _ n => ([], some n.toNat)
  | .qpx _ _ n => ([], some n.toNat)
  | .qst _ n => ([(n.toNat, 1)], none)
  | _ =>
    let (rs, d) := vectorUses i
    (([28, 29].map fun r => (r - 28, (rs.filter (·.toNat = r)).length)).filter (·.2 ≠ 0),
     match d with
     | some d => if d = 30 then some 2 else if d = 31 then some 3 else none
     | none => none)
/-- A queue that keeps an instruction waiting in a cycle. -/
def State.queueWaits (s : State) (h : Nat) (i : Instr) (cycle : Nat) : Option Nat :=
  let (pops, push) := queueUses i
  let q (n : Nat) : Queue := s.queue (coreOf h) (pairOf h) n
  match pops.find? fun (n, k) => !(q n).canPop k cycle with
  | some (n, _) => some n
  | none => match push with
    | some n => if (q n).canPush n cycle then none else some n
    | none => none
/-- The queue on which an instruction would wait for ever (R19). -/
def State.queueMisuse (s : State) (h : Nat) (i : Instr) : Option Nat :=
  if !s.slotGone (partner h) then none
  else
    let (pops, push) := queueUses i
    let q (n : Nat) : Queue := s.queue (coreOf h) (pairOf h) n
    match pops.find? fun (n, k) => (q n).ents.length < k with
    | some (n, _) => some n
    | none => match push with
      | some n => if queueSize n ≤ (q n).ents.length then some n else none
      | none => none
/-- The partner, if it is blocked on a queue, looks again in the cycle before one in which it may go on (R18). -/
def State.wakePartner (s : State) (h cycle : Nat) : State :=
  match (s.thread (partner h)).run with
  | .blocked (.queue _) => s.at_ cycle (.queueWake (partner h))
  | _ => s
/-- R18: the blocked instruction can issue in the next cycle; or the thread that it waits for is gone (R19). -/
def execQueueWake (s : State) : Ans :=
  onEvent s fun | .queueWake h => (match (s.thread h).run, blockedInsn (s.thread h) with
                    | .blocked (.queue _), some i => match s.queueMisuse h i with
                      | some q => parkTrap h 0x12 (s.thread h).seq.pc (word q) s
                      | none => if (s.queueWaits h i (s.cycle + 1)).isNone then s.wake h else s
                    | _, _ => s)
                | _ => s
/-- The other thread of the pair, if it waits for a queue and no longer has to, may issue in this cycle (R192). -/
def State.partnerGoesOn (s : State) (h : Nat) : State :=
  let g := partner h
  match (s.thread g).run, blockedInsn (s.thread g) with
  | .blocked (.queue _), some i => if (s.queueMisuse g i).isNone && (s.queueWaits g i s.cycle).isNone then s.goesOn g else s
  | _, _ => s
/-- A thread blocks on a queue: it looks again when an entry or a free space that is on its way can be used (R18). -/
def blockOnQueue (q : Nat) (s : State) : State :=
  let h := s.me
  let s := s.blocks (.queue q)
  (List.range 4).foldl (fun s n =>
    let x := s.queue (coreOf h) (pairOf h) n
    ((x.ents.filterMap fun e => if e.wait.isNone && s.cycle < e.at_ then some e.at_ else none) ++ x.freed.filter (s.cycle < ·)).foldl
      (fun s c => s.at_ (c - 1) (.queueWake h)) s) s
/-- An instruction that uses queues issues, blocks or traps (R17, R19). -/
def onQueues (i : Instr) (s : State) (f : State → State) : State :=
  match s.queueMisuse s.me i with
  | some q => s.trap 0x12 (word q)
  | none => match s.queueWaits s.me i s.cycle with
    | some q => blockOnQueue q s
    | none => f s
/-- Pops the oldest entry. -/
def State.popQueue (s : State) (h q : Nat) : VReg × State :=
  let x := s.queue (coreOf h) (pairOf h) q
  let v := match x.ents with | e :: _ => e.val | [] => 0
  let s := s.modQueue (coreOf h) (pairOf h) q fun x =>
    { ents := x.ents.drop 1, freed := (x.freed.filter (s.cycle < ·)) ++ [s.cycle + 2] }
  (v, s.wakePartner h (s.cycle + 1))
/-- Pushes an entry that can be popped from a cycle on, and never before the entries ahead of it. -/
def State.pushQueue (s : State) (h q : Nat) (v : VReg) (at_ : Nat) (wait : Option Nat) : State :=
  let s := s.modQueue (coreOf h) (pairOf h) q fun x => { x with ents := x.ents ++ [{ val := v, at_ := at_, wait := wait }] }
  if wait.isSome then s else s.wakePartner h (at_ - 1)
/-- The vector operands of an execute instruction, popped where they name a queue (R17). -/
def State.takeOperands (s : State) (rs : List Reg) : List VReg × State :=
  rs.foldl (fun (acc : List VReg × State) (r : Reg) =>
    let (l, s) := acc
    if r = 28 || r = 29 then
      let (v, s) := s.popQueue s.me (r.toNat - 28)
      (l ++ [v], s)
    else (l ++ [s.self.getV r.toNat], s)) ([], s)
/-- Writes a vector result, or pushes it (R17). -/
def State.putV (s : State) (d : Reg) (v : VReg) : State :=
  if d = 30 || d = 31 then s.pushQueue s.me (d.toNat - 28) v (s.cycle + 2) none
  else s.modSelf fun t => t.setV d.toNat v

/-! ### QLD, QST, QPX (R190-R192) -/

def vregOfBytes (bs : List Byte) : VReg := BitVec.ofNat 1024 (ofBytes bs)
def bytesOfVreg (v : VReg) : List Byte := toBytes 128 v.toNat
/-- Items 1 to 3 of R190 for n bytes. -/
def transferCheck (s : State) (h : Nat) (a : Word) (n : Nat) (write : Bool) : Option (Nat × Word) :=
  if wfield a 63 25 ≠ 0 || 2 ^ 20 < wellOff a + n then some (6, a)
  else if a.toNat % 16 ≠ 0 then some (4, a)
  else if !nbit (s.rights (coreOf h) (wellCore h a)) (b2n write) then some (7, a)
  else none
def queueIn (n : BitVec 2) (push : Bool) : Option (Nat × Word) :=
  if decide (n.toNat < 2) = push then none else some (2, n.zeroExtend 64)
/-- The tile access of a QLD or QST (R254); a QLD from the own well is read in the next cycle, so that its entry can be popped in
the one after (R192). -/
def startTransfer (h c off : Nat) (bs : List Byte) (done : TDone) (s : State) : State :=
  let write : Bool := done = .qst
  s.startTile { h := h, excl := write, units := sectorsOf c off 128, reqAt := 0, sent := s.cycle, buf := bs, done := done,
                segs := [{ well := some c, addr := off, off := 0, len := 128, key := 0 }] }
    (if c = coreOf h then (if write then 6 else 1) else s.firstLatency h write [.sector c off])
/-- Item 4 of R285 for a transfer, and its queue: what is checked comes before any block, and marks are set with the effect (R23,
R190, R279). -/
def transfer (i : Instr) (c off : Nat) (write : Bool) (s : State) (f : State → State) : State :=
  let go (s : State) : Option Word × State := s.raceCheck s.myCore s.self.ctx write [(c, off, 128)]
  match (go s).1 with
  | some v => s.trap 0x0C v
  | none => onQueues i s fun s => f (go s).2
/-- R190: the entry takes its place in the queue at issue. -/
def execQld (a : Reg) (n : BitVec 2) (s : State) : Ans :=
  checkedBy (.qld a n) (fun s => (queueIn n true).orElse fun _ => transferCheck s s.me (s.getX a) 128 false) s fun s =>
    let h := s.me
    let va := s.getX a
    let c := wellCore h va
    let off := wellOff va
    s.ordered false fun s => transfer (.qld a n) c off false s fun s =>
      let (id, s) := s.fresh
      let n' := if c = coreOf h then 2 else 12 + 4 * hops (coreOf h) c
      (startTransfer h c off (List.replicate 128 0) (.qld n.toNat id) (s.pushQueue h n.toNat 0 (s.cycle + n') (some id))).pass 4
/-- R192, R263: the bytes of core c's well have been read, and the entry can be popped: in the next cycle from the own well, in this one from
a peer's. -/
def execQldEntryArrival (s : State) : Ans :=
  onEvent s fun | .qldEntryArrival h q id c _ =>
                    let at_ := s.cycle + (if c = coreOf h then 1 else 0)
                    let fill (e : QEntry) : QEntry := if e.wait = some id then { e with wait := none, at_ := max e.at_ at_ } else e
                    let s := s.modQueue (coreOf h) (pairOf h) q fun x => { x with ents := x.ents.map fill }
                    if c = coreOf h then s.wakePartner h s.cycle else s.partnerGoesOn h
                | _ => s
/-- R190: the write lands as an STL would (R192). -/
def execQst (a : Reg) (n : BitVec 2) (s : State) : Ans :=
  checkedBy (.qst a n) (fun s => (queueIn n false).orElse fun _ => transferCheck s s.me (s.getX a) 128 true) s fun s =>
    let h := s.me
    let va := s.getX a
    let c := wellCore h va
    let off := wellOff va
    s.ordered false fun s => transfer (.qst a n) c off true s fun s =>
      let (v, s) := s.popQueue h n.toNat
      (startTransfer h c off (bytesOfVreg v) .qst s).pass 4
/-- R190. -/
def execQpx (b a : Reg) (n : BitVec 2) (s : State) : Ans :=
  checkedBy (.qpx b a n) (fun _ => queueIn n true) s fun s => onQueues (.qpx b a n) s fun s =>
    (s.pushQueue s.me n.toNat (BitVec.ofNat 1024 ((s.getX a).toNat + (s.getX b).toNat * 2 ^ 64)) (s.cycle + 2) none).pass 4

end Sys2Proof.Machine
end

