-- ==== Sys2Proof/Machine/Work.lean ====
section
/-!
DEFINITION. What ends together: threads (R76, R100), the nodes and contexts that they belong to (R345, R355), the bodies and
nodes that wait for their slots (R99, R345), and the tasks that they hold (R339).
-/

namespace Sys2Proof.Machine

/-- A slot that holds a thread. -/
def liveThread (t : Thread) : Bool :=
  match t.run with
  | .unused => false
  | .exited => false
  | _ => true
/-- Work of a kernel node that has not ended (R345). -/
def State.nodeBusy (s : State) (c q : Nat) : Bool :=
  s.threads.any (fun x => x.2.ctx = c && x.2.node = some q && liveThread x.2)
    || s.cores.any (fun x => x.2.draws.any fun d => d.2.ctx = c && d.2.node = some q)
    || s.copies.any (fun x => x.2.ctx = c && x.2.kern = some q)
    || s.bks.any (fun x => x.2.ctx = c && x.2.kern = some q)
/-- A kernel node completes in the cycle in which nothing of it is left (R345). -/
def State.nodeCheck (s : State) (c : Nat) (q : Option Nat) : State :=
  match q with
  | none => s
  | some q => if s.nodeBusy c q then s else s.later 0 (.nodeComplete c q 15)
/-- An accepted node that is pending or running (R355). -/
def nodeOpen (n : Node) : Bool := n.words ≠ [] && match n.phase with
  | .waiting => true
  | .running => true
  | _ => false
/-- What keeps a context from completing (R355). -/
def State.ctxBusy (s : State) (c : Nat) : Bool :=
  s.threads.any (fun x => x.2.ctx = c && liveThread x.2)
    || (s.ctx c).any (fun x => x.nodes.any fun n => nodeOpen n.2)
    || s.cores.any (fun x => x.2.draws.any fun d => d.2.ctx = c)
    || s.copies.any (fun x => x.2.ctx = c) || s.bks.any (fun x => x.2.ctx = c)
    || s.pumps.any fun x => x.2.kernel.any (fun k => k.1.ctx = c) || x.2.queue.any (·.ctx = c) || x.2.dispatch.any (·.ctx = c)
        || x.2.ended.any (·.launch.ctx = c)
/-- A resident context completes in the first cycle in which nothing of it is left. -/
def State.ctxCheck (s : State) (c : Nat) : State :=
  match s.ctx c with
  | some x => if !x.super && x.phase = .resident && !s.ctxBusy c then s.later 0 (.contextComplete c) else s
  | none => s
/-- Word k and the kind of a launch record (R343). -/
def Node.w (n : Node) (k : Nat) : Word := n.words.getD k 0
def Node.kind (n : Node) : Nat := wfield (n.w 0) 3 0
/-- The step that starts a node; the first one fails the kinds that R343 does not define. -/
def nodeEvent (n : Node) (c q : Nat) : Event :=
  match n.kind with
  | 1 => .copyNode c q
  | 2 => .nearMemoryNode c q
  | 3 => .configureNode c q
  | 4 => .conditionNode c q
  | 5 => .loopNode c q
  | 6 => .switchNode c q
  | _ => .kernelNode c q
/-- Nodes of a context that wait for slots or cores look again (R345, R353). -/
def State.retryNodes (s : State) (c : Nat) : State :=
  match s.ctx c with
  | none => s
  | some x => x.nodes.foldl (fun s (q, n) => if n.waitAt.isSome && n.phase = .waiting then s.later 1 (nodeEvent n c q) else s) s

/-! ### The task queue's way (R338, R357) -/

/-- The serving slice of a core's requests (R357). -/
def servingSlice (q : Part) (die : Nat) : Nat :=
  let l := (List.range q.sq).map q.slice
  (l.find? (· / 32 = die)).getD (l.headD 0)
/-- Cycles from a core to the queue (R338). -/
def State.taskWay (s : State) (h : Nat) : Nat :=
  match (s.partOfCluster (clusterOf h)).bind s.part with
  | some q => if servingSlice q (dieOf h) / 32 = dieOf h then 30 else 55
  | none => 30
/-- A thread in state HELD gives its task up (R339). -/
def State.giveUpTask (s : State) (h : Nat) : State :=
  match (s.thread h).task with
  | .held k _ =>
    (s.later (s.taskWay h) (.taskReinsert ((s.partOfCluster (clusterOf h)).getD 0) h k)).modThread h fun t => { t with task := .none }
  | _ => s

/-! ### Threads that end -/

/-- Landed tiles of a core wait for a slot. -/
def Core.landed (k : Core) : Bool :=
  k.draws.any fun d => d.2.slots.any fun x => match x.2 with | .landed _ _ => true | _ => false
/-- Flits of a thread's channels are discarded, and their slots freed (R76). -/
def State.dropFlits (s : State) (h : Nat) : State :=
  forUpto 4 s fun n s =>
    let k := ((s.thread h).chan n).flits.length
    let s := s.modThread h fun t => t.setChan n { t.chan n with flits := [] }
    forUpto k s fun _ s => s.freeSlot h n
/-- A node keeps which of its threads have ended, until their releases have taken effect (R344). -/
def State.noteEnd (s : State) (h : Nat) : State :=
  let t := s.thread h
  match t.node, t.body with
  | some q, none => s.modCtx t.ctx fun x =>
      { x with nodes := match tfind x.nodes q with
          | some n => tset x.nodes q { n with ends := (h, s.cycle) :: n.ends.filter fun (g, began) => !s.releaseDone (.thread g) began 4 }
          | none => x.nodes }
  | _, _ => s
/-- A thread ends: its slot is Exited from the next cycle (R76, R100), and what waits for that looks again. -/
def State.endThread (s : State) (h : Nat) : State :=
  let t := s.thread h
  let c := t.ctx
  let s := ((s.giveUpTask h).dropFlits h).noteEnd h
  let s := s.modThread h fun t =>
    { t with run := .exited, notBefore := s.cycle + 1, mons := Vector.replicate 4 {}, task := .none, gang := none, body := none,
             claims := [], parkReq := false, relAt := none, drawWait := false, redEvents := [], bara := [], barWait := [] }
  let core := coreOf h
  let both : Bool := !liveThread (s.thread (partner h))
    && !(s.core core).draws.any fun d => nbit d.2.allow (pairOf h) && !d.2.isOver
  let s := if both then s.modCore core fun k => k.clearPair (pairOf h) else s
  let s := s.wakePartner h (s.cycle + 1)
  let s := if (s.core core).landed then s.later 1 (.bodyStart core) else s
  (((s.nodeCheck c t.node).ctxCheck c).retryNodes c).seeInterrupts core 0x022

end Sys2Proof.Machine
end

