-- ==== Sys2Proof/Machine/Draw.lean ====
section
/-!
DEFINITION. Draws (R99-R103, R127-R144): request blocks, claims and deliveries, bodies, completion; DRAW, DCAN, DSTAT and
BDONE (R179-R184). The order of deliveries and the sharing of reads are the device's choice (R131, log 3), within the turns and the
bound of R136.
-/

namespace Sys2Proof.Machine

/-! ### The request block -/

/-- A request block by its fields (R127). -/
structure Block where
  origin : List Nat
  extent : List Nat
  body : Word
  ring : Nat
  logSlots : Nat
  logBytes : Nat
  allow : Nat
  counter : Nat
  reserved : Nat
  deriving DecidableEq, Repr
def blockOf (bs : List Byte) : Block :=
  let w := wordAt bs 3
  { origin := coordsOf (wordAt bs 0), extent := coordsOf (wordAt bs 1), body := wordAt bs 2, ring := wfield w 19 0,
    logSlots := wfield w 23 20, logBytes := wfield w 27 24, allow := wfield w 31 28, counter := wfield w 51 32,
    reserved := wfield w 63 52 }
/-- Items 2 to 9 of R128: the offset of the first one that fails. -/
def blockFault (d : Desc) (b : Block) : Option Nat :=
  let bad (k : Nat) : Bool :=
    let e := b.extent.getD k 0
    e = 0 || d.grid.getD k 0 < b.origin.getD k 0 + e
  let ringEnd := b.ring + 2 ^ (b.logSlots + b.logBytes)
  let tests : List (Bool × Nat) :=
    (List.range 4).map (fun k => (bad k, 8 + 2 * k))
      ++ [(decide (16777215 < boxSize b.extent), 8), (wbit b.body 0 || b.body = 0, 16), (decide (8 < b.logSlots), 26),
          (b.logBytes < 4 || 13 < b.logBytes, 27), (b.ring % 2 ^ b.logBytes ≠ 0 || 2 ^ 20 < ringEnd, 24),
          (decide (2 ^ b.logBytes < d.nrows * d.rb), 27), (b.allow = 0, 27),
          (b.counter % 8 ≠ 0 || rangeMeets b.counter 8 b.ring (2 ^ (b.logSlots + b.logBytes)), 28), (b.reserved ≠ 0, 30)]
  (tests.find? Prod.fst).map Prod.snd

/-! ### The draw table of a core -/

/-- The tag of a tile (R132). -/
def tagOf (j : List Nat) : Word := word (sumList ((List.range 4).map fun k => j.getD k 0 * 2 ^ (16 * k)))
/-- Tiles that are claimed or delivered. -/
def Draw.taken (d : Draw) : List Nat :=
  d.slots.filterMap (fun x => match x.2 with | .claimed i => some i | _ => none) ++ d.delivered
/-- Tiles that are neither, in cyclic order from one on. -/
def Draw.untaken (d : Draw) (from_ : Nat) : List Nat :=
  ((List.range d.tiles).map fun i => (from_ + i) % d.tiles).filter fun i => !d.taken.contains i
/-- The lowest free ring slot (R134). -/
def Draw.freeSlot (d : Draw) : Option Nat := (List.range (2 ^ d.logSlots)).find? fun i => (tfind d.slots i).isNone
/-- A pump looks for a tile of the draw, in a later cycle that the device chooses (R134, log 3). -/
def State.claims (s : State) (core num seq : Nat) : State :=
  if s.agenda.any fun x => x.2 = .drawTileClaim core num seq then s
  else match s.choose 65536 with
    | (n, s) => s.later (n + 1) (.drawTileClaim core num seq)

/-! ### DRAW, DCAN, DSTAT -/

/-- Items 1 to 3 of R180. They trap at once, before the thread would wait for a draw number (log 20). -/
def drawCheck (t : BitVec 8) (a : Reg) (s : State) : Option (Nat × Word) :=
  let v := s.getX a
  match s.tensor s.self.ctx t.toNat with
  | none => some (2, 0)
  | some d =>
    if 2 ≤ d.kind || d.well then some (2, 0)
    else if wfield v 63 25 ≠ 0 || wfield v 24 20 ≠ coreIdx s.myCore then some (6, v)
    else if v.toNat % 32 ≠ 0 then some (4, v)
    else none
/-- A thread of the core in a lower slot waits for a draw number (R180). -/
def drawAhead (s : State) (h : Nat) : Bool :=
  (List.range (slotOf h)).any fun i => (s.thread (8 * coreOf h + i)).drawWait && (s.thread (8 * coreOf h + i)).run = .ready
/-- The draw starts (R180). -/
def startDraw (d : Desc) (b : Block) (num : Nat) (rd : Reg) (s : State) : State :=
  let core := s.myCore
  let t := s.self
  let seq := (s.core core).drawSeq
  let handle := num + core * 2 ^ 3 + seq.toNat * 2 ^ 12
  let w : Draw :=
    { handle := handle, desc := d, origin := b.origin, extent := b.extent, bodyPc := b.body, ring := b.ring,
      logSlots := b.logSlots, logBytes := b.logBytes, allow := b.allow, counter := b.counter, h := s.me, ctx := t.ctx,
      sup := t.sup, node := t.node, launch := t.launch }
  let s := s.setDraw core num w
  let s := s.modCore core fun k => { k with drawSeq := seq + 1 }
  let s := s.modSelf fun t => { t with drawWait := false }
  ((s.setX rd (word handle)).pass 4).claims core num seq.toNat
/-- R180: the thread waits for a number, its earlier well stores and the release of note 6 of R270; then the block is read
and checked. -/
def execDraw (t : BitVec 8) (a d : Reg) (s : State) : Ans :=
  checkedBy (.draw t a d) (drawCheck t a) s fun s =>
    let h := s.me
    match s.tensor s.self.ctx t.toNat, (List.range 8).find? fun n => (tfind (s.core s.myCore).draws n).isNone with
    | none, _ => s
    | some _, none => (s.modSelf fun t => { t with drawWait := true }).stalls
    | some e, some num =>
      if drawAhead s h then (s.modSelf fun t => { t with drawWait := true }).stalls
      else s.gated true fun s => s.withRelease 4 fun s =>
        let b := blockOf (s.wellRead s.myCore (wellOff (s.getX a)) 32)
        match blockFault e b with
        | some o => s.trap 2 (word o)
        | none => startDraw e b num d s
/-- R181. -/
def handleCheck (a : Reg) (s : State) : Option (Nat × Word) :=
  let v := s.getX a
  if wfield v 63 32 ≠ 0 || wfield v 11 3 ≠ s.myCore then some (2, v) else none
/-- The current draw of a handle (R179). -/
def State.drawOf (s : State) (v : Word) : Option Draw := s.draw s.myCore (wfield v 2 0) (wfield v 31 12)
/-- A draw has ended: its allowed slots no longer count as started (R101), and what waits for a thread there looks again. -/
def slotsEnd (core : Nat) (d : Draw) (s : State) : State :=
  forUpto 4 s fun i s =>
    let h := 8 * core + i
    if !nbit d.allow i then s
    else
      let s := if s.slotGone h && !liveThread (s.thread (h + 4)) then s.modCore core fun k => k.clearPair i else s
      s.wakePartner h s.cycle
/-- A draw that is over posts its message n cycles from now (R100, R140, R141). -/
def State.finishDraw (s : State) (core num n : Nat) (d : Draw) : State :=
  if d.posted || !d.isOver then s.setDraw core num d
  else (slotsEnd core d (s.setDraw core num { d with posted := true })).later n (.drawCompleteMessage core num d.seq none)
/-- R182. -/
def execDcan (a : Reg) (s : State) : Ans :=
  checkedBy (.dcan a) (handleCheck a) s fun s =>
    let s := match s.drawOf (s.getX a) with
      | some d => s.finishDraw s.myCore (wfield (s.getX a) 2 0) 2 { d with ending := true }
      | none => s
    s.pass 4
/-- R183. -/
def execDstat (a d : Reg) (s : State) : Ans :=
  checkedBy (.dstat a d) (handleCheck a) s fun s =>
    let v := match s.drawOf (s.getX a) with
      | some w => word (w.delivered.length + w.consumed * 2 ^ 24 + 2 ^ 48 + b2n w.ending * 2 ^ 49)
      | none => 0
    (s.setX d v).pass 4

/-! ### Claims and deliveries -/

/-- The channel that serves a tile (R133), by its key. -/
def State.channelOf (s : State) (key : Nat) : Nat := match s.home key with | .slice _ ch => ch | _ => 0
/-- The pump that serves a tile (R133); the first one of the issuer's die where the page is absent. -/
def State.pumpOf (s : State) (d : Draw) (idx : Nat) : Nat :=
  match (d.desc.pieces (d.coords idx)).head? with
  | none => 96 * dieOf d.h
  | some p => match (s.translateNow { ctx := d.ctx, sup := d.sup, die := dieOf d.h, core := none } p.addr .none).1 with
    | .ok ph => s.channelOf ph.key
    | .error _ => 96 * dieOf d.h
/-- The pumps go on with the draws of a context that is not being saved (R142). -/
def State.sweeping (s : State) (d : Draw) : Bool := !d.ending && (s.ctx d.ctx).any fun x => x.phase = .resident || x.super
/-- The active draws with an undelivered tile on a pump: core, number, draw. -/
def State.drawsOn (s : State) (c : Nat) : List (Nat × Nat × Draw) :=
  s.cores.flatMap fun (core, k) => (k.draws.map fun (num, d) => (core, num, d)).filter fun (_, _, d) =>
    s.sweeping d && (List.range d.tiles).any fun i => !d.delivered.contains i && s.pumpOf d i = c
/-- Those that could be served now: a ring slot is free (R134). -/
def State.drawsReady (s : State) (c : Nat) : List (Nat × Nat × Draw) :=
  (s.drawsOn c).filter fun (_, _, d) => d.freeSlot.isSome && (d.untaken 0).any fun i => s.pumpOf d i = c
/-- The partition of a draw and its weight (R372). -/
def State.drawPart (s : State) (d : Draw) : Nat := ((s.ctx d.ctx).map (·.part)).getD 0
def State.drawWeight (s : State) (p : Nat) : Nat := ((s.part p).map (·.weight)).getD 1
/-- Every partition with a draw that could be served has had its weight's worth of the pump's round. -/
def State.roundOver (s : State) (c : Nat) : Bool :=
  (s.drawsReady c).all fun (_, _, d) => s.drawWeight (s.drawPart d) ≤ tget 0 (s.pump c).turns (s.drawPart d)
/-- Every draw of a partition that could be served has been served in the partition's round. -/
def State.partRoundOver (s : State) (c p : Nat) : Bool :=
  (s.drawsReady c).all fun (core, num, d) => s.drawPart d ≠ p || (s.pump c).served.contains (p, core, num)
/-- Weighted round-robin (R136): it is a draw's turn on a pump. -/
def State.drawTurn (s : State) (c core num : Nat) (d : Draw) : Bool :=
  let p := s.drawPart d
  (tget 0 (s.pump c).turns p < s.drawWeight p || s.roundOver c)
    && (!(s.pump c).served.contains (p, core, num) || s.partRoundOver c p)
/-- It takes its turn. -/
def State.takeTurn (s : State) (c core num : Nat) (d : Draw) : State :=
  let p := s.drawPart d
  let turns := if s.roundOver c then [] else (s.pump c).turns
  let served := if s.partRoundOver c p then (s.pump c).served.filter (·.1 ≠ p) else (s.pump c).served
  s.modPump c fun k => { k with turns := tset turns p (tget 0 turns p + 1), served := (p, core, num) :: served }
/-- Those that a delivery of another draw passes: a ring slot is free, though each tile may be on its way (R136). -/
def State.drawsFree (s : State) (c : Nat) : List (Nat × Nat × Draw) := (s.drawsOn c).filter fun (_, _, d) => d.freeSlot.isSome
/-- The draws whose tiles a pump is landing now, one entry for each landing. -/
def State.landingsOn (s : State) (c : Nat) : List (Nat × Nat) :=
  s.taccs.filterMap fun x => match x.2.done with
    | .drawLand k m seq _ idx => if (s.draw k m seq).any fun d => s.pumpOf d idx = c then some (k, m) else none
    | _ => none
/-- A pump may not begin a landing of one draw yet (R136): another with a free slot has been passed, or is about to be, 63 times as often as
draws are active on the pump, and more often than this one since its last delivery. Of those that are, each lands one tile before the next
one, so that none is passed 64 times as often. -/
def State.mustPause (s : State) (c core num : Nat) : Bool :=
  let n := (s.drawsOn c).length
  let l := s.landingsOn c
  let mine := if l.contains (core, num) then 0 else (tfind (s.core core).draws num).elim 0 fun d => tget 0 d.passed c
  (s.drawsFree c).any fun (k, m, d) =>
    let p := tget 0 d.passed c
    (k, m) ≠ (core, num) && 63 * n ≤ p + (l.filter (· ≠ (k, m))).length && (mine < p || mine = p && (k < core || k = core && m < num))
/-- A pump has delivered a tile of a draw: the others with a free slot have been passed once more. -/
def State.countPassed (s : State) (c core num : Nat) : State :=
  (s.drawsFree c).foldl (fun s (k, m, _) => match tfind (s.core k).draws m with
    | some d => s.setDraw k m { d with passed := if (k, m) = (core, num) then terase d.passed c else tset d.passed c (tget 0 d.passed c + 1) }
    | none => s) s
/-- A pump checks a tile's pages, claims the slot and begins to read the tile (R134, R141). When its first lock request is
made is the device's choice (log 3). -/
def claimTile (core num idx slot : Nat) (d : Draw) (s : State) : State :=
  let j := d.coords idx
  let c := s.pumpOf d idx
  let v : View := { ctx := d.ctx, sup := d.sup, die := chanDie c, core := none }
  let s := s.takeTurn c core num d
  match s.segsOf v .read (d.desc.pieces j) with
  | (.error e, s) =>
    s.finishDraw core num (if v.die = core / 128 then 60 else 110) { d with ending := true, fault := some (e.cause, e.va) }
  | (.ok l, s) =>
    let s := s.setDraw core num { d with slots := tset d.slots slot (.claimed idx) }
    let us := unitsOf l
    let acc : TAcc := { h := d.h, excl := false, units := us, reqAt := 0, sent := s.cycle, segs := l,
                        buf := List.replicate (d.desc.nrows * d.desc.rb) 0, done := .drawRead core num d.seq slot idx }
    let (n, s) := s.choose 65536
    (s.startTile acc (n + 1)).claims core num d.seq
/-- The tile of a claim: from one on, the first that its pump may claim now; first of all one of a pump that passes the draw often
(R136). -/
def State.tileToClaim (s : State) (core num from_ : Nat) (d : Draw) : Option Nat :=
  let l := d.untaken from_
  let late := l.find? fun i => 32 ≤ tget 0 d.passed (s.pumpOf d i)
  late.orElse fun _ => l.find? fun i => s.drawTurn (s.pumpOf d i) core num d
/-- R134: the device chooses the tile (R131), as far as it is the draw's turn (R136). A draw that a fault has ended posts its message
once it is over (R141). -/
def execDrawTileClaim (s : State) : Ans :=
  onEvent s fun | .drawTileClaim core num seq => (match s.draw core num seq with
                    | none => s
                    | some d =>
                      let (i, s) := s.choose (max d.tiles 1)
                      if d.fault.isSome then s.finishDraw core num (if chanDie (s.pumpOf d 0) = core / 128 then 60 else 110) d
                      else if !s.sweeping d || d.untaken 0 = [] then s
                      else match d.freeSlot, s.tileToClaim core num i d with
                        | none, _ => s
                        | some slot, some idx => claimTile core num idx slot d s
                        | some _, none => s.claims core num d.seq)
                | _ => s
/-- R103: a tile that has been read lands in its ring slot, as a tile access that writes (R254); it has landed once that is
performed. -/
def execDrawTileLand (s : State) : Ans :=
  onEvent s fun | .drawTileLand core num seq slot idx rows => (match s.draw core num seq with
                    | none => s
                    | some d =>
                      if rows = [] then
                        let s := s.countPassed (s.pumpOf d idx) core num
                        let d := (s.draw core num seq).getD d
                        let d := { d with slots := tset d.slots slot (.landed idx s.cycle), delivered := d.delivered ++ [idx] }
                        (s.setDraw core num d).later 2 (.bodyStart core)
                      else if s.mustPause (s.pumpOf d idx) core num then s.later 1 (.drawTileLand core num seq slot idx rows)
                      else
                        let buf := rows.flatten
                        let off := d.ring + slot * 2 ^ d.logBytes
                        s.startTile { h := d.h, excl := true, units := sectorsOf core off buf.length, reqAt := 0, sent := s.cycle, buf := buf,
                                      segs := [{ well := some core, addr := off, off := 0, len := buf.length, key := 0 }],
                                      done := .drawLand core num seq slot idx } 0)
                | _ => s

/-! ### Bodies (R99, R138) -/

/-- The landed tiles of a core that may start bodies: cycle, draw number, slot, tile; in the order of R99. -/
def landedTiles (k : Core) (cycle : Nat) : List (Nat × Nat × Nat × Nat) :=
  sortBy (fun x => x.1) (k.draws.flatMap fun (num, d) => d.slots.filterMap fun (slot, r) => match r with
    | .landed idx c => if c + 2 ≤ cycle then some (c, num, slot, idx) else none
    | _ => none)
/-- Starts the body of a tile, if a slot of its draw's allowed set is free. -/
def startBody (core num slot idx : Nat) (s : State) : State :=
  match tfind (s.core core).draws num with
  | none => s
  | some d => match (List.range 4).find? fun i => nbit d.allow i && s.slotFree (8 * core + i) with
    | none => s
    | some i =>
      let h := 8 * core + i
      let j := d.coords idx
      let t := startThread (s.thread h) d.bodyPc (wellAddr core (d.ring + slot * 2 ^ d.logBytes)) 0 d.ctx d.sup
      let x := ((t.seq.x.set 2 (tagOf j)).set 3 (word (d.desc.rowMask j))).set 4 (word d.handle)
      let s := s.place h
        { t with seq := { t.seq with x := x }, run := .ready, notBefore := s.cycle + 1,
                 node := d.node, launch := d.launch, body := some { num := num, slot := slot } }
      s.setDraw core num { d with slots := tset d.slots slot (.running idx h) }
/-- R99. -/
def execBodyStart (s : State) : Ans :=
  onEvent s fun | .bodyStart core =>
                    let held : Bool := match (s.core core).holder with
                      | some c => (s.ctx c).any fun x => x.phase = .resident || x.super
                      | none => false
                    if !held || (s.core core).halted then s
                    else (landedTiles (s.core core) s.cycle).foldl (fun s (_, num, slot, idx) => startBody core num slot idx s) s
                | _ => s
/-- R100, R184. -/
def execBdone (s : State) : Ans :=
  checkedBy .bdone (fun s => (noGang s).orElse fun _ => if s.self.body.isNone then some (2, 0) else none) s fun s =>
    let h := s.me
    s.gated false fun s => match s.self.body with
      | none => s
      | some b =>
        let core := s.myCore
        let s := ((s.releaseBegin s.cur 2).pass 4).raceClear core
        match tfind (s.core core).draws b.num with
        | none => s.endThread h
        | some d =>
          let s := s.setDraw core b.num { d with consumed := d.consumed + 1 }
          (s.endThread h).later 1 (.drawCompleteMessage core b.num d.seq (some (h, s.cycle, b.slot)))

/-! ### Completion (R100, R139-R141) -/

/-- A BDONE is counted and its ring slot is free, once its release has taken effect and the counter's sector has no lock (R260). -/
def countTile (core num slot : Nat) (d : Draw) (s : State) : State :=
  let n := ofBytes (s.wellRead core d.counter 8)
  let s := s.landWell core d.counter (toBytes 8 (n + 1)) 0
  let d := { d with slots := terase d.slots slot, counted := d.counted + 1 }
  let s := s.finishDraw core num 1 d
  if d.counted = d.tiles || d.ending then s else s.claims core num d.seq
/-- The message of R139. -/
def drawMessage (d : Draw) (num : Nat) : Msg :=
  let status := match d.fault with
    | some (c, _) => c
    | none => if d.consumed = d.tiles then 0 else 1
  { w0 := msgWord0 3 status (slotOf d.h) (d.consumed + num * 2 ^ 24)
    w1 := match d.fault with | some (_, v) => v | none => word d.handle }
/-- A draw ends: it posts its message, its number is free, and what waits for it looks again (R129). -/
def endDraw (core num : Nat) (d : Draw) (s : State) : State :=
  let s := postMsg core d.ctx (drawMessage d num) s
  let s := s.modCore core fun k => { k with draws := terase k.draws num }
  (s.nodeCheck d.ctx d.node).ctxCheck d.ctx
/-- R100, R139. -/
def execDrawCompleteMessage (s : State) : Ans :=
  onEvent s fun | .drawCompleteMessage core num seq add => (match s.draw core num seq with
                    | none => s
                    | some d => match add with
                      | some (h, sent, slot) =>
                        let again (s : State) : State := s.later 1 (.drawCompleteMessage core num seq add)
                        if s.releaseDone (.thread h) sent 2 then
                          s.atUnits (.drawCount core num) (orderKey h sent) true (sectorsOf core d.counter 8) again (countTile core num slot d)
                        else again s
                      | none => endDraw core num d s)
                | _ => s

end Sys2Proof.Machine
end

