-- ==== Sys2Proof/Machine/Copy.lean ====
section
/-!
DEFINITION. Copies: CPY, CPYT and FILL (R231-R233, R297-R302), for threads and for copy nodes (R346).
-/

namespace Sys2Proof.Machine

/-! ### The checks at issue -/

/-- What a copy is asked for. -/
structure CopyReq where
  kind : CopyKind
  dstWell : Bool
  srcWell : Bool
  dst : Word
  src : Word
  len : Word
  complete : Word
  deriving DecidableEq, Repr
/-- The counter's address (R232). -/
def counterAddr (complete : Word) : Word := word (wfield complete 55 3 * 8)
/-- Items 1 and 3 of R190 for n bytes. -/
def wellRange (s : State) (h : Nat) (a : Word) (n : Nat) (write : Bool) : Option (Nat × Word) :=
  if wfield a 63 25 ≠ 0 || 2 ^ 20 < wellOff a + n then some (6, a)
  else if !nbit (s.rights (coreOf h) (wellCore h a)) (b2n write) then some (7, a)
  else none
/-- The first check that fails. -/
def firstFault (l : List (Unit → Option (Nat × Word))) : Option (Nat × Word) := l.findSome? fun f => f ()
def failWhen (b : Bool) (c : Nat) (v : Word) : Option (Nat × Word) := if b then some (c, v) else none
/-- The checks of R231 and R298 that come before those of global pages. -/
def copyCheck (s : State) (h : Nat) (r : CopyReq) : Option (Nat × Word) :=
  let n := r.len.toNat
  let wells (_ : Unit) : Option (Nat × Word) :=
    (if r.srcWell then wellRange s h r.src n false else none).orElse fun _ =>
      if r.dstWell then wellRange s h r.dst n true else none
  match r.kind with
  | .cpyt => firstFault
      [fun _ => failWhen (n % 8 ≠ 0 || n < 8 || 8192 < n) 2 r.len, fun _ => failWhen (r.src.toNat % 8 ≠ 0) 4 r.src,
       fun _ => failWhen (r.dst.toNat % 8 ≠ 0) 4 r.dst, wells]
  | .cpy => firstFault
      [fun _ => failWhen (n = 0 || 2 ^ 32 ≤ n) 2 r.len, wells,
       fun _ => failWhen (r.srcWell = r.dstWell && rangeMeets r.src.toNat n r.dst.toNat n) 2 r.dst]
  | .fill => firstFault
      [fun _ => failWhen (n = 0 || 2 ^ 32 ≤ n || n % 8 ≠ 0) 2 r.len, fun _ => failWhen (r.dst.toNat % 8 ≠ 0) 4 r.dst, wells]
/-- The runs of an operand of CPYT, its global pages checked (R256). -/
def copySegs (s : State) (v : View) (h : Nat) (well : Bool) (acc : Access) (a : Word) (n : Nat) : Except MemFault (List Seg) × State :=
  if well then (.ok [{ well := some (wellCore h a), addr := wellOff a, off := 0, len := n, key := 0 }], s)
  else s.segsOf v acc [{ addr := a, off := 0, len := n, half := false }]
/-- The counter's page (item 5 of R231). -/
def counterCheck (s : State) (v : View) (complete : Word) : Option (Nat × Word) × State :=
  let a := counterAddr complete
  if a = 0 then (none, s)
  else match s.translateNow v a .write with
    | (.error c, s) => (some (c, a), s)
    | (.ok _, s) => (none, s)
/-- The latency of an operand's first unit, that of its runs if it is a tile's (R231), with what its translation adds (R246); a first
page that fails counts 60 and its walk (R299). A home that turns out not to hold the line adds to it (R413). -/
def operandLatency (s : State) (v : View) (h : Nat) (well write : Bool) (a : Word) (n : Nat) (us : List LockUnit) : Nat :=
  let acc : Access := if write then .write else .read
  if well then (if write then 6 + 2 * hops (coreOf h) (wellCore h a) else s.firstLatency h false [.sector (wellCore h a) (wellOff a)])
  else match us.head?, (s.translateNow v a acc).1 with
    | some (.line k), _ => s.trMost v acc ((splitPages a.toNat n).map Prod.fst) + s.nearLatency v.die k
    | _, .ok p => s.trExtra v a.toNat acc + s.nearLatency v.die p.key
    | _, .error _ => 60 + s.walkCycles v a.toNat
/-- A copy that passes its checks is accepted; a failure names the cause and TRAPVAL. -/
def acceptCopy (s : State) (v : View) (h : Nat) (node kern : Option Nat) (r : CopyReq) : Except (Nat × Word) State :=
  let n := r.len.toNat
  match copyCheck s h r with
  | some f => .error f
  | none =>
    let tiled : Bool := r.kind = .cpyt
    let old := s
    let (ss, s) := if tiled then copySegs s v h r.srcWell .read r.src n else (.ok [], s)
    let (ds, s) := if tiled then copySegs s v h r.dstWell .write r.dst n else (.ok [], s)
    match ss, ds with
    | .error e, _ => .error (e.cause, e.va)
    | _, .error e => .error (e.cause, e.va)
    | .ok ss, .ok ds => match counterCheck s v r.complete with
      | (some f, _) => .error f
      | (none, s) =>
        let ls := if r.kind = .fill then 0 else operandLatency old v h r.srcWell false r.src n (unitsOf ss)
        let ld := operandLatency old v h r.dstWell true r.dst n (unitsOf ds)
        let (id, s) := s.fresh
        let c : Copy :=
          { kind := r.kind, h := h, ctx := v.ctx, sup := v.sup, core := coreOf h, dstWell := r.dstWell, srcWell := r.srcWell,
            dst := r.dst, src := r.src, len := n, complete := r.complete, t0 := s.cycle + ls, sent := s.cycle, ls := ls, ld := ld, dsegs := ds,
            node := node, kern := kern }
        let s := { s with copies := tset s.copies id c }
        if tiled then
          let us := unitsOf ss
          .ok (s.startTile { h := h, excl := false, units := us, reqAt := 0, sent := s.cycle, segs := ss,
                             buf := List.replicate n 0, done := .copyRead id } ls)
        else if node.isNone && r.kind ≠ .fill && !r.srcWell then .ok (s.leavesCluster h 64 ls (.copyPiece id) fun s => s.later ls (.copyPiece id))
        else .ok (s.later ls (.copyPiece id))
/-- Copies that a thread has outstanding (R231). -/
def State.copiesOf (s : State) (h : Nat) : Nat :=
  (s.copies.filter fun x => x.2.h = h && x.2.node.isNone && (s.thread h).born ≤ x.2.sent).length
/-- A copy instruction: it waits while 32 copies are outstanding, then retires at issue (R231). -/
def copyInsn (i : Instr) (r : State → CopyReq) (s : State) : Ans :=
  checkedBy i (fun s => copyCheck s s.me (r s)) s fun s => s.ordered true fun s =>
    if 32 ≤ s.copiesOf s.me then s.stalls
    else match acceptCopy s s.view s.me none s.self.node (r s) with
      | .error (c, v) => s.trap c v
      | .ok s => s.pass 4
/-- The operands of a copy instruction (R297). -/
def copyReq (k : CopyKind) (sw dw : BitVec 1) (b a d : Reg) (s : State) : CopyReq :=
  { kind := k, dstWell := dw = 1, srcWell := sw = 1, dst := s.getX d, src := s.getX a, len := s.getX b, complete := s.self.complete }
/-- R298, R300. -/
def execCpy (e f : BitVec 1) (b a d : Reg) (s : State) : Ans :=
  copyInsn (.cpy e f b a d) (copyReq .cpy e f b a d) s
/-- R231. -/
def execCpyt (e f : BitVec 1) (b a d : Reg) (s : State) : Ans :=
  copyInsn (.cpyt e f b a d) (copyReq .cpyt e f b a d) s
/-- R298, R300. -/
def execFill (f : BitVec 1) (b a d : Reg) (s : State) : Ans :=
  copyInsn (.fill f b a d) (copyReq .fill 0 f b a d) s

/-! ### The engine -/

/-- The engine's view. -/
def copyView (c : Copy) : View :=
  { ctx := c.ctx, sup := c.sup, die := c.core / 128, core := if c.node.isSome then none else some c.core }
def State.setCopy (s : State) (id : Nat) (c : Copy) : State := { s with copies := tset s.copies id c }
/-- The copy's work ends n cycles from now; its counter follows at its home (R231). -/
def State.endCopy (s : State) (id n : Nat) (c : Copy) : State :=
  let a := counterAddr c.complete
  let lc := if a = 0 then 0 else match (s.translateNow (copyView c) a .write).1 with
    | .ok p => s.trExtra (copyView c) a.toNat .write + s.nearLatency (c.core / 128) p.key
    | .error _ => 0
  (s.setCopy id { c with t0 := s.cycle + n + lc}).later (n + lc) (.copyComplete id)
/-- The copy has reached a home. -/
def Copy.reached (c : Copy) (stage : Nat) : List Nat := if c.dram.contains stage then c.dram else stage :: c.dram
/-- The further cycles of an access of a copy that reaches a home which does not hold its line (R413). -/
def State.copyMiss (s : State) (c : Copy) (stage key : Nat) : Nat :=
  if c.dram.contains stage || !s.missesLine key then 0 else 420 - s.nearLatency (c.core / 128) key
/-- A page of an operand that starts at offset o fails (R299). -/
def pageFault (c : Copy) (o : Nat) (s : State) : Option (Nat × Word) × State :=
  let one (well write : Bool) (a : Word) (s : State) : Option (Nat × Word) × State :=
    if well || !(o = 0 || (a + word o).toNat % 4096 = 0) then (none, s)
    else match s.translateNow (copyView c) (a + word o) (if write then .write else .read) with
      | (.error e, s) => (some (e, a + word o), s)
      | (.ok _, s) => (none, s)
  match (if c.kind = .fill then (none, s) else one c.srcWell false c.src s) with
  | (some f, s) => (some f, s)
  | (none, s) => one c.dstWell true c.dst s
/-- The first offset of a piece whose pages fail: cause, offset, address. -/
def pieceFault (c : Copy) (n : Nat) (s : State) : Option (Nat × Nat × Word) × State :=
  (List.range n).foldl (fun (r, s) i => match r with
    | some f => (some f, s)
    | none => match pageFault c (c.off + i) s with
      | (some (e, a), s) => (some (e, c.off + i, a), s)
      | (none, s) => (none, s)) ((none : Option (Nat × Nat × Word)), s)
/-- A piece whose source or destination lies beyond a link that cannot recover ends the copy with cause 0x06 (R380, log 17). -/
def State.pieceDead (s : State) (c : Copy) (n : Nat) : Option (Nat × Nat × Word) :=
  let dead (well : Bool) (a : Word) (acc : Access) : Option (Nat × Nat × Word) :=
    let a := a + word c.off
    let one (x : Nat × Nat) : Bool := match (s.translateNow (copyView c) (word x.1) acc).1 with
      | .ok p => s.onDeadLink p.key
      | .error _ => false
    if !well && (splitPages a.toNat n).any one then some (6, c.off, a) else none
  (if c.kind = .fill then none else dead c.srcWell c.src .read).orElse fun _ => dead c.dstWell c.dst .write
/-- The translation of a piece's pages waits for a table that is not usable yet (R399). -/
def State.pieceStalls (s : State) (c : Copy) (n : Nat) : Bool :=
  let stalls (well : Bool) (a : Word) (acc : Access) : Bool :=
    !well && (pagesOf (a + word c.off).toNat n).any fun x => s.walkStalls (copyView c) (word x) acc
  c.kind ≠ .fill && stalls c.srcWell c.src .read || stalls c.dstWell c.dst .write
/-- The source bytes of n bytes from the offset on, and the units they lie in. -/
def pieceRead (c : Copy) (n : Nat) (s : State) : List Byte × List LockUnit × State :=
  match c.kind with
  | .fill => ((List.range n).map fun i => (toBytes 8 c.src.toNat).getD ((c.off + i) % 8) 0, [], s)
  | _ =>
    if c.srcWell then
      let w := wellCore c.h c.src
      let o := wellOff c.src + c.off
      (s.wellRead w o n, sectorsOf w o n, s)
    else
      let a := c.src + word c.off
      let units := (splitPages a.toNat n).flatMap fun (x, k) => match (s.translateNow (copyView c) (word x) .read).1 with
        | .ok p => linesOf p.key k
        | .error _ => []
      let (bs, s) := s.readVirt (copyView c) a.toNat n
      (bs, units, s)
/-- The engine of a halted cluster reads no further piece (R393); nodes' copies have no cluster, and pumps serve those with a global source
(R300). -/
def State.copyFrozen (s : State) (c : Copy) : Bool :=
  c.node.isNone && (c.srcWell || c.kind = .fill) && (s.cluster (c.core / 32)).dbg.halted
/-- FROZEN is set once no piece is in progress (R393). -/
def State.noteFrozen (s : State) (cl : Nat) : State :=
  if (s.cluster cl).dbg.halted && s.copies.all fun y => !s.copyFrozen y.2 || y.2.core / 32 ≠ cl || y.2.pipe = [] then
    s.modCluster cl fun k => { k with dbg := { k.dbg with frozen := true } }
  else s
/-- The further cycles of a destination page that a copy which ends at its first byte would have reached. -/
def State.dstMiss (s : State) (c : Copy) : Nat :=
  if c.dstWell then 0 else match (s.translateNow (copyView c) c.dst .write).1 with
    | .ok p => s.copyMiss c 1 p.key
    | .error _ => 0
/-- A piece waits at its units (R260). -/
def State.copyWaits (s : State) (id : Nat) (write : Bool) (c : Copy) (us : List LockUnit) : Bool :=
  s.mustWait us write (s.reachedAt (.copy id write)) (orderKey c.h c.sent)
/-- A home slice answers a copy of a thread: its way there and the cycles that it has waited (R253). -/
def State.copyAnswered (s : State) (c : Copy) (key waited : Nat) : State :=
  if c.node.isSome then s else s.answered c.h key (s.nearLatency (c.core / 128) key + waited)
/-- A piece of a copy passes a point with limits for the first time, or is held there (R377). -/
def copyPasses (tag : Nat) (c : Copy) (s : State) (at_ : (State → State) → State → State) : Copy × State :=
  if c.entered.contains tag then (c, s)
  else
    let s' := at_ (fun s => s) s
    ({ c with entered := tag :: c.entered, held := s.injWait.length < s'.injWait.length }, s')
/-- The next piece of a copy leaves its cluster, or arrives at its source's home (R377). -/
def readPasses (id : Nat) (c : Copy) (s : State) : Copy × State :=
  let e := Event.copyPiece id
  if c.srcWell || c.kind = .fill then
    if c.node.isSome || c.dstWell then (c, s) else copyPasses 2 c s fun f s => s.leavesCluster c.h 64 0 e f
  else match (s.translateNow (copyView c) (c.src + word c.off) .read).1 with
    | .ok p => copyPasses 1 c s fun f s => s.arrivesAt p.key 64 e f
    | .error _ => (c, s)
/-- Reads the next piece of the destination, if it is due (R300). -/
def readPiece (id : Nat) (c : Copy) (s : State) : Copy × State :=
  if c.held || c.stop || s.copyFrozen c || c.ended.isSome || c.len ≤ c.off || s.cycle < c.t0 then (c, s)
  else
    let (c, s) := readPasses id c s
    if c.held then (c, s) else
    let n := min (64 - (c.dst.toNat + c.off) % 64) (c.len - c.off)
    if s.pieceStalls c n then ({ c with t0 := s.cycle + 1 }, s) else
    let (f, s) := pieceFault c n s
    let f := f.orElse fun _ => s.pieceDead c n
    let n := match f with | some (_, o, _) => o - c.off | none => n
    let (bs, us, s') := pieceRead c n s
    let late := match us with | .line k :: _ => s.copyMiss c 0 k | _ => 0
    if 0 < late then ({ c with dram := 0 :: c.dram, t0 := s.cycle + late }, s)
    else if s.copyWaits id false c us then (c, s.noteWait (.copy id false) (orderKey c.h c.sent) false us)
    else
      let s := us.foldl (fun s u => match u with | .line k => s.copyAnswered c k (s.cycle - c.t0) | .sector _ _ => s) (s'.dropWait (.copy id false))
      let place := if c.dstWell then (0, 0) else match (s.translateNow (copyView c) (c.dst + word c.off) .write).1 with
        | .ok p => (p.key, p.ks)
        | .error _ => (0, 0)
      let c := { c with ended := f, off := c.off + n, t0 := s.cycle + 1, dram := c.reached 0, entered := c.entered.filter (· = 0) }
      (if n = 0 then c else { c with pipe := c.pipe ++ [(s.cycle + c.ld, c.off - n, bs, place)] }, s)
/-- Writes the oldest piece, if it is due and its units allow it. -/
def writePiece (id : Nat) (c : Copy) (s : State) : Copy × State :=
  match c.pipe with
  | [] => (c, s)
  | (due, o, bs, key, ks) :: rest =>
    if s.cycle < due then (c, s)
    else if c.dstWell then
      let w := wellCore c.h c.dst
      let off := wellOff c.dst + o
      let us := sectorsOf w off bs.length
      if s.copyWaits id true c us then (c, s.noteWait (.copy id true) (orderKey c.h c.sent) true us)
      else ({ c with pipe := rest }, (s.dropWait (.copy id true)).landWell w off bs 0)
    else
      let us := linesOf key bs.length
      let late := s.copyMiss c 1 key
      let (c, s) := copyPasses 0 c s fun f s => s.arrivesAt key 64 (.copyPiece id) f
      if c.held then (c, s)
      else if s.onDeadLink key then ({ c with pipe := rest, ended := some (c.ended.getD (6, o, c.dst + word o)) }, s)
      else if 0 < late then ({ c with dram := 1 :: c.dram, ld := c.ld + late, pipe := c.pipe.map fun x => (x.1 + late, x.2) }, s)
      else if s.copyWaits id true c us then (c, s.noteWait (.copy id true) (orderKey c.h c.sent) true us)
      else ({ c with pipe := rest, dram := c.reached 1, entered := c.entered.filter (· ≠ 0) }, ((s.dropWait (.copy id true)).copyAnswered c key (s.cycle - due)).landMem c.h key ks bs)
/-- The cycle of the engine's next work on a copy. -/
def nextWork (frozen : Bool) (c : Copy) : Option Nat :=
  let reads := if c.stop || frozen || c.ended.isSome || c.len ≤ c.off then [] else [c.t0]
  minBy id (reads ++ (c.pipe.take 1).map fun x => x.1)
/-- R299, R300: the engine writes the piece that is due and reads the next one; none before a TQTRY ahead of the copy is answered (R337). A copy
that is held at a limit goes on when it has entered (R377). -/
def execCopyPiece (s : State) : Ans :=
  onEvent s fun | .copyPiece id => (match tfind s.copies id with
                    | none => s
                    | some c =>
                      if c.off = 0 && c.pipe = [] && c.node.isNone && s.takeOut (.thread c.h) c.sent then s.later 1 (.copyPiece id) else
                      let wrote := c.pipe
                      let (c, s) := writePiece id c s
                      let (c, s) := readPiece id c s
                      if c.held then s.setCopy id c else match c.pipe, c.ended with
                      | [], some (_, f, _) => s.endCopy id (if f = 0 then c.ld + s.dstMiss c else if wrote = [] then 0 else 1) c
                      | [], none => if c.len ≤ c.off then s.endCopy id 0 c
                          else match nextWork (s.copyFrozen c) c with
                            | some n => (s.setCopy id c).at_ (max n (s.cycle + 1)) (.copyPiece id)
                            | none => (s.setCopy id c).noteFrozen (c.core / 32)
                      | _, _ => match nextWork (s.copyFrozen c) c with
                          | some n => (s.setCopy id c).at_ (max n (s.cycle + 1)) (.copyPiece id)
                          | none => s.setCopy id c)
                | _ => s
/-- R231: the whole source has been read; the destination's first unit is requested. -/
def execCopytRead (s : State) : Ans :=
  onEvent s fun | .copytRead id => (match tfind s.copies id with
                    | none => s
                    | some c =>
                      s.startTile { h := c.h, excl := true, units := unitsOf c.dsegs, reqAt := 0, sent := s.cycle, segs := c.dsegs,
                                    buf := c.buf, done := .copyWrite id } c.ld)
                | _ => s
/-- R231: the whole destination has been written. -/
def execCopytWrite (s : State) : Ans :=
  onEvent s fun | .copytWrite id => (match tfind s.copies id with
                    | none => s
                    | some c => s.endCopy id 0 c)
                | _ => s
/-- What follows the counter (R301, R346): the message, or the node; what waited for the copy looks again. -/
def reportCopy (id : Nat) (c : Copy) (s : State) : State :=
  let s := { s with copies := terase s.copies id }
  let s := match c.node with
    | some q => match c.ended with
      | some (e, _, a) => failNode c.ctx q e a s
      | none => s.later 0 (.nodeComplete c.ctx q 15)
    | none =>
      if !wbit c.complete 0 && c.ended.isNone then s
      else match c.ended with
        | some (e, f, a) => postMsg c.core c.ctx { w0 := msgWord0 1 e (slotOf c.h) f, w1 := a } s
        | none => postMsg c.core c.ctx { w0 := msgWord0 1 0 (slotOf c.h) c.len, w1 := c.dst } s
  (s.nodeCheck c.ctx c.kern).ctxCheck c.ctx
/-- R301: the counter is increased at its home, once its line is free of tile accesses. -/
def execCopyComplete (s : State) : Ans :=
  onEvent s fun | .copyComplete id => (match tfind s.copies id with
                    | none => s
                    | some c =>
                      let a := counterAddr c.complete
                      if a = 0 then reportCopy id c s
                      else if s.walkStalls (copyView c) a .write then s.later 1 (.copyComplete id)
                      else match s.translateNow (copyView c) a .write with
                        | (.error _, s) => reportCopy id c s
                        | (.ok p, s) =>
                          let us := linesOf p.key 8
                          let late := s.copyMiss c 2 p.key
                          if 0 < late then (s.setCopy id { c with dram := 2 :: c.dram, t0 := s.cycle + late }).later late (.copyComplete id)
                          else s.atUnits (.copy id true) (orderKey c.h c.sent) true us (·.later 1 (.copyComplete id)) fun s =>
                            let n := s.readNat p.key p.ks 8
                            reportCopy id c (s.landMem c.h p.key p.ks (toBytes 8 (n + 1))))
                | _ => s

end Sys2Proof.Machine
end

