-- ==== Sys2Proof/Machine/Lanes.lean ====
section
/-!
DEFINITION. Lanes of vector registers (R146), the operations on one lane (R149-R152), conversions (R110, R154-R156), and the
common form of vector instructions (R17, R147, R174).
-/

namespace Sys2Proof.Machine

/-! ### Lanes (R146) -/

/-- The type of a lane. -/
inductive Elt where
  | fl (f : FF)
  | int (w : Nat)
  | nat (w : Nat)
  deriving DecidableEq, Repr
def Elt.width : Elt → Nat | .fl f => f.width | .int w => w | .nat w => w
/-- The type of a type field, natural where the instruction says so. -/
def eltOf (t : BitVec 3) (natural : Bool) : Elt :=
  match t.toNat with
  | 0 => .fl .f32
  | 1 => .fl .b16
  | 2 => .fl .h16
  | 3 => .fl .e4
  | 4 => .fl .e5
  | 5 => if natural then .nat 32 else .int 32
  | 6 => if natural then .nat 16 else .int 16
  | _ => if natural then .nat 8 else .int 8
/-- The n elements of w bits of a register. -/
def elems (w n : Nat) (v : VReg) : List Nat := (List.range n).map fun i => v.toNat / 2 ^ (w * i) % 2 ^ w
def lanesOf (w : Nat) (v : VReg) : List Nat := elems w (1024 / w) v
/-- The register of a list of elements of w bits. -/
def packNat (w : Nat) : List Nat → Nat
  | [] => 0
  | x :: l => x % 2 ^ w + 2 ^ w * packNat w l
def pack (w : Nat) (l : List Nat) : VReg := BitVec.ofNat 1024 (packNat w l)

/-! ### One lane -/

/-- A lane's value as an integer. -/
def intOf (e : Elt) (x : Nat) : Int := match e with | .int w => signedOf w x | _ => x
/-- An integer operation, wrapped (R107). -/
def wrapLane (e : Elt) (r : Int) : Nat × Fl := (wrapTo e.width r, 0)
/-- The smaller or larger of two floating-point lanes (R150). -/
def pickFloat (f : FF) (a b : Nat) (first : Bool) : Nat × Fl :=
  let fl := sigFl f [a, b]
  if f.isNaN a && f.isNaN b then (f.canonNaN, fl)
  else if f.isNaN a then (b, fl)
  else if f.isNaN b then (a, fl)
  else ((if first then a else b), fl)
def laneMin (e : Elt) (a b : Nat) : Nat × Fl := match e with
  | .fl f => pickFloat f a b (!f.less b a)
  | _ => ((if intOf e b < intOf e a then b else a), 0)
def laneMax (e : Elt) (a b : Nat) : Nat × Fl := match e with
  | .fl f => pickFloat f a b (!f.less a b)
  | _ => ((if intOf e a < intOf e b then b else a), 0)
def laneAdd (e : Elt) (mode a b : Nat) : Nat × Fl := match e with
  | .fl f => f.add mode a b
  | _ => wrapLane e (a + b)
def laneSub (e : Elt) (mode a b : Nat) : Nat × Fl := match e with
  | .fl f => f.sub mode a b
  | _ => wrapLane e ((a : Int) - b)
def laneMul (e : Elt) (mode a b : Nat) : Nat × Fl := match e with
  | .fl f => f.mul mode a b
  | _ => wrapLane e (a * b)
/-- a × b + d and a × b − d with one rounding (R149, R150). -/
def laneFma (e : Elt) (mode a b d : Nat) : Nat × Fl := match e with
  | .fl f => f.fma mode d a b false
  | _ => wrapLane e (a * b + d)
def laneFms (e : Elt) (mode a b d : Nat) : Nat × Fl := match e with
  | .fl f =>
    let p := (f.val a).mul (f.val b)
    let (r, fl) := f.op mode [d, a, b] fun vs => p.add mode (vs.getD 0 .nan).neg
    (r, fl ||| invalid [f.val a, f.val b] p)
  | _ => wrapLane e ((a * b : Nat) - (d : Int))
def laneAbs (e : Elt) (a : Nat) : Nat × Fl := match e with
  | .fl f => (a % 2 ^ (f.width - 1), 0)
  | _ => wrapLane e (intOf e a).natAbs
def laneNeg (e : Elt) (a : Nat) : Nat × Fl := match e with
  | .fl f => ((a + 2 ^ (f.width - 1)) % 2 ^ f.width, 0)
  | _ => wrapLane e (-(a : Int))
/-- Shifts of R151. -/
def laneShl (w a b : Nat) : Nat × Fl := (a * 2 ^ (b % w) % 2 ^ w, 0)
def laneShr (w a b : Nat) : Nat × Fl := (a / 2 ^ (b % w), 0)
def laneSra (w a b : Nat) : Nat × Fl := (wrapTo w (signedOf w a / (2 ^ (b % w) : Nat)), 0)
/-- VCMP (R152). -/
def laneCmp (e : Elt) (cc a b : Nat) : Nat × Fl :=
  let ones := 2 ^ e.width - 1
  match e with
  | .fl f =>
    let nan := f.isNaN a || f.isNaN b
    let eq := !nan && !(f.val a).lt (f.val b) && !(f.val b).lt (f.val a)
    let lt := (f.val a).lt (f.val b)
    let r := if cc = 0 then eq else if cc = 1 then !eq else if cc = 2 then lt else !nan && !lt
    ((if r then ones else 0), if 2 ≤ cc && nan then flNV else sigFl f [a, b])
  | _ =>
    let x := signedOf e.width a
    let y := signedOf e.width b
    let r : Bool := if cc = 0 then a = b else if cc = 1 then a ≠ b else if cc = 2 then x < y else if cc = 3 then y ≤ x
      else if cc = 4 then a < b else b ≤ a
    ((if r then ones else 0), 0)

/-! ### Conversions -/

/-- The bounds of an integer or natural type. -/
def Elt.lo : Elt → Int | .int w => -(2 ^ (w - 1) : Nat) | _ => 0
def Elt.hi : Elt → Int | .int w => (2 ^ (w - 1) : Nat) - 1 | e => (2 ^ e.width : Nat) - 1
/-- A value of a floating-point source in a destination type (R110). -/
def convertVal (dst : Elt) (v : FVal) (mode : Nat) : Nat × Fl :=
  match dst with
  | .fl f =>
    let (c, fl) := f.round v mode
    (c, if f = .e4 && v = .nan then fl ||| flNV else fl)
  | _ =>
    let (r, fl) := toIntRange v mode dst.lo dst.hi
    (wrapTo dst.width r, fl)
/-- The type of a format code of R122 below CB4. -/
def eltOfFmt (fmt : Nat) : Elt :=
  match fmtFloat fmt with
  | some f => .fl f
  | none => if fmt < 8 then .int (8 * fmtSize fmt) else .nat (8 * fmtSize fmt)
/-- The width in bits of a format code. -/
def fmtWidth (fmt : Nat) : Nat := if fmt = 11 then 4 else 8 * fmtSize fmt
/-- VCVT of one element (R154). An integer that the destination cannot hold saturates, also where the destination is not narrower, which
the rows of R110 do not name (log 20). -/
def laneCvt (dst : Elt) (fmt mode x : Nat) : Nat × Fl :=
  if fmt = 11 then convertVal dst (cb4Val x) mode
  else match eltOfFmt fmt with
    | .fl f =>
      let (c, fl) := convertVal dst (f.val x) mode
      (c, fl ||| sigFl f [x])
    | e => match dst with
      | .fl g => g.round (ofIntVal (intOf e x)) mode
      | _ => (wrapTo dst.width (clampInt (intOf e x) dst.lo dst.hi), 0)
/-- The exact quotient of two F32 values and its events (R155, R160). -/
def quotient (f : FF) (a b : Nat) : FVal × Fl :=
  let x := f.val a
  let y := f.val b
  let q := x.div y
  let dz : Bool := y.isZero && !x.isZero && (match x with | .fin _ _ _ => true | _ => false)
  (q, sigFl f [a, b] ||| invalid [x, y] q ||| if dz then flDZ else 0)
/-- VQNT of one element (R155). -/
def laneQnt (dst : Elt) (mode a b : Nat) : Nat × Fl :=
  let (q, fl) := quotient .f32 a b
  let (c, g) := convertVal dst q mode
  (c, fl ||| g)
/-- VDQ of one element (R156); a source code that is a NaN counts as one (log 11). -/
def laneDq (fmt mode x b : Nat) : Nat × Fl :=
  let (v, sig) := if fmt = 11 then (cb4Val x, 0) else match eltOfFmt fmt with
    | .fl f => (f.val x, sigFl f [x])
    | e => (ofIntVal (intOf e x), 0)
  let s := FF.f32.val b
  let p := v.mul s
  let (c, fl) := FF.f32.round p mode
  (c, fl ||| sig ||| sigFl .f32 [b] ||| invalid [v, s] p)

/-! ### Vector instructions -/

/-- The lane parcels, which are checked as if they read vd (R34). -/
def isLaneParcel : Instr → Bool
  | .vaddF32Parcel .. | .vsubF32Parcel .. | .vmulF32Parcel .. | .vmaxF32Parcel .. | .vminF32Parcel .. | .vaddI32Parcel ..
  | .vsubI32Parcel .. | .vandParcel .. | .vorParcel .. | .vxorParcel .. | .vmovParcel .. | .vaddB16Parcel ..
  | .vmulB16Parcel .. | .vshlI32Parcel .. | .vsraI32Parcel .. | .vnegF32Parcel .. => true
  | _ => false
/-- Items 2 and 3 of R147: `readsD` where the instruction also reads vd. -/
def headCheck (i : Instr) (readsD : Bool) : Option (Nat × Word) :=
  if vectorBad i || (readsD || isLaneParcel i) && (vectorUses i).2.any (28 ≤ ·.toNat) then some (2, 0) else none
/-- A vector instruction: after the checks it issues as its queues allow, takes its operands, and answers a register and the
events of its lanes; an enabled event traps with no other effect (R147, R148, R174). -/
def vectorInsn (i : Instr) (readsD : Bool) (limits : State → Option (Nat × Word)) (s : State)
    (f : State → List VReg → VReg × List Fl) : Ans :=
  checkedBy i (fun s => (headCheck i readsD).orElse fun _ => limits s) s fun s => onQueues i s fun s =>
    let (rs, d) := vectorUses i
    let (vs, s') := s.takeOperands rs
    let (r, fls) := f s vs
    let all := orFl fls
    if enabledFl s.self all then (raiseFl s.me all s).trap 9 (fpVal all (trapLane s.self.fenable fls))
    else
      let s' := raiseFl s.me all s'
      (match d with | some d => s'.putV d r | none => s').pass i.len
/-- An instruction on each lane. -/
def lanewise (i : Instr) (w : Nat) (s : State) (f : Nat → List Nat → Nat × Fl) : Ans :=
  vectorInsn i false (fun _ => none) s fun s vs =>
    let ls := vs.map (lanesOf w)
    let rs := (List.range (1024 / w)).map fun k => f s.self.frm.toNat (ls.map (·.getD k 0))
    (pack w (rs.map Prod.fst), rs.map Prod.snd)
/-- Two-operand and three-operand lanes. -/
def lanes2 (i : Instr) (w : Nat) (s : State) (f : Nat → Nat → Nat → Nat × Fl) : Ans :=
  lanewise i w s fun m l => f m (l.getD 0 0) (l.getD 1 0)
def lanes1 (i : Instr) (w : Nat) (s : State) (f : Nat → Nat → Nat × Fl) : Ans :=
  lanewise i w s fun m l => f m (l.getD 0 0)

end Sys2Proof.Machine
end

