-- ==== Sys2Proof/Machine/Special.lean ====
section
/-!
DEFINITION. The special functions (R160), correctly rounded. Roots are exact digit by digit. The functions without exact
values are summed at 400 fractional bits, beyond what any rounding of a 32-bit operand can turn on (log 13).
-/

namespace Sys2Proof.Machine

/-! ### Roots -/

/-- The integer square root, bit by bit from bit n − 1 down. -/
def isqrtFrom (x : Nat) : Nat → Nat → Nat
  | 0, r => r
  | n + 1, r => isqrtFrom x n (if (r + 2 ^ n) * (r + 2 ^ n) ≤ x then r + 2 ^ n else r)
def isqrt (x : Nat) : Nat := isqrtFrom x (Nat.log2 x / 2 + 1) 0
/-- The square root of n / d, or a value between the same roundings. -/
def rootVal (n d : Nat) : FVal :=
  let x := n * 2 ^ 800
  let q := isqrt (x / d)
  if q * q * d = x then .fin false q (2 ^ 400) else .fin false (2 * q + 1) (2 ^ 401)

/-! ### Series in fixed point with 400 fractional bits -/

def fix : Nat := 2 ^ 400
/-- Σ z^(2i+1) / (2i+1) for z = a / b, with alternating signs or without: p is the current power in fixed point. -/
def oddSeries (a b : Nat) (alt : Bool) : Nat → Nat → Int → Int → Int
  | 0, _, _, acc => acc
  | n + 1, k, p, acc =>
    let term := p / (k : Int)
    oddSeries a b alt n (k + 2) (p * a * a / ((b * b : Nat) : Int)) (if alt && k % 4 = 3 then acc - term else acc + term)
/-- ln((1 + z) / (1 − z)) / 2 and atan z. -/
def atanhFix (a b : Nat) : Int := oddSeries a b false 400 1 ((fix * a / b : Nat) : Int) 0
def atanFix (a b : Nat) : Int := oddSeries a b true 400 1 ((fix * a / b : Nat) : Int) 0
def ln2Fix : Int := 2 * atanhFix 1 3
def piFix : Int := 16 * atanFix 1 5 - 4 * atanFix 1 239
/-- e^r for 0 ≤ r < 1: term, then the terms behind it. -/
def expSeries (r : Int) : Nat → Nat → Int → Int → Int
  | 0, _, _, acc => acc
  | n + 1, k, t, acc =>
    let t' := t * r / (fix * k : Nat)
    expSeries r n (k + 1) t' (acc + t')
def expFix (r : Int) : Int := expSeries r 120 1 fix fix
/-- Alternating Taylor terms of sine and cosine: t·x² / (k (k + 1)) each. -/
def trigSeries (x2 : Int) : Nat → Nat → Int → Int → Int
  | 0, _, _, acc => acc
  | n + 1, k, t, acc =>
    let t' := -(t * x2 / (fix * (k * (k + 1)) : Nat))
    trigSeries x2 n (k + 2) t' (acc + t')
def sinFix (x : Int) : Int := trigSeries (x * x / (fix : Nat)) 80 2 x x
def cosFix (x : Int) : Int := trigSeries (x * x / (fix : Nat)) 80 1 fix fix
/-- A value between the same roundings as an irrational one that the fixed-point number approximates. -/
def nearFix (neg : Bool) (q : Int) : FVal := .fin neg (2 * q.toNat + 1) (2 * fix)

/-! ### The functions on finite values -/

/-- 2^a for a = ±n / d. -/
def exp2Val (neg : Bool) (n d : Nat) : FVal :=
  let whole := n / d
  if 2000 ≤ whole then (if neg then .fin false 1 (2 ^ 2000) else .fin false (2 ^ 2000) 1)
  else if n % d = 0 then (if neg then .fin false 1 (2 ^ whole) else .fin false (2 ^ whole) 1)
  else
    -- a = k + f with 0 < f < 1
    let f := if neg then d - n % d else n % d
    let q := (expFix ((fix * f / d : Nat) * ln2Fix / (fix : Nat))).toNat
    if neg then .fin false (2 * q + 1) (2 * fix * 2 ^ (whole + 1)) else .fin false ((2 * q + 1) * 2 ^ whole) (2 * fix)
/-- log2 of n / d > 0. -/
def log2Val (n d : Nat) : FVal :=
  let e := floorLog2 n d
  let a := if 0 ≤ e then n else n * 2 ^ (-e).toNat
  let b := if 0 ≤ e then d * 2 ^ e.toNat else d
  -- n / d = 2^e × a / b with 1 ≤ a / b < 2
  if a = b then ofIntVal e
  else
    let r := 2 * atanhFix (a - b) (a + b) * (fix : Nat) / ln2Fix
    let v := e * (fix : Nat) + r
    if 0 ≤ v then nearFix false v else nearFix true (-v - 1)
/-- sin(π r) for 0 ≤ r = n / d ≤ 1/2, exact where it is rational. -/
def sinpVal (neg : Bool) (n d : Nat) : FVal :=
  if n = 0 then .fin neg 0 1
  else if 2 * n = d then .fin neg 1 1
  else nearFix neg (sinFix (piFix * (n : Int) / (d : Int)))
/-- sin(π a). -/
def sinPi (neg : Bool) (n d : Nat) : FVal :=
  let r := n % (2 * d)
  -- |a| = r / d modulo 2
  if n % d = 0 then .fin neg 0 1
  else
    let (flip, r) := if d < r then (true, r - d) else (false, r)
    sinpVal (neg != flip) (if d < 2 * r then d - r else r) d
/-- cos(π a) = sin(π (1/2 − |a|)), with |a| modulo 2 folded to 0 ... 1. -/
def cosPi (n d : Nat) : FVal :=
  let r := n % (2 * d)
  let r := if d < r then 2 * d - r else r
  if 2 * r = d then .fin false 0 1
  else if 2 * r < d then sinpVal false (d - 2 * r) (2 * d)
  else sinpVal true (2 * r - d) (2 * d)
/-- tanh of ±n / d, n > 0: by its series below 2^−40, by its limit from 100 on. -/
def tanhVal (neg : Bool) (n d : Nat) : FVal :=
  if n * 2 ^ 40 < d then .fin neg (3 * n * d * d - n * n * n) (3 * d * d * d)
  else if 100 * d ≤ n then .fin neg (2 ^ 200 - 1) (2 ^ 200)
  else
    let y : Int := (2 * n * fix / d : Nat)
    let k := (y / ln2Fix).toNat
    let e := (expFix (y - k * ln2Fix)).toNat * 2 ^ k
    .fin neg (e - fix) (e + fix)

/-! ### The instructions' values (R160) -/

/-- A special function of one operand: the exact value (or one that rounds alike) and its own events. -/
def specialVal (fn : SfuFn) (v : FVal) : FVal × Fl :=
  match fn, v with
  | _, .nan => (.nan, 0)
  | .rcp, .inf g => (.fin g 0 1, 0)
  | .rcp, .fin g n d => if n = 0 then (.inf g, flDZ) else (.fin g d n, 0)
  | .rsq, .inf g => if g then (.nan, flNV) else (.fin false 0 1, 0)
  | .rsq, .fin g n d => if n = 0 then (.inf g, flDZ) else if g then (.nan, flNV) else (rootVal d n, 0)
  | .sqrt, .inf g => if g then (.nan, flNV) else (.inf false, 0)
  | .sqrt, .fin g n d => if n = 0 then (.fin g 0 1, 0) else if g then (.nan, flNV) else (rootVal n d, 0)
  | .exp2, .inf g => if g then (.fin false 0 1, 0) else (.inf false, 0)
  | .exp2, .fin g n d => (exp2Val g n d, 0)
  | .log2, .inf g => if g then (.nan, flNV) else (.inf false, 0)
  | .log2, .fin g n d => if n = 0 then (.inf true, flDZ) else if g then (.nan, flNV) else (log2Val n d, 0)
  | .sinp, .inf _ => (.nan, flNV)
  | .sinp, .fin g n d => (sinPi g n d, 0)
  | .cosp, .inf _ => (.nan, flNV)
  | .cosp, .fin _ n d => (cosPi n d, 0)
  | .tanh, .inf g => (.fin g 1 1, 0)
  | .tanh, .fin g n d => if n = 0 then (.fin g 0 1, 0) else (tanhVal g n d, 0)
  | .div, _ => (.nan, 0)
/-- One lane of a special function. -/
def laneSpecial (fn : SfuFn) (f : FF) (mode a b : Nat) : Nat × Fl :=
  let (v, fl) := if fn = .div then quotient f a b else
    let (v, fl) := specialVal fn (f.val a)
    (v, fl ||| sigFl f [a])
  let (c, g) := f.round v mode
  (c, fl ||| g)

end Sys2Proof.Machine
end

