-- ==== Sys2Proof/Machine/Sfu.lean ====
section
/-!
DEFINITION. The special-function unit of a core and its instructions (R160-R162, R176).
-/

namespace Sys2Proof.Machine

/-- The next start is looked for (R161): the head request starts when its time and the unit's have come. -/
def State.sfuNext (s : State) (core : Nat) : State :=
  let k := s.core core
  match k.sfu.find? fun r => !r.started with
  | some r => s.at_ (max r.at_ k.sfuFree) (.sfuStart core)
  | none => s
/-- A special-function instruction: no queue heads; it waits for a free place of the queue, then for its result (R161). -/
def special (i : Instr) (fn : SfuFn) (t : BitVec 3) (b a d : Reg) (s : State) : Ans :=
  checkedBy i (fun _ => if 28 ≤ a.toNat || 28 ≤ d.toNat || fn = .div && 28 ≤ b.toNat then some (2, 0) else none) s fun s =>
    if 8 ≤ ((s.core s.myCore).sfu.filter fun r => !r.started).length then s.stalls
    else
      let v := s.self
      let r : SfuReq := { h := s.me, fn := fn, ty := t.toNat, a := v.getV a.toNat, b := v.getV b.toNat, d := d, frm := v.frm.toNat,
                          at_ := s.cycle + 1 }
      ((s.modCore s.myCore fun k => { k with sfu := k.sfu ++ [r] }).blocks .sfu).sfuNext s.myCore
def execVrcp (t : BitVec 3) (a d : Reg) (s : State) : Ans := special (.vrcp t a d) .rcp t 0 a d s
def execVrsq (t : BitVec 3) (a d : Reg) (s : State) : Ans := special (.vrsq t a d) .rsq t 0 a d s
def execVsqrt (t : BitVec 3) (a d : Reg) (s : State) : Ans := special (.vsqrt t a d) .sqrt t 0 a d s
def execVdiv (t : BitVec 3) (b a d : Reg) (s : State) : Ans := special (.vdiv t b a d) .div t b a d s
def execVexp2 (t : BitVec 3) (a d : Reg) (s : State) : Ans := special (.vexp2 t a d) .exp2 t 0 a d s
def execVlog2 (t : BitVec 3) (a d : Reg) (s : State) : Ans := special (.vlog2 t a d) .log2 t 0 a d s
def execVsinp (t : BitVec 3) (a d : Reg) (s : State) : Ans := special (.vsinp t a d) .sinp t 0 a d s
def execVcosp (t : BitVec 3) (a d : Reg) (s : State) : Ans := special (.vcosp t a d) .cosp t 0 a d s
def execVtanh (t : BitVec 3) (a d : Reg) (s : State) : Ans := special (.vtanh t a d) .tanh t 0 a d s
/-- R161: the head request starts, at least two cycles after the one before. -/
def execSfuStart (s : State) : Ans :=
  onEvent s fun | .sfuStart core => (match (s.core core).sfu.find? fun r => !r.started with
                    | none => s
                    | some r =>
                      if (s.core core).halted || s.cycle < r.at_ || s.cycle < (s.core core).sfuFree then s
                      else
                        let mark (q : SfuReq) : SfuReq := if q.h = r.h then { q with started := true } else q
                        let s := s.modCore core fun k => { k with sfu := k.sfu.map mark, sfuFree := s.cycle + 2 }
                        (s.later 12 (.sfuComplete core r.h)).sfuNext core)
                | _ => s
/-- A request leaves the unit: withdrawn (R162) or done. -/
def Core.dropSfu (k : Core) (h : Nat) : Core := { k with sfu := k.sfu.filter fun r => r.h ≠ h }
/-- The lanes of a request, with their events. -/
def SfuReq.lanes (r : SfuReq) : List (Nat × Fl) :=
  let f := match eltOf (BitVec.ofNat 3 r.ty) false with | .fl f => f | _ => .f32
  let a := lanesOf f.width r.a
  let b := lanesOf f.width r.b
  (List.range (1024 / f.width)).map fun i => laneSpecial r.fn f r.frm (a.getD i 0) (b.getD i 0)
/-- A request is withdrawn. -/
def sfuBack (h : Nat) (s : State) : State := s.modCore (coreOf h) fun k => k.dropSfu h
/-- The result is written and the instruction retires, or an enabled event parks the thread (R176). -/
def finSfu (h v : Nat) (s : State) : State :=
  match (s.core (coreOf h)).sfu.find? (·.h = h) with
  | none => s
  | some r =>
    let fls := r.lanes.map Prod.snd
    let t := s.thread h
    if v = undoes then ((sfuBack h s).before h).sfuNext (coreOf h)
    else if enabledFl t (orFl fls) then
      parkTrap h 9 t.seq.pc (fpVal (orFl fls) (trapLane t.fenable fls)) (raiseFl h (orFl fls) (sfuBack h s))
    else
    let s := raiseFl h (orFl (r.lanes.map Prod.snd)) (s.modCore (coreOf h) fun k => k.dropSfu h)
    let v := pack (match eltOf (BitVec.ofNat 3 r.ty) false with | .fl f => f.width | _ => 32) (r.lanes.map Prod.fst)
    ((s.modThread h fun t => t.setV r.d.toNat v).passOf h 4).goesOn h
/-- R161, R176: the result is written and the instruction retires, in a gang together with the other members (R29), or an enabled
event parks the thread. -/
def execSfuComplete (s : State) : Ans :=
  onEvent s fun | .sfuComplete core h => (match (s.core core).sfu.find? fun r => r.h = h && (r.started || (s.thread h).fin = some undoes), (s.thread h).run with
                    | some _, .blocked .sfu => s.together h 0 finSfu sfuBack
                    | _, _ => s)
                | _ => s

end Sys2Proof.Machine
end

