-- ==== Sys2Proof/Machine/Wide.lean ====
section
/-!
DEFINITION. Wide accumulators (R116-R118, R163-R165). A value is held as a multiple of 2^−149.
-/

namespace Sys2Proof.Machine

/-- Adds n units to the value, modulo 2^320 (R116). -/
def WAcc.plus (a : WAcc) (n : Int) : WAcc := { a with val := a.val + BitVec.ofInt 320 n }
/-- Units of a finite value and whether they are exact: rounded to the nearest, ties to even (R164). -/
def unitsOfVal (neg : Bool) (n d : Nat) : Int × Bool :=
  let m := roundInt (n * 2 ^ 149) d 0 neg
  (if neg then -(m : Int) else m, decide (n * 2 ^ 149 % d = 0))
/-- The value of a lane of WACC and WACCP, and the events of reading it. -/
def wideLane (e : Elt) (x : Nat) : FVal × Fl := match e with
  | .fl f => (f.val x, sigFl f [x])
  | _ => (ofIntVal (intOf e x), 0)
/-- WACC of one lane. -/
def waccLane (e : Elt) (a : WAcc) (x : Nat) : WAcc × Fl :=
  let (v, fl) := wideLane e x
  match v with
  | .nan => ({ a with nan := true }, fl)
  | .inf neg => ((if neg then { a with ninf := true } else { a with pinf := true }), fl)
  | .fin neg n d => (a.plus (unitsOfVal neg n d).1, fl)
/-- WACCP of one pair of lanes. -/
def waccpLane (e : Elt) (a : WAcc) (x y : Nat) : WAcc × Fl :=
  let (v, f) := wideLane e x
  let (w, g) := wideLane e y
  let p := v.mul w
  let fl := f ||| g ||| invalid [v, w] p
  let inf (neg : Bool) : WAcc := if neg then { a with ninf := true } else { a with pinf := true }
  match p with
  | .nan => ({ a with nan := true }, fl)
  | .inf neg => (inf neg, fl)
  | .fin neg n d =>
    let (u, exact) := unitsOfVal neg n d
    let nx : Fl := if exact then 0 else flNX
    if 2 ^ 319 ≤ u.natAbs then (inf neg, fl ||| flOF ||| nx) else (a.plus u, fl ||| nx)
/-- The check of a w register number, then those of the vector fields (R147). -/
def wideCheck (i : Instr) (w : Reg) : Option (Nat × Word) := if 3 < w.toNat then some (2, 0) else headCheck i false
/-- WACC and WACCP: the lanes enter one by one; an enabled event traps and changes nothing. -/
def wideAdd (i : Instr) (width : Nat) (w : Reg) (s : State) (f : WAcc → Nat → Nat → WAcc × Fl) : Ans :=
  checkedBy i (fun _ => wideCheck i w) s fun s => onQueues i s fun s =>
    let (vs, s') := s.takeOperands (vectorUses i).1
    let x := lanesOf width (vs.getD 0 0)
    let y := lanesOf width (vs.getD 1 0)
    let (a, fls) := (List.range (1024 / width)).foldl (fun (a, fls) k =>
      let (a, fl) := f a (x.getD k 0) (y.getD k 0)
      (a, fls ++ [fl])) (s.self.getW w.toNat, ([] : List Fl))
    let all := orFl fls
    if enabledFl s.self all then (raiseFl s.me all s).trap 9 (fpVal all (trapLane s.self.fenable fls))
    else ((raiseFl s.me all s').modSelf fun t => t.setW w.toNat a).pass i.len
/-- R164. -/
def execWclr (w : Reg) (s : State) : Ans :=
  checkedBy (.wclr w) (fun _ => wideCheck (.wclr w) w) s fun s => (s.modSelf fun t => t.setW w.toNat {}).pass 4
/-- R164. -/
def execWacc (t : BitVec 3) (a w : Reg) (s : State) : Ans :=
  wideAdd (.wacc t a w) (eltOf t false).width w s fun v x _ => waccLane (eltOf t false) v x
/-- R164. -/
def execWaccp (t : BitVec 3) (b a w : Reg) (s : State) : Ans :=
  wideAdd (.waccp t b a w) (eltOf t false).width w s (waccpLane (eltOf t false))
/-- WRND's result (R117). -/
def wideRound (a : WAcc) (mode : Nat) : Nat × Fl :=
  if a.nan || a.pinf && a.ninf then (FF.f32.canonNaN, if a.pinf && a.ninf then flNV else 0)
  else if a.pinf then (FF.f32.inf false, 0)
  else if a.ninf then (FF.f32.inf true, 0)
  else FF.f32.round (.fin (decide (a.val.toInt < 0)) a.val.toInt.natAbs (2 ^ 149)) mode
/-- An instruction that writes a vector register from an accumulator. -/
def fromWide (i : Instr) (w d : Reg) (s : State) (f : State → WAcc → VReg × List Fl) : Ans :=
  checkedBy i (fun _ => wideCheck i w) s fun s => onQueues i s fun s =>
    let (r, fls) := f s (s.self.getW w.toNat)
    let all := orFl fls
    if enabledFl s.self all then (raiseFl s.me all s).trap 9 (fpVal all (trapLane s.self.fenable fls))
    else ((raiseFl s.me all s).putV d r).pass i.len
/-- R117. -/
def execWrnd (w d : Reg) (s : State) : Ans :=
  fromWide (.wrnd w d) w d s fun s a =>
    let (r, fl) := wideRound a s.self.frm.toNat
    (pack 32 [r], [fl])
/-- The image of R118 as a number: bits 0, 1, 2 of its sixth word are PINF, NINF, NAN in the order in which R118 lists them (log 20). -/
def wideImage (a : WAcc) : Nat := a.val.toNat + (b2n a.pinf + 2 * b2n a.ninf + 4 * b2n a.nan) * 2 ^ 320
def imageWide (n : Nat) : WAcc := { val := BitVec.ofNat 320 n, pinf := nbit n 320, ninf := nbit n 321, nan := nbit n 322 }
/-- R164. -/
def execWsave (w d : Reg) (s : State) : Ans :=
  fromWide (.wsave w d) w d s fun _ a => (BitVec.ofNat 1024 (wideImage a), [])
/-- R164. -/
def execWload (a w : Reg) (s : State) : Ans :=
  checkedBy (.wload a w) (fun _ => wideCheck (.wload a w) w) s fun s => onQueues (.wload a w) s fun s =>
    let (vs, s) := s.takeOperands (vectorUses (.wload a w)).1
    (s.modSelf fun t => t.setW w.toNat (imageWide (vs.getD 0 0).toNat)).pass 4

end Sys2Proof.Machine
end

