-- ==== Sys2Proof/Machine/Hash.lean ====
section
/-!
DEFINITION. Hash tables in wells: HACC, HLOOK, HCLR (R166-R171). HACC takes one lane a cycle once the table's well is reached;
HLOOK and HCLR are performed in one cycle (log 1).
-/

namespace Sys2Proof.Machine

/-- The first entry of the probe sequence (R167). -/
def hashHome (d : Desc) (k : Nat) : Nat := k * 0x9E3779B1 % 2 ^ 32 / 2 ^ (32 - Nat.log2 d.dim0)
def emptyKey : Nat := 0xFFFFFFFF
/-- The well offset of an entry. -/
def hashOff (d : Desc) (n : Nat) : Nat := wellOff d.base + 8 * n
/-- The entries that a key is looked for in. -/
def probes (d : Desc) (k : Nat) : List Nat := (List.range 8).map fun j => (hashHome d k + j) % d.dim0
/-- Key and value of an entry. -/
def State.hashEntry (s : State) (owner : Nat) (d : Desc) (n : Nat) : Nat × Nat :=
  let w := ofBytes (s.wellRead owner (hashOff d n) 8)
  (w % 2 ^ 32, w / 2 ^ 32)
/-- The entries that a lane touches: up to the first one that ends its search; HLOOK looks past empty ones (R168, R170). -/
def State.touched (s : State) (owner : Nat) (d : Desc) (look : Bool) (k : Nat) : List Nat :=
  let l := probes d k
  match l.findIdx? fun n => (s.hashEntry owner d n).1 = k || !look && (s.hashEntry owner d n).1 = emptyKey with
  | some i => l.take (i + 1)
  | none => l
/-- The identifier (R166), RO where it is written through (R122, R185, log 20), and the table's place (R167). -/
def hashCheck (t : BitVec 8) (write : Bool) (s : State) : Option (Nat × Word) :=
  match s.tensor s.self.ctx t.toNat with
  | none => some (2, t.zeroExtend 64)
  | some d =>
    if d.kind ≠ 2 then some (2, t.zeroExtend 64)
    else if write && d.ro then some (6, d.base)
    else
      let owner := wellCore s.me d.base
      let r := s.rights s.myCore owner
      if d.base.toNat % 8 ≠ 0 then some (4, d.base)
      else if wfield d.base 63 25 ≠ 0 then some (6, d.base)
      else if 2 ^ 20 < wellOff d.base + 8 * d.dim0 then some (6, wellAddr owner 0 + 2 ^ 20)
      else if !nbit r 0 || write && !nbit r 1 then some (7, d.base)
      else none
/-- A hash instruction issues: it pops its operands and keeps the entry that it pushes (R17), and waits until the table's well has
answered (R148). -/
def hashInsn (i : Instr) (t : BitVec 8) (write : Bool) (s : State) : Ans :=
  checkedBy i (fun s => (headCheck i false).orElse fun _ => hashCheck t write s) s fun s => onQueues i s fun s =>
    match s.tensor s.self.ctx t.toNat with
    | none => s
    | some d =>
      let h := s.me
      let (rs, dst) := vectorUses i
      let (ops, s) := s.takeOperands rs
      let (id, s) := s.fresh
      let pushes : Bool := dst.any (30 ≤ ·.toNat)
      let s := if pushes then s.pushQueue h ((dst.getD 0).toNat - 28) 0 (s.cycle + 2) (some id) else s
      let w : HashWait := { d := d, rs := rs, ops := ops, dst := dst, push := if pushes then some id else none }
      (s.blocks (.hash w)).later (s.firstLatency h false [.sector (wellCore h d.base) (wellOff d.base)]) (.hashAccessComplete h)
def execHacc (u : BitVec 3) (v b a : Reg) (s : State) : Ans := hashInsn (.hacc u v b a) (u ++ v) true s
def execHlook (u : BitVec 3) (v a d : Reg) (s : State) : Ans := hashInsn (.hlook u v a d) (u ++ v) false s
def execHclr (u : BitVec 3) (v : Reg) (s : State) : Ans := hashInsn (.hclr u v) (u ++ v) true s

/-- What a thread's hash instruction waits for. -/
def hashWaitOf (t : Thread) : Option HashWait := match t.run with | .blocked (.hash w) => some w | _ => none
def State.modHash (s : State) (h : Nat) (f : HashWait → HashWait) : State :=
  s.modThread h fun t => match t.run with
    | .blocked (.hash w) => { t with run := .blocked (.hash (f w)) }
    | _ => t
/-- A result is written, or takes the entry that was kept for it in its queue. -/
def putHash (h : Nat) (w : HashWait) (v : VReg) (s : State) : State :=
  match w.dst, w.push with
  | some d, some id =>
    let fill (e : QEntry) : QEntry := if e.wait = some id then { val := v, at_ := s.cycle + 2 } else e
    (s.modQueue (coreOf h) (pairOf h) (d.toNat - 28) fun x => { x with ents := x.ents.map fill }).wakePartner h (s.cycle + 1)
  | some d, none => s.modThread h fun t => t.setV d.toNat v
  | none, _ => s
/-- The instruction retires, with its result. -/
def hashRetires (h : Nat) (s : State) : State :=
  match hashWaitOf (s.thread h) with
  | none => s
  | some w => ((putHash h w (w.done.getD 0) s).passOf h 4).goesOn h
/-- It does not retire: its operands are back at the heads of their queues, and no entry is kept (R23, R25). -/
def hashBack (h : Nat) (s : State) : State :=
  match hashWaitOf (s.thread h) with
  | none => s
  | some w =>
    let s := (w.rs.zip w.ops).reverse.foldl (fun s (r, v) =>
      if r = 28 || r = 29 then s.modQueue (coreOf h) (pairOf h) (r.toNat - 28) fun x => { x with ents := { val := v, at_ := s.cycle } :: x.ents }
      else s) s
    match w.dst, w.push with
    | some d, some id => s.modQueue (coreOf h) (pairOf h) (d.toNat - 28) fun x => { x with ents := x.ents.filter fun e => e.wait ≠ some id }
    | _, _ => s
/-- Its work at the table is done: it retires. -/
def hashDone (h : Nat) (v : VReg) (s : State) : State := hashRetires h (s.modHash h fun w => { w with done := some v })
/-- It traps: with cause 0x06 for an uncorrectable error of the well (R367). -/
def hashTrap (h cause : Nat) (v : Word) (s : State) : State :=
  parkTrap h cause (s.thread h).seq.pc v ((hashBack h s).modThread h fun t => { t with dataError := cause = 6 })
/-- It works at units of the table, or waits for them (R260). -/
def atTable (h : Nat) (us : List LockUnit) (write : Bool) (s : State) (f : State → State) : State :=
  s.atUnits (.hash h) (orderKey h (s.thread h).since) write us (·.later 1 (.hashAccessComplete h)) f
/-- What stops an access to the entries that it touches, as cause and TRAPVAL: an uncorrectable error (R367), or a race (R279). -/
def State.hashBad (s : State) (h owner : Nat) (d : Desc) (write : Bool) (ns : List Nat) : Option (Nat × Word) × State :=
  match s.brokenSector (ns.flatMap fun n => sectorsOf owner (hashOff d n) 8) with
  | some va => (some (6, va), s)
  | none => let (r, s) := s.raceCheck (coreOf h) (s.thread h).ctx write (ns.map fun n => (owner, hashOff d n, 8))
    (r.map fun a => (0x0C, a), s)
/-- HACC's lane i (R168): the events, or the cause and TRAPVAL of a trap. -/
def haccLane (h owner : Nat) (d : Desc) (k v i : Nat) (s : State) : Except (Nat × Word) (State × Fl) :=
  if k = emptyKey then .ok (s, 0)
  else
    let ns := s.touched owner d false k
    match s.hashBad h owner d true ns with
    | (some e, _) => .error e
    | (none, s) => match ns.find? fun n => (s.hashEntry owner d n).1 = k || (s.hashEntry owner d n).1 = emptyKey with
      | none => .error (0x0B, word i)
      | some n =>
        let (key, old) := s.hashEntry owner d n
        let (new, fl) := if key ≠ k then (v, 0)
          else if d.fmt = 0 then FF.f32.add (s.thread h).frm.toNat old v else ((old + v) % 2 ^ 32, 0)
        if enabledFl (s.thread h) fl then .ok (s, fl)
        else .ok (s.landWell owner (hashOff d n) (toBytes 8 (k + new * 2 ^ 32)) 0, fl)
/-- HACC's key and value of lane n. -/
def HashWait.lane (w : HashWait) (n : Nat) : Nat × Nat :=
  ((lanesOf 32 (w.ops.getD 0 0)).getD n 0, (lanesOf 32 (w.ops.getD 1 0)).getD n 0)
/-- HACC's lane LANECUR: it traps, or retires after its last lane, or `next` follows. -/
def haccNow (h : Nat) (w : HashWait) (s : State) (next : State → State) : State :=
  let t := s.thread h
  let n := t.lanecur.toNat
  match haccLane h (wellCore h w.d.base) w.d (w.lane n).1 (w.lane n).2 n s with
  | .error (c, x) => hashTrap h c x s
  | .ok (s, fl) =>
    let all := w.fl ||| fl
    let s := raiseFl h fl s
    if enabledFl t fl then hashTrap h 9 (fpVal all n) s
    else if n = 31 then hashDone h 0 (s.modThread h fun t => { t with lanecur := 0 })
    else next ((s.modThread h fun t => { t with lanecur := t.lanecur + 1 }).modHash h fun w => { w with fl := all })
/-- HACC goes on with lane LANECUR. -/
def haccStep (h : Nat) (w : HashWait) (s : State) : State :=
  let owner := wellCore h w.d.base
  let k := (w.lane (s.thread h).lanecur.toNat).1
  let us := (s.touched owner w.d false k).flatMap fun e => sectorsOf owner (hashOff w.d e) 8
  atTable h (if k = emptyKey then [] else us) true s fun s => haccNow h w s fun s => s.later 1 (.hashAccessComplete h)
/-- HACC's lanes from LANECUR on, at once. -/
def haccAll (h : Nat) : Nat → State → State
  | 0, s => s
  | n + 1, s => match hashWaitOf (s.thread h) with
    | some w => haccNow h w s (haccAll h n)
    | none => s
/-- HLOOK (R170). -/
def hlookNow (h : Nat) (w : HashWait) (s : State) : State :=
  let d := w.d
  let owner := wellCore h d.base
  let ks := lanesOf 32 (w.ops.getD 0 0)
  let ns := (ks.filter (· ≠ emptyKey)).flatMap (s.touched owner d true)
  match s.hashBad h owner d false ns with
    | (some (c, x), s) => hashTrap h c x s
    | (none, s) =>
      let look (k : Nat) : Nat :=
        if k = emptyKey then 0
        else match (probes d k).find? fun n => (s.hashEntry owner d n).1 = k with
          | some n => (s.hashEntry owner d n).2
          | none => 0
      hashDone h (pack 32 (ks.map look)) s
/-- HCLR (R170). -/
def hclrNow (h : Nat) (w : HashWait) (s : State) : State :=
  let d := w.d
  let owner := wellCore h d.base
  match s.raceCheck (coreOf h) (s.thread h).ctx true [(owner, wellOff d.base, 8 * d.dim0)] with
    | (some x, s) => hashTrap h 0x0C x s
    | (none, s) => hashDone h 0 (s.landWell owner (wellOff d.base) ((List.range d.dim0).flatMap fun _ => toBytes 8 emptyKey) 0)
/-- The units of the table that a hash instruction touches, and whether it writes them. -/
def hashUnits (h : Nat) (w : HashWait) (i : Instr) (s : State) : List LockUnit × Bool :=
  let owner := wellCore h w.d.base
  let keys := (lanesOf 32 (w.ops.getD 0 0)).filter (· ≠ emptyKey)
  let probed := (keys.flatMap fun k => probes w.d k).flatMap fun e => sectorsOf owner (hashOff w.d e) 8
  let looked := (keys.flatMap (s.touched owner w.d true)).flatMap fun e => sectorsOf owner (hashOff w.d e) 8
  match i with
  | .hacc _ _ _ _ => (probed, true)
  | .hlook _ _ _ _ => (looked, false)
  | _ => (sectorsOf owner (wellOff w.d.base) (8 * w.d.dim0), true)
/-- A hash instruction does all its work at its table; it retires or traps (R168, R170). -/
def hashNow (h : Nat) (w : HashWait) (s : State) : State :=
  match blockedInsn (s.thread h) with
  | some (.hacc _ _ _ _) => haccAll h 32 s
  | some (.hlook _ _ _ _) => hlookNow h w s
  | some (.hclr _ _) => hclrNow h w s
  | _ => s
/-- A hash instruction's part in its gang: the members act on the table in ascending order, and none before all have come to it
without a trap (R29, R173). -/
def finHash (h v : Nat) (s : State) : State :=
  match hashWaitOf (s.thread h) with
  | none => s
  | some w => if v = undoes then (hashBack h s).before h else hashNow h w s
/-- A member of a gang waits at its table: for HACC as long as the members up to it take for their lanes (log 1), and for locks. -/
def hashInGang (h : Nat) (w : HashWait) (s : State) : State :=
  let t := s.thread h
  let i := (blockedInsn t).getD .illegalInstruction
  let j := match t.gang with | some (_, _, j) => j | none => 0
  let hacc : Bool := match i with | .hacc _ _ _ _ => true | _ => false
  let us := hashUnits h w i s
  if hacc && w.done.isNone then (s.modHash h fun w => { w with done := some 0 }).later (32 * j + 31) (.hashAccessComplete h)
  else if s.mustWait us.1 us.2 s.cycle (orderKey h (s.thread h).since) then s.later 1 (.hashAccessComplete h)
  else s.together h 0 finHash hashBack
/-- R148, R168, R170, R173: the work of a waiting hash instruction at its table's well. -/
def execHashAccessComplete (s : State) : Ans :=
  onEvent s fun | .hashAccessComplete h => (match hashWaitOf (s.thread h) with
                    | none => s
                    | some w =>
                      if (s.thread h).fin = some undoes then finHash h undoes s
                      else if (s.thread h).gang.isSome then hashInGang h w s
                      else
                        let i := (blockedInsn (s.thread h)).getD .illegalInstruction
                        let us := hashUnits h w i s
                        match i with
                        | .hacc _ _ _ _ => haccStep h w s
                        | _ => atTable h us.1 us.2 s (hashNow h w))
                | _ => s

end Sys2Proof.Machine
end

