-- ==== Sys2Proof/Machine/Cistern.lean ====
section
/-!
DEFINITION. The cistern (R201, R202), tile references and their checks (R195, R213), MZERO, MCOPY, MLDC, MSTC (R220-R223), and
the row moves of execute threads (R224-R226).
-/

namespace Sys2Proof.Machine

/-! ### Rows and tiles -/

def Core.cisRow (k : Core) (tile row : Nat) : VReg := tget 0 k.cistern (32 * tile + row)
/-- A row of zeros is not listed. -/
def Core.setRow (k : Core) (tile row : Nat) (v : VReg) : Core :=
  { k with cistern := if v = 0 then terase k.cistern (32 * tile + row) else tset k.cistern (32 * tile + row) v }
def Core.cisTile (k : Core) (tile : Nat) : List VReg := (List.range 32).map (k.cisRow tile)
def Core.setTile (k : Core) (tile : Nat) (rows : List VReg) : Core :=
  (List.range 32).foldl (fun k i => k.setRow tile i (rows.getD i 0)) k
/-- This cycle is the last one of a step on the tile (R220). -/
def Core.lastCycle (k : Core) (tile cycle : Nat) : Bool :=
  k.running.any (fun r => r.tile = tile && r.last = cycle) || k.lastWrite = some (tile, cycle)
/-- An MLDC issued no later than a cycle holds the tile (R222). -/
def Core.tileHeld (k : Core) (tile issued : Nat) : Bool := k.heldTiles.any fun x => x.tile = tile && x.issued ≤ issued
/-- The tiles that an operation acts on. -/
def moveTiles (m : RowMove) : List Nat := match m.op with
  | .copy src => [m.tile, src]
  | _ => [m.tile]
/-- The effect of an operation on its tile. -/
def moveEffect (c : Nat) (m : RowMove) (s : State) : State :=
  match m.op with
  | .load row d =>
    let v := (s.core c).cisRow m.tile row
    s.modThread m.h fun t => { t.setV d.toNat v with pend := tset t.pend (64 + d.toNat) (some (s.cycle + 1)) }
  | .store row v => s.modCore c fun k => k.setRow m.tile row v
  | .zero => s.modCore c fun k => k.setTile m.tile []
  | .copy src => s.modCore c fun k => k.setTile m.tile (k.cisTile src)
/-- An operation cannot be performed in this cycle: it is early, the thread's earlier one is still to come, an MLDC holds the
tile, or a step ends on it (R220, R222, R225). -/
def State.moveWaits (s : State) (c id : Nat) (m : RowMove) : Bool :=
  let k := s.core c
  decide (s.cycle < m.at_) || k.moves.any (fun x => x.1 < id && x.2.h = m.h && x.2.performed.isNone)
    || (moveTiles m).any fun t => k.tileHeld t m.issued || k.lastCycle t s.cycle
/-- Every operation of a core that can be performed in this cycle is, in the order of issue (R220). -/
def performMoves (c : Nat) (s : State) : State :=
  (s.core c).moves.foldl (fun s (id, m) =>
    if m.performed.isSome || s.moveWaits c id m then s
    else moveEffect c m (s.modCore c fun k => { k with moves := tset k.moves id { m with performed := some s.cycle } })) s
/-- VWAITC retires. -/
def finVwaitc (h v : Nat) (s : State) : State := if v = undoes then s.before h else (s.passOf h 4).wake h
/-- A thread leaves VWAITC once few enough row moves are left (R226), in a gang together with the other members (R29). -/
def vwaitcEnds (h : Nat) (s : State) : State :=
  let t := s.thread h
  match t.run with
  | .blocked (.vwaitc n) => if t.fin = some undoes || t.cwait.toNat ≤ n then s.together h 0 finVwaitc else s
  | _ => s
/-- A row move is counted down; its thread may leave VWAITC (R225, R226). -/
def countDown (h : Nat) (s : State) : State := vwaitcEnds h (s.modThread h fun t => { t with cwait := t.cwait - 1 })
/-- R225: an operation is performed, and counted down in the cycle after. Without one, a thread's VWAITC is looked at. -/
def execCisternRowMove (s : State) : Ans :=
  onEvent s fun | .cisternRowMove h id =>
                    let c := coreOf h
                    let s := performMoves c s
                    (match tfind (s.core c).moves id with
                    | none => vwaitcEnds h s
                    | some m =>
                      if m.performed.any (· < s.cycle) then
                        let s := s.modCore c fun k => { k with moves := terase k.moves id }
                        match m.op with
                        | .load _ _ | .store _ _ => countDown h s
                        | _ => s
                      else s.later 1 (.cisternRowMove h id))
                | _ => s
/-- An operation is to be performed n cycles from now. -/
def State.startMove (s : State) (h tile : Nat) (op : CisOp) (n : Nat) : State :=
  let (id, s) := s.fresh
  let m : RowMove := { h := h, tile := tile, op := op, issued := s.cycle, at_ := s.cycle + n }
  (s.modCore (coreOf h) fun k => { k with moves := tset k.moves id m }).later n (.cisternRowMove h id)

/-! ### VLDC, VSTC, VWAITC (R224-R226) -/

/-- The row selector, then the register (R225). -/
def rowCheck (a : Reg) (bad : Bool) (s : State) : Option (Nat × Word) :=
  if wfield (s.getX a) 63 11 ≠ 0 then some (2, s.getX a) else if bad then some (2, 0) else none
/-- R225. -/
def execVldc (a d : Reg) (s : State) : Ans :=
  checkedBy (.vldc a d) (rowCheck a (28 ≤ d.toNat)) s fun s =>
    if 16 ≤ s.self.cwait.toNat then s.stalls
    else
      let x := s.getX a
      let s := (s.modSelf fun t => { t with cwait := t.cwait + 1, pend := tset t.pend (64 + d.toNat) none })
      (s.startMove s.me (wfield x 10 5) (.load (wfield x 4 0) d) 4).pass 4
/-- R225. -/
def execVstc (a d : Reg) (s : State) : Ans :=
  checkedBy (.vstc a d) (rowCheck a (30 ≤ d.toNat)) s fun s =>
    if 16 ≤ s.self.cwait.toNat then s.stalls
    else onQueues (.vstc a d) s fun s =>
      let x := s.getX a
      let (vs, s) := s.takeOperands [d]
      let s := s.modSelf fun t => { t with cwait := t.cwait + 1 }
      (s.startMove s.me (wfield x 10 5) (.store (wfield x 4 0) (vs.getD 0 0)) 4).pass 4
/-- R226. -/
def execVwaitc (n : BitVec 5) (s : State) : Ans :=
  checkedBy (.vwaitc n) (fun _ => if 16 ≤ n.toNat then some (2, 0) else none) s fun s =>
    if s.self.gang.isSome then (s.blocks (.vwaitc n.toNat)).later 0 (.cisternRowMove s.me 0)
    else if s.self.cwait.toNat ≤ n.toNat then s.pass 4 else s.blocks (.vwaitc n.toNat)

/-! ### Tile references (R195, R213) -/

/-- A tile reference of a valid identifier, for a thread. -/
def tileRefOf (h : Nat) (d : Desc) (w : Word) : TileRef :=
  { t := wfield w 63 56, core := coreIn (clusterOf h) (wfield w 55 51), group := wfield w 50 48, off := wfield w 19 0, fmt := d.fmt,
    scaled := d.kind = 1, stride := d.s1.toNat, rows := d.nrows, rowBytes := d.rb, scaleBase := d.scaleBase.toNat, dim0 := d.dim0,
    nrows := d.dim1 * d.dim2 * d.dim3, readOnly := d.ro }
def State.refDesc (s : State) (w : Word) : Option Desc := s.tensor s.self.ctx (wfield w 63 56)
/-- Bytes of n elements of a format. -/
def bytesOfElems (fmt n : Nat) : Nat := if fmt = 11 then n / 2 else n * fmtSize fmt
/-- The first byte of rows 0-31 that lies behind the well. -/
def rowsPast (off stride len : Nat) : Option Nat :=
  ((List.range 32).map fun i => off + i * stride).findSome? fun a => if 2 ^ 20 < a + len then some (max a (2 ^ 20)) else none
/-- What an instruction asks of its references: elements of a row, if the range is checked; whether it writes, and whether it
takes only dense tensors; its own conditions at check 3. -/
structure RefRule where
  elems : Option Nat
  write : Bool
  dense : Bool
  third : Desc → Bool
/-- Check 2 of R213 on a reference. TRAPVAL is the identifier's number for RO = 1 as well (log 20). -/
def refCheck2 (s : State) (u : RefRule) (w : Word) : Option (Nat × Word) :=
  let id := word (wfield w 63 56)
  match s.refDesc w with
  | none => some (2, id)
  | some d => if 2 ≤ d.kind || u.dense && d.kind ≠ 0 then some (2, id) else if u.write && d.ro then some (6, id) else none
/-- The checks of R213 in their order on every reference; `pair` comes after check 2. -/
def refChecks (s : State) (u : RefRule) (pair : Option (Nat × Word)) (ws : List Word) : Option (Nat × Word) :=
  let each (f : Word → Desc → Option (Nat × Word)) : Option (Nat × Word) :=
    ws.findSome? fun w => (s.refDesc w).bind (f w)
  let row0 (w : Word) : Word := wellAddr (wfield w 55 51) (wfield w 19 0)
  (ws.findSome? fun w => if wfield w 47 20 ≠ 0 then some (2, w) else none).orElse fun _ =>
  (ws.findSome? (refCheck2 s u)).orElse fun _ =>
  pair.orElse fun _ =>
  (each fun w d => if d.nrows ≠ 32 || u.third d then some (2, w) else none).orElse fun _ =>
  (each fun w d => if wfield w 19 0 % fmtSize d.fmt ≠ 0 then some (4, row0 w) else none).orElse fun _ =>
  (each fun w d => u.elems.bind fun n => (rowsPast (wfield w 19 0) d.s1.toNat (bytesOfElems d.fmt n)).map fun o => (6, word o)).orElse fun _ =>
  each fun w _ =>
    if nbit (s.rights s.myCore (coreIn (clusterOf s.me) (wfield w 55 51))) (b2n u.write) then none else some (7, row0 w)
/-- CB4, I64 and N64 are refused by MLDC, with its reference (R222), and by MSTC (R223). -/
def cisternFmt (s : State) (w v : Word) : Option (Nat × Word) :=
  match s.refDesc w with
  | some d => if d.fmt = 11 || 12 ≤ d.fmt then some (2, v) else none
  | none => none
/-- The rows of MLDC and MSTC fill their tile. -/
def fullRow (d : Desc) : Bool := d.rb ≠ 32 * fmtSize d.fmt

/-! ### MZERO, MCOPY, MLDC, MSTC (R220-R223) -/

/-- A tile operation issues once no MLDC holds its tiles; in the last cycle of a step on one of them it is performed in the cycle
after (R220, R222). -/
def tileOp (tile : Nat) (op : CisOp) (s : State) : State :=
  let k := s.core s.myCore
  let m : RowMove := { h := s.me, tile := tile, op := op, issued := s.cycle, at_ := s.cycle }
  if (moveTiles m).any fun t => k.tileHeld t s.cycle then s.stalls
  else if (moveTiles m).any fun t => k.lastCycle t s.cycle then (s.startMove s.me tile op 1).pass 4
  else (moveEffect s.myCore m s).pass 4
/-- R221. -/
def execMzero (c : BitVec 6) (d : Reg) (s : State) : Ans :=
  let o (s : State) : Nat := c.toNat + wfield (s.getX d) 13 8
  checkedBy (.mzero c d) (fun s => if 63 < o s then some (2, s.getX d) else none) s fun s => tileOp (o s) .zero s
/-- R221. -/
def execMcopy (c : BitVec 6) (a : Reg) (s : State) : Ans :=
  checkedBy (.mcopy c a) (fun s => if wfield (s.getX a) 63 6 ≠ 0 then some (2, s.getX a) else none) s fun s =>
    tileOp c.toNat (.copy (wfield (s.getX a) 5 0)) s

/-- An earlier well store of a thread is still to land (R196). -/
def State.storesOut (s : State) (h before : Nat) : Bool :=
  s.agenda.any (fun x => match x.2 with
    | .wellStoreLand g _ _ _ sent => g = h && sent < before
    | _ => false)
    || s.reqs.any (fun q => reqBy q (.thread h) && isWellKey q.addr && farWrites q.op && q.sent < before)
    || s.taccs.any fun x => x.2.h = h && x.2.sent < before && (match x.2.done with | .tst => true | .qst => true | _ => false)
        && x.2.units.any fun u => match u with
          | .sector _ _ => true
          | .line _ => false
/-- The 32 rows of a reference from an offset on. -/
def State.rowsAt (s : State) (r : TileRef) (off len : Nat) : List (List Byte) :=
  (List.range 32).map fun i => s.wellRead r.core (off + i * r.stride) len
/-- The element codes of a row. -/
def codesOf (fmt : Nat) (bs : List Byte) : List Nat :=
  if fmt = 11 then bs.flatMap fun b => [b.toNat % 16, b.toNat / 16]
  else let z := fmtSize fmt
    (List.range (bs.length / z)).map fun i => ofBytes ((bs.drop (z * i)).take z)
/-- R222: an element widened to the cistern. -/
def widen (fmt x : Nat) : Nat :=
  match fmtFloat fmt with
  | some .f32 => x
  | some .b16 => x * 2 ^ 16
  | some _ => (laneCvt (.fl .f32) fmt 0 x).1
  | none => if fmt < 8 then wrapTo 32 (signedOf (8 * fmtSize fmt) x) else x
/-- R222: when the rows are there. -/
def wellReadCycles (h core : Nat) : Nat := if core = coreOf h then 4 else 12 + 4 * hops (coreOf h) core
/-- R222. -/
def execMldc (c : BitVec 6) (a : Reg) (s : State) : Ans :=
  let u : RefRule := { elems := some 32, write := false, dense := true, third := fullRow }
  checkedBy (.mldc c a) (fun s => refChecks s u (cisternFmt s (s.getX a) (s.getX a)) [s.getX a]) s fun s => s.ordered false fun s =>
    match s.refDesc (s.getX a) with
    | none => s
    | some d =>
      let r := tileRefOf s.me d (s.getX a)
      if (s.core s.myCore).tileHeld c.toNat s.cycle then s.stalls
      else match s.raceCheck s.myCore s.self.ctx false (rowSegs r r.off r.rowBytes) with
        | (some v, s) => s.trap 0x0C v
        | (none, s) =>
          let s := s.modCore s.myCore fun k => { k with heldTiles := k.heldTiles ++ [{ tile := c.toNat, issued := s.cycle, insn := s.issue.insn }] }
          (s.later (if r.core = s.myCore then 4 else 6 + 2 * hops s.myCore r.core) (.mldcPerform s.me c.toNat r)).pass 4
def State.modMldc (s : State) (c tile : Nat) (f : MldcHold → MldcHold) : State :=
  s.modCore c fun k => { k with heldTiles := k.heldTiles.map fun m => if m.tile = tile then f m else m }
/-- The rows of an MLDC are there: the tile is written behind the operations issued earlier (R220), and what waits for it may go
on; in the last cycle of a step on the tile this is put off (R220). -/
def mldcArrives (h tile : Nat) (r : TileRef) (rows : List VReg) (s : State) : State :=
  let c := coreOf h
  if (s.core c).lastCycle tile s.cycle then (s.modMldc c tile fun m => { m with rows := some rows }).later 1 (.mldcPerform h tile r)
  else
    let s := performMoves c s
    let s := s.modCore c fun k => { k.setTile tile rows with heldTiles := k.heldTiles.filter (·.tile ≠ tile) }
    (performMoves c s).later 0 (.matrixStepStart c)
/-- R222: the rows are read at the well bank, after the thread's earlier well stores (R196) and its earlier accesses to those banks (R267),
and come back. -/
def execMldcPerform (s : State) : Ans :=
  onEvent s fun | .mldcPerform h tile r =>
                    let c := coreOf h
                    (match (s.core c).mldc tile with
                    | none => s
                    | some m => match m.rows with
                      | some rows => mldcArrives h tile r rows s
                      | none =>
                        let us := rowUnits r r.off r.rowBytes
                        if s.takeOut (.thread h) m.issued || s.storesOut h m.issued || s.banksBehind h us m.issued then s.later 1 (.mldcPerform h tile r)
                        else s.atUnits (.mldc c tile) (orderKey h m.issued) false us (·.later 1 (.mldcPerform h tile r)) fun s =>
                          match s.brokenSector us with
                          | some va => failThread h m.issued m.insn va (s.modCore c fun k => { k with heldTiles := k.heldTiles.filter (·.tile ≠ tile) })
                          | none =>
                            let rows := (s.rowsAt r r.off r.rowBytes).map fun bs => pack 32 ((codesOf r.fmt bs).map (widen r.fmt))
                            if r.core = c then mldcArrives h tile r rows s
                            else (s.modMldc c tile fun m => { m with rows := some rows }).later (6 + 2 * hops c r.core) (.mldcPerform h tile r))
                | _ => s
/-- R223: an element of the cistern in a format, and its events. -/
def narrow (fmt x : Nat) : Nat × Fl :=
  match fmtFloat fmt with
  | some .f32 => (x, 0)
  | some f => laneCvt (.fl f) 0 0 x
  | none => laneCvt (eltOfFmt fmt) 5 0 x
/-- R223: the rows leave as STLs do, behind a TQTRY before them (R337). -/
def storeRows (r : TileRef) (rows : List (List Nat)) (s : State) : State :=
  let h := s.me
  let n := if r.core = coreOf h then 1 else 7 + 2 * hops (coreOf h) r.core
  let z := fmtSize r.fmt
  forUpto 32 s fun i s =>
    let off := r.off + i * r.stride
    let bs := (rows.getD i []).flatMap (toBytes z)
    if s.takeOut s.cur s.cycle then s.sendFar (wellStore h r.core off bs (wellAddr r.core off) s.cycle) i
    else s.later (n + i) (.wellStoreLand h r.core off bs s.cycle)
/-- R223. The formats that MSTC refuses are looked at behind check 2 of R213. FFLAGS holds the events of an MSTC that traps for one of
them, too (R365; log 20). -/
def execMstc (c : BitVec 6) (a : Reg) (s : State) : Ans :=
  let u : RefRule := { elems := some 32, write := true, dense := true, third := fullRow }
  checkedBy (.mstc c a) (fun s => refChecks s u (cisternFmt s (s.getX a) 0) [s.getX a]) s fun s => s.ordered false fun s =>
    match s.refDesc (s.getX a) with
    | none => s
    | some d =>
      let r := tileRefOf s.me d (s.getX a)
      let k := s.core s.myCore
      if k.tileHeld c.toNat s.cycle || k.lastCycle c.toNat s.cycle then s.stalls
      else match s.raceCheck s.myCore s.self.ctx true (rowSegs r r.off r.rowBytes) with
        | (some v, s) => s.trap 0x0C v
        | (none, s') =>
          let rows := (k.cisTile c.toNat).map fun v => (lanesOf 32 v).map (narrow r.fmt)
          let f := orFl ((rows.flatMap id).map Prod.snd)
          if enabledFl s.self f then (raiseFl s.me f s).trap 9 (word f.toNat)
          else (storeRows r (rows.map fun l => l.map Prod.fst) (raiseFl s.me f s')).pass 4

end Sys2Proof.Machine
end

