-- ==== Sys2Proof/Machine/Matrix.lean ====
section
/-!
DEFINITION. The matrix engine: exact sums of K-blocks (R112, R113, R119), steps, their preparation and their traps
(R198, R199, R203-R206, R214-R219), multicast groups (R207-R209), MMA and MSPW.
-/

namespace Sys2Proof.Machine

/-! ### Exact sums (R119) -/

/-- The exponent of the unit in which a format's elements are whole numbers. -/
def unitExp (fmt : Nat) : Int :=
  match fmtFloat fmt with
  | some f => 1 - ((f.bias + f.frac : Nat) : Int)
  | none => if fmt = 11 then -6 else 0
/-- The value of an element in that unit. -/
def unitVal (fmt x : Nat) : FVal :=
  match fmtFloat fmt with
  | some f => (match f.val x with
    | .fin neg _ _ =>
      let e := field x (f.width - 2) f.frac
      .fin neg (if e = 0 then x % 2 ^ f.frac else (x % 2 ^ f.frac + 2 ^ f.frac) * 2 ^ (e - 1)) 1
    | v => v)
  | none => if fmt = 11 then .fin (cb4 x < 0) (cb4 x).natAbs 1 else .fin (signedOf 8 x < 0) (signedOf 8 x).natAbs 1
/-- A sum under way: the exact sum, whether every product was −0, an invalid product, infinite products of either sign. -/
structure BlockSum where
  sum : Int := 0
  negZero : Bool := true
  nan : Bool := false
  pinf : Bool := false
  ninf : Bool := false
def BlockSum.add (b : BlockSum) (x y : FVal) : BlockSum :=
  match x.mul y with
  | .nan => { b with nan := true }
  | .inf true => { b with ninf := true }
  | .inf false => { b with pinf := true }
  | .fin neg n _ => { b with sum := b.sum + (if neg then -(n : Int) else n), negZero := b.negZero && neg && n = 0 }
/-- A K-block's sum of a row of A and a row of B. -/
def blockSum (a b : List FVal) : BlockSum := (a.zip b).foldl (fun s (x, y) => s.add x y) {}
/-- Its value: special values first, then the exact sum with its scales, in units of 2^e. -/
def BlockSum.val (b : BlockSum) (e : Int) (scale : FVal) : FVal :=
  if b.nan || b.pinf && b.ninf then .nan
  else if b.pinf then .inf false
  else if b.ninf then .inf true
  else if b.sum = 0 then .fin b.negZero 0 1
  else (scaled (b.sum < 0) b.sum.natAbs e).mul scale
/-- A cistern element after a step: one rounding, and the events (R119). A signalling NaN in the cistern raises NV (R105). -/
def accumulate (x : Nat) (v : FVal) : Nat × Fl :=
  let y := FF.f32.val x
  let r := y.add 0 v
  let (c, fl) := FF.f32.round r 0
  (c, fl ||| sigFl .f32 [x] ||| (if v = .nan then flNV else 0) ||| invalid [y, v] r)
/-- The scale of row i: the factor of R113, or 1. -/
def scaleOf (codes sups : List Nat) (i : Nat) : FVal :=
  match codes[i]?, sups[i]? with
  | some c, some p => (blockScale c).mul (FF.f32.val p)
  | _, _ => .fin false 1 1
/-- The tile after a step of a job, and the events of its roundings (R215). -/
def stepTile (fa fb mask : Nat) (p : Prep) (supA supB : List Nat) (tile : List VReg) : List VReg × Fl :=
  let dec (fmt : Nat) (rows : Option (List (List Byte))) : List (List FVal) :=
    (rows.getD []).map fun bs => (codesOf fmt bs).map (unitVal fmt)
  let as := dec fa p.a
  let bs := (dec fb p.b).zipIdx.map fun (b, j) => (b, scaleOf p.codesB supB j)
  let e := unitExp fa + unitExp fb
  let rows := tile.zipIdx.map fun (v, i) =>
    if !nbit mask i then (v, (0 : Fl))
    else
      let a := as.getD i []
      let sa := scaleOf p.codesA supA i
      let els := ((lanesOf 32 v).zip bs).map fun (x, b, sb) =>
        let t := blockSum a b
        if fa = 7 then (wrapTo 32 ((x : Int) + t.sum), (0 : Fl)) else accumulate x (t.val e (sa.mul sb))
      (pack 32 (els.map Prod.fst), orFl (els.map Prod.snd))
  (rows.map Prod.fst, orFl (rows.map Prod.snd))
/-- The format pairs of R214 and the cycles of their steps. -/
def pairCycles (fa fb : Nat) : Option Nat :=
  let f8 (f : Nat) : Bool := f = 3 || f = 4
  if fa = 1 && fb = 1 || fa = 2 && fb = 2 then some 12
  else if f8 fa && f8 fb || fa = 7 && fb = 7 then some 6
  else if fa = 11 && fb = 1 then some 6
  else if fa = 11 && f8 fb then some 3
  else none

/-! ### Jobs -/

def MatJob.fmtA (j : MatJob) : Nat := match j.a with
  | some r => r.fmt
  | none => (j.list.map (·.fmt)).getD 0
def MatJob.prep (j : MatJob) (idx : Nat) : Prep := tget {} j.preps idx
def MatJob.modPrep (j : MatJob) (idx : Nat) (f : Prep → Prep) : MatJob := { j with preps := tmod {} j.preps idx f }
def State.job (s : State) (h : Nat) : Option MatJob := (tfind (s.core (coreOf h)).jobs (slotOf h)).filter fun j => j.h = h
def State.modJob (s : State) (h : Nat) (f : MatJob → MatJob) : State :=
  match s.job h with
  | some j => s.modCore (coreOf h) fun k => { k with jobs := tset k.jobs (slotOf h) (f j) }
  | none => s
def State.modPrep (s : State) (h idx : Nat) (f : Prep → Prep) : State := s.modJob h fun j => j.modPrep idx f
/-- The job that an event belongs to, if it is still the same issue of its instruction. -/
def State.jobSince (s : State) (h since : Nat) : Option MatJob := (s.job h).filter fun j => j.since = since
/-- A fault that is found n cycles from now while a step is prepared is held (R198, R205). -/
def holdFault (h idx cause : Nat) (v : Word) (n : Nat) (s : State) : State :=
  (s.modPrep h idx fun p => if p.fault.isSome then p else { p with fault := some (cause, v), faultAt := s.cycle + n }).later (n + 1)
    (.matrixStepStart (coreOf h))
/-- So is an uncorrectable error in what a step reads (R367). -/
def holdError (h idx : Nat) (v : Word) (s : State) : State :=
  holdFault h idx 6 v 0 (s.modPrep h idx fun p => if p.fault.isSome then p else { p with broken := true })
/-- The offset of an operand of a step in its well. -/
def MatJob.offA (r : TileRef) (idx : Nat) : Nat := r.off + idx * bytesOfElems r.fmt 48
def MatJob.offB (j : MatJob) (idx : Nat) : Nat :=
  let n := if j.list.isSome then ((j.prep idx).entry.map (·.bidx)).getD 0 else idx
  j.b.off + n * bytesOfElems j.b.fmt 48

/-! ### Reading ahead (R198, R210, R216) -/

/-- The pages of virtual ranges: address, bytes. -/
def pagesIn (l : List (Word × Nat)) : List (Nat × Nat) := l.flatMap fun (va, n) => splitPages va.toNat n
/-- What a run-ahead read of virtual ranges finds, leaving no trace: the cycles until all is there if the slices hold it, or the first
fault and the cycles until it is found. -/
def State.probe (s : State) (h : Nat) (l : List (Word × Nat)) : Except (MemFault × Nat) Nat :=
  let v := s.viewOf h
  (pagesIn l).foldl (fun r (a, k) =>
    match r with
    | .error e => .error e
    | .ok m =>
      let extra := s.trExtra v a .read
      match (s.translateNow v (word a) .read).1 with
      | .error c => .error ({ cause := c, va := word a }, extra)
      | .ok p => .ok ((linesOf p.key k).foldl (fun m u => match u with
          | .line l => max m (extra + s.nearLatency (dieOf h) l)
          | .sector _ _ => m) m)) (Except.ok 0 : Except (MemFault × Nat) Nat)
/-- A fetch of ranges issues: it joins the misses of its pages (R247), but for those of pages in whose leaf it would set A, as it leaves no
trace before its step starts (R210, R245). -/
def State.fetchJoins (s : State) (h : Nat) (l : List (Word × Nat)) : State :=
  let v := s.viewOf h
  (dedup ((pagesIn l).map fun x => x.1 / 4096 * 4096)).foldl (fun s a =>
    if (s.tlbFind v a .read).isSome || s.leafUntouched v a then s else s.engineJoins v a .read) s
/-- The bytes of a range at their homes, leaving no trace. -/
def State.peekVirt (s : State) (h : Nat) (va : Word) (n : Nat) : List Byte := (s.readVirt (s.viewOf h) va.toNat n).1
/-- The read of a step that starts sets its A bits. -/
def State.commitRead (s : State) (h : Nat) (va : Word) (n : Nat) : State :=
  (splitPages va.toNat n).foldl (fun s (a, _) => (s.translateNow (s.viewOf h) (word a) .read).2) s
/-- A run-ahead read of ranges would set an A bit: it waits until its step is current (R245). -/
def State.setsA (s : State) (h : Nat) (l : List (Word × Nat)) : Bool := (pagesIn l).any fun x => s.leafUntouched (s.viewOf h) x.1
/-- The lines of ranges, each with the address of its first byte in them and the slot of its page's key. -/
def State.linesAt (s : State) (h : Nat) (l : List (Word × Nat)) : List (Nat × Word × Nat) :=
  (pagesIn l).flatMap fun (a, k) => match (s.translateNow (s.viewOf h) (word a) .read).1 with
    | .ok p => (linesOf p.key k).filterMap fun | .line x => some (x, word (a + (max x p.key - p.key)), p.ks) | .sector _ _ => none
    | .error _ => []
/-- Step idx of a job is current: every earlier step has ended. -/
def State.isCurrent (s : State) (j : MatJob) (idx : Nat) : Bool :=
  idx = j.next && !(s.core (coreOf j.h)).running.any fun r => r.slot = slotOf j.h
/-- The replies of a fetch, which has waited n cycles at its homes: these hold its lines (R413), and the cycles of way and queues count once the
step starts (R210, R253). -/
def fetchedLines (h idx n : Nat) (ls : List (Nat × Nat)) (s : State) : State :=
  ls.foldl (fun s (l, ks) =>
    let s := s.holdLine l (some ks)
    match s.home l with
    | .slice sl _ => s.modPrep h idx fun p => { p with reads := p.reads ++ [(sl, s.nearLatency (dieOf h) l + n)] }
    | _ => s) s
/-- Earlier accesses of a thread to the banks of lines are still to be performed there: a fetch of its matrix instruction, which is made at
the homes, waits for them (R267, R269). -/
def State.fetchBehind (s : State) (h since : Nat) (ls : List Nat) : Bool :=
  s.reqs.any (fun q => reqBy q (.thread h) && q.sent < since && (!reqCached q || reqIsMiss q) && ls.any fun l => s.bankOf q.addr = s.bankOf l)
    || s.taccs.any fun x => x.2.h = h && tileOfThread x.2 && x.2.sent < since && ls.any fun l => x.2.units.contains (.line l)
/-- A fetch of ranges reaches their homes: it comes later where a slice does not hold a line (R413), waits for the thread's earlier accesses to
those banks and at locks (R260), and finds a fault where data cannot be read (R367, R380). -/
def fetchArrives (h : Nat) (j : MatJob) (idx kind : Nat) (l : List (Word × Nat)) (wait : Nat → State → State) (s : State) (go : State → State) : State :=
  let at_ := s.linesAt h l
  let ls := dedup (at_.map Prod.fst)
  let who : Waiter := .operand h idx kind
  let n := s.cycle - s.reachedAt who
  let ext := 420 - (ls.map (s.nearLatency (dieOf h))).foldl max 0
  linesEnter ls (tget 0 (j.prep idx).entered kind) s fun s =>
  if !(j.prep idx).late.contains kind && ls.any s.missesLine then wait ext (s.modPrep h idx fun p => { p with late := kind :: p.late })
  else if s.fetchBehind h j.since ls || (pagesIn l).any (fun x => s.walkStalls (s.viewOf h) (word x.1) .read) then wait 1 s
  else s.atUnits who (orderKey h j.since) false (ls.map LockUnit.line) (wait 1) fun s =>
    match at_.find? fun x => s.unitDead (.line x.1) || s.unitBroken (.line x.1) with
    | some (_, va, _) => holdError h idx va s
    | none => go (fetchedLines h idx n (dedup (at_.map fun x => (x.1, x.2.2))) s)
where
  /-- The lines arrive at their homes one after the other (R377). -/
  linesEnter (ls : List Nat) (n : Nat) (s : State) (f : State → State) : State :=
    match ls with
    | [] => f s
    | l :: ls =>
      if 0 < n then linesEnter ls (n - 1) s f
      else
        let e := if kind = 0 then Event.mspwEntryArrival h j.since idx else .operandArrival h j.since idx
        let s := s.modPrep h idx fun p => { p with entered := tmod 0 p.entered kind (· + 1) }
        let s' := s.arrivesAt l 64 e fun s => s
        if s.injWait.length < s'.injWait.length then s' else linesEnter ls 0 s' f
/-- A fetch of ranges leaves the cluster (R377), to arrive n cycles later; as long as it is kept, no cycle is set for it. -/
def fetchLeaves (h idx kind n : Nat) (l : List (Word × Nat)) (set : Option Nat → Prep → Prep) (e : Event) (s : State) : State :=
  let b := 64 * sumList ((pagesIn l).map fun (a, k) => (a + k + 63) / 64 - a / 64)
  let s := (s.fetchJoins h l).modPrep h idx (set (some (s.cycle + 2 ^ 64)))
  s.leavesCluster h b n e (fun s => (s.modPrep h idx (set (some (s.cycle + n)))).later n e) kind
/-- The cycle in which a fetch of a kind arrives. -/
def Prep.setAt (kind : Nat) (at_ : Option Nat) (p : Prep) : Prep :=
  match kind with
  | 1 => { p with aAt := at_ }
  | 2 => { p with codesAt := at_ }
  | _ => { p with checkAt := at_ }
/-- NB and NS of R114, and the addresses of R216. -/
def blocksOf (r : TileRef) : Nat := ceilDiv r.dim0 48
def codeAddr (r : TileRef) (row n : Nat) : Word := word (r.scaleBase + row * blocksOf r + n)
def supAddr (r : TileRef) (row : Nat) : Word :=
  word (r.scaleBase + ceilDiv (r.nrows * blocksOf r) 64 * 64 + 4 * row * ceilDiv (blocksOf r) 256)
def scaledRefs (j : MatJob) : List TileRef := (j.a.toList ++ [j.b]).filter (·.scaled)
/-- The scale codes that a step reads, and the superscales, A first (R216). -/
def codeRanges (j : MatJob) (idx : Nat) : List (Word × Nat) := (scaledRefs j).flatMap fun r => (List.range 32).map fun i => (codeAddr r i idx, 1)
def supRanges (j : MatJob) : List (Word × Nat) := (scaledRefs j).flatMap fun r => (List.range 32).map fun i => (supAddr r i, 4)

/-! ### Multicast groups (R207-R209) -/

/-- The operand of a step as a member of a group names it. -/
def State.mcastKey (s : State) (j : MatJob) (m : McMember) : Mcast :=
  let r := if m.isA then j.a.getD j.b else j.b
  { ctx := (s.thread m.h).ctx, g := r.group, owner := r.core, off := if m.isA then MatJob.offA r m.idx else j.offB m.idx,
    stride := r.stride, rowLen := bytesOfElems r.fmt 48, members := [m] }
def sameFetch (x y : Mcast) : Bool :=
  x.ctx = y.ctx && x.g = y.g && x.owner = y.owner && x.off = y.off && x.stride = y.stride && x.rowLen = y.rowLen
/-- A registration stands: its thread is not halted, and has run no other instruction since; it waits for the fetch, is parked at its
instruction, on the instruction's own trap or on a request, or is about to run it again (R208, R209). -/
def State.memberOk (s : State) (ctx : Nat) (m : McMember) : Bool :=
  let t := s.thread m.h
  t.ctx = ctx && !t.dbgStop && t.instret = m.instret && match t.run with
    | .parked => if t.record.isSome then t.trapPc = pcField m.pc else t.seq.pc = m.pc
    | .ready | .blocked _ => t.seq.pc = m.pc
    | _ => false
/-- The fetcher's registration ends where R209 says; the earliest one left takes its place. -/
def dropFetchers (ok : McMember → Bool) : List McMember → List McMember
  | [] => []
  | m :: l => if ok m then m :: l else dropFetchers ok l
def State.modMcast (s : State) (cl id : Nat) (f : Mcast → Mcast) : State :=
  s.modCluster cl fun k => { k with mcast := match tfind k.mcast id with
    | some x => (let y := f x; if y.members = [] then terase k.mcast id else tset k.mcast id y)
    | none => k.mcast }
def State.cleanMcast (s : State) (cl id : Nat) : State :=
  s.modMcast cl id fun x => { x with members := dropFetchers (s.memberOk x.ctx) x.members }
/-- The fetcher's checks for its step have passed (R207). -/
def State.fetcherReady (s : State) (x : Mcast) : Bool :=
  match x.members with
  | [] => false
  | m :: _ => match s.job m.h with
    | some j => !j.stop && (j.prep m.idx).passed && (j.prep m.idx).fault.isNone
    | none => false
/-- Launches what can be launched, at the end of the cycle's registrations. -/
def State.offerLaunch (s : State) (cl : Nat) : State :=
  (s.cluster cl).mcast.foldl (fun s (id, _) =>
    let s := s.cleanMcast cl id
    match tfind (s.cluster cl).mcast id with
    | some x => if s.fetcherReady x then s.later 0 (.multicastLaunch cl id) else s
    | none => s) s
/-- A thread's registrations end, but for those in which it is the fetcher if they are kept. -/
def State.dropJoins (s : State) (h : Nat) (keep : Bool) (sel : McMember → Bool) : State :=
  let cl := clusterOf h
  (s.cluster cl).mcast.foldl (fun s (id, _) => s.modMcast cl id fun x =>
    { x with members := match x.members with
      | [] => []
      | m :: l =>
        let l := l.filter fun y => !(y.h = h && sel y)
        if m.h = h && sel m && !keep then l else m :: l }) s
/-- The watchdog of a member counts this cycle and those that follow (R208). -/
def State.watchMember (s : State) (h since : Nat) : State :=
  let mine (e : Event) : Bool := match e with | .groupWatchdogExpiry g c => g = h && c = since | _ => false
  if s.agenda.any fun x => mine x.2 then s else s.later 0 (.groupWatchdogExpiry h since)
/-- A request of an operand reaches the owner's well bank (R207). -/
def registerOperand (h since idx : Nat) (isA : Bool) (j : MatJob) (s : State) : State :=
  let cl := clusterOf h
  let s := (s.cluster cl).mcast.foldl (fun s (id, _) => s.cleanMcast cl id) s
  let t := s.thread h
  let m : McMember := { h := h, idx := idx, isA := isA, pc := t.seq.pc, instret := t.instret }
  let key := s.mcastKey j m
  let own (y : McMember) : Bool := y.h = h && y.isA = isA
  let mine := (s.cluster cl).mcast.find? fun x => sameFetch x.2 key && x.2.members.any own
  match mine with
  | some (id, _) => s.modMcast cl id fun x => { x with members := x.members.map fun y => if own y then { m with dog := y.dog } else y }
  | none =>
    let s := s.dropJoins h false own
    match (s.cluster cl).mcast.find? fun x => sameFetch x.2 key with
    | some (id, _) => (s.modMcast cl id fun x => { x with members := x.members ++ [m] }).watchMember h since
    | none =>
      let (id, s) := s.fresh
      s.modCluster cl fun k => { k with mcast := tset k.mcast id key }
/-- R207. -/
def execMulticastRegister (s : State) : Ans :=
  onEvent s fun | .multicastRegister h since idx => (match s.jobSince h since with
                    | none => s
                    | some j =>
                      let p := j.prep idx
                      let goA := p.regA = some s.cycle && p.a.isNone
                      let goB := p.regB = some s.cycle && p.b.isNone
                      let s := s.modPrep h idx fun p => { p with regA := if goA then none else p.regA, regB := if goB then none else p.regB }
                      let s := if goA then registerOperand h since idx true j s else s
                      let s := if goB then registerOperand h since idx false j s else s
                      s.offerLaunch (clusterOf h))
                | _ => s
/-- The owner reads the rows; every member receives them (R206, R207). -/
def execMulticastLaunch (s : State) : Ans :=
  onEvent s fun | .multicastLaunch cl id => (match tfind (s.cluster cl).mcast id with
                    | none => s
                    | some x =>
                      let segs := (List.range 32).map fun i => (x.owner, x.off + i * x.stride, x.rowLen)
                      let units := segs.flatMap fun (c, o, n) => sectorsOf c o n
                      let h := (x.members.map (·.h)).headD 0
                      let key := orderKey h (((s.job h).map (·.since)).getD 0)
                      let behind (m : McMember) : Bool := (s.job m.h).any fun j => s.storesOut m.h j.since || s.banksBehind m.h units j.since
                      if !s.fetcherReady x then s
                      else if x.members.any behind then s.later 1 (.multicastLaunch cl id)
                      else s.atUnits (.mcast cl id) key false units (·.later 1 (.multicastLaunch cl id)) fun s =>
                        let s := s.modCluster cl fun k => { k with mcast := terase k.mcast id }
                        match s.brokenSector units with
                        | some va => x.members.foldl (fun s m => holdError m.h m.idx va s) s
                        | none =>
                          let rows := segs.map fun (c, o, n) => s.wellRead c o n
                          x.members.foldl (fun s m => match s.job m.h with
                            | none => s
                            | some j =>
                              let at_ := s.cycle + 6 + 2 * hops x.owner (coreOf m.h)
                              let s := s.modPrep m.h m.idx fun p =>
                                if m.isA then { p with a := some rows, aAt := some at_, regA := none } else { p with b := some rows, bAt := some at_, regB := none }
                              s.at_ at_ (.operandArrival m.h j.since m.idx)) s)
                | _ => s
/-- A cycle in which a joined member waits counts, unless the fetcher is parked (R208); a fetcher that is gone is replaced (R209). -/
def watchCycle (h : Nat) (s : State) : State :=
  let cl := clusterOf h
  let s := s.offerLaunch cl
  (s.cluster cl).mcast.foldl (fun s (id, x) =>
    let f := (x.members.map (·.h)).headD h
    if f = h || (s.thread f).run = .parked then s
    else s.modMcast cl id fun x => { x with members := x.members.map fun m => if m.h = h then { m with dog := m.dog + 1 } else m }) s
/-- R208. -/
def execGroupWatchdogExpiry (s : State) : Ans :=
  onEvent s fun | .groupWatchdogExpiry h since => (match s.jobSince h since with
                    | none => s
                    | some _ =>
                      let s := watchCycle h s
                      let cl := clusterOf h
                      let joined := (s.cluster cl).mcast.filterMap fun (_, x) =>
                        let f := (x.members.map (·.h)).headD h
                        if f = h then none else (x.members.find? fun m => m.h = h).map fun m => (m, f)
                      match joined.find? fun (m, _) => 65536 ≤ m.dog with
                      | some (m, f) => holdFault h m.idx 0x10 (word f) 0 (s.dropJoins h true fun _ => true)
                      | none => if joined = [] then s else s.later 1 (.groupWatchdogExpiry h since))
                | _ => s

/-! ### Preparing a step (R198, R204, R206, R216) -/

/-- Cycles to an operand of the own well: while a step runs, the next one's are there at its end, so that steps follow back to
back (R199, log 20). -/
def ownCycles (s : State) (h : Nat) : Nat :=
  match (s.core (coreOf h)).running with
  | some r => if r.slot = slotOf h then min 4 (r.last + 1 - s.cycle) else 4
  | none => 4
/-- An operand's fetch is issued: alone, or by a registration at its owner. -/
def askOperand (h since idx : Nat) (isA : Bool) (r : TileRef) (s : State) : State :=
  if r.group = 0 then
    let at_ := s.cycle + if r.core = coreOf h then ownCycles s h else wellReadCycles h r.core
    (s.modPrep h idx fun p => if isA then { p with aAt := some at_ } else { p with bAt := some at_ }).at_ at_ (.operandArrival h since idx)
  else
    let at_ := s.cycle + 6 + 2 * hops (coreOf h) r.core
    (s.modPrep h idx fun p => if isA then { p with regA := some at_ } else { p with regB := some at_ }).at_ at_
      (.multicastRegister h since idx)
/-- The checks of a step have passed. -/
def passStep (h idx : Nat) (s : State) : State := (s.modPrep h idx fun p => { p with passed := true }).offerLaunch (clusterOf h)
/-- Operands for which a thread is in no group any more are asked for again, once it has been halted (R209). -/
def registerAgain (h : Nat) (s : State) : State :=
  match s.job h with
  | none => s
  | some j =>
    let again (idx : Nat) (p : Prep) (isA : Bool) (r : TileRef) (s : State) : State :=
      let free : Bool := if isA then p.aAt.isNone && p.regA.isNone else p.bAt.isNone && p.regB.isNone
      let joined : Bool := (s.cluster (clusterOf h)).mcast.any fun x => x.2.members.any fun m => m.h = h && m.idx = idx && m.isA = isA
      if p.asked && r.group ≠ 0 && free && !joined then askOperand h j.since idx isA r s else s
    j.preps.foldl (fun s (idx, p) => again idx p false j.b (j.a.elim s fun r => again idx p true r s)) s
/-- Step idx of a job is prepared: its operands are asked for, and for an MMA its scale codes, for its first step the superscales as well (R204,
R216), once a TQTRY before it is answered (R337). A step that meets a fault on its scales makes no further check of them (log 20). -/
def prepareStep (h idx : Nat) (s : State) : State :=
  match s.job h with
  | none => s
  | some j =>
    let p := j.prep idx
    let codes := codeRanges j idx
    let sups := if idx = j.first then supRanges j else []
    if j.steps ≤ idx || p.asked || p.fault.isSome || j.list.isSome && p.entry.isNone || !s.isCurrent j idx && s.setsA h codes then s
    else if s.takeOut (.thread h) j.since then s.later 1 (.operandArrival h j.since idx)
    else
      let s := s.modPrep h idx fun p => { p with asked := true }
      let ask (s : State) : State := askOperand h j.since idx false j.b (j.a.elim s fun a => askOperand h j.since idx true a s)
      let comes (l : List (Word × Nat)) (kind : Nat) (s : State) : State :=
        match s.probe h l with
        | .ok n => fetchLeaves h idx kind n l (Prep.setAt kind) (.operandArrival h j.since idx) s
        | .error _ => s
      match s.probe h (sups ++ codes) with
      | .error (e, n) => ask (holdFault h idx e.cause e.va n (s.fetchJoins h (sups ++ codes)))
      | .ok _ =>
        let s := if codes = [] then s else comes codes 2 s
        ask (if sups = [] then passStep h idx s else comes sups 3 s)
/-- The scale codes of a step are there (R216). -/
def takeCodes (h idx : Nat) (j : MatJob) (s : State) : State :=
  let again (n : Nat) (s : State) : State :=
    (s.modPrep h idx fun p => { p with codesAt := some (s.cycle + n) }).later n (.operandArrival h j.since idx)
  fetchArrives h j idx 2 (codeRanges j idx) again s fun s =>
    let codes (r : TileRef) : List Nat :=
      if r.scaled then (List.range 32).map fun i => ofBytes (s.peekVirt h (codeAddr r i idx) 1) else []
    let a := (j.a.map codes).getD []
    let b := codes j.b
    s.modPrep h idx fun p => { p with codesAt := none, codesA := a, codesB := b }
/-- The superscales are there: each one is checked, A before B (R115, R216). -/
def checkScales (h idx : Nat) (j : MatJob) (s : State) : State :=
  let again (n : Nat) (s : State) : State :=
    (s.modPrep h idx fun p => { p with checkAt := some (s.cycle + n) }).later n (.operandArrival h j.since idx)
  fetchArrives h j idx 3 (supRanges j) again s fun s =>
  let sups (r : TileRef) : List Nat :=
    if r.scaled then (List.range 32).map fun i => ofBytes (s.peekVirt h (supAddr r i) 4) else []
  let s := s.modPrep h idx fun p => { p with checkAt := none }
  let sa := (j.a.map sups).getD []
  let sb := sups j.b
  let bad (r : TileRef) (l : List Nat) : Option Word := (l.findIdx? fun c => !superscaleOk c).map (supAddr r)
  match ((j.a.bind fun r => bad r sa).orElse fun _ => bad j.b sb) with
  | some v => holdFault h idx 8 v 0 s
  | none => passStep h idx (s.modJob h fun j => { j with supA := sa, supB := sb })
/-- Bytes of an A block: 32 rows of 48 elements. -/
def blockBytes (j : MatJob) : Nat := 32 * bytesOfElems j.fmtA 48
def splitRows (n : Nat) (bs : List Byte) : List (List Byte) := (List.range 32).map fun i => (bs.drop (n * i)).take n
/-- An operand that was fetched alone is read when it is due, after the thread's earlier stores and its earlier accesses to those banks (R206,
R210, R267). -/
def takeOperand (h since idx : Nat) (isA : Bool) (s : State) : State :=
  match s.jobSince h since with
  | none => s
  | some j =>
    let p := j.prep idx
    let have_ := if isA then p.a.isSome else p.b.isSome
    let due := (if isA then p.aAt else p.bAt).any (· ≤ s.cycle)
    if have_ || !due then s
    else
      let put (rows : List (List Byte)) (s : State) : State :=
        s.modPrep h idx fun p => if isA then { p with a := some rows } else { p with b := some rows }
      match (if isA then j.a else some j.b), p.entry with
      | none, some e =>
        let again (n : Nat) (s : State) : State :=
          (s.modPrep h idx fun p => { p with aAt := some (s.cycle + n) }).later n (.operandArrival h since idx)
        fetchArrives h j idx 1 [(e.blk, blockBytes j)] again s fun s =>
          put (splitRows (bytesOfElems j.fmtA 48) (s.peekVirt h e.blk (blockBytes j))) s
      | none, none => s
      | some r, _ =>
        let off := if isA then MatJob.offA r idx else j.offB idx
        let len := bytesOfElems r.fmt 48
        let again (s : State) : State := s.later 1 (.operandArrival h since idx)
        let us := rowUnits r off len
        if s.storesOut h since || s.banksBehind h us since then again s
        else s.atUnits (.operand h idx (if isA then 4 else 5)) (orderKey h since) false us again fun s => match s.brokenSector us with
          | some va => holdError h idx va s
          | none => put (s.rowsAt r off len) s
/-- Operands or scales of a step arrive. -/
def execOperandArrival (s : State) : Ans :=
  onEvent s fun | .operandArrival h since idx => (match s.jobSince h since with
                    | none => s
                    | some j =>
                      let s := if (j.prep idx).asked then s else prepareStep h idx s
                      let s := if (j.prep idx).codesAt.any (· ≤ s.cycle) then takeCodes h idx j s else s
                      let s := if (j.prep idx).checkAt.any (· ≤ s.cycle) then checkScales h idx j s else s
                      let s := takeOperand h since idx false (takeOperand h since idx true s)
                      s.later 0 (.matrixStepStart (coreOf h)))
                | _ => s

/-! ### The entries of MSPW (R197-R199, R219) -/

def entryAddr (l : Desc) (i : Nat) : Word := l.base + word (16 * i)
/-- What is wrong with an entry: its reserved bits, its tile, its B block, the A block's address. -/
def entryBad (j : MatJob) (w : Nat) (blk : Word) : Bool :=
  let z := fmtSize j.fmtA
  w / 2 ^ 32 ≠ 0 || 63 < j.tile + w % 2 ^ 16
    || (rowsPast (j.b.off + field w 31 16 * bytesOfElems j.b.fmt 48) j.b.stride (bytesOfElems j.b.fmt 48)).isSome || blk.toNat % z ≠ 0
/-- The fetch of an entry's A block is issued, when it sets no A bit ahead of its step (R245). -/
def fetchBlock (h idx : Nat) (j : MatJob) (blk : Word) (s : State) : State :=
  let l := [(blk, blockBytes j)]
  if !s.isCurrent j idx && s.setsA h l then s
  else match s.probe h l with
    | .error (e, n) => holdFault h idx e.cause e.va n (s.fetchJoins h l)
    | .ok n => fetchLeaves h idx 1 n l (Prep.setAt 1) (.operandArrival h j.since idx) s
/-- An entry is there: its checks, and the fetch of its A block. -/
def entryThere (h idx : Nat) (j : MatJob) (va : Word) (s : State) : State :=
  let bs := s.peekVirt h va 16
  let w := (wordAt bs 0).toNat
  let blk := wordAt bs 1
  if entryBad j w blk then holdFault h idx 0x0F va 0 s
  else
      let s := s.modPrep h idx fun p => { p with entry := some { blk := blk, toff := w % 2 ^ 16, bidx := field w 31 16 } }
      let s := fetchBlock h idx j blk s
      let busy := (s.core (coreOf h)).running.any fun r => r.slot = slotOf h
      if idx = j.next || busy && idx = j.next + 1 then prepareStep h idx s else s
/-- The event comes twice for an entry: when its fetch is issued, and when it arrives; `checkAt` tells them apart. -/
def execMspwEntryArrival (s : State) : Ans :=
  onEvent s fun | .mspwEntryArrival h since idx => (match s.jobSince h since with
                    | none => s
                    | some j => match j.list with
                      | none => s
                      | some l =>
                        let va := entryAddr l idx
                        let p := j.prep idx
                        let await (n : Nat) (s : State) : State :=
                          (s.modPrep h idx fun p => { p with checkAt := some (s.cycle + n) }).later n (.mspwEntryArrival h since idx)
                        if p.checkAt.any (· ≤ s.cycle) then
                          fetchArrives h j idx 0 [(va, 16)] await s fun s => entryThere h idx j va (s.modPrep h idx fun p => { p with checkAt := none })
                        else if p.checkAt.isSome || p.fault.isSome then s
                        else if s.takeOut (.thread h) since then s.later 1 (.mspwEntryArrival h since idx)
                        else match p.entry with
                          | some e => if p.aAt.isSome then s else fetchBlock h idx j e.blk s
                          | none =>
                            if !s.isCurrent j idx && s.setsA h [(va, 16)] then s
                            else match s.probe h [(va, 16)] with
                              | .error (e, n) => holdFault h idx e.cause e.va n (s.fetchJoins h [(va, 16)])
                              | .ok n => fetchLeaves h idx 0 n [(va, 16)] (Prep.setAt 0) (.mspwEntryArrival h since idx) s)
                | _ => s

/-! ### Steps (R199, R202-R205, R217) -/

/-- Whether the next step of a job has its checks and operands. -/
def MatJob.ready (j : MatJob) (cycle : Nat) : Bool :=
  let p := j.prep j.next
  !j.stop && j.trap.isNone && p.passed && p.fault.isNone && p.codesAt.isNone && p.a.isSome && p.b.isSome && p.aAt.any (· ≤ cycle) && p.bAt.any (· ≤ cycle)
def MatJob.stepTileNo (j : MatJob) : Nat := j.tile + match j.list with
  | some _ => ((j.prep j.next).entry.map (·.toff)).getD 0
  | none => 0
/-- A job ends; a registration of its thread as the fetcher stays (R208). -/
def State.endJob (s : State) (h : Nat) : State :=
  (s.modCore (coreOf h) fun k => { k with jobs := terase k.jobs (slotOf h) }).dropJoins h true fun _ => true
/-- The thread parks with a trap of its matrix instruction (R198, R205). -/
def trapJob (h cause : Nat) (v : Word) (s : State) : State :=
  let s := s.endJob h
  parkTrap h cause (s.thread h).seq.pc v s
/-- A held fault is delivered once its step is current, from the cycle after it was found on (R198, R205), also where a stop has been asked for
(R358, log 20); not to a member of a gang whose instruction is to be undone (R29). -/
def State.faultDue (s : State) (j : MatJob) : Option (Nat × Word) :=
  if (s.core (coreOf j.h)).running.any (fun r => r.slot = slotOf j.h) || (s.thread j.h).fin = some undoes then none
  else (j.prep j.next).fault.filter fun _ => (j.prep j.next).faultAt < s.cycle
/-- Traps whose turn has come: those of a step that has ended, and faults of a step that is current. -/
def deliverFaults (c : Nat) (s : State) : State :=
  (s.core c).jobs.foldl (fun s (slot, j) =>
    if (s.core c).running.any fun r => r.slot = slot then s
    else match j.trap, s.faultDue j with
      | some v, _ => trapJob j.h 9 v s
      | none, some (cause, v) => trapJob j.h cause v (s.modThread j.h fun t => { t with dataError := (j.prep j.next).broken })
      | none, none => s) s
/-- The bytes that a step reads in wells, for race detection. -/
def stepSegs (j : MatJob) : List (Nat × Nat × Nat) :=
  (match j.a with | some r => rowSegs r (MatJob.offA r j.next) (bytesOfElems r.fmt 48) | none => [])
    ++ rowSegs j.b (j.offB j.next) (bytesOfElems j.b.fmt 48)
/-- What the fetches of a step leave behind once it starts (R210, R245, R253). -/
def commitStep (h : Nat) (j : MatJob) (s : State) : State :=
  let s := (j.prep j.next).reads.foldl (fun s (sl, n) => s.addDelay (coreOf h) sl n) s
  match j.list, (j.prep j.next).entry with
  | some l, some e => (s.commitRead h (entryAddr l j.next) 16).commitRead h e.blk (blockBytes j)
  | _, _ =>
    (scaledRefs j).foldl (fun s r =>
      let s := if j.next = j.first then forUpto 32 s fun i s => s.commitRead h (supAddr r i) 4 else s
      forUpto 32 s fun i s => s.commitRead h (codeAddr r i j.next) 1) s
/-- A step starts: the next one is prepared while it runs (R204). -/
def startStep (c slot : Nat) (j : MatJob) (s : State) : State :=
  match s.raceCheck c (s.thread j.h).ctx false (stepSegs j) with
  | (some v, s) => (trapJob j.h 0x0C v s).later 0 (.matrixStepStart c)
  | (none, s) =>
    let last := s.cycle + (pairCycles j.fmtA j.b.fmt).getD 12 - 1
    let s := commitStep j.h j s
    let s := s.modCore c fun k => { k with running := some { slot := slot, idx := j.next, last := last, tile := j.stepTileNo }, lastServed := slot }
    (prepareStep j.h (j.next + 1) s).at_ last (.matrixStepEnd c)
/-- R203: the next step is that of the active instruction after the one served last that can go on; none starts for a thread that is to park
(R205). -/
def execMatrixStepStart (s : State) : Ans :=
  onEvent s fun | .matrixStepStart c =>
                    let s := deliverFaults c s
                    let k := s.core c
                    let can (n : Nat) : Option (Nat × MatJob) :=
                      let slot := (k.lastServed + 1 + n) % 4
                      ((tfind k.jobs slot).filter fun j => j.ready s.cycle && !k.tileHeld j.stepTileNo s.cycle && !(s.thread j.h).parkReq).map fun j => (slot, j)
                    (match k.running, (List.range 4).findSome? can with
                    | none, some (slot, j) => if k.halted || k.lastWrite.any (·.2 = s.cycle) then s else startStep c slot j s
                    | _, _ => s)
                | _ => s
/-- The tile is written at the end of a step; the instruction goes on or will trap (R202, R217). TRAPVAL has the number of the step from bit 8 on, however
large it is (R219). The fetches of entry i + 8 begin in the last cycle of step i, where R198 gives no cycle (both log 20). -/
def endStep (c : Nat) (r : MatRun) (s : State) : State :=
  match tfind (s.core c).jobs r.slot with
  | none => s.modCore c fun k => { k with running := none }
  | some j =>
    let h := j.h
    let (rows, f) := stepTile j.fmtA j.b.fmt j.mask (j.prep r.idx) j.supA j.supB ((s.core c).cisTile r.tile)
    let s := s.modCore c fun k => { k.setTile r.tile rows with running := none, lastWrite := some (r.tile, s.cycle) }
    let s := raiseFl h f s
    let n := r.idx + 1
    let s := s.modThread h fun t => { t with spwidx := BitVec.ofNat 32 n }
    let s := s.later 1 (.matrixStepStart c)
    let s := s.modJob h fun j => { j with next := n, preps := terase j.preps r.idx, ended := some s.cycle }
    if enabledFl (s.thread h) f then s.modJob h fun j => { j with trap := some (word (f.toNat + r.idx * 2 ^ 8)) }
    else if j.stop || j.steps ≤ n then s
    else
      let s := prepareStep h n s
      if j.list.isNone then s
      else
        let s := s.later 0 (.mspwEntryArrival h j.since n)
        if r.idx + 8 < j.steps then s.later 0 (.mspwEntryArrival h j.since (r.idx + 8)) else s
/-- A matrix instruction whose steps are done retires (R199). -/
def matrixRetires (h : Nat) (s : State) : State :=
  let s := (s.endJob h).modThread h fun t => { t with spwidx := 0 }
  (s.passOf h 4).wake h
/-- Its steps are done, and no stop was asked for (R205). -/
def MatJob.isDone (j : MatJob) : Bool := j.steps ≤ j.next && !j.stop && j.trap.isNone
/-- The engine runs a step of a thread's instruction. -/
def State.matrixBusy (s : State) (h : Nat) : Bool := (s.core (coreOf h)).running.any fun r => r.slot = slotOf h
/-- The end of a member's part in a matrix instruction: it retires, or stands before the instruction again at a step boundary (R29, R205). -/
def finMatrix (h v : Nat) (s : State) : State :=
  if v ≠ undoes then matrixRetires h s
  else if s.matrixBusy h then
    ((s.modJob h fun j => { j with stop := true }).modThread h fun t => { t with fin := some undoes }).later 1 (.matrixStepEnd (coreOf h))
  else (s.endJob h).before h
/-- A thread's matrix instruction is over: its steps are done, or none was left to do, or it is to be undone. -/
def State.matrixEnds (s : State) (h : Nat) : Bool :=
  (s.thread h).run = .blocked .matrix && (s.job h).all fun j => if (s.thread h).fin = some undoes then j.trap.isNone else j.isDone
/-- R202, R205, R217: the step that ends in this cycle; what is done retires, in a gang together with the other members (R29). -/
def execMatrixStepEnd (s : State) : Ans :=
  onEvent s fun | .matrixStepEnd c =>
                    let s := match (s.core c).running with
                      | some r => if r.last ≤ s.cycle then endStep c r s else s
                      | none => s
                    forUpto 4 s fun slot s => if s.matrixEnds (8 * c + slot) then s.together (8 * c + slot) 0 finMatrix else s
                | _ => s

/-! ### MMA and MSPW (R214-R219) -/

/-- The selector of MMA (R214). -/
def selectorBad (c : BitVec 6) (masked : Bool) (x : Word) : Bool :=
  let k := wfield x 6 0
  k = 0 || 64 < k || wbit x 7 || wfield x 31 14 ≠ 0 || !masked && wfield x 63 32 ≠ 0 || 63 < c.toNat + wfield x 13 8
/-- The pair check of R214. -/
def mmaPair (s : State) (wa wb : Word) : Option (Nat × Word) :=
  match s.refDesc wa, s.refDesc wb with
  | some a, some b =>
    let f8 (d : Desc) : Bool := d.fmt = 3 || d.fmt = 4
    let kindOk (d : Desc) : Bool := if d.fmt = 11 then d.kind = 1 else f8 d || d.kind = 0
    if (pairCycles a.fmt b.fmt).isNone || !kindOk a || !kindOk b then some (2, wa) else none
  | _, _ => none
/-- The checks of MMA and MMA.m. -/
def mmaCheck (c : BitVec 6) (masked : Bool) (b a d : Reg) (s : State) : Option (Nat × Word) :=
  let x := s.getX d
  if selectorBad c masked x then some (2, x)
  else
    let n := 48 * wfield x 6 0
    let u : RefRule := { elems := some n, write := false, dense := false,
                         third := fun e => e.kind = 1 && (e.dim0 < n || e.dim1 * e.dim2 * e.dim3 < 32) }
    refChecks s u (mmaPair s (s.getX a) (s.getX b)) [s.getX a, s.getX b]
/-- A matrix instruction becomes active, unless its steps are all done (R204, R219); a gang's member waits for the others then (R29). -/
def startJob (steps : Nat) (mk : Nat → MatJob) (first : Nat → State → State) (s : State) : State :=
  let n := s.self.spwidx.toNat
  let h := s.me
  if steps ≤ n && s.self.gang.isNone then (s.modSelf fun t => { t with spwidx := 0 }).pass 4
  else
    let s := s.blocks .matrix
    if steps ≤ n then s.later 0 (.matrixStepEnd s.myCore) else first n (s.modCore s.myCore fun k => { k with jobs := tset k.jobs (slotOf h) (mk n) })
/-- R214-R216. -/
def mmaInsn (i : Instr) (c : BitVec 6) (masked : Bool) (b a d : Reg) (s : State) : Ans :=
  checkedBy i (mmaCheck c masked b a d) s fun s => s.ordered false fun s =>
    match s.refDesc (s.getX a), s.refDesc (s.getX b) with
    | some da, some db =>
      let x := s.getX d
      let h := s.me
      startJob (wfield x 6 0) (fun n =>
          { h := h, since := s.cycle, tile := c.toNat + wfield x 13 8, steps := wfield x 6 0,
            mask := if masked then wfield x 63 32 else 2 ^ 32 - 1, a := some (tileRefOf h da (s.getX a)), b := tileRefOf h db (s.getX b),
            list := none, first := n, next := n })
        (fun n s => prepareStep h n s) s
    | _, _ => s
def execMma (c : BitVec 6) (b a d : Reg) (s : State) : Ans := mmaInsn (.mma c b a d) c false b a d s
def execMmaM (c : BitVec 6) (b a d : Reg) (s : State) : Ans := mmaInsn (.mmaM c b a d) c true b a d s
/-- The checks of MSPW and MSPW.m (R219): the row mask, the list's reference, then those of the B reference with the pair. -/
def mspwCheck (mask : Option Reg) (b a : Reg) (s : State) : Option (Nat × Word) :=
  let w := s.getX a
  let wb := s.getX b
  let id := word (wfield w 63 56)
  (mask.bind fun d => if wfield (s.getX d) 63 32 ≠ 0 then some (2, s.getX d) else none).orElse fun _ =>
  if wfield w 55 0 ≠ 0 then some (2, w)
  else match s.refDesc w with
    | none => some (2, id)
    | some l =>
      if l.kind ≠ 3 then some (2, id)
      else
        let pair := match s.refDesc wb with
          | some e => if (pairCycles l.fmt e.fmt).isNone || e.kind ≠ 0 then some (2, wb) else none
          | none => none
        refChecks s { elems := none, write := false, dense := false, third := fun _ => false } pair [wb]
/-- R197-R199: eight entry fetches issue, one a cycle. -/
def mspwInsn (i : Instr) (c : BitVec 6) (mask : Option Reg) (b a : Reg) (s : State) : Ans :=
  checkedBy i (mspwCheck mask b a) s fun s => s.ordered false fun s =>
    match s.refDesc (s.getX a), s.refDesc (s.getX b) with
    | some l, some db =>
      let h := s.me
      let t0 := s.cycle
      startJob l.dim0 (fun n =>
          { h := h, since := t0, tile := c.toNat, steps := l.dim0,
            mask := match mask with | some d => wfield (s.getX d) 31 0 | none => 2 ^ 32 - 1, a := none,
            b := tileRefOf h db (s.getX b), list := some l, first := n, next := n })
        (fun n s => forUpto (min 8 (l.dim0 - n)) s fun k s => s.later k (.mspwEntryArrival h t0 (n + k))) s
    | _, _ => s
def execMspw (c : BitVec 6) (b a : Reg) (s : State) : Ans := mspwInsn (.mspw c b a) c none b a s
def execMspwM (c : BitVec 6) (b a d : Reg) (s : State) : Ans := mspwInsn (.mspwM c b a d) c (some d) b a s

end Sys2Proof.Machine
end

