-- ==== Sys2Proof/Machine/NearBank.lean ====
section
/-!
DEFINITION. Near-bank commands (R305-R310, R320-R323, R326-R328): their checks, the probe that marks their lines, their steps
and their message.
-/

namespace Sys2Proof.Machine

/-! ### The commands at issue (R306, R326, R327) -/

/-- An operand's translation: the thread waits until it is known (R246, R306). -/
def State.withKnown (s : State) (va : Word) (acc : Access) (f : Phys → State → State) : State :=
  s.withPhys va acc fun p n s => if n = 0 then f p s else s.awaitLevel n va acc
/-- Translates the sources one after the other: the physical addresses. -/
def withSources (as : List Word) (acc : List Phys) (f : List Phys → State → State) (s : State) : State :=
  match as with
  | [] => f acc s
  | a :: as => s.withKnown a .read fun p s => withSources as (acc ++ [p]) f s
/-- The status of a command (R327). -/
def bankStatus (ps : List Phys) (d : Word) (ss : List Word) (len : Word) : Nat :=
  let l := len.toNat
  let leaves (a : Word) : Bool := 2 ^ 21 < a.toNat % 2 ^ 21 + l
  if ps.any fun p => !p.cc || 2 ^ 51 ≤ p.key then 2
  else if ((len :: d :: ss).any fun w => w.toNat % 1024 ≠ 0) then 3
  else if l = 0 || 2 ^ 21 < l then 4
  else if (d :: ss).any leaves then 1
  else 0
/-- Cycles of a fast step, of a fallback row (R320). -/
def BkOp.fastCost : BkOp → Nat | .cpy | .fil => 48 | .not => 96 | .and | .or | .maj => 192 | .xor => 336
def BkOp.slowCost : BkOp → Nat | .cpy | .fil | .not => 32 | .and | .or | .xor => 64 | .maj => 96
/-- The conditions of R320. -/
def fastPath (op : BkOp) (d : Phys) (ps : List Phys) (len : Nat) : Bool :=
  ps.all (fun p => p.key / 2 ^ 21 = d.key / 2 ^ 21 && dist p.key d.key % 2 ^ 14 = 0 && p.ks = 0) && d.ks = 0
    && !(op = .cpy && ps.any fun p => rangeMeets p.key len d.key len)
/-- Band rows that a destination touches. -/
def bandRows (d len : Nat) : Nat := (d % 2 ^ 21 + len - 1) / 2 ^ 14 + 1 - d % 2 ^ 21 / 2 ^ 14
/-- The lines of a command in ascending order with their marks (R322). -/
def bankMarks (d : Nat) (srcs : List Nat) (len : Nat) : List (Nat × Bool) :=
  let lines (k : Nat) : List Nat := (List.range (len / 256)).map fun i => k + 256 * i
  (dedup (sortBy id (lines d ++ srcs.flatMap lines))).map fun l => (l, decide (d ≤ l && l < d + len))
/-- Commands of a thread that have not posted their messages (R306); those of an earlier thread of its slot are not its own. -/
def State.banksOf (s : State) (h : Nat) : Nat := (s.bks.filter fun x => x.2.h = h && (s.thread h).born ≤ x.2.sent).length
/-- The cycles before the first step: a pattern that is neither all zeros nor all ones is placed first (R320). -/
def Bk.lead (b : Bk) : Nat :=
  if b.fast && b.op = .fil && b.pattern ≠ 0 && b.pattern ≠ BitVec.allOnes 64 then 32 else 0
/-- A command with status 0 is on its way to the pump of the destination's channel. -/
def acceptBank (op : BkOp) (d : Word) (dp : Phys) (ss : List Word) (ps : List Phys) (len : Nat) (pattern : Word) (s : State) : State :=
  let fast := fastPath op dp ps len
  let (id, s) := s.fresh
  let b : Bk :=
    { op := op, h := s.me, ctx := s.self.ctx, chan := match s.home dp.key with | .slice _ c => c | _ => 0
      sent := s.cycle, dVa := d, d := dp.key, dKey := dp.ks, srcs := ps.map fun p => (p.key, p.ks), len := len, pattern := pattern, fast := fast,
      down := op = .cpy && ss.any (fun a => a.toNat < d.toNat), steps := if fast then bandRows dp.key len else len / 1024,
      cost := if fast then op.fastCost else op.slowCost, marks := bankMarks dp.key (ps.map (·.key)) len, t0 := 0, kern := s.self.node }
  let e := Event.bkProbeStart id
  { s with bks := tset s.bks id b }.leavesCluster b.h 64 100 e fun s => s.later 100 e
/-- A near-bank command with n sources in consecutive registers (R327); it retires when all translations are known. -/
def bankInsn (i : Instr) (op : BkOp) (n : Nat) (b a d : Reg) (s : State) : Ans :=
  checkedBy i (fun _ => if 2 ≤ n && (b = 0 || 32 < b.toNat + n) then some (2, b.zeroExtend 64) else none) s fun s =>
    let ss := (List.range n).map fun k => s.getX (regPlus b k)
    let dst := s.getX a
    let len := s.getX d
    let pattern := s.getX b
    s.ordered true fun s => withSources ss [] (fun ps s => s.withKnown dst .write fun dp s =>
      let st := bankStatus (dp :: ps) dst ss len
      if st = 0 && 8 ≤ s.banksOf s.me then s.stalls
      else
        let s := if st = 0 then acceptBank op dst dp ss ps len.toNat pattern s else s
        (s.setX d (word st)).pass 4) s
def execBkCpy (b a d : Reg) (s : State) : Ans := bankInsn (.bkCpy b a d) .cpy 1 b a d s
def execBkFil (b a d : Reg) (s : State) : Ans := bankInsn (.bkFil b a d) .fil 0 b a d s
def execBkAnd (b a d : Reg) (s : State) : Ans := bankInsn (.bkAnd b a d) .and 2 b a d s
def execBkOr (b a d : Reg) (s : State) : Ans := bankInsn (.bkOr b a d) .or 2 b a d s
def execBkXor (b a d : Reg) (s : State) : Ans := bankInsn (.bkXor b a d) .xor 2 b a d s
def execBkNot (b a d : Reg) (s : State) : Ans := bankInsn (.bkNot b a d) .not 1 b a d s
def execBkMaj (b a d : Reg) (s : State) : Ans := bankInsn (.bkMaj b a d) .maj 3 b a d s

/-! ### The command unit (R307, R321-R323) -/

/-- Marks lines one after the other for as long as they are free; what is left, and the state (R322). The first line was reached in a
cycle, those behind it are reached now; requests that reached a line before have it first (R259, R260). A destination that is no source
is dropped from its slice. -/
def takeMarks (id : Nat) (b : Bk) (reached : Nat) (s : State) : List (Nat × Bool) → List (Nat × Bool) × State
  | [] => ([], s)
  | (l, excl) :: rest =>
    if s.lockStops (.line l) excl (some id) || s.earlierWaits (.line l) excl reached (orderKey b.h b.sent) (some id) then ((l, excl) :: rest, s)
    else
      let s := { s with locks := { unit := .line l, excl := excl, acc := id } :: s.locks }
      let src : Bool := b.srcs.any fun x => x.1 ≤ l && l < x.1 + b.len
      takeMarks id b s.cycle (if excl && !src then { s with lines := terase s.lines (l / 256) } else s) rest
/-- R322, R323: the unit starts commands in the order of their arrival, once its channel's limit has let them in (R377) and a TQTRY before
them is answered (R337); the probe's last mark starts the command. -/
def execBkProbeStart (s : State) : Ans :=
  onEvent s fun | .bkProbeStart id => (match tfind s.bks id with
                    | none => s
                    | some b =>
                      let p := (s.partOfChan b.chan).getD 0
                      if !b.entered then
                        { s with bks := tset s.bks id { b with entered := true } }.admitAt { point := 160 + b.chan, part := p, ev := .bkProbeStart id } fun s =>
                          s.later 0 (.bkProbeStart id)
                      else if s.takeOut (.thread b.h) b.sent || s.bks.any fun x => x.1 < id && x.2.chan = b.chan && !x.2.started then
                        s.later 1 (.bkProbeStart id)
                      else
                        let reached := if b.reqAt = 0 then s.cycle else b.reqAt
                        let (left, s) := takeMarks id b reached s.pruneLocks b.marks
                        if left = [] then
                          let snap := b.srcs.map fun (k, ks) => s.readBytes k ks b.len
                          { s with bks := tset s.bks id { b with marks := [], snap := snap, started := true, t0 := s.cycle } }.later
                            (b.lead + b.cost - 1) (.bkStep id)
                        else
                          let at_ := if left.length = b.marks.length then reached else s.cycle
                          { s with bks := tset s.bks id { b with marks := left, reqAt := at_ } }.later 1 (.bkProbeStart id))
                | _ => s
/-- The offset and length of a step's part of the destination. -/
def Bk.part (b : Bk) (k : Nat) : Nat × Nat :=
  if b.fast then
    let lo := b.d % 2 ^ 14
    let start := k * 2 ^ 14 - lo
    (start, min b.len ((k + 1) * 2 ^ 14 - lo) - start)
  else ((if b.down then b.steps - 1 - k else k) * 1024, 1024)
/-- The result byte at an offset (R326). -/
def Bk.byteAt (b : Bk) (o : Nat) : Byte :=
  let x (k : Nat) : Byte := (b.snap.getD k []).getD o 0
  match b.op with
  | .cpy => x 0
  | .fil => (toBytes 8 b.pattern.toNat).getD (o % 8) 0
  | .and => x 0 &&& x 1
  | .or => x 0 ||| x 1
  | .xor => x 0 ^^^ x 1
  | .not => ~~~ x 0
  | .maj => (x 0 &&& x 1) ||| (x 0 &&& x 2) ||| (x 1 &&& x 2)
/-- A step ends: its bytes are written, its destination marks are released, with the last step every mark. -/
def execBkStep (s : State) : Ans :=
  onEvent s fun | .bkStep id => (match tfind s.bks id with
                    | none => s
                    | some b =>
                      let (o, n) := b.part b.step
                      let bs := (List.range n).map fun i => b.byteAt (o + i)
                      let s := s.writeBytes (b.d + o) b.dKey bs
                      let ls := (linesOf (b.d + o) n).map unitKey
                      let last : Bool := b.steps ≤ b.step + 1
                      let frees (l : Lock) : Bool := l.acc = id && (last || ls.contains (unitKey l.unit))
                      let s := { s with
                        lines := ls.foldl (fun t l => terase t (l / 256)) s.lines
                        locks := s.locks.map fun l => if frees l then { l with until_ := some s.cycle } else l
                        bks := tset s.bks id { b with step := b.step + 1 } }
                      if last then s.later 21 (.bkComplete id) else s.later b.cost (.bkStep id))
                | _ => s
/-- R309: the message; what waited for the command looks again. -/
def execBkComplete (s : State) : Ans :=
  onEvent s fun | .bkComplete id => (match tfind s.bks id with
                    | none => s
                    | some b =>
                      let s := { s with bks := terase s.bks id }
                      let s := postMsg (coreOf b.h) b.ctx { w0 := msgWord0 2 0 (slotOf b.h) (b2n (!b.fast)), w1 := b.dVa } s
                      (s.nodeCheck b.ctx b.kern).ctxCheck b.ctx)
                | _ => s

end Sys2Proof.Machine
end

