-- ==== Sys2Proof/Machine/Pump.lean ====
section
/-!
DEFINITION. Pumps: overlays and launches (R311-R318), the end of a kernel (R316, R317, R333), PRD, PWR, PPUSH and PEND
(R330-R334), and the zero fill's progress (R324). The kernel core's other instructions are those of the cores (R329).
-/

namespace Sys2Proof.Machine

/-! ### OVLD and OVLD.go (R313-R315) -/

/-- Items 1 and 2 of R314. -/
def targetCheck (go : Bool) (w : Word) (s : State) : Option (Nat × Word) :=
  let chan := wfield w 8 0
  if wfield w 15 9 ≠ 0 || wfield w 63 44 ≠ 0 || 383 < chan || wfield w 31 16 = 0 || wbit w 32 || !go && wfield w 43 32 ≠ 0 then some (2, w)
  else if s.partOfChan chan ≠ s.partOfCluster (clusterOf s.me) then some (6, w)
  else none
/-- The request that a thread sends. -/
def ovldReq (d : Reg) (go : Bool) (w : Word) (arg : Word) (addr key : Nat) (s : State) : OvldReq :=
  { h := s.me, rd := d, chan := wfield w 8 0, handle := wfield w 31 16, go := go, entry := wfield w 43 32, arg := arg, addr := addr,
    key := key, sent := s.cycle }
/-- The request reaches the pump halfway through the 110 cycles (log 1), its translation's cycles later (R246). -/
def sendOvld (r : OvldReq) (n : Nat) (s : State) : State := (s.blocks .ovld).later (55 + n) (.ovldAccept { r with sent := s.cycle + n })
/-- R314. -/
def execOvld (b a d : Reg) (s : State) : Ans :=
  checkedBy (.ovld b a d) (fun s => (targetCheck false (s.getX b) s).orElse fun _ =>
      if (s.getX a).toNat % 4096 ≠ 0 then some (4, s.getX a) else none) s fun s => s.gated true fun s =>
    s.withPhys (s.getX a) .read fun p n s => sendOvld (ovldReq d false (s.getX b) (s.getX a) p.key p.ks s) n s
/-- R314, R316: a release at device scope toward the kernel. -/
def execOvldGo (b a d : Reg) (s : State) : Ans :=
  checkedBy (.ovldGo b a d) (fun s => targetCheck true (s.getX b) s) s fun s => s.gated true fun s =>
    let s := s.releaseBegin s.cur 4
    sendOvld (ovldReq d true (s.getX b) (s.getX a) 0 0 s) 0 s
/-- The slot that an OVLD loads (R312). -/
def Pump.loadingSlot (p : Pump) : Nat :=
  if p.ovl0.state = .running then 1 else if p.ovl1.state = .running then 0
  else match p.lastStarted with
    | some 0 => 1
    | _ => 0
/-- OVLD at the pump: its status, and the load (R315). The image is read at acceptance, which waits for lines under exclusive locks
(R260); over a link that cannot recover, or with an uncorrectable error in it, it ends with cause 0x06 (R367, R380). -/
def acceptLoad (r : OvldReq) (s : State) : State :=
  let answer (st : Nat) (s : State) : State := s.at_ (r.sent + r.late + 110) (.ovldStatus r st)
  let p := s.pump r.chan
  let k := p.loadingSlot
  let o := p.ovl k
  if o.state ≠ .empty && p.queue.any (·.handle = o.handle) then answer 1 s
  else if s.onDeadLink r.addr || (linesOf r.addr 4096).any s.unitBroken then failThread r.h r.sent (s.thread r.h).insn r.arg s
  else s.atUnits (.image r.h) (orderKey r.h r.sent) false (linesOf r.addr 4096) (fun s => s.later 1 (.ovldAccept { r with late := r.late + 1 })) fun s =>
    let image := s.readBytes r.addr r.key 4096
    let s := s.holdLines r.addr 4096 (some r.key)
    let new : Overlay := { state := .loading, handle := r.handle, image := image, owner := coreOf r.h, ctx := (s.thread r.h).ctx }
    let s := s.modPump r.chan fun p => p.setOvl k new
    let s := s.dropEvents fun | .overlayLoaded c j _ => c = r.chan && j = k | _ => false
    (answer 0 s).at_ (r.sent + r.late + 520) (.overlayLoaded r.chan k r.handle)
/-- The launches taken so far. -/
def Ctx.addLaunches (x : Ctx) (l : List (Nat × Launch)) : Ctx :=
  let v : Saved := x.saved.getD { threads := [], cores := [], bars := [], copies := [], launches := [], overlays := [] }
  { x with saved := some { v with launches := v.launches ++ l } }
/-- A launch request goes to a pump; one of a context that is saved, or is being saved or restored, is kept with what the save has taken off
the queues (R319). -/
def State.launchTo (s : State) (chan : Nat) (l : Launch) (queue : Pump → Pump) : State :=
  if (s.ctx l.ctx).any fun x => x.phase = .saving || x.phase = .saved || x.phase = .restoring then s.modCtx l.ctx fun x => x.addLaunches [(chan, l)]
  else (s.modPump chan queue).later 0 (.kernelLaunchStart chan)
/-- OVLD.go at the pump. -/
def acceptGo (r : OvldReq) (s : State) : Nat × State :=
  if 8 ≤ (s.pump r.chan).queue.length then (3, s)
  else
    let l : Launch := { handle := r.handle, entry := r.entry, arg := r.arg, ctx := (s.thread r.h).ctx, core := coreOf r.h, page := none,
                        node := none, rel := some (r.h, r.sent) }
    (0, s.launchTo r.chan l fun p => { p with queue := p.queue ++ [l] })
/-- R315; the status takes the way back. -/
def execOvldAccept (s : State) : Ans :=
  onEvent s fun | .ovldAccept r =>
                    if r.go then let (st, s) := acceptGo r s; s.at_ (r.sent + 110) (.ovldStatus r st)
                    else acceptLoad r s
                | _ => s
/-- R314; the pump's reply brings its delay (R253). The release of an OVLD.go retires with it (R279, R316). -/
def execOvldStatus (s : State) : Ans :=
  onEvent s fun | .ovldStatus r st => (match (s.thread r.h).run with
                    | .blocked .ovld =>
                      let s := s.addDelay (coreOf r.h) (128 + r.chan) (s.cycle - r.sent)
                      let s := if r.go then s.released (.thread r.h) 4 else s
                      ((s.modThread r.h fun t => t.setX r.rd (word st)).passOf r.h 4).goesOn r.h
                    | _ => s)
                | _ => s
/-- R315. -/
def execOverlayLoaded (s : State) : Ans :=
  onEvent s fun | .overlayLoaded c k handle =>
                    let o := (s.pump c).ovl k
                    if o.state = .loading && o.handle = handle then
                      (s.modPump c fun p => p.setOvl k { o with state := .loaded }).later 0 (.kernelLaunchStart c)
                    else s
                | _ => s

/-! ### Launches (R315-R317) -/

/-- What the end of a launch reports: a message, the launch page, or the node (R316, R317, R347). -/
def reportEnd (c : Nat) (l : Launch) (status : Nat) (val : Word) (s : State) : State :=
  match l.page, l.node with
  | some a, _ =>
    let s := (putRaw (a + 24) (toBytes 8 status) s).afterWrite (a + 24) 8 0
    let n := ofBytes (memRead s.mem (a + 16) 8)
    (putRaw (a + 16) (toBytes 8 ((n + 1) % 2 ^ 64)) s).afterWrite (a + 16) 8 0
  | none, some q => if status = 0 then s.later 0 (.nodeComplete l.ctx q 15) else failNode l.ctx q status 0 s
  | none, none => postMsg l.core l.ctx { w0 := msgWord0 4 status 0 (c + l.handle * 2 ^ 16), w1 := val } s
/-- The lines of launch pages that reports are written to. -/
def pageUnits (l : List LaunchEnd) : List LockUnit := dedup (l.flatMap fun e => e.launch.page.elim [] fun a => linesOf a 32)
/-- The ends whose kernels' accesses have all been performed are reported; the others wait (R316, R317), also for locks on their launch
page (R260). -/
def reportEnds (c : Nat) (s : State) : State :=
  let early (e : LaunchEnd) : Bool := s.anyOut (.pump c) e.from_ e.before
  let us := pageUnits ((s.pump c).ended.filter fun e => !early e)
  let locked := s.mustWait us true (s.reachedAt (.page c)) (orderKey 4095 0)
  let s := if locked then s.noteWait (.page c) (orderKey 4095 0) true us else s.dropWait (.page c)
  let (wait, done) := (s.pump c).ended.partition fun e => early e || e.launch.page.isSome && locked
  let s := s.modPump c fun p => { p with ended := wait }
  let s := if wait = [] then s else s.later 1 (.kernelLaunchStart c)
  done.foldl (fun s e => (reportEnd c e.launch e.status e.val s).ctxCheck e.launch.ctx) s
/-- Requests that wait at the dispatcher take the places that become free (R317). -/
def Pump.refill (p : Pump) : Pump :=
  let n := 8 - p.queue.length
  { p with queue := p.queue ++ p.dispatch.take n, dispatch := p.dispatch.drop n }
/-- The slot that holds a handle in a state. -/
def Pump.slotOf (p : Pump) (handle : Nat) (st : OvlState) : Option Nat :=
  [0, 1].find? fun k => (p.ovl k).handle = handle && (p.ovl k).state = st
/-- A kernel as it starts (R316). -/
def startKernel (c k : Nat) (l : Launch) (s : State) : State :=
  s.modPump c fun p =>
    { p.setOvl k { p.ovl k with state := .running } with
      seq := { pc := word l.entry, x := ((Vector.replicate 32 0).set 1 l.arg).set 2 (word c) }
      pend := [], notBefore := s.cycle, blocked := false, since := s.cycle, buf := [], kernel := some (l, k), lastStarted := some k,
      saveReq := none }
/-- The head of the queue starts, waits for its image or its release, or ends with STATUS 2 (R315). -/
def startHead (c : Nat) (s : State) : State :=
  let p := s.pump c
  match p.kernel, p.queue with
  | none, l :: rest =>
    match p.slotOf l.handle .loaded with
    | some k =>
      if l.rel.any fun (h, began) => !s.releaseDone (.thread h) began 4 then s.later 1 (.kernelLaunchStart c)
      else startKernel c k l (s.modPump c fun p => { p with queue := rest }.refill)
    | none =>
      if (p.slotOf l.handle .loading).isSome then s
      else endLaunch c { launch := l, status := 2, val := 0 } (s.modPump c fun p => { p with queue := rest }.refill)
  | _, _ => s
/-- Ends are reported, and the next launch starts if it can. -/
def execKernelLaunchStart (s : State) : Ans :=
  onEvent s fun | .kernelLaunchStart c => startHead c (reportEnds c s)
                | _ => s
/-- R317: a launch-page request is queued, or waits behind earlier ones. -/
def execLaunchPageQueue (s : State) : Ans :=
  onEvent s fun | .launchPageQueue c l =>
                    s.launchTo c l fun p => { p with dispatch := p.dispatch ++ [l] }.refill
                | _ => s
/-- R318: the kernel still runs 2^20 cycles after its context's save was requested. -/
def execPumpKernelSaveTimeout (s : State) : Ans :=
  onEvent s fun | .pumpKernelSaveTimeout c =>
                    if (s.pump c).saveReq.any (· + 2 ^ 20 ≤ s.cycle) then pumpFault c 0x10 0 s else s
                | _ => s

/-! ### The instructions of pumps (R330-R334) -/

/-- A write of the running kernel is still to be performed. -/
def State.pumpWrites (s : State) (c : Nat) : Bool :=
  s.reqs.any (fun r => r.pump = some c && (s.pump c).since ≤ r.sent && match r.op with | .store _ => true | _ => false)
    || s.taccs.any fun x => (s.pump c).since ≤ x.2.sent && match x.2.done with | .push d => d = c | _ => false
/-- The runs of a range by lines: key, KEY, offset in the range, bytes; or the fault of R331, and the cycles of its walks. -/
def State.pumpRuns (s : State) (acc : Access) (a : Word) (n : Nat) : Except MemFault (List (Nat × Nat × Nat × Nat) × Nat) × State :=
  (splitPages a.toNat n).foldl (fun (r, s) (x, k) => match r with
    | .error e => (.error e, s)
    | .ok (l, w) =>
      let extra := match s.translate s.view (word x) acc with
        | .miss => s.walkCycles s.view x
        | .ok _ m => m
        | .fault _ => 0
      match s.translateNow s.view (word x) acc with
      | (.error c, s) => (.error { cause := c, va := word x }, s)
      | (.ok p, s) =>
        if 2 ^ 51 ≤ p.key then (.error { cause := 6, va := word x }, s)
        else
          let runs := (linesOf p.key k).map fun u =>
            let lo := max (unitKey u) p.key
            (lo, p.ks, x - a.toNat + (lo - p.key), min (unitKey u + 256) (p.key + k) - lo)
          (.ok (l ++ runs, w + extra), s)) ((.ok ([], 0) : Except MemFault (List (Nat × Nat × Nat × Nat) × Nat)), s)
/-- A table that the range's translation needs is not usable yet (R399). -/
def State.pumpStalls (s : State) (acc : Access) (a : Word) (n : Nat) : Bool := (pagesOf a.toNat n).any fun x => s.walkStalls s.view (word x) acc
/-- Items 1 and 2 of R331. -/
def bufferCheck (b a d : Reg) (most : State → Nat) (s : State) : Option (Nat × Word) :=
  let off := (s.getX d).toNat
  let n := (s.getX b).toNat
  if off % 8 ≠ 0 || n % 8 ≠ 0 || (s.getX a).toNat % 8 ≠ 0 then some (4, s.getX a)
  else if n = 0 || 0x8000 < off + n || most s < n then some (2, s.getX b)
  else none
/-- Requests of a kernel for the lines of a range, all due in the same cycle, whether their slices hold them or not (R331, R332), and behind its
earlier ones to the same slice (R267). -/
def State.sendLines (s : State) (due : Nat) (va : Word) (l : List (Nat × Nat × Nat × Nat)) (op : Nat → Nat → FarOp) : State :=
  l.foldl (fun s (key, ks, o, n) =>
    let r : FarReq := { h := 4095, pump := match s.cur with | .pump c => some c | .thread _ => none
                        va := va, addr := key, key := ks, sa := false, op := op o n, sent := s.cycle, left := s.cycle, dram := true }
    s.at_ (max due (s.lastDue r)) (.farAccessPerform r)) s
/-- The pump that issues. -/
def State.myPump (s : State) : Nat := match s.cur with | .pump c => c | .thread _ => 0
/-- R331. -/
def execPrd (b a d : Reg) (s : State) : Ans :=
  checkedBy (.prd b a d) (bufferCheck b a d fun _ => 0x8000) s fun s =>
    let c := s.myPump
    let n := (s.getX b).toNat
    if s.pumpWrites c || s.pumpStalls .read (s.getX a) n then s.stalls
    else match s.pumpRuns .read (s.getX a) n with
      | (.error e, s) => s.trap e.cause e.va
      | (.ok (l, w), s) =>
        let off := (s.getX d).toNat
        (s.sendLines (s.cycle + 120 + ceilDiv n 64 + w) (s.getX a) l fun o k => .pumpRead (off + o) k).modPump c fun p =>
          { p with blocked := true }
/-- The buffer bytes that PWR and PPUSH take at issue. -/
def bufferBytes (b d : Reg) (s : State) : List Byte := memRead (s.pump s.myPump).buf (s.getX d).toNat (s.getX b).toNat
/-- The writes of PWR, and of PPUSH to home slices; `val` is the TRAPVAL of a page that fails, by its first failing byte. -/
def pumpStore (b a d : Reg) (val : Word → Word) (s : State) : State :=
  let n := (s.getX b).toNat
  let bs := bufferBytes b d s
  if s.pumpStalls .write (s.getX a) n then s.stalls
  else match s.pumpRuns .write (s.getX a) n with
  | (.error e, s) => s.trap e.cause (val e.va)
  | (.ok (l, w), s) =>
    (s.sendLines (s.cycle + 120 + ceilDiv n 64 + w) (s.getX a) l fun o k => .store ((bs.drop o).take k)).pass 4
/-- R331. -/
def execPwr (b a d : Reg) (s : State) : Ans :=
  checkedBy (.pwr b a d) (bufferCheck b a d fun _ => 0x8000) s fun s => pumpStore b a d id s
/-- The target of a push into a well: its core (R332). -/
def pushCore (w : Word) : Nat := wfield w 28 27 * 128 + wfield w 26 25 * 32 + wfield w 24 20
/-- Item 3 of R332. -/
def pushCheck (b a : Reg) (s : State) : Option (Nat × Word) :=
  let w := s.getX a
  if !wbit w 63 then none
  else if wfield w 62 29 ≠ 0 || s.partOfCluster (pushCore w / 32) ≠ s.partOfChan s.myPump || 2 ^ 20 < wellOff w + (s.getX b).toNat
    then some (6, w)
  else none
/-- R332: a push into a well is one tile access. -/
def execPpush (b a d : Reg) (s : State) : Ans :=
  checkedBy (.ppush b a d) (fun s =>
      (bufferCheck b a d (fun s => if wbit (s.getX a) 63 then 8192 else 0x8000) s).orElse fun _ => pushCheck b a s) s fun s =>
    let w := s.getX a
    if !wbit w 63 then pumpStore b a d (fun _ => w) s
    else
      let n := (s.getX b).toNat
      let segs : List Seg := [{ well := some (pushCore w), addr := wellOff w, off := 0, len := n, key := 0 }]
      let us := unitsOf segs
      (s.startTile { h := 4095, excl := true, units := us, reqAt := 0, sent := s.cycle, segs := segs, buf := bufferBytes b d s,
                     done := .push s.myPump } (80 + ceilDiv n 64 - (us.length - 1) / 16)).pass 4
/-- R333. -/
def execPend (s : State) : Ans :=
  checked .pend s fun s =>
    let c := s.myPump
    if s.outstanding (.pump c) (s.cycle + 1) then s.stalls
    else match (s.pump c).kernel with
      | none => s
      | some (l, k) =>
        let v := s.getX 2
        let s := s.modPump c fun p =>
          { p.setOvl k { p.ovl k with state := .loaded } with kernel := none, seq := {}, pend := [], saveReq := none }
        endLaunch c { launch := l, status := 0, val := v } s

/-! ### The zero fill (R324) -/

/-- A step of the fill: one row of each bank. The rows read as zeros from the start of the fill on. -/
def execZeroFillStep (s : State) : Ans :=
  onEvent s fun | .zeroFillStep c =>
                    let n := (s.pump c).fill
                    if n = 0 then s
                    else
                      let s := s.modPump c fun p => { p with fill := n - 1 }
                      if n = 1 then s else s.later 48 (.zeroFillStep c)
                | _ => s

end Sys2Proof.Machine
end

