-- ==== Sys2Proof/Machine/Tasks.lean ====
section
/-!
DEFINITION. The task queue of a partition (R335-R340, R357): TQADD, TQTAKE, TQTRY, TCMT, TDONE, what the queue does with a
request, and its answer.
-/

namespace Sys2Proof.Machine

/-! ### At issue (R336, R337) -/

/-- A gang (R340), then a register field outside 1-28 (R336). -/
def taskField (r : Reg) (s : State) : Option (Nat × Word) :=
  (noGang s).orElse fun _ => if r = 0 || 28 < r.toNat then some (2, r.zeroExtend 64) else none
/-- The partition of the thread that issues. -/
def State.myPart (s : State) : Nat := (s.partOfCluster (clusterOf s.me)).getD 0
/-- A request leaves for the serving slice (R338). -/
def State.sendTask (s : State) (op : TqOp) : State :=
  let n := s.taskWay s.me
  let e := Event.tqRequestPerform { part := s.myPart, h := s.me, op := op, sent := s.cycle }
  s.leavesCluster s.me 64 n e fun s => s.later n e
/-- R337: a release at device scope. -/
def execTqadd (a : Reg) (s : State) : Ans :=
  checkedBy (.tqadd a) (fun s => (taskField a s).orElse fun _ =>
      if s.getX a = BitVec.allOnes 64 then some (2, s.getX a) else none) s fun s => s.ordered false fun s =>
    let x (k : Nat) : Word := s.getX (regPlus a k)
    let s := (s.retires (some 4)).releaseBegin s.cur 4
    (s.sendTask (.add { key := x 0, r0 := x 1, r1 := x 2, r2 := x 3 })).pass 4
/-- Items that TQTAKE and TQTRY share. -/
def takeCheck (d : Reg) (s : State) : Option (Nat × Word) :=
  (taskField d s).orElse fun _ => if s.self.task ≠ .none then some (2, 0) else none
def takeNums (d : Reg) (s : State) : List Nat := (List.range 4).map fun k => s.numOf (regPlus d k)
/-- R337. -/
def execTqtake (d : Reg) (s : State) : Ans :=
  checkedBy (.tqtake d) (takeCheck d) s fun s => s.ordered true fun s =>
    (s.blocks .task).sendTask (.take (takeNums d s) s.pc)
/-- R337: the thread goes on; what uses the answer waits for it. -/
def execTqtry (d : Reg) (s : State) : Ans :=
  checkedBy (.tqtry d) (takeCheck d) s fun s => s.gated true fun s =>
    let s := s.sendTask (.try_ (takeNums d s) s.pc)
    (s.modSelf fun t => { t with pend := (takeNum :: takeNums d s).foldl (fun p n => tset p n none) t.pend }).pass 4
/-- TCMT and TDONE need a task. -/
def holdsTask (s : State) : Option (Nat × Word) :=
  (noGang s).orElse fun _ => if s.self.task = .none then some (2, 0) else none
/-- R337. -/
def execTcmt (s : State) : Ans :=
  checkedBy .tcmt holdsTask s fun s =>
    (s.modSelf fun t => { t with task := match t.task with
      | .held k pc => .kept k pc
      | x => x }).pass 4
/-- R337. -/
def execTdone (s : State) : Ans :=
  checkedBy .tdone holdsTask s fun s => (s.modSelf fun t => { t with task := .none }).pass 4

/-! ### At the queue (R335, R338) -/

/-- The keys that a take may return: no larger than that of the W-th smallest task. -/
def takeBound (sq : Nat) (ts : List Task) : Nat :=
  let w := min (4 * (sq - 1) + 1) ts.length
  ((sortBy id (ts.map fun t => t.key.toNat)).drop (w - 1)).headD 0
/-- The tasks that a take may return: with one slice, the one added first among those of the smallest key. -/
def takeable (sq : Nat) (ts : List Task) : List Task :=
  let l := ts.filter fun t => t.key.toNat ≤ takeBound sq ts
  if sq = 1 then l.take 1 else l
/-- Removes the first task equal to one. -/
def dropTask (x : Task) : List Task → List Task
  | [] => []
  | t :: l => if t = x then l else t :: dropTask x l
/-- Takes a task, as the device chooses (log 3). -/
def State.takeTask (s : State) (p : Nat) (q : Part) : Option Task × State :=
  let l := takeable q.sq q.tasks
  let (i, s) := if l.length = 1 then (0, s) else s.choose (max l.length 1)
  match l[i]? with
  | none => (none, s)
  | some t => (some t, s.modPart p fun q => { q with tasks := dropTask t q.tasks })
/-- The queue's reply to a request is on its way back, with its delay (R253). -/
def State.taskReply (s : State) (r : TqReq) (e : Event) : State :=
  let n := s.taskWay r.h
  let at_ := s.cycle + n
  match s.part r.part with
  | some q => (s.addDelayAt (coreOf r.h) (servingSlice q (dieOf r.h)) (at_ - r.sent) at_).later n e
  | none => s.later n e
/-- The answer of a take, the acknowledgement of a TQADD. -/
def State.answerTask (s : State) (r : TqReq) (a : Option Task) : State := s.taskReply r (.tqAnswer r a)
def State.ackTask (s : State) (r : TqReq) : State := s.taskReply r (.redAck r.h 0 0 r.sent)
/-- A task is in the queue: the take that has been held longest gets one. -/
def insertTask (p : Nat) (t : Task) (s : State) : State :=
  let s := s.modPart p fun q => { q with tasks := q.tasks ++ [t] }
  match s.part p with
  | none => s
  | some q => match q.takeWait with
    | [] => s
    | r :: rest =>
      let (a, s) := s.takeTask p q
      (s.modPart p fun q => { q with takeWait := rest }).answerTask r a
/-- Whether a queue has no room (R335). -/
def Part.tasksFull (q : Part) : Bool := 65536 ≤ q.tasks.length
/-- If an entry is free, the insertion that has been held longest takes it. -/
def admitHeld (p : Nat) (s : State) : State :=
  match s.part p with
  | none => s
  | some q => match q.addWait with
    | r :: rest =>
      let s' := s.modPart p fun q => { q with addWait := rest }
      if q.tasksFull then s
      else match r.op with
        | .add t => insertTask p t (s'.ackTask r)
        | .back t => insertTask p t s'
        | _ => s'
    | [] => s
/-- R337, R338: a TQADD is performed once its release has its conditions. The serving slice's limit comes first (R377). -/
def execTqRequestPerform (s : State) : Ans :=
  onEvent s fun | .tqRequestPerform r => (match s.part r.part with
                    | none => s
                    | some q =>
                      if !r.entered then
                        let e := Event.tqRequestPerform { r with entered := true }
                        s.admitAt { point := 32 + servingSlice q (dieOf r.h), part := r.part, ev := e } fun s => s.later 0 e
                      else match r.op with
                      | .add t =>
                        if !s.releaseDone (.thread r.h) r.sent 4 then s.later 1 (.tqRequestPerform r)
                        else
                          if q.tasksFull then s.modPart r.part fun q => { q with addWait := q.addWait ++ [r] }
                          else insertTask r.part t (s.ackTask r)
                      | .take _ _ =>
                        if q.tasks = [] then s.modPart r.part fun q => { q with takeWait := q.takeWait ++ [r] }
                        else
                          let (a, s) := s.takeTask r.part q
                          admitHeld r.part (s.answerTask r a)
                      | .try_ _ _ =>
                        let (a, s) := s.takeTask r.part q
                        admitHeld r.part (s.answerTask r a)
                      | .back _ => s)
                | _ => s
/-- A task that a thread gives up, or that comes back, is inserted (R339), or held while the queue is full (R335, R337). -/
def execTaskReinsert (s : State) : Ans :=
  onEvent s fun | .taskReinsert p h t =>
                    if (s.part p).any Part.tasksFull then
                      s.modPart p fun q => { q with addWait := q.addWait ++ [{ part := p, h := h, op := .back t, sent := s.cycle }] }
                    else insertTask p t s
                | _ => s

/-! ### The answer (R337) -/

/-- The registers of an answer. -/
def answerRegs (a : Option Task) : List Word :=
  match a with
  | some t => [t.key, t.r0, t.r1, t.r2]
  | none => [BitVec.allOnes 64, 0, 0, 0]
/-- The registers are written, those of a TQTRY where they still await its answer, and the thread holds the task. -/
def takeAnswer (h : Nat) (nums : List Nat) (keep : Nat → Bool) (pc : Word) (a : Option Task) (s : State) : State :=
  let s := s.modThread h fun t =>
    let t := ((nums.zip (answerRegs a)).filter fun x => keep x.1).foldl (fun t (n, v) => { t.setNum n v with pend := terase t.pend n }) t
    { t with pend := terase t.pend takeNum, task := match a with | some k => .held k pc | none => t.task }
  if a.isSome then s.acquire h 4 else s
/-- The thread that waited is gone: the task goes back. -/
def refuseAnswer (r : TqReq) (a : Option Task) (s : State) : State :=
  match a with
  | some t => s.later 0 (.taskReinsert r.part r.h t)
  | none => s
/-- R337. -/
def execTqAnswer (s : State) : Ans :=
  onEvent s fun | .tqAnswer r a => (match r.op with
                    | .take nums pc => (match (s.thread r.h).run with
                      | .blocked .task => ((takeAnswer r.h nums (fun _ => true) pc a s).passOf r.h 4).wake r.h
                      | _ => refuseAnswer r a s)
                    | .try_ nums pc =>
                      if (s.thread r.h).born ≤ r.sent && (tfind (s.thread r.h).pend takeNum).isSome then takeAnswer r.h nums (s.awaitsResult (.thread r.h) r.sent) pc a s
                      else refuseAnswer r a s
                    | .add _ => s
                    | .back _ => s)
                | _ => s

end Sys2Proof.Machine
end

