-- ==== Sys2Proof/Machine/Park.lean ====
section
/-!
DEFINITION. Boundaries: TEXIT (R76), what an instruction that a thread waits in comes to when the thread is parked, interrupted
or saved there (R25), the effect of a park request (R70), and the delivery of a user-level interrupt (R96).
-/

namespace Sys2Proof.Machine

/-! ### TEXIT (R76) -/

/-- R76: a body ends with BDONE instead (R184). -/
def execTexit (s : State) : Ans :=
  checkedBy .texit (fun s => if s.self.body.isSome then some (2, 0) else none) s fun s => s.gated false fun s =>
    (s.blocks .texit).later 0 (.texitRetire s.me)
/-- R76: the end of a thread that has reported its RED events; one that is enabled is reported first. -/
def finTexit (h v : Nat) (s : State) : State :=
  match (s.thread h).run with
  | .blocked .texit =>
    if v = undoes then s.before h
    else match redEvent (s.thread h) with
      | some va => parkTrap h 9 (s.thread h).seq.pc va (s.modThread h dropReported)
      | none => (((s.releaseBegin (.thread h) 4).released (.thread h) 4).modThread h fun t => { t with instret := t.instret + 1 }).endThread h
  | _ => s
/-- R76: the thread ends once its row moves are done and its REDs acknowledged; an event of a RED that is enabled is
reported first. Its release begins then; stores that have been accepted are performed later. The members of a gang end together (R29). -/
def execTexitRetire (s : State) : Ans :=
  onEvent s fun | .texitRetire h => (match (s.thread h).run with
                    | .blocked .texit =>
                      let t := s.thread h
                      if t.fin ≠ some undoes && (t.cwait ≠ 0 || s.redsOut h) then s.later 1 (.texitRetire h) else s.together h 0 finTexit
                    | _ => s)
                | _ => s

/-! ### Withdrawing (R25) -/

/-- The thread stands at its program counter again. -/
def State.back (s : State) (h : Nat) : State :=
  s.modThread h fun t => match t.run with
    | .blocked _ => { t with run := .ready, notBefore := s.cycle, relAt := none, drawWait := false, fin := none, walkFault := none }
    | _ => { t with relAt := none, drawWait := false, walkFault := none }
/-- Withdraws the events of a thread that a test selects. -/
def State.backWithout (s : State) (h : Nat) (p : Event → Bool) : State := (s.dropEvents p).back h
/-- MWAIT retires (R86): with 1 when a write has been recorded, with 3 otherwise. -/
def endMwait (h mask : Nat) (rd : Reg) (s : State) : State :=
  let s := s.modThread h fun t => if t.monHit mask then (t.clearHits mask).setX rd 1 else t.setX rd 3
  (s.passOf h 4).back h
/-- A thread whose matrix instruction is active stops at a step boundary (R205), behind a trap whose turn has come there (R358). -/
def stopMatrix (h : Nat) (s : State) : Option State :=
  let busy : Bool := s.matrixBusy h || (s.job h).any fun j => j.trap.isSome || j.ended = some s.cycle || (s.faultDue j).isSome
  if busy then none else some ((s.endJob h).back h)
/-- A thread brought to a boundary at which it can stop: none while an access whose answer it needs is out, or inside an
annulment (R44, R369), and before the cycle in which a node's thread is ready (log 18). An operation on another thread issues again if it has not reached its target, and is waited for if it
has (R72, R25: an instruction that is interrupted has had no effect). -/
def State.withdraw (s : State) (h : Nat) : Option State :=
  let t := s.thread h
  if t.seq.skip ≠ 0 || t.pend.any (fun x => x.2.isNone) then none
  else match t.run with
    | .blocked w => (match w with
      | .sup => if s.agenda.any (fun x => match x.2 with | .supervisorOpArrival op => op.issuer = some h | _ => false)
          then some (s.backWithout h fun | .supervisorOpArrival op => op.issuer = some h | _ => false) else none
      | .tlbi _ _ => some (s.backWithout h fun | .tlbiRetire g => g = h | _ => false)
      | .tile | .table _ _ _ | .ovld => none
      | .walk =>
        let s := s.modDie (dieOf h) fun d => { d with misses := tmap (fun _ (m : Miss) => { m with waits := m.waits.filter (·.1 ≠ h) }) d.misses }
        some (s.backWithout h fun | .tlbWalkComplete g _ _ => g = h | _ => false)
      | .queue _ | .recv _ | .send _ _ | .cntw _ _ _ | .inbox | .vwaitc _ | .barrier _ _ => some (s.back h)
      | .mwait mask rd => some (endMwait h mask rd s)
      | .arrive _ _ _ _ => some (s.backWithout h fun | .barrierArrival g => g = h | _ => false)
      | .gang n _ => some ((leaveGangWait h n s).back h)
      | .matrix => stopMatrix h s
      | .sfu =>
        let c := coreOf h
        let s := s.modCore c fun k => k.dropSfu h
        some ((s.backWithout h fun | .sfuComplete _ g => g = h | _ => false).sfuNext c)
      | .hash _ =>
        some ((hashBack h s).backWithout h fun | .hashAccessComplete g => g = h | _ => false)
      | .task =>
        let p := (s.partOfCluster (clusterOf h)).getD 0
        if (s.part p).any fun q => q.takeWait.any fun r => r.h = h then
          some ((s.modPart p fun q => { q with takeWait := q.takeWait.filter fun r => r.h ≠ h }).back h)
        else none
      | .yield => some (s.backWithout h fun | .yieldWake g _ => g = h | _ => false)
      | .texit => some (s.backWithout h fun | .texitRetire g => g = h | _ => false)
      | .start =>
        if s.agenda.any (fun x => x.2 = .tstartReady h) then some (s.backWithout h fun | .tstartReady g => g = h | _ => false) else none)
    | _ => some (s.back h)
/-- The thread issues nothing more while it comes to its boundary; its matrix instruction starts no further step. -/
def State.freeze (s : State) (h : Nat) : State :=
  let s := s.modThread h fun t => { t with frozen := t.seq.skip = 0 }
  let s := match (s.thread h).gang with
    | some (leader, _, _) => s.dropGang leader
    | none => s
  match (s.thread h).run with
  | .blocked .matrix => s.modJob h fun j => { j with stop := true }
  | _ => s

/-! ### Park requests (R70) -/

/-- R70, R30, R296: the target parks at its boundary without a record, its REDs acknowledged; its gang ends. -/
def execParkRequestEffect (s : State) : Ans :=
  onEvent s fun | .parkRequestEffect h =>
                    (let t := s.thread h
                    let running : Bool := match t.run with | .ready => true | .blocked _ => true | _ => false
                    if !t.parkReq || !running then s
                    else match if s.redLeft h then none else s.withdraw h with
                      | none => (s.freeze h).later 1 (.parkRequestEffect h)
                      | some s =>
                        let s := s.disband (membersOf (s.thread h) h)
                        s.modThread h fun t =>
                          { t with run := .parked, parkReq := false, frozen := false, record := none, seq := { t.seq with rptRun := none } })
                | _ => s

/-! ### User-level interrupts (R96) -/

/-- A thread enters its handler (R96). -/
def enterHandler (h : Nat) (s : State) : State :=
  s.modThread h fun t =>
    { t with run := .ready, notBefore := s.cycle + 1, meets := none, uiAct := true, shadow := t.shadow.set 5 t.seq.pc (by decide),
             shadowRpt := t.seq.rpt, shadowSkip := t.seq.skip,
             seq := { t.seq with pc := t.uivec, rpt := 0, skip := 0, rptRun := none } }
/-- An access thread that a message of a kind may interrupt: enabled, and living. -/
def wants (kind : Nat) (t : Thread) : Bool := liveThread t && t.uiEn && wbit t.uimask kind
/-- It meets the conditions of R96 in this cycle. -/
def State.interruptible (s : State) (kind h : Nat) : Bool :=
  let t := s.thread h
  wants kind t && t.gang.isNone && !t.dbgStop && !t.frozen && !t.parkReq && !(s.core (coreOf h)).halted && match t.run with
    | .ready => true
    | .blocked .inbox => false
    | .blocked .matrix => false
    | .blocked _ => true
    | _ => false
/-- Looks again in the next cycle. -/
def State.uiLater (s : State) (core : Nat) : State :=
  if s.agenda.any fun x => x.2 = .uiDelivery core then s else s.later 1 (.uiDelivery core)
/-- R96: the oldest message interrupts the lowest thread that can take it. -/
def execUiDelivery (s : State) : Ans :=
  onEvent s fun | .uiDelivery core => (match (s.core core).inbox with
                    | [] => s
                    | (c, m) :: _ =>
                      let kind := wfield m.w0 7 0
                      let hs := (List.range 4).map (8 * core + ·)
                      if s.cycle < c + 2 then s.at_ (c + 2) (.uiDelivery core)
                      else if !hs.any fun h => wants kind (s.thread h) then s
                      else if hs.any fun h => liveThread (s.thread h) && (s.thread h).uiAct then s
                      else match hs.find? (s.interruptible kind) with
                        | none => s.uiLater core
                        | some h => match s.withdraw h with
                          | none => s.uiLater core
                          | some s => enterHandler h s)
                | _ => s

end Sys2Proof.Machine
end

