-- ==== Sys2Proof/Machine/Sched.lean ====
section
/-!
DEFINITION. The command processor: accepting launch records (R342, R343), edges and completions (R344, R350), kernel, copy,
near-memory, configure, condition, loop and switch nodes (R345-R349, R351, R416), and which context holds which cores (R352-R356).
-/

namespace Sys2Proof.Machine

/-! ### Launch records -/

def Node.incount (n : Node) : Nat := wfield (n.w 0) 15 8
def Node.succ (n : Node) (i : Nat) : Nat := wfield (n.w 1) (16 * i + 15) (16 * i)
/-- The record count of a loop's body, 0 where the field is outside its limits (R349). -/
def Node.bodyLen (n : Node) : Nat := let l := wfield (n.w 4) 31 16; if n.kind = 5 && l ≤ 1024 then l else 0
/-- A record that has been accepted. -/
def Node.accepted (n : Node) : Bool := n.words ≠ []
def Ctx.node (x : Ctx) (q : Nat) : Node := tget { words := [] } x.nodes q
def State.modNode (s : State) (c q : Nat) (f : Node → Node) : State :=
  s.modCtx c fun x => { x with nodes := tset x.nodes q (f (x.node q)) }
/-- What the command processor reads for a node, with the rights of a user context (R345), and what it writes for itself. -/
def nodeView (c : Nat) : View := { ctx := c, sup := false, die := 0, core := none }
def cmdView (c : Nat) : View := { ctx := c, sup := true, die := 0, core := none }
/-- A context fails without a node of its own to name (R342, R416). -/
def failCtx (c cause : Nat) (pc val : Word) (s : State) : State :=
  match s.ctx c with
  | none => s
  | some x =>
    if x.failed then s
    else
      let r : TrapRecord :=
        { w0 := word (cause + 2 ^ 30 + c * 2 ^ 16 + x.part * 2 ^ 26), handle := 0, pc := pc, value := val, insn := 0, cycle := word s.cycle }
      (s.later 0 (.faultQueueWrite x.part r)).modCtx c fun x => { x with failed := true }
/-- A node is ready n cycles from now. -/
def State.readyNode (s : State) (c q n : Nat) : State :=
  match s.ctx c with
  | none => s
  | some x => (s.modNode c q fun n => { n with queued := true }).later n (nodeEvent (x.node q) c q)
/-- The innermost loop whose body holds a record (R349). -/
def Ctx.loopOf (x : Ctx) (q : Nat) : Option Nat :=
  x.nodes.foldl (fun r (p, n) => if p < q && q ≤ p + n.bodyLen then some p else r) none
/-- A record is accepted, with the edges that have come from records of its own loop. A record of a body starts with its loop; the body of
a loop that has ended takes no part (R349), and RETIRED goes on behind it (R342). -/
def acceptRecord (c q : Nat) (words : List Word) (s : State) : State :=
  match s.ctx c with
  | none => s
  | some x =>
    let l := x.loopOf q
    let loop := l.map x.node
    let iterating : Bool := loop.any fun n => n.phase = .running
    let ended : Bool := loop.any fun n => n.phase = .done
    let old := x.node q
    let mine := old.early.filter (·.1 = l)
    let n : Node := { old with words := words, loop := l, arrived := mine.length, live := (mine.filter (·.2)).length, early := []
                               phase := if ended then .done else .waiting, endAt := s.cycle }
    let s := s.modNode c q fun _ => n
    if ended then s.later 20 (.retiredUpdate c)
    else if l.isSome && !iterating || n.arrived < n.incount then s
    else if n.incount ≠ 0 && n.live = 0 then (s.modNode c q fun n => { n with queued := true }).later 100 (.nodeComplete c q 0)
    else s.readyNode c q 100
/-- Reads record q of the launch queue (R342). -/
def readRecord (c q : Nat) (x : Ctx) (s : State) : Except MemFault (List Word) × State :=
  let a := x.qbase.toNat + 64 * (q % max x.qsize 1)
  match s.checkRange (nodeView c) a 64 .read with
  | (some f, s) => (.error f, s)
  | (none, s) =>
    let (bs, s) := s.readVirt (nodeView c) a 64
    (.ok ((List.range 8).map (wordAt bs)), s)
/-- The records from one on can be read as soon as they are asked for (R399). -/
def State.recordsUsable (s : State) (c q n : Nat) (x : Ctx) : Bool :=
  (List.range n).all fun i => s.usable (nodeView c) (x.qbase.toNat + 64 * ((q + i) % max x.qsize 1)) 64 .read
/-- R342: every record below V is accepted. -/
def execNotifyWrite (s : State) : Ans :=
  onEvent s fun | .notifyWrite c v => (match s.ctx c with
                    | none => s
                    | some x =>
                      if x.failed || v ≤ x.accepted then s
                      else if !s.recordsUsable c x.accepted (min (v - x.accepted) x.qsize) x then s.later 1 (.notifyWrite c v)
                      else if x.retired + x.qsize < v then failCtx c 2 (word x.retired) (word v) s
                      else
                        let s := s.modCtx c fun x => { x with accepted := v }
                        (List.range (v - x.accepted)).foldl (fun s i =>
                          let q := x.accepted + i
                          if (s.ctx c).any (·.failed) then s
                          else match readRecord c q x s with
                            | (.error f, s) => failCtx c f.cause (word q) f.va s
                            | (.ok ws, s) => acceptRecord c q ws s) s)
                | _ => s

/-! ### Edges and completions (R344, R350) -/

/-- An edge reaches a node from one whose loop is `l`; edges into a body from outside take no part (R349). For a record that is not accepted
yet, it is noted where the edge comes from. -/
def arriveEdge (c r : Nat) (l : Option Nat) (live : Bool) (s : State) : State :=
  match s.ctx c with
  | none => s
  | some x =>
    let n := x.node r
    if !n.accepted then s.modNode c r fun n => { n with early := n.early ++ [(l, live)] }
    else if n.loop ≠ l then s
    else
      let n := { n with arrived := n.arrived + 1, live := n.live + b2n live }
      let s := s.modNode c r fun _ => n
      if n.phase ≠ .waiting || n.queued || n.arrived ≠ n.incount then s
      else if n.live = 0 then (s.modNode c r fun n => { n with queued := true }).later 20 (.nodeComplete c r 0)
      else s.readyNode c r 20
/-- The edges of a node, in ascending order of their targets; one that leaves a loop's body makes the loop fail. -/
def sendEdges (c q : Nat) (live : BitVec 4) (n : Node) (s : State) : State :=
  (sortBy n.succ (List.range 4)).foldl (fun s i =>
    let d := n.succ i
    if d = 0 then s
    else match n.loop with
      | none => arriveEdge c (q + d) none (live.getLsbD i) s
      | some l =>
        let len := ((s.ctx c).map fun x => (x.node l).bodyLen).getD 0
        if l + len < q + d then failNode c l 2 8 s else arriveEdge c (q + d) n.loop (live.getLsbD i) s) s
/-- The records of a loop's body. -/
def bodyOf (x : Ctx) (l : Nat) : List (Nat × Node) := x.nodes.filter fun (r, n) => l < r && r ≤ l + (x.node l).bodyLen && n.accepted
/-- The body of a loop that is over, or cancelled: its records are over. -/
def closeBody (c l : Nat) (note : Bool) (s : State) : State :=
  match s.ctx c with
  | none => s
  | some x => (bodyOf x l).foldl (fun s (r, n) =>
      let s := s.modNode c r fun n => { n with phase := .done, queued := false, waitAt := none, need := [], endAt := s.cycle }
      if note then notifyNode c (n.w 0) r 0 s else s) s
/-- A loop looks whether its iteration has ended: every record of its body is over; then it is ready again (R349). -/
def checkLoop (c : Nat) (l : Option Nat) (s : State) : State :=
  match l, s.ctx c with
  | some l, some x =>
    let isOver : Bool := (List.range (x.node l).bodyLen).all fun i => let n := x.node (l + 1 + i); n.accepted && n.phase = .done
    if (x.node l).phase = .running && isOver then (s.modNode c l fun n => { n with phase := .waiting }).readyNode c l 20 else s
  | _, _ => s
/-- A launch has ended: the slots of its threads are unused (R20). -/
def State.launchEnds (s : State) (c q : Nat) : State :=
  { s with threads := tmap (fun _ (t : Thread) => if t.ctx = c && t.launch = q + 1 && t.run = .exited then { t with run := .unused } else t) s.threads }
/-- Everything that a kernel node did has been released at device scope (R344). -/
def State.nodeReleased (s : State) (n : Node) : Bool := n.ends.all fun (h, began) => s.releaseDone (.thread h) began 4
/-- R344, R350: a node completes, with its release; `live` 0 is a cancelled one. -/
def execNodeComplete (s : State) : Ans :=
  onEvent s fun | .nodeComplete c q live => (match s.ctx c with
                    | none => s
                    | some x =>
                      let n := x.node q
                      let isOver : Bool := n.phase = .done || n.phase = .failed
                      if isOver || n.kind = 0 && live ≠ 0 && s.nodeBusy c q then s
                      else if live ≠ 0 && !s.nodeReleased n then s.later 1 (.nodeComplete c q live)
                      else
                        let s := s.modNode c q fun n =>
                          { n with phase := .done, queued := false, waitAt := none, need := [], ends := [], endAt := s.cycle }
                        let s := if n.kind = 0 then s.launchEnds c q else s
                        let s := if n.kind = 5 then closeBody c q (live = 0) s else s
                        let s := notifyNode c (n.w 0) q 0 (sendEdges c q live n s)
                        (((checkLoop c n.loop s).later 20 (.retiredUpdate c)).ctxCheck c))
                | _ => s
/-- RETIRED as it stands 20 cycles after the completions (R342, R351). -/
def Ctx.retiredAt (x : Ctx) (cycle : Nat) : Nat → Nat → Nat
  | 0, n => n
  | fuel + 1, n =>
    let y := x.node n
    if y.accepted && y.phase = .done && y.endAt + 20 ≤ cycle then x.retiredAt cycle fuel (n + 1) else n
/-- R342: the count is stored through the context's translation. -/
def execRetiredUpdate (s : State) : Ans :=
  onEvent s fun | .retiredUpdate c => (match s.ctx c with
                    | none => s
                    | some x =>
                      let n := x.retiredAt s.cycle (x.accepted - x.retired) x.retired
                      if n ≤ x.retired then s
                      else if !s.usable (cmdView c) (x.notify + 8).toNat 8 .write then s.later 1 (.retiredUpdate c)
                      else match s.translateNow (cmdView c) (x.notify + 8) .write with
                        | (.error e, s) => failCtx c e (word n) (x.notify + 8) s
                        | (.ok p, s) =>
                          if s.onDeadLink p.key then failCtx c 6 (word n) (x.notify + 8) s
                          else (s.landMem 0 p.key p.ks (toBytes 8 n)).modCtx c fun x => { x with retired := n })
                | _ => s

/-! ### Which context holds which cores (R352-R356) -/

/-- The cores that a context holds. -/
def State.heldCores (s : State) (c : Nat) : List Nat := (s.cores.filter fun k => k.2.holder = some c).map Prod.fst
/-- A cluster of the context is halted: it is not pre-empted, and its slice does not count (R393). -/
def State.ctxHalted (s : State) (c : Nat) : Bool := (s.residentClusters c).any fun cl => (s.cluster cl).dbg.halted
/-- The modes of a context in the clusters where it has cores (R348). -/
def State.syncModes (s : State) (c : Nat) : State :=
  match s.ctx c with
  | none => s
  | some x =>
    let here := s.residentClusters c
    let put (on : Bool) (l : List Nat) : List Nat := if on then c :: l.filter (· ≠ c) else l.filter (· ≠ c)
    { s with clusters := (dedup (here ++ s.clusters.map Prod.fst)).foldl (fun t cl =>
        let on := here.contains cl
        tmod {} t cl fun (k : Cluster) => { k with raceEn := put (on && x.raceEn) k.raceEn, gangOk := put (on && x.gangOk) k.gangOk }) s.clusters }
/-- The race state of every sector of some clusters is emptied (R279). -/
def State.emptyRace (s : State) (cls : List Nat) : State := cls.foldl (fun s cl => s.modCluster cl fun k => { k with race := [] }) s
/-- A freed core: zeroed for whoever comes next (R376). Its caches of code and of translations stay, under their own keys, and so do
its mirror of its peers' WELLWIN (R238) and its count of draws (R179). -/
def Core.cleared (k : Core) (cycle : Nat) : Core :=
  { icache := k.icache, tlb := k.tlb, halted := k.halted, lastHolder := k.holder, freedAt := cycle, mirror := k.mirror, drawSeq := k.drawSeq }
/-- A slot that is nobody's any more: its channels are empty, but flits that are still on their way keep their places (R80). -/
def State.vacant (s : State) (h : Nat) : Thread :=
  let out (n : Nat) : Nat := (s.agenda.filter fun x => match x.2 with | .flitArrival _ d m _ _ => d = h && m = n | _ => false).length
  { chans := Vector.ofFn fun n => { free := List.replicate (4 - out n.val) 0 } }
/-- A core is freed; its peers lose the rights that its WELLWIN gave them (R238). -/
def State.freeCore (s : State) (core : Nat) : State :=
  let s := if (s.core core).wellwin = 0 then s else s.writeWellwin core 0
  let s := s.modCore core fun k => k.cleared s.cycle
  let s := s.dropEvents fun e => (timedOf e).any fun h => coreOf h = core
  ({ s with gangs := s.gangs.filter fun g => coreOf g.1 ≠ core, threads := s.threads.filterMap fun (h, t) =>
      if coreOf h ≠ core then some (h, t) else if s.vacant h = ({} : Thread) then none else some (h, s.vacant h) })
/-- Every core of a context is freed, with its barriers; the race state of their clusters is emptied (R279). -/
def State.freeCores (s : State) (c : Nat) : State :=
  let here := s.residentClusters c
  let s := (s.heldCores c).foldl State.freeCore (s.emptyRace here)
  let s := here.foldl (fun s cl => s.modCluster cl fun k => { k with bars := k.bars.filter fun x => x.1 / 32 ≠ c }) s
  s.syncModes c
/-- The cores that a waiting context needs (R353). -/
def Ctx.needs (x : Ctx) : List Nat :=
  match x.phase, x.saved with
  | .saved, some v => v.cores.map Prod.fst
  | _, _ => if !x.failed && (x.phase = .idle || x.phase = .resident) then dedup (x.nodes.flatMap fun n => if n.2.phase = .waiting then n.2.need else []) else []
def Ctx.isWaiting (x : Ctx) : Bool := !x.super && x.needs ≠ []
/-- The cores that it could be placed on or restored to at once: not those of nodes that wait for its own earlier threads as well (R345). -/
def Ctx.wants (x : Ctx) : List Nat :=
  if x.phase = .saved then x.needs
  else { x with nodes := x.nodes.filter fun n => !n.2.inUse }.needs
/-- Those that wait, in the order of R353. -/
def State.waiters (s : State) : List (Nat × Ctx) := sortBy (fun y => waitOrder y.1 y.2 s.cycle) (s.ctxs.filter fun y => y.2.isWaiting)
/-- Every core of a list is free or the context's own. -/
def State.coresFree (s : State) (c : Nat) (l : List Nat) : Bool := l.all fun k => (s.core k).holder.all (· = c)
/-- Every core of a list is free or the context's own, or will be: its holder makes place at once, or when its slice expires (R353). -/
def State.coresCome (s : State) (c prio : Nat) (l : List Nat) : Bool := l.all fun k => match (s.core k).holder with
  | none => true
  | some d => d = c || (s.ctx d).any fun y => !y.super && y.prio ≤ prio
/-- One of the cores is kept for a context before this one in the order, which will come to have all that it needs: so it has them within
the slices of R354 (log 22). -/
def State.ahead (s : State) (c : Nat) (l : List Nat) : Bool :=
  let mine := ((s.ctx c).map fun x => waitOrder c x s.cycle).getD 0
  s.waiters.any fun (w, y) => w ≠ c && waitOrder w y s.cycle < mine && y.wants.any l.contains && s.coresCome w y.prio y.wants
/-- Waiting contexts look again n cycles from now, in the order of R353. -/
def State.serve (s : State) (n : Nat) : State :=
  s.waiters.foldl (fun s (c, x) =>
    if x.phase = .saved then s.later n (.contextRestore c)
    else x.nodes.foldl (fun s (q, y) => if y.phase = .waiting && y.need ≠ [] then s.later n (nodeEvent y c q) else s) s) s
/-- The save of a resident context is requested (R369). -/
def State.beginSave (s : State) (c : Nat) : State :=
  (s.modCtx c fun x => { x with phase := .saving, saveAt := s.cycle, saveStage := 0, sliceLeft := none }).later 0 (.contextSave c false)
/-- A waiting context displaces at once the holders of lower priority (R353). -/
def State.displace (s : State) (prio c : Nat) (l : List Nat) : State :=
  l.foldl (fun s k => match (s.core k).holder with
    | none => s
    | some d => match s.ctx d with
      | none => s
      | some y => if d ≠ c && !y.super && y.phase = .resident && y.prio < prio && !s.ctxHalted d then s.beginSave d else s) s
/-- What waits displaces the holders that have only now come to be such (R353). -/
def State.contend (s : State) : State := s.waiters.foldl (fun s (c, x) => s.displace x.prio c x.needs) s
/-- A context begins a time slice (R354). -/
def State.beginSlice (s : State) (c : Nat) : State :=
  match s.ctx c with
  | none => s
  | some x =>
    if s.ctxHalted c then s.modCtx c fun x => { x with sliceLeft := some x.tslice }
    else (s.modCtx c fun x => { x with sliceAt := s.cycle + x.tslice, sliceLeft := none }).later (x.tslice + 1) (.timeSliceExpiry c (s.cycle + x.tslice))
/-- A context takes cores, and who waits looks again; it is resident from now on if it was not; one of higher priority that waits for them displaces it at once. -/
def State.takeCores (s : State) (c : Nat) (l : List Nat) : State :=
  let s := l.foldl (fun s k => if (s.core k).holder = some c then s else s.modCore k fun y => { y with holder := some c }) s
  let s := s.syncModes c
  (State.contend (match s.ctx c with
    | some x => if x.phase = .idle && l ≠ [] then (s.modCtx c fun x => { x with phase := .resident }).beginSlice c else s
    | none => s)).serve 1
/-- The node waits, for cores and for its own context's threads or only for one of the two (R345, R353); its context displaces whom it can. -/
def State.waitFor (s : State) (c q : Nat) (x : Ctx) (more : List Nat) (inUse : Bool) : State :=
  let s := s.modNode c q fun n => { n with waitAt := some (n.waitAt.getD s.cycle), need := more, inUse := inUse }
  if more = [] then s else (s.modCtx c fun x => { x with waitSince := some (x.waitSince.getD s.cycle) }).displace x.prio c more
/-- Whether the context of a node can have the cores it needs; if not, it waits for them. -/
def obtain (c q : Nat) (l : List Nat) (s : State) (f : State → State) : State :=
  match s.ctx c with
  | none => s
  | some x =>
    let more := l.filter fun k => (s.core k).holder ≠ some c
    if more = [] || s.coresFree c more && !s.ahead c more then
      let s := s.modNode c q fun n => { n with waitAt := none, need := [], inUse := false }
      let s := s.modCtx c fun x => { x with waitSince := if x.nodes.any fun n => n.2.phase = .waiting && n.2.need ≠ [] then x.waitSince else none }
      f s
    else s.waitFor c q x more false
/-- R354: at the end of its slice a context is pre-empted for one of its own priority or a higher one, or begins another. -/
def execTimeSliceExpiry (s : State) : Ans :=
  onEvent s fun | .timeSliceExpiry c due => (match s.ctx c with
                    | none => s
                    | some x =>
                      if x.phase ≠ .resident || x.sliceAt ≠ due || x.sliceLeft.isSome then s
                      else
                        let mine := s.heldCores c
                        if s.waiters.any fun (d, y) => d ≠ c && x.prio ≤ y.prio && y.needs.any mine.contains then s.beginSave c
                        else (s.modCtx c fun x => { x with sliceAt := due + x.tslice }).at_ (due + x.tslice + 1) (.timeSliceExpiry c (due + x.tslice)))
                | _ => s
/-- R355: nothing of the context is left; its cores are free, and contexts that wait look again in the next cycle. So they do when it has
failed and waits for no core any more. -/
def execContextComplete (s : State) : Ans :=
  onEvent s fun | .contextComplete c => (match s.ctx c with
                    | none => s
                    | some x =>
                      if x.phase ≠ .resident || s.ctxBusy c then (if x.failed then s.serve 1 else s)
                      else ((s.freeCores c).modCtx c fun x => { x with phase := .idle, sliceLeft := none, waitSince := none }).serve 1)
                | _ => s

/-! ### The start of a node -/

/-- A node of the context may start (R350, R352, R375); one that is being evaluated or applied goes on to its end. -/
def State.startable (s : State) (x : Ctx) (n : Node) : Bool :=
  (x.phase = .idle || x.phase = .resident) && (n.startAt.isSome || !x.failed && (s.part x.part).any fun p => !p.quiesced)
/-- What every kind begins with: the node waits for its turn, and the checks of word 0 (R343, R416). -/
def beginNode (c q : Nat) (s : State) (f : Ctx → Node → State → State) : State :=
  match s.ctx c with
  | none => s
  | some x =>
    let n := x.node q
    if n.phase ≠ .waiting || !n.queued || !s.startable x n then s
    else if 7 ≤ n.kind || wfield (n.w 0) 7 4 ≠ 0 || wfield (n.w 0) 63 27 ≠ 0 then failNode c q 1 0 s
    else f x n s
/-- The first of some checks that fails makes the node fail. -/
def withChecks (c q : Nat) (l : List (Bool × Nat × Word)) (s : State) (f : State → State) : State :=
  match l.find? Prod.fst with
  | some (_, cause, v) => failNode c q cause v s
  | none => f s
/-- Every page of a range can be read (R416); what is not usable yet is waited for (R399). -/
def withReadable (c q : Nat) (a : Word) (n : Nat) (s : State) (f : List Byte → State → State) : State :=
  if !s.usable (nodeView c) a.toNat n .read then (match s.ev with | some e => s.later 1 e | none => s)
  else match s.checkRange (nodeView c) a.toNat n .read with
  | (some e, s) => failNode c q e.cause e.va s
  | (none, s) =>
    let (bs, s) := s.readVirt (nodeView c) a.toNat n
    f bs s
/-- The module-wide core that bits [4:0], [6:5], [8:7] name. -/
def placeCore (v : Nat) : Nat := field v 8 7 * 128 + field v 6 5 * 32 + field v 4 0
/-- The node is taken up: it is evaluated or applied 60 cycles later (R351). -/
def State.evalLater (s : State) (c q : Nat) (n : Node) : State :=
  (s.modNode c q fun n => { n with startAt := some (s.cycle + 60) }).later 60 (nodeEvent n c q)

/-! ### Kernel nodes (R345) -/

/-- An entry of a placement table. -/
structure Place where
  core : Nat
  pair : Nat
  stage : Nat
  a : Word
  e : Word
  arg : Word
  reserved : Bool
  deriving DecidableEq, Repr
def placeOf (bs : List Byte) (i : Nat) : Place :=
  let v := (wordAt bs (4 * i)).toNat
  { core := placeCore (v / 4), pair := v % 4, stage := field v 14 11, a := wordAt bs (4 * i + 1), e := wordAt bs (4 * i + 2),
    arg := wordAt bs (4 * i + 3), reserved := v / 2 ^ 15 ≠ 0 }
/-- The first entry that makes the node fail: cause and VALUE (R345, R416). -/
def placesFault (s : State) (part : Nat) (l : List Place) : Option (Nat × Word) :=
  ((l.zipIdx).findSome? fun (p, i) =>
    if p.reserved then some (1, word (32 * i))
    else if s.partOfCluster (p.core / 32) ≠ some part then some (6, word (32 * i))
    else if wbit p.a 0 then some (4, p.a) else if wbit p.e 0 then some (4, p.e)
    else if p.a = 0 && p.e = 0 then some (2, word (32 * i + 8))
    else if (l.take i).any fun o => o.core = p.core && (o.pair = p.pair || o.stage ≠ p.stage) then some (2, word (32 * i))
    else none)
/-- The slots that an entry names: slot, r of R345, entry address. -/
def Place.slots (p : Place) : List (Nat × Nat × Word) :=
  (if p.a = 0 then [] else [(8 * p.core + p.pair, 0, p.a)]) ++ (if p.e = 0 then [] else [(8 * p.core + p.pair + 4, 1, p.e)])
/-- Threads of the context on a core. -/
def State.coreBusy (s : State) (core : Nat) : Bool := (List.range 8).any fun i => liveThread (s.thread (8 * core + i))
/-- The core's stage is held: by its threads (R12), and by its active draws, whose bodies are to have it (R99, log 20). -/
def State.stageHeld (s : State) (core : Nat) : Bool := s.coreBusy core || (s.core core).draws ≠ []
/-- What the node waits for of its own context (R345). -/
def State.placeWaits (s : State) (c : Nat) (image : Bool) (l : List Place) : Bool :=
  l.any fun p => (s.core p.core).holder = some c
    && (p.slots.any (fun x => !s.slotFree x.1) || image && s.coreBusy p.core || (s.core p.core).stage ≠ p.stage && s.stageHeld p.core)
/-- The cycle before which a new owner cannot run on a core (R376). -/
def State.zeroedAt (s : State) (c core : Nat) : Nat :=
  let k := s.core core
  if k.lastHolder.all (· = c) then 0 else k.freedAt + 4096
/-- The threads of an entry (R26). -/
def placeEntryThreads (c q i : Nat) (base size : Word) (p : Place) (s : State) : State :=
  let s := s.modCore p.core fun k => { k with stage := p.stage }
  p.slots.foldl (fun s (h, r, pc) =>
    let t := startThread (s.thread h) pc p.arg (base + word (2 * i + r + 1) * size) c false
    s.place h { t with run := .blocked .start, node := some q, launch := q + 1 }) s
/-- The node is placed: its threads are ready 200 cycles later, with the copy of its image and the zeroing (R351, R376). -/
def placeNode (c q : Nat) (n : Node) (l : List Place) (s : State) : State :=
  let cores := dedup (l.map (·.core))
  let zeroed := (cores.map (s.zeroedAt c)).foldl max 0
  let s := s.takeCores c cores
  let s := (l.zipIdx).foldl (fun s (p, i) => placeEntryThreads c q i (n.w 4) (n.w 5) p s) s
  let at_ := max zeroed (s.cycle + 200 + if n.w 6 = 0 then 0 else ceilDiv (n.w 7).toNat 256)
  (s.modNode c q fun n => { n with phase := .running, queued := false, startAt := some at_ }).at_ at_ (.kernelNode c q)
/-- The bytes of the node's image, once the locks of their lines allow the read, and those of the wells' sectors the write (R260, R345);
until then the node waits. -/
def withImage (c q : Nat) (n : Node) (cores : List Nat) (s : State) (f : List Byte → State → State) : State :=
  if n.w 6 = 0 then f [] s
  else
    let len := (n.w 7).toNat
    let wait (s : State) : State := (s.modNode c q fun n => { n with startAt := some (s.cycle + 1) }).later 1 (.kernelNode c q)
    let lines := (splitPages (n.w 6).toNat len).flatMap fun (a, k) => match (s.translateNow (nodeView c) (word a) .read).1 with
      | .ok p => linesOf p.key k
      | .error _ => []
    s.atUnits (.node c q false) (orderKey 4096 0) false lines wait fun s =>
    s.atUnits (.node c q true) (orderKey 4096 0) true (cores.flatMap fun k => sectorsOf k 0 len) wait fun s =>
      let (bs, s) := s.readVirt (nodeView c) (n.w 6).toNat len
      f bs s
/-- The threads of the node are ready: their pairs' queues are empty, the image is in the wells (R26, R345), and their cores hold
nothing clean that is older than the node's start, which is an acquire (R344). -/
def startPlaced (c q : Nat) (n : Node) (s : State) : State :=
  let hs := (s.threads.filter fun (_, t) => t.ctx = c && t.node = some q && t.run = .blocked .start).map Prod.fst
  let cores := dedup (hs.map coreOf)
  withImage c q n cores s fun bs s =>
  let s := cores.foldl (fun s k => ((s.dropClean (8 * k) 4).landWell k 0 bs 0).modCore k fun y => { y with lastA := 3, lastE := 7 }) s
  let s := hs.foldl (fun s h => s.modThread h fun t => { t with run := .ready, notBefore := s.cycle, born := s.cycle }) s
  let s := hs.foldl (fun s h => (s.modCore (coreOf h) fun k => k.clearPair (pairOf h)).wakePartner h s.cycle) s
  s.modNode c q fun n => { n with startAt := none }
/-- The checks of the record's fields (R345). -/
def kernelChecks (n : Node) : List (Bool × Nat × Word) :=
  let pairs := wfield (n.w 3) 11 0
  let image : Bool := n.w 6 ≠ 0
  [(wfield (n.w 3) 63 12 ≠ 0, 1, 24), (pairs = 0 || 2048 < pairs, 2, 24), ((n.w 5).toNat % 4096 ≠ 0, 2, 40),
   (image && ((n.w 7).toNat % 64 ≠ 0 || n.w 7 = 0 || 2 ^ 20 < (n.w 7).toNat), 2, 56), ((n.w 2).toNat % 32 ≠ 0, 4, n.w 2),
   (image && (n.w 6).toNat % 64 ≠ 0, 4, n.w 6)]
/-- R345: a ready kernel node is checked and placed, or waits; placed, its threads start. -/
def execKernelNode (s : State) : Ans :=
  onEvent s fun | .kernelNode c q =>
                    (let n := ((s.ctx c).map fun x => x.node q).getD { words := [] }
                    if n.phase = .running then (if n.startAt = some s.cycle then startPlaced c q n s else s)
                    else beginNode c q s fun x n s => withChecks c q (kernelChecks n) s fun s =>
                      let pairs := wfield (n.w 3) 11 0
                      withReadable c q (n.w 2) (32 * pairs) s fun bs s =>
                      withReadable c q (n.w 6) (if n.w 6 = 0 then 0 else (n.w 7).toNat) s fun _ s =>
                        let l := (List.range pairs).map (placeOf bs)
                        match placesFault s x.part l with
                        | some (cause, v) => failNode c q cause v s
                        | none =>
                          if s.placeWaits c (n.w 6 ≠ 0) l then
                            s.waitFor c q x ((dedup (l.map (·.core))).filter fun k => (s.core k).holder ≠ some c) true
                          else obtain c q (dedup (l.map (·.core))) s fun s => placeNode c q n l s)
                | _ => s

/-! ### Copy and near-memory nodes (R346, R347) -/

/-- R346: the copy is accepted as one that the context issues. -/
def execCopyNode (s : State) : Ans :=
  onEvent s fun | .copyNode c q => beginNode c q s fun _ n s =>
                    withChecks c q [(wfield (n.w 5) 63 2 ≠ 0 || wfield (n.w 5) 1 0 = 3, 1, 40)] s fun s =>
                      let op := wfield (n.w 5) 1 0
                      let r : CopyReq := { kind := if op = 0 then .cpy else if op = 1 then .cpyt else .fill, dstWell := false, srcWell := false,
                                           dst := n.w 2, src := n.w 3, len := n.w 4, complete := n.w 6 &&& ~~~ 7 }
                      match acceptCopy s (nodeView c) 0 (some q) none r with
                      | .error (cause, v) => failNode c q cause v s
                      | .ok s => s.modNode c q fun n => { n with phase := .running, queued := false }
                | _ => s
/-- R347: the launch is queued; a full queue makes the node wait. -/
def execNearMemoryNode (s : State) : Ans :=
  onEvent s fun | .nearMemoryNode c q => beginNode c q s fun x n s =>
                    let w := n.w 2
                    let chan := wfield w 8 0
                    withChecks c q [(wfield w 15 9 ≠ 0 || wfield w 63 44 ≠ 0, 1, 16), (383 < chan || wfield w 31 16 = 0 || wbit w 32, 2, 16),
                                    (s.partOfChan chan ≠ some x.part, 6, 16)] s fun s =>
                      if 8 ≤ (s.pump chan).queue.length then s.later 1 (.nearMemoryNode c q)
                      else
                        let l : Launch := { handle := wfield w 31 16, entry := wfield w 43 32, arg := n.w 3, ctx := c, core := 0, page := none,
                                            node := some q }
                        let s := s.modPump chan fun p => { p with queue := p.queue ++ [l] }
                        (s.modNode c q fun n => { n with phase := .running, queued := false }).later 0 (.kernelLaunchStart chan)
                | _ => s

/-! ### Configure nodes (R348) -/

/-- The cores of the first kernel node that is still to be placed: an idle context becomes resident before its modes are set
(the example of R356). -/
def State.nextCores (s : State) (c : Nat) (x : Ctx) : List Nat × State :=
  match x.nodes.find? fun n => n.2.accepted && n.2.kind = 0 && n.2.phase = .waiting with
  | none => ([], s)
  | some (_, n) =>
    let pairs := wfield (n.w 3) 11 0
    if 2048 < pairs || (n.w 2).toNat % 32 ≠ 0 then ([], s)
    else match s.checkRange (nodeView c) (n.w 2).toNat (32 * pairs) .read with
      | (some _, s) => ([], s)
      | (none, s) =>
        let (bs, s) := s.readVirt (nodeView c) (n.w 2).toNat (32 * pairs)
        let l := (List.range pairs).map (placeOf bs)
        if (placesFault s x.part l).isSome then ([], s) else (dedup (l.map (·.core)), s)
/-- The first descriptor of a table that R124 refuses: its VALUE. -/
def tableFault (bs : List Byte) : Option Nat :=
  (List.range 256).findSome? fun n =>
    let d := (bs.drop (64 * n)).take 64
    if d.all (· = 0) then none else (descFault d).map (64 * n + ·)
/-- The first entry of a stage map that is wrong: cause and VALUE. -/
def mapFault (s : State) (part : Nat) (bs : List Byte) : Option (Nat × Word) :=
  (List.range 16).findSome? fun i =>
    let v := (wordAt bs i).toNat
    if v / 2 ^ 10 ≠ 0 then some (1, word (8 * i))
    else if nbit v 9 && s.partOfCluster (placeCore v / 32) ≠ some part then some (6, word (8 * i))
    else none
/-- A source that is selected is read; another is empty. -/
def withSource (on : Bool) (c q : Nat) (a : Word) (n : Nat) (s : State) (f : List Byte → State → State) : State :=
  if on then withReadable c q a n s f else f [] s
/-- The launch page (R317): the key of a page that is writable and not cached. -/
def withLaunchPage (on : Bool) (c q : Nat) (a : Word) (s : State) (f : Option Nat → State → State) : State :=
  if !on || a = 0 then f none s
  else match s.translateNow (cmdView c) a .write with
    | (.error e, s) => failNode c q e a s
    | (.ok p, s) => if p.nc && p.key < 2 ^ 51 then f (some p.key) s else failNode c q 6 a s
/-- R348: every selected source is read and checked. -/
def readSources (c q : Nat) (x : Ctx) (n : Node) (s : State) : State :=
  let m := n.w 2
  withChecks c q [(wfield m 63 5 ≠ 0, 1, 16), (wbit m 2 && (n.w 4).toNat % 64 ≠ 0, 4, n.w 4), (wbit m 3 && (n.w 5).toNat % 8 ≠ 0, 4, n.w 5),
                  (wbit m 4 && (n.w 6).toNat % 4096 ≠ 0, 4, n.w 6)] s fun s =>
  withSource (wbit m 2) c q (n.w 4) 16384 s fun tab s =>
  withSource (wbit m 3) c q (n.w 5) 128 s fun map s =>
  withLaunchPage (wbit m 4) c q (n.w 6) s fun page s =>
    match tableFault tab, mapFault s x.part map with
    | some o, _ => failNode c q 2 (word o) s
    | none, some (cause, v) => failNode c q cause v s
    | none, none => (s.modNode c q fun n => { n with src := [tab, map], page := page }).evalLater c q n
/-- The tensor table that 256 descriptors give. -/
def tableOf (bs : List Byte) : Table Desc :=
  (List.range 256).filterMap fun n =>
    let d := (bs.drop (64 * n)).take 64
    if d.all (· = 0) then none else some (n, descOf d)
/-- R348: all selected modes take effect together. -/
def applyModes (c q : Nat) (x : Ctx) (n : Node) (s : State) : State :=
  let m := n.w 2
  let map := n.src.getD 1 []
  match (if wbit m 3 then s.checkRange (cmdView c) x.mapva.toNat 128 .write else (none, s)) with
  | (some e, s) => failNode c q e.cause e.va s
  | (none, s) =>
    let s := if wbit m 3 then (splitPages x.mapva.toNat 128).foldl (fun s (a, k) => match s.translateNow (cmdView c) (word a) .write with
        | (.ok p, s) => s.landMem 0 p.key p.ks ((map.drop (a - x.mapva.toNat)).take k)
        | (.error _, s) => s) s else s
    let s := s.modCtx c fun x =>
      { x with raceEn := if wbit m 0 then wbit (n.w 3) 0 else x.raceEn, gangOk := if wbit m 1 then wbit (n.w 3) 1 else x.gangOk
               tensors := if wbit m 2 then tableOf (n.src.getD 0 []) else x.tensors
               stageMap := if wbit m 3 then (List.range 16).map (wordAt map) else x.stageMap
               launchPage := if wbit m 4 then n.page else x.launchPage }
    let s := if wbit m 0 then s.emptyRace (s.residentClusters c) else s
    (s.syncModes c).later 0 (.nodeComplete c q 15)
/-- R348, R356. -/
def execConfigureNode (s : State) : Ans :=
  onEvent s fun | .configureNode c q => beginNode c q s fun x n s => match n.startAt with
                    | some t => if t = s.cycle then applyModes c q x n (s.modNode c q fun n => { n with startAt := none }) else s
                    | none =>
                      let (l, s) := if x.phase = .idle then s.nextCores c x else ([], s)
                      obtain c q l s fun s => readSources c q x n (s.takeCores c l)
                | _ => s

/-! ### Condition, loop and switch nodes (R349) -/

/-- The node is evaluated on its word, 60 cycles after it is ready. -/
def evaluate (c q : Nat) (s : State) (bad : Node → List (Bool × Nat × Word)) (f : Node → Word → State → State) : State :=
  beginNode c q s fun _ n s =>
    withChecks c q (bad n ++ [(decide ((n.w 2).toNat % 8 ≠ 0), 4, n.w 2)]) s fun s =>
      match n.startAt with
      | none => s.evalLater c q n
      | some t =>
        if s.cycle < t then s
        else withReadable c q (n.w 2) 8 s fun bs s => f n (wordOfBytes bs) (s.modNode c q fun n => { n with startAt := none })
/-- Cond(COND, W, VALUE). -/
def Node.holds (n : Node) (w : Word) : Bool := cond (BitVec.ofNat 3 (wfield (n.w 4) 2 0)) w (n.w 3)
/-- Reserved bits of word 4. -/
def reserved4 (n : Node) : Bool := wfield (n.w 4) 15 3 ≠ 0 || wfield (n.w 4) 63 32 ≠ 0
/-- R349. -/
def execConditionNode (s : State) : Ans :=
  onEvent s fun | .conditionNode c q => evaluate c q s (fun n => [(reserved4 n, 1, 32)]) fun n w s =>
                    s.later 0 (.nodeComplete c q (if n.holds w then 0b0011 else 0b1100))
                | _ => s
/-- R349. -/
def execSwitchNode (s : State) : Ans :=
  onEvent s fun | .switchNode c q => evaluate c q s (fun n => [(reserved4 n, 1, 32)]) fun _ w s =>
                    s.later 0 (.nodeComplete c q (BitVec.ofNat 4 (2 ^ (min w.toNat 3))))
                | _ => s
/-- An iteration begins: every record of the body has its count again, and those that wait for no edge are ready. -/
def startIteration (c q : Nat) (s : State) : State :=
  let s := s.modNode c q fun n => { n with phase := .running, queued := false }
  match s.ctx c with
  | none => s
  | some x => (bodyOf x q).foldl (fun s (r, n) =>
      let s := s.modNode c r fun n => { n with phase := .waiting, arrived := 0, live := 0, queued := false, startAt := none, waitAt := none, need := [], inUse := false }
      if n.loop = some q && n.incount = 0 then s.readyNode c r 20 else s) s
/-- R349: while the condition holds, one more iteration; then the loop completes. -/
def execLoopNode (s : State) : Ans :=
  onEvent s fun | .loopNode c q => evaluate c q s (fun n => [(reserved4 n, 1, 32), (n.bodyLen = 0, 2, 32)]) fun n w s =>
                    if n.holds w then startIteration c q s else s.later 0 (.nodeComplete c q 15)
                | _ => s

end Sys2Proof.Machine
end

