-- ==== Sys2Proof/Machine/Save.lean ====
section
/-!
DEFINITION. Saving and restoring a context (R369, R370): stopping its threads (R25, R30, R83, R339), draining its engines (R142,
R205, R302, R310, R319), the save area that its cores write (R368), and what a restore brings back (R87, R92, R144). What R368 gives
no layout for is kept as data (log 7).
-/

namespace Sys2Proof.Machine

/-! ### Stopping threads -/

/-- The threads on the cores of a context. -/
def State.ctxThreads (s : State) (c : Nat) : List Nat :=
  (s.threads.filter fun x => (s.core (coreOf x.1)).holder = some c && liveThread x.2).map Prod.fst
/-- R339: a thread that holds a task gives it up, and will take again. -/
def giveUpAtSave (h : Nat) (s : State) : State :=
  match (s.thread h).task with
  | .held _ pc =>
    (s.giveUpTask h).modThread h fun t =>
      { t with uiAct := false, shadowRpt := 0, shadowSkip := 0, seq := { t.seq with rpt := 0, skip := 0, rptRun := none, pc := pc } }
  | _ => s
/-- The claims of waiting SENDs are released (R83). -/
def dropClaims (h : Nat) (s : State) : State :=
  (s.thread h).claims.foldl (fun s (dst, n) => s.freeSlot dst n) (s.modThread h fun t => { t with claims := [] })
/-- A thread that has stopped for a save. -/
def stopped (t : Thread) : Bool :=
  match t.run with
  | .ready => t.frozen
  | .blocked _ => false
  | _ => true
/-- A thread that could issue in this cycle, and whose instruction might trap: the trap comes before the save (R358). -/
def State.mightTrap (s : State) (h : Nat) : Bool :=
  let t := s.thread h
  t.run = .ready && t.gang.isNone && t.notBefore ≤ s.cycle && !t.dbgStop && !t.frozen && t.seq.skip = 0 && !(s.core (coreOf h)).halted
/-- What a thread that has stopped lets go of. -/
def letGo (h : Nat) (s : State) : State := giveUpAtSave h (dropClaims h ((s.dropJoins h false fun _ => true).offerLaunch (clusterOf h)))
/-- The members of a gang stop at one boundary, all before the instruction in which some of them wait, or all behind it (R30); if one
cannot stop yet, none does. -/
def stopGang (ms : List Nat) (s : State) : State :=
  if ms.all fun h => stopped (s.thread h) then s
  else match ms.foldl (fun (r : Option State) h => r.bind fun s => s.withdraw h) (some s) with
    | some s => ms.foldl (fun s h => letGo h (s.modThread h fun t => { t with frozen := true, seq := { t.seq with rptRun := none } }))
        (s.dropGang (ms.headD 0))
    | none => ms.foldl (fun s h => s.freeze h) s
/-- Brings a thread to its save boundary, if it can stop now (R369); the leader of a gang brings all its members. -/
def stopThread (h : Nat) (s : State) : State :=
  let t := s.thread h
  let stop (s : State) : State := letGo h s
  match t.gang with
  | some (leader, _, _) => if h = leader then stopGang (membersOf t h) s else s
  | none => match t.run with
  | .ready => if t.frozen && t.seq.skip = 0 && t.pend.all (fun x => x.2.isSome) then
        stop (s.modThread h fun t => { t with seq := { t.seq with rptRun := none } })
      else match s.withdraw h with
        | some s => stop (s.modThread h fun t => { t with frozen := true, seq := { t.seq with rptRun := none } })
        | none => s.freeze h
  | .blocked _ => match s.withdraw h with
      | some s => stop (s.modThread h fun t => { t with frozen := true, seq := { t.seq with rptRun := none } })
      | none => s.freeze h
  | _ => stop s

/-! ### Draining -/

/-- What is queued on the pumps for a context is taken off, in order (R319); what waits behind it takes its places (R317). -/
def takeLaunches (c : Nat) (s : State) : List (Nat × Launch) × State :=
  let mine (l : Launch) : Bool := l.ctx = c
  s.pumps.foldl (fun (r, s) (n, p) =>
    let l := (p.queue ++ p.dispatch).filter mine
    if l = [] then (r, s)
    else
      let rest (p : Pump) : Pump := { p with queue := p.queue.filter fun l => !mine l, dispatch := p.dispatch.filter fun l => !mine l }
      (r ++ l.map fun l => (n, l), (s.modPump n fun p => (rest p).refill).later 0 (.kernelLaunchStart n))) (([] : List (Nat × Launch)), s)
/-- A running kernel of the context has 2^20 cycles (R318). -/
def askPumps (c : Nat) (s : State) : State :=
  s.pumps.foldl (fun s (n, p) =>
    if p.kernel.any (fun k => k.1.ctx = c) && p.saveReq.isNone then
      (s.modPump n fun p => { p with saveReq := some s.cycle }).later (2 ^ 20) (.pumpKernelSaveTimeout n)
    else s) s
/-- Its copies but for CPYT stop at their next piece (R302). -/
def stopCopies (c : Nat) (s : State) : State :=
  { s with copies := tmap (fun _ (y : Copy) => if y.ctx = c && y.kind ≠ .cpyt then { y with stop := true } else y) s.copies }
/-- A copy that is at rest at the offset it has reached. -/
def copyRests (y : Copy) : Bool := y.kind ≠ .cpyt && y.pipe = [] && y.off < y.len && y.ended.isNone && !y.held
/-- An event of one of the context's cores whose effect its block has to hold. -/
def drains (mine : Nat → Bool) (c : Nat) : Event → Bool
  | .flitArrival _ _ _ ctx _ => ctx = c
  | .drawTileLand core _ _ _ _ _ => mine core
  | .drawCompleteMessage core _ _ _ => mine core
  | .qldEntryArrival h _ _ _ _ => mine (coreOf h)
  | .wellStoreLand h core _ _ _ => mine (coreOf h) || mine core
  | .wellwinMirrorUpdate owner peer _ => mine owner || mine peer
  | .cisternRowMove h _ => mine (coreOf h)
  | .mldcPerform h _ _ => mine (coreOf h)
  | .redAck h _ _ _ => mine (coreOf h)
  | .tqRequestPerform r => mine (coreOf r.h)
  | .tqAnswer r _ => mine (coreOf r.h)
  | .launchPageQueue _ l => l.ctx = c
  | _ => false
/-- Nothing of the context is under way (R369). -/
def State.drained (s : State) (c : Nat) : Bool :=
  let held := s.heldCores c
  let mine (k : Nat) : Bool := held.contains k
  (s.ctxThreads c).all (fun h => stopped (s.thread h)) && !s.anyEvent (drains mine c)
    && s.reqs.all (fun r => r.pump.isSome || !mine (coreOf r.h))
    && s.taccs.all (fun a => match a.2.done with
      | .push _ => true
      | .copyRead _ => true
      | .copyWrite _ => true
      | _ => !mine (coreOf a.2.h))
    && s.copies.all (fun y => y.2.ctx ≠ c || copyRests y.2) && s.bks.all (fun b => b.2.ctx ≠ c)
    && s.pumps.all (fun p => p.2.kernel.all (fun k => k.1.ctx ≠ c) && p.2.ended.all (fun e => e.launch.ctx ≠ c)
      && [p.2.ovl0, p.2.ovl1].all fun o => o.state ≠ .loading || o.ctx ≠ c)
    && held.all fun k => let y := s.core k; y.running.isNone && y.jobs = [] && y.moves = [] && y.heldTiles = []
/-- Nodes that have not started go back to wait for their turn (R356); slots of kernels that were placed only are free again. -/
def unstartNodes (c : Nat) (s : State) : State :=
  match s.ctx c with
  | none => s
  | some x => x.nodes.foldl (fun s (q, n) =>
      if n.startAt.isNone then s
      else
        let s := { s with threads := s.threads.filter fun (_, t) => !(t.ctx = c && t.node = some q && t.run = Run.blocked Why.start && n.kind = 0) }
        s.modNode c q fun n => { n with startAt := none, phase := .waiting, queued := true }) s

/-! ### The blocks -/

/-- A core as its block holds it: without caches, delay accumulators and race state (R368). -/
def Core.block (k : Core) : Core := { k with l1 := [], icache := [], tlb := [], delays := [], delayNew := [] }
/-- The loaded slots whose owner cores belong to the context, which are the context's (R319), and the pumps without them. -/
def takeOverlays (c : Nat) (s : State) : List (Nat × Overlay) × State :=
  let mine (o : Overlay) : Bool := o.state = .loaded && (s.core o.owner).holder = some c
  (s.pumps.flatMap fun (n, p) => ([p.ovl0, p.ovl1].filter mine).map fun o => (n, { o with ctx := c }),
   { s with pumps := tmap (fun _ (p : Pump) =>
      { p with ovl0 := if mine p.ovl0 then {} else p.ovl0, ovl1 := if mine p.ovl1 then {} else p.ovl1 }) s.pumps })
/-- Where the block of the j-th core lies in the save area (R368). -/
def Saved.coreAt (v : Saved) (j : Nat) : Nat := 20544 + 512 * (dedup (v.cores.map fun k => k.1 / 32)).length + 1361408 * j
/-- The bytes of a save area, with its variable part (R143, R302, R319, R368). -/
def Saved.bytes (v : Saved) : Nat :=
  v.coreAt v.cores.length + sumList (v.cores.flatMap fun k => k.2.draws.map fun d => 192 + 64 * ceilDiv d.2.tiles 512)
    + 64 * v.copies.length + 4160 * v.overlays.length + 64 * v.launches.length
/-- The record of a draw (R143). -/
def Draw.record (d : Draw) : List Byte :=
  let field (l : List Nat) : Nat := sumList ((List.range 4).map fun k => l.getD k 0 * 2 ^ (16 * k))
  let place := d.ring + d.logSlots * 2 ^ 20 + d.logBytes * 2 ^ 24 + d.allow * 2 ^ 28 + d.counter * 2 ^ 32
  let mask (p : RingSlot → Bool) : Nat := sumList ((d.slots.filter fun x => p x.2).map fun x => 2 ^ x.1)
  toBytes 8 (field d.origin) ++ toBytes 8 (field d.extent) ++ toBytes 8 d.bodyPc.toNat ++ toBytes 8 place
    ++ d.desc.words.flatMap (bytesOfWord 8) ++ toBytes 8 d.delivered.length ++ toBytes 8 d.consumed
    ++ toBytes 32 (mask fun | .landed _ _ => true | _ => false) ++ toBytes 32 (mask fun | .running _ _ => true | _ => false)
    ++ List.replicate 16 0 ++ toBytes (64 * ceilDiv d.tiles 512) (d.delivered.foldl (fun m i => m ||| 2 ^ i) 0)
/-- A draw as its record gives it. What the record does not hold is the device's: whose draw it is, which tile a slot holds. -/
def Draw.ofRecord (d : Draw) (bs : List Byte) : Draw :=
  let b := blockOf (bs.take 32)
  let held (o : Nat) (i : Nat) : Bool := nbit (ofBytes ((bs.drop o).take 32)) i
  let n := ofBytes (bs.drop 192)
  { d with
    origin := b.origin, extent := b.extent, bodyPc := b.body, ring := b.ring, logSlots := b.logSlots, logBytes := b.logBytes
    allow := b.allow, counter := b.counter, desc := descOf ((bs.drop 32).take 64), consumed := ofBytes ((bs.drop 104).take 8)
    counted := ofBytes ((bs.drop 104).take 8), delivered := (List.range (boxSize b.extent)).filter (nbit n)
    slots := d.slots.filter fun (i, x) => match x with
      | .claimed _ => false
      | .landed _ _ => held 112 i
      | .running _ _ => held 144 i }
/-- Where the records of the draws lie in the save area, by core and number (R368). -/
def Saved.drawsAt (v : Saved) : List (Nat × Nat × Draw × Nat) :=
  ((v.cores.flatMap fun (k, y) => y.draws.map fun (n, d) => (k, n, d)).foldl
    (fun (l, o) (k, n, d) => (l ++ [(k, n, d, o)], o + 192 + 64 * ceilDiv d.tiles 512)) ([], v.coreAt v.cores.length)).1
/-- Bytes of the save area that R368 lays out no further (log 7). -/
def openBytes (save off n : Nat) : List Byte := (List.range n).map fun i => Config.saveByte save (off + i)
/-- The save area is written (R368): each core's well and cistern and the draws' records at their places, the rest as the device lays it
out. -/
def saveArea (save base : Nat) (v : Saved) (m : List Host.Cell) : List Host.Cell :=
  let m := memWrite (memClear m base v.bytes) base (openBytes save 0 (v.coreAt 0))
  let m := v.cores.zipIdx.foldl (fun m (k, j) =>
    let a := base + v.coreAt j
    let m := memPut m a (memWindow k.2.well 0 (2 ^ 20))
    let m := k.2.cistern.foldl (fun m r => if r.1 < 2048 then memWrite m (a + 2 ^ 20 + 128 * r.1) (toBytes 128 r.2.toNat) else m) m
    memWrite m (a + 2 ^ 20 + 2 ^ 18) (openBytes save (v.coreAt j + 2 ^ 20 + 2 ^ 18) 50688)) m
  let o := v.coreAt v.cores.length
  v.drawsAt.foldl (fun m (_, _, d, o) => memWrite m (base + o) d.record) (memWrite m (base + o) (openBytes save o (v.bytes - o)))
/-- The last byte of the save area is written: the context is saved and its cores are free (R369). -/
def finishSave (c : Nat) (s : State) : State :=
  let held := s.heldCores c
  let (l, s) := takeLaunches c s
  let (o, s) := takeOverlays c s
  let bars := s.clusters.flatMap fun (cl, k) => (k.bars.filter fun b => b.1 / 32 = c).map fun b => (cl, b.1, b.2)
  let threads := s.threads.filter fun x => held.contains (coreOf x.1)
  let cores := (s.cores.filter fun x => held.contains x.1).map fun (n, k) => (n, k.block)
  let copies := s.copies.filter fun y => y.2.ctx = c
  let s := { s with copies := s.copies.filter fun y => y.2.ctx ≠ c }
  let s := s.modCtx c fun x =>
    let x := x.addLaunches l
    { x with saved := x.saved.map fun v => { v with threads := threads, cores := cores, bars := bars, copies := copies, overlays := o }
             phase := .saved, saveAt := s.cycle, waitSince := some s.cycle }
  let s := match s.ctx c with
    | some { save := a, saved := some v, .. } =>
      State.afterWrite { s with mem := saveArea s.freeCtr a v s.mem, freeCtr := s.freeCtr + 1 } a v.bytes 0
    | _ => s
  (s.freeCores c).serve 1
/-- R369: the context stops and drains, its cores write back what is dirty, and then write their blocks, 5,318 cycles long. -/
def execContextSave (s : State) : Ans :=
  onEvent s fun | .contextSave c late => (match s.ctx c with
                    | none => s
                    | some x =>
                      let might := (s.ctxThreads c).filter fun h => s.mightTrap h
                      if x.phase ≠ .saving then s
                      else if x.saveStage = 0 && !late && might ≠ [] then
                        (might.foldl (fun s h => s.modThread h fun t => { t with frozen := true, meets := some s.cycle }) s).later 0
                          (.contextSave c true)
                      else if x.saveStage = 0 then
                        let s := unstartNodes c s
                        let s := (s.ctxThreads c).foldl (fun s h => stopThread h s) s
                        let (l, s) := takeLaunches c s
                        let s := askPumps c (s.modCtx c fun x => x.addLaunches l)
                        let s := if (s.ctxThreads c).all fun h => stopped (s.thread h) then stopCopies c s else s
                        if !s.drained c then s.later 1 (.contextSave c false)
                        else
                          let held := s.heldCores c
                          let s := held.foldl (fun s k => (s.flush (8 * k) fun _ => true).modCore k fun y => { y with l1 := [] }) s
                          (s.modCtx c fun x => { x with saveStage := 1 }).later 0 (.contextSave c false)
                      else if x.saveStage = 1 then
                        let held := s.heldCores c
                        if s.reqs.any fun r => reqIsWb r && held.contains (coreOf r.h) then s.later 1 (.contextSave c false)
                        else (s.modCtx c fun x => { x with saveStage := 2 }).later 5318 (.contextSave c false)
                      else finishSave c s)
                | _ => s

/-! ### Restoring (R370) -/

/-- A thread as a restore brings it back: armed monitors count as hit (R87); a barrier's time-out goes on where it stood (R92). -/
def restoredThread (now gone : Nat) (halted : Bool) (t : Thread) : Thread :=
  { t with frozen := false, meets := none, notBefore := now, pend := [], walkFault := none, relAt := none, dbgStop := halted
           mons := t.mons.map fun m => { m with hit := m.hit || m.place.isSome }
           barWait := t.barWait.map fun w => { w with due := w.due.map (· + gone) } }
/-- A draw is active again: landed tiles start in the order of their slots, and the bound of R136 starts again (R144). -/
def restoredDraw (d : Draw) : Draw :=
  { d with passed := [], slots := tmap (fun _ x => match x with | .landed i _ => .landed i 0 | y => y) d.slots }
/-- Rows of a cistern from their bytes (R201). -/
def rowsOf (cs : List Host.Cell) : Table VReg :=
  cs.foldl (fun t c => tset t (c.1 / 128) (tget 0 t (c.1 / 128) ||| BitVec.ofNat 1024 (c.2.toNat * 2 ^ (8 * (c.1 % 128))))) []
/-- The well, the cistern and the draws of the j-th core, number c, as the save area holds them. -/
def readCore (m : List Host.Cell) (base j c : Nat) (v : Saved) (k : Core) : Core :=
  let read (n : Nat) (d : Draw) : Draw := match v.drawsAt.find? fun x => x.1 = c && x.2.1 = n with
    | some (_, _, _, o) => d.ofRecord (memRead m (base + o) (192 + 64 * ceilDiv d.tiles 512))
    | none => d
  { k with well := memWindow m (base + v.coreAt j) (2 ^ 20), cistern := rowsOf (memWindow m (base + v.coreAt j + 2 ^ 20) (2 ^ 18))
           draws := tmap read k.draws }
/-- The mirrors of a core's peers are as its WELLWIN says (R238). -/
def State.mirrorAll (s : State) (core : Nat) (v : Word) : State :=
  forUpto 32 s fun i s =>
    let peer := coreIn (core / 32) i
    let r := wfield v (2 * i + 1) (2 * i)
    if peer = core then s
    else s.modCore peer fun k => { k with mirror := if r = 0 then terase k.mirror (coreIdx core) else tset k.mirror (coreIdx core) r }
/-- A core's block is loaded. -/
def loadCore (c k : Nat) (v : Core) (s : State) : State :=
  let y := s.core k
  let s := s.setCore k { v with
    holder := some c, icache := y.icache, tlb := y.tlb, halted := y.halted, mirror := y.mirror, drawSeq := y.drawSeq
    draws := tmap (fun _ d => restoredDraw d) v.draws }
  let s := (s.mirrorAll k v.wellwin).later 0 (.bodyStart k)
  let s := v.draws.foldl (fun s (num, d) => s.later 0 (.drawTileClaim k num d.seq)) s
  if v.inbox = [] then s else s.later 0 (.uiDelivery k)
/-- A thread is loaded; its record is written to the ring again (R370). -/
def loadThread (gone h : Nat) (v : Thread) (s : State) : State :=
  let t := restoredThread s.cycle gone (s.core (coreOf h)).halted v
  let s := s.setThread h t
  let s := t.barWait.foldl (fun s w => match w.due with | some d => s.at_ d (.barrierTimeout h d) | none => s) s
  let s := if t.parkReq then s.later 0 (.parkRequestEffect h) else s
  let p := (s.partOfCluster (clusterOf h)).getD 0
  match t.run, t.record with
  | .parked, some r =>
    s.later (ringLatency s p (dieOf h)) (.trapRecordWrite p { r with w0 := if wbit r.w0 15 then r.w0 else r.w0 + word (2 ^ 15) })
  | _, _ => s
/-- A slot of a pump that an overlay of a context is loaded into again: an empty one, or the one that an OVLD would load, unless it holds
another one of the context; none while kernels run in the others (R319). -/
def Pump.restoreSlot (p : Pump) (c : Nat) : Option Nat :=
  let free (k : Nat) : Bool := (p.ovl k).state ≠ .running && ((p.ovl k).state = .empty || (p.ovl k).ctx ≠ c)
  ([0, 1].find? fun k => (p.ovl k).state = .empty).orElse fun _ => [p.loadingSlot, 0, 1].find? free
/-- The loads of a context's overlays begin, each as soon as its pump has a slot for it; they take as long as an OVLD's (R315, R370).
Those of channels that a RESIZE has taken away are lost (log 23). -/
def loadOverlays (c : Nat) (s : State) : State :=
  let here (n : Nat) : Bool := (s.ctx c).any fun x => s.partOfChan n = some x.part
  let l := (((s.ctx c).bind (·.saved)).elim [] (·.overlays)).filter fun o => here o.1
  let (left, s) := l.foldl (fun (left, s) (n, o) => match (s.pump n).restoreSlot c with
    | none => (left ++ [(n, o)], s)
    | some k =>
      let s := s.dropEvents fun | .overlayLoaded m j _ => m = n && j = k | _ => false
      (left, (s.modPump n fun p => p.setOvl k { o with state := .loading }).later 520 (.overlayLoaded n k o.handle))) (([] : List (Nat × Overlay)), s)
  s.modCtx c fun x => { x with saved := x.saved.map fun v => { v with overlays := left } }
/-- The cycle in which the last of the context's overlays is loaded, if one still is not. -/
def State.overlaysDue (s : State) (c : Nat) : Option Nat :=
  let due (x : Nat × Event) : Option Nat := match x.2 with
    | .overlayLoaded n k _ => if ((s.pump n).ovl k).ctx = c && ((s.pump n).ovl k).state = .loading then some x.1 else none
    | _ => none
  match s.agenda.filterMap due with
  | [] => none
  | l => some (l.foldl max 0)
/-- What a save has kept is back, the race state of its clusters empty (R279, R356), and the threads may issue from this cycle on. A launch that was queued on a channel that a RESIZE has
taken away ends with STATUS 2 (log 23). -/
def finishRestore (c : Nat) (x : Ctx) (v : Saved) (s : State) : State :=
  let gone := s.cycle - x.saveAt
  let s := s.modCtx c fun x => { x with phase := .resident, saved := none }
  let s := v.cores.zipIdx.foldl (fun s ((k, y), j) => loadCore c k (readCore s.mem x.save j k v y) s) s
  let s := v.threads.foldl (fun s (h, t) => loadThread gone h t s) s
  let s := v.bars.foldl (fun s (cl, n, b) => s.modCluster cl fun k => { k with bars := tset k.bars n b }) s
  let s := v.copies.foldl (fun s (id, y) =>
    { s with copies := tset s.copies id { y with stop := false, t0 := s.cycle + y.ls } }.later y.ls (.copyPiece id)) s
  let s := v.launches.foldl (fun s (n, l) =>
    if s.partOfChan n ≠ some x.part then endLaunch n { launch := l, status := 2, val := 0 } s
    else (s.modPump n fun p => { p with dispatch := p.dispatch ++ [{ l with rel := none }] }.refill).later 0 (.kernelLaunchStart n)) s
  let s := ((s.syncModes c).emptyRace (s.residentClusters c)).beginSlice c
  let s := x.nodes.foldl (fun s (q, n) => if n.phase = .waiting && n.queued then s.later 0 (nodeEvent n c q) else s) s
  (s.ctxCheck c).contend
/-- R370: a saved context takes its cores again once they are free and its turn has come; 5,319 cycles later, or in the cycle after its last
overlay is loaded, it runs. -/
def execContextRestore (s : State) : Ans :=
  onEvent s fun | .contextRestore c => (match s.ctx c with
                    | none => s
                    | some x => match x.saved with
                      | none => s
                      | some v =>
                        let l := v.cores.map Prod.fst
                        if x.phase = .restoring then
                          if v.overlays ≠ [] then (loadOverlays c s).later 1 (.contextRestore c)
                          else match s.overlaysDue c with
                            | some n => s.at_ (n + 1) (.contextRestore c)
                            | none => finishRestore c x v s
                        else if x.phase ≠ .saved || !(s.part x.part).any fun p => !p.quiesced then s
                        else if !s.coresFree c l || s.ahead c l then s.displace x.prio c l
                        else
                          let s := l.foldl (fun s k => s.modCore k fun y => { y with holder := some c }) s
                          (loadOverlays c ((s.modCtx c fun x => { x with phase := .restoring, waitSince := none }).serve 1)).later 5319 (.contextRestore c))
                | _ => s

end Sys2Proof.Machine
end

