-- ==== Sys2Proof/Machine/Records.lean ====
section
/-!
DEFINITION. Where trap records go: the trap ring (R361, R362) and the fault queue (R364, R381).
-/

namespace Sys2Proof.Machine

/-- The 64 bytes of a record with its sequence number (R361). -/
def recordBytes (r : TrapRecord) (seq : Nat) : List Byte :=
  [r.w0, r.handle, r.pc, r.value, r.insn, r.cycle, word seq, 0].flatMap (bytesOfWord 8)

/-! ### The trap ring (R362) -/

/-- PCOUNT and CCOUNT of a partition's ring. -/
def ringCounts (s : State) (q : Part) : Nat × Nat := (ofBytes (memRead s.mem (q.trbase + 4096) 8), ofBytes (memRead s.mem (q.trbase + 4104) 8))
/-- A record is written: its slot, then PCOUNT, as a release. -/
def ringPut (q : Part) (r : TrapRecord) (s : State) : State :=
  let (n, _) := ringCounts s q
  let a := q.trbase + 64 * (n % 64)
  let s := (putRaw a (recordBytes r n) s).afterWrite a 64 0
  (putRaw (q.trbase + 4096) (toBytes 8 (n + 1)) s).afterWrite (q.trbase + 4096) 8 0
/-- The lines that the next n records of a ring, and PCOUNT, are written to. -/
def ringUnits (q : Part) (s : State) (n : Nat) : List LockUnit :=
  dedup ((List.range n).flatMap (fun i => linesOf (q.trbase + 64 * (((ringCounts s q).1 + i) % 64)) 64) ++ linesOf (q.trbase + 4096) 8)
/-- R362: a record that reaches the home is written if the ring has room and none waits; those that wait are written when room
has been made, first the ones that have waited longest, in the order of their handles. Lines under locks are waited for (R260). -/
def execTrapRecordWrite (s : State) : Ans :=
  onEvent s fun | .trapRecordWrite p r => (match s.part p with
                    | none => s
                    | some q =>
                      let (n, c) := ringCounts s q
                      let room := 64 - (n - c)
                      let write (n : Nat) : (State → State) → State :=
                        s.atUnits (.ring p r.handle.toNat) (orderKey (r.handle.toNat % 4096) 0) true (ringUnits q s n) fun s => s.later 1 (.trapRecordWrite p r)
                      if r = roomMade then write (min room q.ringWait.length) fun s =>
                        let s := s.modPart p fun q => { q with ringWait := q.ringWait.drop room }
                        (sortBy (fun r => r.handle.toNat) (q.ringWait.take room)).foldl (fun s r => ringPut q r s) s
                      else if q.ringWait ≠ [] || room = 0 then s.modPart p fun q => { q with ringWait := q.ringWait ++ [r] }
                      else write 1 (ringPut q r))
                | _ => s

/-! ### The fault queue (R364, R381) -/

/-- The key of a host address (log 17). -/
def hostKey (a : Word) : Nat := 2 ^ 51 + a.toNat % 2 ^ 51
/-- The records that a fault queue holds; none before its size is set (R381). -/
def Vf.fqSize (f : Vf) : Nat := if 6 ≤ f.fqLog && f.fqLog ≤ 16 then 2 ^ f.fqLog else 0
/-- The agent writes the next record, when the last one is acknowledged and there is room. The host answers when it likes
(log 3). -/
def State.fqSend (s : State) (p : Nat) : State :=
  match s.part p with
  | none => s
  | some q => match q.fqWait with
    | [] => s
    | r :: rest =>
      let f := s.vf p
      if s.onDeadLink (hostKey f.fqBase) then s.modPart p fun q => { q with fqWait := [] }
      else if q.fqOut ≠ 0 || f.fqSize ≤ f.fqProd.toNat - f.fqCons.toNat then s
      else if s.unready (hostKey f.fqBase) then s.later 1 (.faultQueueAck p)
      else
        let s := putRaw (hostKey f.fqBase + 64 * (f.fqProd.toNat % f.fqSize)) (recordBytes r f.fqProd.toNat) s
        let (n, s) := (s.modPart p fun q => { q with fqWait := rest, fqOut := 1 }).choose 4096
        s.later (n + 1) (.faultQueueAck p)
/-- R364: a record reaches the host agent. -/
def execFaultQueueWrite (s : State) : Ans :=
  onEvent s fun | .faultQueueWrite p r => (s.modPart p fun q => { q with fqWait := q.fqWait ++ [r] }).fqSend p
                | _ => s
/-- R364: the slot's write is acknowledged; FQPROD advances, and vector 0 fires if the queue was empty. -/
def execFaultQueueAck (s : State) : Ans :=
  onEvent s fun | .faultQueueAck p =>
                    if (s.part p).all fun q => q.fqOut = 0 then s.fqSend p
                    else
                      let f := s.vf p
                      let s := if f.fqProd = f.fqCons then s.fire (p + 1) 0 else s
                      let s := s.modVf p fun f => { f with fqProd := f.fqProd + 1 }
                      (s.modPart p fun q => { q with fqOut := 0 }).fqSend p
                | _ => s
/-- R381: a value outside FQCONS ... FQPROD is ignored. -/
def execFqconsWrite (s : State) : Ans :=
  onEvent s fun | .fqconsWrite p v =>
                    let f := s.vf p
                    if v.toNat < f.fqCons.toNat || f.fqProd.toNat < v.toNat then s
                    else (s.modVf p fun f => { f with fqCons := v }).fqSend p
                | _ => s

end Sys2Proof.Machine
end

