-- ==== Sys2Proof/Machine/Partitions.lean ====
section
/-!
DEFINITION. Partitions, the host and other devices: CREATE, RESIZE, DESTROY, KEY (R371-R378), contexts (R341, R357, R381), thread
commands (R381, R414), attestation (R387, R388), host accesses and snoops (R382, R383), links and fabric windows (R380, R385),
injection windows (R377), and the registers of the functions (R381).
-/

namespace Sys2Proof.Machine

/-! ### Partition records (R372-R374) -/

/-- Bytes of host memory. -/
def State.hostRead (s : State) (a : Word) (n : Nat) : List Byte := memRead s.mem (hostKey a) n
/-- A command that reads host memory waits until the host agent is usable (R399), and ends over a link that cannot recover (R380). -/
def State.withHost (s : State) (a : Word) (dead : State → State) (f : State → State) : State :=
  if s.onDeadLink (hostKey a) then dead s
  else if s.unready (hostKey a) then (match s.ev with | some e => s.later 1 e | none => s)
  else f s
/-- Field [hi:lo] of the bytes from o on. -/
def recField (bs : List Byte) (o hi lo : Nat) : Nat := wfield (wordOfBytes ((bs.drop o).take 8)) hi lo
/-- The windows of a record: n entries of two words from o on. -/
def recPairs (bs : List Byte) (o n : Nat) : List (Word × Word) :=
  (List.range n).map fun i => (wordOfBytes ((bs.drop (o + 16 * i)).take 8), wordOfBytes ((bs.drop (o + 16 * i + 8)).take 8))
/-- A partition as its record gives it (R372). -/
def partOf (bs : List Byte) : Part :=
  { gmask := recField bs 0 15 0, poolg := recField bs 0 26 16, sq := recField bs 0 30 27, weight := recField bs 0 35 32,
    supcore := recField bs 0 44 36, limcl := recField bs 8 15 0, limsl := recField bs 8 31 16, limch := recField bs 8 47 32,
    trbase := recField bs 16 51 13 * 2 ^ 13, fwd := recField bs 24 18 1 * 2, fab := recPairs bs 32 (recField bs 28 3 0),
    redw := recPairs bs 160 (recField bs 28 6 4), sroot := recField bs 224 51 12 * 2 ^ 12, saentry := word (recField bs 232 55 0),
    seentry := word (recField bs 240 55 0), sarg := word (recField bs 248 63 0), sstack := word (recField bs 256 55 0),
    sstacksz := recField bs 264 31 0, sctxid := recField bs 268 9 0, sslots := recField bs 270 7 0, record := bs }
/-- Bring-up has made the command processor, the clusters and the channels of some granules usable (R399). -/
def State.granulesReady (s : State) (gmask : Nat) : Bool :=
  s.pf.sched && (List.range 16).all fun g => !nbit gmask g || nbit s.pf.clusters g && (List.range 24).all fun i => nbit s.pf.chans (24 * g + i)
/-- What R373 asks of the granules, the pool and the places of a partition. -/
def State.shapeOk (s : State) (p : Nat) (q : Part) : Bool :=
  q.gmask ≠ 0 && s.parts.all (fun x => x.1 = p || x.2.gmask &&& q.gmask = 0) && q.poolg * q.nc * 2 ^ 21 ≤ q.windowSize && q.poolg ≤ 1536
    && 1 ≤ q.sq && q.sq ≤ 8 && q.sq ≤ q.ns && q.weight ≠ 0 && nbit q.gmask (q.supcore / 32)
    && windowBase p ≤ q.trbase && q.trbase + 8192 ≤ windowBase p + q.windowSize
/-- What R374 asks of the supervisor fields, and the limits of the record's counts. -/
def State.supervisorOk (s : State) (q : Part) (bs : List Byte) : Bool :=
  let entryOk (e : Word) : Bool := e ≠ 0 && !wbit e 0
  q.sslots ≠ 0 && (q.sslots % 16 = 0 || entryOk q.saentry) && (q.sslots < 16 || entryOk q.seentry) && q.sstacksz % 4096 = 0
    && recField bs 224 11 0 = 0 && (s.ctx q.sctxid).isNone && recField bs 268 15 10 = 0 && recField bs 0 47 45 = 0
    && recField bs 28 3 0 ≤ 8 && recField bs 28 6 4 ≤ 4
/-- PCMD ends with a status (R381). -/
def State.pcmdDone (s : State) (status : Nat) : State := { s with pf := { s.pf with status := status } }

/-! ### Zeroing (R376) -/

/-- A range of the module's memory is zeroed, with its lines' tags and what home slices hold of it. -/
def State.zeroRange (s : State) (a n : Nat) : State :=
  let out (l : Nat) : Bool := 256 * l < a / 256 * 256 || a + n ≤ 256 * l
  { s with mem := memClear s.mem a n, tags := s.tags.filter fun x => out x.1, lines := s.lines.filter fun x => out x.1
           locks := s.locks.filter fun l => match l.unit with | .line k => out (k / 256) | .sector _ _ => true
           broken := s.broken.filter fun | .line k => out (k / 256) | .sector _ _ => true }
/-- The pumps of granules are as new, and fill their channels with zeros in the background (R324). -/
def State.zeroPumps (s : State) (gmask : Nat) : State :=
  (List.range 384).foldl (fun s c =>
    if nbit gmask (c / 24) then { s with pumps := tset s.pumps c { fill := 196608 } }.later 48 (.zeroFillStep c) else s) s
/-- The cores and clusters of granules are as new; the debug modules keep their registers. -/
def State.zeroClusters (s : State) (gmask : Nat) : State :=
  let gone (core : Nat) : Bool := nbit gmask (core / 32)
  { s with cores := (s.cores.filter fun x => !gone x.1 || x.2.halted || x.2.drawSeq ≠ 0).map fun (n, k) => if gone n then (n, { halted := k.halted, drawSeq := k.drawSeq }) else (n, k)
           threads := s.threads.filter (fun x => !gone (coreOf x.1)), gangs := s.gangs.filter fun g => !gone (coreOf g.1)
           clusters := tmap (fun cl (k : Cluster) => if nbit gmask cl then { dbg := k.dbg, readyAt := k.readyAt } else k) s.clusters }

/-! ### CREATE (R373, R374) -/

/-- The supervisor threads start. -/
def startSupervisors (p : Nat) (q : Part) (s : State) : State :=
  let s := s.modCore q.supcore fun k => { k with lastA := 3, lastE := 7 }
  forUpto 8 s fun i s =>
    if !nbit q.sslots i then s
    else
      let h := 8 * q.supcore + i
      let t := startThread (s.thread h) (if i < 4 then q.saentry else q.seentry) q.sarg (q.sstack + word ((i + 1) * q.sstacksz)) q.sctxid true
      s.place h { t with seq := { t.seq with x := t.seq.x.set 2 (word p) }, run := .ready, notBefore := s.cycle }
/-- Fabric windows become active once the other device confirms them; when and whether it does is not this device's (R385,
log 3). -/
def offerWindows (p : Nat) (q : Part) (s : State) : State :=
  if !s.pf.joined then s
  else forUpto q.fab.length s fun i s => match s.choose 65536 with
    | (0, s) => s
    | (n + 1, s) => s.later (n + 1) (.fabricWindowActivate p i)
/-- R373, R374: the record is checked, the units are zeroed, and 4,096 cycles later the supervisor threads start. -/
def execCreate (s : State) : Ans :=
  onEvent s fun | .create p arg => (match s.part p with
                    | some q =>
                      if q.creating then ((startSupervisors p q s).modPart p fun q => { q with creating := false }).pcmdDone 0
                      else s.pcmdDone 2
                    | none => s.withHost (word arg) (·.pcmdDone 2) fun s =>
                      let bs := s.hostRead (word arg) 272
                      let q := partOf bs
                      if !s.granulesReady q.gmask || !s.shapeOk p q || !s.supervisorOk q bs then s.pcmdDone 2
                      else
                        let s := ((s.zeroRange (windowBase p) (2 ^ 41)).zeroPumps q.gmask).zeroClusters q.gmask
                        let s := { s with parts := tset s.parts p { q with creating := true }
                                          ctxs := tset s.ctxs q.sctxid { part := p, super := true, prio := 3, root := q.sroot } }
                        let s := s.modCore q.supcore fun k => { k with holder := some q.sctxid }
                        (offerWindows p q s).later 4096 (.create p arg))
                | _ => s

/-! ### Leaving -/

/-- An agenda entry about cores, contexts, pumps or a partition that go. -/
def goes (core ctx chan part : Nat → Bool) (e : Event) : Bool :=
  let th (h : Nat) : Bool := core (coreOf h)
  match e with
  | .tlbiRetire h | .parkRequestEffect h | .barrierArrival h | .barrierTimeout h _ | .tstartReady h | .texitRetire h | .yieldWake h _
  | .gangForm h _ | .gangTimeout h _ | .recvWake h | .channelClaim h | .monitorWake h _ | .mwaitTimeout h _ | .cntwWake h _ | .queueWake h
  | .tableChangeAck h _ | .qldEntryArrival h _ _ _ _ | .sfuComplete _ h | .cisternRowMove h _ | .mldcPerform h _ _ | .mspwEntryArrival h _ _
  | .operandArrival h _ _ | .multicastRegister h _ _ | .groupWatchdogExpiry h _ | .wellStoreLand h _ _ _ _ | .tileLockGrant h _
  | .redAck h _ _ _ | .tlbWalkComplete h _ _ | .hashAccessComplete h => th h
  | .ovldStatus r _ => th r.h
  | .supervisorOpArrival op => op.issuer.any th
  | .supervisorReply op _ => op.issuer.any th
  | .flitArrival _ dst _ _ _ => th dst
  | .inboxMessageArrival k c _ => core k || ctx c
  | .uiDelivery k | .drawTileClaim k _ _ | .drawTileLand k _ _ _ _ _ | .bodyStart k | .drawCompleteMessage k _ _ _ | .sfuStart k
  | .matrixStepStart k | .matrixStepEnd k => core k
  | .multicastLaunch cl _ => core (32 * cl)
  | .wellwinMirrorUpdate k _ _ => core k
  | .farAccessPerform r => if r.pump.isSome then r.pump.any chan else th r.h
  | .ovldAccept r => chan r.chan || th r.h
  | .overlayLoaded c _ _ | .kernelLaunchStart c | .pumpKernelSaveTimeout c | .launchPageQueue c _ | .zeroFillStep c => chan c
  | .tqRequestPerform r => part r.part
  | .tqAnswer r _ => part r.part
  | .taskReinsert p _ _ | .trapRecordWrite p _ | .faultQueueWrite p _ | .faultQueueAck p | .fabricWindowActivate p _ => part p
  | .notifyWrite c _ | .kernelNode c _ | .copyNode c _ | .nearMemoryNode c _ | .configureNode c _ | .conditionNode c _ | .loopNode c _
  | .switchNode c _ | .nodeComplete c _ _ | .retiredUpdate c | .timeSliceExpiry c _ | .contextSave c _ | .contextRestore c
  | .contextComplete c | .barrierRelease _ c _ _ => ctx c
  | .contextDestroy p _ => part p
  | _ => false
/-- Translations of contexts leave every TLB and walker cache, and nothing waits for their walks any more. -/
def State.dropTranslations (s : State) (ctx : Nat → Bool) : State :=
  let keep (l : List TlbEntry) : List TlbEntry := l.filter fun e => !ctx e.ctx
  { s with cores := tmap (fun _ (k : Core) => { k with tlb := keep k.tlb }) s.cores
           clusters := tmap (fun _ (k : Cluster) => { k with tlb := keep k.tlb }) s.clusters
           dies := tmap (fun _ (k : Die) => { k with tlb := keep k.tlb, walk := k.walk.filter (fun w => !ctx w.1),
                                                     misses := tmap (fun _ (m : Miss) => if ctx m.ctx then { m with waits := [], engines := [] } else m) k.misses }) s.dies }
/-- Everything of some contexts, cores, pumps and partitions that is under way is dropped. -/
def State.dropWork (s : State) (core ctx chan part : Nat → Bool) : State :=
  let mine (a : TAcc) : Bool := match a.done with
    | .push c => chan c
    | .copyRead id => (tfind s.copies id).all fun y => ctx y.ctx
    | .copyWrite id => (tfind s.copies id).all fun y => ctx y.ctx
    | _ => core (coreOf a.h)
  let gone := (s.taccs.filter fun a => mine a.2).map Prod.fst ++ (s.bks.filter fun b => ctx b.2.ctx).map Prod.fst
  let out (e : Event) : Bool := goes core ctx chan part e || match e with
    | .tileLockGrant _ id | .bkProbeStart id | .bkStep id | .bkComplete id => gone.contains id
    | _ => false
  { s.dropEvents out with
    injWait := s.injWait.filter fun w => !out w.ev, taccs := s.taccs.filter fun a => !mine a.2, locks := s.locks.filter fun l => !gone.contains l.acc
    copies := s.copies.filter fun y => !ctx y.2.ctx, bks := s.bks.filter fun b => !ctx b.2.ctx
    gangs := s.gangs.filter fun g => !core (coreOf g.1) }
/-- R373: DESTROY saves nothing; the partition's contexts, tasks and key slots go with it, and its units are zeroed. -/
def execDestroy (s : State) : Ans :=
  onEvent s fun | .destroy p => (match s.part p with
                    | none => s.pcmdDone 2
                    | some q =>
                      let cs := (s.ctxs.filter fun x => x.2.part = p).map Prod.fst
                      let s := s.dropWork (fun k => nbit q.gmask (k / 32)) cs.contains (fun c => nbit q.gmask (c / 24)) (· = p)
                      let s := (s.dropTranslations cs.contains).zeroClusters q.gmask
                      let s := { s with pumps := s.pumps.filter fun c => !nbit q.gmask (c.1 / 24), ctxs := s.ctxs.filter fun x => x.2.part ≠ p
                                        parts := terase s.parts p }
                      let s := s.modVf p fun f => { f with ctxStatus := if f.ctxStatus = 1 then 2 else f.ctxStatus }
                      (s.zeroRange (windowBase p) (2 ^ 41)).pcmdDone 0)
                | _ => s

/-! ### RESIZE (R375) -/

/-- The partition with the granules and the pool of a new record. -/
def resized (q : Part) (bs : List Byte) : Part :=
  let w0 := wordOfBytes (q.record.take 8)
  let new := wordOfBytes (bs.take 8)
  { q with gmask := recField bs 0 15 0, poolg := recField bs 0 26 16
           record := bytesOfWord 8 (w0 - word (wfield w0 26 0) + word (wfield new 26 0)) ++ q.record.drop 8 }
/-- Nothing of the partition's user contexts runs; nodes that were being evaluated or applied have come to their ends. -/
def State.quiet (s : State) (p : Nat) : Bool :=
  s.ctxs.all fun (c, x) => x.part ≠ p || x.super || (x.phase = .idle && x.nodes.all (fun n => !nodeOpen n.2 || n.2.startAt.isNone) || x.phase = .saved) && s.copies.all (fun y => y.2.ctx ≠ c)
    && s.bks.all (fun b => b.2.ctx ≠ c) && s.pumps.all fun u => u.2.kernel.all (fun k => k.1.ctx ≠ c) && u.2.queue.all (·.ctx ≠ c)
/-- The resident user contexts of a partition are saved; one that is being restored is saved once it is resident (R375). -/
def State.saveResidents (s : State) (p : Nat) : State :=
  s.ctxs.foldl (fun s (c, x) => if x.part = p && !x.super && x.phase = .resident then s.beginSave c else s) s
/-- Steps 2 to 5 of R375 take effect. -/
def migrate (p : Nat) (q new : Part) (s : State) : State :=
  let kept := min q.hashed new.hashed
  let left := q.gmask - (q.gmask &&& new.gmask)
  let come := new.gmask - (q.gmask &&& new.gmask)
  let s := s.zeroRange (windowBase p + kept) (2 ^ 41 - kept)
  let s := { s with lines := s.lines.filter fun x => x.1 / 2 ^ 33 ≠ p }
  let s := (s.zeroClusters (left + come)).zeroPumps come
  let s := { s with pumps := s.pumps.filter fun c => !nbit left (c.1 / 24), parts := tset s.parts p { new with quiesced := false, next := [], creating := false } }
  let s := s.ctxs.foldl (fun s (c, x) =>
    if x.part = p && x.saved.any fun v => v.cores.any fun k => !nbit new.gmask (k.1 / 32) then
      (failCtx c 6 (word x.retired) 0 s).modCtx c fun x => { x with saved := none }
    else s) s
  let s := s.ctxs.foldl (fun s (c, x) =>
    if x.part = p && x.phase = .idle then x.nodes.foldl (fun s (n, y) => if y.phase = .waiting && y.queued then s.later 0 (nodeEvent y c n) else s) s
    else s) s
  (s.serve 1).pcmdDone 0
/-- R375: the record is taken up with the command; the partition is quiesced, its lines move at 64 bytes a cycle and channel, and the new granules take effect. -/
def execResize (s : State) : Ans :=
  onEvent s fun | .resize p arg => (match s.part p with
                    | none => s.pcmdDone 2
                    | some q => (if q.quiesced then fun f => f s else s.withHost (word arg) (·.pcmdDone 2)) fun s =>
                      let rec_ := s.hostRead (word arg) 272
                      let new := resized q (if q.quiesced then q.next else rec_)
                      if q.quiesced then
                        if q.creating then migrate p q new s
                        else if !s.quiet p then (s.saveResidents p).later 1 (.resize p arg)
                        else (s.modPart p fun q => { q with creating := true }).later (ceilDiv (min q.hashed new.hashed) (64 * max q.nc 1)) (.resize p arg)
                      else if q.creating || !s.granulesReady new.gmask || !s.shapeOk p new then s.pcmdDone 2
                      else
                        ((s.modPart p fun q => { q with quiesced := true, next := rec_ }).saveResidents p).later 1 (.resize p arg))
                | _ => s

/-! ### KEY (R378, R388) -/

/-- The first n bytes of a list, zeros behind it. -/
def fit (n : Nat) (l : List Byte) : List Byte := (l ++ List.replicate n 0).take n
/-- Lines that slices hold written will be written back under a slot's new key (R378). -/
def State.rekeyHeld (s : State) (p slot : Nat) : State :=
  let mine (l : Nat) (x : HeldLine) : Bool := x.dirty = some slot && (s.owner (256 * l)).any (·.1 = p)
  { s with tags := s.lines.foldl (fun t (l, x) => if mine l x then ((s.keyTag (256 * l) slot).map (tset t l)).getD t else t) s.tags }
/-- R378: a key pair of 64 bytes is loaded into a slot; the load is noted for reports (R388). -/
def execKey (s : State) : Ans :=
  onEvent s fun | .key p slot arg => (match s.part p with
                    | none => s.pcmdDone 2
                    | some _ => s.withHost (word arg) (·.pcmdDone 2) fun s =>
                      let k := s.hostRead (word arg) 64
                      ((s.modPart p fun q => { q with keys := tset q.keys slot (ofBytes k)
                                                      keyHist := q.keyHist ++ [BitVec.ofNat 8 slot] ++ fit 48 (Config.sha384 k) }).rekeyHeld p slot).pcmdDone 0)
                | _ => s

/-! ### Contexts (R341, R357, R381) -/

/-- CTXCMD ends with a status. -/
def State.ctxDone (s : State) (p status : Nat) : State := s.modVf p fun f => { f with ctxStatus := status }
/-- A context as its record gives it (R341). -/
def ctxOf (p : Nat) (bs : List Byte) : Ctx :=
  let ts := recField bs 28 31 0
  { part := p, prio := recField bs 2 1 0, root := (wordAt bs 1).toNat, qbase := wordAt bs 2, qsize := recField bs 24 31 0,
    tslice := if ts = 0 then 2800000 else ts, notify := wordAt bs 4, mapva := wordAt bs 5, save := (wordAt bs 6).toNat }
/-- The limits that R341 states, but for the notify word's page. -/
def ctxLimits (bs : List Byte) (x : Ctx) : Bool :=
  recField bs 0 15 10 = 0 && recField bs 2 7 2 = 0 && x.root % 4096 = 0 && x.qbase.toNat % 64 = 0 && 16 ≤ x.qsize && x.qsize ≤ 65536
    && 2 ^ Nat.log2 x.qsize = x.qsize && x.notify.toNat % 16 = 0
/-- R341: the context is created, or its record is refused. -/
def execContextCreate (s : State) : Ans :=
  onEvent s fun | .contextCreate p => (match s.part p with
                    | none => s.ctxDone p 2
                    | some _ => s.withHost (s.vf p).ctxArg (fun s => s.ctxDone p 2) fun s =>
                      let bs := s.hostRead (s.vf p).ctxArg 64
                      let c := recField bs 0 9 0
                      let x := ctxOf p bs
                      let mine := (s.ctxs.filter fun y => y.2.part = p && !y.2.super).length
                      if !ctxLimits bs x || (s.ctx c).isSome || 64 ≤ mine || 1024 ≤ s.ctxs.length then s.ctxDone p 2
                      else
                        let t := { s with ctxs := tset s.ctxs c x }
                        match t.translateNow (cmdView c) x.notify .write with
                        | (.ok ph, t) => if ph.nc then t.ctxDone p 0 else s.ctxDone p 2
                        | (.error _, _) => s.ctxDone p 2)
                | _ => s
/-- The context is gone: what it held is free. -/
def eraseCtx (p c : Nat) (s : State) : State :=
  let s := s.dropWork (fun _ => false) (· = c) (fun _ => false) (fun _ => false)
  let (_, s) := takeLaunches c s
  let (_, s) := takeOverlays c s
  let s := (s.freeCores c).dropTranslations (· = c)
  ({ s with ctxs := terase s.ctxs c }.serve 1).ctxDone p 0
/-- R381, R357: a context is destroyed: its threads stop, what they have under way is performed, and held tasks go back. -/
def execContextDestroy (s : State) : Ans :=
  onEvent s fun | .contextDestroy p c => (match s.ctx c with
                    | none => s.ctxDone p 2
                    | some x =>
                      if x.part ≠ p || x.super then s.ctxDone p 2
                      else if x.phase = .idle || x.phase = .saved then eraseCtx p c s
                      else if x.phase = .restoring then s.later 1 (.contextDestroy p c)
                      else
                        let s := s.modCtx c fun x => { x with phase := .saving, saveStage := 3, failed := true, sliceLeft := none }
                        let s := (s.ctxThreads c).foldl (fun s h => stopThread h s) s
                        let s := stopCopies c (askPumps c (takeLaunches c s).2)
                        if s.drained c then eraseCtx p c s else s.later 1 (.contextDestroy p c))
                | _ => s

/-! ### Thread commands (R381, R414) -/

/-- THRCMD acts as the partition's supervisor: its checks at the hub die, then the operation 55 cycles later. -/
def threadCommand (p : Nat) (kind : SupKind) (s : State) : State :=
  let f := s.vf p
  let op : SupOp := { part := p, issuer := none, kind := kind, handle := word f.thandle, sel := word f.thsel, value := f.thval, rd := 0 }
  match supCheck s p kind op.handle op.sel op.value with
  | some (c, v) => s.later 110 (.supervisorReply op (.refused c v))
  | none => s.later 55 (.supervisorOpArrival op)
/-- R381. -/
def execThreadRead (s : State) : Ans :=
  onEvent s fun | .threadRead p => threadCommand p .read s
                | _ => s
/-- R381. -/
def execThreadWrite (s : State) : Ans :=
  onEvent s fun | .threadWrite p => threadCommand p .write s
                | _ => s
/-- R381. -/
def execThreadResume (s : State) : Ans :=
  onEvent s fun | .threadResume p => threadCommand p .resume s
                | _ => s

/-! ### Attestation (R388) -/

/-- Bytes 0 to 287 of a report. -/
def reportBody (s : State) (p : Nat) (q : Part) (nonce : List Byte) : List Byte :=
  toBytes 4 1 ++ toBytes 4 p ++ fit 16 Config.serial ++ fit 48 (Config.sha384 (Config.hubImage s.pf.images)) ++ fit 48 (Config.sha384 ((List.range 12).flatMap (Config.baseImage s.pf.images)))
    ++ fit 48 (Config.sha384 q.record) ++ fit 48 (Config.sha384 q.keyHist) ++ fit 32 nonce ++ List.replicate 40 0
/-- R388. -/
def execAttest (s : State) : Ans :=
  onEvent s fun | .attest p =>
                    s.withHost (s.vf p).attestAddr (fun s => s.modVf p fun f => { f with attestGo := false }) (fun s =>
                    let f := s.vf p
                    let s := s.modVf p fun f => { f with attestGo := false }
                    match s.part p with
                    | none => s
                    | some q =>
                      let b := reportBody s p q (s.hostRead f.attestAddr 32)
                      putRaw (hostKey f.attestAddr + 64) (b ++ fit 96 (Config.sign b)) s)
                | _ => s

/-! ### Host accesses, snoops and links (R380, R382, R383) -/

/-- A host atomic has read one of the bytes and still has to write it: the host's atomics and stores come one after another (R278). -/
def State.hostBusy (s : State) (p off n : Nat) : Bool :=
  s.agenda.any fun x => match x.2 with
    | .hostMemAccess o f _ (some a) => a.writes && o = p && rangeMeets f a.size off n
    | _ => false
/-- A host atomic (R278, R382): on a page with SA = 1 in one step, in the host's cache; on one with SA = 0 it reads its word and
writes it later, and a device atomic may come between. -/
def hostAtomic (p off key : Nat) (a : HostAtom) (st : Option (List Byte)) (s : State) : State :=
  let put (bs : List Byte) (s : State) : State := (putRaw key bs s).afterWrite key a.size 0
  if a.writes then put (st.getD []) s
  else
    let new := toBytes a.size (amoNew a.op a.size (ofBytes (memRead s.mem key a.size)) a.b.toNat a.c.toNat).1
    if a.sa then put new s
    else
      let (n, s) := s.choose 4096
      s.later (n + 1) (.hostMemAccess p off (some new) (some { a with writes := true }))
/-- What the host reaches: base and size of a partition's window, and as number 16 its own memory. -/
def State.hostRange (s : State) (p : Nat) : Option (Nat × Nat) :=
  if p = 16 then some (2 ^ 51, 2 ^ 51) else (s.part p).map fun q => (windowBase p, q.windowSize)
/-- The host takes back lines of its own memory that the agent holds (R383). -/
def State.snoopAgent (s : State) (ls : List Nat) : State :=
  ls.foldl (fun s l => if s.agenda.any fun x => x.2 = .hostSnoop l then s else s.later 0 (.hostSnoop l)) s
/-- R382: a host access to the partition's window is performed at its line's home, once the line's locks allow it; one to its own memory once
the agent has given the line up (R383). -/
def execHostMemAccess (s : State) : Ans :=
  onEvent s fun | .hostMemAccess p off st atom => (match s.hostRange p with
                    | none => s
                    | some (base, size) =>
                      let key := base + off
                      let n := match atom, st with | some a, _ => a.size | none, some bs => bs.length | none, none => 1
                      let held := if p = 16 then ((linesOf key n).map fun u => unitKey u / 256).filter fun l => (tfind s.hostLines l).isSome else []
                      if size < off + n then s
                      else if atom.all (fun a => !a.writes) && (st.isSome || atom.isSome) && s.hostBusy p off n then
                        s.later 1 (.hostMemAccess p off st atom)
                      else if held ≠ [] then (s.snoopAgent held).later 1 (.hostMemAccess p off st atom)
                      else s.atUnits (.host p off) (orderKey 4096 0) (st.isSome || atom.isSome) (linesOf key n) (fun s => s.later 1 (.hostMemAccess p off st atom))
                        fun s => match atom with
                      | some a => hostAtomic p off key a st s
                      | none => match st with
                        | none => s.holdLine key
                        | some bs => (putRaw key bs s).afterWrite key n 0)
                | _ => s
/-- R383: the agent gives a host line up, once no tile access that owns it is under way (R257). -/
def execHostSnoop (s : State) : Ans :=
  onEvent s fun | .hostSnoop line =>
                    if s.taccs.any fun (_, a) => (a.units.take a.got).contains (.line (256 * line))
                        && a.segs.any fun g => g.sa && g.well.isNone && (linesOf g.addr g.len).contains (.line (256 * line)) then
                      s.later 1 (.hostSnoop line)
                    else { s with hostLines := terase s.hostLines line }
                | _ => s
/-- R382: the host's copy of the line is invalid; what waits for that goes on. -/
def execBackInvalidateResponse (s : State) : Ans :=
  onEvent s fun | .backInvalidateResponse l => if s.biAsked.contains l then
                      { s with biAsked := s.biAsked.filter (· ≠ l), biDone := l :: s.biDone }
                    else s
                | _ => s
/-- R380: a flit is accepted if its CRC is right and it is the next one; another is discarded, or sent again. -/
def execLinkFlitReplay (s : State) : Ans :=
  onEvent s fun | .linkFlitReplay link n ok => if ok && n = tget 0 s.linkSeq link then { s with linkSeq := tset s.linkSeq link (n + 1) } else s
                | _ => s
/-- R380: the operations that are outstanding on the link end with cause 0x06; a slot of a fault queue is not written (log 24). -/
def execLinkFailure (s : State) : Ans :=
  onEvent s fun | .linkFailure link =>
                    (let mine (e : Event) : Option FarReq := match e with
                      | .farAccessPerform r => if !isWellKey r.addr && s.linkOf r.addr = some link then some r else none
                      | _ => none
                    let rs := s.agenda.filterMap (fun x => mine x.2) ++ s.injWait.filterMap fun w => mine w.ev
                    let s := if link ≠ 16 then s else s.parts.foldl (fun s (p, q) => if q.fqOut = 0 then s else s.modPart p fun q => { q with fqOut := 0 }) s
                    let s := { s.dropEvents (fun e => (mine e).isSome) with
                                injWait := s.injWait.filter fun w => (mine w.ev).isNone
                                linkDown := if s.linkDown.contains link then s.linkDown else link :: s.linkDown }
                    rs.foldl (fun s r => failFar r s) s)
                | _ => s
/-- R385: the other device has confirmed the entry. -/
def execFabricWindowActivate (s : State) : Ans :=
  onEvent s fun | .fabricWindowActivate p i => s.modPart p fun q =>
                    if i < q.fab.length && s.pf.joined && !q.fabActive.contains i then { q with fabActive := i :: q.fabActive } else q
                | _ => s

/-! ### Injection windows (R377) -/

/-- What waited for a request knows that it has entered, and when it will arrive. -/
def entryKnown (w : InjWait) (s : State) : State :=
  let at_ := s.cycle + w.after
  match w.ev with
  | .tileLockGrant _ id => (match tfind s.taccs id with
    | some a => { s with taccs := tset s.taccs id { a with reqAt := at_ } }
    | none => s)
  | .operandArrival h c idx => if (s.jobSince h c).isSome && w.point < 32 then s.modPrep h idx (Prep.setAt w.kind (some at_)) else s
  | .mspwEntryArrival h c idx => if (s.jobSince h c).isSome && w.point < 32 then s.modPrep h idx (Prep.setAt 0 (some at_)) else s
  | .copyPiece id => (match tfind s.copies id with
    | some c => s.setCopy id { c with held := false, t0 := if w.after = 0 then c.t0 else at_ }
    | none => s)
  | .tlbWalkComplete h va _ => s.modThread h fun t => { t with fetchIn := some (va, if w.point < 32 then 1 else 2) }
  | _ => s
/-- A request that waited enters: it leaves its cluster, or goes on at its home, where it may have to wait for the channel. -/
def enterLate (w : InjWait) (s : State) : State :=
  let go (s : State) : State := (entryKnown w s).later w.after w.ev
  match s.home w.line with
  | .slice _ ch => if 32 ≤ w.point && w.point < 160 && w.line ≠ 0 && !s.lineHeld w.line then s.admitAt { w with point := 160 + ch } go else go s
  | _ => go s
/-- Requests that combine into one while they wait at the same place (R252): loads of a sector, or one integer operation on a word. The order at
their home is then that of the first one; it comes after nothing that one of them has to follow. -/
def State.combines (s : State) (x y : Event) : Option Event :=
  match x, y with
  | .farAccessPerform q, .farAccessPerform r =>
    let free (r : FarReq) : Bool := !s.reqs.any fun x => s.mustFollow x r
    let word (op : AmoOp) : Bool := match op with
      | .swap | .cas | .fadd | .fmax => false
      | _ => true
    let loads : FarOp → Bool
      | .load .. | .fill _ => true
      | _ => false
    let atomic : FarOp → Option AmoOp
      | .amo op .. | .red op .. => some op
      | _ => none
    if q.pump.isNone && r.pump.isNone && free q && free r && (loads q.op && loads r.op && q.addr / 64 = r.addr / 64
        || (atomic q.op).any word && atomic q.op = atomic r.op && q.addr / 8 = r.addr / 8) then
      some (.farAccessPerform { r with lead := some (q.lead.getD (orderKey q.h q.sent)) })
    else none
  | _, _ => none
/-- R377: a new window; the requests that wait enter in their order as far as the new counts allow. Those that combine with one that
enters go with it, and count as one with it (R252). -/
def execInjectionWindowStart (s : State) : Ans :=
  onEvent s fun | .injectionWindowStart =>
                    (let old := s.injWait
                    let (_, s) := old.foldl (fun (ins, s) (w : InjWait) =>
                      let k := 16 * w.point + w.part
                      let n := tget 0 s.inj k
                      let same (x : InjWait) : Bool := x.point = w.point && x.part = w.part
                      let with_ := if w.point < 160 then ins.findSome? fun x => if same x then s.combines x.ev w.ev else none else none
                      match with_ with
                      | some e => (ins, enterLate { w with ev := e } s)
                      | none =>
                        if !s.injWait.any same && (n = 0 || n + w.bytes ≤ 64 * s.limitAt w.point w.part) then
                          (ins ++ [w], enterLate w { s with inj := tset s.inj k (n + w.bytes) })
                        else (ins, { s with injWait := s.injWait ++ [w] })) (([] : List InjWait), { s with inj := [], injWait := [] })
                    if s.injWait = [] then s else s.windowSet)
                | _ => s

/-! ### Registers (R5, R381, R389, R390, R398, R400, R402) -/

/-- A write of PCMD starts its command; while one is under way, a write is ignored. -/
def writePcmd (v : Word) (s : State) : State :=
  if s.pf.status = 1 then s
  else
    let op := wfield v 3 0
    let p := wfield v 7 4
    let arg := wfield v 63 16
    let s := { s with pf := { s.pf with op := op, part := p, slot := wfield v 11 8, arg := word arg } }
    let go (e : Event) : State := { s with pf := { s.pf with status := 1 } }.later 0 e
    match op with
    | 1 => go (.create p arg)
    | 2 => go (.resize p arg)
    | 3 => go (.destroy p)
    | 4 => go (.key p (wfield v 11 8) arg)
    | _ => s
/-- A write of RESET (R400): 0x5A starts a reset, unless one is in progress. How long it takes and the index that bring-up
assigns (R384) are the device's (log 3). -/
def writeReset (v : Word) (s : State) : State :=
  if wfield v 7 0 ≠ 0x5A || s.pf.resetting then s
  else
    let (n, s) := s.choose 65536
    let (i, s) := s.choose 32
    { s with pf := { s.pf with resetting := true } }.later n (.moduleReset (BitVec.ofNat 4 (if i < 16 then i else 0)) (i < 16))
/-- A write of a register that every function has and that only holds what is written (R381). -/
def Vf.write (f : Vf) (a : Nat) (v : Word) : Vf :=
  if a = 0x048 then { f with ctxArg := v }
  else if a = 0x100 then { f with fqBase := word (wfield v 63 12 * 4096) }
  else if a = 0x108 then { f with fqLog := wfield v 4 0 }
  else if a = 0x208 then { f with thandle := wfield v 11 0 }
  else if a = 0x210 then { f with thsel := wfield v 15 0 }
  else if a = 0x218 then { f with thval := v }
  else if a = 0x300 then { f with attestAddr := word (wfield v 63 6 * 64) }
  else f
/-- The same for the physical function, whose commands on contexts and threads name no partition and are refused (log 24). -/
def Vf.writeOwn (f : Vf) (a : Nat) (v : Word) : Vf :=
  if a = 0x040 then { f with ctxOp := wfield v 1 0, ctxId := wfield v 11 2, ctxStatus := if wfield v 1 0 = 1 || wfield v 1 0 = 2 then 2 else f.ctxStatus }
  else if a = 0x200 then { f with thrOp := wfield v 1 0, thrStatus := if wfield v 1 0 = 0 then f.thrStatus else 2 }
  else f.write a v
/-- The registers of the physical function. -/
def writePf (a : Nat) (v : Word) (s : State) : State :=
  if a = 0x000 then writePcmd v s
  else if a = 0x440 then writeReset v s
  else if a = 0x448 then
    let w := wfield v 11 0
    { s with pf := { s.pf with pwrcap := if 1 ≤ w && w ≤ 999 then 1000 else w } }
  else { s with pf := { s.pf with own := s.pf.own.writeOwn a v } }
/-- The registers of virtual function p + 1. -/
def writeVf (p a : Nat) (v : Word) (s : State) : State :=
  let f := s.vf p
  let m (g : Vf → Vf) : State := s.modVf p g
  if a = 0x040 then
    if f.ctxStatus = 1 then s
    else
      let op := wfield v 1 0
      let s := m fun f => { f with ctxOp := op, ctxId := wfield v 11 2, ctxStatus := if op = 1 || op = 2 then 1 else f.ctxStatus }
      if op = 1 then s.later 0 (.contextCreate p) else if op = 2 then s.later 0 (.contextDestroy p (wfield v 11 2)) else s
  else if a = 0x108 then (m (·.write a v)).fqSend p
  else if a = 0x118 then s.later 0 (.fqconsWrite p v)
  else if a = 0x200 then
    if f.thrStatus = 1 then s
    else
      let op := wfield v 1 0
      let s := m fun f => { f with thrOp := op, thrStatus := if op = 0 then f.thrStatus else 1 }
      if op = 1 then s.later 0 (.threadRead p) else if op = 2 then s.later 0 (.threadWrite p) else if op = 3 then s.later 0 (.threadResume p) else s
  else if a = 0x300 then
    let s := m fun f => { f.write a v with attestGo := wbit v 0 }
    if wbit v 0 then s.later 0 (.attest p) else s
  else m (·.write a v)
/-- The registers of the debug module of granule g (R390). -/
def writeDbg (g a : Nat) (v : Word) (s : State) : State :=
  let m (f : Dbg → Dbg) : State := s.modCluster g fun k => { k with dbg := f k.dbg }
  if a = 0x00 then m fun d => { d with ctl := v &&& 0xFFFF0007 }
  else if a = 0x10 then
    let op := wfield v 1 0
    let s := m fun d => { d with cmdOp := op }
    if op = 1 then s.later 0 (.dbgHalt g) else if op = 2 then s.later 0 (.dbgRun g) else if op = 3 then s.later 0 (.dbgInvi g) else s
  else if a = 0x18 then m fun d => { d with brkBase := word (wfield v 51 6 * 64) }
  else if a = 0x20 then m fun d => { d with brkLog := wfield v 4 0, brkVa := word (wfield v 55 16 * 2 ^ 16) }
  else if a = 0x28 then m fun d => { d with hnd := word (wfield v 11 0) }
  else if a = 0x30 then m fun d => { d with sel := word (wfield v 35 0) }
  else if a = 0x38 then m fun d => { d with val := v }
  else if a = 0x40 then
    let op := wfield v 1 0
    let s := m fun d => { d with accOp := op }
    if op = 1 then s.later 0 (.dbgRead g) else if op = 2 then s.later 0 (.dbgWrite g) else s
  else if a = 0x48 then m fun d => { d with trcBase := word (wfield v 51 12 * 4096) }
  else if a = 0x50 then m fun d => { d with trcLog := wfield v 4 0, trcEv := wfield v 13 8 }
  else s
/-- What a read of the readiness registers answers, of every function (R398). -/
def readReady (p : Pf) (a : Nat) : Word :=
  if a = 0x400 then word (p.clusters % 2 ^ 16 + b2n p.sched * 2 ^ 16 + b2n p.hostAgt * 2 ^ 17 + p.links % 2 ^ 16 * 2 ^ 18)
  else if 0x408 ≤ a && a ≤ 0x430 && a % 8 = 0 then word (p.chans / 2 ^ (64 * ((a - 0x408) / 8)) % 2 ^ 64)
  else if a = 0x438 then word (p.hub + b2n p.baseFail * 2 ^ 2 + p.version % 2 ^ 16 * 2 ^ 16)
  else if a = 0x450 then word (p.devIdx + b2n p.joined * 2 ^ 4)
  else 0
/-- The registers that every function has (R381). -/
def readOwn (pf : Pf) (f : Vf) (a : Nat) : Word :=
  if a = 0x040 then word (f.ctxOp + f.ctxId * 2 ^ 2 + f.ctxStatus * 2 ^ 12)
  else if a = 0x048 then f.ctxArg
  else if a = 0x100 then f.fqBase
  else if a = 0x108 then word f.fqLog
  else if a = 0x110 then f.fqProd
  else if a = 0x118 then f.fqCons
  else if a = 0x200 then word (f.thrOp + f.thrStatus * 2 ^ 2)
  else if a = 0x208 then word f.thandle
  else if a = 0x210 then word f.thsel
  else if a = 0x218 then f.thval
  else if a = 0x300 then f.attestAddr + word (b2n f.attestGo)
  else readReady pf a
/-- The registers of the physical function (R381, R402). RESET is only written (R400). -/
def readPf (p : Pf) (a : Nat) : Word :=
  if a = 0x000 then word (p.op + p.part * 2 ^ 4 + p.slot * 2 ^ 8 + p.status * 2 ^ 12 + p.arg.toNat * 2 ^ 16)
  else if a = 0x448 then word p.pwrcap
  else readOwn p p.own a
/-- The registers of a debug module (R390). -/
def readDbg (d : Dbg) (a : Nat) : Word :=
  if a = 0x00 then d.ctl
  else if a = 0x08 then word (b2n d.halted + b2n d.frozen * 2 + d.src * 2 ^ 8 + b2n d.ext * 2 ^ 16)
  else if a = 0x10 then word d.cmdOp
  else if a = 0x18 then d.brkBase
  else if a = 0x20 then d.brkVa + word d.brkLog
  else if a = 0x28 then d.hnd
  else if a = 0x30 then d.sel
  else if a = 0x38 then d.val
  else if a = 0x40 then word (d.accOp + d.accStatus * 2 ^ 2)
  else if a = 0x48 then d.trcBase
  else if a = 0x50 then word (d.trcLog + d.trcEv * 2 ^ 8)
  else if a = 0x58 then d.trcPos
  else if a = 0x60 then d.trcLost
  else 0
/-- What a read of a register of function `fn` answers the host; it changes nothing (R381, R389, R398). -/
def State.registerRead (s : State) (fn a : Nat) : Word :=
  if 0x1000 ≤ a && a < 0x2000 then
    let g := (a - 0x1000) / 0x100
    if fn = 0 || s.partOfCluster g = some (fn - 1) then readDbg (s.cluster g).dbg (a % 0x100) else 0
  else if fn = 0 then readPf s.pf a
  else if fn ≤ 16 then readOwn s.pf (s.vf (fn - 1)) a
  else 0
/-- R5, R381, R389: a write of a register of function `fn`, 0 the physical one. A virtual function reaches the debug modules
of its own partition only. -/
def execRegisterWrite (s : State) : Ans :=
  onEvent s fun | .registerWrite fn a v =>
                    if 0x1000 ≤ a && a < 0x2000 then
                      let g := (a - 0x1000) / 0x100
                      if fn = 0 || s.partOfCluster g = some (fn - 1) then writeDbg g (a % 0x100) v s else s
                    else if fn = 0 then writePf a v s
                    else if fn ≤ 16 then writeVf (fn - 1) a v s
                    else s
                | _ => s

end Sys2Proof.Machine
end

