-- ==== Sys2Proof/Machine/Debug.lean ====
section
/-!
DEFINITION. The debug modules (R389-R395), bring-up (R398-R401), module reset (R400), power and heat (R402).
-/

namespace Sys2Proof.Machine

/-! ### Halting and running (R392-R394) -/

/-- R392: a command halts the cluster from core (0,0). -/
def execDbgHalt (s : State) : Ans :=
  onEvent s fun | .dbgHalt g => haltCluster g (32 * g) 0 true s
                | _ => s
/-- R392: a trigger halts the cluster while TRIGIN is set. -/
def execHaltTriggerArrival (s : State) : Ans :=
  onEvent s fun | .haltTriggerArrival g => if wbit (s.cluster g).dbg.ctl 2 then haltCluster g (32 * g) 0 true s else s
                | _ => s
/-- A core stops. -/
def stopCore (core : Nat) (s : State) : State :=
  let s := s.modCore core fun k => { k with halted := true }
  let s := forUpto 8 s fun i s =>
    let h := 8 * core + i
    if liveThread (s.thread h) then s.modThread h fun t => { t with dbgStop := true } else s
  s.noteFrozen (core / 32)
/-- A core runs again (R394): its threads are back in their rotations in this cycle and issue in the next (R9), one stopped by HALT
behind it (R68), and the core's engines look for work. -/
def runCore (core : Nat) (s : State) : State :=
  let s := s.modCore core fun k => { k with halted := false }
  let s := forUpto 8 s fun i s =>
    let h := 8 * core + i
    if liveThread (s.thread h) then
      s.modThread h fun t =>
        { t with dbgStop := false, run := if t.run = .halted then .ready else t.run, notBefore := if t.dbgStop then max t.notBefore (s.cycle + 1) else t.notBefore }
    else s
  let s := forUpto 4 s fun i s => registerAgain (8 * core + i) s
  let s := ((s.later 0 (.matrixStepStart core)).later 0 (.bodyStart core)).sfuNext core
  if (s.core core).inbox = [] then s else s.uiLater core
/-- R392, R394: a core stops, or runs again. -/
def execCoreHaltStop (s : State) : Ans :=
  onEvent s fun | .coreHaltStop core stop => if stop then stopCore core s else runCore core s
                | _ => s
/-- The slices of contexts with no halted cluster go on (R393). -/
def resumeSlices (s : State) : State :=
  s.ctxs.foldl (fun s (c, x) => match x.sliceLeft with
    | some n =>
      if x.phase ≠ .resident || s.ctxHalted c then s
      else (s.modCtx c fun x => { x with sliceAt := s.cycle + n, sliceLeft := none }).later (n + 1) (.timeSliceExpiry c (s.cycle + n))
    | none => s) s
/-- The cores of a cluster run again 2 + h cycles later (R394). A core that a halt before this RUN would still stop then does not stop
(log 24). -/
def State.runCores (s : State) (g : Nat) : State :=
  forUpto 32 s fun i s =>
    let core := coreIn g i
    let due := s.cycle + 2 + hops (32 * g) core
    let s := { s with agenda := s.agenda.filter fun x => !(x.2 = Event.coreHaltStop core true && due ≤ x.1) }
    s.at_ due (.coreHaltStop core false)
/-- R394, R402: every core runs again 2 + h cycles later; while a die is too hot, RUN has no effect. In a cluster that is not halted it
returns the threads that HALT has stopped (R68). -/
def execDbgRun (s : State) : Ans :=
  onEvent s fun | .dbgRun g =>
                    if s.dies.any fun d => d.2.hot then s
                    else if !(s.cluster g).dbg.halted then s.runCores g
                    else
                      let s := traceEvent g 3 (256 * g) 0 (s.thread (256 * g)).seq.pc s
                      let s := s.modCluster g fun k => { k with dbg := { k.dbg with halted := false, frozen := false } }
                      let s := resumeSlices (s.resumeTimed g)
                      let s := s.copies.foldl (fun s (id, c) =>
                        if c.node.isNone && c.core / 32 = g && c.kind ≠ .cpyt && !c.held then s.later 2 (.copyPiece id) else s) s
                      (s.runCores g).serve 1
                | _ => s
/-- R390: instruction caches and fetch buffers are discarded. -/
def execDbgInvi (s : State) : Ans :=
  onEvent s fun | .dbgInvi g => { s with cores := tmap (fun n (k : Core) => if n / 32 = g then { k with icache := [] } else k) s.cores }
                | _ => s

/-! ### Reading and writing state (R395) -/

/-- What an access of DBGACC names, if R395 allows it: class, thread, offset. -/
def dbgTarget (g : Nat) (write : Bool) (s : State) : Option (Nat × Nat × Nat) :=
  let d := (s.cluster g).dbg
  let h := d.hnd.toNat
  let cls := wfield d.sel 15 12
  let off := wfield d.sel 35 16
  let sel := word (wfield d.sel 15 0)
  let live := liveThread (s.thread h)
  let ok : Bool :=
    if cls = 6 then off % 8 = 0 && off + 8 ≤ 2 ^ 20
    else if cls = 7 then off % 8 = 0 && off + 8 ≤ 262144
    else cls ≤ 4 && selectorOk sel h && (cls = 0 || live) && !(write && cls = 2 && wbit d.val 0)
  if d.halted && clusterOf h = g && ok then some (cls, h, off) else none
/-- STATUS of DBGACC. -/
def State.dbgStatus (s : State) (g status : Nat) : State := s.modCluster g fun k => { k with dbg := { k.dbg with accStatus := status } }
/-- R395. -/
def execDbgRead (s : State) : Ans :=
  onEvent s fun | .dbgRead g => (match dbgTarget g false s with
                    | none => s.dbgStatus g 2
                    | some (cls, h, off) =>
                      let k := s.core (coreOf h)
                      let v := if cls = 6 then wordOfBytes (memRead k.well off 8)
                        else if cls = 7 then vWord (tget 0 k.cistern (off / 128)) (off % 128 / 8)
                        else s.itemRead h (word (wfield (s.cluster g).dbg.sel 15 0))
                      (s.modCluster g fun k => { k with dbg := { k.dbg with val := v } }).dbgStatus g 0)
                | _ => s
/-- R395. -/
def execDbgWrite (s : State) : Ans :=
  onEvent s fun | .dbgWrite g => (match dbgTarget g true s with
                    | none => s.dbgStatus g 2
                    | some (cls, h, off) =>
                      let d := (s.cluster g).dbg
                      let s := if cls = 6 then s.landWell (coreOf h) off (bytesOfWord 8 d.val) 0
                        else if cls = 7 then s.modCore (coreOf h) fun k =>
                          { k with cistern := tset k.cistern (off / 128) (vSetWord (tget 0 k.cistern (off / 128)) (off % 128 / 8) d.val) }
                        else s.itemWrite h (word (wfield d.sel 15 0)) d.val
                      s.dbgStatus g 0)
                | _ => s

/-! ### Bring-up and reset (R384, R398-R401) -/

/-- The functions that come up once the hub firmware runs, and its checks of the base-die images. -/
def bringUp : List ReadyUnit := [.sched, .hostAgent, .baseFail] ++ (List.range 16).map .cluster ++ (List.range 16).map .link
/-- A function that is not usable yet looks again in the next cycle: how long it takes, and whether it comes up at all, is not
the manual's to say (log 3). -/
def comesUp (u : ReadyUnit) (s : State) (f : State → State) : State :=
  match s.choose 2 with
  | (0, s) => s.later 1 (.readySet u)
  | (_, s) => f s
/-- An image is accepted: its signature verifies under the firmware key, and its version is not below the fuses' (R401). -/
def accepts (image : List Byte) : Bool := Config.verifies image && Config.fuseMin ≤ Config.imageVersion image
/-- The hub boot ROM's check (R401): still going on, or the image runs, or it is refused. -/
def checkHub (s : State) : State :=
  match s.choose 2 with
  | (0, s) => s.later 1 (.readySet (.hub 0 0))
  | (_, s) =>
    let image := Config.hubImage s.pf.images
    if accepts image then
      bringUp.foldl (fun s u => s.later 1 (.readySet u)) { s with pf := { s.pf with hub := 1, version := Config.imageVersion image % 65536 } }
    else { s with pf := { s.pf with hub := 2 } }
/-- The checks of the base-die images (R401): a refused stack sets BASEFAIL, the channels of another come up. -/
def checkStacks (s : State) : State :=
  forUpto 12 s fun k s =>
    if accepts (Config.baseImage s.pf.images k) then forUpto 32 s fun i s => s.later 1 (.readySet (.channel (32 * k + i)))
    else { s with pf := { s.pf with baseFail := true } }
/-- R398, R401: a function is usable and sets its bit. -/
def execReadySet (s : State) : Ans :=
  onEvent s fun | .readySet u => (match u with
                    | .hub 0 _ => checkHub s
                    | .hub st v => { s with pf := { s.pf with hub := st, version := v } }
                    | .baseFail => checkStacks s
                    | .cluster g => comesUp u s fun s =>
                      { s.modCluster g (fun k => { k with readyAt := s.cycle }) with pf := { s.pf with clusters := s.pf.clusters ||| 2 ^ g } }
                    | .sched => comesUp u s fun s => { s with pf := { s.pf with sched := true } }
                    | .hostAgent => comesUp u s fun s => { s with pf := { s.pf with hostAgt := true } }
                    | .link p => comesUp u s fun s => { s with pf := { s.pf with links := s.pf.links ||| 2 ^ p } }
                    | .channel c => comesUp u s fun s => { s with pf := { s.pf with chans := s.pf.chans ||| 2 ^ c } })
                | _ => s
/-- What the world outside still does to the module after a reset of it (log 2). -/
def fromOutside : Event → Bool
  | .registerWrite _ _ _ | .hostMemAccess _ _ _ _ | .hostSnoop _ | .linkFlitReplay _ _ _ | .linkFailure _ | .powerThrottle _
  | .thermalHalt _ _ | .moduleReset _ _ => true
  | _ => false
/-- R400: every unit is as after power-on, host memory aside; bring-up assigns the fabric index again (R384). What comes from outside
keeps its time; firmware that has been loaded since takes effect, which is the outside's choice (R401, log 3). -/
def execModuleReset (s : State) : Ans :=
  onEvent s fun | .moduleReset index joined =>
                    let (n, s) := s.choose (2 ^ 64)
                    (s.agenda.filter fun x => fromOutside x.2).foldl (fun r x => r.later (x.1 - s.cycle) x.2)
                      { State.reset with mem := s.mem.filter fun c => 2 ^ 51 ≤ c.1, freeCtr := s.freeCtr
                                         pf := { devIdx := if joined then index.toNat else 0, joined := joined, images := n } }
                | _ => s

/-! ### Power and heat (R402) -/

/-- The cap: PWRCAP, where 0 means 3,400 W, which the module never exceeds (R402). -/
def Pf.powerCap (p : Pf) : Nat := if p.pwrcap = 0 then 3400 else min p.pwrcap 3400
/-- R402: measured power is above the cap, or is not. -/
def execPowerThrottle (s : State) : Ans :=
  onEvent s fun | .powerThrottle watts =>
                    { s with throttle := decide (s.pf.powerCap < watts) }
                | _ => s
/-- R402: a die that reaches 105 °C halts every cluster, and the physical function hears of it; a die cools below 95 °C. -/
def execThermalHalt (s : State) : Ans :=
  onEvent s fun | .thermalHalt d hot =>
                    (let was := (s.die d).hot
                    let s := s.modDie d fun k => { k with hot := hot }
                    if !hot || was then s
                    else (forUpto 16 s fun g s => haltCluster g (32 * g) 0 true s).fire 0 0)
                | _ => s

end Sys2Proof.Machine
end

