-- ==== Sys2Proof/Machine/Vector.lean ====
section
/-!
DEFINITION. Vector instructions of majors 0x24 to 0x29 (R149-R159).
-/

namespace Sys2Proof.Machine

/-! ### Arithmetic (R149, R150) -/

def execVadd (t : BitVec 3) (b a d : Reg) (s : State) : Ans :=
  lanes2 (.vadd t b a d) (eltOf t false).width s (laneAdd (eltOf t false))
def execVsub (t : BitVec 3) (b a d : Reg) (s : State) : Ans :=
  lanes2 (.vsub t b a d) (eltOf t false).width s (laneSub (eltOf t false))
def execVmul (t : BitVec 3) (b a d : Reg) (s : State) : Ans :=
  lanes2 (.vmul t b a d) (eltOf t false).width s (laneMul (eltOf t false))
def execVfma (t : BitVec 3) (b a d : Reg) (s : State) : Ans :=
  lanewise (.vfma t b a d) (eltOf t false).width s fun m l => laneFma (eltOf t false) m (l.getD 0 0) (l.getD 1 0) (l.getD 2 0)
def execVfms (t : BitVec 3) (b a d : Reg) (s : State) : Ans :=
  lanewise (.vfms t b a d) (eltOf t false).width s fun m l => laneFms (eltOf t false) m (l.getD 0 0) (l.getD 1 0) (l.getD 2 0)
def execVmin (t : BitVec 3) (b a d : Reg) (s : State) : Ans :=
  lanes2 (.vmin t b a d) (eltOf t false).width s fun _ => laneMin (eltOf t false)
def execVminN (t : BitVec 3) (b a d : Reg) (s : State) : Ans :=
  lanes2 (.vminN t b a d) (eltOf t true).width s fun _ => laneMin (eltOf t true)
def execVmax (t : BitVec 3) (b a d : Reg) (s : State) : Ans :=
  lanes2 (.vmax t b a d) (eltOf t false).width s fun _ => laneMax (eltOf t false)
def execVmaxN (t : BitVec 3) (b a d : Reg) (s : State) : Ans :=
  lanes2 (.vmaxN t b a d) (eltOf t true).width s fun _ => laneMax (eltOf t true)
def execVabs (t : BitVec 3) (a d : Reg) (s : State) : Ans :=
  lanes1 (.vabs t a d) (eltOf t false).width s fun _ => laneAbs (eltOf t false)
def execVneg (t : BitVec 3) (a d : Reg) (s : State) : Ans :=
  lanes1 (.vneg t a d) (eltOf t false).width s fun _ => laneNeg (eltOf t false)

/-! ### Logic and shifts (R151) -/

/-- A bitwise instruction on whole registers. -/
def bitwise (i : Instr) (s : State) (f : VReg → VReg → VReg) : Ans :=
  vectorInsn i false (fun _ => none) s fun _ vs => (f (vs.getD 0 0) (vs.getD 1 0), [])
def execVand (t : BitVec 3) (b a d : Reg) (s : State) : Ans := bitwise (.vand t b a d) s (· &&& ·)
def execVor (t : BitVec 3) (b a d : Reg) (s : State) : Ans := bitwise (.vor t b a d) s (· ||| ·)
def execVxor (t : BitVec 3) (b a d : Reg) (s : State) : Ans := bitwise (.vxor t b a d) s (· ^^^ ·)
def execVnot (t : BitVec 3) (a d : Reg) (s : State) : Ans := bitwise (.vnot t a d) s fun x _ => ~~~ x
def execVshl (t : BitVec 3) (b a d : Reg) (s : State) : Ans :=
  lanes2 (.vshl t b a d) (eltOf t false).width s fun _ => laneShl (eltOf t false).width
def execVshr (t : BitVec 3) (b a d : Reg) (s : State) : Ans :=
  lanes2 (.vshr t b a d) (eltOf t false).width s fun _ => laneShr (eltOf t false).width
def execVsra (t : BitVec 3) (b a d : Reg) (s : State) : Ans :=
  lanes2 (.vsra t b a d) (eltOf t false).width s fun _ => laneSra (eltOf t false).width

/-! ### Compare and select (R152) -/

def execVcmp (t c : BitVec 3) (b a d : Reg) (s : State) : Ans :=
  lanes2 (.vcmp t c b a d) (eltOf t false).width s fun _ => laneCmp (eltOf t false) c.toNat
def execVsel (t : BitVec 3) (b a d : Reg) (s : State) : Ans :=
  lanewise (.vsel t b a d) (eltOf t false).width s fun _ l => ((if l.getD 2 0 ≠ 0 then l.getD 0 0 else l.getD 1 0), 0)

/-! ### Conversions (R153-R156) -/

/-- The elements of a conversion by parts: source width, destination width, part; `f` gets the number of the element. The lane of an event is the
element's place in the part, also where the result is narrower and the part starts at element p * m: R174 does not say which (log 20). -/
def byParts (ws wd p : Nat) (a old : VReg) (f : Nat → Nat → Nat × Fl) : VReg × List Fl :=
  let m := 1024 / max ws wd
  let src := (elems ws (1024 / ws) a).drop (if ws < wd then p * m else 0)
  let rs := (List.range m).map fun i => f i (src.getD i 0)
  let new := rs.map Prod.fst
  let l := if wd < ws then
      let keep := lanesOf wd old
      keep.take (p * m) ++ new ++ keep.drop ((p + 1) * m)
    else new
  (pack wd l, rs.map Prod.snd)
/-- The part limit of R153. -/
def partCheck (ws wd p : Nat) (_ : State) : Option (Nat × Word) := if max ws wd / min ws wd ≤ p then some (2, 0) else none
def execVcvt (t : BitVec 3) (n : BitVec 1) (sc : BitVec 4) (p : BitVec 5) (a d : Reg) (s : State) : Ans :=
  let dst := eltOf t (n = 1)
  let ws := fmtWidth sc.toNat
  vectorInsn (.vcvt t n sc p a d) (dst.width < ws) (partCheck ws dst.width p.toNat) s fun s vs =>
    byParts ws dst.width p.toNat (vs.getD 0 0) (s.self.getV d.toNat) fun _ x => laneCvt dst sc.toNat s.self.frm.toNat x
def execVqnt (t : BitVec 3) (n : BitVec 1) (p : BitVec 2) (b a d : Reg) (s : State) : Ans :=
  let dst := eltOf t (n = 1)
  vectorInsn (.vqnt t n p b a d) true (partCheck 32 dst.width p.toNat) s fun s vs =>
    let div := lanesOf 32 (vs.getD 1 0)
    byParts 32 dst.width p.toNat (vs.getD 0 0) (s.self.getV d.toNat) fun i x => laneQnt dst s.self.frm.toNat x (div.getD i 0)
/-- The source format of VDQ (R153) as a code of R122. -/
def dqFmt (c : BitVec 2) : Nat := [3, 4, 11, 7].getD c.toNat 3
def execVdq (p : BitVec 3) (sc : BitVec 2) (b a d : Reg) (s : State) : Ans :=
  let ws := fmtWidth (dqFmt sc)
  vectorInsn (.vdq p sc b a d) false (partCheck ws 32 p.toNat) s fun s vs =>
    let scale := lanesOf 32 (vs.getD 1 0)
    byParts ws 32 p.toNat (vs.getD 0 0) 0 fun i x => laneDq (dqFmt sc) s.self.frm.toNat x (scale.getD i 0)

/-! ### Lane moves (R157) -/

/-- The lane that x[rb] names. -/
def laneCheck (w : Nat) (b : Reg) (s : State) : Option (Nat × Word) :=
  if 1024 / w ≤ (s.getX b).toNat then some (2, s.getX b) else none
def execVbcast (t : BitVec 3) (a d : Reg) (s : State) : Ans :=
  let w := (eltOf t false).width
  vectorInsn (.vbcast t a d) false (fun _ => none) s fun s _ => (pack w (List.replicate (1024 / w) (s.getX a).toNat), [])
/-- VEXT and VEXT.n write a scalar register. -/
def extract (i : Instr) (w : Nat) (signed : Bool) (b d : Reg) (s : State) : Ans :=
  checkedBy i (fun s => (headCheck i false).orElse fun _ => laneCheck w b s) s fun s => onQueues i s fun s =>
    let (vs, s) := s.takeOperands (vectorUses i).1
    let x := (lanesOf w (vs.getD 0 0)).getD (s.getX b).toNat 0
    (s.setX d (if signed then BitVec.ofInt 64 (signedOf w x) else word x)).pass i.len
def execVext (t : BitVec 3) (b a d : Reg) (s : State) : Ans :=
  extract (.vext t b a d) (eltOf t false).width (match eltOf t false with | .fl _ => false | _ => true) b d s
def execVextN (t : BitVec 3) (b a d : Reg) (s : State) : Ans :=
  extract (.vextN t b a d) (eltOf t true).width false b d s
def execVins (t : BitVec 3) (b a d : Reg) (s : State) : Ans :=
  let w := (eltOf t false).width
  vectorInsn (.vins t b a d) true (laneCheck w b) s fun s vs =>
    (pack w (lset (lanesOf w (vs.getD 0 0)) (s.getX b).toNat ((s.getX a).toNat % 2 ^ w)), [])
/-- The index lanes of VPERM have the width of its data lanes (log 12). -/
def execVperm (t : BitVec 3) (b a d : Reg) (s : State) : Ans :=
  let w := (eltOf t false).width
  vectorInsn (.vperm t b a d) false (fun _ => none) s fun _ vs =>
    let l := lanesOf w (vs.getD 0 0)
    (pack w ((lanesOf w (vs.getD 1 0)).map fun i => l.getD (i % (1024 / w)) 0), [])
def execVslide (t : BitVec 3) (b a d : Reg) (s : State) : Ans :=
  let w := (eltOf t false).width
  vectorInsn (.vslide t b a d) false (fun _ => none) s fun s vs =>
    let l := lanesOf w (vs.getD 0 0)
    let k := (s.getX b).toInt
    (pack w ((List.range (1024 / w)).map fun (i : Nat) =>
      let j := (i : Int) + k
      if 0 ≤ j then l.getD j.toNat 0 else 0), [])
/-- An integer in a lane, converted exactly for F32. -/
def intLane (e : Elt) (i : Int) : Nat := match e with | .fl f => (f.round (ofIntVal i) 0).1 | _ => wrapTo e.width i
def execViota (t : BitVec 3) (d : Reg) (s : State) : Ans :=
  let e := eltOf t false
  vectorInsn (.viota t d) false (fun _ => none) s fun _ _ =>
    (pack e.width ((List.range (1024 / e.width)).map fun (i : Nat) => intLane e i), [])
def execVmovi (t : BitVec 3) (i : BitVec 10) (d : Reg) (s : State) : Ans :=
  let e := eltOf t false
  vectorInsn (.vmovi t i d) false (fun _ => none) s fun _ _ =>
    (pack e.width (List.replicate (1024 / e.width) (intLane e i.toInt)), [])

/-! ### Reductions and top-k (R120, R158, R159) -/

/-- The tree of R120: the value, and the events by the lane of each left operand. -/
def tree (f : Nat → Nat → Nat × Fl) : Nat → Nat → List Nat → List Fl → Nat × List Fl
  | 0, _, l, fls => (l.headD 0, fls)
  | n + 1, step, l, fls =>
    let pairs := (List.range (l.length / 2)).map fun i => f (l.getD (2 * i) 0) (l.getD (2 * i + 1) 0)
    let fls := pairs.zipIdx.foldl (fun fls (p, i) => lmod fls (2 * step * i) (· ||| p.2)) fls
    tree f n (2 * step) (pairs.map Prod.fst) fls
def reduce (i : Instr) (w : Nat) (s : State) (f : Nat → Nat → Nat → Nat × Fl) : Ans :=
  vectorInsn i false (fun _ => none) s fun s vs =>
    let n := 1024 / w
    let (r, fls) := tree (f s.self.frm.toNat) (Nat.log2 n) 1 (lanesOf w (vs.getD 0 0)) (List.replicate n 0)
    (pack w [r], fls)
def execVrsum (t : BitVec 3) (a d : Reg) (s : State) : Ans :=
  reduce (.vrsum t a d) (eltOf t false).width s (laneAdd (eltOf t false))
def execVrmax (t : BitVec 3) (a d : Reg) (s : State) : Ans :=
  reduce (.vrmax t a d) (eltOf t false).width s fun _ => laneMax (eltOf t false)
def execVrmaxN (t : BitVec 3) (a d : Reg) (s : State) : Ans :=
  reduce (.vrmaxN t a d) (eltOf t true).width s fun _ => laneMax (eltOf t true)
def execVrmin (t : BitVec 3) (a d : Reg) (s : State) : Ans :=
  reduce (.vrmin t a d) (eltOf t false).width s fun _ => laneMin (eltOf t false)
def execVrminN (t : BitVec 3) (a d : Reg) (s : State) : Ans :=
  reduce (.vrminN t a d) (eltOf t true).width s fun _ => laneMin (eltOf t true)
/-- Lane x ranks before lane y in value (R159). -/
def ranksAbove (e : Elt) (x y : Nat) : Bool := match e with
  | .fl f => if f.isNaN x then false else if f.isNaN y then true else (f.val y).lt (f.val x)
  | _ => intOf e y < intOf e x
/-- The lanes by rank: an insertion behind lanes that rank no lower. -/
def rankInsert (e : Elt) (x : Nat × Nat) : List (Nat × Nat) → List (Nat × Nat)
  | [] => [x]
  | y :: l => if ranksAbove e x.1 y.1 then x :: y :: l else y :: rankInsert e x l
/-- Two registers are written; vd is 0-26. -/
def topk (i : Instr) (e : Elt) (k : BitVec 5) (d : Reg) (s : State) : Ans :=
  checkedBy i (fun _ => (headCheck i false).orElse fun _ => if 26 < d.toNat then some (2, 0) else none) s fun s => onQueues i s fun s =>
    let (vs, s') := s.takeOperands (vectorUses i).1
    let l := lanesOf 32 (vs.getD 0 0)
    let fls := l.map fun x => match e with | .fl f => sigFl f [x] | _ => 0
    let best := (l.zipIdx.foldl (fun acc x => rankInsert e x acc) []).take (k.toNat + 1)
    let all := orFl fls
    if enabledFl s.self all then (raiseFl s.me all s).trap 9 (fpVal all (trapLane s.self.fenable fls))
    else
      let s' := raiseFl s.me all s'
      ((s'.modSelf fun t => (t.setV d.toNat (pack 32 (best.map Prod.fst))).setV (d.toNat + 1) (pack 32 (best.map Prod.snd)))).pass i.len
def execVtopk (t : BitVec 3) (k a d : Reg) (s : State) : Ans := topk (.vtopk t k a d) (eltOf t false) k d s
def execVtopkN (t : BitVec 3) (k a d : Reg) (s : State) : Ans := topk (.vtopkN t k a d) (eltOf t true) k d s

end Sys2Proof.Machine
end

