-- ==== Sys2Proof/Machine/Parcel.lean ====
section
/-!
DEFINITION. Lane parcels (R33, R34): each has the effect of a 32-bit instruction with vd as its first operand.
-/

namespace Sys2Proof.Machine

def execVaddF32Parcel (sc d : Reg) (s : State) : Ans := lanes2 (.vaddF32Parcel sc d) 32 s (laneAdd (.fl .f32))
def execVsubF32Parcel (sc d : Reg) (s : State) : Ans := lanes2 (.vsubF32Parcel sc d) 32 s (laneSub (.fl .f32))
def execVmulF32Parcel (sc d : Reg) (s : State) : Ans := lanes2 (.vmulF32Parcel sc d) 32 s (laneMul (.fl .f32))
def execVmaxF32Parcel (sc d : Reg) (s : State) : Ans := lanes2 (.vmaxF32Parcel sc d) 32 s fun _ => laneMax (.fl .f32)
def execVminF32Parcel (sc d : Reg) (s : State) : Ans := lanes2 (.vminF32Parcel sc d) 32 s fun _ => laneMin (.fl .f32)
def execVaddI32Parcel (sc d : Reg) (s : State) : Ans := lanes2 (.vaddI32Parcel sc d) 32 s (laneAdd (.int 32))
def execVsubI32Parcel (sc d : Reg) (s : State) : Ans := lanes2 (.vsubI32Parcel sc d) 32 s (laneSub (.int 32))
def execVandParcel (sc d : Reg) (s : State) : Ans := bitwise (.vandParcel sc d) s (· &&& ·)
def execVorParcel (sc d : Reg) (s : State) : Ans := bitwise (.vorParcel sc d) s (· ||| ·)
def execVxorParcel (sc d : Reg) (s : State) : Ans := bitwise (.vxorParcel sc d) s (· ^^^ ·)
/-- vs is read once. -/
def execVmovParcel (sc d : Reg) (s : State) : Ans := bitwise (.vmovParcel sc d) s fun x _ => x
def execVaddB16Parcel (sc d : Reg) (s : State) : Ans := lanes2 (.vaddB16Parcel sc d) 16 s (laneAdd (.fl .b16))
def execVmulB16Parcel (sc d : Reg) (s : State) : Ans := lanes2 (.vmulB16Parcel sc d) 16 s (laneMul (.fl .b16))
def execVshlI32Parcel (sc d : Reg) (s : State) : Ans := lanes2 (.vshlI32Parcel sc d) 32 s fun _ => laneShl 32
def execVsraI32Parcel (sc d : Reg) (s : State) : Ans := lanes2 (.vsraI32Parcel sc d) 32 s fun _ => laneSra 32
def execVnegF32Parcel (sc d : Reg) (s : State) : Ans := lanes1 (.vnegF32Parcel sc d) 32 s fun _ => laneNeg (.fl .f32)

end Sys2Proof.Machine
end

