-- ==== Sys2Proof/Machine/Dispatch.lean ====
section
/-!
DEFINITION. The meaning of every instruction and of every step of an engine, one arm for each constructor.
-/

namespace Sys2Proof.Machine

def exec (i : Instr) (s : State) : Host.Outcome State Fault Refusal :=
  match i with
  | .add b a d => Sys2Proof.Machine.execAdd b a d s
  | .sub b a d => Sys2Proof.Machine.execSub b a d s
  | .mul b a d => Sys2Proof.Machine.execMul b a d s
  | .mulh b a d => Sys2Proof.Machine.execMulh b a d s
  | .mulhn b a d => Sys2Proof.Machine.execMulhn b a d s
  | .div b a d => Sys2Proof.Machine.execDiv b a d s
  | .divn b a d => Sys2Proof.Machine.execDivn b a d s
  | .rem b a d => Sys2Proof.Machine.execRem b a d s
  | .remn b a d => Sys2Proof.Machine.execRemn b a d s
  | .and b a d => Sys2Proof.Machine.execAnd b a d s
  | .or b a d => Sys2Proof.Machine.execOr b a d s
  | .xor b a d => Sys2Proof.Machine.execXor b a d s
  | .andn b a d => Sys2Proof.Machine.execAndn b a d s
  | .orn b a d => Sys2Proof.Machine.execOrn b a d s
  | .shl b a d => Sys2Proof.Machine.execShl b a d s
  | .shr b a d => Sys2Proof.Machine.execShr b a d s
  | .sra b a d => Sys2Proof.Machine.execSra b a d s
  | .rotl b a d => Sys2Proof.Machine.execRotl b a d s
  | .rotr b a d => Sys2Proof.Machine.execRotr b a d s
  | .min b a d => Sys2Proof.Machine.execMin b a d s
  | .max b a d => Sys2Proof.Machine.execMax b a d s
  | .minn b a d => Sys2Proof.Machine.execMinn b a d s
  | .maxn b a d => Sys2Proof.Machine.execMaxn b a d s
  | .slt b a d => Sys2Proof.Machine.execSlt b a d s
  | .sltn b a d => Sys2Proof.Machine.execSltn b a d s
  | .clz a d => Sys2Proof.Machine.execClz a d s
  | .ctz a d => Sys2Proof.Machine.execCtz a d s
  | .popc a d => Sys2Proof.Machine.execPopc a d s
  | .sextB a d => Sys2Proof.Machine.execSextB a d s
  | .sextH a d => Sys2Proof.Machine.execSextH a d s
  | .sextW a d => Sys2Proof.Machine.execSextW a d s
  | .zextB a d => Sys2Proof.Machine.execZextB a d s
  | .zextH a d => Sys2Proof.Machine.execZextH a d s
  | .zextW a d => Sys2Proof.Machine.execZextW a d s
  | .bfx b a d => Sys2Proof.Machine.execBfx b a d s
  | .bfxn b a d => Sys2Proof.Machine.execBfxn b a d s
  | .bfi b a d => Sys2Proof.Machine.execBfi b a d s
  | .bswap a d => Sys2Proof.Machine.execBswap a d s
  | .hasha a d => Sys2Proof.Machine.execHasha a d s
  | .addi im a d => Sys2Proof.Machine.execAddi im a d s
  | .andi im a d => Sys2Proof.Machine.execAndi im a d s
  | .ori im a d => Sys2Proof.Machine.execOri im a d s
  | .xori im a d => Sys2Proof.Machine.execXori im a d s
  | .shli n a d => Sys2Proof.Machine.execShli n a d s
  | .shri n a d => Sys2Proof.Machine.execShri n a d s
  | .srai n a d => Sys2Proof.Machine.execSrai n a d s
  | .roti n a d => Sys2Proof.Machine.execRoti n a d s
  | .slti im a d => Sys2Proof.Machine.execSlti im a d s
  | .lih im d => Sys2Proof.Machine.execLih im d s
  | .addpc im d => Sys2Proof.Machine.execAddpc im d s
  | .sk b a k c => Sys2Proof.Machine.execSk b a k c s
  | .ski im a k c => Sys2Proof.Machine.execSki im a k c s
  | .bCc o b a p c => Sys2Proof.Machine.execBCc o b a p c s
  | .br im => Sys2Proof.Machine.execBr im s
  | .call im => Sys2Proof.Machine.execCall im s
  | .jalr im a d => Sys2Proof.Machine.execJalr im a d s
  | .loop im d => Sys2Proof.Machine.execLoop im d s
  | .csrr n d => Sys2Proof.Machine.execCsrr n d s
  | .csrw n a => Sys2Proof.Machine.execCsrw n a s
  | .csrs n a => Sys2Proof.Machine.execCsrs n a s
  | .csrc n a => Sys2Proof.Machine.execCsrc n a s
  | .nop => Sys2Proof.Machine.execNop s
  | .trap a => Sys2Proof.Machine.execTrap a s
  | .bkpt => Sys2Proof.Machine.execBkpt s
  | .fencei => Sys2Proof.Machine.execFencei s
  | .eret a => Sys2Proof.Machine.execEret a s
  | .halt => Sys2Proof.Machine.execHalt s
  | .tlbi b a => Sys2Proof.Machine.execTlbi b a s
  | .tresume a => Sys2Proof.Machine.execTresume a s
  | .tstatr b a d => Sys2Proof.Machine.execTstatr b a d s
  | .tstatw b a d => Sys2Proof.Machine.execTstatw b a d s
  | .vaddF32Parcel sc d => Sys2Proof.Machine.execVaddF32Parcel sc d s
  | .vsubF32Parcel sc d => Sys2Proof.Machine.execVsubF32Parcel sc d s
  | .vmulF32Parcel sc d => Sys2Proof.Machine.execVmulF32Parcel sc d s
  | .vmaxF32Parcel sc d => Sys2Proof.Machine.execVmaxF32Parcel sc d s
  | .vminF32Parcel sc d => Sys2Proof.Machine.execVminF32Parcel sc d s
  | .vaddI32Parcel sc d => Sys2Proof.Machine.execVaddI32Parcel sc d s
  | .vsubI32Parcel sc d => Sys2Proof.Machine.execVsubI32Parcel sc d s
  | .vandParcel sc d => Sys2Proof.Machine.execVandParcel sc d s
  | .vorParcel sc d => Sys2Proof.Machine.execVorParcel sc d s
  | .vxorParcel sc d => Sys2Proof.Machine.execVxorParcel sc d s
  | .vmovParcel sc d => Sys2Proof.Machine.execVmovParcel sc d s
  | .vaddB16Parcel sc d => Sys2Proof.Machine.execVaddB16Parcel sc d s
  | .vmulB16Parcel sc d => Sys2Proof.Machine.execVmulB16Parcel sc d s
  | .vshlI32Parcel sc d => Sys2Proof.Machine.execVshlI32Parcel sc d s
  | .vsraI32Parcel sc d => Sys2Proof.Machine.execVsraI32Parcel sc d s
  | .vnegF32Parcel sc d => Sys2Proof.Machine.execVnegF32Parcel sc d s
  | .rpt p q r n => Sys2Proof.Machine.execRpt p q r n s
  | .nop16 => Sys2Proof.Machine.execNop16 s
  | .send b a n => Sys2Proof.Machine.execSend b a n s
  | .recv n a d => Sys2Proof.Machine.execRecv n a d s
  | .recvn n a d => Sys2Proof.Machine.execRecvn n a d s
  | .mon a n => Sys2Proof.Machine.execMon a n s
  | .monG a n => Sys2Proof.Machine.execMonG a n s
  | .mwait b m d => Sys2Proof.Machine.execMwait b m d s
  | .mclr n => Sys2Proof.Machine.execMclr n s
  | .cntw sc b a => Sys2Proof.Machine.execCntw sc b a s
  | .bar b a d => Sys2Proof.Machine.execBar b a d s
  | .bara b a d => Sys2Proof.Machine.execBara b a d s
  | .barw a d => Sys2Proof.Machine.execBarw a d s
  | .ibx a d => Sys2Proof.Machine.execIbx a d s
  | .ibxn a d => Sys2Proof.Machine.execIbxn a d s
  | .uien a d => Sys2Proof.Machine.execUien a d s
  | .uiret => Sys2Proof.Machine.execUiret s
  | .tstart b a d => Sys2Proof.Machine.execTstart b a d s
  | .texit => Sys2Proof.Machine.execTexit s
  | .yield => Sys2Proof.Machine.execYield s
  | .gang b d => Sys2Proof.Machine.execGang b d s
  | .ungang => Sys2Proof.Machine.execUngang s
  | .draw t a d => Sys2Proof.Machine.execDraw t a d s
  | .dcan a => Sys2Proof.Machine.execDcan a s
  | .dstat a d => Sys2Proof.Machine.execDstat a d s
  | .bdone => Sys2Proof.Machine.execBdone s
  | .tdef t a => Sys2Proof.Machine.execTdef t a s
  | .tinv t => Sys2Proof.Machine.execTinv t s
  | .tqry t b d => Sys2Proof.Machine.execTqry t b d s
  | .qld a n => Sys2Proof.Machine.execQld a n s
  | .qst a n => Sys2Proof.Machine.execQst a n s
  | .qpx b a n => Sys2Proof.Machine.execQpx b a n s
  | .vadd t b a d => Sys2Proof.Machine.execVadd t b a d s
  | .vsub t b a d => Sys2Proof.Machine.execVsub t b a d s
  | .vmul t b a d => Sys2Proof.Machine.execVmul t b a d s
  | .vfma t b a d => Sys2Proof.Machine.execVfma t b a d s
  | .vfms t b a d => Sys2Proof.Machine.execVfms t b a d s
  | .vmin t b a d => Sys2Proof.Machine.execVmin t b a d s
  | .vminN t b a d => Sys2Proof.Machine.execVminN t b a d s
  | .vmax t b a d => Sys2Proof.Machine.execVmax t b a d s
  | .vmaxN t b a d => Sys2Proof.Machine.execVmaxN t b a d s
  | .vabs t a d => Sys2Proof.Machine.execVabs t a d s
  | .vneg t a d => Sys2Proof.Machine.execVneg t a d s
  | .vand t b a d => Sys2Proof.Machine.execVand t b a d s
  | .vor t b a d => Sys2Proof.Machine.execVor t b a d s
  | .vxor t b a d => Sys2Proof.Machine.execVxor t b a d s
  | .vnot t a d => Sys2Proof.Machine.execVnot t a d s
  | .vshl t b a d => Sys2Proof.Machine.execVshl t b a d s
  | .vshr t b a d => Sys2Proof.Machine.execVshr t b a d s
  | .vsra t b a d => Sys2Proof.Machine.execVsra t b a d s
  | .vcmp t c b a d => Sys2Proof.Machine.execVcmp t c b a d s
  | .vsel t b a d => Sys2Proof.Machine.execVsel t b a d s
  | .vcvt t n sc p a d => Sys2Proof.Machine.execVcvt t n sc p a d s
  | .vqnt t n p b a d => Sys2Proof.Machine.execVqnt t n p b a d s
  | .vdq p sc b a d => Sys2Proof.Machine.execVdq p sc b a d s
  | .vbcast t a d => Sys2Proof.Machine.execVbcast t a d s
  | .vext t b a d => Sys2Proof.Machine.execVext t b a d s
  | .vextN t b a d => Sys2Proof.Machine.execVextN t b a d s
  | .vins t b a d => Sys2Proof.Machine.execVins t b a d s
  | .vperm t b a d => Sys2Proof.Machine.execVperm t b a d s
  | .vslide t b a d => Sys2Proof.Machine.execVslide t b a d s
  | .viota t d => Sys2Proof.Machine.execViota t d s
  | .vmovi t im d => Sys2Proof.Machine.execVmovi t im d s
  | .vrsum t a d => Sys2Proof.Machine.execVrsum t a d s
  | .vrmax t a d => Sys2Proof.Machine.execVrmax t a d s
  | .vrmaxN t a d => Sys2Proof.Machine.execVrmaxN t a d s
  | .vrmin t a d => Sys2Proof.Machine.execVrmin t a d s
  | .vrminN t a d => Sys2Proof.Machine.execVrminN t a d s
  | .vtopk t k a d => Sys2Proof.Machine.execVtopk t k a d s
  | .vtopkN t k a d => Sys2Proof.Machine.execVtopkN t k a d s
  | .vrcp t a d => Sys2Proof.Machine.execVrcp t a d s
  | .vrsq t a d => Sys2Proof.Machine.execVrsq t a d s
  | .vsqrt t a d => Sys2Proof.Machine.execVsqrt t a d s
  | .vdiv t b a d => Sys2Proof.Machine.execVdiv t b a d s
  | .vexp2 t a d => Sys2Proof.Machine.execVexp2 t a d s
  | .vlog2 t a d => Sys2Proof.Machine.execVlog2 t a d s
  | .vsinp t a d => Sys2Proof.Machine.execVsinp t a d s
  | .vcosp t a d => Sys2Proof.Machine.execVcosp t a d s
  | .vtanh t a d => Sys2Proof.Machine.execVtanh t a d s
  | .wclr w => Sys2Proof.Machine.execWclr w s
  | .wacc t a w => Sys2Proof.Machine.execWacc t a w s
  | .waccp t b a w => Sys2Proof.Machine.execWaccp t b a w s
  | .wrnd w d => Sys2Proof.Machine.execWrnd w d s
  | .wsave w d => Sys2Proof.Machine.execWsave w d s
  | .wload a w => Sys2Proof.Machine.execWload a w s
  | .hacc u v b a => Sys2Proof.Machine.execHacc u v b a s
  | .hlook u v a d => Sys2Proof.Machine.execHlook u v a d s
  | .hclr u v => Sys2Proof.Machine.execHclr u v s
  | .vldc a d => Sys2Proof.Machine.execVldc a d s
  | .vstc a d => Sys2Proof.Machine.execVstc a d s
  | .vwaitc n => Sys2Proof.Machine.execVwaitc n s
  | .mma c b a d => Sys2Proof.Machine.execMma c b a d s
  | .mmaM c b a d => Sys2Proof.Machine.execMmaM c b a d s
  | .mzero c d => Sys2Proof.Machine.execMzero c d s
  | .mcopy c a => Sys2Proof.Machine.execMcopy c a s
  | .mldc c a => Sys2Proof.Machine.execMldc c a s
  | .mstc c a => Sys2Proof.Machine.execMstc c a s
  | .mspw c b a => Sys2Proof.Machine.execMspw c b a s
  | .mspwM c b a d => Sys2Proof.Machine.execMspwM c b a d s
  | .ld p o n z a d => Sys2Proof.Machine.execLd p o n z a d s
  | .st p o z a d => Sys2Proof.Machine.execSt p o z a d s
  | .ldl p o n z a d => Sys2Proof.Machine.execLdl p o n z a d s
  | .stl p o z a d => Sys2Proof.Machine.execStl p o z a d s
  | .tld t b a o => Sys2Proof.Machine.execTld t b a o s
  | .tst t b a o => Sys2Proof.Machine.execTst t b a o s
  | .amoAdd sc k w b a d => Sys2Proof.Machine.execAmoAdd sc k w b a d s
  | .amoAnd sc k w b a d => Sys2Proof.Machine.execAmoAnd sc k w b a d s
  | .amoOr sc k w b a d => Sys2Proof.Machine.execAmoOr sc k w b a d s
  | .amoXor sc k w b a d => Sys2Proof.Machine.execAmoXor sc k w b a d s
  | .amoMin sc k w b a d => Sys2Proof.Machine.execAmoMin sc k w b a d s
  | .amoMax sc k w b a d => Sys2Proof.Machine.execAmoMax sc k w b a d s
  | .amoMinn sc k w b a d => Sys2Proof.Machine.execAmoMinn sc k w b a d s
  | .amoMaxn sc k w b a d => Sys2Proof.Machine.execAmoMaxn sc k w b a d s
  | .amoSwap sc k w b a d => Sys2Proof.Machine.execAmoSwap sc k w b a d s
  | .amoCas sc k w b a d => Sys2Proof.Machine.execAmoCas sc k w b a d s
  | .amoFadd sc k b a d => Sys2Proof.Machine.execAmoFadd sc k b a d s
  | .amoFmax sc k b a d => Sys2Proof.Machine.execAmoFmax sc k b a d s
  | .redAdd sc k w b a => Sys2Proof.Machine.execRedAdd sc k w b a s
  | .redAnd sc k w b a => Sys2Proof.Machine.execRedAnd sc k w b a s
  | .redOr sc k w b a => Sys2Proof.Machine.execRedOr sc k w b a s
  | .redXor sc k w b a => Sys2Proof.Machine.execRedXor sc k w b a s
  | .redMin sc k w b a => Sys2Proof.Machine.execRedMin sc k w b a s
  | .redMax sc k w b a => Sys2Proof.Machine.execRedMax sc k w b a s
  | .redMinn sc k w b a => Sys2Proof.Machine.execRedMinn sc k w b a s
  | .redMaxn sc k w b a => Sys2Proof.Machine.execRedMaxn sc k w b a s
  | .redFadd sc k b a => Sys2Proof.Machine.execRedFadd sc k b a s
  | .redFmax sc k b a => Sys2Proof.Machine.execRedFmax sc k b a s
  | .fence sc => Sys2Proof.Machine.execFence sc s
  | .cwb b a => Sys2Proof.Machine.execCwb b a s
  | .cinv b a => Sys2Proof.Machine.execCinv b a s
  | .pfx b a => Sys2Proof.Machine.execPfx b a s
  | .cpy e f b a d => Sys2Proof.Machine.execCpy e f b a d s
  | .cpyt e f b a d => Sys2Proof.Machine.execCpyt e f b a d s
  | .fill f b a d => Sys2Proof.Machine.execFill f b a d s
  | .bkCpy b a d => Sys2Proof.Machine.execBkCpy b a d s
  | .bkFil b a d => Sys2Proof.Machine.execBkFil b a d s
  | .bkAnd b a d => Sys2Proof.Machine.execBkAnd b a d s
  | .bkOr b a d => Sys2Proof.Machine.execBkOr b a d s
  | .bkXor b a d => Sys2Proof.Machine.execBkXor b a d s
  | .bkNot b a d => Sys2Proof.Machine.execBkNot b a d s
  | .bkMaj b a d => Sys2Proof.Machine.execBkMaj b a d s
  | .ovld b a d => Sys2Proof.Machine.execOvld b a d s
  | .ovldGo b a d => Sys2Proof.Machine.execOvldGo b a d s
  | .prd b a d => Sys2Proof.Machine.execPrd b a d s
  | .pwr b a d => Sys2Proof.Machine.execPwr b a d s
  | .ppush b a d => Sys2Proof.Machine.execPpush b a d s
  | .pend => Sys2Proof.Machine.execPend s
  | .tqadd a => Sys2Proof.Machine.execTqadd a s
  | .tqtake d => Sys2Proof.Machine.execTqtake d s
  | .tqtry d => Sys2Proof.Machine.execTqtry d s
  | .tcmt => Sys2Proof.Machine.execTcmt s
  | .tdone => Sys2Proof.Machine.execTdone s
  | .tlbiRetire => Sys2Proof.Machine.execTlbiRetire s
  | .supervisorOpArrival => Sys2Proof.Machine.execSupervisorOpArrival s
  | .supervisorReply => Sys2Proof.Machine.execSupervisorReply s
  | .parkRequestEffect => Sys2Proof.Machine.execParkRequestEffect s
  | .barrierArrival => Sys2Proof.Machine.execBarrierArrival s
  | .barrierRelease => Sys2Proof.Machine.execBarrierRelease s
  | .barrierTimeout => Sys2Proof.Machine.execBarrierTimeout s
  | .tstartReady => Sys2Proof.Machine.execTstartReady s
  | .texitRetire => Sys2Proof.Machine.execTexitRetire s
  | .yieldWake => Sys2Proof.Machine.execYieldWake s
  | .gangForm => Sys2Proof.Machine.execGangForm s
  | .gangTimeout => Sys2Proof.Machine.execGangTimeout s
  | .flitArrival => Sys2Proof.Machine.execFlitArrival s
  | .recvWake => Sys2Proof.Machine.execRecvWake s
  | .channelClaim => Sys2Proof.Machine.execChannelClaim s
  | .monitorWake => Sys2Proof.Machine.execMonitorWake s
  | .mwaitTimeout => Sys2Proof.Machine.execMwaitTimeout s
  | .cntwWake => Sys2Proof.Machine.execCntwWake s
  | .inboxMessageArrival => Sys2Proof.Machine.execInboxMessageArrival s
  | .uiDelivery => Sys2Proof.Machine.execUiDelivery s
  | .queueWake => Sys2Proof.Machine.execQueueWake s
  | .drawTileClaim => Sys2Proof.Machine.execDrawTileClaim s
  | .drawTileLand => Sys2Proof.Machine.execDrawTileLand s
  | .bodyStart => Sys2Proof.Machine.execBodyStart s
  | .drawCompleteMessage => Sys2Proof.Machine.execDrawCompleteMessage s
  | .tableChangeAck => Sys2Proof.Machine.execTableChangeAck s
  | .qldEntryArrival => Sys2Proof.Machine.execQldEntryArrival s
  | .sfuStart => Sys2Proof.Machine.execSfuStart s
  | .sfuComplete => Sys2Proof.Machine.execSfuComplete s
  | .cisternRowMove => Sys2Proof.Machine.execCisternRowMove s
  | .mldcPerform => Sys2Proof.Machine.execMldcPerform s
  | .mspwEntryArrival => Sys2Proof.Machine.execMspwEntryArrival s
  | .operandArrival => Sys2Proof.Machine.execOperandArrival s
  | .matrixStepStart => Sys2Proof.Machine.execMatrixStepStart s
  | .matrixStepEnd => Sys2Proof.Machine.execMatrixStepEnd s
  | .multicastRegister => Sys2Proof.Machine.execMulticastRegister s
  | .multicastLaunch => Sys2Proof.Machine.execMulticastLaunch s
  | .groupWatchdogExpiry => Sys2Proof.Machine.execGroupWatchdogExpiry s
  | .wellStoreLand => Sys2Proof.Machine.execWellStoreLand s
  | .wellwinMirrorUpdate => Sys2Proof.Machine.execWellwinMirrorUpdate s
  | .tileLockGrant => Sys2Proof.Machine.execTileLockGrant s
  | .redAck => Sys2Proof.Machine.execRedAck s
  | .farAccessPerform => Sys2Proof.Machine.execFarAccessPerform s
  | .sliceLineEvict => Sys2Proof.Machine.execSliceLineEvict s
  | .tlbWalkComplete => Sys2Proof.Machine.execTlbWalkComplete s
  | .copyPiece => Sys2Proof.Machine.execCopyPiece s
  | .copytRead => Sys2Proof.Machine.execCopytRead s
  | .copytWrite => Sys2Proof.Machine.execCopytWrite s
  | .copyComplete => Sys2Proof.Machine.execCopyComplete s
  | .bkProbeStart => Sys2Proof.Machine.execBkProbeStart s
  | .bkStep => Sys2Proof.Machine.execBkStep s
  | .bkComplete => Sys2Proof.Machine.execBkComplete s
  | .ovldAccept => Sys2Proof.Machine.execOvldAccept s
  | .ovldStatus => Sys2Proof.Machine.execOvldStatus s
  | .overlayLoaded => Sys2Proof.Machine.execOverlayLoaded s
  | .kernelLaunchStart => Sys2Proof.Machine.execKernelLaunchStart s
  | .pumpKernelSaveTimeout => Sys2Proof.Machine.execPumpKernelSaveTimeout s
  | .launchPageQueue => Sys2Proof.Machine.execLaunchPageQueue s
  | .zeroFillStep => Sys2Proof.Machine.execZeroFillStep s
  | .tqRequestPerform => Sys2Proof.Machine.execTqRequestPerform s
  | .tqAnswer => Sys2Proof.Machine.execTqAnswer s
  | .taskReinsert => Sys2Proof.Machine.execTaskReinsert s
  | .notifyWrite => Sys2Proof.Machine.execNotifyWrite s
  | .kernelNode => Sys2Proof.Machine.execKernelNode s
  | .copyNode => Sys2Proof.Machine.execCopyNode s
  | .nearMemoryNode => Sys2Proof.Machine.execNearMemoryNode s
  | .configureNode => Sys2Proof.Machine.execConfigureNode s
  | .conditionNode => Sys2Proof.Machine.execConditionNode s
  | .loopNode => Sys2Proof.Machine.execLoopNode s
  | .switchNode => Sys2Proof.Machine.execSwitchNode s
  | .nodeComplete => Sys2Proof.Machine.execNodeComplete s
  | .retiredUpdate => Sys2Proof.Machine.execRetiredUpdate s
  | .timeSliceExpiry => Sys2Proof.Machine.execTimeSliceExpiry s
  | .contextSave => Sys2Proof.Machine.execContextSave s
  | .contextRestore => Sys2Proof.Machine.execContextRestore s
  | .contextComplete => Sys2Proof.Machine.execContextComplete s
  | .trapRecordWrite => Sys2Proof.Machine.execTrapRecordWrite s
  | .faultQueueWrite => Sys2Proof.Machine.execFaultQueueWrite s
  | .faultQueueAck => Sys2Proof.Machine.execFaultQueueAck s
  | .create => Sys2Proof.Machine.execCreate s
  | .resize => Sys2Proof.Machine.execResize s
  | .destroy => Sys2Proof.Machine.execDestroy s
  | .key => Sys2Proof.Machine.execKey s
  | .contextCreate => Sys2Proof.Machine.execContextCreate s
  | .contextDestroy => Sys2Proof.Machine.execContextDestroy s
  | .fqconsWrite => Sys2Proof.Machine.execFqconsWrite s
  | .threadRead => Sys2Proof.Machine.execThreadRead s
  | .threadWrite => Sys2Proof.Machine.execThreadWrite s
  | .threadResume => Sys2Proof.Machine.execThreadResume s
  | .attest => Sys2Proof.Machine.execAttest s
  | .hostMemAccess => Sys2Proof.Machine.execHostMemAccess s
  | .linkFailure => Sys2Proof.Machine.execLinkFailure s
  | .fabricWindowActivate => Sys2Proof.Machine.execFabricWindowActivate s
  | .injectionWindowStart => Sys2Proof.Machine.execInjectionWindowStart s
  | .dbgHalt => Sys2Proof.Machine.execDbgHalt s
  | .dbgRun => Sys2Proof.Machine.execDbgRun s
  | .dbgInvi => Sys2Proof.Machine.execDbgInvi s
  | .dbgRead => Sys2Proof.Machine.execDbgRead s
  | .dbgWrite => Sys2Proof.Machine.execDbgWrite s
  | .haltTriggerArrival => Sys2Proof.Machine.execHaltTriggerArrival s
  | .coreHaltStop => Sys2Proof.Machine.execCoreHaltStop s
  | .moduleReset => Sys2Proof.Machine.execModuleReset s
  | .readySet => Sys2Proof.Machine.execReadySet s
  | .powerThrottle => Sys2Proof.Machine.execPowerThrottle s
  | .thermalHalt => Sys2Proof.Machine.execThermalHalt s
  | .registerWrite => Sys2Proof.Machine.execRegisterWrite s
  | .illegalInstruction => Sys2Proof.Machine.execIllegalInstruction s
  | .hashAccessComplete => Sys2Proof.Machine.execHashAccessComplete s
  | .hostSnoop => Sys2Proof.Machine.execHostSnoop s
  | .backInvalidateResponse => Sys2Proof.Machine.execBackInvalidateResponse s
  | .linkFlitReplay => Sys2Proof.Machine.execLinkFlitReplay s

end Sys2Proof.Machine
end

