-- ==== Sys2Proof/Machine/Fetch.lean ====
section
/-!
DEFINITION. Fetching (R32, R43, R66, R391), the two issue rotations of each core (R20, R22), gangs (R27-R30, R366), kernel
cores (R311), and one step of the machine: a step of an engine that is due, an instruction, or the end of the
cycle (log 1, log 2).
-/

namespace Sys2Proof.Machine

/-! ### Fetching -/

/-- What a fetch comes to: a parcel and its break bit, a fault at an address, or a walk that the thread waits for. -/
inductive Parcel where
  | ok (w : Nat) (brk : Bool)
  | fault (cause : Nat) (va : Word)
  | wait
  deriving DecidableEq, Repr

/-- The break bit of the parcel at an address (R391). -/
def State.breakBit (s : State) (cl : Nat) (va : Word) : Bool :=
  let d := (s.cluster cl).dbg
  let base := d.brkVa.toNat / 2 ^ d.brkLog * 2 ^ d.brkLog
  let a := va.toNat
  wbit d.ctl 0 && base ≤ a && a < base + 2 ^ d.brkLog
    && nbit (memGet s.mem (d.brkBase.toNat + (a - base) / 16)).toNat ((a - base) / 2 % 8)
/-- What a core has sent to memory and is still to be performed there: the cycle in which it was issued, address and bytes. -/
def State.ownStores (s : State) (core : Nat) : List (Nat × Nat × List Byte) :=
  s.taccs.flatMap (fun x => match x.2.done with
    | .tst => if coreOf x.2.h = core then (x.2.segs.filter (·.well.isNone)).map fun g => (x.2.sent, g.addr, (x.2.buf.drop g.off).take g.len) else []
    | _ => [])
  ++ (s.reqs.filter fun r => r.pump.isNone && coreOf r.h = core).flatMap fun r => match r.op with
    | .store new => [(r.sent, r.addr, new)]
    | .writeBack l => l.map fun (o, b) => (r.sent, r.addr / 64 * 64 + o, [b])
    | _ => []
/-- Bytes of memory as the threads of a core see them in their own program order (R66): with the core's stores and tile stores
that are on their way, in the order in which they were issued, and its dirty bytes. -/
def State.ownBytes (s : State) (core key : Nat) (bs : List Byte) : List Byte :=
  let put (bs : List Byte) : Nat × Nat × List Byte → List Byte
    | (_, a, new) => (List.range bs.length).map fun i => if a ≤ key + i && key + i < a + new.length then new.getD (key + i - a) 0 else bs.getD i 0
  s.mergeDirty core key ((sortBy Prod.fst (s.ownStores core)).foldl put bs)
/-- The parcel at an address through the instruction cache of a core (R66): what is cached may be older than memory,
until the device replaces it (log 16). -/
def State.cachedParcel (s : State) (core : Nat) (va : Word) (p : Phys) : Parcel × State :=
  let v := BitVec.ofNat 16 (ofBytes (s.ownBytes core p.key (s.readBytes p.key p.ks 2)))
  let fill (s : State) : Parcel × State :=
    let b := s.breakBit (core / 32) va
    (.ok v.toNat b, s.modCore core fun k => { k with icache := tset k.icache (p.key / 2) (v, b) })
  match tfind (s.core core).icache (p.key / 2) with
  | none => fill s
  | some (c, b) =>
    if c = v then (.ok c.toNat b, s)
    else match s.choose 2 with
      | (0, s) => (.ok c.toNat b, s)
      | (_, s) => fill s
/-- A core's instruction cache has something of a sector. -/
def State.sectorCached (s : State) (core key : Nat) : Bool := (s.core core).icache.any fun x => x.1 / 32 = key / 64
/-- Fetches a parcel for a thread: a translation that the core's TLB does not hold is waited for (R246), and so is memory that is not
usable yet (R399); over a link that cannot recover it fails (R380), and so it does where the memory holds an uncorrectable error (R367). A sector of which the core has nothing
passes the limits of its router and its home (R377). -/
def State.fetchThread (s : State) (h : Nat) (va : Word) : Parcel × State :=
  let v := s.viewOf h
  let wait (n : Nat) : Parcel × State := (.wait, s.later n (.tlbWalkComplete h va .fetch))
  match s.translate v va .fetch with
  | .ok p n =>
    let cached : Bool := (tfind (s.core (coreOf h)).icache (p.key / 2)).isSome
    if n ≠ 0 then wait n
    else if !cached && (s.onDeadLink p.key || (linesOf p.key 2).any s.unitBroken) then
      (.fault 6 va, s.modThread h fun t => { t with dataError := true })
    else if !cached && s.unready p.key then wait 1
    else if cached || s.sectorCached (coreOf h) p.key then s.cachedParcel (coreOf h) va p
    else
      let n := ((s.thread h).fetchIn.filter (·.1 = va)).elim 0 Prod.snd
      let e := Event.tlbWalkComplete h va .fetch
      let s1 := if n = 0 then s.leavesCluster h 64 0 e fun s => s else s
      let s2 := if n < 2 && s1.injWait.length = s.injWait.length then s1.arrivesAt p.key 64 e fun s => s else s1
      if s.injWait.length < s2.injWait.length then (.wait, s2)
      else (if n = 0 then s2 else s2.modThread h fun t => { t with fetchIn := none }).cachedParcel (coreOf h) va p
  | .fault c => (.fault c va, s)
  | .miss =>
    match (s.thread h).walkFault with
    | some (a, c) => if a = va then (.fault c va, s) else (.wait, s.threadJoins h va .fetch)
    | none => (.wait, s.threadJoins h va .fetch)
/-- Fetches a parcel for a kernel core: its overlay (R312, R318); an offset outside it raises cause 0x04. -/
def State.fetchPump (s : State) (c : Nat) (va : Word) : Parcel × State :=
  let p := s.pump c
  match p.kernel with
  | none => (.wait, s)
  | some (_, k) =>
    if 4095 ≤ va.toNat then (.fault 4 va, s)
    else (.ok (ofBytes (((p.ovl k).image.drop va.toNat).take 2)) false, s)
def State.fetch (s : State) (va : Word) : Parcel × State :=
  match s.cur with
  | .thread h => s.fetchThread h va
  | .pump c => s.fetchPump c va
/-- What stands at an address: a parcel, or a word with its length in bytes. -/
def State.fetchInsn (s : State) (va : Word) : Parcel × Nat × State :=
  match s.fetch va with
  | (.ok lo b, s) =>
    if lo % 2 = 0 then (.ok lo b, 2, s)
    else match s.fetch (va + 2) with
      | (.ok hi _, s) => (.ok (lo + 2 ^ 16 * hi) b, 4, s)
      | (x, s) => (x, 4, s)
  | (x, s) => (x, 2, s)

/-- What the agent does at its program counter. -/
inductive Next where
  /-- Executes an instruction, in a state with its word in `issue`. -/
  | run (i : Instr) (s : State)
  /-- Something that takes no issue slot, or a fetch trap that takes one. -/
  | done (s : State) (slot : Bool)
  /-- Waits for a walk. -/
  | wait (s : State)

/-- A fetch that does not succeed (R32): TRAPPC is the instruction's address, INSN 0. -/
def State.fetchEnd (s : State) : Parcel → Next
  | .fault c va => .done ({ s with issue := {} }.trap c va) true
  | _ => .wait (match s.cur with | .thread _ => s.blocks .walk | .pump _ => s)
/-- The instruction of a word or parcel; one that is not an instruction is the step ILLEGAL_INSTRUCTION (R47). -/
def insnOf (w : Nat) : Instr := (decodeInsn (w % 2 = 0) w).getD .illegalInstruction
def isRpt : Instr → Bool
  | .rpt .. => true
  | _ => false
/-- One annulled instruction is passed (R43, R44): an RPT parcel counts together with its target. R43 leaves open how an RPT counts whose
target is an RPT again, and whether a parcel with an RPT's major and reserved bits set is one: here RPT and RPT count as one, and the
other is a parcel like any other (log 18). -/
def State.annul (s : State) : Next :=
  let pc := s.pc
  match s.fetch pc with
  | (.ok lo _, s) =>
    let go (n : Nat) (s : State) : Next :=
      .done (s.modSeq fun q => { q with pc := pc + word n, skip := q.skip - 1 }) false
    if lo % 2 = 0 && isRpt (insnOf lo) then
      match s.fetch (pc + 2) with
      | (.ok t _, s) => if t % 2 = 0 then go 4 s else match s.fetch (pc + 4) with
        | (.ok _ _, s) => go 6 s
        | (x, s) => s.fetchEnd x
      | (x, s) => s.fetchEnd x
    else if lo % 2 = 0 then go 2 s
    else match s.fetch (pc + 2) with
      | (.ok _ _, s) => go 4 s
      | (x, s) => s.fetchEnd x
  | (x, s) => s.fetchEnd x
/-- TRAPVAL of a repeat whose stepped number is outside its range: of a queue transfer whose queue number has been stepped too far, that
number (R189, R193); else 0 (R359). -/
def stepVal (r : RptRun) (j w : Nat) : Word :=
  let q (n : BitVec 2) : Word := if r.d && 4 ≤ n.toNat + j then word (n.toNat + j) else 0
  match decodeInsn (w % 2 = 0) w with
  | some (.qld _ n) | some (.qst _ n) | some (.qpx _ _ n) => q n
  | _ => 0
/-- The next instruction of the agent that issues: an annulled one, a repeat of an RPT, or the one at the program
counter. A repeat whose stepped number would exceed 31, or leaves its file's range, raises cause 0x02 (R36). R44 leaves open what a write
of SKIPSTATE by a repeat annuls: here the repeats that are left still run, and what follows the RPT is annulled (log 18). -/
def State.nextInsn (s : State) : Next :=
  let q := s.seq
  if q.skip ≠ 0 && q.rptRun.isNone then s.annul
  else match q.rptRun with
    | some r =>
      match s.fetchInsn (q.pc + 2) with
      | (.ok w b, _, s) =>
        let s := { s with issue := { insn := w, brk := b } }
        let j := r.n - q.rpt.toNat
        match (stepWord (w % 2 = 0) r j w).bind (decodeInsn (w % 2 = 0)) with
        | none => if j = 0 then .run .illegalInstruction s else .done (s.trap 2 (stepVal r j w)) true
        | some i => if i.wf then .run i s else .done (s.trap 2 0) true
      | (x, _, s) => s.fetchEnd x
    | none =>
      match s.fetchInsn q.pc with
      | (.ok w b, _, s) =>
        if isRpt (insnOf w) then
          match s.fetchInsn (q.pc + 2) with
          | (.ok t _, _, s) => .run (insnOf w) { s with issue := { insn := w + 2 ^ 16 * t, brk := b } }
          | (x, _, s) => s.fetchEnd x
        else .run (insnOf w) { s with issue := { insn := w, brk := b } }
      | (x, _, s) => s.fetchEnd x

/-! ### The rotations (R20, R22) -/

/-- The rotation of a slot: 2 × core, + 1 for execute threads. -/
def rotOf (h : Nat) : Nat := 2 * coreOf h + b2n (!isAccess h)
def State.lastSlot (s : State) (h : Nat) : Nat :=
  let k := s.core (coreOf h)
  if isAccess h then k.lastA else k.lastE
/-- The place of a thread in the order of a cycle: rotation by rotation, each from the slot behind the one that issued
last. -/
def State.placeOf (s : State) (h : Nat) : Nat := 4 * rotOf h + (slotOf h + 7 - s.lastSlot h) % 4
/-- A thread whose state lets it issue in this cycle (R9, R20, R392). -/
def State.mayIssue (s : State) (h : Nat) (t : Thread) : Bool :=
  t.run = .ready && t.notBefore ≤ s.cycle && !t.dbgStop && (!t.frozen || t.meets = some s.cycle) && !(s.core (coreOf h)).halted
/-- The oldest instruction that member j of a gang has not issued, if member j − 1 has issued it in an earlier cycle (R28),
and those before it. -/
def Gang.next (g : Gang) (j cycle : Nat) : Option (List GangInsn × GangInsn) :=
  match g.insns.dropWhile fun e => j < e.at_.length with
  | e :: _ => if e.at_.length = j && e.at_.all (· < cycle) then some (g.insns.takeWhile (fun e => j < e.at_.length), e) else none
  | [] => none
/-- A thread that may issue in this cycle; a leader is at most 4 instructions ahead of its last member, a follower issues
what the member before it has issued (R28). -/
def State.unitMayIssue (s : State) (h : Nat) (t : Thread) : Bool :=
  s.mayIssue h t && match t.gang with
  | none => true
  | some (leader, _, j) =>
    let g : Gang := tget {} s.gangs leader
    if j = 0 then g.insns.length < 4 else (g.next j s.cycle).isSome
/-- A kernel core that may issue. -/
def State.pumpMayIssue (s : State) (p : Pump) : Bool :=
  p.kernel.isSome && !p.blocked && p.notBefore ≤ s.cycle
/-- The next agent of this cycle from the cursor on, and its place. A throttled rotation drops every fourth slot
(R402, log 1); kernel cores have none. -/
def State.candidate (s : State) : Option (Nat × Agent) :=
    let ts := if s.throttle && s.cycle % 4 = 3 then [] else
      (s.threads.filter fun (h, t) => t.run = .ready && s.cursor ≤ s.placeOf h && s.unitMayIssue h t).map
        fun (h, _) => (s.placeOf h, Agent.thread h)
    let ps := (s.pumps.filter fun (c, p) => s.cursor ≤ 4096 + c && s.pumpMayIssue p).map fun (c, _) => (4096 + c, Agent.pump c)
    minBy Prod.fst (ts ++ ps)

/-! ### Issuing -/

/-- What an instruction uses is there: its results of earlier instructions (R20), and the flags of an AMO (R295). -/
def State.operandsReady (s : State) (h : Nat) (i : Instr) : Bool :=
  let t := s.thread h
  if t.pend = [] then true
  else
    let out := awaited t.pend s.cycle
    !(awaits t i).any out.contains && !out.contains flagsNum
/-- The flags of an AMO of the thread are still on their way: nothing later issues or traps (R295). -/
def State.flagsOut (s : State) (h : Nat) : Bool := (awaited (s.thread h).pend s.cycle).contains flagsNum
def State.pumpReady (s : State) (c : Nat) (i : Instr) : Bool :=
  let p := s.pump c
  if p.pend = [] then true else !(usesOf i).any (awaited p.pend s.cycle).contains
/-- The rotation's slot of this cycle is taken by slot `h`. -/
def State.slotTaken (s : State) (h place : Nat) : State :=
  let s := s.modCore (coreOf h) fun k => if isAccess h then { k with lastA := slotOf h } else { k with lastE := slotOf h }
  { s with cursor := (place / 4 + 1) * 4 }
/-- The candidate does not issue; the next one of its rotation is asked. -/
def State.skipPlace (s : State) (place : Nat) : State := { s with cursor := place + 1 }
/-- The state of an outcome; a refusal or a fault leaves the state before. -/
def stateOf (s : State) : Ans → State
  | .next s => s
  | _ => s
/-- A resumed thread ignores the break bit of the first instruction that it issues (R391). -/
def State.useBrkSkip (s : State) (h : Nat) : State :=
  if (s.thread h).brkSkip then { s with issue := { s.issue with brk := false } } else s
/-- It has issued that instruction. -/
def State.spendBrkSkip (s : State) (h : Nat) (had : Bool) : State :=
  if had then s.modThread h fun t => { t with brkSkip := false } else s
/-! ### Gangs (R27-R30) -/

def State.gangOf (s : State) (leader : Nat) : Gang := tget {} s.gangs leader
def State.modGang (s : State) (leader : Nat) (f : Gang → Gang) : State := { s with gangs := tmod {} s.gangs leader f }
def Seq.path (q : Seq) : Path := { pc := q.pc, rpt := q.rpt, skip := q.skip, rptRun := q.rptRun }
/-- The thread stands at a place of the common stream: program counter, RPTSTATE and SKIPSTATE are the leader's (R27, R38). -/
def State.onPath (s : State) (h : Nat) (p : Path) : State :=
  s.modThread h fun t => { t with seq := { t.seq with pc := p.pc, rpt := p.rpt, skip := p.skip, rptRun := p.rptRun } }
/-- An instruction that has not issued: the thread is blocked so that it is tried again (R17, R23, R80, R94). -/
def again : Run → Bool
  | .blocked (.queue _) => true
  | .blocked (.recv _) => true
  | .blocked (.send _ _) => true
  | .blocked .inbox => true
  | _ => false
/-- An instruction that a gang member cannot issue yet: it waits, or its address is still translated (R28). -/
def holds (s : State) (h : Nat) : Bool :=
  s.issue.stall || again (s.thread h).run || (s.thread h).run = .blocked .walk
/-- What a follower does of a control transfer or compare-skip (R27): its own link or counter, and its record in the trace if the
leader, who comes before it in the cycle, has taken the transfer (R396). -/
def followerEffect (i : Instr) (leader h : Nat) (s : State) : Option State :=
  let cl := clusterOf h
  let s := if (s.cluster cl).dbg.trcNow.any fun r => r.kind = 5 && r.handle = leader then traceEvent cl 5 h 0 (s.thread h).seq.pc s else s
  match i with
  | .sk .. | .ski .. | .bCc .. | .br _ => some s
  | .call _ => some (s.modThread h fun t => t.setX 30 (t.seq.pc + 4))
  | .jalr _ _ d => some (s.modThread h fun t => t.setX d (t.seq.pc + 4))
  | .loop _ d => some (s.modThread h fun t => t.setX d (t.getX d - 1))
  | _ => none
/-- A load that the member has issued on its own: it has passed, and its value is there or is still to come (R28). -/
def EarlyLoad.apply (x : EarlyLoad) (len : Nat) (t : Thread) : Thread :=
  let t := { t with seq := t.seq.pass len, instret := t.instret + 1 }
  if x.rd = 0 then t
  else match x.val with
    | none => { t with pend := tset t.pend x.rd none }
    | some v => let t := t.setNum x.rd v
      { t with pend := match x.usable with | some c => tset t.pend x.rd (some c) | none => terase t.pend x.rd }
/-- Member h of a gang executes an instruction of the common stream; a follower decides no path (R27). -/
def memberRun (ex : Instr → State → Ans) (leader h : Nat) (e : GangInsn) (s : State) : State :=
  let s := (s.onPath h e.path)
  match tfind e.early (slotIn leader h) with
  | some x => s.modThread h (x.apply e.i.len)
  | none => match if h = leader then none else followerEffect e.i leader h s with
  | some s => s.modThread h fun t => { t with instret := t.instret + 1 }
  | none => stateOf s (ex e.i { s with cur := .thread h, issue := { insn := e.insn, brk := e.brk, cycle := e.at_[slotIn leader h]? } })
where
  /-- The member's index. -/
  slotIn (leader h : Nat) : Nat := (h - leader) / 8
/-- Results that a member takes from what others change too: they are there once all have issued the instruction (R29). -/
def sharedResults : Instr → List Reg
  | .recv _ a d | .recvn _ a d | .ibx a d | .ibxn a d => [a, d]
  | .tqry _ _ d | .dstat _ d => [d]
  | .csrr n d => if n = 0x041 || 0x060 ≤ n.toNat && n.toNat ≤ 0x062 then [d] else []
  | _ => []
/-- The member as it stands behind instructions that it has issued and that others have still to issue: what they do to itself
(R28). What they do to others is not yet there, nor is what it takes from others (R29). -/
def memberAhead (ex : Instr → State → Ans) (leader h : Nat) (es : List GangInsn) (s : State) : State :=
  es.foldl (fun s e => (memberRun ex leader h e s).modThread h fun t =>
    (sharedResults e.i).foldl (fun t r => if r = 0 then t else { t with pend := tset t.pend (pendNum t r) none }) t) s
/-- The register of a load without ordering, which a member of a gang may issue before the others do: it has no effect that another
thread could see, unless races are detected. -/
def plainLoad : Instr → Option Reg
  | .ld _ o _ _ _ d | .ldl _ o _ _ _ d => if o = 0 then some d else none
  | _ => none
/-- Member h issues a load behind instructions of which it has issued all and others have not (R28). It leaves now, unless one of them
has still to put an access on its way: then it follows that (log 18). -/
def issueEarly (ex : Instr → State → Ans) (leader h : Nat) (e : GangInsn) (a s : State) : Option (EarlyLoad × State) :=
  match plainLoad e.i with
  | none => none
  | some d =>
    if a.agenda.length ≠ s.agenda.length || (s.cluster (clusterOf h)).raceEn.contains (s.thread h).ctx then none
    else
      let u := memberRun ex leader h e (s.setThread h (a.thread h))
      let t := u.thread h
      let n := pendNum (a.thread h) d
      let x : EarlyLoad := match tfind t.pend n with
        | some (some c) => { rd := n, val := some (t.getX d), usable := some c }
        | _ => { rd := if d = 0 then 0 else n, val := none, usable := none }
      some (x, { u.setThread h (s.thread h) with cur := s.cur, issue := s.issue })
/-- The last member has issued the gang's oldest instruction: all members retire it, in ascending order, and its effects become
visible (R29). A member that meets a trap now ends the gang: it alone parks, and nothing else of the instruction happens. None
when a member cannot go on yet. -/
def commitGang (ex : Instr → State → Ans) (leader : Nat) (ms : List Nat) (e : GangInsn) (s0 : State) : Option State :=
  let s0 := ms.foldl (fun s h => s.onPath h e.path) s0
  let r := ms.foldl (fun (r : Except (Option State) State) h => match r with
    | .error x => .error x
    | .ok s =>
      let u := memberRun ex leader h e s
      let t := u.thread h
      if t.run = .parked then
        let s1 := memberRun ex leader h e s0
        if (s1.thread h).run = .parked then .error (some s1)
        else
          let s2 := { s0 with issue := { insn := e.insn, brk := e.brk } }.modThread h fun x => { x with fflags := t.fflags }
          .error (some (parkTrap h t.trapCause.toNat t.trapPc t.trapVal s2))
      else if holds u h then .error none
      else .ok u) (Except.ok s0)
  match r with
  | .error x => x
  | .ok s =>
    let g := s.gangOf leader
    let rest := g.insns.drop 1
    let q := if rest = [] then g.path.getD (s.thread leader).seq.path else (s.thread leader).seq.path
    -- a member that waits in the instruction stands before it
    let waits (h : Nat) : Bool := (match (s.thread h).run with | .blocked _ => true | _ => false) && (s.thread h).seq.path = e.path
    let s := if waits leader then s else ms.foldl (fun s h => if waits h then s else s.onPath h q) s
    some { s with gangs := if (s.thread leader).gang.isSome && rest ≠ [] then tset s.gangs leader { g with insns := rest }
                           else terase s.gangs leader }

/-! ### After an issue -/

/-- After an instruction of a thread: one that has not issued leaves the slot to the next thread of the rotation (R20, R22);
an RPT parcel takes none (R36). One whose address is still translated has taken the slot of its cycle, and takes another when it issues
after the walk: R22 does not say how often it counts (log 15). `had`: it ignored a break bit, which it does once (R391). -/
def State.issued (s : State) (h place : Nat) (i : Instr) (had : Bool) : State :=
  if s.issue.stall || again (s.thread h).run then { s with issue := {} }.skipPlace place
  else
    let free := isRpt i && (s.thread h).seq.rptRun.isSome
    let s := { s with issue := {} }
    if free then s else (s.spendBrkSkip h (had && (s.thread h).run ≠ .blocked .walk)).slotTaken h place

/-! ### One step -/

/-- The thread's place in the common stream moves over annulled instructions or an RPT parcel: they take no slot. -/
def State.movePath (s : State) (leader : Nat) (ms : List Nat) (p : Path) : State :=
  if (s.gangOf leader).insns = [] then ms.foldl (fun s m => s.onPath m p) s
  else s.modGang leader fun g => { g with path := some p }
/-- What a fetch has brought into the instruction cache stays, whatever becomes of the instruction. -/
def State.keepFetch (s u : State) (core : Nat) : State :=
  { s.modCore core fun k => { k with icache := (u.core core).icache } with freeCtr := u.freeCtr }
/-- Member h issues an instruction of its gang behind those of `es` (R28). A trap waits until every earlier instruction has
been issued by all, and then ends the gang before this one (R29). -/
def issueMember (ex : Instr → State → Ans) (h place leader n : Nat) (ms : List Nat) (es : List GangInsn) (e : GangInsn)
    (s : State) : State :=
  let e' := { e with at_ := e.at_ ++ [s.cycle] }
  let a := memberAhead ex leader h es s
  if !a.operandsReady h e.i || s.cycle < (a.thread h).notBefore then s.skipPlace place
  else
    let u := memberRun ex leader h e' a
    let t := u.thread h
    if t.run = .parked then
      if es ≠ [] then s.skipPlace place
      else
        let s := ms.foldl (fun s m => s.onPath m e.path) s
        { (memberRun ex leader h e' s) with issue := {} }.slotTaken h place
    else if holds u h then
      if es ≠ [] then s.skipPlace place else { u with issue := {} }.skipPlace place
    else
      let j := e.at_.length
      let (e', s) := if j + 1 = n then (e', s) else match issueEarly ex leader h e' a s with
        | some (x, s) => ({ e' with early := tset e'.early j x }, s)
        | none => (e', s)
      let s := s.modGang leader fun g =>
        if j = 0 then { insns := g.insns ++ [e'], path := none }
        else { g with insns := es ++ e' :: g.insns.drop (es.length + 1) }
      if j + 1 < n then s.slotTaken h place
      else match commitGang ex leader ms e' s with
        | some s => { s with issue := {} }.slotTaken h place
        | none => (s.modGang leader fun g => { g with insns := es ++ e :: g.insns.drop (es.length + 1) }).skipPlace place
/-- The leader of a gang fetches and issues (R27, R28). -/
def issueLeader (ex : Instr → State → Ans) (h place n : Nat) (ms : List Nat) (s : State) : State :=
  let g := s.gangOf h
  let a := memberAhead ex h h g.insns s
  let a := match g.path with | some p => a.onPath h p | none => a
  if (a.thread h).run ≠ .ready || (a.thread h).gang.isNone || s.cycle < (a.thread h).notBefore then s.skipPlace place
  else match { a with cur := .thread h, issue := {} }.nextInsn with
    | .wait u => if g.insns = [] then u.skipPlace place else s.skipPlace place
    | .done u slot =>
      if !slot then (s.keepFetch u (coreOf h)).movePath h ms (u.thread h).seq.path
      else if g.insns = [] && !s.flagsOut h then { u with issue := {} }.slotTaken h place
      else s.skipPlace place
    | .run i u =>
      let s := s.keepFetch u (coreOf h)
      let u := u.useBrkSkip h
      let e : GangInsn := { i := i, insn := u.issue.insn, brk := u.issue.brk, path := (u.thread h).seq.path, at_ := [] }
      let had := (s.thread h).brkSkip
      let v := (memberRun ex h h e u).thread h
      if isRpt i && v.seq.rptRun.isSome then s.movePath h ms v.seq.path
      else
        let r := issueMember ex h place h n ms g.insns e s
        if r.gangs = s.gangs && r.thread h = s.thread h then r else r.spendBrkSkip h had
/-- A thread whose TQTRY has no answer yet has parked (R340). -/
def State.parksEarly (s u : State) : Bool :=
  s.threads.any fun (h, t) => (tfind t.pend takeNum).isSome && t.run ≠ .parked && (u.thread h).run = .parked
/-- An instruction of a thread in no gang. One that would trap waits for the answer of an earlier TQTRY (R340). -/
def issueOwn (ex : Instr → State → Ans) (h place : Nat) (s : State) : Ans :=
  match s.nextInsn with
  | .wait s => .next (s.skipPlace place)
  | .done u slot => .next (if !slot then { u with issue := {} }
      else if s.flagsOut h || s.parksEarly u then (s.keepFetch u (coreOf h)).skipPlace place
      else { u with issue := {} }.slotTaken h place)
  | .run i s =>
    if !s.operandsReady h i then .next (s.skipPlace place)
    else
      let had := (s.thread h).brkSkip
      match ex i (s.useBrkSkip h) with
      | .next u => .next (if s.parksEarly u then s.skipPlace place else u.issued h place i had)
      | r => r
/-- A thread that a save stops in this cycle: an instruction that would trap now does, and nothing else issues (R358). -/
def issueTrap (ex : Instr → State → Ans) (h place : Nat) (s : State) : State :=
  let u := stateOf s (issueOwn ex h place s)
  let u := if (u.thread h).seq.rptRun.isSome && u.cursor = s.cursor then stateOf u (issueOwn ex h place u) else u
  if (u.thread h).run = .parked then u else (s.keepFetch u (coreOf h)).skipPlace place
/-- An instruction of a thread, of its own or of its gang. -/
def issueThread (ex : Instr → State → Ans) (h place : Nat) (s : State) : Ans :=
  let s := { s with cur := .thread h, issue := {} }
  let t := s.thread h
  match t.gang with
  | some (leader, n, j) =>
    let ms := membersOf t h
    let r := if j = 0 then issueLeader ex h place n ms s else match (s.gangOf leader).next j s.cycle with
      | some (es, e) => issueMember ex h place leader n ms es e s
      | none => s.skipPlace place
    .next (if s.parksEarly r then s.skipPlace place else r)
  | none => if t.frozen then .next (issueTrap ex h place s) else issueOwn ex h place s
/-- An instruction of a kernel core. -/
def issuePump (ex : Instr → State → Ans) (c place : Nat) (s : State) : Ans :=
  let s := { s with cur := .pump c, issue := {} }
  match s.nextInsn with
  | .wait s => .next (s.skipPlace place)
  | .done s slot => .next (if slot then { s with issue := {} }.skipPlace place else { s with issue := {} })
  | .run i s =>
    if !s.pumpReady c i then .next (s.skipPlace place)
    else match ex i s with
      | .next s =>
        let free := isRpt i && (s.pump c).seq.rptRun.isSome
        .next (if free then { s with issue := {} } else { s with issue := {} }.skipPlace place)
      | r => r
/-- The events of a cycle take their turns: in the order of their handles, behind the records that wait. A taken control transfer
that would have to wait is dropped and counted (R396, log 24). -/
def Dbg.takeTurns (d : Dbg) : Dbg :=
  (sortBy (·.handle) d.trcNow).foldl (fun d r =>
    if r.kind = 5 && d.trcWait ≠ [] then { d with trcLost := if d.trcLost.toNat < 2 ^ 32 - 1 then d.trcLost + 1 else d.trcLost }
    else { d with trcWait := d.trcWait ++ [r] }) { d with trcNow := [] }
/-- A module writes the record whose turn it is, at its line's home, and then TRCPOS goes on (R396). -/
def State.writeTrace (s : State) (cl : Nat) : State :=
  let s := s.modCluster cl fun k => { k with dbg := k.dbg.takeTurns }
  let d := (s.cluster cl).dbg
  match d.trcWait with
  | [] => s
  | r :: rest =>
    let a := d.trcBase.toNat + 16 * (d.trcPos.toNat % 2 ^ d.trcLog)
    if d.trcBase = 0 then s
    else s.atUnits (.trace cl) 0 true (linesOf a 16) (fun s => s) fun s =>
      let s := s.modCluster cl fun k => { k with dbg := { k.dbg with trcWait := rest, trcPos := k.dbg.trcPos + 1 } }
      (putRaw a (bytesOfWord 8 r.w0 ++ bytesOfWord 8 r.w1) s).afterWrite a 16 0
/-- Each module writes at most one record in a cycle (R396). -/
def State.writeTraces (s : State) : State :=
  s.clusters.foldl (fun s (cl, k) => if k.dbg.trcNow = [] && k.dbg.trcWait = [] then s else s.writeTrace cl) s
/-- What counts nothing in a halted cluster, though it began after the halt, stops counting too (R393). -/
def State.holdTimed (s : State) : State :=
  s.clusters.foldl (fun s (cl, k) => if k.dbg.halted then (s.pauseTimed cl).pauseSlices cl else s) s
/-- The end of a cycle. -/
def State.tick (s : State) : State :=
  let s := s.writeTraces.holdTimed
  { s with cycle := s.cycle + 1, cursor := 0 }.recordReleases
/-- The first entry of the agenda is taken; one that would park a thread whose TQTRY has no answer yet comes after that (R340). -/
def takeEvent (ex : Instr → State → Ans) (s : State) (e : Event) (rest : List (Nat × Event)) : Ans :=
  if !e.wf then .fault .malformedEvent
  else match ex e.instr { s with agenda := rest, ev := some e } with
    | .next u => .next (if s.parksEarly u then { s with agenda := rest }.later 1 e else { u with ev := none, issue := {} })
    | r => r
/-- The next instruction of this cycle, or what follows the last one. -/
def issueNext (ex : Instr → State → Ans) (s : State) (end_ : State → Ans) : Ans :=
  match s.candidate with
  | some (place, .thread h) => issueThread ex h place s
  | some (place, .pump c) => issuePump ex c place s
  | none => end_ s
/-- One step with a given meaning of instructions: the agenda's first entry if it is due, else the next instruction of
this cycle, else the end of the cycle. An entry that follows the instructions of its cycle comes before that end. -/
def stepWith (ex : Instr → State → Ans) (s : State) : Ans :=
  match s.agenda with
  | (due, e) :: rest =>
    if s.cycle < due then issueNext ex s fun s => .next s.tick
    else if isLate e then issueNext ex s fun s => takeEvent ex s e rest
    else takeEvent ex s e rest
  | [] => issueNext ex s fun s => .next s.tick

/-! ### Placing an instruction where the next step fetches it (log 14) -/

/-- The partition that an instruction is placed in when there is none: granule 0 and nothing else. -/
def placePart : Part :=
  { gmask := 1, poolg := 0, sq := 1, weight := 1, supcore := 0, limcl := 0, limsl := 0, limch := 0, trbase := 0x20000, fwd := 0,
    fab := [], redw := [], sroot := 0, saentry := 0, seentry := 0, sarg := 0, sstack := 0, sstacksz := 0, sctxid := 0,
    sslots := 1, record := [] }
/-- Where it is placed: virtual and physical address. -/
def placeAddr : Nat := 0x10000
/-- The translation of its page. -/
def placeEntry (home : Nat) : TlbEntry :=
  { ctx := 0, va := placeAddr, size := 12, frame := placeAddr, r := true, w := true, x := true, u := true, d := true, nc := false,
    sa := false, cc := false, home := home, key := 0 }
/-- Eight bytes: the instruction, followed by zeros. -/
def placeBytes (nbits w : Nat) : List Byte := toBytes 8 (w % 2 ^ nbits)
/-- The state in which the next step fetches and runs the instruction of nbits bits: a supervisor thread of partition 0
on core 0, in slot 0, or in slot 4 for an instruction of execute threads; or the kernel core of pump 0. -/
def State.placeInsn (s : State) (nbits w : Nat) : State :=
  let bs := placeBytes nbits w
  let role := match decodeTableWord nbits w with | some i => i.role | none => .both
  let h := if role = .execute then 4 else 0
  let s := { s with
    agenda := s.agenda.filter fun x => s.cycle < x.1
    gangs := [], throttle := false, issue := {}, pf := { s.pf with clusters := s.pf.clusters ||| 1, chans := s.pf.chans ||| (2 ^ 24 - 1) }
    parts := if (tfind s.parts 0).isSome then s.parts else tset s.parts 0 placePart
    ctxs := if (tfind s.ctxs 0).isSome then s.ctxs else tset s.ctxs 0 { part := 0, super := true, root := 0 } }
  if role = .pump then
    let s := s.modPump 0 fun p =>
      { p with seq := {}, pend := [], notBefore := 0, blocked := false,
               ovl0 := { p.ovl0 with state := .running, handle := 1, image := bs ++ List.replicate 4088 0 },
               kernel := some ({ handle := 1, entry := 0, arg := 0, ctx := 0, core := 0, page := none, node := none }, 0) }
    { s with cursor := 4096 }
  else
    let s := { s with mem := memWrite s.mem placeAddr bs, lines := terase s.lines (placeAddr / 256), tags := terase s.tags (placeAddr / 256),
                      broken := s.broken.filter fun u => !(linesOf placeAddr 8).contains u }
    let s := s.modCore 0 fun k =>
      { k with halted := false, tlb := tlbPut 128 (placeEntry s.pf.devIdx) k.tlb,
               icache := k.icache.filter fun x => x.1 < placeAddr / 2 || placeAddr / 2 + 4 ≤ x.1 }
    let s := s.modThread h fun t =>
      { t with run := .ready, notBefore := 0, pend := [], dbgStop := false, frozen := false, sup := true, ctx := 0, gang := none,
               seq := { t.seq with pc := word placeAddr, skip := 0, rpt := 0, rptRun := none } }
    { s with cursor := s.placeOf h }

end Sys2Proof.Machine
end

