-- ==== Sys2Proof/Machine/Step.lean ====
section
/-! DEFINITION. One step of the machine, and the placing of an instruction where the next step fetches it. -/

namespace Sys2Proof.Machine

/-- One step. -/
def step (s : State) : Host.Outcome State Fault Refusal := stepWith exec s
/-- `s` with an instruction placed where `step` fetches its next one (log 14). -/
def State.withFetchWord (s : State) (nbits w : Nat) : State := s.placeInsn nbits w

end Sys2Proof.Machine
end

