-- ==== Sys2Proof/Safety.lean ====
section
/-!
DEFINITION. What counts as a safe run: the machine stops only through an agenda entry that names a part that the
module does not have (log 2), which no run from a state with a well-formed agenda meets.
-/

namespace Sys2Proof

/-- Every entry of the agenda names parts that the module has. -/
def Machine.State.agendaOk (s : Machine.State) : Bool := s.agenda.all fun x => x.2.wf
/-- An outcome that is a next state. -/
def Machine.goesOn (o : Machine.Ans) : Bool := match o with | .next _ => true | _ => false

end Sys2Proof
end

