-- ==== Sys2Proof/Certificates/Slice0/Obligations.lean ====
section
/-!
DEFINITION. The statements for the provers. Each says what the rules of spec/ say that an instruction, a step of an
engine or the machine does; the vocabulary that they share stands first. `Completes i s P` says that `exec i s` answers
a next state, and what that state holds.
-/

namespace Sys2Proof.Spec

open Sys2Proof.Machine

/-! ### Vocabulary -/

/-- `exec i s` answers a next state, of which P holds. -/
def Completes (i : Instr) (s : State) (P : State → Prop) : Prop := ∃ t, exec i s = .next t ∧ P t

/-- The checks that come before an instruction's own effect let the issuing agent through: it is an instruction, the
role fits, the level suffices, no break bit is set (R15, R329, R391). -/
abbrev Runs (i : Instr) (s : State) : Prop :=
  (match s.cur with
    | .pump _ => pumpRuns i && i.wf
    | .thread h => i.wf && roleOk h i.role && (!i.supervisor || (s.thread h).sup) && !s.issue.brk) = true
/-- The issuing thread is h, and `Runs`. -/
abbrev RunsOn (h : Nat) (i : Instr) (s : State) : Prop := s.cur = .thread h ∧ Runs i s
/-- No cluster records a trace (R396). -/
def NoTrace (s : State) : Prop := ∀ cl, (s.cluster cl).dbg.trcBase = 0
/-- Nothing but threads differs: memory, wells, queues, inboxes, every other part is as before. -/
def ThreadsOnly (s t : State) : Prop := t = { s with threads := t.threads }
/-- Nothing but one thread differs. -/
def ThreadOnly (h : Nat) (s t : State) : Prop := ThreadsOnly s t ∧ ∀ g, g ≠ h → t.thread g = s.thread g
/-- Nothing but one thread and the agenda differs. -/
def ThreadAgenda (h : Nat) (s t : State) : Prop :=
  t = { s with threads := t.threads, agenda := t.agenda } ∧ ∀ g, g ≠ h → t.thread g = s.thread g
/-- Nothing but the scalar registers, the program counter, the repeat and skip counters and INSTRET of the issuing agent differs; no
register becomes awaited; every byte of memory reads as before. -/
def RegsOnly (s t : State) : Prop :=
  (∀ a, memGet t.mem a = memGet s.mem a) ∧
  match s.cur with
  | .thread h => ThreadOnly h s t ∧
      t.thread h = { s.thread h with seq := (t.thread h).seq, shadow := (t.thread h).shadow, instret := (t.thread h).instret,
                                     pend := (t.thread h).pend } ∧ ∀ x, x ∈ (t.thread h).pend → x ∈ (s.thread h).pend
  | .pump c => t = { s with pumps := t.pumps } ∧ (∀ g, g ≠ c → t.pump g = s.pump g) ∧
      t.pump c = { s.pump c with seq := (t.pump c).seq, pend := (t.pump c).pend } ∧ ∀ x, x ∈ (t.pump c).pend → x ∈ (s.pump c).pend
/-- x[d] is v and every other scalar register is as before; x0 takes nothing (R14). -/
def Writes (s t : State) (d : Reg) (v : Word) : Prop := ∀ r, t.getX r = if r = d ∧ r ≠ 0 then v else s.getX r
/-- No scalar register is written. -/
def WritesNone (s t : State) : Prop := ∀ r, t.getX r = s.getX r
/-- The scalar registers of thread h: x[d] is v and the others are as before. -/
def WritesOf (h : Nat) (s t : State) (d : Reg) (v : Word) : Prop :=
  ∀ r, (t.thread h).getX r = if r = d ∧ r ≠ 0 then v else (s.thread h).getX r
/-- Two registers are written, the second last; the instructions with two results name two different ones (R74). -/
def WritesTwo (s t : State) (d : Reg) (v : Word) (a : Reg) (w : Word) : Prop :=
  ∀ r, t.getX r = if r = a ∧ r ≠ 0 then w else if r = d ∧ r ≠ 0 then v else s.getX r
/-- The agent has no acquire and no release out, and no TQTRY without an answer, so that what R270 and R337 order behind them may go
on. -/
abbrev Ungated (s : State) : Prop := s.acqOut s.cur = false ∧ s.relOut s.cur = false ∧ s.takeOut s.cur (s.cycle + 1) = false
/-- The table lists every number once, in rising order: the form in which the model keeps its tables. -/
abbrev Rising {β : Type} (t : Table β) : Prop := t.Pairwise fun x y => x.1 < y.1
/-- One more instruction of the thread has retired (R24). -/
def Counted (s t : State) : Prop := ∀ h, s.cur = .thread h → (t.thread h).instret = (s.thread h).instret + 1
/-- The agent stands behind the instruction of n bytes: a repeat of an RPT leaves the program counter at the RPT parcel
until it is the last one (R36, R38). -/
def Moved (n : Nat) (s t : State) : Prop :=
  match s.seq.rptRun with
  | none => t.pc = s.pc + word n ∧ t.seq.rpt = s.seq.rpt ∧ t.seq.rptRun = none
  | some r => if s.seq.rpt.toNat ≤ 1 then t.pc = s.pc + word (2 + n) ∧ t.seq.rpt = 0 ∧ t.seq.rptRun = none
              else t.pc = s.pc ∧ t.seq.rpt = s.seq.rpt - 1 ∧ t.seq.rptRun = some r
/-- The instruction of n bytes has retired: it is passed and counted, and nothing is annulled behind it. -/
def Passed (n : Nat) (s t : State) : Prop := Counted s t ∧ t.seq.skip = s.seq.skip ∧ Moved n s t
/-- A thread that an engine's step takes past its instruction of n bytes. -/
def PassedOf (h n : Nat) (s t : State) : Prop :=
  (t.thread h).seq = { (s.thread h).seq.pass n with x := (t.thread h).seq.x } ∧ (t.thread h).instret = (s.thread h).instret + 1
/-- The instruction writes v to x[d] and has no other effect. -/
def Result (i : Instr) (s : State) (d : Reg) (v : Word) : Prop :=
  Completes i s fun t => Writes s t d v ∧ Passed i.len s t ∧ RegsOnly s t
/-- The step of an engine that s is taking. -/
abbrev Takes (e : Event) (s : State) : Prop := s.ev = some e
/-- An event is on the agenda for a cycle. -/
abbrev Due (n : Nat) (e : Event) (t : State) : Prop := (n, e) ∈ t.agenda
/-- The thread is blocked, for a reason. -/
abbrev BlockedFor (h : Nat) (w : Why) (t : State) : Prop := (t.thread h).run = .blocked w
/-- The thread is in its rotation again and may issue from a cycle on. -/
abbrev ReadyAt (h n : Nat) (t : State) : Prop := (t.thread h).run = .ready ∧ (t.thread h).notBefore = n
/-- The cluster router of a thread lets every request in (R377). -/
abbrev UnlimitedOf (h : Nat) (s : State) : Prop := s.limitAt (clusterOf h) ((s.partOfCluster (clusterOf h)).getD 0) = 0
/-- That of the issuing thread does. -/
def Unlimited (s : State) : Prop := ∀ h, s.cur = .thread h → UnlimitedOf h s
/-- What the issuing agent's access at a reaches: physical memory at p, without a walk, for a thread through its core's TLB; a
kernel core, whose TLB is that of its die, reaches its own device only (R246, R329). -/
def Reaches (s : State) (a : Word) (acc : Access) (p : Phys) : Prop :=
  (∃ n, s.translate s.view a acc = .ok p n ∧ ∀ h, s.cur = .thread h → n = 0) ∧ ∀ c, s.cur = .pump c → p.key < 2 ^ 51
/-- A request of the issuing agent for an operation at p is on its way to p's home (R251); with a release, it may still be
held back. -/
def RequestedFor (due : Nat) (s t : State) (p : Phys) (op : FarOp) : Prop :=
  ∃ r, Due due (.farAccessPerform r) t ∧ r.addr = p.key ∧ r.key = p.ks ∧ r.op = op ∧ r.sent = s.cycle ∧
    r.h = (s.farReq 0 p op).h ∧ r.pump = (s.farReq 0 p op).pump
def Requested (s t : State) (p : Phys) (op : FarOp) : Prop := ∃ due, RequestedFor due s t p op
/-- The instruction has not issued: it is tried again in the next cycle, at its program counter (R20). -/
def TriedAgain (s t : State) : Prop := t.issue.stall = true ∧ t.pc = s.pc ∧ WritesNone s t

/-- The thread is in no gang, and no end of its wait has been noted (R29, R30). -/
abbrev Alone (h : Nat) (s : State) : Prop := (s.thread h).gang = none ∧ (s.thread h).fin = none
/-- The thread has parked with a trap (R358): TRAPCAUSE, TRAPPC (the program counter's 56 bits, R360) and TRAPVAL are written; its registers
and its program counter are as before; no other thread parks. -/
def Trapped (h cause : Nat) (val : Word) (s t : State) : Prop :=
  (t.thread h).run = .parked ∧ (t.thread h).trapCause = BitVec.ofNat 8 cause ∧ (t.thread h).trapPc = word ((s.thread h).seq.pc.toNat % 2 ^ 56) ∧
  (t.thread h).trapVal = val ∧ (t.thread h).seq.pc = (s.thread h).seq.pc ∧ (t.thread h).seq.x = (s.thread h).seq.x ∧
  (t.thread h).shadow = (s.thread h).shadow ∧ (t.thread h).instret = (s.thread h).instret ∧
  ∀ g, g ≠ h → (t.thread g).run = (s.thread g).run ∧ (t.thread g).seq = (s.thread g).seq

end Sys2Proof.Spec

open Sys2Proof Sys2Proof.Machine Sys2Proof.Spec

/-! ### Reading and writing instructions -/

/-- Words that the chapters' tables assemble are read as the instructions that they stand for (R32, R33, R35, R39). -/
def Obligations.DecodedExamples : Prop :=
  decodeTableWord 32 0xFFFE0285 = some (.addi 0x7FFF 0 5) ∧ decodeTableWord 32 0x00274C83 = some (.add 19 20 25) ∧
  decodeTableWord 32 0x00009495 = some (.ski 0 9 1 1) ∧ decodeTableWord 32 0x00020A61 = some (.csrr 1 20) ∧
  decodeTableWord 32 0x001034BB = some (.bar 8 3 9) ∧ decodeTableWord 32 0x0041C057 = some (.wacc 0 28 0) ∧
  decodeTableWord 32 0x014074C1 = some (.draw 5 7 9) ∧ decodeTableWord 32 0x814801C3 = some (.tqry 5 4 3) ∧
  decodeTableWord 32 0x0026AD5D = some (.mma 0 19 10 26) ∧ decodeTableWord 32 0x00861621 = some (.ld 1 0 0 3 1 12) ∧
  decodeTableWord 32 0x0146422B = some (.tld 5 3 4 4) ∧ decodeTableWord 32 0x02906031 = some (.redFadd 0 0 8 6) ∧
  decodeTableWord 32 0x0018B535 = some (.cpy 0 0 12 11 10) ∧ decodeTableWord 32 0x004B7C37 = some (.bkFil 5 23 24) ∧
  decodeTableWord 32 0x040811C7 = some (.prd 4 1 3) ∧ decodeTableWord 32 0x00400545 = some (.tqtake 10) ∧
  decodeTableWord 16 0x2844 = some (.vsubF32Parcel 5 1) ∧ decodeTableWord 16 0x1432 = some (.rpt 1 0 1 3) ∧
  decodeTableWord 16 0x0006 = some .nop16 ∧ decodeTableWord 16 0x000A = none ∧ decodeTableWord 32 0x00000001 = none

/-- The instructions that have an encoding; the other rows of the opcode table are steps of engines. -/
def Sys2Proof.Spec.Encoded (i : Instr) : Prop := (encodeTable i).isSome = true

/-- Every well-formed instruction that has an encoding is read back from it, whatever follows. -/
def Obligations.DecodeOfEncode : Prop :=
  ∀ (i : Instr) (rest : List (BitVec 16)), Encoded i → i.wf = true → decode (encode i ++ rest) = .ok (i, rest)

/-- R32: the length of what is read follows from bit 0 of the first parcel alone. -/
def Obligations.LengthFromFirstParcel : Prop :=
  ∀ (p : BitVec 16) (rest : List (BitVec 16)) (i : Instr) (left : List (BitVec 16)), decode (p :: rest) = .ok (i, left) →
    (p.toNat % 2 = 0 → left = rest ∧ i.len = 2) ∧ (p.toNat % 2 = 1 → left = rest.drop 1 ∧ i.len = 4)

/-! ### Steps -/

/-- The entry of the agenda that is due is taken: a step is `exec` of the row that it is an occurrence of. One that would park a thread
whose TQTRY has no answer yet comes after that: it is put off by a cycle, with nothing of it done (R340). -/
def Sys2Proof.Spec.StepTakesDueEvent : Prop :=
  ∀ (s : State) (due : Nat) (e : Event) (rest : List (Nat × Event)), s.agenda = (due, e) :: rest → due ≤ s.cycle →
    isLate e = false → e.wf = true →
    ((∀ h, tfind (s.thread h).pend takeNum = none) → Rising s.threads →
      step s = match exec e.instr { s with agenda := rest, ev := some e } with
        | .next t => .next { t with ev := none, issue := {} }
        | r => r) ∧
    (∀ t h, exec e.instr { s with agenda := rest, ev := some e } = .next t → (h, s.thread h) ∈ s.threads →
      (tfind (s.thread h).pend takeNum).isSome = true → (s.thread h).run ≠ .parked → (t.thread h).run = .parked →
      step s = .next (State.later { s with agenda := rest } 1 e))

/-- No entry of the agenda is due before the instructions of this cycle. -/
def Sys2Proof.Spec.NothingDue (s : State) : Prop :=
  match s.agenda with
  | [] => True
  | (due, e) :: _ => s.cycle < due ∨ isLate e = true

/-- A step runs the instruction that the word at the program counter decodes to: for the thread whose turn it is, without a
gang and outside RPT and annulment, with its operands there. Around `exec`, the word and its break bit are put into
`issue`, and the rotation's slot is taken unless the instruction has to be tried again; one that would park a thread whose TQTRY has no
answer yet does not issue (R340). -/
def Obligations.StepRunsDecodedInstruction : Prop :=
  ∀ (s u : State) (h place w n : Nat) (b : Bool) (i : Instr), NothingDue s → s.candidate = some (place, .thread h) →
    (s.thread h).gang = none → (s.thread h).frozen = false → (s.thread h).seq.skip = 0 → (s.thread h).seq.rptRun = none →
    State.fetchInsn { s with cur := .thread h, issue := {} } (s.thread h).seq.pc = (.ok w b, n, u) →
    decodeInsn (w % 2 = 0) w = some i → isRpt i = false →
    State.operandsReady { u with issue := { insn := w, brk := b } } h i = true →
    step s = match exec i (State.useBrkSkip { u with issue := { insn := w, brk := b } } h) with
      | .next t => .next (if u.parksEarly t then State.skipPlace { u with issue := { insn := w, brk := b } } place
                          else t.issued h place i (u.thread h).brkSkip)
      | r => r

/-- A step runs, on the kernel core whose turn it is, the instruction that the word at its program counter decodes to; around `exec`
only `issue` and the rotation's slot are set. -/
def Obligations.StepRunsPumpInstruction : Prop :=
  ∀ (s u : State) (c place w n : Nat) (b : Bool) (i : Instr), NothingDue s → s.candidate = some (place, .pump c) →
    (s.pump c).seq.skip = 0 → (s.pump c).seq.rptRun = none →
    State.fetchInsn { s with cur := .pump c, issue := {} } (s.pump c).seq.pc = (.ok w b, n, u) →
    decodeInsn (w % 2 = 0) w = some i → isRpt i = false →
    State.pumpReady { u with issue := { insn := w, brk := b } } c i = true →
    step s = match exec i { u with issue := { insn := w, brk := b } } with
      | .next t => .next ({ t with issue := {} }.skipPlace place)
      | r => r

/-- A parcel that a thread fetches is the two bytes that stand at the translated address, with the break bit of its address, when its
core's instruction cache does not hold the parcel (R66, R391): of a byte that a sector of the core's first-level cache holds dirty, or that
a store of the core on its way will write, the core's own (`State.ownBytes`). Memory and threads stay as they are. Memory that holds an
uncorrectable error raises cause 0x06 (R367). A translation that the cluster's or die's buffer holds takes its 4 or 12 cycles first
(R246). No limit of R377 holds the fetch back here. -/
def Obligations.FetchReadsMemory : Prop :=
  (∀ (s : State) (h : Nat) (va : Word) (p : Phys), s.cur = .thread h →
    s.translate (s.viewOf h) va .fetch = .ok p 0 → tfind (s.core (coreOf h)).icache (p.key / 2) = none →
    s.onDeadLink p.key = false → s.unready p.key = false → (linesOf p.key 2).any s.unitBroken = false →
    (s.thread h).fetchIn = none → (∀ point q, s.limitAt point q = 0) →
    (s.fetch va).1 = .ok (ofBytes (s.ownBytes (coreOf h) p.key (s.readBytes p.key p.ks 2)) % 2 ^ 16) (s.breakBit (coreOf h / 32) va) ∧
    (s.fetch va).2.mem = s.mem ∧ (s.fetch va).2.threads = s.threads) ∧
  (∀ (s : State) (h : Nat) (va : Word) (p : Phys), s.cur = .thread h →
    s.translate (s.viewOf h) va .fetch = .ok p 0 → tfind (s.core (coreOf h)).icache (p.key / 2) = none →
    (linesOf p.key 2).any s.unitBroken = true → (s.fetch va).1 = .fault 6 va) ∧
  (∀ (s : State) (h : Nat) (va : Word) (p : Phys) (x : Nat), s.cur = .thread h →
    s.translate (s.viewOf h) va .fetch = .ok p x → x ≠ 0 →
    s.fetch va = (.wait, s.later x (.tlbWalkComplete h va .fetch)))

/-- When nothing is due and no agent can issue, a step ends the cycle; it changes nothing else where no debug module has a trace record
to write, no cluster is halted and no locks are released. A record whose turn it is is written at its place in the ring and counted in
TRCPOS; a taken control transfer that finds one waiting is dropped and counted in TRCLOST (R396). That the record is in memory at the end
of the cycle in which it leaves is log 1; its turns are log 24. -/
def Sys2Proof.Spec.StepEndsCycle : Prop :=
  ∀ (s : State), (∀ x, s.agenda.head? = some x → s.cycle < x.1) → s.candidate = none →
    ((∀ x, x ∈ s.clusters → x.2.dbg.trcNow = [] ∧ x.2.dbg.trcWait = [] ∧ x.2.dbg.halted = false) →
      (∀ w, w ∈ s.landings → w.at_ ≠ s.cycle + 1) → step s = .next { s with cycle := s.cycle + 1, cursor := 0 }) ∧
    (∀ cl k r, s.clusters = [(cl, k)] → k.dbg.trcBase ≠ 0 → k.dbg.halted = false → (∀ w, w ∈ s.landings → w.at_ ≠ s.cycle + 1) → (∀ x, x ∈ s.ctxs → x.2.launchPage = none) →
      let a := k.dbg.trcBase.toNat + 16 * (k.dbg.trcPos.toNat % 2 ^ k.dbg.trcLog)
      s.mustWait (linesOf a 16) true (s.reachedAt (.trace cl)) 0 = false →
      let written (t : State) : Prop := t.cycle = s.cycle + 1 ∧ (∀ h, (t.thread h).seq = (s.thread h).seq) ∧ t.mem = memWrite s.mem a (bytesOfWord 8 r.w0 ++ bytesOfWord 8 r.w1) ∧
        (t.cluster cl).dbg.trcPos = k.dbg.trcPos + 1 ∧ (t.cluster cl).dbg.trcNow = [] ∧ (t.cluster cl).dbg.trcWait = []
      (k.dbg.trcNow = [r] → k.dbg.trcWait = [] → ∃ t, step s = .next t ∧ written t ∧ (t.cluster cl).dbg.trcLost = k.dbg.trcLost) ∧
      (∀ x, k.dbg.trcNow = [x] → x.kind = 5 → k.dbg.trcLost.toNat < 2 ^ 32 - 1 → k.dbg.trcWait = [r] →
        ∃ t, step s = .next t ∧ written t ∧ (t.cluster cl).dbg.trcLost = k.dbg.trcLost + 1))

/-- No instruction and no step of an engine stops the machine: it stops only at an entry of the agenda that names a part
that the module does not have. -/
def Sys2Proof.Spec.StepStopsOnlyAtMalformedEvent : Prop :=
  ∀ (s : State), (∃ t, step s = .next t) ∨
    (step s = .fault .malformedEvent ∧ ∃ due e rest, s.agenda = (due, e) :: rest ∧ e.wf = false)

/-- What module reset leaves (R400): no thread, no partition, no context, no cached line, no lock. The model's choices are that the cycle
count is 0 (log 24), that the registers of every slot read 0 (log 6) and that every byte of memory reads as 0 (log 5). -/
def Obligations.ResetState : Prop :=
  State.reset.cycle = 0 ∧ State.reset.threads = [] ∧ State.reset.parts = [] ∧ State.reset.ctxs = [] ∧
  State.reset.lines = [] ∧ State.reset.locks = [] ∧ State.reset.copies = [] ∧ State.reset.throttle = false ∧
  (∀ h, (State.reset.thread h).run = .unused) ∧ (∀ h r, (State.reset.thread h).getX r = 0) ∧
  (∀ a, memGet State.reset.mem a = unlistedByte) ∧ State.reset.candidate = none

/-! ### Together -/

/-- What a step does (log 2): it takes the event that is due; with no event due and no instruction to issue it ends the cycle; it stops at a malformed event only. -/
def Obligations.AgendaSteps : Prop := StepTakesDueEvent ∧ StepEndsCycle ∧ StepStopsOnlyAtMalformedEvent

/-! ### Registers and the checks of every instruction -/

/-- R14, R45: x0 reads 0 and takes no write; every other write of a scalar register is read back, and no other register
of this or of another agent changes; a result that was still on its way to the register does not come any more (R23). In an interrupt handler x24-x29 are the shadow registers, and the thread's own
registers of those numbers keep their values. -/
def Obligations.ScalarRegisterFile : Prop :=
  ∀ (s : State) (d : Reg) (v : Word),
    let t := s.setX d v
    s.getX 0 = 0 ∧ Writes s t d v ∧
    (∀ h, s.cur = .thread h → ThreadOnly h s t ∧
      t.thread h = { s.thread h with seq := { (s.thread h).seq with x := (t.thread h).seq.x }, shadow := (t.thread h).shadow,
                                     pend := terase (s.thread h).pend (pendNum (s.thread h) d) } ∧
      ((s.thread h).uiAct = true → 24 ≤ d.toNat → d.toNat ≤ 29 → (t.thread h).seq = (s.thread h).seq) ∧
      ((s.thread h).uiAct = false → (t.thread h).shadow = (s.thread h).shadow)) ∧
    (∀ c, s.cur = .pump c → t = { s with pumps := t.pumps } ∧ (∀ g, g ≠ c → t.pump g = s.pump g) ∧
      t.pump c = { s.pump c with seq := { (s.pump c).seq with x := (t.pump c).seq.x }, pend := terase (s.pump c).pend d.toNat })

/-- R15: the checks, in their order, for every instruction that a thread can issue: an encoding that is no instruction
raises cause 0x01, the wrong role cause 0x02, a supervisor's instruction at user level cause 0x03; each traps with TRAPVAL
0 and no other effect. -/
def Sys2Proof.Spec.IssueChecksInOrder : Prop :=
  ∀ (i : Instr) (s : State) (h : Nat), s.cur = .thread h → Encoded i →
    (i.wf = false → exec i s = .next (parkTrap h 1 (s.thread h).seq.pc 0 s)) ∧
    (i.wf = true → roleOk h i.role = false → exec i s = .next (parkTrap h 2 (s.thread h).seq.pc 0 s)) ∧
    (i.wf = true → roleOk h i.role = true → i.supervisor = true → (s.thread h).sup = false →
      exec i s = .next (parkTrap h 3 (s.thread h).seq.pc 0 s))

/-- R329, R318: a kernel core refuses the instructions that it does not execute: its kernel ends, with cause 0x01, or 0x02
for OVLD. -/
def Sys2Proof.Spec.KernelCoreRefuses : Prop :=
  ∀ (i : Instr) (s : State) (c : Nat), s.cur = .pump c → Encoded i → pumpRuns i = false →
    exec i s = .next (pumpFault c (pumpCause i) 0 s) ∧ pumpCause i = (match i with | .ovld _ _ _ | .ovldGo _ _ _ => 2 | _ => 1)

/-- R358-R360, R70, R29: taking a trap. The thread parks where it stands; TRAPCAUSE, TRAPPC and TRAPVAL are written; a
pending park request is met; its gang ends and none of the other members parks; memory changes only by a trace record; the record
holds CYCLE of the thread's cluster. -/
def Sys2Proof.Spec.TrapParksTheThread : Prop :=
  ∀ (s : State) (h cause : Nat) (val : Word), NoTrace s → h ∈ membersOf (s.thread h) h →
    let t := parkTrap h cause (s.thread h).seq.pc val s
    Trapped h cause val s t ∧ (t.thread h).parkReq = false ∧ (t.thread h).gang = none ∧
    (∀ g, g ∈ membersOf (s.thread h) h → (t.thread g).gang = none) ∧
    (∀ g, g ∉ membersOf (s.thread h) h → g ≠ h → t.thread g = s.thread g) ∧
    t = { s with threads := t.threads, agenda := t.agenda, gangs := t.gangs } ∧
    ∃ r, (t.thread h).record = some r ∧ r.pc = word ((s.thread h).seq.pc.toNat % 2 ^ 56) ∧ r.value = val ∧ r.handle = word h ∧ r.cycle = word (s.coreCycle (clusterOf h))

/-- R361: word 0 of the record that a trap sends. -/
def Sys2Proof.Spec.TrapRecordWord0 : Prop :=
  ∀ (cause part ctx leader n j : Nat) (sup : Bool), cause < 256 → part < 16 → ctx < 1024 → (n = 2 ∨ n = 4 ∨ n = 8) → j < n →
    let plain := recordWord0 cause part ctx none sup
    let ganged := recordWord0 cause part ctx (some (leader, n, j)) sup
    (∀ w, w = plain ∨ w = ganged → wfield w 7 0 = cause ∧ wbit w 14 = sup ∧ wbit w 15 = false ∧ wfield w 25 16 = ctx ∧
      wfield w 29 26 = part ∧ wfield w 63 30 = 0) ∧
    wfield plain 13 8 = 0 ∧ wbit ganged 8 = true ∧ 2 ^ wfield ganged 10 9 = n ∧ wfield ganged 13 11 = j

/-! ### Integer instructions -/

/-- What R51, R52 and R54-R56 write, as arithmetic on the values that the instruction reads: `x` the scalar registers,
`pc` the instruction's own address. -/
def Sys2Proof.Spec.aluRef (x : Reg → Word) (pc : Word) : Instr → Option (Reg × Word)
  | .add b a d => some (d, BitVec.ofInt 64 ((x a).toInt + (x b).toInt))
  | .sub b a d => some (d, BitVec.ofInt 64 ((x a).toInt - (x b).toInt))
  | .mul b a d => some (d, BitVec.ofInt 64 ((x a).toInt * (x b).toInt))
  | .mulh b a d => some (d, BitVec.ofInt 64 ((x a).toInt * (x b).toInt / 2 ^ 64))
  | .mulhn b a d => some (d, word ((x a).toNat * (x b).toNat / 2 ^ 64))
  | .div b a d => some (d, if x b = 0 then BitVec.ofInt 64 (-1)
      else if (x a).toInt = -2 ^ 63 ∧ (x b).toInt = -1 then BitVec.ofInt 64 (-2 ^ 63) else BitVec.ofInt 64 ((x a).toInt.tdiv (x b).toInt))
  | .divn b a d => some (d, if x b = 0 then word (2 ^ 64 - 1) else word ((x a).toNat / (x b).toNat))
  | .rem b a d => some (d, if x b = 0 then x a
      else if (x a).toInt = -2 ^ 63 ∧ (x b).toInt = -1 then 0
      else BitVec.ofInt 64 ((x a).toInt - (x a).toInt.tdiv (x b).toInt * (x b).toInt))
  | .remn b a d => some (d, if x b = 0 then x a else word ((x a).toNat % (x b).toNat))
  | .and b a d => some (d, x a &&& x b)
  | .or b a d => some (d, x a ||| x b)
  | .xor b a d => some (d, x a ^^^ x b)
  | .andn b a d => some (d, x a &&& ~~~ x b)
  | .orn b a d => some (d, x a ||| ~~~ x b)
  | .shl b a d => some (d, word ((x a).toNat * 2 ^ ((x b).toNat % 64)))
  | .shr b a d => some (d, word ((x a).toNat / 2 ^ ((x b).toNat % 64)))
  | .sra b a d => some (d, BitVec.ofInt 64 ((x a).toInt / 2 ^ ((x b).toNat % 64)))
  | .rotl b a d => some (d, word ((x a).toNat * 2 ^ ((x b).toNat % 64) + (x a).toNat / 2 ^ (64 - (x b).toNat % 64)))
  | .rotr b a d => some (d, word ((x a).toNat / 2 ^ ((x b).toNat % 64) + (x a).toNat * 2 ^ (64 - (x b).toNat % 64)))
  | .min b a d => some (d, if (x b).toInt < (x a).toInt then x b else x a)
  | .max b a d => some (d, if (x a).toInt < (x b).toInt then x b else x a)
  | .minn b a d => some (d, if (x b).toNat < (x a).toNat then x b else x a)
  | .maxn b a d => some (d, if (x a).toNat < (x b).toNat then x b else x a)
  | .slt b a d => some (d, if (x a).toInt < (x b).toInt then 1 else 0)
  | .sltn b a d => some (d, if (x a).toNat < (x b).toNat then 1 else 0)
  | .clz a d => some (d, word (((List.range 64).find? fun k => (x a).getLsbD (63 - k)).getD 64))
  | .ctz a d => some (d, word (((List.range 64).find? fun k => (x a).getLsbD k).getD 64))
  | .popc a d => some (d, word ((List.range 64).filter fun k => (x a).getLsbD k).length)
  | .sextB a d => some (d, BitVec.ofInt 64 ((x a).truncate 8).toInt)
  | .sextH a d => some (d, BitVec.ofInt 64 ((x a).truncate 16).toInt)
  | .sextW a d => some (d, BitVec.ofInt 64 ((x a).truncate 32).toInt)
  | .zextB a d => some (d, word ((x a).toNat % 2 ^ 8))
  | .zextH a d => some (d, word ((x a).toNat % 2 ^ 16))
  | .zextW a d => some (d, word ((x a).toNat % 2 ^ 32))
  | .bfxn b a d => some (d, word ((x a).toNat / 2 ^ ((x b).toNat % 64) % 2 ^ ((x b).toNat / 2 ^ 8 % 64 + 1)))
  | .bfx b a d =>
    let l := (x b).toNat / 2 ^ 8 % 64 + 1
    let f : Nat := (x a).toNat / 2 ^ ((x b).toNat % 64) % 2 ^ l
    some (d, BitVec.ofInt 64 (if 2 ^ (l - 1) ≤ f then (f : Int) - ((2 ^ l : Nat) : Int) else (f : Int)))
  | .bfi b a d =>
    let p := (x b).toNat % 64
    let m := word (2 ^ ((x b).toNat / 2 ^ 8 % 64 + 1) - 1)
    some (d, (x d &&& ~~~ word (m.toNat * 2 ^ p)) ||| word ((x a &&& m).toNat * 2 ^ p))
  | .bswap a d => some (d, word (sumList ((List.range 8).map fun k => (x a).toNat / 2 ^ (8 * k) % 256 * 2 ^ (8 * (7 - k)))))
  | .addi i a d => some (d, BitVec.ofInt 64 ((x a).toInt + i.toInt))
  | .andi i a d => some (d, x a &&& BitVec.ofInt 64 i.toInt)
  | .ori i a d => some (d, x a ||| BitVec.ofInt 64 i.toInt)
  | .xori i a d => some (d, x a ^^^ BitVec.ofInt 64 i.toInt)
  | .shli n a d => some (d, word ((x a).toNat * 2 ^ n.toNat))
  | .shri n a d => some (d, word ((x a).toNat / 2 ^ n.toNat))
  | .srai n a d => some (d, BitVec.ofInt 64 ((x a).toInt / 2 ^ n.toNat))
  | .roti n a d => some (d, word ((x a).toNat * 2 ^ n.toNat + (x a).toNat / 2 ^ (64 - n.toNat)))
  | .slti i a d => some (d, if (x a).toInt < i.toInt then 1 else 0)
  | .lih i d => some (d, BitVec.ofInt 64 (i.toInt * 2 ^ 12))
  | .addpc i d => some (d, word (pc.toNat / 2 ^ 12 * 2 ^ 12) + BitVec.ofInt 64 (i.toInt * 2 ^ 12))
  | _ => none

/-- R51, R52, R54-R56: every integer instruction but HASHA writes its result to x[rd] and has no other effect, on a
thread of either role and on a kernel core, alone and as a repeat of an RPT. -/
def Obligations.IntegerInstructions : Prop :=
  ∀ (i : Instr) (s : State) (d : Reg) (v : Word), aluRef s.getX s.insnAddr i = some (d, v) → Runs i s → Result i s d v

/-! ### Control flow -/

/-- A transfer to an address that R32 and R318 allow. -/
def Sys2Proof.Spec.Reachable (s : State) (t : Word) : Prop :=
  wbit t 0 = false ∧ ∀ c, s.cur = .pump c → t.toNat ≤ 4095
/-- The instruction transfers control to an address, one register written at most; with no trace, nothing else changes. -/
def Sys2Proof.Spec.TransfersTo (i : Instr) (s : State) (target : Word) (d : Reg) (v : Word) : Prop :=
  Completes i s fun t => t.pc = target ∧ Writes s t d v ∧ Counted s t ∧ t.seq.skip = s.seq.skip ∧ t.seq.rpt = s.seq.rpt ∧
    (NoTrace s → RegsOnly s t)
/-- It raises a cause where it stands, and does nothing else: a thread parks (R358), a kernel faults (R318). -/
def Sys2Proof.Spec.Raises (i : Instr) (s : State) (cause : Nat) (val : Word) : Prop :=
  exec i s = .next (match s.cur with | .thread h => parkTrap h cause (s.thread h).seq.pc val s | .pump c => pumpFault c cause val s)
/-- It raises cause 0x04 with the target (R32, R60, R318). -/
def Sys2Proof.Spec.RefusesTarget (i : Instr) (s : State) (target : Word) : Prop := Raises i s 4 target
/-- The condition of R41. -/
def Sys2Proof.Spec.condRef (c : BitVec 3) (a b : Word) : Prop :=
  match c.toNat with
  | 0 => a = b
  | 1 => a ≠ b
  | 2 => a.toInt < b.toInt
  | 3 => b.toInt ≤ a.toInt
  | 4 => a.toNat < b.toNat
  | 5 => b.toNat ≤ a.toNat
  | 6 => a.toNat / 2 ^ (b.toNat % 64) % 2 = 1
  | _ => a.toNat / 2 ^ (b.toNat % 64) % 2 = 0

/-- R54: ADDI, ANDI, ORI and XORI (majors 2 to 5, I form) sign-extend imm15, giving -16,384 to 16,383, and write x[ra] op that
to x[rd]. ANDI with -1 copies x[ra]; ADDI with x0 as the source loads a small constant. -/
def Obligations.ImmediateArithmetic : Prop :=
  ∀ (s : State) (imm : BitVec 15) (a d : Reg),
    let v : Word := imm.signExtend 64
    (v = BitVec.ofInt 64 imm.toInt ∧ -16384 ≤ imm.toInt ∧ imm.toInt ≤ 16383) ∧
    (∀ i f major, (i, f, major) ∈ ([(.addi imm a d, (fun x y => x + y), 2), (.andi imm a d, (fun x y => x &&& y), 3),
        (.ori imm a d, (fun x y => x ||| y), 4), (.xori imm a d, (fun x y => x ^^^ y), 5)] : List (Instr × (Word → Word → Word) × Nat)) →
      encodeTable i = some (32, imm.toNat * 2 ^ 17 + a.toNat * 2 ^ 12 + d.toNat * 2 ^ 7 + major * 2 + 1) ∧
      (Runs i s → Result i s d (f (s.getX a) v))) ∧
    (Runs (.andi 0x7FFF a d) s → Result (.andi 0x7FFF a d) s d (s.getX a)) ∧ (Runs (.addi imm 0 d) s → Result (.addi imm 0 d) s d v)

/-- R41, R58-R62: branches, CALL, JALR and LOOP, outside RPT. A LOOP that names x0 raises cause 0x02. -/
def Obligations.ControlTransfers : Prop :=
  ∀ (s : State), s.seq.rptRun = none →
    (∀ o b a p c, Runs (.bCc o b a p c) s →
      let target := s.pc + BitVec.ofInt 64 (2 * (o ++ p : BitVec 12).toInt)
      (condRef c (s.getX a) (s.getX b) → Reachable s target → TransfersTo (.bCc o b a p c) s target 0 0) ∧
      (condRef c (s.getX a) (s.getX b) → ¬ Reachable s target → RefusesTarget (.bCc o b a p c) s target) ∧
      (¬ condRef c (s.getX a) (s.getX b) → Result (.bCc o b a p c) s 0 0)) ∧
    (∀ i : BitVec 25, encodeTable (.br i) = some (32, i.toNat * 2 ^ 7 + 0x0C * 2 + 1) ∧ encodeTable (.call i) = some (32, i.toNat * 2 ^ 7 + 0x0D * 2 + 1)) ∧
    (∀ i, Runs (.br i) s →
      let target := s.pc + BitVec.ofInt 64 (2 * i.toInt)
      (Reachable s target → TransfersTo (.br i) s target 0 0) ∧ (¬ Reachable s target → RefusesTarget (.br i) s target)) ∧
    (∀ i, Runs (.call i) s →
      let target := s.pc + BitVec.ofInt 64 (2 * i.toInt)
      (Reachable s target → TransfersTo (.call i) s target 30 (s.pc + 4)) ∧ (¬ Reachable s target → RefusesTarget (.call i) s target)) ∧
    (∀ i a d, Runs (.jalr i a d) s →
      let target := s.getX a + BitVec.ofInt 64 i.toInt
      (Reachable s target → TransfersTo (.jalr i a d) s target d (s.pc + 4)) ∧
      (¬ Reachable s target → RefusesTarget (.jalr i a d) s target)) ∧
    (∀ i, Runs (.loop i 0) s → Raises (.loop i 0) s 2 0) ∧
    (∀ i d, Runs (.loop i d) s → d ≠ 0 →
      let target := s.pc + BitVec.ofInt 64 (2 * i.toInt)
      (s.getX d = 1 → Result (.loop i d) s d 0) ∧
      (s.getX d ≠ 1 → Reachable s target → TransfersTo (.loop i d) s target d (s.getX d - 1)) ∧
      (s.getX d ≠ 1 → ¬ Reachable s target → RefusesTarget (.loop i d) s target))

/-- R41, R43, R57: SK compares x[ra] with x[rb], SKI with SignExt(imm15). Either passes, and when its condition holds the next sk
instructions are annulled. -/
def Sys2Proof.Spec.CompareSkips : Prop :=
  ∀ (s : State) (a : Reg) (k : BitVec 2) (c : BitVec 3),
    let skips (i : Instr) (v : Word) : Prop := Runs i s → ∃ t, exec i s = .next t ∧ WritesNone s t ∧ RegsOnly s t ∧ Counted s t ∧
      Moved 4 s t ∧ (condRef c (s.getX a) v → t.seq.skip = k) ∧ (¬ condRef c (s.getX a) v → t.seq.skip = s.seq.skip)
    (∀ b, skips (.sk b a k c) (s.getX b)) ∧ (∀ n : BitVec 15, skips (.ski n a k c) (BitVec.ofInt 64 n.toInt))

/-- R43, R44: with SKIPSTATE nonzero the instruction at the program counter is passed without executing, SKIPSTATE counts it, and it takes
no issue slot: one of two bytes, one of four, or an RPT parcel together with its target. (An RPT whose target is an RPT counts as
one with it: the model's choice, log 18.) -/
def Sys2Proof.Spec.AnnulledInstructionIsPassed : Prop :=
  ∀ (s u : State) (lo : Nat) (b : Bool), s.seq.skip ≠ 0 → s.seq.rptRun = none → s.fetch s.pc = (.ok lo b, u) →
    let passes (v : State) (n : Nat) : Prop :=
      s.nextInsn = .done (v.modSeq fun q => { q with pc := s.pc + word n, skip := q.skip - 1 }) false
    (lo % 2 = 0 → isRpt (insnOf lo) = false → passes u 2) ∧
    (∀ hi y v, lo % 2 = 1 → u.fetch (s.pc + 2) = (.ok hi y, v) → passes v 4) ∧
    (∀ x y v, lo % 2 = 0 → isRpt (insnOf lo) = true → u.fetch (s.pc + 2) = (.ok x y, v) →
      (x % 2 = 0 → passes v 4) ∧ (∀ hi z w, x % 2 = 1 → v.fetch (s.pc + 4) = (.ok hi z, w) → passes w 6))

/-- The instructions that are not repeated, whatever fields a mask flags (R37). -/
def Sys2Proof.Spec.neverRepeated : Instr → Bool
  | .sk .. | .ski .. | .bCc .. | .br _ | .call _ | .jalr .. | .loop .. | .ibx .. | .ibxn .. | .uien .. | .uiret => true
  | .tstart .. | .texit | .yield | .gang .. | .ungang => true
  | .tqadd _ | .tqtake _ | .tqtry _ | .tcmt | .tdone | .nop | .trap _ | .bkpt | .fencei | .eret _ | .halt => true
  | .tlbi .. | .tresume _ | .tstatr .. | .tstatw .. | .rpt .. | .nop16 | .bdone => true
  | _ => false

/-- R35, R65: NOP and NOP16 only pass. R36-R38: an RPT parcel takes its target as repeat n − REMAIN, and passes nothing; it raises cause
0x01 for a target that is no instruction, that is never repeated, or (`rptTargetOk`) whose flagged fields do not step, and cause 0x02 for
a REMAIN above its n. PEND is refused on a pump, where it is no target; on a core it is an instruction of another role. -/
def Sys2Proof.Spec.IdleInstructionsAndRepeat : Prop :=
  ∀ (s : State),
    (Runs .nop s → Result .nop s 0 0) ∧ (Runs .nop16 s → Result .nop16 s 0 0) ∧
    (∀ (p q r : BitVec 1) (n : BitVec 6), Runs (.rpt p q r n) s →
      let target := s.issue.insn / 2 ^ 16
      let w := if target % 2 = 0 then target % 2 ^ 16 else target % 2 ^ 32
      let run : RptRun := { n := n.toNat + 1, d := p = 1, a := q = 1, b := r = 1 }
      let pump : Bool := match s.cur with | .pump _ => true | .thread _ => false
      let ok : Bool := rptTargetOk pump run (target % 2 = 0) w
      (ok = false → Raises (.rpt p q r n) s 1 0) ∧ (ok = true → n.toNat + 1 < s.seq.rpt.toNat → Raises (.rpt p q r n) s 2 0) ∧
      (decodeInsn (target % 2 = 0) w = none → ok = false) ∧
      (∀ i, decodeInsn (target % 2 = 0) w = some i → neverRepeated i = true ∨ i.wf = false ∧ i ≠ .pend ∨ i = .pend ∧ pump = true → ok = false) ∧
      (ok = true → s.seq.rpt.toNat ≤ n.toNat + 1 →
      Completes (.rpt p q r n) s fun t => WritesNone s t ∧ RegsOnly s t ∧ t.pc = s.pc ∧ t.seq.rptRun = some run ∧
        t.seq.skip = s.seq.skip ∧ t.seq.rpt.toNat = (if s.seq.rpt = 0 then n.toNat + 1 else s.seq.rpt.toNat) ∧
        ∀ h, s.cur = .thread h → (t.thread h).instret = (s.thread h).instret))

/-- R65, R47: TRAP, BKPT and a word that is no instruction take their traps. -/
def Sys2Proof.Spec.TrappingInstructions : Prop :=
  ∀ (s : State) (h : Nat), NoTrace s → s.cur = .thread h →
    (∀ a, Runs (.trap a) s → Completes (.trap a) s (Trapped h 0x0D (s.getX a) s)) ∧
    (Runs .bkpt s → Completes .bkpt s (Trapped h 0x0E 0 s)) ∧
    (s.ev = none → Completes .illegalInstruction s (Trapped h 0x01 0 s))

/-! ### Control registers and the system -/

/-- The bits of a control register that CSRW, CSRS and CSRC write (R5, R48): FFLAGS, FENABLE, FRM, UIVEC, UIMASK,
UISTATUS, COMPLETE, BARTMO, WELLWIN, SPWIDX, LANECUR, RPTSTATE, SKIPSTATE, DELAYSEL. -/
def Sys2Proof.Spec.csrMask (n : Nat) : Option Word :=
  (([(0x010, 0x1F), (0x011, 0x1F), (0x012, 3), (0x020, 0x00FFFFFFFFFFFFFE), (0x021, 0x7E), (0x022, 1),
    (0x030, 0x00FFFFFFFFFFFFF9), (0x040, 0xFFFFFFFF), (0x041, 0xFFFFFFFFFFFFFFFF), (0x050, 0xFFFFFFFF), (0x051, 0x1F),
    (0x052, 0x7F), (0x053, 3), (0x060, 0x1FF)] : List (Nat × Nat)).find? fun x => x.1 = n).map fun x => word x.2
/-- The thread may name the register: its role holds it, and its level suffices (R48, R63). -/
def Sys2Proof.Spec.HoldsCsr (h n : Nat) : Prop :=
  (n = 0x020 ∨ n = 0x021 ∨ n = 0x022 ∨ n = 0x030 ∨ n = 0x050 → isAccess h = true) ∧ (n = 0x031 ∨ n = 0x051 → isAccess h = false)
def Sys2Proof.Spec.LevelCsr (s : State) (h n : Nat) : Prop := 0x080 ≤ n → n ≤ 0x0FF → (s.thread h).sup = true
/-- What a thread of partition p reads in a control register (R13, R24, R48, R93, R359, R397). -/
def Sys2Proof.Spec.csrValues (s : State) (h : Nat) : List (Nat × Word) :=
  let t := s.thread h
  let k := s.core (coreOf h)
  [(0x001, word (coreOf h)), (0x002, word k.stage), (0x003, word ((s.partOfCluster (clusterOf h)).getD 0)), (0x004, word t.ctx),
   (0x005, word s.pf.devIdx), (0x010, t.fflags.zeroExtend 64), (0x011, t.fenable.zeroExtend 64), (0x012, t.frm.zeroExtend 64),
   (0x020, t.uivec), (0x021, t.uimask), (0x022, word (b2n t.uiEn + 2 * b2n t.uiAct + 2 ^ 8 * k.inbox.length)), (0x030, t.complete),
   (0x031, t.cwait.zeroExtend 64), (0x040, t.bartmo.zeroExtend 64), (0x041, k.wellwin), (0x050, t.spwidx.zeroExtend 64),
   (0x051, t.lanecur.zeroExtend 64), (0x052, t.seq.rpt.zeroExtend 64), (0x053, t.seq.skip.zeroExtend 64),
   (0x060, k.delaySel.zeroExtend 64), (0x061, k.delaySum.zeroExtend 64), (0x062, k.delayCnt.zeroExtend 64),
   (0x070, word (b2n ((s.cluster (clusterOf h)).raceEn.contains t.ctx))), (0x080, t.trapCause.zeroExtend 64),
   (0x081, t.trapPc &&& 0x00FFFFFFFFFFFFFF), (0x082, t.trapVal), (0x101, t.instret)]
/-- The instruction leaves the register's writable bits at v's, its other bits and every other control register but INSTRET, the two that
a write of DELAYSEL refills, and RPTSTATE in a repeat of an RPT, as they were. -/
def Sys2Proof.Spec.WritesCsr (i : Instr) (s : State) (h n : Nat) (m v : Word) : Prop :=
  ∃ t, exec i s = .next t ∧ WritesNone s t ∧ Counted s t ∧ t.mem = s.mem ∧ (n ≠ 0x052 → Moved 4 s t) ∧ (n = 0x052 → t.pc = s.pc + 4) ∧
    (∀ g, g ≠ h → t.thread g = s.thread g) ∧ t.csrRead h n = (v &&& m) ||| (s.csrRead h n &&& ~~~ m) ∧
    ∀ k, k ≠ n → k ≠ 0x101 → (n = 0x060 → k ≠ 0x061 ∧ k ≠ 0x062) → (s.seq.rptRun ≠ none → k ≠ 0x052) → t.csrRead h k = s.csrRead h k

/-- R48, R63: CSRR reads a register, CSRW, CSRS and CSRC write its writable bits and leave its other bits as they were, one without
writable bits unchanged. A register that the thread's role does not hold raises cause 0x02, one that its level does not reach cause
0x03. (A write of RPTSTATE by a repeat of an RPT is left out here: log 18.) -/
def Obligations.ControlRegisterInstructions : Prop :=
  ∀ (s : State) (h : Nat) (n : BitVec 12), s.cur = .thread h →
    (∀ x, x ∈ csrValues s h → s.csrRead h x.1 = x.2) ∧
    (HoldsCsr h n.toNat → LevelCsr s h n.toNat →
      (∀ d, Runs (.csrr n d) s → Result (.csrr n d) s d (s.csrRead h n.toNat)) ∧
      ((n.toNat = 0x052 → s.seq.rptRun = none) → ∀ a,
        let m := (csrMask n.toNat).getD 0
        (Runs (.csrw n a) s → WritesCsr (.csrw n a) s h n.toNat m (s.getX a)) ∧
        (Runs (.csrs n a) s → WritesCsr (.csrs n a) s h n.toNat m (s.csrRead h n.toNat ||| s.getX a)) ∧
        (Runs (.csrc n a) s → WritesCsr (.csrc n a) s h n.toNat m (s.csrRead h n.toNat &&& ~~~ s.getX a)))) ∧
    (∀ i a, i = .csrr n a ∨ i = .csrw n a ∨ i = .csrs n a ∨ i = .csrc n a → Runs i s → NoTrace s →
      (¬ HoldsCsr h n.toNat → Completes i s (Trapped h 2 0 s)) ∧
      (HoldsCsr h n.toNat → ¬ LevelCsr s h n.toNat → Completes i s (Trapped h 3 0 s)))

/-- R66-R68: FENCEI empties the core's instruction cache; ERET leaves supervisor level for x[ra]; HALT stops the thread
behind it; TLBI waits, and looks again when 60 or 110 cycles are over, 60 if its partition lies on its die. -/
def Sys2Proof.Spec.SystemInstructions : Prop :=
  ∀ (s : State) (h : Nat), s.cur = .thread h → s.seq.rptRun = none → (s.thread h).gang = none →
    (Runs .fencei s → Completes .fencei s fun t => WritesNone s t ∧ Passed 4 s t ∧ (t.core (coreOf h)).icache = [] ∧
      t.mem = s.mem ∧ ∀ c, c ≠ coreOf h → t.core c = s.core c) ∧
    (∀ a, Runs (.eret a) s → Reachable s (s.getX a) → NoTrace s →
      Completes (.eret a) s fun t => t.pc = s.getX a ∧ (t.thread h).sup = false ∧ WritesNone s t ∧ ThreadOnly h s t) ∧
    (Runs .halt s → Completes .halt s fun t => (t.thread h).run = .halted ∧ t.pc = s.pc + 4 ∧ WritesNone s t ∧ ThreadOnly h s t) ∧
    (∀ b a, Runs (.tlbi b a) s → Completes (.tlbi b a) s fun t => BlockedFor h (.tlbi (s.getX a) (s.getX b)) t ∧
      t.pc = s.pc ∧ ThreadAgenda h s t ∧
      let p := s.partOfCluster (clusterOf h)
      ∃ n, (n = 60 ∨ n = 110) ∧ (∀ q, p.bind s.part = some q → (n = 60 ↔ allOnDie q (dieOf h) = true)) ∧ Due (s.cycle + n) (.tlbiRetire h) t)

/-- A translation that a TLBI of partition p names (R67): one of the partition's contexts, CTX or with ALLCTX any; its page holds the
address, or with ALLVA any page. -/
def Sys2Proof.Spec.TlbiNames (s : State) (p : Nat) (va ctl : Word) (e : TlbEntry) : Prop :=
  (∃ x, s.ctx e.ctx = some x ∧ x.part = p) ∧ (ctl.getLsbD 17 = true ∨ e.ctx = ctl.toNat % 1024) ∧
    (ctl.getLsbD 16 = true ∨ va.toNat / 2 ^ e.size = e.va / 2 ^ e.size)
/-- A walk of a thread's partition that began before its TLBI has not finished. -/
def Sys2Proof.Spec.WalksLeft (s : State) (h : Nat) : Prop :=
  ∃ d k id m x, (d, k) ∈ s.dies ∧ (id, m) ∈ k.misses ∧ m.since ≤ (s.thread h).since ∧ s.ctx m.ctx = some x ∧ some x.part = s.partOfCluster (clusterOf h)
/-- R67: TLBI waits on while a walk of its partition that began before it has not finished, and then retires: of its partition's
translations, none that it names is left in any TLB, and others stay; with ALLVA the walkers' caches lose the matched contexts. -/
def Sys2Proof.Spec.TlbiRetires : Prop :=
  ∀ (s : State) (h : Nat) (va ctl : Word), Takes (.tlbiRetire h) s → BlockedFor h (.tlbi va ctl) s →
    let p := (s.partOfCluster (clusterOf h)).getD 0
    (WalksLeft s h → Completes .tlbiRetire s fun t => BlockedFor h (.tlbi va ctl) t ∧ Due (s.cycle + 1) (.tlbiRetire h) t ∧ t = { s with agenda := t.agenda }) ∧
    (¬ WalksLeft s h → Completes .tlbiRetire s fun t => PassedOf h 4 s t ∧ ReadyAt h s.cycle t ∧ t.mem = s.mem ∧
      (∀ e, (∀ c, e ∈ (t.core c).tlb ↔ e ∈ (s.core c).tlb ∧ ¬ TlbiNames s p va ctl e) ∧
        (∀ c, e ∈ (t.cluster c).tlb ↔ e ∈ (s.cluster c).tlb ∧ ¬ TlbiNames s p va ctl e) ∧
        (∀ c, e ∈ (t.die c).tlb ↔ e ∈ (s.die c).tlb ∧ ¬ TlbiNames s p va ctl e)) ∧
      ∀ c y, y ∈ (t.die c).walk ↔ y ∈ (s.die c).walk ∧
        ¬ (ctl.getLsbD 16 = true ∧ (∃ x, s.ctx y.1 = some x ∧ x.part = p) ∧ (ctl.getLsbD 17 = true ∨ y.1 = ctl.toNat % 1024)))

/-- R69-R71, R414: TRESUME, TSTATR and TSTATW send their operation to the target's core and wait for its reply. -/
def Sys2Proof.Spec.SupervisorInstructions : Prop :=
  ∀ (s : State) (h : Nat), s.cur = .thread h → (s.thread h).gang = none →
    let p := (s.partOfCluster (clusterOf h)).getD 0
    let sends (i : Instr) (op : SupOp) : Prop :=
      Runs i s → supCheck s p op.kind op.handle op.sel op.value = none →
      Completes i s fun t => BlockedFor h .sup t ∧ t.pc = s.pc ∧ WritesNone s t ∧ ThreadAgenda h s t ∧
        Due (s.cycle + (supDelay h (op.handle.toNat % 4096)).1) (.supervisorOpArrival op) t
    (∀ a, sends (.tresume a) { part := p, issuer := some h, kind := .resume, handle := s.getX a, sel := 0, value := 0, rd := 0 }) ∧
    (∀ b a d, sends (.tstatr b a d) { part := p, issuer := some h, kind := .read, handle := s.getX a, sel := s.getX b, value := 0, rd := d }) ∧
    (∀ b a d, sends (.tstatw b a d) { part := p, issuer := some h, kind := .write, handle := s.getX a, sel := s.getX b, value := s.getX d, rd := 0 })

/-- R69-R71: a supervisor's operation at its target. A read answers the item; a write sets it; a resume puts a parked
thread back into its rotation at its program counter; a target that is not parked is refused with cause 0x02 and unchanged.
The reply then completes the instruction, or traps it. -/
def Sys2Proof.Spec.SupervisorOperations : Prop :=
  ∀ (s : State) (op : SupOp) (g : Nat), handleOf op.handle = some g →
    (Takes (.supervisorOpArrival op) s → (s.thread g).run = .parked → (s.thread g).dbgStop = false →
      (op.kind = .read → Completes .supervisorOpArrival s fun t => t.threads = s.threads ∧
        ∃ n, Due n (.supervisorReply op (.value (s.itemRead g op.sel))) t) ∧
      (op.kind = .write → wfield op.sel 15 0 = 0x2000 → Completes .supervisorOpArrival s fun t => (t.thread g).seq.pc = op.value ∧
        (∃ n, Due n (.supervisorReply op .done) t) ∧ ∀ o, o ≠ g → t.thread o = s.thread o) ∧
      (op.kind = .resume → Completes .supervisorOpArrival s fun t => ReadyAt g (s.cycle + 1) t ∧
        (t.thread g).seq = (s.thread g).seq ∧ (∃ n, Due n (.supervisorReply op .done) t) ∧ ∀ o, o ≠ g → t.thread o = s.thread o)) ∧
    (Takes (.supervisorOpArrival op) s → (s.thread g).run ≠ .parked → wfield op.sel 15 12 ≠ 5 →
      Completes .supervisorOpArrival s fun t => t.threads = s.threads ∧ ∃ n, Due n (.supervisorReply op (.refused 2 0)) t) ∧
    (∀ h v, op.issuer = some h → BlockedFor h .sup s →
      (Takes (.supervisorReply op (.value v)) s → Completes .supervisorReply s fun t =>
        (∀ r, (t.thread h).getX r = if r = op.rd ∧ r ≠ 0 then v else (s.thread h).getX r) ∧ ReadyAt h s.cycle t ∧ ThreadOnly h s t) ∧
      (Takes (.supervisorReply op .done) s → Completes .supervisorReply s fun t => PassedOf h 4 s t ∧ ReadyAt h s.cycle t ∧ ThreadOnly h s t) ∧
      ∀ c, NoTrace s → Takes (.supervisorReply op (.refused c v)) s → Completes .supervisorReply s (Trapped h c v s)) ∧
    (Takes (.parkRequestEffect g) s → (s.thread g).parkReq = true → (s.thread g).run = .ready → (s.thread g).seq.skip = 0 →
      (s.thread g).pend = [] → s.redLeft g = false → Completes .parkRequestEffect s fun t =>
        (t.thread g).run = .parked ∧ (t.thread g).parkReq = false ∧ (t.thread g).record = none ∧ (t.thread g).seq.pc = (s.thread g).seq.pc ∧
        (t.thread g).seq.x = (s.thread g).seq.x ∧ t.mem = s.mem)

/-! ### Together -/

/-- The checks that come before an instruction's own effect, for threads and for the kernel core of a pump. -/
def Obligations.InstructionChecks : Prop := IssueChecksInOrder ∧ KernelCoreRefuses

/-- Taking a trap: what parks, and what the record says. -/
def Obligations.TrapEntry : Prop := TrapParksTheThread ∧ TrapRecordWord0

/-- Skips and the annulment of what they skip. -/
def Obligations.SkipsAndAnnulment : Prop := CompareSkips ∧ AnnulledInstructionIsPassed

/-- Instructions without an effect of their own, repeats, and the instructions that always trap. -/
def Obligations.IdleAndTrappingInstructions : Prop := IdleInstructionsAndRepeat ∧ TrappingInstructions

/-- System instructions and TLBI with its step. -/
def Obligations.SystemAndTlbi : Prop := SystemInstructions ∧ TlbiRetires

/-- TRESUME, TSTATR and TSTATW, from their issue to their reply. -/
def Obligations.SupervisorAccess : Prop := SupervisorInstructions ∧ SupervisorOperations

/-! ### Threads: starting, ending, gangs -/

/-- R26, R75-R77: TSTART starts a thread in a free slot of the core, which is in its rotation two cycles later; YIELD gives
up the rotation for eight cycles from its issue, which for a member of a gang may lie back (R28, log 18); TEXIT ends the thread, whose slot is free from the next cycle. -/
def Sys2Proof.Spec.StartYieldExit : Prop :=
  ∀ (s : State) (h : Nat), s.cur = .thread h → (s.thread h).run = .ready → s.seq.rptRun = none →
    (∀ b a d, Runs (.tstart b a d) s →
      let g := 8 * coreOf h + wfield (s.getX b) 2 0
      s.slotFree g = true → wbit (s.getX a) 0 = false →
      Completes (.tstart b a d) s fun t => WritesNone s t ∧ Passed 4 s t ∧ Due (s.cycle + 2) (.tstartReady g) t ∧
        BlockedFor g .start t ∧ (t.thread g).seq.pc = s.getX a ∧ (t.thread g).ctx = (s.thread h).ctx ∧
        (t.thread g).sup = (s.thread h).sup ∧ (t.thread g).v = Vector.replicate 32 0 ∧ (t.thread g).fflags = 0 ∧
        ∀ r, (t.thread g).getX r = if r = 1 then s.getX d else if r = 31 then s.getX b &&& ~~~ 0xFFF else 0) ∧
    (Runs .yield s →
      let issued := s.issue.cycle.getD s.cycle
      (s.cycle < issued + 8 → Completes .yield s fun t => WritesNone s t ∧ Passed 4 s t ∧ BlockedFor h .yield t ∧
        Due (issued + 8) (.yieldWake h s.cycle) t ∧ ThreadAgenda h s t) ∧
      (issued + 8 ≤ s.cycle → Completes .yield s fun t => WritesNone s t ∧ Passed 4 s t ∧ ReadyAt h (issued + 9) t ∧ ThreadOnly h s t)) ∧
    (Runs .texit s → (s.thread h).body = none → Ungated s →
      Completes .texit s fun t => WritesNone s t ∧ t.pc = s.pc ∧ BlockedFor h .texit t ∧ Due s.cycle (.texitRetire h) t ∧ ThreadAgenda h s t)

/-- R75-R77: the steps that these wait for. -/
def Sys2Proof.Spec.StartYieldExitSteps : Prop :=
  ∀ (s : State) (h : Nat),
    (Takes (.tstartReady h) s → BlockedFor h .start s → Completes .tstartReady s fun t => ReadyAt h (s.cycle + 1) t ∧ ThreadOnly h s t) ∧
    (Takes (.yieldWake h (s.thread h).since) s → BlockedFor h .yield s →
      Completes .yieldWake s fun t => ReadyAt h (s.cycle + 1) t ∧ (t.thread h).seq = (s.thread h).seq ∧ ThreadOnly h s t) ∧
    (Takes (.texitRetire h) s → BlockedFor h .texit s → Alone h s → (s.thread h).cwait = 0 → s.redsOut h = false → redEvent (s.thread h) = none →
      Completes .texitRetire s fun t => (t.thread h).run = .exited ∧ (t.thread h).notBefore = s.cycle + 1 ∧
        (t.thread h).instret = (s.thread h).instret + 1 ∧ (t.thread h).mons = Vector.replicate 4 {} ∧ t.slotFree h = false ∧
        State.slotFree { t with cycle := t.cycle + 1 } h = true)

/-- R27-R30, R78, R79: GANG waits for its members, or forms the gang when it is the last of them; the members then stand
behind it in one gang, with x[rd] = 0; a time-out gives x[rd] = 1. A GANG of a size other than 2, 4 and 8 raises cause 0x02; in a
gang, in a context that may form none, or beside a member that waits in a GANG of another size it raises cause 0x11. UNGANG leaves
the gang, and every member passes it. Only threads of the same context count as waiting members, or as ones of another size (log 18). A member whose wait is over while another's is not keeps its instruction until all of them are
over, so that the members stop at one boundary. -/
def Obligations.Gangs : Prop :=
  ∀ (s : State) (h : Nat),
    (s.cur = .thread h →
      (∀ b d, Runs (.gang b d) s →
        let n := 2 ^ b.toNat
        let size : Prop := b = 1 ∨ b = 2 ∨ b = 3
        let may : Prop := (s.cluster (clusterOf h)).gangOk.contains (s.thread h).ctx = true ∧ (s.thread h).gang = none
        let other : Prop := ∃ m k r, m ∈ gangRange h n ∧ (s.thread m).ctx = (s.thread h).ctx ∧ BlockedFor m (.gang k r) s ∧ k ≠ n
        (NoTrace s → ¬ size → Completes (.gang b d) s (Trapped h 2 0 s)) ∧
        (NoTrace s → size → ¬ may ∨ other → Completes (.gang b d) s (Trapped h 0x11 0 s)) ∧
        (size → may → ¬ other →
        ((∀ m, m ∈ gangRange h n → m ≠ h → inGangWait s (s.thread h).ctx n m = true) →
          Completes (.gang b d) s fun t => BlockedFor h (.gang n d) t ∧ t.pc = s.pc ∧ WritesNone s t ∧ ThreadAgenda h s t ∧
            Due (s.cycle + n) (.gangForm ((gangRange h n).headD h) n) t) ∧
        ((∃ m, m ∈ gangRange h n ∧ m ≠ h ∧ inGangWait s (s.thread h).ctx n m = false) →
          Completes (.gang b d) s fun t => BlockedFor h (.gang n d) t ∧ t.pc = s.pc ∧ WritesNone s t ∧ ThreadAgenda h s t ∧
            ((s.thread h).bartmo ≠ 0 → Due (s.cycle + (s.thread h).bartmo.toNat) (.gangTimeout h s.cycle) t)))) ∧
      (Runs .ungang s → ∃ t, exec .ungang s = .next t ∧ (t.thread h).gang = none ∧ WritesNone s t ∧ Passed 4 s t ∧ ThreadOnly h s t)) ∧
    (∀ n, Takes (.gangForm h n) s → (n = 2 ∨ n = 4 ∨ n = 8) → coreOf h % 8 % n = 0 →
      (∀ m, m ∈ gangRange h n → inGangWait s (s.thread h).ctx n m = true) →
      Completes .gangForm s fun t => t.mem = s.mem ∧ (∀ g, g ∉ gangRange h n → t.thread g = s.thread g) ∧ ∀ j, j < n →
        let m := h + 8 * j
        (t.thread m).gang = some (h, n, j) ∧ ReadyAt m (s.cycle + 1) t ∧ (∀ k rd, BlockedFor m (.gang k rd) s → WritesOf m s t rd 0) ∧
        (t.thread m).seq = { (s.thread h).seq.pass 4 with x := (t.thread m).seq.x } ∧ (t.thread m).instret = (s.thread m).instret + 1) ∧
    (∀ n rd, Takes (.gangTimeout h (s.thread h).since) s → BlockedFor h (.gang n rd) s →
      Completes .gangTimeout s fun t => WritesOf h s t rd 1 ∧ PassedOf h 4 s t ∧ ReadyAt h (s.cycle + 1) t ∧ ThreadOnly h s t) ∧
    (∀ v fin, (s.thread h).gang ≠ none →
      (∃ m w, m ∈ membersOf (s.thread h) h ∧ m ≠ h ∧ (s.thread m).fin = none ∧ BlockedFor m w s) →
      s.together h v fin = s.modThread h fun t => { t with fin := some (t.fin.getD v) })

/-! ### Channels, monitors, counters -/

/-- R80-R83: SEND puts a flit on its way if it has claimed a slot of the channel or can claim one, and waits for one otherwise; RECV and RECVN
take the oldest flit; with none, RECV waits and RECVN answers 0 and −1. -/
def Sys2Proof.Spec.ChannelInstructions : Prop :=
  ∀ (s : State) (h : Nat), s.cur = .thread h →
    (∀ b a n, Runs (.send b a n) s →
      let dst := 256 * clusterOf h + wfield (s.getX b) 7 0
      let f : Flit := { data := s.getX a, tag := BitVec.ofNat 8 (wfield (s.getX b) 15 8) }
      ((dst, n.toNat) ∈ (s.thread h).claims → Completes (.send b a n) s fun t => WritesNone s t ∧ Passed 4 s t ∧
        Due (s.cycle + 5 + 2 * hops (coreOf h) (coreOf dst)) (.flitArrival h dst n.toNat (s.thread h).ctx f) t ∧
        (t.thread h).claims = (s.thread h).claims.erase (dst, n.toNat) ∧ ThreadAgenda h s t) ∧
      ((dst, n.toNat) ∉ (s.thread h).claims →
      ((∃ x, x ∈ ((s.thread dst).chan n.toNat).free ∧ claimFrom h dst x ≤ s.cycle) → Completes (.send b a n) s fun t =>
        WritesNone s t ∧ Passed 4 s t ∧ Due (s.cycle + 5 + 2 * hops (coreOf h) (coreOf dst)) (.flitArrival h dst n.toNat (s.thread h).ctx f) t ∧
        ((t.thread dst).chan n.toNat).free.length + 1 = ((s.thread dst).chan n.toNat).free.length) ∧
      ((∀ x, x ∈ ((s.thread dst).chan n.toNat).free → s.cycle < claimFrom h dst x) → Completes (.send b a n) s fun t =>
        BlockedFor h (.send dst n.toNat) t ∧ t.pc = s.pc ∧ WritesNone s t ∧ ThreadAgenda h s t))) ∧
    (∀ n a d f fs, ((s.thread h).chan n.toNat).flits = f :: fs → (a ≠ d ∨ a = 0) →
      (Runs (.recv n a d) s → Completes (.recv n a d) s fun t => WritesTwo s t d f.data a (f.tag.zeroExtend 64) ∧ Passed 4 s t ∧
        ((t.thread h).chan n.toNat).flits = fs ∧ ThreadAgenda h s t) ∧
      (Runs (.recvn n a d) s → Completes (.recvn n a d) s fun t => WritesTwo s t d f.data a (f.tag.zeroExtend 64) ∧ Passed 4 s t ∧
        ((t.thread h).chan n.toNat).flits = fs ∧ ThreadAgenda h s t)) ∧
    (∀ n a d, ((s.thread h).chan n.toNat).flits = [] → (a ≠ d ∨ a = 0) →
      (Runs (.recv n a d) s → Completes (.recv n a d) s fun t => BlockedFor h (.recv n.toNat) t ∧ t.pc = s.pc ∧ WritesNone s t ∧ ThreadOnly h s t) ∧
      (Runs (.recvn n a d) s → Completes (.recvn n a d) s fun t => WritesTwo s t d 0 a (BitVec.allOnes 64) ∧ Passed 4 s t ∧ RegsOnly s t))

/-- R80-R82: a flit enters the channel of a living thread of its context, in order, and wakes it two cycles later if it waits
there; otherwise it is discarded and its slot freed; a freed slot is claimed by a sender that waits. -/
def Sys2Proof.Spec.ChannelSteps : Prop :=
  ∀ (s : State) (h n : Nat),
    (∀ src f, Takes (.flitArrival src h n (s.thread h).ctx f) s → (s.thread h).run ≠ .unused → (s.thread h).run ≠ .exited →
      Completes .flitArrival s fun t => ((t.thread h).chan n).flits = ((s.thread h).chan n).flits ++ [f] ∧ ThreadAgenda h s t ∧
        (BlockedFor h (.recv n) s → Due (s.cycle + 2) (.recvWake h) t)) ∧
    (∀ src f c, Takes (.flitArrival src h n c f) s → ((s.thread h).run = .unused ∨ (s.thread h).run = .exited ∨ c ≠ (s.thread h).ctx) →
      Completes .flitArrival s fun t => ((t.thread h).chan n).flits = ((s.thread h).chan n).flits ∧
        ((t.thread h).chan n).free = ((s.thread h).chan n).free ++ [s.cycle] ∧ ThreadAgenda h s t) ∧
    (Takes (.recvWake h) s → BlockedFor h (.recv n) s → Completes .recvWake s fun t => ReadyAt h (s.cycle + 1) t ∧
      (t.thread h).seq = (s.thread h).seq ∧ ThreadOnly h s t) ∧
    (∀ dst x, Takes (.channelClaim h) s → BlockedFor h (.send dst n) s → dst ≠ h → x ∈ ((s.thread dst).chan n).free →
      claimFrom h dst x ≤ s.cycle → Completes .channelClaim s fun t => (t.thread h).claims = (s.thread h).claims ++ [(dst, n)] ∧ ReadyAt h (s.cycle + 1) t ∧
        ((t.thread dst).chan n).free.length + 1 = ((s.thread dst).chan n).free.length)

/-- R84-R87: MON and MON.g arm a monitor, which has recorded what lands in this cycle; MCLR disarms it; MWAIT retires with 1
if a monitor of its mask has a record, whose records it clears, and waits otherwise. A member of a gang waits for the others in either
case, so that they retire together (R30). -/
def Sys2Proof.Spec.MonitorInstructions : Prop :=
  ∀ (s : State) (h : Nat), s.cur = .thread h →
    (∀ a n, Runs (.mon a n) s → (wellCheck s h (s.getX a) 1 false true).1 = none →
      let place : MonPlace := .well (wellCore h (s.getX a)) (wellOff (s.getX a) / 64)
      Completes (.mon a n) s fun t => (t.thread h).mon n.toNat = { place := some place, hit := s.landed place } ∧
        (∀ k, k < 4 → k ≠ n.toNat → (t.thread h).mon k = (s.thread h).mon k) ∧ WritesNone s t ∧ Passed 4 s t ∧ ThreadOnly h s t) ∧
    (∀ a n p, Runs (.monG a n) s → s.translate s.view (s.getX a) .read = .ok p 0 →
      let place : MonPlace := .line (256 * (p.key / 256))
      Completes (.monG a n) s fun t => (t.thread h).mon n.toNat = { place := some place, hit := s.landed place } ∧
        (∀ k, k < 4 → k ≠ n.toNat → (t.thread h).mon k = (s.thread h).mon k) ∧ WritesNone s t ∧ Passed 4 s t ∧ ThreadOnly h s t) ∧
    (∀ n, Runs (.mclr n) s → Completes (.mclr n) s fun t => (t.thread h).mon n.toNat = {} ∧
      (∀ k, k < 4 → k ≠ n.toNat → (t.thread h).mon k = (s.thread h).mon k) ∧ WritesNone s t ∧ Passed 4 s t ∧ ThreadOnly h s t) ∧
    (∀ b m d, Runs (.mwait b m d) s → m ≠ 0 →
      ((s.thread h).monArmed m.toNat = true ∨ wfield (s.getX b) 31 0 ≠ 0) →
      ((s.thread h).monHit m.toNat = true → (s.thread h).gang ≠ none → Completes (.mwait b m d) s fun t =>
        BlockedFor h (.mwait m.toNat d) t ∧ t.pc = s.pc ∧ WritesNone s t ∧ ThreadAgenda h s t ∧ Due s.cycle (.monitorWake h s.cycle) t) ∧
      ((s.thread h).monHit m.toNat = true → (s.thread h).gang = none → Completes (.mwait b m d) s fun t => Writes s t d 1 ∧ Passed 4 s t ∧ ThreadOnly h s t ∧
        ∀ k, k < 4 → ((t.thread h).mon k).place = ((s.thread h).mon k).place ∧
          ((t.thread h).mon k).hit = (((s.thread h).mon k).hit && !nbit m.toNat k)) ∧
      ((s.thread h).monHit m.toNat = false → Completes (.mwait b m d) s fun t => BlockedFor h (.mwait m.toNat d) t ∧ t.pc = s.pc ∧
        WritesNone s t ∧ ThreadAgenda h s t ∧
        (wfield (s.getX b) 31 0 ≠ 0 → Due (s.cycle + wfield (s.getX b) 31 0) (.mwaitTimeout h s.cycle) t)))

/-- R84-R86: a write that lands where a monitor is armed is recorded, and its thread, if it waits there, is woken three cycles
later with status 1; a time-out gives status 2. A member of a gang whose wait is over goes on with the others (R29, R30). -/
def Sys2Proof.Spec.MonitorsRecordWrites : Prop :=
  (∀ (s : State) (core : Option Nat) (first len : Nat), Rising s.threads →
    let w : Landing := { core := core, first := first, len := len, at_ := s.cycle }
    let t := s.recordWrites core first len 0
    (∀ h k, k < 4 → (h, s.thread h) ∈ s.threads →
      ((t.thread h).mon k).place = ((s.thread h).mon k).place ∧
      ((t.thread h).mon k).hit = (((s.thread h).mon k).hit || ((s.thread h).mon k).place.any w.meets)) ∧
    (∀ h k mask rd, k < 4 → (h, s.thread h) ∈ s.threads → BlockedFor h (.mwait mask rd) s → nbit mask k = true →
      ((s.thread h).mon k).place.any w.meets = true → Due (s.cycle + 3) (.monitorWake h (s.thread h).since) t) ∧
    (∀ p, w.meets p = true → t.landed p = true)) ∧
  (∀ (s : State) (h mask : Nat) (rd : Reg) (leader n j m : Nat), BlockedFor h (.mwait mask rd) s → (s.thread h).gang = some (leader, n, j) →
    (s.thread h).fin = none → m ∈ membersOf (s.thread h) h → m ≠ h → (s.thread m).fin = none → (∃ w, BlockedFor m w s) →
    Takes (.monitorWake h (s.thread h).since) s → Completes .monitorWake s fun t => t = { s with threads := t.threads } ∧
      (∀ g, g ≠ h → t.thread g = s.thread g) ∧ t.thread h = { s.thread h with fin := some 1 }) ∧
  (∀ (s : State) (h mask : Nat) (rd : Reg), BlockedFor h (.mwait mask rd) s → Alone h s →
    (Takes (.monitorWake h (s.thread h).since) s → Completes .monitorWake s fun t => WritesOf h s t rd 1 ∧ PassedOf h 4 s t ∧
      ReadyAt h (s.cycle + 1) t ∧ ThreadOnly h s t ∧ ∀ k, k < 4 → nbit mask k = true → ((t.thread h).mon k).hit = false) ∧
    (Takes (.mwaitTimeout h (s.thread h).since) s → (s.thread h).monHit mask = false →
      Completes .mwaitTimeout s fun t => WritesOf h s t rd 2 ∧ PassedOf h 4 s t ∧ ReadyAt h (s.cycle + 1) t ∧ ThreadOnly h s t))

/-- R88: CNTW asks its counter's home and waits: until the answer if the counter has reached its target, else until the update that
brings it there, three cycles after which it is back, whatever the counter is then (log 18: CNTW completes in the cycle of its wake). It
acquires. -/
def Sys2Proof.Spec.CounterWait : Prop :=
  ∀ (s : State) (h : Nat),
    (∀ c b a p, s.cur = .thread h → Runs (.cntw c b a) s →
      ((s.getX a).toNat % 8 ≠ 0 → NoTrace s → Completes (.cntw c b a) s (Trapped h 4 (s.getX a) s)) ∧
      (Ungated s → (s.getX a).toNat % 8 = 0 → s.translate s.view (s.getX a) .read = .ok p 0 → s.tileWaits (linesOf p.key 8) = false →
        Unlimited s → Completes (.cntw c b a) s fun t => BlockedFor h (.cntw p.key none (c.toNat + 1)) t ∧ t.pc = s.pc ∧
          Requested s t p (.count (s.getX b)) ∧ WritesNone s t ∧ ThreadAgenda h s t)) ∧
    (∀ key n k target scope, Rising s.threads → (h, s.thread h) ∈ s.threads → BlockedFor h (.cntw k (some target) scope) s →
      rangeMeets key n k 8 = true → target.toNat ≤ ofBytes (memRead s.mem k 8) →
      Due (s.cycle + 3) (.cntwWake h (s.thread h).since) (s.wakeCounters key n)) ∧
    (∀ key target scope, Takes (.cntwWake h (s.thread h).since) s → BlockedFor h (.cntw key target scope) s → Alone h s →
      Completes .cntwWake s fun t => PassedOf h 4 s t ∧ ReadyAt h (if target.isNone then s.cycle else s.cycle + 1) t ∧ t.mem = s.mem ∧
        (t.thread h).seq.x = (s.thread h).seq.x ∧ (2 ≤ scope → ∀ x, x ∈ (t.core (coreOf h)).l1 → x.2.dirty ≠ 0))

/-! ### Barriers -/

/-- R89-R92: BAR and BARA are on their way to an arrival; BAR and BARW wait on an arrival that has been made, and return at
once, with status 0, when the phase of a kept one is complete, and with status 1 when a time-out has withdrawn it. A count of 0 or
above 256 raises cause 0x02 with it; a second arrival at a barrier where one is pending, and a BARW without one, cause 0x02. A BARW on a
phase that is complete returns at once from the 14th cycle after the completing arrival on, and before that waits for the release. -/
def Sys2Proof.Spec.BarrierInstructions : Prop :=
  ∀ (s : State) (h : Nat) (b a d : Reg), s.cur = .thread h →
    let n := a.toNat
    let count := s.getX b
    let ok : Prop := count ≠ 0 ∧ count.toNat ≤ 256
    (∀ i, i = .bar b a d ∨ i = .bara b a d → Runs i s → NoTrace s →
      (¬ ok → Completes i s (Trapped h 2 count s)) ∧ (ok → (s.thread h).baraAt n ≠ none → Completes i s (Trapped h 2 0 s))) ∧
    (ok → (s.thread h).baraAt n = none → (s.thread h).keptAt n = none →
      (Runs (.bar b a d) s → Completes (.bar b a d) s fun t => BlockedFor h (.arrive n count.toNat false d) t ∧ t.pc = s.pc ∧
        Due s.cycle (.barrierArrival h) t ∧ WritesNone s t) ∧
      (Runs (.bara b a d) s → Completes (.bara b a d) s fun t => BlockedFor h (.arrive n count.toNat true d) t ∧ t.pc = s.pc ∧
        Due s.cycle (.barrierArrival h) t ∧ WritesNone s t)) ∧
    (∀ w, ok → (s.thread h).baraAt n = none → (s.thread h).keptAt n = some w → (s.thread h).gang = none → Runs (.bar b a d) s →
      (w.out = true → Completes (.bar b a d) s fun t => Writes s t d 1 ∧ Passed 4 s t ∧ (t.thread h).keptAt n = none) ∧
      (∀ c, w.out = false → w.done = some c → Completes (.bar b a d) s fun t => Writes s t d 0 ∧ Passed 4 s t ∧ (t.thread h).keptAt n = none) ∧
      (w.out = false → w.done = none → Completes (.bar b a d) s fun t => BlockedFor h (.barrier n d) t ∧ WritesNone s t ∧ ThreadOnly h s t)) ∧
    (Runs (.barw a d) s → (s.thread h).baraAt n = none → (s.thread h).keptAt n = none → NoTrace s → Completes (.barw a d) s (Trapped h 2 0 s)) ∧
    (∀ w, (s.thread h).baraAt n = some w → (s.thread h).gang = none → w.out = false → Runs (.barw a d) s →
      (∀ c, w.done = some c → c + 14 ≤ s.cycle → Completes (.barw a d) s fun t => Writes s t d 0 ∧ Passed 4 s t ∧
        (t.thread h).baraAt n = none) ∧
      (∀ c, w.done = some c → s.cycle < c + 14 → Completes (.barw a d) s fun t => BlockedFor h (.barrier n d) t ∧ t.pc = s.pc ∧ WritesNone s t ∧
        (t.thread h).baraAt n = none ∧ (t.thread h).keptAt n = some { w with due := none }) ∧
      (w.done = none → Completes (.barw a d) s fun t => BlockedFor h (.barrier n d) t ∧ WritesNone s t ∧ (t.thread h).baraAt n = none ∧
        ((s.thread h).bartmo ≠ 0 → Due (s.cycle + (s.thread h).bartmo.toNat) (.barrierTimeout h (s.cycle + (s.thread h).bartmo.toNat)) t)))

/-- R11, R89-R91: the phase of a barrier is complete with the arrival that brings the arrivals to its count: the barrier is idle
again, and its participants are released 14 cycles later; an earlier arrival is counted. A BARA retires with its arrival, with 2 if that
has completed the phase and 0 otherwise, and leaves the arrival pending. An arrival with another count than the first one's raises cause
0x0A with it. -/
def Sys2Proof.Spec.BarrierPhases : Prop :=
  ∀ (s : State) (h b count : Nat) (rd : Reg),
    let cl := clusterOf h
    let c := (s.thread h).ctx
    let x := s.bar cl c b
    Takes (.barrierArrival h) s → Alone h s → s.releaseDone (.thread h) (s.thread h).since 2 = true →
      (BlockedFor h (.arrive b count true rd) s → (s.thread h).baraAt b = none → x.count = 0 ∨ x.count = count →
        Completes .barrierArrival s fun t => WritesOf h s t rd (if x.arrived + 1 = count then 2 else 0) ∧ PassedOf h 4 s t ∧
          ReadyAt h (s.cycle + 1) t ∧ ∃ w, (t.thread h).baraAt b = some w ∧ w.phase = x.phase ∧ w.out = false ∧
            (x.arrived + 1 ≠ count → w.done = none)) ∧
      (BlockedFor h (.arrive b count false rd) s →
      (x.count = 0 ∨ x.count = count → x.arrived + 1 = count → Completes .barrierArrival s fun t =>
        t.bar cl c b = { count := 0, arrived := 0, phase := x.phase + 1 } ∧ Due (s.cycle + 14) (.barrierRelease cl c b x.phase) t) ∧
      (x.count = 0 ∨ x.count = count → x.arrived + 1 ≠ count → Completes .barrierArrival s fun t =>
        t.bar cl c b = { x with count := count, arrived := x.arrived + 1 } ∧
        BlockedFor h (.barrier b rd) t ∧ ∃ w, (t.thread h).keptAt b = some w ∧ w.b = b ∧ w.phase = x.phase ∧ w.done = none ∧ w.out = false) ∧
      (x.count ≠ 0 → x.count ≠ count → NoTrace s →
        Completes .barrierArrival s fun t => Trapped h 0x0A (word count) s t ∧ t.bar cl c b = x))

/-- R11, R90, R92: a release wakes a thread that waits for the phase, with status 0; a time-out withdraws the arrival and
gives status 1; with no arrival left the barrier is idle. -/
def Sys2Proof.Spec.BarrierReleaseAndTimeout : Prop :=
  ∀ (s : State) (h : Nat) (w : BarArr) (rd : Reg), Rising s.threads → (h, s.thread h) ∈ s.threads → (s.thread h).barWait = [w] → Alone h s →
    BlockedFor h (.barrier w.b rd) s → w.out = false →
    (∀ c, w.done = some c → Takes (.barrierRelease (clusterOf h) (s.thread h).ctx w.b w.phase) s →
      Completes .barrierRelease s fun t => WritesOf h s t rd 0 ∧ PassedOf h 4 s t ∧ ReadyAt h (s.cycle + 1) t ∧ (t.thread h).barWait = []) ∧
    (∀ due, Takes (.barrierTimeout h due) s → w.due = some due → w.done = none →
      Completes .barrierTimeout s fun t => WritesOf h s t rd 1 ∧ PassedOf h 4 s t ∧ ReadyAt h (s.cycle + 1) t ∧ (t.thread h).barWait = [] ∧
        let x := s.bar (clusterOf h) (s.thread h).ctx w.b
        let y := t.bar (clusterOf h) (s.thread h).ctx w.b
        (x.phase = w.phase → 1 < x.arrived → y = { x with arrived := x.arrived - 1 }) ∧
        (x.phase = w.phase → x.arrived ≤ 1 → y = { count := 0, arrived := 0, phase := x.phase + 1 }))

/-! ### The inbox and user-level interrupts -/

/-- R93, R94, R97: IBX and IBXN take the oldest message; with none IBX waits and IBXN answers zeros; UIEN exchanges the enable;
UIRET goes back to where the handler interrupted. -/
def Sys2Proof.Spec.InboxInstructions : Prop :=
  ∀ (s : State) (h : Nat) (a d : Reg), s.cur = .thread h →
    (∀ k m ms, Ungated s → (s.core (coreOf h)).inbox = (k, m) :: ms → (s.core (coreOf h)).held = [] → (a ≠ d ∨ a = 0) →
      (Runs (.ibx a d) s → Completes (.ibx a d) s fun t => WritesTwo s t d m.w0 a m.w1 ∧ Passed 4 s t ∧ (t.core (coreOf h)).inbox = ms ∧ t.mem = s.mem) ∧
      (Runs (.ibxn a d) s → Completes (.ibxn a d) s fun t => WritesTwo s t d m.w0 a m.w1 ∧ Passed 4 s t ∧ (t.core (coreOf h)).inbox = ms ∧ t.mem = s.mem)) ∧
    (Ungated s → (s.core (coreOf h)).inbox = [] → (a ≠ d ∨ a = 0) →
      (Runs (.ibx a d) s → Completes (.ibx a d) s fun t => BlockedFor h .inbox t ∧ t.pc = s.pc ∧ WritesNone s t ∧ ThreadOnly h s t) ∧
      (Runs (.ibxn a d) s → Completes (.ibxn a d) s fun t => WritesTwo s t d 0 a 0 ∧ Passed 4 s t ∧ RegsOnly s t)) ∧
    (Runs (.uien a d) s → Completes (.uien a d) s fun t => Writes s t d (if (s.thread h).uiEn then 1 else 0) ∧ Passed 4 s t ∧
      (t.thread h).uiEn = wbit (s.getX a) 0 ∧ ThreadAgenda h s t) ∧
    (Runs .uiret s → (s.thread h).uiAct = true → wbit (s.thread h).shadow[5] 0 = false →
      Completes .uiret s fun t => t.pc = (s.thread h).shadow[5] ∧ (t.thread h).uiAct = false ∧ (t.thread h).seq.x = (s.thread h).seq.x ∧
        (t.thread h).seq.rpt = (s.thread h).shadowRpt ∧ (t.thread h).seq.skip = (s.thread h).shadowSkip ∧ Counted s t ∧
        (NoTrace s → ThreadAgenda h s t))

/-- R93, R96: a message enters the inbox of a core that its context holds, or waits behind 64 others; it is kept with the core's state while
that is saved, and otherwise discarded. The oldest one interrupts a thread that can take it, two cycles after it came, which enters
its handler with its program counter in shadow x29. -/
def Sys2Proof.Spec.InboxSteps : Prop :=
  ∀ (s : State) (core : Nat),
    (∀ ctx m, Takes (.inboxMessageArrival core ctx m) s → (∀ x, s.ctx ctx = some x → x.away = false) →
      ((s.core core).holder = some ctx → (s.core core).inbox.length < 64 → Completes .inboxMessageArrival s fun t =>
        (t.core core).inbox = (s.core core).inbox ++ [(s.cycle, m)] ∧ t.mem = s.mem) ∧
      ((s.core core).holder = some ctx → 64 ≤ (s.core core).inbox.length → Completes .inboxMessageArrival s fun t =>
        (t.core core).inbox = (s.core core).inbox ∧ (t.core core).held = (s.core core).held ++ [m]) ∧
      ((s.core core).holder ≠ some ctx → Completes .inboxMessageArrival s fun t => t = s)) ∧
    (∀ ctx m x v k, Takes (.inboxMessageArrival core ctx m) s → s.ctx ctx = some x → x.away = true → x.saved = some v → tfind v.cores core = some k →
      Completes .inboxMessageArrival s fun t => t.cores = s.cores ∧ t.mem = s.mem ∧ ∃ y u l, t.ctx ctx = some y ∧ y.saved = some u ∧
        tfind u.cores core = some l ∧ (k.inbox.length < 64 → l = { k with inbox := k.inbox ++ [(s.cycle, m)] }) ∧
        (64 ≤ k.inbox.length → l = { k with held := k.held ++ [m] })) ∧
    (∀ c m ms h, Takes (.uiDelivery core) s → (s.core core).inbox = (c, m) :: ms → c + 2 ≤ s.cycle →
      ((List.range 4).map (8 * core + ·)).find? (s.interruptible (wfield m.w0 7 0)) = some h →
      (∀ i, i < 4 → liveThread (s.thread (8 * core + i)) = true → (s.thread (8 * core + i)).uiAct = false) →
      (s.thread h).run = .ready → (s.thread h).seq.skip = 0 → (s.thread h).pend = [] →
      Completes .uiDelivery s fun t => (t.thread h).uiAct = true ∧ (t.thread h).seq.pc = (s.thread h).uivec ∧
        (t.thread h).shadow[5] = (s.thread h).seq.pc ∧ (t.thread h).shadowRpt = (s.thread h).seq.rpt ∧
        (t.thread h).seq.x = (s.thread h).seq.x ∧ ReadyAt h (s.cycle + 1) t ∧ ThreadOnly h s t ∧ (t.core core).inbox = (c, m) :: ms)

/-! ### Together -/

/-- TSTART, YIELD and TEXIT and their steps. -/
def Obligations.ThreadsStartYieldExit : Prop := StartYieldExit ∧ StartYieldExitSteps

/-- Channels: SEND and RECV, flits and claims. -/
def Obligations.Channels : Prop := ChannelInstructions ∧ ChannelSteps

/-- Monitors and CNTW: arming, waiting, recorded writes. -/
def Obligations.MonitorsAndCounters : Prop := MonitorInstructions ∧ MonitorsRecordWrites ∧ CounterWait

/-- Barriers: arrivals, phases, releases and time-outs. -/
def Obligations.Barriers : Prop := BarrierInstructions ∧ BarrierPhases ∧ BarrierReleaseAndTimeout

/-- Inboxes: posting, taking and delivering messages. -/
def Obligations.Inboxes : Prop := InboxInstructions ∧ InboxSteps

/-! ### Loads, stores, atomics -/

/-- R282-R284: LD takes what the core's first-level cache holds of an address that it may serve, its result usable ten cycles later,
and otherwise asks the home; behind an earlier load of the thread that has missed it takes its bytes in that order (R271). It passes
at once either way, and memory is as before. -/
def Sys2Proof.Spec.LoadsIssue : Prop :=
  ∀ (s : State) (p : BitVec 9) (o : BitVec 3) (n : BitVec 1) (z : BitVec 2) (a d : Reg) (ph : Phys), Runs (.ld p o n z a d) s →
    let size : Nat := 2 ^ z.toNat
    let va := s.getX a + BitVec.ofInt 64 (p.toInt * (size : Int))
    wfield va 63 56 = 0 → va.toNat % size = 0 → Ungated s → Reaches s va .read ph → Unlimited s →
    s.tileWaits (linesOf ph.key size) = false → s.cachedWaits ph.key = false →
    (∀ h bs, s.cur = .thread h → ph.nc = false → o.toNat ≤ 1 → s.l1Read (coreOf h) ph.key size = some bs →
      (s.missOut = false → Completes (.ld p o n z a d) s fun t => Writes s t d (loadValue size (n = 1) bs) ∧ Passed 4 s t ∧ ThreadOnly h s t ∧
        (d ≠ 0 → tfind (t.thread h).pend (s.numOf d) = some (some (s.issue.cycle.getD s.cycle + 10)))) ∧
      (s.missOut = true → Completes (.ld p o n z a d) s fun t => WritesNone s t ∧ Passed 4 s t ∧ t.mem = s.mem ∧
        RequestedFor (s.cycle + 10) s t ph (.fill (some (s.numOf d, size, n = 1, if o = 0 then none else some o.toNat))))) ∧
    (∀ h, s.cur = .thread h → ph.nc = false → o.toNat ≤ 1 → s.l1Read (coreOf h) ph.key size = none →
      Completes (.ld p o n z a d) s fun t => WritesNone s t ∧ Passed 4 s t ∧ t.mem = s.mem ∧
        Requested s t ph (.fill (some (s.numOf d, size, n = 1, if o = 0 then none else some o.toNat)))) ∧
    ((∃ c, s.cur = .pump c) ∨ ph.nc = true ∨ 2 ≤ o.toNat →
      Completes (.ld p o n z a d) s fun t => WritesNone s t ∧ Passed 4 s t ∧ t.mem = s.mem ∧
        Requested s t ph (.load (s.numOf d) size (n = 1) (if o = 0 then none else some o.toNat)))

/-- R282-R284: ST without a release puts its bytes into the core's first-level cache, where the page may be cached; otherwise
they go to the home. It passes at once, writes no register, and memory itself is as before until the home performs it. -/
def Sys2Proof.Spec.StoresIssue : Prop :=
  ∀ (s : State) (p : BitVec 9) (o : BitVec 3) (z : BitVec 2) (a d : Reg) (ph : Phys), Runs (.st p o z a d) s →
    let size : Nat := 2 ^ z.toNat
    let va := s.getX a + BitVec.ofInt 64 (p.toInt * (size : Int))
    let bs := bytesOfWord size (s.getX d)
    wfield va 63 56 = 0 → va.toNat % size = 0 → Ungated s → Reaches s va .write ph → Unlimited s →
    s.tileWaits (linesOf ph.key size) = false → s.cachedWaits ph.key = false → s.loadsSector ph.key = false → s.missOut = false →
    (∀ h, s.cur = .thread h → ph.nc = false → o = 0 → ph.key % 64 + size ≤ 64 → (tfind (s.core (coreOf h)).l1 (ph.key / 64)).isSome = true →
      Completes (.st p o z a d) s fun t => WritesNone s t ∧ Passed 4 s t ∧ t.mem = s.mem ∧ t.agenda = s.agenda ∧
        t.l1Read (coreOf h) ph.key size = some bs ∧ ∀ c, c ≠ coreOf h → t.core c = s.core c) ∧
    (∀ h, s.cur = .thread h → ph.nc = false → o = 0 → tfind (s.core (coreOf h)).l1 (ph.key / 64) = none →
      Completes (.st p o z a d) s fun t => WritesNone s t ∧ Passed 4 s t ∧ t.mem = s.mem ∧
        Requested s t { ph with key := ph.key / 64 * 64 } (.fill none)) ∧
    ((∃ c, s.cur = .pump c) ∨ ph.nc = true ∨ o ≠ 0 →
      Completes (.st p o z a d) s fun t => WritesNone s t ∧ Passed 4 s t ∧ t.mem = s.mem ∧ Requested s t ph (.store bs))

/-- R283, R285: a misaligned scalar access raises cause 0x04, one with nonzero bits [63:56] cause 0x05, or cause 0x06 where it names a
well; one without the right to its well raises cause 0x07, one without a qualifier that race detection stops cause 0x0C with the
conflict's address. TRAPVAL is the address otherwise; nothing is read or written. -/
def Sys2Proof.Spec.ScalarAccessTraps : Prop :=
  ∀ (s : State) (h : Nat) (p : BitVec 9) (o : BitVec 3) (n : BitVec 1) (z : BitVec 2) (a d : Reg), s.cur = .thread h → NoTrace s →
    let size : Nat := 2 ^ z.toNat
    let va := s.getX a + BitVec.ofInt 64 (p.toInt * (size : Int))
    (∀ i, i = .ld p o n z a d ∨ i = .st p o z a d → Runs i s →
      (wfield va 63 56 ≠ 0 → Completes i s fun t => Trapped h 5 va s t ∧ t.mem = s.mem) ∧
      (wfield va 63 56 = 0 → va.toNat % size ≠ 0 → Completes i s fun t => Trapped h 4 va s t ∧ t.mem = s.mem)) ∧
    (∀ i, i = .ldl p o n z a d ∨ i = .stl p o z a d → Runs i s →
      (wfield va 63 25 ≠ 0 → Completes i s fun t => Trapped h 6 va s t ∧ t.mem = s.mem) ∧
      (wfield va 63 25 = 0 → va.toNat % size ≠ 0 → Completes i s fun t => Trapped h 4 va s t ∧ t.mem = s.mem) ∧
      (wfield va 63 25 = 0 → va.toNat % size = 0 →
        let write : Bool := decide (i = .stl p o z a d)
        (nbit (s.rights (coreOf h) (wellCore h va)) (b2n write) = false → Completes i s fun t => Trapped h 7 va s t ∧ t.mem = s.mem) ∧
        (∀ v, nbit (s.rights (coreOf h) (wellCore h va)) (b2n write) = true → o = 0 → Ungated s →
          (s.raceCheck (coreOf h) (s.thread h).ctx write [(wellCore h va, wellOff va, size)]).1 = some v →
          Completes i s fun t => Trapped h 0x0C v s t ∧ t.mem = s.mem)))

/-- R285: LDL asks for its bytes at the bank, which are there 4 cycles later in the own well and 6 + 2h cycles later in a peer's (when the
bank is read is log 1, DEDUCED from R8: half of the way there and back); STL sends its bytes to the bank, 6 + 2h cycles away, or behind
its release. -/
def Sys2Proof.Spec.WellAccesses : Prop :=
  ∀ (s : State) (h : Nat) (p : BitVec 9) (o : BitVec 3) (n : BitVec 1) (z : BitVec 2) (a d : Reg), s.cur = .thread h → Ungated s →
    let size : Nat := 2 ^ z.toNat
    let va := s.getX a + BitVec.ofInt 64 (p.toInt * (size : Int))
    let c := wellCore h va
    let off := wellOff va
    let ph : Phys := { key := wellKey c off, ks := 0, nc := true, sa := false, cc := false }
    let way := 6 + 2 * hops (coreOf h) c
    wfield va 63 25 = 0 → va.toNat % size = 0 →
    (Runs (.ldl p o n z a d) s → nbit (s.rights (coreOf h) c) 0 = true →
      (o = 0 → (s.raceCheck (coreOf h) (s.thread h).ctx false [(c, off, size)]).1 = none) →
      Completes (.ldl p o n z a d) s fun t => WritesNone s t ∧ Passed 4 s t ∧ t.mem = s.mem ∧ (∀ g, (t.core g).well = (s.core g).well) ∧
        (d ≠ 0 → tfind (t.thread h).pend (s.numOf d) = some none) ∧
        RequestedFor (s.cycle + if c = coreOf h then 4 else way) s t ph (.load (s.numOf d) size (n = 1) (if o = 0 then none else some o.toNat))) ∧
    (Runs (.stl p o z a d) s → nbit (s.rights (coreOf h) c) 1 = true →
      (o = 0 → (s.raceCheck (coreOf h) (s.thread h).ctx true [(c, off, size)]).1 = none) →
      Completes (.stl p o z a d) s fun t => WritesNone s t ∧ Passed 4 s t ∧ t.mem = s.mem ∧ (∀ g, (t.core g).well = (s.core g).well) ∧
        (o = 0 → Due (s.cycle + way) (.wellStoreLand h c off (bytesOfWord size (s.getX d)) s.cycle) t) ∧
        (o ≠ 0 → Requested s t ph (.store (bytesOfWord size (s.getX d)))))

/-- Bytes written at an address, and every other byte as before. -/
def Sys2Proof.Spec.BytesWritten (m m' : List Host.Cell) (a : Nat) (bs : List Byte) : Prop :=
  ∀ x, memGet m' x = if a ≤ x ∧ x < a + bs.length then bs.getD (x - a) 0 else memGet m x

/-- R8, R85, R260, R267: a store lands in its well bank: its bytes are written, no other byte of any well changes. One that follows an
earlier access of its thread to the bank, or comes to a locked sector, waits there as a request. -/
def Sys2Proof.Spec.WellStoreLands : Prop :=
  ∀ (s : State) (h core off sent : Nat) (bs : List Byte), Takes (.wellStoreLand h core off bs sent) s →
    let behind : Prop := s.wellBehind h core off bs.length sent = true
    let locked : Prop := s.mustWait (sectorsOf core off bs.length) true s.cycle (orderKey h sent) = true
    (¬ behind → ¬ locked → Memory.wf (s.core core).well = true →
      Completes .wellStoreLand s fun t => BytesWritten (s.core core).well (t.core core).well off bs ∧
        (∀ c, c ≠ core → t.core c = s.core c) ∧ t.mem = s.mem ∧ ∀ g, (t.thread g).seq = (s.thread g).seq) ∧
    (behind ∨ locked → Completes .wellStoreLand s fun t => t = { s with agenda := t.agenda } ∧ ∃ r, Due (s.cycle + 1) (.farAccessPerform r) t ∧
      r.h = h ∧ r.pump = none ∧ r.addr = wellKey core off ∧ r.op = .store bs ∧ r.sent = sent ∧
      r.reached = if s.wellBehind h core off bs.length sent then none else some s.cycle)

/-- The parts of an atomic instruction: operation, scope, ordering, size, rb, ra, and rd of an AMO. -/
def Sys2Proof.Spec.atomicOf : Instr → Option (AmoOp × BitVec 3 × BitVec 2 × Nat × Reg × Reg × Option Reg)
  | .amoAdd q k w b a d => some (.add, q, k, amoSize w, b, a, some d)
  | .amoAnd q k w b a d => some (.and, q, k, amoSize w, b, a, some d)
  | .amoOr q k w b a d => some (.or, q, k, amoSize w, b, a, some d)
  | .amoXor q k w b a d => some (.xor, q, k, amoSize w, b, a, some d)
  | .amoMin q k w b a d => some (.min, q, k, amoSize w, b, a, some d)
  | .amoMax q k w b a d => some (.max, q, k, amoSize w, b, a, some d)
  | .amoMinn q k w b a d => some (.minn, q, k, amoSize w, b, a, some d)
  | .amoMaxn q k w b a d => some (.maxn, q, k, amoSize w, b, a, some d)
  | .amoSwap q k w b a d => some (.swap, q, k, amoSize w, b, a, some d)
  | .amoCas q k w b a d => some (.cas, q, k, amoSize w, b, a, some d)
  | .amoFadd q k b a d => some (.fadd, q, k, 4, b, a, some d)
  | .amoFmax q k b a d => some (.fmax, q, k, 4, b, a, some d)
  | .redAdd q k w b a => some (.add, q, k, amoSize w, b, a, none)
  | .redAnd q k w b a => some (.and, q, k, amoSize w, b, a, none)
  | .redOr q k w b a => some (.or, q, k, amoSize w, b, a, none)
  | .redXor q k w b a => some (.xor, q, k, amoSize w, b, a, none)
  | .redMin q k w b a => some (.min, q, k, amoSize w, b, a, none)
  | .redMax q k w b a => some (.max, q, k, amoSize w, b, a, none)
  | .redMinn q k w b a => some (.minn, q, k, amoSize w, b, a, none)
  | .redMaxn q k w b a => some (.maxn, q, k, amoSize w, b, a, none)
  | .redFadd q k b a => some (.fadd, q, k, 4, b, a, none)
  | .redFmax q k b a => some (.fmax, q, k, 4, b, a, none)
  | _ => none

/-- R229, R293-R296: every AMO and RED asks the word's home for its operation, and passes; an AMO's operand registers are those of
its issue. -/
def Obligations.AtomicsIssue : Prop :=
  ∀ (i : Instr) (s : State) (op : AmoOp) (q : BitVec 3) (k : BitVec 2) (size : Nat) (b a : Reg) (rd : Option Reg) (ph : Phys),
    atomicOf i = some (op, q, k, size, b, a, rd) → Runs i s → wfield (s.getX a) 63 56 = 0 → (s.getX a).toNat % size = 0 →
    Ungated s → Reaches s (s.getX a) .rw ph → Unlimited s → s.tileWaits (linesOf ph.key size) = false → s.loadsSector ph.key = false →
    Completes i s fun t => WritesNone s t ∧ Passed 4 s t ∧ t.mem = s.mem ∧
      match rd with
      | some d => Requested s t ph (.amo op size (s.getX b) (s.getX d) (s.numOf d) (if k = 1 ∨ k = 3 then some q.toNat else none))
      | none => Requested s t ph (.red op size (s.getX b))

/-- What R294 makes of the old value m of a word of n bytes, for the operations on integers. -/
def Sys2Proof.Spec.atomicRef (op : AmoOp) (n m b c : Nat) : Option Nat :=
  let w := 2 ^ (8 * n)
  match op with
  | .add => some ((m + b) % w)
  | .and => some (m &&& b % w)
  | .or => some (m ||| b % w)
  | .xor => some (m ^^^ b % w)
  | .min => some (if signedOf (8 * n) b < signedOf (8 * n) m then b % w else m)
  | .max => some (if signedOf (8 * n) m < signedOf (8 * n) b then b % w else m)
  | .minn => some (if b % w < m then b % w else m)
  | .maxn => some (if m < b % w then b % w else m)
  | .swap => some (b % w)
  | .cas => some (if m = c % w then b % w else m)
  | .fadd => none
  | .fmax => none

/-- Nothing outside the machine's memory listens to writes of these bytes: no trap ring's CCOUNT, no launch page (R317, R362). -/
abbrev Sys2Proof.Spec.PlainBytes (s : State) (key n : Nat) : Prop :=
  s.ringOf key n = none ∧ ∀ x, x ∈ s.ctxs → x.2.launchPage = none
/-- The request is at its home and nothing keeps it waiting (R251, R260, R267, R377, R399, R413). -/
abbrev Sys2Proof.Spec.ReachesHome (s : State) (r : FarReq) : Prop :=
  Takes (.farAccessPerform r) s ∧ r.held = false ∧ r.entered = true ∧ r.near = false ∧ isWellKey r.addr = false ∧
  (r.dram = true ∨ s.missesLine r.addr = false) ∧ s.reqs.any (fun q => s.mustFollow q r) = false ∧
  s.mustWait (reqUnits r) (farWrites r.op) (r.reached.getD s.cycle) (orderKey r.h r.sent) = false
/-- The link works, the bytes hold no uncorrectable error, no snoop is needed (R367, R380, R382), and the request is this device's own. -/
abbrev Sys2Proof.Spec.AtHome (s : State) (r : FarReq) : Prop :=
  ReachesHome s r ∧ s.onDeadLink r.addr = false ∧ (farReads r.op && (reqUnits r).any s.unitBroken) = false ∧ r.sa = false ∧
    isForeign r = false
/-- Register rd of thread h still awaits the result of what it issued in a cycle (R9, R23), which is no load that others of its gang have
still to issue (R28). -/
abbrev Sys2Proof.Spec.StillAwaits (s : State) (h sent rd : Nat) : Prop :=
  s.awaitsResult (.thread h) sent rd = true ∧ rd ≠ 0 ∧ rd < 32 ∧ Rising (s.thread h).pend ∧ s.earlyLoad h sent = false
/-- The answer has written v to register rd of thread h, which it awaits no longer; the others are as before. -/
def Sys2Proof.Spec.Answered (s t : State) (h rd : Nat) (v : Word) : Prop :=
  (t.thread h).seq.x.toList.getD rd 0 = v ∧ tfind (t.thread h).pend rd = none ∧
  ∀ k, k ≠ rd → k < 32 → (t.thread h).seq.x.toList.getD k 0 = (s.thread h).seq.x.toList.getD k 0
/-- n bytes of one line (R251), which is written as the line's key has it and as its slice holds it, without turning other bytes of it
(R378). -/
abbrev Sys2Proof.Spec.KeyFits (s : State) (key ks n : Nat) : Prop :=
  key % 256 + n ≤ 256 ∧ ∀ k t, k / 256 = key / 256 → tfind s.tags (k / 256) = some t →
    (∀ c, s.keyTag k ks = some c → c = t) ∧ ∀ l c, tfind s.lines (k / 256) = some l → l.tag = some c → c = t

/-- R88, R229, R251, R294, R296, R367, R413, R415: what a home does. A request for a line that its slice does not hold waits for the channel
first, and keeps the place of its arrival meanwhile; that the line is looked at when the way of a held line is over, and the channel then
takes 420 cycles less that way, is log 1 (DEDUCED from R413 and R415). A load answers the bytes there, and a load behind a fill those and the fill's sector; a store writes its bytes and no others;
a load of bytes with an uncorrectable error parks its thread with cause 0x06, and its record goes to the fault queue; an atomic writes
the new value and answers the old one; a RED answers with its flags; a CNTW's read ends its wait or leaves it to an
update. (An AMO or RED on host memory whose page has SA = 0 is left out here: log 17.) -/
def Sys2Proof.Spec.HomePerforms : Prop :=
  ∀ (s : State) (r : FarReq), Memory.wf s.mem = true →
    (Takes (.farAccessPerform r) s → r.held = false → r.entered = true → r.near = false → isWellKey r.addr = false → r.dram = false →
      s.missesLine r.addr = true → Completes .farAccessPerform s fun t => t = { s with agenda := t.agenda } ∧
        ∃ c, Due (s.cycle + (420 - s.wayTo r)) (.farAccessPerform { r with dram := true, reached := c }) t ∧
          ((∀ q, q ∈ s.reqs → s.mustFollow q r = true → q.reached ≠ none) → c = some (r.reached.getD s.cycle))) ∧
    (∀ rd n nat acq, ReachesHome s r → r.op = .load rd n nat acq → r.pump = none → (reqUnits r).any s.unitBroken = true → (s.thread r.h).run = .ready →
      (s.thread r.h).born ≤ r.sent → (s.part ((s.partOfCluster (clusterOf r.h)).getD 0)).isSome = true →
      Completes .farAccessPerform s fun t => (t.thread r.h).run = .parked ∧ (t.thread r.h).trapCause = 6 ∧
        (t.thread r.h).trapVal = r.va ∧ ∃ x, Due (s.cycle + 110) (.faultQueueWrite ((s.partOfCluster (clusterOf r.h)).getD 0) x) t) ∧
    (AtHome s r →
    (∀ h rd n nat, r.pump = none → r.h = h → r.op = .load rd n nat none → StillAwaits s h r.sent rd →
      Completes .farAccessPerform s fun t => t.mem = s.mem ∧ Answered s t h rd (loadValue n nat (s.readBytes r.addr r.key n))) ∧
    (∀ h rd n nat acq, r.pump = none → r.h = h → r.op = .fill (some (rd, n, nat, acq)) → StillAwaits s h r.sent rd →
      tfind (s.core (coreOf h)).l1 (r.addr / 64) = none → r.addr % 64 + n ≤ 64 →
      Completes .farAccessPerform s fun t => t.mem = s.mem ∧ (tfind (t.core (coreOf h)).l1 (r.addr / 64)).isSome = true ∧
        Answered s t h rd (loadValue n nat (((s.readBytes (r.addr / 64 * 64) r.key 64).drop (r.addr % 64)).take n))) ∧
    (∀ bs, r.op = .store bs → KeyFits s r.addr r.key bs.length → PlainBytes s r.addr bs.length →
      Completes .farAccessPerform s fun t => BytesWritten s.mem t.mem r.addr bs ∧ ∀ g, (t.thread g).seq = (s.thread g).seq) ∧
    (∀ op n b c rd new, r.op = .amo op n b c rd none → (n = 4 ∨ n = 8) → atomicRef op n (s.readNat r.addr r.key n) b.toNat c.toNat = some new →
      KeyFits s r.addr r.key n → PlainBytes s r.addr n → s.home r.addr ≠ .host →
      Completes .farAccessPerform s fun t => BytesWritten s.mem t.mem r.addr (toBytes n new) ∧
        (r.pump = none → StillAwaits s r.h r.sent rd → Answered s t r.h rd (amoResult op n (s.readNat r.addr r.key n)))) ∧
    (∀ op n b new, r.op = .red op n b → r.pump = none → (n = 4 ∨ n = 8) → atomicRef op n (s.readNat r.addr r.key n) b.toNat 0 = some new →
      KeyFits s r.addr r.key n → PlainBytes s r.addr n → s.home r.addr ≠ .host →
      Completes .farAccessPerform s fun t => BytesWritten s.mem t.mem r.addr (toBytes n new) ∧ (∀ g, (t.thread g).seq = (s.thread g).seq) ∧
        Due s.cycle (.redAck r.h r.va 0 r.sent) t) ∧
    (∀ target k scope, r.op = .count target → r.pump = none → BlockedFor r.h (.cntw k none scope) s → (s.thread r.h).since = r.sent →
      let v := (wordOfBytes (s.mergeDirty (coreOf r.h) r.addr ((s.holdLine r.addr (some r.key)).readBytes r.addr r.key 8))).toNat
      (target.toNat ≤ v → Completes .farAccessPerform s fun t => t.mem = s.mem ∧ t.threads = s.threads ∧ Due s.cycle (.cntwWake r.h r.sent) t) ∧
      (v < target.toNat → Completes .farAccessPerform s fun t => t.mem = s.mem ∧ BlockedFor r.h (.cntw k (some target) scope) t ∧
        (t.thread r.h).seq = (s.thread r.h).seq)))

/-- R53, R246: HASHA writes the layout of R53 for an address that has a translation; the thread waits for one that its core's TLB does
not hold, in the miss of its page where no level holds it (R247), and traps where there is none. (Where the leaf's frame lies outside the windows SLICE and CHAN are the model's choice, log 19.) -/
def Sys2Proof.Spec.HashaAnswersHome : Prop :=
  ∀ (s : State) (a d : Reg), Runs (.hasha a d) s →
    (∀ p, Reaches s (s.getX a) .none p → p.ks < 16 → s.pf.devIdx < 16 → p.key / 2 ^ 52 ≤ 16 →
      (∀ sl ch, s.home p.key = .slice sl ch → sl < 128 ∧ ch < 384) →
      ∃ t v, exec (.hasha a d) s = .next t ∧ Writes s t d v ∧ Passed 4 s t ∧ t.mem = s.mem ∧ (∀ h, s.cur = .thread h → RegsOnly s t) ∧
        wbit v 18 = p.nc ∧ wbit v 19 = p.sa ∧ wfield v 27 24 = p.ks ∧ wfield v 62 28 = 0 ∧ wbit v 17 = p.cc ∧
        (p.key < 2 ^ 52 → wbit v 63 = false ∧ wfield v 23 20 = s.pf.devIdx ∧ ∀ sl ch, s.home p.key = .slice sl ch → wfield v 7 0 = sl ∧ wfield v 16 8 = ch) ∧
        (2 ^ 52 ≤ p.key → wbit v 63 = true ∧ wfield v 23 20 = p.key / 2 ^ 52 - 1 ∧ wfield v 16 0 = 0)) ∧
    (∀ h, s.cur = .thread h →
      (∀ c, s.translate s.view (s.getX a) .none = .fault c → NoTrace s → Completes (.hasha a d) s (Trapped h c (s.getX a) s)) ∧
      (s.translate s.view (s.getX a) .none = .miss → (s.thread h).walkFault = none →
        Completes (.hasha a d) s fun t => BlockedFor h .walk t ∧ t.pc = s.pc ∧ WritesNone s t ∧ t.mem = s.mem ∧
          ∃ id m, tfind (t.die (dieOf h)).misses id = some m ∧ (h, s.getX a, .none) ∈ m.waits) ∧
      (∀ n p, s.translate s.view (s.getX a) .none = .ok p n → n ≠ 0 →
        Completes (.hasha a d) s fun t => BlockedFor h .walk t ∧ t.pc = s.pc ∧ WritesNone s t ∧ t.mem = s.mem ∧
          Due (s.cycle + n) (.tlbWalkComplete h (s.getX a) .none) t))

/-- No sector of a thread's core that p selects is dirty, and no write-back of one is on its way. -/
def Sys2Proof.Spec.Clean (s : State) (h : Nat) (p : Nat → Bool) : Prop :=
  (∀ x, x ∈ (s.core (coreOf h)).l1 → p x.1 = true → x.2.dirty = 0) ∧
  ∀ r, r ∈ s.reqs → reqIsWb r = true → coreOf r.h = coreOf h → p (r.addr / 64) = false
/-- The write-back of a sector of a thread's core is on its way to its home. -/
def Sys2Proof.Spec.WrittenBack (s t : State) (h : Nat) (x : Nat × Sector) : Prop :=
  ∃ due r, Due due (.farAccessPerform r) t ∧ r.addr = 64 * x.1 ∧ r.key = x.2.key ∧ r.op = .writeBack (dirtyBytes x.2) ∧ r.h = h ∧ r.sent = s.cycle
/-- R249, R290-R292, R413: FENCE waits for what its thread has sent, begins the write-back of the core's dirty sectors at a scope above the
core, and then passes, with what is not dirty gone from the cache; an enabled event of a RED traps it. CWB and CINV write the dirty
sectors of their range back, wait for that, and pass; CINV leaves no sector of the range that is not dirty. PFX asks for each sector of
its range that is absent and whose page may be cached. A range that R291 and R292 do not allow raises cause 0x02. An evicted line is
no longer held. -/
def Sys2Proof.Spec.CacheMaintenance : Prop :=
  ∀ (s : State) (h : Nat), s.cur = .thread h →
    let core := coreOf h
    (∀ q, Runs (.fence q) s → (s.thread h).relAt = none →
      let done : Prop := s.releaseDone (.thread h) s.cycle q.toNat = true ∧ (2 ≤ q.toNat → ∀ x, x ∈ (s.core core).l1 → x.2.dirty = 0)
      (done → redEvent (s.thread h) = none → ∃ t, exec (.fence q) s = .next t ∧ WritesNone s t ∧ Passed 4 s t ∧ (t.thread h).redEvents = [] ∧
        t.mem = s.mem ∧ (2 ≤ q.toNat → (t.core core).l1 = [])) ∧
      (∀ va, done → redEvent (s.thread h) = some va → NoTrace s → Completes (.fence q) s (Trapped h 9 va s)) ∧
      (¬ done → Unlimited s → Ungated s → Completes (.fence q) s fun t => TriedAgain s t ∧ (t.thread h).relAt = some s.cycle ∧ t.mem = s.mem ∧
        (2 ≤ q.toNat → ∀ x, x ∈ (s.core core).l1 → x.2.dirty ≠ 0 → WrittenBack s t h x))) ∧
    (∀ b a p u, s.acqOut s.cur = false → s.takeOut s.cur (s.cycle + 1) = false → (s.thread h).relAt = none → (s.getX b).toNat ≤ 2 ^ 21 →
      cacheRange (s.getX a) (s.getX b) s = (p, u) →
      (Clean u h p →
        (Runs (.cwb b a) s → ∃ t, exec (.cwb b a) s = .next t ∧ WritesNone s t ∧ Passed 4 s t ∧ t.mem = u.mem) ∧
        (Runs (.cinv b a) s → ∃ t, exec (.cinv b a) s = .next t ∧ WritesNone s t ∧ Passed 4 s t ∧ t.mem = u.mem ∧
          (∀ x, x ∈ (t.core core).l1 → p x.1 = true → x.2.dirty ≠ 0) ∧
          ∀ x, x ∈ (u.core core).l1 → p x.1 = false → x ∈ (t.core core).l1)) ∧
      (∀ x, x ∈ (u.core core).l1 → p x.1 = true → x.2.dirty ≠ 0 → Unlimited s → ∀ i, i = .cwb b a ∨ i = .cinv b a → Runs i s →
        Completes i s fun t => TriedAgain s t ∧ (t.thread h).relAt = some s.cycle ∧ WrittenBack s t h x)) ∧
    (∀ b a, NoTrace s →
      (∀ i, i = .cwb b a ∨ i = .cinv b a → Runs i s → 2 ^ 21 < (s.getX b).toNat → Completes i s (Trapped h 2 (s.getX b) s)) ∧
      (Runs (.pfx b a) s → (s.getX b = 0 ∨ 65536 < (s.getX b).toNat) → Completes (.pfx b a) s (Trapped h 2 0 s))) ∧
    (∀ b a, Runs (.pfx b a) s → s.acqOut s.cur = false → s.takeOut s.cur (s.cycle + 1) = false → s.getX b ≠ 0 → (s.getX b).toNat ≤ 65536 →
      Unlimited s →
      (∀ x, x ∈ splitPages (s.getX a).toNat (s.getX b).toNat → ∃ p, s.translate s.view (word x.1) .read = .ok p 0) →
      ∃ t, exec (.pfx b a) s = .next t ∧ WritesNone s t ∧ Passed 4 s t ∧ t.mem = s.mem ∧
        ∀ x p n, x ∈ splitPages (s.getX a).toNat (s.getX b).toNat → s.translate s.view (word x.1) .read = .ok p 0 → p.nc = false →
          p.key / 64 ≤ n → n ≤ (p.key + x.2 - 1) / 64 → tfind (s.core core).l1 n = none → Requested s t { p with key := 64 * n } (.fill none)) ∧
    (∀ line, Takes (.sliceLineEvict line) s → Rising s.lines → Completes .sliceLineEvict s fun t =>
      t = { s with lines := t.lines } ∧ tfind t.lines line = none ∧ ∀ l, l ≠ line → tfind t.lines l = tfind s.lines l)

/-- R229, R290: the acknowledgement of a RED brings its flags into FFLAGS; an event takes its place in program order, to be reported at
FENCE or TEXIT. -/
def Sys2Proof.Spec.RedAcknowledged : Prop :=
  ∀ (s : State) (h sent : Nat) (va : Word) (f : Fl), Takes (.redAck h va f sent) s → (s.thread h).born ≤ sent →
    Completes .redAck s fun t => (t.thread h).fflags = (s.thread h).fflags ||| f ∧ (t.thread h).seq = (s.thread h).seq ∧ ThreadOnly h s t ∧
      (f = 0 → (t.thread h).redEvents = (s.thread h).redEvents) ∧
      (f ≠ 0 → ∃ l r, (s.thread h).redEvents = l ++ r ∧ (t.thread h).redEvents = l ++ (sent, va, f) :: r ∧
        (∀ x, x ∈ l → x.1 ≤ sent) ∧ ∀ x, r.head? = some x → sent < x.1)

/-- R244, R246, R247, R380, R399, R413: a thread whose translation comes from its cluster's or its die's TLB goes on when the way is over. A
walker takes the tables of its miss one after the other, each from its home: it waits while a table is not usable yet, fails over a link
that cannot recover, and reads a line that its slice does not hold from the channel. Behind its last read the miss is over: every thread
that waits for it goes on in that cycle, with its translation in the core's TLB or with the fault that its instruction will find. (That
a walk fills the core's TLB, as a hit in a farther level does, and that an unready walk looks again in each cycle is log 15; `entered`
says that no limit of R377 holds the read back.) -/
def Obligations.WalkCompletes : Prop :=
  (∀ (s : State) (h : Nat) (va : Word) (acc : Access), Takes (.tlbWalkComplete h va acc) s → BlockedFor h .walk s →
    Completes .tlbWalkComplete s fun t => ReadyAt h s.cycle t ∧ (t.thread h).seq = (s.thread h).seq ∧ t.mem = s.mem ∧
      ∀ e n, s.tlbFind (s.viewOf h) va.toNat acc = some (e, n) → e ∈ (t.core (coreOf h)).tlb) ∧
  ∀ (s : State) (die id a : Nat) (l : List Nat) (m : Miss), Takes (.walkRead die id) s → tfind (s.die die).misses id = some m →
    s.unread die m = a :: l → m.entered = true →
    let waits (h : Nat) (va : Word) (acc : Access) : Prop := (h, va, acc) ∈ m.waits ∧ (∀ y, y ∈ m.waits → y.1 = h → y = (h, va, acc)) ∧
      BlockedFor h .walk s ∧ (s.thread h).ctx = m.ctx ∧ dieOf h = die
    (s.unready a = true → Completes .tlbWalkComplete s fun t => t = { s with agenda := t.agenda } ∧ Due (s.cycle + 1) (.walkRead die id) t) ∧
    (s.onDeadLink a = true → ∃ t, exec .tlbWalkComplete s = .next t ∧ t.mem = s.mem ∧ ∀ h va acc, waits h va acc →
      ReadyAt h s.cycle t ∧ (t.thread h).walkFault = some (va, 6) ∧ (t.thread h).seq = (s.thread h).seq) ∧
    (s.unready a = false → s.onDeadLink a = false →
      (s.missesLine a = true → m.late = false → Completes .tlbWalkComplete s fun t => t.mem = s.mem ∧ t.threads = s.threads ∧
        Due (s.cycle + (420 - s.nearLatency die a)) (.walkRead die id) t) ∧
      (s.missesLine a = false ∨ m.late = true → s.mustWait (linesOf a 8) false (s.reachedAt (.walk die id)) 0 = false →
        (s.unread die { m with read := m.read ++ [a] } ≠ [] → ∃ t, exec .tlbWalkComplete s = .next t ∧ t.mem = s.mem ∧ t.threads = s.threads ∧
          (∃ n, Due n (.walkRead die id) t) ∧ ∃ x, tfind (t.die die).misses id = some x ∧ x.read = m.read ++ [a]) ∧
        (s.unread die { m with read := m.read ++ [a] } = [] → ∃ t, exec .tlbWalkComplete s = .next t ∧
          (∀ h va acc, waits h va acc → ReadyAt h s.cycle t ∧ (t.thread h).seq = (s.thread h).seq) ∧
          ∀ h va acc, waits h va acc → m.waits = [(h, va, acc)] → m.engines = [] →
            let r := s.walk (s.viewOf h) va.toNat acc
            t.mem = r.2.mem ∧ (∀ e, r.1 = .ok e → e ∈ (t.core (coreOf h)).tlb) ∧ ∀ c, r.1 = .error c → (t.thread h).walkFault = some (va, c))))

/-! ### Together -/

/-- Scalar loads and stores to memory: what they ask of the home, and where they trap. -/
def Obligations.LoadsAndStores : Prop := LoadsIssue ∧ StoresIssue ∧ ScalarAccessTraps

/-- Scalar accesses to wells. -/
def Obligations.WellAccess : Prop := WellAccesses ∧ WellStoreLands

/-- HASHA, cache maintenance, acknowledged REDs. -/
def Obligations.HomesAndCaches : Prop := HashaAnswersHome ∧ CacheMaintenance ∧ RedAcknowledged

/-! ### Tensors and tile accesses -/

/-- The walker cache of a die holds entries that name tables (R247). -/
abbrev Sys2Proof.Spec.CachesTables (s : State) (die : Nat) : Prop := ∀ x, x ∈ (s.die die).walk → nbit x.2.2.2.toNat 7 = false
/-- R244-R247: a translation that is made for an engine, or for the page checks of a footprint. One that a TLB holds changes nothing. One
that misses has the engine join the miss of its page, and sets A, and D for a write, in the entry that maps the page: no byte changes
but the first ones of entries that the walk reads, and of those only these bits. Nothing else of the machine changes but the agenda, on which the walk
goes on, and the count of requests. (That the entry's bits are set as the engine joins the miss, not when its walk is over, is log 15.) -/
def Obligations.TranslationFrame : Prop :=
  ∀ (s : State) (v : View) (va : Word) (acc : Access),
    let t := (s.translateNow v va acc).2
    (∀ p n, s.translate v va acc = .ok p n → s.translateNow v va acc = (.ok p, s)) ∧
    (∀ c, s.translate v va acc = .fault c → s.translateNow v va acc = (.error c, s)) ∧
    (s.translate v va acc = .miss →
      t = { s with dies := t.dies, mem := t.mem, agenda := t.agenda, nextId := t.nextId } ∧
      (∀ d, d ≠ v.die → t.die d = s.die d) ∧ t.die v.die = { s.die v.die with misses := (t.die v.die).misses } ∧
      (Rising (s.die v.die).misses → ∃ id m, tfind (t.die v.die).misses id = some m ∧ m.ctx = v.ctx ∧
        (v.core, word (va.toNat / 4096 * 4096), acc) ∈ m.engines) ∧
      (Memory.wf s.mem = true → CachesTables s v.die → ∀ a, memGet t.mem a = memGet s.mem a ∨
        (a ∈ s.walkReads v va.toNat ∧ memGet t.mem a = memGet s.mem a ||| if writes acc then 0x60 else 0x20)))

/-- A tile access of thread h is under way: its first lock request is due. -/
def Sys2Proof.Spec.TileBegun (s t : State) (h : Nat) (excl : Bool) (l : List Seg) (buf : List Byte) (done : TDone) (due : Nat) : Prop :=
  ∃ id a, tfind t.taccs id = some a ∧ a.h = h ∧ a.excl = excl ∧ a.segs = l ∧ a.units = unitsOf l ∧ a.got = 0 ∧ a.buf = buf ∧ a.done = done ∧
    a.sent = s.cycle ∧ Due (s.cycle + due) (.tileLockGrant h id) t

/-- R125, R185-R187: TQRY answers a word of a descriptor, or 0 for an identifier without one; TINV removes the entry at once where
no other cluster has to acknowledge, and TINV and TDEF wait for the acknowledgements, TDEF also for its descriptor, which it reads as a
tile access does. (That every instruction finds the old entry until the last answer has come is log 20, DESIGN CHOICE: R125 lets one on another core
find either; that the cycles of its page's translation come before the descriptor's read is log 15, DESIGN CHOICE.) -/
def Sys2Proof.Spec.TensorTable : Prop :=
  ∀ (s : State) (h : Nat) (n : BitVec 8), s.cur = .thread h →
    let c := (s.thread h).ctx
    let acks (t : State) : Prop := ∀ cl, cl ∈ s.ackClusters h → Due (s.cycle + if cl / 4 = dieOf h then 60 else 110) (.tableChangeAck h cl) t
    (∀ b d, Runs (.tqry n b d) s →
      (wfield (s.getX b) 3 0 < 9 → Result (.tqry n b d) s d (match s.tensor c n.toNat with
        | some e => if wfield (s.getX b) 3 0 = 8 then 1 else e.words.getD (wfield (s.getX b) 3 0) 0
        | none => 0)) ∧
      (9 ≤ wfield (s.getX b) 3 0 → NoTrace s → Completes (.tqry n b d) s (Trapped h 2 (word (wfield (s.getX b) 3 0)) s))) ∧
    (∀ a i, i = .tinv n ∨ i = .tdef n a → (s.thread h).gang.isSome = true → Runs i s → NoTrace s → Completes i s (Trapped h 0x11 0 s)) ∧
    ((s.thread h).gang = none → Ungated s → Runs (.tinv n) s →
      (∀ x, s.ackClusters h = [] → s.ctx c = some x → Rising x.tensors → Completes (.tinv n) s fun t => WritesNone s t ∧ Passed 4 s t ∧
        t.tensor c n.toNat = none ∧ (∀ k, k ≠ n.toNat → t.tensor c k = s.tensor c k) ∧ t.mem = s.mem) ∧
      (s.ackClusters h ≠ [] → Completes (.tinv n) s fun t => BlockedFor h (.table n.toNat (s.ackClusters h).length none) t ∧ t.pc = s.pc ∧
        acks t ∧ ThreadAgenda h s t)) ∧
    (∀ a r u, (s.thread h).gang = none → Runs (.tdef n a) s → s.translateNow s.view (s.getX a) .read = (r, u) →
      ((s.getX a).toNat % 64 ≠ 0 → NoTrace s → Completes (.tdef n a) s (Trapped h 4 (s.getX a) s)) ∧
      ((s.getX a).toNat % 64 = 0 → Ungated s →
        (∀ k, r = .error k → NoTrace s → Completes (.tdef n a) s (Trapped h k (s.getX a) s)) ∧
        (∀ p, r = .ok p → Completes (.tdef n a) s fun t => WritesNone s t ∧ t.pc = s.pc ∧ t.mem = u.mem ∧ t.ctxs = s.ctxs ∧
          BlockedFor h (.table n.toNat ((s.ackClusters h).length + 1) none) t ∧ acks t ∧ (Unlimited s →
          TileBegun s t h false [{ well := none, addr := p.key, off := 0, len := 64, key := p.ks, sa := p.sa }] (List.replicate 64 0) .tdef
            (s.trExtra s.view (s.getX a).toNat .read + s.nearLatency (dieOf h) p.key)))))

/-- R125, R185, R186: an acknowledgement of a change of the table; with the last one the entry changes and the instruction retires. -/
def Sys2Proof.Spec.TableChangeAcknowledged : Prop :=
  ∀ (s : State) (h n left cl : Nat) (d : Option Desc), Takes (.tableChangeAck h cl) s → BlockedFor h (.table n left d) s →
    let c := (s.thread h).ctx
    (1 < left → Completes .tableChangeAck s fun t => BlockedFor h (.table n (left - 1) d) t ∧ ThreadOnly h s t) ∧
    (∀ x, left ≤ 1 → s.ctx c = some x → Rising x.tensors → Completes .tableChangeAck s fun t => t.tensor c n = d ∧
      (∀ k, k ≠ n → t.tensor c k = s.tensor c k) ∧ PassedOf h 4 s t ∧ ReadyAt h s.cycle t ∧ t.mem = s.mem)

/-- The runs of the tile that an instruction names, in memory or in a well, checked, and free of races where the instruction has
no ordering qualifier (R256, R279, R287). -/
def Sys2Proof.Spec.TileOf (s u : State) (h : Nat) (d : Desc) (j : List Nat) (write race : Bool) (l : List Seg) : Prop :=
  (d.well = false ∧ s.segsOf s.view (if write then .write else .read) (d.pieces j) = (.ok l, u)) ∨
  (d.well = true ∧ wellSegs s h d write (d.pieces j) = .ok l ∧
    (race = true → s.raceCheck (coreOf h) (s.thread h).ctx write (l.map fun g => (g.well.getD 0, g.addr, g.len)) = (none, u)) ∧
    (race = false → u = s))
/-- The cause and the address with which a tile's footprint is refused: cause 0x0C where race detection stops it (R256, R279, R287). -/
def Sys2Proof.Spec.TileRefused (s : State) (h : Nat) (d : Desc) (j : List Nat) (write race : Bool) (k : Nat) (va : Word) : Prop :=
  (d.well = false ∧ ∃ e, (s.segsOf s.view (if write then .write else .read) (d.pieces j)).1 = .error e ∧ k = e.cause ∧ va = e.va) ∨
  (d.well = true ∧ (wellSegs s h d write (d.pieces j) = .error (k, va) ∨
    ∃ l, wellSegs s h d write (d.pieces j) = .ok l ∧ race = true ∧ k = 0x0C ∧
      (s.raceCheck (coreOf h) (s.thread h).ctx write (l.map fun g => (g.well.getD 0, g.addr, g.len))).1 = some va))

/-- R287, R288: TLD and TST begin a tile access on the tile's lines or sectors; TLD leaves the rotation until it is performed, TST
has read its source and passes; a release is looked at again in the next cycle. What their checks refuse traps. (`far`, the cycles of translation
that come before the first request, is log 15, DESIGN CHOICE: the pages of a footprint are translated side by side, and the longest counts.) -/
def Sys2Proof.Spec.TileAccessesBegin : Prop :=
  ∀ (s u : State) (h : Nat) (n : BitVec 8) (b a : Reg) (o : BitVec 3) (d : Desc) (l : List Seg), s.cur = .thread h →
    s.tensor (s.thread h).ctx n.toNat = some d →
    let j := coordsOf (s.getX b)
    let far (acc : Access) : Nat := if d.well then 0 else s.trMost s.view acc (piecePages (d.pieces j))
    (∀ k v, NoTrace s →
      (Runs (.tld n b a o) s → tileCheck s n false b a = some (k, v) → Completes (.tld n b a o) s (Trapped h k v s)) ∧
      (Runs (.tst n b a o) s → tileCheck s n true b a = some (k, v) → Completes (.tst n b a o) s (Trapped h k v s)) ∧
      (Ungated s → Runs (.tld n b a o) s → tileCheck s n false b a = none → TileRefused s h d j false (o = 0) k v →
        Completes (.tld n b a o) s (Trapped h k v s)) ∧
      (Ungated s → Runs (.tst n b a o) s → tileCheck s n true b a = none → TileRefused s h d j true (o = 0) k v →
        Completes (.tst n b a o) s (Trapped h k v s))) ∧
    (Ungated s →
      (Runs (.tld n b a o) s → tileCheck s n false b a = none → TileOf s u h d j false (o = 0) l →
        Completes (.tld n b a o) s fun t => BlockedFor h .tile t ∧ t.pc = s.pc ∧ WritesNone s t ∧ t.mem = u.mem ∧ (Unlimited s →
          TileBegun s t h false l (List.replicate (d.nrows * d.rb) 0) (.tld (coreOf h) (wellOff (s.getX a)) o.toNat)
            (far .read + u.firstLatency h false (unitsOf l)))) ∧
      (Runs (.tst n b a o) s → tileCheck s n true b a = none → TileOf s u h d j true (o = 0) l →
        (u.ownStoresTo h (wellOff (s.getX a)) (d.nrows * d.rb) = false → Completes (.tst n b a o) s fun t => WritesNone s t ∧ Passed 4 s t ∧
          t.mem = u.mem ∧ (Unlimited s → TileBegun s t h true l (s.wellRead (coreOf h) (wellOff (s.getX a)) (d.nrows * d.rb)) .tst
            (far .write + if o = 0 then u.firstLatency h true (unitsOf l) else 1))) ∧
        (u.ownStoresTo h (wellOff (s.getX a)) (d.nrows * d.rb) = true → Completes (.tst n b a o) s (TriedAgain s))))

/-- What a byte of memory (w none) or of a core's well holds once runs have been written from a buffer; of the last byte of a run whose upper
half lies outside the tensor only the lower half is written (R123). -/
def Sys2Proof.Spec.afterRuns (l : List Seg) (buf : List Byte) (w : Option Nat) (x : Nat) (old : Byte) : Byte :=
  l.foldl (fun old g =>
    if g.well = w ∧ g.addr ≤ x ∧ x < g.addr + g.len then
      let b := buf.getD (g.off + (x - g.addr)) 0
      if g.half = true ∧ x + 1 = g.addr + g.len then (b &&& 0x0F) ||| (old &&& 0xF0) else b
    else old) old
/-- Runs of memory under one key, which is the key of what their lines hold; and no trap ring's CCOUNT lies there (R362, R378). -/
abbrev Sys2Proof.Spec.OneKey (s : State) (l : List Seg) : Prop :=
  ∃ c, ∀ g, g ∈ l → g.well = none → s.ringOf g.addr g.len = none ∧ ∀ k, g.addr ≤ k → k < g.addr + g.len → s.keyTag k g.key = c ∧
    ∀ d, c = some d → (∀ t, tfind s.tags (k / 256) = some t → t = d) ∧ ∀ x e, tfind s.lines (k / 256) = some x → x.tag = some e → e = d
/-- What a tile access that writes has written: its runs, in memory and in wells, and nothing else. -/
def Sys2Proof.Spec.RunsWritten (s t : State) (a : TAcc) : Prop :=
  (∀ x, memGet t.mem x = afterRuns a.segs a.buf none x (memGet s.mem x)) ∧
  ∀ c x, memGet (t.core c).well x = afterRuns a.segs a.buf (some c) x (memGet (s.core c).well x)

/-- R258-R260, R399, R413: the next unit of a tile access is locked when it is usable and no other access stops it, and otherwise asked for again in the next
cycle; the first line waits for the channel where its slice does not hold it (when it is looked at, and what then remains of the 420 cycles, is log 1). With
its last unit the access is performed: a TLD's bytes
land in the well and its thread goes on; a TDEF's descriptor is checked, and its entry changes or it traps; a QLD's bytes fill its entry
of the queue; what a TST, a QST or a PPUSH stores is written, and no other byte; a draw's tile has been read, or has landed. (`entered` says that
no limit of R377 holds the access back.) -/
def Sys2Proof.Spec.TileLocks : Prop :=
  ∀ (s : State) (h id : Nat) (a : TAcc) (u : LockUnit), Takes (.tileLockGrant h id) s → tfind s.taccs id = some a → a.relWait = false →
    a.units[a.got]? = some u → a.h = h → (∀ k, u = .line k → a.got < a.entered) → a.units.find? (s.unitFails a) = none →
    let behind : Prop := s.tileBehind id a = true
    let misses : Prop := a.got = 0 ∧ a.dram = false ∧ s.unitMisses u = true
    let stopped : Prop := s.unitUnready u = true ∨ s.lockStops u a.excl (some id) = true ∨
      s.earlierWaits u a.excl a.reqAt (orderKey h a.sent) (some id) = true
    let free : Prop := ¬ behind ∧ ¬ misses ∧ ¬ stopped
    (behind → Completes .tileLockGrant s fun t => Due (s.cycle + 1) (.tileLockGrant h id) t ∧
      t = { s with agenda := t.agenda, taccs := tset s.taccs id { a with reqAt := s.cycle + 1 } }) ∧
    (∀ k, u = .line k → ¬ behind → misses → Completes .tileLockGrant s fun t =>
      let n := 420 - s.nearLatency (s.tileDie a) k
      Due (s.cycle + n) (.tileLockGrant h id) t ∧
        t = { s with agenda := t.agenda, taccs := tset s.taccs id { a with dram := true, reqAt := s.cycle + n } }) ∧
    (¬ behind → ¬ misses → stopped → Completes .tileLockGrant s fun t => Due (s.cycle + 1) (.tileLockGrant h id) t ∧ t = { s with agenda := t.agenda }) ∧
    (∀ v, free → a.units[a.got + 1]? = some v → Completes .tileLockGrant s fun t =>
      t.locks = { unit := u, excl := a.excl, acc := id } :: s.locks ∧ (∃ b, tfind t.taccs id = some b ∧ b.got = a.got + 1 ∧ b.segs = a.segs) ∧
        Due (s.cycle + s.unitStep u v (a.got + 1)) (.tileLockGrant h id) t ∧ t.mem = s.mem ∧ t.threads = s.threads) ∧
    (free → a.units.length = a.got + 1 →
      let bs := s.gather a.buf.length a.segs
      (∀ core off acq, a.done = .tld core off acq → BlockedFor h .tile s → Memory.wf (s.core core).well = true →
        Completes .tileLockGrant s fun t => BytesWritten (s.core core).well (t.core core).well off bs ∧
          t.mem = s.mem ∧ PassedOf h 4 s t ∧ ReadyAt h (s.cycle + 1) t) ∧
      (∀ n left e x, a.done = .tdef → BlockedFor h (.table n left e) s → s.ctx (s.thread h).ctx = some x → Rising x.tensors →
        let c := (s.thread h).ctx
        (descFault bs = none → left ≤ 1 → Completes .tileLockGrant s fun t => t.tensor c n = some (descOf bs) ∧
          (∀ k, k ≠ n → t.tensor c k = s.tensor c k) ∧ PassedOf h 4 s t ∧ ReadyAt h s.cycle t ∧ t.mem = s.mem) ∧
        (descFault bs = none → 1 < left → Completes .tileLockGrant s fun t => BlockedFor h (.table n (left - 1) (some (descOf bs))) t ∧ t.ctxs = s.ctxs) ∧
        (∀ o, descFault bs = some o → NoTrace s → Completes .tileLockGrant s fun t => Trapped h 2 (word o) s t ∧ t.ctxs = s.ctxs)) ∧
      (∀ q n g c, a.done = .qld q n → a.segs = [g] → g.well = some c → Completes .tileLockGrant s fun t => t.mem = s.mem ∧
        Due s.cycle (.qldEntryArrival h q n c g.addr) t ∧ (t.queue (coreOf h) (pairOf h) q).ents =
          (s.queue (coreOf h) (pairOf h) q).ents.map fun e => if e.wait = some n then { e with val := vregOfBytes bs } else e) ∧
      (∀ core num seq slot idx, a.done = .drawRead core num seq slot idx → s.sharers id a core num seq idx = [] →
        Completes .tileLockGrant s fun t => t.mem = s.mem ∧ t.cores = s.cores ∧ t.threads = s.threads ∧
          ∃ n, Due n (.drawTileLand core num seq slot idx [bs]) t) ∧
      ((∀ g, g ∈ a.segs → g.off + g.len ≤ a.buf.length) → OneKey s a.segs → Memory.wf s.mem = true → (∀ c, Memory.wf (s.core c).well = true) →
        ((a.done = .tst ∨ a.done = .qst ∨ ∃ c, a.done = .push c) →
          Completes .tileLockGrant s fun t => RunsWritten s t a ∧ ∀ k, (t.thread k).seq = (s.thread k).seq) ∧
        (∀ core num seq slot idx, a.done = .drawLand core num seq slot idx →
          Completes .tileLockGrant s fun t => RunsWritten s t a ∧ (∀ k, (t.thread k).seq = (s.thread k).seq) ∧
            Due s.cycle (.drawTileLand core num seq slot idx []) t)))

/-! ### Pair queues -/

/-- The queue has taken an entry at its end. -/
def Sys2Proof.Spec.Pushed (s t : State) (h q : Nat) (e : QEntry) : Prop :=
  (t.queue (coreOf h) (pairOf h) q).ents = (s.queue (coreOf h) (pairOf h) q).ents ++ [e]
/-- The instruction may issue on its queues: no entry that it pops and no space that it fills is missing (R17-R19). -/
def Sys2Proof.Spec.QueuesOpen (s : State) (h : Nat) (i : Instr) : Prop := s.queueMisuse h i = none ∧ s.queueWaits h i s.cycle = none
/-- What an instruction does that its queues let go on, P; that misses an entry or a space; and that misses one that nobody can
bring any more (R17, R19). -/
def Sys2Proof.Spec.OnQueues (i : Instr) (h : Nat) (s : State) (P : State → Prop) : Prop :=
  (QueuesOpen s h i → Completes i s P) ∧
  (∀ q, s.queueMisuse h i = none → s.queueWaits h i s.cycle = some q → Completes i s fun t =>
    BlockedFor h (.queue q) t ∧ t.pc = s.pc ∧ WritesNone s t ∧ ThreadAgenda h s t) ∧
  (∀ q, s.queueMisuse h i = some q → NoTrace s → Completes i s (Trapped h 0x12 (word q) s))
/-- The checks of R190 on a QLD or QST at va, and what it does that they let through: `c` and `off` name the well bytes. -/
def Sys2Proof.Spec.Transfers (i : Instr) (h : Nat) (va : Word) (write : Bool) (s : State) (P : Nat → Nat → State → Prop) : Prop :=
  let c := wellCore h va
  let off := wellOff va
  let outside : Prop := wfield va 63 25 ≠ 0 ∨ 2 ^ 20 < off + 128
  let right : Bool := nbit (s.rights (coreOf h) c) (b2n write)
  let race : Option Word := (s.raceCheck (coreOf h) (s.thread h).ctx write [(c, off, 128)]).1
  (outside → NoTrace s → Completes i s (Trapped h 6 va s)) ∧
  (¬ outside → va.toNat % 16 ≠ 0 → NoTrace s → Completes i s (Trapped h 4 va s)) ∧
  (¬ outside → va.toNat % 16 = 0 → right = false → NoTrace s → Completes i s (Trapped h 7 va s)) ∧
  (¬ outside → va.toNat % 16 = 0 → right = true → Ungated s →
    (∀ v, race = some v → NoTrace s → Completes i s (Trapped h 0x0C v s)) ∧
    (race = none → OnQueues i h s (P c off)))

/-- R16-R19, R189-R192, R263: QLD takes a place in a queue for what it reads in a well, QPX pushes two scalar registers, QST takes the oldest
entry and writes it to a well; a queue that the instruction may not name raises cause 0x02 with its number. (That a QLD of the own well reads it in
the next cycle is log 1, DEDUCED from R8 and R192.) -/
def Sys2Proof.Spec.QueueInstructions : Prop :=
  ∀ (s : State) (h : Nat) (a : Reg) (n : BitVec 2), s.cur = .thread h →
    let seg (c off : Nat) : Seg := { well := some c, addr := off, off := 0, len := 128, key := 0 }
    (Runs (.qld a n) s →
      (2 ≤ n.toNat → NoTrace s → Completes (.qld a n) s (Trapped h 2 (n.zeroExtend 64) s)) ∧
      (n.toNat < 2 → Transfers (.qld a n) h (s.getX a) false s fun c off t => WritesNone s t ∧ Passed 4 s t ∧ t.mem = s.mem ∧
        ∃ id, Pushed s t h n.toNat { val := 0, at_ := s.cycle + (if c = coreOf h then 2 else 12 + 4 * hops (coreOf h) c), wait := some id } ∧
          TileBegun s t h false [seg c off] (List.replicate 128 0) (.qld n.toNat id)
            (if c = coreOf h then 1 else 12 + 4 * hops (coreOf h) c))) ∧
    (Runs (.qst a n) s →
      (n.toNat < 2 → NoTrace s → Completes (.qst a n) s (Trapped h 2 (n.zeroExtend 64) s)) ∧
      (2 ≤ n.toNat → Transfers (.qst a n) h (s.getX a) true s fun c off t => WritesNone s t ∧ Passed 4 s t ∧ t.mem = s.mem ∧
        ∃ e, (s.queue (coreOf h) (pairOf h) n.toNat).ents = e :: (t.queue (coreOf h) (pairOf h) n.toNat).ents ∧
          TileBegun s t h true [seg c off] (bytesOfVreg e.val) .qst (6 + 2 * hops (coreOf h) c))) ∧
    (∀ b, Runs (.qpx b a n) s →
      (2 ≤ n.toNat → NoTrace s → Completes (.qpx b a n) s (Trapped h 2 (n.zeroExtend 64) s)) ∧
      (n.toNat < 2 → OnQueues (.qpx b a n) h s fun t => WritesNone s t ∧ Passed 4 s t ∧ t.mem = s.mem ∧
        Pushed s t h n.toNat { val := BitVec.ofNat 1024 ((s.getX a).toNat + (s.getX b).toNat * 2 ^ 64), at_ := s.cycle + 2 }))

/-- R17-R19, R192: a thread that waits on a queue looks at it: it is back in its rotation for the cycle in which its instruction can
issue, waits on where it still cannot, and traps if the thread that it waits for is gone. When the bytes of a QLD have been read, its entry can be
popped: from a peer's well in that cycle, by a partner that waits for it as well; from the own well in the next one (log 1). -/
def Sys2Proof.Spec.QueueWaits : Prop :=
  ∀ (s : State) (h q : Nat),
    (∀ i, Takes (.queueWake h) s → BlockedFor h (.queue q) s → blockedInsn (s.thread h) = some i →
      (s.queueMisuse h i = none → s.queueWaits h i (s.cycle + 1) = none → ∃ t, exec .queueWake s = .next t ∧ ReadyAt h (s.cycle + 1) t ∧
        (t.thread h).seq = (s.thread h).seq ∧ ThreadOnly h s t) ∧
      (∀ k, s.queueMisuse h i = none → s.queueWaits h i (s.cycle + 1) = some k → exec .queueWake s = .next s) ∧
      (∀ k, s.queueMisuse h i = some k → NoTrace s → Completes .queueWake s (Trapped h 0x12 (word k) s))) ∧
    (∀ id c off, Takes (.qldEntryArrival h q id c off) s → ∃ t, exec .qldEntryArrival s = .next t ∧ t.mem = s.mem ∧
      (∀ g, g ≠ partner h ∨ c = coreOf h → t.thread g = s.thread g) ∧
      (∀ k i, BlockedFor (partner h) (.queue k) s → blockedInsn (s.thread (partner h)) = some i →
        (c = coreOf h → Due s.cycle (.queueWake (partner h)) t) ∧
        (c ≠ coreOf h → t.queueMisuse (partner h) i = none → t.queueWaits (partner h) i s.cycle = none → ReadyAt (partner h) s.cycle t)) ∧
      let usable := s.cycle + if c = coreOf h then 1 else 0
      (t.queue (coreOf h) (pairOf h) q).ents = (s.queue (coreOf h) (pairOf h) q).ents.map fun e =>
        if e.wait = some id then { e with wait := none, at_ := max e.at_ usable } else e)

/-! ### Draws -/

/-- R127-R129, R179-R183: DRAW enters a draw of the box that its request block describes and answers its handle; a block that R128
refuses traps with the offset of the field; with no number free, or a thread of a lower slot waiting for one, it waits. DCAN ends the
claims of a draw; DSTAT answers its state. -/
def Sys2Proof.Spec.DrawInstructions : Prop :=
  ∀ (s : State) (h : Nat) (a d : Reg), s.cur = .thread h →
    let core := coreOf h
    (∀ t8, Runs (.draw t8 a d) s →
      (∀ k v, drawCheck t8 a s = some (k, v) → NoTrace s → Completes (.draw t8 a d) s (Trapped h k v s)) ∧
      (drawCheck t8 a s = none →
        ((∀ k, k < 8 → (tfind (s.core core).draws k).isSome = true) → Completes (.draw t8 a d) s fun t => TriedAgain s t ∧ (t.thread h).drawWait = true ∧
          ThreadOnly h { s with issue := t.issue } t) ∧
        (∀ e num, s.tensor (s.thread h).ctx t8.toNat = some e → num < 8 → (∀ k, k ≤ num → ((tfind (s.core core).draws k).isNone = true ↔ k = num)) →
          (drawAhead s h = true → Completes (.draw t8 a d) s fun t => TriedAgain s t ∧ (t.thread h).drawWait = true) ∧
          (drawAhead s h = false → Ungated s → (s.thread h).relAt = none →
            let done : Prop := s.releaseDone (.thread h) s.cycle 4 = true ∧ ∀ x, x ∈ (s.core core).l1 → x.2.dirty = 0
            let b := blockOf (s.wellRead core (wellOff (s.getX a)) 32)
            let handle := num + core * 2 ^ 3 + (s.core core).drawSeq.toNat * 2 ^ 12
            (¬ done → Unlimited s → Completes (.draw t8 a d) s (TriedAgain s)) ∧
            (done → blockFault e b = none → Completes (.draw t8 a d) s fun t => Writes s t d (word handle) ∧ Passed 4 s t ∧ t.mem = s.mem ∧
              (t.core core).drawSeq = (s.core core).drawSeq + 1 ∧ (∃ n, Due n (.drawTileClaim core num (s.core core).drawSeq.toNat) t) ∧
              ∃ w, tfind (t.core core).draws num = some w ∧ w.handle = handle ∧ w.desc = e ∧ w.origin = b.origin ∧ w.extent = b.extent ∧
                w.bodyPc = b.body ∧ w.allow = b.allow ∧ w.counter = b.counter ∧ w.consumed = 0 ∧ w.counted = 0 ∧ w.slots = [] ∧ w.delivered = []) ∧
            (∀ o, done → blockFault e b = some o → NoTrace s → Completes (.draw t8 a d) s (Trapped h 2 (word o) s)))))) ∧
    (∀ i, i = .dcan a ∨ i = .dstat a d → Runs i s → ∀ k v, handleCheck a s = some (k, v) → NoTrace s → Completes i s (Trapped h k v s)) ∧
    (handleCheck a s = none →
      (∀ w, Runs (.dcan a) s → s.drawOf (s.getX a) = some w → Completes (.dcan a) s fun t => WritesNone s t ∧ Passed 4 s t ∧ t.mem = s.mem ∧
        ∃ v, tfind (t.core core).draws (wfield (s.getX a) 2 0) = some v ∧ v.ending = true ∧ v.slots = w.slots ∧ v.consumed = w.consumed) ∧
      (Runs (.dcan a) s → s.drawOf (s.getX a) = none → Result (.dcan a) s 0 0) ∧
      (Runs (.dstat a d) s → Result (.dstat a d) s d (match s.drawOf (s.getX a) with
        | some w => word (w.delivered.length + w.consumed * 2 ^ 24 + 2 ^ 48 + b2n w.ending * 2 ^ 49)
        | none => 0)))

/-- R99, R103, R131, R134, R136: a pump whose turn the draw has claims a tile that is neither claimed nor delivered and a free ring slot,
and reads it; a tile that has been read is written to its slot as a tile access, unless that would pass another draw too often; it has
then landed; a body starts on it in a free slot of the allowed set, with its registers as R99 says. (The rounds of the pump, the 32 passes after which a
tile is claimed first, and when a landing pauses (`mustPause`) are log 3, DESIGN CHOICE: R136 does not say where a round begins.) -/
def Sys2Proof.Spec.DrawDelivery : Prop :=
  ∀ (s : State) (core num seq : Nat) (d : Draw), s.draw core num seq = some d →
    let turn (i : Nat) : Prop := 32 ≤ tget 0 d.passed (s.pumpOf d i) ∨ s.drawTurn (s.pumpOf d i) core num d = true
    let at_ (slot : Nat) : Nat := d.ring + slot * 2 ^ d.logBytes
    (Takes (.drawTileClaim core num seq) s → s.sweeping d = true → (∃ i, i < d.tiles ∧ i ∉ d.taken) →
      (∃ k, k < 2 ^ d.logSlots ∧ tfind d.slots k = none) →
      ((∀ i, i < d.tiles → i ∉ d.taken → ¬ turn i) → Completes .drawTileClaim s fun t =>
        t = { s with agenda := t.agenda, freeCtr := t.freeCtr } ∧ ∃ n, Due n (.drawTileClaim core num seq) t) ∧
      ((∃ i, i < d.tiles ∧ i ∉ d.taken ∧ turn i) →
        (∀ k, k < d.tiles → ∃ l u, s.segsOf { ctx := d.ctx, sup := d.sup, die := chanDie (s.pumpOf d k), core := none } .read
          (d.desc.pieces (d.coords k)) = (.ok l, u)) →
        Completes .drawTileClaim s fun t => ∃ w idx slot, tfind (t.core core).draws num = some w ∧ idx < d.tiles ∧ idx ∉ d.taken ∧ turn idx ∧
          tfind d.slots slot = none ∧ w = { d with slots := tset d.slots slot (.claimed idx) } ∧
          ∃ id a, tfind t.taccs id = some a ∧ a.done = .drawRead core num d.seq slot idx ∧ a.excl = false)) ∧
    (∀ slot idx rows, Takes (.drawTileLand core num seq slot idx rows) s →
      (rows ≠ [] → s.mustPause (s.pumpOf d idx) core num = true → Completes .drawTileLand s fun t => t = { s with agenda := t.agenda } ∧
        Due (s.cycle + 1) (.drawTileLand core num seq slot idx rows) t) ∧
      (rows ≠ [] → s.mustPause (s.pumpOf d idx) core num = false → Completes .drawTileLand s fun t => t.mem = s.mem ∧ t.cores = s.cores ∧
        ∃ id a, tfind t.taccs id = some a ∧ a.done = .drawLand core num seq slot idx ∧ a.excl = true ∧ a.buf = rows.flatten ∧
          a.segs = [{ well := some core, addr := at_ slot, off := 0, len := rows.flatten.length, key := 0 }] ∧
          Due s.cycle (.tileLockGrant d.h id) t) ∧
      (rows = [] → Completes .drawTileLand s fun t => t.mem = s.mem ∧ Due (s.cycle + 2) (.bodyStart core) t ∧
        ∃ w, tfind (t.core core).draws num = some w ∧ tfind w.slots slot = some (.landed idx s.cycle) ∧ w.delivered = d.delivered ++ [idx])) ∧
    (∀ slot idx c i x, Takes (.bodyStart core) s → landedTiles (s.core core) s.cycle = [(c, num, slot, idx)] → (s.core core).halted = false →
      (s.core core).holder = some d.ctx → s.ctx d.ctx = some x → x.phase = .resident → i < 4 → nbit d.allow i = true →
      s.slotFree (8 * core + i) = true → (∀ k, k < i → nbit d.allow k = true → s.slotFree (8 * core + k) = false) →
      Completes .bodyStart s fun t =>
        let g := t.thread (8 * core + i)
        ReadyAt (8 * core + i) (s.cycle + 1) t ∧ g.seq.pc = d.bodyPc ∧ g.ctx = d.ctx ∧ g.sup = d.sup ∧ g.body = some { num := num, slot := slot } ∧
        (∀ r, g.getX r = if r = 1 then wellAddr core (at_ slot) else if r = 2 then tagOf (d.coords idx)
          else if r = 3 then word (d.desc.rowMask (d.coords idx)) else if r = 4 then word d.handle else 0) ∧ t.mem = s.mem)

/-- R100, R139, R183, R184: BDONE ends its body, which counts as consumed from then on; its tile is counted in the draw's counter once its
release has taken effect and no tile access holds the counter's sector, and its ring slot is free; a draw that is over posts its message and its number is
free. (That a BDONE in a gang traps before its body is looked at is log 18, DESIGN CHOICE.) -/
def Sys2Proof.Spec.DrawCompletion : Prop :=
  ∀ (s : State) (h : Nat),
    (s.cur = .thread h → Runs .bdone s →
      ((s.thread h).gang.isSome = true → NoTrace s → Completes .bdone s (Trapped h 0x11 0 s)) ∧
      ((s.thread h).gang = none → (s.thread h).body = none → NoTrace s → Completes .bdone s (Trapped h 2 0 s)) ∧
      (∀ b d, (s.thread h).gang = none → (s.thread h).body = some b → Ungated s → tfind (s.core (coreOf h)).draws b.num = some d →
        Completes .bdone s fun t => (t.thread h).run = .exited ∧ (t.thread h).notBefore = s.cycle + 1 ∧ t.mem = s.mem ∧
          (t.thread h).instret = (s.thread h).instret + 1 ∧ Due (s.cycle + 1) (.drawCompleteMessage (coreOf h) b.num d.seq (some (h, s.cycle, b.slot))) t ∧
          ∃ w, tfind (t.core (coreOf h)).draws b.num = some w ∧ w.consumed = d.consumed + 1 ∧ w.counted = d.counted ∧ w.slots = d.slots)) ∧
    (∀ core num seq d, s.draw core num seq = some d →
      let locked (g sent : Nat) : Bool := s.mustWait (sectorsOf core d.counter 8) true (s.reachedAt (.drawCount core num)) (orderKey g sent)
      (∀ g sent slot, Takes (.drawCompleteMessage core num seq (some (g, sent, slot))) s →
        (s.releaseDone (.thread g) sent 2 = false → Completes .drawCompleteMessage s fun t => t = { s with agenda := t.agenda } ∧
          Due (s.cycle + 1) (.drawCompleteMessage core num seq (some (g, sent, slot))) t) ∧
        (s.releaseDone (.thread g) sent 2 = true → locked g sent = true → Completes .drawCompleteMessage s fun t =>
          t = { s with agenda := t.agenda, waiting := t.waiting } ∧ Due (s.cycle + 1) (.drawCompleteMessage core num seq (some (g, sent, slot))) t) ∧
        (s.releaseDone (.thread g) sent 2 = true → locked g sent = false → Rising d.slots → Memory.wf (s.core core).well = true →
          Completes .drawCompleteMessage s fun t => t.mem = s.mem ∧
            BytesWritten (s.core core).well (t.core core).well d.counter (toBytes 8 (ofBytes (s.wellRead core d.counter 8) + 1)) ∧
            ∃ w, tfind (t.core core).draws num = some w ∧ w.consumed = d.consumed ∧ w.counted = d.counted + 1 ∧ tfind w.slots slot = none)) ∧
      (Takes (.drawCompleteMessage core num seq none) s → Rising (s.core core).draws → Completes .drawCompleteMessage s fun t =>
        Due s.cycle (.inboxMessageArrival core d.ctx (drawMessage d num)) t ∧ tfind (t.core core).draws num = none ∧ t.mem = s.mem))

/-! ### Together -/

/-- TDEF, TINV, TQRY and the table's changes. -/
def Obligations.TensorTables : Prop := TensorTable ∧ TableChangeAcknowledged

/-- Tile accesses: their checks, their locks, their effect. -/
def Obligations.TileAccesses : Prop := TileAccessesBegin ∧ TileLocks

/-- QLD, QST and QPX on the pair's tile queues, and their waits. -/
def Obligations.Queues : Prop := QueueInstructions ∧ QueueWaits

/-- Draws: the instruction, the delivery of tiles, completion. -/
def Obligations.Draws : Prop := DrawInstructions ∧ DrawDelivery ∧ DrawCompletion

/-! ### Numbers -/

/-- R107, R151, R152: integer lanes wrap, compare, shift and choose as arithmetic on their values modulo 2^w; an arithmetic right shift is the
division by the power of two, rounded down; a comparison gives all ones or zero. -/
def Sys2Proof.Spec.IntegerLanes : Prop :=
  ∀ (w mode a b d : Nat) (e : Elt), (w = 8 ∨ w = 16 ∨ w = 32) → (e = .int w ∨ e = .nat w) → a < 2 ^ w → b < 2 ^ w → d < 2 ^ w →
    let signed (x : Nat) : Int := if 2 ^ (w - 1) ≤ x then (x : Int) - ((2 ^ w : Nat) : Int) else (x : Int)
    let v (x : Nat) : Int := if e = .int w then signed x else (x : Int)
    laneAdd e mode a b = ((a + b) % 2 ^ w, 0) ∧ laneSub e mode a b = ((a + 2 ^ w - b) % 2 ^ w, 0) ∧ laneMul e mode a b = (a * b % 2 ^ w, 0) ∧
    laneFma e mode a b d = ((a * b + d) % 2 ^ w, 0) ∧ laneFms e mode a b d = ((a * b + 2 ^ w - d) % 2 ^ w, 0) ∧
    laneMin e a b = ((if v b < v a then b else a), 0) ∧ laneMax e a b = ((if v a < v b then b else a), 0) ∧
    laneNeg e a = ((2 ^ w - a) % 2 ^ w, 0) ∧ laneAbs e a = ((if v a < 0 then 2 ^ w - a else a), 0) ∧
    laneShl w a b = (a * 2 ^ (b % w) % 2 ^ w, 0) ∧ laneShr w a b = (a / 2 ^ (b % w), 0) ∧
    (∃ r, laneSra w a b = (r, 0) ∧ r < 2 ^ w ∧ signed r * ((2 ^ (b % w) : Nat) : Int) ≤ signed a ∧
      signed a < (signed r + 1) * ((2 ^ (b % w) : Nat) : Int)) ∧
    ∀ cc, cc < 6 → laneCmp e cc a b = ((if (match cc with
        | 0 => decide (a = b)
        | 1 => decide (a ≠ b)
        | 2 => decide (signed a < signed b)
        | 3 => decide (signed b ≤ signed a)
        | 4 => decide (a < b)
        | _ => decide (b ≤ a)) = true then 2 ^ w - 1 else 0), 0)

/-- (−1)^g × n. -/
def Sys2Proof.Spec.signedNum (g : Bool) (n : Nat) : Int := if g then -(n : Int) else n
/-- x is the exact value num / den, rounded once; an exact zero has the sign that is given (R106, R109). -/
def Sys2Proof.Spec.RoundsTo (f : FF) (mode : Nat) (num : Int) (den : Nat) (zero : Bool) (x : Nat × Fl) : Prop :=
  x = if num = 0 then (f.zero zero, 0) else f.round (.fin (decide (num < 0)) num.natAbs den) mode
/-- x is the sum a + b, or with neg the difference a − b (R106, R150). -/
def Sys2Proof.Spec.SumIs (f : FF) (mode : Nat) (neg : Bool) (a b : Nat) (x : Nat × Fl) : Prop :=
  match f.val a, f.val b with
  | .fin g n k, .fin p m l =>
    RoundsTo f mode (signedNum g n * l + signedNum (p != neg) m * k) (k * l) (if g = (p != neg) then g else decide (mode = 3)) x
  | .inf g, .inf p => x = if g = (p != neg) then (f.inf g, 0) else (f.canonNaN, flNV)
  | .inf g, .fin _ _ _ => x = (f.inf g, 0)
  | .fin _ _ _, .inf p => x = (f.inf (p != neg), 0)
  | _, _ => x = (f.canonNaN, sigFl f [a, b])
/-- x is the product a × b. -/
def Sys2Proof.Spec.ProductIs (f : FF) (mode : Nat) (a b : Nat) (x : Nat × Fl) : Prop :=
  let infinite (g p : Bool) (n : Nat) : Nat × Fl := if n = 0 then (f.canonNaN, flNV) else (f.inf (g != p), 0)
  match f.val a, f.val b with
  | .fin g n k, .fin p m l => RoundsTo f mode (signedNum g n * signedNum p m) (k * l) (g != p) x
  | .inf g, .inf p => x = infinite g p 1
  | .inf g, .fin p m _ => x = infinite g p m
  | .fin g n _, .inf p => x = infinite g p n
  | _, _ => x = (f.canonNaN, sigFl f [a, b])
/-- x is a × b + d, or with neg a × b − d: the exact product (`FVal.mul`) and d, rounded once. -/
def Sys2Proof.Spec.FusedIs (f : FF) (mode : Nat) (neg : Bool) (a b d : Nat) (x : Nat × Fl) : Prop :=
  match (f.val a).mul (f.val b), f.val d with
  | .fin g n k, .fin p m l =>
    RoundsTo f mode (signedNum g n * l + signedNum (p != neg) m * k) (k * l) (if g = (p != neg) then g else decide (mode = 3)) x
  | .inf g, .inf p => x = if g = (p != neg) then (f.inf g, 0) else (f.canonNaN, flNV)
  | .inf g, .fin _ _ _ => x = (f.inf g, 0)
  | .fin _ _ _, .inf p => x = (f.inf (p != neg), 0)
  | p, _ => x = (f.canonNaN, sigFl f [a, b, d] ||| if p = .nan ∧ f.val a ≠ .nan ∧ f.val b ≠ .nan then flNV else 0)
/-- a is lower than b as a number; no NaN is. -/
def Sys2Proof.Spec.Lower (f : FF) (a b : Nat) : Prop :=
  match f.val a, f.val b with
  | .fin g n k, .fin p m l => signedNum g n * l < signedNum p m * k
  | .inf g, .inf p => g = true ∧ p = false
  | .inf g, .fin _ _ _ => g = true
  | .fin _ _ _, .inf p => p = false
  | _, _ => False
/-- The same, with −0 lower than +0 (R150, R295). -/
def Sys2Proof.Spec.LowerZero (f : FF) (a b : Nat) : Prop :=
  Lower f a b ∨ ((f.val a).isZero = true ∧ (f.val b).isZero = true ∧ nbit a (f.width - 1) = true ∧ nbit b (f.width - 1) = false)
/-- x is one of a and b, neither of them a NaN, that the other one does not pass in an order. -/
def Sys2Proof.Spec.Chosen (passes : Nat → Nat → Prop) (a b : Nat) (x : Nat × Fl) : Prop :=
  x.2 = 0 ∧ (x.1 = a ∨ x.1 = b) ∧ ¬ passes a x.1 ∧ ¬ passes b x.1
/-- R149, R150, R152: floating-point lanes: sums, differences, products and fused forms are the exact value, rounded once; the larger and the
smaller of two numbers, with −0 smaller than +0, and of a number and a NaN the number; VABS and VNEG change the sign bit; comparisons, in
which the zeros are equal. -/
def Sys2Proof.Spec.FloatLanes : Prop :=
  ∀ (f : FF) (mode a b d : Nat), f = .f32 ∨ f = .b16 ∨ f = .h16 → a < 2 ^ f.width → b < 2 ^ f.width → d < 2 ^ f.width →
    let e : Elt := .fl f
    let nan (c : Nat) : Prop := f.val c = .nan
    SumIs f mode false a b (laneAdd e mode a b) ∧ SumIs f mode true a b (laneSub e mode a b) ∧ ProductIs f mode a b (laneMul e mode a b) ∧
    FusedIs f mode false a b d (laneFma e mode a b d) ∧ FusedIs f mode true a b d (laneFms e mode a b d) ∧
    (∀ x, x = laneMin e a b ∨ x = laneMax e a b → (nan a → nan b → x = (f.canonNaN, sigFl f [a, b])) ∧
      (nan a → ¬ nan b → x = (b, sigFl f [a])) ∧ (nan b → ¬ nan a → x = (a, sigFl f [b]))) ∧
    (¬ nan a → ¬ nan b → Chosen (LowerZero f) a b (laneMin e a b) ∧ Chosen (fun y z => LowerZero f z y) a b (laneMax e a b)) ∧
    laneAbs e a = (a % 2 ^ (f.width - 1), 0) ∧
    laneNeg e a = ((if a < 2 ^ (f.width - 1) then a + 2 ^ (f.width - 1) else a - 2 ^ (f.width - 1)), 0) ∧
    ∀ cc, cc < 4 →
      (nan a ∨ nan b → laneCmp e cc a b = ((if cc = 1 then 2 ^ f.width - 1 else 0), if 2 ≤ cc then flNV else sigFl f [a, b])) ∧
      (¬ nan a → ¬ nan b → ∃ r, laneCmp e cc a b = (r, 0) ∧ (r = 0 ∨ r = 2 ^ f.width - 1) ∧ (r ≠ 0 ↔ match cc with
        | 0 => ¬ Lower f a b ∧ ¬ Lower f b a
        | 1 => Lower f a b ∨ Lower f b a
        | 2 => Lower f a b
        | _ => ¬ Lower f a b))

/-- What FADD and FMAX make of the word m and the operand b (R229, R295). -/
def Sys2Proof.Spec.FloatAtomic (op : AmoOp) (m b : Nat) (x : Nat × Fl) : Prop :=
  (op = .fadd ∧ SumIs .f32 0 false m b x) ∨
  (op = .fmax ∧
    (FF.f32.val m = .nan ∨ FF.f32.val b = .nan → x = (0x7FC00000, sigFl .f32 [m, b])) ∧
    (FF.f32.val m ≠ .nan → FF.f32.val b ≠ .nan → Chosen (fun y z => LowerZero .f32 z y) m b x))
/-- R229, R294, R295: FADD and FMAX at a word's home: the new value is written, an AMO answers the old one zero-extended, and its flags are in
FFLAGS with its answer; an enabled event then parks its thread behind the AMO with cause 9 and the word's address. A RED's flags travel
back with its acknowledgement. (The home's mode is RNE. An AMO or RED on host memory whose page has SA = 0 is log 17, a RED in a
reduction window log 3.) -/
def Sys2Proof.Spec.HomeFloatAtomics : Prop :=
  ∀ (s : State) (r : FarReq) (op : AmoOp) (b : Word), Memory.wf s.mem = true → AtHome s r → KeyFits s r.addr r.key 4 → PlainBytes s r.addr 4 →
    s.home r.addr ≠ .host → r.pump = none → op = .fadd ∨ op = .fmax →
    let m := s.readNat r.addr r.key 4
    ∃ x, FloatAtomic op m (b.toNat % 2 ^ 32) x ∧
      (∀ c rd, r.op = .amo op 4 b c rd none → StillAwaits s r.h r.sent rd → Completes .farAccessPerform s fun t =>
        BytesWritten s.mem t.mem r.addr (toBytes 4 x.1) ∧ Answered s t r.h rd (word m) ∧
        (t.thread r.h).fflags = (s.thread r.h).fflags ||| x.2 ∧ (t.thread r.h).seq.pc = (s.thread r.h).seq.pc ∧
        (x.2 &&& (s.thread r.h).fenable = 0 → (t.thread r.h).run = (s.thread r.h).run) ∧
        (x.2 &&& (s.thread r.h).fenable ≠ 0 → (t.thread r.h).run = .parked ∧ (t.thread r.h).trapCause = 9 ∧ (t.thread r.h).trapVal = r.va ∧
          (t.thread r.h).trapPc = word ((s.thread r.h).seq.pc.toNat % 2 ^ 56))) ∧
      (r.op = .red op 4 b → s.reduces r = false → Completes .farAccessPerform s fun t =>
        BytesWritten s.mem t.mem r.addr (toBytes 4 x.1) ∧ (∀ g, (t.thread g).seq = (s.thread g).seq) ∧
        Due s.cycle (.redAck r.h r.va x.2 r.sent) t)

/-- R104-R106, R108-R110: rounding. A finite value of a format keeps its code and raises nothing. A rounded finite value that
does not overflow has the sign of the exact one; RTZ does not exceed its magnitude, RUP is not below it, RDN not above it;
NX is raised exactly when the result differs. -/
def Obligations.RoundingDirections : Prop :=
  (∀ (f : FF) (c mode : Nat) (g : Bool) (n d : Nat), c < 2 ^ f.width → f.val c = .fin g n d → f.round (f.val c) mode = (c, 0)) ∧
  (∀ (f : FF) (mode n d : Nat) (g : Bool), 0 < n → 0 < d → mode < 4 → (f.round (.fin g n d) mode).2 &&& flOF = 0 →
    ∃ p q, f.val (f.round (.fin g n d) mode).1 = .fin g p q ∧ 0 < q ∧
      (mode = 1 → p * d ≤ n * q) ∧ (mode = 2 → if g then p * d ≤ n * q else n * q ≤ p * d) ∧
      (mode = 3 → if g then n * q ≤ p * d else p * d ≤ n * q) ∧
      ((f.round (.fin g n d) mode).2 &&& flNX = 0 ↔ p * d = n * q))

/-! ### Vector instructions -/

/-- The k-th operand: a vector register, or the oldest entry of a queue that this instruction has not taken yet (R17). -/
def Sys2Proof.Spec.operand (s : State) (h : Nat) (rs : List Reg) (k : Nat) : VReg :=
  let r := rs.getD k 0
  if r = 28 ∨ r = 29 then
    ((s.queue (coreOf h) (pairOf h) (r.toNat - 28)).ents.map (·.val)).getD ((rs.take k).filter (· = r)).length 0
  else (s.thread h).getV r.toNat
def Sys2Proof.Spec.operands (s : State) (h : Nat) (rs : List Reg) : List VReg := (List.range rs.length).map (operand s h rs)
/-- The vector result v is in its register, or in its queue from two cycles later on; the operands that are queue heads are
popped; no other vector register and no memory differs. -/
def Sys2Proof.Spec.VecResult (s t : State) (h : Nat) (rs : List Reg) (d : Reg) (v : VReg) : Prop :=
  t.mem = s.mem ∧ (∀ g, g ≠ h → (t.thread g).v = (s.thread g).v ∧ (t.thread g).seq = (s.thread g).seq) ∧
  (∀ r, r < 32 → (t.thread h).getV r = if r = d.toNat ∧ d.toNat < 28 then v else (s.thread h).getV r) ∧
  (∀ q, q < 2 → (t.queue (coreOf h) (pairOf h) q).ents =
    (s.queue (coreOf h) (pairOf h) q).ents.drop (rs.filter fun r => r.toNat = 28 + q).length) ∧
  (30 ≤ d.toNat → Pushed s t h (d.toNat - 28) { val := v, at_ := s.cycle + 2 })
/-- The instruction's effect with the events of its lanes (R147, R174): the events are in FFLAGS; an enabled one traps with
cause 9, the events and the lowest lane that raised one, and has no other effect. -/
def Sys2Proof.Spec.VecCompletes (i : Instr) (s : State) (h : Nat) (rs : List Reg) (d : Reg) (v : VReg) (fls : List Fl) : Prop :=
  let all := fls.foldl (· ||| ·) 0
  let lane := (fls.takeWhile fun f => f &&& (s.thread h).fenable = 0).length
  (all &&& (s.thread h).fenable = 0 → Completes i s fun t => WritesNone s t ∧ Passed i.len s t ∧ VecResult s t h rs d v ∧
    (t.thread h).fflags = (s.thread h).fflags ||| all) ∧
  (all &&& (s.thread h).fenable ≠ 0 → NoTrace s → Completes i s fun t => Trapped h 9 (word (all.toNat + 256 * lane)) s t ∧ t.mem = s.mem ∧
    (t.thread h).fflags = (s.thread h).fflags ||| all ∧ (t.thread h).v = (s.thread h).v ∧ t.cores = s.cores)

/-- What a vector instruction's register fields, limits and queues refuse (R17, R19, R147): cause 0x02, or 0x12 with the queue; one that
misses an entry or a space waits. -/
def Sys2Proof.Spec.VecStops (i : Instr) (s : State) (h : Nat) (old limits : Bool) (val : Word) : Prop :=
  (headCheck i old ≠ none → NoTrace s → Completes i s (Trapped h 2 0 s)) ∧
  (headCheck i old = none → limits = false → NoTrace s → Completes i s (Trapped h 2 val s)) ∧
  (headCheck i old = none → limits = true →
    (∀ q, s.queueMisuse h i = none → s.queueWaits h i s.cycle = some q → Completes i s fun t =>
      BlockedFor h (.queue q) t ∧ t.pc = s.pc ∧ WritesNone s t ∧ ThreadAgenda h s t) ∧
    (∀ q, s.queueMisuse h i = some q → NoTrace s → Completes i s (Trapped h 0x12 (word q) s)))

/-- The lanewise instructions: operand registers, destination, lane width, and the operation on one lane from the rounding mode and
the operands' lanes. -/
def Sys2Proof.Spec.laneOf : Instr → Option (List Reg × Reg × Nat × (Nat → List Nat → Nat × Fl))
  | .vadd t b a d => some ([a, b], d, (eltOf t false).width, fun m l => laneAdd (eltOf t false) m (l.getD 0 0) (l.getD 1 0))
  | .vsub t b a d => some ([a, b], d, (eltOf t false).width, fun m l => laneSub (eltOf t false) m (l.getD 0 0) (l.getD 1 0))
  | .vmul t b a d => some ([a, b], d, (eltOf t false).width, fun m l => laneMul (eltOf t false) m (l.getD 0 0) (l.getD 1 0))
  | .vfma t b a d => some ([a, b, d], d, (eltOf t false).width, fun m l => laneFma (eltOf t false) m (l.getD 0 0) (l.getD 1 0) (l.getD 2 0))
  | .vfms t b a d => some ([a, b, d], d, (eltOf t false).width, fun m l => laneFms (eltOf t false) m (l.getD 0 0) (l.getD 1 0) (l.getD 2 0))
  | .vmin t b a d => some ([a, b], d, (eltOf t false).width, fun _ l => laneMin (eltOf t false) (l.getD 0 0) (l.getD 1 0))
  | .vminN t b a d => some ([a, b], d, (eltOf t true).width, fun _ l => laneMin (eltOf t true) (l.getD 0 0) (l.getD 1 0))
  | .vmax t b a d => some ([a, b], d, (eltOf t false).width, fun _ l => laneMax (eltOf t false) (l.getD 0 0) (l.getD 1 0))
  | .vmaxN t b a d => some ([a, b], d, (eltOf t true).width, fun _ l => laneMax (eltOf t true) (l.getD 0 0) (l.getD 1 0))
  | .vabs t a d => some ([a], d, (eltOf t false).width, fun _ l => laneAbs (eltOf t false) (l.getD 0 0))
  | .vneg t a d => some ([a], d, (eltOf t false).width, fun _ l => laneNeg (eltOf t false) (l.getD 0 0))
  | .vshl t b a d => some ([a, b], d, (eltOf t false).width, fun _ l => laneShl (eltOf t false).width (l.getD 0 0) (l.getD 1 0))
  | .vshr t b a d => some ([a, b], d, (eltOf t false).width, fun _ l => laneShr (eltOf t false).width (l.getD 0 0) (l.getD 1 0))
  | .vsra t b a d => some ([a, b], d, (eltOf t false).width, fun _ l => laneSra (eltOf t false).width (l.getD 0 0) (l.getD 1 0))
  | .vcmp t c b a d => some ([a, b], d, (eltOf t false).width, fun _ l => laneCmp (eltOf t false) c.toNat (l.getD 0 0) (l.getD 1 0))
  | .vsel t b a d => some ([a, b, d], d, (eltOf t false).width, fun _ l => (if l.getD 2 0 ≠ 0 then l.getD 0 0 else l.getD 1 0, 0))
  | .vaddF32Parcel b d => some ([d, b], d, 32, fun m l => laneAdd (.fl .f32) m (l.getD 0 0) (l.getD 1 0))
  | .vsubF32Parcel b d => some ([d, b], d, 32, fun m l => laneSub (.fl .f32) m (l.getD 0 0) (l.getD 1 0))
  | .vmulF32Parcel b d => some ([d, b], d, 32, fun m l => laneMul (.fl .f32) m (l.getD 0 0) (l.getD 1 0))
  | .vmaxF32Parcel b d => some ([d, b], d, 32, fun _ l => laneMax (.fl .f32) (l.getD 0 0) (l.getD 1 0))
  | .vminF32Parcel b d => some ([d, b], d, 32, fun _ l => laneMin (.fl .f32) (l.getD 0 0) (l.getD 1 0))
  | .vaddI32Parcel b d => some ([d, b], d, 32, fun _ l => ((l.getD 0 0 + l.getD 1 0) % 2 ^ 32, 0))
  | .vsubI32Parcel b d => some ([d, b], d, 32, fun _ l => ((l.getD 0 0 + 2 ^ 32 - l.getD 1 0) % 2 ^ 32, 0))
  | .vaddB16Parcel b d => some ([d, b], d, 16, fun m l => laneAdd (.fl .b16) m (l.getD 0 0) (l.getD 1 0))
  | .vmulB16Parcel b d => some ([d, b], d, 16, fun m l => laneMul (.fl .b16) m (l.getD 0 0) (l.getD 1 0))
  | .vshlI32Parcel b d => some ([d, b], d, 32, fun _ l => (l.getD 0 0 * 2 ^ (l.getD 1 0 % 32) % 2 ^ 32, 0))
  | .vsraI32Parcel b d => some ([d, b], d, 32, fun _ l => laneSra 32 (l.getD 0 0) (l.getD 1 0))
  | .vnegF32Parcel b d => some ([b], d, 32, fun _ l => laneNeg (.fl .f32) (l.getD 0 0))
  | _ => none
/-- The bitwise instructions. -/
def Sys2Proof.Spec.bitwiseOf : Instr → Option (List Reg × Reg × (VReg → VReg → VReg))
  | .vand _ b a d => some ([a, b], d, (· &&& ·))
  | .vor _ b a d => some ([a, b], d, (· ||| ·))
  | .vxor _ b a d => some ([a, b], d, (· ^^^ ·))
  | .vnot _ a d => some ([a], d, fun x _ => ~~~ x)
  | .vandParcel b d => some ([d, b], d, (· &&& ·))
  | .vorParcel b d => some ([d, b], d, (· ||| ·))
  | .vxorParcel b d => some ([d, b], d, (· ^^^ ·))
  | .vmovParcel b d => some ([b], d, fun x _ => x)
  | _ => none

/-- R33, R34, R146-R152, R174: every lanewise and bitwise instruction and lane parcel gives each lane of its destination the
operation on the lanes of its operands; or its fields or queues stop it. -/
def Obligations.LanewiseInstructions : Prop :=
  ∀ (i : Instr) (s : State) (h : Nat) (rs : List Reg) (d : Reg), s.cur = .thread h → Runs i s →
    let vs := operands s h rs
    ((laneOf i).isSome = true ∨ (bitwiseOf i).isSome = true → VecStops i s h false true 0) ∧
    (headCheck i false = none → QueuesOpen s h i →
      (∀ w f, laneOf i = some (rs, d, w, f) →
        let ls := (List.range (1024 / w)).map fun k => f (s.thread h).frm.toNat (vs.map fun v => v.toNat / 2 ^ (w * k) % 2 ^ w)
        VecCompletes i s h rs d (pack w (ls.map Prod.fst)) (ls.map Prod.snd)) ∧
      (∀ f, bitwiseOf i = some (rs, d, f) → VecCompletes i s h rs d (f (vs.getD 0 0) (vs.getD 1 0)) []))

/-- R110, R120, R153-R159: conversions by parts, lane moves and reductions: operands, destination, whether the old destination
counts as read, whether the instruction's own limits hold, the result and the events of its lanes. -/
def Sys2Proof.Spec.moveOf (s : State) (h : Nat) : Instr → Option (List Reg × Reg × Bool × Bool × (List VReg → VReg × List Fl))
  | .vcvt t n sc p a d =>
    let dst := eltOf t (n = 1)
    let ws := fmtWidth sc.toNat
    some ([a], d, dst.width < ws, p.toNat * min ws dst.width < max ws dst.width, fun vs =>
      byParts ws dst.width p.toNat (vs.getD 0 0) ((s.thread h).getV d.toNat) fun _ x => laneCvt dst sc.toNat (s.thread h).frm.toNat x)
  | .vqnt t n p b a d =>
    let dst := eltOf t (n = 1)
    some ([a, b], d, true, p.toNat * min 32 dst.width < max 32 dst.width, fun vs =>
      byParts 32 dst.width p.toNat (vs.getD 0 0) ((s.thread h).getV d.toNat) fun i x =>
        laneQnt dst (s.thread h).frm.toNat x ((lanesOf 32 (vs.getD 1 0)).getD i 0))
  | .vdq p sc b a d =>
    let ws := fmtWidth (dqFmt sc)
    some ([a, b], d, false, p.toNat * ws < 32, fun vs => byParts ws 32 p.toNat (vs.getD 0 0) 0 fun i x =>
      laneDq (dqFmt sc) (s.thread h).frm.toNat x ((lanesOf 32 (vs.getD 1 0)).getD i 0))
  | .vbcast t a d =>
    let w := (eltOf t false).width
    some ([], d, false, true, fun _ => (pack w ((List.range (1024 / w)).map fun _ => (s.getX a).toNat), []))
  | .vins t b a d =>
    let w := (eltOf t false).width
    some ([d], d, true, (s.getX b).toNat < 1024 / w, fun vs => (pack w ((List.range (1024 / w)).map fun k =>
      if k = (s.getX b).toNat then (s.getX a).toNat % 2 ^ w else (vs.getD 0 0).toNat / 2 ^ (w * k) % 2 ^ w), []))
  | .vperm t b a d =>
    let w := (eltOf t false).width
    some ([a, b], d, false, true, fun vs => (pack w ((List.range (1024 / w)).map fun k =>
      (vs.getD 0 0).toNat / 2 ^ (w * ((vs.getD 1 0).toNat / 2 ^ (w * k) % 2 ^ w % (1024 / w))) % 2 ^ w), []))
  | .vslide t b a d =>
    let w := (eltOf t false).width
    some ([a], d, false, true, fun vs => (pack w ((List.range (1024 / w)).map fun (k : Nat) =>
      let j : Int := (k : Int) + (s.getX b).toInt
      if 0 ≤ j ∧ j < 1024 / (w : Int) then (vs.getD 0 0).toNat / 2 ^ (w * j.toNat) % 2 ^ w else 0), []))
  | .viota t d =>
    let e := eltOf t false
    some ([], d, false, true, fun _ => (pack e.width ((List.range (1024 / e.width)).map fun (k : Nat) => intLane e k), []))
  | .vmovi t i d =>
    let e := eltOf t false
    some ([], d, false, true, fun _ => (pack e.width ((List.range (1024 / e.width)).map fun _ => intLane e i.toInt), []))
  | .vrsum t a d => reduction t false a d (laneAdd (eltOf t false))
  | .vrmax t a d => reduction t false a d fun _ => laneMax (eltOf t false)
  | .vrmaxN t a d => reduction t true a d fun _ => laneMax (eltOf t true)
  | .vrmin t a d => reduction t false a d fun _ => laneMin (eltOf t false)
  | .vrminN t a d => reduction t true a d fun _ => laneMin (eltOf t true)
  | _ => none
where
  reduction (t : BitVec 3) (n : Bool) (a d : Reg) (f : Nat → Nat → Nat → Nat × Fl) :
      Option (List Reg × Reg × Bool × Bool × (List VReg → VReg × List Fl)) :=
    let w := (eltOf t n).width
    some ([a], d, false, true, fun vs =>
      let (r, fls) := tree (f (s.thread h).frm.toNat) (Nat.log2 (1024 / w)) 1 (lanesOf w (vs.getD 0 0)) (List.replicate (1024 / w) 0)
      (pack w [r], fls))

/-- R153-R158, R120: conversions, VQNT, VDQ, lane moves and reductions complete with their result; a part or a lane that does not exist
raises cause 0x02, and so do the fields that R17 forbids. (VPERM takes its index from a lane as wide as its data, log 12, DEDUCED: R157 speaks of a 32-bit
index. The lane of an event of a conversion, of VQNT, VDQ or a reduction is its place in what the instruction reads, log 20, DESIGN CHOICE.) -/
def Obligations.ConversionsMovesReductions : Prop :=
  ∀ (i : Instr) (s : State) (h : Nat) (rs : List Reg) (d : Reg) (old limits : Bool) (f : List VReg → VReg × List Fl),
    s.cur = .thread h → moveOf s h i = some (rs, d, old, limits, f) → Runs i s →
    VecStops i s h old limits (match i with | .vins _ b _ _ => s.getX b | _ => 0) ∧
    (headCheck i old = none → limits = true → QueuesOpen s h i → VecCompletes i s h rs d (f (operands s h rs)).1 (f (operands s h rs)).2)

/-- Lane x (value, index) comes before lane y in the order of R159. -/
def Sys2Proof.Spec.RanksBefore (e : Elt) (x y : Nat × Nat) : Prop :=
  ranksAbove e x.1 y.1 = true ∨ (ranksAbove e y.1 x.1 = false ∧ x.2 < y.2)
/-- R157, R159: VEXT and VEXT.n write the lane that x[rb] names to x[rd], sign-extended or not; VTOPK and VTOPK.n write the k + 1
lanes that rank first, in order, and their indices; a lane that does not exist, a destination above v26 and enabled events trap. -/
def Obligations.ExtractAndTopK : Prop :=
  ∀ (s : State) (h : Nat), s.cur = .thread h →
    (∀ i t b a d n, (i = .vext t b a d ∧ n = false) ∨ (i = .vextN t b a d ∧ n = true) → Runs i s →
      VecStops i s h false (decide ((s.getX b).toNat < 1024 / (eltOf t n).width)) (s.getX b)) ∧
    (∀ i t k a d n, (i = .vtopk t k a d ∧ n = false) ∨ (i = .vtopkN t k a d ∧ n = true) → Runs i s →
      VecStops i s h false (decide (d.toNat ≤ 26)) 0) ∧
    (∀ i t b a d n, (i = .vext t b a d ∧ n = false) ∨ (i = .vextN t b a d ∧ n = true) → Runs i s → headCheck i false = none → QueuesOpen s h i →
      let w := (eltOf t n).width
      (s.getX b).toNat < 1024 / w →
      let x := (operand s h [a] 0).toNat / 2 ^ (w * (s.getX b).toNat) % 2 ^ w
      let signed : Bool := !n && decide (5 ≤ t.toNat)
      Completes i s fun u => Writes s u d (if signed ∧ 2 ^ (w - 1) ≤ x then BitVec.ofInt 64 ((x : Int) - ((2 ^ w : Nat) : Int)) else word x) ∧
        Passed 4 s u ∧ u.mem = s.mem ∧ (u.thread h).v = (s.thread h).v) ∧
    (∀ i t k a d n, (i = .vtopk t k a d ∧ n = false) ∨ (i = .vtopkN t k a d ∧ n = true) → Runs i s → headCheck i false = none → QueuesOpen s h i →
      d.toNat ≤ 26 →
      let l := lanesOf 32 (operand s h [a] 0)
      let fls := l.map fun x => match eltOf t n with | .fl f => sigFl f [x] | _ => 0
      let lane := (fls.takeWhile fun f => f &&& (s.thread h).fenable = 0).length
      (orFl fls &&& (s.thread h).fenable ≠ 0 → NoTrace s → Completes i s fun u => Trapped h 9 (word ((orFl fls).toNat + 256 * lane)) s u ∧
        u.mem = s.mem ∧ (u.thread h).v = (s.thread h).v) ∧
      (orFl fls &&& (s.thread h).fenable = 0 → Completes i s fun u => WritesNone s u ∧ Passed 4 s u ∧ u.mem = s.mem ∧
        (u.thread h).fflags = (s.thread h).fflags ||| orFl fls ∧
        (∀ r, r < 32 → r ≠ d.toNat → r ≠ d.toNat + 1 → (u.thread h).getV r = (s.thread h).getV r) ∧
        ∃ best : List (Nat × Nat), best.length = k.toNat + 1 ∧ best.Pairwise (RanksBefore (eltOf t n)) ∧
          (∀ x, x ∈ best → x.2 < 32 ∧ x.1 = l.getD x.2 0) ∧
          (∀ j, j < 32 → (l.getD j 0, j) ∈ best ∨ ∀ x, x ∈ best → RanksBefore (eltOf t n) x (l.getD j 0, j)) ∧
          (u.thread h).getV d.toNat = pack 32 (best.map Prod.fst) ∧ (u.thread h).getV (d.toNat + 1) = pack 32 (best.map Prod.snd)))

/-- The parts of a special-function instruction (R160). -/
def Sys2Proof.Spec.specialOf : Instr → Option (SfuFn × BitVec 3 × Reg × Reg × Reg)
  | .vrcp t a d => some (.rcp, t, 0, a, d)
  | .vrsq t a d => some (.rsq, t, 0, a, d)
  | .vsqrt t a d => some (.sqrt, t, 0, a, d)
  | .vdiv t b a d => some (.div, t, b, a, d)
  | .vexp2 t a d => some (.exp2, t, 0, a, d)
  | .vlog2 t a d => some (.log2, t, 0, a, d)
  | .vsinp t a d => some (.sinp, t, 0, a, d)
  | .vcosp t a d => some (.cosp, t, 0, a, d)
  | .vtanh t a d => some (.tanh, t, 0, a, d)
  | _ => none
/-- R160-R162, R176: a special-function instruction puts its operands into the unit's queue and waits; with eight requests there it is tried
again; a queue's register raises cause 0x02. The unit starts the oldest request, at most one in two cycles, and twelve cycles later
writes the result of each lane, its events in FFLAGS; an enabled event traps. -/
def Sys2Proof.Spec.SpecialFunctions : Prop :=
  ∀ (s : State) (h : Nat),
    let k := s.core (coreOf h)
    (∀ i fn t b a d, s.cur = .thread h → specialOf i = some (fn, t, b, a, d) → Runs i s →
      let plain : Prop := a.toNat < 28 ∧ d.toNat < 28 ∧ (fn = .div → b.toNat < 28)
      let waiting := (k.sfu.filter fun r => !r.started).length
      let r : SfuReq := { h := h, fn := fn, ty := t.toNat, a := (s.thread h).getV a.toNat, b := (s.thread h).getV b.toNat, d := d,
                          frm := (s.thread h).frm.toNat, at_ := s.cycle + 1 }
      (plain → waiting < 8 → Completes i s fun u => BlockedFor h .sfu u ∧ u.pc = s.pc ∧ WritesNone s u ∧ u.mem = s.mem ∧
        (∃ n, Due n (.sfuStart (coreOf h)) u) ∧ (u.core (coreOf h)).sfu = k.sfu ++ [r]) ∧
      (plain → 8 ≤ waiting → Completes i s fun u => TriedAgain s u ∧ u.mem = s.mem ∧ u.threads = s.threads) ∧
      (¬ plain → NoTrace s → Completes i s (Trapped h 2 0 s))) ∧
    (∀ r, Takes (.sfuStart (coreOf h)) s → k.sfu.find? (fun r => !r.started) = some r → r.h = h → k.halted = false → r.at_ ≤ s.cycle →
      k.sfuFree ≤ s.cycle → Completes .sfuStart s fun u => (u.core (coreOf h)).sfu = (k.sfu.map fun q => if q.h = h then { q with started := true } else q) ∧
        (u.core (coreOf h)).sfuFree = s.cycle + 2 ∧ Due (s.cycle + 12) (.sfuComplete (coreOf h) h) u ∧ u.threads = s.threads ∧ u.mem = s.mem) ∧
    (∀ r f, Takes (.sfuComplete (coreOf h) h) s → k.sfu.find? (fun q => q.h = h) = some r → r.started = true → BlockedFor h .sfu s → Alone h s →
      eltOf (BitVec.ofNat 3 r.ty) false = .fl f →
      let ls := (List.range (1024 / f.width)).map fun i =>
        laneSpecial r.fn f r.frm (r.a.toNat / 2 ^ (f.width * i) % 2 ^ f.width) (r.b.toNat / 2 ^ (f.width * i) % 2 ^ f.width)
      let all := orFl (ls.map Prod.snd)
      let lane := ((ls.map Prod.snd).takeWhile fun x => x &&& (s.thread h).fenable = 0).length
      (all &&& (s.thread h).fenable = 0 → Completes .sfuComplete s fun u =>
        (u.thread h).getV r.d.toNat = pack f.width (ls.map Prod.fst) ∧ (∀ n, n < 32 → n ≠ r.d.toNat → (u.thread h).getV n = (s.thread h).getV n) ∧
        (u.thread h).fflags = (s.thread h).fflags ||| all ∧ PassedOf h 4 s u ∧ ReadyAt h s.cycle u ∧ u.mem = s.mem) ∧
      (all &&& (s.thread h).fenable ≠ 0 → NoTrace s → Completes .sfuComplete s fun u => Trapped h 9 (word (all.toNat + 256 * lane)) s u ∧
        (u.thread h).v = (s.thread h).v ∧ (u.thread h).fflags = (s.thread h).fflags ||| all ∧ u.mem = s.mem))

/-- R160: the special values of the special functions, with their events, and the functions where they are rational. Elsewhere a lane's result is
the function's value, rounded once (log 13). -/
def Sys2Proof.Spec.SpecialValues : Prop :=
  ∀ (f : FF) (mode a b : Nat), f = .f32 ∨ f = .b16 ∨ f = .h16 → a < 2 ^ f.width → b < 2 ^ f.width →
    let y (fn : SfuFn) : Nat × Fl := laneSpecial fn f mode a b
    let invalid : Nat × Fl := (f.canonNaN, flNV)
    let one (g : Bool) : Nat × Fl := f.round (.fin g 1 1) mode
    (∀ fn, fn ≠ .div → f.val a = .nan → y fn = (f.canonNaN, sigFl f [a])) ∧
    (∀ g, f.val a = .inf g →
      y .rcp = (f.zero g, 0) ∧ y .exp2 = (if g then (f.zero false, 0) else (f.inf false, 0)) ∧
      y .sinp = invalid ∧ y .cosp = invalid ∧ y .tanh = one g ∧
      y .rsq = (if g then invalid else (f.zero false, 0)) ∧ y .sqrt = (if g then invalid else (f.inf false, 0)) ∧
      y .log2 = (if g then invalid else (f.inf false, 0))) ∧
    (∀ g d, f.val a = .fin g 0 d →
      y .rcp = (f.inf g, flDZ) ∧ y .rsq = (f.inf g, flDZ) ∧ y .sqrt = (f.zero g, 0) ∧ y .exp2 = one false ∧ y .log2 = (f.inf true, flDZ) ∧
      y .sinp = (f.zero g, 0) ∧ y .cosp = one false ∧ y .tanh = (f.zero g, 0)) ∧
    (∀ g n d, f.val a = .fin g n d → n ≠ 0 →
      y .rcp = f.round (.fin g d n) mode ∧
      (g = true → y .rsq = invalid ∧ y .sqrt = invalid ∧ y .log2 = invalid) ∧
      (g = false → n = d → y .log2 = (f.zero false, 0)) ∧
      (n % d = 0 → n / d < 2000 → y .exp2 = f.round (if g then .fin false 1 (2 ^ (n / d)) else .fin false (2 ^ (n / d)) 1) mode) ∧
      (n % d = 0 → y .sinp = (f.zero g, 0)) ∧
      (2 * n % d = 0 → 2 * n / d % 2 = 1 → y .cosp = (f.zero false, 0) ∧ y .sinp = one (g != decide (2 * n / d % 4 = 3))) ∧
      (n % d = 0 → y .cosp = one (decide (n / d % 2 = 1)))) ∧
    match f.val a, f.val b with
    | .fin g n k, .fin p m l =>
      y .div = (if m = 0 then (if n = 0 then invalid else (f.inf (g != p), flDZ)) else if n = 0 then (f.zero (g != p), 0)
        else f.round (.fin (g != p) (n * l) (k * m)) mode)
    | .inf g, .fin p _ _ => y .div = (f.inf (g != p), 0)
    | .fin g _ _, .inf p => y .div = (f.zero (g != p), 0)
    | .inf _, .inf _ => y .div = invalid
    | _, _ => y .div = (f.canonNaN, sigFl f [a, b])

/-! ### Wide accumulators and hash tables -/

/-- Accumulator w is a and the others are as before. -/
def Sys2Proof.Spec.WideIs (s t : State) (h : Nat) (w : Reg) (a : WAcc) : Prop :=
  ∀ k, k < 4 → (t.thread h).getW k = if k = w.toNat then a else (s.thread h).getW k
/-- The events of a wide instruction let it complete with P, or trap it with nothing else changed (R147, R165, R174). -/
def Sys2Proof.Spec.WideCompletes (i : Instr) (s : State) (h : Nat) (w : Reg) (a : WAcc) (fls : List Fl) : Prop :=
  let all := orFl fls
  let lane := (fls.takeWhile fun f => f &&& (s.thread h).fenable = 0).length
  (all &&& (s.thread h).fenable = 0 → Completes i s fun t => WritesNone s t ∧ Passed 4 s t ∧ t.mem = s.mem ∧
    (t.thread h).fflags = (s.thread h).fflags ||| all ∧ WideIs s t h w a) ∧
  (all &&& (s.thread h).fenable ≠ 0 → NoTrace s → Completes i s fun t => Trapped h 9 (word (all.toNat + 256 * lane)) s t ∧ t.mem = s.mem ∧
    (t.thread h).fflags = (s.thread h).fflags ||| all ∧ ∀ k, k < 4 → (t.thread h).getW k = (s.thread h).getW k)
/-- The accumulator after the lanes xs of values: finite ones are added in units of 2^-149, the others are noted (R116, R164). -/
def Sys2Proof.Spec.wideSum (a : WAcc) (vs : List FVal) : WAcc :=
  { val := a.val + BitVec.ofInt 320 ((vs.map fun v => match v with | .fin g n d => (unitsOfVal g n d).1 | _ => 0).foldl (· + ·) 0)
    nan := a.nan || vs.any fun v => match v with | .nan => true | _ => false
    pinf := a.pinf || vs.any fun v => match v with | .inf g => !g | _ => false
    ninf := a.ninf || vs.any fun v => match v with | .inf g => g | _ => false }
/-- R116-R118, R163-R165: WCLR, WACC, WACCP, WRND, WSAVE and WLOAD. Integer lanes and pairs are added exactly, modulo 2^320, in units
of 2^−149, and float lanes by their values, a product in the nearest number of units, ties to even; WRND rounds the value once, or answers an infinity or the NaN; WLOAD of the image that WSAVE
gave restores the accumulator. A number above w3 raises cause 0x02. (That PINF, NINF and NAN are bits 320, 321 and 322 of the image is log 20, DEDUCED
from the order in which R118 names them.) -/
def Obligations.WideAccumulators : Prop :=
  ∀ (s : State) (h : Nat) (w : Reg), s.cur = .thread h →
    let acc := (s.thread h).getW w.toNat
    let unit : Int := 2 ^ 149
    (∀ i t3 a b, i = .wclr w ∨ i = .wacc t3 a w ∨ i = .waccp t3 b a w ∨ i = .wrnd w a ∨ i = .wsave w a ∨ i = .wload a w → Runs i s →
      (4 ≤ w.toNat → NoTrace s → Completes i s (Trapped h 2 0 s)) ∧ (w.toNat < 4 → VecStops i s h false true 0)) ∧
    (w.toNat < 4 →
    (Runs (.wclr w) s → Completes (.wclr w) s fun t => WideIs s t h w {} ∧ WritesNone s t ∧ Passed 4 s t ∧ ThreadOnly h s t) ∧
    (∀ t3 a, Runs (.wacc t3 a w) s → headCheck (.wacc t3 a w) false = none → QueuesOpen s h (.wacc t3 a w) →
      let e := eltOf t3 false
      let xs := lanesOf e.width (operand s h [a] 0)
      (5 ≤ t3.toNat →
        let n : Int := (xs.map fun x => signedOf e.width x * unit).foldl (· + ·) 0
        WideCompletes (.wacc t3 a w) s h w { acc with val := acc.val + BitVec.ofInt 320 n } []) ∧
      (∀ f, e = .fl f → WideCompletes (.wacc t3 a w) s h w (wideSum acc (xs.map f.val)) (xs.map fun x => sigFl f [x]))) ∧
    (∀ t3 b a, Runs (.waccp t3 b a w) s → headCheck (.waccp t3 b a w) false = none → QueuesOpen s h (.waccp t3 b a w) →
      let e := eltOf t3 false
      let xs := (lanesOf e.width (operand s h [a, b] 0)).zip (lanesOf e.width (operand s h [a, b] 1))
      (5 ≤ t3.toNat →
        let n : Int := (xs.map fun x => signedOf e.width x.1 * signedOf e.width x.2 * unit).foldl (· + ·) 0
        WideCompletes (.waccp t3 b a w) s h w { acc with val := acc.val + BitVec.ofInt 320 n } []) ∧
      (∀ f, e = .fl f →
        let r := xs.foldl (fun (r : WAcc × List Fl) x => let y := waccpLane e r.1 x.1 x.2; (y.1, r.2 ++ [y.2])) (acc, [])
        WideCompletes (.waccp t3 b a w) s h w r.1 r.2)) ∧
    (∀ (f : FF) (a : WAcc) x y g n d p m r, f.val x = .fin g n d → f.val y = .fin p m r → n * m * 2 ^ 149 < 2 ^ 318 * (d * r) → 0 < d → 0 < r →
      let z := waccpLane (.fl f) a x y
      z.1 = wideSum a [(f.val x).mul (f.val y)] ∧ z.2 &&& ~~~ flNX = 0) ∧
    (∀ (g : Bool) (n d : Nat), 0 < d →
      let off := (unitsOfVal g n d).1 * d - signedNum g n * unit
      2 * off.natAbs ≤ d ∧ (2 * off.natAbs = d → (unitsOfVal g n d).1 % 2 = 0)) ∧
    (∀ d, Runs (.wrnd w d) s → headCheck (.wrnd w d) false = none → QueuesOpen s h (.wrnd w d) →
      let one (x : Nat) (fl : Fl) : Prop := VecCompletes (.wrnd w d) s h [] d (BitVec.ofNat 1024 (x % 2 ^ 32)) [fl]
      (acc.nan = false → acc.pinf = false → acc.ninf = false →
        let r := FF.f32.round (.fin (decide (acc.val.toInt < 0)) acc.val.toInt.natAbs (2 ^ 149)) (s.thread h).frm.toNat
        one r.1 r.2) ∧
      (acc.nan = true → (acc.pinf && acc.ninf) = false → one 0x7FC00000 0) ∧
      (acc.pinf = true → acc.ninf = true → one 0x7FC00000 flNV) ∧
      (acc.nan = false → acc.pinf = true → acc.ninf = false → one 0x7F800000 0) ∧
      (acc.nan = false → acc.pinf = false → acc.ninf = true → one 0xFF800000 0)) ∧
    (∀ d, Runs (.wsave w d) s → headCheck (.wsave w d) false = none → QueuesOpen s h (.wsave w d) →
      ∃ v, VecCompletes (.wsave w d) s h [] d v [] ∧ v.toNat % 2 ^ 320 = acc.val.toNat ∧ v.getLsbD 320 = acc.pinf ∧ v.getLsbD 321 = acc.ninf ∧
        v.getLsbD 322 = acc.nan ∧ v.toNat < 2 ^ 323) ∧
    (∀ a, Runs (.wload a w) s → headCheck (.wload a w) false = none → QueuesOpen s h (.wload a w) →
      let v := operand s h [a] 0
      Completes (.wload a w) s fun t => WritesNone s t ∧ Passed 4 s t ∧ t.mem = s.mem ∧
        WideIs s t h w { val := v.truncate 320, pinf := v.getLsbD 320, ninf := v.getLsbD 321, nan := v.getLsbD 322 }))

/-- The operands, the destination and the identifier of a hash instruction. -/
def Sys2Proof.Spec.hashOf : Instr → Option (List Reg × Option Reg × BitVec 8 × Bool)
  | .hacc u v b a => some ([a, b], none, u ++ v, true)
  | .hlook u v a d => some ([a], some d, u ++ v, false)
  | .hclr u v => some ([], none, u ++ v, true)
  | _ => none
/-- R17, R122, R148, R166, R167: the hash instructions issue: their operands leave their queues, and they wait for their table's well; a
table that they may not use traps. -/
def Sys2Proof.Spec.HashIssue : Prop :=
  ∀ (i : Instr) (s : State) (h : Nat) (rs : List Reg) (dst : Option Reg) (id : BitVec 8) (write : Bool), s.cur = .thread h →
    hashOf i = some (rs, dst, id, write) → Runs i s →
    (headCheck i false ≠ none → NoTrace s → Completes i s (Trapped h 2 0 s)) ∧
    (headCheck i false = none → s.tensor (s.thread h).ctx id.toNat = none → NoTrace s → Completes i s (Trapped h 2 (id.zeroExtend 64) s)) ∧
    (∀ d, headCheck i false = none → s.tensor (s.thread h).ctx id.toNat = some d →
      let owner := wellCore h d.base
      let lies : Prop := d.base.toNat % 8 = 0 ∧ wfield d.base 63 25 = 0
      let ends : Prop := wellOff d.base + 8 * d.dim0 ≤ 2 ^ 20
      let rights : Prop := nbit (s.rights (coreOf h) owner) 0 = true ∧ (write = true → nbit (s.rights (coreOf h) owner) 1 = true)
      (d.kind ≠ 2 → NoTrace s → Completes i s (Trapped h 2 (id.zeroExtend 64) s)) ∧
      (d.kind = 2 → write = true → d.ro = true → NoTrace s → Completes i s (Trapped h 6 d.base s)) ∧
      (d.kind = 2 → (write = true → d.ro = false) →
        (d.base.toNat % 8 ≠ 0 → NoTrace s → Completes i s (Trapped h 4 d.base s)) ∧
        (d.base.toNat % 8 = 0 → wfield d.base 63 25 ≠ 0 → NoTrace s → Completes i s (Trapped h 6 d.base s)) ∧
        (lies → ¬ ends → NoTrace s → Completes i s (Trapped h 6 (wellAddr owner 0 + 2 ^ 20) s)) ∧
        (lies → ends → ¬ rights → NoTrace s → Completes i s (Trapped h 7 d.base s)) ∧
        (lies → ends → rights → OnQueues i h s fun t => t.pc = s.pc ∧ WritesNone s t ∧ t.mem = s.mem ∧
          (∃ w, BlockedFor h (.hash w) t ∧ w.d = d ∧ w.rs = rs ∧ w.ops = operands s h rs ∧ w.dst = dst ∧ w.done = none ∧
            (w.push.isSome = true ↔ ∃ r, dst = some r ∧ 30 ≤ r.toNat)) ∧
          (∀ q, q < 2 → (t.queue (coreOf h) (pairOf h) q).ents =
            (s.queue (coreOf h) (pairOf h) q).ents.drop (rs.filter fun r => r.toNat = 28 + q).length) ∧
          Due (s.cycle + if owner = coreOf h then 4 else 12 + 4 * hops (coreOf h) owner) (.hashAccessComplete h) t)))

/-- R166-R171, R173: at the table's well, once its units allow it: HCLR empties every entry; HLOOK answers each key's value, or 0; HACC
adds a lane's value to its key's entry or makes the first empty one on its way the key's, one lane a cycle, and traps where there is
none; after the last lane LANECUR is 0. Races, enabled events and uncorrectable errors trap. (When a lane of HACC is done is log 1.) -/
def Sys2Proof.Spec.HashTables : Prop :=
  ∀ (s : State) (h : Nat) (w : HashWait), Takes (.hashAccessComplete h) s → BlockedFor h (.hash w) s → w.done = none → Alone h s →
    let d := w.d
    let owner := wellCore h d.base
    let waits (us : List LockUnit) (wr : Bool) : Bool := s.mustWait us wr (s.reachedAt (.hash h)) (orderKey h (s.thread h).since)
    let again (t : State) : Prop := t = { s with agenda := t.agenda, waiting := t.waiting } ∧ Due (s.cycle + 1) (.hashAccessComplete h) t
    let retires (t : State) : Prop := PassedOf h 4 s t ∧ ReadyAt h s.cycle t
    let race (wr : Bool) (l : List (Nat × Nat × Nat)) : Option Word := (s.raceCheck (coreOf h) (s.thread h).ctx wr l).1
    let bad (us : List LockUnit) : Option Word := s.brokenSector us
    Memory.wf (s.core owner).well = true →
    (∀ u v, blockedInsn (s.thread h) = some (.hclr u v) → w.dst = none →
      let us := sectorsOf owner (wellOff d.base) (8 * d.dim0)
      (waits us true = true → Completes .hashAccessComplete s again) ∧
      (∀ x, waits us true = false → race true [(owner, wellOff d.base, 8 * d.dim0)] = some x → NoTrace s →
        Completes .hashAccessComplete s (Trapped h 0x0C x s)) ∧
      (waits us true = false → race true [(owner, wellOff d.base, 8 * d.dim0)] = none → Completes .hashAccessComplete s fun t => retires t ∧
        t.mem = s.mem ∧ BytesWritten (s.core owner).well (t.core owner).well (wellOff d.base)
          ((List.range d.dim0).flatMap fun _ => [0xFF, 0xFF, 0xFF, 0xFF, 0, 0, 0, 0]))) ∧
    (∀ u v a r, blockedInsn (s.thread h) = some (.hlook u v a r) → w.dst = some r →
      let ks := lanesOf 32 (w.ops.getD 0 0)
      let ns := (ks.filter (· ≠ 2 ^ 32 - 1)).flatMap (s.touched owner d true)
      let us := ns.flatMap fun e => sectorsOf owner (wellOff d.base + 8 * e) 8
      let answer := pack 32 (ks.map fun k =>
        if k = 2 ^ 32 - 1 then 0 else match (probes d k).find? fun n => (s.hashEntry owner d n).1 = k with
          | some n => (s.hashEntry owner d n).2
          | none => 0)
      let l := ns.map fun e => (owner, wellOff d.base + 8 * e, 8)
      (waits us false = true → Completes .hashAccessComplete s again) ∧
      (∀ x, waits us false = false → bad us = some x → NoTrace s → Completes .hashAccessComplete s (Trapped h 6 x s)) ∧
      (∀ x, waits us false = false → bad us = none → race false l = some x → NoTrace s → Completes .hashAccessComplete s (Trapped h 0x0C x s)) ∧
      (waits us false = false → bad us = none → race false l = none → Completes .hashAccessComplete s fun t => retires t ∧ t.mem = s.mem ∧
        (w.push = none → r.toNat < 28 → (t.thread h).getV r.toNat = answer) ∧
        (∀ id, w.push = some id → (t.queue (coreOf h) (pairOf h) (r.toNat - 28)).ents =
          (s.queue (coreOf h) (pairOf h) (r.toNat - 28)).ents.map fun e => if e.wait = some id then { val := answer, at_ := s.cycle + 2 } else e))) ∧
    (∀ u v b a, blockedInsn (s.thread h) = some (.hacc u v b a) → w.dst = none →
      let j := (s.thread h).lanecur.toNat
      let k := (w.ops.getD 0 0).toNat / 2 ^ (32 * j) % 2 ^ 32
      let x := (w.ops.getD 1 0).toNat / 2 ^ (32 * j) % 2 ^ 32
      let ns := s.touched owner d false k
      let us := ns.flatMap fun e => sectorsOf owner (wellOff d.base + 8 * e) 8
      let l := ns.map fun e => (owner, wellOff d.base + 8 * e, 8)
      let next (t : State) : Prop := t.mem = s.mem ∧
        (j < 31 → (t.thread h).lanecur = (s.thread h).lanecur + 1 ∧ Due (s.cycle + 1) (.hashAccessComplete h) t ∧ (t.thread h).seq = (s.thread h).seq ∧
          ∃ y, BlockedFor h (.hash y) t ∧ y.ops = w.ops ∧ y.d = d) ∧
        (j = 31 → (t.thread h).lanecur = 0 ∧ retires t)
      (k = 2 ^ 32 - 1 → Completes .hashAccessComplete s fun t => next t ∧ (t.core owner).well = (s.core owner).well) ∧
      (k ≠ 2 ^ 32 - 1 →
        (waits us true = true → Completes .hashAccessComplete s again) ∧
        (∀ y, waits us true = false → bad us = some y → NoTrace s → Completes .hashAccessComplete s (Trapped h 6 y s)) ∧
        (∀ y, waits us true = false → bad us = none → race true l = some y → NoTrace s → Completes .hashAccessComplete s (Trapped h 0x0C y s)) ∧
        (waits us true = false → bad us = none → race true l = none →
          let found := (probes d k).find? fun n => (s.hashEntry owner d n).1 = k ∨ (s.hashEntry owner d n).1 = 2 ^ 32 - 1
          (found = none → NoTrace s → Completes .hashAccessComplete s (Trapped h 0x0B (word j) s)) ∧
          (∀ n, found = some n →
            let old := s.hashEntry owner d n
            let r : Nat × Fl := if old.1 ≠ k then (x, 0) else if d.fmt = 0 then FF.f32.add (s.thread h).frm.toNat old.2 x else ((old.2 + x) % 2 ^ 32, 0)
            (r.2 &&& (s.thread h).fenable = 0 → Completes .hashAccessComplete s fun t => next t ∧ (t.thread h).fflags = (s.thread h).fflags ||| r.2 ∧
              BytesWritten (s.core owner).well (t.core owner).well (wellOff d.base + 8 * n) (toBytes 8 (k + r.1 * 2 ^ 32))) ∧
            (r.2 &&& (s.thread h).fenable ≠ 0 → NoTrace s → Completes .hashAccessComplete s fun t =>
              Trapped h 9 (word ((w.fl ||| r.2).toNat + 256 * j)) s t ∧ (t.core owner).well = (s.core owner).well)))))

/-! ### Together -/

/-- What a home does with loads, stores, atomics and REDs, and the values of the floating-point ones. -/
def Obligations.HomePerformsAccesses : Prop := HomePerforms ∧ HomeFloatAtomics

/-- The arithmetic of integer and floating-point lanes. -/
def Obligations.LaneArithmetic : Prop := IntegerLanes ∧ FloatLanes

/-- The special-function unit: issue, start, result, special values. -/
def Obligations.SpecialFunctionUnit : Prop := SpecialFunctions ∧ SpecialValues

/-- Hash tables: their checks, and the entries that they read and write. -/
def Obligations.Hashing : Prop := HashIssue ∧ HashTables

/-! ### The cistern and the matrix engine -/

/-- Row i of a cistern tile of a core. -/
def Sys2Proof.Spec.RowOf (s : State) (c tile i : Nat) : VReg := (s.core c).cisRow tile i
/-- The rows of one tile are given; those of every other tile are as before. -/
def Sys2Proof.Spec.TileWritten (s t : State) (c tile : Nat) (f : Nat → VReg) : Prop :=
  ∀ m i, m < 64 → i < 32 → RowOf t c m i = if m = tile then f i else RowOf s c m i
/-- No MLDC holds the tile and no step ends on it in this cycle (R220, R222). -/
def Sys2Proof.Spec.TileFree (s : State) (c tile : Nat) : Prop :=
  (s.core c).tileHeld tile s.cycle = false ∧ (s.core c).lastCycle tile s.cycle = false

/-- R201, R202, R220-R226: MZERO and MCOPY write a tile, in the cycle after where a step ends on it; VLDC and VSTC start a row move that is
performed four cycles later and counted in CWAIT; VWAITC passes or waits for the count; MLDC asks for its rows; the rows of MSTC leave one
a cycle. What R213 and R221-R226 forbid traps; a tile that an MLDC holds, and a full count, make the instruction wait. (That the members of a gang leave VWAITC together is log 18;
the place of MSTC's refusal of a format among the checks, and FFLAGS where MSTC traps for an event, are log 20.) -/
def Sys2Proof.Spec.CisternInstructions : Prop :=
  ∀ (s : State) (h : Nat), s.cur = .thread h → Rising (s.core (coreOf h)).cistern →
    let core := coreOf h
    let held (tile : Nat) : Prop := (s.core core).tileHeld tile s.cycle = true
    let ends (tile : Nat) : Prop := (s.core core).lastCycle tile s.cycle = true
    let moves (t : State) (n tile : Nat) (op : CisOp) : Prop := ∃ id m, Due (s.cycle + n) (.cisternRowMove h id) t ∧
      tfind (t.core core).moves id = some m ∧ m.h = h ∧ m.tile = tile ∧ m.op = op ∧ m.issued = s.cycle ∧ m.at_ = s.cycle + n ∧ m.performed = none
    (∀ i tiles op bad, (∃ c d, i = .mzero c d ∧ tiles = [c.toNat + wfield (s.getX d) 13 8] ∧ op = .zero ∧
          bad = if 63 < c.toNat + wfield (s.getX d) 13 8 then some (s.getX d) else none) ∨
        (∃ c a, i = .mcopy c a ∧ tiles = [c.toNat, (s.getX a).toNat % 64] ∧ op = .copy ((s.getX a).toNat % 64) ∧
          bad = if wfield (s.getX a) 63 6 ≠ 0 then some (s.getX a) else none) → Runs i s →
      (∀ v, bad = some v → NoTrace s → Completes i s (Trapped h 2 v s)) ∧
      (bad = none → (∃ m, m ∈ tiles ∧ held m) → Completes i s fun t => TriedAgain s t ∧ t.cores = s.cores) ∧
      (bad = none → (∀ m, m ∈ tiles → ¬ held m) → (∃ m, m ∈ tiles ∧ ends m) → Completes i s fun t => WritesNone s t ∧ Passed 4 s t ∧ t.mem = s.mem ∧
        moves t 1 (tiles.getD 0 0) op) ∧
      (bad = none → (∀ m, m ∈ tiles → TileFree s core m) → Completes i s fun t => WritesNone s t ∧ Passed 4 s t ∧ t.mem = s.mem ∧
        TileWritten s t core (tiles.getD 0 0) fun k => if op = .zero then 0 else RowOf s core (tiles.getD 1 0) k)) ∧
    (∀ a d, Runs (.vldc a d) s →
      (wfield (s.getX a) 63 11 ≠ 0 → NoTrace s → Completes (.vldc a d) s (Trapped h 2 (s.getX a) s)) ∧
      (wfield (s.getX a) 63 11 = 0 → 28 ≤ d.toNat → NoTrace s → Completes (.vldc a d) s (Trapped h 2 0 s)) ∧
      (wfield (s.getX a) 63 11 = 0 → d.toNat < 28 → 16 ≤ (s.thread h).cwait.toNat → Completes (.vldc a d) s (TriedAgain s)) ∧
      (wfield (s.getX a) 63 11 = 0 → d.toNat < 28 → (s.thread h).cwait.toNat < 16 → Completes (.vldc a d) s fun t =>
        (t.thread h).cwait = (s.thread h).cwait + 1 ∧ WritesNone s t ∧ Passed 4 s t ∧ t.mem = s.mem ∧
        moves t 4 (wfield (s.getX a) 10 5) (.load (wfield (s.getX a) 4 0) d))) ∧
    (∀ a d, Runs (.vstc a d) s →
      (wfield (s.getX a) 63 11 ≠ 0 → NoTrace s → Completes (.vstc a d) s (Trapped h 2 (s.getX a) s)) ∧
      (wfield (s.getX a) 63 11 = 0 → 30 ≤ d.toNat → NoTrace s → Completes (.vstc a d) s (Trapped h 2 0 s)) ∧
      (wfield (s.getX a) 63 11 = 0 → d.toNat < 30 → 16 ≤ (s.thread h).cwait.toNat → Completes (.vstc a d) s (TriedAgain s)) ∧
      (wfield (s.getX a) 63 11 = 0 → d.toNat < 30 → (s.thread h).cwait.toNat < 16 → OnQueues (.vstc a d) h s fun t =>
        (t.thread h).cwait = (s.thread h).cwait + 1 ∧ WritesNone s t ∧ Passed 4 s t ∧ t.mem = s.mem ∧
        moves t 4 (wfield (s.getX a) 10 5) (.store (wfield (s.getX a) 4 0) (operand s h [d] 0)))) ∧
    (∀ n, Runs (.vwaitc n) s →
      (16 ≤ n.toNat → NoTrace s → Completes (.vwaitc n) s (Trapped h 2 0 s)) ∧
      (n.toNat < 16 → (s.thread h).gang = none →
        ((s.thread h).cwait.toNat ≤ n.toNat → Result (.vwaitc n) s 0 0) ∧
        (n.toNat < (s.thread h).cwait.toNat → Completes (.vwaitc n) s fun t =>
          BlockedFor h (.vwaitc n.toNat) t ∧ t.pc = s.pc ∧ WritesNone s t ∧ ThreadOnly h s t)) ∧
      (n.toNat < 16 → (s.thread h).gang ≠ none → Completes (.vwaitc n) s fun t =>
        BlockedFor h (.vwaitc n.toNat) t ∧ t.pc = s.pc ∧ WritesNone s t ∧ ThreadAgenda h s t ∧ Due s.cycle (.cisternRowMove h 0) t)) ∧
    (∀ c a d, s.refDesc (s.getX a) = some d →
      let r := tileRefOf h d (s.getX a)
      let u (w : Bool) : RefRule := { elems := some 32, write := w, dense := true, third := fullRow }
      let race (w : Bool) : Option Word := (s.raceCheck core (s.thread h).ctx w (rowSegs r r.off r.rowBytes)).1
      (∀ bad, refChecks s (u false) (cisternFmt s (s.getX a) (s.getX a)) [s.getX a] = bad → Runs (.mldc c a) s →
        (∀ k v, bad = some (k, v) → NoTrace s → Completes (.mldc c a) s (Trapped h k v s)) ∧
        (bad = none → Ungated s → held c.toNat → Completes (.mldc c a) s (TriedAgain s)) ∧
        (∀ v, bad = none → Ungated s → ¬ held c.toNat → race false = some v → NoTrace s → Completes (.mldc c a) s (Trapped h 0x0C v s)) ∧
        (bad = none → Ungated s → ¬ held c.toNat → race false = none → Completes (.mldc c a) s fun t =>
          WritesNone s t ∧ Passed 4 s t ∧ t.mem = s.mem ∧ (t.core core).tileHeld c.toNat s.cycle = true ∧
          Due (s.cycle + if r.core = core then 4 else 6 + 2 * hops core r.core) (.mldcPerform h c.toNat r) t)) ∧
      (∀ bad, refChecks s (u true) (cisternFmt s (s.getX a) 0) [s.getX a] = bad → Runs (.mstc c a) s →
        let codes (i : Nat) : List (Nat × Fl) := (lanesOf 32 (RowOf s core c.toNat i)).map (narrow r.fmt)
        let fls := orFl (((List.range 32).flatMap codes).map Prod.snd)
        (∀ k v, bad = some (k, v) → NoTrace s → Completes (.mstc c a) s (Trapped h k v s)) ∧
        (bad = none → Ungated s → ¬ TileFree s core c.toNat → Completes (.mstc c a) s (TriedAgain s)) ∧
        (bad = none → Ungated s → TileFree s core c.toNat →
          (∀ v, race true = some v → NoTrace s → Completes (.mstc c a) s (Trapped h 0x0C v s)) ∧
          (race true = none → fls &&& (s.thread h).fenable ≠ 0 → NoTrace s → Completes (.mstc c a) s fun t => Trapped h 9 (word fls.toNat) s t ∧
            (t.thread h).fflags = (s.thread h).fflags ||| fls) ∧
          (race true = none → fls &&& (s.thread h).fenable = 0 → Completes (.mstc c a) s fun t => WritesNone s t ∧ Passed 4 s t ∧ t.mem = s.mem ∧
            (t.thread h).fflags = (s.thread h).fflags ||| fls ∧
            ∀ i, i < 32 → Due (s.cycle + ((if r.core = core then 1 else 7 + 2 * hops core r.core) + i))
              (.wellStoreLand h r.core (r.off + i * r.stride) ((codes i).flatMap fun x => toBytes (fmtSize r.fmt) x.1) s.cycle) t))))

/-- R220, R222, R225, R226, R260: a row move is performed, and counted down a cycle later, which may let its thread leave VWAITC; MLDC reads
its rows at the bank, behind its thread's earlier well stores and its earlier accesses to those banks, and they are widened into the tile when they
are there; rows that hold an uncorrectable error raise cause 0x06 (R367). -/
def Sys2Proof.Spec.CisternSteps : Prop :=
  ∀ (s : State) (h : Nat), Rising (s.core (coreOf h)).cistern →
    let core := coreOf h
    (∀ id m, Takes (.cisternRowMove h id) s → (s.core core).moves = [(id, m)] → m.h = h → m.tile < 64 → m.performed = none →
      (s.moveWaits core id m = true → Completes .cisternRowMove s fun t => t = { s with agenda := t.agenda } ∧
        Due (s.cycle + 1) (.cisternRowMove h id) t) ∧
      (s.moveWaits core id m = false →
        (∀ row d, m.op = .load row d → Completes .cisternRowMove s fun t => (t.thread h).getV d.toNat = RowOf s core m.tile row ∧
          (∀ r, r < 32 → r ≠ d.toNat → (t.thread h).getV r = (s.thread h).getV r) ∧ (t.thread h).seq = (s.thread h).seq ∧
          Due (s.cycle + 1) (.cisternRowMove h id) t ∧ t.mem = s.mem) ∧
        (∀ f, (∃ row v, row < 32 ∧ m.op = .store row v ∧ f = fun i => if i = row then v else RowOf s core m.tile i) ∨
            (m.op = .zero ∧ f = fun _ => 0) ∨ (∃ src, m.op = .copy src ∧ f = RowOf s core src) →
          Completes .cisternRowMove s fun t => Due (s.cycle + 1) (.cisternRowMove h id) t ∧ t.mem = s.mem ∧ TileWritten s t core m.tile f))) ∧
    (∀ id m k, Takes (.cisternRowMove h id) s → (s.core core).moves = [(id, m)] → m.performed = some k → k < s.cycle →
      ((∃ row d, m.op = .load row d) ∨ (∃ row v, m.op = .store row v)) → (s.thread h).cwait ≠ 0 → Completes .cisternRowMove s fun t =>
        (t.thread h).cwait = (s.thread h).cwait - 1 ∧ (t.core core).moves = [] ∧
        (∀ n, BlockedFor h (.vwaitc n) s → Alone h s → (s.thread h).cwait.toNat ≤ n + 1 → PassedOf h 4 s t ∧ ReadyAt h (s.cycle + 1) t)) ∧
    (∀ tile r m, Takes (.mldcPerform h tile r) s → tile < 64 → (s.core core).mldc tile = some m →
      let again (t : State) : Prop := t = { s with agenda := t.agenda, waiting := t.waiting } ∧ Due (s.cycle + 1) (.mldcPerform h tile r) t
      let us := rowUnits r r.off r.rowBytes
      let behind := s.takeOut (.thread h) m.issued || s.storesOut h m.issued || s.banksBehind h us m.issued
      let locked := s.mustWait us false (s.reachedAt (.mldc core tile)) (orderKey h m.issued)
      let rows := (s.rowsAt r r.off r.rowBytes).map fun bs => pack 32 ((codesOf r.fmt bs).map (widen r.fmt))
      let lands (rows : List VReg) : Prop := (s.core core).lastCycle tile s.cycle = false →
        (∀ x, x ∈ (s.core core).moves → x.2.performed.isSome = true) → Completes .mldcPerform s fun t => t.mem = s.mem ∧
          (t.core core).tileHeld tile s.cycle = false ∧ TileWritten s t core tile (fun i => rows.getD i 0) ∧ Due s.cycle (.matrixStepStart core) t
      (m.rows = none → behind = true ∨ locked = true → Completes .mldcPerform s again) ∧
      (∀ va, m.rows = none → behind = false → locked = false → s.brokenSector us = some va → Alone h s → (s.thread h).born ≤ m.issued →
        ((s.thread h).run = .ready ∨ ∃ w, BlockedFor h w s) → NoTrace s → Completes .mldcPerform s fun t => Trapped h 6 va s t ∧
          (t.core core).tileHeld tile s.cycle = false ∧ t.mem = s.mem) ∧
      (m.rows = none → behind = false → locked = false → s.brokenSector us = none → r.core = core → lands rows) ∧
      (m.rows = none → behind = false → locked = false → s.brokenSector us = none → r.core ≠ core → Completes .mldcPerform s fun t => t.mem = s.mem ∧
        Due (s.cycle + 6 + 2 * hops core r.core) (.mldcPerform h tile r) t ∧ ((t.core core).mldc tile).map (·.rows) = some (some rows)) ∧
      (∀ rows, m.rows = some rows →
        ((s.core core).lastCycle tile s.cycle = true → Completes .mldcPerform s fun t => t.mem = s.mem ∧ Due (s.cycle + 1) (.mldcPerform h tile r) t ∧
          ((t.core core).mldc tile).map (·.rows) = some (some rows)) ∧ lands rows))

/-- The value of an element of an operand: of its format, or of the codebook (R104, R112). -/
def Sys2Proof.Spec.elementVal (fmt x : Nat) : FVal :=
  match fmtFloat fmt with
  | some f => f.val x
  | none =>
    let v : Int := [-64, -47, -36, -27, -20, -13, -6, 0, 6, 12, 19, 26, 34, 43, 53, 64].getD x 0
    .fin (decide (v < 0)) v.natAbs 64
/-- A finite value as a number. -/
def Sys2Proof.Spec.number : FVal → Rat
  | .fin g n d => mkRat (signedNum g n) d
  | _ => 0
/-- The factor m(c) × S of row i of an operand, where it has scales (R113, R216). -/
def Sys2Proof.Spec.factor (codes sups : List Nat) (i : Nat) : Rat :=
  match codes[i]?, sups[i]? with
  | some c, some p => mkRat (16 + c % 16) (32 * 2 ^ (c / 16)) * number (FF.f32.val p)
  | _, _ => 1
/-- The element that was old after a step with these products and this factor: special values first, then the exact sum, added with one rounding to
nearest, and its events (R111, R119, R215). -/
def Sys2Proof.Spec.stepElement (old : Nat) (ps : List FVal) (k : Rat) : Nat × Fl :=
  let sum : Rat := (ps.map number).foldl (· + ·) 0 * k
  let block : FVal :=
    if ps.contains .nan || ps.contains (.inf true) && ps.contains (.inf false) then .nan
    else if ps.contains (.inf true) then .inf true
    else if ps.contains (.inf false) then .inf false
    else .fin (decide (sum < 0) || ps.all fun p => p.isZero && p.sign) sum.num.natAbs sum.den
  let canonical : Nat := 0x7FC00000
  match FF.f32.val old, block with
  | .nan, b => (canonical, sigFl .f32 [old] ||| if b = .nan then flNV else 0)
  | _, .nan => (canonical, flNV)
  | .inf g, .inf p => if g = p then (FF.f32.inf g, 0) else (canonical, flNV)
  | .inf g, _ => (FF.f32.inf g, 0)
  | _, .inf p => (FF.f32.inf p, 0)
  | .fin g n d, .fin p m e =>
    let total : Rat := number (.fin g n d) + number (.fin p m e)
    if total = 0 then (FF.f32.zero (g && p), 0) else FF.f32.round (.fin (decide (total < 0)) total.num.natAbs total.den) 0

/-- R104, R112, R113, R119, R215, R217: the element (i, j) of a step. I8 products are summed and added modulo 2^32; for every other pair of R214 the
exact sum of the products, scaled, is added with one rounding, special values before it, and the tile's events are those of its elements; rows
outside the mask are as before. -/
def Obligations.MatrixStepValues : Prop :=
  (∀ (fa fb mask : Nat) (p : Prep) (sa sb : List Nat) (tile : List VReg) (i : Nat), i < tile.length → nbit mask i = false →
    (stepTile fa fb mask p sa sb tile).1.getD i 0 = tile.getD i 0) ∧
  (∀ (mask : Nat) (p : Prep) (as bs : List (List Byte)) (tile : List VReg) (i j : Nat), tile.length = 32 → as.length = 32 → bs.length = 32 →
    p.a = some as → p.b = some bs → i < 32 → j < 32 → nbit mask i = true → (as.getD i []).length = 48 → (bs.getD j []).length = 48 →
    let old : Nat := (tile.getD i 0).toNat / 2 ^ (32 * j) % 2 ^ 32
    let sum : Int := ((List.range 48).map fun k => ((as.getD i []).getD k 0).toInt * ((bs.getD j []).getD k 0).toInt).foldl (· + ·) 0
    ((stepTile 7 7 mask p [] [] tile).1.getD i 0).toNat / 2 ^ (32 * j) % 2 ^ 32 = (((old : Int) + sum) % 2 ^ 32).toNat) ∧
  (∀ (fa fb mask : Nat) (p : Prep) (sa sb : List Nat) (as bs : List (List Byte)) (tile : List VReg), (pairCycles fa fb).isSome = true → fa ≠ 7 →
    tile.length = 32 → as.length = 32 → bs.length = 32 → p.a = some as → p.b = some bs → (∀ r, r ∈ as → r.length = bytesOfElems fa 48) →
    (∀ r, r ∈ bs → r.length = bytesOfElems fb 48) → (∀ x, x ∈ sa ++ sb → superscaleOk x = true) →
    let old (i j : Nat) : Nat := (tile.getD i 0).toNat / 2 ^ (32 * j) % 2 ^ 32
    let products (i j : Nat) : List FVal := (List.range 48).map fun k =>
      (elementVal fa ((codesOf fa (as.getD i [])).getD k 0)).mul (elementVal fb ((codesOf fb (bs.getD j [])).getD k 0))
    let new (i j : Nat) : Nat × Fl := stepElement (old i j) (products i j) (factor p.codesA sa i * factor p.codesB sb j)
    let out := stepTile fa fb mask p sa sb tile
    (∀ i j, i < 32 → j < 32 → nbit mask i = true → (out.1.getD i 0).toNat / 2 ^ (32 * j) % 2 ^ 32 = (new i j).1) ∧
    out.2 = orFl ((List.range 32).flatMap fun i => if nbit mask i then (List.range 32).map fun j => (new i j).2 else [])) ∧
  (∀ (as bs : List FVal) (x : FVal × FVal → Int), (∀ y, y ∈ as.zip bs → ∃ g n, y.1.mul y.2 = .fin g n 1 ∧ x y = if g then -(n : Int) else (n : Int)) →
    (blockSum as bs).sum = ((as.zip bs).map x).foldl (· + ·) 0 ∧ (blockSum as bs).nan = false ∧ (blockSum as bs).pinf = false ∧ (blockSum as bs).ninf = false) ∧
  (∀ (x n d : Nat) (g a : Bool) (m e : Nat), FF.f32.val x = .fin a m e → (accumulate x (.fin g n d)) =
    FF.f32.round ((FVal.fin a m e).add 0 (.fin g n d)) 0)

/-- The matrix instruction of thread h is active, with the step SPWIDX to come. -/
def Sys2Proof.Spec.JobBegun (s t : State) (h tile steps mask : Nat) (a : Option TileRef) (b : TileRef) (l : Option Desc) : Prop :=
  BlockedFor h .matrix t ∧ t.pc = s.pc ∧ WritesNone s t ∧ t.mem = s.mem ∧ ∃ j, tfind (t.core (coreOf h)).jobs (slotOf h) = some j ∧ j.h = h ∧
    j.since = s.cycle ∧ j.tile = tile ∧ j.steps = steps ∧ j.mask = mask ∧ j.a = a ∧ j.b = b ∧ j.list = l ∧ j.next = (s.thread h).spwidx.toNat ∧ j.first = j.next
/-- R203, R204, R214, R219: MMA, MMA.m, MSPW and MSPW.m become active at the step that SPWIDX names, and MSPW's entries are fetched,
one a cycle; an instruction whose steps are all done clears SPWIDX and passes, in a gang once the other members have come to their ends (log 18); what
R213, R214 and R219 forbid traps. -/
def Sys2Proof.Spec.MatrixInstructions : Prop :=
  ∀ (s : State) (h : Nat) (c : BitVec 6) (b a d : Reg), s.cur = .thread h →
    let n := (s.thread h).spwidx.toNat
    let done (i : Instr) : Prop :=
      ((s.thread h).gang = none → ∃ t, exec i s = .next t ∧ (t.thread h).spwidx = 0 ∧ Passed 4 s t ∧ WritesNone s t ∧ ThreadOnly h s t) ∧
      ((s.thread h).gang ≠ none → ∃ t, exec i s = .next t ∧ BlockedFor h .matrix t ∧ t.pc = s.pc ∧ WritesNone s t ∧ ThreadAgenda h s t ∧
        Due s.cycle (.matrixStepEnd (coreOf h)) t)
    (∀ i masked, (i = .mma c b a d ∧ masked = false) ∨ (i = .mmaM c b a d ∧ masked = true) → Runs i s →
      let x := s.getX d
      (∀ k v, mmaCheck c masked b a d s = some (k, v) → NoTrace s → Completes i s (Trapped h k v s)) ∧
      (∀ da db, mmaCheck c masked b a d s = none → Ungated s → s.refDesc (s.getX a) = some da → s.refDesc (s.getX b) = some db →
        (n < wfield x 6 0 → ∃ t, exec i s = .next t ∧ JobBegun s t h (c.toNat + wfield x 13 8) (wfield x 6 0)
          (if masked then wfield x 63 32 else 2 ^ 32 - 1) (some (tileRefOf h da (s.getX a))) (tileRefOf h db (s.getX b)) none) ∧
        (wfield x 6 0 ≤ n → done i))) ∧
    (∀ i mask, (i = .mspw c b a ∧ mask = none) ∨ (i = .mspwM c b a d ∧ mask = some d) → Runs i s →
      (∀ k v, mspwCheck mask b a s = some (k, v) → NoTrace s → Completes i s (Trapped h k v s)) ∧
      (∀ l db, mspwCheck mask b a s = none → Ungated s → s.refDesc (s.getX a) = some l → s.refDesc (s.getX b) = some db →
        (n < l.dim0 → ∃ t, exec i s = .next t ∧ JobBegun s t h c.toNat l.dim0 (if mask = none then 2 ^ 32 - 1 else wfield (s.getX d) 31 0) none
            (tileRefOf h db (s.getX b)) (some l) ∧
          ∀ k, k < 8 → n + k < l.dim0 → Due (s.cycle + k) (.mspwEntryArrival h s.cycle (n + k)) t) ∧
        (l.dim0 ≤ n → done i)))
/-- R213, R214: what the checks of MMA refuse, in the order of the rule: its selector; reserved bits of a reference; an identifier that names
no tile tensor; the format pair. -/
def Sys2Proof.Spec.MatrixChecks : Prop :=
  ∀ (s : State) (c : BitVec 6) (masked : Bool) (b a d : Reg),
    let x := s.getX d
    let refs := [s.getX a, s.getX b]
    let id (w : Word) : Word := word (wfield w 63 56)
    let selector : Prop := wfield x 6 0 = 0 ∨ 64 < wfield x 6 0 ∨ wbit x 7 = true ∨ wfield x 31 14 ≠ 0 ∨ (masked = false ∧ wfield x 63 32 ≠ 0) ∨
      63 < c.toNat + wfield x 13 8
    (selector → mmaCheck c masked b a d s = some (2, x)) ∧
    (∀ w, ¬ selector → refs.find? (fun w => wfield w 47 20 ≠ 0) = some w → mmaCheck c masked b a d s = some (2, w)) ∧
    (¬ selector → (∀ w, w ∈ refs → wfield w 47 20 = 0) →
      (∀ w, refs.find? (fun w => (s.refDesc w).all fun e => 2 ≤ e.kind) = some w → mmaCheck c masked b a d s = some (2, id w)) ∧
      (∀ da db, s.refDesc (s.getX a) = some da → s.refDesc (s.getX b) = some db → da.kind < 2 → db.kind < 2 →
        (pairCycles da.fmt db.fmt = none → mmaCheck c masked b a d s = some (2, s.getX a)) ∧
        (mmaCheck c masked b a d s = none → da.nrows = 32 ∧ db.nrows = 32 ∧ (pairCycles da.fmt db.fmt).isSome = true)))

/-- R202-R205, R217, R279: a step that is ready starts when the engine is free, the one after the step served last first, and takes the
cycles of its format pair; at its end the tile is written, SPWIDX counts it, and the instruction retires with its last step, or goes on,
or stops where a park was requested; a step with an enabled event, a race and a held fault trap. (That a held fault is delivered also where a
stop has been asked for is log 20.) -/
def Sys2Proof.Spec.MatrixSteps : Prop :=
  ∀ (s : State) (c slot : Nat) (j : MatJob), tfind (s.core c).jobs slot = some j → slot < 4 → coreOf j.h = c → slotOf j.h = slot → Alone j.h s →
    let can (n : Nat) : Bool := (tfind (s.core c).jobs n).any fun j =>
      j.ready s.cycle && !(s.core c).tileHeld j.stepTileNo s.cycle && !(s.thread j.h).parkReq
    (∀ m, Takes (.matrixStepStart c) s → (∀ x, x ∈ (s.core c).jobs → x.2.trap = none ∧ (x.2.prep x.2.next).fault = none) →
      m < 4 → slot = ((s.core c).lastServed + 1 + m) % 4 → can slot = true → (∀ i, i < m → can (((s.core c).lastServed + 1 + i) % 4) = false) →
      (s.core c).running = none → (s.core c).halted = false → (∀ x, (s.core c).lastWrite = some x → x.2 ≠ s.cycle) →
      let race := (s.raceCheck c (s.thread j.h).ctx false (stepSegs j)).1
      (∀ n, race = none → pairCycles j.fmtA j.b.fmt = some n → ∃ t, exec .matrixStepStart s = .next t ∧
        (t.core c).running = some { slot := slot, idx := j.next, last := s.cycle + n - 1, tile := j.stepTileNo } ∧ (t.core c).lastServed = slot ∧
        Due (s.cycle + n - 1) (.matrixStepEnd c) t ∧ ∀ k, (t.thread k).seq = (s.thread k).seq ∧ (t.thread k).run = (s.thread k).run) ∧
      (∀ v, race = some v → NoTrace s → Completes .matrixStepStart s (Trapped j.h 0x0C v s))) ∧
    (Takes (.matrixStepStart c) s → (s.core c).jobs = [(slot, j)] → (s.core c).running = none → NoTrace s →
      (∀ v, j.trap = some v → Completes .matrixStepStart s fun t => Trapped j.h 9 v s t ∧ (t.core c).jobs = []) ∧
      (∀ cause v, j.trap = none → (j.prep j.next).fault = some (cause, v) → (j.prep j.next).faultAt < s.cycle →
        Completes .matrixStepStart s fun t => Trapped j.h cause v s t ∧ (t.core c).jobs = [])) ∧
    (∀ r, Takes (.matrixStepEnd c) s → (s.core c).running = some r → r.last ≤ s.cycle → r.slot = slot → r.tile < 64 → Rising (s.core c).cistern →
      Rising (s.core c).jobs → BlockedFor j.h .matrix s → j.trap = none → (∀ g, coreOf g = c → g ≠ j.h → s.matrixEnds g = false) →
      let out := stepTile j.fmtA j.b.fmt j.mask (j.prep r.idx) j.supA j.supB ((s.core c).cisTile r.tile)
      let on : Prop := out.2 &&& (s.thread j.h).fenable = 0
      let stays (t : State) : Prop := (t.thread j.h).spwidx = BitVec.ofNat 32 (r.idx + 1) ∧ (t.thread j.h).seq = (s.thread j.h).seq ∧
        BlockedFor j.h .matrix t ∧ Due (s.cycle + 1) (.matrixStepStart c) t
      ∃ t, exec .matrixStepEnd s = .next t ∧ TileWritten s t c r.tile (fun i => out.1.getD i 0) ∧
        (t.thread j.h).fflags = (s.thread j.h).fflags ||| out.2 ∧ (t.core c).running = none ∧ t.mem = s.mem ∧
        (on → r.idx + 1 < j.steps → stays t) ∧
        (on → j.steps ≤ r.idx + 1 → j.stop = false → (t.thread j.h).spwidx = 0 ∧ PassedOf j.h 4 s t ∧ ReadyAt j.h (s.cycle + 1) t ∧
          tfind (t.core c).jobs slot = none) ∧
        (on → j.stop = true → stays t) ∧
        (¬ on → stays t ∧ ∃ k, tfind (t.core c).jobs slot = some k ∧ k.trap = some (word (out.2.toNat + r.idx * 256))))

/-- What becomes of a fetch of ranges of a step at its homes, where the limits of R377 have let its lines in: it waits for the channel where a slice does not
hold a line, and cycle by cycle behind earlier accesses of its thread, an unready table or a lock; it meets data that cannot be read; or it is there, and reads what was written under its pages' keys. (The
cycles of the channel are log 1.) -/
def Sys2Proof.Spec.FetchedAt (s : State) (h : Nat) (j : MatJob) (idx kind : Nat) (l : List (Word × Nat)) (later : Nat → Prop) (bad : Word → Prop)
    (there : Prop) : Prop :=
  let at_ := s.linesAt h l
  let ls := dedup (at_.map Prod.fst)
  let misses : Prop := kind ∉ (j.prep idx).late ∧ ∃ k, k ∈ ls ∧ s.missesLine k = true
  let waits : Prop := s.fetchBehind h j.since ls = true ∨ (∃ x, x ∈ pagesIn l ∧ s.walkStalls (s.viewOf h) (word x.1) .read = true) ∨
    s.mustWait (ls.map .line) false (s.reachedAt (.operand h idx kind)) (orderKey h j.since) = true
  let lost := at_.find? fun x => s.unitDead (.line x.1) || s.unitBroken (.line x.1)
  ls.length ≤ tget 0 (j.prep idx).entered kind →
    (misses → later (420 - (ls.map (s.nearLatency (dieOf h))).foldl max 0)) ∧
    (¬ misses → waits → later 1) ∧
    (∀ x, ¬ misses → ¬ waits → lost = some x → bad x.2.1) ∧
    (¬ misses → ¬ waits → lost = none → (∀ x, x ∈ at_ → KeyFits s x.1 x.2.2 256) → there)

/-- R115, R196-R198, R204, R206-R210, R216, R219, R245, R260, R337, R367, R413: what prepares a step. Its operands and the scales of its operands are asked for, once
a TQTRY before it is answered. An operand that is fetched alone is read when it is due, after its
thread's earlier well stores and accesses to those banks; a request of a multicast group registers at its owner, or joins the one that waits there; a
launch gives every member the rows; a joined member counts the cycles that it waits for a fetcher that is not parked, and faults with cause 0x10 after
65,536; an entry of MSPW's list, and its A block, are read when their fetch is there, as are scale codes and superscales, of which the first bad one, A
before B, faults. (What the fetches of a step join and wait for ahead of its start is log 15; when an own operand is there, and that a step which meets a
fault of its scales checks no superscale, are log 20.) -/
def Sys2Proof.Spec.MatrixPreparation : Prop :=
  ∀ (s : State) (h : Nat) (j : MatJob), s.job h = some j →
    let cl := clusterOf h
    let faults (e : Instr) (idx c : Nat) (v : Word) : Prop := Completes e s fun t => t.mem = s.mem ∧ ∃ k, t.job h = some k ∧ (k.prep idx).fault = some (c, v)
    (∀ idx, Takes (.operandArrival h j.since idx) s → (j.prep idx).asked = false → (j.prep idx).fault = none → idx < j.steps →
      (j.list = none ∨ (j.prep idx).entry ≠ none) → (j.prep idx).codesAt = none → (j.prep idx).checkAt = none →
      (j.prep idx).aAt = none → (j.prep idx).bAt = none → (j.prep idx).a = none → (j.prep idx).b = none →
      let codes := codeRanges j idx
      let sups := if idx = j.first then supRanges j else []
      let mayRead : Prop := s.isCurrent j idx = true ∨ s.setsA h codes = false
      (¬ mayRead → Completes .operandArrival s fun t => t.job h = some j ∧ t.mem = s.mem) ∧
      (mayRead → s.takeOut (.thread h) j.since = true → Completes .operandArrival s fun t => t.job h = some j ∧ t.mem = s.mem ∧
        Due (s.cycle + 1) (.operandArrival h j.since idx) t) ∧
      (mayRead → s.takeOut (.thread h) j.since = false →
        (∀ e n, s.probe h (sups ++ codes) = .error (e, n) → faults .operandArrival idx e.cause e.va) ∧
        (∀ n m k, UnlimitedOf h s → s.probe h (sups ++ codes) = .ok n → s.probe h codes = .ok m → s.probe h sups = .ok k →
          (codes ≠ [] → 0 < m) → (sups ≠ [] → 0 < k) → Completes .operandArrival s fun t => t.mem = s.mem ∧ ∃ x, t.job h = some x ∧
            (x.prep idx).asked = true ∧
            (codes ≠ [] → (x.prep idx).codesAt = some (s.cycle + m) ∧ Due (s.cycle + m) (.operandArrival h j.since idx) t) ∧
            (sups ≠ [] → (x.prep idx).checkAt = some (s.cycle + k) ∧ Due (s.cycle + k) (.operandArrival h j.since idx) t) ∧
            ((x.prep idx).passed = ((j.prep idx).passed || decide (sups = []))) ∧
            let way (r : TileRef) : Nat := if r.core = coreOf h then ownCycles s h else 12 + 4 * hops (coreOf h) r.core
            (j.b.group = 0 → 0 < way j.b → (x.prep idx).bAt = some (s.cycle + way j.b) ∧ Due (s.cycle + way j.b) (.operandArrival h j.since idx) t) ∧
            (j.b.group ≠ 0 → (x.prep idx).regB = some (s.cycle + 6 + 2 * hops (coreOf h) j.b.core)) ∧
            ∀ r, j.a = some r →
              (r.group = 0 → 0 < way r → (x.prep idx).aAt = some (s.cycle + way r) ∧ Due (s.cycle + way r) (.operandArrival h j.since idx) t) ∧
              (r.group ≠ 0 → (x.prep idx).regA = some (s.cycle + 6 + 2 * hops (coreOf h) r.core))))) ∧
    (∀ idx isA r c, Takes (.operandArrival h j.since idx) s → (isA = true → j.a = some r) → (isA = false → r = j.b) → (j.prep idx).asked = true →
      let p := j.prep idx
      let off := if isA then MatJob.offA r idx else j.offB idx
      let us := rowUnits r off (bytesOfElems r.fmt 48)
      let waits : Prop := s.storesOut h j.since = true ∨ s.banksBehind h us j.since = true ∨
        s.mustWait us false (s.reachedAt (.operand h idx (if isA then 4 else 5))) (orderKey h j.since) = true
      (if isA then p.a else p.b) = none → (if isA then p.aAt else p.bAt) = some c → c ≤ s.cycle → (if isA then p.bAt else p.aAt) = none →
      p.checkAt = none → p.codesAt = none → p.fault = none →
      (waits → Completes .operandArrival s fun t => Due (s.cycle + 1) (.operandArrival h j.since idx) t ∧ t.mem = s.mem ∧ t.job h = some j) ∧
      (∀ va, ¬ waits → s.brokenSector us = some va → faults .operandArrival idx 6 va) ∧
      (¬ waits → s.brokenSector us = none → ∃ t, exec .operandArrival s = .next t ∧ Due s.cycle (.matrixStepStart (coreOf h)) t ∧ t.mem = s.mem ∧
        ∃ k, t.job h = some k ∧ (if isA then (k.prep idx).a else (k.prep idx).b) = some (s.rowsAt r off (bytesOfElems r.fmt 48)))) ∧
    (∀ idx e c, Takes (.operandArrival h j.since idx) s → j.a = none → (j.prep idx).asked = true → (j.prep idx).entry = some e → (j.prep idx).a = none →
      (j.prep idx).aAt = some c → c ≤ s.cycle → (j.prep idx).bAt = none → (j.prep idx).checkAt = none → (j.prep idx).codesAt = none →
      (j.prep idx).fault = none →
      FetchedAt s h j idx 1 [(e.blk, blockBytes j)]
        (fun n => Completes .operandArrival s fun t => t.mem = s.mem ∧ Due (s.cycle + n) (.operandArrival h j.since idx) t ∧
          ∃ k, t.job h = some k ∧ (k.prep idx).a = none ∧ (k.prep idx).aAt = some (s.cycle + n))
        (faults .operandArrival idx 6)
        (Completes .operandArrival s fun t => t.mem = s.mem ∧ ∃ k, t.job h = some k ∧
          (k.prep idx).a = some (splitRows (bytesOfElems j.fmtA 48) (s.peekVirt h e.blk (blockBytes j))))) ∧
    (∀ idx c, Takes (.operandArrival h j.since idx) s → (j.prep idx).asked = true → (j.prep idx).aAt = none → (j.prep idx).bAt = none →
      (j.prep idx).fault = none → c ≤ s.cycle →
      ((j.prep idx).codesAt = some c → (j.prep idx).checkAt = none →
        let read (r : TileRef) : List Nat :=
          if r.scaled then (List.range 32).map fun i => ofBytes (s.peekVirt h (word (r.scaleBase + i * ceilDiv r.dim0 48 + idx)) 1) else []
        FetchedAt s h j idx 2 (codeRanges j idx)
          (fun n => Completes .operandArrival s fun t => t.mem = s.mem ∧ Due (s.cycle + n) (.operandArrival h j.since idx) t ∧
            ∃ k, t.job h = some k ∧ (k.prep idx).codesAt = some (s.cycle + n))
          (faults .operandArrival idx 6)
          (Completes .operandArrival s fun t => t.mem = s.mem ∧ ∃ k, t.job h = some k ∧ (k.prep idx).codesAt = none ∧
            (k.prep idx).codesA = (j.a.map read).getD [] ∧ (k.prep idx).codesB = read j.b)) ∧
      ((j.prep idx).checkAt = some c → (j.prep idx).codesAt = none →
        let read (r : TileRef) : List Nat := if r.scaled then (List.range 32).map fun i => ofBytes (s.peekVirt h (supAddr r i) 4) else []
        let bad (r : TileRef) : Option Word := ((read r).findIdx? fun x => !superscaleOk x).map (supAddr r)
        FetchedAt s h j idx 3 (supRanges j)
          (fun n => Completes .operandArrival s fun t => t.mem = s.mem ∧ Due (s.cycle + n) (.operandArrival h j.since idx) t ∧
            ∃ k, t.job h = some k ∧ (k.prep idx).checkAt = some (s.cycle + n))
          (faults .operandArrival idx 6)
          ((∀ a v, j.a = some a → bad a = some v → faults .operandArrival idx 8 v) ∧
            (∀ v, (∀ a, j.a = some a → bad a = none) → bad j.b = some v → faults .operandArrival idx 8 v) ∧
            ((∀ a, j.a = some a → bad a = none) → bad j.b = none → Completes .operandArrival s fun t => t.mem = s.mem ∧
              ∃ k, t.job h = some k ∧ (k.prep idx).passed = true ∧ k.supA = (j.a.map read).getD [] ∧ k.supB = read j.b)))) ∧
    (∀ idx r, Takes (.multicastRegister h j.since idx) s → j.a = some r → (j.prep idx).a = none → (j.prep idx).regA = some s.cycle →
      (j.prep idx).regB = none → BlockedFor h .matrix s → (s.thread h).dbgStop = false →
      let key := s.mcastKey j { h := h, idx := idx, isA := true, pc := (s.thread h).seq.pc, instret := (s.thread h).instret }
      ((s.cluster cl).mcast = [] → ∃ t, exec .multicastRegister s = .next t ∧ t.mem = s.mem ∧ ∃ id x m, (t.cluster cl).mcast = [(id, x)] ∧
        x.members = [m] ∧ m.h = h ∧ m.idx = idx ∧ m.isA = true ∧ x.owner = r.core ∧ x.off = MatJob.offA r idx ∧ x.g = r.group) ∧
      (∀ id x f, (s.cluster cl).mcast = [(id, x)] → x.members = [f] → f.h ≠ h → sameFetch x key = true → s.memberOk x.ctx f = true →
        ∃ t, exec .multicastRegister s = .next t ∧ t.mem = s.mem ∧ (∃ n, Due n (.groupWatchdogExpiry h j.since) t) ∧
          ∃ m, (t.cluster cl).mcast = [(id, { x with members := [f, m] })] ∧ m.h = h ∧ m.idx = idx ∧ m.isA = true ∧ m.dog = 0)) ∧
    (∀ id x m, Takes (.multicastLaunch cl id) s → (s.cluster cl).mcast = [(id, x)] → x.members = [m] → m.h = h → m.isA = true → s.fetcherReady x = true →
      let us := (List.range 32).flatMap fun i => sectorsOf x.owner (x.off + i * x.stride) x.rowLen
      let waits : Prop := s.storesOut h j.since = true ∨ s.banksBehind h us j.since = true ∨
        s.mustWait us false (s.reachedAt (.mcast cl id)) (orderKey h j.since) = true
      (waits → Completes .multicastLaunch s fun t => Due (s.cycle + 1) (.multicastLaunch cl id) t ∧
        t = { s with agenda := t.agenda, waiting := t.waiting }) ∧
      (∀ va, ¬ waits → s.brokenSector us = some va → faults .multicastLaunch m.idx 6 va) ∧
      (¬ waits → s.brokenSector us = none → ∃ t, exec .multicastLaunch s = .next t ∧ (t.cluster cl).mcast = [] ∧ t.mem = s.mem ∧
        Due (s.cycle + 6 + 2 * hops x.owner (coreOf h)) (.operandArrival h j.since m.idx) t ∧
        ∃ k, t.job h = some k ∧ (k.prep m.idx).a = some ((List.range 32).map fun i => s.wellRead x.owner (x.off + i * x.stride) x.rowLen))) ∧
    (∀ id x f m, Takes (.groupWatchdogExpiry h j.since) s → (s.cluster cl).mcast = [(id, x)] → x.members = [f, m] → f.h ≠ h → m.h = h →
      s.memberOk x.ctx f = true →
      ((s.thread f.h).run = .parked → m.dog < 65536 → ∃ t, exec .groupWatchdogExpiry s = .next t ∧ Due (s.cycle + 1) (.groupWatchdogExpiry h j.since) t ∧
        (t.cluster cl).mcast = [(id, x)]) ∧
      ((s.thread f.h).run ≠ .parked → m.dog + 1 < 65536 → ∃ t, exec .groupWatchdogExpiry s = .next t ∧
        Due (s.cycle + 1) (.groupWatchdogExpiry h j.since) t ∧ (t.cluster cl).mcast = [(id, { x with members := [f, { m with dog := m.dog + 1 }] })]) ∧
      ((s.thread f.h).run ≠ .parked → m.dog + 1 = 65536 → (j.prep m.idx).fault = none → faults .groupWatchdogExpiry m.idx 0x10 (word f.h))) ∧
    (∀ idx l, Takes (.mspwEntryArrival h j.since idx) s → j.list = some l → (j.prep idx).entry = none → (j.prep idx).fault = none →
      let va := l.base + word (16 * idx)
      let current : Prop := s.isCurrent j idx = true ∨ s.setsA h [(va, 16)] = false
      ((j.prep idx).checkAt = none → s.takeOut (.thread h) j.since = true → Completes .mspwEntryArrival s fun t => t = { s with agenda := t.agenda } ∧
        Due (s.cycle + 1) (.mspwEntryArrival h j.since idx) t) ∧
      ((j.prep idx).checkAt = none → s.takeOut (.thread h) j.since = false →
        (¬ current → exec .mspwEntryArrival s = .next s) ∧
        (∀ e n, current → s.probe h [(va, 16)] = .error (e, n) → faults .mspwEntryArrival idx e.cause e.va) ∧
        (∀ n, current → UnlimitedOf h s → s.probe h [(va, 16)] = .ok n → ∃ t, exec .mspwEntryArrival s = .next t ∧
          Due (s.cycle + n) (.mspwEntryArrival h j.since idx) t ∧ ∃ k, t.job h = some k ∧ (k.prep idx).checkAt = some (s.cycle + n))) ∧
      (∀ c, (j.prep idx).checkAt = some c → c ≤ s.cycle →
        let bs := s.peekVirt h va 16
        FetchedAt s h j idx 0 [(va, 16)]
          (fun n => Completes .mspwEntryArrival s fun t => t.mem = s.mem ∧ Due (s.cycle + n) (.mspwEntryArrival h j.since idx) t ∧
            ∃ k, t.job h = some k ∧ (k.prep idx).entry = none ∧ (k.prep idx).checkAt = some (s.cycle + n))
          (faults .mspwEntryArrival idx 6)
          ((entryBad j (wordAt bs 0).toNat (wordAt bs 1) = true → faults .mspwEntryArrival idx 0x0F va) ∧
            (entryBad j (wordAt bs 0).toNat (wordAt bs 1) = false → ∃ t, exec .mspwEntryArrival s = .next t ∧ t.mem = s.mem ∧
              ∃ k, t.job h = some k ∧ (k.prep idx).entry = some { blk := wordAt bs 1, toff := (wordAt bs 0).toNat % 2 ^ 16, bidx := wfield (wordAt bs 0) 31 16 }))))

/-! ### Together -/

/-- Cisterns and the instructions that move rows. -/
def Obligations.Cisterns : Prop := CisternInstructions ∧ CisternSteps

/-- Matrix instructions, their steps, and what prepares them. -/
def Obligations.MatrixEngine : Prop := MatrixInstructions ∧ MatrixChecks ∧ MatrixSteps ∧ MatrixPreparation

/-! ### Copies -/

/-- R231-R233, R297-R299: CPY, CPYT and FILL hand their copy to the engine and pass; with 32 copies of the thread outstanding they wait; a
check that fails traps with its cause and value, and no copy begins. -/
def Sys2Proof.Spec.CopyInstructions : Prop :=
  ∀ (s : State) (h : Nat) (i : Instr) (k : CopyKind) (e f : BitVec 1) (b a d : Reg), s.cur = .thread h → Runs i s →
    ((i = .cpy e f b a d ∧ k = .cpy) ∨ (i = .cpyt e f b a d ∧ k = .cpyt) ∨ (i = .fill f b a d ∧ k = .fill ∧ e = 0)) →
    let r : CopyReq := { kind := k, dstWell := f = 1, srcWell := e = 1, dst := s.getX d, src := s.getX a, len := s.getX b, complete := (s.thread h).complete }
    (∀ c v, copyCheck s h r = some (c, v) → NoTrace s → Completes i s fun t => Trapped h c v s t ∧ t.copies = s.copies) ∧
    (copyCheck s h r = none → Ungated s →
      (32 ≤ s.copiesOf h → Completes i s (TriedAgain s)) ∧
      (∀ u, s.copiesOf h < 32 → acceptCopy s s.view h none (s.thread h).node r = .ok u → Completes i s fun t => WritesNone s t ∧ Passed 4 s t ∧ t.mem = u.mem ∧
        ∃ id c, tfind t.copies id = some c ∧ c.kind = k ∧ c.h = h ∧ c.dst = r.dst ∧ c.src = r.src ∧ c.len = r.len.toNat ∧ c.dstWell = r.dstWell ∧
          c.srcWell = r.srcWell ∧ c.complete = r.complete ∧ c.off = 0 ∧ c.node = none ∧ (k ≠ .cpyt → Unlimited s → Due c.t0 (.copyPiece id) t)) ∧
      (∀ c v, s.copiesOf h < 32 → acceptCopy s s.view h none (s.thread h).node r = .error (c, v) → NoTrace s → Completes i s fun t =>
        Trapped h c v s t ∧ t.copies = s.copies))

/-- R260, R300, R301, R380, R413: the engine reads a copy piece by piece, none across a 64-byte unit of the destination, and writes each at its
destination, once no lock stops it; when all is written the counter is increased by 1, and COMPLETE's bit 0 asks for a message, with the
slot of the thread that issued it; an end by a fault always posts one. (That a piece beyond a link that cannot recover ends the copy with
cause 0x06 is log 17.) -/
def Sys2Proof.Spec.CopyEngine : Prop :=
  ∀ (s : State) (id : Nat) (c : Copy), tfind s.copies id = some c → Rising s.copies →
    let locked (us : List LockUnit) (write : Bool) : Bool := s.mustWait us write (s.reachedAt (.copy id write)) (orderKey c.h c.sent)
    let n := min (64 - (c.dst.toNat + c.off) % 64) (c.len - c.off)
    let src := c.src + word c.off
    (Takes (.copyPiece id) s → c.stop = false → c.ended = none → c.pipe = [] → c.off < c.len → c.t0 ≤ s.cycle → s.copyFrozen c = false →
      c.dstWell = true → c.kind ≠ .cpyt → c.held = false → s.takeOut (.thread c.h) c.sent = false →
      let reads (bs : List Byte) : Prop := Completes .copyPiece s fun t => t.mem = s.mem ∧ (∀ g, (t.core g).well = (s.core g).well) ∧
        (∃ m, Due m (.copyPiece id) t) ∧
        tfind t.copies id = some
          { c with off := c.off + n, t0 := s.cycle + 1, dram := c.reached 0, entered := c.entered.filter (· = 0), pipe := [(s.cycle + c.ld, c.off, bs, 0, 0)] }
      let us := sectorsOf (wellCore c.h c.src) (wellOff c.src + c.off) n
      (c.kind = .fill → reads ((List.range n).map fun i => (toBytes 8 c.src.toNat).getD ((c.off + i) % 8) 0)) ∧
      (c.kind = .cpy → c.srcWell = true →
        (locked us false = false → reads (s.wellRead (wellCore c.h c.src) (wellOff c.src + c.off) n)) ∧
        (locked us false = true → Completes .copyPiece s fun t => t.mem = s.mem ∧ t.cores = s.cores ∧ tfind t.copies id = some c ∧
          Due (s.cycle + 1) (.copyPiece id) t)) ∧
      (∀ p k, c.kind = .cpy → c.srcWell = false → src.toNat % 4096 + n ≤ 4096 → s.translate (copyView c) src .read = .ok p k →
        c.entered.contains 1 = true → s.missesLine p.key = false → s.onDeadLink p.key = false → locked (linesOf p.key n) false = false → reads (s.readBytes p.key p.ks n))) ∧
    (∀ due o bs key ks, Takes (.copyPiece id) s → c.ended = none → c.pipe = [(due, o, bs, key, ks)] → due ≤ s.cycle → c.len ≤ c.off →
      counterAddr c.complete = 0 → c.kind ≠ .cpyt → c.held = false →
      let w := wellCore c.h c.dst
      let us := sectorsOf w (wellOff c.dst + o) bs.length
      (c.dstWell = true → locked us true = false → Memory.wf (s.core w).well = true → Completes .copyPiece s fun t => t.mem = s.mem ∧
        Due s.cycle (.copyComplete id) t ∧ BytesWritten (s.core w).well (t.core w).well (wellOff c.dst + o) bs) ∧
      (c.dstWell = true → locked us true = true → Completes .copyPiece s fun t => t.mem = s.mem ∧ t.cores = s.cores ∧ tfind t.copies id = some c ∧
        Due (s.cycle + 1) (.copyPiece id) t) ∧
      (c.dstWell = false → c.entered.contains 0 = true → c.dram.contains 1 = true ∨ s.missesLine key = false →
        (s.onDeadLink key = false → locked (linesOf key bs.length) true = false → KeyFits s key ks bs.length → PlainBytes s key bs.length →
          Memory.wf s.mem = true → Completes .copyPiece s fun t => BytesWritten s.mem t.mem key bs ∧ Due s.cycle (.copyComplete id) t) ∧
        (s.onDeadLink key = true → Completes .copyPiece s fun t => t.mem = s.mem ∧ (∃ m, Due m (.copyComplete id) t) ∧
          ∃ x, tfind t.copies id = some x ∧ x.ended = some (6, o, c.dst + word o)))) ∧
    (Takes (.copytRead id) s → UnlimitedOf c.h s → Completes .copytRead s fun t => t.mem = s.mem ∧ TileBegun s t c.h true c.dsegs c.buf (.copyWrite id) c.ld) ∧
    (Takes (.copytWrite id) s → counterAddr c.complete = 0 → Completes .copytWrite s fun t => Due s.cycle (.copyComplete id) t ∧ t.mem = s.mem) ∧
    (Takes (.copyComplete id) s → counterAddr c.complete = 0 → Completes .copyComplete s fun t => tfind t.copies id = none ∧ t.mem = s.mem ∧
      (c.node = none → c.ended = none → wbit c.complete 0 = true →
        Due s.cycle (.inboxMessageArrival c.core c.ctx { w0 := msgWord0 1 0 (slotOf c.h) c.len, w1 := c.dst }) t) ∧
      (∀ e o va, c.node = none → c.ended = some (e, o, va) →
        Due s.cycle (.inboxMessageArrival c.core c.ctx { w0 := msgWord0 1 e (slotOf c.h) o, w1 := va }) t) ∧
      (∀ q, c.node = some q → c.ended = none → Due s.cycle (.nodeComplete c.ctx q 15) t)) ∧
    (∀ p k, Takes (.copyComplete id) s → counterAddr c.complete ≠ 0 → s.translate (copyView c) (counterAddr c.complete) .write = .ok p k →
      c.dram.contains 2 = true ∨ s.missesLine p.key = false →
      (locked (linesOf p.key 8) true = true → Completes .copyComplete s fun t => tfind t.copies id = some c ∧ t.mem = s.mem ∧
        Due (s.cycle + 1) (.copyComplete id) t) ∧
      (locked (linesOf p.key 8) true = false → KeyFits s p.key p.ks 8 → PlainBytes s p.key 8 → Memory.wf s.mem = true →
        Completes .copyComplete s fun t => tfind t.copies id = none ∧ BytesWritten s.mem t.mem p.key (toBytes 8 (s.readNat p.key p.ks 8 + 1))))

/-! ### Near-bank commands -/

/-- The parts of a near-bank instruction: operation, number of sources, rb, ra, rd. -/
def Sys2Proof.Spec.bankOf : Instr → Option (BkOp × Nat × Reg × Reg × Reg)
  | .bkCpy b a d => some (.cpy, 1, b, a, d)
  | .bkFil b a d => some (.fil, 0, b, a, d)
  | .bkAnd b a d => some (.and, 2, b, a, d)
  | .bkOr b a d => some (.or, 2, b, a, d)
  | .bkXor b a d => some (.xor, 2, b, a, d)
  | .bkNot b a d => some (.not, 1, b, a, d)
  | .bkMaj b a d => some (.maj, 3, b, a, d)
  | _ => none
/-- R305, R306, R326, R327: a near-bank instruction answers its command's status; with status 0, the command is on its way to the unit, or
waits while eight of the thread's are not done; a register range that does not exist, and a page that fails, trap. It waits until its
translations are known. -/
def Sys2Proof.Spec.NearBankInstructions : Prop :=
  ∀ (s : State) (h : Nat) (i : Instr) (op : BkOp) (n : Nat) (b a d : Reg), s.cur = .thread h → bankOf i = some (op, n, b, a, d) → Runs i s →
    let fits : Prop := 2 ≤ n → b ≠ 0 ∧ b.toNat + n ≤ 32
    let good (ps : List Phys) (m : Nat) : Prop := ps.length = m ∧ ∀ k, k < m → ∃ p, ps[k]? = some p ∧ s.translate s.view (s.getX (regPlus b k)) .read = .ok p 0
    (¬ fits → NoTrace s → Completes i s (Trapped h 2 (b.zeroExtend 64) s)) ∧
    (fits → Ungated s →
      (∀ ps m c, m < n → good ps m → s.translate s.view (s.getX (regPlus b m)) .read = .fault c → NoTrace s →
        Completes i s (Trapped h c (s.getX (regPlus b m)) s)) ∧
      (∀ ps c, good ps n → s.translate s.view (s.getX a) .write = .fault c → NoTrace s → Completes i s (Trapped h c (s.getX a) s)) ∧
      (∀ ps dp, good ps n → s.translate s.view (s.getX a) .write = .ok dp 0 →
        let ss := (List.range n).map fun k => s.getX (regPlus b k)
        let st := bankStatus (dp :: ps) (s.getX a) ss (s.getX d)
        (st = 0 → 8 ≤ s.banksOf h → Completes i s (TriedAgain s)) ∧
        (st ≠ 0 ∨ s.banksOf h < 8 → Completes i s fun t => Writes s t d (word st) ∧ Passed 4 s t ∧ t.mem = s.mem ∧ (st ≠ 0 → t.bks = s.bks) ∧
          (st = 0 → Unlimited s → ∃ id x, tfind t.bks id = some x ∧ x.op = op ∧ x.h = h ∧ x.d = dp.key ∧ x.dKey = dp.ks ∧ x.dVa = s.getX a ∧ x.len = (s.getX d).toNat ∧
            x.srcs = ps.map (fun p => (p.key, p.ks)) ∧ x.pattern = s.getX b ∧ x.started = false ∧ x.entered = false ∧ x.marks = bankMarks dp.key (ps.map (·.key)) x.len ∧
            Due (s.cycle + 100) (.bkProbeStart id) t))) ∧
      (∀ ps dp k, good ps n → s.translate s.view (s.getX a) .write = .ok dp k → 0 < k → Completes i s fun t => BlockedFor h .walk t ∧ t.pc = s.pc ∧
        WritesNone s t ∧ t.bks = s.bks ∧ t.mem = s.mem ∧ Due (s.cycle + k) (.tlbWalkComplete h (s.getX a) .write) t))

/-- The bytes of lines, which are written as each one's key has it and as its slice holds it. -/
abbrev Sys2Proof.Spec.KeysFit (s : State) (key ks n : Nat) : Prop := key % 256 = 0 ∧ ∀ k, 256 * k < n → KeyFits s (key + 256 * k) ks 256
/-- R259, R260, R307, R309, R321-R323, R326, R337, R377: a command that its channel's limit lets in, behind a TQTRY of its thread, is probed: the probe marks its
lines, each once no lock and no earlier request stops it;
the command then starts with its sources as they stand; each step writes its part of the result; after the last one the command posts its
message. -/
def Sys2Proof.Spec.NearBankSteps : Prop :=
  ∀ (s : State) (id : Nat) (b : Bk), s.bks = [(id, b)] →
    let reached := if b.reqAt = 0 then s.cycle else b.reqAt
    let key := orderKey b.h b.sent
    let take := s.takeOut (.thread b.h) b.sent
    (Takes (.bkProbeStart id) s → b.entered = false → s.limitAt (160 + b.chan) ((s.partOfChan b.chan).getD 0) = 0 → Completes .bkProbeStart s fun t =>
      t.bks = [(id, { b with entered := true })] ∧ Due s.cycle (.bkProbeStart id) t ∧ t.mem = s.mem) ∧
    (Takes (.bkProbeStart id) s → b.entered = true → take = true → Completes .bkProbeStart s fun t => t = { s with agenda := t.agenda } ∧
      Due (s.cycle + 1) (.bkProbeStart id) t) ∧
    (∀ m rest, Takes (.bkProbeStart id) s → b.entered = true → take = false → b.marks = m :: rest →
      s.pruneLocks.lockStops (.line m.1) m.2 (some id) = true ∨ s.earlierWaits (.line m.1) m.2 reached key (some id) = true →
      Completes .bkProbeStart s fun t => t.mem = s.mem ∧ t.bks = [(id, { b with reqAt := reached })] ∧ Due (s.cycle + 1) (.bkProbeStart id) t ∧
        t.locks = s.pruneLocks.locks) ∧
    (Takes (.bkProbeStart id) s → b.entered = true → take = false → s.locks = [] → (b.marks.map Prod.fst).Nodup →
      (∀ m r, m ∈ b.marks → r = reached ∨ r = s.cycle → s.earlierWaits (.line m.1) m.2 r key (some id) = false) →
      Completes .bkProbeStart s fun t => t.mem = s.mem ∧
        (∀ m, m ∈ b.marks → ∃ l, l ∈ t.locks ∧ l.unit = .line m.1 ∧ l.excl = m.2 ∧ l.acc = id ∧ l.until_ = none) ∧
        t.bks = [(id, { b with marks := [], snap := b.srcs.map (fun x => s.readBytes x.1 x.2 b.len), started := true, t0 := s.cycle })] ∧
        Due (s.cycle + (b.lead + b.cost - 1)) (.bkStep id) t) ∧
    (Takes (.bkStep id) s → KeysFit s (b.d + (b.part b.step).1) b.dKey (b.part b.step).2 → Memory.wf s.mem = true → Completes .bkStep s fun t =>
      BytesWritten s.mem t.mem (b.d + (b.part b.step).1) ((List.range (b.part b.step).2).map fun i => b.byteAt ((b.part b.step).1 + i)) ∧
      t.bks = [(id, { b with step := b.step + 1 })] ∧ (∀ g, t.thread g = s.thread g) ∧
      (b.step + 1 < b.steps → Due (s.cycle + b.cost) (.bkStep id) t) ∧ (b.steps ≤ b.step + 1 → Due (s.cycle + 21) (.bkComplete id) t)) ∧
    (Takes (.bkComplete id) s → Completes .bkComplete s fun t => t.bks = [] ∧ t.mem = s.mem ∧
      Due s.cycle (.inboxMessageArrival (coreOf b.h) b.ctx { w0 := msgWord0 2 0 (slotOf b.h) (if b.fast then 0 else 1), w1 := b.dVa }) t)

/-! ### Pumps -/

/-- R246, R313, R314: OVLD and OVLD.go send their request to the pump and wait for its status; what R314 and the image's page refuse traps. (That the
request is at the pump halfway through its 110 cycles is log 1.) -/
def Sys2Proof.Spec.OverlayInstructions : Prop :=
  ∀ (s : State) (h : Nat) (b a d : Reg), s.cur = .thread h →
    let w := s.getX b
    let va := s.getX a
    let sent (i : Instr) (go : Bool) (entry : Nat) (arg : Word) (addr key n : Nat) : Prop :=
      Completes i s fun t => BlockedFor h .ovld t ∧ t.pc = s.pc ∧ WritesNone s t ∧ t.mem = s.mem ∧ ∃ r, Due (s.cycle + 55 + n) (.ovldAccept r) t ∧
        r.h = h ∧ r.rd = d ∧ r.chan = wfield w 8 0 ∧ r.handle = wfield w 31 16 ∧ r.go = go ∧ r.entry = entry ∧ r.arg = arg ∧ r.addr = addr ∧ r.key = key ∧
        r.sent = s.cycle + n ∧ r.late = 0
    (∀ i go, (i = .ovld b a d ∧ go = false) ∨ (i = .ovldGo b a d ∧ go = true) → Runs i s → NoTrace s →
      ∀ k v, targetCheck go w s = some (k, v) → Completes i s (Trapped h k v s)) ∧
    (Runs (.ovld b a d) s → targetCheck false w s = none →
      (va.toNat % 4096 ≠ 0 → NoTrace s → Completes (.ovld b a d) s (Trapped h 4 va s)) ∧
      (va.toNat % 4096 = 0 → Ungated s →
        (∀ c, s.translate s.view va .read = .fault c → NoTrace s → Completes (.ovld b a d) s (Trapped h c va s)) ∧
        (∀ p n, s.translate s.view va .read = .ok p n → sent (.ovld b a d) false (wfield w 43 32) va p.key p.ks n))) ∧
    (Runs (.ovldGo b a d) s → targetCheck true w s = none → Ungated s → sent (.ovldGo b a d) true (wfield w 43 32) va 0 0 0)

/-- R311-R318, R324: what a pump does with requests and launches. A load answers status 1 if a queued launch names the slot's handle, and
0 otherwise; a launch is queued with status 0, or refused with status 3 when eight are; a loaded head of the queue starts its kernel
at its entry, and one without an image ends with status 2; an end is reported once the kernel's accesses are performed; a kernel whose
context waits to be saved for 2^20 cycles faults with cause 0x10; the zero fill takes 48 cycles a row. A launch for a context that is being saved or
is saved is kept with what the save has taken off the queues (R319); an image that cannot be read raises cause 0x06 (R367, R380). (That locks on the
launch page are waited for is R260; the place of a report among waiting requests is log 21.) -/
def Sys2Proof.Spec.PumpSteps : Prop :=
  ∀ (s : State) (c : Nat),
    let p := s.pump c
    (∀ r, Takes (.ovldAccept r) s → r.chan = c → s.cycle ≤ r.sent + r.late + 110 →
      let k := p.loadingSlot
      let named : Prop := (p.ovl k).state ≠ .empty ∧ p.queue.any (·.handle = (p.ovl k).handle) = true
      let lost : Prop := s.onDeadLink r.addr = true ∨ ∃ u, u ∈ linesOf r.addr 4096 ∧ s.unitBroken u = true
      let locked := s.mustWait (linesOf r.addr 4096) false (s.reachedAt (.image r.h)) (orderKey r.h r.sent)
      let kept : Prop := ∃ x, s.ctx (s.thread r.h).ctx = some x ∧ (x.phase = .saving ∨ x.phase = .saved ∨ x.phase = .restoring)
      (r.go = false → ¬ named → lost → Alone r.h s → (s.thread r.h).born ≤ r.sent → BlockedFor r.h .ovld s → NoTrace s → Completes .ovldAccept s fun t =>
        Trapped r.h 6 r.arg s t ∧ t.pumps = s.pumps ∧ t.mem = s.mem) ∧
      (r.go = false → ¬ named → ¬ lost → locked = true → Completes .ovldAccept s fun t => t.pumps = s.pumps ∧ t.mem = s.mem ∧
        Due (s.cycle + 1) (.ovldAccept { r with late := r.late + 1 }) t) ∧
      (r.go = false → ¬ named → ¬ lost → locked = false → Completes .ovldAccept s fun t => Due (r.sent + r.late + 110) (.ovldStatus r 0) t ∧
        (s.cycle ≤ r.sent + r.late + 520 → Due (r.sent + r.late + 520) (.overlayLoaded c k r.handle) t) ∧ ((t.pump c).ovl k).state = .loading ∧
        ((t.pump c).ovl k).handle = r.handle ∧ ((t.pump c).ovl k).image = s.readBytes r.addr r.key 4096 ∧ t.mem = s.mem) ∧
      (r.go = false → named → Completes .ovldAccept s fun t => Due (r.sent + r.late + 110) (.ovldStatus r 1) t ∧ t.pumps = s.pumps) ∧
      (r.go = true → r.late = 0 → p.queue.length < 8 → kept → Completes .ovldAccept s fun t => Due (r.sent + 110) (.ovldStatus r 0) t ∧
        t.pumps = s.pumps ∧ ∃ l, (t.ctx (s.thread r.h).ctx).bind (fun x => x.saved.map (·.launches.getLast?)) = some (some (c, l)) ∧ l.handle = r.handle) ∧
      (r.go = true → r.late = 0 → p.queue.length < 8 → ¬ kept → Completes .ovldAccept s fun t => Due (r.sent + 110) (.ovldStatus r 0) t ∧
        Due s.cycle (.kernelLaunchStart c) t ∧ ∃ l, (t.pump c).queue = p.queue ++ [l] ∧ l.handle = r.handle ∧ l.entry = r.entry ∧ l.arg = r.arg ∧
          l.rel = some (r.h, r.sent)) ∧
      (r.go = true → r.late = 0 → 8 ≤ p.queue.length → Completes .ovldAccept s fun t => Due (r.sent + 110) (.ovldStatus r 3) t ∧ t.pumps = s.pumps)) ∧
    (∀ r st, Takes (.ovldStatus r st) s → BlockedFor r.h .ovld s → Completes .ovldStatus s fun t => WritesOf r.h s t r.rd (word st) ∧
      PassedOf r.h 4 s t ∧ ReadyAt r.h s.cycle t ∧ t.mem = s.mem ∧ ∀ g, g ≠ r.h → t.thread g = s.thread g) ∧
    (∀ k handle, Takes (.overlayLoaded c k handle) s → k < 2 → (p.ovl k).state = .loading → (p.ovl k).handle = handle → Completes .overlayLoaded s fun t =>
      ((t.pump c).ovl k).state = .loaded ∧ ((t.pump c).ovl k).image = (p.ovl k).image ∧ Due s.cycle (.kernelLaunchStart c) t) ∧
    (∀ l rest, Takes (.kernelLaunchStart c) s → p.ended = [] → p.kernel = none → p.queue = l :: rest →
      let waits : Prop := ∃ h began, l.rel = some (h, began) ∧ s.releaseDone (.thread h) began 4 = false
      (∀ k, p.slotOf l.handle .loaded = some k → ¬ waits → Completes .kernelLaunchStart s fun t => (t.pump c).kernel = some (l, k) ∧
        (t.pump c).seq.pc = word l.entry ∧ ((t.pump c).ovl k).state = .running ∧ (t.pump c).queue = rest ++ p.dispatch.take (8 - rest.length) ∧
        ∀ r, (t.pump c).seq.get r = if r = 1 then l.arg else if r = 2 then word c else 0) ∧
      (∀ k, p.slotOf l.handle .loaded = some k → waits → Completes .kernelLaunchStart s fun t => Due (s.cycle + 1) (.kernelLaunchStart c) t ∧
        (t.pump c).kernel = none ∧ (t.pump c).queue = p.queue) ∧
      (p.slotOf l.handle .loaded = none → p.slotOf l.handle .loading = none → Completes .kernelLaunchStart s fun t => (t.pump c).kernel = none ∧
        (t.pump c).ended = [{ launch := l, status := 2, val := 0 }] ∧ Due s.cycle (.kernelLaunchStart c) t) ∧
      (p.slotOf l.handle .loaded = none → (p.slotOf l.handle .loading).isSome = true → Completes .kernelLaunchStart s fun t =>
        (t.pump c).kernel = none ∧ (t.pump c).queue = p.queue)) ∧
    (∀ e, Takes (.kernelLaunchStart c) s → p.ended = [e] → p.queue = [] →
      (s.anyOut (.pump c) e.from_ e.before = true → Completes .kernelLaunchStart s fun t => (t.pump c).ended = [e] ∧
        Due (s.cycle + 1) (.kernelLaunchStart c) t ∧ t.mem = s.mem) ∧
      (s.anyOut (.pump c) e.from_ e.before = false →
        (e.launch.page = none → e.launch.node = none → Completes .kernelLaunchStart s fun t => (t.pump c).ended = [] ∧ t.mem = s.mem ∧
          Due s.cycle (.inboxMessageArrival e.launch.core e.launch.ctx { w0 := msgWord0 4 e.status 0 (c + e.launch.handle * 2 ^ 16), w1 := e.val }) t) ∧
        (∀ q, e.launch.page = none → e.launch.node = some q → e.status = 0 → Completes .kernelLaunchStart s fun t => (t.pump c).ended = [] ∧
          Due s.cycle (.nodeComplete e.launch.ctx q 15) t) ∧
        (∀ a, e.launch.page = some a → s.mustWait (dedup (linesOf a 32)) true (s.reachedAt (.page c)) (orderKey 4095 0) = true →
          Completes .kernelLaunchStart s fun t => (t.pump c).ended = [e] ∧ Due (s.cycle + 1) (.kernelLaunchStart c) t ∧ t.mem = s.mem) ∧
        (∀ a, e.launch.page = some a → s.mustWait (dedup (linesOf a 32)) true (s.reachedAt (.page c)) (orderKey 4095 0) = false →
          PlainBytes s (a + 16) 16 → Memory.wf s.mem = true → e.status < 2 ^ 64 → Completes .kernelLaunchStart s fun t => (t.pump c).ended = [] ∧
            BytesWritten s.mem t.mem (a + 16) (toBytes 8 ((ofBytes (memRead s.mem (a + 16) 8) + 1) % 2 ^ 64) ++ toBytes 8 e.status)))) ∧
    (∀ l, Takes (.launchPageQueue c l) s → (∀ x, s.ctx l.ctx = some x → x.phase ≠ .saving ∧ x.phase ≠ .saved ∧ x.phase ≠ .restoring) → Completes .launchPageQueue s fun t =>
      (t.pump c).queue = p.queue ++ (p.dispatch ++ [l]).take (8 - p.queue.length) ∧
      (t.pump c).dispatch = (p.dispatch ++ [l]).drop (8 - p.queue.length) ∧ Due s.cycle (.kernelLaunchStart c) t) ∧
    (∀ l k n, Takes (.pumpKernelSaveTimeout c) s → p.kernel = some (l, k) → k < 2 → p.saveReq = some n → n + 2 ^ 20 ≤ s.cycle → Completes .pumpKernelSaveTimeout s fun t =>
      (t.pump c).kernel = none ∧ (t.pump c).ended = p.ended ++ [{ launch := l, status := 0x10, val := 0, from_ := p.since, before := s.cycle }] ∧
      ((t.pump c).ovl k).state = .loaded ∧
      Due s.cycle (.inboxMessageArrival (p.ovl k).owner (p.ovl k).ctx { w0 := msgWord0 5 0x10 0 (p.seq.pc.toNat % 4096 + c * 2 ^ 12), w1 := 0 }) t) ∧
    (Takes (.zeroFillStep c) s → p.fill ≠ 0 → Completes .zeroFillStep s fun t => (t.pump c).fill = p.fill - 1 ∧ t.mem = s.mem ∧
      (p.fill ≠ 1 → Due (s.cycle + 48) (.zeroFillStep c) t))

/-- R318, R330-R333: PRD sends its reads and waits; PWR and PPUSH send their writes and pass, a push into a well as one tile access; PEND
ends the kernel with x2, once its accesses are performed. What R331 and R332 refuse ends the kernel with its cause. -/
def Sys2Proof.Spec.PumpInstructions : Prop :=
  ∀ (s : State) (c : Nat) (b a d : Reg), s.cur = .pump c →
    let n := (s.getX b).toNat
    let bs := memRead (s.pump c).buf (s.getX d).toNat n
    let asks (t : State) (l : List (Nat × Nat × Nat × Nat)) (op : Nat → Nat → FarOp) : Prop :=
      ∀ x, x ∈ l → ∃ due r, Due due (.farAccessPerform r) t ∧ r.pump = some c ∧ r.addr = x.1 ∧ r.key = x.2.1 ∧ r.op = op x.2.2.1 x.2.2.2
    let well := wbit (s.getX a) 63
    let most : Nat := if well then 8192 else 0x8000
    (Runs (.prd b a d) s →
      (∀ k v, bufferCheck b a d (fun _ => 0x8000) s = some (k, v) → exec (.prd b a d) s = .next (pumpFault c k v s)) ∧
      (bufferCheck b a d (fun _ => 0x8000) s = none → s.pumpWrites c = true ∨ s.pumpStalls .read (s.getX a) n = true →
        Completes (.prd b a d) s (TriedAgain s)) ∧
      (∀ e u, bufferCheck b a d (fun _ => 0x8000) s = none → s.pumpWrites c = false → s.pumpStalls .read (s.getX a) n = false → s.pumpRuns .read (s.getX a) n = (.error e, u) →
        exec (.prd b a d) s = .next (pumpFault c e.cause e.va u)) ∧
      (∀ l w u, bufferCheck b a d (fun _ => 0x8000) s = none → s.pumpWrites c = false → s.pumpStalls .read (s.getX a) n = false → s.pumpRuns .read (s.getX a) n = (.ok (l, w), u) →
        Completes (.prd b a d) s fun t => (t.pump c).blocked = true ∧ t.pc = s.pc ∧ t.mem = u.mem ∧
          asks t l fun o k => .pumpRead ((s.getX d).toNat + o) k)) ∧
    (∀ i, i = .pwr b a d ∨ (i = .ppush b a d ∧ well = false) → Runs i s →
      (∀ k v, bufferCheck b a d (fun _ => 0x8000) s = some (k, v) → exec i s = .next (pumpFault c k v s)) ∧
      (bufferCheck b a d (fun _ => 0x8000) s = none → s.pumpStalls .write (s.getX a) n = true → Completes i s (TriedAgain s)) ∧
      (∀ e u, bufferCheck b a d (fun _ => 0x8000) s = none → s.pumpStalls .write (s.getX a) n = false → s.pumpRuns .write (s.getX a) n = (.error e, u) →
        exec i s = .next (pumpFault c e.cause (if i = .pwr b a d then e.va else s.getX a) u)) ∧
      (∀ l w u, bufferCheck b a d (fun _ => 0x8000) s = none → s.pumpStalls .write (s.getX a) n = false → s.pumpRuns .write (s.getX a) n = (.ok (l, w), u) →
        Completes i s fun t => Passed 4 s t ∧ t.mem = u.mem ∧ asks t l fun o k => .store ((bs.drop o).take k))) ∧
    (Runs (.ppush b a d) s → well = true →
      (∀ k v, bufferCheck b a d (fun _ => most) s = some (k, v) → exec (.ppush b a d) s = .next (pumpFault c k v s)) ∧
      (∀ k v, bufferCheck b a d (fun _ => most) s = none → pushCheck b a s = some (k, v) → exec (.ppush b a d) s = .next (pumpFault c k v s)) ∧
      (bufferCheck b a d (fun _ => most) s = none → pushCheck b a s = none → Completes (.ppush b a d) s fun t => Passed 4 s t ∧ t.mem = s.mem ∧
        ∃ due, TileBegun s t 4095 true [{ well := some (pushCore (s.getX a)), addr := wellOff (s.getX a), off := 0, len := n, key := 0 }] bs (.push c) due)) ∧
    (Runs .pend s →
      (s.outstanding (.pump c) (s.cycle + 1) = true → Completes .pend s (TriedAgain s)) ∧
      (∀ l k, s.outstanding (.pump c) (s.cycle + 1) = false → (s.pump c).kernel = some (l, k) → k < 2 → Completes .pend s fun t =>
        (t.pump c).kernel = none ∧ (t.pump c).ended = (s.pump c).ended ++ [{ launch := l, status := 0, val := s.getX 2 }] ∧
        ((t.pump c).ovl k).state = .loaded ∧ Due s.cycle (.kernelLaunchStart c) t ∧ t.mem = s.mem))

/-! ### Task queues -/

/-- R335-R337: TQADD, TQTAKE and TQTRY send their request to the queue; TQTAKE waits for its answer; TCMT keeps a held task, TDONE gives
it back as done. In a gang, with a register field outside 1-28, without a task to end or with one to end first, they trap. -/
def Sys2Proof.Spec.TaskInstructions : Prop :=
  ∀ (s : State) (h : Nat) (r : Reg), s.cur = .thread h →
    let part := (s.partOfCluster (clusterOf h)).getD 0
    let nums := (List.range 4).map fun k => pendNum (s.thread h) (regPlus r k)
    let request (t : State) (op : TqOp) : Prop := Due (s.cycle + s.taskWay h) (.tqRequestPerform { part := part, h := h, op := op, sent := s.cycle }) t
    let plain : Prop := (s.thread h).gang = none ∧ 1 ≤ r.toNat ∧ r.toNat ≤ 28
    (∀ i, i = .tqadd r ∨ i = .tqtake r ∨ i = .tqtry r ∨ i = .tcmt ∨ i = .tdone → Runs i s → (s.thread h).gang.isSome = true → NoTrace s →
      Completes i s (Trapped h 0x11 0 s)) ∧
    (∀ i, i = .tqadd r ∨ i = .tqtake r ∨ i = .tqtry r → Runs i s → (s.thread h).gang = none → r.toNat = 0 ∨ 28 < r.toNat → NoTrace s →
      Completes i s (Trapped h 2 (r.zeroExtend 64) s)) ∧
    (∀ i, i = .tqtake r ∨ i = .tqtry r → Runs i s → plain → (s.thread h).task ≠ .none → NoTrace s → Completes i s (Trapped h 2 0 s)) ∧
    (∀ i, i = .tcmt ∨ i = .tdone → Runs i s → (s.thread h).gang = none → (s.thread h).task = .none → NoTrace s → Completes i s (Trapped h 2 0 s)) ∧
    (Runs (.tqadd r) s → plain → s.getX r = BitVec.allOnes 64 → NoTrace s → Completes (.tqadd r) s (Trapped h 2 (s.getX r) s)) ∧
    (Runs (.tqadd r) s → plain → s.getX r ≠ BitVec.allOnes 64 → Ungated s → Completes (.tqadd r) s fun t => WritesNone s t ∧ Passed 4 s t ∧ t.mem = s.mem ∧
      (Unlimited s → request t (.add { key := s.getX r, r0 := s.getX (regPlus r 1), r1 := s.getX (regPlus r 2), r2 := s.getX (regPlus r 3) }))) ∧
    (plain → Ungated s → (s.thread h).task = .none →
      (Runs (.tqtake r) s → Completes (.tqtake r) s fun t => BlockedFor h .task t ∧ t.pc = s.pc ∧ WritesNone s t ∧
        (Unlimited s → ThreadAgenda h s t ∧ request t (.take nums s.pc))) ∧
      (Runs (.tqtry r) s → Completes (.tqtry r) s fun t => Passed 4 s t ∧ WritesNone s t ∧ (Unlimited s → ThreadAgenda h s t ∧ request t (.try_ nums s.pc)) ∧
        ∀ n, n ∈ nums → tfind (t.thread h).pend n = some none)) ∧
    ((s.thread h).gang = none → (s.thread h).task ≠ .none → Runs .tcmt s → Completes .tcmt s fun t => WritesNone s t ∧ Passed 4 s t ∧ ThreadOnly h s t ∧
      (t.thread h).task = match (s.thread h).task with
        | .held k pc => .kept k pc
        | x => x) ∧
    ((s.thread h).gang = none → (s.thread h).task ≠ .none → Runs .tdone s → Completes .tdone s fun t => (t.thread h).task = .none ∧ WritesNone s t ∧
      Passed 4 s t ∧ ThreadOnly h s t)

/-- R335, R337-R339: the queue. An insertion is performed once its release has its conditions, in insertion order, and held while 65,536
tasks are there; a take gets a task with fewer than 4(SQ - 1) + 1 smaller keys, with one slice the one that was inserted first among those
of the smallest key, and waits while there is none; an answer writes the four registers, and its thread holds the task; a task that is
given up is inserted again. -/
def Sys2Proof.Spec.TaskQueue : Prop :=
  ∀ (s : State) (p : Nat) (q : Part), s.part p = some q →
    let tasks (u : State) (l : List Task) : Prop := ∃ x, u.part p = some x ∧ x.tasks = l
    let acks (r : TqReq) (u : State) : Prop := Due (s.cycle + s.taskWay r.h) (.redAck r.h 0 0 r.sent) u
    let answers (r : TqReq) (a : Option Task) (u : State) : Prop := Due (s.cycle + s.taskWay r.h) (.tqAnswer r a) u
    (∀ r, Takes (.tqRequestPerform r) s → r.part = p → r.entered = false → s.limitAt (32 + servingSlice q (dieOf r.h)) p = 0 →
      Completes .tqRequestPerform s fun u => u = { s with agenda := u.agenda } ∧ Due s.cycle (.tqRequestPerform { r with entered := true }) u) ∧
    (∀ r t, Takes (.tqRequestPerform r) s → r.part = p → r.entered = true → r.op = .add t →
      (s.releaseDone (.thread r.h) r.sent 4 = false → Completes .tqRequestPerform s fun u => u = { s with agenda := u.agenda } ∧
        Due (s.cycle + 1) (.tqRequestPerform r) u) ∧
      (s.releaseDone (.thread r.h) r.sent 4 = true →
        (q.tasks.length < 65536 → q.takeWait = [] → Completes .tqRequestPerform s fun u => tasks u (q.tasks ++ [t]) ∧ acks r u) ∧
        (∀ w rest, q.tasks = [] → q.takeWait = w :: rest → Completes .tqRequestPerform s fun u => tasks u [] ∧ acks r u ∧ answers w (some t) u ∧
          (u.part p).map (·.takeWait) = some rest) ∧
        (65536 ≤ q.tasks.length → Completes .tqRequestPerform s fun u => tasks u q.tasks ∧ (u.part p).map (·.addWait) = some (q.addWait ++ [r]) ∧
          u.agenda = s.agenda))) ∧
    (∀ r nums pc, Takes (.tqRequestPerform r) s → r.part = p → r.entered = true → r.op = .take nums pc → q.tasks = [] → Completes .tqRequestPerform s fun u =>
      ∃ x, u.part p = some x ∧ x.takeWait = q.takeWait ++ [r] ∧ x.tasks = []) ∧
    (∀ r nums pc, Takes (.tqRequestPerform r) s → r.part = p → r.entered = true → r.op = .take nums pc ∨ r.op = .try_ nums pc → q.tasks ≠ [] → q.addWait = [] →
      Completes .tqRequestPerform s fun u => ∃ t, answers r (some t) u ∧ t ∈ q.tasks ∧ tasks u (dropTask t q.tasks) ∧
        (q.tasks.filter fun x => decide (x.key.toNat < t.key.toNat)).length < 4 * (q.sq - 1) + 1) ∧
    (∀ r nums pc l t l', Takes (.tqRequestPerform r) s → r.part = p → r.entered = true → r.op = .take nums pc ∨ r.op = .try_ nums pc → q.sq = 1 → q.tasks = l ++ t :: l' →
      (∀ x, x ∈ l → t.key.toNat < x.key.toNat) → (∀ x, x ∈ l' → t.key.toNat ≤ x.key.toNat) →
      (q.addWait = [] → Completes .tqRequestPerform s fun u => tasks u (l ++ l') ∧ answers r (some t) u) ∧
      (∀ w x rest, q.addWait = w :: rest → w.op = .add x → q.tasks.length ≤ 65536 → q.takeWait = [] → Completes .tqRequestPerform s fun u =>
        tasks u (l ++ l' ++ [x]) ∧ answers r (some t) u ∧ acks w u)) ∧
    (∀ r nums pc, Takes (.tqRequestPerform r) s → r.part = p → r.entered = true → r.op = .try_ nums pc → q.tasks = [] → q.addWait = [] → Completes .tqRequestPerform s fun u =>
      answers r none u) ∧
    (∀ h t, Takes (.taskReinsert p h t) s →
      (q.tasks.length < 65536 → q.takeWait = [] → Completes .taskReinsert s fun u => tasks u (q.tasks ++ [t])) ∧
      (65536 ≤ q.tasks.length → Completes .taskReinsert s fun u => tasks u q.tasks ∧ ∃ x w, u.part p = some x ∧ x.addWait = q.addWait ++ [w] ∧ w.op = .back t)) ∧
    (∀ r n pc a, Takes (.tqAnswer r a) s → 1 ≤ n → n ≤ 28 →
      let x (k : Nat) (u : State) : Word := (u.thread r.h).seq.x.toList.getD (n + k) 0
      let got (u : State) : Prop := match a with
        | some t => x 0 u = t.key ∧ x 1 u = t.r0 ∧ x 2 u = t.r1 ∧ x 3 u = t.r2 ∧ (u.thread r.h).task = .held t pc
        | none => x 0 u = BitVec.allOnes 64 ∧ x 1 u = 0 ∧ x 2 u = 0 ∧ x 3 u = 0 ∧ (u.thread r.h).task = (s.thread r.h).task
      (r.op = .take [n, n + 1, n + 2, n + 3] pc → BlockedFor r.h .task s → (s.thread r.h).seq.rptRun = none → Completes .tqAnswer s fun u => got u ∧
        ReadyAt r.h (s.cycle + 1) u ∧ (u.thread r.h).seq.pc = (s.thread r.h).seq.pc + 4 ∧ u.mem = s.mem) ∧
      (r.op = .try_ [n, n + 1, n + 2, n + 3] pc → (s.thread r.h).born ≤ r.sent → tfind (s.thread r.h).pend takeNum = some none →
        (∀ k, k < 4 → s.awaitsResult (.thread r.h) r.sent (n + k) = true) →
        Completes .tqAnswer s fun u => got u ∧ (u.thread r.h).seq.pc = (s.thread r.h).seq.pc ∧ u.mem = s.mem) ∧
      (∀ t, r.op = .try_ [n, n + 1, n + 2, n + 3] pc → r.sent < (s.thread r.h).born → a = some t → Completes .tqAnswer s fun u =>
        Due s.cycle (.taskReinsert r.part r.h t) u ∧ u.threads = s.threads))

/-! ### Together -/

/-- Copies: the instructions and the engine. -/
def Obligations.Copies : Prop := CopyInstructions ∧ CopyEngine

/-- Near-bank commands: the instructions and the unit. -/
def Obligations.NearBank : Prop := NearBankInstructions ∧ NearBankSteps

/-- Overlays, launches and the pumps' kernel cores. -/
def Obligations.OverlaysAndPumps : Prop := OverlayInstructions ∧ PumpSteps ∧ PumpInstructions

/-- Tasks: the instructions and the queue. -/
def Obligations.Tasks : Prop := TaskInstructions ∧ TaskQueue

/-! ### The command processor -/

/-- A pending node whose turn has come, and word 0 of its record is in order (R343, R350, R352): a failed context starts none, but one that is
being evaluated goes on to its end. -/
abbrev Sys2Proof.Spec.NodeReady (s : State) (c q : Nat) (x : Ctx) (n : Node) : Prop :=
  s.ctx c = some x ∧ n = x.node q ∧ n.phase = .waiting ∧ n.queued = true ∧ s.startable x n = true ∧
  n.kind < 7 ∧ wfield (n.w 0) 7 4 = 0 ∧ wfield (n.w 0) 63 27 = 0
/-- The record of R416 for a context goes to the fault queue in this cycle, and no further node of the context starts. -/
def Sys2Proof.Spec.ContextFails (c : Nat) (x : Ctx) (cause : Nat) (pc val : Word) (s t : State) : Prop :=
  t.mem = s.mem ∧ t.threads = s.threads ∧ (∃ y, t.ctx c = some y ∧ y.failed = true ∧ y.accepted = x.accepted ∧ y.retired = x.retired) ∧
  ∃ r : TrapRecord, Due s.cycle (.faultQueueWrite x.part r) t ∧ r.w0 = word (cause + 2 ^ 30 + c * 2 ^ 16 + x.part * 2 ^ 26) ∧
    r.handle = 0 ∧ r.pc = pc ∧ r.value = val ∧ r.cycle = word s.cycle
/-- The node's evaluation has come, its page is usable (R399), and the word that it tests is `w`; `u` is the state after the reading. -/
def Sys2Proof.Spec.Tested (s : State) (c : Nat) (n : Node) (w : Word) (u : State) : Prop :=
  (∃ m, n.startAt = some m ∧ m ≤ s.cycle) ∧ s.usable (nodeView c) (n.w 2).toNat 8 .read = true ∧
  ∃ v bs, s.checkRange (nodeView c) (n.w 2).toNat 8 .read = (none, v) ∧ v.readVirt (nodeView c) (n.w 2).toNat 8 = (bs, u) ∧ w = wordOfBytes bs

/-- R342: a new notify word accepts every record below it; one beyond the queue makes the context fail with cause 0x02. What is not usable yet is waited for (R399). A record
without edges that lies in no loop is ready 100 cycles later. RETIRED counts the records that are over, in their order. -/
def Sys2Proof.Spec.LaunchRecords : Prop :=
  ∀ (s : State) (c : Nat) (x : Ctx), s.ctx c = some x →
    (∀ v, Takes (.notifyWrite c v) s →
      (x.failed = true ∨ v ≤ x.accepted → Completes .notifyWrite s fun t => t = s) ∧
      (x.failed = false → x.accepted < v → x.retired + x.qsize < v → s.recordsUsable c x.accepted (min (v - x.accepted) x.qsize) x = true → Completes .notifyWrite s fun t =>
        ContextFails c x 2 (word x.retired) (word v) s t) ∧
      (x.failed = false → x.accepted < v → s.recordsUsable c x.accepted (min (v - x.accepted) x.qsize) x = false → Completes .notifyWrite s fun t =>
        t = { s with agenda := t.agenda } ∧ Due (s.cycle + 1) (.notifyWrite c v) t) ∧
      (∀ ws u, x.failed = false → v = x.accepted + 1 → v ≤ x.retired + x.qsize → s.recordsUsable c x.accepted 1 x = true →
        readRecord c x.accepted x (s.modCtx c fun x => { x with accepted := v }) = (.ok ws, u) → Completes .notifyWrite s fun t =>
        t.mem = u.mem ∧ ∃ y, t.ctx c = some y ∧ y.accepted = v ∧ y.retired = x.retired ∧ (y.node x.accepted).words = ws ∧
          (x.loopOf x.accepted = none → wfield (ws.getD 0 0) 15 8 = 0 → (y.node x.accepted).phase = .waiting ∧
            Due (s.cycle + 100) (nodeEvent (y.node x.accepted) c x.accepted) t))) ∧
    (Takes (.retiredUpdate c) s →
      let n := x.retiredAt s.cycle (x.accepted - x.retired) x.retired
      (∀ q, x.retired ≤ q → q < n → (x.node q).phase = .done ∧ (x.node q).endAt + 20 ≤ s.cycle) ∧
      (n ≤ x.retired → Completes .retiredUpdate s fun t => t = s) ∧
      (∀ p e, x.retired < n → s.usable (cmdView c) (x.notify + 8).toNat 8 .write = true → s.onDeadLink p.key = false → s.translate (cmdView c) (x.notify + 8) .write = .ok p e → KeyFits s p.key p.ks 8 → PlainBytes s p.key 8 → Memory.wf s.mem = true →
        Completes .retiredUpdate s fun t => BytesWritten s.mem t.mem p.key (toBytes 8 n) ∧ t.ctx c = some { x with retired := n }))

/-- R344, R350, R351, R20: a node completes once its threads' accesses have been released; its edges are sent, a target whose last edge arrives is ready 20 cycles later, and is
cancelled if none of its edges is live; the exited threads of a kernel node leave their slots unused. -/
def Sys2Proof.Spec.NodesComplete : Prop :=
  ∀ (s : State) (c q : Nat) (live : BitVec 4) (x : Ctx) (n : Node), Takes (.nodeComplete c q live) s → s.ctx c = some x → n = x.node q →
    (n.phase = .done ∨ n.phase = .failed → Completes .nodeComplete s fun t => t = s) ∧
    (n.phase = .waiting ∨ n.phase = .running → n.kind ≠ 0 ∨ s.nodeBusy c q = false → live ≠ 0 → s.nodeReleased n = false → Completes .nodeComplete s fun t =>
      t = { s with agenda := t.agenda } ∧ Due (s.cycle + 1) (.nodeComplete c q live) t) ∧
    (n.phase = .waiting ∨ n.phase = .running → n.kind ≠ 0 ∨ live = 0 ∨ s.nodeBusy c q = false → live = 0 ∨ s.nodeReleased n = true → n.kind ≠ 5 → n.loop = none →
      wbit (n.w 0) 16 = false →
      (∀ i, 1 ≤ i → i < 4 → n.succ i = 0) →
      let ended (h : Nat) (y : Thread) : Thread := if n.kind = 0 ∧ y.ctx = c ∧ y.launch = q + 1 ∧ y.run = .exited then { s.thread h with run := .unused } else y
      (n.succ 0 = 0 → Completes .nodeComplete s fun t => t.mem = s.mem ∧ (∀ h, t.thread h = ended h (s.thread h)) ∧ t.cores = s.cores ∧
        Due (s.cycle + 20) (.retiredUpdate c) t ∧
        t.ctx c = some { x with nodes := tset x.nodes q { n with phase := .done, queued := false, waitAt := none, need := [], ends := [], endAt := s.cycle } }) ∧
      (∀ r y, n.succ 0 ≠ 0 → r = q + n.succ 0 → y = x.node r → y.accepted = true → y.loop = none → y.phase = .waiting → y.queued = false →
        y.arrived + 1 = y.incount → Completes .nodeComplete s fun t => t.mem = s.mem ∧ (∀ h, t.thread h = ended h (s.thread h)) ∧ t.cores = s.cores ∧
          (live.getLsbD 0 = true ∨ y.live ≠ 0 → Due (s.cycle + 20) (nodeEvent y c r) t) ∧
          (live.getLsbD 0 = false → y.live = 0 → Due (s.cycle + 20) (.nodeComplete c r 0) t) ∧
          ∃ z, t.ctx c = some z ∧ (z.node r).arrived = y.incount ∧ (z.node q).phase = .done))

/-- R345, R351: a kernel node whose placement table is in order and whose cores its context may have is placed: each named slot
holds a thread of the context with its entry and argument, which is ready 200 cycles later, unless a core is still being zeroed
for it (R376); then the threads run. -/
def Sys2Proof.Spec.KernelNodes : Prop :=
  ∀ (s : State) (c q : Nat) (x : Ctx) (n : Node), Takes (.kernelNode c q) s →
    (∀ u v bs, NodeReady s c q x n → (kernelChecks n).find? Prod.fst = none → n.w 6 = 0 →
      s.usable (nodeView c) (n.w 2).toNat (32 * wfield (n.w 3) 11 0) .read = true →
      s.checkRange (nodeView c) (n.w 2).toNat (32 * wfield (n.w 3) 11 0) .read = (none, v) → v.readVirt (nodeView c) (n.w 2).toNat (32 * wfield (n.w 3) 11 0) = (bs, u) →
      let l := (List.range (wfield (n.w 3) 11 0)).map (placeOf bs)
      let more := (dedup (l.map (·.core))).filter fun k => (s.core k).holder ≠ some c
      placesFault s x.part l = none → s.placeWaits c false l = false → s.coresFree c more = true → s.ahead c more = false →
      Completes .kernelNode s fun t => t.mem = u.mem ∧ (∀ p, p ∈ l → (t.core p.core).holder = some c ∧ (t.core p.core).stage = p.stage ∧
          ∀ y, y ∈ p.slots → BlockedFor y.1 .start t ∧ (t.thread y.1).ctx = c ∧ (t.thread y.1).node = some q ∧ (t.thread y.1).sup = false ∧
            (t.thread y.1).seq.pc = y.2.2 ∧ (t.thread y.1).seq.get 1 = p.arg) ∧
        ((∀ p, p ∈ l → s.zeroedAt c p.core ≤ s.cycle + 200) → Due (s.cycle + 200) (.kernelNode c q) t)) ∧
    (s.ctx c = some x → n = x.node q → n.phase = .running → n.startAt = some s.cycle → n.w 6 = 0 → Completes .kernelNode s fun t =>
      ∀ h, (h, s.thread h) ∈ s.threads → (s.thread h).ctx = c → (s.thread h).node = some q → BlockedFor h .start s →
        ReadyAt h s.cycle t ∧ (t.thread h).seq = (s.thread h).seq) ∧
    (s.ctx c = some x → n = x.node q → n.phase = .waiting → n.queued = true → s.startable x n = true → 7 ≤ n.kind → Completes .kernelNode s fun t =>
      ContextFails c x 1 (word q) 0 s t)

/-- R346-R348: a copy node hands its copy to the engine, a near-memory node its launch to the pump, or looks again while the pump's
queue is full; a configure node applies all its modes in the cycle that its evaluation falls into. -/
def Sys2Proof.Spec.EngineNodes : Prop :=
  ∀ (s : State) (c q : Nat) (x : Ctx) (n : Node), NodeReady s c q x n →
    (Takes (.copyNode c q) s → wfield (n.w 5) 63 2 = 0 → wfield (n.w 5) 1 0 ≠ 3 →
      let op := wfield (n.w 5) 1 0
      let r : CopyReq := { kind := if op = 0 then .cpy else if op = 1 then .cpyt else .fill, dstWell := false, srcWell := false,
                           dst := n.w 2, src := n.w 3, len := n.w 4, complete := n.w 6 &&& ~~~ 7 }
      (∀ u, acceptCopy s (nodeView c) 0 (some q) none r = .ok u → Completes .copyNode s fun t => t.mem = u.mem ∧ t.copies = u.copies ∧
        ∃ y, t.ctx c = some y ∧ (y.node q).phase = .running) ∧
      (∀ cause v, acceptCopy s (nodeView c) 0 (some q) none r = .error (cause, v) → Completes .copyNode s fun t => ContextFails c x cause (word q) v s t)) ∧
    (Takes (.nearMemoryNode c q) s →
      let w := n.w 2
      let chan := wfield w 8 0
      wfield w 15 9 = 0 → wfield w 63 44 = 0 → chan ≤ 383 → wfield w 31 16 ≠ 0 → wbit w 32 = false → s.partOfChan chan = some x.part →
      (8 ≤ (s.pump chan).queue.length → Completes .nearMemoryNode s fun t => t = { s with agenda := t.agenda } ∧ Due (s.cycle + 1) (.nearMemoryNode c q) t) ∧
      ((s.pump chan).queue.length < 8 → Completes .nearMemoryNode s fun t => t.mem = s.mem ∧ t.threads = s.threads ∧ Due s.cycle (.kernelLaunchStart chan) t ∧
        (∃ y, t.ctx c = some y ∧ (y.node q).phase = .running) ∧
        ∃ l, (t.pump chan).queue = (s.pump chan).queue ++ [l] ∧ l.handle = wfield w 31 16 ∧ l.entry = wfield w 43 32 ∧ l.arg = n.w 3 ∧ l.ctx = c ∧ l.node = some q)) ∧
    (Takes (.configureNode c q) s →
      let m := n.w 2
      (wfield m 63 2 = 0 → n.startAt = none → x.phase = .resident → Completes .configureNode s fun t => t.mem = s.mem ∧
        Due (s.cycle + 60) (nodeEvent n c q) t ∧ ∃ y, t.ctx c = some y ∧ (y.node q).startAt = some (s.cycle + 60)) ∧
      (wbit m 3 = false → n.startAt = some s.cycle → Completes .configureNode s fun t => t.mem = s.mem ∧ t.threads = s.threads ∧ Due s.cycle (.nodeComplete c q 15) t ∧
        ∃ y, t.ctx c = some y ∧ y.raceEn = (if wbit m 0 then wbit (n.w 3) 0 else x.raceEn) ∧ y.gangOk = (if wbit m 1 then wbit (n.w 3) 1 else x.gangOk) ∧
          y.tensors = (if wbit m 2 then tableOf (n.src.getD 0 []) else x.tensors) ∧ y.launchPage = (if wbit m 4 then n.page else x.launchPage) ∧
          y.stageMap = x.stageMap))

/-- R349: condition, switch and loop nodes are evaluated 60 cycles after they are ready. -/
def Sys2Proof.Spec.ControlNodes : Prop :=
  ∀ (s : State) (c q : Nat) (x : Ctx) (n : Node), NodeReady s c q x n → (n.w 2).toNat % 8 = 0 →
    (Takes (.conditionNode c q) s →
      (reserved4 n = true → Completes .conditionNode s fun t => ContextFails c x 1 (word q) 32 s t) ∧
      (reserved4 n = false → n.startAt = none → Completes .conditionNode s fun t => t.mem = s.mem ∧ Due (s.cycle + 60) (nodeEvent n c q) t) ∧
      (∀ w u, reserved4 n = false → Tested s c n w u → Completes .conditionNode s fun t => t.mem = u.mem ∧
        Due s.cycle (.nodeComplete c q (if n.holds w then 0b0011 else 0b1100)) t)) ∧
    (Takes (.switchNode c q) s → reserved4 n = false →
      (n.startAt = none → Completes .switchNode s fun t => t.mem = s.mem ∧ Due (s.cycle + 60) (nodeEvent n c q) t) ∧
      (∀ w u, Tested s c n w u → Completes .switchNode s fun t => t.mem = u.mem ∧
        Due s.cycle (.nodeComplete c q (if w = 0 then 1 else if w = 1 then 2 else if w = 2 then 4 else 8)) t)) ∧
    (Takes (.loopNode c q) s → reserved4 n = false → n.bodyLen ≠ 0 →
      (n.startAt = none → Completes .loopNode s fun t => t.mem = s.mem ∧ Due (s.cycle + 60) (nodeEvent n c q) t) ∧
      (∀ w u, Tested s c n w u → n.holds w = false → Completes .loopNode s fun t => t.mem = u.mem ∧ Due s.cycle (.nodeComplete c q 15) t) ∧
      (∀ w u, Tested s c n w u → n.holds w = true → Completes .loopNode s fun t => t.mem = u.mem ∧ ∃ y, t.ctx c = some y ∧ (y.node q).phase = .running ∧
        ∀ r, q < r → r ≤ q + n.bodyLen → (x.node r).accepted = true → (y.node r).phase = .waiting ∧ (y.node r).arrived = 0 ∧ (y.node r).live = 0 ∧
          ((x.node r).loop = some q → (x.node r).incount = 0 → Due (s.cycle + 20) (nodeEvent (x.node r) c r) t)))

/-- The command processor: launch records, kernel, copy, near-memory, configure, condition, switch and loop nodes, edges and
completions (R342-R351, R416). -/
def Obligations.CommandProcessor : Prop := LaunchRecords ∧ NodesComplete ∧ KernelNodes ∧ EngineNodes ∧ ControlNodes

/-! ### Contexts on their cores -/

/-- No context has a launch page, so that a write by the machine itself starts nothing (R317). -/
abbrev Sys2Proof.Spec.NoLaunchPage (s : State) : Prop := ∀ x, x ∈ s.ctxs → x.2.launchPage = none

/-- R354, R355: at the end of its slice a context is saved if a waiting one of its priority or above needs a core of it, and begins
another slice otherwise; a context of which nothing is left gives its cores up. -/
def Sys2Proof.Spec.SlicesAndCompletion : Prop :=
  ∀ (s : State) (c : Nat) (x : Ctx), s.ctx c = some x → x.phase = .resident →
    (∀ due, Takes (.timeSliceExpiry c due) s → x.sliceAt = due → x.sliceLeft = none →
      let wanted := s.waiters.any fun y => y.1 ≠ c && x.prio ≤ y.2.prio && y.2.needs.any (s.heldCores c).contains
      Completes .timeSliceExpiry s fun t => t = { s with ctxs := t.ctxs, agenda := t.agenda } ∧
        (wanted = true → t.ctx c = some { x with phase := .saving, saveAt := s.cycle, saveStage := 0, sliceLeft := none } ∧ Due s.cycle (.contextSave c false) t) ∧
        (wanted = false → t.ctx c = some { x with sliceAt := due + x.tslice } ∧
          Due (max (due + x.tslice + 1) s.cycle) (.timeSliceExpiry c (due + x.tslice)) t)) ∧
    (Takes (.contextComplete c) s →
      (s.ctxBusy c = true → x.failed = false → Completes .contextComplete s fun t => t = s) ∧
      (s.ctxBusy c = true → x.failed = true → Completes .contextComplete s fun t => t = { s with agenda := t.agenda } ∧ ∀ e, e ∈ s.agenda → e ∈ t.agenda) ∧
      (s.ctxBusy c = false → Rising s.cores → Completes .contextComplete s fun t => t.mem = s.mem ∧ (∀ k, (t.core k).holder ≠ some c) ∧
        (∀ k, (s.core k).holder ≠ some c → t.core k = s.core k) ∧ t.ctx c = some { x with phase := .idle, sliceLeft := none, waitSince := none }))

/-- R358, R368-R370: a save gives threads that may trap in this cycle their turn first, stops the context's threads at their boundaries, waits for write-backs, takes 5,318 cycles for the blocks,
writes the save area and no other memory, with each core's well and the draws' records at their places, and frees the cores; a
restore takes the same cores once they are free, and gives the threads back 5,319 cycles later, or when the last of the context's
overlays is loaded, with the wells that the save area holds. -/
def Sys2Proof.Spec.SaveAndRestore : Prop :=
  ∀ (s : State) (c : Nat) (x : Ctx), s.ctx c = some x →
    (∀ late, Takes (.contextSave c late) s →
      (x.phase ≠ .saving → Completes .contextSave s fun t => t = s) ∧
      (x.phase = .saving → x.saveStage = 0 → late = false → (∃ h, h ∈ s.ctxThreads c ∧ s.mightTrap h = true) → Completes .contextSave s fun t =>
        t = { s with threads := t.threads, agenda := t.agenda } ∧ Due s.cycle (.contextSave c true) t ∧
        ∀ h, t.thread h = if h ∈ s.ctxThreads c ∧ s.mightTrap h = true then { s.thread h with frozen := true, meets := some s.cycle } else s.thread h) ∧
      (∀ h, x.phase = .saving → x.saveStage = 0 → late = true ∨ s.mightTrap h = false → s.ctxThreads c = [h] → (s.thread h).run = .ready →
        (s.thread h).frozen = false → (s.thread h).seq.skip = 0 → (s.thread h).gang = none →
        (s.thread h).pend = [] → (s.thread h).task = .none → (s.thread h).claims = [] → Completes .contextSave s fun t =>
        (t.thread h).frozen = true ∧ (t.thread h).run = .ready ∧ (t.thread h).seq = { (s.thread h).seq with rptRun := none }) ∧
      (x.phase = .saving → x.saveStage = 1 →
        let writing := s.reqs.any fun r => reqIsWb r && (s.heldCores c).contains (coreOf r.h)
        (writing = true → Completes .contextSave s fun t => t = { s with agenda := t.agenda } ∧ Due (s.cycle + 1) (.contextSave c false) t) ∧
        (writing = false → Completes .contextSave s fun t => t = { s with agenda := t.agenda, ctxs := t.ctxs } ∧
          t.ctx c = some { x with saveStage := 2 } ∧ Due (s.cycle + 5318) (.contextSave c false) t)) ∧
      (x.phase = .saving → x.saveStage = 2 → Rising s.cores → Memory.wf s.mem = true → (∀ k, k ∈ s.cores → Memory.wf k.2.well = true) → NoLaunchPage s →
        Completes .contextSave s fun t => (∀ k, (t.core k).holder ≠ some c) ∧
        (∀ k, (s.core k).holder ≠ some c → t.core k = s.core k) ∧ ∃ y v, t.ctx c = some y ∧ y.phase = .saved ∧ y.saved = some v ∧
          v.threads = s.threads.filter (fun z => (s.heldCores c).contains (coreOf z.1)) ∧
          v.cores = ((s.cores.filter fun z => (s.heldCores c).contains z.1).map fun z => (z.1, z.2.block)) ∧
          (∀ a, a < x.save ∨ x.save + v.bytes ≤ a → memGet t.mem a = memGet s.mem a) ∧
          (∀ k n d o, (k, n, d, o) ∈ v.drawsAt → memRead t.mem (x.save + o) d.record.length = d.record) ∧
          (∀ j k w o, v.cores[j]? = some (k, w) → o < 2 ^ 20 → memGet t.mem (x.save + v.coreAt j + o) = memGet w.well o))) ∧
    (∀ v, Takes (.contextRestore c) s → x.saved = some v →
      let l := v.cores.map Prod.fst
      (x.phase = .saved → (s.part x.part).any (fun p => !p.quiesced) = true → s.coresFree c l = true → s.ahead c l = false → Completes .contextRestore s fun t =>
        t.mem = s.mem ∧ t.threads = s.threads ∧ (∃ y, t.ctx c = some y ∧ y.phase = .restoring ∧ y.waitSince = none ∧ y.save = x.save ∧
          ∃ w, y.saved = some w ∧ w.threads = v.threads ∧ w.cores = v.cores) ∧
        (∀ k, k ∈ l → (t.core k).holder = some c) ∧ Due (s.cycle + 5319) (.contextRestore c) t) ∧
      (x.phase = .restoring → v.overlays ≠ [] → Completes .contextRestore s fun t => t.mem = s.mem ∧ t.threads = s.threads ∧ t.cores = s.cores ∧
        Due (s.cycle + 1) (.contextRestore c) t) ∧
      (∀ n, x.phase = .restoring → v.overlays = [] → s.overlaysDue c = some n → s.cycle ≤ n → Completes .contextRestore s fun t => t = { s with agenda := t.agenda } ∧
        Due (n + 1) (.contextRestore c) t) ∧
      (x.phase = .restoring → v.overlays = [] → s.overlaysDue c = none → Rising v.threads → Rising v.cores → Memory.wf s.mem = true → Completes .contextRestore s fun t => t.mem = s.mem ∧
        (∀ j k w o, v.cores[j]? = some (k, w) → o < 2 ^ 20 → memGet (t.core k).well o = memGet s.mem (x.save + v.coreAt j + o)) ∧
        (∃ y, t.ctx c = some y ∧ y.saved = none ∧ ((∀ w, w ∈ s.ctxs → w.2.prio ≤ x.prio ∨ w.2.isWaiting = false) → y.phase = .resident)) ∧
        ∀ h w, (h, w) ∈ v.threads → (t.thread h).seq = w.seq ∧ (t.thread h).run = w.run ∧ (t.thread h).v = w.v ∧ (t.thread h).frozen = false ∧
          (t.thread h).notBefore = s.cycle))

/-- Contexts on their cores: time slices, completion, save and restore (R352-R355, R368-R370). -/
def Obligations.ContextsOnCores : Prop := SlicesAndCompletion ∧ SaveAndRestore

/-! ### Trap records -/

/-- R361, R362, R260: a record that reaches the home of its ring is written into the slot of PCOUNT mod 64, and PCOUNT is
increased, once no lock stops it there; with 64 records unread, or others waiting, it waits; when there is room again the waiting
ones are written. -/
def Sys2Proof.Spec.TrapRing : Prop :=
  ∀ (s : State) (p : Nat) (q : Part) (r : TrapRecord), Takes (.trapRecordWrite p r) s → s.part p = some q → NoLaunchPage s →
    let n := (ringCounts s q).1
    let m := (ringCounts s q).2
    let written (r : TrapRecord) : List Host.Cell :=
      memWrite (memWrite s.mem (q.trbase + 64 * (n % 64)) (recordBytes r n)) (q.trbase + 4096) (toBytes 8 (n + 1))
    let who : Waiter := .ring p r.handle.toNat
    let stopped := s.mustWait (ringUnits q s 1) true (s.reachedAt who) (orderKey (r.handle.toNat % 4096) 0)
    (r ≠ roomMade → q.ringWait = [] → n - m < 64 → stopped = false → Completes .trapRecordWrite s fun t => t.mem = written r ∧ t.part p = some q) ∧
    (r ≠ roomMade → q.ringWait = [] → n - m < 64 → stopped = true → Completes .trapRecordWrite s fun t =>
      t = { s with waiting := t.waiting, agenda := t.agenda } ∧ Due (s.cycle + 1) (.trapRecordWrite p r) t) ∧
    (r ≠ roomMade → q.ringWait ≠ [] ∨ 64 ≤ n - m → Completes .trapRecordWrite s fun t => t.mem = s.mem ∧ t.part p = some { q with ringWait := q.ringWait ++ [r] }) ∧
    (∀ w, r = roomMade → q.ringWait = [w] → n - m < 64 → stopped = false → Completes .trapRecordWrite s fun t => t.mem = written w ∧ t.part p = some { q with ringWait := [] })

/-- R364, R381: the agent writes a record into the slot of FQPROD mod 2^LOG when there is room; the acknowledgement advances FQPROD
and interrupts with vector 0 if the queue was empty; over a link that cannot recover the records are lost (log 24); a value of FQCONS outside FQCONS ... FQPROD is ignored. -/
def Sys2Proof.Spec.FaultQueue : Prop :=
  ∀ (s : State) (p : Nat) (q : Part), s.part p = some q →
    let f := s.vf p
    let home := hostKey f.fqBase
    (∀ r, Takes (.faultQueueWrite p r) s →
      (s.onDeadLink home = true → Completes .faultQueueWrite s fun t => t.mem = s.mem ∧ t.part p = some { q with fqWait := [] }) ∧
      (s.onDeadLink home = false → s.unready home = true → q.fqOut = 0 → f.fqProd.toNat - f.fqCons.toNat < f.fqSize → Completes .faultQueueWrite s fun t =>
        t.mem = s.mem ∧ t.part p = some { q with fqWait := q.fqWait ++ [r] } ∧ Due (s.cycle + 1) (.faultQueueAck p) t) ∧
      (s.onDeadLink home = false → s.unready home = false → q.fqWait = [] → q.fqOut = 0 → f.fqProd.toNat - f.fqCons.toNat < f.fqSize → Completes .faultQueueWrite s fun t =>
        t.mem = memWrite s.mem (home + 64 * (f.fqProd.toNat % f.fqSize)) (recordBytes r f.fqProd.toNat) ∧
        t.part p = some { q with fqOut := 1 } ∧ ∃ n, Due (s.cycle + n + 1) (.faultQueueAck p) t) ∧
      (s.onDeadLink home = false → q.fqOut ≠ 0 ∨ f.fqSize ≤ f.fqProd.toNat - f.fqCons.toNat → Completes .faultQueueWrite s fun t =>
        t.mem = s.mem ∧ t.part p = some { q with fqWait := q.fqWait ++ [r] })) ∧
    (Takes (.faultQueueAck p) s → q.fqOut ≠ 0 → q.fqWait = [] → Completes .faultQueueAck s fun t => t.mem = s.mem ∧ t.vf p = { f with fqProd := f.fqProd + 1 } ∧
      t.part p = some { q with fqOut := 0 } ∧ t.msix = if f.fqProd = f.fqCons then s.msix ++ [(p + 1, 0)] else s.msix) ∧
    (∀ v, Takes (.fqconsWrite p v) s →
      (v.toNat < f.fqCons.toNat ∨ f.fqProd.toNat < v.toNat → Completes .fqconsWrite s fun t => t = s) ∧
      (f.fqCons.toNat ≤ v.toNat → v.toNat ≤ f.fqProd.toNat → q.fqWait = [] → Completes .fqconsWrite s fun t =>
        t = { s with vfs := t.vfs } ∧ t.vf p = { f with fqCons := v }))

/-- Trap records: the ring of a partition and the fault queue of its virtual function (R361, R362, R364, R381). -/
def Obligations.TrapRecords : Prop := TrapRing ∧ FaultQueue

/-! ### Partitions and contexts -/

/-- The bytes of a partition's window from o on read as zero. -/
def Sys2Proof.Spec.Zeroed (p o : Nat) (t : State) : Prop := ∀ a, windowBase p + o ≤ a → a < windowBase p + o + (2 ^ 41 - o) → memGet t.mem a = 0

/-- R373, R374, R376: CREATE refuses a record that breaks a limit and changes nothing; otherwise the partition's window is zero and,
4,096 cycles later, the supervisor threads of SSLOTS start. A record that cannot be read yet is waited for (R399); one beyond a dead link
ends the command with STATUS 2 (log 24). -/
def Sys2Proof.Spec.CreatePartition : Prop :=
  ∀ (s : State) (p arg : Nat), Takes (.create p arg) s →
    let bs := s.hostRead (word arg) 272
    let q := partOf bs
    let fits := s.granulesReady q.gmask && s.shapeOk p q && s.supervisorOk q bs
    let home := hostKey (word arg)
    (s.part p = none → s.onDeadLink home = true → Completes .create s fun t => t = { s with pf := { s.pf with status := 2 } }) ∧
    (s.part p = none → s.onDeadLink home = false → s.unready home = true → Completes .create s fun t =>
      t = { s with agenda := t.agenda } ∧ Due (s.cycle + 1) (.create p arg) t) ∧
    (s.part p = none → s.onDeadLink home = false → s.unready home = false → fits = false → Completes .create s fun t => t = { s with pf := { s.pf with status := 2 } }) ∧
    (s.part p = none → s.onDeadLink home = false → s.unready home = false → fits = true → Completes .create s fun t => t.part p = some { q with creating := true } ∧ Zeroed p 0 t ∧
      (∃ x, t.ctx q.sctxid = some x ∧ x.super = true ∧ x.part = p ∧ x.root = q.sroot) ∧ Due (s.cycle + 4096) (.create p arg) t) ∧
    (∀ y, s.part p = some y → y.creating = true → Completes .create s fun t => t.mem = s.mem ∧ t.pf = { s.pf with status := 0 } ∧
      t.part p = some { y with creating := false } ∧ ∀ i, i < 8 → nbit y.sslots i = true →
        let h := 8 * y.supcore + i
        ReadyAt h s.cycle t ∧ (t.thread h).sup = true ∧ (t.thread h).ctx = y.sctxid ∧ (t.thread h).seq.pc = (if i < 4 then y.saentry else y.seentry) ∧
        (t.thread h).seq.get 1 = y.sarg ∧ (t.thread h).seq.get 2 = word p ∧ (t.thread h).seq.get 31 = y.sstack + word ((i + 1) * y.sstacksz)) ∧
    (∀ y, s.part p = some y → y.creating = false → Completes .create s fun t => t = { s with pf := { s.pf with status := 2 } })

/-- R373, R375, R378: DESTROY, RESIZE, which takes its record up with the command, and KEY; a record that cannot be read yet is waited for
(R399), and one beyond a dead link ends the command with STATUS 2 (log 24). -/
def Sys2Proof.Spec.PartitionCommands : Prop :=
  ∀ (s : State) (p : Nat),
    (Takes (.destroy p) s →
      (s.part p = none → Completes .destroy s fun t => t = { s with pf := { s.pf with status := 2 } }) ∧
      (∀ q, s.part p = some q → Completes .destroy s fun t => t.parts = terase s.parts p ∧ t.ctxs = s.ctxs.filter (fun x => x.2.part ≠ p) ∧
        t.pf = { s.pf with status := 0 } ∧ Zeroed p 0 t ∧ ∀ h, nbit q.gmask (coreOf h / 32) = true → t.thread h = {})) ∧
    (∀ arg, Takes (.resize p arg) s →
      (s.part p = none → Completes .resize s fun t => t = { s with pf := { s.pf with status := 2 } }) ∧
      (∀ q, s.part p = some q →
        let rec_ := s.hostRead (word arg) 272
        let new := resized q (if q.quiesced then q.next else rec_)
        let home := hostKey (word arg)
        let fits := !q.creating && s.granulesReady new.gmask && s.shapeOk p new
        (q.quiesced = false → s.onDeadLink home = true → Completes .resize s fun t => t = { s with pf := { s.pf with status := 2 } }) ∧
        (q.quiesced = false → s.onDeadLink home = false → s.unready home = true → Completes .resize s fun t =>
          t = { s with agenda := t.agenda } ∧ Due (s.cycle + 1) (.resize p arg) t) ∧
        (q.quiesced = false → s.onDeadLink home = false → s.unready home = false → fits = false → Completes .resize s fun t =>
          t = { s with pf := { s.pf with status := 2 } }) ∧
        (q.quiesced = false → s.onDeadLink home = false → s.unready home = false → fits = true → Completes .resize s fun t =>
          t.mem = s.mem ∧ t.part p = some { q with quiesced := true, next := rec_ } ∧
          Due (s.cycle + 1) (.resize p arg) t) ∧
        (q.quiesced = true → q.creating = false → s.quiet p = false → Completes .resize s fun t => t = { s with agenda := t.agenda, ctxs := t.ctxs } ∧
          Due (s.cycle + 1) (.resize p arg) t ∧ (Rising s.ctxs → ∀ c x, s.ctx c = some x →
            (x.part = p → x.super = false → x.phase = .resident → ∃ y, t.ctx c = some y ∧ y.phase = .saving) ∧
            (x.part ≠ p ∨ x.super = true ∨ x.phase ≠ .resident → t.ctx c = some x))) ∧
        (q.quiesced = true → q.creating = false → s.quiet p = true → Completes .resize s fun t => t = { s with agenda := t.agenda, parts := t.parts } ∧
          t.part p = some { q with creating := true } ∧ Due (s.cycle + ceilDiv (min q.hashed new.hashed) (64 * max q.nc 1)) (.resize p arg) t) ∧
        (q.quiesced = true → q.creating = true → Completes .resize s fun t => t.part p = some { new with quiesced := false, next := [], creating := false } ∧
          t.pf = { s.pf with status := 0 } ∧ Zeroed p (min q.hashed new.hashed) t))) ∧
    (∀ slot arg, Takes (.key p slot arg) s →
      (s.part p = none → Completes .key s fun t => t = { s with pf := { s.pf with status := 2 } }) ∧
      (s.part p ≠ none → s.onDeadLink (hostKey (word arg)) = true → Completes .key s fun t => t = { s with pf := { s.pf with status := 2 } }) ∧
      (s.part p ≠ none → s.onDeadLink (hostKey (word arg)) = false → s.unready (hostKey (word arg)) = true → Completes .key s fun t =>
        t = { s with agenda := t.agenda } ∧ Due (s.cycle + 1) (.key p slot arg) t) ∧
      (∀ q, s.part p = some q → s.onDeadLink (hostKey (word arg)) = false → s.unready (hostKey (word arg)) = false → Completes .key s fun t => t.mem = s.mem ∧ t.threads = s.threads ∧ t.pf = { s.pf with status := 0 } ∧
        ∃ y, t.part p = some y ∧ tget 0 y.keys slot = ofBytes (s.hostRead (word arg) 64) ∧ ∀ k, k ≠ slot → tget 0 y.keys k = tget 0 q.keys k))

/-- R341, R357, R381: a context is created from its record, or refused; one that holds no core is destroyed at once; another stops
and drains first. -/
def Sys2Proof.Spec.ContextCommands : Prop :=
  ∀ (s : State) (p : Nat),
    (Takes (.contextCreate p) s →
      (s.part p = none → Completes .contextCreate s fun t => t = s.ctxDone p 2) ∧
      (∀ q, s.part p = some q →
        let bs := s.hostRead (s.vf p).ctxArg 64
        let c := recField bs 0 9 0
        let x := ctxOf p bs
        let home := hostKey (s.vf p).ctxArg
        (s.onDeadLink home = true → Completes .contextCreate s fun t => t = s.ctxDone p 2) ∧
        (s.onDeadLink home = false → s.unready home = true → Completes .contextCreate s fun t =>
          t = { s with agenda := t.agenda } ∧ Due (s.cycle + 1) (.contextCreate p) t) ∧
        (s.onDeadLink home = false → s.unready home = false → ctxLimits bs x = false ∨ s.ctx c ≠ none → Completes .contextCreate s fun t => t = s.ctxDone p 2) ∧
        (∀ ph u, s.onDeadLink home = false → s.unready home = false → ctxLimits bs x = true → s.ctx c = none → (s.ctxs.filter fun y => y.2.part = p && !y.2.super).length < 64 → s.ctxs.length < 1024 →
          State.translateNow { s with ctxs := tset s.ctxs c x } (cmdView c) x.notify .write = (.ok ph, u) → ph.nc = true →
          Completes .contextCreate s fun t => t.ctx c = some x ∧ t.mem = u.mem ∧ t.threads = s.threads ∧ t.vf p = { s.vf p with ctxStatus := 0 }))) ∧
    (∀ c, Takes (.contextDestroy p c) s →
      (s.ctx c = none → Completes .contextDestroy s fun t => t = s.ctxDone p 2) ∧
      (∀ x, s.ctx c = some x →
        (x.part ≠ p ∨ x.super = true → Completes .contextDestroy s fun t => t = s.ctxDone p 2) ∧
        (x.part = p → x.super = false → x.phase = .idle ∨ x.phase = .saved → Completes .contextDestroy s fun t => t.ctxs = terase s.ctxs c ∧ t.mem = s.mem ∧
          (∀ k, (t.core k).holder ≠ some c) ∧ t.vf p = { s.vf p with ctxStatus := 0 }) ∧
        (x.part = p → x.super = false → x.phase = .resident → Completes .contextDestroy s fun t =>
          t.vf p = { s.vf p with ctxStatus := 0 } ∧ (∀ k, (t.core k).holder ≠ some c) ∨
          Due (s.cycle + 1) (.contextDestroy p c) t ∧ ∃ y, t.ctx c = some y ∧ y.failed = true ∧ y.phase = .saving)))

/-- Partitions and the contexts in them (R341, R357, R372-R378, R381). -/
def Obligations.PartitionsAndContexts : Prop := CreatePartition ∧ PartitionCommands ∧ ContextCommands

/-! ### The host, links and other devices -/

/-- R381, R388, R414: thread commands act as the partition's supervisor, 55 cycles away; a report is written behind its nonce. -/
def Sys2Proof.Spec.HostCommands : Prop :=
  ∀ (s : State) (p : Nat),
    (∀ i k, (i, k) ∈ [(Instr.threadRead, SupKind.read), (.threadWrite, .write), (.threadResume, .resume)] →
      Takes (if k = .read then .threadRead p else if k = .write then .threadWrite p else .threadResume p) s →
      let f := s.vf p
      let op : SupOp := { part := p, issuer := none, kind := k, handle := word f.thandle, sel := word f.thsel, value := f.thval, rd := 0 }
      Completes i s fun t => t = { s with agenda := t.agenda } ∧ match supCheck s p k op.handle op.sel op.value with
        | some (c, v) => Due (s.cycle + 110) (.supervisorReply op (.refused c v)) t
        | none => Due (s.cycle + 55) (.supervisorOpArrival op) t) ∧
    let home := hostKey (s.vf p).attestAddr
    (Takes (.attest p) s → s.onDeadLink home = true → Completes .attest s fun t => t = { s with vfs := t.vfs } ∧ t.vf p = { s.vf p with attestGo := false }) ∧
    (Takes (.attest p) s → s.onDeadLink home = false → s.unready home = true → Completes .attest s fun t =>
      t = { s with agenda := t.agenda } ∧ Due (s.cycle + 1) (.attest p) t) ∧
    (Takes (.attest p) s → s.onDeadLink home = false → s.unready home = false → Completes .attest s fun t => t.vf p = { s.vf p with attestGo := false } ∧ t.threads = s.threads ∧
      t.mem = match s.part p with
        | none => s.mem
        | some q =>
          let b := reportBody s p q (s.hostRead (s.vf p).attestAddr 32)
          memWrite s.mem (home + 64) (b ++ fit 96 (Config.sign b)))

/-- A request that combines with another one of its kind (R252): a load of its sector, or one integer operation on its word. -/
def Sys2Proof.Spec.OfAKind (q r : FarReq) : Prop :=
  let loads (f : FarOp) : Prop := (∃ rd n sx acq, f = .load rd n sx acq) ∨ ∃ l, f = .fill l
  let atomic (f : FarOp) (o : AmoOp) : Prop := (∃ n b c rd acq, f = .amo o n b c rd acq) ∨ ∃ n b, f = .red o n b
  q.pump = none ∧ r.pump = none ∧
  (loads q.op ∧ loads r.op ∧ q.addr / 64 = r.addr / 64 ∨
   q.addr / 8 = r.addr / 8 ∧ ∃ o, o ≠ .swap ∧ o ≠ .cas ∧ o ≠ .fadd ∧ o ≠ .fmax ∧ atomic q.op o ∧ atomic r.op o)
/-- R380, R382, R383, R385, R377, R252, R278: host accesses to the window and to host memory, host atomics, snoops, back-invalidates, flits, failing links,
fabric windows and injection windows, where requests that combine count as one. -/
def Sys2Proof.Spec.LinksAndSnoops : Prop :=
  ∀ (s : State),
    (∀ p base size off st atom, Takes (.hostMemAccess p off st atom) s →
      p = 16 ∧ base = 2 ^ 51 ∧ size = 2 ^ 51 ∨ p ≠ 16 ∧ (∃ q, s.part p = some q ∧ base = windowBase p ∧ size = q.windowSize) →
      let key := base + off
      let n := match (atom : Option HostAtom), st with | some a, _ => a.size | none, some bs => bs.length | none, none => 1
      let busy := atom.all (fun a => !a.writes) && (st.isSome || atom.isSome) && s.hostBusy p off n
      let held (l : Nat) : Prop := p = 16 ∧ .line (256 * l) ∈ linesOf key n ∧ tfind s.hostLines l ≠ none
      let stopped := s.mustWait (linesOf key n) (st.isSome || atom.isSome) (s.reachedAt (.host p off)) (orderKey 4096 0)
      let performs := off + n ≤ size ∧ busy = false ∧ (∀ l, ¬ held l) ∧ stopped = false
      (size < off + n → Completes .hostMemAccess s fun t => t = s) ∧
      (off + n ≤ size → busy = true ∨ (∀ l, ¬ held l) ∧ stopped = true → Completes .hostMemAccess s fun t =>
        t = { s with waiting := t.waiting, agenda := t.agenda } ∧ Due (s.cycle + 1) (.hostMemAccess p off st atom) t) ∧
      (∀ l, off + n ≤ size → busy = false → held l → Completes .hostMemAccess s fun t =>
        t = { s with agenda := t.agenda } ∧ Due (s.cycle + 1) (.hostMemAccess p off st atom) t ∧ ∃ m, Due m (.hostSnoop l) t) ∧
      (atom = none → performs → NoLaunchPage s → Completes .hostMemAccess s fun t =>
        t.mem = match st with | some bs => memWrite s.mem key bs | none => s.mem) ∧
      (∀ a, atom = some a →
        let new := toBytes a.size (amoNew a.op a.size (ofBytes (memRead s.mem key a.size)) a.b.toNat a.c.toNat).1
        (a.writes = false → a.sa = true → performs → NoLaunchPage s → Completes .hostMemAccess s fun t => t.mem = memWrite s.mem key new) ∧
        (a.writes = false → a.sa = false → performs → Completes .hostMemAccess s fun t => t.mem = s.mem ∧
          ∃ n, Due (s.cycle + n + 1) (.hostMemAccess p off (some new) (some { a with writes := true })) t) ∧
        (∀ bs, a.writes = true → st = some bs → performs → NoLaunchPage s → Completes .hostMemAccess s fun t => t.mem = memWrite s.mem key bs))) ∧
    (∀ line, Takes (.hostSnoop line) s →
      let owned := s.taccs.any fun (_, a) => (a.units.take a.got).contains (.line (256 * line))
        && a.segs.any fun g => g.sa && g.well.isNone && (linesOf g.addr g.len).contains (.line (256 * line))
      (owned = false → Completes .hostSnoop s fun t => t = { s with hostLines := terase s.hostLines line }) ∧
      (owned = true → Completes .hostSnoop s fun t => t = { s with agenda := t.agenda } ∧ Due (s.cycle + 1) (.hostSnoop line) t)) ∧
    (∀ l, Takes (.backInvalidateResponse l) s → Completes .backInvalidateResponse s fun t =>
      (l ∈ s.biAsked → l ∉ t.biAsked ∧ l ∈ t.biDone ∧ t = { s with biAsked := t.biAsked, biDone := t.biDone }) ∧ (l ∉ s.biAsked → t = s)) ∧
    (∀ link n ok, Takes (.linkFlitReplay link n ok) s → Completes .linkFlitReplay s fun t =>
      tget 0 t.linkSeq link = (if ok = true ∧ n = tget 0 s.linkSeq link then n + 1 else tget 0 s.linkSeq link) ∧ t = { s with linkSeq := t.linkSeq }) ∧
    (∀ link, Takes (.linkFailure link) s → Completes .linkFailure s fun t => link ∈ t.linkDown ∧
      (∀ n r, isWellKey r.addr = false → s.linkOf r.addr = some link → ¬ Due n (.farAccessPerform r) t) ∧
      ((∀ r, r ∈ s.reqs → isWellKey r.addr = true ∨ s.linkOf r.addr ≠ some link) → t = { s with linkDown := t.linkDown, parts := t.parts } ∧
        (link ≠ 16 → t.parts = s.parts) ∧ (link = 16 → Rising s.parts → ∀ p, t.part p = (s.part p).map fun q => { q with fqOut := 0 }))) ∧
    (∀ p i q, Takes (.fabricWindowActivate p i) s → s.part p = some q → i < q.fab.length → s.pf.joined = true → Completes .fabricWindowActivate s fun t =>
      ∃ y, t.part p = some y ∧ i ∈ y.fabActive ∧ ∀ j, j ∈ q.fabActive → j ∈ y.fabActive) ∧
    (Takes .injectionWindowStart s →
      (s.injWait = [] → Completes .injectionWindowStart s fun t => t = { s with inj := [] }) ∧
      (∀ w q, s.injWait = [w] → w.ev = .farAccessPerform q → w.point < 32 ∨ 160 ≤ w.point ∨ s.lineHeld w.line = true →
        Completes .injectionWindowStart s fun t => t.injWait = [] ∧ tget 0 t.inj (16 * w.point + w.part) = w.bytes ∧
          Due (s.cycle + w.after) w.ev t ∧ t = { s with inj := t.inj, injWait := [], agenda := t.agenda }) ∧
      (∀ w v q r, s.injWait = [w, v] → w.ev = .farAccessPerform q → v.ev = .farAccessPerform r → v.point = w.point → v.part = w.part →
        w.point < 160 → w.point < 32 ∨ s.lineHeld w.line = true ∧ s.lineHeld v.line = true → OfAKind q r →
        (∀ x, x ∈ s.reqs → s.mustFollow x q = false ∧ s.mustFollow x r = false) →
        Completes .injectionWindowStart s fun t => t.injWait = [] ∧ tget 0 t.inj (16 * w.point + w.part) = w.bytes ∧
          Due (s.cycle + w.after) w.ev t ∧
          Due (s.cycle + v.after) (.farAccessPerform { r with lead := some (q.lead.getD (orderKey q.h q.sent)) }) t) ∧
      (∀ w v q r, s.injWait = [w, v] → w.ev = .farAccessPerform q → v.ev = .farAccessPerform r → v.point = w.point → v.part = w.part → 160 ≤ w.point →
        Completes .injectionWindowStart s fun t => Due (s.cycle + w.after) w.ev t ∧
          if w.bytes = 0 ∨ w.bytes + v.bytes ≤ 64 * s.limitAt w.point w.part then
            t.injWait = [] ∧ Due (s.cycle + v.after) v.ev t ∧ tget 0 t.inj (16 * w.point + w.part) = w.bytes + v.bytes
          else t.injWait = [v] ∧ tget 0 t.inj (16 * w.point + w.part) = w.bytes ∧ ∃ m, Due m .injectionWindowStart t))

/-- R5, R381, R389, R390, R400, R402: what a write of a register does: commands start, read-write fields are stored, a function reaches
its own partition only and reads 0 elsewhere; the physical function has these registers too, but its commands name no partition and end with
STATUS 2 (log 24). -/
def Sys2Proof.Spec.RegisterWrites : Prop :=
  ∀ (s : State) (fn a : Nat) (v : Word), Takes (.registerWrite fn a v) s →
    (fn = 0 → a = 0 → s.pf.status = 1 → Completes .registerWrite s fun t => t = s) ∧
    (fn = 0 → a = 0 → s.pf.status ≠ 1 → Completes .registerWrite s fun t => t = { s with pf := t.pf, agenda := t.agenda } ∧
      let p := wfield v 7 4
      let arg := wfield v 63 16
      (wfield v 3 0 = 1 → t.pf.status = 1 ∧ Due s.cycle (.create p arg) t) ∧ (wfield v 3 0 = 2 → t.pf.status = 1 ∧ Due s.cycle (.resize p arg) t) ∧
      (wfield v 3 0 = 3 → t.pf.status = 1 ∧ Due s.cycle (.destroy p) t) ∧
      (wfield v 3 0 = 4 → t.pf.status = 1 ∧ Due s.cycle (.key p (wfield v 11 8) arg) t)) ∧
    (fn = 0 → a = 0x440 → (wfield v 7 0 ≠ 0x5A ∨ s.pf.resetting = true → Completes .registerWrite s fun t => t = s) ∧
      (wfield v 7 0 = 0x5A → s.pf.resetting = false → Completes .registerWrite s fun t => t.pf = { s.pf with resetting := true } ∧ t.mem = s.mem ∧
        ∃ n i j, Due (s.cycle + n) (.moduleReset i j) t)) ∧
    (fn = 0 → a = 0x448 → Completes .registerWrite s fun t => t = { s with pf := { s.pf with pwrcap := t.pf.pwrcap } } ∧
      t.registerRead 0 0x448 = word (if 1 ≤ wfield v 11 0 ∧ wfield v 11 0 ≤ 999 then 1000 else wfield v 11 0)) ∧
    (fn = 0 → a = 0x040 ∨ a = 0x200 → Completes .registerWrite s fun t => t = { s with pf := { s.pf with own := t.pf.own } } ∧
      (a = 0x040 → wfield v 1 0 = 1 ∨ wfield v 1 0 = 2 → t.pf.own.ctxStatus = 2) ∧ (a = 0x200 → wfield v 1 0 ≠ 0 → t.pf.own.thrStatus = 2)) ∧
    (fn = 0 → a = 0x048 → Completes .registerWrite s fun t => t = { s with pf := { s.pf with own := { s.pf.own with ctxArg := v } } }) ∧
    (1 ≤ fn → fn ≤ 16 → a = 0x118 → Completes .registerWrite s fun t => t = { s with agenda := t.agenda } ∧ Due s.cycle (.fqconsWrite (fn - 1) v) t) ∧
    (1 ≤ fn → fn ≤ 16 → a = 0x048 → Completes .registerWrite s fun t => t = { s with vfs := t.vfs } ∧ t.vf (fn - 1) = { s.vf (fn - 1) with ctxArg := v }) ∧
    (1 ≤ fn → fn ≤ 16 → a = 0x040 → (s.vf (fn - 1)).ctxStatus ≠ 1 → Completes .registerWrite s fun t =>
      (wfield v 1 0 = 1 → Due s.cycle (.contextCreate (fn - 1)) t ∧ (t.vf (fn - 1)).ctxStatus = 1) ∧
      (wfield v 1 0 = 2 → Due s.cycle (.contextDestroy (fn - 1) (wfield v 11 2)) t ∧ (t.vf (fn - 1)).ctxStatus = 1)) ∧
    (1 ≤ fn → fn ≤ 16 → a = 0x200 → (s.vf (fn - 1)).thrStatus ≠ 1 → Completes .registerWrite s fun t =>
      (wfield v 1 0 = 1 → Due s.cycle (.threadRead (fn - 1)) t) ∧ (wfield v 1 0 = 2 → Due s.cycle (.threadWrite (fn - 1)) t) ∧
      (wfield v 1 0 = 3 → Due s.cycle (.threadResume (fn - 1)) t)) ∧
    (∀ g, g < 16 → 0x1000 + 0x100 * g ≤ a → a < 0x1100 + 0x100 * g →
      (fn ≠ 0 → s.partOfCluster g ≠ some (fn - 1) → s.registerRead fn a = 0 ∧ Completes .registerWrite s fun t => t = s) ∧
      (fn = 0 ∨ s.partOfCluster g = some (fn - 1) → a % 0x100 = 0x00 → Completes .registerWrite s fun t => t = { s with clusters := t.clusters } ∧
        (t.cluster g).dbg = { (s.cluster g).dbg with ctl := v &&& 0xFFFF0007 }) ∧
      (fn = 0 ∨ s.partOfCluster g = some (fn - 1) → a % 0x100 = 0x10 → Completes .registerWrite s fun t => t = { s with agenda := t.agenda, clusters := t.clusters } ∧
        (t.cluster g).dbg = { (s.cluster g).dbg with cmdOp := wfield v 1 0 } ∧
        (wfield v 1 0 = 1 → Due s.cycle (.dbgHalt g) t) ∧ (wfield v 1 0 = 2 → Due s.cycle (.dbgRun g) t) ∧ (wfield v 1 0 = 3 → Due s.cycle (.dbgInvi g) t)) ∧
      (fn = 0 ∨ s.partOfCluster g = some (fn - 1) → a % 0x100 = 0x40 → Completes .registerWrite s fun t => t = { s with agenda := t.agenda, clusters := t.clusters } ∧
        (t.cluster g).dbg = { (s.cluster g).dbg with accOp := wfield v 1 0 } ∧
        (wfield v 1 0 = 1 → Due s.cycle (.dbgRead g) t) ∧ (wfield v 1 0 = 2 → Due s.cycle (.dbgWrite g) t)))

/-- The host, its links and other devices (R5, R377, R380-R383, R385, R388-R390, R400, R402, R414). -/
def Obligations.HostAndLinks : Prop := HostCommands ∧ LinksAndSnoops ∧ RegisterWrites

/-! ### Debug modules, bring-up, power -/

/-- R392-R394, R68: HALT, and a trigger while TRIGIN is set, halt a cluster that is not halted: each core stops 2 + h cycles later; RUN
returns them 2 + h cycles later, in a cluster that is not halted too, and cancels what would still stop them then (log 24). -/
def Sys2Proof.Spec.HaltAndRun : Prop :=
  ∀ (s : State) (g : Nat), NoTrace s →
    let halts (t : State) : Prop := (t.cluster g).dbg.halted = true ∧ (t.cluster g).dbg.src = 0 ∧ (t.cluster g).dbg.ext = true ∧ t.mem = s.mem ∧ t.threads = s.threads ∧
      ∀ i, i < 32 → Due (s.cycle + 2 + hops (32 * g) (coreIn g i)) (.coreHaltStop (coreIn g i) true) t
    let runs (t : State) : Prop := t.mem = s.mem ∧ t.threads = s.threads ∧ t.cores = s.cores ∧ ∀ i, i < 32 →
      let due := s.cycle + 2 + hops (32 * g) (coreIn g i)
      Due due (.coreHaltStop (coreIn g i) false) t ∧ ∀ n, due ≤ n → ¬ Due n (.coreHaltStop (coreIn g i) true) t
    let hot := s.dies.any fun d => d.2.hot
    (Takes (.dbgHalt g) s → ((s.cluster g).dbg.halted = true → Completes .dbgHalt s fun t => t = s) ∧
      ((s.cluster g).dbg.halted = false → Completes .dbgHalt s halts)) ∧
    (Takes (.haltTriggerArrival g) s → (wbit (s.cluster g).dbg.ctl 2 = false ∨ (s.cluster g).dbg.halted = true → Completes .haltTriggerArrival s fun t => t = s) ∧
      (wbit (s.cluster g).dbg.ctl 2 = true → (s.cluster g).dbg.halted = false → Completes .haltTriggerArrival s halts)) ∧
    (∀ core, Takes (.coreHaltStop core true) s → Completes .coreHaltStop s fun t => t.mem = s.mem ∧
      (t.core core).halted = true ∧ ∀ i, i < 8 → liveThread (s.thread (8 * core + i)) = true →
        t.thread (8 * core + i) = { s.thread (8 * core + i) with dbgStop := true }) ∧
    (∀ core, Takes (.coreHaltStop core false) s → Completes .coreHaltStop s fun t => t.mem = s.mem ∧
      (t.core core).halted = false ∧ ∀ i, i < 8 → liveThread (s.thread (8 * core + i)) = true →
        (t.thread (8 * core + i)).dbgStop = false ∧ (t.thread (8 * core + i)).seq = (s.thread (8 * core + i)).seq ∧
        ((s.thread (8 * core + i)).run = .halted → (t.thread (8 * core + i)).run = .ready)) ∧
    (Takes (.dbgRun g) s →
      (hot = true → Completes .dbgRun s fun t => t = s) ∧
      (hot = false → (s.cluster g).dbg.halted = false → Completes .dbgRun s fun t => t = { s with agenda := t.agenda } ∧ runs t) ∧
      (hot = false → (s.cluster g).dbg.halted = true → Completes .dbgRun s fun t => (t.cluster g).dbg.halted = false ∧ runs t)) ∧
    (Takes (.dbgInvi g) s → Completes .dbgInvi s fun t => t = { s with cores := t.cores } ∧ ∀ k,
      (k / 32 = g → t.core k = { s.core k with icache := [] }) ∧ (k / 32 ≠ g → t.core k = s.core k))

/-- R395: an access of a halted cluster's state by DBGACC; what R395 does not allow answers STATUS 2 and changes nothing else. -/
def Sys2Proof.Spec.DebugAccesses : Prop :=
  ∀ (s : State) (g : Nat),
    let d := (s.cluster g).dbg
    let h := d.hnd.toNat
    let cls := wfield d.sel 15 12
    let off := wfield d.sel 35 16
    let inWell := cls = 6 ∧ off % 8 = 0 ∧ off + 8 ≤ 2 ^ 20
    let inThread := cls ≤ 4 ∧ selectorOk (word (wfield d.sel 15 0)) h = true ∧ (cls = 0 ∨ liveThread (s.thread h) = true)
    (Takes (.dbgRead g) s →
      (d.halted = false ∨ clusterOf h ≠ g ∨ cls = 5 ∨ 8 ≤ cls → Completes .dbgRead s fun t => t = { s with clusters := t.clusters } ∧
        (t.cluster g).dbg = { d with accStatus := 2 }) ∧
      (d.halted = true → clusterOf h = g → inWell → Completes .dbgRead s fun t => t = { s with clusters := t.clusters } ∧
        (t.cluster g).dbg = { d with accStatus := 0, val := wordOfBytes (memRead (s.core (coreOf h)).well off 8) }) ∧
      (d.halted = true → clusterOf h = g → inThread → Completes .dbgRead s fun t => t = { s with clusters := t.clusters } ∧
        (t.cluster g).dbg = { d with accStatus := 0, val := s.itemRead h (word (wfield d.sel 15 0)) })) ∧
    (Takes (.dbgWrite g) s →
      (d.halted = false ∨ clusterOf h ≠ g ∨ cls = 5 ∨ 8 ≤ cls → Completes .dbgWrite s fun t => t = { s with clusters := t.clusters } ∧
        (t.cluster g).dbg = { d with accStatus := 2 }) ∧
      (d.halted = true → clusterOf h = g → inWell → Completes .dbgWrite s fun t => t.mem = s.mem ∧ (t.cluster g).dbg = { d with accStatus := 0 } ∧
        (t.core (coreOf h)).well = memWrite (s.core (coreOf h)).well off (bytesOfWord 8 d.val)) ∧
      (d.halted = true → clusterOf h = g → inThread → cls = 0 → wfield d.sel 11 0 < 32 → Completes .dbgWrite s fun t => t.mem = s.mem ∧
        (t.cluster g).dbg = { d with accStatus := 0 } ∧ WritesOf h s t (BitVec.ofNat 5 (wfield d.sel 11 0)) d.val))

/-- R398-R402, R48: an image whose signature verifies and whose version is not below the fuses' runs, another one sets HUB = 2 or BASEFAIL; functions come up and set their bits, which stay set; CYCLE of a cluster is then 0; a module reset clears every unit and keeps host memory; power
above the cap throttles; a die that gets too hot halts every cluster and interrupts the physical function. -/
def Sys2Proof.Spec.BringUpAndPower : Prop :=
  ∀ (s : State),
    let accepted (i : List Byte) : Bool := Config.verifies i && decide (Config.fuseMin ≤ Config.imageVersion i)
    let image := Config.hubImage s.pf.images
    (∀ u, Takes (.readySet u) s → Completes .readySet s fun t => t.mem = s.mem ∧ t.threads = s.threads ∧ match u with
      | .cluster g => t.pf.clusters = s.pf.clusters ||| 2 ^ g ∧ t.coreCycle g = 0 ∨ t.pf = s.pf ∧ Due (s.cycle + 1) (.readySet u) t
      | .link p => t.pf.links = s.pf.links ||| 2 ^ p ∨ t.pf = s.pf ∧ Due (s.cycle + 1) (.readySet u) t
      | .channel c => t.pf.chans = s.pf.chans ||| 2 ^ c ∨ t.pf = s.pf ∧ Due (s.cycle + 1) (.readySet u) t
      | .sched => t.pf.sched = true ∨ t.pf = s.pf ∧ Due (s.cycle + 1) (.readySet u) t
      | .hostAgent => t.pf.hostAgt = true ∨ t.pf = s.pf ∧ Due (s.cycle + 1) (.readySet u) t
      | .baseFail => t.pf = { s.pf with baseFail := s.pf.baseFail || (List.range 12).any fun k => !accepted (Config.baseImage s.pf.images k) } ∧
        ∀ k i, k < 12 → i < 32 → accepted (Config.baseImage s.pf.images k) = true → Due (s.cycle + 1) (.readySet (.channel (32 * k + i))) t
      | .hub 0 _ => t.pf = s.pf ∧ Due (s.cycle + 1) (.readySet (.hub 0 0)) t ∨
        (if accepted image = true then t.pf = { s.pf with hub := 1, version := Config.imageVersion image % 65536 } else t.pf = { s.pf with hub := 2 })
      | .hub n v => t.pf.hub = n ∧ t.pf.version = v) ∧
    (∀ index joined, Takes (.moduleReset index joined) s → Completes .moduleReset s fun t => t.threads = [] ∧ t.parts = [] ∧ t.ctxs = [] ∧ t.cores = [] ∧ t.pumps = [] ∧
      t.cycle = 0 ∧ t.pf.clusters = 0 ∧ t.pf.chans = 0 ∧ t.pf.sched = false ∧ (joined = true → t.pf.devIdx = index.toNat) ∧
      (∀ a, a < 2 ^ 51 → memGet t.mem a = 0) ∧ (Memory.wf s.mem = true → ∀ a, 2 ^ 51 ≤ a → memGet t.mem a = memGet s.mem a)) ∧
    (∀ watts, Takes (.powerThrottle watts) s → Completes .powerThrottle s fun t => t = { s with throttle := t.throttle } ∧
      (t.throttle = true ↔ (if s.pf.pwrcap = 0 then 3400 else min s.pf.pwrcap 3400) < watts)) ∧
    (∀ d, NoTrace s →
      (Takes (.thermalHalt d true) s → (s.die d).hot = false → Completes .thermalHalt s fun t => (t.die d).hot = true ∧ t.mem = s.mem ∧
        t.msix = s.msix ++ [(0, 0)] ∧ ∀ g, g < 16 → (t.cluster g).dbg.halted = true) ∧
      (∀ hot, Takes (.thermalHalt d hot) s → hot = false ∨ (s.die d).hot = true → Completes .thermalHalt s fun t =>
        (t.die d).hot = hot ∧ t = { s with dies := t.dies }))

/-- R237, R238: a write of WELLWIN reaches the mirror of a peer. -/
def Sys2Proof.Spec.WellWindowMirrors : Prop :=
  ∀ (s : State) (owner peer : Nat) (rights : BitVec 2), Takes (.wellwinMirrorUpdate owner peer rights) s → Completes .wellwinMirrorUpdate s fun t =>
    t = { s with cores := t.cores } ∧ (∀ k, k ≠ peer → t.core k = s.core k) ∧
    (t.core peer) = { s.core peer with mirror := (t.core peer).mirror } ∧
    (rights ≠ 0 → tget 0 (t.core peer).mirror (coreIdx owner) = rights.toNat) ∧
    (rights = 0 → (t.core peer).mirror = terase (s.core peer).mirror (coreIdx owner))

/-- Debug modules, mirrors of well windows, bring-up, reset, power and heat (R238, R389-R395, R398-R402). -/
def Obligations.DebugAndBringUp : Prop := HaltAndRun ∧ DebugAccesses ∧ BringUpAndPower ∧ WellWindowMirrors

/-! ### Invariants -/

/-- A core's well and tables are in the form in which the model keeps them. -/
abbrev Sys2Proof.Spec.CanonicalCore (k : Core) : Prop :=
  Memory.wf k.well = true ∧ Rising k.cistern ∧ Rising k.mirror ∧ Rising k.queues ∧ Rising k.l1 ∧ Rising k.icache ∧ Rising k.moves ∧ Rising k.delays ∧
  Rising k.draws ∧ (∀ d, d ∈ k.draws → Rising d.2.slots ∧ Rising d.2.passed) ∧ Rising k.jobs ∧ ∀ j, j ∈ k.jobs → Rising j.2.preps
/-- A context's tables, and those of the state that a save keeps of it. -/
def Sys2Proof.Spec.CanonicalCtx (x : Ctx) : Prop :=
  Rising x.nodes ∧ Rising x.tensors ∧ ∀ v, x.saved = some v → Rising v.threads ∧ Rising v.copies ∧ Rising v.cores ∧ ∀ k, k ∈ v.cores → CanonicalCore k.2
/-- The tables of clusters and dies; the walker cache of a die holds entries that name tables (R247). -/
def Sys2Proof.Spec.CanonicalUnits (s : State) : Prop :=
  (∀ k, k ∈ s.clusters → Rising k.2.bars ∧ Rising k.2.mcast ∧ Rising k.2.race) ∧
  ∀ d, d ∈ s.dies → Rising d.2.misses ∧ ∀ w, w ∈ d.2.walk → nbit w.2.2.2.toNat 7 = false
/-- Wells and tables are canonical: every number is listed once, in rising order. The tables are those of State, of cores and their draws and
matrix instructions, of clusters and dies, of partitions' keys, and of contexts with what their saves keep. -/
def Sys2Proof.Spec.CanonicalTables (s : State) : Prop :=
  Rising s.threads ∧ Rising s.cores ∧ Rising s.clusters ∧ Rising s.dies ∧ Rising s.pumps ∧ Rising s.parts ∧ Rising s.ctxs ∧ Rising s.vfs ∧ Rising s.gangs ∧
  Rising s.copies ∧ Rising s.taccs ∧ Rising s.bks ∧ Rising s.lines ∧ Rising s.hostLines ∧ Rising s.tags ∧ Rising s.inj ∧ Rising s.linkSeq ∧
  (∀ k, k ∈ s.cores → CanonicalCore k.2) ∧ CanonicalUnits s ∧ (∀ p, p ∈ s.parts → Rising p.2.keys) ∧ ∀ x, x ∈ s.ctxs → CanonicalCtx x.2

/-- Every step keeps the canonical form of memory: addresses rise strictly, and no entry equals what an unlisted byte reads as. -/
def Obligations.StepKeepsMemoryCanonical : Prop :=
  ∀ (s t : State), Memory.wf s.mem = true → step s = .next t → Memory.wf t.mem = true
/-- Every step from canonical memory keeps the canonical form of wells and tables. -/
def Obligations.StepKeepsTablesCanonical : Prop :=
  ∀ (s t : State), Memory.wf s.mem = true → CanonicalTables s → step s = .next t → CanonicalTables t
/-- Right after reset memory is in its canonical form, and so are wells and tables. -/
def Obligations.ResetIsCanonical : Prop := Memory.wf State.reset.mem = true ∧ CanonicalTables State.reset
end

