-- ==== Sys2Proof/Laws/State.lean ====
section
/-!
SUPPORT. What each update of the state leaves alone, field by field, and how the parts read behind it. No later proof unfolds
a record update.
-/

namespace Sys2Proof.Machine

/-! `setThread` -/

@[simp] theorem State.setThread_cycle (s : State) (h : Nat) (t : Thread) : (s.setThread h t).cycle = s.cycle := rfl
@[simp] theorem State.setThread_agenda (s : State) (h : Nat) (t : Thread) : (s.setThread h t).agenda = s.agenda := rfl
@[simp] theorem State.setThread_ev (s : State) (h : Nat) (t : Thread) : (s.setThread h t).ev = s.ev := rfl
@[simp] theorem State.setThread_cur (s : State) (h : Nat) (t : Thread) : (s.setThread h t).cur = s.cur := rfl
@[simp] theorem State.setThread_cursor (s : State) (h : Nat) (t : Thread) : (s.setThread h t).cursor = s.cursor := rfl
@[simp] theorem State.setThread_gangs (s : State) (h : Nat) (t : Thread) : (s.setThread h t).gangs = s.gangs := rfl
@[simp] theorem State.setThread_issue (s : State) (h : Nat) (t : Thread) : (s.setThread h t).issue = s.issue := rfl
@[simp] theorem State.setThread_freeCtr (s : State) (h : Nat) (t : Thread) : (s.setThread h t).freeCtr = s.freeCtr := rfl
@[simp] theorem State.setThread_nextId (s : State) (h : Nat) (t : Thread) : (s.setThread h t).nextId = s.nextId := rfl
@[simp] theorem State.setThread_cores (s : State) (h : Nat) (t : Thread) : (s.setThread h t).cores = s.cores := rfl
@[simp] theorem State.setThread_clusters (s : State) (h : Nat) (t : Thread) : (s.setThread h t).clusters = s.clusters := rfl
@[simp] theorem State.setThread_dies (s : State) (h : Nat) (t : Thread) : (s.setThread h t).dies = s.dies := rfl
@[simp] theorem State.setThread_pumps (s : State) (h : Nat) (t : Thread) : (s.setThread h t).pumps = s.pumps := rfl
@[simp] theorem State.setThread_mem (s : State) (h : Nat) (t : Thread) : (s.setThread h t).mem = s.mem := rfl
@[simp] theorem State.setThread_tags (s : State) (h : Nat) (t : Thread) : (s.setThread h t).tags = s.tags := rfl
@[simp] theorem State.setThread_lines (s : State) (h : Nat) (t : Thread) : (s.setThread h t).lines = s.lines := rfl
@[simp] theorem State.setThread_hostLines (s : State) (h : Nat) (t : Thread) : (s.setThread h t).hostLines = s.hostLines := rfl
@[simp] theorem State.setThread_locks (s : State) (h : Nat) (t : Thread) : (s.setThread h t).locks = s.locks := rfl
@[simp] theorem State.setThread_waiting (s : State) (h : Nat) (t : Thread) : (s.setThread h t).waiting = s.waiting := rfl
@[simp] theorem State.setThread_taccs (s : State) (h : Nat) (t : Thread) : (s.setThread h t).taccs = s.taccs := rfl
@[simp] theorem State.setThread_copies (s : State) (h : Nat) (t : Thread) : (s.setThread h t).copies = s.copies := rfl
@[simp] theorem State.setThread_bks (s : State) (h : Nat) (t : Thread) : (s.setThread h t).bks = s.bks := rfl
@[simp] theorem State.setThread_parts (s : State) (h : Nat) (t : Thread) : (s.setThread h t).parts = s.parts := rfl
@[simp] theorem State.setThread_ctxs (s : State) (h : Nat) (t : Thread) : (s.setThread h t).ctxs = s.ctxs := rfl
@[simp] theorem State.setThread_pf (s : State) (h : Nat) (t : Thread) : (s.setThread h t).pf = s.pf := rfl
@[simp] theorem State.setThread_vfs (s : State) (h : Nat) (t : Thread) : (s.setThread h t).vfs = s.vfs := rfl
@[simp] theorem State.setThread_msix (s : State) (h : Nat) (t : Thread) : (s.setThread h t).msix = s.msix := rfl
@[simp] theorem State.setThread_inj (s : State) (h : Nat) (t : Thread) : (s.setThread h t).inj = s.inj := rfl
@[simp] theorem State.setThread_injWait (s : State) (h : Nat) (t : Thread) : (s.setThread h t).injWait = s.injWait := rfl
@[simp] theorem State.setThread_biAsked (s : State) (h : Nat) (t : Thread) : (s.setThread h t).biAsked = s.biAsked := rfl
@[simp] theorem State.setThread_biDone (s : State) (h : Nat) (t : Thread) : (s.setThread h t).biDone = s.biDone := rfl
@[simp] theorem State.setThread_linkDown (s : State) (h : Nat) (t : Thread) : (s.setThread h t).linkDown = s.linkDown := rfl
@[simp] theorem State.setThread_broken (s : State) (h : Nat) (t : Thread) : (s.setThread h t).broken = s.broken := rfl
@[simp] theorem State.setThread_linkSeq (s : State) (h : Nat) (t : Thread) : (s.setThread h t).linkSeq = s.linkSeq := rfl
@[simp] theorem State.setThread_throttle (s : State) (h : Nat) (t : Thread) : (s.setThread h t).throttle = s.throttle := rfl
@[simp] theorem State.setThread_landings (s : State) (h : Nat) (t : Thread) : (s.setThread h t).landings = s.landings := rfl

/-! `modThread` -/

@[simp] theorem State.modThread_cycle (s : State) (h : Nat) (f : Thread → Thread) : (s.modThread h f).cycle = s.cycle := rfl
@[simp] theorem State.modThread_agenda (s : State) (h : Nat) (f : Thread → Thread) : (s.modThread h f).agenda = s.agenda := rfl
@[simp] theorem State.modThread_ev (s : State) (h : Nat) (f : Thread → Thread) : (s.modThread h f).ev = s.ev := rfl
@[simp] theorem State.modThread_cur (s : State) (h : Nat) (f : Thread → Thread) : (s.modThread h f).cur = s.cur := rfl
@[simp] theorem State.modThread_cursor (s : State) (h : Nat) (f : Thread → Thread) : (s.modThread h f).cursor = s.cursor := rfl
@[simp] theorem State.modThread_gangs (s : State) (h : Nat) (f : Thread → Thread) : (s.modThread h f).gangs = s.gangs := rfl
@[simp] theorem State.modThread_issue (s : State) (h : Nat) (f : Thread → Thread) : (s.modThread h f).issue = s.issue := rfl
@[simp] theorem State.modThread_freeCtr (s : State) (h : Nat) (f : Thread → Thread) : (s.modThread h f).freeCtr = s.freeCtr := rfl
@[simp] theorem State.modThread_nextId (s : State) (h : Nat) (f : Thread → Thread) : (s.modThread h f).nextId = s.nextId := rfl
@[simp] theorem State.modThread_cores (s : State) (h : Nat) (f : Thread → Thread) : (s.modThread h f).cores = s.cores := rfl
@[simp] theorem State.modThread_clusters (s : State) (h : Nat) (f : Thread → Thread) : (s.modThread h f).clusters = s.clusters := rfl
@[simp] theorem State.modThread_dies (s : State) (h : Nat) (f : Thread → Thread) : (s.modThread h f).dies = s.dies := rfl
@[simp] theorem State.modThread_pumps (s : State) (h : Nat) (f : Thread → Thread) : (s.modThread h f).pumps = s.pumps := rfl
@[simp] theorem State.modThread_mem (s : State) (h : Nat) (f : Thread → Thread) : (s.modThread h f).mem = s.mem := rfl
@[simp] theorem State.modThread_tags (s : State) (h : Nat) (f : Thread → Thread) : (s.modThread h f).tags = s.tags := rfl
@[simp] theorem State.modThread_lines (s : State) (h : Nat) (f : Thread → Thread) : (s.modThread h f).lines = s.lines := rfl
@[simp] theorem State.modThread_hostLines (s : State) (h : Nat) (f : Thread → Thread) : (s.modThread h f).hostLines = s.hostLines := rfl
@[simp] theorem State.modThread_locks (s : State) (h : Nat) (f : Thread → Thread) : (s.modThread h f).locks = s.locks := rfl
@[simp] theorem State.modThread_waiting (s : State) (h : Nat) (f : Thread → Thread) : (s.modThread h f).waiting = s.waiting := rfl
@[simp] theorem State.modThread_taccs (s : State) (h : Nat) (f : Thread → Thread) : (s.modThread h f).taccs = s.taccs := rfl
@[simp] theorem State.modThread_copies (s : State) (h : Nat) (f : Thread → Thread) : (s.modThread h f).copies = s.copies := rfl
@[simp] theorem State.modThread_bks (s : State) (h : Nat) (f : Thread → Thread) : (s.modThread h f).bks = s.bks := rfl
@[simp] theorem State.modThread_parts (s : State) (h : Nat) (f : Thread → Thread) : (s.modThread h f).parts = s.parts := rfl
@[simp] theorem State.modThread_ctxs (s : State) (h : Nat) (f : Thread → Thread) : (s.modThread h f).ctxs = s.ctxs := rfl
@[simp] theorem State.modThread_pf (s : State) (h : Nat) (f : Thread → Thread) : (s.modThread h f).pf = s.pf := rfl
@[simp] theorem State.modThread_vfs (s : State) (h : Nat) (f : Thread → Thread) : (s.modThread h f).vfs = s.vfs := rfl
@[simp] theorem State.modThread_msix (s : State) (h : Nat) (f : Thread → Thread) : (s.modThread h f).msix = s.msix := rfl
@[simp] theorem State.modThread_inj (s : State) (h : Nat) (f : Thread → Thread) : (s.modThread h f).inj = s.inj := rfl
@[simp] theorem State.modThread_injWait (s : State) (h : Nat) (f : Thread → Thread) : (s.modThread h f).injWait = s.injWait := rfl
@[simp] theorem State.modThread_biAsked (s : State) (h : Nat) (f : Thread → Thread) : (s.modThread h f).biAsked = s.biAsked := rfl
@[simp] theorem State.modThread_biDone (s : State) (h : Nat) (f : Thread → Thread) : (s.modThread h f).biDone = s.biDone := rfl
@[simp] theorem State.modThread_linkDown (s : State) (h : Nat) (f : Thread → Thread) : (s.modThread h f).linkDown = s.linkDown := rfl
@[simp] theorem State.modThread_broken (s : State) (h : Nat) (f : Thread → Thread) : (s.modThread h f).broken = s.broken := rfl
@[simp] theorem State.modThread_linkSeq (s : State) (h : Nat) (f : Thread → Thread) : (s.modThread h f).linkSeq = s.linkSeq := rfl
@[simp] theorem State.modThread_throttle (s : State) (h : Nat) (f : Thread → Thread) : (s.modThread h f).throttle = s.throttle := rfl
@[simp] theorem State.modThread_landings (s : State) (h : Nat) (f : Thread → Thread) : (s.modThread h f).landings = s.landings := rfl

/-! `modSelf` -/

@[simp] theorem State.modSelf_cycle (s : State) (f : Thread → Thread) : (s.modSelf f).cycle = s.cycle := rfl
@[simp] theorem State.modSelf_agenda (s : State) (f : Thread → Thread) : (s.modSelf f).agenda = s.agenda := rfl
@[simp] theorem State.modSelf_ev (s : State) (f : Thread → Thread) : (s.modSelf f).ev = s.ev := rfl
@[simp] theorem State.modSelf_cur (s : State) (f : Thread → Thread) : (s.modSelf f).cur = s.cur := rfl
@[simp] theorem State.modSelf_cursor (s : State) (f : Thread → Thread) : (s.modSelf f).cursor = s.cursor := rfl
@[simp] theorem State.modSelf_gangs (s : State) (f : Thread → Thread) : (s.modSelf f).gangs = s.gangs := rfl
@[simp] theorem State.modSelf_issue (s : State) (f : Thread → Thread) : (s.modSelf f).issue = s.issue := rfl
@[simp] theorem State.modSelf_freeCtr (s : State) (f : Thread → Thread) : (s.modSelf f).freeCtr = s.freeCtr := rfl
@[simp] theorem State.modSelf_nextId (s : State) (f : Thread → Thread) : (s.modSelf f).nextId = s.nextId := rfl
@[simp] theorem State.modSelf_cores (s : State) (f : Thread → Thread) : (s.modSelf f).cores = s.cores := rfl
@[simp] theorem State.modSelf_clusters (s : State) (f : Thread → Thread) : (s.modSelf f).clusters = s.clusters := rfl
@[simp] theorem State.modSelf_dies (s : State) (f : Thread → Thread) : (s.modSelf f).dies = s.dies := rfl
@[simp] theorem State.modSelf_pumps (s : State) (f : Thread → Thread) : (s.modSelf f).pumps = s.pumps := rfl
@[simp] theorem State.modSelf_mem (s : State) (f : Thread → Thread) : (s.modSelf f).mem = s.mem := rfl
@[simp] theorem State.modSelf_tags (s : State) (f : Thread → Thread) : (s.modSelf f).tags = s.tags := rfl
@[simp] theorem State.modSelf_lines (s : State) (f : Thread → Thread) : (s.modSelf f).lines = s.lines := rfl
@[simp] theorem State.modSelf_hostLines (s : State) (f : Thread → Thread) : (s.modSelf f).hostLines = s.hostLines := rfl
@[simp] theorem State.modSelf_locks (s : State) (f : Thread → Thread) : (s.modSelf f).locks = s.locks := rfl
@[simp] theorem State.modSelf_waiting (s : State) (f : Thread → Thread) : (s.modSelf f).waiting = s.waiting := rfl
@[simp] theorem State.modSelf_taccs (s : State) (f : Thread → Thread) : (s.modSelf f).taccs = s.taccs := rfl
@[simp] theorem State.modSelf_copies (s : State) (f : Thread → Thread) : (s.modSelf f).copies = s.copies := rfl
@[simp] theorem State.modSelf_bks (s : State) (f : Thread → Thread) : (s.modSelf f).bks = s.bks := rfl
@[simp] theorem State.modSelf_parts (s : State) (f : Thread → Thread) : (s.modSelf f).parts = s.parts := rfl
@[simp] theorem State.modSelf_ctxs (s : State) (f : Thread → Thread) : (s.modSelf f).ctxs = s.ctxs := rfl
@[simp] theorem State.modSelf_pf (s : State) (f : Thread → Thread) : (s.modSelf f).pf = s.pf := rfl
@[simp] theorem State.modSelf_vfs (s : State) (f : Thread → Thread) : (s.modSelf f).vfs = s.vfs := rfl
@[simp] theorem State.modSelf_msix (s : State) (f : Thread → Thread) : (s.modSelf f).msix = s.msix := rfl
@[simp] theorem State.modSelf_inj (s : State) (f : Thread → Thread) : (s.modSelf f).inj = s.inj := rfl
@[simp] theorem State.modSelf_injWait (s : State) (f : Thread → Thread) : (s.modSelf f).injWait = s.injWait := rfl
@[simp] theorem State.modSelf_biAsked (s : State) (f : Thread → Thread) : (s.modSelf f).biAsked = s.biAsked := rfl
@[simp] theorem State.modSelf_biDone (s : State) (f : Thread → Thread) : (s.modSelf f).biDone = s.biDone := rfl
@[simp] theorem State.modSelf_linkDown (s : State) (f : Thread → Thread) : (s.modSelf f).linkDown = s.linkDown := rfl
@[simp] theorem State.modSelf_broken (s : State) (f : Thread → Thread) : (s.modSelf f).broken = s.broken := rfl
@[simp] theorem State.modSelf_linkSeq (s : State) (f : Thread → Thread) : (s.modSelf f).linkSeq = s.linkSeq := rfl
@[simp] theorem State.modSelf_throttle (s : State) (f : Thread → Thread) : (s.modSelf f).throttle = s.throttle := rfl
@[simp] theorem State.modSelf_landings (s : State) (f : Thread → Thread) : (s.modSelf f).landings = s.landings := rfl

/-! `setCore` -/

@[simp] theorem State.setCore_cycle (s : State) (c : Nat) (k : Core) : (s.setCore c k).cycle = s.cycle := rfl
@[simp] theorem State.setCore_agenda (s : State) (c : Nat) (k : Core) : (s.setCore c k).agenda = s.agenda := rfl
@[simp] theorem State.setCore_ev (s : State) (c : Nat) (k : Core) : (s.setCore c k).ev = s.ev := rfl
@[simp] theorem State.setCore_cur (s : State) (c : Nat) (k : Core) : (s.setCore c k).cur = s.cur := rfl
@[simp] theorem State.setCore_cursor (s : State) (c : Nat) (k : Core) : (s.setCore c k).cursor = s.cursor := rfl
@[simp] theorem State.setCore_gangs (s : State) (c : Nat) (k : Core) : (s.setCore c k).gangs = s.gangs := rfl
@[simp] theorem State.setCore_issue (s : State) (c : Nat) (k : Core) : (s.setCore c k).issue = s.issue := rfl
@[simp] theorem State.setCore_freeCtr (s : State) (c : Nat) (k : Core) : (s.setCore c k).freeCtr = s.freeCtr := rfl
@[simp] theorem State.setCore_nextId (s : State) (c : Nat) (k : Core) : (s.setCore c k).nextId = s.nextId := rfl
@[simp] theorem State.setCore_threads (s : State) (c : Nat) (k : Core) : (s.setCore c k).threads = s.threads := rfl
@[simp] theorem State.setCore_clusters (s : State) (c : Nat) (k : Core) : (s.setCore c k).clusters = s.clusters := rfl
@[simp] theorem State.setCore_dies (s : State) (c : Nat) (k : Core) : (s.setCore c k).dies = s.dies := rfl
@[simp] theorem State.setCore_pumps (s : State) (c : Nat) (k : Core) : (s.setCore c k).pumps = s.pumps := rfl
@[simp] theorem State.setCore_mem (s : State) (c : Nat) (k : Core) : (s.setCore c k).mem = s.mem := rfl
@[simp] theorem State.setCore_tags (s : State) (c : Nat) (k : Core) : (s.setCore c k).tags = s.tags := rfl
@[simp] theorem State.setCore_lines (s : State) (c : Nat) (k : Core) : (s.setCore c k).lines = s.lines := rfl
@[simp] theorem State.setCore_hostLines (s : State) (c : Nat) (k : Core) : (s.setCore c k).hostLines = s.hostLines := rfl
@[simp] theorem State.setCore_locks (s : State) (c : Nat) (k : Core) : (s.setCore c k).locks = s.locks := rfl
@[simp] theorem State.setCore_waiting (s : State) (c : Nat) (k : Core) : (s.setCore c k).waiting = s.waiting := rfl
@[simp] theorem State.setCore_taccs (s : State) (c : Nat) (k : Core) : (s.setCore c k).taccs = s.taccs := rfl
@[simp] theorem State.setCore_copies (s : State) (c : Nat) (k : Core) : (s.setCore c k).copies = s.copies := rfl
@[simp] theorem State.setCore_bks (s : State) (c : Nat) (k : Core) : (s.setCore c k).bks = s.bks := rfl
@[simp] theorem State.setCore_parts (s : State) (c : Nat) (k : Core) : (s.setCore c k).parts = s.parts := rfl
@[simp] theorem State.setCore_ctxs (s : State) (c : Nat) (k : Core) : (s.setCore c k).ctxs = s.ctxs := rfl
@[simp] theorem State.setCore_pf (s : State) (c : Nat) (k : Core) : (s.setCore c k).pf = s.pf := rfl
@[simp] theorem State.setCore_vfs (s : State) (c : Nat) (k : Core) : (s.setCore c k).vfs = s.vfs := rfl
@[simp] theorem State.setCore_msix (s : State) (c : Nat) (k : Core) : (s.setCore c k).msix = s.msix := rfl
@[simp] theorem State.setCore_inj (s : State) (c : Nat) (k : Core) : (s.setCore c k).inj = s.inj := rfl
@[simp] theorem State.setCore_injWait (s : State) (c : Nat) (k : Core) : (s.setCore c k).injWait = s.injWait := rfl
@[simp] theorem State.setCore_biAsked (s : State) (c : Nat) (k : Core) : (s.setCore c k).biAsked = s.biAsked := rfl
@[simp] theorem State.setCore_biDone (s : State) (c : Nat) (k : Core) : (s.setCore c k).biDone = s.biDone := rfl
@[simp] theorem State.setCore_linkDown (s : State) (c : Nat) (k : Core) : (s.setCore c k).linkDown = s.linkDown := rfl
@[simp] theorem State.setCore_broken (s : State) (c : Nat) (k : Core) : (s.setCore c k).broken = s.broken := rfl
@[simp] theorem State.setCore_linkSeq (s : State) (c : Nat) (k : Core) : (s.setCore c k).linkSeq = s.linkSeq := rfl
@[simp] theorem State.setCore_throttle (s : State) (c : Nat) (k : Core) : (s.setCore c k).throttle = s.throttle := rfl
@[simp] theorem State.setCore_landings (s : State) (c : Nat) (k : Core) : (s.setCore c k).landings = s.landings := rfl

/-! `modCore` -/

@[simp] theorem State.modCore_cycle (s : State) (c : Nat) (f : Core → Core) : (s.modCore c f).cycle = s.cycle := rfl
@[simp] theorem State.modCore_agenda (s : State) (c : Nat) (f : Core → Core) : (s.modCore c f).agenda = s.agenda := rfl
@[simp] theorem State.modCore_ev (s : State) (c : Nat) (f : Core → Core) : (s.modCore c f).ev = s.ev := rfl
@[simp] theorem State.modCore_cur (s : State) (c : Nat) (f : Core → Core) : (s.modCore c f).cur = s.cur := rfl
@[simp] theorem State.modCore_cursor (s : State) (c : Nat) (f : Core → Core) : (s.modCore c f).cursor = s.cursor := rfl
@[simp] theorem State.modCore_gangs (s : State) (c : Nat) (f : Core → Core) : (s.modCore c f).gangs = s.gangs := rfl
@[simp] theorem State.modCore_issue (s : State) (c : Nat) (f : Core → Core) : (s.modCore c f).issue = s.issue := rfl
@[simp] theorem State.modCore_freeCtr (s : State) (c : Nat) (f : Core → Core) : (s.modCore c f).freeCtr = s.freeCtr := rfl
@[simp] theorem State.modCore_nextId (s : State) (c : Nat) (f : Core → Core) : (s.modCore c f).nextId = s.nextId := rfl
@[simp] theorem State.modCore_threads (s : State) (c : Nat) (f : Core → Core) : (s.modCore c f).threads = s.threads := rfl
@[simp] theorem State.modCore_clusters (s : State) (c : Nat) (f : Core → Core) : (s.modCore c f).clusters = s.clusters := rfl
@[simp] theorem State.modCore_dies (s : State) (c : Nat) (f : Core → Core) : (s.modCore c f).dies = s.dies := rfl
@[simp] theorem State.modCore_pumps (s : State) (c : Nat) (f : Core → Core) : (s.modCore c f).pumps = s.pumps := rfl
@[simp] theorem State.modCore_mem (s : State) (c : Nat) (f : Core → Core) : (s.modCore c f).mem = s.mem := rfl
@[simp] theorem State.modCore_tags (s : State) (c : Nat) (f : Core → Core) : (s.modCore c f).tags = s.tags := rfl
@[simp] theorem State.modCore_lines (s : State) (c : Nat) (f : Core → Core) : (s.modCore c f).lines = s.lines := rfl
@[simp] theorem State.modCore_hostLines (s : State) (c : Nat) (f : Core → Core) : (s.modCore c f).hostLines = s.hostLines := rfl
@[simp] theorem State.modCore_locks (s : State) (c : Nat) (f : Core → Core) : (s.modCore c f).locks = s.locks := rfl
@[simp] theorem State.modCore_waiting (s : State) (c : Nat) (f : Core → Core) : (s.modCore c f).waiting = s.waiting := rfl
@[simp] theorem State.modCore_taccs (s : State) (c : Nat) (f : Core → Core) : (s.modCore c f).taccs = s.taccs := rfl
@[simp] theorem State.modCore_copies (s : State) (c : Nat) (f : Core → Core) : (s.modCore c f).copies = s.copies := rfl
@[simp] theorem State.modCore_bks (s : State) (c : Nat) (f : Core → Core) : (s.modCore c f).bks = s.bks := rfl
@[simp] theorem State.modCore_parts (s : State) (c : Nat) (f : Core → Core) : (s.modCore c f).parts = s.parts := rfl
@[simp] theorem State.modCore_ctxs (s : State) (c : Nat) (f : Core → Core) : (s.modCore c f).ctxs = s.ctxs := rfl
@[simp] theorem State.modCore_pf (s : State) (c : Nat) (f : Core → Core) : (s.modCore c f).pf = s.pf := rfl
@[simp] theorem State.modCore_vfs (s : State) (c : Nat) (f : Core → Core) : (s.modCore c f).vfs = s.vfs := rfl
@[simp] theorem State.modCore_msix (s : State) (c : Nat) (f : Core → Core) : (s.modCore c f).msix = s.msix := rfl
@[simp] theorem State.modCore_inj (s : State) (c : Nat) (f : Core → Core) : (s.modCore c f).inj = s.inj := rfl
@[simp] theorem State.modCore_injWait (s : State) (c : Nat) (f : Core → Core) : (s.modCore c f).injWait = s.injWait := rfl
@[simp] theorem State.modCore_biAsked (s : State) (c : Nat) (f : Core → Core) : (s.modCore c f).biAsked = s.biAsked := rfl
@[simp] theorem State.modCore_biDone (s : State) (c : Nat) (f : Core → Core) : (s.modCore c f).biDone = s.biDone := rfl
@[simp] theorem State.modCore_linkDown (s : State) (c : Nat) (f : Core → Core) : (s.modCore c f).linkDown = s.linkDown := rfl
@[simp] theorem State.modCore_broken (s : State) (c : Nat) (f : Core → Core) : (s.modCore c f).broken = s.broken := rfl
@[simp] theorem State.modCore_linkSeq (s : State) (c : Nat) (f : Core → Core) : (s.modCore c f).linkSeq = s.linkSeq := rfl
@[simp] theorem State.modCore_throttle (s : State) (c : Nat) (f : Core → Core) : (s.modCore c f).throttle = s.throttle := rfl
@[simp] theorem State.modCore_landings (s : State) (c : Nat) (f : Core → Core) : (s.modCore c f).landings = s.landings := rfl

/-! `modCluster` -/

@[simp] theorem State.modCluster_cycle (s : State) (c : Nat) (f : Cluster → Cluster) : (s.modCluster c f).cycle = s.cycle := rfl
@[simp] theorem State.modCluster_agenda (s : State) (c : Nat) (f : Cluster → Cluster) : (s.modCluster c f).agenda = s.agenda := rfl
@[simp] theorem State.modCluster_ev (s : State) (c : Nat) (f : Cluster → Cluster) : (s.modCluster c f).ev = s.ev := rfl
@[simp] theorem State.modCluster_cur (s : State) (c : Nat) (f : Cluster → Cluster) : (s.modCluster c f).cur = s.cur := rfl
@[simp] theorem State.modCluster_cursor (s : State) (c : Nat) (f : Cluster → Cluster) : (s.modCluster c f).cursor = s.cursor := rfl
@[simp] theorem State.modCluster_gangs (s : State) (c : Nat) (f : Cluster → Cluster) : (s.modCluster c f).gangs = s.gangs := rfl
@[simp] theorem State.modCluster_issue (s : State) (c : Nat) (f : Cluster → Cluster) : (s.modCluster c f).issue = s.issue := rfl
@[simp] theorem State.modCluster_freeCtr (s : State) (c : Nat) (f : Cluster → Cluster) : (s.modCluster c f).freeCtr = s.freeCtr := rfl
@[simp] theorem State.modCluster_nextId (s : State) (c : Nat) (f : Cluster → Cluster) : (s.modCluster c f).nextId = s.nextId := rfl
@[simp] theorem State.modCluster_threads (s : State) (c : Nat) (f : Cluster → Cluster) : (s.modCluster c f).threads = s.threads := rfl
@[simp] theorem State.modCluster_cores (s : State) (c : Nat) (f : Cluster → Cluster) : (s.modCluster c f).cores = s.cores := rfl
@[simp] theorem State.modCluster_dies (s : State) (c : Nat) (f : Cluster → Cluster) : (s.modCluster c f).dies = s.dies := rfl
@[simp] theorem State.modCluster_pumps (s : State) (c : Nat) (f : Cluster → Cluster) : (s.modCluster c f).pumps = s.pumps := rfl
@[simp] theorem State.modCluster_mem (s : State) (c : Nat) (f : Cluster → Cluster) : (s.modCluster c f).mem = s.mem := rfl
@[simp] theorem State.modCluster_tags (s : State) (c : Nat) (f : Cluster → Cluster) : (s.modCluster c f).tags = s.tags := rfl
@[simp] theorem State.modCluster_lines (s : State) (c : Nat) (f : Cluster → Cluster) : (s.modCluster c f).lines = s.lines := rfl
@[simp] theorem State.modCluster_hostLines (s : State) (c : Nat) (f : Cluster → Cluster) : (s.modCluster c f).hostLines = s.hostLines := rfl
@[simp] theorem State.modCluster_locks (s : State) (c : Nat) (f : Cluster → Cluster) : (s.modCluster c f).locks = s.locks := rfl
@[simp] theorem State.modCluster_waiting (s : State) (c : Nat) (f : Cluster → Cluster) : (s.modCluster c f).waiting = s.waiting := rfl
@[simp] theorem State.modCluster_taccs (s : State) (c : Nat) (f : Cluster → Cluster) : (s.modCluster c f).taccs = s.taccs := rfl
@[simp] theorem State.modCluster_copies (s : State) (c : Nat) (f : Cluster → Cluster) : (s.modCluster c f).copies = s.copies := rfl
@[simp] theorem State.modCluster_bks (s : State) (c : Nat) (f : Cluster → Cluster) : (s.modCluster c f).bks = s.bks := rfl
@[simp] theorem State.modCluster_parts (s : State) (c : Nat) (f : Cluster → Cluster) : (s.modCluster c f).parts = s.parts := rfl
@[simp] theorem State.modCluster_ctxs (s : State) (c : Nat) (f : Cluster → Cluster) : (s.modCluster c f).ctxs = s.ctxs := rfl
@[simp] theorem State.modCluster_pf (s : State) (c : Nat) (f : Cluster → Cluster) : (s.modCluster c f).pf = s.pf := rfl
@[simp] theorem State.modCluster_vfs (s : State) (c : Nat) (f : Cluster → Cluster) : (s.modCluster c f).vfs = s.vfs := rfl
@[simp] theorem State.modCluster_msix (s : State) (c : Nat) (f : Cluster → Cluster) : (s.modCluster c f).msix = s.msix := rfl
@[simp] theorem State.modCluster_inj (s : State) (c : Nat) (f : Cluster → Cluster) : (s.modCluster c f).inj = s.inj := rfl
@[simp] theorem State.modCluster_injWait (s : State) (c : Nat) (f : Cluster → Cluster) : (s.modCluster c f).injWait = s.injWait := rfl
@[simp] theorem State.modCluster_biAsked (s : State) (c : Nat) (f : Cluster → Cluster) : (s.modCluster c f).biAsked = s.biAsked := rfl
@[simp] theorem State.modCluster_biDone (s : State) (c : Nat) (f : Cluster → Cluster) : (s.modCluster c f).biDone = s.biDone := rfl
@[simp] theorem State.modCluster_linkDown (s : State) (c : Nat) (f : Cluster → Cluster) : (s.modCluster c f).linkDown = s.linkDown := rfl
@[simp] theorem State.modCluster_broken (s : State) (c : Nat) (f : Cluster → Cluster) : (s.modCluster c f).broken = s.broken := rfl
@[simp] theorem State.modCluster_linkSeq (s : State) (c : Nat) (f : Cluster → Cluster) : (s.modCluster c f).linkSeq = s.linkSeq := rfl
@[simp] theorem State.modCluster_throttle (s : State) (c : Nat) (f : Cluster → Cluster) : (s.modCluster c f).throttle = s.throttle := rfl
@[simp] theorem State.modCluster_landings (s : State) (c : Nat) (f : Cluster → Cluster) : (s.modCluster c f).landings = s.landings := rfl

/-! `modDie` -/

@[simp] theorem State.modDie_cycle (s : State) (c : Nat) (f : Die → Die) : (s.modDie c f).cycle = s.cycle := rfl
@[simp] theorem State.modDie_agenda (s : State) (c : Nat) (f : Die → Die) : (s.modDie c f).agenda = s.agenda := rfl
@[simp] theorem State.modDie_ev (s : State) (c : Nat) (f : Die → Die) : (s.modDie c f).ev = s.ev := rfl
@[simp] theorem State.modDie_cur (s : State) (c : Nat) (f : Die → Die) : (s.modDie c f).cur = s.cur := rfl
@[simp] theorem State.modDie_cursor (s : State) (c : Nat) (f : Die → Die) : (s.modDie c f).cursor = s.cursor := rfl
@[simp] theorem State.modDie_gangs (s : State) (c : Nat) (f : Die → Die) : (s.modDie c f).gangs = s.gangs := rfl
@[simp] theorem State.modDie_issue (s : State) (c : Nat) (f : Die → Die) : (s.modDie c f).issue = s.issue := rfl
@[simp] theorem State.modDie_freeCtr (s : State) (c : Nat) (f : Die → Die) : (s.modDie c f).freeCtr = s.freeCtr := rfl
@[simp] theorem State.modDie_nextId (s : State) (c : Nat) (f : Die → Die) : (s.modDie c f).nextId = s.nextId := rfl
@[simp] theorem State.modDie_threads (s : State) (c : Nat) (f : Die → Die) : (s.modDie c f).threads = s.threads := rfl
@[simp] theorem State.modDie_cores (s : State) (c : Nat) (f : Die → Die) : (s.modDie c f).cores = s.cores := rfl
@[simp] theorem State.modDie_clusters (s : State) (c : Nat) (f : Die → Die) : (s.modDie c f).clusters = s.clusters := rfl
@[simp] theorem State.modDie_pumps (s : State) (c : Nat) (f : Die → Die) : (s.modDie c f).pumps = s.pumps := rfl
@[simp] theorem State.modDie_mem (s : State) (c : Nat) (f : Die → Die) : (s.modDie c f).mem = s.mem := rfl
@[simp] theorem State.modDie_tags (s : State) (c : Nat) (f : Die → Die) : (s.modDie c f).tags = s.tags := rfl
@[simp] theorem State.modDie_lines (s : State) (c : Nat) (f : Die → Die) : (s.modDie c f).lines = s.lines := rfl
@[simp] theorem State.modDie_hostLines (s : State) (c : Nat) (f : Die → Die) : (s.modDie c f).hostLines = s.hostLines := rfl
@[simp] theorem State.modDie_locks (s : State) (c : Nat) (f : Die → Die) : (s.modDie c f).locks = s.locks := rfl
@[simp] theorem State.modDie_waiting (s : State) (c : Nat) (f : Die → Die) : (s.modDie c f).waiting = s.waiting := rfl
@[simp] theorem State.modDie_taccs (s : State) (c : Nat) (f : Die → Die) : (s.modDie c f).taccs = s.taccs := rfl
@[simp] theorem State.modDie_copies (s : State) (c : Nat) (f : Die → Die) : (s.modDie c f).copies = s.copies := rfl
@[simp] theorem State.modDie_bks (s : State) (c : Nat) (f : Die → Die) : (s.modDie c f).bks = s.bks := rfl
@[simp] theorem State.modDie_parts (s : State) (c : Nat) (f : Die → Die) : (s.modDie c f).parts = s.parts := rfl
@[simp] theorem State.modDie_ctxs (s : State) (c : Nat) (f : Die → Die) : (s.modDie c f).ctxs = s.ctxs := rfl
@[simp] theorem State.modDie_pf (s : State) (c : Nat) (f : Die → Die) : (s.modDie c f).pf = s.pf := rfl
@[simp] theorem State.modDie_vfs (s : State) (c : Nat) (f : Die → Die) : (s.modDie c f).vfs = s.vfs := rfl
@[simp] theorem State.modDie_msix (s : State) (c : Nat) (f : Die → Die) : (s.modDie c f).msix = s.msix := rfl
@[simp] theorem State.modDie_inj (s : State) (c : Nat) (f : Die → Die) : (s.modDie c f).inj = s.inj := rfl
@[simp] theorem State.modDie_injWait (s : State) (c : Nat) (f : Die → Die) : (s.modDie c f).injWait = s.injWait := rfl
@[simp] theorem State.modDie_biAsked (s : State) (c : Nat) (f : Die → Die) : (s.modDie c f).biAsked = s.biAsked := rfl
@[simp] theorem State.modDie_biDone (s : State) (c : Nat) (f : Die → Die) : (s.modDie c f).biDone = s.biDone := rfl
@[simp] theorem State.modDie_linkDown (s : State) (c : Nat) (f : Die → Die) : (s.modDie c f).linkDown = s.linkDown := rfl
@[simp] theorem State.modDie_broken (s : State) (c : Nat) (f : Die → Die) : (s.modDie c f).broken = s.broken := rfl
@[simp] theorem State.modDie_linkSeq (s : State) (c : Nat) (f : Die → Die) : (s.modDie c f).linkSeq = s.linkSeq := rfl
@[simp] theorem State.modDie_throttle (s : State) (c : Nat) (f : Die → Die) : (s.modDie c f).throttle = s.throttle := rfl
@[simp] theorem State.modDie_landings (s : State) (c : Nat) (f : Die → Die) : (s.modDie c f).landings = s.landings := rfl

/-! `modPump` -/

@[simp] theorem State.modPump_cycle (s : State) (c : Nat) (f : Pump → Pump) : (s.modPump c f).cycle = s.cycle := rfl
@[simp] theorem State.modPump_agenda (s : State) (c : Nat) (f : Pump → Pump) : (s.modPump c f).agenda = s.agenda := rfl
@[simp] theorem State.modPump_ev (s : State) (c : Nat) (f : Pump → Pump) : (s.modPump c f).ev = s.ev := rfl
@[simp] theorem State.modPump_cur (s : State) (c : Nat) (f : Pump → Pump) : (s.modPump c f).cur = s.cur := rfl
@[simp] theorem State.modPump_cursor (s : State) (c : Nat) (f : Pump → Pump) : (s.modPump c f).cursor = s.cursor := rfl
@[simp] theorem State.modPump_gangs (s : State) (c : Nat) (f : Pump → Pump) : (s.modPump c f).gangs = s.gangs := rfl
@[simp] theorem State.modPump_issue (s : State) (c : Nat) (f : Pump → Pump) : (s.modPump c f).issue = s.issue := rfl
@[simp] theorem State.modPump_freeCtr (s : State) (c : Nat) (f : Pump → Pump) : (s.modPump c f).freeCtr = s.freeCtr := rfl
@[simp] theorem State.modPump_nextId (s : State) (c : Nat) (f : Pump → Pump) : (s.modPump c f).nextId = s.nextId := rfl
@[simp] theorem State.modPump_threads (s : State) (c : Nat) (f : Pump → Pump) : (s.modPump c f).threads = s.threads := rfl
@[simp] theorem State.modPump_cores (s : State) (c : Nat) (f : Pump → Pump) : (s.modPump c f).cores = s.cores := rfl
@[simp] theorem State.modPump_clusters (s : State) (c : Nat) (f : Pump → Pump) : (s.modPump c f).clusters = s.clusters := rfl
@[simp] theorem State.modPump_dies (s : State) (c : Nat) (f : Pump → Pump) : (s.modPump c f).dies = s.dies := rfl
@[simp] theorem State.modPump_mem (s : State) (c : Nat) (f : Pump → Pump) : (s.modPump c f).mem = s.mem := rfl
@[simp] theorem State.modPump_tags (s : State) (c : Nat) (f : Pump → Pump) : (s.modPump c f).tags = s.tags := rfl
@[simp] theorem State.modPump_lines (s : State) (c : Nat) (f : Pump → Pump) : (s.modPump c f).lines = s.lines := rfl
@[simp] theorem State.modPump_hostLines (s : State) (c : Nat) (f : Pump → Pump) : (s.modPump c f).hostLines = s.hostLines := rfl
@[simp] theorem State.modPump_locks (s : State) (c : Nat) (f : Pump → Pump) : (s.modPump c f).locks = s.locks := rfl
@[simp] theorem State.modPump_waiting (s : State) (c : Nat) (f : Pump → Pump) : (s.modPump c f).waiting = s.waiting := rfl
@[simp] theorem State.modPump_taccs (s : State) (c : Nat) (f : Pump → Pump) : (s.modPump c f).taccs = s.taccs := rfl
@[simp] theorem State.modPump_copies (s : State) (c : Nat) (f : Pump → Pump) : (s.modPump c f).copies = s.copies := rfl
@[simp] theorem State.modPump_bks (s : State) (c : Nat) (f : Pump → Pump) : (s.modPump c f).bks = s.bks := rfl
@[simp] theorem State.modPump_parts (s : State) (c : Nat) (f : Pump → Pump) : (s.modPump c f).parts = s.parts := rfl
@[simp] theorem State.modPump_ctxs (s : State) (c : Nat) (f : Pump → Pump) : (s.modPump c f).ctxs = s.ctxs := rfl
@[simp] theorem State.modPump_pf (s : State) (c : Nat) (f : Pump → Pump) : (s.modPump c f).pf = s.pf := rfl
@[simp] theorem State.modPump_vfs (s : State) (c : Nat) (f : Pump → Pump) : (s.modPump c f).vfs = s.vfs := rfl
@[simp] theorem State.modPump_msix (s : State) (c : Nat) (f : Pump → Pump) : (s.modPump c f).msix = s.msix := rfl
@[simp] theorem State.modPump_inj (s : State) (c : Nat) (f : Pump → Pump) : (s.modPump c f).inj = s.inj := rfl
@[simp] theorem State.modPump_injWait (s : State) (c : Nat) (f : Pump → Pump) : (s.modPump c f).injWait = s.injWait := rfl
@[simp] theorem State.modPump_biAsked (s : State) (c : Nat) (f : Pump → Pump) : (s.modPump c f).biAsked = s.biAsked := rfl
@[simp] theorem State.modPump_biDone (s : State) (c : Nat) (f : Pump → Pump) : (s.modPump c f).biDone = s.biDone := rfl
@[simp] theorem State.modPump_linkDown (s : State) (c : Nat) (f : Pump → Pump) : (s.modPump c f).linkDown = s.linkDown := rfl
@[simp] theorem State.modPump_broken (s : State) (c : Nat) (f : Pump → Pump) : (s.modPump c f).broken = s.broken := rfl
@[simp] theorem State.modPump_linkSeq (s : State) (c : Nat) (f : Pump → Pump) : (s.modPump c f).linkSeq = s.linkSeq := rfl
@[simp] theorem State.modPump_throttle (s : State) (c : Nat) (f : Pump → Pump) : (s.modPump c f).throttle = s.throttle := rfl
@[simp] theorem State.modPump_landings (s : State) (c : Nat) (f : Pump → Pump) : (s.modPump c f).landings = s.landings := rfl

/-! `modVf` -/

@[simp] theorem State.modVf_cycle (s : State) (c : Nat) (f : Vf → Vf) : (s.modVf c f).cycle = s.cycle := rfl
@[simp] theorem State.modVf_agenda (s : State) (c : Nat) (f : Vf → Vf) : (s.modVf c f).agenda = s.agenda := rfl
@[simp] theorem State.modVf_ev (s : State) (c : Nat) (f : Vf → Vf) : (s.modVf c f).ev = s.ev := rfl
@[simp] theorem State.modVf_cur (s : State) (c : Nat) (f : Vf → Vf) : (s.modVf c f).cur = s.cur := rfl
@[simp] theorem State.modVf_cursor (s : State) (c : Nat) (f : Vf → Vf) : (s.modVf c f).cursor = s.cursor := rfl
@[simp] theorem State.modVf_gangs (s : State) (c : Nat) (f : Vf → Vf) : (s.modVf c f).gangs = s.gangs := rfl
@[simp] theorem State.modVf_issue (s : State) (c : Nat) (f : Vf → Vf) : (s.modVf c f).issue = s.issue := rfl
@[simp] theorem State.modVf_freeCtr (s : State) (c : Nat) (f : Vf → Vf) : (s.modVf c f).freeCtr = s.freeCtr := rfl
@[simp] theorem State.modVf_nextId (s : State) (c : Nat) (f : Vf → Vf) : (s.modVf c f).nextId = s.nextId := rfl
@[simp] theorem State.modVf_threads (s : State) (c : Nat) (f : Vf → Vf) : (s.modVf c f).threads = s.threads := rfl
@[simp] theorem State.modVf_cores (s : State) (c : Nat) (f : Vf → Vf) : (s.modVf c f).cores = s.cores := rfl
@[simp] theorem State.modVf_clusters (s : State) (c : Nat) (f : Vf → Vf) : (s.modVf c f).clusters = s.clusters := rfl
@[simp] theorem State.modVf_dies (s : State) (c : Nat) (f : Vf → Vf) : (s.modVf c f).dies = s.dies := rfl
@[simp] theorem State.modVf_pumps (s : State) (c : Nat) (f : Vf → Vf) : (s.modVf c f).pumps = s.pumps := rfl
@[simp] theorem State.modVf_mem (s : State) (c : Nat) (f : Vf → Vf) : (s.modVf c f).mem = s.mem := rfl
@[simp] theorem State.modVf_tags (s : State) (c : Nat) (f : Vf → Vf) : (s.modVf c f).tags = s.tags := rfl
@[simp] theorem State.modVf_lines (s : State) (c : Nat) (f : Vf → Vf) : (s.modVf c f).lines = s.lines := rfl
@[simp] theorem State.modVf_hostLines (s : State) (c : Nat) (f : Vf → Vf) : (s.modVf c f).hostLines = s.hostLines := rfl
@[simp] theorem State.modVf_locks (s : State) (c : Nat) (f : Vf → Vf) : (s.modVf c f).locks = s.locks := rfl
@[simp] theorem State.modVf_waiting (s : State) (c : Nat) (f : Vf → Vf) : (s.modVf c f).waiting = s.waiting := rfl
@[simp] theorem State.modVf_taccs (s : State) (c : Nat) (f : Vf → Vf) : (s.modVf c f).taccs = s.taccs := rfl
@[simp] theorem State.modVf_copies (s : State) (c : Nat) (f : Vf → Vf) : (s.modVf c f).copies = s.copies := rfl
@[simp] theorem State.modVf_bks (s : State) (c : Nat) (f : Vf → Vf) : (s.modVf c f).bks = s.bks := rfl
@[simp] theorem State.modVf_parts (s : State) (c : Nat) (f : Vf → Vf) : (s.modVf c f).parts = s.parts := rfl
@[simp] theorem State.modVf_ctxs (s : State) (c : Nat) (f : Vf → Vf) : (s.modVf c f).ctxs = s.ctxs := rfl
@[simp] theorem State.modVf_pf (s : State) (c : Nat) (f : Vf → Vf) : (s.modVf c f).pf = s.pf := rfl
@[simp] theorem State.modVf_msix (s : State) (c : Nat) (f : Vf → Vf) : (s.modVf c f).msix = s.msix := rfl
@[simp] theorem State.modVf_inj (s : State) (c : Nat) (f : Vf → Vf) : (s.modVf c f).inj = s.inj := rfl
@[simp] theorem State.modVf_injWait (s : State) (c : Nat) (f : Vf → Vf) : (s.modVf c f).injWait = s.injWait := rfl
@[simp] theorem State.modVf_biAsked (s : State) (c : Nat) (f : Vf → Vf) : (s.modVf c f).biAsked = s.biAsked := rfl
@[simp] theorem State.modVf_biDone (s : State) (c : Nat) (f : Vf → Vf) : (s.modVf c f).biDone = s.biDone := rfl
@[simp] theorem State.modVf_linkDown (s : State) (c : Nat) (f : Vf → Vf) : (s.modVf c f).linkDown = s.linkDown := rfl
@[simp] theorem State.modVf_broken (s : State) (c : Nat) (f : Vf → Vf) : (s.modVf c f).broken = s.broken := rfl
@[simp] theorem State.modVf_linkSeq (s : State) (c : Nat) (f : Vf → Vf) : (s.modVf c f).linkSeq = s.linkSeq := rfl
@[simp] theorem State.modVf_throttle (s : State) (c : Nat) (f : Vf → Vf) : (s.modVf c f).throttle = s.throttle := rfl
@[simp] theorem State.modVf_landings (s : State) (c : Nat) (f : Vf → Vf) : (s.modVf c f).landings = s.landings := rfl

/-! `modPart` -/

@[simp] theorem State.modPart_cycle (s : State) (c : Nat) (f : Part → Part) : (s.modPart c f).cycle = s.cycle := by unfold State.modPart; split <;> rfl
@[simp] theorem State.modPart_agenda (s : State) (c : Nat) (f : Part → Part) : (s.modPart c f).agenda = s.agenda := by unfold State.modPart; split <;> rfl
@[simp] theorem State.modPart_ev (s : State) (c : Nat) (f : Part → Part) : (s.modPart c f).ev = s.ev := by unfold State.modPart; split <;> rfl
@[simp] theorem State.modPart_cur (s : State) (c : Nat) (f : Part → Part) : (s.modPart c f).cur = s.cur := by unfold State.modPart; split <;> rfl
@[simp] theorem State.modPart_cursor (s : State) (c : Nat) (f : Part → Part) : (s.modPart c f).cursor = s.cursor := by unfold State.modPart; split <;> rfl
@[simp] theorem State.modPart_gangs (s : State) (c : Nat) (f : Part → Part) : (s.modPart c f).gangs = s.gangs := by unfold State.modPart; split <;> rfl
@[simp] theorem State.modPart_issue (s : State) (c : Nat) (f : Part → Part) : (s.modPart c f).issue = s.issue := by unfold State.modPart; split <;> rfl
@[simp] theorem State.modPart_freeCtr (s : State) (c : Nat) (f : Part → Part) : (s.modPart c f).freeCtr = s.freeCtr := by unfold State.modPart; split <;> rfl
@[simp] theorem State.modPart_nextId (s : State) (c : Nat) (f : Part → Part) : (s.modPart c f).nextId = s.nextId := by unfold State.modPart; split <;> rfl
@[simp] theorem State.modPart_threads (s : State) (c : Nat) (f : Part → Part) : (s.modPart c f).threads = s.threads := by unfold State.modPart; split <;> rfl
@[simp] theorem State.modPart_cores (s : State) (c : Nat) (f : Part → Part) : (s.modPart c f).cores = s.cores := by unfold State.modPart; split <;> rfl
@[simp] theorem State.modPart_clusters (s : State) (c : Nat) (f : Part → Part) : (s.modPart c f).clusters = s.clusters := by unfold State.modPart; split <;> rfl
@[simp] theorem State.modPart_dies (s : State) (c : Nat) (f : Part → Part) : (s.modPart c f).dies = s.dies := by unfold State.modPart; split <;> rfl
@[simp] theorem State.modPart_pumps (s : State) (c : Nat) (f : Part → Part) : (s.modPart c f).pumps = s.pumps := by unfold State.modPart; split <;> rfl
@[simp] theorem State.modPart_mem (s : State) (c : Nat) (f : Part → Part) : (s.modPart c f).mem = s.mem := by unfold State.modPart; split <;> rfl
@[simp] theorem State.modPart_tags (s : State) (c : Nat) (f : Part → Part) : (s.modPart c f).tags = s.tags := by unfold State.modPart; split <;> rfl
@[simp] theorem State.modPart_lines (s : State) (c : Nat) (f : Part → Part) : (s.modPart c f).lines = s.lines := by unfold State.modPart; split <;> rfl
@[simp] theorem State.modPart_hostLines (s : State) (c : Nat) (f : Part → Part) : (s.modPart c f).hostLines = s.hostLines := by unfold State.modPart; split <;> rfl
@[simp] theorem State.modPart_locks (s : State) (c : Nat) (f : Part → Part) : (s.modPart c f).locks = s.locks := by unfold State.modPart; split <;> rfl
@[simp] theorem State.modPart_waiting (s : State) (c : Nat) (f : Part → Part) : (s.modPart c f).waiting = s.waiting := by unfold State.modPart; split <;> rfl
@[simp] theorem State.modPart_taccs (s : State) (c : Nat) (f : Part → Part) : (s.modPart c f).taccs = s.taccs := by unfold State.modPart; split <;> rfl
@[simp] theorem State.modPart_copies (s : State) (c : Nat) (f : Part → Part) : (s.modPart c f).copies = s.copies := by unfold State.modPart; split <;> rfl
@[simp] theorem State.modPart_bks (s : State) (c : Nat) (f : Part → Part) : (s.modPart c f).bks = s.bks := by unfold State.modPart; split <;> rfl
@[simp] theorem State.modPart_ctxs (s : State) (c : Nat) (f : Part → Part) : (s.modPart c f).ctxs = s.ctxs := by unfold State.modPart; split <;> rfl
@[simp] theorem State.modPart_pf (s : State) (c : Nat) (f : Part → Part) : (s.modPart c f).pf = s.pf := by unfold State.modPart; split <;> rfl
@[simp] theorem State.modPart_vfs (s : State) (c : Nat) (f : Part → Part) : (s.modPart c f).vfs = s.vfs := by unfold State.modPart; split <;> rfl
@[simp] theorem State.modPart_msix (s : State) (c : Nat) (f : Part → Part) : (s.modPart c f).msix = s.msix := by unfold State.modPart; split <;> rfl
@[simp] theorem State.modPart_inj (s : State) (c : Nat) (f : Part → Part) : (s.modPart c f).inj = s.inj := by unfold State.modPart; split <;> rfl
@[simp] theorem State.modPart_injWait (s : State) (c : Nat) (f : Part → Part) : (s.modPart c f).injWait = s.injWait := by unfold State.modPart; split <;> rfl
@[simp] theorem State.modPart_biAsked (s : State) (c : Nat) (f : Part → Part) : (s.modPart c f).biAsked = s.biAsked := by unfold State.modPart; split <;> rfl
@[simp] theorem State.modPart_biDone (s : State) (c : Nat) (f : Part → Part) : (s.modPart c f).biDone = s.biDone := by unfold State.modPart; split <;> rfl
@[simp] theorem State.modPart_linkDown (s : State) (c : Nat) (f : Part → Part) : (s.modPart c f).linkDown = s.linkDown := by unfold State.modPart; split <;> rfl
@[simp] theorem State.modPart_broken (s : State) (c : Nat) (f : Part → Part) : (s.modPart c f).broken = s.broken := by unfold State.modPart; split <;> rfl
@[simp] theorem State.modPart_linkSeq (s : State) (c : Nat) (f : Part → Part) : (s.modPart c f).linkSeq = s.linkSeq := by unfold State.modPart; split <;> rfl
@[simp] theorem State.modPart_throttle (s : State) (c : Nat) (f : Part → Part) : (s.modPart c f).throttle = s.throttle := by unfold State.modPart; split <;> rfl
@[simp] theorem State.modPart_landings (s : State) (c : Nat) (f : Part → Part) : (s.modPart c f).landings = s.landings := by unfold State.modPart; split <;> rfl

/-! `modCtx` -/

@[simp] theorem State.modCtx_cycle (s : State) (c : Nat) (f : Ctx → Ctx) : (s.modCtx c f).cycle = s.cycle := by unfold State.modCtx; split <;> rfl
@[simp] theorem State.modCtx_agenda (s : State) (c : Nat) (f : Ctx → Ctx) : (s.modCtx c f).agenda = s.agenda := by unfold State.modCtx; split <;> rfl
@[simp] theorem State.modCtx_ev (s : State) (c : Nat) (f : Ctx → Ctx) : (s.modCtx c f).ev = s.ev := by unfold State.modCtx; split <;> rfl
@[simp] theorem State.modCtx_cur (s : State) (c : Nat) (f : Ctx → Ctx) : (s.modCtx c f).cur = s.cur := by unfold State.modCtx; split <;> rfl
@[simp] theorem State.modCtx_cursor (s : State) (c : Nat) (f : Ctx → Ctx) : (s.modCtx c f).cursor = s.cursor := by unfold State.modCtx; split <;> rfl
@[simp] theorem State.modCtx_gangs (s : State) (c : Nat) (f : Ctx → Ctx) : (s.modCtx c f).gangs = s.gangs := by unfold State.modCtx; split <;> rfl
@[simp] theorem State.modCtx_issue (s : State) (c : Nat) (f : Ctx → Ctx) : (s.modCtx c f).issue = s.issue := by unfold State.modCtx; split <;> rfl
@[simp] theorem State.modCtx_freeCtr (s : State) (c : Nat) (f : Ctx → Ctx) : (s.modCtx c f).freeCtr = s.freeCtr := by unfold State.modCtx; split <;> rfl
@[simp] theorem State.modCtx_nextId (s : State) (c : Nat) (f : Ctx → Ctx) : (s.modCtx c f).nextId = s.nextId := by unfold State.modCtx; split <;> rfl
@[simp] theorem State.modCtx_threads (s : State) (c : Nat) (f : Ctx → Ctx) : (s.modCtx c f).threads = s.threads := by unfold State.modCtx; split <;> rfl
@[simp] theorem State.modCtx_cores (s : State) (c : Nat) (f : Ctx → Ctx) : (s.modCtx c f).cores = s.cores := by unfold State.modCtx; split <;> rfl
@[simp] theorem State.modCtx_clusters (s : State) (c : Nat) (f : Ctx → Ctx) : (s.modCtx c f).clusters = s.clusters := by unfold State.modCtx; split <;> rfl
@[simp] theorem State.modCtx_dies (s : State) (c : Nat) (f : Ctx → Ctx) : (s.modCtx c f).dies = s.dies := by unfold State.modCtx; split <;> rfl
@[simp] theorem State.modCtx_pumps (s : State) (c : Nat) (f : Ctx → Ctx) : (s.modCtx c f).pumps = s.pumps := by unfold State.modCtx; split <;> rfl
@[simp] theorem State.modCtx_mem (s : State) (c : Nat) (f : Ctx → Ctx) : (s.modCtx c f).mem = s.mem := by unfold State.modCtx; split <;> rfl
@[simp] theorem State.modCtx_tags (s : State) (c : Nat) (f : Ctx → Ctx) : (s.modCtx c f).tags = s.tags := by unfold State.modCtx; split <;> rfl
@[simp] theorem State.modCtx_lines (s : State) (c : Nat) (f : Ctx → Ctx) : (s.modCtx c f).lines = s.lines := by unfold State.modCtx; split <;> rfl
@[simp] theorem State.modCtx_hostLines (s : State) (c : Nat) (f : Ctx → Ctx) : (s.modCtx c f).hostLines = s.hostLines := by unfold State.modCtx; split <;> rfl
@[simp] theorem State.modCtx_locks (s : State) (c : Nat) (f : Ctx → Ctx) : (s.modCtx c f).locks = s.locks := by unfold State.modCtx; split <;> rfl
@[simp] theorem State.modCtx_waiting (s : State) (c : Nat) (f : Ctx → Ctx) : (s.modCtx c f).waiting = s.waiting := by unfold State.modCtx; split <;> rfl
@[simp] theorem State.modCtx_taccs (s : State) (c : Nat) (f : Ctx → Ctx) : (s.modCtx c f).taccs = s.taccs := by unfold State.modCtx; split <;> rfl
@[simp] theorem State.modCtx_copies (s : State) (c : Nat) (f : Ctx → Ctx) : (s.modCtx c f).copies = s.copies := by unfold State.modCtx; split <;> rfl
@[simp] theorem State.modCtx_bks (s : State) (c : Nat) (f : Ctx → Ctx) : (s.modCtx c f).bks = s.bks := by unfold State.modCtx; split <;> rfl
@[simp] theorem State.modCtx_parts (s : State) (c : Nat) (f : Ctx → Ctx) : (s.modCtx c f).parts = s.parts := by unfold State.modCtx; split <;> rfl
@[simp] theorem State.modCtx_pf (s : State) (c : Nat) (f : Ctx → Ctx) : (s.modCtx c f).pf = s.pf := by unfold State.modCtx; split <;> rfl
@[simp] theorem State.modCtx_vfs (s : State) (c : Nat) (f : Ctx → Ctx) : (s.modCtx c f).vfs = s.vfs := by unfold State.modCtx; split <;> rfl
@[simp] theorem State.modCtx_msix (s : State) (c : Nat) (f : Ctx → Ctx) : (s.modCtx c f).msix = s.msix := by unfold State.modCtx; split <;> rfl
@[simp] theorem State.modCtx_inj (s : State) (c : Nat) (f : Ctx → Ctx) : (s.modCtx c f).inj = s.inj := by unfold State.modCtx; split <;> rfl
@[simp] theorem State.modCtx_injWait (s : State) (c : Nat) (f : Ctx → Ctx) : (s.modCtx c f).injWait = s.injWait := by unfold State.modCtx; split <;> rfl
@[simp] theorem State.modCtx_biAsked (s : State) (c : Nat) (f : Ctx → Ctx) : (s.modCtx c f).biAsked = s.biAsked := by unfold State.modCtx; split <;> rfl
@[simp] theorem State.modCtx_biDone (s : State) (c : Nat) (f : Ctx → Ctx) : (s.modCtx c f).biDone = s.biDone := by unfold State.modCtx; split <;> rfl
@[simp] theorem State.modCtx_linkDown (s : State) (c : Nat) (f : Ctx → Ctx) : (s.modCtx c f).linkDown = s.linkDown := by unfold State.modCtx; split <;> rfl
@[simp] theorem State.modCtx_broken (s : State) (c : Nat) (f : Ctx → Ctx) : (s.modCtx c f).broken = s.broken := by unfold State.modCtx; split <;> rfl
@[simp] theorem State.modCtx_linkSeq (s : State) (c : Nat) (f : Ctx → Ctx) : (s.modCtx c f).linkSeq = s.linkSeq := by unfold State.modCtx; split <;> rfl
@[simp] theorem State.modCtx_throttle (s : State) (c : Nat) (f : Ctx → Ctx) : (s.modCtx c f).throttle = s.throttle := by unfold State.modCtx; split <;> rfl
@[simp] theorem State.modCtx_landings (s : State) (c : Nat) (f : Ctx → Ctx) : (s.modCtx c f).landings = s.landings := by unfold State.modCtx; split <;> rfl

/-! `fire` -/

@[simp] theorem State.fire_cycle (s : State) (n v : Nat) : (s.fire n v).cycle = s.cycle := rfl
@[simp] theorem State.fire_agenda (s : State) (n v : Nat) : (s.fire n v).agenda = s.agenda := rfl
@[simp] theorem State.fire_ev (s : State) (n v : Nat) : (s.fire n v).ev = s.ev := rfl
@[simp] theorem State.fire_cur (s : State) (n v : Nat) : (s.fire n v).cur = s.cur := rfl
@[simp] theorem State.fire_cursor (s : State) (n v : Nat) : (s.fire n v).cursor = s.cursor := rfl
@[simp] theorem State.fire_gangs (s : State) (n v : Nat) : (s.fire n v).gangs = s.gangs := rfl
@[simp] theorem State.fire_issue (s : State) (n v : Nat) : (s.fire n v).issue = s.issue := rfl
@[simp] theorem State.fire_freeCtr (s : State) (n v : Nat) : (s.fire n v).freeCtr = s.freeCtr := rfl
@[simp] theorem State.fire_nextId (s : State) (n v : Nat) : (s.fire n v).nextId = s.nextId := rfl
@[simp] theorem State.fire_threads (s : State) (n v : Nat) : (s.fire n v).threads = s.threads := rfl
@[simp] theorem State.fire_cores (s : State) (n v : Nat) : (s.fire n v).cores = s.cores := rfl
@[simp] theorem State.fire_clusters (s : State) (n v : Nat) : (s.fire n v).clusters = s.clusters := rfl
@[simp] theorem State.fire_dies (s : State) (n v : Nat) : (s.fire n v).dies = s.dies := rfl
@[simp] theorem State.fire_pumps (s : State) (n v : Nat) : (s.fire n v).pumps = s.pumps := rfl
@[simp] theorem State.fire_mem (s : State) (n v : Nat) : (s.fire n v).mem = s.mem := rfl
@[simp] theorem State.fire_tags (s : State) (n v : Nat) : (s.fire n v).tags = s.tags := rfl
@[simp] theorem State.fire_lines (s : State) (n v : Nat) : (s.fire n v).lines = s.lines := rfl
@[simp] theorem State.fire_hostLines (s : State) (n v : Nat) : (s.fire n v).hostLines = s.hostLines := rfl
@[simp] theorem State.fire_locks (s : State) (n v : Nat) : (s.fire n v).locks = s.locks := rfl
@[simp] theorem State.fire_waiting (s : State) (n v : Nat) : (s.fire n v).waiting = s.waiting := rfl
@[simp] theorem State.fire_taccs (s : State) (n v : Nat) : (s.fire n v).taccs = s.taccs := rfl
@[simp] theorem State.fire_copies (s : State) (n v : Nat) : (s.fire n v).copies = s.copies := rfl
@[simp] theorem State.fire_bks (s : State) (n v : Nat) : (s.fire n v).bks = s.bks := rfl
@[simp] theorem State.fire_parts (s : State) (n v : Nat) : (s.fire n v).parts = s.parts := rfl
@[simp] theorem State.fire_ctxs (s : State) (n v : Nat) : (s.fire n v).ctxs = s.ctxs := rfl
@[simp] theorem State.fire_pf (s : State) (n v : Nat) : (s.fire n v).pf = s.pf := rfl
@[simp] theorem State.fire_vfs (s : State) (n v : Nat) : (s.fire n v).vfs = s.vfs := rfl
@[simp] theorem State.fire_inj (s : State) (n v : Nat) : (s.fire n v).inj = s.inj := rfl
@[simp] theorem State.fire_injWait (s : State) (n v : Nat) : (s.fire n v).injWait = s.injWait := rfl
@[simp] theorem State.fire_biAsked (s : State) (n v : Nat) : (s.fire n v).biAsked = s.biAsked := rfl
@[simp] theorem State.fire_biDone (s : State) (n v : Nat) : (s.fire n v).biDone = s.biDone := rfl
@[simp] theorem State.fire_linkDown (s : State) (n v : Nat) : (s.fire n v).linkDown = s.linkDown := rfl
@[simp] theorem State.fire_broken (s : State) (n v : Nat) : (s.fire n v).broken = s.broken := rfl
@[simp] theorem State.fire_linkSeq (s : State) (n v : Nat) : (s.fire n v).linkSeq = s.linkSeq := rfl
@[simp] theorem State.fire_throttle (s : State) (n v : Nat) : (s.fire n v).throttle = s.throttle := rfl
@[simp] theorem State.fire_landings (s : State) (n v : Nat) : (s.fire n v).landings = s.landings := rfl

/-! `at_` -/

@[simp] theorem State.at__cycle (s : State) (n : Nat) (e : Event) : (s.at_ n e).cycle = s.cycle := rfl
@[simp] theorem State.at__ev (s : State) (n : Nat) (e : Event) : (s.at_ n e).ev = s.ev := rfl
@[simp] theorem State.at__cur (s : State) (n : Nat) (e : Event) : (s.at_ n e).cur = s.cur := rfl
@[simp] theorem State.at__cursor (s : State) (n : Nat) (e : Event) : (s.at_ n e).cursor = s.cursor := rfl
@[simp] theorem State.at__gangs (s : State) (n : Nat) (e : Event) : (s.at_ n e).gangs = s.gangs := rfl
@[simp] theorem State.at__issue (s : State) (n : Nat) (e : Event) : (s.at_ n e).issue = s.issue := rfl
@[simp] theorem State.at__freeCtr (s : State) (n : Nat) (e : Event) : (s.at_ n e).freeCtr = s.freeCtr := rfl
@[simp] theorem State.at__nextId (s : State) (n : Nat) (e : Event) : (s.at_ n e).nextId = s.nextId := rfl
@[simp] theorem State.at__threads (s : State) (n : Nat) (e : Event) : (s.at_ n e).threads = s.threads := rfl
@[simp] theorem State.at__cores (s : State) (n : Nat) (e : Event) : (s.at_ n e).cores = s.cores := rfl
@[simp] theorem State.at__clusters (s : State) (n : Nat) (e : Event) : (s.at_ n e).clusters = s.clusters := rfl
@[simp] theorem State.at__dies (s : State) (n : Nat) (e : Event) : (s.at_ n e).dies = s.dies := rfl
@[simp] theorem State.at__pumps (s : State) (n : Nat) (e : Event) : (s.at_ n e).pumps = s.pumps := rfl
@[simp] theorem State.at__mem (s : State) (n : Nat) (e : Event) : (s.at_ n e).mem = s.mem := rfl
@[simp] theorem State.at__tags (s : State) (n : Nat) (e : Event) : (s.at_ n e).tags = s.tags := rfl
@[simp] theorem State.at__lines (s : State) (n : Nat) (e : Event) : (s.at_ n e).lines = s.lines := rfl
@[simp] theorem State.at__hostLines (s : State) (n : Nat) (e : Event) : (s.at_ n e).hostLines = s.hostLines := rfl
@[simp] theorem State.at__locks (s : State) (n : Nat) (e : Event) : (s.at_ n e).locks = s.locks := rfl
@[simp] theorem State.at__waiting (s : State) (n : Nat) (e : Event) : (s.at_ n e).waiting = s.waiting := rfl
@[simp] theorem State.at__taccs (s : State) (n : Nat) (e : Event) : (s.at_ n e).taccs = s.taccs := rfl
@[simp] theorem State.at__copies (s : State) (n : Nat) (e : Event) : (s.at_ n e).copies = s.copies := rfl
@[simp] theorem State.at__bks (s : State) (n : Nat) (e : Event) : (s.at_ n e).bks = s.bks := rfl
@[simp] theorem State.at__parts (s : State) (n : Nat) (e : Event) : (s.at_ n e).parts = s.parts := rfl
@[simp] theorem State.at__ctxs (s : State) (n : Nat) (e : Event) : (s.at_ n e).ctxs = s.ctxs := rfl
@[simp] theorem State.at__pf (s : State) (n : Nat) (e : Event) : (s.at_ n e).pf = s.pf := rfl
@[simp] theorem State.at__vfs (s : State) (n : Nat) (e : Event) : (s.at_ n e).vfs = s.vfs := rfl
@[simp] theorem State.at__msix (s : State) (n : Nat) (e : Event) : (s.at_ n e).msix = s.msix := rfl
@[simp] theorem State.at__inj (s : State) (n : Nat) (e : Event) : (s.at_ n e).inj = s.inj := rfl
@[simp] theorem State.at__injWait (s : State) (n : Nat) (e : Event) : (s.at_ n e).injWait = s.injWait := rfl
@[simp] theorem State.at__biAsked (s : State) (n : Nat) (e : Event) : (s.at_ n e).biAsked = s.biAsked := rfl
@[simp] theorem State.at__biDone (s : State) (n : Nat) (e : Event) : (s.at_ n e).biDone = s.biDone := rfl
@[simp] theorem State.at__linkDown (s : State) (n : Nat) (e : Event) : (s.at_ n e).linkDown = s.linkDown := rfl
@[simp] theorem State.at__broken (s : State) (n : Nat) (e : Event) : (s.at_ n e).broken = s.broken := rfl
@[simp] theorem State.at__linkSeq (s : State) (n : Nat) (e : Event) : (s.at_ n e).linkSeq = s.linkSeq := rfl
@[simp] theorem State.at__throttle (s : State) (n : Nat) (e : Event) : (s.at_ n e).throttle = s.throttle := rfl
@[simp] theorem State.at__landings (s : State) (n : Nat) (e : Event) : (s.at_ n e).landings = s.landings := rfl

/-! `later` -/

@[simp] theorem State.later_cycle (s : State) (n : Nat) (e : Event) : (s.later n e).cycle = s.cycle := rfl
@[simp] theorem State.later_ev (s : State) (n : Nat) (e : Event) : (s.later n e).ev = s.ev := rfl
@[simp] theorem State.later_cur (s : State) (n : Nat) (e : Event) : (s.later n e).cur = s.cur := rfl
@[simp] theorem State.later_cursor (s : State) (n : Nat) (e : Event) : (s.later n e).cursor = s.cursor := rfl
@[simp] theorem State.later_gangs (s : State) (n : Nat) (e : Event) : (s.later n e).gangs = s.gangs := rfl
@[simp] theorem State.later_issue (s : State) (n : Nat) (e : Event) : (s.later n e).issue = s.issue := rfl
@[simp] theorem State.later_freeCtr (s : State) (n : Nat) (e : Event) : (s.later n e).freeCtr = s.freeCtr := rfl
@[simp] theorem State.later_nextId (s : State) (n : Nat) (e : Event) : (s.later n e).nextId = s.nextId := rfl
@[simp] theorem State.later_threads (s : State) (n : Nat) (e : Event) : (s.later n e).threads = s.threads := rfl
@[simp] theorem State.later_cores (s : State) (n : Nat) (e : Event) : (s.later n e).cores = s.cores := rfl
@[simp] theorem State.later_clusters (s : State) (n : Nat) (e : Event) : (s.later n e).clusters = s.clusters := rfl
@[simp] theorem State.later_dies (s : State) (n : Nat) (e : Event) : (s.later n e).dies = s.dies := rfl
@[simp] theorem State.later_pumps (s : State) (n : Nat) (e : Event) : (s.later n e).pumps = s.pumps := rfl
@[simp] theorem State.later_mem (s : State) (n : Nat) (e : Event) : (s.later n e).mem = s.mem := rfl
@[simp] theorem State.later_tags (s : State) (n : Nat) (e : Event) : (s.later n e).tags = s.tags := rfl
@[simp] theorem State.later_lines (s : State) (n : Nat) (e : Event) : (s.later n e).lines = s.lines := rfl
@[simp] theorem State.later_hostLines (s : State) (n : Nat) (e : Event) : (s.later n e).hostLines = s.hostLines := rfl
@[simp] theorem State.later_locks (s : State) (n : Nat) (e : Event) : (s.later n e).locks = s.locks := rfl
@[simp] theorem State.later_waiting (s : State) (n : Nat) (e : Event) : (s.later n e).waiting = s.waiting := rfl
@[simp] theorem State.later_taccs (s : State) (n : Nat) (e : Event) : (s.later n e).taccs = s.taccs := rfl
@[simp] theorem State.later_copies (s : State) (n : Nat) (e : Event) : (s.later n e).copies = s.copies := rfl
@[simp] theorem State.later_bks (s : State) (n : Nat) (e : Event) : (s.later n e).bks = s.bks := rfl
@[simp] theorem State.later_parts (s : State) (n : Nat) (e : Event) : (s.later n e).parts = s.parts := rfl
@[simp] theorem State.later_ctxs (s : State) (n : Nat) (e : Event) : (s.later n e).ctxs = s.ctxs := rfl
@[simp] theorem State.later_pf (s : State) (n : Nat) (e : Event) : (s.later n e).pf = s.pf := rfl
@[simp] theorem State.later_vfs (s : State) (n : Nat) (e : Event) : (s.later n e).vfs = s.vfs := rfl
@[simp] theorem State.later_msix (s : State) (n : Nat) (e : Event) : (s.later n e).msix = s.msix := rfl
@[simp] theorem State.later_inj (s : State) (n : Nat) (e : Event) : (s.later n e).inj = s.inj := rfl
@[simp] theorem State.later_injWait (s : State) (n : Nat) (e : Event) : (s.later n e).injWait = s.injWait := rfl
@[simp] theorem State.later_biAsked (s : State) (n : Nat) (e : Event) : (s.later n e).biAsked = s.biAsked := rfl
@[simp] theorem State.later_biDone (s : State) (n : Nat) (e : Event) : (s.later n e).biDone = s.biDone := rfl
@[simp] theorem State.later_linkDown (s : State) (n : Nat) (e : Event) : (s.later n e).linkDown = s.linkDown := rfl
@[simp] theorem State.later_broken (s : State) (n : Nat) (e : Event) : (s.later n e).broken = s.broken := rfl
@[simp] theorem State.later_linkSeq (s : State) (n : Nat) (e : Event) : (s.later n e).linkSeq = s.linkSeq := rfl
@[simp] theorem State.later_throttle (s : State) (n : Nat) (e : Event) : (s.later n e).throttle = s.throttle := rfl
@[simp] theorem State.later_landings (s : State) (n : Nat) (e : Event) : (s.later n e).landings = s.landings := rfl

/-! `dropEvents` -/

@[simp] theorem State.dropEvents_cycle (s : State) (p : Event → Bool) : (s.dropEvents p).cycle = s.cycle := rfl
@[simp] theorem State.dropEvents_ev (s : State) (p : Event → Bool) : (s.dropEvents p).ev = s.ev := rfl
@[simp] theorem State.dropEvents_cur (s : State) (p : Event → Bool) : (s.dropEvents p).cur = s.cur := rfl
@[simp] theorem State.dropEvents_cursor (s : State) (p : Event → Bool) : (s.dropEvents p).cursor = s.cursor := rfl
@[simp] theorem State.dropEvents_gangs (s : State) (p : Event → Bool) : (s.dropEvents p).gangs = s.gangs := rfl
@[simp] theorem State.dropEvents_issue (s : State) (p : Event → Bool) : (s.dropEvents p).issue = s.issue := rfl
@[simp] theorem State.dropEvents_freeCtr (s : State) (p : Event → Bool) : (s.dropEvents p).freeCtr = s.freeCtr := rfl
@[simp] theorem State.dropEvents_nextId (s : State) (p : Event → Bool) : (s.dropEvents p).nextId = s.nextId := rfl
@[simp] theorem State.dropEvents_threads (s : State) (p : Event → Bool) : (s.dropEvents p).threads = s.threads := rfl
@[simp] theorem State.dropEvents_cores (s : State) (p : Event → Bool) : (s.dropEvents p).cores = s.cores := rfl
@[simp] theorem State.dropEvents_clusters (s : State) (p : Event → Bool) : (s.dropEvents p).clusters = s.clusters := rfl
@[simp] theorem State.dropEvents_dies (s : State) (p : Event → Bool) : (s.dropEvents p).dies = s.dies := rfl
@[simp] theorem State.dropEvents_pumps (s : State) (p : Event → Bool) : (s.dropEvents p).pumps = s.pumps := rfl
@[simp] theorem State.dropEvents_mem (s : State) (p : Event → Bool) : (s.dropEvents p).mem = s.mem := rfl
@[simp] theorem State.dropEvents_tags (s : State) (p : Event → Bool) : (s.dropEvents p).tags = s.tags := rfl
@[simp] theorem State.dropEvents_lines (s : State) (p : Event → Bool) : (s.dropEvents p).lines = s.lines := rfl
@[simp] theorem State.dropEvents_hostLines (s : State) (p : Event → Bool) : (s.dropEvents p).hostLines = s.hostLines := rfl
@[simp] theorem State.dropEvents_locks (s : State) (p : Event → Bool) : (s.dropEvents p).locks = s.locks := rfl
@[simp] theorem State.dropEvents_waiting (s : State) (p : Event → Bool) : (s.dropEvents p).waiting = s.waiting := rfl
@[simp] theorem State.dropEvents_taccs (s : State) (p : Event → Bool) : (s.dropEvents p).taccs = s.taccs := rfl
@[simp] theorem State.dropEvents_copies (s : State) (p : Event → Bool) : (s.dropEvents p).copies = s.copies := rfl
@[simp] theorem State.dropEvents_bks (s : State) (p : Event → Bool) : (s.dropEvents p).bks = s.bks := rfl
@[simp] theorem State.dropEvents_parts (s : State) (p : Event → Bool) : (s.dropEvents p).parts = s.parts := rfl
@[simp] theorem State.dropEvents_ctxs (s : State) (p : Event → Bool) : (s.dropEvents p).ctxs = s.ctxs := rfl
@[simp] theorem State.dropEvents_pf (s : State) (p : Event → Bool) : (s.dropEvents p).pf = s.pf := rfl
@[simp] theorem State.dropEvents_vfs (s : State) (p : Event → Bool) : (s.dropEvents p).vfs = s.vfs := rfl
@[simp] theorem State.dropEvents_msix (s : State) (p : Event → Bool) : (s.dropEvents p).msix = s.msix := rfl
@[simp] theorem State.dropEvents_inj (s : State) (p : Event → Bool) : (s.dropEvents p).inj = s.inj := rfl
@[simp] theorem State.dropEvents_injWait (s : State) (p : Event → Bool) : (s.dropEvents p).injWait = s.injWait := rfl
@[simp] theorem State.dropEvents_biAsked (s : State) (p : Event → Bool) : (s.dropEvents p).biAsked = s.biAsked := rfl
@[simp] theorem State.dropEvents_biDone (s : State) (p : Event → Bool) : (s.dropEvents p).biDone = s.biDone := rfl
@[simp] theorem State.dropEvents_linkDown (s : State) (p : Event → Bool) : (s.dropEvents p).linkDown = s.linkDown := rfl
@[simp] theorem State.dropEvents_broken (s : State) (p : Event → Bool) : (s.dropEvents p).broken = s.broken := rfl
@[simp] theorem State.dropEvents_linkSeq (s : State) (p : Event → Bool) : (s.dropEvents p).linkSeq = s.linkSeq := rfl
@[simp] theorem State.dropEvents_throttle (s : State) (p : Event → Bool) : (s.dropEvents p).throttle = s.throttle := rfl
@[simp] theorem State.dropEvents_landings (s : State) (p : Event → Bool) : (s.dropEvents p).landings = s.landings := rfl

/-! `stalls` -/

@[simp] theorem State.stalls_cycle (s : State)  : (s.stalls).cycle = s.cycle := rfl
@[simp] theorem State.stalls_agenda (s : State)  : (s.stalls).agenda = s.agenda := rfl
@[simp] theorem State.stalls_ev (s : State)  : (s.stalls).ev = s.ev := rfl
@[simp] theorem State.stalls_cur (s : State)  : (s.stalls).cur = s.cur := rfl
@[simp] theorem State.stalls_cursor (s : State)  : (s.stalls).cursor = s.cursor := rfl
@[simp] theorem State.stalls_gangs (s : State)  : (s.stalls).gangs = s.gangs := rfl
@[simp] theorem State.stalls_freeCtr (s : State)  : (s.stalls).freeCtr = s.freeCtr := rfl
@[simp] theorem State.stalls_nextId (s : State)  : (s.stalls).nextId = s.nextId := rfl
@[simp] theorem State.stalls_threads (s : State)  : (s.stalls).threads = s.threads := rfl
@[simp] theorem State.stalls_cores (s : State)  : (s.stalls).cores = s.cores := rfl
@[simp] theorem State.stalls_clusters (s : State)  : (s.stalls).clusters = s.clusters := rfl
@[simp] theorem State.stalls_dies (s : State)  : (s.stalls).dies = s.dies := rfl
@[simp] theorem State.stalls_pumps (s : State)  : (s.stalls).pumps = s.pumps := rfl
@[simp] theorem State.stalls_mem (s : State)  : (s.stalls).mem = s.mem := rfl
@[simp] theorem State.stalls_tags (s : State)  : (s.stalls).tags = s.tags := rfl
@[simp] theorem State.stalls_lines (s : State)  : (s.stalls).lines = s.lines := rfl
@[simp] theorem State.stalls_hostLines (s : State)  : (s.stalls).hostLines = s.hostLines := rfl
@[simp] theorem State.stalls_locks (s : State)  : (s.stalls).locks = s.locks := rfl
@[simp] theorem State.stalls_waiting (s : State)  : (s.stalls).waiting = s.waiting := rfl
@[simp] theorem State.stalls_taccs (s : State)  : (s.stalls).taccs = s.taccs := rfl
@[simp] theorem State.stalls_copies (s : State)  : (s.stalls).copies = s.copies := rfl
@[simp] theorem State.stalls_bks (s : State)  : (s.stalls).bks = s.bks := rfl
@[simp] theorem State.stalls_parts (s : State)  : (s.stalls).parts = s.parts := rfl
@[simp] theorem State.stalls_ctxs (s : State)  : (s.stalls).ctxs = s.ctxs := rfl
@[simp] theorem State.stalls_pf (s : State)  : (s.stalls).pf = s.pf := rfl
@[simp] theorem State.stalls_vfs (s : State)  : (s.stalls).vfs = s.vfs := rfl
@[simp] theorem State.stalls_msix (s : State)  : (s.stalls).msix = s.msix := rfl
@[simp] theorem State.stalls_inj (s : State)  : (s.stalls).inj = s.inj := rfl
@[simp] theorem State.stalls_injWait (s : State)  : (s.stalls).injWait = s.injWait := rfl
@[simp] theorem State.stalls_biAsked (s : State)  : (s.stalls).biAsked = s.biAsked := rfl
@[simp] theorem State.stalls_biDone (s : State)  : (s.stalls).biDone = s.biDone := rfl
@[simp] theorem State.stalls_linkDown (s : State)  : (s.stalls).linkDown = s.linkDown := rfl
@[simp] theorem State.stalls_broken (s : State)  : (s.stalls).broken = s.broken := rfl
@[simp] theorem State.stalls_linkSeq (s : State)  : (s.stalls).linkSeq = s.linkSeq := rfl
@[simp] theorem State.stalls_throttle (s : State)  : (s.stalls).throttle = s.throttle := rfl
@[simp] theorem State.stalls_landings (s : State)  : (s.stalls).landings = s.landings := rfl

/-! `blocks` -/

@[simp] theorem State.blocks_cycle (s : State) (w : Why) : (s.blocks w).cycle = s.cycle := rfl
@[simp] theorem State.blocks_agenda (s : State) (w : Why) : (s.blocks w).agenda = s.agenda := rfl
@[simp] theorem State.blocks_ev (s : State) (w : Why) : (s.blocks w).ev = s.ev := rfl
@[simp] theorem State.blocks_cur (s : State) (w : Why) : (s.blocks w).cur = s.cur := rfl
@[simp] theorem State.blocks_cursor (s : State) (w : Why) : (s.blocks w).cursor = s.cursor := rfl
@[simp] theorem State.blocks_gangs (s : State) (w : Why) : (s.blocks w).gangs = s.gangs := rfl
@[simp] theorem State.blocks_issue (s : State) (w : Why) : (s.blocks w).issue = s.issue := rfl
@[simp] theorem State.blocks_freeCtr (s : State) (w : Why) : (s.blocks w).freeCtr = s.freeCtr := rfl
@[simp] theorem State.blocks_nextId (s : State) (w : Why) : (s.blocks w).nextId = s.nextId := rfl
@[simp] theorem State.blocks_cores (s : State) (w : Why) : (s.blocks w).cores = s.cores := rfl
@[simp] theorem State.blocks_clusters (s : State) (w : Why) : (s.blocks w).clusters = s.clusters := rfl
@[simp] theorem State.blocks_dies (s : State) (w : Why) : (s.blocks w).dies = s.dies := rfl
@[simp] theorem State.blocks_pumps (s : State) (w : Why) : (s.blocks w).pumps = s.pumps := rfl
@[simp] theorem State.blocks_mem (s : State) (w : Why) : (s.blocks w).mem = s.mem := rfl
@[simp] theorem State.blocks_tags (s : State) (w : Why) : (s.blocks w).tags = s.tags := rfl
@[simp] theorem State.blocks_lines (s : State) (w : Why) : (s.blocks w).lines = s.lines := rfl
@[simp] theorem State.blocks_hostLines (s : State) (w : Why) : (s.blocks w).hostLines = s.hostLines := rfl
@[simp] theorem State.blocks_locks (s : State) (w : Why) : (s.blocks w).locks = s.locks := rfl
@[simp] theorem State.blocks_waiting (s : State) (w : Why) : (s.blocks w).waiting = s.waiting := rfl
@[simp] theorem State.blocks_taccs (s : State) (w : Why) : (s.blocks w).taccs = s.taccs := rfl
@[simp] theorem State.blocks_copies (s : State) (w : Why) : (s.blocks w).copies = s.copies := rfl
@[simp] theorem State.blocks_bks (s : State) (w : Why) : (s.blocks w).bks = s.bks := rfl
@[simp] theorem State.blocks_parts (s : State) (w : Why) : (s.blocks w).parts = s.parts := rfl
@[simp] theorem State.blocks_ctxs (s : State) (w : Why) : (s.blocks w).ctxs = s.ctxs := rfl
@[simp] theorem State.blocks_pf (s : State) (w : Why) : (s.blocks w).pf = s.pf := rfl
@[simp] theorem State.blocks_vfs (s : State) (w : Why) : (s.blocks w).vfs = s.vfs := rfl
@[simp] theorem State.blocks_msix (s : State) (w : Why) : (s.blocks w).msix = s.msix := rfl
@[simp] theorem State.blocks_inj (s : State) (w : Why) : (s.blocks w).inj = s.inj := rfl
@[simp] theorem State.blocks_injWait (s : State) (w : Why) : (s.blocks w).injWait = s.injWait := rfl
@[simp] theorem State.blocks_biAsked (s : State) (w : Why) : (s.blocks w).biAsked = s.biAsked := rfl
@[simp] theorem State.blocks_biDone (s : State) (w : Why) : (s.blocks w).biDone = s.biDone := rfl
@[simp] theorem State.blocks_linkDown (s : State) (w : Why) : (s.blocks w).linkDown = s.linkDown := rfl
@[simp] theorem State.blocks_broken (s : State) (w : Why) : (s.blocks w).broken = s.broken := rfl
@[simp] theorem State.blocks_linkSeq (s : State) (w : Why) : (s.blocks w).linkSeq = s.linkSeq := rfl
@[simp] theorem State.blocks_throttle (s : State) (w : Why) : (s.blocks w).throttle = s.throttle := rfl
@[simp] theorem State.blocks_landings (s : State) (w : Why) : (s.blocks w).landings = s.landings := rfl

/-! `wake` -/

@[simp] theorem State.wake_cycle (s : State) (h : Nat) : (s.wake h).cycle = s.cycle := rfl
@[simp] theorem State.wake_agenda (s : State) (h : Nat) : (s.wake h).agenda = s.agenda := rfl
@[simp] theorem State.wake_ev (s : State) (h : Nat) : (s.wake h).ev = s.ev := rfl
@[simp] theorem State.wake_cur (s : State) (h : Nat) : (s.wake h).cur = s.cur := rfl
@[simp] theorem State.wake_cursor (s : State) (h : Nat) : (s.wake h).cursor = s.cursor := rfl
@[simp] theorem State.wake_gangs (s : State) (h : Nat) : (s.wake h).gangs = s.gangs := rfl
@[simp] theorem State.wake_issue (s : State) (h : Nat) : (s.wake h).issue = s.issue := rfl
@[simp] theorem State.wake_freeCtr (s : State) (h : Nat) : (s.wake h).freeCtr = s.freeCtr := rfl
@[simp] theorem State.wake_nextId (s : State) (h : Nat) : (s.wake h).nextId = s.nextId := rfl
@[simp] theorem State.wake_cores (s : State) (h : Nat) : (s.wake h).cores = s.cores := rfl
@[simp] theorem State.wake_clusters (s : State) (h : Nat) : (s.wake h).clusters = s.clusters := rfl
@[simp] theorem State.wake_dies (s : State) (h : Nat) : (s.wake h).dies = s.dies := rfl
@[simp] theorem State.wake_pumps (s : State) (h : Nat) : (s.wake h).pumps = s.pumps := rfl
@[simp] theorem State.wake_mem (s : State) (h : Nat) : (s.wake h).mem = s.mem := rfl
@[simp] theorem State.wake_tags (s : State) (h : Nat) : (s.wake h).tags = s.tags := rfl
@[simp] theorem State.wake_lines (s : State) (h : Nat) : (s.wake h).lines = s.lines := rfl
@[simp] theorem State.wake_hostLines (s : State) (h : Nat) : (s.wake h).hostLines = s.hostLines := rfl
@[simp] theorem State.wake_locks (s : State) (h : Nat) : (s.wake h).locks = s.locks := rfl
@[simp] theorem State.wake_waiting (s : State) (h : Nat) : (s.wake h).waiting = s.waiting := rfl
@[simp] theorem State.wake_taccs (s : State) (h : Nat) : (s.wake h).taccs = s.taccs := rfl
@[simp] theorem State.wake_copies (s : State) (h : Nat) : (s.wake h).copies = s.copies := rfl
@[simp] theorem State.wake_bks (s : State) (h : Nat) : (s.wake h).bks = s.bks := rfl
@[simp] theorem State.wake_parts (s : State) (h : Nat) : (s.wake h).parts = s.parts := rfl
@[simp] theorem State.wake_ctxs (s : State) (h : Nat) : (s.wake h).ctxs = s.ctxs := rfl
@[simp] theorem State.wake_pf (s : State) (h : Nat) : (s.wake h).pf = s.pf := rfl
@[simp] theorem State.wake_vfs (s : State) (h : Nat) : (s.wake h).vfs = s.vfs := rfl
@[simp] theorem State.wake_msix (s : State) (h : Nat) : (s.wake h).msix = s.msix := rfl
@[simp] theorem State.wake_inj (s : State) (h : Nat) : (s.wake h).inj = s.inj := rfl
@[simp] theorem State.wake_injWait (s : State) (h : Nat) : (s.wake h).injWait = s.injWait := rfl
@[simp] theorem State.wake_biAsked (s : State) (h : Nat) : (s.wake h).biAsked = s.biAsked := rfl
@[simp] theorem State.wake_biDone (s : State) (h : Nat) : (s.wake h).biDone = s.biDone := rfl
@[simp] theorem State.wake_linkDown (s : State) (h : Nat) : (s.wake h).linkDown = s.linkDown := rfl
@[simp] theorem State.wake_broken (s : State) (h : Nat) : (s.wake h).broken = s.broken := rfl
@[simp] theorem State.wake_linkSeq (s : State) (h : Nat) : (s.wake h).linkSeq = s.linkSeq := rfl
@[simp] theorem State.wake_throttle (s : State) (h : Nat) : (s.wake h).throttle = s.throttle := rfl
@[simp] theorem State.wake_landings (s : State) (h : Nat) : (s.wake h).landings = s.landings := rfl

/-! `goesOn` -/

@[simp] theorem State.goesOn_cycle (s : State) (h : Nat) : (s.goesOn h).cycle = s.cycle := rfl
@[simp] theorem State.goesOn_agenda (s : State) (h : Nat) : (s.goesOn h).agenda = s.agenda := rfl
@[simp] theorem State.goesOn_ev (s : State) (h : Nat) : (s.goesOn h).ev = s.ev := rfl
@[simp] theorem State.goesOn_cur (s : State) (h : Nat) : (s.goesOn h).cur = s.cur := rfl
@[simp] theorem State.goesOn_cursor (s : State) (h : Nat) : (s.goesOn h).cursor = s.cursor := rfl
@[simp] theorem State.goesOn_gangs (s : State) (h : Nat) : (s.goesOn h).gangs = s.gangs := rfl
@[simp] theorem State.goesOn_issue (s : State) (h : Nat) : (s.goesOn h).issue = s.issue := rfl
@[simp] theorem State.goesOn_freeCtr (s : State) (h : Nat) : (s.goesOn h).freeCtr = s.freeCtr := rfl
@[simp] theorem State.goesOn_nextId (s : State) (h : Nat) : (s.goesOn h).nextId = s.nextId := rfl
@[simp] theorem State.goesOn_cores (s : State) (h : Nat) : (s.goesOn h).cores = s.cores := rfl
@[simp] theorem State.goesOn_clusters (s : State) (h : Nat) : (s.goesOn h).clusters = s.clusters := rfl
@[simp] theorem State.goesOn_dies (s : State) (h : Nat) : (s.goesOn h).dies = s.dies := rfl
@[simp] theorem State.goesOn_pumps (s : State) (h : Nat) : (s.goesOn h).pumps = s.pumps := rfl
@[simp] theorem State.goesOn_mem (s : State) (h : Nat) : (s.goesOn h).mem = s.mem := rfl
@[simp] theorem State.goesOn_tags (s : State) (h : Nat) : (s.goesOn h).tags = s.tags := rfl
@[simp] theorem State.goesOn_lines (s : State) (h : Nat) : (s.goesOn h).lines = s.lines := rfl
@[simp] theorem State.goesOn_hostLines (s : State) (h : Nat) : (s.goesOn h).hostLines = s.hostLines := rfl
@[simp] theorem State.goesOn_locks (s : State) (h : Nat) : (s.goesOn h).locks = s.locks := rfl
@[simp] theorem State.goesOn_waiting (s : State) (h : Nat) : (s.goesOn h).waiting = s.waiting := rfl
@[simp] theorem State.goesOn_taccs (s : State) (h : Nat) : (s.goesOn h).taccs = s.taccs := rfl
@[simp] theorem State.goesOn_copies (s : State) (h : Nat) : (s.goesOn h).copies = s.copies := rfl
@[simp] theorem State.goesOn_bks (s : State) (h : Nat) : (s.goesOn h).bks = s.bks := rfl
@[simp] theorem State.goesOn_parts (s : State) (h : Nat) : (s.goesOn h).parts = s.parts := rfl
@[simp] theorem State.goesOn_ctxs (s : State) (h : Nat) : (s.goesOn h).ctxs = s.ctxs := rfl
@[simp] theorem State.goesOn_pf (s : State) (h : Nat) : (s.goesOn h).pf = s.pf := rfl
@[simp] theorem State.goesOn_vfs (s : State) (h : Nat) : (s.goesOn h).vfs = s.vfs := rfl
@[simp] theorem State.goesOn_msix (s : State) (h : Nat) : (s.goesOn h).msix = s.msix := rfl
@[simp] theorem State.goesOn_inj (s : State) (h : Nat) : (s.goesOn h).inj = s.inj := rfl
@[simp] theorem State.goesOn_injWait (s : State) (h : Nat) : (s.goesOn h).injWait = s.injWait := rfl
@[simp] theorem State.goesOn_biAsked (s : State) (h : Nat) : (s.goesOn h).biAsked = s.biAsked := rfl
@[simp] theorem State.goesOn_biDone (s : State) (h : Nat) : (s.goesOn h).biDone = s.biDone := rfl
@[simp] theorem State.goesOn_linkDown (s : State) (h : Nat) : (s.goesOn h).linkDown = s.linkDown := rfl
@[simp] theorem State.goesOn_broken (s : State) (h : Nat) : (s.goesOn h).broken = s.broken := rfl
@[simp] theorem State.goesOn_linkSeq (s : State) (h : Nat) : (s.goesOn h).linkSeq = s.linkSeq := rfl
@[simp] theorem State.goesOn_throttle (s : State) (h : Nat) : (s.goesOn h).throttle = s.throttle := rfl
@[simp] theorem State.goesOn_landings (s : State) (h : Nat) : (s.goesOn h).landings = s.landings := rfl

/-! `passOf` -/

@[simp] theorem State.passOf_cycle (s : State) (h n : Nat) : (s.passOf h n).cycle = s.cycle := rfl
@[simp] theorem State.passOf_agenda (s : State) (h n : Nat) : (s.passOf h n).agenda = s.agenda := rfl
@[simp] theorem State.passOf_ev (s : State) (h n : Nat) : (s.passOf h n).ev = s.ev := rfl
@[simp] theorem State.passOf_cur (s : State) (h n : Nat) : (s.passOf h n).cur = s.cur := rfl
@[simp] theorem State.passOf_cursor (s : State) (h n : Nat) : (s.passOf h n).cursor = s.cursor := rfl
@[simp] theorem State.passOf_gangs (s : State) (h n : Nat) : (s.passOf h n).gangs = s.gangs := rfl
@[simp] theorem State.passOf_issue (s : State) (h n : Nat) : (s.passOf h n).issue = s.issue := rfl
@[simp] theorem State.passOf_freeCtr (s : State) (h n : Nat) : (s.passOf h n).freeCtr = s.freeCtr := rfl
@[simp] theorem State.passOf_nextId (s : State) (h n : Nat) : (s.passOf h n).nextId = s.nextId := rfl
@[simp] theorem State.passOf_cores (s : State) (h n : Nat) : (s.passOf h n).cores = s.cores := rfl
@[simp] theorem State.passOf_clusters (s : State) (h n : Nat) : (s.passOf h n).clusters = s.clusters := rfl
@[simp] theorem State.passOf_dies (s : State) (h n : Nat) : (s.passOf h n).dies = s.dies := rfl
@[simp] theorem State.passOf_pumps (s : State) (h n : Nat) : (s.passOf h n).pumps = s.pumps := rfl
@[simp] theorem State.passOf_mem (s : State) (h n : Nat) : (s.passOf h n).mem = s.mem := rfl
@[simp] theorem State.passOf_tags (s : State) (h n : Nat) : (s.passOf h n).tags = s.tags := rfl
@[simp] theorem State.passOf_lines (s : State) (h n : Nat) : (s.passOf h n).lines = s.lines := rfl
@[simp] theorem State.passOf_hostLines (s : State) (h n : Nat) : (s.passOf h n).hostLines = s.hostLines := rfl
@[simp] theorem State.passOf_locks (s : State) (h n : Nat) : (s.passOf h n).locks = s.locks := rfl
@[simp] theorem State.passOf_waiting (s : State) (h n : Nat) : (s.passOf h n).waiting = s.waiting := rfl
@[simp] theorem State.passOf_taccs (s : State) (h n : Nat) : (s.passOf h n).taccs = s.taccs := rfl
@[simp] theorem State.passOf_copies (s : State) (h n : Nat) : (s.passOf h n).copies = s.copies := rfl
@[simp] theorem State.passOf_bks (s : State) (h n : Nat) : (s.passOf h n).bks = s.bks := rfl
@[simp] theorem State.passOf_parts (s : State) (h n : Nat) : (s.passOf h n).parts = s.parts := rfl
@[simp] theorem State.passOf_ctxs (s : State) (h n : Nat) : (s.passOf h n).ctxs = s.ctxs := rfl
@[simp] theorem State.passOf_pf (s : State) (h n : Nat) : (s.passOf h n).pf = s.pf := rfl
@[simp] theorem State.passOf_vfs (s : State) (h n : Nat) : (s.passOf h n).vfs = s.vfs := rfl
@[simp] theorem State.passOf_msix (s : State) (h n : Nat) : (s.passOf h n).msix = s.msix := rfl
@[simp] theorem State.passOf_inj (s : State) (h n : Nat) : (s.passOf h n).inj = s.inj := rfl
@[simp] theorem State.passOf_injWait (s : State) (h n : Nat) : (s.passOf h n).injWait = s.injWait := rfl
@[simp] theorem State.passOf_biAsked (s : State) (h n : Nat) : (s.passOf h n).biAsked = s.biAsked := rfl
@[simp] theorem State.passOf_biDone (s : State) (h n : Nat) : (s.passOf h n).biDone = s.biDone := rfl
@[simp] theorem State.passOf_linkDown (s : State) (h n : Nat) : (s.passOf h n).linkDown = s.linkDown := rfl
@[simp] theorem State.passOf_broken (s : State) (h n : Nat) : (s.passOf h n).broken = s.broken := rfl
@[simp] theorem State.passOf_linkSeq (s : State) (h n : Nat) : (s.passOf h n).linkSeq = s.linkSeq := rfl
@[simp] theorem State.passOf_throttle (s : State) (h n : Nat) : (s.passOf h n).throttle = s.throttle := rfl
@[simp] theorem State.passOf_landings (s : State) (h n : Nat) : (s.passOf h n).landings = s.landings := rfl

/-! `modSeq` -/

@[simp] theorem State.modSeq_cycle (s : State) (f : Seq → Seq) : (s.modSeq f).cycle = s.cycle := by unfold State.modSeq; split <;> rfl
@[simp] theorem State.modSeq_agenda (s : State) (f : Seq → Seq) : (s.modSeq f).agenda = s.agenda := by unfold State.modSeq; split <;> rfl
@[simp] theorem State.modSeq_ev (s : State) (f : Seq → Seq) : (s.modSeq f).ev = s.ev := by unfold State.modSeq; split <;> rfl
@[simp] theorem State.modSeq_cur (s : State) (f : Seq → Seq) : (s.modSeq f).cur = s.cur := by unfold State.modSeq; split <;> rfl
@[simp] theorem State.modSeq_cursor (s : State) (f : Seq → Seq) : (s.modSeq f).cursor = s.cursor := by unfold State.modSeq; split <;> rfl
@[simp] theorem State.modSeq_gangs (s : State) (f : Seq → Seq) : (s.modSeq f).gangs = s.gangs := by unfold State.modSeq; split <;> rfl
@[simp] theorem State.modSeq_issue (s : State) (f : Seq → Seq) : (s.modSeq f).issue = s.issue := by unfold State.modSeq; split <;> rfl
@[simp] theorem State.modSeq_freeCtr (s : State) (f : Seq → Seq) : (s.modSeq f).freeCtr = s.freeCtr := by unfold State.modSeq; split <;> rfl
@[simp] theorem State.modSeq_nextId (s : State) (f : Seq → Seq) : (s.modSeq f).nextId = s.nextId := by unfold State.modSeq; split <;> rfl
@[simp] theorem State.modSeq_cores (s : State) (f : Seq → Seq) : (s.modSeq f).cores = s.cores := by unfold State.modSeq; split <;> rfl
@[simp] theorem State.modSeq_clusters (s : State) (f : Seq → Seq) : (s.modSeq f).clusters = s.clusters := by unfold State.modSeq; split <;> rfl
@[simp] theorem State.modSeq_dies (s : State) (f : Seq → Seq) : (s.modSeq f).dies = s.dies := by unfold State.modSeq; split <;> rfl
@[simp] theorem State.modSeq_mem (s : State) (f : Seq → Seq) : (s.modSeq f).mem = s.mem := by unfold State.modSeq; split <;> rfl
@[simp] theorem State.modSeq_tags (s : State) (f : Seq → Seq) : (s.modSeq f).tags = s.tags := by unfold State.modSeq; split <;> rfl
@[simp] theorem State.modSeq_lines (s : State) (f : Seq → Seq) : (s.modSeq f).lines = s.lines := by unfold State.modSeq; split <;> rfl
@[simp] theorem State.modSeq_hostLines (s : State) (f : Seq → Seq) : (s.modSeq f).hostLines = s.hostLines := by unfold State.modSeq; split <;> rfl
@[simp] theorem State.modSeq_locks (s : State) (f : Seq → Seq) : (s.modSeq f).locks = s.locks := by unfold State.modSeq; split <;> rfl
@[simp] theorem State.modSeq_waiting (s : State) (f : Seq → Seq) : (s.modSeq f).waiting = s.waiting := by unfold State.modSeq; split <;> rfl
@[simp] theorem State.modSeq_taccs (s : State) (f : Seq → Seq) : (s.modSeq f).taccs = s.taccs := by unfold State.modSeq; split <;> rfl
@[simp] theorem State.modSeq_copies (s : State) (f : Seq → Seq) : (s.modSeq f).copies = s.copies := by unfold State.modSeq; split <;> rfl
@[simp] theorem State.modSeq_bks (s : State) (f : Seq → Seq) : (s.modSeq f).bks = s.bks := by unfold State.modSeq; split <;> rfl
@[simp] theorem State.modSeq_parts (s : State) (f : Seq → Seq) : (s.modSeq f).parts = s.parts := by unfold State.modSeq; split <;> rfl
@[simp] theorem State.modSeq_ctxs (s : State) (f : Seq → Seq) : (s.modSeq f).ctxs = s.ctxs := by unfold State.modSeq; split <;> rfl
@[simp] theorem State.modSeq_pf (s : State) (f : Seq → Seq) : (s.modSeq f).pf = s.pf := by unfold State.modSeq; split <;> rfl
@[simp] theorem State.modSeq_vfs (s : State) (f : Seq → Seq) : (s.modSeq f).vfs = s.vfs := by unfold State.modSeq; split <;> rfl
@[simp] theorem State.modSeq_msix (s : State) (f : Seq → Seq) : (s.modSeq f).msix = s.msix := by unfold State.modSeq; split <;> rfl
@[simp] theorem State.modSeq_inj (s : State) (f : Seq → Seq) : (s.modSeq f).inj = s.inj := by unfold State.modSeq; split <;> rfl
@[simp] theorem State.modSeq_injWait (s : State) (f : Seq → Seq) : (s.modSeq f).injWait = s.injWait := by unfold State.modSeq; split <;> rfl
@[simp] theorem State.modSeq_biAsked (s : State) (f : Seq → Seq) : (s.modSeq f).biAsked = s.biAsked := by unfold State.modSeq; split <;> rfl
@[simp] theorem State.modSeq_biDone (s : State) (f : Seq → Seq) : (s.modSeq f).biDone = s.biDone := by unfold State.modSeq; split <;> rfl
@[simp] theorem State.modSeq_linkDown (s : State) (f : Seq → Seq) : (s.modSeq f).linkDown = s.linkDown := by unfold State.modSeq; split <;> rfl
@[simp] theorem State.modSeq_broken (s : State) (f : Seq → Seq) : (s.modSeq f).broken = s.broken := by unfold State.modSeq; split <;> rfl
@[simp] theorem State.modSeq_linkSeq (s : State) (f : Seq → Seq) : (s.modSeq f).linkSeq = s.linkSeq := by unfold State.modSeq; split <;> rfl
@[simp] theorem State.modSeq_throttle (s : State) (f : Seq → Seq) : (s.modSeq f).throttle = s.throttle := by unfold State.modSeq; split <;> rfl
@[simp] theorem State.modSeq_landings (s : State) (f : Seq → Seq) : (s.modSeq f).landings = s.landings := by unfold State.modSeq; split <;> rfl

/-! `setX` -/

@[simp] theorem State.setX_cycle (s : State) (r : Reg) (v : Word) : (s.setX r v).cycle = s.cycle := by unfold State.setX; split <;> rfl
@[simp] theorem State.setX_agenda (s : State) (r : Reg) (v : Word) : (s.setX r v).agenda = s.agenda := by unfold State.setX; split <;> rfl
@[simp] theorem State.setX_ev (s : State) (r : Reg) (v : Word) : (s.setX r v).ev = s.ev := by unfold State.setX; split <;> rfl
@[simp] theorem State.setX_cur (s : State) (r : Reg) (v : Word) : (s.setX r v).cur = s.cur := by unfold State.setX; split <;> rfl
@[simp] theorem State.setX_cursor (s : State) (r : Reg) (v : Word) : (s.setX r v).cursor = s.cursor := by unfold State.setX; split <;> rfl
@[simp] theorem State.setX_gangs (s : State) (r : Reg) (v : Word) : (s.setX r v).gangs = s.gangs := by unfold State.setX; split <;> rfl
@[simp] theorem State.setX_issue (s : State) (r : Reg) (v : Word) : (s.setX r v).issue = s.issue := by unfold State.setX; split <;> rfl
@[simp] theorem State.setX_freeCtr (s : State) (r : Reg) (v : Word) : (s.setX r v).freeCtr = s.freeCtr := by unfold State.setX; split <;> rfl
@[simp] theorem State.setX_nextId (s : State) (r : Reg) (v : Word) : (s.setX r v).nextId = s.nextId := by unfold State.setX; split <;> rfl
@[simp] theorem State.setX_cores (s : State) (r : Reg) (v : Word) : (s.setX r v).cores = s.cores := by unfold State.setX; split <;> rfl
@[simp] theorem State.setX_clusters (s : State) (r : Reg) (v : Word) : (s.setX r v).clusters = s.clusters := by unfold State.setX; split <;> rfl
@[simp] theorem State.setX_dies (s : State) (r : Reg) (v : Word) : (s.setX r v).dies = s.dies := by unfold State.setX; split <;> rfl
@[simp] theorem State.setX_mem (s : State) (r : Reg) (v : Word) : (s.setX r v).mem = s.mem := by unfold State.setX; split <;> rfl
@[simp] theorem State.setX_tags (s : State) (r : Reg) (v : Word) : (s.setX r v).tags = s.tags := by unfold State.setX; split <;> rfl
@[simp] theorem State.setX_lines (s : State) (r : Reg) (v : Word) : (s.setX r v).lines = s.lines := by unfold State.setX; split <;> rfl
@[simp] theorem State.setX_hostLines (s : State) (r : Reg) (v : Word) : (s.setX r v).hostLines = s.hostLines := by unfold State.setX; split <;> rfl
@[simp] theorem State.setX_locks (s : State) (r : Reg) (v : Word) : (s.setX r v).locks = s.locks := by unfold State.setX; split <;> rfl
@[simp] theorem State.setX_waiting (s : State) (r : Reg) (v : Word) : (s.setX r v).waiting = s.waiting := by unfold State.setX; split <;> rfl
@[simp] theorem State.setX_taccs (s : State) (r : Reg) (v : Word) : (s.setX r v).taccs = s.taccs := by unfold State.setX; split <;> rfl
@[simp] theorem State.setX_copies (s : State) (r : Reg) (v : Word) : (s.setX r v).copies = s.copies := by unfold State.setX; split <;> rfl
@[simp] theorem State.setX_bks (s : State) (r : Reg) (v : Word) : (s.setX r v).bks = s.bks := by unfold State.setX; split <;> rfl
@[simp] theorem State.setX_parts (s : State) (r : Reg) (v : Word) : (s.setX r v).parts = s.parts := by unfold State.setX; split <;> rfl
@[simp] theorem State.setX_ctxs (s : State) (r : Reg) (v : Word) : (s.setX r v).ctxs = s.ctxs := by unfold State.setX; split <;> rfl
@[simp] theorem State.setX_pf (s : State) (r : Reg) (v : Word) : (s.setX r v).pf = s.pf := by unfold State.setX; split <;> rfl
@[simp] theorem State.setX_vfs (s : State) (r : Reg) (v : Word) : (s.setX r v).vfs = s.vfs := by unfold State.setX; split <;> rfl
@[simp] theorem State.setX_msix (s : State) (r : Reg) (v : Word) : (s.setX r v).msix = s.msix := by unfold State.setX; split <;> rfl
@[simp] theorem State.setX_inj (s : State) (r : Reg) (v : Word) : (s.setX r v).inj = s.inj := by unfold State.setX; split <;> rfl
@[simp] theorem State.setX_injWait (s : State) (r : Reg) (v : Word) : (s.setX r v).injWait = s.injWait := by unfold State.setX; split <;> rfl
@[simp] theorem State.setX_biAsked (s : State) (r : Reg) (v : Word) : (s.setX r v).biAsked = s.biAsked := by unfold State.setX; split <;> rfl
@[simp] theorem State.setX_biDone (s : State) (r : Reg) (v : Word) : (s.setX r v).biDone = s.biDone := by unfold State.setX; split <;> rfl
@[simp] theorem State.setX_linkDown (s : State) (r : Reg) (v : Word) : (s.setX r v).linkDown = s.linkDown := by unfold State.setX; split <;> rfl
@[simp] theorem State.setX_broken (s : State) (r : Reg) (v : Word) : (s.setX r v).broken = s.broken := by unfold State.setX; split <;> rfl
@[simp] theorem State.setX_linkSeq (s : State) (r : Reg) (v : Word) : (s.setX r v).linkSeq = s.linkSeq := by unfold State.setX; split <;> rfl
@[simp] theorem State.setX_throttle (s : State) (r : Reg) (v : Word) : (s.setX r v).throttle = s.throttle := by unfold State.setX; split <;> rfl
@[simp] theorem State.setX_landings (s : State) (r : Reg) (v : Word) : (s.setX r v).landings = s.landings := by unfold State.setX; split <;> rfl

/-! `count` -/

@[simp] theorem State.count_cycle (s : State)  : (s.count).cycle = s.cycle := by unfold State.count; split <;> rfl
@[simp] theorem State.count_agenda (s : State)  : (s.count).agenda = s.agenda := by unfold State.count; split <;> rfl
@[simp] theorem State.count_ev (s : State)  : (s.count).ev = s.ev := by unfold State.count; split <;> rfl
@[simp] theorem State.count_cur (s : State)  : (s.count).cur = s.cur := by unfold State.count; split <;> rfl
@[simp] theorem State.count_cursor (s : State)  : (s.count).cursor = s.cursor := by unfold State.count; split <;> rfl
@[simp] theorem State.count_gangs (s : State)  : (s.count).gangs = s.gangs := by unfold State.count; split <;> rfl
@[simp] theorem State.count_issue (s : State)  : (s.count).issue = s.issue := by unfold State.count; split <;> rfl
@[simp] theorem State.count_freeCtr (s : State)  : (s.count).freeCtr = s.freeCtr := by unfold State.count; split <;> rfl
@[simp] theorem State.count_nextId (s : State)  : (s.count).nextId = s.nextId := by unfold State.count; split <;> rfl
@[simp] theorem State.count_cores (s : State)  : (s.count).cores = s.cores := by unfold State.count; split <;> rfl
@[simp] theorem State.count_clusters (s : State)  : (s.count).clusters = s.clusters := by unfold State.count; split <;> rfl
@[simp] theorem State.count_dies (s : State)  : (s.count).dies = s.dies := by unfold State.count; split <;> rfl
@[simp] theorem State.count_pumps (s : State)  : (s.count).pumps = s.pumps := by unfold State.count; split <;> rfl
@[simp] theorem State.count_mem (s : State)  : (s.count).mem = s.mem := by unfold State.count; split <;> rfl
@[simp] theorem State.count_tags (s : State)  : (s.count).tags = s.tags := by unfold State.count; split <;> rfl
@[simp] theorem State.count_lines (s : State)  : (s.count).lines = s.lines := by unfold State.count; split <;> rfl
@[simp] theorem State.count_hostLines (s : State)  : (s.count).hostLines = s.hostLines := by unfold State.count; split <;> rfl
@[simp] theorem State.count_locks (s : State)  : (s.count).locks = s.locks := by unfold State.count; split <;> rfl
@[simp] theorem State.count_waiting (s : State)  : (s.count).waiting = s.waiting := by unfold State.count; split <;> rfl
@[simp] theorem State.count_taccs (s : State)  : (s.count).taccs = s.taccs := by unfold State.count; split <;> rfl
@[simp] theorem State.count_copies (s : State)  : (s.count).copies = s.copies := by unfold State.count; split <;> rfl
@[simp] theorem State.count_bks (s : State)  : (s.count).bks = s.bks := by unfold State.count; split <;> rfl
@[simp] theorem State.count_parts (s : State)  : (s.count).parts = s.parts := by unfold State.count; split <;> rfl
@[simp] theorem State.count_ctxs (s : State)  : (s.count).ctxs = s.ctxs := by unfold State.count; split <;> rfl
@[simp] theorem State.count_pf (s : State)  : (s.count).pf = s.pf := by unfold State.count; split <;> rfl
@[simp] theorem State.count_vfs (s : State)  : (s.count).vfs = s.vfs := by unfold State.count; split <;> rfl
@[simp] theorem State.count_msix (s : State)  : (s.count).msix = s.msix := by unfold State.count; split <;> rfl
@[simp] theorem State.count_inj (s : State)  : (s.count).inj = s.inj := by unfold State.count; split <;> rfl
@[simp] theorem State.count_injWait (s : State)  : (s.count).injWait = s.injWait := by unfold State.count; split <;> rfl
@[simp] theorem State.count_biAsked (s : State)  : (s.count).biAsked = s.biAsked := by unfold State.count; split <;> rfl
@[simp] theorem State.count_biDone (s : State)  : (s.count).biDone = s.biDone := by unfold State.count; split <;> rfl
@[simp] theorem State.count_linkDown (s : State)  : (s.count).linkDown = s.linkDown := by unfold State.count; split <;> rfl
@[simp] theorem State.count_broken (s : State)  : (s.count).broken = s.broken := by unfold State.count; split <;> rfl
@[simp] theorem State.count_linkSeq (s : State)  : (s.count).linkSeq = s.linkSeq := by unfold State.count; split <;> rfl
@[simp] theorem State.count_throttle (s : State)  : (s.count).throttle = s.throttle := by unfold State.count; split <;> rfl
@[simp] theorem State.count_landings (s : State)  : (s.count).landings = s.landings := by unfold State.count; split <;> rfl

/-! `pass` -/

@[simp] theorem State.pass_cycle (s : State) (n : Nat) : (s.pass n).cycle = s.cycle := by simp [State.pass]
@[simp] theorem State.pass_agenda (s : State) (n : Nat) : (s.pass n).agenda = s.agenda := by simp [State.pass]
@[simp] theorem State.pass_ev (s : State) (n : Nat) : (s.pass n).ev = s.ev := by simp [State.pass]
@[simp] theorem State.pass_cur (s : State) (n : Nat) : (s.pass n).cur = s.cur := by simp [State.pass]
@[simp] theorem State.pass_cursor (s : State) (n : Nat) : (s.pass n).cursor = s.cursor := by simp [State.pass]
@[simp] theorem State.pass_gangs (s : State) (n : Nat) : (s.pass n).gangs = s.gangs := by simp [State.pass]
@[simp] theorem State.pass_issue (s : State) (n : Nat) : (s.pass n).issue = s.issue := by simp [State.pass]
@[simp] theorem State.pass_freeCtr (s : State) (n : Nat) : (s.pass n).freeCtr = s.freeCtr := by simp [State.pass]
@[simp] theorem State.pass_nextId (s : State) (n : Nat) : (s.pass n).nextId = s.nextId := by simp [State.pass]
@[simp] theorem State.pass_cores (s : State) (n : Nat) : (s.pass n).cores = s.cores := by simp [State.pass]
@[simp] theorem State.pass_clusters (s : State) (n : Nat) : (s.pass n).clusters = s.clusters := by simp [State.pass]
@[simp] theorem State.pass_dies (s : State) (n : Nat) : (s.pass n).dies = s.dies := by simp [State.pass]
@[simp] theorem State.pass_mem (s : State) (n : Nat) : (s.pass n).mem = s.mem := by simp [State.pass]
@[simp] theorem State.pass_tags (s : State) (n : Nat) : (s.pass n).tags = s.tags := by simp [State.pass]
@[simp] theorem State.pass_lines (s : State) (n : Nat) : (s.pass n).lines = s.lines := by simp [State.pass]
@[simp] theorem State.pass_hostLines (s : State) (n : Nat) : (s.pass n).hostLines = s.hostLines := by simp [State.pass]
@[simp] theorem State.pass_locks (s : State) (n : Nat) : (s.pass n).locks = s.locks := by simp [State.pass]
@[simp] theorem State.pass_waiting (s : State) (n : Nat) : (s.pass n).waiting = s.waiting := by simp [State.pass]
@[simp] theorem State.pass_taccs (s : State) (n : Nat) : (s.pass n).taccs = s.taccs := by simp [State.pass]
@[simp] theorem State.pass_copies (s : State) (n : Nat) : (s.pass n).copies = s.copies := by simp [State.pass]
@[simp] theorem State.pass_bks (s : State) (n : Nat) : (s.pass n).bks = s.bks := by simp [State.pass]
@[simp] theorem State.pass_parts (s : State) (n : Nat) : (s.pass n).parts = s.parts := by simp [State.pass]
@[simp] theorem State.pass_ctxs (s : State) (n : Nat) : (s.pass n).ctxs = s.ctxs := by simp [State.pass]
@[simp] theorem State.pass_pf (s : State) (n : Nat) : (s.pass n).pf = s.pf := by simp [State.pass]
@[simp] theorem State.pass_vfs (s : State) (n : Nat) : (s.pass n).vfs = s.vfs := by simp [State.pass]
@[simp] theorem State.pass_msix (s : State) (n : Nat) : (s.pass n).msix = s.msix := by simp [State.pass]
@[simp] theorem State.pass_inj (s : State) (n : Nat) : (s.pass n).inj = s.inj := by simp [State.pass]
@[simp] theorem State.pass_injWait (s : State) (n : Nat) : (s.pass n).injWait = s.injWait := by simp [State.pass]
@[simp] theorem State.pass_biAsked (s : State) (n : Nat) : (s.pass n).biAsked = s.biAsked := by simp [State.pass]
@[simp] theorem State.pass_biDone (s : State) (n : Nat) : (s.pass n).biDone = s.biDone := by simp [State.pass]
@[simp] theorem State.pass_linkDown (s : State) (n : Nat) : (s.pass n).linkDown = s.linkDown := by simp [State.pass]
@[simp] theorem State.pass_broken (s : State) (n : Nat) : (s.pass n).broken = s.broken := by simp [State.pass]
@[simp] theorem State.pass_linkSeq (s : State) (n : Nat) : (s.pass n).linkSeq = s.linkSeq := by simp [State.pass]
@[simp] theorem State.pass_throttle (s : State) (n : Nat) : (s.pass n).throttle = s.throttle := by simp [State.pass]
@[simp] theorem State.pass_landings (s : State) (n : Nat) : (s.pass n).landings = s.landings := by simp [State.pass]

/-! `jump` -/

@[simp] theorem State.jump_cycle (s : State) (t : Word) : (s.jump t).cycle = s.cycle := by simp [State.jump]
@[simp] theorem State.jump_agenda (s : State) (t : Word) : (s.jump t).agenda = s.agenda := by simp [State.jump]
@[simp] theorem State.jump_ev (s : State) (t : Word) : (s.jump t).ev = s.ev := by simp [State.jump]
@[simp] theorem State.jump_cur (s : State) (t : Word) : (s.jump t).cur = s.cur := by simp [State.jump]
@[simp] theorem State.jump_cursor (s : State) (t : Word) : (s.jump t).cursor = s.cursor := by simp [State.jump]
@[simp] theorem State.jump_gangs (s : State) (t : Word) : (s.jump t).gangs = s.gangs := by simp [State.jump]
@[simp] theorem State.jump_issue (s : State) (t : Word) : (s.jump t).issue = s.issue := by simp [State.jump]
@[simp] theorem State.jump_freeCtr (s : State) (t : Word) : (s.jump t).freeCtr = s.freeCtr := by simp [State.jump]
@[simp] theorem State.jump_nextId (s : State) (t : Word) : (s.jump t).nextId = s.nextId := by simp [State.jump]
@[simp] theorem State.jump_cores (s : State) (t : Word) : (s.jump t).cores = s.cores := by simp [State.jump]
@[simp] theorem State.jump_clusters (s : State) (t : Word) : (s.jump t).clusters = s.clusters := by simp [State.jump]
@[simp] theorem State.jump_dies (s : State) (t : Word) : (s.jump t).dies = s.dies := by simp [State.jump]
@[simp] theorem State.jump_mem (s : State) (t : Word) : (s.jump t).mem = s.mem := by simp [State.jump]
@[simp] theorem State.jump_tags (s : State) (t : Word) : (s.jump t).tags = s.tags := by simp [State.jump]
@[simp] theorem State.jump_lines (s : State) (t : Word) : (s.jump t).lines = s.lines := by simp [State.jump]
@[simp] theorem State.jump_hostLines (s : State) (t : Word) : (s.jump t).hostLines = s.hostLines := by simp [State.jump]
@[simp] theorem State.jump_locks (s : State) (t : Word) : (s.jump t).locks = s.locks := by simp [State.jump]
@[simp] theorem State.jump_waiting (s : State) (t : Word) : (s.jump t).waiting = s.waiting := by simp [State.jump]
@[simp] theorem State.jump_taccs (s : State) (t : Word) : (s.jump t).taccs = s.taccs := by simp [State.jump]
@[simp] theorem State.jump_copies (s : State) (t : Word) : (s.jump t).copies = s.copies := by simp [State.jump]
@[simp] theorem State.jump_bks (s : State) (t : Word) : (s.jump t).bks = s.bks := by simp [State.jump]
@[simp] theorem State.jump_parts (s : State) (t : Word) : (s.jump t).parts = s.parts := by simp [State.jump]
@[simp] theorem State.jump_ctxs (s : State) (t : Word) : (s.jump t).ctxs = s.ctxs := by simp [State.jump]
@[simp] theorem State.jump_pf (s : State) (t : Word) : (s.jump t).pf = s.pf := by simp [State.jump]
@[simp] theorem State.jump_vfs (s : State) (t : Word) : (s.jump t).vfs = s.vfs := by simp [State.jump]
@[simp] theorem State.jump_msix (s : State) (t : Word) : (s.jump t).msix = s.msix := by simp [State.jump]
@[simp] theorem State.jump_inj (s : State) (t : Word) : (s.jump t).inj = s.inj := by simp [State.jump]
@[simp] theorem State.jump_injWait (s : State) (t : Word) : (s.jump t).injWait = s.injWait := by simp [State.jump]
@[simp] theorem State.jump_biAsked (s : State) (t : Word) : (s.jump t).biAsked = s.biAsked := by simp [State.jump]
@[simp] theorem State.jump_biDone (s : State) (t : Word) : (s.jump t).biDone = s.biDone := by simp [State.jump]
@[simp] theorem State.jump_linkDown (s : State) (t : Word) : (s.jump t).linkDown = s.linkDown := by simp [State.jump]
@[simp] theorem State.jump_broken (s : State) (t : Word) : (s.jump t).broken = s.broken := by simp [State.jump]
@[simp] theorem State.jump_linkSeq (s : State) (t : Word) : (s.jump t).linkSeq = s.linkSeq := by simp [State.jump]
@[simp] theorem State.jump_throttle (s : State) (t : Word) : (s.jump t).throttle = s.throttle := by simp [State.jump]
@[simp] theorem State.jump_landings (s : State) (t : Word) : (s.jump t).landings = s.landings := by simp [State.jump]

/-! `await` -/

@[simp] theorem State.await_cycle (s : State) (r : Reg) (c : Option Nat) : (s.await r c).cycle = s.cycle := by unfold State.await; repeat (first | rfl | split)
@[simp] theorem State.await_agenda (s : State) (r : Reg) (c : Option Nat) : (s.await r c).agenda = s.agenda := by unfold State.await; repeat (first | rfl | split)
@[simp] theorem State.await_ev (s : State) (r : Reg) (c : Option Nat) : (s.await r c).ev = s.ev := by unfold State.await; repeat (first | rfl | split)
@[simp] theorem State.await_cur (s : State) (r : Reg) (c : Option Nat) : (s.await r c).cur = s.cur := by unfold State.await; repeat (first | rfl | split)
@[simp] theorem State.await_cursor (s : State) (r : Reg) (c : Option Nat) : (s.await r c).cursor = s.cursor := by unfold State.await; repeat (first | rfl | split)
@[simp] theorem State.await_gangs (s : State) (r : Reg) (c : Option Nat) : (s.await r c).gangs = s.gangs := by unfold State.await; repeat (first | rfl | split)
@[simp] theorem State.await_issue (s : State) (r : Reg) (c : Option Nat) : (s.await r c).issue = s.issue := by unfold State.await; repeat (first | rfl | split)
@[simp] theorem State.await_freeCtr (s : State) (r : Reg) (c : Option Nat) : (s.await r c).freeCtr = s.freeCtr := by unfold State.await; repeat (first | rfl | split)
@[simp] theorem State.await_nextId (s : State) (r : Reg) (c : Option Nat) : (s.await r c).nextId = s.nextId := by unfold State.await; repeat (first | rfl | split)
@[simp] theorem State.await_cores (s : State) (r : Reg) (c : Option Nat) : (s.await r c).cores = s.cores := by unfold State.await; repeat (first | rfl | split)
@[simp] theorem State.await_clusters (s : State) (r : Reg) (c : Option Nat) : (s.await r c).clusters = s.clusters := by unfold State.await; repeat (first | rfl | split)
@[simp] theorem State.await_dies (s : State) (r : Reg) (c : Option Nat) : (s.await r c).dies = s.dies := by unfold State.await; repeat (first | rfl | split)
@[simp] theorem State.await_mem (s : State) (r : Reg) (c : Option Nat) : (s.await r c).mem = s.mem := by unfold State.await; repeat (first | rfl | split)
@[simp] theorem State.await_tags (s : State) (r : Reg) (c : Option Nat) : (s.await r c).tags = s.tags := by unfold State.await; repeat (first | rfl | split)
@[simp] theorem State.await_lines (s : State) (r : Reg) (c : Option Nat) : (s.await r c).lines = s.lines := by unfold State.await; repeat (first | rfl | split)
@[simp] theorem State.await_hostLines (s : State) (r : Reg) (c : Option Nat) : (s.await r c).hostLines = s.hostLines := by unfold State.await; repeat (first | rfl | split)
@[simp] theorem State.await_locks (s : State) (r : Reg) (c : Option Nat) : (s.await r c).locks = s.locks := by unfold State.await; repeat (first | rfl | split)
@[simp] theorem State.await_waiting (s : State) (r : Reg) (c : Option Nat) : (s.await r c).waiting = s.waiting := by unfold State.await; repeat (first | rfl | split)
@[simp] theorem State.await_taccs (s : State) (r : Reg) (c : Option Nat) : (s.await r c).taccs = s.taccs := by unfold State.await; repeat (first | rfl | split)
@[simp] theorem State.await_copies (s : State) (r : Reg) (c : Option Nat) : (s.await r c).copies = s.copies := by unfold State.await; repeat (first | rfl | split)
@[simp] theorem State.await_bks (s : State) (r : Reg) (c : Option Nat) : (s.await r c).bks = s.bks := by unfold State.await; repeat (first | rfl | split)
@[simp] theorem State.await_parts (s : State) (r : Reg) (c : Option Nat) : (s.await r c).parts = s.parts := by unfold State.await; repeat (first | rfl | split)
@[simp] theorem State.await_ctxs (s : State) (r : Reg) (c : Option Nat) : (s.await r c).ctxs = s.ctxs := by unfold State.await; repeat (first | rfl | split)
@[simp] theorem State.await_pf (s : State) (r : Reg) (c : Option Nat) : (s.await r c).pf = s.pf := by unfold State.await; repeat (first | rfl | split)
@[simp] theorem State.await_vfs (s : State) (r : Reg) (c : Option Nat) : (s.await r c).vfs = s.vfs := by unfold State.await; repeat (first | rfl | split)
@[simp] theorem State.await_msix (s : State) (r : Reg) (c : Option Nat) : (s.await r c).msix = s.msix := by unfold State.await; repeat (first | rfl | split)
@[simp] theorem State.await_inj (s : State) (r : Reg) (c : Option Nat) : (s.await r c).inj = s.inj := by unfold State.await; repeat (first | rfl | split)
@[simp] theorem State.await_injWait (s : State) (r : Reg) (c : Option Nat) : (s.await r c).injWait = s.injWait := by unfold State.await; repeat (first | rfl | split)
@[simp] theorem State.await_biAsked (s : State) (r : Reg) (c : Option Nat) : (s.await r c).biAsked = s.biAsked := by unfold State.await; repeat (first | rfl | split)
@[simp] theorem State.await_biDone (s : State) (r : Reg) (c : Option Nat) : (s.await r c).biDone = s.biDone := by unfold State.await; repeat (first | rfl | split)
@[simp] theorem State.await_linkDown (s : State) (r : Reg) (c : Option Nat) : (s.await r c).linkDown = s.linkDown := by unfold State.await; repeat (first | rfl | split)
@[simp] theorem State.await_broken (s : State) (r : Reg) (c : Option Nat) : (s.await r c).broken = s.broken := by unfold State.await; repeat (first | rfl | split)
@[simp] theorem State.await_linkSeq (s : State) (r : Reg) (c : Option Nat) : (s.await r c).linkSeq = s.linkSeq := by unfold State.await; repeat (first | rfl | split)
@[simp] theorem State.await_throttle (s : State) (r : Reg) (c : Option Nat) : (s.await r c).throttle = s.throttle := by unfold State.await; repeat (first | rfl | split)
@[simp] theorem State.await_landings (s : State) (r : Reg) (c : Option Nat) : (s.await r c).landings = s.landings := by unfold State.await; repeat (first | rfl | split)
/-! ### Tables -/

/-- What is set is read back. -/
@[simp] theorem tget_tset_same {β : Type} (d : β) (t : Table β) (n : Nat) (b : β) : tget d (tset t n b) n = b := by
  induction t with
  | nil => simp [tset, tget]
  | cons x t ih =>
    obtain ⟨k, c⟩ := x
    simp only [tset]
    split
    · simp [tget]
    · split
      · simp [tget]
      · simp only [tget]; rw [ih]; split <;> (try split) <;> first | rfl | omega
/-- Another entry is as before. -/
theorem tget_tset_ne {β : Type} (d : β) (t : Table β) (n m : Nat) (b : β) (h : m ≠ n) : tget d (tset t n b) m = tget d t m := by
  induction t with
  | nil => simp [tset, tget, h]
  | cons x t ih =>
    obtain ⟨k, c⟩ := x
    simp only [tset]
    split
    · subst_vars; simp [tget, h]
    · split
      · simp only [tget, h, if_false]
        by_cases hk : m = k
        · subst hk; simp; omega
        · simp only [hk, if_false]; split <;> (try split) <;> first | rfl | omega
      · simp only [tget]; rw [ih]
theorem tget_tset {β : Type} (d : β) (t : Table β) (n m : Nat) (b : β) :
    tget d (tset t n b) m = if m = n then b else tget d t m := by
  split
  · subst_vars; simp
  · exact tget_tset_ne d t n m b ‹_›
theorem tfind_tset {β : Type} (t : Table β) (n m : Nat) (b : β) :
    tfind (tset t n b) m = if m = n then some b else tfind t m := by
  induction t with
  | nil => simp only [tset, tfind]; repeat (first | rfl | omega | split)
  | cons x t ih =>
    obtain ⟨k, c⟩ := x
    simp only [tset]
    split
    · subst_vars; simp only [tfind]; split <;> rfl
    · split <;> simp only [tfind] <;> (try rw [ih]) <;> repeat (first | rfl | omega | split)

/-! ### The parts behind an update -/

theorem State.modThread_thread (s : State) (h : Nat) (f : Thread → Thread) (g : Nat) :
    (s.modThread h f).thread g = if g = h then f (s.thread h) else s.thread g := tget_tset ..
@[simp] theorem State.modThread_thread_same (s : State) (h : Nat) (f : Thread → Thread) :
    (s.modThread h f).thread h = f (s.thread h) := tget_tset_same ..
theorem State.setThread_thread (s : State) (h : Nat) (t : Thread) (g : Nat) :
    (s.setThread h t).thread g = if g = h then t else s.thread g := tget_tset ..
theorem State.modCore_core (s : State) (c : Nat) (f : Core → Core) (g : Nat) :
    (s.modCore c f).core g = if g = c then f (s.core c) else s.core g := tget_tset ..
@[simp] theorem State.modCore_core_same (s : State) (c : Nat) (f : Core → Core) : (s.modCore c f).core c = f (s.core c) :=
  tget_tset_same ..
theorem State.modCluster_cluster (s : State) (c : Nat) (f : Cluster → Cluster) (g : Nat) :
    (s.modCluster c f).cluster g = if g = c then f (s.cluster c) else s.cluster g := tget_tset ..
theorem State.modDie_die (s : State) (c : Nat) (f : Die → Die) (g : Nat) :
    (s.modDie c f).die g = if g = c then f (s.die c) else s.die g := tget_tset ..
theorem State.modPump_pump (s : State) (c : Nat) (f : Pump → Pump) (g : Nat) :
    (s.modPump c f).pump g = if g = c then f (s.pump c) else s.pump g := tget_tset ..
@[simp] theorem State.modPump_pump_same (s : State) (c : Nat) (f : Pump → Pump) : (s.modPump c f).pump c = f (s.pump c) :=
  tget_tset_same ..
theorem State.modVf_vf (s : State) (c : Nat) (f : Vf → Vf) (g : Nat) :
    (s.modVf c f).vf g = if g = c then f (s.vf c) else s.vf g := tget_tset ..
theorem State.modPart_part (s : State) (p : Nat) (f : Part → Part) (g : Nat) :
    (s.modPart p f).part g = if g = p then (s.part p).map f else s.part g := by
  unfold State.modPart State.part
  split
  · simp only [tfind_tset]; split <;> simp_all
  · split <;> simp_all
theorem State.modCtx_ctx (s : State) (c : Nat) (f : Ctx → Ctx) (g : Nat) :
    (s.modCtx c f).ctx g = if g = c then (s.ctx c).map f else s.ctx g := by
  unfold State.modCtx State.ctx
  split
  · simp only [tfind_tset]; split <;> simp_all
  · split <;> simp_all

/-! ### The agenda -/

theorem mem_insertEvent (rank : Nat → Event → Nat × Nat) (due : Nat) (e : Event) (l : List (Nat × Event)) (x : Nat × Event) :
    x ∈ insertEvent rank due e l ↔ x = (due, e) ∨ x ∈ l := by
  induction l with
  | nil => simp [insertEvent]
  | cons y l ih =>
    obtain ⟨d, z⟩ := y
    simp only [insertEvent]
    split
    · simp only [List.mem_cons, ih]; exact or_left_comm
    · simp
/-- An event put on the agenda is there, with those that were. -/
theorem State.mem_later (s : State) (n : Nat) (e : Event) (x : Nat × Event) :
    x ∈ (s.later n e).agenda ↔ x = (s.cycle + n, e) ∨ x ∈ s.agenda := by
  simp only [State.later, State.at_, mem_insertEvent, Nat.max_eq_left (Nat.le_add_right s.cycle n)]

end Sys2Proof.Machine
end

