-- ==== Sys2Proof/Laws/Memory.lean ====
section
/-!
SUPPORT. Memory and tables: every operation keeps the canonical form, what is written is read back, and nothing else
changes.
-/

namespace Sys2Proof.Machine

/-! ### Memory in canonical form -/

theorem wfFrom_weaken {lo hi : Nat} (m : List Host.Cell) (h : lo ≤ hi) (w : wfFrom (some hi) m = true) : wfFrom (some lo) m = true := by
  cases m with
  | nil => rfl
  | cons x m =>
    obtain ⟨k, b⟩ := x
    simp only [wfFrom, Bool.and_eq_true, decide_eq_true_eq] at w ⊢
    exact ⟨⟨by omega, w.1.2⟩, w.2⟩
theorem wfFrom_none {lo : Nat} (m : List Host.Cell) (w : wfFrom (some lo) m = true) : wfFrom none m = true := by
  cases m with
  | nil => rfl
  | cons x m =>
    obtain ⟨k, b⟩ := x
    simp only [wfFrom, Bool.and_eq_true] at w ⊢
    exact ⟨⟨trivial, w.1.2⟩, w.2⟩
/-- Nothing below the first listed address is listed. -/
theorem memGet_low {lo : Nat} (m : List Host.Cell) (w : wfFrom (some lo) m = true) {a : Nat} (h : a ≤ lo) : memGet m a = unlistedByte := by
  cases m with
  | nil => rfl
  | cons x m =>
    obtain ⟨k, b⟩ := x
    simp only [wfFrom, Bool.and_eq_true, decide_eq_true_eq] at w
    have h1 : ¬ a = k := by omega
    have h2 : a < k := by omega
    simp [memGet, h1, h2]
theorem memSet_wfFrom (m : List Host.Cell) (a : Nat) (v : Byte) :
    ∀ lo : Option Nat, wfFrom lo m = true → (∀ l, lo = some l → l < a) → wfFrom lo (memSet m a v) = true := by
  induction m with
  | nil =>
    intro lo w h
    simp only [memSet]
    split
    · rfl
    · rename_i hv
      cases lo with
      | none => simpa [wfFrom] using hv
      | some l => simp [wfFrom, h l rfl]; exact hv
  | cons x m ih =>
    obtain ⟨k, b⟩ := x
    intro lo w h
    simp only [wfFrom, Bool.and_eq_true] at w
    simp only [memSet]
    split
    · rename_i e
      subst e
      split
      · cases lo with
        | none => exact wfFrom_none m w.2
        | some l => exact wfFrom_weaken m (Nat.le_of_lt (h l rfl)) w.2
      · rename_i hv
        simp only [wfFrom, Bool.and_eq_true]
        exact ⟨⟨w.1.1, by simpa using hv⟩, w.2⟩
    · split
      · rename_i e lt
        split
        · simp only [wfFrom, Bool.and_eq_true]; exact w
        · rename_i hv
          simp only [wfFrom, Bool.and_eq_true]
          refine ⟨⟨?_, by simpa using hv⟩, ⟨by simpa using lt, w.1.2⟩, w.2⟩
          cases lo with
          | none => rfl
          | some l => simpa using h l rfl
      · rename_i e lt
        simp only [wfFrom, Bool.and_eq_true]
        refine ⟨w.1, ih (some k) w.2 ?_⟩
        intro l hl
        cases hl
        omega
/-- A write of one byte keeps the canonical form. -/
theorem memSet_wf (m : List Host.Cell) (a : Nat) (v : Byte) (w : Memory.wf m = true) : Memory.wf (memSet m a v) = true :=
  memSet_wfFrom m a v none w (by simp)
/-- A write of several bytes keeps it. -/
theorem memWrite_wf (bs : List Byte) : ∀ (m : List Host.Cell) (a : Nat), Memory.wf m = true → Memory.wf (memWrite m a bs) = true := by
  induction bs with
  | nil => intro m a w; exact w
  | cons b bs ih => intro m a w; exact ih _ _ (memSet_wf m a b w)
theorem filter_wfFrom (p : Host.Cell → Bool) (m : List Host.Cell) :
    ∀ lo : Option Nat, wfFrom lo m = true → wfFrom lo (m.filter p) = true := by
  induction m with
  | nil => intro lo w; exact w
  | cons x m ih =>
    obtain ⟨k, b⟩ := x
    intro lo w
    simp only [wfFrom, Bool.and_eq_true] at w
    have r := ih (some k) w.2
    simp only [List.filter_cons]
    split
    · simp only [wfFrom, Bool.and_eq_true]; exact ⟨w.1, r⟩
    · cases lo with
      | none => exact wfFrom_none _ r
      | some l =>
        refine wfFrom_weaken _ ?_ r
        have := w.1.1
        simp only [decide_eq_true_eq] at this
        omega
/-- Removing entries keeps it. -/
theorem filter_wf (p : Host.Cell → Bool) (m : List Host.Cell) (w : Memory.wf m = true) : Memory.wf (m.filter p) = true :=
  filter_wfFrom p m none w
/-- Zeroing a range keeps it. -/
theorem memClear_wf (m : List Host.Cell) (a n : Nat) (w : Memory.wf m = true) : Memory.wf (memClear m a n) = true := filter_wf _ m w

/-! ### Reads after writes -/

theorem memGet_memSet_from (m : List Host.Cell) (a : Nat) (v : Byte) :
    ∀ lo : Option Nat, wfFrom lo m = true → ∀ x, memGet (memSet m a v) x = if x = a then v else memGet m x := by
  induction m with
  | nil =>
    intro lo w x
    simp only [memSet]
    split
    · rename_i e; simp [memGet, e]
    · simp only [memGet]; split <;> (try split) <;> rfl
  | cons y m ih =>
    obtain ⟨k, b⟩ := y
    intro lo w x
    simp only [wfFrom, Bool.and_eq_true] at w
    have low : ∀ z, z ≤ k → memGet m z = unlistedByte := fun z hz => memGet_low m w.2 hz
    simp only [memSet]
    split
    · rename_i e; subst e
      split
      · rename_i hv
        by_cases hx : x = a
        · subst hx; simp [low, hv]
        · by_cases hl : x < a
          · simp [memGet, hx, hl, low x (Nat.le_of_lt hl)]
          · simp [memGet, hx, hl]
      · by_cases hx : x = a <;> simp [memGet, hx]
    · rename_i ne
      split
      · rename_i lt
        split
        · rename_i hv
          by_cases hx : x = a
          · subst hx; simp [memGet, ne, lt, hv]
          · simp [hx]
        · by_cases hx : x = a
          · simp [memGet, hx]
          · by_cases hl : x < a
            · have h1 : ¬ x = k := by omega
              have h2 : x < k := by omega
              simp [memGet, hx, hl, h1, h2]
            · simp [memGet, hx, hl]
      · rename_i lt
        simp only [memGet]
        rw [ih (some k) w.2 x]
        by_cases hx : x = a
        · subst hx; simp [ne, lt]
        · simp [hx]
/-- One byte after a write of one byte. -/
theorem memGet_memSet (m : List Host.Cell) (a : Nat) (v : Byte) (w : Memory.wf m = true) (x : Nat) :
    memGet (memSet m a v) x = if x = a then v else memGet m x := memGet_memSet_from m a v none w x
/-- One byte after a write: what was written there, and otherwise what was there. -/
theorem memGet_memWrite (bs : List Byte) : ∀ (m : List Host.Cell) (a : Nat), Memory.wf m = true → ∀ x,
    memGet (memWrite m a bs) x = if a ≤ x ∧ x < a + bs.length then bs.getD (x - a) 0 else memGet m x := by
  induction bs with
  | nil =>
    intro m a w x
    have h : ¬ (a ≤ x ∧ x < a + ([] : List Byte).length) := by simp
    rw [if_neg h]; rfl
  | cons b bs ih =>
    intro m a w x
    simp only [memWrite]
    rw [ih _ _ (memSet_wf m a b w) x, memGet_memSet m a b w x]
    simp only [List.length_cons]
    by_cases h : x = a
    · subst h
      have h1 : ¬ (x + 1 ≤ x ∧ x < x + 1 + bs.length) := by omega
      have h5 : x ≤ x ∧ x < x + (bs.length + 1) := by omega
      rw [if_neg h1, if_pos rfl, if_pos h5, Nat.sub_self]; rfl
    · by_cases h2 : a + 1 ≤ x ∧ x < a + 1 + bs.length
      · have h3 : a ≤ x ∧ x < a + (bs.length + 1) := by omega
        obtain ⟨n, hn⟩ : ∃ n, x - a = n + 1 := ⟨x - a - 1, by omega⟩
        have h4 : x - (a + 1) = n := by omega
        rw [if_pos h2, if_pos h3, hn, h4]; rfl
      · have h3 : ¬ (a ≤ x ∧ x < a + (bs.length + 1)) := by omega
        rw [if_neg h2, if_neg h3, if_neg h]
/-- An address that no entry lists reads as an unlisted byte. -/
theorem memGet_of_not_listed (m : List Host.Cell) (a : Nat) (h : ∀ c, c ∈ m → c.1 ≠ a) : memGet m a = unlistedByte := by
  induction m with
  | nil => rfl
  | cons x m ih =>
    obtain ⟨k, b⟩ := x
    have h1 : ¬ a = k := fun e => h (k, b) (by simp) e.symm
    simp only [memGet, h1, if_false]
    split
    · rfl
    · exact ih fun c hc => h c (by simp [hc])
/-- A zeroed range reads as unlisted. -/
theorem memGet_memClear (m : List Host.Cell) (a n x : Nat) (h1 : a ≤ x) (h2 : x < a + n) : memGet (memClear m a n) x = unlistedByte := by
  refine memGet_of_not_listed _ _ fun c hc e => ?_
  simp only [memClear, List.mem_filter, Bool.or_eq_true, decide_eq_true_eq] at hc
  omega
/-- Putting listed bytes keeps the canonical form. -/
theorem memPut_wf (cs : List Host.Cell) : ∀ (m : List Host.Cell) (a : Nat), Memory.wf m = true → Memory.wf (memPut m a cs) = true := by
  unfold memPut
  induction cs with
  | nil => intro m a w; exact w
  | cons c cs ih => intro m a w; exact ih _ a (memSet_wf m _ _ w)
theorem memWindow_wfFrom (a n : Nat) (m : List Host.Cell) :
    ∀ lo : Option Nat, wfFrom lo m = true → ∀ lo', (∀ l', lo' = some l' → ∃ l, lo = some l ∧ a + l' ≤ l) → wfFrom lo' (memWindow m a n) = true := by
  induction m with
  | nil => intro lo w lo' h; rfl
  | cons x m ih =>
    obtain ⟨k, b⟩ := x
    intro lo w lo' h
    simp only [wfFrom, Bool.and_eq_true] at w
    simp only [memWindow, List.filter_cons]
    split
    · rename_i hin
      simp only [Bool.and_eq_true, decide_eq_true_eq] at hin
      have r := ih (some k) w.2 (some (k - a)) fun l' e => by cases e; exact ⟨k, rfl, by omega⟩
      simp only [memWindow] at r
      simp only [List.map_cons, wfFrom, Bool.and_eq_true]
      refine ⟨⟨?_, w.1.2⟩, r⟩
      cases lo' with
      | none => rfl
      | some l' =>
        obtain ⟨l, e, hl⟩ := h l' rfl
        subst e
        have := w.1.1
        simp only [decide_eq_true_eq] at this ⊢
        omega
    · refine ih (some k) w.2 lo' fun l' e => ?_
      obtain ⟨l, e', hl⟩ := h l' e
      subst e'
      have := w.1.1
      simp only [decide_eq_true_eq] at this
      exact ⟨k, rfl, by omega⟩
/-- A window of a canonical list is canonical. -/
theorem memWindow_wf (m : List Host.Cell) (a n : Nat) (w : Memory.wf m = true) : Memory.wf (memWindow m a n) = true :=
  memWindow_wfFrom a n m none w none (by simp)
/-- What keeps the canonical form of memory keeps it over a list. -/
theorem memFold_wf {α : Type} (f : List Host.Cell → α → List Host.Cell) (keep : ∀ m x, Memory.wf m = true → Memory.wf (f m x) = true)
    (l : List α) (m : List Host.Cell) (w : Memory.wf m = true) : Memory.wf (l.foldl f m) = true :=
  List.foldlRecOn l f w fun m w x _ => keep m x w
/-- The save area (R368) is written in canonical form. -/
theorem saveArea_wf (save base : Nat) (v : Saved) (m : List Host.Cell) (w : Memory.wf m = true) : Memory.wf (saveArea save base v m) = true := by
  have cis (a : Nat) (l : Table VReg) (m : List Host.Cell) : Memory.wf m = true → Memory.wf
      (l.foldl (fun m r => if r.1 < 2048 then memWrite m (a + 2 ^ 20 + 128 * r.1) (toBytes 128 r.2.toNat) else m) m) = true :=
    memFold_wf _ (fun m r w => by
      by_cases h : r.1 < 2048
      · simpa only [h, ↓reduceIte] using memWrite_wf _ _ _ w
      · simpa only [h, ↓reduceIte] using w) l m
  have all (l : List ((Nat × Core) × Nat)) (m : List Host.Cell) : Memory.wf m = true → Memory.wf (l.foldl (fun m (k, j) =>
      let a := base + v.coreAt j
      let m := memPut m a (memWindow k.2.well 0 (2 ^ 20))
      let m := k.2.cistern.foldl (fun m r => if r.1 < 2048 then memWrite m (a + 2 ^ 20 + 128 * r.1) (toBytes 128 r.2.toNat) else m) m
      memWrite m (a + 2 ^ 20 + 2 ^ 18) (openBytes save (v.coreAt j + 2 ^ 20 + 2 ^ 18) 50688)) m) = true :=
    memFold_wf _ (fun m x w => by
      dsimp only
      generalize openBytes _ _ _ = bs
      exact memWrite_wf bs _ _ (cis _ _ _ (memPut_wf _ _ _ w))) l m
  have draws (l : List (Nat × Nat × Draw × Nat)) (m : List Host.Cell) : Memory.wf m = true →
      Memory.wf (l.foldl (fun m (_, _, d, o) => memWrite m (base + o) d.record) m) = true :=
    memFold_wf _ (fun m x w => by
      dsimp only
      generalize x.2.2.1.record = bs
      exact memWrite_wf bs _ _ w) l m
  unfold saveArea
  dsimp only
  generalize openBytes _ _ (v.bytes - _) = bs
  generalize openBytes _ _ (v.coreAt 0) = cs
  exact draws _ _ (memWrite_wf bs _ _ (all _ _ (memWrite_wf cs _ _ (memClear_wf m base _ w))))
theorem memRead_length (m : List Host.Cell) (a n : Nat) : (memRead m a n).length = n := by simp [memRead]

/-! ### The operations of the machine on memory -/

theorem putRaw_wf (a : Nat) (bs : List Byte) (s : State) (w : Memory.wf s.mem = true) : Memory.wf (putRaw a bs s).mem = true :=
  memWrite_wf bs s.mem a w
theorem State.rekeyLine_wf (s : State) (key ks c : Nat) (w : Memory.wf s.mem = true) : Memory.wf (s.rekeyLine key ks c).mem = true := by
  unfold State.rekeyLine
  dsimp only
  generalize s.readBytes _ ks 256 = bs
  split
  · exact memWrite_wf bs s.mem _ w
  · exact w
theorem State.rekey_wf (s : State) (key ks : Nat) (w : Memory.wf s.mem = true) : Memory.wf (s.rekey key ks).mem = true := by
  unfold State.rekey
  split
  · exact w
  · rename_i c _
    have r := s.rekeyLine_wf key ks c w
    dsimp only
    generalize s.rekeyLine key ks c = t at r
    generalize t.readBytes _ ks 256 = bs
    split
    · exact r
    · split
      · exact r
      · exact memWrite_wf bs t.mem _ r
theorem State.writeBytes_wf (s : State) (key ks : Nat) (bs : List Byte) (w : Memory.wf s.mem = true) :
    Memory.wf (s.writeBytes key ks bs).mem = true := by
  have r := List.foldlRecOn (List.range ((key + bs.length - 1) / 256 + 1 - key / 256)) (fun (u : State) i => u.rekey (key + 256 * i) ks)
    (motive := fun t => Memory.wf t.mem = true) w fun t h i _ => State.rekey_wf t _ _ h
  unfold State.writeBytes forUpto
  exact memWrite_wf bs _ key r
theorem State.zeroRange_wf (s : State) (a n : Nat) (w : Memory.wf s.mem = true) : Memory.wf (s.zeroRange a n).mem = true :=
  memClear_wf s.mem a n w

/-! ### Tables -/

/-- A table whose numbers rise lists no number twice, and setting, erasing and mapping keep that. -/
theorem tset_mem {β : Type} (t : Table β) (n : Nat) (b : β) (x : Nat × β) (h : x ∈ tset t n b) : x = (n, b) ∨ x ∈ t := by
  induction t with
  | nil => exact .inl (by simpa [tset] using h)
  | cons y t ih =>
    unfold tset at h
    by_cases e : n = y.1
    · exact (List.mem_cons.mp (by simpa only [e, ↓reduceIte] using h)).imp (e ▸ ·) (List.mem_cons_of_mem y)
    · by_cases l : n < y.1
      · exact List.mem_cons.mp (by simpa only [e, l, ↓reduceIte] using h)
      · exact (List.mem_cons.mp (by simpa only [e, l, ↓reduceIte] using h)).elim (fun i => .inr (List.mem_cons.mpr (.inl i)))
          fun m => (ih m).imp_right (List.mem_cons_of_mem y)
theorem tset_rising {β : Type} (t : Table β) (n : Nat) (b : β) (h : t.Pairwise fun x y => x.1 < y.1) :
    (tset t n b).Pairwise fun x y => x.1 < y.1 := by
  induction t with
  | nil => simp [tset]
  | cons y t ih =>
    have above := (List.pairwise_cons.mp h).1
    have below := ih (List.pairwise_cons.mp h).2
    unfold tset
    by_cases e : n = y.1
    · simpa [e] using h
    · by_cases l : n < y.1
      · simp only [e, l, ↓reduceIte, List.pairwise_cons]
        exact ⟨List.forall_mem_cons.mpr ⟨l, fun z m => Nat.lt_trans l (above z m)⟩, above, (List.pairwise_cons.mp h).2⟩
      · simp only [e, l, ↓reduceIte, List.pairwise_cons]
        exact ⟨fun z m => (tset_mem t n b z m).elim (fun i => by rw [i]; dsimp only; omega) (above z), below⟩
theorem terase_sublist {β : Type} (t : Table β) (n : Nat) : (terase t n).Sublist t := by
  induction t with
  | nil => exact .slnil
  | cons y t ih =>
    obtain ⟨k, c⟩ := y
    simp only [terase]
    split
    · exact List.sublist_cons_self ..
    · split
      · exact .refl _
      · exact ih.cons_cons _
theorem terase_rising {β : Type} (t : Table β) (n : Nat) (h : t.Pairwise fun x y => x.1 < y.1) :
    (terase t n).Pairwise fun x y => x.1 < y.1 := h.sublist (terase_sublist t n)
/-- An erased number is not listed. -/
theorem tfind_terase {β : Type} (t : Table β) (n : Nat) (h : t.Pairwise fun x y => x.1 < y.1) : tfind (terase t n) n = none := by
  induction t with
  | nil => rfl
  | cons y t ih =>
    obtain ⟨k, c⟩ := y
    obtain ⟨h1, h2⟩ := List.pairwise_cons.mp h
    simp only [terase]
    split
    · rename_i e; subst e
      cases t with
      | nil => rfl
      | cons z t =>
        obtain ⟨j, d⟩ := z
        have : n < j := h1 (j, d) (by simp)
        have h3 : ¬ n = j := by omega
        simp [tfind, h3, this]
    · split
      · rename_i e lt; simp [tfind, e, lt]
      · rename_i e lt; simp [tfind, e, lt, ih h2]
theorem tmap_rising {β : Type} (f : Nat → β → β) (t : Table β) (h : t.Pairwise fun x y => x.1 < y.1) :
    (tmap f t).Pairwise fun x y => x.1 < y.1 := by
  unfold tmap
  exact List.pairwise_map.mpr h
/-- A listed entry of a rising table is what the table answers. -/
theorem tfind_of_mem {β : Type} (t : Table β) (n : Nat) (b : β) (h : t.Pairwise fun x y => x.1 < y.1) (m : (n, b) ∈ t) :
    tfind t n = some b := by
  induction t with
  | nil => cases m
  | cons y t ih =>
    obtain ⟨k, c⟩ := y
    obtain ⟨h1, h2⟩ := List.pairwise_cons.mp h
    rcases List.mem_cons.mp m with e | m
    · cases e; simp [tfind]
    · have : k < n := h1 (n, b) m
      have h3 : ¬ n = k := by omega
      have h4 : ¬ n < k := by omega
      simp [tfind, h3, h4, ih h2 m]
theorem tget_of_mem {β : Type} (d : β) (t : Table β) (n : Nat) (b : β) (h : t.Pairwise fun x y => x.1 < y.1) (m : (n, b) ∈ t) :
    tget d t n = b := by
  induction t with
  | nil => cases m
  | cons y t ih =>
    obtain ⟨k, c⟩ := y
    obtain ⟨h1, h2⟩ := List.pairwise_cons.mp h
    rcases List.mem_cons.mp m with e | m
    · cases e; simp [tget]
    · have : k < n := h1 (n, b) m
      have h3 : ¬ n = k := by omega
      have h4 : ¬ n < k := by omega
      simp [tget, h3, h4, ih h2 m]

/-- Memory right after reset is canonical. -/
theorem reset_mem_wf : Memory.wf State.reset.mem = true := rfl

end Sys2Proof.Machine
end

