-- ==== Sys2Proof/Laws/PerInstr.lean ====
section
/-!
SUPPORT. The family `Roundtrip` of statements made per instruction: the encoding that `encodeTable` gives an instruction is a
parcel or a word by its bit 0 (R32), and the decoder of parcels or of words reads the instruction from it. One lemma for each
layout of operand fields says what a decoder reads in it; one for each instruction puts the row's fixed bits in. GENERATED
from the decoder's own rows.
-/

namespace Sys2Proof.Laws.Roundtrip

section
set_option Elab.async false

/-- What the encoding of an instruction decodes to. -/
def Statement (i : Instr) : Prop :=
  ∀ n w, encodeTable i = some (n, w) → i.wf = true →
    (n = 16 ∧ w % 2 = 0 ∧ w < 2 ^ 16 ∧ decodeParcel w = some i) ∨ (n = 32 ∧ w % 2 = 1 ∧ w < 2 ^ 32 ∧ decodeWord w = some i)

theorem fld_eq {len : Nat} (w lo : Nat) (v : BitVec len) (h : w / 2 ^ lo % 2 ^ len = v.toNat) : fld w lo len = v := by
  refine BitVec.eq_of_toNat_eq ?_
  simpa [fld] using h
theorem bits_of {w lo len v : Nat} (h : w / 2 ^ lo % 2 ^ len = v) : bits w lo len = v := h

/-- The lowest segment of what is left of a word, and what is left above it. -/
theorem seg {w A P B v r : Nat} (e : w / A = v + P * r) (h : v < P) (p : 0 < P) (m : A * P = B) : w / A % P = v ∧ w / B = r := by
  constructor
  · rw [e, Nat.add_mul_mod_self_left, Nat.mod_eq_of_lt h]
  · rw [← m, ← Nat.div_div_eq_div_mul, e, Nat.add_mul_div_left _ _ p, Nat.div_eq_of_lt h, Nat.zero_add]
/-- Part of a segment. -/
theorem part {w g n c a m : Nat} (h : w / 2 ^ g % 2 ^ n = c) (k : a + m ≤ n) : bits w (g + a) m = c / 2 ^ a % 2 ^ m := by
  subst h
  unfold bits
  refine Nat.eq_of_testBit_eq fun i => ?_
  simp only [Nat.testBit_mod_two_pow, Nat.testBit_div_two_pow]
  by_cases hi : i < m
  · have h1 : i + a < n := by omega
    have h2 : i + a + g = i + (g + a) := by omega
    simp [hi, h1, h2]
  · simp [hi]

/-- The statement from the encoding's own word. -/
theorem of_word (i : Instr) (w : Nat) (e : encodeTable i = some (32, w)) (h : w % 2 = 1 ∧ w < 2 ^ 32 ∧ decodeWord w = some i) : Statement i := by
  intro n v k _
  rw [e] at k
  simp only [Option.some.injEq, Prod.mk.injEq] at k
  obtain ⟨rfl, rfl⟩ := k
  exact .inr ⟨rfl, h⟩
theorem of_parcel (i : Instr) (w : Nat) (e : encodeTable i = some (16, w)) (h : w % 2 = 0 ∧ w < 2 ^ 16 ∧ decodeParcel w = some i) : Statement i := by
  intro n v k _
  rw [e] at k
  simp only [Option.some.injEq, Prod.mk.injEq] at k
  obtain ⟨rfl, rfl⟩ := k
  exact .inl ⟨rfl, h⟩
theorem of_none (i : Instr) (e : encodeTable i = none) : Statement i := by
  intro n w h _
  rw [e] at h
  cases h

/-! ### Majors -/

theorem word01 {w : Nat} (h : bits w 1 6 = 0x01) : decodeWord w = decMajor01 w := by unfold decodeWord; rw [h]; rfl
theorem word02 {w : Nat} (h : bits w 1 6 = 0x02) : decodeWord w = decMajor02 w := by unfold decodeWord; rw [h]; rfl
theorem word03 {w : Nat} (h : bits w 1 6 = 0x03) : decodeWord w = decMajor03 w := by unfold decodeWord; rw [h]; rfl
theorem word04 {w : Nat} (h : bits w 1 6 = 0x04) : decodeWord w = decMajor04 w := by unfold decodeWord; rw [h]; rfl
theorem word05 {w : Nat} (h : bits w 1 6 = 0x05) : decodeWord w = decMajor05 w := by unfold decodeWord; rw [h]; rfl
theorem word06 {w : Nat} (h : bits w 1 6 = 0x06) : decodeWord w = decMajor06 w := by unfold decodeWord; rw [h]; rfl
theorem word07 {w : Nat} (h : bits w 1 6 = 0x07) : decodeWord w = decMajor07 w := by unfold decodeWord; rw [h]; rfl
theorem word08 {w : Nat} (h : bits w 1 6 = 0x08) : decodeWord w = decMajor08 w := by unfold decodeWord; rw [h]; rfl
theorem word09 {w : Nat} (h : bits w 1 6 = 0x09) : decodeWord w = decMajor09 w := by unfold decodeWord; rw [h]; rfl
theorem word0A {w : Nat} (h : bits w 1 6 = 0x0A) : decodeWord w = decMajor0A w := by unfold decodeWord; rw [h]; rfl
theorem word0B {w : Nat} (h : bits w 1 6 = 0x0B) : decodeWord w = decMajor0B w := by unfold decodeWord; rw [h]; rfl
theorem word0C {w : Nat} (h : bits w 1 6 = 0x0C) : decodeWord w = decMajor0C w := by unfold decodeWord; rw [h]; rfl
theorem word0D {w : Nat} (h : bits w 1 6 = 0x0D) : decodeWord w = decMajor0D w := by unfold decodeWord; rw [h]; rfl
theorem word0E {w : Nat} (h : bits w 1 6 = 0x0E) : decodeWord w = decMajor0E w := by unfold decodeWord; rw [h]; rfl
theorem word0F {w : Nat} (h : bits w 1 6 = 0x0F) : decodeWord w = decMajor0F w := by unfold decodeWord; rw [h]; rfl
theorem word10 {w : Nat} (h : bits w 1 6 = 0x10) : decodeWord w = decMajor10 w := by unfold decodeWord; rw [h]; rfl
theorem word11 {w : Nat} (h : bits w 1 6 = 0x11) : decodeWord w = decMajor11 w := by unfold decodeWord; rw [h]; rfl
theorem word12 {w : Nat} (h : bits w 1 6 = 0x12) : decodeWord w = decMajor12 w := by unfold decodeWord; rw [h]; rfl
theorem word13 {w : Nat} (h : bits w 1 6 = 0x13) : decodeWord w = decMajor13 w := by unfold decodeWord; rw [h]; rfl
theorem word14 {w : Nat} (h : bits w 1 6 = 0x14) : decodeWord w = decMajor14 w := by unfold decodeWord; rw [h]; rfl
theorem word15 {w : Nat} (h : bits w 1 6 = 0x15) : decodeWord w = decMajor15 w := by unfold decodeWord; rw [h]; rfl
theorem word16 {w : Nat} (h : bits w 1 6 = 0x16) : decodeWord w = decMajor16 w := by unfold decodeWord; rw [h]; rfl
theorem word17 {w : Nat} (h : bits w 1 6 = 0x17) : decodeWord w = decMajor17 w := by unfold decodeWord; rw [h]; rfl
theorem word18 {w : Nat} (h : bits w 1 6 = 0x18) : decodeWord w = decMajor18 w := by unfold decodeWord; rw [h]; rfl
theorem word19 {w : Nat} (h : bits w 1 6 = 0x19) : decodeWord w = decMajor19 w := by unfold decodeWord; rw [h]; rfl
theorem word1A {w : Nat} (h : bits w 1 6 = 0x1A) : decodeWord w = decMajor1A w := by unfold decodeWord; rw [h]; rfl
theorem word1B {w : Nat} (h : bits w 1 6 = 0x1B) : decodeWord w = decMajor1B w := by unfold decodeWord; rw [h]; rfl
theorem word1C {w : Nat} (h : bits w 1 6 = 0x1C) : decodeWord w = decMajor1C w := by unfold decodeWord; rw [h]; rfl
theorem word1D {w : Nat} (h : bits w 1 6 = 0x1D) : decodeWord w = decMajor1D w := by unfold decodeWord; rw [h]; rfl
theorem word1E {w : Nat} (h : bits w 1 6 = 0x1E) : decodeWord w = decMajor1E w := by unfold decodeWord; rw [h]; rfl
theorem word1F {w : Nat} (h : bits w 1 6 = 0x1F) : decodeWord w = decMajor1F w := by unfold decodeWord; rw [h]; rfl
theorem word20 {w : Nat} (h : bits w 1 6 = 0x20) : decodeWord w = decMajor20 w := by unfold decodeWord; rw [h]; rfl
theorem word21 {w : Nat} (h : bits w 1 6 = 0x21) : decodeWord w = decMajor21 w := by unfold decodeWord; rw [h]; rfl
theorem word22 {w : Nat} (h : bits w 1 6 = 0x22) : decodeWord w = decMajor22 w := by unfold decodeWord; rw [h]; rfl
theorem word23 {w : Nat} (h : bits w 1 6 = 0x23) : decodeWord w = decMajor23 w := by unfold decodeWord; rw [h]; rfl
theorem word24 {w : Nat} (h : bits w 1 6 = 0x24) : decodeWord w = decMajor24 w := by unfold decodeWord; rw [h]; rfl
theorem word25 {w : Nat} (h : bits w 1 6 = 0x25) : decodeWord w = decMajor25 w := by unfold decodeWord; rw [h]; rfl
theorem word26 {w : Nat} (h : bits w 1 6 = 0x26) : decodeWord w = decMajor26 w := by unfold decodeWord; rw [h]; rfl
theorem word27 {w : Nat} (h : bits w 1 6 = 0x27) : decodeWord w = decMajor27 w := by unfold decodeWord; rw [h]; rfl
theorem word28 {w : Nat} (h : bits w 1 6 = 0x28) : decodeWord w = decMajor28 w := by unfold decodeWord; rw [h]; rfl
theorem word29 {w : Nat} (h : bits w 1 6 = 0x29) : decodeWord w = decMajor29 w := by unfold decodeWord; rw [h]; rfl
theorem word2A {w : Nat} (h : bits w 1 6 = 0x2A) : decodeWord w = decMajor2A w := by unfold decodeWord; rw [h]; rfl
theorem word2B {w : Nat} (h : bits w 1 6 = 0x2B) : decodeWord w = decMajor2B w := by unfold decodeWord; rw [h]; rfl
theorem word2C {w : Nat} (h : bits w 1 6 = 0x2C) : decodeWord w = decMajor2C w := by unfold decodeWord; rw [h]; rfl
theorem word2D {w : Nat} (h : bits w 1 6 = 0x2D) : decodeWord w = decMajor2D w := by unfold decodeWord; rw [h]; rfl
theorem word2E {w : Nat} (h : bits w 1 6 = 0x2E) : decodeWord w = decMajor2E w := by unfold decodeWord; rw [h]; rfl
theorem word2F {w : Nat} (h : bits w 1 6 = 0x2F) : decodeWord w = decMajor2F w := by unfold decodeWord; rw [h]; rfl
theorem word30 {w : Nat} (h : bits w 1 6 = 0x30) : decodeWord w = decMajor30 w := by unfold decodeWord; rw [h]; rfl
theorem word31 {w : Nat} (h : bits w 1 6 = 0x31) : decodeWord w = decMajor31 w := by unfold decodeWord; rw [h]; rfl

/-! ### Layouts -/

theorem layout (c0 : Nat) (hc0 : c0 < 4294967296) (m : Nat) (e : m = c0 * 1) :
    let w := m
    w % 2 = c0 % 2 ∧ w < 2 ^ 32 ∧ bits w 1 6 = c0 / 2 ^ 1 % 2 ^ 6 ∧ bits w 7 5 = c0 / 2 ^ 7 % 2 ^ 5 ∧ bits w 7 25 = c0 / 2 ^ 7 % 2 ^ 25 ∧ bits w 12 5 = c0 / 2 ^ 12 % 2 ^ 5 ∧ bits w 12 20 = c0 / 2 ^ 12 % 2 ^ 20 ∧ bits w 17 5 = c0 / 2 ^ 17 % 2 ^ 5 ∧ bits w 17 15 = c0 / 2 ^ 17 % 2 ^ 15 ∧ bits w 22 10 = c0 / 2 ^ 22 % 2 ^ 10 ∧ bits w 30 2 = c0 / 2 ^ 30 % 2 ^ 2 := by
  intro w
  have h : w / 1 = c0 + 4294967296 * (0) := by simp only [Nat.div_one, w, e, ] <;> omega
  clear_value w
  obtain ⟨s0, d0⟩ := seg (B := 4294967296) h hc0 (by decide) rfl
  have t : w < 4294967296 := (Nat.div_eq_zero_iff_lt (by decide)).mp d0
  have u : w % 2 = c0 % 2 := by rw [← s0, Nat.div_one, Nat.mod_mod_of_dvd _ (by decide)]
  exact ⟨u, t, part (g := 0) (n := 32) (a := 1) s0 (by decide), part (g := 0) (n := 32) (a := 7) s0 (by decide), part (g := 0) (n := 32) (a := 7) s0 (by decide), part (g := 0) (n := 32) (a := 12) s0 (by decide), part (g := 0) (n := 32) (a := 12) s0 (by decide), part (g := 0) (n := 32) (a := 17) s0 (by decide), part (g := 0) (n := 32) (a := 17) s0 (by decide), part (g := 0) (n := 32) (a := 22) s0 (by decide), part (g := 0) (n := 32) (a := 30) s0 (by decide)⟩

theorem layout_7_2 (f0 : BitVec 2) (c0 : Nat) (hc0 : c0 < 128) (c1 : Nat) (hc1 : c1 < 8388608) (m : Nat) (e : m = c0 * 1 + c1 * 512) :
    let w := enc1 m f0 7
    w % 2 = c0 % 2 ∧ w < 2 ^ 32 ∧ bits w 1 6 = c0 / 2 ^ 1 % 2 ^ 6 ∧ bits w 9 3 = c1 / 2 ^ 0 % 2 ^ 3 ∧ bits w 9 23 = c1 / 2 ^ 0 % 2 ^ 23 ∧ bits w 16 1 = c1 / 2 ^ 7 % 2 ^ 1 ∧ bits w 17 15 = c1 / 2 ^ 8 % 2 ^ 15 ∧ bits w 19 13 = c1 / 2 ^ 10 % 2 ^ 13 ∧ bits w 22 10 = c1 / 2 ^ 13 % 2 ^ 10 ∧ fld w 7 2 = f0 := by
  intro w
  have h : w / 1 = c0 + 128 * (f0.toNat + 4 * (c1 + 8388608 * (0))) := by simp only [Nat.div_one, w, e, enc1] <;> omega
  clear_value w
  have hf0 : f0.toNat < 4 := f0.isLt
  obtain ⟨s0, d0⟩ := seg (B := 128) h hc0 (by decide) rfl
  obtain ⟨s1, d1⟩ := seg (B := 512) d0 hf0 (by decide) rfl
  obtain ⟨s2, d2⟩ := seg (B := 4294967296) d1 hc1 (by decide) rfl
  have t : w < 4294967296 := (Nat.div_eq_zero_iff_lt (by decide)).mp d2
  have u : w % 2 = c0 % 2 := by rw [← s0, Nat.div_one, Nat.mod_mod_of_dvd _ (by decide)]
  exact ⟨u, t, part (g := 0) (n := 7) (a := 1) s0 (by decide), part (g := 9) (n := 23) (a := 0) s2 (by decide), part (g := 9) (n := 23) (a := 0) s2 (by decide), part (g := 9) (n := 23) (a := 7) s2 (by decide), part (g := 9) (n := 23) (a := 8) s2 (by decide), part (g := 9) (n := 23) (a := 10) s2 (by decide), part (g := 9) (n := 23) (a := 13) s2 (by decide), fld_eq _ _ _ s1⟩

theorem layout_7_5 (f0 : BitVec 5) (c0 : Nat) (hc0 : c0 < 128) (c1 : Nat) (hc1 : c1 < 1048576) (m : Nat) (e : m = c0 * 1 + c1 * 4096) :
    let w := enc1 m f0 7
    w % 2 = c0 % 2 ∧ w < 2 ^ 32 ∧ bits w 1 6 = c0 / 2 ^ 1 % 2 ^ 6 ∧ bits w 12 20 = c1 / 2 ^ 0 % 2 ^ 20 ∧ bits w 17 15 = c1 / 2 ^ 5 % 2 ^ 15 ∧ fld w 7 5 = f0 := by
  intro w
  have h : w / 1 = c0 + 128 * (f0.toNat + 32 * (c1 + 1048576 * (0))) := by simp only [Nat.div_one, w, e, enc1] <;> omega
  clear_value w
  have hf0 : f0.toNat < 32 := f0.isLt
  obtain ⟨s0, d0⟩ := seg (B := 128) h hc0 (by decide) rfl
  obtain ⟨s1, d1⟩ := seg (B := 4096) d0 hf0 (by decide) rfl
  obtain ⟨s2, d2⟩ := seg (B := 4294967296) d1 hc1 (by decide) rfl
  have t : w < 4294967296 := (Nat.div_eq_zero_iff_lt (by decide)).mp d2
  have u : w % 2 = c0 % 2 := by rw [← s0, Nat.div_one, Nat.mod_mod_of_dvd _ (by decide)]
  exact ⟨u, t, part (g := 0) (n := 7) (a := 1) s0 (by decide), part (g := 12) (n := 20) (a := 0) s2 (by decide), part (g := 12) (n := 20) (a := 5) s2 (by decide), fld_eq _ _ _ s1⟩

theorem layout_7_25 (f0 : BitVec 25) (c0 : Nat) (hc0 : c0 < 128) (m : Nat) (e : m = c0 * 1) :
    let w := enc1 m f0 7
    w % 2 = c0 % 2 ∧ w < 2 ^ 32 ∧ bits w 1 6 = c0 / 2 ^ 1 % 2 ^ 6 ∧ fld w 7 25 = f0 := by
  intro w
  have h : w / 1 = c0 + 128 * (f0.toNat + 33554432 * (0)) := by simp only [Nat.div_one, w, e, enc1] <;> omega
  clear_value w
  have hf0 : f0.toNat < 33554432 := f0.isLt
  obtain ⟨s0, d0⟩ := seg (B := 128) h hc0 (by decide) rfl
  obtain ⟨s1, d1⟩ := seg (B := 4294967296) d0 hf0 (by decide) rfl
  have t : w < 4294967296 := (Nat.div_eq_zero_iff_lt (by decide)).mp d1
  have u : w % 2 = c0 % 2 := by rw [← s0, Nat.div_one, Nat.mod_mod_of_dvd _ (by decide)]
  exact ⟨u, t, part (g := 0) (n := 7) (a := 1) s0 (by decide), fld_eq _ _ _ s1⟩

theorem layout_12_5 (f0 : BitVec 5) (c0 : Nat) (hc0 : c0 < 4096) (c1 : Nat) (hc1 : c1 < 32768) (m : Nat) (e : m = c0 * 1 + c1 * 131072) :
    let w := enc1 m f0 12
    w % 2 = c0 % 2 ∧ w < 2 ^ 32 ∧ bits w 1 6 = c0 / 2 ^ 1 % 2 ^ 6 ∧ bits w 7 5 = c0 / 2 ^ 7 % 2 ^ 5 ∧ bits w 17 5 = c1 / 2 ^ 0 % 2 ^ 5 ∧ bits w 17 15 = c1 / 2 ^ 0 % 2 ^ 15 ∧ bits w 22 10 = c1 / 2 ^ 5 % 2 ^ 10 ∧ bits w 30 2 = c1 / 2 ^ 13 % 2 ^ 2 ∧ fld w 12 5 = f0 := by
  intro w
  have h : w / 1 = c0 + 4096 * (f0.toNat + 32 * (c1 + 32768 * (0))) := by simp only [Nat.div_one, w, e, enc1] <;> omega
  clear_value w
  have hf0 : f0.toNat < 32 := f0.isLt
  obtain ⟨s0, d0⟩ := seg (B := 4096) h hc0 (by decide) rfl
  obtain ⟨s1, d1⟩ := seg (B := 131072) d0 hf0 (by decide) rfl
  obtain ⟨s2, d2⟩ := seg (B := 4294967296) d1 hc1 (by decide) rfl
  have t : w < 4294967296 := (Nat.div_eq_zero_iff_lt (by decide)).mp d2
  have u : w % 2 = c0 % 2 := by rw [← s0, Nat.div_one, Nat.mod_mod_of_dvd _ (by decide)]
  exact ⟨u, t, part (g := 0) (n := 12) (a := 1) s0 (by decide), part (g := 0) (n := 12) (a := 7) s0 (by decide), part (g := 17) (n := 15) (a := 0) s2 (by decide), part (g := 17) (n := 15) (a := 0) s2 (by decide), part (g := 17) (n := 15) (a := 5) s2 (by decide), part (g := 17) (n := 15) (a := 13) s2 (by decide), fld_eq _ _ _ s1⟩

theorem layout_12_5_7_2 (f0 : BitVec 5) (f1 : BitVec 2) (c0 : Nat) (hc0 : c0 < 128) (c1 : Nat) (hc1 : c1 < 8) (c2 : Nat) (hc2 : c2 < 32768) (m : Nat) (e : m = c0 * 1 + c1 * 512 + c2 * 131072) :
    let w := enc2 m f0 12 f1 7
    w % 2 = c0 % 2 ∧ w < 2 ^ 32 ∧ bits w 1 6 = c0 / 2 ^ 1 % 2 ^ 6 ∧ bits w 9 3 = c1 / 2 ^ 0 % 2 ^ 3 ∧ bits w 17 15 = c2 / 2 ^ 0 % 2 ^ 15 ∧ bits w 19 13 = c2 / 2 ^ 2 % 2 ^ 13 ∧ bits w 22 10 = c2 / 2 ^ 5 % 2 ^ 10 ∧ fld w 12 5 = f0 ∧ fld w 7 2 = f1 := by
  intro w
  have h : w / 1 = c0 + 128 * (f1.toNat + 4 * (c1 + 8 * (f0.toNat + 32 * (c2 + 32768 * (0))))) := by simp only [Nat.div_one, w, e, enc2, enc1] <;> omega
  clear_value w
  have hf0 : f0.toNat < 32 := f0.isLt
  have hf1 : f1.toNat < 4 := f1.isLt
  obtain ⟨s0, d0⟩ := seg (B := 128) h hc0 (by decide) rfl
  obtain ⟨s1, d1⟩ := seg (B := 512) d0 hf1 (by decide) rfl
  obtain ⟨s2, d2⟩ := seg (B := 4096) d1 hc1 (by decide) rfl
  obtain ⟨s3, d3⟩ := seg (B := 131072) d2 hf0 (by decide) rfl
  obtain ⟨s4, d4⟩ := seg (B := 4294967296) d3 hc2 (by decide) rfl
  have t : w < 4294967296 := (Nat.div_eq_zero_iff_lt (by decide)).mp d4
  have u : w % 2 = c0 % 2 := by rw [← s0, Nat.div_one, Nat.mod_mod_of_dvd _ (by decide)]
  exact ⟨u, t, part (g := 0) (n := 7) (a := 1) s0 (by decide), part (g := 9) (n := 3) (a := 0) s2 (by decide), part (g := 17) (n := 15) (a := 0) s4 (by decide), part (g := 17) (n := 15) (a := 2) s4 (by decide), part (g := 17) (n := 15) (a := 5) s4 (by decide), fld_eq _ _ _ s3, fld_eq _ _ _ s1⟩

theorem layout_12_5_7_5 (f0 : BitVec 5) (f1 : BitVec 5) (c0 : Nat) (hc0 : c0 < 128) (c1 : Nat) (hc1 : c1 < 32768) (m : Nat) (e : m = c0 * 1 + c1 * 131072) :
    let w := enc2 m f0 12 f1 7
    w % 2 = c0 % 2 ∧ w < 2 ^ 32 ∧ bits w 1 6 = c0 / 2 ^ 1 % 2 ^ 6 ∧ bits w 17 5 = c1 / 2 ^ 0 % 2 ^ 5 ∧ bits w 17 12 = c1 / 2 ^ 0 % 2 ^ 12 ∧ bits w 17 15 = c1 / 2 ^ 0 % 2 ^ 15 ∧ bits w 22 7 = c1 / 2 ^ 5 % 2 ^ 7 ∧ bits w 22 10 = c1 / 2 ^ 5 % 2 ^ 10 ∧ bits w 30 2 = c1 / 2 ^ 13 % 2 ^ 2 ∧ fld w 12 5 = f0 ∧ fld w 7 5 = f1 := by
  intro w
  have h : w / 1 = c0 + 128 * (f1.toNat + 32 * (f0.toNat + 32 * (c1 + 32768 * (0)))) := by simp only [Nat.div_one, w, e, enc2, enc1] <;> omega
  clear_value w
  have hf0 : f0.toNat < 32 := f0.isLt
  have hf1 : f1.toNat < 32 := f1.isLt
  obtain ⟨s0, d0⟩ := seg (B := 128) h hc0 (by decide) rfl
  obtain ⟨s1, d1⟩ := seg (B := 4096) d0 hf1 (by decide) rfl
  obtain ⟨s2, d2⟩ := seg (B := 131072) d1 hf0 (by decide) rfl
  obtain ⟨s3, d3⟩ := seg (B := 4294967296) d2 hc1 (by decide) rfl
  have t : w < 4294967296 := (Nat.div_eq_zero_iff_lt (by decide)).mp d3
  have u : w % 2 = c0 % 2 := by rw [← s0, Nat.div_one, Nat.mod_mod_of_dvd _ (by decide)]
  exact ⟨u, t, part (g := 0) (n := 7) (a := 1) s0 (by decide), part (g := 17) (n := 15) (a := 0) s3 (by decide), part (g := 17) (n := 15) (a := 0) s3 (by decide), part (g := 17) (n := 15) (a := 0) s3 (by decide), part (g := 17) (n := 15) (a := 5) s3 (by decide), part (g := 17) (n := 15) (a := 5) s3 (by decide), part (g := 17) (n := 15) (a := 13) s3 (by decide), fld_eq _ _ _ s2, fld_eq _ _ _ s1⟩

theorem layout_12_20_7_5 (f0 : BitVec 20) (f1 : BitVec 5) (c0 : Nat) (hc0 : c0 < 128) (m : Nat) (e : m = c0 * 1) :
    let w := enc2 m f0 12 f1 7
    w % 2 = c0 % 2 ∧ w < 2 ^ 32 ∧ bits w 1 6 = c0 / 2 ^ 1 % 2 ^ 6 ∧ fld w 12 20 = f0 ∧ fld w 7 5 = f1 := by
  intro w
  have h : w / 1 = c0 + 128 * (f1.toNat + 32 * (f0.toNat + 1048576 * (0))) := by simp only [Nat.div_one, w, e, enc2, enc1] <;> omega
  clear_value w
  have hf0 : f0.toNat < 1048576 := f0.isLt
  have hf1 : f1.toNat < 32 := f1.isLt
  obtain ⟨s0, d0⟩ := seg (B := 128) h hc0 (by decide) rfl
  obtain ⟨s1, d1⟩ := seg (B := 4096) d0 hf1 (by decide) rfl
  obtain ⟨s2, d2⟩ := seg (B := 4294967296) d1 hf0 (by decide) rfl
  have t : w < 4294967296 := (Nat.div_eq_zero_iff_lt (by decide)).mp d2
  have u : w % 2 = c0 % 2 := by rw [← s0, Nat.div_one, Nat.mod_mod_of_dvd _ (by decide)]
  exact ⟨u, t, part (g := 0) (n := 7) (a := 1) s0 (by decide), fld_eq _ _ _ s2, fld_eq _ _ _ s1⟩

theorem layout_17_2_12_5_7_5 (f0 : BitVec 2) (f1 : BitVec 5) (f2 : BitVec 5) (c0 : Nat) (hc0 : c0 < 128) (c1 : Nat) (hc1 : c1 < 8192) (m : Nat) (e : m = c0 * 1 + c1 * 524288) :
    let w := enc3 m f0 17 f1 12 f2 7
    w % 2 = c0 % 2 ∧ w < 2 ^ 32 ∧ bits w 1 6 = c0 / 2 ^ 1 % 2 ^ 6 ∧ bits w 19 13 = c1 / 2 ^ 0 % 2 ^ 13 ∧ bits w 22 10 = c1 / 2 ^ 3 % 2 ^ 10 ∧ fld w 17 2 = f0 ∧ fld w 12 5 = f1 ∧ fld w 7 5 = f2 := by
  intro w
  have h : w / 1 = c0 + 128 * (f2.toNat + 32 * (f1.toNat + 32 * (f0.toNat + 4 * (c1 + 8192 * (0))))) := by simp only [Nat.div_one, w, e, enc3, enc2, enc1] <;> omega
  clear_value w
  have hf0 : f0.toNat < 4 := f0.isLt
  have hf1 : f1.toNat < 32 := f1.isLt
  have hf2 : f2.toNat < 32 := f2.isLt
  obtain ⟨s0, d0⟩ := seg (B := 128) h hc0 (by decide) rfl
  obtain ⟨s1, d1⟩ := seg (B := 4096) d0 hf2 (by decide) rfl
  obtain ⟨s2, d2⟩ := seg (B := 131072) d1 hf1 (by decide) rfl
  obtain ⟨s3, d3⟩ := seg (B := 524288) d2 hf0 (by decide) rfl
  obtain ⟨s4, d4⟩ := seg (B := 4294967296) d3 hc1 (by decide) rfl
  have t : w < 4294967296 := (Nat.div_eq_zero_iff_lt (by decide)).mp d4
  have u : w % 2 = c0 % 2 := by rw [← s0, Nat.div_one, Nat.mod_mod_of_dvd _ (by decide)]
  exact ⟨u, t, part (g := 0) (n := 7) (a := 1) s0 (by decide), part (g := 19) (n := 13) (a := 0) s4 (by decide), part (g := 19) (n := 13) (a := 3) s4 (by decide), fld_eq _ _ _ s3, fld_eq _ _ _ s2, fld_eq _ _ _ s1⟩

theorem layout_17_5_7_5 (f0 : BitVec 5) (f1 : BitVec 5) (c0 : Nat) (hc0 : c0 < 128) (c1 : Nat) (hc1 : c1 < 32) (c2 : Nat) (hc2 : c2 < 1024) (m : Nat) (e : m = c0 * 1 + c1 * 4096 + c2 * 4194304) :
    let w := enc2 m f0 17 f1 7
    w % 2 = c0 % 2 ∧ w < 2 ^ 32 ∧ bits w 1 6 = c0 / 2 ^ 1 % 2 ^ 6 ∧ bits w 12 5 = c1 / 2 ^ 0 % 2 ^ 5 ∧ bits w 22 10 = c2 / 2 ^ 0 % 2 ^ 10 ∧ fld w 17 5 = f0 ∧ fld w 7 5 = f1 := by
  intro w
  have h : w / 1 = c0 + 128 * (f1.toNat + 32 * (c1 + 32 * (f0.toNat + 32 * (c2 + 1024 * (0))))) := by simp only [Nat.div_one, w, e, enc2, enc1] <;> omega
  clear_value w
  have hf0 : f0.toNat < 32 := f0.isLt
  have hf1 : f1.toNat < 32 := f1.isLt
  obtain ⟨s0, d0⟩ := seg (B := 128) h hc0 (by decide) rfl
  obtain ⟨s1, d1⟩ := seg (B := 4096) d0 hf1 (by decide) rfl
  obtain ⟨s2, d2⟩ := seg (B := 131072) d1 hc1 (by decide) rfl
  obtain ⟨s3, d3⟩ := seg (B := 4194304) d2 hf0 (by decide) rfl
  obtain ⟨s4, d4⟩ := seg (B := 4294967296) d3 hc2 (by decide) rfl
  have t : w < 4294967296 := (Nat.div_eq_zero_iff_lt (by decide)).mp d4
  have u : w % 2 = c0 % 2 := by rw [← s0, Nat.div_one, Nat.mod_mod_of_dvd _ (by decide)]
  exact ⟨u, t, part (g := 0) (n := 7) (a := 1) s0 (by decide), part (g := 12) (n := 5) (a := 0) s2 (by decide), part (g := 22) (n := 10) (a := 0) s4 (by decide), fld_eq _ _ _ s3, fld_eq _ _ _ s1⟩

theorem layout_17_5_12_4_7_5 (f0 : BitVec 5) (f1 : BitVec 4) (f2 : BitVec 5) (c0 : Nat) (hc0 : c0 < 128) (c1 : Nat) (hc1 : c1 < 2) (c2 : Nat) (hc2 : c2 < 1024) (m : Nat) (e : m = c0 * 1 + c1 * 65536 + c2 * 4194304) :
    let w := enc3 m f0 17 f1 12 f2 7
    w % 2 = c0 % 2 ∧ w < 2 ^ 32 ∧ bits w 1 6 = c0 / 2 ^ 1 % 2 ^ 6 ∧ bits w 16 1 = c1 / 2 ^ 0 % 2 ^ 1 ∧ bits w 22 10 = c2 / 2 ^ 0 % 2 ^ 10 ∧ fld w 17 5 = f0 ∧ fld w 12 4 = f1 ∧ fld w 7 5 = f2 := by
  intro w
  have h : w / 1 = c0 + 128 * (f2.toNat + 32 * (f1.toNat + 16 * (c1 + 2 * (f0.toNat + 32 * (c2 + 1024 * (0)))))) := by simp only [Nat.div_one, w, e, enc3, enc2, enc1] <;> omega
  clear_value w
  have hf0 : f0.toNat < 32 := f0.isLt
  have hf1 : f1.toNat < 16 := f1.isLt
  have hf2 : f2.toNat < 32 := f2.isLt
  obtain ⟨s0, d0⟩ := seg (B := 128) h hc0 (by decide) rfl
  obtain ⟨s1, d1⟩ := seg (B := 4096) d0 hf2 (by decide) rfl
  obtain ⟨s2, d2⟩ := seg (B := 65536) d1 hf1 (by decide) rfl
  obtain ⟨s3, d3⟩ := seg (B := 131072) d2 hc1 (by decide) rfl
  obtain ⟨s4, d4⟩ := seg (B := 4194304) d3 hf0 (by decide) rfl
  obtain ⟨s5, d5⟩ := seg (B := 4294967296) d4 hc2 (by decide) rfl
  have t : w < 4294967296 := (Nat.div_eq_zero_iff_lt (by decide)).mp d5
  have u : w % 2 = c0 % 2 := by rw [← s0, Nat.div_one, Nat.mod_mod_of_dvd _ (by decide)]
  exact ⟨u, t, part (g := 0) (n := 7) (a := 1) s0 (by decide), part (g := 16) (n := 1) (a := 0) s3 (by decide), part (g := 22) (n := 10) (a := 0) s5 (by decide), fld_eq _ _ _ s4, fld_eq _ _ _ s2, fld_eq _ _ _ s1⟩

theorem layout_17_5_12_5 (f0 : BitVec 5) (f1 : BitVec 5) (c0 : Nat) (hc0 : c0 < 4096) (c1 : Nat) (hc1 : c1 < 1024) (m : Nat) (e : m = c0 * 1 + c1 * 4194304) :
    let w := enc2 m f0 17 f1 12
    w % 2 = c0 % 2 ∧ w < 2 ^ 32 ∧ bits w 1 6 = c0 / 2 ^ 1 % 2 ^ 6 ∧ bits w 7 5 = c0 / 2 ^ 7 % 2 ^ 5 ∧ bits w 22 10 = c1 / 2 ^ 0 % 2 ^ 10 ∧ bits w 25 7 = c1 / 2 ^ 3 % 2 ^ 7 ∧ fld w 17 5 = f0 ∧ fld w 12 5 = f1 := by
  intro w
  have h : w / 1 = c0 + 4096 * (f1.toNat + 32 * (f0.toNat + 32 * (c1 + 1024 * (0)))) := by simp only [Nat.div_one, w, e, enc2, enc1] <;> omega
  clear_value w
  have hf0 : f0.toNat < 32 := f0.isLt
  have hf1 : f1.toNat < 32 := f1.isLt
  obtain ⟨s0, d0⟩ := seg (B := 4096) h hc0 (by decide) rfl
  obtain ⟨s1, d1⟩ := seg (B := 131072) d0 hf1 (by decide) rfl
  obtain ⟨s2, d2⟩ := seg (B := 4194304) d1 hf0 (by decide) rfl
  obtain ⟨s3, d3⟩ := seg (B := 4294967296) d2 hc1 (by decide) rfl
  have t : w < 4294967296 := (Nat.div_eq_zero_iff_lt (by decide)).mp d3
  have u : w % 2 = c0 % 2 := by rw [← s0, Nat.div_one, Nat.mod_mod_of_dvd _ (by decide)]
  exact ⟨u, t, part (g := 0) (n := 12) (a := 1) s0 (by decide), part (g := 0) (n := 12) (a := 7) s0 (by decide), part (g := 22) (n := 10) (a := 0) s3 (by decide), part (g := 22) (n := 10) (a := 3) s3 (by decide), fld_eq _ _ _ s2, fld_eq _ _ _ s1⟩

theorem layout_17_5_12_5_7_2 (f0 : BitVec 5) (f1 : BitVec 5) (f2 : BitVec 2) (c0 : Nat) (hc0 : c0 < 128) (c1 : Nat) (hc1 : c1 < 8) (c2 : Nat) (hc2 : c2 < 1024) (m : Nat) (e : m = c0 * 1 + c1 * 512 + c2 * 4194304) :
    let w := enc3 m f0 17 f1 12 f2 7
    w % 2 = c0 % 2 ∧ w < 2 ^ 32 ∧ bits w 1 6 = c0 / 2 ^ 1 % 2 ^ 6 ∧ bits w 9 3 = c1 / 2 ^ 0 % 2 ^ 3 ∧ bits w 22 10 = c2 / 2 ^ 0 % 2 ^ 10 ∧ fld w 17 5 = f0 ∧ fld w 12 5 = f1 ∧ fld w 7 2 = f2 := by
  intro w
  have h : w / 1 = c0 + 128 * (f2.toNat + 4 * (c1 + 8 * (f1.toNat + 32 * (f0.toNat + 32 * (c2 + 1024 * (0)))))) := by simp only [Nat.div_one, w, e, enc3, enc2, enc1] <;> omega
  clear_value w
  have hf0 : f0.toNat < 32 := f0.isLt
  have hf1 : f1.toNat < 32 := f1.isLt
  have hf2 : f2.toNat < 4 := f2.isLt
  obtain ⟨s0, d0⟩ := seg (B := 128) h hc0 (by decide) rfl
  obtain ⟨s1, d1⟩ := seg (B := 512) d0 hf2 (by decide) rfl
  obtain ⟨s2, d2⟩ := seg (B := 4096) d1 hc1 (by decide) rfl
  obtain ⟨s3, d3⟩ := seg (B := 131072) d2 hf1 (by decide) rfl
  obtain ⟨s4, d4⟩ := seg (B := 4194304) d3 hf0 (by decide) rfl
  obtain ⟨s5, d5⟩ := seg (B := 4294967296) d4 hc2 (by decide) rfl
  have t : w < 4294967296 := (Nat.div_eq_zero_iff_lt (by decide)).mp d5
  have u : w % 2 = c0 % 2 := by rw [← s0, Nat.div_one, Nat.mod_mod_of_dvd _ (by decide)]
  exact ⟨u, t, part (g := 0) (n := 7) (a := 1) s0 (by decide), part (g := 9) (n := 3) (a := 0) s2 (by decide), part (g := 22) (n := 10) (a := 0) s5 (by decide), fld_eq _ _ _ s4, fld_eq _ _ _ s3, fld_eq _ _ _ s1⟩

theorem layout_17_5_12_5_7_5 (f0 : BitVec 5) (f1 : BitVec 5) (f2 : BitVec 5) (c0 : Nat) (hc0 : c0 < 128) (c1 : Nat) (hc1 : c1 < 1024) (m : Nat) (e : m = c0 * 1 + c1 * 4194304) :
    let w := enc3 m f0 17 f1 12 f2 7
    w % 2 = c0 % 2 ∧ w < 2 ^ 32 ∧ bits w 1 6 = c0 / 2 ^ 1 % 2 ^ 6 ∧ bits w 22 10 = c1 / 2 ^ 0 % 2 ^ 10 ∧ fld w 17 5 = f0 ∧ fld w 12 5 = f1 ∧ fld w 7 5 = f2 := by
  intro w
  have h : w / 1 = c0 + 128 * (f2.toNat + 32 * (f1.toNat + 32 * (f0.toNat + 32 * (c1 + 1024 * (0))))) := by simp only [Nat.div_one, w, e, enc3, enc2, enc1] <;> omega
  clear_value w
  have hf0 : f0.toNat < 32 := f0.isLt
  have hf1 : f1.toNat < 32 := f1.isLt
  have hf2 : f2.toNat < 32 := f2.isLt
  obtain ⟨s0, d0⟩ := seg (B := 128) h hc0 (by decide) rfl
  obtain ⟨s1, d1⟩ := seg (B := 4096) d0 hf2 (by decide) rfl
  obtain ⟨s2, d2⟩ := seg (B := 131072) d1 hf1 (by decide) rfl
  obtain ⟨s3, d3⟩ := seg (B := 4194304) d2 hf0 (by decide) rfl
  obtain ⟨s4, d4⟩ := seg (B := 4294967296) d3 hc1 (by decide) rfl
  have t : w < 4294967296 := (Nat.div_eq_zero_iff_lt (by decide)).mp d4
  have u : w % 2 = c0 % 2 := by rw [← s0, Nat.div_one, Nat.mod_mod_of_dvd _ (by decide)]
  exact ⟨u, t, part (g := 0) (n := 7) (a := 1) s0 (by decide), part (g := 22) (n := 10) (a := 0) s4 (by decide), fld_eq _ _ _ s3, fld_eq _ _ _ s2, fld_eq _ _ _ s1⟩

theorem layout_17_5_12_5_10_2_7_3 (f0 : BitVec 5) (f1 : BitVec 5) (f2 : BitVec 2) (f3 : BitVec 3) (c0 : Nat) (hc0 : c0 < 128) (c1 : Nat) (hc1 : c1 < 1024) (m : Nat) (e : m = c0 * 1 + c1 * 4194304) :
    let w := enc4 m f0 17 f1 12 f2 10 f3 7
    w % 2 = c0 % 2 ∧ w < 2 ^ 32 ∧ bits w 1 6 = c0 / 2 ^ 1 % 2 ^ 6 ∧ bits w 22 10 = c1 / 2 ^ 0 % 2 ^ 10 ∧ fld w 17 5 = f0 ∧ fld w 12 5 = f1 ∧ fld w 10 2 = f2 ∧ fld w 7 3 = f3 := by
  intro w
  have h : w / 1 = c0 + 128 * (f3.toNat + 8 * (f2.toNat + 4 * (f1.toNat + 32 * (f0.toNat + 32 * (c1 + 1024 * (0)))))) := by simp only [Nat.div_one, w, e, enc4, enc3, enc2, enc1] <;> omega
  clear_value w
  have hf0 : f0.toNat < 32 := f0.isLt
  have hf1 : f1.toNat < 32 := f1.isLt
  have hf2 : f2.toNat < 4 := f2.isLt
  have hf3 : f3.toNat < 8 := f3.isLt
  obtain ⟨s0, d0⟩ := seg (B := 128) h hc0 (by decide) rfl
  obtain ⟨s1, d1⟩ := seg (B := 1024) d0 hf3 (by decide) rfl
  obtain ⟨s2, d2⟩ := seg (B := 4096) d1 hf2 (by decide) rfl
  obtain ⟨s3, d3⟩ := seg (B := 131072) d2 hf1 (by decide) rfl
  obtain ⟨s4, d4⟩ := seg (B := 4194304) d3 hf0 (by decide) rfl
  obtain ⟨s5, d5⟩ := seg (B := 4294967296) d4 hc1 (by decide) rfl
  have t : w < 4294967296 := (Nat.div_eq_zero_iff_lt (by decide)).mp d5
  have u : w % 2 = c0 % 2 := by rw [← s0, Nat.div_one, Nat.mod_mod_of_dvd _ (by decide)]
  exact ⟨u, t, part (g := 0) (n := 7) (a := 1) s0 (by decide), part (g := 22) (n := 10) (a := 0) s5 (by decide), fld_eq _ _ _ s4, fld_eq _ _ _ s3, fld_eq _ _ _ s2, fld_eq _ _ _ s1⟩

theorem layout_17_6_12_5_7_5 (f0 : BitVec 6) (f1 : BitVec 5) (f2 : BitVec 5) (c0 : Nat) (hc0 : c0 < 128) (c1 : Nat) (hc1 : c1 < 512) (m : Nat) (e : m = c0 * 1 + c1 * 8388608) :
    let w := enc3 m f0 17 f1 12 f2 7
    w % 2 = c0 % 2 ∧ w < 2 ^ 32 ∧ bits w 1 6 = c0 / 2 ^ 1 % 2 ^ 6 ∧ bits w 23 9 = c1 / 2 ^ 0 % 2 ^ 9 ∧ fld w 17 6 = f0 ∧ fld w 12 5 = f1 ∧ fld w 7 5 = f2 := by
  intro w
  have h : w / 1 = c0 + 128 * (f2.toNat + 32 * (f1.toNat + 32 * (f0.toNat + 64 * (c1 + 512 * (0))))) := by simp only [Nat.div_one, w, e, enc3, enc2, enc1] <;> omega
  clear_value w
  have hf0 : f0.toNat < 64 := f0.isLt
  have hf1 : f1.toNat < 32 := f1.isLt
  have hf2 : f2.toNat < 32 := f2.isLt
  obtain ⟨s0, d0⟩ := seg (B := 128) h hc0 (by decide) rfl
  obtain ⟨s1, d1⟩ := seg (B := 4096) d0 hf2 (by decide) rfl
  obtain ⟨s2, d2⟩ := seg (B := 131072) d1 hf1 (by decide) rfl
  obtain ⟨s3, d3⟩ := seg (B := 8388608) d2 hf0 (by decide) rfl
  obtain ⟨s4, d4⟩ := seg (B := 4294967296) d3 hc1 (by decide) rfl
  have t : w < 4294967296 := (Nat.div_eq_zero_iff_lt (by decide)).mp d4
  have u : w % 2 = c0 % 2 := by rw [← s0, Nat.div_one, Nat.mod_mod_of_dvd _ (by decide)]
  exact ⟨u, t, part (g := 0) (n := 7) (a := 1) s0 (by decide), part (g := 23) (n := 9) (a := 0) s4 (by decide), fld_eq _ _ _ s3, fld_eq _ _ _ s2, fld_eq _ _ _ s1⟩

theorem layout_17_12_7_5 (f0 : BitVec 12) (f1 : BitVec 5) (c0 : Nat) (hc0 : c0 < 128) (c1 : Nat) (hc1 : c1 < 32) (c2 : Nat) (hc2 : c2 < 8) (m : Nat) (e : m = c0 * 1 + c1 * 4096 + c2 * 536870912) :
    let w := enc2 m f0 17 f1 7
    w % 2 = c0 % 2 ∧ w < 2 ^ 32 ∧ bits w 1 6 = c0 / 2 ^ 1 % 2 ^ 6 ∧ bits w 12 5 = c1 / 2 ^ 0 % 2 ^ 5 ∧ bits w 29 3 = c2 / 2 ^ 0 % 2 ^ 3 ∧ fld w 17 12 = f0 ∧ fld w 7 5 = f1 := by
  intro w
  have h : w / 1 = c0 + 128 * (f1.toNat + 32 * (c1 + 32 * (f0.toNat + 4096 * (c2 + 8 * (0))))) := by simp only [Nat.div_one, w, e, enc2, enc1] <;> omega
  clear_value w
  have hf0 : f0.toNat < 4096 := f0.isLt
  have hf1 : f1.toNat < 32 := f1.isLt
  obtain ⟨s0, d0⟩ := seg (B := 128) h hc0 (by decide) rfl
  obtain ⟨s1, d1⟩ := seg (B := 4096) d0 hf1 (by decide) rfl
  obtain ⟨s2, d2⟩ := seg (B := 131072) d1 hc1 (by decide) rfl
  obtain ⟨s3, d3⟩ := seg (B := 536870912) d2 hf0 (by decide) rfl
  obtain ⟨s4, d4⟩ := seg (B := 4294967296) d3 hc2 (by decide) rfl
  have t : w < 4294967296 := (Nat.div_eq_zero_iff_lt (by decide)).mp d4
  have u : w % 2 = c0 % 2 := by rw [← s0, Nat.div_one, Nat.mod_mod_of_dvd _ (by decide)]
  exact ⟨u, t, part (g := 0) (n := 7) (a := 1) s0 (by decide), part (g := 12) (n := 5) (a := 0) s2 (by decide), part (g := 29) (n := 3) (a := 0) s4 (by decide), fld_eq _ _ _ s3, fld_eq _ _ _ s1⟩

theorem layout_17_12_12_5 (f0 : BitVec 12) (f1 : BitVec 5) (c0 : Nat) (hc0 : c0 < 4096) (c1 : Nat) (hc1 : c1 < 8) (m : Nat) (e : m = c0 * 1 + c1 * 536870912) :
    let w := enc2 m f0 17 f1 12
    w % 2 = c0 % 2 ∧ w < 2 ^ 32 ∧ bits w 1 6 = c0 / 2 ^ 1 % 2 ^ 6 ∧ bits w 7 5 = c0 / 2 ^ 7 % 2 ^ 5 ∧ bits w 29 3 = c1 / 2 ^ 0 % 2 ^ 3 ∧ fld w 17 12 = f0 ∧ fld w 12 5 = f1 := by
  intro w
  have h : w / 1 = c0 + 4096 * (f1.toNat + 32 * (f0.toNat + 4096 * (c1 + 8 * (0)))) := by simp only [Nat.div_one, w, e, enc2, enc1] <;> omega
  clear_value w
  have hf0 : f0.toNat < 4096 := f0.isLt
  have hf1 : f1.toNat < 32 := f1.isLt
  obtain ⟨s0, d0⟩ := seg (B := 4096) h hc0 (by decide) rfl
  obtain ⟨s1, d1⟩ := seg (B := 131072) d0 hf1 (by decide) rfl
  obtain ⟨s2, d2⟩ := seg (B := 536870912) d1 hf0 (by decide) rfl
  obtain ⟨s3, d3⟩ := seg (B := 4294967296) d2 hc1 (by decide) rfl
  have t : w < 4294967296 := (Nat.div_eq_zero_iff_lt (by decide)).mp d3
  have u : w % 2 = c0 % 2 := by rw [← s0, Nat.div_one, Nat.mod_mod_of_dvd _ (by decide)]
  exact ⟨u, t, part (g := 0) (n := 12) (a := 1) s0 (by decide), part (g := 0) (n := 12) (a := 7) s0 (by decide), part (g := 29) (n := 3) (a := 0) s3 (by decide), fld_eq _ _ _ s2, fld_eq _ _ _ s1⟩

theorem layout_17_12_12_5_7_5 (f0 : BitVec 12) (f1 : BitVec 5) (f2 : BitVec 5) (c0 : Nat) (hc0 : c0 < 128) (c1 : Nat) (hc1 : c1 < 8) (m : Nat) (e : m = c0 * 1 + c1 * 536870912) :
    let w := enc3 m f0 17 f1 12 f2 7
    w % 2 = c0 % 2 ∧ w < 2 ^ 32 ∧ bits w 1 6 = c0 / 2 ^ 1 % 2 ^ 6 ∧ bits w 29 3 = c1 / 2 ^ 0 % 2 ^ 3 ∧ fld w 17 12 = f0 ∧ fld w 12 5 = f1 ∧ fld w 7 5 = f2 := by
  intro w
  have h : w / 1 = c0 + 128 * (f2.toNat + 32 * (f1.toNat + 32 * (f0.toNat + 4096 * (c1 + 8 * (0))))) := by simp only [Nat.div_one, w, e, enc3, enc2, enc1] <;> omega
  clear_value w
  have hf0 : f0.toNat < 4096 := f0.isLt
  have hf1 : f1.toNat < 32 := f1.isLt
  have hf2 : f2.toNat < 32 := f2.isLt
  obtain ⟨s0, d0⟩ := seg (B := 128) h hc0 (by decide) rfl
  obtain ⟨s1, d1⟩ := seg (B := 4096) d0 hf2 (by decide) rfl
  obtain ⟨s2, d2⟩ := seg (B := 131072) d1 hf1 (by decide) rfl
  obtain ⟨s3, d3⟩ := seg (B := 536870912) d2 hf0 (by decide) rfl
  obtain ⟨s4, d4⟩ := seg (B := 4294967296) d3 hc1 (by decide) rfl
  have t : w < 4294967296 := (Nat.div_eq_zero_iff_lt (by decide)).mp d4
  have u : w % 2 = c0 % 2 := by rw [← s0, Nat.div_one, Nat.mod_mod_of_dvd _ (by decide)]
  exact ⟨u, t, part (g := 0) (n := 7) (a := 1) s0 (by decide), part (g := 29) (n := 3) (a := 0) s4 (by decide), fld_eq _ _ _ s3, fld_eq _ _ _ s2, fld_eq _ _ _ s1⟩

theorem layout_17_15_7_5 (f0 : BitVec 15) (f1 : BitVec 5) (c0 : Nat) (hc0 : c0 < 128) (c1 : Nat) (hc1 : c1 < 32) (m : Nat) (e : m = c0 * 1 + c1 * 4096) :
    let w := enc2 m f0 17 f1 7
    w % 2 = c0 % 2 ∧ w < 2 ^ 32 ∧ bits w 1 6 = c0 / 2 ^ 1 % 2 ^ 6 ∧ bits w 12 5 = c1 / 2 ^ 0 % 2 ^ 5 ∧ fld w 17 15 = f0 ∧ fld w 7 5 = f1 := by
  intro w
  have h : w / 1 = c0 + 128 * (f1.toNat + 32 * (c1 + 32 * (f0.toNat + 32768 * (0)))) := by simp only [Nat.div_one, w, e, enc2, enc1] <;> omega
  clear_value w
  have hf0 : f0.toNat < 32768 := f0.isLt
  have hf1 : f1.toNat < 32 := f1.isLt
  obtain ⟨s0, d0⟩ := seg (B := 128) h hc0 (by decide) rfl
  obtain ⟨s1, d1⟩ := seg (B := 4096) d0 hf1 (by decide) rfl
  obtain ⟨s2, d2⟩ := seg (B := 131072) d1 hc1 (by decide) rfl
  obtain ⟨s3, d3⟩ := seg (B := 4294967296) d2 hf0 (by decide) rfl
  have t : w < 4294967296 := (Nat.div_eq_zero_iff_lt (by decide)).mp d3
  have u : w % 2 = c0 % 2 := by rw [← s0, Nat.div_one, Nat.mod_mod_of_dvd _ (by decide)]
  exact ⟨u, t, part (g := 0) (n := 7) (a := 1) s0 (by decide), part (g := 12) (n := 5) (a := 0) s2 (by decide), fld_eq _ _ _ s3, fld_eq _ _ _ s1⟩

theorem layout_17_15_12_5_7_5 (f0 : BitVec 15) (f1 : BitVec 5) (f2 : BitVec 5) (c0 : Nat) (hc0 : c0 < 128) (m : Nat) (e : m = c0 * 1) :
    let w := enc3 m f0 17 f1 12 f2 7
    w % 2 = c0 % 2 ∧ w < 2 ^ 32 ∧ bits w 1 6 = c0 / 2 ^ 1 % 2 ^ 6 ∧ fld w 17 15 = f0 ∧ fld w 12 5 = f1 ∧ fld w 7 5 = f2 := by
  intro w
  have h : w / 1 = c0 + 128 * (f2.toNat + 32 * (f1.toNat + 32 * (f0.toNat + 32768 * (0)))) := by simp only [Nat.div_one, w, e, enc3, enc2, enc1] <;> omega
  clear_value w
  have hf0 : f0.toNat < 32768 := f0.isLt
  have hf1 : f1.toNat < 32 := f1.isLt
  have hf2 : f2.toNat < 32 := f2.isLt
  obtain ⟨s0, d0⟩ := seg (B := 128) h hc0 (by decide) rfl
  obtain ⟨s1, d1⟩ := seg (B := 4096) d0 hf2 (by decide) rfl
  obtain ⟨s2, d2⟩ := seg (B := 131072) d1 hf1 (by decide) rfl
  obtain ⟨s3, d3⟩ := seg (B := 4294967296) d2 hf0 (by decide) rfl
  have t : w < 4294967296 := (Nat.div_eq_zero_iff_lt (by decide)).mp d3
  have u : w % 2 = c0 % 2 := by rw [← s0, Nat.div_one, Nat.mod_mod_of_dvd _ (by decide)]
  exact ⟨u, t, part (g := 0) (n := 7) (a := 1) s0 (by decide), fld_eq _ _ _ s3, fld_eq _ _ _ s2, fld_eq _ _ _ s1⟩

theorem layout_17_15_12_5_10_2_7_3 (f0 : BitVec 15) (f1 : BitVec 5) (f2 : BitVec 2) (f3 : BitVec 3) (c0 : Nat) (hc0 : c0 < 128) (m : Nat) (e : m = c0 * 1) :
    let w := enc4 m f0 17 f1 12 f2 10 f3 7
    w % 2 = c0 % 2 ∧ w < 2 ^ 32 ∧ bits w 1 6 = c0 / 2 ^ 1 % 2 ^ 6 ∧ fld w 17 15 = f0 ∧ fld w 12 5 = f1 ∧ fld w 10 2 = f2 ∧ fld w 7 3 = f3 := by
  intro w
  have h : w / 1 = c0 + 128 * (f3.toNat + 8 * (f2.toNat + 4 * (f1.toNat + 32 * (f0.toNat + 32768 * (0))))) := by simp only [Nat.div_one, w, e, enc4, enc3, enc2, enc1] <;> omega
  clear_value w
  have hf0 : f0.toNat < 32768 := f0.isLt
  have hf1 : f1.toNat < 32 := f1.isLt
  have hf2 : f2.toNat < 4 := f2.isLt
  have hf3 : f3.toNat < 8 := f3.isLt
  obtain ⟨s0, d0⟩ := seg (B := 128) h hc0 (by decide) rfl
  obtain ⟨s1, d1⟩ := seg (B := 1024) d0 hf3 (by decide) rfl
  obtain ⟨s2, d2⟩ := seg (B := 4096) d1 hf2 (by decide) rfl
  obtain ⟨s3, d3⟩ := seg (B := 131072) d2 hf1 (by decide) rfl
  obtain ⟨s4, d4⟩ := seg (B := 4294967296) d3 hf0 (by decide) rfl
  have t : w < 4294967296 := (Nat.div_eq_zero_iff_lt (by decide)).mp d4
  have u : w % 2 = c0 % 2 := by rw [← s0, Nat.div_one, Nat.mod_mod_of_dvd _ (by decide)]
  exact ⟨u, t, part (g := 0) (n := 7) (a := 1) s0 (by decide), fld_eq _ _ _ s4, fld_eq _ _ _ s3, fld_eq _ _ _ s2, fld_eq _ _ _ s1⟩

theorem layout_22_3 (f0 : BitVec 3) (c0 : Nat) (hc0 : c0 < 4194304) (c1 : Nat) (hc1 : c1 < 128) (m : Nat) (e : m = c0 * 1 + c1 * 33554432) :
    let w := enc1 m f0 22
    w % 2 = c0 % 2 ∧ w < 2 ^ 32 ∧ bits w 1 6 = c0 / 2 ^ 1 % 2 ^ 6 ∧ bits w 7 15 = c0 / 2 ^ 7 % 2 ^ 15 ∧ bits w 25 7 = c1 / 2 ^ 0 % 2 ^ 7 ∧ fld w 22 3 = f0 := by
  intro w
  have h : w / 1 = c0 + 4194304 * (f0.toNat + 8 * (c1 + 128 * (0))) := by simp only [Nat.div_one, w, e, enc1] <;> omega
  clear_value w
  have hf0 : f0.toNat < 8 := f0.isLt
  obtain ⟨s0, d0⟩ := seg (B := 4194304) h hc0 (by decide) rfl
  obtain ⟨s1, d1⟩ := seg (B := 33554432) d0 hf0 (by decide) rfl
  obtain ⟨s2, d2⟩ := seg (B := 4294967296) d1 hc1 (by decide) rfl
  have t : w < 4294967296 := (Nat.div_eq_zero_iff_lt (by decide)).mp d2
  have u : w % 2 = c0 % 2 := by rw [← s0, Nat.div_one, Nat.mod_mod_of_dvd _ (by decide)]
  exact ⟨u, t, part (g := 0) (n := 22) (a := 1) s0 (by decide), part (g := 0) (n := 22) (a := 7) s0 (by decide), part (g := 25) (n := 7) (a := 0) s2 (by decide), fld_eq _ _ _ s1⟩

theorem layout_22_3_17_5_12_5 (f0 : BitVec 3) (f1 : BitVec 5) (f2 : BitVec 5) (c0 : Nat) (hc0 : c0 < 4096) (c1 : Nat) (hc1 : c1 < 128) (m : Nat) (e : m = c0 * 1 + c1 * 33554432) :
    let w := enc3 m f0 22 f1 17 f2 12
    w % 2 = c0 % 2 ∧ w < 2 ^ 32 ∧ bits w 1 6 = c0 / 2 ^ 1 % 2 ^ 6 ∧ bits w 7 5 = c0 / 2 ^ 7 % 2 ^ 5 ∧ bits w 9 3 = c0 / 2 ^ 9 % 2 ^ 3 ∧ bits w 25 7 = c1 / 2 ^ 0 % 2 ^ 7 ∧ fld w 22 3 = f0 ∧ fld w 17 5 = f1 ∧ fld w 12 5 = f2 := by
  intro w
  have h : w / 1 = c0 + 4096 * (f2.toNat + 32 * (f1.toNat + 32 * (f0.toNat + 8 * (c1 + 128 * (0))))) := by simp only [Nat.div_one, w, e, enc3, enc2, enc1] <;> omega
  clear_value w
  have hf0 : f0.toNat < 8 := f0.isLt
  have hf1 : f1.toNat < 32 := f1.isLt
  have hf2 : f2.toNat < 32 := f2.isLt
  obtain ⟨s0, d0⟩ := seg (B := 4096) h hc0 (by decide) rfl
  obtain ⟨s1, d1⟩ := seg (B := 131072) d0 hf2 (by decide) rfl
  obtain ⟨s2, d2⟩ := seg (B := 4194304) d1 hf1 (by decide) rfl
  obtain ⟨s3, d3⟩ := seg (B := 33554432) d2 hf0 (by decide) rfl
  obtain ⟨s4, d4⟩ := seg (B := 4294967296) d3 hc1 (by decide) rfl
  have t : w < 4294967296 := (Nat.div_eq_zero_iff_lt (by decide)).mp d4
  have u : w % 2 = c0 % 2 := by rw [← s0, Nat.div_one, Nat.mod_mod_of_dvd _ (by decide)]
  exact ⟨u, t, part (g := 0) (n := 12) (a := 1) s0 (by decide), part (g := 0) (n := 12) (a := 7) s0 (by decide), part (g := 0) (n := 12) (a := 9) s0 (by decide), part (g := 25) (n := 7) (a := 0) s4 (by decide), fld_eq _ _ _ s3, fld_eq _ _ _ s2, fld_eq _ _ _ s1⟩

theorem layout_22_8 (f0 : BitVec 8) (c0 : Nat) (hc0 : c0 < 4194304) (c1 : Nat) (hc1 : c1 < 4) (m : Nat) (e : m = c0 * 1 + c1 * 1073741824) :
    let w := enc1 m f0 22
    w % 2 = c0 % 2 ∧ w < 2 ^ 32 ∧ bits w 1 6 = c0 / 2 ^ 1 % 2 ^ 6 ∧ bits w 7 5 = c0 / 2 ^ 7 % 2 ^ 5 ∧ bits w 7 15 = c0 / 2 ^ 7 % 2 ^ 15 ∧ bits w 17 5 = c0 / 2 ^ 17 % 2 ^ 5 ∧ bits w 30 2 = c1 / 2 ^ 0 % 2 ^ 2 ∧ fld w 22 8 = f0 := by
  intro w
  have h : w / 1 = c0 + 4194304 * (f0.toNat + 256 * (c1 + 4 * (0))) := by simp only [Nat.div_one, w, e, enc1] <;> omega
  clear_value w
  have hf0 : f0.toNat < 256 := f0.isLt
  obtain ⟨s0, d0⟩ := seg (B := 4194304) h hc0 (by decide) rfl
  obtain ⟨s1, d1⟩ := seg (B := 1073741824) d0 hf0 (by decide) rfl
  obtain ⟨s2, d2⟩ := seg (B := 4294967296) d1 hc1 (by decide) rfl
  have t : w < 4294967296 := (Nat.div_eq_zero_iff_lt (by decide)).mp d2
  have u : w % 2 = c0 % 2 := by rw [← s0, Nat.div_one, Nat.mod_mod_of_dvd _ (by decide)]
  exact ⟨u, t, part (g := 0) (n := 22) (a := 1) s0 (by decide), part (g := 0) (n := 22) (a := 7) s0 (by decide), part (g := 0) (n := 22) (a := 7) s0 (by decide), part (g := 0) (n := 22) (a := 17) s0 (by decide), part (g := 30) (n := 2) (a := 0) s2 (by decide), fld_eq _ _ _ s1⟩

theorem layout_22_8_12_5 (f0 : BitVec 8) (f1 : BitVec 5) (c0 : Nat) (hc0 : c0 < 4096) (c1 : Nat) (hc1 : c1 < 32) (c2 : Nat) (hc2 : c2 < 4) (m : Nat) (e : m = c0 * 1 + c1 * 131072 + c2 * 1073741824) :
    let w := enc2 m f0 22 f1 12
    w % 2 = c0 % 2 ∧ w < 2 ^ 32 ∧ bits w 1 6 = c0 / 2 ^ 1 % 2 ^ 6 ∧ bits w 7 5 = c0 / 2 ^ 7 % 2 ^ 5 ∧ bits w 17 5 = c1 / 2 ^ 0 % 2 ^ 5 ∧ bits w 30 2 = c2 / 2 ^ 0 % 2 ^ 2 ∧ fld w 22 8 = f0 ∧ fld w 12 5 = f1 := by
  intro w
  have h : w / 1 = c0 + 4096 * (f1.toNat + 32 * (c1 + 32 * (f0.toNat + 256 * (c2 + 4 * (0))))) := by simp only [Nat.div_one, w, e, enc2, enc1] <;> omega
  clear_value w
  have hf0 : f0.toNat < 256 := f0.isLt
  have hf1 : f1.toNat < 32 := f1.isLt
  obtain ⟨s0, d0⟩ := seg (B := 4096) h hc0 (by decide) rfl
  obtain ⟨s1, d1⟩ := seg (B := 131072) d0 hf1 (by decide) rfl
  obtain ⟨s2, d2⟩ := seg (B := 4194304) d1 hc1 (by decide) rfl
  obtain ⟨s3, d3⟩ := seg (B := 1073741824) d2 hf0 (by decide) rfl
  obtain ⟨s4, d4⟩ := seg (B := 4294967296) d3 hc2 (by decide) rfl
  have t : w < 4294967296 := (Nat.div_eq_zero_iff_lt (by decide)).mp d4
  have u : w % 2 = c0 % 2 := by rw [← s0, Nat.div_one, Nat.mod_mod_of_dvd _ (by decide)]
  exact ⟨u, t, part (g := 0) (n := 12) (a := 1) s0 (by decide), part (g := 0) (n := 12) (a := 7) s0 (by decide), part (g := 17) (n := 5) (a := 0) s2 (by decide), part (g := 30) (n := 2) (a := 0) s4 (by decide), fld_eq _ _ _ s3, fld_eq _ _ _ s1⟩

theorem layout_22_8_12_5_7_5 (f0 : BitVec 8) (f1 : BitVec 5) (f2 : BitVec 5) (c0 : Nat) (hc0 : c0 < 128) (c1 : Nat) (hc1 : c1 < 32) (c2 : Nat) (hc2 : c2 < 4) (m : Nat) (e : m = c0 * 1 + c1 * 131072 + c2 * 1073741824) :
    let w := enc3 m f0 22 f1 12 f2 7
    w % 2 = c0 % 2 ∧ w < 2 ^ 32 ∧ bits w 1 6 = c0 / 2 ^ 1 % 2 ^ 6 ∧ bits w 17 5 = c1 / 2 ^ 0 % 2 ^ 5 ∧ bits w 30 2 = c2 / 2 ^ 0 % 2 ^ 2 ∧ fld w 22 8 = f0 ∧ fld w 12 5 = f1 ∧ fld w 7 5 = f2 := by
  intro w
  have h : w / 1 = c0 + 128 * (f2.toNat + 32 * (f1.toNat + 32 * (c1 + 32 * (f0.toNat + 256 * (c2 + 4 * (0)))))) := by simp only [Nat.div_one, w, e, enc3, enc2, enc1] <;> omega
  clear_value w
  have hf0 : f0.toNat < 256 := f0.isLt
  have hf1 : f1.toNat < 32 := f1.isLt
  have hf2 : f2.toNat < 32 := f2.isLt
  obtain ⟨s0, d0⟩ := seg (B := 128) h hc0 (by decide) rfl
  obtain ⟨s1, d1⟩ := seg (B := 4096) d0 hf2 (by decide) rfl
  obtain ⟨s2, d2⟩ := seg (B := 131072) d1 hf1 (by decide) rfl
  obtain ⟨s3, d3⟩ := seg (B := 4194304) d2 hc1 (by decide) rfl
  obtain ⟨s4, d4⟩ := seg (B := 1073741824) d3 hf0 (by decide) rfl
  obtain ⟨s5, d5⟩ := seg (B := 4294967296) d4 hc2 (by decide) rfl
  have t : w < 4294967296 := (Nat.div_eq_zero_iff_lt (by decide)).mp d5
  have u : w % 2 = c0 % 2 := by rw [← s0, Nat.div_one, Nat.mod_mod_of_dvd _ (by decide)]
  exact ⟨u, t, part (g := 0) (n := 7) (a := 1) s0 (by decide), part (g := 17) (n := 5) (a := 0) s3 (by decide), part (g := 30) (n := 2) (a := 0) s5 (by decide), fld_eq _ _ _ s4, fld_eq _ _ _ s2, fld_eq _ _ _ s1⟩

theorem layout_22_8_17_5_7_5 (f0 : BitVec 8) (f1 : BitVec 5) (f2 : BitVec 5) (c0 : Nat) (hc0 : c0 < 128) (c1 : Nat) (hc1 : c1 < 32) (c2 : Nat) (hc2 : c2 < 4) (m : Nat) (e : m = c0 * 1 + c1 * 4096 + c2 * 1073741824) :
    let w := enc3 m f0 22 f1 17 f2 7
    w % 2 = c0 % 2 ∧ w < 2 ^ 32 ∧ bits w 1 6 = c0 / 2 ^ 1 % 2 ^ 6 ∧ bits w 12 5 = c1 / 2 ^ 0 % 2 ^ 5 ∧ bits w 30 2 = c2 / 2 ^ 0 % 2 ^ 2 ∧ fld w 22 8 = f0 ∧ fld w 17 5 = f1 ∧ fld w 7 5 = f2 := by
  intro w
  have h : w / 1 = c0 + 128 * (f2.toNat + 32 * (c1 + 32 * (f1.toNat + 32 * (f0.toNat + 256 * (c2 + 4 * (0)))))) := by simp only [Nat.div_one, w, e, enc3, enc2, enc1] <;> omega
  clear_value w
  have hf0 : f0.toNat < 256 := f0.isLt
  have hf1 : f1.toNat < 32 := f1.isLt
  have hf2 : f2.toNat < 32 := f2.isLt
  obtain ⟨s0, d0⟩ := seg (B := 128) h hc0 (by decide) rfl
  obtain ⟨s1, d1⟩ := seg (B := 4096) d0 hf2 (by decide) rfl
  obtain ⟨s2, d2⟩ := seg (B := 131072) d1 hc1 (by decide) rfl
  obtain ⟨s3, d3⟩ := seg (B := 4194304) d2 hf1 (by decide) rfl
  obtain ⟨s4, d4⟩ := seg (B := 1073741824) d3 hf0 (by decide) rfl
  obtain ⟨s5, d5⟩ := seg (B := 4294967296) d4 hc2 (by decide) rfl
  have t : w < 4294967296 := (Nat.div_eq_zero_iff_lt (by decide)).mp d5
  have u : w % 2 = c0 % 2 := by rw [← s0, Nat.div_one, Nat.mod_mod_of_dvd _ (by decide)]
  exact ⟨u, t, part (g := 0) (n := 7) (a := 1) s0 (by decide), part (g := 12) (n := 5) (a := 0) s2 (by decide), part (g := 30) (n := 2) (a := 0) s5 (by decide), fld_eq _ _ _ s4, fld_eq _ _ _ s3, fld_eq _ _ _ s1⟩

theorem layout_22_8_17_5_12_5_7_3 (f0 : BitVec 8) (f1 : BitVec 5) (f2 : BitVec 5) (f3 : BitVec 3) (c0 : Nat) (hc0 : c0 < 128) (c1 : Nat) (hc1 : c1 < 4) (c2 : Nat) (hc2 : c2 < 4) (m : Nat) (e : m = c0 * 1 + c1 * 1024 + c2 * 1073741824) :
    let w := enc4 m f0 22 f1 17 f2 12 f3 7
    w % 2 = c0 % 2 ∧ w < 2 ^ 32 ∧ bits w 1 6 = c0 / 2 ^ 1 % 2 ^ 6 ∧ bits w 10 2 = c1 / 2 ^ 0 % 2 ^ 2 ∧ bits w 30 2 = c2 / 2 ^ 0 % 2 ^ 2 ∧ fld w 22 8 = f0 ∧ fld w 17 5 = f1 ∧ fld w 12 5 = f2 ∧ fld w 7 3 = f3 := by
  intro w
  have h : w / 1 = c0 + 128 * (f3.toNat + 8 * (c1 + 4 * (f2.toNat + 32 * (f1.toNat + 32 * (f0.toNat + 256 * (c2 + 4 * (0))))))) := by simp only [Nat.div_one, w, e, enc4, enc3, enc2, enc1] <;> omega
  clear_value w
  have hf0 : f0.toNat < 256 := f0.isLt
  have hf1 : f1.toNat < 32 := f1.isLt
  have hf2 : f2.toNat < 32 := f2.isLt
  have hf3 : f3.toNat < 8 := f3.isLt
  obtain ⟨s0, d0⟩ := seg (B := 128) h hc0 (by decide) rfl
  obtain ⟨s1, d1⟩ := seg (B := 1024) d0 hf3 (by decide) rfl
  obtain ⟨s2, d2⟩ := seg (B := 4096) d1 hc1 (by decide) rfl
  obtain ⟨s3, d3⟩ := seg (B := 131072) d2 hf2 (by decide) rfl
  obtain ⟨s4, d4⟩ := seg (B := 4194304) d3 hf1 (by decide) rfl
  obtain ⟨s5, d5⟩ := seg (B := 1073741824) d4 hf0 (by decide) rfl
  obtain ⟨s6, d6⟩ := seg (B := 4294967296) d5 hc2 (by decide) rfl
  have t : w < 4294967296 := (Nat.div_eq_zero_iff_lt (by decide)).mp d6
  have u : w % 2 = c0 % 2 := by rw [← s0, Nat.div_one, Nat.mod_mod_of_dvd _ (by decide)]
  exact ⟨u, t, part (g := 0) (n := 7) (a := 1) s0 (by decide), part (g := 10) (n := 2) (a := 0) s2 (by decide), part (g := 30) (n := 2) (a := 0) s6 (by decide), fld_eq _ _ _ s5, fld_eq _ _ _ s4, fld_eq _ _ _ s3, fld_eq _ _ _ s1⟩

theorem layout_22_10_17_5_12_5_10_2_7_3 (f0 : BitVec 10) (f1 : BitVec 5) (f2 : BitVec 5) (f3 : BitVec 2) (f4 : BitVec 3) (c0 : Nat) (hc0 : c0 < 128) (m : Nat) (e : m = c0 * 1) :
    let w := enc5 m f0 22 f1 17 f2 12 f3 10 f4 7
    w % 2 = c0 % 2 ∧ w < 2 ^ 32 ∧ bits w 1 6 = c0 / 2 ^ 1 % 2 ^ 6 ∧ fld w 22 10 = f0 ∧ fld w 17 5 = f1 ∧ fld w 12 5 = f2 ∧ fld w 10 2 = f3 ∧ fld w 7 3 = f4 := by
  intro w
  have h : w / 1 = c0 + 128 * (f4.toNat + 8 * (f3.toNat + 4 * (f2.toNat + 32 * (f1.toNat + 32 * (f0.toNat + 1024 * (0)))))) := by simp only [Nat.div_one, w, e, enc5, enc4, enc3, enc2, enc1] <;> omega
  clear_value w
  have hf0 : f0.toNat < 1024 := f0.isLt
  have hf1 : f1.toNat < 32 := f1.isLt
  have hf2 : f2.toNat < 32 := f2.isLt
  have hf3 : f3.toNat < 4 := f3.isLt
  have hf4 : f4.toNat < 8 := f4.isLt
  obtain ⟨s0, d0⟩ := seg (B := 128) h hc0 (by decide) rfl
  obtain ⟨s1, d1⟩ := seg (B := 1024) d0 hf4 (by decide) rfl
  obtain ⟨s2, d2⟩ := seg (B := 4096) d1 hf3 (by decide) rfl
  obtain ⟨s3, d3⟩ := seg (B := 131072) d2 hf2 (by decide) rfl
  obtain ⟨s4, d4⟩ := seg (B := 4194304) d3 hf1 (by decide) rfl
  obtain ⟨s5, d5⟩ := seg (B := 4294967296) d4 hf0 (by decide) rfl
  have t : w < 4294967296 := (Nat.div_eq_zero_iff_lt (by decide)).mp d5
  have u : w % 2 = c0 % 2 := by rw [← s0, Nat.div_one, Nat.mod_mod_of_dvd _ (by decide)]
  exact ⟨u, t, part (g := 0) (n := 7) (a := 1) s0 (by decide), fld_eq _ _ _ s5, fld_eq _ _ _ s4, fld_eq _ _ _ s3, fld_eq _ _ _ s2, fld_eq _ _ _ s1⟩

theorem layout_23_9_20_3_17_2_12_5_7_5 (f0 : BitVec 9) (f1 : BitVec 3) (f2 : BitVec 2) (f3 : BitVec 5) (f4 : BitVec 5) (c0 : Nat) (hc0 : c0 < 128) (c1 : Nat) (hc1 : c1 < 2) (m : Nat) (e : m = c0 * 1 + c1 * 524288) :
    let w := enc5 m f0 23 f1 20 f2 17 f3 12 f4 7
    w % 2 = c0 % 2 ∧ w < 2 ^ 32 ∧ bits w 1 6 = c0 / 2 ^ 1 % 2 ^ 6 ∧ bits w 19 1 = c1 / 2 ^ 0 % 2 ^ 1 ∧ fld w 23 9 = f0 ∧ fld w 20 3 = f1 ∧ fld w 17 2 = f2 ∧ fld w 12 5 = f3 ∧ fld w 7 5 = f4 := by
  intro w
  have h : w / 1 = c0 + 128 * (f4.toNat + 32 * (f3.toNat + 32 * (f2.toNat + 4 * (c1 + 2 * (f1.toNat + 8 * (f0.toNat + 512 * (0))))))) := by simp only [Nat.div_one, w, e, enc5, enc4, enc3, enc2, enc1] <;> omega
  clear_value w
  have hf0 : f0.toNat < 512 := f0.isLt
  have hf1 : f1.toNat < 8 := f1.isLt
  have hf2 : f2.toNat < 4 := f2.isLt
  have hf3 : f3.toNat < 32 := f3.isLt
  have hf4 : f4.toNat < 32 := f4.isLt
  obtain ⟨s0, d0⟩ := seg (B := 128) h hc0 (by decide) rfl
  obtain ⟨s1, d1⟩ := seg (B := 4096) d0 hf4 (by decide) rfl
  obtain ⟨s2, d2⟩ := seg (B := 131072) d1 hf3 (by decide) rfl
  obtain ⟨s3, d3⟩ := seg (B := 524288) d2 hf2 (by decide) rfl
  obtain ⟨s4, d4⟩ := seg (B := 1048576) d3 hc1 (by decide) rfl
  obtain ⟨s5, d5⟩ := seg (B := 8388608) d4 hf1 (by decide) rfl
  obtain ⟨s6, d6⟩ := seg (B := 4294967296) d5 hf0 (by decide) rfl
  have t : w < 4294967296 := (Nat.div_eq_zero_iff_lt (by decide)).mp d6
  have u : w % 2 = c0 % 2 := by rw [← s0, Nat.div_one, Nat.mod_mod_of_dvd _ (by decide)]
  exact ⟨u, t, part (g := 0) (n := 7) (a := 1) s0 (by decide), part (g := 19) (n := 1) (a := 0) s4 (by decide), fld_eq _ _ _ s6, fld_eq _ _ _ s5, fld_eq _ _ _ s3, fld_eq _ _ _ s2, fld_eq _ _ _ s1⟩

theorem layout_23_9_20_3_19_1_17_2_12_5_7_5 (f0 : BitVec 9) (f1 : BitVec 3) (f2 : BitVec 1) (f3 : BitVec 2) (f4 : BitVec 5) (f5 : BitVec 5) (c0 : Nat) (hc0 : c0 < 128) (m : Nat) (e : m = c0 * 1) :
    let w := enc6 m f0 23 f1 20 f2 19 f3 17 f4 12 f5 7
    w % 2 = c0 % 2 ∧ w < 2 ^ 32 ∧ bits w 1 6 = c0 / 2 ^ 1 % 2 ^ 6 ∧ fld w 23 9 = f0 ∧ fld w 20 3 = f1 ∧ fld w 19 1 = f2 ∧ fld w 17 2 = f3 ∧ fld w 12 5 = f4 ∧ fld w 7 5 = f5 := by
  intro w
  have h : w / 1 = c0 + 128 * (f5.toNat + 32 * (f4.toNat + 32 * (f3.toNat + 4 * (f2.toNat + 2 * (f1.toNat + 8 * (f0.toNat + 512 * (0))))))) := by simp only [Nat.div_one, w, e, enc6, enc5, enc4, enc3, enc2, enc1] <;> omega
  clear_value w
  have hf0 : f0.toNat < 512 := f0.isLt
  have hf1 : f1.toNat < 8 := f1.isLt
  have hf2 : f2.toNat < 2 := f2.isLt
  have hf3 : f3.toNat < 4 := f3.isLt
  have hf4 : f4.toNat < 32 := f4.isLt
  have hf5 : f5.toNat < 32 := f5.isLt
  obtain ⟨s0, d0⟩ := seg (B := 128) h hc0 (by decide) rfl
  obtain ⟨s1, d1⟩ := seg (B := 4096) d0 hf5 (by decide) rfl
  obtain ⟨s2, d2⟩ := seg (B := 131072) d1 hf4 (by decide) rfl
  obtain ⟨s3, d3⟩ := seg (B := 524288) d2 hf3 (by decide) rfl
  obtain ⟨s4, d4⟩ := seg (B := 1048576) d3 hf2 (by decide) rfl
  obtain ⟨s5, d5⟩ := seg (B := 8388608) d4 hf1 (by decide) rfl
  obtain ⟨s6, d6⟩ := seg (B := 4294967296) d5 hf0 (by decide) rfl
  have t : w < 4294967296 := (Nat.div_eq_zero_iff_lt (by decide)).mp d6
  have u : w % 2 = c0 % 2 := by rw [← s0, Nat.div_one, Nat.mod_mod_of_dvd _ (by decide)]
  exact ⟨u, t, part (g := 0) (n := 7) (a := 1) s0 (by decide), fld_eq _ _ _ s6, fld_eq _ _ _ s5, fld_eq _ _ _ s4, fld_eq _ _ _ s3, fld_eq _ _ _ s2, fld_eq _ _ _ s1⟩

theorem layout_24_1_17_5_12_5_7_5 (f0 : BitVec 1) (f1 : BitVec 5) (f2 : BitVec 5) (f3 : BitVec 5) (c0 : Nat) (hc0 : c0 < 128) (c1 : Nat) (hc1 : c1 < 4) (c2 : Nat) (hc2 : c2 < 128) (m : Nat) (e : m = c0 * 1 + c1 * 4194304 + c2 * 33554432) :
    let w := enc4 m f0 24 f1 17 f2 12 f3 7
    w % 2 = c0 % 2 ∧ w < 2 ^ 32 ∧ bits w 1 6 = c0 / 2 ^ 1 % 2 ^ 6 ∧ bits w 22 2 = c1 / 2 ^ 0 % 2 ^ 2 ∧ bits w 25 7 = c2 / 2 ^ 0 % 2 ^ 7 ∧ bits w 26 6 = c2 / 2 ^ 1 % 2 ^ 6 ∧ fld w 24 1 = f0 ∧ fld w 17 5 = f1 ∧ fld w 12 5 = f2 ∧ fld w 7 5 = f3 := by
  intro w
  have h : w / 1 = c0 + 128 * (f3.toNat + 32 * (f2.toNat + 32 * (f1.toNat + 32 * (c1 + 4 * (f0.toNat + 2 * (c2 + 128 * (0))))))) := by simp only [Nat.div_one, w, e, enc4, enc3, enc2, enc1] <;> omega
  clear_value w
  have hf0 : f0.toNat < 2 := f0.isLt
  have hf1 : f1.toNat < 32 := f1.isLt
  have hf2 : f2.toNat < 32 := f2.isLt
  have hf3 : f3.toNat < 32 := f3.isLt
  obtain ⟨s0, d0⟩ := seg (B := 128) h hc0 (by decide) rfl
  obtain ⟨s1, d1⟩ := seg (B := 4096) d0 hf3 (by decide) rfl
  obtain ⟨s2, d2⟩ := seg (B := 131072) d1 hf2 (by decide) rfl
  obtain ⟨s3, d3⟩ := seg (B := 4194304) d2 hf1 (by decide) rfl
  obtain ⟨s4, d4⟩ := seg (B := 16777216) d3 hc1 (by decide) rfl
  obtain ⟨s5, d5⟩ := seg (B := 33554432) d4 hf0 (by decide) rfl
  obtain ⟨s6, d6⟩ := seg (B := 4294967296) d5 hc2 (by decide) rfl
  have t : w < 4294967296 := (Nat.div_eq_zero_iff_lt (by decide)).mp d6
  have u : w % 2 = c0 % 2 := by rw [← s0, Nat.div_one, Nat.mod_mod_of_dvd _ (by decide)]
  exact ⟨u, t, part (g := 0) (n := 7) (a := 1) s0 (by decide), part (g := 22) (n := 2) (a := 0) s4 (by decide), part (g := 25) (n := 7) (a := 0) s6 (by decide), part (g := 25) (n := 7) (a := 1) s6 (by decide), fld_eq _ _ _ s5, fld_eq _ _ _ s3, fld_eq _ _ _ s2, fld_eq _ _ _ s1⟩

theorem layout_24_3_22_2_17_5_12_5_7_5 (f0 : BitVec 3) (f1 : BitVec 2) (f2 : BitVec 5) (f3 : BitVec 5) (f4 : BitVec 5) (c0 : Nat) (hc0 : c0 < 128) (c1 : Nat) (hc1 : c1 < 32) (m : Nat) (e : m = c0 * 1 + c1 * 134217728) :
    let w := enc5 m f0 24 f1 22 f2 17 f3 12 f4 7
    w % 2 = c0 % 2 ∧ w < 2 ^ 32 ∧ bits w 1 6 = c0 / 2 ^ 1 % 2 ^ 6 ∧ bits w 27 2 = c1 / 2 ^ 0 % 2 ^ 2 ∧ bits w 27 5 = c1 / 2 ^ 0 % 2 ^ 5 ∧ fld w 24 3 = f0 ∧ fld w 22 2 = f1 ∧ fld w 17 5 = f2 ∧ fld w 12 5 = f3 ∧ fld w 7 5 = f4 := by
  intro w
  have h : w / 1 = c0 + 128 * (f4.toNat + 32 * (f3.toNat + 32 * (f2.toNat + 32 * (f1.toNat + 4 * (f0.toNat + 8 * (c1 + 32 * (0))))))) := by simp only [Nat.div_one, w, e, enc5, enc4, enc3, enc2, enc1] <;> omega
  clear_value w
  have hf0 : f0.toNat < 8 := f0.isLt
  have hf1 : f1.toNat < 4 := f1.isLt
  have hf2 : f2.toNat < 32 := f2.isLt
  have hf3 : f3.toNat < 32 := f3.isLt
  have hf4 : f4.toNat < 32 := f4.isLt
  obtain ⟨s0, d0⟩ := seg (B := 128) h hc0 (by decide) rfl
  obtain ⟨s1, d1⟩ := seg (B := 4096) d0 hf4 (by decide) rfl
  obtain ⟨s2, d2⟩ := seg (B := 131072) d1 hf3 (by decide) rfl
  obtain ⟨s3, d3⟩ := seg (B := 4194304) d2 hf2 (by decide) rfl
  obtain ⟨s4, d4⟩ := seg (B := 16777216) d3 hf1 (by decide) rfl
  obtain ⟨s5, d5⟩ := seg (B := 134217728) d4 hf0 (by decide) rfl
  obtain ⟨s6, d6⟩ := seg (B := 4294967296) d5 hc1 (by decide) rfl
  have t : w < 4294967296 := (Nat.div_eq_zero_iff_lt (by decide)).mp d6
  have u : w % 2 = c0 % 2 := by rw [← s0, Nat.div_one, Nat.mod_mod_of_dvd _ (by decide)]
  exact ⟨u, t, part (g := 0) (n := 7) (a := 1) s0 (by decide), part (g := 27) (n := 5) (a := 0) s6 (by decide), part (g := 27) (n := 5) (a := 0) s6 (by decide), fld_eq _ _ _ s5, fld_eq _ _ _ s4, fld_eq _ _ _ s3, fld_eq _ _ _ s2, fld_eq _ _ _ s1⟩

theorem layout_25_1_24_1_17_5_12_5_7_5 (f0 : BitVec 1) (f1 : BitVec 1) (f2 : BitVec 5) (f3 : BitVec 5) (f4 : BitVec 5) (c0 : Nat) (hc0 : c0 < 128) (c1 : Nat) (hc1 : c1 < 4) (c2 : Nat) (hc2 : c2 < 64) (m : Nat) (e : m = c0 * 1 + c1 * 4194304 + c2 * 67108864) :
    let w := enc5 m f0 25 f1 24 f2 17 f3 12 f4 7
    w % 2 = c0 % 2 ∧ w < 2 ^ 32 ∧ bits w 1 6 = c0 / 2 ^ 1 % 2 ^ 6 ∧ bits w 22 2 = c1 / 2 ^ 0 % 2 ^ 2 ∧ bits w 26 6 = c2 / 2 ^ 0 % 2 ^ 6 ∧ fld w 25 1 = f0 ∧ fld w 24 1 = f1 ∧ fld w 17 5 = f2 ∧ fld w 12 5 = f3 ∧ fld w 7 5 = f4 := by
  intro w
  have h : w / 1 = c0 + 128 * (f4.toNat + 32 * (f3.toNat + 32 * (f2.toNat + 32 * (c1 + 4 * (f1.toNat + 2 * (f0.toNat + 2 * (c2 + 64 * (0)))))))) := by simp only [Nat.div_one, w, e, enc5, enc4, enc3, enc2, enc1] <;> omega
  clear_value w
  have hf0 : f0.toNat < 2 := f0.isLt
  have hf1 : f1.toNat < 2 := f1.isLt
  have hf2 : f2.toNat < 32 := f2.isLt
  have hf3 : f3.toNat < 32 := f3.isLt
  have hf4 : f4.toNat < 32 := f4.isLt
  obtain ⟨s0, d0⟩ := seg (B := 128) h hc0 (by decide) rfl
  obtain ⟨s1, d1⟩ := seg (B := 4096) d0 hf4 (by decide) rfl
  obtain ⟨s2, d2⟩ := seg (B := 131072) d1 hf3 (by decide) rfl
  obtain ⟨s3, d3⟩ := seg (B := 4194304) d2 hf2 (by decide) rfl
  obtain ⟨s4, d4⟩ := seg (B := 16777216) d3 hc1 (by decide) rfl
  obtain ⟨s5, d5⟩ := seg (B := 33554432) d4 hf1 (by decide) rfl
  obtain ⟨s6, d6⟩ := seg (B := 67108864) d5 hf0 (by decide) rfl
  obtain ⟨s7, d7⟩ := seg (B := 4294967296) d6 hc2 (by decide) rfl
  have t : w < 4294967296 := (Nat.div_eq_zero_iff_lt (by decide)).mp d7
  have u : w % 2 = c0 % 2 := by rw [← s0, Nat.div_one, Nat.mod_mod_of_dvd _ (by decide)]
  exact ⟨u, t, part (g := 0) (n := 7) (a := 1) s0 (by decide), part (g := 22) (n := 2) (a := 0) s4 (by decide), part (g := 26) (n := 6) (a := 0) s7 (by decide), fld_eq _ _ _ s6, fld_eq _ _ _ s5, fld_eq _ _ _ s3, fld_eq _ _ _ s2, fld_eq _ _ _ s1⟩

theorem layout_26_6_7_5 (f0 : BitVec 6) (f1 : BitVec 5) (c0 : Nat) (hc0 : c0 < 128) (c1 : Nat) (hc1 : c1 < 16384) (m : Nat) (e : m = c0 * 1 + c1 * 4096) :
    let w := enc2 m f0 26 f1 7
    w % 2 = c0 % 2 ∧ w < 2 ^ 32 ∧ bits w 1 6 = c0 / 2 ^ 1 % 2 ^ 6 ∧ bits w 12 14 = c1 / 2 ^ 0 % 2 ^ 14 ∧ bits w 22 4 = c1 / 2 ^ 10 % 2 ^ 4 ∧ fld w 26 6 = f0 ∧ fld w 7 5 = f1 := by
  intro w
  have h : w / 1 = c0 + 128 * (f1.toNat + 32 * (c1 + 16384 * (f0.toNat + 64 * (0)))) := by simp only [Nat.div_one, w, e, enc2, enc1] <;> omega
  clear_value w
  have hf0 : f0.toNat < 64 := f0.isLt
  have hf1 : f1.toNat < 32 := f1.isLt
  obtain ⟨s0, d0⟩ := seg (B := 128) h hc0 (by decide) rfl
  obtain ⟨s1, d1⟩ := seg (B := 4096) d0 hf1 (by decide) rfl
  obtain ⟨s2, d2⟩ := seg (B := 67108864) d1 hc1 (by decide) rfl
  obtain ⟨s3, d3⟩ := seg (B := 4294967296) d2 hf0 (by decide) rfl
  have t : w < 4294967296 := (Nat.div_eq_zero_iff_lt (by decide)).mp d3
  have u : w % 2 = c0 % 2 := by rw [← s0, Nat.div_one, Nat.mod_mod_of_dvd _ (by decide)]
  exact ⟨u, t, part (g := 0) (n := 7) (a := 1) s0 (by decide), part (g := 12) (n := 14) (a := 0) s2 (by decide), part (g := 12) (n := 14) (a := 10) s2 (by decide), fld_eq _ _ _ s3, fld_eq _ _ _ s1⟩

theorem layout_26_6_12_5 (f0 : BitVec 6) (f1 : BitVec 5) (c0 : Nat) (hc0 : c0 < 4096) (c1 : Nat) (hc1 : c1 < 512) (m : Nat) (e : m = c0 * 1 + c1 * 131072) :
    let w := enc2 m f0 26 f1 12
    w % 2 = c0 % 2 ∧ w < 2 ^ 32 ∧ bits w 1 6 = c0 / 2 ^ 1 % 2 ^ 6 ∧ bits w 7 5 = c0 / 2 ^ 7 % 2 ^ 5 ∧ bits w 17 9 = c1 / 2 ^ 0 % 2 ^ 9 ∧ bits w 22 4 = c1 / 2 ^ 5 % 2 ^ 4 ∧ fld w 26 6 = f0 ∧ fld w 12 5 = f1 := by
  intro w
  have h : w / 1 = c0 + 4096 * (f1.toNat + 32 * (c1 + 512 * (f0.toNat + 64 * (0)))) := by simp only [Nat.div_one, w, e, enc2, enc1] <;> omega
  clear_value w
  have hf0 : f0.toNat < 64 := f0.isLt
  have hf1 : f1.toNat < 32 := f1.isLt
  obtain ⟨s0, d0⟩ := seg (B := 4096) h hc0 (by decide) rfl
  obtain ⟨s1, d1⟩ := seg (B := 131072) d0 hf1 (by decide) rfl
  obtain ⟨s2, d2⟩ := seg (B := 67108864) d1 hc1 (by decide) rfl
  obtain ⟨s3, d3⟩ := seg (B := 4294967296) d2 hf0 (by decide) rfl
  have t : w < 4294967296 := (Nat.div_eq_zero_iff_lt (by decide)).mp d3
  have u : w % 2 = c0 % 2 := by rw [← s0, Nat.div_one, Nat.mod_mod_of_dvd _ (by decide)]
  exact ⟨u, t, part (g := 0) (n := 12) (a := 1) s0 (by decide), part (g := 0) (n := 12) (a := 7) s0 (by decide), part (g := 17) (n := 9) (a := 0) s2 (by decide), part (g := 17) (n := 9) (a := 5) s2 (by decide), fld_eq _ _ _ s3, fld_eq _ _ _ s1⟩

theorem layout_26_6_17_5_12_5 (f0 : BitVec 6) (f1 : BitVec 5) (f2 : BitVec 5) (c0 : Nat) (hc0 : c0 < 4096) (c1 : Nat) (hc1 : c1 < 16) (m : Nat) (e : m = c0 * 1 + c1 * 4194304) :
    let w := enc3 m f0 26 f1 17 f2 12
    w % 2 = c0 % 2 ∧ w < 2 ^ 32 ∧ bits w 1 6 = c0 / 2 ^ 1 % 2 ^ 6 ∧ bits w 7 5 = c0 / 2 ^ 7 % 2 ^ 5 ∧ bits w 22 4 = c1 / 2 ^ 0 % 2 ^ 4 ∧ fld w 26 6 = f0 ∧ fld w 17 5 = f1 ∧ fld w 12 5 = f2 := by
  intro w
  have h : w / 1 = c0 + 4096 * (f2.toNat + 32 * (f1.toNat + 32 * (c1 + 16 * (f0.toNat + 64 * (0))))) := by simp only [Nat.div_one, w, e, enc3, enc2, enc1] <;> omega
  clear_value w
  have hf0 : f0.toNat < 64 := f0.isLt
  have hf1 : f1.toNat < 32 := f1.isLt
  have hf2 : f2.toNat < 32 := f2.isLt
  obtain ⟨s0, d0⟩ := seg (B := 4096) h hc0 (by decide) rfl
  obtain ⟨s1, d1⟩ := seg (B := 131072) d0 hf2 (by decide) rfl
  obtain ⟨s2, d2⟩ := seg (B := 4194304) d1 hf1 (by decide) rfl
  obtain ⟨s3, d3⟩ := seg (B := 67108864) d2 hc1 (by decide) rfl
  obtain ⟨s4, d4⟩ := seg (B := 4294967296) d3 hf0 (by decide) rfl
  have t : w < 4294967296 := (Nat.div_eq_zero_iff_lt (by decide)).mp d4
  have u : w % 2 = c0 % 2 := by rw [← s0, Nat.div_one, Nat.mod_mod_of_dvd _ (by decide)]
  exact ⟨u, t, part (g := 0) (n := 12) (a := 1) s0 (by decide), part (g := 0) (n := 12) (a := 7) s0 (by decide), part (g := 22) (n := 4) (a := 0) s3 (by decide), fld_eq _ _ _ s4, fld_eq _ _ _ s2, fld_eq _ _ _ s1⟩

theorem layout_26_6_17_5_12_5_7_5 (f0 : BitVec 6) (f1 : BitVec 5) (f2 : BitVec 5) (f3 : BitVec 5) (c0 : Nat) (hc0 : c0 < 128) (c1 : Nat) (hc1 : c1 < 16) (m : Nat) (e : m = c0 * 1 + c1 * 4194304) :
    let w := enc4 m f0 26 f1 17 f2 12 f3 7
    w % 2 = c0 % 2 ∧ w < 2 ^ 32 ∧ bits w 1 6 = c0 / 2 ^ 1 % 2 ^ 6 ∧ bits w 22 4 = c1 / 2 ^ 0 % 2 ^ 4 ∧ fld w 26 6 = f0 ∧ fld w 17 5 = f1 ∧ fld w 12 5 = f2 ∧ fld w 7 5 = f3 := by
  intro w
  have h : w / 1 = c0 + 128 * (f3.toNat + 32 * (f2.toNat + 32 * (f1.toNat + 32 * (c1 + 16 * (f0.toNat + 64 * (0)))))) := by simp only [Nat.div_one, w, e, enc4, enc3, enc2, enc1] <;> omega
  clear_value w
  have hf0 : f0.toNat < 64 := f0.isLt
  have hf1 : f1.toNat < 32 := f1.isLt
  have hf2 : f2.toNat < 32 := f2.isLt
  have hf3 : f3.toNat < 32 := f3.isLt
  obtain ⟨s0, d0⟩ := seg (B := 128) h hc0 (by decide) rfl
  obtain ⟨s1, d1⟩ := seg (B := 4096) d0 hf3 (by decide) rfl
  obtain ⟨s2, d2⟩ := seg (B := 131072) d1 hf2 (by decide) rfl
  obtain ⟨s3, d3⟩ := seg (B := 4194304) d2 hf1 (by decide) rfl
  obtain ⟨s4, d4⟩ := seg (B := 67108864) d3 hc1 (by decide) rfl
  obtain ⟨s5, d5⟩ := seg (B := 4294967296) d4 hf0 (by decide) rfl
  have t : w < 4294967296 := (Nat.div_eq_zero_iff_lt (by decide)).mp d5
  have u : w % 2 = c0 % 2 := by rw [← s0, Nat.div_one, Nat.mod_mod_of_dvd _ (by decide)]
  exact ⟨u, t, part (g := 0) (n := 7) (a := 1) s0 (by decide), part (g := 22) (n := 4) (a := 0) s4 (by decide), fld_eq _ _ _ s5, fld_eq _ _ _ s3, fld_eq _ _ _ s2, fld_eq _ _ _ s1⟩

theorem layout_29_3_7_5 (f0 : BitVec 3) (f1 : BitVec 5) (c0 : Nat) (hc0 : c0 < 128) (c1 : Nat) (hc1 : c1 < 131072) (m : Nat) (e : m = c0 * 1 + c1 * 4096) :
    let w := enc2 m f0 29 f1 7
    w % 2 = c0 % 2 ∧ w < 2 ^ 32 ∧ bits w 1 6 = c0 / 2 ^ 1 % 2 ^ 6 ∧ bits w 12 17 = c1 / 2 ^ 0 % 2 ^ 17 ∧ bits w 17 12 = c1 / 2 ^ 5 % 2 ^ 12 ∧ bits w 22 7 = c1 / 2 ^ 10 % 2 ^ 7 ∧ fld w 29 3 = f0 ∧ fld w 7 5 = f1 := by
  intro w
  have h : w / 1 = c0 + 128 * (f1.toNat + 32 * (c1 + 131072 * (f0.toNat + 8 * (0)))) := by simp only [Nat.div_one, w, e, enc2, enc1] <;> omega
  clear_value w
  have hf0 : f0.toNat < 8 := f0.isLt
  have hf1 : f1.toNat < 32 := f1.isLt
  obtain ⟨s0, d0⟩ := seg (B := 128) h hc0 (by decide) rfl
  obtain ⟨s1, d1⟩ := seg (B := 4096) d0 hf1 (by decide) rfl
  obtain ⟨s2, d2⟩ := seg (B := 536870912) d1 hc1 (by decide) rfl
  obtain ⟨s3, d3⟩ := seg (B := 4294967296) d2 hf0 (by decide) rfl
  have t : w < 4294967296 := (Nat.div_eq_zero_iff_lt (by decide)).mp d3
  have u : w % 2 = c0 % 2 := by rw [← s0, Nat.div_one, Nat.mod_mod_of_dvd _ (by decide)]
  exact ⟨u, t, part (g := 0) (n := 7) (a := 1) s0 (by decide), part (g := 12) (n := 17) (a := 0) s2 (by decide), part (g := 12) (n := 17) (a := 5) s2 (by decide), part (g := 12) (n := 17) (a := 10) s2 (by decide), fld_eq _ _ _ s3, fld_eq _ _ _ s1⟩

theorem layout_29_3_12_5_7_5 (f0 : BitVec 3) (f1 : BitVec 5) (f2 : BitVec 5) (c0 : Nat) (hc0 : c0 < 128) (c1 : Nat) (hc1 : c1 < 4096) (m : Nat) (e : m = c0 * 1 + c1 * 131072) :
    let w := enc3 m f0 29 f1 12 f2 7
    w % 2 = c0 % 2 ∧ w < 2 ^ 32 ∧ bits w 1 6 = c0 / 2 ^ 1 % 2 ^ 6 ∧ bits w 17 12 = c1 / 2 ^ 0 % 2 ^ 12 ∧ bits w 22 7 = c1 / 2 ^ 5 % 2 ^ 7 ∧ fld w 29 3 = f0 ∧ fld w 12 5 = f1 ∧ fld w 7 5 = f2 := by
  intro w
  have h : w / 1 = c0 + 128 * (f2.toNat + 32 * (f1.toNat + 32 * (c1 + 4096 * (f0.toNat + 8 * (0))))) := by simp only [Nat.div_one, w, e, enc3, enc2, enc1] <;> omega
  clear_value w
  have hf0 : f0.toNat < 8 := f0.isLt
  have hf1 : f1.toNat < 32 := f1.isLt
  have hf2 : f2.toNat < 32 := f2.isLt
  obtain ⟨s0, d0⟩ := seg (B := 128) h hc0 (by decide) rfl
  obtain ⟨s1, d1⟩ := seg (B := 4096) d0 hf2 (by decide) rfl
  obtain ⟨s2, d2⟩ := seg (B := 131072) d1 hf1 (by decide) rfl
  obtain ⟨s3, d3⟩ := seg (B := 536870912) d2 hc1 (by decide) rfl
  obtain ⟨s4, d4⟩ := seg (B := 4294967296) d3 hf0 (by decide) rfl
  have t : w < 4294967296 := (Nat.div_eq_zero_iff_lt (by decide)).mp d4
  have u : w % 2 = c0 % 2 := by rw [← s0, Nat.div_one, Nat.mod_mod_of_dvd _ (by decide)]
  exact ⟨u, t, part (g := 0) (n := 7) (a := 1) s0 (by decide), part (g := 17) (n := 12) (a := 0) s3 (by decide), part (g := 17) (n := 12) (a := 5) s3 (by decide), fld_eq _ _ _ s4, fld_eq _ _ _ s2, fld_eq _ _ _ s1⟩

theorem layout_29_3_12_10_7_5 (f0 : BitVec 3) (f1 : BitVec 10) (f2 : BitVec 5) (c0 : Nat) (hc0 : c0 < 128) (c1 : Nat) (hc1 : c1 < 128) (m : Nat) (e : m = c0 * 1 + c1 * 4194304) :
    let w := enc3 m f0 29 f1 12 f2 7
    w % 2 = c0 % 2 ∧ w < 2 ^ 32 ∧ bits w 1 6 = c0 / 2 ^ 1 % 2 ^ 6 ∧ bits w 22 7 = c1 / 2 ^ 0 % 2 ^ 7 ∧ fld w 29 3 = f0 ∧ fld w 12 10 = f1 ∧ fld w 7 5 = f2 := by
  intro w
  have h : w / 1 = c0 + 128 * (f2.toNat + 32 * (f1.toNat + 1024 * (c1 + 128 * (f0.toNat + 8 * (0))))) := by simp only [Nat.div_one, w, e, enc3, enc2, enc1] <;> omega
  clear_value w
  have hf0 : f0.toNat < 8 := f0.isLt
  have hf1 : f1.toNat < 1024 := f1.isLt
  have hf2 : f2.toNat < 32 := f2.isLt
  obtain ⟨s0, d0⟩ := seg (B := 128) h hc0 (by decide) rfl
  obtain ⟨s1, d1⟩ := seg (B := 4096) d0 hf2 (by decide) rfl
  obtain ⟨s2, d2⟩ := seg (B := 4194304) d1 hf1 (by decide) rfl
  obtain ⟨s3, d3⟩ := seg (B := 536870912) d2 hc1 (by decide) rfl
  obtain ⟨s4, d4⟩ := seg (B := 4294967296) d3 hf0 (by decide) rfl
  have t : w < 4294967296 := (Nat.div_eq_zero_iff_lt (by decide)).mp d4
  have u : w % 2 = c0 % 2 := by rw [← s0, Nat.div_one, Nat.mod_mod_of_dvd _ (by decide)]
  exact ⟨u, t, part (g := 0) (n := 7) (a := 1) s0 (by decide), part (g := 22) (n := 7) (a := 0) s3 (by decide), fld_eq _ _ _ s4, fld_eq _ _ _ s2, fld_eq _ _ _ s1⟩

theorem layout_29_3_17_5_12_5_7_5 (f0 : BitVec 3) (f1 : BitVec 5) (f2 : BitVec 5) (f3 : BitVec 5) (c0 : Nat) (hc0 : c0 < 128) (c1 : Nat) (hc1 : c1 < 128) (m : Nat) (e : m = c0 * 1 + c1 * 4194304) :
    let w := enc4 m f0 29 f1 17 f2 12 f3 7
    w % 2 = c0 % 2 ∧ w < 2 ^ 32 ∧ bits w 1 6 = c0 / 2 ^ 1 % 2 ^ 6 ∧ bits w 22 7 = c1 / 2 ^ 0 % 2 ^ 7 ∧ bits w 25 4 = c1 / 2 ^ 3 % 2 ^ 4 ∧ fld w 29 3 = f0 ∧ fld w 17 5 = f1 ∧ fld w 12 5 = f2 ∧ fld w 7 5 = f3 := by
  intro w
  have h : w / 1 = c0 + 128 * (f3.toNat + 32 * (f2.toNat + 32 * (f1.toNat + 32 * (c1 + 128 * (f0.toNat + 8 * (0)))))) := by simp only [Nat.div_one, w, e, enc4, enc3, enc2, enc1] <;> omega
  clear_value w
  have hf0 : f0.toNat < 8 := f0.isLt
  have hf1 : f1.toNat < 32 := f1.isLt
  have hf2 : f2.toNat < 32 := f2.isLt
  have hf3 : f3.toNat < 32 := f3.isLt
  obtain ⟨s0, d0⟩ := seg (B := 128) h hc0 (by decide) rfl
  obtain ⟨s1, d1⟩ := seg (B := 4096) d0 hf3 (by decide) rfl
  obtain ⟨s2, d2⟩ := seg (B := 131072) d1 hf2 (by decide) rfl
  obtain ⟨s3, d3⟩ := seg (B := 4194304) d2 hf1 (by decide) rfl
  obtain ⟨s4, d4⟩ := seg (B := 536870912) d3 hc1 (by decide) rfl
  obtain ⟨s5, d5⟩ := seg (B := 4294967296) d4 hf0 (by decide) rfl
  have t : w < 4294967296 := (Nat.div_eq_zero_iff_lt (by decide)).mp d5
  have u : w % 2 = c0 % 2 := by rw [← s0, Nat.div_one, Nat.mod_mod_of_dvd _ (by decide)]
  exact ⟨u, t, part (g := 0) (n := 7) (a := 1) s0 (by decide), part (g := 22) (n := 7) (a := 0) s4 (by decide), part (g := 22) (n := 7) (a := 3) s4 (by decide), fld_eq _ _ _ s5, fld_eq _ _ _ s3, fld_eq _ _ _ s2, fld_eq _ _ _ s1⟩

theorem layout_29_3_22_3_17_5_12_5_7_5 (f0 : BitVec 3) (f1 : BitVec 3) (f2 : BitVec 5) (f3 : BitVec 5) (f4 : BitVec 5) (c0 : Nat) (hc0 : c0 < 128) (c1 : Nat) (hc1 : c1 < 16) (m : Nat) (e : m = c0 * 1 + c1 * 33554432) :
    let w := enc5 m f0 29 f1 22 f2 17 f3 12 f4 7
    w % 2 = c0 % 2 ∧ w < 2 ^ 32 ∧ bits w 1 6 = c0 / 2 ^ 1 % 2 ^ 6 ∧ bits w 25 4 = c1 / 2 ^ 0 % 2 ^ 4 ∧ fld w 29 3 = f0 ∧ fld w 22 3 = f1 ∧ fld w 17 5 = f2 ∧ fld w 12 5 = f3 ∧ fld w 7 5 = f4 := by
  intro w
  have h : w / 1 = c0 + 128 * (f4.toNat + 32 * (f3.toNat + 32 * (f2.toNat + 32 * (f1.toNat + 8 * (c1 + 16 * (f0.toNat + 8 * (0))))))) := by simp only [Nat.div_one, w, e, enc5, enc4, enc3, enc2, enc1] <;> omega
  clear_value w
  have hf0 : f0.toNat < 8 := f0.isLt
  have hf1 : f1.toNat < 8 := f1.isLt
  have hf2 : f2.toNat < 32 := f2.isLt
  have hf3 : f3.toNat < 32 := f3.isLt
  have hf4 : f4.toNat < 32 := f4.isLt
  obtain ⟨s0, d0⟩ := seg (B := 128) h hc0 (by decide) rfl
  obtain ⟨s1, d1⟩ := seg (B := 4096) d0 hf4 (by decide) rfl
  obtain ⟨s2, d2⟩ := seg (B := 131072) d1 hf3 (by decide) rfl
  obtain ⟨s3, d3⟩ := seg (B := 4194304) d2 hf2 (by decide) rfl
  obtain ⟨s4, d4⟩ := seg (B := 33554432) d3 hf1 (by decide) rfl
  obtain ⟨s5, d5⟩ := seg (B := 536870912) d4 hc1 (by decide) rfl
  obtain ⟨s6, d6⟩ := seg (B := 4294967296) d5 hf0 (by decide) rfl
  have t : w < 4294967296 := (Nat.div_eq_zero_iff_lt (by decide)).mp d6
  have u : w % 2 = c0 % 2 := by rw [← s0, Nat.div_one, Nat.mod_mod_of_dvd _ (by decide)]
  exact ⟨u, t, part (g := 0) (n := 7) (a := 1) s0 (by decide), part (g := 25) (n := 4) (a := 0) s5 (by decide), fld_eq _ _ _ s6, fld_eq _ _ _ s4, fld_eq _ _ _ s3, fld_eq _ _ _ s2, fld_eq _ _ _ s1⟩

theorem layout_29_3_22_5 (f0 : BitVec 3) (f1 : BitVec 5) (c0 : Nat) (hc0 : c0 < 4194304) (c1 : Nat) (hc1 : c1 < 4) (m : Nat) (e : m = c0 * 1 + c1 * 134217728) :
    let w := enc2 m f0 29 f1 22
    w % 2 = c0 % 2 ∧ w < 2 ^ 32 ∧ bits w 1 6 = c0 / 2 ^ 1 % 2 ^ 6 ∧ bits w 7 5 = c0 / 2 ^ 7 % 2 ^ 5 ∧ bits w 7 15 = c0 / 2 ^ 7 % 2 ^ 15 ∧ bits w 17 5 = c0 / 2 ^ 17 % 2 ^ 5 ∧ bits w 27 2 = c1 / 2 ^ 0 % 2 ^ 2 ∧ fld w 29 3 = f0 ∧ fld w 22 5 = f1 := by
  intro w
  have h : w / 1 = c0 + 4194304 * (f1.toNat + 32 * (c1 + 4 * (f0.toNat + 8 * (0)))) := by simp only [Nat.div_one, w, e, enc2, enc1] <;> omega
  clear_value w
  have hf0 : f0.toNat < 8 := f0.isLt
  have hf1 : f1.toNat < 32 := f1.isLt
  obtain ⟨s0, d0⟩ := seg (B := 4194304) h hc0 (by decide) rfl
  obtain ⟨s1, d1⟩ := seg (B := 134217728) d0 hf1 (by decide) rfl
  obtain ⟨s2, d2⟩ := seg (B := 536870912) d1 hc1 (by decide) rfl
  obtain ⟨s3, d3⟩ := seg (B := 4294967296) d2 hf0 (by decide) rfl
  have t : w < 4294967296 := (Nat.div_eq_zero_iff_lt (by decide)).mp d3
  have u : w % 2 = c0 % 2 := by rw [← s0, Nat.div_one, Nat.mod_mod_of_dvd _ (by decide)]
  exact ⟨u, t, part (g := 0) (n := 22) (a := 1) s0 (by decide), part (g := 0) (n := 22) (a := 7) s0 (by decide), part (g := 0) (n := 22) (a := 7) s0 (by decide), part (g := 0) (n := 22) (a := 17) s0 (by decide), part (g := 27) (n := 2) (a := 0) s2 (by decide), fld_eq _ _ _ s3, fld_eq _ _ _ s1⟩

theorem layout_29_3_22_5_12_5_7_5 (f0 : BitVec 3) (f1 : BitVec 5) (f2 : BitVec 5) (f3 : BitVec 5) (c0 : Nat) (hc0 : c0 < 128) (c1 : Nat) (hc1 : c1 < 32) (c2 : Nat) (hc2 : c2 < 4) (m : Nat) (e : m = c0 * 1 + c1 * 131072 + c2 * 134217728) :
    let w := enc4 m f0 29 f1 22 f2 12 f3 7
    w % 2 = c0 % 2 ∧ w < 2 ^ 32 ∧ bits w 1 6 = c0 / 2 ^ 1 % 2 ^ 6 ∧ bits w 17 5 = c1 / 2 ^ 0 % 2 ^ 5 ∧ bits w 27 2 = c2 / 2 ^ 0 % 2 ^ 2 ∧ fld w 29 3 = f0 ∧ fld w 22 5 = f1 ∧ fld w 12 5 = f2 ∧ fld w 7 5 = f3 := by
  intro w
  have h : w / 1 = c0 + 128 * (f3.toNat + 32 * (f2.toNat + 32 * (c1 + 32 * (f1.toNat + 32 * (c2 + 4 * (f0.toNat + 8 * (0))))))) := by simp only [Nat.div_one, w, e, enc4, enc3, enc2, enc1] <;> omega
  clear_value w
  have hf0 : f0.toNat < 8 := f0.isLt
  have hf1 : f1.toNat < 32 := f1.isLt
  have hf2 : f2.toNat < 32 := f2.isLt
  have hf3 : f3.toNat < 32 := f3.isLt
  obtain ⟨s0, d0⟩ := seg (B := 128) h hc0 (by decide) rfl
  obtain ⟨s1, d1⟩ := seg (B := 4096) d0 hf3 (by decide) rfl
  obtain ⟨s2, d2⟩ := seg (B := 131072) d1 hf2 (by decide) rfl
  obtain ⟨s3, d3⟩ := seg (B := 4194304) d2 hc1 (by decide) rfl
  obtain ⟨s4, d4⟩ := seg (B := 134217728) d3 hf1 (by decide) rfl
  obtain ⟨s5, d5⟩ := seg (B := 536870912) d4 hc2 (by decide) rfl
  obtain ⟨s6, d6⟩ := seg (B := 4294967296) d5 hf0 (by decide) rfl
  have t : w < 4294967296 := (Nat.div_eq_zero_iff_lt (by decide)).mp d6
  have u : w % 2 = c0 % 2 := by rw [← s0, Nat.div_one, Nat.mod_mod_of_dvd _ (by decide)]
  exact ⟨u, t, part (g := 0) (n := 7) (a := 1) s0 (by decide), part (g := 17) (n := 5) (a := 0) s3 (by decide), part (g := 27) (n := 2) (a := 0) s5 (by decide), fld_eq _ _ _ s6, fld_eq _ _ _ s4, fld_eq _ _ _ s2, fld_eq _ _ _ s1⟩

theorem layout_29_3_22_5_17_5_12_5 (f0 : BitVec 3) (f1 : BitVec 5) (f2 : BitVec 5) (f3 : BitVec 5) (c0 : Nat) (hc0 : c0 < 4096) (c1 : Nat) (hc1 : c1 < 4) (m : Nat) (e : m = c0 * 1 + c1 * 134217728) :
    let w := enc4 m f0 29 f1 22 f2 17 f3 12
    w % 2 = c0 % 2 ∧ w < 2 ^ 32 ∧ bits w 1 6 = c0 / 2 ^ 1 % 2 ^ 6 ∧ bits w 7 5 = c0 / 2 ^ 7 % 2 ^ 5 ∧ bits w 27 2 = c1 / 2 ^ 0 % 2 ^ 2 ∧ fld w 29 3 = f0 ∧ fld w 22 5 = f1 ∧ fld w 17 5 = f2 ∧ fld w 12 5 = f3 := by
  intro w
  have h : w / 1 = c0 + 4096 * (f3.toNat + 32 * (f2.toNat + 32 * (f1.toNat + 32 * (c1 + 4 * (f0.toNat + 8 * (0)))))) := by simp only [Nat.div_one, w, e, enc4, enc3, enc2, enc1] <;> omega
  clear_value w
  have hf0 : f0.toNat < 8 := f0.isLt
  have hf1 : f1.toNat < 32 := f1.isLt
  have hf2 : f2.toNat < 32 := f2.isLt
  have hf3 : f3.toNat < 32 := f3.isLt
  obtain ⟨s0, d0⟩ := seg (B := 4096) h hc0 (by decide) rfl
  obtain ⟨s1, d1⟩ := seg (B := 131072) d0 hf3 (by decide) rfl
  obtain ⟨s2, d2⟩ := seg (B := 4194304) d1 hf2 (by decide) rfl
  obtain ⟨s3, d3⟩ := seg (B := 134217728) d2 hf1 (by decide) rfl
  obtain ⟨s4, d4⟩ := seg (B := 536870912) d3 hc1 (by decide) rfl
  obtain ⟨s5, d5⟩ := seg (B := 4294967296) d4 hf0 (by decide) rfl
  have t : w < 4294967296 := (Nat.div_eq_zero_iff_lt (by decide)).mp d5
  have u : w % 2 = c0 % 2 := by rw [← s0, Nat.div_one, Nat.mod_mod_of_dvd _ (by decide)]
  exact ⟨u, t, part (g := 0) (n := 12) (a := 1) s0 (by decide), part (g := 0) (n := 12) (a := 7) s0 (by decide), part (g := 27) (n := 2) (a := 0) s4 (by decide), fld_eq _ _ _ s5, fld_eq _ _ _ s3, fld_eq _ _ _ s2, fld_eq _ _ _ s1⟩

theorem layout_29_3_26_1_22_4_17_5_12_5_7_5 (f0 : BitVec 3) (f1 : BitVec 1) (f2 : BitVec 4) (f3 : BitVec 5) (f4 : BitVec 5) (f5 : BitVec 5) (c0 : Nat) (hc0 : c0 < 128) (c1 : Nat) (hc1 : c1 < 4) (m : Nat) (e : m = c0 * 1 + c1 * 134217728) :
    let w := enc6 m f0 29 f1 26 f2 22 f3 17 f4 12 f5 7
    w % 2 = c0 % 2 ∧ w < 2 ^ 32 ∧ bits w 1 6 = c0 / 2 ^ 1 % 2 ^ 6 ∧ bits w 27 2 = c1 / 2 ^ 0 % 2 ^ 2 ∧ fld w 29 3 = f0 ∧ fld w 26 1 = f1 ∧ fld w 22 4 = f2 ∧ fld w 17 5 = f3 ∧ fld w 12 5 = f4 ∧ fld w 7 5 = f5 := by
  intro w
  have h : w / 1 = c0 + 128 * (f5.toNat + 32 * (f4.toNat + 32 * (f3.toNat + 32 * (f2.toNat + 16 * (f1.toNat + 2 * (c1 + 4 * (f0.toNat + 8 * (0)))))))) := by simp only [Nat.div_one, w, e, enc6, enc5, enc4, enc3, enc2, enc1] <;> omega
  clear_value w
  have hf0 : f0.toNat < 8 := f0.isLt
  have hf1 : f1.toNat < 2 := f1.isLt
  have hf2 : f2.toNat < 16 := f2.isLt
  have hf3 : f3.toNat < 32 := f3.isLt
  have hf4 : f4.toNat < 32 := f4.isLt
  have hf5 : f5.toNat < 32 := f5.isLt
  obtain ⟨s0, d0⟩ := seg (B := 128) h hc0 (by decide) rfl
  obtain ⟨s1, d1⟩ := seg (B := 4096) d0 hf5 (by decide) rfl
  obtain ⟨s2, d2⟩ := seg (B := 131072) d1 hf4 (by decide) rfl
  obtain ⟨s3, d3⟩ := seg (B := 4194304) d2 hf3 (by decide) rfl
  obtain ⟨s4, d4⟩ := seg (B := 67108864) d3 hf2 (by decide) rfl
  obtain ⟨s5, d5⟩ := seg (B := 134217728) d4 hf1 (by decide) rfl
  obtain ⟨s6, d6⟩ := seg (B := 536870912) d5 hc1 (by decide) rfl
  obtain ⟨s7, d7⟩ := seg (B := 4294967296) d6 hf0 (by decide) rfl
  have t : w < 4294967296 := (Nat.div_eq_zero_iff_lt (by decide)).mp d7
  have u : w % 2 = c0 % 2 := by rw [← s0, Nat.div_one, Nat.mod_mod_of_dvd _ (by decide)]
  exact ⟨u, t, part (g := 0) (n := 7) (a := 1) s0 (by decide), part (g := 27) (n := 2) (a := 0) s6 (by decide), fld_eq _ _ _ s7, fld_eq _ _ _ s5, fld_eq _ _ _ s4, fld_eq _ _ _ s3, fld_eq _ _ _ s2, fld_eq _ _ _ s1⟩

theorem layout_29_3_26_1_24_2_17_5_12_5_7_5 (f0 : BitVec 3) (f1 : BitVec 1) (f2 : BitVec 2) (f3 : BitVec 5) (f4 : BitVec 5) (f5 : BitVec 5) (c0 : Nat) (hc0 : c0 < 128) (c1 : Nat) (hc1 : c1 < 4) (c2 : Nat) (hc2 : c2 < 4) (m : Nat) (e : m = c0 * 1 + c1 * 4194304 + c2 * 134217728) :
    let w := enc6 m f0 29 f1 26 f2 24 f3 17 f4 12 f5 7
    w % 2 = c0 % 2 ∧ w < 2 ^ 32 ∧ bits w 1 6 = c0 / 2 ^ 1 % 2 ^ 6 ∧ bits w 22 2 = c1 / 2 ^ 0 % 2 ^ 2 ∧ bits w 27 2 = c2 / 2 ^ 0 % 2 ^ 2 ∧ fld w 29 3 = f0 ∧ fld w 26 1 = f1 ∧ fld w 24 2 = f2 ∧ fld w 17 5 = f3 ∧ fld w 12 5 = f4 ∧ fld w 7 5 = f5 := by
  intro w
  have h : w / 1 = c0 + 128 * (f5.toNat + 32 * (f4.toNat + 32 * (f3.toNat + 32 * (c1 + 4 * (f2.toNat + 4 * (f1.toNat + 2 * (c2 + 4 * (f0.toNat + 8 * (0))))))))) := by simp only [Nat.div_one, w, e, enc6, enc5, enc4, enc3, enc2, enc1] <;> omega
  clear_value w
  have hf0 : f0.toNat < 8 := f0.isLt
  have hf1 : f1.toNat < 2 := f1.isLt
  have hf2 : f2.toNat < 4 := f2.isLt
  have hf3 : f3.toNat < 32 := f3.isLt
  have hf4 : f4.toNat < 32 := f4.isLt
  have hf5 : f5.toNat < 32 := f5.isLt
  obtain ⟨s0, d0⟩ := seg (B := 128) h hc0 (by decide) rfl
  obtain ⟨s1, d1⟩ := seg (B := 4096) d0 hf5 (by decide) rfl
  obtain ⟨s2, d2⟩ := seg (B := 131072) d1 hf4 (by decide) rfl
  obtain ⟨s3, d3⟩ := seg (B := 4194304) d2 hf3 (by decide) rfl
  obtain ⟨s4, d4⟩ := seg (B := 16777216) d3 hc1 (by decide) rfl
  obtain ⟨s5, d5⟩ := seg (B := 67108864) d4 hf2 (by decide) rfl
  obtain ⟨s6, d6⟩ := seg (B := 134217728) d5 hf1 (by decide) rfl
  obtain ⟨s7, d7⟩ := seg (B := 536870912) d6 hc2 (by decide) rfl
  obtain ⟨s8, d8⟩ := seg (B := 4294967296) d7 hf0 (by decide) rfl
  have t : w < 4294967296 := (Nat.div_eq_zero_iff_lt (by decide)).mp d8
  have u : w % 2 = c0 % 2 := by rw [← s0, Nat.div_one, Nat.mod_mod_of_dvd _ (by decide)]
  exact ⟨u, t, part (g := 0) (n := 7) (a := 1) s0 (by decide), part (g := 22) (n := 2) (a := 0) s4 (by decide), part (g := 27) (n := 2) (a := 0) s7 (by decide), fld_eq _ _ _ s8, fld_eq _ _ _ s6, fld_eq _ _ _ s5, fld_eq _ _ _ s3, fld_eq _ _ _ s2, fld_eq _ _ _ s1⟩

theorem layout_29_3_27_2_17_5_12_5 (f0 : BitVec 3) (f1 : BitVec 2) (f2 : BitVec 5) (f3 : BitVec 5) (c0 : Nat) (hc0 : c0 < 4096) (c1 : Nat) (hc1 : c1 < 32) (m : Nat) (e : m = c0 * 1 + c1 * 4194304) :
    let w := enc4 m f0 29 f1 27 f2 17 f3 12
    w % 2 = c0 % 2 ∧ w < 2 ^ 32 ∧ bits w 1 6 = c0 / 2 ^ 1 % 2 ^ 6 ∧ bits w 7 5 = c0 / 2 ^ 7 % 2 ^ 5 ∧ bits w 22 4 = c1 / 2 ^ 0 % 2 ^ 4 ∧ bits w 22 5 = c1 / 2 ^ 0 % 2 ^ 5 ∧ fld w 29 3 = f0 ∧ fld w 27 2 = f1 ∧ fld w 17 5 = f2 ∧ fld w 12 5 = f3 := by
  intro w
  have h : w / 1 = c0 + 4096 * (f3.toNat + 32 * (f2.toNat + 32 * (c1 + 32 * (f1.toNat + 4 * (f0.toNat + 8 * (0)))))) := by simp only [Nat.div_one, w, e, enc4, enc3, enc2, enc1] <;> omega
  clear_value w
  have hf0 : f0.toNat < 8 := f0.isLt
  have hf1 : f1.toNat < 4 := f1.isLt
  have hf2 : f2.toNat < 32 := f2.isLt
  have hf3 : f3.toNat < 32 := f3.isLt
  obtain ⟨s0, d0⟩ := seg (B := 4096) h hc0 (by decide) rfl
  obtain ⟨s1, d1⟩ := seg (B := 131072) d0 hf3 (by decide) rfl
  obtain ⟨s2, d2⟩ := seg (B := 4194304) d1 hf2 (by decide) rfl
  obtain ⟨s3, d3⟩ := seg (B := 134217728) d2 hc1 (by decide) rfl
  obtain ⟨s4, d4⟩ := seg (B := 536870912) d3 hf1 (by decide) rfl
  obtain ⟨s5, d5⟩ := seg (B := 4294967296) d4 hf0 (by decide) rfl
  have t : w < 4294967296 := (Nat.div_eq_zero_iff_lt (by decide)).mp d5
  have u : w % 2 = c0 % 2 := by rw [← s0, Nat.div_one, Nat.mod_mod_of_dvd _ (by decide)]
  exact ⟨u, t, part (g := 0) (n := 12) (a := 1) s0 (by decide), part (g := 0) (n := 12) (a := 7) s0 (by decide), part (g := 22) (n := 5) (a := 0) s3 (by decide), part (g := 22) (n := 5) (a := 0) s3 (by decide), fld_eq _ _ _ s5, fld_eq _ _ _ s4, fld_eq _ _ _ s2, fld_eq _ _ _ s1⟩

theorem layout_29_3_27_2_17_5_12_5_7_5 (f0 : BitVec 3) (f1 : BitVec 2) (f2 : BitVec 5) (f3 : BitVec 5) (f4 : BitVec 5) (c0 : Nat) (hc0 : c0 < 128) (c1 : Nat) (hc1 : c1 < 32) (m : Nat) (e : m = c0 * 1 + c1 * 4194304) :
    let w := enc5 m f0 29 f1 27 f2 17 f3 12 f4 7
    w % 2 = c0 % 2 ∧ w < 2 ^ 32 ∧ bits w 1 6 = c0 / 2 ^ 1 % 2 ^ 6 ∧ bits w 22 4 = c1 / 2 ^ 0 % 2 ^ 4 ∧ bits w 22 5 = c1 / 2 ^ 0 % 2 ^ 5 ∧ fld w 29 3 = f0 ∧ fld w 27 2 = f1 ∧ fld w 17 5 = f2 ∧ fld w 12 5 = f3 ∧ fld w 7 5 = f4 := by
  intro w
  have h : w / 1 = c0 + 128 * (f4.toNat + 32 * (f3.toNat + 32 * (f2.toNat + 32 * (c1 + 32 * (f1.toNat + 4 * (f0.toNat + 8 * (0))))))) := by simp only [Nat.div_one, w, e, enc5, enc4, enc3, enc2, enc1] <;> omega
  clear_value w
  have hf0 : f0.toNat < 8 := f0.isLt
  have hf1 : f1.toNat < 4 := f1.isLt
  have hf2 : f2.toNat < 32 := f2.isLt
  have hf3 : f3.toNat < 32 := f3.isLt
  have hf4 : f4.toNat < 32 := f4.isLt
  obtain ⟨s0, d0⟩ := seg (B := 128) h hc0 (by decide) rfl
  obtain ⟨s1, d1⟩ := seg (B := 4096) d0 hf4 (by decide) rfl
  obtain ⟨s2, d2⟩ := seg (B := 131072) d1 hf3 (by decide) rfl
  obtain ⟨s3, d3⟩ := seg (B := 4194304) d2 hf2 (by decide) rfl
  obtain ⟨s4, d4⟩ := seg (B := 134217728) d3 hc1 (by decide) rfl
  obtain ⟨s5, d5⟩ := seg (B := 536870912) d4 hf1 (by decide) rfl
  obtain ⟨s6, d6⟩ := seg (B := 4294967296) d5 hf0 (by decide) rfl
  have t : w < 4294967296 := (Nat.div_eq_zero_iff_lt (by decide)).mp d6
  have u : w % 2 = c0 % 2 := by rw [← s0, Nat.div_one, Nat.mod_mod_of_dvd _ (by decide)]
  exact ⟨u, t, part (g := 0) (n := 7) (a := 1) s0 (by decide), part (g := 22) (n := 5) (a := 0) s4 (by decide), part (g := 22) (n := 5) (a := 0) s4 (by decide), fld_eq _ _ _ s6, fld_eq _ _ _ s5, fld_eq _ _ _ s3, fld_eq _ _ _ s2, fld_eq _ _ _ s1⟩

theorem layout_29_3_27_2_26_1_17_5_12_5 (f0 : BitVec 3) (f1 : BitVec 2) (f2 : BitVec 1) (f3 : BitVec 5) (f4 : BitVec 5) (c0 : Nat) (hc0 : c0 < 4096) (c1 : Nat) (hc1 : c1 < 16) (m : Nat) (e : m = c0 * 1 + c1 * 4194304) :
    let w := enc5 m f0 29 f1 27 f2 26 f3 17 f4 12
    w % 2 = c0 % 2 ∧ w < 2 ^ 32 ∧ bits w 1 6 = c0 / 2 ^ 1 % 2 ^ 6 ∧ bits w 7 5 = c0 / 2 ^ 7 % 2 ^ 5 ∧ bits w 22 4 = c1 / 2 ^ 0 % 2 ^ 4 ∧ fld w 29 3 = f0 ∧ fld w 27 2 = f1 ∧ fld w 26 1 = f2 ∧ fld w 17 5 = f3 ∧ fld w 12 5 = f4 := by
  intro w
  have h : w / 1 = c0 + 4096 * (f4.toNat + 32 * (f3.toNat + 32 * (c1 + 16 * (f2.toNat + 2 * (f1.toNat + 4 * (f0.toNat + 8 * (0))))))) := by simp only [Nat.div_one, w, e, enc5, enc4, enc3, enc2, enc1] <;> omega
  clear_value w
  have hf0 : f0.toNat < 8 := f0.isLt
  have hf1 : f1.toNat < 4 := f1.isLt
  have hf2 : f2.toNat < 2 := f2.isLt
  have hf3 : f3.toNat < 32 := f3.isLt
  have hf4 : f4.toNat < 32 := f4.isLt
  obtain ⟨s0, d0⟩ := seg (B := 4096) h hc0 (by decide) rfl
  obtain ⟨s1, d1⟩ := seg (B := 131072) d0 hf4 (by decide) rfl
  obtain ⟨s2, d2⟩ := seg (B := 4194304) d1 hf3 (by decide) rfl
  obtain ⟨s3, d3⟩ := seg (B := 67108864) d2 hc1 (by decide) rfl
  obtain ⟨s4, d4⟩ := seg (B := 134217728) d3 hf2 (by decide) rfl
  obtain ⟨s5, d5⟩ := seg (B := 536870912) d4 hf1 (by decide) rfl
  obtain ⟨s6, d6⟩ := seg (B := 4294967296) d5 hf0 (by decide) rfl
  have t : w < 4294967296 := (Nat.div_eq_zero_iff_lt (by decide)).mp d6
  have u : w % 2 = c0 % 2 := by rw [← s0, Nat.div_one, Nat.mod_mod_of_dvd _ (by decide)]
  exact ⟨u, t, part (g := 0) (n := 12) (a := 1) s0 (by decide), part (g := 0) (n := 12) (a := 7) s0 (by decide), part (g := 22) (n := 4) (a := 0) s3 (by decide), fld_eq _ _ _ s6, fld_eq _ _ _ s5, fld_eq _ _ _ s4, fld_eq _ _ _ s2, fld_eq _ _ _ s1⟩

theorem layout_29_3_27_2_26_1_17_5_12_5_7_5 (f0 : BitVec 3) (f1 : BitVec 2) (f2 : BitVec 1) (f3 : BitVec 5) (f4 : BitVec 5) (f5 : BitVec 5) (c0 : Nat) (hc0 : c0 < 128) (c1 : Nat) (hc1 : c1 < 16) (m : Nat) (e : m = c0 * 1 + c1 * 4194304) :
    let w := enc6 m f0 29 f1 27 f2 26 f3 17 f4 12 f5 7
    w % 2 = c0 % 2 ∧ w < 2 ^ 32 ∧ bits w 1 6 = c0 / 2 ^ 1 % 2 ^ 6 ∧ bits w 22 4 = c1 / 2 ^ 0 % 2 ^ 4 ∧ fld w 29 3 = f0 ∧ fld w 27 2 = f1 ∧ fld w 26 1 = f2 ∧ fld w 17 5 = f3 ∧ fld w 12 5 = f4 ∧ fld w 7 5 = f5 := by
  intro w
  have h : w / 1 = c0 + 128 * (f5.toNat + 32 * (f4.toNat + 32 * (f3.toNat + 32 * (c1 + 16 * (f2.toNat + 2 * (f1.toNat + 4 * (f0.toNat + 8 * (0)))))))) := by simp only [Nat.div_one, w, e, enc6, enc5, enc4, enc3, enc2, enc1] <;> omega
  clear_value w
  have hf0 : f0.toNat < 8 := f0.isLt
  have hf1 : f1.toNat < 4 := f1.isLt
  have hf2 : f2.toNat < 2 := f2.isLt
  have hf3 : f3.toNat < 32 := f3.isLt
  have hf4 : f4.toNat < 32 := f4.isLt
  have hf5 : f5.toNat < 32 := f5.isLt
  obtain ⟨s0, d0⟩ := seg (B := 128) h hc0 (by decide) rfl
  obtain ⟨s1, d1⟩ := seg (B := 4096) d0 hf5 (by decide) rfl
  obtain ⟨s2, d2⟩ := seg (B := 131072) d1 hf4 (by decide) rfl
  obtain ⟨s3, d3⟩ := seg (B := 4194304) d2 hf3 (by decide) rfl
  obtain ⟨s4, d4⟩ := seg (B := 67108864) d3 hc1 (by decide) rfl
  obtain ⟨s5, d5⟩ := seg (B := 134217728) d4 hf2 (by decide) rfl
  obtain ⟨s6, d6⟩ := seg (B := 536870912) d5 hf1 (by decide) rfl
  obtain ⟨s7, d7⟩ := seg (B := 4294967296) d6 hf0 (by decide) rfl
  have t : w < 4294967296 := (Nat.div_eq_zero_iff_lt (by decide)).mp d7
  have u : w % 2 = c0 % 2 := by rw [← s0, Nat.div_one, Nat.mod_mod_of_dvd _ (by decide)]
  exact ⟨u, t, part (g := 0) (n := 7) (a := 1) s0 (by decide), part (g := 22) (n := 4) (a := 0) s4 (by decide), fld_eq _ _ _ s7, fld_eq _ _ _ s6, fld_eq _ _ _ s5, fld_eq _ _ _ s3, fld_eq _ _ _ s2, fld_eq _ _ _ s1⟩

/-! ### Parcels and words -/

theorem add (b : BitVec 5) (a : BitVec 5) (d : BitVec 5) : Statement (.add b a d) := by
  refine of_word _ (enc3 0x00000003 b 17 a 12 d 7) rfl ?_
  obtain ⟨p, q, k0, k1, e0, e1, e2⟩ := layout_17_5_12_5_7_5 b a d 3 (by decide) 0 (by decide) 0x00000003 rfl
  refine ⟨p, q, ?_⟩
  rw [word01 k0]
  simp [decMajor01, k1, e0, e1, e2]

theorem sub (b : BitVec 5) (a : BitVec 5) (d : BitVec 5) : Statement (.sub b a d) := by
  refine of_word _ (enc3 0x00400003 b 17 a 12 d 7) rfl ?_
  obtain ⟨p, q, k0, k1, e0, e1, e2⟩ := layout_17_5_12_5_7_5 b a d 3 (by decide) 1 (by decide) 0x00400003 rfl
  refine ⟨p, q, ?_⟩
  rw [word01 k0]
  simp [decMajor01, k1, e0, e1, e2]

theorem mul (b : BitVec 5) (a : BitVec 5) (d : BitVec 5) : Statement (.mul b a d) := by
  refine of_word _ (enc3 0x00800003 b 17 a 12 d 7) rfl ?_
  obtain ⟨p, q, k0, k1, e0, e1, e2⟩ := layout_17_5_12_5_7_5 b a d 3 (by decide) 2 (by decide) 0x00800003 rfl
  refine ⟨p, q, ?_⟩
  rw [word01 k0]
  simp [decMajor01, k1, e0, e1, e2]

theorem mulh (b : BitVec 5) (a : BitVec 5) (d : BitVec 5) : Statement (.mulh b a d) := by
  refine of_word _ (enc3 0x00C00003 b 17 a 12 d 7) rfl ?_
  obtain ⟨p, q, k0, k1, e0, e1, e2⟩ := layout_17_5_12_5_7_5 b a d 3 (by decide) 3 (by decide) 0x00C00003 rfl
  refine ⟨p, q, ?_⟩
  rw [word01 k0]
  simp [decMajor01, k1, e0, e1, e2]

theorem mulhn (b : BitVec 5) (a : BitVec 5) (d : BitVec 5) : Statement (.mulhn b a d) := by
  refine of_word _ (enc3 0x01000003 b 17 a 12 d 7) rfl ?_
  obtain ⟨p, q, k0, k1, e0, e1, e2⟩ := layout_17_5_12_5_7_5 b a d 3 (by decide) 4 (by decide) 0x01000003 rfl
  refine ⟨p, q, ?_⟩
  rw [word01 k0]
  simp [decMajor01, k1, e0, e1, e2]

theorem div (b : BitVec 5) (a : BitVec 5) (d : BitVec 5) : Statement (.div b a d) := by
  refine of_word _ (enc3 0x01400003 b 17 a 12 d 7) rfl ?_
  obtain ⟨p, q, k0, k1, e0, e1, e2⟩ := layout_17_5_12_5_7_5 b a d 3 (by decide) 5 (by decide) 0x01400003 rfl
  refine ⟨p, q, ?_⟩
  rw [word01 k0]
  simp [decMajor01, k1, e0, e1, e2]

theorem divn (b : BitVec 5) (a : BitVec 5) (d : BitVec 5) : Statement (.divn b a d) := by
  refine of_word _ (enc3 0x01800003 b 17 a 12 d 7) rfl ?_
  obtain ⟨p, q, k0, k1, e0, e1, e2⟩ := layout_17_5_12_5_7_5 b a d 3 (by decide) 6 (by decide) 0x01800003 rfl
  refine ⟨p, q, ?_⟩
  rw [word01 k0]
  simp [decMajor01, k1, e0, e1, e2]

theorem rem (b : BitVec 5) (a : BitVec 5) (d : BitVec 5) : Statement (.rem b a d) := by
  refine of_word _ (enc3 0x01C00003 b 17 a 12 d 7) rfl ?_
  obtain ⟨p, q, k0, k1, e0, e1, e2⟩ := layout_17_5_12_5_7_5 b a d 3 (by decide) 7 (by decide) 0x01C00003 rfl
  refine ⟨p, q, ?_⟩
  rw [word01 k0]
  simp [decMajor01, k1, e0, e1, e2]

theorem remn (b : BitVec 5) (a : BitVec 5) (d : BitVec 5) : Statement (.remn b a d) := by
  refine of_word _ (enc3 0x02000003 b 17 a 12 d 7) rfl ?_
  obtain ⟨p, q, k0, k1, e0, e1, e2⟩ := layout_17_5_12_5_7_5 b a d 3 (by decide) 8 (by decide) 0x02000003 rfl
  refine ⟨p, q, ?_⟩
  rw [word01 k0]
  simp [decMajor01, k1, e0, e1, e2]

theorem and (b : BitVec 5) (a : BitVec 5) (d : BitVec 5) : Statement (.and b a d) := by
  refine of_word _ (enc3 0x02400003 b 17 a 12 d 7) rfl ?_
  obtain ⟨p, q, k0, k1, e0, e1, e2⟩ := layout_17_5_12_5_7_5 b a d 3 (by decide) 9 (by decide) 0x02400003 rfl
  refine ⟨p, q, ?_⟩
  rw [word01 k0]
  simp [decMajor01, k1, e0, e1, e2]

theorem or (b : BitVec 5) (a : BitVec 5) (d : BitVec 5) : Statement (.or b a d) := by
  refine of_word _ (enc3 0x02800003 b 17 a 12 d 7) rfl ?_
  obtain ⟨p, q, k0, k1, e0, e1, e2⟩ := layout_17_5_12_5_7_5 b a d 3 (by decide) 10 (by decide) 0x02800003 rfl
  refine ⟨p, q, ?_⟩
  rw [word01 k0]
  simp [decMajor01, k1, e0, e1, e2]

theorem xor (b : BitVec 5) (a : BitVec 5) (d : BitVec 5) : Statement (.xor b a d) := by
  refine of_word _ (enc3 0x02C00003 b 17 a 12 d 7) rfl ?_
  obtain ⟨p, q, k0, k1, e0, e1, e2⟩ := layout_17_5_12_5_7_5 b a d 3 (by decide) 11 (by decide) 0x02C00003 rfl
  refine ⟨p, q, ?_⟩
  rw [word01 k0]
  simp [decMajor01, k1, e0, e1, e2]

theorem andn (b : BitVec 5) (a : BitVec 5) (d : BitVec 5) : Statement (.andn b a d) := by
  refine of_word _ (enc3 0x03000003 b 17 a 12 d 7) rfl ?_
  obtain ⟨p, q, k0, k1, e0, e1, e2⟩ := layout_17_5_12_5_7_5 b a d 3 (by decide) 12 (by decide) 0x03000003 rfl
  refine ⟨p, q, ?_⟩
  rw [word01 k0]
  simp [decMajor01, k1, e0, e1, e2]

theorem orn (b : BitVec 5) (a : BitVec 5) (d : BitVec 5) : Statement (.orn b a d) := by
  refine of_word _ (enc3 0x03400003 b 17 a 12 d 7) rfl ?_
  obtain ⟨p, q, k0, k1, e0, e1, e2⟩ := layout_17_5_12_5_7_5 b a d 3 (by decide) 13 (by decide) 0x03400003 rfl
  refine ⟨p, q, ?_⟩
  rw [word01 k0]
  simp [decMajor01, k1, e0, e1, e2]

theorem shl (b : BitVec 5) (a : BitVec 5) (d : BitVec 5) : Statement (.shl b a d) := by
  refine of_word _ (enc3 0x03800003 b 17 a 12 d 7) rfl ?_
  obtain ⟨p, q, k0, k1, e0, e1, e2⟩ := layout_17_5_12_5_7_5 b a d 3 (by decide) 14 (by decide) 0x03800003 rfl
  refine ⟨p, q, ?_⟩
  rw [word01 k0]
  simp [decMajor01, k1, e0, e1, e2]

theorem shr (b : BitVec 5) (a : BitVec 5) (d : BitVec 5) : Statement (.shr b a d) := by
  refine of_word _ (enc3 0x03C00003 b 17 a 12 d 7) rfl ?_
  obtain ⟨p, q, k0, k1, e0, e1, e2⟩ := layout_17_5_12_5_7_5 b a d 3 (by decide) 15 (by decide) 0x03C00003 rfl
  refine ⟨p, q, ?_⟩
  rw [word01 k0]
  simp [decMajor01, k1, e0, e1, e2]

theorem sra (b : BitVec 5) (a : BitVec 5) (d : BitVec 5) : Statement (.sra b a d) := by
  refine of_word _ (enc3 0x04000003 b 17 a 12 d 7) rfl ?_
  obtain ⟨p, q, k0, k1, e0, e1, e2⟩ := layout_17_5_12_5_7_5 b a d 3 (by decide) 16 (by decide) 0x04000003 rfl
  refine ⟨p, q, ?_⟩
  rw [word01 k0]
  simp [decMajor01, k1, e0, e1, e2]

theorem rotl (b : BitVec 5) (a : BitVec 5) (d : BitVec 5) : Statement (.rotl b a d) := by
  refine of_word _ (enc3 0x04400003 b 17 a 12 d 7) rfl ?_
  obtain ⟨p, q, k0, k1, e0, e1, e2⟩ := layout_17_5_12_5_7_5 b a d 3 (by decide) 17 (by decide) 0x04400003 rfl
  refine ⟨p, q, ?_⟩
  rw [word01 k0]
  simp [decMajor01, k1, e0, e1, e2]

theorem rotr (b : BitVec 5) (a : BitVec 5) (d : BitVec 5) : Statement (.rotr b a d) := by
  refine of_word _ (enc3 0x04800003 b 17 a 12 d 7) rfl ?_
  obtain ⟨p, q, k0, k1, e0, e1, e2⟩ := layout_17_5_12_5_7_5 b a d 3 (by decide) 18 (by decide) 0x04800003 rfl
  refine ⟨p, q, ?_⟩
  rw [word01 k0]
  simp [decMajor01, k1, e0, e1, e2]

theorem min (b : BitVec 5) (a : BitVec 5) (d : BitVec 5) : Statement (.min b a d) := by
  refine of_word _ (enc3 0x04C00003 b 17 a 12 d 7) rfl ?_
  obtain ⟨p, q, k0, k1, e0, e1, e2⟩ := layout_17_5_12_5_7_5 b a d 3 (by decide) 19 (by decide) 0x04C00003 rfl
  refine ⟨p, q, ?_⟩
  rw [word01 k0]
  simp [decMajor01, k1, e0, e1, e2]

theorem max (b : BitVec 5) (a : BitVec 5) (d : BitVec 5) : Statement (.max b a d) := by
  refine of_word _ (enc3 0x05000003 b 17 a 12 d 7) rfl ?_
  obtain ⟨p, q, k0, k1, e0, e1, e2⟩ := layout_17_5_12_5_7_5 b a d 3 (by decide) 20 (by decide) 0x05000003 rfl
  refine ⟨p, q, ?_⟩
  rw [word01 k0]
  simp [decMajor01, k1, e0, e1, e2]

theorem minn (b : BitVec 5) (a : BitVec 5) (d : BitVec 5) : Statement (.minn b a d) := by
  refine of_word _ (enc3 0x05400003 b 17 a 12 d 7) rfl ?_
  obtain ⟨p, q, k0, k1, e0, e1, e2⟩ := layout_17_5_12_5_7_5 b a d 3 (by decide) 21 (by decide) 0x05400003 rfl
  refine ⟨p, q, ?_⟩
  rw [word01 k0]
  simp [decMajor01, k1, e0, e1, e2]

theorem maxn (b : BitVec 5) (a : BitVec 5) (d : BitVec 5) : Statement (.maxn b a d) := by
  refine of_word _ (enc3 0x05800003 b 17 a 12 d 7) rfl ?_
  obtain ⟨p, q, k0, k1, e0, e1, e2⟩ := layout_17_5_12_5_7_5 b a d 3 (by decide) 22 (by decide) 0x05800003 rfl
  refine ⟨p, q, ?_⟩
  rw [word01 k0]
  simp [decMajor01, k1, e0, e1, e2]

theorem slt (b : BitVec 5) (a : BitVec 5) (d : BitVec 5) : Statement (.slt b a d) := by
  refine of_word _ (enc3 0x05C00003 b 17 a 12 d 7) rfl ?_
  obtain ⟨p, q, k0, k1, e0, e1, e2⟩ := layout_17_5_12_5_7_5 b a d 3 (by decide) 23 (by decide) 0x05C00003 rfl
  refine ⟨p, q, ?_⟩
  rw [word01 k0]
  simp [decMajor01, k1, e0, e1, e2]

theorem sltn (b : BitVec 5) (a : BitVec 5) (d : BitVec 5) : Statement (.sltn b a d) := by
  refine of_word _ (enc3 0x06000003 b 17 a 12 d 7) rfl ?_
  obtain ⟨p, q, k0, k1, e0, e1, e2⟩ := layout_17_5_12_5_7_5 b a d 3 (by decide) 24 (by decide) 0x06000003 rfl
  refine ⟨p, q, ?_⟩
  rw [word01 k0]
  simp [decMajor01, k1, e0, e1, e2]

theorem clz (a : BitVec 5) (d : BitVec 5) : Statement (.clz a d) := by
  refine of_word _ (enc2 0x06400003 a 12 d 7) rfl ?_
  obtain ⟨p, q, k0, k1, k2, k3, k4, k5, k6, e0, e1⟩ := layout_12_5_7_5 a d 3 (by decide) 800 (by decide) 0x06400003 rfl
  refine ⟨p, q, ?_⟩
  rw [word01 k0]
  simp [decMajor01, k3, k5, e0, e1]

theorem ctz (a : BitVec 5) (d : BitVec 5) : Statement (.ctz a d) := by
  refine of_word _ (enc2 0x06800003 a 12 d 7) rfl ?_
  obtain ⟨p, q, k0, k1, k2, k3, k4, k5, k6, e0, e1⟩ := layout_12_5_7_5 a d 3 (by decide) 832 (by decide) 0x06800003 rfl
  refine ⟨p, q, ?_⟩
  rw [word01 k0]
  simp [decMajor01, k3, k5, e0, e1]

theorem popc (a : BitVec 5) (d : BitVec 5) : Statement (.popc a d) := by
  refine of_word _ (enc2 0x06C00003 a 12 d 7) rfl ?_
  obtain ⟨p, q, k0, k1, k2, k3, k4, k5, k6, e0, e1⟩ := layout_12_5_7_5 a d 3 (by decide) 864 (by decide) 0x06C00003 rfl
  refine ⟨p, q, ?_⟩
  rw [word01 k0]
  simp [decMajor01, k3, k5, e0, e1]

theorem sextB (a : BitVec 5) (d : BitVec 5) : Statement (.sextB a d) := by
  refine of_word _ (enc2 0x07000003 a 12 d 7) rfl ?_
  obtain ⟨p, q, k0, k1, k2, k3, k4, k5, k6, e0, e1⟩ := layout_12_5_7_5 a d 3 (by decide) 896 (by decide) 0x07000003 rfl
  refine ⟨p, q, ?_⟩
  rw [word01 k0]
  simp [decMajor01, k3, k5, e0, e1]

theorem sextH (a : BitVec 5) (d : BitVec 5) : Statement (.sextH a d) := by
  refine of_word _ (enc2 0x07400003 a 12 d 7) rfl ?_
  obtain ⟨p, q, k0, k1, k2, k3, k4, k5, k6, e0, e1⟩ := layout_12_5_7_5 a d 3 (by decide) 928 (by decide) 0x07400003 rfl
  refine ⟨p, q, ?_⟩
  rw [word01 k0]
  simp [decMajor01, k3, k5, e0, e1]

theorem sextW (a : BitVec 5) (d : BitVec 5) : Statement (.sextW a d) := by
  refine of_word _ (enc2 0x07800003 a 12 d 7) rfl ?_
  obtain ⟨p, q, k0, k1, k2, k3, k4, k5, k6, e0, e1⟩ := layout_12_5_7_5 a d 3 (by decide) 960 (by decide) 0x07800003 rfl
  refine ⟨p, q, ?_⟩
  rw [word01 k0]
  simp [decMajor01, k3, k5, e0, e1]

theorem zextB (a : BitVec 5) (d : BitVec 5) : Statement (.zextB a d) := by
  refine of_word _ (enc2 0x07C00003 a 12 d 7) rfl ?_
  obtain ⟨p, q, k0, k1, k2, k3, k4, k5, k6, e0, e1⟩ := layout_12_5_7_5 a d 3 (by decide) 992 (by decide) 0x07C00003 rfl
  refine ⟨p, q, ?_⟩
  rw [word01 k0]
  simp [decMajor01, k3, k5, e0, e1]

theorem zextH (a : BitVec 5) (d : BitVec 5) : Statement (.zextH a d) := by
  refine of_word _ (enc2 0x08000003 a 12 d 7) rfl ?_
  obtain ⟨p, q, k0, k1, k2, k3, k4, k5, k6, e0, e1⟩ := layout_12_5_7_5 a d 3 (by decide) 1024 (by decide) 0x08000003 rfl
  refine ⟨p, q, ?_⟩
  rw [word01 k0]
  simp [decMajor01, k3, k5, e0, e1]

theorem zextW (a : BitVec 5) (d : BitVec 5) : Statement (.zextW a d) := by
  refine of_word _ (enc2 0x08400003 a 12 d 7) rfl ?_
  obtain ⟨p, q, k0, k1, k2, k3, k4, k5, k6, e0, e1⟩ := layout_12_5_7_5 a d 3 (by decide) 1056 (by decide) 0x08400003 rfl
  refine ⟨p, q, ?_⟩
  rw [word01 k0]
  simp [decMajor01, k3, k5, e0, e1]

theorem bfx (b : BitVec 5) (a : BitVec 5) (d : BitVec 5) : Statement (.bfx b a d) := by
  refine of_word _ (enc3 0x08800003 b 17 a 12 d 7) rfl ?_
  obtain ⟨p, q, k0, k1, e0, e1, e2⟩ := layout_17_5_12_5_7_5 b a d 3 (by decide) 34 (by decide) 0x08800003 rfl
  refine ⟨p, q, ?_⟩
  rw [word01 k0]
  have hb := b.isLt
  have ha := a.isLt
  have hd := d.isLt
  have x0 : bits (enc3 0x08800003 b 17 a 12 d 7) 17 15 ≠ 800 := by simp only [bits, enc3, enc2, enc1]; omega
  have x1 : bits (enc3 0x08800003 b 17 a 12 d 7) 17 15 ≠ 832 := by simp only [bits, enc3, enc2, enc1]; omega
  have x2 : bits (enc3 0x08800003 b 17 a 12 d 7) 17 15 ≠ 864 := by simp only [bits, enc3, enc2, enc1]; omega
  have x3 : bits (enc3 0x08800003 b 17 a 12 d 7) 17 15 ≠ 896 := by simp only [bits, enc3, enc2, enc1]; omega
  have x4 : bits (enc3 0x08800003 b 17 a 12 d 7) 17 15 ≠ 928 := by simp only [bits, enc3, enc2, enc1]; omega
  have x5 : bits (enc3 0x08800003 b 17 a 12 d 7) 17 15 ≠ 960 := by simp only [bits, enc3, enc2, enc1]; omega
  have x6 : bits (enc3 0x08800003 b 17 a 12 d 7) 17 15 ≠ 992 := by simp only [bits, enc3, enc2, enc1]; omega
  have x7 : bits (enc3 0x08800003 b 17 a 12 d 7) 17 15 ≠ 1024 := by simp only [bits, enc3, enc2, enc1]; omega
  have x8 : bits (enc3 0x08800003 b 17 a 12 d 7) 17 15 ≠ 1056 := by simp only [bits, enc3, enc2, enc1]; omega
  simp [decMajor01, k1, x0, x1, x2, x3, x4, x5, x6, x7, x8, e0, e1, e2]

theorem bfxn (b : BitVec 5) (a : BitVec 5) (d : BitVec 5) : Statement (.bfxn b a d) := by
  refine of_word _ (enc3 0x08C00003 b 17 a 12 d 7) rfl ?_
  obtain ⟨p, q, k0, k1, e0, e1, e2⟩ := layout_17_5_12_5_7_5 b a d 3 (by decide) 35 (by decide) 0x08C00003 rfl
  refine ⟨p, q, ?_⟩
  rw [word01 k0]
  have hb := b.isLt
  have ha := a.isLt
  have hd := d.isLt
  have x0 : bits (enc3 0x08C00003 b 17 a 12 d 7) 17 15 ≠ 800 := by simp only [bits, enc3, enc2, enc1]; omega
  have x1 : bits (enc3 0x08C00003 b 17 a 12 d 7) 17 15 ≠ 832 := by simp only [bits, enc3, enc2, enc1]; omega
  have x2 : bits (enc3 0x08C00003 b 17 a 12 d 7) 17 15 ≠ 864 := by simp only [bits, enc3, enc2, enc1]; omega
  have x3 : bits (enc3 0x08C00003 b 17 a 12 d 7) 17 15 ≠ 896 := by simp only [bits, enc3, enc2, enc1]; omega
  have x4 : bits (enc3 0x08C00003 b 17 a 12 d 7) 17 15 ≠ 928 := by simp only [bits, enc3, enc2, enc1]; omega
  have x5 : bits (enc3 0x08C00003 b 17 a 12 d 7) 17 15 ≠ 960 := by simp only [bits, enc3, enc2, enc1]; omega
  have x6 : bits (enc3 0x08C00003 b 17 a 12 d 7) 17 15 ≠ 992 := by simp only [bits, enc3, enc2, enc1]; omega
  have x7 : bits (enc3 0x08C00003 b 17 a 12 d 7) 17 15 ≠ 1024 := by simp only [bits, enc3, enc2, enc1]; omega
  have x8 : bits (enc3 0x08C00003 b 17 a 12 d 7) 17 15 ≠ 1056 := by simp only [bits, enc3, enc2, enc1]; omega
  simp [decMajor01, k1, x0, x1, x2, x3, x4, x5, x6, x7, x8, e0, e1, e2]

theorem bfi (b : BitVec 5) (a : BitVec 5) (d : BitVec 5) : Statement (.bfi b a d) := by
  refine of_word _ (enc3 0x09000003 b 17 a 12 d 7) rfl ?_
  obtain ⟨p, q, k0, k1, e0, e1, e2⟩ := layout_17_5_12_5_7_5 b a d 3 (by decide) 36 (by decide) 0x09000003 rfl
  refine ⟨p, q, ?_⟩
  rw [word01 k0]
  have hb := b.isLt
  have ha := a.isLt
  have hd := d.isLt
  have x0 : bits (enc3 0x09000003 b 17 a 12 d 7) 17 15 ≠ 800 := by simp only [bits, enc3, enc2, enc1]; omega
  have x1 : bits (enc3 0x09000003 b 17 a 12 d 7) 17 15 ≠ 832 := by simp only [bits, enc3, enc2, enc1]; omega
  have x2 : bits (enc3 0x09000003 b 17 a 12 d 7) 17 15 ≠ 864 := by simp only [bits, enc3, enc2, enc1]; omega
  have x3 : bits (enc3 0x09000003 b 17 a 12 d 7) 17 15 ≠ 896 := by simp only [bits, enc3, enc2, enc1]; omega
  have x4 : bits (enc3 0x09000003 b 17 a 12 d 7) 17 15 ≠ 928 := by simp only [bits, enc3, enc2, enc1]; omega
  have x5 : bits (enc3 0x09000003 b 17 a 12 d 7) 17 15 ≠ 960 := by simp only [bits, enc3, enc2, enc1]; omega
  have x6 : bits (enc3 0x09000003 b 17 a 12 d 7) 17 15 ≠ 992 := by simp only [bits, enc3, enc2, enc1]; omega
  have x7 : bits (enc3 0x09000003 b 17 a 12 d 7) 17 15 ≠ 1024 := by simp only [bits, enc3, enc2, enc1]; omega
  have x8 : bits (enc3 0x09000003 b 17 a 12 d 7) 17 15 ≠ 1056 := by simp only [bits, enc3, enc2, enc1]; omega
  simp [decMajor01, k1, x0, x1, x2, x3, x4, x5, x6, x7, x8, e0, e1, e2]

theorem bswap (a : BitVec 5) (d : BitVec 5) : Statement (.bswap a d) := by
  refine of_word _ (enc2 0x09400003 a 12 d 7) rfl ?_
  obtain ⟨p, q, k0, k1, k2, k3, k4, k5, k6, e0, e1⟩ := layout_12_5_7_5 a d 3 (by decide) 1184 (by decide) 0x09400003 rfl
  refine ⟨p, q, ?_⟩
  rw [word01 k0]
  simp [decMajor01, k3, k5, e0, e1]

theorem hasha (a : BitVec 5) (d : BitVec 5) : Statement (.hasha a d) := by
  refine of_word _ (enc2 0x09800003 a 12 d 7) rfl ?_
  obtain ⟨p, q, k0, k1, k2, k3, k4, k5, k6, e0, e1⟩ := layout_12_5_7_5 a d 3 (by decide) 1216 (by decide) 0x09800003 rfl
  refine ⟨p, q, ?_⟩
  rw [word01 k0]
  simp [decMajor01, k3, k5, e0, e1]

theorem addi (i : BitVec 15) (a : BitVec 5) (d : BitVec 5) : Statement (.addi i a d) := by
  refine of_word _ (enc3 0x00000005 i 17 a 12 d 7) rfl ?_
  obtain ⟨p, q, k0, e0, e1, e2⟩ := layout_17_15_12_5_7_5 i a d 5 (by decide) 0x00000005 rfl
  refine ⟨p, q, ?_⟩
  rw [word02 k0]
  simp [decMajor02, e0, e1, e2]

theorem andi (i : BitVec 15) (a : BitVec 5) (d : BitVec 5) : Statement (.andi i a d) := by
  refine of_word _ (enc3 0x00000007 i 17 a 12 d 7) rfl ?_
  obtain ⟨p, q, k0, e0, e1, e2⟩ := layout_17_15_12_5_7_5 i a d 7 (by decide) 0x00000007 rfl
  refine ⟨p, q, ?_⟩
  rw [word03 k0]
  simp [decMajor03, e0, e1, e2]

theorem ori (i : BitVec 15) (a : BitVec 5) (d : BitVec 5) : Statement (.ori i a d) := by
  refine of_word _ (enc3 0x00000009 i 17 a 12 d 7) rfl ?_
  obtain ⟨p, q, k0, e0, e1, e2⟩ := layout_17_15_12_5_7_5 i a d 9 (by decide) 0x00000009 rfl
  refine ⟨p, q, ?_⟩
  rw [word04 k0]
  simp [decMajor04, e0, e1, e2]

theorem xori (i : BitVec 15) (a : BitVec 5) (d : BitVec 5) : Statement (.xori i a d) := by
  refine of_word _ (enc3 0x0000000B i 17 a 12 d 7) rfl ?_
  obtain ⟨p, q, k0, e0, e1, e2⟩ := layout_17_15_12_5_7_5 i a d 11 (by decide) 0x0000000B rfl
  refine ⟨p, q, ?_⟩
  rw [word05 k0]
  simp [decMajor05, e0, e1, e2]

theorem shli (n : BitVec 6) (a : BitVec 5) (d : BitVec 5) : Statement (.shli n a d) := by
  refine of_word _ (enc3 0x0000000D n 17 a 12 d 7) rfl ?_
  obtain ⟨p, q, k0, k1, e0, e1, e2⟩ := layout_17_6_12_5_7_5 n a d 13 (by decide) 0 (by decide) 0x0000000D rfl
  refine ⟨p, q, ?_⟩
  rw [word06 k0]
  simp [decMajor06, k1, e0, e1, e2]

theorem shri (n : BitVec 6) (a : BitVec 5) (d : BitVec 5) : Statement (.shri n a d) := by
  refine of_word _ (enc3 0x2000000D n 17 a 12 d 7) rfl ?_
  obtain ⟨p, q, k0, k1, e0, e1, e2⟩ := layout_17_6_12_5_7_5 n a d 13 (by decide) 64 (by decide) 0x2000000D rfl
  refine ⟨p, q, ?_⟩
  rw [word06 k0]
  simp [decMajor06, k1, e0, e1, e2]

theorem srai (n : BitVec 6) (a : BitVec 5) (d : BitVec 5) : Statement (.srai n a d) := by
  refine of_word _ (enc3 0x4000000D n 17 a 12 d 7) rfl ?_
  obtain ⟨p, q, k0, k1, e0, e1, e2⟩ := layout_17_6_12_5_7_5 n a d 13 (by decide) 128 (by decide) 0x4000000D rfl
  refine ⟨p, q, ?_⟩
  rw [word06 k0]
  simp [decMajor06, k1, e0, e1, e2]

theorem roti (n : BitVec 6) (a : BitVec 5) (d : BitVec 5) : Statement (.roti n a d) := by
  refine of_word _ (enc3 0x6000000D n 17 a 12 d 7) rfl ?_
  obtain ⟨p, q, k0, k1, e0, e1, e2⟩ := layout_17_6_12_5_7_5 n a d 13 (by decide) 192 (by decide) 0x6000000D rfl
  refine ⟨p, q, ?_⟩
  rw [word06 k0]
  simp [decMajor06, k1, e0, e1, e2]

theorem slti (i : BitVec 12) (a : BitVec 5) (d : BitVec 5) : Statement (.slti i a d) := by
  refine of_word _ (enc3 0x8000000D i 17 a 12 d 7) rfl ?_
  obtain ⟨p, q, k0, k1, e0, e1, e2⟩ := layout_17_12_12_5_7_5 i a d 13 (by decide) 4 (by decide) 0x8000000D rfl
  refine ⟨p, q, ?_⟩
  rw [word06 k0]
  have hi := i.isLt
  have ha := a.isLt
  have hd := d.isLt
  have x0 : bits (enc3 0x8000000D i 17 a 12 d 7) 23 9 ≠ 0 := by simp only [bits, enc3, enc2, enc1]; omega
  have x1 : bits (enc3 0x8000000D i 17 a 12 d 7) 23 9 ≠ 64 := by simp only [bits, enc3, enc2, enc1]; omega
  have x2 : bits (enc3 0x8000000D i 17 a 12 d 7) 23 9 ≠ 128 := by simp only [bits, enc3, enc2, enc1]; omega
  have x3 : bits (enc3 0x8000000D i 17 a 12 d 7) 23 9 ≠ 192 := by simp only [bits, enc3, enc2, enc1]; omega
  simp [decMajor06, k1, x0, x1, x2, x3, e0, e1, e2]

theorem lih (i : BitVec 20) (d : BitVec 5) : Statement (.lih i d) := by
  refine of_word _ (enc2 0x0000000F i 12 d 7) rfl ?_
  obtain ⟨p, q, k0, e0, e1⟩ := layout_12_20_7_5 i d 15 (by decide) 0x0000000F rfl
  refine ⟨p, q, ?_⟩
  rw [word07 k0]
  simp [decMajor07, e0, e1]

theorem addpc (i : BitVec 20) (d : BitVec 5) : Statement (.addpc i d) := by
  refine of_word _ (enc2 0x00000011 i 12 d 7) rfl ?_
  obtain ⟨p, q, k0, e0, e1⟩ := layout_12_20_7_5 i d 17 (by decide) 0x00000011 rfl
  refine ⟨p, q, ?_⟩
  rw [word08 k0]
  simp [decMajor08, e0, e1]

theorem sk (b : BitVec 5) (a : BitVec 5) (k : BitVec 2) (c : BitVec 3) : Statement (.sk b a k c) := by
  refine of_word _ (enc4 0x00000013 b 17 a 12 k 10 c 7) rfl ?_
  obtain ⟨p, q, k0, k1, e0, e1, e2, e3⟩ := layout_17_5_12_5_10_2_7_3 b a k c 19 (by decide) 0 (by decide) 0x00000013 rfl
  refine ⟨p, q, ?_⟩
  rw [word09 k0]
  simp [decMajor09, k1, e0, e1, e2, e3]

theorem ski (i : BitVec 15) (a : BitVec 5) (k : BitVec 2) (c : BitVec 3) : Statement (.ski i a k c) := by
  refine of_word _ (enc4 0x00000015 i 17 a 12 k 10 c 7) rfl ?_
  obtain ⟨p, q, k0, e0, e1, e2, e3⟩ := layout_17_15_12_5_10_2_7_3 i a k c 21 (by decide) 0x00000015 rfl
  refine ⟨p, q, ?_⟩
  rw [word0A k0]
  simp [decMajor0A, e0, e1, e2, e3]

theorem bCc (o : BitVec 10) (b : BitVec 5) (a : BitVec 5) (p : BitVec 2) (c : BitVec 3) : Statement (.bCc o b a p c) := by
  refine of_word _ (enc5 0x00000017 o 22 b 17 a 12 p 10 c 7) rfl ?_
  obtain ⟨p, q, k0, e0, e1, e2, e3, e4⟩ := layout_22_10_17_5_12_5_10_2_7_3 o b a p c 23 (by decide) 0x00000017 rfl
  refine ⟨p, q, ?_⟩
  rw [word0B k0]
  simp [decMajor0B, e0, e1, e2, e3, e4]

theorem br (i : BitVec 25) : Statement (.br i) := by
  refine of_word _ (enc1 0x00000019 i 7) rfl ?_
  obtain ⟨p, q, k0, e0⟩ := layout_7_25 i 25 (by decide) 0x00000019 rfl
  refine ⟨p, q, ?_⟩
  rw [word0C k0]
  simp [decMajor0C, e0]

theorem call (i : BitVec 25) : Statement (.call i) := by
  refine of_word _ (enc1 0x0000001B i 7) rfl ?_
  obtain ⟨p, q, k0, e0⟩ := layout_7_25 i 27 (by decide) 0x0000001B rfl
  refine ⟨p, q, ?_⟩
  rw [word0D k0]
  simp [decMajor0D, e0]

theorem jalr (i : BitVec 15) (a : BitVec 5) (d : BitVec 5) : Statement (.jalr i a d) := by
  refine of_word _ (enc3 0x0000001D i 17 a 12 d 7) rfl ?_
  obtain ⟨p, q, k0, e0, e1, e2⟩ := layout_17_15_12_5_7_5 i a d 29 (by decide) 0x0000001D rfl
  refine ⟨p, q, ?_⟩
  rw [word0E k0]
  simp [decMajor0E, e0, e1, e2]

theorem loop (i : BitVec 15) (d : BitVec 5) : Statement (.loop i d) := by
  refine of_word _ (enc2 0x0000001F i 17 d 7) rfl ?_
  obtain ⟨p, q, k0, k1, e0, e1⟩ := layout_17_15_7_5 i d 31 (by decide) 0 (by decide) 0x0000001F rfl
  refine ⟨p, q, ?_⟩
  rw [word0F k0]
  simp [decMajor0F, k1, e0, e1]

theorem csrr (n : BitVec 12) (d : BitVec 5) : Statement (.csrr n d) := by
  refine of_word _ (enc2 0x00000061 n 17 d 7) rfl ?_
  obtain ⟨p, q, k0, k1, k2, e0, e1⟩ := layout_17_12_7_5 n d 97 (by decide) 0 (by decide) 0 (by decide) 0x00000061 rfl
  refine ⟨p, q, ?_⟩
  rw [word30 k0]
  simp [decMajor30, k1, k2, e0, e1]

theorem csrw (n : BitVec 12) (a : BitVec 5) : Statement (.csrw n a) := by
  refine of_word _ (enc2 0x20000061 n 17 a 12) rfl ?_
  obtain ⟨p, q, k0, k1, k2, e0, e1⟩ := layout_17_12_12_5 n a 97 (by decide) 1 (by decide) 0x20000061 rfl
  refine ⟨p, q, ?_⟩
  rw [word30 k0]
  simp [decMajor30, k1, k2, e0, e1]

theorem csrs (n : BitVec 12) (a : BitVec 5) : Statement (.csrs n a) := by
  refine of_word _ (enc2 0x40000061 n 17 a 12) rfl ?_
  obtain ⟨p, q, k0, k1, k2, e0, e1⟩ := layout_17_12_12_5 n a 97 (by decide) 2 (by decide) 0x40000061 rfl
  refine ⟨p, q, ?_⟩
  rw [word30 k0]
  simp [decMajor30, k1, k2, e0, e1]

theorem csrc (n : BitVec 12) (a : BitVec 5) : Statement (.csrc n a) := by
  refine of_word _ (enc2 0x60000061 n 17 a 12) rfl ?_
  obtain ⟨p, q, k0, k1, k2, e0, e1⟩ := layout_17_12_12_5 n a 97 (by decide) 3 (by decide) 0x60000061 rfl
  refine ⟨p, q, ?_⟩
  rw [word30 k0]
  simp [decMajor30, k1, k2, e0, e1]

theorem nop : Statement .nop := by
  exact of_word _ 0x00000063 rfl ⟨rfl, by decide, by decide⟩

theorem trap (a : BitVec 5) : Statement (.trap a) := by
  refine of_word _ (enc1 0x00400063 a 12) rfl ?_
  obtain ⟨p, q, k0, k1, k2, k3, k4, k5, e0⟩ := layout_12_5 a 99 (by decide) 32 (by decide) 0x00400063 rfl
  refine ⟨p, q, ?_⟩
  rw [word31 k0]
  have ha := a.isLt
  have x0 : bits (enc1 0x00400063 a 12) 7 25 ≠ 0 := by simp only [bits, enc1]; omega
  simp [decMajor31, k1, k3, x0, e0]

theorem bkpt : Statement .bkpt := by
  exact of_word _ 0x00800063 rfl ⟨rfl, by decide, by decide⟩

theorem fencei : Statement .fencei := by
  exact of_word _ 0x00C00063 rfl ⟨rfl, by decide, by decide⟩

theorem eret (a : BitVec 5) : Statement (.eret a) := by
  refine of_word _ (enc1 0x04000063 a 12) rfl ?_
  obtain ⟨p, q, k0, k1, k2, k3, k4, k5, e0⟩ := layout_12_5 a 99 (by decide) 512 (by decide) 0x04000063 rfl
  refine ⟨p, q, ?_⟩
  rw [word31 k0]
  have ha := a.isLt
  have x0 : bits (enc1 0x04000063 a 12) 7 25 ≠ 0 := by simp only [bits, enc1]; omega
  have x1 : bits (enc1 0x04000063 a 12) 7 25 ≠ 65536 := by simp only [bits, enc1]; omega
  have x2 : bits (enc1 0x04000063 a 12) 7 25 ≠ 98304 := by simp only [bits, enc1]; omega
  simp [decMajor31, k1, k3, x0, x1, x2, e0]

theorem halt : Statement .halt := by
  exact of_word _ 0x04400063 rfl ⟨rfl, by decide, by decide⟩

theorem tlbi (b : BitVec 5) (a : BitVec 5) : Statement (.tlbi b a) := by
  refine of_word _ (enc2 0x04800063 b 17 a 12) rfl ?_
  obtain ⟨p, q, k0, k1, k2, k3, e0, e1⟩ := layout_17_5_12_5 b a 99 (by decide) 18 (by decide) 0x04800063 rfl
  refine ⟨p, q, ?_⟩
  rw [word31 k0]
  have hb := b.isLt
  have ha := a.isLt
  have x0 : bits (enc2 0x04800063 b 17 a 12) 7 25 ≠ 0 := by simp only [bits, enc2, enc1]; omega
  have x1 : bits (enc2 0x04800063 b 17 a 12) 17 15 ≠ 32 := by simp only [bits, enc2, enc1]; omega
  have x2 : bits (enc2 0x04800063 b 17 a 12) 7 25 ≠ 65536 := by simp only [bits, enc2, enc1]; omega
  have x3 : bits (enc2 0x04800063 b 17 a 12) 7 25 ≠ 98304 := by simp only [bits, enc2, enc1]; omega
  have x4 : bits (enc2 0x04800063 b 17 a 12) 17 15 ≠ 512 := by simp only [bits, enc2, enc1]; omega
  have x5 : bits (enc2 0x04800063 b 17 a 12) 7 25 ≠ 557056 := by simp only [bits, enc2, enc1]; omega
  simp [decMajor31, k1, k2, x0, x1, x2, x3, x4, x5, e0, e1]

theorem tresume (a : BitVec 5) : Statement (.tresume a) := by
  refine of_word _ (enc1 0x04C00063 a 12) rfl ?_
  obtain ⟨p, q, k0, k1, k2, k3, k4, k5, e0⟩ := layout_12_5 a 99 (by decide) 608 (by decide) 0x04C00063 rfl
  refine ⟨p, q, ?_⟩
  rw [word31 k0]
  have ha := a.isLt
  have x0 : bits (enc1 0x04C00063 a 12) 7 25 ≠ 0 := by simp only [bits, enc1]; omega
  have x1 : bits (enc1 0x04C00063 a 12) 7 25 ≠ 65536 := by simp only [bits, enc1]; omega
  have x2 : bits (enc1 0x04C00063 a 12) 7 25 ≠ 98304 := by simp only [bits, enc1]; omega
  have x3 : bits (enc1 0x04C00063 a 12) 7 25 ≠ 557056 := by simp only [bits, enc1]; omega
  simp [decMajor31, k1, k3, k4, x0, x1, x2, x3, e0]

theorem tstatr (b : BitVec 5) (a : BitVec 5) (d : BitVec 5) : Statement (.tstatr b a d) := by
  refine of_word _ (enc3 0x05000063 b 17 a 12 d 7) rfl ?_
  obtain ⟨p, q, k0, k1, e0, e1, e2⟩ := layout_17_5_12_5_7_5 b a d 99 (by decide) 20 (by decide) 0x05000063 rfl
  refine ⟨p, q, ?_⟩
  rw [word31 k0]
  have hb := b.isLt
  have ha := a.isLt
  have hd := d.isLt
  have x0 : bits (enc3 0x05000063 b 17 a 12 d 7) 7 25 ≠ 0 := by simp only [bits, enc3, enc2, enc1]; omega
  have x1 : bits (enc3 0x05000063 b 17 a 12 d 7) 17 15 ≠ 32 := by simp only [bits, enc3, enc2, enc1]; omega
  have x2 : bits (enc3 0x05000063 b 17 a 12 d 7) 7 25 ≠ 65536 := by simp only [bits, enc3, enc2, enc1]; omega
  have x3 : bits (enc3 0x05000063 b 17 a 12 d 7) 7 25 ≠ 98304 := by simp only [bits, enc3, enc2, enc1]; omega
  have x4 : bits (enc3 0x05000063 b 17 a 12 d 7) 17 15 ≠ 512 := by simp only [bits, enc3, enc2, enc1]; omega
  have x5 : bits (enc3 0x05000063 b 17 a 12 d 7) 7 25 ≠ 557056 := by simp only [bits, enc3, enc2, enc1]; omega
  have x6 : bits (enc3 0x05000063 b 17 a 12 d 7) 17 15 ≠ 608 := by simp only [bits, enc3, enc2, enc1]; omega
  simp [decMajor31, k1, x0, x1, x2, x3, x4, x5, x6, e0, e1, e2]

theorem tstatw (b : BitVec 5) (a : BitVec 5) (d : BitVec 5) : Statement (.tstatw b a d) := by
  refine of_word _ (enc3 0x05400063 b 17 a 12 d 7) rfl ?_
  obtain ⟨p, q, k0, k1, e0, e1, e2⟩ := layout_17_5_12_5_7_5 b a d 99 (by decide) 21 (by decide) 0x05400063 rfl
  refine ⟨p, q, ?_⟩
  rw [word31 k0]
  have hb := b.isLt
  have ha := a.isLt
  have hd := d.isLt
  have x0 : bits (enc3 0x05400063 b 17 a 12 d 7) 7 25 ≠ 0 := by simp only [bits, enc3, enc2, enc1]; omega
  have x1 : bits (enc3 0x05400063 b 17 a 12 d 7) 17 15 ≠ 32 := by simp only [bits, enc3, enc2, enc1]; omega
  have x2 : bits (enc3 0x05400063 b 17 a 12 d 7) 7 25 ≠ 65536 := by simp only [bits, enc3, enc2, enc1]; omega
  have x3 : bits (enc3 0x05400063 b 17 a 12 d 7) 7 25 ≠ 98304 := by simp only [bits, enc3, enc2, enc1]; omega
  have x4 : bits (enc3 0x05400063 b 17 a 12 d 7) 17 15 ≠ 512 := by simp only [bits, enc3, enc2, enc1]; omega
  have x5 : bits (enc3 0x05400063 b 17 a 12 d 7) 7 25 ≠ 557056 := by simp only [bits, enc3, enc2, enc1]; omega
  have x6 : bits (enc3 0x05400063 b 17 a 12 d 7) 17 15 ≠ 608 := by simp only [bits, enc3, enc2, enc1]; omega
  simp [decMajor31, k1, x0, x1, x2, x3, x4, x5, x6, e0, e1, e2]

theorem vaddF32Parcel (s : BitVec 5) (d : BitVec 5) : Statement (.vaddF32Parcel s d) := by
  refine of_parcel _ (enc2 0x0000 s 11 d 6) rfl ?_
  have hs := s.isLt
  have hd := d.isLt
  obtain ⟨ww, eqn⟩ : ∃ ww, ww = enc2 0x0000 s 11 d 6 := ⟨_, rfl⟩
  rw [← eqn]
  simp only [enc2, enc1] at eqn
  refine ⟨by omega, by omega, ?_⟩
  have kA : bits ww 1 1 = 0 := bits_of (by omega)
  have kB : bits ww 2 4 = 0 := bits_of (by omega)
  simp [decodeParcel, kA, kB, fld_eq ww 11 s (by omega), fld_eq ww 6 d (by omega)]

theorem vsubF32Parcel (s : BitVec 5) (d : BitVec 5) : Statement (.vsubF32Parcel s d) := by
  refine of_parcel _ (enc2 0x0004 s 11 d 6) rfl ?_
  have hs := s.isLt
  have hd := d.isLt
  obtain ⟨ww, eqn⟩ : ∃ ww, ww = enc2 0x0004 s 11 d 6 := ⟨_, rfl⟩
  rw [← eqn]
  simp only [enc2, enc1] at eqn
  refine ⟨by omega, by omega, ?_⟩
  have kA : bits ww 1 1 = 0 := bits_of (by omega)
  have kB : bits ww 2 4 = 1 := bits_of (by omega)
  simp [decodeParcel, kA, kB, fld_eq ww 11 s (by omega), fld_eq ww 6 d (by omega)]

theorem vmulF32Parcel (s : BitVec 5) (d : BitVec 5) : Statement (.vmulF32Parcel s d) := by
  refine of_parcel _ (enc2 0x0008 s 11 d 6) rfl ?_
  have hs := s.isLt
  have hd := d.isLt
  obtain ⟨ww, eqn⟩ : ∃ ww, ww = enc2 0x0008 s 11 d 6 := ⟨_, rfl⟩
  rw [← eqn]
  simp only [enc2, enc1] at eqn
  refine ⟨by omega, by omega, ?_⟩
  have kA : bits ww 1 1 = 0 := bits_of (by omega)
  have kB : bits ww 2 4 = 2 := bits_of (by omega)
  simp [decodeParcel, kA, kB, fld_eq ww 11 s (by omega), fld_eq ww 6 d (by omega)]

theorem vmaxF32Parcel (s : BitVec 5) (d : BitVec 5) : Statement (.vmaxF32Parcel s d) := by
  refine of_parcel _ (enc2 0x000C s 11 d 6) rfl ?_
  have hs := s.isLt
  have hd := d.isLt
  obtain ⟨ww, eqn⟩ : ∃ ww, ww = enc2 0x000C s 11 d 6 := ⟨_, rfl⟩
  rw [← eqn]
  simp only [enc2, enc1] at eqn
  refine ⟨by omega, by omega, ?_⟩
  have kA : bits ww 1 1 = 0 := bits_of (by omega)
  have kB : bits ww 2 4 = 3 := bits_of (by omega)
  simp [decodeParcel, kA, kB, fld_eq ww 11 s (by omega), fld_eq ww 6 d (by omega)]

theorem vminF32Parcel (s : BitVec 5) (d : BitVec 5) : Statement (.vminF32Parcel s d) := by
  refine of_parcel _ (enc2 0x0010 s 11 d 6) rfl ?_
  have hs := s.isLt
  have hd := d.isLt
  obtain ⟨ww, eqn⟩ : ∃ ww, ww = enc2 0x0010 s 11 d 6 := ⟨_, rfl⟩
  rw [← eqn]
  simp only [enc2, enc1] at eqn
  refine ⟨by omega, by omega, ?_⟩
  have kA : bits ww 1 1 = 0 := bits_of (by omega)
  have kB : bits ww 2 4 = 4 := bits_of (by omega)
  simp [decodeParcel, kA, kB, fld_eq ww 11 s (by omega), fld_eq ww 6 d (by omega)]

theorem vaddI32Parcel (s : BitVec 5) (d : BitVec 5) : Statement (.vaddI32Parcel s d) := by
  refine of_parcel _ (enc2 0x0014 s 11 d 6) rfl ?_
  have hs := s.isLt
  have hd := d.isLt
  obtain ⟨ww, eqn⟩ : ∃ ww, ww = enc2 0x0014 s 11 d 6 := ⟨_, rfl⟩
  rw [← eqn]
  simp only [enc2, enc1] at eqn
  refine ⟨by omega, by omega, ?_⟩
  have kA : bits ww 1 1 = 0 := bits_of (by omega)
  have kB : bits ww 2 4 = 5 := bits_of (by omega)
  simp [decodeParcel, kA, kB, fld_eq ww 11 s (by omega), fld_eq ww 6 d (by omega)]

theorem vsubI32Parcel (s : BitVec 5) (d : BitVec 5) : Statement (.vsubI32Parcel s d) := by
  refine of_parcel _ (enc2 0x0018 s 11 d 6) rfl ?_
  have hs := s.isLt
  have hd := d.isLt
  obtain ⟨ww, eqn⟩ : ∃ ww, ww = enc2 0x0018 s 11 d 6 := ⟨_, rfl⟩
  rw [← eqn]
  simp only [enc2, enc1] at eqn
  refine ⟨by omega, by omega, ?_⟩
  have kA : bits ww 1 1 = 0 := bits_of (by omega)
  have kB : bits ww 2 4 = 6 := bits_of (by omega)
  simp [decodeParcel, kA, kB, fld_eq ww 11 s (by omega), fld_eq ww 6 d (by omega)]

theorem vandParcel (s : BitVec 5) (d : BitVec 5) : Statement (.vandParcel s d) := by
  refine of_parcel _ (enc2 0x001C s 11 d 6) rfl ?_
  have hs := s.isLt
  have hd := d.isLt
  obtain ⟨ww, eqn⟩ : ∃ ww, ww = enc2 0x001C s 11 d 6 := ⟨_, rfl⟩
  rw [← eqn]
  simp only [enc2, enc1] at eqn
  refine ⟨by omega, by omega, ?_⟩
  have kA : bits ww 1 1 = 0 := bits_of (by omega)
  have kB : bits ww 2 4 = 7 := bits_of (by omega)
  simp [decodeParcel, kA, kB, fld_eq ww 11 s (by omega), fld_eq ww 6 d (by omega)]

theorem vorParcel (s : BitVec 5) (d : BitVec 5) : Statement (.vorParcel s d) := by
  refine of_parcel _ (enc2 0x0020 s 11 d 6) rfl ?_
  have hs := s.isLt
  have hd := d.isLt
  obtain ⟨ww, eqn⟩ : ∃ ww, ww = enc2 0x0020 s 11 d 6 := ⟨_, rfl⟩
  rw [← eqn]
  simp only [enc2, enc1] at eqn
  refine ⟨by omega, by omega, ?_⟩
  have kA : bits ww 1 1 = 0 := bits_of (by omega)
  have kB : bits ww 2 4 = 8 := bits_of (by omega)
  simp [decodeParcel, kA, kB, fld_eq ww 11 s (by omega), fld_eq ww 6 d (by omega)]

theorem vxorParcel (s : BitVec 5) (d : BitVec 5) : Statement (.vxorParcel s d) := by
  refine of_parcel _ (enc2 0x0024 s 11 d 6) rfl ?_
  have hs := s.isLt
  have hd := d.isLt
  obtain ⟨ww, eqn⟩ : ∃ ww, ww = enc2 0x0024 s 11 d 6 := ⟨_, rfl⟩
  rw [← eqn]
  simp only [enc2, enc1] at eqn
  refine ⟨by omega, by omega, ?_⟩
  have kA : bits ww 1 1 = 0 := bits_of (by omega)
  have kB : bits ww 2 4 = 9 := bits_of (by omega)
  simp [decodeParcel, kA, kB, fld_eq ww 11 s (by omega), fld_eq ww 6 d (by omega)]

theorem vmovParcel (s : BitVec 5) (d : BitVec 5) : Statement (.vmovParcel s d) := by
  refine of_parcel _ (enc2 0x0028 s 11 d 6) rfl ?_
  have hs := s.isLt
  have hd := d.isLt
  obtain ⟨ww, eqn⟩ : ∃ ww, ww = enc2 0x0028 s 11 d 6 := ⟨_, rfl⟩
  rw [← eqn]
  simp only [enc2, enc1] at eqn
  refine ⟨by omega, by omega, ?_⟩
  have kA : bits ww 1 1 = 0 := bits_of (by omega)
  have kB : bits ww 2 4 = 10 := bits_of (by omega)
  simp [decodeParcel, kA, kB, fld_eq ww 11 s (by omega), fld_eq ww 6 d (by omega)]

theorem vaddB16Parcel (s : BitVec 5) (d : BitVec 5) : Statement (.vaddB16Parcel s d) := by
  refine of_parcel _ (enc2 0x002C s 11 d 6) rfl ?_
  have hs := s.isLt
  have hd := d.isLt
  obtain ⟨ww, eqn⟩ : ∃ ww, ww = enc2 0x002C s 11 d 6 := ⟨_, rfl⟩
  rw [← eqn]
  simp only [enc2, enc1] at eqn
  refine ⟨by omega, by omega, ?_⟩
  have kA : bits ww 1 1 = 0 := bits_of (by omega)
  have kB : bits ww 2 4 = 11 := bits_of (by omega)
  simp [decodeParcel, kA, kB, fld_eq ww 11 s (by omega), fld_eq ww 6 d (by omega)]

theorem vmulB16Parcel (s : BitVec 5) (d : BitVec 5) : Statement (.vmulB16Parcel s d) := by
  refine of_parcel _ (enc2 0x0030 s 11 d 6) rfl ?_
  have hs := s.isLt
  have hd := d.isLt
  obtain ⟨ww, eqn⟩ : ∃ ww, ww = enc2 0x0030 s 11 d 6 := ⟨_, rfl⟩
  rw [← eqn]
  simp only [enc2, enc1] at eqn
  refine ⟨by omega, by omega, ?_⟩
  have kA : bits ww 1 1 = 0 := bits_of (by omega)
  have kB : bits ww 2 4 = 12 := bits_of (by omega)
  simp [decodeParcel, kA, kB, fld_eq ww 11 s (by omega), fld_eq ww 6 d (by omega)]

theorem vshlI32Parcel (s : BitVec 5) (d : BitVec 5) : Statement (.vshlI32Parcel s d) := by
  refine of_parcel _ (enc2 0x0034 s 11 d 6) rfl ?_
  have hs := s.isLt
  have hd := d.isLt
  obtain ⟨ww, eqn⟩ : ∃ ww, ww = enc2 0x0034 s 11 d 6 := ⟨_, rfl⟩
  rw [← eqn]
  simp only [enc2, enc1] at eqn
  refine ⟨by omega, by omega, ?_⟩
  have kA : bits ww 1 1 = 0 := bits_of (by omega)
  have kB : bits ww 2 4 = 13 := bits_of (by omega)
  simp [decodeParcel, kA, kB, fld_eq ww 11 s (by omega), fld_eq ww 6 d (by omega)]

theorem vsraI32Parcel (s : BitVec 5) (d : BitVec 5) : Statement (.vsraI32Parcel s d) := by
  refine of_parcel _ (enc2 0x0038 s 11 d 6) rfl ?_
  have hs := s.isLt
  have hd := d.isLt
  obtain ⟨ww, eqn⟩ : ∃ ww, ww = enc2 0x0038 s 11 d 6 := ⟨_, rfl⟩
  rw [← eqn]
  simp only [enc2, enc1] at eqn
  refine ⟨by omega, by omega, ?_⟩
  have kA : bits ww 1 1 = 0 := bits_of (by omega)
  have kB : bits ww 2 4 = 14 := bits_of (by omega)
  simp [decodeParcel, kA, kB, fld_eq ww 11 s (by omega), fld_eq ww 6 d (by omega)]

theorem vnegF32Parcel (s : BitVec 5) (d : BitVec 5) : Statement (.vnegF32Parcel s d) := by
  refine of_parcel _ (enc2 0x003C s 11 d 6) rfl ?_
  have hs := s.isLt
  have hd := d.isLt
  obtain ⟨ww, eqn⟩ : ∃ ww, ww = enc2 0x003C s 11 d 6 := ⟨_, rfl⟩
  rw [← eqn]
  simp only [enc2, enc1] at eqn
  refine ⟨by omega, by omega, ?_⟩
  have kA : bits ww 1 1 = 0 := bits_of (by omega)
  have kB : bits ww 2 4 = 15 := bits_of (by omega)
  simp [decodeParcel, kA, kB, fld_eq ww 11 s (by omega), fld_eq ww 6 d (by omega)]

theorem rpt (p : BitVec 1) (q : BitVec 1) (r : BitVec 1) (n : BitVec 6) : Statement (.rpt p q r n) := by
  refine of_parcel _ (enc4 0x0002 p 12 q 11 r 10 n 4) rfl ?_
  have hp := p.isLt
  have hq := q.isLt
  have hr := r.isLt
  have hn := n.isLt
  obtain ⟨ww, eqn⟩ : ∃ ww, ww = enc4 0x0002 p 12 q 11 r 10 n 4 := ⟨_, rfl⟩
  rw [← eqn]
  simp only [enc4, enc3, enc2, enc1] at eqn
  refine ⟨by omega, by omega, ?_⟩
  have kA : bits ww 1 1 = 1 := bits_of (by omega)
  have kB : bits ww 13 3 = 0 := bits_of (by omega)
  have kC : bits ww 2 2 = 0 := bits_of (by omega)
  simp [decodeParcel, kA, kB, kC, fld_eq ww 12 p (by omega), fld_eq ww 11 q (by omega), fld_eq ww 10 r (by omega), fld_eq ww 4 n (by omega)]

theorem nop16 : Statement .nop16 := by
  exact of_parcel _ 6 rfl ⟨rfl, by decide, rfl⟩

theorem send (b : BitVec 5) (a : BitVec 5) (n : BitVec 2) : Statement (.send b a n) := by
  refine of_word _ (enc3 0x00000039 b 17 a 12 n 7) rfl ?_
  obtain ⟨p, q, k0, k1, k2, e0, e1, e2⟩ := layout_17_5_12_5_7_2 b a n 57 (by decide) 0 (by decide) 0 (by decide) 0x00000039 rfl
  refine ⟨p, q, ?_⟩
  rw [word1C k0]
  simp [decMajor1C, k1, k2, e0, e1, e2]

theorem recv (n : BitVec 2) (a : BitVec 5) (d : BitVec 5) : Statement (.recv n a d) := by
  refine of_word _ (enc3 0x00400039 n 17 a 12 d 7) rfl ?_
  obtain ⟨p, q, k0, k1, k2, e0, e1, e2⟩ := layout_17_2_12_5_7_5 n a d 57 (by decide) 8 (by decide) 0x00400039 rfl
  refine ⟨p, q, ?_⟩
  rw [word1C k0]
  simp [decMajor1C, k1, k2, e0, e1, e2]

theorem recvn (n : BitVec 2) (a : BitVec 5) (d : BitVec 5) : Statement (.recvn n a d) := by
  refine of_word _ (enc3 0x00800039 n 17 a 12 d 7) rfl ?_
  obtain ⟨p, q, k0, k1, k2, e0, e1, e2⟩ := layout_17_2_12_5_7_5 n a d 57 (by decide) 16 (by decide) 0x00800039 rfl
  refine ⟨p, q, ?_⟩
  rw [word1C k0]
  simp [decMajor1C, k1, k2, e0, e1, e2]

theorem mon (a : BitVec 5) (n : BitVec 2) : Statement (.mon a n) := by
  refine of_word _ (enc2 0x00C00039 a 12 n 7) rfl ?_
  obtain ⟨p, q, k0, k1, k2, k3, k4, e0, e1⟩ := layout_12_5_7_2 a n 57 (by decide) 0 (by decide) 96 (by decide) 0x00C00039 rfl
  refine ⟨p, q, ?_⟩
  rw [word1C k0]
  simp [decMajor1C, k1, k2, k3, k4, e0, e1]

theorem monG (a : BitVec 5) (n : BitVec 2) : Statement (.monG a n) := by
  refine of_word _ (enc2 0x01000039 a 12 n 7) rfl ?_
  obtain ⟨p, q, k0, k1, k2, k3, k4, e0, e1⟩ := layout_12_5_7_2 a n 57 (by decide) 0 (by decide) 128 (by decide) 0x01000039 rfl
  refine ⟨p, q, ?_⟩
  rw [word1C k0]
  simp [decMajor1C, k1, k2, k3, k4, e0, e1]

theorem mwait (b : BitVec 5) (m : BitVec 4) (d : BitVec 5) : Statement (.mwait b m d) := by
  refine of_word _ (enc3 0x01400039 b 17 m 12 d 7) rfl ?_
  obtain ⟨p, q, k0, k1, k2, e0, e1, e2⟩ := layout_17_5_12_4_7_5 b m d 57 (by decide) 0 (by decide) 5 (by decide) 0x01400039 rfl
  refine ⟨p, q, ?_⟩
  rw [word1C k0]
  have hb := b.isLt
  have hm := m.isLt
  have hd := d.isLt
  have x0 : bits (enc3 0x01400039 b 17 m 12 d 7) 19 13 ≠ 8 := by simp only [bits, enc3, enc2, enc1]; omega
  have x1 : bits (enc3 0x01400039 b 17 m 12 d 7) 19 13 ≠ 16 := by simp only [bits, enc3, enc2, enc1]; omega
  have x2 : bits (enc3 0x01400039 b 17 m 12 d 7) 17 15 ≠ 96 := by simp only [bits, enc3, enc2, enc1]; omega
  have x3 : bits (enc3 0x01400039 b 17 m 12 d 7) 17 15 ≠ 128 := by simp only [bits, enc3, enc2, enc1]; omega
  simp [decMajor1C, k1, k2, x0, x1, x2, x3, e0, e1, e2]

theorem mclr (n : BitVec 2) : Statement (.mclr n) := by
  refine of_word _ (enc1 0x01800039 n 7) rfl ?_
  obtain ⟨p, q, k0, k1, k2, k3, k4, k5, k6, e0⟩ := layout_7_2 n 57 (by decide) 49152 (by decide) 0x01800039 rfl
  refine ⟨p, q, ?_⟩
  rw [word1C k0]
  simp [decMajor1C, k1, k2, k3, k4, k5, k6, e0]

theorem cntw (s : BitVec 3) (b : BitVec 5) (a : BitVec 5) : Statement (.cntw s b a) := by
  refine of_word _ (enc3 0x02000039 s 22 b 17 a 12) rfl ?_
  obtain ⟨p, q, k0, k1, k2, k3, e0, e1, e2⟩ := layout_22_3_17_5_12_5 s b a 57 (by decide) 1 (by decide) 0x02000039 rfl
  refine ⟨p, q, ?_⟩
  rw [word1C k0]
  have hs := s.isLt
  have hb := b.isLt
  have ha := a.isLt
  have x0 : bits (enc3 0x02000039 s 22 b 17 a 12) 22 10 ≠ 0 := by simp only [bits, enc3, enc2, enc1]; omega
  have x1 : bits (enc3 0x02000039 s 22 b 17 a 12) 19 13 ≠ 8 := by simp only [bits, enc3, enc2, enc1]; omega
  have x2 : bits (enc3 0x02000039 s 22 b 17 a 12) 19 13 ≠ 16 := by simp only [bits, enc3, enc2, enc1]; omega
  have x3 : bits (enc3 0x02000039 s 22 b 17 a 12) 17 15 ≠ 96 := by simp only [bits, enc3, enc2, enc1]; omega
  have x4 : bits (enc3 0x02000039 s 22 b 17 a 12) 17 15 ≠ 128 := by simp only [bits, enc3, enc2, enc1]; omega
  have x5 : bits (enc3 0x02000039 s 22 b 17 a 12) 22 10 ≠ 5 := by simp only [bits, enc3, enc2, enc1]; omega
  have x6 : bits (enc3 0x02000039 s 22 b 17 a 12) 9 23 ≠ 49152 := by simp only [bits, enc3, enc2, enc1]; omega
  simp [decMajor1C, k1, k2, k3, x0, x1, x2, x3, x4, x5, x6, e0, e1, e2]

theorem bar (b : BitVec 5) (a : BitVec 5) (d : BitVec 5) : Statement (.bar b a d) := by
  refine of_word _ (enc3 0x0000003B b 17 a 12 d 7) rfl ?_
  obtain ⟨p, q, k0, k1, e0, e1, e2⟩ := layout_17_5_12_5_7_5 b a d 59 (by decide) 0 (by decide) 0x0000003B rfl
  refine ⟨p, q, ?_⟩
  rw [word1D k0]
  simp [decMajor1D, k1, e0, e1, e2]

theorem bara (b : BitVec 5) (a : BitVec 5) (d : BitVec 5) : Statement (.bara b a d) := by
  refine of_word _ (enc3 0x0040003B b 17 a 12 d 7) rfl ?_
  obtain ⟨p, q, k0, k1, e0, e1, e2⟩ := layout_17_5_12_5_7_5 b a d 59 (by decide) 1 (by decide) 0x0040003B rfl
  refine ⟨p, q, ?_⟩
  rw [word1D k0]
  simp [decMajor1D, k1, e0, e1, e2]

theorem barw (a : BitVec 5) (d : BitVec 5) : Statement (.barw a d) := by
  refine of_word _ (enc2 0x0080003B a 12 d 7) rfl ?_
  obtain ⟨p, q, k0, k1, k2, k3, k4, k5, k6, e0, e1⟩ := layout_12_5_7_5 a d 59 (by decide) 64 (by decide) 0x0080003B rfl
  refine ⟨p, q, ?_⟩
  rw [word1D k0]
  simp [decMajor1D, k3, k5, e0, e1]

theorem ibx (a : BitVec 5) (d : BitVec 5) : Statement (.ibx a d) := by
  refine of_word _ (enc2 0x0000003D a 12 d 7) rfl ?_
  obtain ⟨p, q, k0, k1, k2, k3, k4, k5, k6, e0, e1⟩ := layout_12_5_7_5 a d 61 (by decide) 0 (by decide) 0x0000003D rfl
  refine ⟨p, q, ?_⟩
  rw [word1E k0]
  simp [decMajor1E, k3, e0, e1]

theorem ibxn (a : BitVec 5) (d : BitVec 5) : Statement (.ibxn a d) := by
  refine of_word _ (enc2 0x0040003D a 12 d 7) rfl ?_
  obtain ⟨p, q, k0, k1, k2, k3, k4, k5, k6, e0, e1⟩ := layout_12_5_7_5 a d 61 (by decide) 32 (by decide) 0x0040003D rfl
  refine ⟨p, q, ?_⟩
  rw [word1E k0]
  simp [decMajor1E, k3, e0, e1]

theorem uien (a : BitVec 5) (d : BitVec 5) : Statement (.uien a d) := by
  refine of_word _ (enc2 0x0080003D a 12 d 7) rfl ?_
  obtain ⟨p, q, k0, k1, k2, k3, k4, k5, k6, e0, e1⟩ := layout_12_5_7_5 a d 61 (by decide) 64 (by decide) 0x0080003D rfl
  refine ⟨p, q, ?_⟩
  rw [word1E k0]
  simp [decMajor1E, k3, e0, e1]

theorem uiret : Statement .uiret := by
  exact of_word _ 0x00C0003D rfl ⟨rfl, by decide, by decide⟩

theorem tstart (b : BitVec 5) (a : BitVec 5) (d : BitVec 5) : Statement (.tstart b a d) := by
  refine of_word _ (enc3 0x0000003F b 17 a 12 d 7) rfl ?_
  obtain ⟨p, q, k0, k1, e0, e1, e2⟩ := layout_17_5_12_5_7_5 b a d 63 (by decide) 0 (by decide) 0x0000003F rfl
  refine ⟨p, q, ?_⟩
  rw [word1F k0]
  simp [decMajor1F, k1, e0, e1, e2]

theorem texit : Statement .texit := by
  exact of_word _ 0x0040003F rfl ⟨rfl, by decide, by decide⟩

theorem yield : Statement .yield := by
  exact of_word _ 0x0080003F rfl ⟨rfl, by decide, by decide⟩

theorem gang (b : BitVec 5) (d : BitVec 5) : Statement (.gang b d) := by
  refine of_word _ (enc2 0x00C0003F b 17 d 7) rfl ?_
  obtain ⟨p, q, k0, k1, k2, e0, e1⟩ := layout_17_5_7_5 b d 63 (by decide) 0 (by decide) 3 (by decide) 0x00C0003F rfl
  refine ⟨p, q, ?_⟩
  rw [word1F k0]
  have hb := b.isLt
  have hd := d.isLt
  have x0 : bits (enc2 0x00C0003F b 17 d 7) 7 25 ≠ 32768 := by simp only [bits, enc2, enc1]; omega
  have x1 : bits (enc2 0x00C0003F b 17 d 7) 7 25 ≠ 65536 := by simp only [bits, enc2, enc1]; omega
  simp [decMajor1F, k1, k2, x0, x1, e0, e1]

theorem ungang : Statement .ungang := by
  exact of_word _ 0x0100003F rfl ⟨rfl, by decide, by decide⟩

theorem draw (t : BitVec 8) (a : BitVec 5) (d : BitVec 5) : Statement (.draw t a d) := by
  refine of_word _ (enc3 0x00000041 t 22 a 12 d 7) rfl ?_
  obtain ⟨p, q, k0, k1, k2, e0, e1, e2⟩ := layout_22_8_12_5_7_5 t a d 65 (by decide) 0 (by decide) 0 (by decide) 0x00000041 rfl
  refine ⟨p, q, ?_⟩
  rw [word20 k0]
  simp [decMajor20, k1, k2, e0, e1, e2]

theorem dcan (a : BitVec 5) : Statement (.dcan a) := by
  refine of_word _ (enc1 0x40000041 a 12) rfl ?_
  obtain ⟨p, q, k0, k1, k2, k3, k4, k5, e0⟩ := layout_12_5 a 65 (by decide) 8192 (by decide) 0x40000041 rfl
  refine ⟨p, q, ?_⟩
  rw [word20 k0]
  simp [decMajor20, k1, k2, k3, k5, e0]

theorem dstat (a : BitVec 5) (d : BitVec 5) : Statement (.dstat a d) := by
  refine of_word _ (enc2 0x80000041 a 12 d 7) rfl ?_
  obtain ⟨p, q, k0, k1, k2, k3, k4, k5, k6, e0, e1⟩ := layout_12_5_7_5 a d 65 (by decide) 16384 (by decide) 0x80000041 rfl
  refine ⟨p, q, ?_⟩
  rw [word20 k0]
  simp [decMajor20, k1, k3, k6, e0, e1]

theorem bdone : Statement .bdone := by
  exact of_word _ 0xC0000041 rfl ⟨rfl, by decide, by decide⟩

theorem tdef (t : BitVec 8) (a : BitVec 5) : Statement (.tdef t a) := by
  refine of_word _ (enc2 0x00000043 t 22 a 12) rfl ?_
  obtain ⟨p, q, k0, k1, k2, k3, e0, e1⟩ := layout_22_8_12_5 t a 67 (by decide) 0 (by decide) 0 (by decide) 0x00000043 rfl
  refine ⟨p, q, ?_⟩
  rw [word21 k0]
  simp [decMajor21, k1, k2, k3, e0, e1]

theorem tinv (t : BitVec 8) : Statement (.tinv t) := by
  refine of_word _ (enc1 0x40000043 t 22) rfl ?_
  obtain ⟨p, q, k0, k1, k2, k3, k4, e0⟩ := layout_22_8 t 67 (by decide) 1 (by decide) 0x40000043 rfl
  refine ⟨p, q, ?_⟩
  rw [word21 k0]
  simp [decMajor21, k1, k2, k3, k4, e0]

theorem tqry (t : BitVec 8) (b : BitVec 5) (d : BitVec 5) : Statement (.tqry t b d) := by
  refine of_word _ (enc3 0x80000043 t 22 b 17 d 7) rfl ?_
  obtain ⟨p, q, k0, k1, k2, e0, e1, e2⟩ := layout_22_8_17_5_7_5 t b d 67 (by decide) 0 (by decide) 2 (by decide) 0x80000043 rfl
  refine ⟨p, q, ?_⟩
  rw [word21 k0]
  simp [decMajor21, k1, k2, e0, e1, e2]

theorem qld (a : BitVec 5) (n : BitVec 2) : Statement (.qld a n) := by
  refine of_word _ (enc2 0x00000029 a 12 n 7) rfl ?_
  obtain ⟨p, q, k0, k1, k2, k3, k4, e0, e1⟩ := layout_12_5_7_2 a n 41 (by decide) 0 (by decide) 0 (by decide) 0x00000029 rfl
  refine ⟨p, q, ?_⟩
  rw [word14 k0]
  simp [decMajor14, k1, k2, e0, e1]

theorem qst (a : BitVec 5) (n : BitVec 2) : Statement (.qst a n) := by
  refine of_word _ (enc2 0x00400029 a 12 n 7) rfl ?_
  obtain ⟨p, q, k0, k1, k2, k3, k4, e0, e1⟩ := layout_12_5_7_2 a n 41 (by decide) 0 (by decide) 32 (by decide) 0x00400029 rfl
  refine ⟨p, q, ?_⟩
  rw [word14 k0]
  simp [decMajor14, k1, k2, e0, e1]

theorem qpx (b : BitVec 5) (a : BitVec 5) (n : BitVec 2) : Statement (.qpx b a n) := by
  refine of_word _ (enc3 0x00800029 b 17 a 12 n 7) rfl ?_
  obtain ⟨p, q, k0, k1, k2, e0, e1, e2⟩ := layout_17_5_12_5_7_2 b a n 41 (by decide) 0 (by decide) 2 (by decide) 0x00800029 rfl
  refine ⟨p, q, ?_⟩
  rw [word14 k0]
  have hb := b.isLt
  have ha := a.isLt
  have hn := n.isLt
  have x0 : bits (enc3 0x00800029 b 17 a 12 n 7) 17 15 ≠ 0 := by simp only [bits, enc3, enc2, enc1]; omega
  have x1 : bits (enc3 0x00800029 b 17 a 12 n 7) 17 15 ≠ 32 := by simp only [bits, enc3, enc2, enc1]; omega
  simp [decMajor14, k1, k2, x0, x1, e0, e1, e2]

theorem vadd (t : BitVec 3) (b : BitVec 5) (a : BitVec 5) (d : BitVec 5) : Statement (.vadd t b a d) := by
  refine of_word _ (enc4 0x00000049 t 29 b 17 a 12 d 7) rfl ?_
  obtain ⟨p, q, k0, k1, k2, e0, e1, e2, e3⟩ := layout_29_3_17_5_12_5_7_5 t b a d 73 (by decide) 0 (by decide) 0x00000049 rfl
  refine ⟨p, q, ?_⟩
  rw [word24 k0]
  simp [decMajor24, k1, e0, e1, e2, e3]

theorem vsub (t : BitVec 3) (b : BitVec 5) (a : BitVec 5) (d : BitVec 5) : Statement (.vsub t b a d) := by
  refine of_word _ (enc4 0x00400049 t 29 b 17 a 12 d 7) rfl ?_
  obtain ⟨p, q, k0, k1, k2, e0, e1, e2, e3⟩ := layout_29_3_17_5_12_5_7_5 t b a d 73 (by decide) 1 (by decide) 0x00400049 rfl
  refine ⟨p, q, ?_⟩
  rw [word24 k0]
  simp [decMajor24, k1, e0, e1, e2, e3]

theorem vmul (t : BitVec 3) (b : BitVec 5) (a : BitVec 5) (d : BitVec 5) : Statement (.vmul t b a d) := by
  refine of_word _ (enc4 0x00800049 t 29 b 17 a 12 d 7) rfl ?_
  obtain ⟨p, q, k0, k1, k2, e0, e1, e2, e3⟩ := layout_29_3_17_5_12_5_7_5 t b a d 73 (by decide) 2 (by decide) 0x00800049 rfl
  refine ⟨p, q, ?_⟩
  rw [word24 k0]
  simp [decMajor24, k1, e0, e1, e2, e3]

theorem vfma (t : BitVec 3) (b : BitVec 5) (a : BitVec 5) (d : BitVec 5) : Statement (.vfma t b a d) := by
  refine of_word _ (enc4 0x00C00049 t 29 b 17 a 12 d 7) rfl ?_
  obtain ⟨p, q, k0, k1, k2, e0, e1, e2, e3⟩ := layout_29_3_17_5_12_5_7_5 t b a d 73 (by decide) 3 (by decide) 0x00C00049 rfl
  refine ⟨p, q, ?_⟩
  rw [word24 k0]
  simp [decMajor24, k1, e0, e1, e2, e3]

theorem vfms (t : BitVec 3) (b : BitVec 5) (a : BitVec 5) (d : BitVec 5) : Statement (.vfms t b a d) := by
  refine of_word _ (enc4 0x01000049 t 29 b 17 a 12 d 7) rfl ?_
  obtain ⟨p, q, k0, k1, k2, e0, e1, e2, e3⟩ := layout_29_3_17_5_12_5_7_5 t b a d 73 (by decide) 4 (by decide) 0x01000049 rfl
  refine ⟨p, q, ?_⟩
  rw [word24 k0]
  simp [decMajor24, k1, e0, e1, e2, e3]

theorem vmin (t : BitVec 3) (b : BitVec 5) (a : BitVec 5) (d : BitVec 5) : Statement (.vmin t b a d) := by
  refine of_word _ (enc4 0x01400049 t 29 b 17 a 12 d 7) rfl ?_
  obtain ⟨p, q, k0, k1, k2, e0, e1, e2, e3⟩ := layout_29_3_17_5_12_5_7_5 t b a d 73 (by decide) 5 (by decide) 0x01400049 rfl
  refine ⟨p, q, ?_⟩
  rw [word24 k0]
  simp [decMajor24, k1, e0, e1, e2, e3]

theorem vminN (t : BitVec 3) (b : BitVec 5) (a : BitVec 5) (d : BitVec 5) : Statement (.vminN t b a d) := by
  refine of_word _ (enc4 0x11400049 t 29 b 17 a 12 d 7) rfl ?_
  obtain ⟨p, q, k0, k1, k2, e0, e1, e2, e3⟩ := layout_29_3_17_5_12_5_7_5 t b a d 73 (by decide) 69 (by decide) 0x11400049 rfl
  refine ⟨p, q, ?_⟩
  rw [word24 k0]
  simp [decMajor24, k1, e0, e1, e2, e3]

theorem vmax (t : BitVec 3) (b : BitVec 5) (a : BitVec 5) (d : BitVec 5) : Statement (.vmax t b a d) := by
  refine of_word _ (enc4 0x01800049 t 29 b 17 a 12 d 7) rfl ?_
  obtain ⟨p, q, k0, k1, k2, e0, e1, e2, e3⟩ := layout_29_3_17_5_12_5_7_5 t b a d 73 (by decide) 6 (by decide) 0x01800049 rfl
  refine ⟨p, q, ?_⟩
  rw [word24 k0]
  simp [decMajor24, k1, e0, e1, e2, e3]

theorem vmaxN (t : BitVec 3) (b : BitVec 5) (a : BitVec 5) (d : BitVec 5) : Statement (.vmaxN t b a d) := by
  refine of_word _ (enc4 0x11800049 t 29 b 17 a 12 d 7) rfl ?_
  obtain ⟨p, q, k0, k1, k2, e0, e1, e2, e3⟩ := layout_29_3_17_5_12_5_7_5 t b a d 73 (by decide) 70 (by decide) 0x11800049 rfl
  refine ⟨p, q, ?_⟩
  rw [word24 k0]
  simp [decMajor24, k1, e0, e1, e2, e3]

theorem vabs (t : BitVec 3) (a : BitVec 5) (d : BitVec 5) : Statement (.vabs t a d) := by
  refine of_word _ (enc3 0x01C00049 t 29 a 12 d 7) rfl ?_
  obtain ⟨p, q, k0, k1, k2, e0, e1, e2⟩ := layout_29_3_12_5_7_5 t a d 73 (by decide) 224 (by decide) 0x01C00049 rfl
  refine ⟨p, q, ?_⟩
  rw [word24 k0]
  simp [decMajor24, k1, k2, e0, e1, e2]

theorem vneg (t : BitVec 3) (a : BitVec 5) (d : BitVec 5) : Statement (.vneg t a d) := by
  refine of_word _ (enc3 0x02000049 t 29 a 12 d 7) rfl ?_
  obtain ⟨p, q, k0, k1, k2, e0, e1, e2⟩ := layout_29_3_12_5_7_5 t a d 73 (by decide) 256 (by decide) 0x02000049 rfl
  refine ⟨p, q, ?_⟩
  rw [word24 k0]
  simp [decMajor24, k1, k2, e0, e1, e2]

theorem vand (t : BitVec 3) (b : BitVec 5) (a : BitVec 5) (d : BitVec 5) : Statement (.vand t b a d) := by
  refine of_word _ (enc4 0x0000004B t 29 b 17 a 12 d 7) rfl ?_
  obtain ⟨p, q, k0, k1, k2, e0, e1, e2, e3⟩ := layout_29_3_17_5_12_5_7_5 t b a d 75 (by decide) 0 (by decide) 0x0000004B rfl
  refine ⟨p, q, ?_⟩
  rw [word25 k0]
  simp [decMajor25, k1, e0, e1, e2, e3]

theorem vor (t : BitVec 3) (b : BitVec 5) (a : BitVec 5) (d : BitVec 5) : Statement (.vor t b a d) := by
  refine of_word _ (enc4 0x0040004B t 29 b 17 a 12 d 7) rfl ?_
  obtain ⟨p, q, k0, k1, k2, e0, e1, e2, e3⟩ := layout_29_3_17_5_12_5_7_5 t b a d 75 (by decide) 1 (by decide) 0x0040004B rfl
  refine ⟨p, q, ?_⟩
  rw [word25 k0]
  simp [decMajor25, k1, e0, e1, e2, e3]

theorem vxor (t : BitVec 3) (b : BitVec 5) (a : BitVec 5) (d : BitVec 5) : Statement (.vxor t b a d) := by
  refine of_word _ (enc4 0x0080004B t 29 b 17 a 12 d 7) rfl ?_
  obtain ⟨p, q, k0, k1, k2, e0, e1, e2, e3⟩ := layout_29_3_17_5_12_5_7_5 t b a d 75 (by decide) 2 (by decide) 0x0080004B rfl
  refine ⟨p, q, ?_⟩
  rw [word25 k0]
  simp [decMajor25, k1, e0, e1, e2, e3]

theorem vnot (t : BitVec 3) (a : BitVec 5) (d : BitVec 5) : Statement (.vnot t a d) := by
  refine of_word _ (enc3 0x00C0004B t 29 a 12 d 7) rfl ?_
  obtain ⟨p, q, k0, k1, k2, e0, e1, e2⟩ := layout_29_3_12_5_7_5 t a d 75 (by decide) 96 (by decide) 0x00C0004B rfl
  refine ⟨p, q, ?_⟩
  rw [word25 k0]
  simp [decMajor25, k1, k2, e0, e1, e2]

theorem vshl (t : BitVec 3) (b : BitVec 5) (a : BitVec 5) (d : BitVec 5) : Statement (.vshl t b a d) := by
  refine of_word _ (enc4 0x0100004B t 29 b 17 a 12 d 7) rfl ?_
  obtain ⟨p, q, k0, k1, k2, e0, e1, e2, e3⟩ := layout_29_3_17_5_12_5_7_5 t b a d 75 (by decide) 4 (by decide) 0x0100004B rfl
  refine ⟨p, q, ?_⟩
  rw [word25 k0]
  have ht := t.isLt
  have hb := b.isLt
  have ha := a.isLt
  have hd := d.isLt
  have x0 : bits (enc4 0x0100004B t 29 b 17 a 12 d 7) 17 12 ≠ 96 := by simp only [bits, enc4, enc3, enc2, enc1]; omega
  simp [decMajor25, k1, x0, e0, e1, e2, e3]

theorem vshr (t : BitVec 3) (b : BitVec 5) (a : BitVec 5) (d : BitVec 5) : Statement (.vshr t b a d) := by
  refine of_word _ (enc4 0x0140004B t 29 b 17 a 12 d 7) rfl ?_
  obtain ⟨p, q, k0, k1, k2, e0, e1, e2, e3⟩ := layout_29_3_17_5_12_5_7_5 t b a d 75 (by decide) 5 (by decide) 0x0140004B rfl
  refine ⟨p, q, ?_⟩
  rw [word25 k0]
  have ht := t.isLt
  have hb := b.isLt
  have ha := a.isLt
  have hd := d.isLt
  have x0 : bits (enc4 0x0140004B t 29 b 17 a 12 d 7) 17 12 ≠ 96 := by simp only [bits, enc4, enc3, enc2, enc1]; omega
  simp [decMajor25, k1, x0, e0, e1, e2, e3]

theorem vsra (t : BitVec 3) (b : BitVec 5) (a : BitVec 5) (d : BitVec 5) : Statement (.vsra t b a d) := by
  refine of_word _ (enc4 0x0180004B t 29 b 17 a 12 d 7) rfl ?_
  obtain ⟨p, q, k0, k1, k2, e0, e1, e2, e3⟩ := layout_29_3_17_5_12_5_7_5 t b a d 75 (by decide) 6 (by decide) 0x0180004B rfl
  refine ⟨p, q, ?_⟩
  rw [word25 k0]
  have ht := t.isLt
  have hb := b.isLt
  have ha := a.isLt
  have hd := d.isLt
  have x0 : bits (enc4 0x0180004B t 29 b 17 a 12 d 7) 17 12 ≠ 96 := by simp only [bits, enc4, enc3, enc2, enc1]; omega
  simp [decMajor25, k1, x0, e0, e1, e2, e3]

theorem vcmp (t : BitVec 3) (c : BitVec 3) (b : BitVec 5) (a : BitVec 5) (d : BitVec 5) : Statement (.vcmp t c b a d) := by
  refine of_word _ (enc5 0x0000004D t 29 c 22 b 17 a 12 d 7) rfl ?_
  obtain ⟨p, q, k0, k1, e0, e1, e2, e3, e4⟩ := layout_29_3_22_3_17_5_12_5_7_5 t c b a d 77 (by decide) 0 (by decide) 0x0000004D rfl
  refine ⟨p, q, ?_⟩
  rw [word26 k0]
  simp [decMajor26, k1, e0, e1, e2, e3, e4]

theorem vsel (t : BitVec 3) (b : BitVec 5) (a : BitVec 5) (d : BitVec 5) : Statement (.vsel t b a d) := by
  refine of_word _ (enc4 0x0200004D t 29 b 17 a 12 d 7) rfl ?_
  obtain ⟨p, q, k0, k1, k2, e0, e1, e2, e3⟩ := layout_29_3_17_5_12_5_7_5 t b a d 77 (by decide) 8 (by decide) 0x0200004D rfl
  refine ⟨p, q, ?_⟩
  rw [word26 k0]
  simp [decMajor26, k1, k2, e0, e1, e2, e3]

theorem vcvt (t : BitVec 3) (n : BitVec 1) (s : BitVec 4) (p : BitVec 5) (a : BitVec 5) (d : BitVec 5) : Statement (.vcvt t n s p a d) := by
  refine of_word _ (enc6 0x0000004F t 29 n 26 s 22 p 17 a 12 d 7) rfl ?_
  obtain ⟨p, q, k0, k1, e0, e1, e2, e3, e4, e5⟩ := layout_29_3_26_1_22_4_17_5_12_5_7_5 t n s p a d 79 (by decide) 0 (by decide) 0x0000004F rfl
  refine ⟨p, q, ?_⟩
  rw [word27 k0]
  simp [decMajor27, k1, e0, e1, e2, e3, e4, e5]

theorem vqnt (t : BitVec 3) (n : BitVec 1) (p : BitVec 2) (b : BitVec 5) (a : BitVec 5) (d : BitVec 5) : Statement (.vqnt t n p b a d) := by
  refine of_word _ (enc6 0x0800004F t 29 n 26 p 24 b 17 a 12 d 7) rfl ?_
  obtain ⟨p, q, k0, k1, k2, e0, e1, e2, e3, e4, e5⟩ := layout_29_3_26_1_24_2_17_5_12_5_7_5 t n p b a d 79 (by decide) 0 (by decide) 1 (by decide) 0x0800004F rfl
  refine ⟨p, q, ?_⟩
  rw [word27 k0]
  simp [decMajor27, k1, k2, e0, e1, e2, e3, e4, e5]

theorem vdq (p : BitVec 3) (s : BitVec 2) (b : BitVec 5) (a : BitVec 5) (d : BitVec 5) : Statement (.vdq p s b a d) := by
  refine of_word _ (enc5 0x1000004F p 24 s 22 b 17 a 12 d 7) rfl ?_
  obtain ⟨p, q, k0, k1, k2, e0, e1, e2, e3, e4⟩ := layout_24_3_22_2_17_5_12_5_7_5 p s b a d 79 (by decide) 2 (by decide) 0x1000004F rfl
  refine ⟨p, q, ?_⟩
  rw [word27 k0]
  simp [decMajor27, k1, k2, e0, e1, e2, e3, e4]

theorem vbcast (t : BitVec 3) (a : BitVec 5) (d : BitVec 5) : Statement (.vbcast t a d) := by
  refine of_word _ (enc3 0x00000051 t 29 a 12 d 7) rfl ?_
  obtain ⟨p, q, k0, k1, k2, e0, e1, e2⟩ := layout_29_3_12_5_7_5 t a d 81 (by decide) 0 (by decide) 0x00000051 rfl
  refine ⟨p, q, ?_⟩
  rw [word28 k0]
  simp [decMajor28, k1, e0, e1, e2]

theorem vext (t : BitVec 3) (b : BitVec 5) (a : BitVec 5) (d : BitVec 5) : Statement (.vext t b a d) := by
  refine of_word _ (enc4 0x00400051 t 29 b 17 a 12 d 7) rfl ?_
  obtain ⟨p, q, k0, k1, k2, e0, e1, e2, e3⟩ := layout_29_3_17_5_12_5_7_5 t b a d 81 (by decide) 1 (by decide) 0x00400051 rfl
  refine ⟨p, q, ?_⟩
  rw [word28 k0]
  have ht := t.isLt
  have hb := b.isLt
  have ha := a.isLt
  have hd := d.isLt
  have x0 : bits (enc4 0x00400051 t 29 b 17 a 12 d 7) 17 12 ≠ 0 := by simp only [bits, enc4, enc3, enc2, enc1]; omega
  simp [decMajor28, k1, x0, e0, e1, e2, e3]

theorem vextN (t : BitVec 3) (b : BitVec 5) (a : BitVec 5) (d : BitVec 5) : Statement (.vextN t b a d) := by
  refine of_word _ (enc4 0x10400051 t 29 b 17 a 12 d 7) rfl ?_
  obtain ⟨p, q, k0, k1, k2, e0, e1, e2, e3⟩ := layout_29_3_17_5_12_5_7_5 t b a d 81 (by decide) 65 (by decide) 0x10400051 rfl
  refine ⟨p, q, ?_⟩
  rw [word28 k0]
  have ht := t.isLt
  have hb := b.isLt
  have ha := a.isLt
  have hd := d.isLt
  have x0 : bits (enc4 0x10400051 t 29 b 17 a 12 d 7) 17 12 ≠ 0 := by simp only [bits, enc4, enc3, enc2, enc1]; omega
  simp [decMajor28, k1, x0, e0, e1, e2, e3]

theorem vins (t : BitVec 3) (b : BitVec 5) (a : BitVec 5) (d : BitVec 5) : Statement (.vins t b a d) := by
  refine of_word _ (enc4 0x00800051 t 29 b 17 a 12 d 7) rfl ?_
  obtain ⟨p, q, k0, k1, k2, e0, e1, e2, e3⟩ := layout_29_3_17_5_12_5_7_5 t b a d 81 (by decide) 2 (by decide) 0x00800051 rfl
  refine ⟨p, q, ?_⟩
  rw [word28 k0]
  have ht := t.isLt
  have hb := b.isLt
  have ha := a.isLt
  have hd := d.isLt
  have x0 : bits (enc4 0x00800051 t 29 b 17 a 12 d 7) 17 12 ≠ 0 := by simp only [bits, enc4, enc3, enc2, enc1]; omega
  simp [decMajor28, k1, x0, e0, e1, e2, e3]

theorem vperm (t : BitVec 3) (b : BitVec 5) (a : BitVec 5) (d : BitVec 5) : Statement (.vperm t b a d) := by
  refine of_word _ (enc4 0x00C00051 t 29 b 17 a 12 d 7) rfl ?_
  obtain ⟨p, q, k0, k1, k2, e0, e1, e2, e3⟩ := layout_29_3_17_5_12_5_7_5 t b a d 81 (by decide) 3 (by decide) 0x00C00051 rfl
  refine ⟨p, q, ?_⟩
  rw [word28 k0]
  have ht := t.isLt
  have hb := b.isLt
  have ha := a.isLt
  have hd := d.isLt
  have x0 : bits (enc4 0x00C00051 t 29 b 17 a 12 d 7) 17 12 ≠ 0 := by simp only [bits, enc4, enc3, enc2, enc1]; omega
  simp [decMajor28, k1, x0, e0, e1, e2, e3]

theorem vslide (t : BitVec 3) (b : BitVec 5) (a : BitVec 5) (d : BitVec 5) : Statement (.vslide t b a d) := by
  refine of_word _ (enc4 0x01000051 t 29 b 17 a 12 d 7) rfl ?_
  obtain ⟨p, q, k0, k1, k2, e0, e1, e2, e3⟩ := layout_29_3_17_5_12_5_7_5 t b a d 81 (by decide) 4 (by decide) 0x01000051 rfl
  refine ⟨p, q, ?_⟩
  rw [word28 k0]
  have ht := t.isLt
  have hb := b.isLt
  have ha := a.isLt
  have hd := d.isLt
  have x0 : bits (enc4 0x01000051 t 29 b 17 a 12 d 7) 17 12 ≠ 0 := by simp only [bits, enc4, enc3, enc2, enc1]; omega
  simp [decMajor28, k1, x0, e0, e1, e2, e3]

theorem viota (t : BitVec 3) (d : BitVec 5) : Statement (.viota t d) := by
  refine of_word _ (enc2 0x01400051 t 29 d 7) rfl ?_
  obtain ⟨p, q, k0, k1, k2, k3, e0, e1⟩ := layout_29_3_7_5 t d 81 (by decide) 5120 (by decide) 0x01400051 rfl
  refine ⟨p, q, ?_⟩
  rw [word28 k0]
  simp [decMajor28, k1, k2, k3, e0, e1]

theorem vmovi (t : BitVec 3) (i : BitVec 10) (d : BitVec 5) : Statement (.vmovi t i d) := by
  refine of_word _ (enc3 0x01800051 t 29 i 12 d 7) rfl ?_
  obtain ⟨p, q, k0, k1, e0, e1, e2⟩ := layout_29_3_12_10_7_5 t i d 81 (by decide) 6 (by decide) 0x01800051 rfl
  refine ⟨p, q, ?_⟩
  rw [word28 k0]
  have ht := t.isLt
  have hi := i.isLt
  have hd := d.isLt
  have x0 : bits (enc3 0x01800051 t 29 i 12 d 7) 17 12 ≠ 0 := by simp only [bits, enc3, enc2, enc1]; omega
  have x1 : bits (enc3 0x01800051 t 29 i 12 d 7) 12 17 ≠ 5120 := by simp only [bits, enc3, enc2, enc1]; omega
  simp [decMajor28, k1, x0, x1, e0, e1, e2]

theorem vrsum (t : BitVec 3) (a : BitVec 5) (d : BitVec 5) : Statement (.vrsum t a d) := by
  refine of_word _ (enc3 0x00000053 t 29 a 12 d 7) rfl ?_
  obtain ⟨p, q, k0, k1, k2, e0, e1, e2⟩ := layout_29_3_12_5_7_5 t a d 83 (by decide) 0 (by decide) 0x00000053 rfl
  refine ⟨p, q, ?_⟩
  rw [word29 k0]
  simp [decMajor29, k1, e0, e1, e2]

theorem vrmax (t : BitVec 3) (a : BitVec 5) (d : BitVec 5) : Statement (.vrmax t a d) := by
  refine of_word _ (enc3 0x00400053 t 29 a 12 d 7) rfl ?_
  obtain ⟨p, q, k0, k1, k2, e0, e1, e2⟩ := layout_29_3_12_5_7_5 t a d 83 (by decide) 32 (by decide) 0x00400053 rfl
  refine ⟨p, q, ?_⟩
  rw [word29 k0]
  simp [decMajor29, k1, e0, e1, e2]

theorem vrmaxN (t : BitVec 3) (a : BitVec 5) (d : BitVec 5) : Statement (.vrmaxN t a d) := by
  refine of_word _ (enc3 0x10400053 t 29 a 12 d 7) rfl ?_
  obtain ⟨p, q, k0, k1, k2, e0, e1, e2⟩ := layout_29_3_12_5_7_5 t a d 83 (by decide) 2080 (by decide) 0x10400053 rfl
  refine ⟨p, q, ?_⟩
  rw [word29 k0]
  simp [decMajor29, k1, e0, e1, e2]

theorem vrmin (t : BitVec 3) (a : BitVec 5) (d : BitVec 5) : Statement (.vrmin t a d) := by
  refine of_word _ (enc3 0x00800053 t 29 a 12 d 7) rfl ?_
  obtain ⟨p, q, k0, k1, k2, e0, e1, e2⟩ := layout_29_3_12_5_7_5 t a d 83 (by decide) 64 (by decide) 0x00800053 rfl
  refine ⟨p, q, ?_⟩
  rw [word29 k0]
  simp [decMajor29, k1, e0, e1, e2]

theorem vrminN (t : BitVec 3) (a : BitVec 5) (d : BitVec 5) : Statement (.vrminN t a d) := by
  refine of_word _ (enc3 0x10800053 t 29 a 12 d 7) rfl ?_
  obtain ⟨p, q, k0, k1, k2, e0, e1, e2⟩ := layout_29_3_12_5_7_5 t a d 83 (by decide) 2112 (by decide) 0x10800053 rfl
  refine ⟨p, q, ?_⟩
  rw [word29 k0]
  simp [decMajor29, k1, e0, e1, e2]

theorem vtopk (t : BitVec 3) (k : BitVec 5) (a : BitVec 5) (d : BitVec 5) : Statement (.vtopk t k a d) := by
  refine of_word _ (enc4 0x00C00053 t 29 k 17 a 12 d 7) rfl ?_
  obtain ⟨p, q, k0, k1, k2, e0, e1, e2, e3⟩ := layout_29_3_17_5_12_5_7_5 t k a d 83 (by decide) 3 (by decide) 0x00C00053 rfl
  refine ⟨p, q, ?_⟩
  rw [word29 k0]
  have ht := t.isLt
  have hk := k.isLt
  have ha := a.isLt
  have hd := d.isLt
  have x0 : bits (enc4 0x00C00053 t 29 k 17 a 12 d 7) 17 12 ≠ 0 := by simp only [bits, enc4, enc3, enc2, enc1]; omega
  have x1 : bits (enc4 0x00C00053 t 29 k 17 a 12 d 7) 17 12 ≠ 32 := by simp only [bits, enc4, enc3, enc2, enc1]; omega
  have x2 : bits (enc4 0x00C00053 t 29 k 17 a 12 d 7) 17 12 ≠ 2080 := by simp only [bits, enc4, enc3, enc2, enc1]; omega
  have x3 : bits (enc4 0x00C00053 t 29 k 17 a 12 d 7) 17 12 ≠ 64 := by simp only [bits, enc4, enc3, enc2, enc1]; omega
  have x4 : bits (enc4 0x00C00053 t 29 k 17 a 12 d 7) 17 12 ≠ 2112 := by simp only [bits, enc4, enc3, enc2, enc1]; omega
  simp [decMajor29, k1, x0, x1, x2, x3, x4, e0, e1, e2, e3]

theorem vtopkN (t : BitVec 3) (k : BitVec 5) (a : BitVec 5) (d : BitVec 5) : Statement (.vtopkN t k a d) := by
  refine of_word _ (enc4 0x10C00053 t 29 k 17 a 12 d 7) rfl ?_
  obtain ⟨p, q, k0, k1, k2, e0, e1, e2, e3⟩ := layout_29_3_17_5_12_5_7_5 t k a d 83 (by decide) 67 (by decide) 0x10C00053 rfl
  refine ⟨p, q, ?_⟩
  rw [word29 k0]
  have ht := t.isLt
  have hk := k.isLt
  have ha := a.isLt
  have hd := d.isLt
  have x0 : bits (enc4 0x10C00053 t 29 k 17 a 12 d 7) 17 12 ≠ 0 := by simp only [bits, enc4, enc3, enc2, enc1]; omega
  have x1 : bits (enc4 0x10C00053 t 29 k 17 a 12 d 7) 17 12 ≠ 32 := by simp only [bits, enc4, enc3, enc2, enc1]; omega
  have x2 : bits (enc4 0x10C00053 t 29 k 17 a 12 d 7) 17 12 ≠ 2080 := by simp only [bits, enc4, enc3, enc2, enc1]; omega
  have x3 : bits (enc4 0x10C00053 t 29 k 17 a 12 d 7) 17 12 ≠ 64 := by simp only [bits, enc4, enc3, enc2, enc1]; omega
  have x4 : bits (enc4 0x10C00053 t 29 k 17 a 12 d 7) 17 12 ≠ 2112 := by simp only [bits, enc4, enc3, enc2, enc1]; omega
  simp [decMajor29, k1, x0, x1, x2, x3, x4, e0, e1, e2, e3]

theorem vrcp (t : BitVec 3) (a : BitVec 5) (d : BitVec 5) : Statement (.vrcp t a d) := by
  refine of_word _ (enc3 0x00000055 t 29 a 12 d 7) rfl ?_
  obtain ⟨p, q, k0, k1, k2, e0, e1, e2⟩ := layout_29_3_12_5_7_5 t a d 85 (by decide) 0 (by decide) 0x00000055 rfl
  refine ⟨p, q, ?_⟩
  rw [word2A k0]
  simp [decMajor2A, k1, e0, e1, e2]

theorem vrsq (t : BitVec 3) (a : BitVec 5) (d : BitVec 5) : Statement (.vrsq t a d) := by
  refine of_word _ (enc3 0x00400055 t 29 a 12 d 7) rfl ?_
  obtain ⟨p, q, k0, k1, k2, e0, e1, e2⟩ := layout_29_3_12_5_7_5 t a d 85 (by decide) 32 (by decide) 0x00400055 rfl
  refine ⟨p, q, ?_⟩
  rw [word2A k0]
  simp [decMajor2A, k1, e0, e1, e2]

theorem vsqrt (t : BitVec 3) (a : BitVec 5) (d : BitVec 5) : Statement (.vsqrt t a d) := by
  refine of_word _ (enc3 0x00800055 t 29 a 12 d 7) rfl ?_
  obtain ⟨p, q, k0, k1, k2, e0, e1, e2⟩ := layout_29_3_12_5_7_5 t a d 85 (by decide) 64 (by decide) 0x00800055 rfl
  refine ⟨p, q, ?_⟩
  rw [word2A k0]
  simp [decMajor2A, k1, e0, e1, e2]

theorem vdiv (t : BitVec 3) (b : BitVec 5) (a : BitVec 5) (d : BitVec 5) : Statement (.vdiv t b a d) := by
  refine of_word _ (enc4 0x00C00055 t 29 b 17 a 12 d 7) rfl ?_
  obtain ⟨p, q, k0, k1, k2, e0, e1, e2, e3⟩ := layout_29_3_17_5_12_5_7_5 t b a d 85 (by decide) 3 (by decide) 0x00C00055 rfl
  refine ⟨p, q, ?_⟩
  rw [word2A k0]
  have ht := t.isLt
  have hb := b.isLt
  have ha := a.isLt
  have hd := d.isLt
  have x0 : bits (enc4 0x00C00055 t 29 b 17 a 12 d 7) 17 12 ≠ 0 := by simp only [bits, enc4, enc3, enc2, enc1]; omega
  have x1 : bits (enc4 0x00C00055 t 29 b 17 a 12 d 7) 17 12 ≠ 32 := by simp only [bits, enc4, enc3, enc2, enc1]; omega
  have x2 : bits (enc4 0x00C00055 t 29 b 17 a 12 d 7) 17 12 ≠ 64 := by simp only [bits, enc4, enc3, enc2, enc1]; omega
  simp [decMajor2A, k1, x0, x1, x2, e0, e1, e2, e3]

theorem vexp2 (t : BitVec 3) (a : BitVec 5) (d : BitVec 5) : Statement (.vexp2 t a d) := by
  refine of_word _ (enc3 0x01000055 t 29 a 12 d 7) rfl ?_
  obtain ⟨p, q, k0, k1, k2, e0, e1, e2⟩ := layout_29_3_12_5_7_5 t a d 85 (by decide) 128 (by decide) 0x01000055 rfl
  refine ⟨p, q, ?_⟩
  rw [word2A k0]
  simp [decMajor2A, k1, k2, e0, e1, e2]

theorem vlog2 (t : BitVec 3) (a : BitVec 5) (d : BitVec 5) : Statement (.vlog2 t a d) := by
  refine of_word _ (enc3 0x01400055 t 29 a 12 d 7) rfl ?_
  obtain ⟨p, q, k0, k1, k2, e0, e1, e2⟩ := layout_29_3_12_5_7_5 t a d 85 (by decide) 160 (by decide) 0x01400055 rfl
  refine ⟨p, q, ?_⟩
  rw [word2A k0]
  simp [decMajor2A, k1, k2, e0, e1, e2]

theorem vsinp (t : BitVec 3) (a : BitVec 5) (d : BitVec 5) : Statement (.vsinp t a d) := by
  refine of_word _ (enc3 0x01800055 t 29 a 12 d 7) rfl ?_
  obtain ⟨p, q, k0, k1, k2, e0, e1, e2⟩ := layout_29_3_12_5_7_5 t a d 85 (by decide) 192 (by decide) 0x01800055 rfl
  refine ⟨p, q, ?_⟩
  rw [word2A k0]
  simp [decMajor2A, k1, k2, e0, e1, e2]

theorem vcosp (t : BitVec 3) (a : BitVec 5) (d : BitVec 5) : Statement (.vcosp t a d) := by
  refine of_word _ (enc3 0x01C00055 t 29 a 12 d 7) rfl ?_
  obtain ⟨p, q, k0, k1, k2, e0, e1, e2⟩ := layout_29_3_12_5_7_5 t a d 85 (by decide) 224 (by decide) 0x01C00055 rfl
  refine ⟨p, q, ?_⟩
  rw [word2A k0]
  simp [decMajor2A, k1, k2, e0, e1, e2]

theorem vtanh (t : BitVec 3) (a : BitVec 5) (d : BitVec 5) : Statement (.vtanh t a d) := by
  refine of_word _ (enc3 0x02000055 t 29 a 12 d 7) rfl ?_
  obtain ⟨p, q, k0, k1, k2, e0, e1, e2⟩ := layout_29_3_12_5_7_5 t a d 85 (by decide) 256 (by decide) 0x02000055 rfl
  refine ⟨p, q, ?_⟩
  rw [word2A k0]
  simp [decMajor2A, k1, k2, e0, e1, e2]

theorem wclr (w : BitVec 5) : Statement (.wclr w) := by
  refine of_word _ (enc1 0x00000057 w 7) rfl ?_
  obtain ⟨p, q, k0, k1, k2, e0⟩ := layout_7_5 w 87 (by decide) 0 (by decide) 0x00000057 rfl
  refine ⟨p, q, ?_⟩
  rw [word2B k0]
  simp [decMajor2B, k1, e0]

theorem wacc (t : BitVec 3) (a : BitVec 5) (w : BitVec 5) : Statement (.wacc t a w) := by
  refine of_word _ (enc3 0x00400057 t 29 a 12 w 7) rfl ?_
  obtain ⟨p, q, k0, k1, k2, e0, e1, e2⟩ := layout_29_3_12_5_7_5 t a w 87 (by decide) 32 (by decide) 0x00400057 rfl
  refine ⟨p, q, ?_⟩
  rw [word2B k0]
  have ht := t.isLt
  have ha := a.isLt
  have hw := w.isLt
  have x0 : bits (enc3 0x00400057 t 29 a 12 w 7) 12 20 ≠ 0 := by simp only [bits, enc3, enc2, enc1]; omega
  simp [decMajor2B, k1, x0, e0, e1, e2]

theorem waccp (t : BitVec 3) (b : BitVec 5) (a : BitVec 5) (w : BitVec 5) : Statement (.waccp t b a w) := by
  refine of_word _ (enc4 0x00800057 t 29 b 17 a 12 w 7) rfl ?_
  obtain ⟨p, q, k0, k1, k2, e0, e1, e2, e3⟩ := layout_29_3_17_5_12_5_7_5 t b a w 87 (by decide) 2 (by decide) 0x00800057 rfl
  refine ⟨p, q, ?_⟩
  rw [word2B k0]
  have ht := t.isLt
  have hb := b.isLt
  have ha := a.isLt
  have hw := w.isLt
  have x0 : bits (enc4 0x00800057 t 29 b 17 a 12 w 7) 12 20 ≠ 0 := by simp only [bits, enc4, enc3, enc2, enc1]; omega
  have x1 : bits (enc4 0x00800057 t 29 b 17 a 12 w 7) 17 12 ≠ 32 := by simp only [bits, enc4, enc3, enc2, enc1]; omega
  simp [decMajor2B, k1, x0, x1, e0, e1, e2, e3]

theorem wrnd (w : BitVec 5) (d : BitVec 5) : Statement (.wrnd w d) := by
  refine of_word _ (enc2 0x00C00057 w 12 d 7) rfl ?_
  obtain ⟨p, q, k0, k1, k2, k3, k4, k5, k6, e0, e1⟩ := layout_12_5_7_5 w d 87 (by decide) 96 (by decide) 0x00C00057 rfl
  refine ⟨p, q, ?_⟩
  rw [word2B k0]
  have hw := w.isLt
  have hd := d.isLt
  have x0 : bits (enc2 0x00C00057 w 12 d 7) 12 20 ≠ 0 := by simp only [bits, enc2, enc1]; omega
  simp [decMajor2B, k2, k3, k4, x0, e0, e1]

theorem wsave (w : BitVec 5) (d : BitVec 5) : Statement (.wsave w d) := by
  refine of_word _ (enc2 0x01000057 w 12 d 7) rfl ?_
  obtain ⟨p, q, k0, k1, k2, k3, k4, k5, k6, e0, e1⟩ := layout_12_5_7_5 w d 87 (by decide) 128 (by decide) 0x01000057 rfl
  refine ⟨p, q, ?_⟩
  rw [word2B k0]
  have hw := w.isLt
  have hd := d.isLt
  have x0 : bits (enc2 0x01000057 w 12 d 7) 12 20 ≠ 0 := by simp only [bits, enc2, enc1]; omega
  simp [decMajor2B, k2, k3, k4, x0, e0, e1]

theorem wload (a : BitVec 5) (w : BitVec 5) : Statement (.wload a w) := by
  refine of_word _ (enc2 0x01400057 a 12 w 7) rfl ?_
  obtain ⟨p, q, k0, k1, k2, k3, k4, k5, k6, e0, e1⟩ := layout_12_5_7_5 a w 87 (by decide) 160 (by decide) 0x01400057 rfl
  refine ⟨p, q, ?_⟩
  rw [word2B k0]
  have ha := a.isLt
  have hw := w.isLt
  have x0 : bits (enc2 0x01400057 a 12 w 7) 12 20 ≠ 0 := by simp only [bits, enc2, enc1]; omega
  simp [decMajor2B, k2, k3, k4, x0, e0, e1]

theorem hacc (u : BitVec 3) (v : BitVec 5) (b : BitVec 5) (a : BitVec 5) : Statement (.hacc u v b a) := by
  refine of_word _ (enc4 0x00000059 u 29 v 22 b 17 a 12) rfl ?_
  obtain ⟨p, q, k0, k1, k2, e0, e1, e2, e3⟩ := layout_29_3_22_5_17_5_12_5 u v b a 89 (by decide) 0 (by decide) 0x00000059 rfl
  refine ⟨p, q, ?_⟩
  rw [word2C k0]
  simp [decMajor2C, k1, k2, e0, e1, e2, e3]

theorem hlook (u : BitVec 3) (v : BitVec 5) (a : BitVec 5) (d : BitVec 5) : Statement (.hlook u v a d) := by
  refine of_word _ (enc4 0x08000059 u 29 v 22 a 12 d 7) rfl ?_
  obtain ⟨p, q, k0, k1, k2, e0, e1, e2, e3⟩ := layout_29_3_22_5_12_5_7_5 u v a d 89 (by decide) 0 (by decide) 1 (by decide) 0x08000059 rfl
  refine ⟨p, q, ?_⟩
  rw [word2C k0]
  simp [decMajor2C, k1, k2, e0, e1, e2, e3]

theorem hclr (u : BitVec 3) (v : BitVec 5) : Statement (.hclr u v) := by
  refine of_word _ (enc2 0x10000059 u 29 v 22) rfl ?_
  obtain ⟨p, q, k0, k1, k2, k3, k4, e0, e1⟩ := layout_29_3_22_5 u v 89 (by decide) 2 (by decide) 0x10000059 rfl
  refine ⟨p, q, ?_⟩
  rw [word2C k0]
  simp [decMajor2C, k1, k2, k3, k4, e0, e1]

theorem vldc (a : BitVec 5) (d : BitVec 5) : Statement (.vldc a d) := by
  refine of_word _ (enc2 0x0000005B a 12 d 7) rfl ?_
  obtain ⟨p, q, k0, k1, k2, k3, k4, k5, k6, e0, e1⟩ := layout_12_5_7_5 a d 91 (by decide) 0 (by decide) 0x0000005B rfl
  refine ⟨p, q, ?_⟩
  rw [word2D k0]
  simp [decMajor2D, k3, e0, e1]

theorem vstc (a : BitVec 5) (d : BitVec 5) : Statement (.vstc a d) := by
  refine of_word _ (enc2 0x0040005B a 12 d 7) rfl ?_
  obtain ⟨p, q, k0, k1, k2, k3, k4, k5, k6, e0, e1⟩ := layout_12_5_7_5 a d 91 (by decide) 32 (by decide) 0x0040005B rfl
  refine ⟨p, q, ?_⟩
  rw [word2D k0]
  simp [decMajor2D, k3, e0, e1]

theorem vwaitc (n : BitVec 5) : Statement (.vwaitc n) := by
  refine of_word _ (enc1 0x0080005B n 12) rfl ?_
  obtain ⟨p, q, k0, k1, k2, k3, k4, k5, e0⟩ := layout_12_5 n 91 (by decide) 64 (by decide) 0x0080005B rfl
  refine ⟨p, q, ?_⟩
  rw [word2D k0]
  simp [decMajor2D, k1, k3, e0]

theorem mma (c : BitVec 6) (b : BitVec 5) (a : BitVec 5) (d : BitVec 5) : Statement (.mma c b a d) := by
  refine of_word _ (enc4 0x0000005D c 26 b 17 a 12 d 7) rfl ?_
  obtain ⟨p, q, k0, k1, e0, e1, e2, e3⟩ := layout_26_6_17_5_12_5_7_5 c b a d 93 (by decide) 0 (by decide) 0x0000005D rfl
  refine ⟨p, q, ?_⟩
  rw [word2E k0]
  simp [decMajor2E, k1, e0, e1, e2, e3]

theorem mmaM (c : BitVec 6) (b : BitVec 5) (a : BitVec 5) (d : BitVec 5) : Statement (.mmaM c b a d) := by
  refine of_word _ (enc4 0x0040005D c 26 b 17 a 12 d 7) rfl ?_
  obtain ⟨p, q, k0, k1, e0, e1, e2, e3⟩ := layout_26_6_17_5_12_5_7_5 c b a d 93 (by decide) 1 (by decide) 0x0040005D rfl
  refine ⟨p, q, ?_⟩
  rw [word2E k0]
  simp [decMajor2E, k1, e0, e1, e2, e3]

theorem mzero (c : BitVec 6) (d : BitVec 5) : Statement (.mzero c d) := by
  refine of_word _ (enc2 0x0080005D c 26 d 7) rfl ?_
  obtain ⟨p, q, k0, k1, k2, e0, e1⟩ := layout_26_6_7_5 c d 93 (by decide) 2048 (by decide) 0x0080005D rfl
  refine ⟨p, q, ?_⟩
  rw [word2E k0]
  simp [decMajor2E, k1, k2, e0, e1]

theorem mcopy (c : BitVec 6) (a : BitVec 5) : Statement (.mcopy c a) := by
  refine of_word _ (enc2 0x00C0005D c 26 a 12) rfl ?_
  obtain ⟨p, q, k0, k1, k2, k3, e0, e1⟩ := layout_26_6_12_5 c a 93 (by decide) 96 (by decide) 0x00C0005D rfl
  refine ⟨p, q, ?_⟩
  rw [word2E k0]
  have hc := c.isLt
  have ha := a.isLt
  have x0 : bits (enc2 0x00C0005D c 26 a 12) 12 14 ≠ 2048 := by simp only [bits, enc2, enc1]; omega
  simp [decMajor2E, k1, k2, k3, x0, e0, e1]

theorem mldc (c : BitVec 6) (a : BitVec 5) : Statement (.mldc c a) := by
  refine of_word _ (enc2 0x0100005D c 26 a 12) rfl ?_
  obtain ⟨p, q, k0, k1, k2, k3, e0, e1⟩ := layout_26_6_12_5 c a 93 (by decide) 128 (by decide) 0x0100005D rfl
  refine ⟨p, q, ?_⟩
  rw [word2E k0]
  have hc := c.isLt
  have ha := a.isLt
  have x0 : bits (enc2 0x0100005D c 26 a 12) 12 14 ≠ 2048 := by simp only [bits, enc2, enc1]; omega
  simp [decMajor2E, k1, k2, k3, x0, e0, e1]

theorem mstc (c : BitVec 6) (a : BitVec 5) : Statement (.mstc c a) := by
  refine of_word _ (enc2 0x0140005D c 26 a 12) rfl ?_
  obtain ⟨p, q, k0, k1, k2, k3, e0, e1⟩ := layout_26_6_12_5 c a 93 (by decide) 160 (by decide) 0x0140005D rfl
  refine ⟨p, q, ?_⟩
  rw [word2E k0]
  have hc := c.isLt
  have ha := a.isLt
  have x0 : bits (enc2 0x0140005D c 26 a 12) 12 14 ≠ 2048 := by simp only [bits, enc2, enc1]; omega
  simp [decMajor2E, k1, k2, k3, x0, e0, e1]

theorem mspw (c : BitVec 6) (b : BitVec 5) (a : BitVec 5) : Statement (.mspw c b a) := by
  refine of_word _ (enc3 0x0000005F c 26 b 17 a 12) rfl ?_
  obtain ⟨p, q, k0, k1, k2, e0, e1, e2⟩ := layout_26_6_17_5_12_5 c b a 95 (by decide) 0 (by decide) 0x0000005F rfl
  refine ⟨p, q, ?_⟩
  rw [word2F k0]
  simp [decMajor2F, k1, k2, e0, e1, e2]

theorem mspwM (c : BitVec 6) (b : BitVec 5) (a : BitVec 5) (d : BitVec 5) : Statement (.mspwM c b a d) := by
  refine of_word _ (enc4 0x0040005F c 26 b 17 a 12 d 7) rfl ?_
  obtain ⟨p, q, k0, k1, e0, e1, e2, e3⟩ := layout_26_6_17_5_12_5_7_5 c b a d 95 (by decide) 1 (by decide) 0x0040005F rfl
  refine ⟨p, q, ?_⟩
  rw [word2F k0]
  simp [decMajor2F, k1, e0, e1, e2, e3]

theorem ld (p : BitVec 9) (o : BitVec 3) (n : BitVec 1) (z : BitVec 2) (a : BitVec 5) (d : BitVec 5) : Statement (.ld p o n z a d) := by
  refine of_word _ (enc6 0x00000021 p 23 o 20 n 19 z 17 a 12 d 7) rfl ?_
  obtain ⟨p, q, k0, e0, e1, e2, e3, e4, e5⟩ := layout_23_9_20_3_19_1_17_2_12_5_7_5 p o n z a d 33 (by decide) 0x00000021 rfl
  refine ⟨p, q, ?_⟩
  rw [word10 k0]
  simp [decMajor10, e0, e1, e2, e3, e4, e5]

theorem st (p : BitVec 9) (o : BitVec 3) (z : BitVec 2) (a : BitVec 5) (d : BitVec 5) : Statement (.st p o z a d) := by
  refine of_word _ (enc5 0x00000023 p 23 o 20 z 17 a 12 d 7) rfl ?_
  obtain ⟨p, q, k0, k1, e0, e1, e2, e3, e4⟩ := layout_23_9_20_3_17_2_12_5_7_5 p o z a d 35 (by decide) 0 (by decide) 0x00000023 rfl
  refine ⟨p, q, ?_⟩
  rw [word11 k0]
  simp [decMajor11, k1, e0, e1, e2, e3, e4]

theorem ldl (p : BitVec 9) (o : BitVec 3) (n : BitVec 1) (z : BitVec 2) (a : BitVec 5) (d : BitVec 5) : Statement (.ldl p o n z a d) := by
  refine of_word _ (enc6 0x00000025 p 23 o 20 n 19 z 17 a 12 d 7) rfl ?_
  obtain ⟨p, q, k0, e0, e1, e2, e3, e4, e5⟩ := layout_23_9_20_3_19_1_17_2_12_5_7_5 p o n z a d 37 (by decide) 0x00000025 rfl
  refine ⟨p, q, ?_⟩
  rw [word12 k0]
  simp [decMajor12, e0, e1, e2, e3, e4, e5]

theorem stl (p : BitVec 9) (o : BitVec 3) (z : BitVec 2) (a : BitVec 5) (d : BitVec 5) : Statement (.stl p o z a d) := by
  refine of_word _ (enc5 0x00000027 p 23 o 20 z 17 a 12 d 7) rfl ?_
  obtain ⟨p, q, k0, k1, e0, e1, e2, e3, e4⟩ := layout_23_9_20_3_17_2_12_5_7_5 p o z a d 39 (by decide) 0 (by decide) 0x00000027 rfl
  refine ⟨p, q, ?_⟩
  rw [word13 k0]
  simp [decMajor13, k1, e0, e1, e2, e3, e4]

theorem tld (t : BitVec 8) (b : BitVec 5) (a : BitVec 5) (o : BitVec 3) : Statement (.tld t b a o) := by
  refine of_word _ (enc4 0x0000002B t 22 b 17 a 12 o 7) rfl ?_
  obtain ⟨p, q, k0, k1, k2, e0, e1, e2, e3⟩ := layout_22_8_17_5_12_5_7_3 t b a o 43 (by decide) 0 (by decide) 0 (by decide) 0x0000002B rfl
  refine ⟨p, q, ?_⟩
  rw [word15 k0]
  simp [decMajor15, k1, k2, e0, e1, e2, e3]

theorem tst (t : BitVec 8) (b : BitVec 5) (a : BitVec 5) (o : BitVec 3) : Statement (.tst t b a o) := by
  refine of_word _ (enc4 0x0000002D t 22 b 17 a 12 o 7) rfl ?_
  obtain ⟨p, q, k0, k1, k2, e0, e1, e2, e3⟩ := layout_22_8_17_5_12_5_7_3 t b a o 45 (by decide) 0 (by decide) 0 (by decide) 0x0000002D rfl
  refine ⟨p, q, ?_⟩
  rw [word16 k0]
  simp [decMajor16, k1, k2, e0, e1, e2, e3]

theorem amoAdd (s : BitVec 3) (k : BitVec 2) (w : BitVec 1) (b : BitVec 5) (a : BitVec 5) (d : BitVec 5) : Statement (.amoAdd s k w b a d) := by
  refine of_word _ (enc6 0x0000002F s 29 k 27 w 26 b 17 a 12 d 7) rfl ?_
  obtain ⟨p, q, k0, k1, e0, e1, e2, e3, e4, e5⟩ := layout_29_3_27_2_26_1_17_5_12_5_7_5 s k w b a d 47 (by decide) 0 (by decide) 0x0000002F rfl
  refine ⟨p, q, ?_⟩
  rw [word17 k0]
  simp [decMajor17, k1, e0, e1, e2, e3, e4, e5]

theorem amoAnd (s : BitVec 3) (k : BitVec 2) (w : BitVec 1) (b : BitVec 5) (a : BitVec 5) (d : BitVec 5) : Statement (.amoAnd s k w b a d) := by
  refine of_word _ (enc6 0x0040002F s 29 k 27 w 26 b 17 a 12 d 7) rfl ?_
  obtain ⟨p, q, k0, k1, e0, e1, e2, e3, e4, e5⟩ := layout_29_3_27_2_26_1_17_5_12_5_7_5 s k w b a d 47 (by decide) 1 (by decide) 0x0040002F rfl
  refine ⟨p, q, ?_⟩
  rw [word17 k0]
  simp [decMajor17, k1, e0, e1, e2, e3, e4, e5]

theorem amoOr (s : BitVec 3) (k : BitVec 2) (w : BitVec 1) (b : BitVec 5) (a : BitVec 5) (d : BitVec 5) : Statement (.amoOr s k w b a d) := by
  refine of_word _ (enc6 0x0080002F s 29 k 27 w 26 b 17 a 12 d 7) rfl ?_
  obtain ⟨p, q, k0, k1, e0, e1, e2, e3, e4, e5⟩ := layout_29_3_27_2_26_1_17_5_12_5_7_5 s k w b a d 47 (by decide) 2 (by decide) 0x0080002F rfl
  refine ⟨p, q, ?_⟩
  rw [word17 k0]
  simp [decMajor17, k1, e0, e1, e2, e3, e4, e5]

theorem amoXor (s : BitVec 3) (k : BitVec 2) (w : BitVec 1) (b : BitVec 5) (a : BitVec 5) (d : BitVec 5) : Statement (.amoXor s k w b a d) := by
  refine of_word _ (enc6 0x00C0002F s 29 k 27 w 26 b 17 a 12 d 7) rfl ?_
  obtain ⟨p, q, k0, k1, e0, e1, e2, e3, e4, e5⟩ := layout_29_3_27_2_26_1_17_5_12_5_7_5 s k w b a d 47 (by decide) 3 (by decide) 0x00C0002F rfl
  refine ⟨p, q, ?_⟩
  rw [word17 k0]
  simp [decMajor17, k1, e0, e1, e2, e3, e4, e5]

theorem amoMin (s : BitVec 3) (k : BitVec 2) (w : BitVec 1) (b : BitVec 5) (a : BitVec 5) (d : BitVec 5) : Statement (.amoMin s k w b a d) := by
  refine of_word _ (enc6 0x0100002F s 29 k 27 w 26 b 17 a 12 d 7) rfl ?_
  obtain ⟨p, q, k0, k1, e0, e1, e2, e3, e4, e5⟩ := layout_29_3_27_2_26_1_17_5_12_5_7_5 s k w b a d 47 (by decide) 4 (by decide) 0x0100002F rfl
  refine ⟨p, q, ?_⟩
  rw [word17 k0]
  simp [decMajor17, k1, e0, e1, e2, e3, e4, e5]

theorem amoMax (s : BitVec 3) (k : BitVec 2) (w : BitVec 1) (b : BitVec 5) (a : BitVec 5) (d : BitVec 5) : Statement (.amoMax s k w b a d) := by
  refine of_word _ (enc6 0x0140002F s 29 k 27 w 26 b 17 a 12 d 7) rfl ?_
  obtain ⟨p, q, k0, k1, e0, e1, e2, e3, e4, e5⟩ := layout_29_3_27_2_26_1_17_5_12_5_7_5 s k w b a d 47 (by decide) 5 (by decide) 0x0140002F rfl
  refine ⟨p, q, ?_⟩
  rw [word17 k0]
  simp [decMajor17, k1, e0, e1, e2, e3, e4, e5]

theorem amoMinn (s : BitVec 3) (k : BitVec 2) (w : BitVec 1) (b : BitVec 5) (a : BitVec 5) (d : BitVec 5) : Statement (.amoMinn s k w b a d) := by
  refine of_word _ (enc6 0x0180002F s 29 k 27 w 26 b 17 a 12 d 7) rfl ?_
  obtain ⟨p, q, k0, k1, e0, e1, e2, e3, e4, e5⟩ := layout_29_3_27_2_26_1_17_5_12_5_7_5 s k w b a d 47 (by decide) 6 (by decide) 0x0180002F rfl
  refine ⟨p, q, ?_⟩
  rw [word17 k0]
  simp [decMajor17, k1, e0, e1, e2, e3, e4, e5]

theorem amoMaxn (s : BitVec 3) (k : BitVec 2) (w : BitVec 1) (b : BitVec 5) (a : BitVec 5) (d : BitVec 5) : Statement (.amoMaxn s k w b a d) := by
  refine of_word _ (enc6 0x01C0002F s 29 k 27 w 26 b 17 a 12 d 7) rfl ?_
  obtain ⟨p, q, k0, k1, e0, e1, e2, e3, e4, e5⟩ := layout_29_3_27_2_26_1_17_5_12_5_7_5 s k w b a d 47 (by decide) 7 (by decide) 0x01C0002F rfl
  refine ⟨p, q, ?_⟩
  rw [word17 k0]
  simp [decMajor17, k1, e0, e1, e2, e3, e4, e5]

theorem amoSwap (s : BitVec 3) (k : BitVec 2) (w : BitVec 1) (b : BitVec 5) (a : BitVec 5) (d : BitVec 5) : Statement (.amoSwap s k w b a d) := by
  refine of_word _ (enc6 0x0200002F s 29 k 27 w 26 b 17 a 12 d 7) rfl ?_
  obtain ⟨p, q, k0, k1, e0, e1, e2, e3, e4, e5⟩ := layout_29_3_27_2_26_1_17_5_12_5_7_5 s k w b a d 47 (by decide) 8 (by decide) 0x0200002F rfl
  refine ⟨p, q, ?_⟩
  rw [word17 k0]
  simp [decMajor17, k1, e0, e1, e2, e3, e4, e5]

theorem amoCas (s : BitVec 3) (k : BitVec 2) (w : BitVec 1) (b : BitVec 5) (a : BitVec 5) (d : BitVec 5) : Statement (.amoCas s k w b a d) := by
  refine of_word _ (enc6 0x0240002F s 29 k 27 w 26 b 17 a 12 d 7) rfl ?_
  obtain ⟨p, q, k0, k1, e0, e1, e2, e3, e4, e5⟩ := layout_29_3_27_2_26_1_17_5_12_5_7_5 s k w b a d 47 (by decide) 9 (by decide) 0x0240002F rfl
  refine ⟨p, q, ?_⟩
  rw [word17 k0]
  simp [decMajor17, k1, e0, e1, e2, e3, e4, e5]

theorem amoFadd (s : BitVec 3) (k : BitVec 2) (b : BitVec 5) (a : BitVec 5) (d : BitVec 5) : Statement (.amoFadd s k b a d) := by
  refine of_word _ (enc5 0x0280002F s 29 k 27 b 17 a 12 d 7) rfl ?_
  obtain ⟨p, q, k0, k1, k2, e0, e1, e2, e3, e4⟩ := layout_29_3_27_2_17_5_12_5_7_5 s k b a d 47 (by decide) 10 (by decide) 0x0280002F rfl
  refine ⟨p, q, ?_⟩
  rw [word17 k0]
  simp [decMajor17, k1, k2, e0, e1, e2, e3, e4]

theorem amoFmax (s : BitVec 3) (k : BitVec 2) (b : BitVec 5) (a : BitVec 5) (d : BitVec 5) : Statement (.amoFmax s k b a d) := by
  refine of_word _ (enc5 0x02C0002F s 29 k 27 b 17 a 12 d 7) rfl ?_
  obtain ⟨p, q, k0, k1, k2, e0, e1, e2, e3, e4⟩ := layout_29_3_27_2_17_5_12_5_7_5 s k b a d 47 (by decide) 11 (by decide) 0x02C0002F rfl
  refine ⟨p, q, ?_⟩
  rw [word17 k0]
  simp [decMajor17, k1, k2, e0, e1, e2, e3, e4]

theorem redAdd (s : BitVec 3) (k : BitVec 2) (w : BitVec 1) (b : BitVec 5) (a : BitVec 5) : Statement (.redAdd s k w b a) := by
  refine of_word _ (enc5 0x00000031 s 29 k 27 w 26 b 17 a 12) rfl ?_
  obtain ⟨p, q, k0, k1, k2, e0, e1, e2, e3, e4⟩ := layout_29_3_27_2_26_1_17_5_12_5 s k w b a 49 (by decide) 0 (by decide) 0x00000031 rfl
  refine ⟨p, q, ?_⟩
  rw [word18 k0]
  simp [decMajor18, k1, k2, e0, e1, e2, e3, e4]

theorem redAnd (s : BitVec 3) (k : BitVec 2) (w : BitVec 1) (b : BitVec 5) (a : BitVec 5) : Statement (.redAnd s k w b a) := by
  refine of_word _ (enc5 0x00400031 s 29 k 27 w 26 b 17 a 12) rfl ?_
  obtain ⟨p, q, k0, k1, k2, e0, e1, e2, e3, e4⟩ := layout_29_3_27_2_26_1_17_5_12_5 s k w b a 49 (by decide) 1 (by decide) 0x00400031 rfl
  refine ⟨p, q, ?_⟩
  rw [word18 k0]
  simp [decMajor18, k1, k2, e0, e1, e2, e3, e4]

theorem redOr (s : BitVec 3) (k : BitVec 2) (w : BitVec 1) (b : BitVec 5) (a : BitVec 5) : Statement (.redOr s k w b a) := by
  refine of_word _ (enc5 0x00800031 s 29 k 27 w 26 b 17 a 12) rfl ?_
  obtain ⟨p, q, k0, k1, k2, e0, e1, e2, e3, e4⟩ := layout_29_3_27_2_26_1_17_5_12_5 s k w b a 49 (by decide) 2 (by decide) 0x00800031 rfl
  refine ⟨p, q, ?_⟩
  rw [word18 k0]
  simp [decMajor18, k1, k2, e0, e1, e2, e3, e4]

theorem redXor (s : BitVec 3) (k : BitVec 2) (w : BitVec 1) (b : BitVec 5) (a : BitVec 5) : Statement (.redXor s k w b a) := by
  refine of_word _ (enc5 0x00C00031 s 29 k 27 w 26 b 17 a 12) rfl ?_
  obtain ⟨p, q, k0, k1, k2, e0, e1, e2, e3, e4⟩ := layout_29_3_27_2_26_1_17_5_12_5 s k w b a 49 (by decide) 3 (by decide) 0x00C00031 rfl
  refine ⟨p, q, ?_⟩
  rw [word18 k0]
  simp [decMajor18, k1, k2, e0, e1, e2, e3, e4]

theorem redMin (s : BitVec 3) (k : BitVec 2) (w : BitVec 1) (b : BitVec 5) (a : BitVec 5) : Statement (.redMin s k w b a) := by
  refine of_word _ (enc5 0x01000031 s 29 k 27 w 26 b 17 a 12) rfl ?_
  obtain ⟨p, q, k0, k1, k2, e0, e1, e2, e3, e4⟩ := layout_29_3_27_2_26_1_17_5_12_5 s k w b a 49 (by decide) 4 (by decide) 0x01000031 rfl
  refine ⟨p, q, ?_⟩
  rw [word18 k0]
  simp [decMajor18, k1, k2, e0, e1, e2, e3, e4]

theorem redMax (s : BitVec 3) (k : BitVec 2) (w : BitVec 1) (b : BitVec 5) (a : BitVec 5) : Statement (.redMax s k w b a) := by
  refine of_word _ (enc5 0x01400031 s 29 k 27 w 26 b 17 a 12) rfl ?_
  obtain ⟨p, q, k0, k1, k2, e0, e1, e2, e3, e4⟩ := layout_29_3_27_2_26_1_17_5_12_5 s k w b a 49 (by decide) 5 (by decide) 0x01400031 rfl
  refine ⟨p, q, ?_⟩
  rw [word18 k0]
  simp [decMajor18, k1, k2, e0, e1, e2, e3, e4]

theorem redMinn (s : BitVec 3) (k : BitVec 2) (w : BitVec 1) (b : BitVec 5) (a : BitVec 5) : Statement (.redMinn s k w b a) := by
  refine of_word _ (enc5 0x01800031 s 29 k 27 w 26 b 17 a 12) rfl ?_
  obtain ⟨p, q, k0, k1, k2, e0, e1, e2, e3, e4⟩ := layout_29_3_27_2_26_1_17_5_12_5 s k w b a 49 (by decide) 6 (by decide) 0x01800031 rfl
  refine ⟨p, q, ?_⟩
  rw [word18 k0]
  simp [decMajor18, k1, k2, e0, e1, e2, e3, e4]

theorem redMaxn (s : BitVec 3) (k : BitVec 2) (w : BitVec 1) (b : BitVec 5) (a : BitVec 5) : Statement (.redMaxn s k w b a) := by
  refine of_word _ (enc5 0x01C00031 s 29 k 27 w 26 b 17 a 12) rfl ?_
  obtain ⟨p, q, k0, k1, k2, e0, e1, e2, e3, e4⟩ := layout_29_3_27_2_26_1_17_5_12_5 s k w b a 49 (by decide) 7 (by decide) 0x01C00031 rfl
  refine ⟨p, q, ?_⟩
  rw [word18 k0]
  simp [decMajor18, k1, k2, e0, e1, e2, e3, e4]

theorem redFadd (s : BitVec 3) (k : BitVec 2) (b : BitVec 5) (a : BitVec 5) : Statement (.redFadd s k b a) := by
  refine of_word _ (enc4 0x02800031 s 29 k 27 b 17 a 12) rfl ?_
  obtain ⟨p, q, k0, k1, k2, k3, e0, e1, e2, e3⟩ := layout_29_3_27_2_17_5_12_5 s k b a 49 (by decide) 10 (by decide) 0x02800031 rfl
  refine ⟨p, q, ?_⟩
  rw [word18 k0]
  simp [decMajor18, k1, k2, k3, e0, e1, e2, e3]

theorem redFmax (s : BitVec 3) (k : BitVec 2) (b : BitVec 5) (a : BitVec 5) : Statement (.redFmax s k b a) := by
  refine of_word _ (enc4 0x02C00031 s 29 k 27 b 17 a 12) rfl ?_
  obtain ⟨p, q, k0, k1, k2, k3, e0, e1, e2, e3⟩ := layout_29_3_27_2_17_5_12_5 s k b a 49 (by decide) 11 (by decide) 0x02C00031 rfl
  refine ⟨p, q, ?_⟩
  rw [word18 k0]
  simp [decMajor18, k1, k2, k3, e0, e1, e2, e3]

theorem fence (s : BitVec 3) : Statement (.fence s) := by
  refine of_word _ (enc1 0x00000033 s 22) rfl ?_
  obtain ⟨p, q, k0, k1, k2, e0⟩ := layout_22_3 s 51 (by decide) 0 (by decide) 0x00000033 rfl
  refine ⟨p, q, ?_⟩
  rw [word19 k0]
  simp [decMajor19, k1, k2, e0]

theorem cwb (b : BitVec 5) (a : BitVec 5) : Statement (.cwb b a) := by
  refine of_word _ (enc2 0x04000033 b 17 a 12) rfl ?_
  obtain ⟨p, q, k0, k1, k2, k3, e0, e1⟩ := layout_17_5_12_5 b a 51 (by decide) 16 (by decide) 0x04000033 rfl
  refine ⟨p, q, ?_⟩
  rw [word19 k0]
  simp [decMajor19, k1, k2, k3, e0, e1]

theorem cinv (b : BitVec 5) (a : BitVec 5) : Statement (.cinv b a) := by
  refine of_word _ (enc2 0x04400033 b 17 a 12) rfl ?_
  obtain ⟨p, q, k0, k1, k2, k3, e0, e1⟩ := layout_17_5_12_5 b a 51 (by decide) 17 (by decide) 0x04400033 rfl
  refine ⟨p, q, ?_⟩
  rw [word19 k0]
  simp [decMajor19, k1, k2, k3, e0, e1]

theorem pfx (b : BitVec 5) (a : BitVec 5) : Statement (.pfx b a) := by
  refine of_word _ (enc2 0x04800033 b 17 a 12) rfl ?_
  obtain ⟨p, q, k0, k1, k2, k3, e0, e1⟩ := layout_17_5_12_5 b a 51 (by decide) 18 (by decide) 0x04800033 rfl
  refine ⟨p, q, ?_⟩
  rw [word19 k0]
  simp [decMajor19, k1, k2, k3, e0, e1]

theorem cpy (e : BitVec 1) (f : BitVec 1) (b : BitVec 5) (a : BitVec 5) (d : BitVec 5) : Statement (.cpy e f b a d) := by
  refine of_word _ (enc5 0x00000035 e 25 f 24 b 17 a 12 d 7) rfl ?_
  obtain ⟨p, q, k0, k1, k2, e0, e1, e2, e3, e4⟩ := layout_25_1_24_1_17_5_12_5_7_5 e f b a d 53 (by decide) 0 (by decide) 0 (by decide) 0x00000035 rfl
  refine ⟨p, q, ?_⟩
  rw [word1A k0]
  simp [decMajor1A, k1, k2, e0, e1, e2, e3, e4]

theorem cpyt (e : BitVec 1) (f : BitVec 1) (b : BitVec 5) (a : BitVec 5) (d : BitVec 5) : Statement (.cpyt e f b a d) := by
  refine of_word _ (enc5 0x00400035 e 25 f 24 b 17 a 12 d 7) rfl ?_
  obtain ⟨p, q, k0, k1, k2, e0, e1, e2, e3, e4⟩ := layout_25_1_24_1_17_5_12_5_7_5 e f b a d 53 (by decide) 1 (by decide) 0 (by decide) 0x00400035 rfl
  refine ⟨p, q, ?_⟩
  rw [word1A k0]
  simp [decMajor1A, k1, k2, e0, e1, e2, e3, e4]

theorem fill (f : BitVec 1) (b : BitVec 5) (a : BitVec 5) (d : BitVec 5) : Statement (.fill f b a d) := by
  refine of_word _ (enc4 0x00800035 f 24 b 17 a 12 d 7) rfl ?_
  obtain ⟨p, q, k0, k1, k2, k3, e0, e1, e2, e3⟩ := layout_24_1_17_5_12_5_7_5 f b a d 53 (by decide) 2 (by decide) 0 (by decide) 0x00800035 rfl
  refine ⟨p, q, ?_⟩
  rw [word1A k0]
  simp [decMajor1A, k1, k2, k3, e0, e1, e2, e3]

theorem bkCpy (b : BitVec 5) (a : BitVec 5) (d : BitVec 5) : Statement (.bkCpy b a d) := by
  refine of_word _ (enc3 0x00000037 b 17 a 12 d 7) rfl ?_
  obtain ⟨p, q, k0, k1, e0, e1, e2⟩ := layout_17_5_12_5_7_5 b a d 55 (by decide) 0 (by decide) 0x00000037 rfl
  refine ⟨p, q, ?_⟩
  rw [word1B k0]
  simp [decMajor1B, k1, e0, e1, e2]

theorem bkFil (b : BitVec 5) (a : BitVec 5) (d : BitVec 5) : Statement (.bkFil b a d) := by
  refine of_word _ (enc3 0x00400037 b 17 a 12 d 7) rfl ?_
  obtain ⟨p, q, k0, k1, e0, e1, e2⟩ := layout_17_5_12_5_7_5 b a d 55 (by decide) 1 (by decide) 0x00400037 rfl
  refine ⟨p, q, ?_⟩
  rw [word1B k0]
  simp [decMajor1B, k1, e0, e1, e2]

theorem bkAnd (b : BitVec 5) (a : BitVec 5) (d : BitVec 5) : Statement (.bkAnd b a d) := by
  refine of_word _ (enc3 0x00800037 b 17 a 12 d 7) rfl ?_
  obtain ⟨p, q, k0, k1, e0, e1, e2⟩ := layout_17_5_12_5_7_5 b a d 55 (by decide) 2 (by decide) 0x00800037 rfl
  refine ⟨p, q, ?_⟩
  rw [word1B k0]
  simp [decMajor1B, k1, e0, e1, e2]

theorem bkOr (b : BitVec 5) (a : BitVec 5) (d : BitVec 5) : Statement (.bkOr b a d) := by
  refine of_word _ (enc3 0x00C00037 b 17 a 12 d 7) rfl ?_
  obtain ⟨p, q, k0, k1, e0, e1, e2⟩ := layout_17_5_12_5_7_5 b a d 55 (by decide) 3 (by decide) 0x00C00037 rfl
  refine ⟨p, q, ?_⟩
  rw [word1B k0]
  simp [decMajor1B, k1, e0, e1, e2]

theorem bkXor (b : BitVec 5) (a : BitVec 5) (d : BitVec 5) : Statement (.bkXor b a d) := by
  refine of_word _ (enc3 0x01000037 b 17 a 12 d 7) rfl ?_
  obtain ⟨p, q, k0, k1, e0, e1, e2⟩ := layout_17_5_12_5_7_5 b a d 55 (by decide) 4 (by decide) 0x01000037 rfl
  refine ⟨p, q, ?_⟩
  rw [word1B k0]
  simp [decMajor1B, k1, e0, e1, e2]

theorem bkNot (b : BitVec 5) (a : BitVec 5) (d : BitVec 5) : Statement (.bkNot b a d) := by
  refine of_word _ (enc3 0x01400037 b 17 a 12 d 7) rfl ?_
  obtain ⟨p, q, k0, k1, e0, e1, e2⟩ := layout_17_5_12_5_7_5 b a d 55 (by decide) 5 (by decide) 0x01400037 rfl
  refine ⟨p, q, ?_⟩
  rw [word1B k0]
  simp [decMajor1B, k1, e0, e1, e2]

theorem bkMaj (b : BitVec 5) (a : BitVec 5) (d : BitVec 5) : Statement (.bkMaj b a d) := by
  refine of_word _ (enc3 0x01800037 b 17 a 12 d 7) rfl ?_
  obtain ⟨p, q, k0, k1, e0, e1, e2⟩ := layout_17_5_12_5_7_5 b a d 55 (by decide) 6 (by decide) 0x01800037 rfl
  refine ⟨p, q, ?_⟩
  rw [word1B k0]
  simp [decMajor1B, k1, e0, e1, e2]

theorem ovld (b : BitVec 5) (a : BitVec 5) (d : BitVec 5) : Statement (.ovld b a d) := by
  refine of_word _ (enc3 0x00000047 b 17 a 12 d 7) rfl ?_
  obtain ⟨p, q, k0, k1, e0, e1, e2⟩ := layout_17_5_12_5_7_5 b a d 71 (by decide) 0 (by decide) 0x00000047 rfl
  refine ⟨p, q, ?_⟩
  rw [word23 k0]
  simp [decMajor23, k1, e0, e1, e2]

theorem ovldGo (b : BitVec 5) (a : BitVec 5) (d : BitVec 5) : Statement (.ovldGo b a d) := by
  refine of_word _ (enc3 0x00400047 b 17 a 12 d 7) rfl ?_
  obtain ⟨p, q, k0, k1, e0, e1, e2⟩ := layout_17_5_12_5_7_5 b a d 71 (by decide) 1 (by decide) 0x00400047 rfl
  refine ⟨p, q, ?_⟩
  rw [word23 k0]
  simp [decMajor23, k1, e0, e1, e2]

theorem prd (b : BitVec 5) (a : BitVec 5) (d : BitVec 5) : Statement (.prd b a d) := by
  refine of_word _ (enc3 0x04000047 b 17 a 12 d 7) rfl ?_
  obtain ⟨p, q, k0, k1, e0, e1, e2⟩ := layout_17_5_12_5_7_5 b a d 71 (by decide) 16 (by decide) 0x04000047 rfl
  refine ⟨p, q, ?_⟩
  rw [word23 k0]
  simp [decMajor23, k1, e0, e1, e2]

theorem pwr (b : BitVec 5) (a : BitVec 5) (d : BitVec 5) : Statement (.pwr b a d) := by
  refine of_word _ (enc3 0x04400047 b 17 a 12 d 7) rfl ?_
  obtain ⟨p, q, k0, k1, e0, e1, e2⟩ := layout_17_5_12_5_7_5 b a d 71 (by decide) 17 (by decide) 0x04400047 rfl
  refine ⟨p, q, ?_⟩
  rw [word23 k0]
  simp [decMajor23, k1, e0, e1, e2]

theorem ppush (b : BitVec 5) (a : BitVec 5) (d : BitVec 5) : Statement (.ppush b a d) := by
  refine of_word _ (enc3 0x04800047 b 17 a 12 d 7) rfl ?_
  obtain ⟨p, q, k0, k1, e0, e1, e2⟩ := layout_17_5_12_5_7_5 b a d 71 (by decide) 18 (by decide) 0x04800047 rfl
  refine ⟨p, q, ?_⟩
  rw [word23 k0]
  simp [decMajor23, k1, e0, e1, e2]

theorem pend : Statement .pend := by
  exact of_word _ 0x04C00047 rfl ⟨rfl, by decide, by decide⟩

theorem tqadd (a : BitVec 5) : Statement (.tqadd a) := by
  refine of_word _ (enc1 0x00000045 a 12) rfl ?_
  obtain ⟨p, q, k0, k1, k2, k3, k4, k5, e0⟩ := layout_12_5 a 69 (by decide) 0 (by decide) 0x00000045 rfl
  refine ⟨p, q, ?_⟩
  rw [word22 k0]
  simp [decMajor22, k1, k3, e0]

theorem tqtake (d : BitVec 5) : Statement (.tqtake d) := by
  refine of_word _ (enc1 0x00400045 d 7) rfl ?_
  obtain ⟨p, q, k0, k1, k2, e0⟩ := layout_7_5 d 69 (by decide) 1024 (by decide) 0x00400045 rfl
  refine ⟨p, q, ?_⟩
  rw [word22 k0]
  simp [decMajor22, k1, k2, e0]

theorem tqtry (d : BitVec 5) : Statement (.tqtry d) := by
  refine of_word _ (enc1 0x00800045 d 7) rfl ?_
  obtain ⟨p, q, k0, k1, k2, e0⟩ := layout_7_5 d 69 (by decide) 2048 (by decide) 0x00800045 rfl
  refine ⟨p, q, ?_⟩
  rw [word22 k0]
  simp [decMajor22, k1, k2, e0]

theorem tcmt : Statement .tcmt := by
  exact of_word _ 0x00C00045 rfl ⟨rfl, by decide, by decide⟩

theorem tdone : Statement .tdone := by
  exact of_word _ 0x01000045 rfl ⟨rfl, by decide, by decide⟩

/-! ### The steps of engines, which have no encoding -/

theorem tlbiRetire : Statement .tlbiRetire := of_none _ rfl
theorem supervisorOpArrival : Statement .supervisorOpArrival := of_none _ rfl
theorem supervisorReply : Statement .supervisorReply := of_none _ rfl
theorem parkRequestEffect : Statement .parkRequestEffect := of_none _ rfl
theorem barrierArrival : Statement .barrierArrival := of_none _ rfl
theorem barrierRelease : Statement .barrierRelease := of_none _ rfl
theorem barrierTimeout : Statement .barrierTimeout := of_none _ rfl
theorem tstartReady : Statement .tstartReady := of_none _ rfl
theorem texitRetire : Statement .texitRetire := of_none _ rfl
theorem yieldWake : Statement .yieldWake := of_none _ rfl
theorem gangForm : Statement .gangForm := of_none _ rfl
theorem gangTimeout : Statement .gangTimeout := of_none _ rfl
theorem flitArrival : Statement .flitArrival := of_none _ rfl
theorem recvWake : Statement .recvWake := of_none _ rfl
theorem channelClaim : Statement .channelClaim := of_none _ rfl
theorem monitorWake : Statement .monitorWake := of_none _ rfl
theorem mwaitTimeout : Statement .mwaitTimeout := of_none _ rfl
theorem cntwWake : Statement .cntwWake := of_none _ rfl
theorem inboxMessageArrival : Statement .inboxMessageArrival := of_none _ rfl
theorem uiDelivery : Statement .uiDelivery := of_none _ rfl
theorem queueWake : Statement .queueWake := of_none _ rfl
theorem drawTileClaim : Statement .drawTileClaim := of_none _ rfl
theorem drawTileLand : Statement .drawTileLand := of_none _ rfl
theorem bodyStart : Statement .bodyStart := of_none _ rfl
theorem drawCompleteMessage : Statement .drawCompleteMessage := of_none _ rfl
theorem tableChangeAck : Statement .tableChangeAck := of_none _ rfl
theorem qldEntryArrival : Statement .qldEntryArrival := of_none _ rfl
theorem sfuStart : Statement .sfuStart := of_none _ rfl
theorem sfuComplete : Statement .sfuComplete := of_none _ rfl
theorem cisternRowMove : Statement .cisternRowMove := of_none _ rfl
theorem mldcPerform : Statement .mldcPerform := of_none _ rfl
theorem mspwEntryArrival : Statement .mspwEntryArrival := of_none _ rfl
theorem operandArrival : Statement .operandArrival := of_none _ rfl
theorem matrixStepStart : Statement .matrixStepStart := of_none _ rfl
theorem matrixStepEnd : Statement .matrixStepEnd := of_none _ rfl
theorem multicastRegister : Statement .multicastRegister := of_none _ rfl
theorem multicastLaunch : Statement .multicastLaunch := of_none _ rfl
theorem groupWatchdogExpiry : Statement .groupWatchdogExpiry := of_none _ rfl
theorem wellStoreLand : Statement .wellStoreLand := of_none _ rfl
theorem wellwinMirrorUpdate : Statement .wellwinMirrorUpdate := of_none _ rfl
theorem tileLockGrant : Statement .tileLockGrant := of_none _ rfl
theorem redAck : Statement .redAck := of_none _ rfl
theorem farAccessPerform : Statement .farAccessPerform := of_none _ rfl
theorem sliceLineEvict : Statement .sliceLineEvict := of_none _ rfl
theorem tlbWalkComplete : Statement .tlbWalkComplete := of_none _ rfl
theorem copyPiece : Statement .copyPiece := of_none _ rfl
theorem copytRead : Statement .copytRead := of_none _ rfl
theorem copytWrite : Statement .copytWrite := of_none _ rfl
theorem copyComplete : Statement .copyComplete := of_none _ rfl
theorem bkProbeStart : Statement .bkProbeStart := of_none _ rfl
theorem bkStep : Statement .bkStep := of_none _ rfl
theorem bkComplete : Statement .bkComplete := of_none _ rfl
theorem ovldAccept : Statement .ovldAccept := of_none _ rfl
theorem ovldStatus : Statement .ovldStatus := of_none _ rfl
theorem overlayLoaded : Statement .overlayLoaded := of_none _ rfl
theorem kernelLaunchStart : Statement .kernelLaunchStart := of_none _ rfl
theorem pumpKernelSaveTimeout : Statement .pumpKernelSaveTimeout := of_none _ rfl
theorem launchPageQueue : Statement .launchPageQueue := of_none _ rfl
theorem zeroFillStep : Statement .zeroFillStep := of_none _ rfl
theorem tqRequestPerform : Statement .tqRequestPerform := of_none _ rfl
theorem tqAnswer : Statement .tqAnswer := of_none _ rfl
theorem taskReinsert : Statement .taskReinsert := of_none _ rfl
theorem notifyWrite : Statement .notifyWrite := of_none _ rfl
theorem kernelNode : Statement .kernelNode := of_none _ rfl
theorem copyNode : Statement .copyNode := of_none _ rfl
theorem nearMemoryNode : Statement .nearMemoryNode := of_none _ rfl
theorem configureNode : Statement .configureNode := of_none _ rfl
theorem conditionNode : Statement .conditionNode := of_none _ rfl
theorem loopNode : Statement .loopNode := of_none _ rfl
theorem switchNode : Statement .switchNode := of_none _ rfl
theorem nodeComplete : Statement .nodeComplete := of_none _ rfl
theorem retiredUpdate : Statement .retiredUpdate := of_none _ rfl
theorem timeSliceExpiry : Statement .timeSliceExpiry := of_none _ rfl
theorem contextSave : Statement .contextSave := of_none _ rfl
theorem contextRestore : Statement .contextRestore := of_none _ rfl
theorem contextComplete : Statement .contextComplete := of_none _ rfl
theorem trapRecordWrite : Statement .trapRecordWrite := of_none _ rfl
theorem faultQueueWrite : Statement .faultQueueWrite := of_none _ rfl
theorem faultQueueAck : Statement .faultQueueAck := of_none _ rfl
theorem create : Statement .create := of_none _ rfl
theorem resize : Statement .resize := of_none _ rfl
theorem destroy : Statement .destroy := of_none _ rfl
theorem key : Statement .key := of_none _ rfl
theorem contextCreate : Statement .contextCreate := of_none _ rfl
theorem contextDestroy : Statement .contextDestroy := of_none _ rfl
theorem fqconsWrite : Statement .fqconsWrite := of_none _ rfl
theorem threadRead : Statement .threadRead := of_none _ rfl
theorem threadWrite : Statement .threadWrite := of_none _ rfl
theorem threadResume : Statement .threadResume := of_none _ rfl
theorem attest : Statement .attest := of_none _ rfl
theorem hostMemAccess : Statement .hostMemAccess := of_none _ rfl
theorem linkFailure : Statement .linkFailure := of_none _ rfl
theorem fabricWindowActivate : Statement .fabricWindowActivate := of_none _ rfl
theorem injectionWindowStart : Statement .injectionWindowStart := of_none _ rfl
theorem dbgHalt : Statement .dbgHalt := of_none _ rfl
theorem dbgRun : Statement .dbgRun := of_none _ rfl
theorem dbgInvi : Statement .dbgInvi := of_none _ rfl
theorem dbgRead : Statement .dbgRead := of_none _ rfl
theorem dbgWrite : Statement .dbgWrite := of_none _ rfl
theorem haltTriggerArrival : Statement .haltTriggerArrival := of_none _ rfl
theorem coreHaltStop : Statement .coreHaltStop := of_none _ rfl
theorem moduleReset : Statement .moduleReset := of_none _ rfl
theorem readySet : Statement .readySet := of_none _ rfl
theorem powerThrottle : Statement .powerThrottle := of_none _ rfl
theorem thermalHalt : Statement .thermalHalt := of_none _ rfl
theorem registerWrite : Statement .registerWrite := of_none _ rfl
theorem illegalInstruction : Statement .illegalInstruction := of_none _ rfl
theorem hashAccessComplete : Statement .hashAccessComplete := of_none _ rfl
theorem hostSnoop : Statement .hostSnoop := of_none _ rfl
theorem backInvalidateResponse : Statement .backInvalidateResponse := of_none _ rfl
theorem linkFlitReplay : Statement .linkFlitReplay := of_none _ rfl

end

end Sys2Proof.Laws.Roundtrip
end

