-- ==== Sys2Proof/Laws/Registers.lean ====
section
/-!
SUPPORT. The scalar register file: what is written is read back, x0 discards (R14), and what an instruction that has only
a result can change.
-/

namespace Sys2Proof.Machine

theorem vector_set_get (x : Vector Word 32) (d r : Reg) (v : Word) :
    (x.set d.toNat v d.isLt)[r.toNat]'r.isLt = if r = d then v else x[r.toNat]'r.isLt := by
  rw [Vector.getElem_set]
  by_cases h : r = d
  · simp [h]
  · have : ¬ d.toNat = r.toNat := fun e => h (BitVec.eq_of_toNat_eq e.symm)
    simp [h, this]
@[simp] theorem Seq.get_zero (q : Seq) : q.get 0#5 = 0#64 := by simp [Seq.get]
theorem Seq.put_get (q : Seq) (d r : Reg) (v : Word) : (q.put d v).get r = if r = d ∧ r ≠ 0 then v else q.get r := by
  unfold Seq.put Seq.get
  by_cases hr : r = 0#5
  · simp [hr]
  · by_cases hd : d = 0#5
    · simp [hd, hr]
    · simp [hd, hr, vector_set_get]
@[simp] theorem Thread.getX_zero (t : Thread) : t.getX 0#5 = 0#64 := by simp [Thread.getX, isShadow]
/-- Only a handler that runs decides which names are its shadow registers (R45). -/
theorem isShadow_congr {t u : Thread} (r : Reg) (h : t.uiAct = u.uiAct := by rfl) : isShadow t r = isShadow u r := by
  simp [isShadow, h]
/-- A thread's registers behind a write, the handler's shadow registers among them (R14, R45). -/
theorem Thread.setX_getX (t : Thread) (d r : Reg) (v : Word) : (t.setX d v).getX r = if r = d ∧ r ≠ 0 then v else t.getX r := by
  unfold Thread.setX Thread.getX
  by_cases hs : isShadow t d
  · simp only [hs, if_true]
    rw [isShadow_congr (u := t)]
    by_cases hr : isShadow t r
    · simp only [hr, if_true, Vector.getElem_set]
      simp [isShadow] at hs hr
      by_cases e : r = d
      · subst e
        have : ¬ r = 0#5 := by intro e; subst e; simp at hr
        simp [this]
      · have h1 : ¬ d.toNat = r.toNat := fun e' => e (BitVec.eq_of_toNat_eq e'.symm)
        have : ¬ (d.toNat - 24) % 6 = (r.toNat - 24) % 6 := by omega
        simp [e, this]
    · have e : r ≠ d := by rintro rfl; exact hr hs
      simp [hr, e]
  · simp only [hs]
    simp only [Bool.false_eq_true, if_false]
    rw [isShadow_congr (u := t)]
    by_cases hr : isShadow t r
    · have e : r ≠ d := by rintro rfl; exact hs hr
      simp [hr, e]
    · simp [hr, Seq.put_get]
/-- The registers of the agent that issues, behind a write. -/
theorem State.setX_getX (s : State) (d r : Reg) (v : Word) : (s.setX d v).getX r = if r = d ∧ r ≠ 0 then v else s.getX r := by
  unfold State.setX
  cases h : s.cur with
  | thread k => simp only [State.getX]; simp [h, Thread.setX_getX]
  | pump k => simp only [State.getX]; simp [h, Seq.put_get]
@[simp] theorem State.getX_zero (s : State) : s.getX 0#5 = 0#64 := by
  unfold State.getX; split <;> simp
/-- Passing an instruction leaves the registers of the sequencer alone. -/
@[simp] theorem Seq.pass_x (q : Seq) (n : Nat) : (q.pass n).x = q.x := by
  unfold Seq.pass; split <;> (try split) <;> rfl
@[simp] theorem Seq.pass_skip (q : Seq) (n : Nat) : (q.pass n).skip = q.skip := by
  unfold Seq.pass; split <;> (try split) <;> rfl
@[simp] theorem Seq.pass_get (q : Seq) (n : Nat) (r : Reg) : (q.pass n).get r = q.get r := by simp [Seq.get]
theorem State.pass_getX (s : State) (n : Nat) (r : Reg) : (s.pass n).getX r = s.getX r := by
  unfold State.pass State.count State.modSeq State.getX
  cases h : s.cur with
  | thread k => simp [h, Thread.getX, isShadow]
  | pump k => simp [h]

end Sys2Proof.Machine
end

