-- ==== Sys2Proof/Laws/Steps.lean ====
section
/-!
SUPPORT. What the shared operations of the meanings can do, said once: the checks of every instruction, the step of an engine,
a result, a trap, an event that is put on the agenda.
-/

namespace Sys2Proof.Machine

/-- An instruction that every check lets through on a thread has its own effect. -/
theorem checkedBy_thread (i : Instr) (pre : State → Option (Nat × Word)) (s : State) (f : State → State) (h : Nat) (c : s.cur = .thread h)
    (w : i.wf = true) (r : roleOk h i.role = true) (p : i.supervisor = true → (s.thread h).sup = true) (b : s.issue.brk = false)
    (k : pre s = none) : checkedBy i pre s f = .next (f s) := by
  unfold checkedBy
  rw [c]
  have q : (i.supervisor && !(s.thread h).sup) = false := by
    cases e : i.supervisor
    · rfl
    · simp [p e]
  simp [w, r, b, k, q]
/-- The same on the kernel core of a pump. -/
theorem checkedBy_pump (i : Instr) (pre : State → Option (Nat × Word)) (s : State) (f : State → State) (n : Nat) (c : s.cur = .pump n)
    (w : i.wf = true) (r : pumpRuns i = true) (k : pre s = none) : checkedBy i pre s f = .next (f s) := by
  unfold checkedBy
  rw [c]
  simp [w, r, k]
/-- A check of the instruction's own that fails makes it trap (R15, R23). -/
theorem checkedBy_fails (i : Instr) (pre : State → Option (Nat × Word)) (s : State) (f : State → State) (h : Nat) (c : s.cur = .thread h)
    (w : i.wf = true) (r : roleOk h i.role = true) (p : i.supervisor = true → (s.thread h).sup = true) (cause : Nat) (v : Word)
    (k : pre s = some (cause, v)) : checkedBy i pre s f = .next (s.trap cause v) := by
  unfold checkedBy
  rw [c]
  have q : (i.supervisor && !(s.thread h).sup) = false := by
    cases e : i.supervisor
    · rfl
    · simp [p e]
  simp [w, r, k, q]
/-- The checks that come before an instruction's own, in their order (R15). -/
theorem checkedBy_illegal (i : Instr) (pre : State → Option (Nat × Word)) (s : State) (f : State → State) (h : Nat) (c : s.cur = .thread h)
    (w : i.wf = false) : checkedBy i pre s f = .next (parkTrap h 1 (s.thread h).seq.pc 0 s) := by
  unfold checkedBy
  rw [c]
  simp [w, State.trap, c]
theorem checkedBy_role (i : Instr) (pre : State → Option (Nat × Word)) (s : State) (f : State → State) (h : Nat) (c : s.cur = .thread h)
    (w : i.wf = true) (r : roleOk h i.role = false) : checkedBy i pre s f = .next (parkTrap h 2 (s.thread h).seq.pc 0 s) := by
  unfold checkedBy
  rw [c]
  simp [w, r, State.trap, c]
theorem checkedBy_privilege (i : Instr) (pre : State → Option (Nat × Word)) (s : State) (f : State → State) (h : Nat) (c : s.cur = .thread h)
    (w : i.wf = true) (r : roleOk h i.role = true) (p : i.supervisor = true) (u : (s.thread h).sup = false) :
    checkedBy i pre s f = .next (parkTrap h 3 (s.thread h).seq.pc 0 s) := by
  unfold checkedBy
  rw [c]
  simp [w, r, p, u, State.trap, c]
/-- Whatever the checks find, the machine goes on. -/
theorem checkedBy_next (i : Instr) (pre : State → Option (Nat × Word)) (s : State) (f : State → State) :
    ∃ t, checkedBy i pre s f = .next t := ⟨_, rfl⟩
/-- An instruction whose whole effect is a result: the register is written and the instruction passed. -/
theorem result_thread (i : Instr) (d : Reg) (s : State) (f : State → Word) (h : Nat) (c : s.cur = .thread h)
    (w : i.wf = true) (r : roleOk h i.role = true) (p : i.supervisor = true → (s.thread h).sup = true) (b : s.issue.brk = false) :
    result i d s f = .next ((s.setX d (f s)).pass i.len) :=
  checkedBy_thread i (fun _ => none) s (fun s => (s.setX d (f s)).pass i.len) h c w r p b rfl
theorem result_pump (i : Instr) (d : Reg) (s : State) (f : State → Word) (n : Nat) (c : s.cur = .pump n)
    (w : i.wf = true) (r : pumpRuns i = true) : result i d s f = .next ((s.setX d (f s)).pass i.len) :=
  checkedBy_pump i (fun _ => none) s (fun s => (s.setX d (f s)).pass i.len) n c w r rfl
/-- The step of an engine acts on the event that it is an occurrence of. -/
theorem onEvent_some (s : State) (e : Event) (f : Event → State) (h : s.ev = some e) : onEvent s f = .next (f e) := by
  unfold onEvent; rw [h]
theorem onEvent_none (s : State) (f : Event → State) (h : s.ev = none) : onEvent s f = .next s := by
  unfold onEvent; rw [h]

/-- Every instruction and every step of an engine answers a next state. -/
theorem exec_next (i : Instr) (s : State) : ∃ t, exec i s = .next t := by
  cases i <;> exact ⟨_, rfl⟩

/-! ### Threads -/

/-- A thread that is taken past its instruction. -/
@[simp] theorem State.passOf_thread (s : State) (h n : Nat) : (s.passOf h n).thread h =
    { s.thread h with seq := (s.thread h).seq.pass n, instret := (s.thread h).instret + 1 } := by simp [State.passOf]
theorem State.passOf_other (s : State) (h n g : Nat) (e : g ≠ h) : (s.passOf h n).thread g = s.thread g := by
  simp [State.passOf, State.modThread_thread, e]
/-- A blocked thread that is woken issues in the next cycle, one that waited in this one (R9, R20). -/
theorem State.wake_blocked (s : State) (h : Nat) (w : Why) (b : (s.thread h).run = .blocked w) :
    (s.wake h).thread h = { s.thread h with run := .ready, notBefore := s.cycle + 1 } := by simp [State.wake, b]
theorem State.goesOn_blocked (s : State) (h : Nat) (w : Why) (b : (s.thread h).run = .blocked w) :
    (s.goesOn h).thread h = { s.thread h with run := .ready, notBefore := s.cycle } := by simp [State.goesOn, b]
/-- Leaving a gang changes no thread but the member's gang. -/
theorem State.leavesGang_thread (s : State) (m g : Nat) :
    (s.leavesGang m).thread g = if g = m then { s.thread m with gang := none } else s.thread g := by
  have e : (s.leavesGang m).threads = (s.modThread m fun t => { t with gang := none }).threads := by
    unfold State.leavesGang
    dsimp only
    cases (s.thread m).gang with
    | none => rfl
    | some g =>
      obtain ⟨leader, n, j⟩ := g
      cases (s.thread m).fin with
      | none => rfl
      | some v =>
        dsimp only
        cases finEvent m v (s.thread m) <;> rfl
  unfold State.thread
  rw [e]
  exact State.modThread_thread ..
theorem State.disband_other (ms : List Nat) : ∀ (s : State) (g : Nat), (s.disband ms).thread g = { s.thread g with gang := ((s.disband ms).thread g).gang } := by
  unfold State.disband
  induction ms with
  | nil => intro s g; rfl
  | cons m ms ih =>
    intro s g
    have r := ih (s.leavesGang m) g
    simp only [List.foldl_cons]
    rw [r, State.leavesGang_thread]
    split
    · subst_vars; rfl
    · rfl
/-- A trap that ends a gang changes no thread but its place in it and what it has waited for (R29). -/
theorem State.trapDisbands_other (s : State) (h g : Nat) (pc : Word) : (s.trapDisbands h pc).thread g =
    { s.thread g with gang := ((s.trapDisbands h pc).thread g).gang, fin := ((s.trapDisbands h pc).thread g).fin } := by
  unfold State.trapDisbands
  refine List.foldlRecOn (membersOf (s.thread h) h) _
    (motive := fun u : State => u.thread g = { s.thread g with gang := (u.thread g).gang, fin := (u.thread g).fin }) rfl fun u e m _ => ?_
  have tr (t u v : Thread) (a : u = { t with gang := u.gang, fin := u.fin }) (b : v = { u with gang := v.gang, fin := v.fin }) :
      v = { t with gang := v.gang, fin := v.fin } := b.trans (by rw [a])
  have leaves (w : State) : (w.leavesGang m).thread g = { w.thread g with gang := ((w.leavesGang m).thread g).gang, fin := ((w.leavesGang m).thread g).fin } := by
    rw [State.leavesGang_thread]
    split
    · subst_vars; rfl
    · rfl
  have undone : (u.modThread m fun t => { t with fin := some undoes }).thread g =
      { u.thread g with gang := ((u.modThread m fun t => { t with fin := some undoes }).thread g).gang,
                        fin := ((u.modThread m fun t => { t with fin := some undoes }).thread g).fin } := by
    rw [State.modThread_thread]
    split
    · subst_vars; rfl
    · rfl
  have either (c : Bool) : ((if c then u.modThread m fun t => { t with fin := some undoes } else u).leavesGang m).thread g =
      { u.thread g with
        gang := (((if c then u.modThread m fun t => { t with fin := some undoes } else u).leavesGang m).thread g).gang
        fin := (((if c then u.modThread m fun t => { t with fin := some undoes } else u).leavesGang m).thread g).fin } := by
    cases c
    · exact leaves u
    · exact tr _ _ _ undone (leaves _)
  exact tr _ _ _ e (either _)

/-! ### Traps -/

/-- A trace event changes the debug module of its cluster, and nothing else (R396). -/
theorem traceEvent_only (cl kind h cause : Nat) (pc : Word) (s : State) :
    traceEvent cl kind h cause pc s = { s with clusters := (traceEvent cl kind h cause pc s).clusters } := by
  unfold traceEvent
  dsimp only
  split <;> rfl
@[simp] theorem traceEvent_threads (cl kind h cause : Nat) (pc : Word) (s : State) :
    (traceEvent cl kind h cause pc s).threads = s.threads := by rw [traceEvent_only]
@[simp] theorem traceEvent_mem (cl kind h cause : Nat) (pc : Word) (s : State) :
    (traceEvent cl kind h cause pc s).mem = s.mem := by rw [traceEvent_only]
/-- Without a trace nothing happens. -/
theorem traceEvent_off (cl kind h cause : Nat) (pc : Word) (s : State) (n : (s.cluster cl).dbg.trcBase = 0) :
    traceEvent cl kind h cause pc s = s := by
  unfold traceEvent
  dsimp only
  rw [n]
  rfl
@[simp] theorem sendRecord_threads (s : State) (p cause latency : Nat) (sup hard : Bool) (r : TrapRecord) :
    (sendRecord s p cause latency sup hard r).threads = s.threads := by
  unfold sendRecord
  dsimp only
  repeat' split
  all_goals simp
@[simp] theorem sendRecord_mem (s : State) (p cause latency : Nat) (sup hard : Bool) (r : TrapRecord) :
    (sendRecord s p cause latency sup hard r).mem = s.mem := by
  unfold sendRecord
  dsimp only
  repeat' split
  all_goals simp
/-- A trap writes its own thread, which parks, and ends the gang of the others and their waits in the instruction; nothing else of any thread
(R29, R358). -/
theorem parkTrap_thread (h cause : Nat) (pc val : Word) (s : State) (g : Nat) :
    (parkTrap h cause pc val s).thread g =
      { (if g = h then
          { s.thread h with run := .parked, parkReq := false, frozen := false, trapCause := BitVec.ofNat 8 cause, trapPc := pcField pc, trapVal := val,
                            record := some (trapRecord s h cause pc val), walkFault := none, relAt := none, drawWait := false, meets := none,
                            seq := { (s.thread h).seq with rptRun := none } }
         else s.thread g) with gang := ((parkTrap h cause pc val s).thread g).gang, fin := ((parkTrap h cause pc val s).thread g).fin } := by
  have k : ∀ t u : State, t.threads = u.threads → ∀ x, t.thread x = u.thread x := fun t u e x => by unfold State.thread; rw [e]
  have e : ∀ x, (parkTrap h cause pc val s).thread x = _ := fun x => by
    unfold parkTrap
    rw [k _ _ (sendRecord_threads ..), k _ _ (traceEvent_threads ..)]
  rw [e g, State.trapDisbands_other, State.modThread_thread]
  split <;> rfl

/-! ### The agenda -/

/-- An event that is put on the agenda is there. -/
theorem State.due_later (s : State) (n : Nat) (e : Event) : (s.cycle + n, e) ∈ (s.later n e).agenda :=
  (State.mem_later s n e _).mpr (.inl rfl)
/-- What was on it stays. -/
theorem State.later_keeps (s : State) (n : Nat) (e : Event) (x : Nat × Event) (h : x ∈ s.agenda) : x ∈ (s.later n e).agenda :=
  (State.mem_later s n e x).mpr (.inr h)

end Sys2Proof.Machine
end

