-- ==== Sys2Proof/Tests/Slice0.lean ====
section
/-!
SUPPORT. Tests: the checks of WellFormed refuse ill-formed terms; words that the chapters of spec/ assemble decode to their
instructions; for each statement of Obligations.lean with hypotheses, states and operands that meet them (`test_met_...`);
and a few single steps whose results the chapters work out.
-/

set_option Elab.async false

namespace Sys2Proof.Tests

open Sys2Proof Sys2Proof.Machine Sys2Proof.Spec

/-! ### States -/

/-- Scalar registers by number. -/
def regs (xs : List (Nat × Word)) : Vector Word 32 :=
  xs.foldl (fun (v : Vector Word 32) p => v.set (p.1 % 32) p.2 (Nat.mod_lt _ (by decide))) (Vector.replicate 32 0)
/-- A thread in its rotation, with some registers. -/
def thr (xs : List (Nat × Word)) : Thread := { run := .ready, seq := { pc := 0x1000, x := regs xs } }
/-- A thread that is blocked. -/
def wait (w : Why) (xs : List (Nat × Word) := []) : Thread := { thr xs with run := .blocked w }
/-- Thread h issues. -/
def st (h : Nat) (ts : Table Thread) : State := { State.reset with cur := .thread h, threads := ts, agenda := [] }
/-- An engine takes a step. -/
def ev (e : Event) (ts : Table Thread := []) : State := { State.reset with ev := some e, threads := ts, agenda := [] }
/-- The kernel core of pump 0 issues. -/
def pst (xs : List (Nat × Word)) : State := { State.reset with cur := .pump 0, agenda := [], pumps := [(0, { seq := { x := regs xs } })] }
/-- Access thread 0 and execute thread 4 with registers. -/
def a0 (xs : List (Nat × Word)) : State := st 0 [(0, thr xs)]
def e4 (xs : List (Nat × Word)) : State := st 4 [(4, thr xs)]

theorem noTrace_of {s : State} (h : s.clusters = []) : NoTrace s := by
  intro c; unfold State.cluster; rw [h]; rfl

/-! ### WellFormed: an ill-formed term for each check (R42, R47) -/

theorem test_wf_sk : Instr.wf (.sk 0 9 0 1) = false ∧ Instr.wf (.sk 0 9 3 7) = true := by decide
theorem test_wf_ski : Instr.wf (.ski 0 9 0 1) = false ∧ Instr.wf (.ski 64 9 1 6) = false ∧ Instr.wf (.ski 64 9 1 7) = false ∧
    Instr.wf (.ski 63 9 1 7) = true ∧ Instr.wf (.ski 64 9 1 5) = true := by decide
theorem test_wf_csr : Instr.wf (.csrr 6 1) = false ∧ Instr.wf (.csrw 0x13 1) = false ∧ Instr.wf (.csrs 0xFFF 1) = false ∧
    Instr.wf (.csrc 0x102 1) = false ∧ Instr.wf (.csrr 0x101 1) = true := by decide
theorem test_wf_parcel : Instr.wf (.vaddF32Parcel 0 0) = false ∧ Instr.wf (.vaddF32Parcel 0 1) = true := by decide
theorem test_wf_cntw : Instr.wf (.cntw 5 1 2) = false ∧ Instr.wf (.cntw 4 1 2) = true := by decide
theorem test_wf_float_or_int : Instr.wf (.vadd 3 1 2 3) = false ∧ Instr.wf (.vsub 4 1 2 3) = false ∧ Instr.wf (.vmul 3 1 2 3) = false ∧
    Instr.wf (.vfma 4 1 2 3) = false ∧ Instr.wf (.vfms 3 1 2 3) = false ∧ Instr.wf (.vmin 4 1 2 3) = false ∧
    Instr.wf (.vmax 3 1 2 3) = false ∧ Instr.wf (.vabs 4 1 2) = false ∧ Instr.wf (.vneg 3 1 2) = false ∧
    Instr.wf (.vrsum 4 1 2) = false ∧ Instr.wf (.vrmax 3 1 2) = false ∧ Instr.wf (.vrmin 4 1 2) = false := by decide
theorem test_wf_int : Instr.wf (.vminN 2 1 2 3) = false ∧ Instr.wf (.vmaxN 0 1 2 3) = false ∧ Instr.wf (.vand 4 1 2 3) = false ∧
    Instr.wf (.vor 4 1 2 3) = false ∧ Instr.wf (.vxor 2 1 2 3) = false ∧ Instr.wf (.vnot 0 1 2) = false ∧ Instr.wf (.vshl 1 1 2 3) = false ∧
    Instr.wf (.vshr 4 1 2 3) = false ∧ Instr.wf (.vsra 2 1 2 3) = false ∧ Instr.wf (.vextN 2 1 2 3) = false ∧
    Instr.wf (.vrmaxN 4 1 2) = false ∧ Instr.wf (.vrminN 0 1 2) = false := by decide
theorem test_wf_float : Instr.wf (.vrcp 3 1 2) = false ∧ Instr.wf (.vrsq 5 1 2) = false ∧ Instr.wf (.vsqrt 7 1 2) = false ∧
    Instr.wf (.vdiv 4 1 2 3) = false ∧ Instr.wf (.vexp2 3 1 2) = false ∧ Instr.wf (.vlog2 6 1 2) = false ∧
    Instr.wf (.vsinp 5 1 2) = false ∧ Instr.wf (.vcosp 3 1 2) = false ∧ Instr.wf (.vtanh 7 1 2) = false := by decide
theorem test_wf_vcmp : Instr.wf (.vcmp 0 4 1 2 3) = false ∧ Instr.wf (.vcmp 5 6 1 2 3) = false ∧ Instr.wf (.vcmp 3 0 1 2 3) = false ∧
    Instr.wf (.vcmp 5 5 1 2 3) = true := by decide
theorem test_wf_conversions : Instr.wf (.vcvt 0 0 12 1 2 3) = false ∧ Instr.wf (.vcvt 4 1 0 1 2 3) = false ∧
    Instr.wf (.vqnt 0 0 0 1 2 3) = false ∧ Instr.wf (.vqnt 5 0 0 1 2 3) = false ∧ Instr.wf (.vqnt 1 1 0 1 2 3) = false := by decide
theorem test_wf_moves : Instr.wf (.viota 7 1) = false ∧ Instr.wf (.vmovi 1 0 1) = false ∧ Instr.wf (.vtopk 6 1 2 3) = false ∧
    Instr.wf (.vtopkN 0 1 2 3) = false ∧ Instr.wf (.wacc 6 1 2) = false ∧ Instr.wf (.waccp 3 1 2 3) = false := by decide
theorem test_wf_accesses : Instr.wf (.ld 0 6 0 3 1 2) = false ∧ Instr.wf (.ld 0 0 1 3 1 2) = false ∧ Instr.wf (.st 0 7 0 1 2) = false ∧
    Instr.wf (.ldl 0 3 0 0 1 2) = false ∧ Instr.wf (.ldl 0 0 1 3 1 2) = false ∧ Instr.wf (.stl 0 3 0 1 2) = false ∧
    Instr.wf (.tld 0 1 2 6) = false ∧ Instr.wf (.tst 0 1 2 7) = false := by decide
theorem test_wf_atomics : Instr.wf (.amoAdd 1 0 0 1 2 3) = false ∧ Instr.wf (.amoCas 0 1 0 1 2 3) = false ∧
    Instr.wf (.amoSwap 6 3 0 1 2 3) = false ∧ Instr.wf (.redAdd 1 1 0 1 2) = false ∧ Instr.wf (.redFmax 1 3 1 2) = false ∧
    Instr.wf (.redMin 5 2 0 1 2) = true ∧ Instr.wf (.fence 0) = false ∧ Instr.wf (.fence 6) = false ∧ Instr.wf (.fence 5) = true := by decide
theorem test_wf_events : Event.wf (.tlbiRetire 4096) = false ∧ Event.wf (.tlbiRetire 4095) = true ∧
    Event.wf (.bodyStart 512) = false ∧ Event.wf (.multicastLaunch 16 0) = false ∧ Event.wf (.kernelLaunchStart 384) = false ∧
    Event.wf (.destroy 16) = false ∧ Event.wf (.contextSave 1024 false) = false := by decide

/-! ### Decoding: words that the chapters assemble, bit by bit from their encoding tables -/

theorem test_decode_control : decodeTableWord 32 0xFE513117 = some (.bCc 0x3F9 8 19 0 2) ∧ decodeTableWord 32 0x1234528F = some (.lih 0x12345 5) ∧
    decodeTableWord 32 0x15785285 = some (.addi 0xABC 5 5) ∧ decodeTableWord 32 0x00022311 = some (.addpc 0x22 6) ∧
    decodeTableWord 32 0x20825061 = some (.csrw 0x41 5) ∧ decodeTableWord 32 0x00299C8D = some (.shli 20 25 25) := by decide +kernel
theorem test_decode_threads : decodeTableWord 32 0x00C1A039 = some (.mon 26 0) ∧ decodeTableWord 32 0x014014B9 = some (.mwait 0 1 9) ∧
    decodeTableWord 32 0x01800039 = some (.mclr 0) ∧ decodeTableWord 32 0x000850B9 = some (.send 4 5 1) ∧
    decodeTableWord 32 0x004462B9 = some (.recv 2 6 5) ∧ decodeTableWord 32 0x0040003F = some .texit := by decide +kernel
theorem test_decode_vectors : decodeTableWord 32 0x00C00F57 = some (.wrnd 0 30) ∧ decodeTableWord 16 0x28C0 = some (.vaddF32Parcel 5 3) ∧
    decodeTableWord 32 0x00FFC553 = some (.vtopk 0 31 28 10) ∧ decodeTableWord 32 0xA056BF4B = some (.vor 5 11 11 30) := by decide +kernel
theorem test_decode_draws : decodeTableWord 32 0x40009041 = some (.dcan 9) ∧ decodeTableWord 32 0x80009541 = some (.dstat 9 10) ∧
    decodeTableWord 32 0xC0000041 = some .bdone ∧ decodeTableWord 32 0x01406043 = some (.tdef 5 6) ∧
    decodeTableWord 32 0x41400043 = some (.tinv 5) ∧ decodeTableWord 32 0x00001029 = some (.qld 1 0) ∧
    decodeTableWord 32 0x00401129 = some (.qst 1 2) ∧ decodeTableWord 32 0x008C5029 = some (.qpx 6 5 0) := by decide +kernel
theorem test_decode_matrix : decodeTableWord 32 0x0480005D = some (.mzero 1 0) ∧ decodeTableWord 32 0x0940B05D = some (.mstc 2 11) ∧
    decodeTableWord 32 0x0012805F = some (.mspw 0 9 8) ∧ decodeTableWord 32 0x0000625B = some (.vldc 6 4) ∧
    decodeTableWord 32 0x0040625B = some (.vstc 6 4) ∧ decodeTableWord 32 0x0080005B = some (.vwaitc 0) := by decide +kernel
theorem test_decode_memory : decodeTableWord 32 0x00267421 = some (.ld 0 2 0 3 7 8) ∧ decodeTableWord 32 0x0046D623 = some (.st 0 4 3 13 12) ∧
    decodeTableWord 32 0x0007ADA5 = some (.ldl 0 0 0 3 26 27) ∧ decodeTableWord 32 0x02027627 = some (.stl 4 0 1 7 12) ∧
    decodeTableWord 32 0x00CA402D = some (.tst 3 5 4 0) ∧ decodeTableWord 32 0x040A642F = some (.amoAdd 0 0 1 5 6 8) ∧
    decodeTableWord 32 0x00649135 = some (.cpyt 0 0 18 9 2) := by decide +kernel
theorem test_decode_near_memory : decodeTableWord 32 0x001B7C37 = some (.bkCpy 13 23 24) ∧ decodeTableWord 32 0x00957C37 = some (.bkAnd 10 23 24) ∧
    decodeTableWord 32 0x01957C37 = some (.bkMaj 10 23 24) ∧ decodeTableWord 32 0x000E62C7 = some (.ovld 7 6 5) ∧
    decodeTableWord 32 0x004E82C7 = some (.ovldGo 7 8 5) ∧ decodeTableWord 32 0x04C00047 = some .pend := by decide +kernel
theorem test_decode_tasks : decodeTableWord 32 0x0000A045 = some (.tqadd 10) ∧ decodeTableWord 32 0x00800545 = some (.tqtry 10) ∧
    decodeTableWord 32 0x00C00045 = some .tcmt ∧ decodeTableWord 32 0x01000045 = some .tdone := by decide +kernel
/-- CPYT.gw of chapter 19: a source in memory, a destination in a well. -/
theorem test_decode_cpyt_gw : decodeTableWord 32 0x014ED335 = some (.cpyt 0 1 7 13 6) := by decide +kernel

/-! ### States that meet the hypotheses of the statements -/

/-- An ADDI placed for thread 0, and a PEND for pump 0. -/
def placed : State := State.reset.withFetchWord 32 0xFFFE0285
def placedPump : State := State.reset.withFetchWord 32 0x04C00047

theorem test_met_DecodeOfEncode : Encoded (.csrc 0x101 31) ∧ Instr.wf (.csrc 0x101 31) = true := ⟨rfl, rfl⟩
theorem test_met_LengthFromFirstParcel : decode [0x0006, 7] = .ok (.nop16, [7]) ∧ decode [0x0285, 0xFFFE, 7] = .ok (.addi 0x7FFF 0 5, [7]) := ⟨rfl, rfl⟩
theorem test_met_StepTakesDueEvent : (let s := { State.reset with cycle := 1 }
    s.agenda = [(1, .readySet (.hub 0 0))] ∧ 1 ≤ s.cycle ∧ isLate (.readySet (.hub 0 0)) = false ∧ Event.wf (.readySet (.hub 0 0)) = true ∧
    (∀ h, tfind (s.thread h).pend takeNum = none) ∧ Rising s.threads) := ⟨rfl, by decide, rfl, rfl, fun _ => rfl, by decide⟩
/-- A thread whose TQTRY has no answer arrives at a barrier with another count, and would park. -/
theorem test_met_StepTakesDueEvent_early :
    let s := { st 0 [(0, { wait (.arrive 3 2 false 7) with pend := [(takeNum, none)] })] with
      clusters := [(0, { bars := [(3, { count := 4, arrived := 1 })] })], agenda := [(0, .barrierArrival 0)] }
    ∃ t, exec (Event.instr (.barrierArrival 0)) { s with agenda := [], ev := some (.barrierArrival 0) } = .next t ∧ (0, s.thread 0) ∈ s.threads ∧
      (tfind (s.thread 0).pend takeNum).isSome = true ∧ (s.thread 0).run ≠ .parked ∧ (t.thread 0).run = .parked :=
  ⟨_, rfl, by decide +kernel, by decide +kernel, by decide +kernel, by decide +kernel⟩
theorem test_met_StepEndsCycle : (∀ x, State.reset.agenda.head? = some x → State.reset.cycle < x.1) ∧ State.reset.candidate = none ∧
    (∀ w, w ∈ State.reset.landings → w.at_ ≠ State.reset.cycle + 1) :=
  ⟨by intro x h; cases h; decide, by decide +kernel, by intro w h; cases h⟩
/-- Reset with a debug module that has trace records to write. -/
def traced (now wait : List TraceRec) : State :=
  { State.reset with clusters := [(0, { dbg := { trcBase := 0x30000, trcNow := now, trcWait := wait } })] }
theorem test_met_StepEndsCycle_trace :
    let r : TraceRec := { kind := 1, handle := 8, w0 := 1, w1 := 0x10000 }
    let x : TraceRec := { r with kind := 5 }
    ∀ y, y ∈ [([r], []), ([x], [r])] → let s := traced y.1 y.2; let k := s.cluster 0
      (∀ x, s.agenda.head? = some x → s.cycle < x.1) ∧ s.candidate = none ∧ s.clusters = [(0, k)] ∧ k.dbg.trcBase ≠ 0 ∧
      k.dbg.halted = false ∧ (∀ w, w ∈ s.landings → w.at_ ≠ s.cycle + 1) ∧
      (∀ x, x ∈ s.ctxs → x.2.launchPage = none) ∧ k.dbg.trcLost.toNat < 2 ^ 32 - 1 ∧
      s.mustWait (linesOf (k.dbg.trcBase.toNat + 16 * (k.dbg.trcPos.toNat % 2 ^ k.dbg.trcLog)) 16) true (s.reachedAt (.trace 0)) 0 = false := by
  intro r x y h
  refine ⟨?_, ?_⟩
  · intro z k; cases k; exact (by decide : (0 : Nat) < 1)
  · revert y; decide +kernel
theorem test_met_StepRunsDecodedInstruction : (let s := placed; let f := State.fetchInsn { s with cur := .thread 0, issue := {} } 0x10000
    NothingDue s ∧ s.candidate = some (0, .thread 0) ∧ (s.thread 0).gang = none ∧ (s.thread 0).frozen = false ∧
    (s.thread 0).seq.pc = 0x10000 ∧ (s.thread 0).seq.skip = 0 ∧ (s.thread 0).seq.rptRun = none ∧ f.1 = .ok 0xFFFE0285 false ∧
    decodeInsn false 0xFFFE0285 = some (.addi 0x7FFF 0 5) ∧ isRpt (.addi 0x7FFF 0 5) = false ∧
    State.operandsReady { f.2.2 with issue := { insn := 0xFFFE0285, brk := false } } 0 (.addi 0x7FFF 0 5) = true) :=
  ⟨Or.inl (by decide +kernel), by decide +kernel⟩
theorem test_met_StepRunsPumpInstruction : (let s := placedPump; let f := State.fetchInsn { s with cur := .pump 0, issue := {} } 0
    NothingDue s ∧ s.candidate = some (4096, .pump 0) ∧ (s.pump 0).seq = {} ∧ f.1 = .ok 0x04C00047 false ∧
    decodeInsn false 0x04C00047 = some .pend ∧ isRpt .pend = false ∧
    State.pumpReady { f.2.2 with issue := { insn := 0x04C00047, brk := false } } 0 .pend = true) :=
  ⟨Or.inl (by decide +kernel), by decide +kernel⟩
theorem noLimit (point q : Nat) : State.limitAt { placed with cur := .thread 0 } point q = 0 := by
  have e : State.part { placed with cur := .thread 0 } q = if q = 0 then some placePart else none := by
    show tfind placed.parts q = _
    have : placed.parts = [(0, placePart)] := by decide +kernel
    rw [this]; unfold tfind; split
    · rfl
    · split
      · rfl
      · rfl
  unfold State.limitAt; rw [e]
  by_cases h : q = 0
  · rw [if_pos h]; simp only []; split
    · rfl
    · split <;> rfl
  · rw [if_neg h]
theorem test_met_FetchReadsMemory : (let s := { placed with cur := .thread 0 }
    ∃ p, s.cur = .thread 0 ∧ s.translate (s.viewOf 0) 0x10000 .fetch = .ok p 0 ∧ tfind (s.core (coreOf 0)).icache (p.key / 2) = none ∧
      s.onDeadLink p.key = false ∧ s.unready p.key = false ∧ (linesOf p.key 2).any s.unitBroken = false ∧ (s.thread 0).fetchIn = none ∧
      ∀ point q, s.limitAt point q = 0) ∧
    (let s := { placed with cur := .thread 0, broken := [.line 0x10000] }
      ∃ p, s.cur = .thread 0 ∧ s.translate (s.viewOf 0) 0x10000 .fetch = .ok p 0 ∧ tfind (s.core (coreOf 0)).icache (p.key / 2) = none ∧
        (linesOf p.key 2).any s.unitBroken = true) ∧
    (let s := { placed with cur := .thread 0, cores := [], clusters := [(0, { tlb := (placed.core 0).tlb })] }
      ∃ p, s.cur = .thread 0 ∧ s.translate (s.viewOf 0) 0x10000 .fetch = .ok p 4 ∧ 4 ≠ 0) :=
  ⟨⟨_, rfl, rfl, by decide +kernel, by decide +kernel, by decide +kernel, by decide +kernel, by decide +kernel, noLimit⟩,
    ⟨_, rfl, rfl, by decide +kernel, by decide +kernel⟩, _, rfl, rfl, by decide⟩
/-- A step from reset with an instruction placed runs it: ADDI x5, x0, -1. -/
theorem test_step_runs_addi : (match step placed with | .next t => ((t.thread 0).getX 5, (t.thread 0).seq.pc) | _ => (0, 0)) =
    (0xFFFFFFFFFFFFFFFF, 0x10004) := by decide +kernel

/-! #### Registers, checks, integer instructions, control flow -/

/-- A thread in an interrupt handler. -/
def inHandler : State := st 0 [(0, { thr [(24, 7)] with uiAct := true })]

theorem test_met_ScalarRegisterFile : (inHandler.cur = .thread 0 ∧ (inHandler.thread 0).uiAct = true ∧ 24 ≤ (24 : Reg).toNat ∧ (29 : Reg).toNat ≤ 29) ∧
    ((a0 []).cur = .thread 0 ∧ ((a0 []).thread 0).uiAct = false) ∧ (pst []).cur = .pump 0 := by decide +kernel
theorem test_met_IssueChecksInOrder : (a0 []).cur = .thread 0 ∧ Encoded (.fence 0) ∧ Instr.wf (.fence 0) = false ∧
    Instr.wf (.vadd 0 1 2 3) = true ∧ Encoded (.vadd 0 1 2 3) ∧ roleOk 0 (Instr.role (.vadd 0 1 2 3)) = false ∧
    Encoded .halt ∧ roleOk 0 (Instr.role .halt) = true ∧ Instr.supervisor .halt = true ∧ ((a0 []).thread 0).sup = false := by
  refine ⟨rfl, rfl, ?_⟩; exact ⟨by decide +kernel, by decide +kernel, rfl, by decide +kernel, rfl, by decide +kernel⟩
theorem test_met_KernelCoreRefuses : (pst []).cur = .pump 0 ∧ (Encoded (.ovld 1 2 3) ∧ pumpRuns (.ovld 1 2 3) = false) ∧
    (Encoded (.vadd 0 1 2 3) ∧ pumpRuns (.vadd 0 1 2 3) = false) := ⟨rfl, ⟨rfl, rfl⟩, rfl, rfl⟩
/-- A gang of threads 0 and 8. -/
def pair8 : State := st 0 [(0, { thr [] with gang := some (0, 2, 0) }), (8, { thr [] with gang := some (0, 2, 1) })]
theorem test_met_TrapParksTheThread : NoTrace pair8 ∧ 0 ∈ membersOf (pair8.thread 0) 0 ∧ (8 ∈ membersOf (pair8.thread 0) 0 ∨ 1 ∈ membersOf (pair8.thread 0) 0) ∧
    (2000 ∉ membersOf (pair8.thread 0) 0 ∧ 2000 ≠ 0) := ⟨noTrace_of rfl, by decide +kernel⟩
theorem test_met_TrapRecordWord0 : (255 < 256 ∧ 15 < 16 ∧ 1023 < 1024 ∧ (8 = 2 ∨ 8 = 4 ∨ 8 = 8) ∧ 7 < 8) ∧ (0 < 256 ∧ 0 < 16 ∧ 0 < 1024 ∧ 1 < 2) := by
  decide
theorem test_met_IntegerInstructions : (aluRef (a0 [(5, 1)]).getX 0 (.add 5 5 6) = some (6, 2) ∧ Runs (.add 5 5 6) (a0 [(5, 1)])) ∧
    (aluRef (a0 []).getX 0 (.add 5 5 0) = some (0, 0) ∧ Runs (.add 5 5 0) (a0 [])) ∧
    (aluRef (e4 []).getX 0x1FFF (.addpc 1 6) = some (6, 0x2000) ∧ Runs (.addpc 1 6) (e4 [])) ∧ Runs (.divn 5 5 6) (pst []) := by decide +kernel
theorem test_met_ImmediateArithmetic : ∀ s, s = a0 [(5, 1)] ∨ s = pst [(5, 1)] →
    (∀ i, i = 0 ∨ i = 0x3FFF ∨ i = 0x4000 ∨ i = 0x7FFF → Runs (.addi i 5 6) s ∧ Runs (.andi i 5 6) s ∧ Runs (.ori i 5 6) s ∧ Runs (.xori i 5 6) s ∧ Runs (.addi i 0 0) s) := by
  rintro _ (rfl | rfl) _ (rfl | rfl | rfl | rfl) <;> decide +kernel
/-- DIV and REM at their corners (R51). -/
theorem test_div_corners : (match exec (.div 6 5 7) (a0 [(5, 0x8000000000000000), (6, 0xFFFFFFFFFFFFFFFF)]) with | .next t => t.getX 7 | _ => 0) =
    0x8000000000000000 ∧ (match exec (.rem 6 5 7) (a0 [(5, 9)]) with | .next t => t.getX 7 | _ => 0) = 9 := by decide +kernel
/-- The pair of chapter 4 that loads a constant: LIH, then ADDI. -/
theorem test_load_constant : (match exec (.lih 0x12345 5) (a0 []) with | .next t => t.getX 5 | _ => 0) = 0x12345000 ∧
    (match exec (.addi 0xABC 5 5) (a0 [(5, 0x12345000)]) with | .next t => t.getX 5 | _ => 0) = 0x12345ABC := by decide +kernel
/-- ADDPC of chapter 4: at an address in page 0x1_0000, buf is 0x22 pages on. -/
theorem test_addpc : (match exec (.addpc 0x22 6) (st 0 [(0, { thr [] with seq := { pc := 0x10010 } })]) with | .next t => t.getX 6 | _ => 0) = 0x32000 := by
  decide +kernel
theorem test_met_ControlTransfers : (let s := a0 [(5, 3), (6, 1)]; let p := pst [(5, 3), (6, 1)]
    s.seq.rptRun = none ∧ p.seq.rptRun = none ∧
    (Runs (.bCc 0 5 5 2 0) s ∧ condRef 0 (s.getX 5) (s.getX 5) ∧ ¬ condRef 1 (s.getX 5) (s.getX 5) ∧ Reachable s 0x1004) ∧
    (Runs (.bCc 0 5 5 2 0) p ∧ Reachable p 4) ∧ (Runs (.br 0x1FFFFFE) p ∧ ¬ Reachable p (p.pc + BitVec.ofInt 64 (2 * (0x1FFFFFE : BitVec 25).toInt))) ∧
    (Runs (.br 4) s ∧ Reachable s 0x1008) ∧ (Runs (.call 4) s ∧ Runs (.call 0x1FFFFFE) p) ∧
    (Runs (.jalr 1 0 5) s ∧ ¬ Reachable s (s.getX 0 + 1) ∧ Reachable s (s.getX 0 + 2)) ∧
    (Runs (.loop 2 0) s ∧ Runs (.loop 2 6) s ∧ (6 : Reg) ≠ 0 ∧ s.getX 6 = 1 ∧ s.getX 5 ≠ 1) ∧ (Runs (.loop 0x7FFE 5) p ∧ p.getX 5 ≠ 1 ∧
      ¬ Reachable p (p.pc + BitVec.ofInt 64 (2 * (0x7FFE : BitVec 15).toInt)))) := by
  refine ⟨rfl, rfl, ⟨by decide +kernel, rfl, fun h => h rfl, rfl, by intro c h; cases h⟩,
    ⟨by decide +kernel, rfl, by intro c h; decide⟩, ⟨by decide +kernel, ?_⟩, ⟨by decide +kernel, rfl, by intro c h; cases h⟩, by decide +kernel,
    ⟨by decide +kernel, fun h => absurd h.1 (by decide +kernel), rfl, by intro c h; cases h⟩, by decide +kernel, by decide +kernel, by decide +kernel, ?_⟩
  all_goals (intro h; have := h.2 0 rfl; revert this; decide +kernel)
theorem test_met_CompareSkips : Runs (.sk 5 6 3 1) (a0 [(5, 1)]) ∧ condRef 1 ((a0 [(5, 1)]).getX 6) ((a0 [(5, 1)]).getX 5) ∧
    Runs (.ski 0x7FFF 6 1 0) (pst []) ∧ ¬ condRef 0 ((pst []).getX 6) (BitVec.ofInt 64 (0x7FFF : BitVec 15).toInt) ∧
    (a0 []).seq.rptRun = none := by
  refine ⟨by decide +kernel, ?_, by decide +kernel, ?_, rfl⟩ <;> (show ¬ (_ : Word) = _; decide +kernel)
/-- NOP16 at the program counter, with one instruction to annul. -/
def annulling : State := let s := State.reset.withFetchWord 16 6; { s.modThread 0 fun t => { t with seq := { t.seq with skip := 1 } } with cur := .thread 0 }
theorem test_met_AnnulledInstructionIsPassed : (let s := annulling; let f := s.fetch s.pc
    s.cur = .thread 0 ∧ s.seq.skip ≠ 0 ∧ s.seq.rptRun = none ∧ f.1 = .ok 6 false ∧ f.2.cur = s.cur ∧ f.2.threads = s.threads ∧ 6 % 2 = 0 ∧
    isRpt (insnOf 6) = false) := by decide +kernel
/-- RPT 4, d with VADD.f32 v1, v2 behind it. -/
def repeating : State := { e4 [] with issue := { insn := 0x1432 + 2 ^ 16 * 0x1040 } }
theorem test_met_IdleInstructionsAndRepeat : Runs .nop (a0 []) ∧ Runs .nop16 (pst []) ∧ Runs (.rpt 1 0 1 3) repeating ∧
    rptTargetOk false { n := 4, d := true, a := false, b := true } true 0x1040 = true ∧ repeating.seq.rpt.toNat ≤ 4 := by decide +kernel
/-- RPT with NOP16, with a word that is no instruction, and with a REMAIN above its n; on a pump, with PEND. -/
theorem test_met_IdleInstructionsAndRepeat_refused :
    (let s := { e4 [] with issue := { insn := 0x1432 + 2 ^ 16 * 6 } }; Runs (.rpt 1 0 1 3) s ∧ decodeInsn true 6 = some .nop16 ∧ neverRepeated .nop16 = true) ∧
    (let s := { e4 [] with issue := { insn := 0x1432 + 2 ^ 16 * 0xFFFFFFFF } }; Runs (.rpt 1 0 1 3) s ∧ decodeInsn false 0xFFFFFFFF = none) ∧
    (let s := { st 4 [(4, { thr [] with seq := { rpt := 9 } })] with issue := { insn := 0x1432 + 2 ^ 16 * 0x1040 } };
      Runs (.rpt 1 0 1 3) s ∧ (3 : BitVec 6).toNat + 1 < s.seq.rpt.toNat) ∧
    (let s := { pst [] with issue := { insn := 0x1432 + 2 ^ 16 * 0x04C00047 } }; s.cur = .pump 0 ∧ Runs (.rpt 1 0 1 3) s ∧
      decodeInsn false 0x04C00047 = some .pend) := by decide +kernel
theorem test_met_TrappingInstructions : NoTrace (a0 []) ∧ (a0 []).cur = .thread 0 ∧ Runs (.trap 5) (a0 []) ∧ Runs .bkpt (a0 []) ∧ (a0 []).ev = none :=
  ⟨noTrace_of rfl, by decide +kernel⟩
/-- A supervisor thread. -/
def sup0 (xs : List (Nat × Word)) : State := st 0 [(0, { thr xs with sup := true })]
theorem test_met_ControlRegisterInstructions : (a0 []).cur = .thread 0 ∧
    (HoldsCsr 0 0x050 ∧ LevelCsr (a0 []) 0 0x050 ∧ (0x050 = 0x052 → (a0 []).seq.rptRun = none) ∧ Runs (.csrr 0x050 1) (a0 []) ∧ Runs (.csrw 0x050 1) (a0 [])) ∧
    (HoldsCsr 4 0x060 ∧ LevelCsr (e4 []) 4 0x060 ∧ Runs (.csrs 0x060 1) (e4 [])) ∧ (HoldsCsr 0 0x052 ∧ (a0 []).seq.rptRun = none ∧ Runs (.csrc 0x052 1) (a0 [])) ∧
    (NoTrace (a0 []) ∧ Runs (.csrw 0x051 1) (a0 []) ∧ ¬ HoldsCsr 0 0x051) ∧ (Runs (.csrr 0x080 1) (a0 []) ∧ HoldsCsr 0 0x080 ∧ ¬ LevelCsr (a0 []) 0 0x080) ∧
    (0x050, ((a0 []).thread 0).spwidx.zeroExtend 64) ∈ csrValues (a0 []) 0 := by
  unfold HoldsCsr LevelCsr
  exact ⟨by decide +kernel, by decide +kernel, by decide +kernel, by decide +kernel, ⟨noTrace_of rfl, by decide +kernel⟩, by decide +kernel, by decide +kernel⟩
theorem test_met_SystemInstructions : (let s := sup0 [(5, 0x2000)]
    s.cur = .thread 0 ∧ s.seq.rptRun = none ∧ (s.thread 0).gang = none ∧ Runs .fencei s ∧ Runs (.eret 5) s ∧ Runs .halt s ∧ Runs (.tlbi 0 5) s) ∧
    Reachable (sup0 [(5, 0x2000)]) ((sup0 [(5, 0x2000)]).getX 5) ∧ NoTrace (sup0 [(5, 0x2000)]) :=
  ⟨by decide +kernel, ⟨rfl, by intro c h; cases h⟩, noTrace_of rfl⟩
theorem test_met_TlbiRetires : Takes (.tlbiRetire 0) (ev (.tlbiRetire 0) [(0, wait (.tlbi 0 1))]) ∧
    BlockedFor 0 (.tlbi 0 1) (ev (.tlbiRetire 0) [(0, wait (.tlbi 0 1))]) ∧ ¬ WalksLeft (ev (.tlbiRetire 0) [(0, wait (.tlbi 0 1))]) 0 :=
  ⟨by decide +kernel, by decide +kernel, by rintro ⟨d, k, id, m, x, h, _⟩; cases h⟩
/-- A walk of the thread's partition is under way. -/
theorem test_met_TlbiRetires_waits :
    WalksLeft { placed with ev := some (.tlbiRetire 0), threads := [(0, { wait (.tlbi 0 1) with sup := true })]
                            dies := [(0, { misses := [(0, { ctx := 0, va := 0, since := 0, due := 9, begun := true })] })] } 0 :=
  ⟨0, _, 0, _, _, List.mem_singleton.mpr rfl, List.mem_singleton.mpr rfl, by decide, rfl, rfl⟩

/-! #### Threads, channels, monitors, barriers, inboxes -/

/-- Thread 0 of partition 0, at supervisor level, with the page at 0x10000 in its core's TLB. -/
def pl (xs : List (Nat × Word)) : State :=
  { placed with cur := .thread 0, agenda := [], threads := [(0, { thr xs with sup := true })] }
/-- The same with an execute thread in slot 4. -/
def pl4 (xs : List (Nat × Word)) : State :=
  { placed with cur := .thread 4, agenda := [], threads := [(4, { thr xs with sup := true })] }
/-- In every core the same. -/
def core0 (k : Core) (s : State) : State := { s with cores := [(0, k)] }

theorem test_met_StartYieldExit : (let s := a0 [(5, 1), (6, 0x2000)];
    s.cur = .thread 0 ∧ (s.thread 0).run = .ready ∧ s.seq.rptRun = none ∧ Runs (.tstart 5 6 7) s ∧
    s.slotFree (8 * coreOf 0 + wfield (s.getX 5) 2 0) = true ∧ wbit (s.getX 6) 0 = false ∧ Runs .yield s ∧ Runs .texit s ∧
    (s.thread 0).body = none ∧ Ungated s ∧ s.cycle < s.issue.cycle.getD s.cycle + 8) ∧
    (let s := { a0 [] with issue := { cycle := some 0 }, cycle := 8 }; Runs .yield s ∧ s.issue.cycle.getD s.cycle + 8 ≤ s.cycle) := by decide +kernel
theorem test_met_StartYieldExitSteps :
    (let s := ev (.tstartReady 1) [(1, wait .start)]; Takes (.tstartReady 1) s ∧ BlockedFor 1 .start s) ∧
    (let s := ev (.yieldWake 1 0) [(1, wait .yield)]; Takes (.yieldWake 1 (s.thread 1).since) s ∧ BlockedFor 1 .yield s) ∧
    (let s := ev (.texitRetire 1) [(1, wait .texit)]; Takes (.texitRetire 1) s ∧ BlockedFor 1 .texit s ∧ Alone 1 s ∧ (s.thread 1).cwait = 0 ∧ s.redsOut 1 = false ∧
      redEvent (s.thread 1) = none) := by decide +kernel
/-- The context 0 may form gangs in cluster 0. -/
def gangs (s : State) : State := { s with clusters := [(0, { gangOk := [0] })] }
theorem test_met_Gangs :
    (let s := gangs (st 0 [(0, thr []), (8, wait (.gang 2 3))]);
      s.cur = .thread 0 ∧ s.seq.rptRun = none ∧ (s.thread 0).gang = none ∧ Runs (.gang 1 5) s ∧ (s.cluster (clusterOf 0)).gangOk.contains (s.thread 0).ctx = true ∧
      ∀ m, m ∈ gangRange 0 2 → m ≠ 0 → inGangWait s 0 2 m = true) ∧
    (let s := gangs (a0 []); Runs (.gang 3 5) s ∧ (∀ m, m ∈ gangRange 0 8 → (s.thread m).run = .ready ∨ (s.thread m).run = .unused) ∧
      ∃ m, m ∈ gangRange 0 8 ∧ m ≠ 0 ∧ inGangWait s 0 8 m = false) ∧
    (let s := a0 []; Runs (.gang 0 5) s ∧ Runs (.gang 1 5) s ∧ (s.cluster (clusterOf 0)).gangOk.contains (s.thread 0).ctx = false) ∧
    (let s := gangs (st 0 [(0, thr []), (8, wait (.gang 4 3))]); 8 ∈ gangRange 0 2 ∧ (s.thread 8).ctx = (s.thread 0).ctx ∧ BlockedFor 8 (.gang 4 3) s ∧ 4 ≠ 2) ∧
    (let s := { pair8 with threads := [(0, { wait (.mwait 1 7) with gang := some (0, 2, 0) }), (8, { wait (.mwait 1 7) with gang := some (0, 2, 1) })] };
      (s.thread 0).gang ≠ none ∧ 8 ∈ membersOf (s.thread 0) 0 ∧ 8 ≠ 0 ∧ (s.thread 8).fin = none ∧ BlockedFor 8 (.mwait 1 7) s) ∧
    Runs .ungang (a0 []) ∧
    (let s := gangs (ev (.gangForm 0 2) [(0, wait (.gang 2 3)), (8, wait (.gang 2 3))]);
      Takes (.gangForm 0 2) s ∧ (2 = 2 ∨ 2 = 4 ∨ 2 = 8) ∧ coreOf 0 % 8 % 2 = 0 ∧ (s.thread 0).seq.rptRun = none ∧
      ∀ m, m ∈ gangRange 0 2 → inGangWait s (s.thread 0).ctx 2 m = true) ∧
    (let s := ev (.gangTimeout 0 0) [(0, wait (.gang 2 3))]; Takes (.gangTimeout 0 (s.thread 0).since) s ∧ BlockedFor 0 (.gang 2 3) s) := by
  refine ⟨by decide +kernel, ⟨by decide +kernel, by decide +kernel, 8, by decide +kernel⟩, by decide +kernel, by decide +kernel, by decide +kernel, by decide +kernel,
    by decide +kernel, by decide +kernel⟩
theorem test_met_Gangs_traps : NoTrace (a0 []) := noTrace_of rfl
/-- In a gang's wait, the members' sizes agree. -/
theorem test_met_Gangs_sizes : ∀ m k r, m ∈ gangRange 0 2 →
    BlockedFor m (.gang k r) (gangs (st 0 [(0, thr []), (8, wait (.gang 2 3))])) → k = 2 := by
  intro m k r hm h
  have e : gangRange 0 2 = [0, 8] := by decide +kernel
  rw [e] at hm
  rcases List.mem_cons.mp hm with rfl | hm
  · exact absurd h (by intro h; cases h)
  · cases List.mem_singleton.mp hm; cases h; rfl
/-- Thread 8 has no free slot in its channel 0. -/
def full : Thread := { thr [] with chans := Vector.replicate 4 { free := [] } }
theorem test_met_ChannelInstructions :
    (let s := st 0 [(0, thr [(5, 1)]), (1, thr [])];
      s.cur = .thread 0 ∧ Runs (.send 5 6 0) s ∧ wfield (s.getX 5) 7 0 = 1 ∧ (1, 0) ∉ (s.thread 0).claims ∧ ∃ x, x ∈ ((s.thread 1).chan 0).free ∧
        claimFrom 0 1 x ≤ s.cycle) ∧
    (let s := st 0 [(0, thr [(5, 8)]), (1, full), (8, full)];
      Runs (.send 5 6 0) s ∧ (8, 0) ∉ (s.thread 0).claims ∧ ∀ x, x ∈ ((s.thread 8).chan 0).free → s.cycle < claimFrom 0 8 x) ∧
    (let s := st 0 [(0, { thr [(5, 8)] with claims := [(8, 0)] }), (8, full)]; Runs (.send 5 6 0) s ∧ (8, 0) ∈ (s.thread 0).claims) ∧
    (let s := st 0 [(0, { thr [] with chans := Vector.replicate 4 { flits := [{ data := 7, tag := 3 }] } })];
      ((s.thread 0).chan 3).flits = [{ data := 7, tag := 3 }] ∧ ((6 : Reg) ≠ 5 ∨ (6 : Reg) = 0) ∧ ((0 : Reg) ≠ 0 ∨ (0 : Reg) = 0) ∧
      Runs (.recv 3 6 5) s ∧ Runs (.recvn 3 0 0) s) ∧
    (let s := a0 []; ((s.thread 0).chan 2).flits = [] ∧ Runs (.recv 2 6 5) s ∧ Runs (.recvn 2 6 5) s) := by
  refine ⟨⟨rfl, by decide +kernel, by decide +kernel, by decide +kernel, 0, by decide +kernel⟩, by decide +kernel, by decide +kernel, by decide +kernel, by decide +kernel⟩
theorem test_met_ChannelSteps :
    (let s := ev (.flitArrival 0 8 0 0 { data := 7, tag := 3 }) [(8, wait (.recv 0))];
      Takes (.flitArrival 0 8 0 (s.thread 8).ctx { data := 7, tag := 3 }) s ∧ s.slotFree 8 = false ∧ BlockedFor 8 (.recv 0) s) ∧
    (let s := ev (.flitArrival 0 8 0 5 { data := 7, tag := 3 }) [(8, thr [])];
      Takes (.flitArrival 0 8 0 5 { data := 7, tag := 3 }) s ∧ (s.slotFree 8 = true ∨ 5 ≠ (s.thread 8).ctx)) ∧
    (let s := ev (.flitArrival 0 8 0 0 { data := 7, tag := 3 }) []; s.slotFree 8 = true) ∧
    (let s := ev (.recvWake 8) [(8, wait (.recv 0))]; Takes (.recvWake 8) s ∧ BlockedFor 8 (.recv 0) s) ∧
    (let s := ev (.channelClaim 0) [(0, wait (.send 8 0)), (8, thr [])];
      Takes (.channelClaim 0) s ∧ BlockedFor 0 (.send 8 0) s ∧ 8 ≠ 0 ∧ 0 ∈ ((s.thread 8).chan 0).free ∧ claimFrom 0 8 0 ≤ s.cycle) := by decide +kernel
/-- A monitor of thread 0 armed at sector 1 of its own well, with and without a record. -/
def armed (hit : Bool) : Thread := { thr [(5, 9)] with mons := Vector.replicate 4 { place := some (.well 0 1), hit := hit } }
theorem test_met_MonitorInstructions :
    (let s := pl [(5, 0x10000), (6, 64)];
      s.cur = .thread 0 ∧ Runs (.mon 6 3) s ∧ (wellCheck s 0 (s.getX 6) 1 false true).1 = none ∧ Runs (.monG 5 0) s ∧ Runs (.mclr 0) s) ∧
    (∃ p, (pl [(5, 0x10000)]).translate (pl [(5, 0x10000)]).view 0x10000 .read = .ok p 0) ∧
    (let s := st 0 [(0, armed true)]; Runs (.mwait 0 15 7) s ∧ (15 : BitVec 4) ≠ 0 ∧ (s.thread 0).monArmed 15 = true ∧ (s.thread 0).monHit 15 = true ∧
      (s.thread 0).gang = none) ∧
    (let s := st 0 [(0, { armed true with gang := some (0, 2, 0) }), (8, { thr [] with gang := some (0, 2, 1) })]; Runs (.mwait 0 15 7) s ∧
      (s.thread 0).monArmed 15 = true ∧ (s.thread 0).monHit 15 = true ∧ (s.thread 0).gang ≠ none) ∧
    (let s := st 0 [(0, armed false)]; Runs (.mwait 5 1 7) s ∧ wfield (s.getX 5) 31 0 ≠ 0 ∧ (s.thread 0).monHit 1 = false) :=
  ⟨by decide +kernel, ⟨_, rfl⟩, by decide +kernel, by decide +kernel, by decide +kernel⟩
theorem test_met_MonitorsRecordWrites :
    (let s := st 0 [(0, { armed false with run := .blocked (.mwait 1 7) })];
      let w : Landing := { core := some 0, first := 64, len := 8, at_ := 0 };
      Rising s.threads ∧ (0, s.thread 0) ∈ s.threads ∧ BlockedFor 0 (.mwait 1 7) s ∧ nbit 1 0 = true ∧
      ((s.thread 0).mon 0).place.any w.meets = true ∧ w.meets (.well 0 1) = true) ∧
    (let s := ev (.monitorWake 0 0) [(0, { armed true with run := .blocked (.mwait 1 7), gang := some (0, 2, 0) }), (8, { wait (.mwait 1 7) with gang := some (0, 2, 1) })];
      BlockedFor 0 (.mwait 1 7) s ∧ (s.thread 0).gang = some (0, 2, 0) ∧ (s.thread 0).fin = none ∧ 8 ∈ membersOf (s.thread 0) 0 ∧ 8 ≠ 0 ∧
      (s.thread 8).fin = none ∧ BlockedFor 8 (.mwait 1 7) s ∧ Takes (.monitorWake 0 (s.thread 0).since) s) ∧
    (let s := ev (.monitorWake 0 0) [(0, { armed true with run := .blocked (.mwait 1 7) })];
      BlockedFor 0 (.mwait 1 7) s ∧ Alone 0 s ∧ Takes (.monitorWake 0 (s.thread 0).since) s) ∧
    (let s := ev (.mwaitTimeout 0 0) [(0, { armed false with run := .blocked (.mwait 1 7) })];
      Takes (.mwaitTimeout 0 (s.thread 0).since) s ∧ (s.thread 0).monHit 1 = false) := by decide +kernel
theorem test_met_CounterWait :
    (let s := pl [(5, 0x10000), (6, 1)];
      s.cur = .thread 0 ∧ Runs (.cntw 4 0 5) s ∧ Ungated s ∧ (s.getX 5).toNat % 8 = 0 ∧ ∃ p, s.translate s.view (s.getX 5) .read = .ok p 0 ∧
        s.tileWaits (linesOf p.key 8) = false ∧ Runs (.cntw 4 0 6) s ∧ (s.getX 6).toNat % 8 ≠ 0) ∧
    (let s := ev (.yieldWake 0 0) [(0, wait (.cntw 64 (some 0) 1))]; Rising s.threads ∧ (0, s.thread 0) ∈ s.threads ∧ BlockedFor 0 (.cntw 64 (some 0) 1) s ∧
      rangeMeets 64 8 64 8 = true ∧ (0 : Word).toNat ≤ ofBytes (memRead s.mem 64 8)) ∧
    (let s := ev (.cntwWake 0 0) [(0, wait (.cntw 0 (some 0) 2))]; Takes (.cntwWake 0 (s.thread 0).since) s ∧ BlockedFor 0 (.cntw 0 (some 0) 2) s ∧ Alone 0 s ∧ 2 ≤ 2) :=
  ⟨⟨rfl, by decide +kernel, by decide +kernel, by decide +kernel, _, rfl, by decide +kernel⟩, by decide +kernel, by decide +kernel⟩
theorem test_met_CounterWait_open : NoTrace (pl [(5, 0x10000), (6, 1)]) ∧ Unlimited (pl [(5, 0x10000)]) :=
  ⟨noTrace_of rfl, by intro h e; cases e; rfl⟩
/-- An arrival of an earlier BAR or BARA. -/
def arr (b : Nat) (done : Option Nat) (out : Bool) : BarArr := { b := b, phase := 0, due := some 9, done := done, out := out }
theorem test_met_BarrierInstructions :
    (let s := a0 [(5, 256), (6, 1)];
      s.cur = .thread 0 ∧ s.getX 5 ≠ 0 ∧ (s.getX 5).toNat ≤ 256 ∧ (s.getX 6).toNat ≤ 256 ∧ s.getX 6 ≠ 0 ∧ (s.thread 0).baraAt 3 = none ∧
      (s.thread 0).keptAt 3 = none ∧ Runs (.bar 5 3 7) s ∧ Runs (.bara 5 3 7) s ∧ Runs (.barw 3 7) s ∧ s.getX 0 = 0) ∧
    (∀ done, done = some 4 ∨ done = none → let s := st 0 [(0, { thr [(5, 2)] with barWait := [arr 3 done false] })];
      (s.thread 0).baraAt 3 = none ∧ (s.thread 0).keptAt 3 = some (arr 3 done false) ∧ (s.thread 0).gang = none ∧ (arr 3 done false).out = false ∧
      (arr 3 done false).done = done ∧ Runs (.bar 5 3 7) s) ∧
    (let s := st 0 [(0, { thr [(5, 2)] with barWait := [arr 3 none true] })];
      (s.thread 0).keptAt 3 = some (arr 3 none true) ∧ (s.thread 0).gang = none ∧ (arr 3 none true).out = true) ∧
    (let s := { st 0 [(0, { thr [(5, 2)] with bara := [arr 3 (some 4) false] })] with cycle := 18 };
      (s.thread 0).baraAt 3 = some (arr 3 (some 4) false) ∧ (s.thread 0).gang = none ∧ Runs (.barw 3 7) s ∧ Runs (.bara 5 3 7) s ∧ 4 + 14 ≤ s.cycle ∧ { s with cycle := 17 }.cycle < 4 + 14) ∧
    (let s := st 0 [(0, { thr [(5, 2)] with bara := [arr 3 none false], bartmo := 100 })];
      (s.thread 0).baraAt 3 = some (arr 3 none false) ∧ Runs (.barw 3 7) s ∧ (s.thread 0).bartmo ≠ 0) :=
  ⟨by decide +kernel, by rintro _ (rfl | rfl) <;> decide +kernel, by decide +kernel, by decide +kernel, by decide +kernel⟩
theorem test_met_BarrierInstructions_traps : NoTrace (a0 [(5, 256), (6, 1)]) := noTrace_of rfl
theorem test_met_BarrierPhases : ∀ count, count = 1 ∨ count = 2 →
    (let s := ev (.barrierArrival 0) [(0, wait (.arrive 3 count false 7))];
      Takes (.barrierArrival 0) s ∧ BlockedFor 0 (.arrive 3 count false 7) s ∧ Alone 0 s ∧ s.releaseDone (.thread 0) (s.thread 0).since 2 = true ∧
      ((s.bar (clusterOf 0) (s.thread 0).ctx 3).count = 0 ∨ (s.bar (clusterOf 0) (s.thread 0).ctx 3).count = count) ∧
      ((s.bar (clusterOf 0) (s.thread 0).ctx 3).arrived + 1 = count ↔ count = 1)) := by
  rintro _ (rfl | rfl) <;> decide +kernel
theorem test_met_BarrierPhases_bara : (let s := ev (.barrierArrival 0) [(0, wait (.arrive 3 2 true 7))];
    BlockedFor 0 (.arrive 3 2 true 7) s ∧ Alone 0 s ∧ s.releaseDone (.thread 0) (s.thread 0).since 2 = true ∧ (s.thread 0).baraAt 3 = none ∧
    (s.bar (clusterOf 0) (s.thread 0).ctx 3).count = 0) := by decide +kernel
theorem test_met_BarrierPhases_other : (let s := { ev (.barrierArrival 0) [(0, wait (.arrive 3 2 false 7))] with clusters := [(0, { bars := [(3, { count := 4, arrived := 1 })] })] };
    (s.bar (clusterOf 0) (s.thread 0).ctx 3).count ≠ 0 ∧ (s.bar (clusterOf 0) (s.thread 0).ctx 3).count ≠ 2 ∧ (s.thread 0).gang = none ∧ s.releaseDone (.thread 0) 0 2 = true) := by
  decide +kernel
theorem test_met_BarrierReleaseAndTimeout : ∀ e, e = .barrierRelease 0 0 3 0 ∨ e = .barrierTimeout 0 9 →
    (let s := ev e [(0, { wait (.barrier 3 7) with barWait := [arr 3 none false] })];
      Rising s.threads ∧ (0, s.thread 0) ∈ s.threads ∧ (s.thread 0).barWait = [arr 3 none false] ∧ Alone 0 s ∧ BlockedFor 0 (.barrier 3 7) s ∧
      (arr 3 none false).out = false ∧ (arr 3 none false).due = some 9 ∧ (arr 3 none false).done = none ∧ (arr 3 (some 4) false).done = some 4 ∧ Takes e s) := by
  rintro _ (rfl | rfl) <;> decide +kernel
/-- Core 0 is held by context 0, with messages in its inbox. -/
def inboxed (ms : List (Nat × Msg)) (s : State) : State := core0 { holder := some 0, inbox := ms } s
theorem test_met_InboxInstructions :
    (let s := inboxed [(0, { w0 := 1, w1 := 2 })] (a0 []);
      s.cur = .thread 0 ∧ Ungated s ∧ (s.core (coreOf 0)).inbox = [(0, { w0 := 1, w1 := 2 })] ∧ (s.core (coreOf 0)).held = [] ∧ Runs (.ibx 6 5) s ∧ Runs (.ibxn 6 5) s) ∧
    (let s := inboxed [] (a0 []); Ungated s ∧ (s.core (coreOf 0)).inbox = [] ∧ ((6 : Reg) ≠ 5 ∨ (6 : Reg) = 0) ∧ Runs (.ibx 6 5) s ∧ Runs (.ibxn 6 5) s ∧
      Runs (.uien 6 5) s) ∧
    (let s := inHandler; Runs .uiret s ∧ (s.thread 0).uiAct = true ∧ wbit (s.thread 0).shadow[5] 0 = false) := by decide +kernel
theorem test_met_InboxInstructions_untraced : NoTrace inHandler := noTrace_of rfl
/-- Thread 0 takes interrupts of every class. -/
def taker : Thread := { thr [] with uimask := 0x7E, uiEn := true, uivec := 0x2000 }
/-- What a save has kept of two cores, the second with a full inbox. -/
def keptInboxes : Saved :=
  { threads := [], cores := [(0, {}), (1, { inbox := List.replicate 64 (0, { w0 := 1, w1 := 2 }) })], bars := [], copies := [], launches := [], overlays := [] }
theorem test_met_InboxSteps :
    (let s := inboxed [] (ev (.inboxMessageArrival 0 0 { w0 := 1, w1 := 2 }) []);
      Takes (.inboxMessageArrival 0 0 { w0 := 1, w1 := 2 }) s ∧ (s.core 0).holder = some 0 ∧ (s.core 0).inbox.length < 64) ∧
    (let s := inboxed (List.replicate 64 (0, { w0 := 1, w1 := 2 })) (ev (.inboxMessageArrival 0 0 { w0 := 1, w1 := 2 }) []);
      (s.core 0).holder = some 0 ∧ 64 ≤ (s.core 0).inbox.length) ∧
    (let s := { inboxed [] (ev (.inboxMessageArrival 0 0 { w0 := 1, w1 := 2 }) []) with
        ctxs := [(0, { part := 0, root := 0, phase := .saved, saved := some keptInboxes })] };
      ∃ x v, s.ctx 0 = some x ∧ x.away = true ∧ x.saved = some v ∧ tfind v.cores 0 = some {} ∧ ∃ k, tfind v.cores 1 = some k ∧ 64 ≤ k.inbox.length) ∧
    (let s := { inboxed [(0, { w0 := 1, w1 := 2 })] (ev (.uiDelivery 0) [(0, taker)]) with cycle := 2 };
      Takes (.uiDelivery 0) s ∧ (s.core 0).inbox = [(0, { w0 := 1, w1 := 2 })] ∧ 0 + 2 ≤ s.cycle ∧
      ((List.range 4).map (8 * 0 + ·)).find? (s.interruptible (wfield (1 : Word) 7 0)) = some 0 ∧
      (∀ i, i < 4 → liveThread (s.thread (8 * 0 + i)) = true → (s.thread (8 * 0 + i)).uiAct = false) ∧
      (s.thread 0).run = .ready ∧ (s.thread 0).seq.skip = 0 ∧ (s.thread 0).pend = []) :=
  ⟨by decide +kernel, by decide +kernel, ⟨_, _, rfl, rfl, rfl, rfl, _, rfl, by decide +kernel⟩, by decide +kernel⟩

/-! #### Supervisor operations -/

/-- The operation of a supervisor on the thread with handle 8. -/
def supOn (k : SupKind) (sel value : Word) : SupOp := { part := 0, issuer := some 0, kind := k, handle := 8, sel := sel, value := value, rd := 7 }
/-- The supervisor's thread waits; the target is parked, or runs. -/
def supEv (e : Event) (r : Run) : State := ev e [(0, { wait .sup with sup := true }), (8, { thr [] with run := r })]
theorem test_met_SupervisorInstructions :
    (let s := { pl [(5, 8), (6, 0x2000)] with threads := [(0, { thr [(5, 8), (6, 0x2000)] with sup := true }), (8, { thr [] with run := .parked })] };
      s.cur = .thread 0 ∧ (s.thread 0).gang = none ∧ Runs (.tresume 5) s ∧ Runs (.tstatr 6 5 7) s ∧ Runs (.tstatw 6 5 7) s ∧
      supCheck s 0 .resume (s.getX 5) 0 0 = none ∧ supCheck s 0 .read (s.getX 5) (s.getX 6) 0 = none ∧
      supCheck s 0 .write (s.getX 5) (s.getX 6) (s.getX 7) = none) := by decide +kernel
theorem test_met_SupervisorOperations :
    handleOf 8 = some 8 ∧
    (∀ k, let s := supEv (.supervisorOpArrival (supOn k 0x2000 4)) .parked;
      Takes (.supervisorOpArrival (supOn k 0x2000 4)) s ∧ (s.thread 8).run = .parked ∧ (s.thread 8).dbgStop = false) ∧ wfield (0x2000 : Word) 15 0 = 0x2000 ∧
    (let s := supEv (.supervisorOpArrival (supOn .read 0x2000 0)) .ready;
      Takes (.supervisorOpArrival (supOn .read 0x2000 0)) s ∧ (s.thread 8).run ≠ .parked ∧ wfield (supOn .read 0x2000 0).sel 15 12 ≠ 5) ∧
    (∀ r, r = .value 9 ∨ r = .done ∨ r = .refused 2 0 → let s := supEv (.supervisorReply (supOn .read 0x2000 0) r) .parked;
      (supOn .read 0x2000 0).issuer = some 0 ∧ BlockedFor 0 .sup s ∧ Takes (.supervisorReply (supOn .read 0x2000 0) r) s) ∧
    (let s := ev (.parkRequestEffect 8) [(8, { thr [] with parkReq := true })];
      Takes (.parkRequestEffect 8) s ∧ (s.thread 8).parkReq = true ∧ (s.thread 8).run = .ready ∧ (s.thread 8).seq.skip = 0 ∧
      (s.thread 8).pend = [] ∧ s.redLeft 8 = false) :=
  ⟨rfl, by rintro (_ | _ | _) <;> decide +kernel, rfl, by decide +kernel, by rintro _ (rfl | rfl | rfl) <;> decide +kernel, by decide +kernel⟩
theorem test_met_SupervisorOperations_refused : NoTrace (supEv (.supervisorReply (supOn .read 0x2000 0) (.refused 2 0)) .parked) := noTrace_of rfl

/-! #### Loads, stores, atomics -/

/-- The page of `pl`: what an access at 0x10000 reaches. -/
def p10 : Phys := { key := 0x10000, ks := 0, nc := false, sa := false, cc := false }
/-- The same page, not cached. -/
def uncached (s : State) : State :=
  { s with cores := [(0, { tlb := [{ placeEntry 0 with nc := true }] })] }
/-- The first sector of that page is in the first-level cache. -/
def cached (s : State) : State :=
  { s with cores := [(0, { tlb := [placeEntry 0], l1 := [(0x400, { data := List.replicate 64 7, valid := 2 ^ 64 - 1, dirty := 0, key := 0 })] })] }
theorem unlimited_of {h : Nat} {s : State} (hc : s.cur = .thread h)
    (hl : UnlimitedOf h s) : Unlimited s := by
  intro g hg; rw [hc] at hg; cases hg; exact hl
/-- No line of this memory is tagged. -/
theorem keyFits_of {s : State} {key ks n : Nat} (h : s.tags = []) (hn : key % 256 + n ≤ 256) : KeyFits s key ks n :=
  ⟨hn, fun k t _ e => by rw [h] at e; cases e⟩
theorem reaches_of {h : Nat} {s : State} {a : Word} {acc : Access} {p : Phys} (hc : s.cur = .thread h)
    (ht : s.translate s.view a acc = .ok p 0) : Reaches s a acc p := ⟨⟨0, ht, fun _ _ => rfl⟩, fun c e => by rw [hc] at e; cases e⟩
/-- The kernel core of pump 0, in context 0, whose page the die's TLB holds. -/
def plPump (xs : List (Nat × Word)) : State :=
  { placedPump with cur := .pump 0, agenda := [], dies := [(0, { tlb := [placeEntry 0] })],
                    pumps := [(0, { seq := { x := regs xs }, kernel := some ({ handle := 1, entry := 0, arg := 0, ctx := 0, core := 0, page := none, node := none }, 0) })] }
theorem test_met_LoadsIssue : ∀ f, f = cached ∨ f = id ∨ f = uncached →
    (let s := f (pl [(5, 0x10000)]);
      Runs (.ld 1 0 0 3 5 6) s ∧ s.cur = .thread 0 ∧ wfield (0x10008 : Word) 63 56 = 0 ∧ (0x10008 : Word).toNat % 8 = 0 ∧ Ungated s ∧
      s.getX 5 + BitVec.ofInt 64 ((1 : BitVec 9).toInt * 8) = 0x10008 ∧ s.tileWaits (linesOf 0x10008 8) = false ∧ s.cachedWaits 0x10008 = false) ∧
    (cached (pl [])).l1Read 0 0x10008 8 = some (List.replicate 8 7) ∧ (pl []).l1Read 0 0x10008 8 = none := by
  rintro _ (rfl | rfl | rfl) <;> decide +kernel
/-- A load of thread 0 at 0x20000 that has missed is on its way. -/
def missing (s : State) : State :=
  { s with agenda := [(9, .farAccessPerform { h := 0, pump := none, va := 0x20000, addr := 0x20000, key := 0, sa := false, op := .fill (some (9, 8, true, none)) })] }
theorem test_met_LoadsIssue_behind : (∀ s, s = cached (pl [(5, 0x10000)]) ∨ s = missing (cached (pl [(5, 0x10000)])) →
    Runs (.ld 1 0 0 3 5 6) s ∧ Ungated s ∧ s.tileWaits (linesOf 0x10008 8) = false ∧ s.cachedWaits 0x10008 = false ∧
    s.l1Read 0 0x10008 8 = some (List.replicate 8 7) ∧ Reaches s 0x10008 .read { p10 with key := 0x10008 } ∧ Unlimited s) ∧
    (cached (pl [(5, 0x10000)])).missOut = false ∧ (missing (cached (pl [(5, 0x10000)]))).missOut = true := by
  refine ⟨?_, by decide +kernel, by decide +kernel⟩
  rintro _ (rfl | rfl) <;>
    exact ⟨by decide +kernel, by decide +kernel, by decide +kernel, by decide +kernel, by decide +kernel, reaches_of (h := 0) rfl (by decide +kernel),
      unlimited_of (h := 0) rfl (by decide +kernel)⟩
theorem test_met_LoadsIssue_reaches : (∀ f, f = cached ∨ f = id → Reaches (f (pl [])) 0x10008 .read { p10 with key := 0x10008 } ∧ Unlimited (f (pl []))) ∧
    Reaches (uncached (pl [])) 0x10008 .read { p10 with key := 0x10008, nc := true } := by
  refine ⟨?_, reaches_of (h := 0) rfl (by decide +kernel)⟩
  rintro _ (rfl | rfl) <;> exact ⟨reaches_of (h := 0) rfl (by decide +kernel), unlimited_of (h := 0) rfl (by decide +kernel)⟩
theorem test_met_LoadsIssue_pump : (let s := plPump [(5, 0x10000)];
    Runs (.ld 0 0 1 2 5 6) s ∧ Runs (.st 0 0 3 5 6) s ∧ Runs (.hasha 5 6) s ∧ s.getX 5 + BitVec.ofInt 64 ((0 : BitVec 9).toInt * 4) = 0x10000 ∧
      Ungated s ∧ s.tileWaits (linesOf 0x10000 4) = false ∧ s.cachedWaits 0x10000 = false ∧ s.loadsSector 0x10000 = false ∧ s.missOut = false) ∧
    (∃ c, (plPump []).cur = .pump c) ∧ (∀ acc, Reaches (plPump [(5, 0x10000)]) 0x10000 acc p10) ∧ Unlimited (plPump [(5, 0x10000)]) :=
  ⟨by decide +kernel, ⟨0, rfl⟩, fun acc => ⟨⟨12, by cases acc <;> decide +kernel, fun h e => by cases e⟩, fun c _ => by decide +kernel⟩, fun h e => by cases e⟩
theorem test_met_StoresIssue : ∀ f, f = cached ∨ f = id ∨ f = uncached →
    (let s := f (pl [(5, 0x10000), (6, 9)]);
      Runs (.st 1 0 3 5 6) s ∧ Runs (.st 0 5 0 5 6) s ∧ s.cur = .thread 0 ∧ wfield (0x10008 : Word) 63 56 = 0 ∧ (0x10008 : Word).toNat % 8 = 0 ∧ Ungated s ∧
      s.tileWaits (linesOf 0x10008 8) = false ∧ s.cachedWaits 0x10008 = false ∧ s.loadsSector 0x10008 = false ∧ s.missOut = false ∧ 0x10008 % 64 + 8 ≤ 64) ∧
    (tfind ((cached (pl [])).core 0).l1 (0x10008 / 64)).isSome = true ∧ tfind ((pl []).core 0).l1 (0x10008 / 64) = none ∧ (5 : BitVec 3) ≠ 0 := by
  rintro _ (rfl | rfl | rfl) <;> decide +kernel
theorem test_met_StoresIssue_reaches : Reaches (cached (pl [])) 0x10008 .write { p10 with key := 0x10008 } ∧
    Reaches (pl []) 0x10008 .write { p10 with key := 0x10008 } ∧ Reaches (uncached (pl [])) 0x10008 .write { p10 with key := 0x10008, nc := true } :=
  ⟨reaches_of (h := 0) rfl (by decide +kernel), reaches_of (h := 0) rfl (by decide +kernel), reaches_of (h := 0) rfl (by decide +kernel)⟩
theorem test_met_ScalarAccessTraps : NoTrace (a0 []) ∧
    (let s := a0 [(5, 0x0100000000000000), (7, 0x10001), (8, 0x02000000), (9, 1)];
      s.cur = .thread 0 ∧ Runs (.ld 0 0 0 3 5 6) s ∧ Runs (.st 0 0 3 7 6) s ∧ Runs (.ldl 0 0 0 3 8 6) s ∧ Runs (.stl 0 0 3 9 6) s ∧
      wfield (s.getX 5) 63 56 ≠ 0 ∧ wfield (s.getX 7) 63 56 = 0 ∧ (s.getX 7).toNat % 8 ≠ 0 ∧ wfield (s.getX 8) 63 25 ≠ 0 ∧
      wfield (s.getX 9) 63 25 = 0 ∧ (s.getX 9).toNat % 8 ≠ 0) ∧
    (let s := a0 [(5, 0x100000)]; Runs (.ldl 0 0 0 3 5 6) s ∧ Runs (.stl 0 0 3 5 6) s ∧ wfield (s.getX 5) 63 25 = 0 ∧ (s.getX 5).toNat % 8 = 0 ∧
      ∀ w, nbit (s.rights (coreOf 0) (wellCore 0 (s.getX 5))) (b2n w) = false) := ⟨noTrace_of rfl, by decide +kernel, by decide +kernel⟩
/-- Core 1 has written sector 1 of core 0's well, under race detection. -/
def raced (s : State) : State := { s with clusters := [(0, { raceEn := [0], race := [(1, { writer := some 1 })] })] }
theorem test_met_ScalarAccessTraps_race : (let s := raced (a0 [(5, 64)]);
    Runs (.ldl 0 0 0 3 5 6) s ∧ Runs (.stl 0 0 3 5 6) s ∧ wfield (s.getX 5) 63 25 = 0 ∧ (s.getX 5).toNat % 8 = 0 ∧ Ungated s ∧
    ∀ w, nbit (s.rights (coreOf 0) (wellCore 0 64)) (b2n w) = true ∧ (s.raceCheck 0 0 w [(wellCore 0 64, wellOff 64, 8)]).1 = some 64) ∧
    NoTrace (raced (a0 [])) := by
  refine ⟨by decide +kernel, ?_⟩
  intro c
  by_cases h : c = 0
  · subst h; rfl
  · unfold State.cluster raced; simp [tget, h]
/-- Core 1 lets every core of its context into its well; both cores are held by context 0. -/
def twoWells (xs : List (Nat × Word)) : State :=
  { pl xs with cores := [(0, { holder := some 0, mirror := [(1, 3)] }), (1, { holder := some 0, wellwin := 0xFFFFFFFFFFFFFFFF })] }
theorem test_met_WellAccesses :
    (let s := twoWells [(5, 64), (6, 0x100040)];
      s.cur = .thread 0 ∧ Ungated s ∧ Runs (.ldl 0 0 0 3 5 7) s ∧ Runs (.stl 0 0 3 6 7) s ∧ Runs (.stl 0 1 3 6 7) s ∧
      wellCore 0 64 = coreOf 0 ∧ wellCore 0 0x100040 = 1 ∧ wfield (0x100040 : Word) 63 25 = 0 ∧ nbit (s.rights (coreOf 0) 0) 0 = true ∧
      nbit (s.rights (coreOf 0) 1) 1 = true ∧ ∀ w, (s.raceCheck 0 0 w [(0, 64, 8)]).1 = none ∧ (s.raceCheck 0 0 w [(1, 64, 8)]).1 = none) := by decide +kernel
theorem test_met_WellStoreLands : (let s := ev (.wellStoreLand 0 0 64 [1, 2] 0) [(0, thr [])];
    Takes (.wellStoreLand 0 0 64 [1, 2] 0) s ∧ s.wellBehind 0 0 64 2 0 = false ∧ s.mustWait (sectorsOf 0 64 2) true s.cycle (orderKey 0 0) = false ∧
    Memory.wf (s.core 0).well = true) ∧
    (let s := { ev (.wellStoreLand 0 0 64 [1, 2] 1) [(0, thr [])] with agenda := [(9, .wellStoreLand 0 0 72 [1] 0)] };
      Takes (.wellStoreLand 0 0 64 [1, 2] 1) s ∧ s.wellBehind 0 0 64 2 1 = true) ∧
    (let s := { ev (.wellStoreLand 0 0 64 [1, 2] 0) [(0, thr [])] with locks := [{ unit := .sector 0 64, excl := true, acc := 7 }], taccs := [(7, { h := 8, segs := [], units := [.sector 0 64], excl := true, buf := [], done := .tst, got := 1, reqAt := 0, sent := 0 })] };
      Takes (.wellStoreLand 0 0 64 [1, 2] 0) s ∧ s.wellBehind 0 0 64 2 0 = false ∧ s.mustWait (sectorsOf 0 64 2) true s.cycle (orderKey 0 0) = true) := by decide +kernel
theorem test_met_AtomicsIssue :
    atomicOf (.amoCas 5 3 1 6 5 7) = some (.cas, 5, 3, 8, 6, 5, some 7) ∧ atomicOf (.redFadd 0 0 6 5) = some (.fadd, 0, 0, 4, 6, 5, none) ∧
    (let s := pl [(5, 0x10000), (6, 9)];
      Runs (.amoCas 5 3 1 6 5 7) s ∧ Runs (.redFadd 0 0 6 5) s ∧ wfield (s.getX 5) 63 56 = 0 ∧
      (s.getX 5).toNat % 8 = 0 ∧ (s.getX 5).toNat % 4 = 0 ∧ Ungated s ∧ s.tileWaits (linesOf 0x10000 8) = false ∧ s.loadsSector 0x10000 = false) ∧
    Reaches (pl [(5, 0x10000), (6, 9)]) 0x10000 .rw p10 ∧ Unlimited (pl [(5, 0x10000), (6, 9)]) :=
  ⟨rfl, rfl, by decide +kernel, reaches_of (h := 0) rfl (by decide +kernel), unlimited_of (h := 0) rfl (by decide +kernel)⟩
/-- A request at its home, whose line has come from its channel. -/
def far (op : FarOp) : FarReq := { h := 0, pump := none, va := 0x10000, addr := 0x10000, key := 0, sa := false, op := op, reached := some 0, entered := true, dram := true }
def farEv (op : FarOp) : State :=
  { placed with agenda := [], ev := some (.farAccessPerform (far op)), threads := [(0, { thr [] with sup := true, pend := [(5, none)] })] }
theorem test_met_HomePerforms : Memory.wf placed.mem = true ∧
    (let s := { farEv (.load 5 8 true none) with broken := [.line 0x10000], threads := [(0, thr [])] };
      ReachesHome s (far (.load 5 8 true none)) ∧ s.onDeadLink 0x10000 = false ∧ (reqUnits (far (.load 5 8 true none))).any s.unitBroken = true ∧
      (s.thread 0).run = .ready ∧ (s.thread 0).born ≤ (far (.load 5 8 true none)).sent ∧
      (s.part ((s.partOfCluster (clusterOf 0)).getD 0)).isSome = true) ∧
    (∀ op, op = .load 5 8 true none ∨ op = .fill (some (5, 8, true, none)) ∨ op = .store [1, 2] ∨ op = .amo .add 8 1 0 5 none ∨ op = .red .cas 4 1 →
      AtHome (farEv op) (far op) ∧ StillAwaits (farEv op) 0 (far op).sent 5) ∧
    (let r : FarReq := { far (.load 5 8 true none) with dram := false };
      let s := { farEv (.load 5 8 true none) with ev := some (.farAccessPerform r) }; Takes (.farAccessPerform r) s ∧ s.missesLine r.addr = true ∧ s.reqs = []) ∧
    (let s := { farEv (.count 0) with threads := [(0, wait (.cntw 0x10000 none 1))] };
      AtHome s (far (.count 0)) ∧ BlockedFor 0 (.cntw 0x10000 none 1) s ∧ (s.thread 0).since = (far (.count 0)).sent ∧
      (0 : Word).toNat ≤ (wordOfBytes (s.mergeDirty 0 0x10000 ((s.holdLine 0x10000 (some 0)).readBytes 0x10000 0 8))).toNat ∧
      (wordOfBytes (s.mergeDirty 0 0x10000 ((s.holdLine 0x10000 (some 0)).readBytes 0x10000 0 8))).toNat < (BitVec.allOnes 64).toNat) ∧
    tfind ((farEv (.fill none)).core 0).l1 (0x10000 / 64) = none ∧
    (let s := farEv (.store [1, 2]); PlainBytes s 0x10000 2 ∧ PlainBytes s 0x10000 8 ∧ PlainBytes s 0x10000 4 ∧ s.home 0x10000 ≠ .host) ∧
    (∀ n, n ≤ 8 → KeyFits (farEv (.store [1, 2])) 0x10000 0 n) ∧
    (∃ new, atomicRef .add 8 ((farEv (.amo .add 8 1 0 5 none)).readNat 0x10000 0 8) 1 0 = some new) ∧
    ∃ new, atomicRef .cas 4 ((farEv (.red .cas 4 1)).readNat 0x10000 0 4) 1 0 = some new :=
  ⟨by decide +kernel, by decide +kernel, by rintro _ (rfl | rfl | rfl | rfl | rfl) <;> decide +kernel, by decide +kernel, by decide +kernel, by decide +kernel, by decide +kernel,
    fun n h => keyFits_of rfl (by omega), ⟨_, rfl⟩, ⟨_, rfl⟩⟩
theorem test_met_HomeFloatAtomics : ∀ op, op = .amo .fadd 4 0x3F800000 0 5 none ∨ op = .amo .fmax 4 0x3F800000 0 5 none ∨ op = .red .fadd 4 0x3F800000 →
    let s := farEv op
    Memory.wf s.mem = true ∧ AtHome s (far op) ∧ KeyFits s 0x10000 0 4 ∧ PlainBytes s 0x10000 4 ∧ s.home 0x10000 ≠ .host ∧
      StillAwaits s 0 (far op).sent 5 ∧ s.reduces (far op) = false := by
  rintro _ (rfl | rfl | rfl) <;>
    exact ⟨by decide +kernel, by decide +kernel, keyFits_of rfl (by decide), by decide +kernel, by decide +kernel, by decide +kernel, by decide +kernel⟩
/-- The signalling NaN and an enabled NV event of the same atomic (R229). -/
theorem test_float_atomic_traps :
    let s := { farEv (.amo .fadd 4 0x7F800001 0 5 none) with threads := [(0, { thr [] with sup := true, pend := [(5, none)], fenable := 16 })] }
    (match exec .farAccessPerform s with | .next t => ((t.thread 0).run, (t.thread 0).trapCause, (t.thread 0).getX 5) | _ => (.ready, 0, 0)) = (.parked, 9, 0xFFFE0285) := by
  decide +kernel
theorem test_met_HashaAnswersHome : (let s := pl [(5, 0x10000)];
    (Runs (.hasha 5 6) s ∧ p10.key < 2 ^ 52 ∧ s.home p10.key = .slice 5 2 ∧ p10.ks < 16 ∧ s.pf.devIdx < 16) ∧ Reaches s (s.getX 5) .none p10) ∧
    (let s := pl [(5, 0x0100000000000000)]; Runs (.hasha 5 6) s ∧ s.translate s.view (s.getX 5) .none = .fault 5 ∧ NoTrace s) ∧
    (let s := pl [(5, 0x40000)]; Runs (.hasha 5 6) s ∧ s.translate s.view (s.getX 5) .none = .miss ∧ (s.thread 0).walkFault = none) ∧
    (let s := { pl [(5, 0x10000)] with cores := [], clusters := [(0, { tlb := [placeEntry 0] })] };
      Runs (.hasha 5 6) s ∧ ∃ p, s.translate s.view (s.getX 5) .none = .ok p 4) :=
  ⟨⟨by decide +kernel, reaches_of (h := 0) rfl (by decide +kernel)⟩, ⟨by decide +kernel, by decide +kernel, noTrace_of rfl⟩, by decide +kernel, by decide +kernel, _, rfl⟩
/-- The first sector of the page is in the cache, with a dirty byte. -/
def soiled (s : State) : State :=
  { s with cores := [(0, { tlb := [placeEntry 0], l1 := [(0x400, { data := List.replicate 64 7, valid := 2 ^ 64 - 1, dirty := 1, key := 0 })] })] }
theorem test_met_CacheMaintenance :
    (let s := pl [(5, 0x10000), (6, 64), (7, 0x200001)];
      s.cur = .thread 0 ∧ (s.core (coreOf 0)).l1 = [] ∧ Runs (.fence 5) s ∧ (s.thread 0).relAt = none ∧
      redEvent (s.thread 0) = none ∧ s.releaseDone (.thread 0) s.cycle 5 = true ∧ Ungated s ∧ (s.getX 0).toNat ≤ 2 ^ 21 ∧ s.reqs = [] ∧
      Runs (.cwb 0 5) s ∧ Runs (.cinv 0 5) s ∧ Runs (.pfx 6 5) s ∧ s.getX 6 = 64 ∧ splitPages (s.getX 5).toNat (s.getX 6).toNat = [(0x10000, 64)] ∧
      s.translate s.view (word 0x10000) .read = .ok p10 0 ∧ p10.nc = false ∧ 2 ^ 21 < (s.getX 7).toNat ∧ Runs (.cwb 7 5) s ∧ Runs (.cinv 7 5) s ∧
      Runs (.pfx 0 5) s ∧ Runs (.pfx 7 5) s ∧ 65536 < (s.getX 7).toNat) ∧
    (∃ p u, cacheRange 0x10000 0 (pl [(5, 0x10000)]) = (p, u) ∧ u = pl [(5, 0x10000)]) ∧
    (let s := { pl [(5, 0x10000)] with threads := [(0, { thr [] with redEvents := [(0, 0x10000, 1)], fenable := 1 })] };
      Runs (.fence 1) s ∧ redEvent (s.thread 0) = some 0x10000 ∧ s.releaseDone (.thread 0) s.cycle 1 = true) ∧
    (let s := soiled (pl [(5, 0x10000)]); Runs (.fence 5) s ∧ (s.thread 0).relAt = none ∧ Ungated s ∧ Runs (.cwb 0 5) s ∧ Runs (.cinv 0 5) s ∧
      (∃ x, x ∈ (s.core 0).l1 ∧ x.2.dirty ≠ 0) ∧ ∃ p u, cacheRange (s.getX 5) (s.getX 0) s = (p, u) ∧ ∃ x, x ∈ (u.core 0).l1 ∧ p x.1 = true ∧ x.2.dirty ≠ 0) ∧
    Unlimited (pl [(5, 0x10000), (6, 64)]) ∧ Unlimited (soiled (pl [(5, 0x10000)])) ∧ NoTrace (pl []) ∧
    (let s := { ev (.sliceLineEvict 7) with lines := [(7, {})] }; Takes (.sliceLineEvict 7) s ∧ Rising s.lines) :=
  ⟨by decide +kernel, ⟨_, _, rfl, rfl⟩, by decide +kernel, ⟨by decide +kernel, by decide +kernel, by decide +kernel, by decide +kernel, by decide +kernel,
      ⟨_, List.mem_singleton.mpr rfl, by decide⟩, _, _, rfl, _, List.mem_singleton.mpr rfl, rfl, by decide⟩,
    unlimited_of (h := 0) rfl (by decide +kernel), unlimited_of (h := 0) rfl (by decide +kernel), noTrace_of rfl, by decide +kernel⟩
theorem test_met_RedAcknowledged : (let s := ev (.redAck 0 0x10000 1 0) [(0, thr [])];
    Takes (.redAck 0 0x10000 1 0) s ∧ (s.thread 0).born ≤ 0 ∧ (1 : Fl) ≠ 0) := by decide +kernel
/-- Page tables: four levels through the table at 0x3000 itself, and a leaf for the page at 0x1000. -/
def walker (root : Nat) : State :=
  { placed with agenda := [], ev := some (.tlbWalkComplete 0 0x1000 .write), threads := [(0, { wait .walk with sup := true })],
                ctxs := [(0, { part := 0, super := true, root := root })],
                mem := memWrite (memWrite [] 0x3000 (toBytes 8 0x3001)) 0x3008 (toBytes 8 0x5087) }
theorem test_met_WalkCompletes : Takes (.tlbWalkComplete 0 0x1000 .write) (walker 0x3000) ∧ BlockedFor 0 .walk (walker 0x3000) ∧
    ∃ e n, (walker 0x3000).tlbFind ((walker 0x3000).viewOf 0) 0x10000 .write = some (e, n) := ⟨rfl, by decide +kernel, _, _, rfl⟩
/-- A walker with a miss that thread 0 waits for; the tables in `read` have been read, and what a home has of the next one. -/
def walking (root : Nat) (late : Bool) (lines : Table HeldLine) (read : List Nat) : State :=
  { walker root with ev := some (.walkRead 0 0), lines := lines
                     dies := [(0, { misses := [(0, { ctx := 0, va := 0x1000, since := 0, due := 99, begun := true, late := late, entered := true, read := read,
                                                     waits := [(0, 0x1000, .write)] })] })] }
theorem test_met_WalkCompletes_read : ∀ x, x ∈ [(true, [], []), (false, [], []), (false, [(0x30, {})], []), (true, [], [0x3000]), (true, [], [0x3008])] →
    let s := walking 0x3000 x.1 x.2.1 x.2.2
    ∃ m, tfind (s.die 0).misses 0 = some m ∧ Takes (.walkRead 0 0) s ∧ m.entered = true ∧ m.waits = [(0, 0x1000, .write)] ∧ m.engines = [] ∧
      (∃ a l, s.unread 0 m = a :: l ∧ s.unready a = false ∧ s.onDeadLink a = false ∧ (s.missesLine a = x.2.1.isEmpty) ∧ m.late = x.1 ∧
        s.mustWait (linesOf a 8) false (s.reachedAt (.walk 0 0)) 0 = false ∧ (s.unread 0 { m with read := m.read ++ [a] } = [] ↔ x.2.2 ≠ [])) ∧
      BlockedFor 0 .walk s ∧ (s.thread 0).ctx = m.ctx ∧ dieOf 0 = 0 := by
  intro x h
  have : x = (true, [], []) ∨ x = (false, [], []) ∨ x = (false, [(0x30, {})], []) ∨ x = (true, [], [0x3000]) ∨ x = (true, [], [0x3008]) := by simpa using h
  rcases this with rfl | rfl | rfl | rfl | rfl <;>
    exact ⟨_, rfl, rfl, rfl, rfl, rfl, ⟨_, _, rfl, by decide +kernel, by decide +kernel, by decide +kernel, rfl, by decide +kernel, by decide +kernel⟩,
      by decide +kernel, by decide +kernel, by decide +kernel⟩
/-- What the walker reads next is not usable yet, or lies beyond a dead link. -/
theorem test_met_WalkCompletes_waits :
    (let s := { walking 0x3000 true [] [] with pf := {} }; ∃ m, tfind (s.die 0).misses 0 = some m ∧ ∃ a l, s.unread 0 m = a :: l ∧ s.unready a = true) ∧
    (let s := { walking (2 ^ 51 + 0x3000) true [] [] with linkDown := [16] }; ∃ m, tfind (s.die 0).misses 0 = some m ∧
      ∃ a l, s.unread 0 m = a :: l ∧ s.onDeadLink a = true) :=
  ⟨⟨_, rfl, _, _, rfl, by decide +kernel⟩, _, rfl, _, _, rfl, by decide +kernel⟩

/-! #### Tensors, tile accesses, queues, draws -/

/-- Tiles of one row of 16 numbers in the page of `pl`, and the same in the well of core 0. -/
def rowTile : Desc :=
  { kind := 0, fmt := 0, well := false, ro := false, rows := 0, rowBytes := 63, base := 0x10000, scaleBase := 0, dim0 := 64, dim1 := 4, dim2 := 1, dim3 := 1,
    s1 := 256, s2 := 0, s3 := 0 }
def wellTile : Desc := { rowTile with well := true, base := 0x1000 }
/-- Context 0 has tensors 3 and 5. -/
def tensors (s : State) : State := { s with ctxs := [(0, { part := 0, super := true, root := 0, tensors := [(3, wellTile), (5, rowTile)] })] }
theorem test_met_TranslationFrame : (∃ p n, (pl []).translate ((pl []).viewOf 0) 0x10000 .read = .ok p n) ∧
    (∃ c, (pl []).translate ((pl []).viewOf 0) 0x0100000000000000 .read = .fault c) ∧
    (let s := walker 0x3000; let v := s.viewOf 0;
      s.translate v 0x1000 .write = .miss ∧ Rising (s.die v.die).misses ∧ Memory.wf s.mem = true ∧ 0x3008 ∈ s.walkReads v 0x1000 ∧
        CachesTables s v.die) :=
  ⟨⟨_, _, rfl⟩, ⟨_, rfl⟩, by decide +kernel, by decide +kernel, by decide +kernel, by decide +kernel, fun x h => nomatch h⟩
/-- The reset machine's thread 0 in a gang with thread 8. -/
def ganged (s : State) : State := { s with threads := s.threads.map fun (h, t) => (h, { t with gang := some (0, 2, 0) }) }
theorem test_met_TensorTable :
    (let s := tensors (pl [(5, 8), (6, 0x10000), (7, 9)]);
      s.cur = .thread 0 ∧ Runs (.tqry 5 5 7) s ∧ wfield (s.getX 5) 3 0 < 9 ∧ 9 ≤ wfield (s.getX 7) 3 0 ∧ (s.thread 0).gang = none ∧ Ungated s ∧
      Runs (.tinv 5) s ∧ s.ackClusters 0 = [] ∧ (s.ctx 0).any (fun x => Rising x.tensors) = true ∧ Runs (.tdef 255 6) s ∧
      (s.getX 6).toNat % 64 = 0 ∧ (s.getX 5).toNat % 64 ≠ 0 ∧ ((ganged s).thread 0).gang.isSome = true ∧ Runs (.tinv 5) (ganged s)) ∧
    NoTrace (tensors (pl [])) ∧ NoTrace (ganged (tensors (pl []))) ∧
    (∃ p u, (tensors (pl [])).translateNow (tensors (pl [])).view 0x10000 .read = (.ok p, u)) ∧
    (∃ k u, (tensors (a0 [])).translateNow (tensors (a0 [])).view 0x20000000 .read = (.error k, u)) ∧
    (let s := { tensors (pl []) with cores := [(32, { holder := some 0 })] }; s.ackClusters 0 ≠ []) ∧
    Unlimited (tensors (pl [(5, 8), (6, 0x10000), (7, 9)])) :=
  ⟨by decide +kernel, noTrace_of rfl, noTrace_of rfl, ⟨_, _, rfl⟩, ⟨_, _, rfl⟩, by decide +kernel, unlimited_of (h := 0) rfl (by decide +kernel)⟩
/-- Thread 0 waits for a change of its table. -/
def tableEv (left : Nat) : State :=
  { tensors (pl []) with cur := .thread 0, ev := some (.tableChangeAck 0 1), threads := [(0, { wait (.table 5 left none) with sup := true })] }
theorem test_met_TableChangeAcknowledged : ∀ left, left = 1 ∨ left = 2 → let s := tableEv left;
    Takes (.tableChangeAck 0 1) s ∧ BlockedFor 0 (.table 5 left none) s ∧ (s.ctx (s.thread 0).ctx).any (fun x => Rising x.tensors) = true := by
  rintro _ (rfl | rfl) <;> decide +kernel
/-- Tile (3, 3, 0, 0). -/
def tile33 : Word := 0x30003
def tiler : State := tensors (pl [(4, 64), (5, tile33)])
theorem test_met_TileAccessesBegin : Unlimited tiler ∧ (tiler.cur = .thread 0 ∧ Ungated tiler ∧ tiler.tensor 0 5 = some rowTile ∧ tiler.tensor 0 3 = some wellTile ∧
    Runs (.tld 5 5 4 0) tiler ∧ Runs (.tld 3 5 4 5) tiler ∧ tileCheck tiler 5 false 5 4 = none ∧ tileCheck tiler 3 false 5 4 = none ∧
    Runs (.tst 5 5 4 5) tiler ∧ Runs (.tst 3 5 4 0) tiler ∧ tileCheck tiler 5 true 5 4 = none ∧ tileCheck tiler 3 true 5 4 = none) ∧
    (∃ l u, TileOf tiler u 0 rowTile (coordsOf tile33) false true l ∧ u.threads = tiler.threads) ∧
    (∃ l, TileOf tiler tiler 0 wellTile (coordsOf tile33) false false l) ∧
    (∃ l u, TileOf tiler u 0 rowTile (coordsOf tile33) true false l ∧ u.threads = tiler.threads ∧ u.cur = tiler.cur ∧
      u.ownStoresTo 0 64 (rowTile.nrows * rowTile.rb) = false) ∧
    (∃ l u, TileOf tiler u 0 wellTile (coordsOf tile33) true true l ∧ u.threads = tiler.threads ∧ u.cur = tiler.cur) :=
  ⟨unlimited_of (h := 0) rfl (by decide +kernel), by decide +kernel, ⟨_, _, Or.inl ⟨rfl, rfl⟩, by decide +kernel⟩, ⟨_, Or.inr ⟨rfl, rfl, fun h => (nomatch h), fun _ => rfl⟩⟩,
   ⟨_, _, Or.inl ⟨rfl, rfl⟩, by decide +kernel, by decide +kernel, by decide +kernel⟩,
   ⟨_, _, Or.inr ⟨rfl, rfl, fun _ => rfl, fun h => (nomatch h)⟩, by decide +kernel, by decide +kernel⟩⟩
theorem raced_noTrace (s : State) : NoTrace (raced s) := by
  intro c
  by_cases h : c = 0
  · subst h; rfl
  · simp [State.cluster, raced, tget, h]
/-- What TLD and TST refuse: an identifier without tiles in a well, a footprint outside the windows, a race. -/
def nowhere : Desc := { rowTile with base := 0x80000000000 }
def nowhereS : State := { tiler with ctxs := [(0, { part := 0, super := true, root := 0, tensors := [(5, nowhere)] })] }
theorem test_met_TileAccessesBegin_refused : NoTrace tiler ∧ NoTrace nowhereS ∧
    (∃ k v, tileCheck { tiler with threads := [(0, thr [(4, 2 ^ 30)])] } 5 false 5 4 = some (k, v)) ∧
    (∀ write, tileCheck nowhereS 5 write 5 4 = none ∧ ∃ k v, TileRefused nowhereS 0 nowhere (coordsOf tile33) write false k v) ∧
    (let d := { wellTile with base := 64 }; let s := raced { tiler with ctxs := [(0, { part := 0, super := true, root := 0, tensors := [(3, d)] })] };
      NoTrace s ∧ ∀ write, ∃ k v, TileRefused s 0 d (coordsOf 0) write true k v) :=
  ⟨noTrace_of rfl, noTrace_of rfl, ⟨_, _, rfl⟩,
   fun w => ⟨by cases w <;> decide +kernel, _, _, Or.inl ⟨rfl, _, by cases w <;> rfl, rfl, rfl⟩⟩,
   fun c => raced_noTrace _ c,
   fun w => ⟨0x0C, _, Or.inr ⟨rfl, Or.inr ⟨_, by cases w <;> rfl, rfl, rfl, by cases w <;> rfl⟩⟩⟩⟩
/-- A tile access of thread 0: to two lines, or to one, or to a well sector. -/
def acc (us : List LockUnit) (done : TDone) (g : Seg) : TAcc :=
  { h := 0, excl := true, units := us, reqAt := 0, sent := 0, dram := true, entered := 9, segs := [g], buf := List.replicate 64 1, done := done }
def seg (w : Option Nat) : Seg := { well := w, addr := 0x10000, off := 0, len := 64, key := 0, half := false }
def lockEv (a : TAcc) (ls : List Lock) : State := { ev (.tileLockGrant 0 7) [(0, wait .tile)] with taccs := [(7, a)], locks := ls }
/-- A line beyond a link that is not trained, or that is down (R380, R399). -/
def linkLine : LockUnit := .line (2 ^ 52 * 4)
/-- The next unit of access a of thread 0 may be locked. -/
abbrev FreeUnit (s : State) (a : TAcc) (u : LockUnit) : Prop :=
  Takes (.tileLockGrant 0 7) s ∧ tfind s.taccs 7 = some a ∧ a.relWait = false ∧ a.h = 0 ∧ a.units[a.got]? = some u ∧ s.tileBehind 7 a = false ∧
    a.dram = true ∧ a.units.find? (s.unitFails a) = none ∧ s.unitUnready u = false ∧ s.lockStops u a.excl (some 7) = false ∧ s.earlierWaits u a.excl a.reqAt (orderKey 0 a.sent) (some 7) = false
/-- Lines whose bytes lie under one key, in a machine that holds no line. -/
theorem oneKey_of {s : State} {l : List Seg} (c : Option Nat) (ht : s.tags = []) (hl : s.lines = [])
    (h : ∀ g, g ∈ l → g.well = none → s.ringOf g.addr g.len = none ∧ ∀ i, i < g.len → s.keyTag (g.addr + i) g.key = c) : OneKey s l :=
  ⟨c, fun g hg hw => ⟨(h g hg hw).1, fun k h1 h2 => ⟨by simpa [Nat.add_sub_cancel' h1] using (h g hg hw).2 (k - g.addr) (by omega), fun d _ =>
    ⟨fun t e => (by rw [ht] at e; cases e), fun x e h _ => (by rw [hl] at h; cases h)⟩⟩⟩⟩
theorem wells_of {s : State} (h : s.cores = []) : ∀ c, Memory.wf (s.core c).well = true := by
  intro c; unfold State.core; rw [h]; rfl
theorem test_met_TileLocks :
    (let s := lockEv (acc [.line 0x10000] .tst (seg none)) [{ unit := .line 0x10000, excl := true, acc := 3 }];
      Takes (.tileLockGrant 0 7) s ∧ (tfind s.taccs 7).isSome = true ∧ s.lockStops (.line 0x10000) true (some 7) = true) ∧
    (let a := acc [.line 0x10000] .tst (seg none); let b := { a with sent := 2 }; let s := { lockEv b [] with taccs := [(3, a), (7, b)] };
      Takes (.tileLockGrant 0 7) s ∧ tfind s.taccs 7 = some b ∧ s.tileBehind 7 b = true) ∧
    (let a := { acc [.line 0x10000] .tst (seg none) with dram := false }; let s := { placed with agenda := [], ev := some (.tileLockGrant 0 7), taccs := [(7, a)] };
      Takes (.tileLockGrant 0 7) s ∧ tfind s.taccs 7 = some a ∧ s.tileBehind 7 a = false ∧ a.got = 0 ∧ s.unitMisses (.line 0x10000) = true) ∧
    (let a := acc [linkLine] .tst (seg none); let s := lockEv a []; Takes (.tileLockGrant 0 7) s ∧ s.unitUnready linkLine = true ∧ a.units.find? (s.unitFails a) = none) ∧
    (let a := acc [linkLine] .tst (seg none); let s := { lockEv a [] with linkDown := [3] }; Takes (.tileLockGrant 0 7) s ∧ a.units.find? (s.unitFails a) = some linkLine) := by
  decide +kernel
theorem test_met_TileLocks_free :
    (let a := acc [.line 0x10000, .line 0x10100] .tst (seg none); FreeUnit (lockEv a []) a (.line 0x10000) ∧ a.units[a.got + 1]? = some (.line 0x10100)) ∧
    (let a := acc [.line 0x10000] (.tld 0 64 5) (seg none); FreeUnit (lockEv a []) a (.line 0x10000) ∧ a.units.length = a.got + 1 ∧
      BlockedFor 0 .tile (lockEv a []) ∧ Memory.wf ((lockEv a []).core 0).well = true) ∧
    (∀ done, done = .tst ∨ done = .qst ∨ done = .push 0 ∨ done = .drawLand 0 0 0 1 15 → ∀ w, w = none ∨ w = some 0 → ∀ half,
      let a := acc [if w = none then .line 0x10000 else .sector 0 0x10000] done { seg w with half }; let s := lockEv a [];
      FreeUnit s a (if w = none then .line 0x10000 else .sector 0 0x10000) ∧ a.units.length = a.got + 1 ∧
      (∀ g, g ∈ a.segs → g.off + g.len ≤ a.buf.length) ∧ Memory.wf s.mem = true ∧ OneKey s a.segs ∧ ∀ c, Memory.wf (s.core c).well = true) ∧
    (∀ done, done = .qld 1 9 ∨ done = .drawRead 0 0 0 1 15 → let a := acc [.sector 0 0x10000] done (seg (some 0)); let s := lockEv a [];
      FreeUnit s a (.sector 0 0x10000) ∧ a.units.length = a.got + 1 ∧ a.segs = [seg (some 0)] ∧ s.sharers 7 a 0 0 0 15 = []) := by
  refine ⟨by decide +kernel, by decide +kernel, ?_, ?_⟩
  · rintro _ (rfl | rfl | rfl | rfl) _ (rfl | rfl) (_ | _) <;>
      exact ⟨by decide +kernel, by decide +kernel, by decide +kernel, by decide +kernel,
        oneKey_of ((State.keyTag State.reset 0x10000 0)) rfl rfl (by decide +kernel), wells_of rfl⟩
  · rintro _ (rfl | rfl) <;> decide +kernel
/-- A TDEF reads a descriptor, with acknowledgements still to come or not. -/
def tdefEv (left : Nat) (bs : List Byte) : State :=
  { tensors (lockEv (acc [.line 0x10000] .tdef (seg none)) []) with threads := [(0, wait (.table 5 left none))], mem := memWrite [] 0x10000 bs }
theorem test_met_TileLocks_tdef : ∀ left, left = 1 ∨ left = 2 → ∀ x, x = (rowTile.words.flatMap (bytesOfWord 8), none) ∨ x = ([], some 24) →
    (let s := tdefEv left x.1; let a := acc [.line 0x10000] .tdef (seg none);
      FreeUnit s a (.line 0x10000) ∧ a.units.length = a.got + 1 ∧ BlockedFor 0 (.table 5 left none) s ∧ (s.ctx (s.thread 0).ctx).any (fun x => Rising x.tensors) = true ∧
      descFault (s.gather a.buf.length a.segs) = x.2) ∧ NoTrace (tdefEv left x.1) := by
  rintro _ (rfl | rfl) _ (rfl | rfl) <;> exact ⟨by decide +kernel, noTrace_of rfl⟩
/-- Queue q of pair 0 of core 0 holds entries. -/
def queued (q : Nat) (es : List QEntry) (s : State) : State := { s with cores := s.cores.map fun (c, k) => (c, if c = 0 then { k with queues := [(q, { ents := es })] } else k) }
def entry (w : Option Nat) : QEntry := { val := 1, at_ := 0, wait := w }
/-- The queues let an instruction go on. -/
abbrev Opens (s : State) (h : Nat) (i : Instr) : Prop := s.queueMisuse h i = none ∧ s.queueWaits h i s.cycle = none
def twoWells4 (xs : List (Nat × Word)) : State := { twoWells xs with threads := [(0, { thr xs with sup := true }), (4, thr [])] }
theorem test_met_QueueInstructions :
    (let s := twoWells4 [(5, 64), (6, 0x100040)];
      s.cur = .thread 0 ∧ Ungated s ∧ Runs (.qld 5 1) s ∧ Runs (.qld 6 0) s ∧ Runs (.qld 6 2) s ∧ 2 ≤ (2 : BitVec 2).toNat ∧ Runs (.qpx 6 5 0) s ∧
      Runs (.qpx 6 5 3) s ∧ Opens s 0 (.qld 5 1) ∧ Opens s 0 (.qpx 6 5 0) ∧
      wellCore 0 (s.getX 5) = coreOf 0 ∧ wellCore 0 (s.getX 6) ≠ coreOf 0 ∧ wfield (s.getX 6) 63 25 = 0 ∧ wellOff (s.getX 6) + 128 ≤ 2 ^ 20 ∧
      (s.getX 6).toNat % 16 = 0 ∧ ∀ w, (s.raceCheck 0 0 w [(0, 64, 128)]).1 = none ∧ nbit (s.rights (coreOf 0) 1) (b2n w) = true) ∧
    (let s := queued 2 [entry none] (twoWells [(6, 0x100040)]);
      Runs (.qst 6 2) s ∧ Opens s 0 (.qst 6 2) ∧ (s.raceCheck 0 0 true [(1, 64, 128)]).1 = none ∧ (s.queue 0 0 2).ents = [entry none]) ∧
    (let s := a0 [(5, 2 ^ 30), (6, 2 ^ 20 - 64), (7, 72), (8, 0x100040)];
      NoTrace s ∧ wfield (s.getX 5) 63 25 ≠ 0 ∧ 2 ^ 20 < wellOff (s.getX 6) + 128 ∧ (s.getX 7).toNat % 16 ≠ 0 ∧ s.rights (coreOf 0) (wellCore 0 (s.getX 8)) = 0) ∧
    (let s := raced (a0 [(5, 64)]); Ungated s ∧ ∀ w, (s.raceCheck 0 0 w [(0, 64, 128)]).1.isSome = true) := by
  refine ⟨by decide +kernel, by decide +kernel, ⟨noTrace_of rfl, by decide +kernel⟩, by decide +kernel⟩
/-- Queue 0 is full; the execute thread lives or not. -/
def fullQueue (ts : Table Thread) : State := queued 0 (List.replicate 16 (entry none)) (core0 {} (st 0 ([(0, thr [])] ++ ts)))
/-- Thread 0 waits on queue 0 with QPX, which holds entries. -/
def queueEv (es : List QEntry) (ts : Table Thread) : State :=
  queued 0 es (core0 {} (ev (.queueWake 0) ([(0, { wait (.queue 0) with insn := 0x008C5029 })] ++ ts)))
theorem test_met_QueueWaits :
    (let s := fullQueue [(4, thr [])]; Runs (.qpx 6 5 0) s ∧ s.queueMisuse 0 (.qpx 6 5 0) = none ∧ s.queueWaits 0 (.qpx 6 5 0) s.cycle = some 0) ∧
    (fullQueue []).queueMisuse 0 (.qpx 6 5 0) = some 0 ∧
    (∀ x, x ∈ [([], [(4, thr [])], none, none), (List.replicate 16 (entry none), [(4, thr [])], none, some 0),
        (List.replicate 16 (entry none), [], some 0, some 0)] →
      let s := queueEv x.1 x.2.1;
      Takes (.queueWake 0) s ∧ BlockedFor 0 (.queue 0) s ∧ blockedInsn (s.thread 0) = some (.qpx 6 5 0) ∧ s.queueMisuse 0 (.qpx 6 5 0) = x.2.2.1 ∧
      s.queueWaits 0 (.qpx 6 5 0) (s.cycle + 1) = x.2.2.2) ∧
    (∀ c, c ∈ [0, 1] → let s := queued 0 [entry (some 9)] (core0 {} (ev (.qldEntryArrival 0 0 9 c 64) [(0, thr []), (4, { wait (.queue 0) with insn := 0x0005C1C9 })]));
      Takes (.qldEntryArrival 0 0 9 c 64) s ∧ BlockedFor (partner 0) (.queue 0) s ∧ blockedInsn (s.thread (partner 0)) = some (.vadd 0 2 28 3) ∧
      (match exec .qldEntryArrival s with
        | .next t => t.queueMisuse (partner 0) (.vadd 0 2 28 3) == none && (c == 0 || t.queueWaits (partner 0) (.vadd 0 2 28 3) s.cycle == none)
        | _ => false) = true) := by decide +kernel
theorem test_met_QueueWaits_misuse : NoTrace (fullQueue []) ∧ NoTrace (queueEv (List.replicate 16 (entry none)) []) := ⟨noTrace_of rfl, noTrace_of rfl⟩
/-- The request block of a draw of the whole grid, in the well of core 0 at 0x40: body 0x2000, ring of two slots of 64 bytes
at 0x100, slot 0 allowed, counter at 0x80. -/
def block (bodyPc : Word) : List Byte := [0, 0x0001000100040004, bodyPc, word (0x100 + 2 ^ 20 + 6 * 2 ^ 24 + 2 ^ 28 + 0x80 * 2 ^ 32)].flatMap (bytesOfWord 8)
def drawer (bodyPc : Word) (ds : Table Draw) (xs : List (Nat × Word)) : State :=
  core0 { tlb := [placeEntry 0], holder := some 0, well := memWrite [] 0x40 (block bodyPc), draws := ds } (tensors (pl xs))
/-- Such a draw. -/
def aDraw : Draw :=
  { handle := 0, desc := rowTile, origin := [0, 0, 0, 0], extent := [4, 4, 1, 1], bodyPc := 0x2000, ring := 0x100, logSlots := 1, logBytes := 6, allow := 1,
    counter := 0x80, h := 0, ctx := 0, sup := true, node := none, launch := 0 }
/-- A store of thread 0 is on its way. -/
def storing (s : State) : State := { s with cycle := 1, agenda := [(9, .farAccessPerform (far (.store [1])))] }
theorem test_met_DrawInstructions :
    (let s := drawer 0x2000 [] [(7, 0x40), (9, 0)];
      s.cur = .thread 0 ∧ Runs (.draw 5 7 9) s ∧ drawCheck 5 7 s = none ∧ s.tensor 0 5 = some rowTile ∧ 0 < 8 ∧
      (∀ k, k ≤ 0 → ((tfind (s.core 0).draws k).isNone = true ↔ k = 0)) ∧ drawAhead s 0 = false ∧ Ungated s ∧ (s.core 0).l1 = [] ∧
      (s.thread 0).relAt = none ∧ s.releaseDone (.thread 0) s.cycle 4 = true ∧ blockFault rowTile (blockOf (s.wellRead 0 0x40 32)) = none ∧
      handleCheck 9 s = none ∧ Runs (.dcan 9) s ∧ Runs (.dstat 9 10) s ∧ s.drawOf (s.getX 9) = none) ∧
    (let s := drawer 0x2001 [] [(7, 0x40)]; blockFault rowTile (blockOf (s.wellRead 0 0x40 32)) = some 16) ∧
    (drawer 0x2000 [(0, aDraw)] [(9, 0)]).drawOf 0 = some aDraw ∧
    (let s := drawer 0x2000 ((List.range 7).map fun k => (k, { aDraw with handle := k })) [(7, 0x40)];
      7 < 8 ∧ ∀ k, k ≤ 7 → ((tfind (s.core 0).draws k).isNone = true ↔ k = 7)) ∧
    (let s := drawer 0x2000 ((List.range 8).map fun k => (k, { aDraw with handle := k })) [(7, 0x40)];
      ∀ k, k < 8 → (tfind (s.core 0).draws k).isSome = true) ∧
    (let s := drawer 0x2000 [] [(7, 0x40), (9, 2 ^ 60)]; (drawCheck 6 7 s).isSome = true ∧ (handleCheck 9 s).isSome = true) ∧
    (let s := { drawer 0x2000 [] [] with cur := .thread 1, threads := [(0, { thr [] with drawWait := true }), (1, thr [(7, 0x40)])] };
      drawAhead s 1 = true) := by decide +kernel
theorem test_met_DrawInstructions_stops : NoTrace (drawer 0x2001 [] [(7, 0x40)]) ∧
    (let s := storing (drawer 0x2000 [] [(7, 0x40)]);
      s.releaseDone (.thread 0) s.cycle 4 = false ∧ Ungated s ∧ Unlimited s ∧ Runs (.draw 5 7 9) s ∧ (s.thread 0).relAt = none) := by
  refine ⟨noTrace_of rfl, by decide +kernel, by decide +kernel, unlimited_of (h := 0) rfl (by decide +kernel), by decide +kernel⟩
/-- The draw at work in a resident context. -/
def atWork (e : Event) (d : Draw) (ts : Table Thread) : State :=
  { drawer 0x2000 [(0, d)] [] with ev := some e, threads := ts, dies := (List.range 4).map fun k => (k, { tlb := [placeEntry 0] }),
                                   ctxs := [(0, { part := 0, super := true, root := 0, phase := .resident })] }
/-- The draw of tile 15 only. -/
def lastTile : Draw := { aDraw with origin := [3, 3, 0, 0], extent := [1, 1, 1, 1] }
theorem test_met_DrawDelivery_claim :
    (let s := atWork (.drawTileClaim 0 0 0) lastTile [];
      s.draw 0 0 0 = some lastTile ∧ Takes (.drawTileClaim 0 0 0) s ∧ s.sweeping lastTile = true ∧ (0 < lastTile.tiles ∧ 0 ∉ lastTile.taken) ∧
      (0 < 2 ^ lastTile.logSlots ∧ tfind lastTile.slots 0 = none) ∧ s.drawTurn (s.pumpOf lastTile 0) 0 0 lastTile = true ∧
      ∀ k, k < lastTile.tiles → (match (s.segsOf { ctx := lastTile.ctx, sup := lastTile.sup, die := chanDie (s.pumpOf lastTile k), core := none } .read
        (lastTile.desc.pieces (lastTile.coords k))).1 with | .ok _ => true | .error _ => false) = true) ∧
    (let s := atWork (.drawTileClaim 0 0 0) lastTile []; let c := s.pumpOf lastTile 0
     let s := s.modPump c fun k => { k with served := [(0, 0, 0)], turns := [(0, 0)] };
     let s := { s with cores := [(0, { s.core 0 with draws := [(0, lastTile), (1, { lastTile with handle := 1 })] })] };
      s.draw 0 0 0 = some lastTile ∧ s.sweeping lastTile = true ∧ tget 0 lastTile.passed c < 32 ∧ s.drawTurn c 0 0 lastTile = false) := by decide +kernel
theorem test_met_DrawDelivery :
    (∀ rows, rows = [] ∨ rows = [List.replicate 64 3] → let s := atWork (.drawTileLand 0 0 0 1 15 rows) { aDraw with slots := [(1, .claimed 15)] } [];
      Takes (.drawTileLand 0 0 0 1 15 rows) s ∧ s.draw 0 0 0 = some { aDraw with slots := [(1, .claimed 15)] } ∧ s.mustPause (s.pumpOf aDraw 15) 0 0 = false) ∧
    (let o := { lastTile with handle := 1 }
     let s := atWork (.drawTileLand 0 0 0 1 15 [List.replicate 64 3]) aDraw []; let c := s.pumpOf aDraw 15
     let s := { s with cores := [(0, { s.core 0 with draws := [(0, aDraw), (1, { o with passed := [(c, 127)] })] })] };
      s.draw 0 0 0 = some aDraw ∧ s.mustPause c 0 0 = true) ∧
    (let d := { aDraw with slots := [(1, .landed 15 0)], allow := 9 }; let s := { atWork (.bodyStart 0) d [(0, thr [])] with cycle := 2 };
      s.draw 0 0 0 = some d ∧ Takes (.bodyStart 0) s ∧ landedTiles (s.core 0) s.cycle = [(0, 0, 1, 15)] ∧ (s.core 0).halted = false ∧
      (s.core 0).holder = some d.ctx ∧ (s.ctx d.ctx).any (fun x => x.phase = .resident) = true ∧ 3 < 4 ∧ nbit d.allow 3 = true ∧
      s.slotFree (8 * 0 + 3) = true ∧ ∀ k, k < 3 → nbit d.allow k = true → s.slotFree (8 * 0 + k) = false) := by
  refine ⟨by rintro _ (rfl | rfl) <;> decide +kernel, by decide +kernel, by decide +kernel⟩
/-- Thread 0 at the end of a body, or without one. -/
def ender (b : Option Body) : State :=
  { drawer 0x2000 [(0, { aDraw with slots := [(1, .running 15 0)] })] [] with threads := [(0, { thr [] with body := b })] }
theorem test_met_DrawCompletion :
    (let s := ender (some { num := 0, slot := 1 });
      s.cur = .thread 0 ∧ Runs .bdone s ∧ (s.thread 0).body = some { num := 0, slot := 1 } ∧ (s.thread 0).gang = none ∧ Ungated s ∧
      (tfind (s.core (coreOf 0)).draws 0).isSome = true) ∧
    ((ender none).thread 0).body = none ∧ ((ganged (ender none)).thread 0).gang.isSome = true ∧
    (let s := atWork (.drawCompleteMessage 0 0 0 (some (0, 0, 1))) { aDraw with slots := [(1, .running 15 0)] } [(0, thr [])];
      (s.draw 0 0 0).isSome = true ∧ Takes (.drawCompleteMessage 0 0 0 (some (0, 0, 1))) s ∧ s.releaseDone (.thread 0) 0 2 = true ∧
      Rising [(1, RingSlot.running 15 0)] ∧ Memory.wf (s.core 0).well = true ∧
      s.mustWait (sectorsOf 0 0x80 8) true (s.reachedAt (.drawCount 0 0)) (orderKey 0 0) = false ∧
      { s with locks := [{ unit := .sector 0 0x80, excl := true, acc := 7 }] }.mustWait (sectorsOf 0 0x80 8) true (s.reachedAt (.drawCount 0 0)) (orderKey 0 0) = true) ∧
    (let s := storing (atWork (.drawCompleteMessage 0 0 0 (some (0, 1, 1))) aDraw [(0, thr [])]); Takes (.drawCompleteMessage 0 0 0 (some (0, 1, 1))) s ∧
      s.releaseDone (.thread 0) 1 2 = false) ∧
    (let s := atWork (.drawCompleteMessage 0 0 0 none) aDraw []; s.draw 0 0 0 = some aDraw ∧ Takes (.drawCompleteMessage 0 0 0 none) s ∧ Rising (s.core 0).draws) := by
  decide +kernel
theorem test_met_DrawCompletion_traps : NoTrace (ender none) ∧ NoTrace (ganged (ender none)) ∧ Unlimited (ender none) :=
  ⟨noTrace_of rfl, noTrace_of rfl, unlimited_of (h := 0) rfl (by decide +kernel)⟩

/-! #### Lanes, conversions, special functions, wide accumulators, hash tables -/

theorem test_met_IntegerLanes : ((8 = 8 ∨ 8 = 16 ∨ 8 = 32) ∧ (Elt.int 8 = .int 8 ∨ Elt.int 8 = .nat 8) ∧ 255 < 2 ^ 8 ∧ 128 < 2 ^ 8 ∧ 0 < 2 ^ 8) ∧
    ((32 = 8 ∨ 32 = 16 ∨ 32 = 32) ∧ (Elt.nat 32 = .int 32 ∨ Elt.nat 32 = .nat 32) ∧ 4294967295 < 2 ^ 32) := by decide
theorem test_met_FloatLanes : ∀ f : FF, f = .f32 ∨ f = .b16 ∨ f = .h16 → let nan := f.canonNaN
    nan < 2 ^ f.width ∧ 1 < 2 ^ f.width ∧ f.val nan = .nan ∧ f.val 1 ≠ .nan := by
  rintro _ (rfl | rfl | rfl) <;> decide +kernel
theorem test_met_SpecialValues : ∀ f : FF, f = .f32 ∨ f = .b16 ∨ f = .h16 → let p (z n d : Nat) : Prop := ∃ g n' d', f.val z = .fin g n' d' ∧ n' * d = n * d'
    f.val f.canonNaN = .nan ∧ (∀ g, f.val (f.inf g) = .inf g ∧ f.inf g < 2 ^ f.width ∧ (∃ d, f.val (f.zero g) = .fin g 0 d)) ∧
    p (f.round (.fin false 1 1) 0).1 1 1 ∧ p (f.round (.fin true 3 2) 0).1 3 2 ∧ p (f.round (.fin true 2 1) 0).1 2 1 := by
  rintro _ (rfl | rfl | rfl) <;>
    exact ⟨by decide +kernel, fun g => by cases g <;> exact ⟨by decide +kernel, by decide +kernel, _, rfl⟩,
      ⟨_, _, _, rfl, by decide +kernel⟩, ⟨_, _, _, rfl, by decide +kernel⟩, ⟨_, _, _, rfl, by decide +kernel⟩⟩
/-- 1 + 2^−24 is a tie, and −0 is smaller than +0 (R106, R150); 2^−1 is exact (R160). -/
theorem test_float_lanes : laneAdd (.fl .f32) 0 0x3F800000 0x33800000 = (0x3F800000, flNX) ∧ laneMin (.fl .f32) 0 0x80000000 = (0x80000000, 0) ∧
    laneSpecial .exp2 .f32 0 0xBF800000 0 = (0x3F000000, 0) := by decide +kernel
theorem test_met_RoundingDirections : (0x3F800000 < 2 ^ FF.f32.width ∧ ∃ n d, FF.f32.val 0x3F800000 = .fin false n d) ∧
    (0 < 1 ∧ 0 < 3 ∧ 3 < 4 ∧ (FF.f32.round (.fin true 1 3) 3).2 &&& flOF = 0) := ⟨⟨by decide, _, _, rfl⟩, by decide +kernel⟩
/-- One third rounds to 0x3EAAAAAB, upwards, and to 0x3EAAAAAA towards zero (R106). -/
theorem test_round_third : FF.f32.round (.fin false 1 3) 0 = (0x3EAAAAAB, flNX) ∧ FF.f32.round (.fin false 1 3) 1 = (0x3EAAAAAA, flNX) := by decide +kernel
/-- An execute thread with one entry in its queue 0, and with vector registers. -/
def vregs (vs : List (Nat × VReg)) : Vector VReg 32 :=
  vs.foldl (fun (v : Vector VReg 32) p => v.set (p.1 % 32) p.2 (Nat.mod_lt _ (by decide))) (Vector.replicate 32 0)
def lanes (vs : List (Nat × VReg)) (fen : BitVec 5) : State :=
  queued 0 [entry none] (core0 {} (st 4 [(0, thr []), (4, { thr [(5, 1), (6, 0x3F800000)] with fenable := fen, v := vregs vs })]))
/-- 1.0 and a signalling NaN in lane 0. -/
def one0 : VReg := 0x3F800000
def snan0 : VReg := 0x7F800001
theorem test_met_LanewiseInstructions :
    (∀ i, i ∈ [.vadd 0 2 1 3, .vadd 5 2 28 3, .vsubF32Parcel 5 1, .vand 5 2 1 31, .vcmp 5 5 2 1 3, .vsel 7 2 1 3] →
      let s := lanes [(1, one0)] 0; s.cur = .thread 4 ∧ Runs i s ∧ headCheck i false = none ∧ s.queueMisuse 4 i = none ∧ s.queueWaits 4 i s.cycle = none) ∧
    bitwiseOf (.vand 5 2 1 31) = some ([1, 2], 31, (· &&& ·)) ∧ (laneOf (.vadd 5 2 28 3)).isSome = true := ⟨by decide +kernel, rfl, rfl⟩
/-- An enabled event is there to be met, and one that is not. -/
theorem test_met_LanewiseInstructions_events : (laneAdd (.fl .f32) 0 0x7F800001 0).2 &&& flNV ≠ 0 ∧ (laneAdd (.fl .f32) 0 0x3F800000 0).2 = 0 ∧
    NoTrace (lanes [(1, snan0)] 31) := ⟨by decide +kernel, by decide +kernel, noTrace_of rfl⟩
/-- Fields, queues and limits that stop a vector instruction. -/
theorem test_met_VecStops : headCheck (.vadd 0 2 1 29) false ≠ none ∧ NoTrace (lanes [] 0) ∧
    (let s := lanes [] 0; headCheck (.vadd 0 2 29 3) false = none ∧ s.queueMisuse 4 (.vadd 0 2 29 3) = none ∧
      s.queueWaits 4 (.vadd 0 2 29 3) s.cycle = some 1) ∧
    (let s := core0 {} (st 4 [(4, thr [])]); headCheck (.vadd 0 2 28 3) false = none ∧ s.queueMisuse 4 (.vadd 0 2 28 3) = some 0 ∧ NoTrace s) :=
  ⟨by decide +kernel, noTrace_of rfl, by decide +kernel, ⟨by decide +kernel, by decide +kernel, noTrace_of rfl⟩⟩
/-- VADD.f32 of 1 and 1 in lane 0 is 2 (R108). -/
theorem test_vadd : (match exec (.vadd 0 1 1 3) (lanes [(1, one0)] 0) with | .next t => ((t.thread 4).getV 3).toNat % 2 ^ 32 | _ => 0) = 0x40000000 := by
  decide +kernel
theorem test_met_ConversionsMovesReductions : (∀ i, i ∈ [.vcvt 5 0 0 0 1 2, .vcvt 7 1 0 3 1 2, .vqnt 1 0 1 3 1 2, .vdq 3 1 3 1 2, .vbcast 0 6 2, .vins 0 0 6 2,
      .vperm 7 3 1 2, .vslide 6 5 1 2, .viota 5 2, .vmovi 0 512 2, .vrsum 0 1 2, .vrmaxN 7 1 2, .vrmin 6 1 2] →
    let s := lanes [(1, one0)] 0; s.cur = .thread 4 ∧ Runs i s ∧ (moveOf s 4 i).any (fun x => x.2.2.2.1 && headCheck i x.2.2.1 = none) = true ∧
      s.queueMisuse 4 i = none ∧ s.queueWaits 4 i s.cycle = none) := by decide +kernel
theorem test_met_ExtractAndTopK : (∀ i, i ∈ [.vext 0 5 1 2, .vextN 7 5 28 2, .vtopk 0 31 1 10, .vtopkN 5 0 1 26] →
    let s := lanes [(1, one0)] 0; s.cur = .thread 4 ∧ Runs i s ∧ headCheck i false = none ∧ s.queueMisuse 4 i = none ∧ s.queueWaits 4 i s.cycle = none ∧
      (s.getX 5).toNat < 1024 / 32 ∧ (s.getX 5).toNat < 1024 / 8 ∧ (26 : Reg).toNat ≤ 26) ∧
    orFl ((lanesOf 32 one0).map fun x => sigFl .f32 [x]) &&& 31 = 0 := by decide +kernel
/-- A request of the special-function unit, waiting or started. -/
def sfuReq (started : Bool) : SfuReq :=
  { h := 4, fn := .div, ty := 0, a := one0, b := 0x40000000, d := 3, frm := 0, at_ := 1, started := started }
theorem test_met_SpecialFunctions :
    (let s := lanes [] 0; s.cur = .thread 4 ∧ specialOf (.vdiv 0 2 1 3) = some (.div, 0, 2, 1, 3) ∧ Runs (.vdiv 0 2 1 3) s ∧ (27 : Reg).toNat < 28 ∧
      specialOf (.vtanh 2 27 27) = some (.tanh, 2, 0, 27, 27) ∧ Runs (.vtanh 2 27 27) s ∧ ((s.core (coreOf 4)).sfu.filter fun r => !r.started).length < 8) ∧
    (let s := { core0 { sfu := [sfuReq false] } (ev (.sfuStart 0) [(4, wait .sfu)]) with cycle := 1 };
      Takes (.sfuStart (coreOf 4)) s ∧ (s.core 0).sfu = [sfuReq false] ∧ (s.core 0).halted = false ∧ (sfuReq false).at_ ≤ s.cycle ∧ (s.core 0).sfuFree ≤ s.cycle) ∧
    (let s := core0 { sfu := [sfuReq true] } (ev (.sfuComplete 0 4) [(4, wait .sfu)]);
      Takes (.sfuComplete (coreOf 4) 4) s ∧ (s.core 0).sfu = [sfuReq true] ∧ BlockedFor 4 .sfu s ∧ eltOf (BitVec.ofNat 3 (sfuReq true).ty) false = .fl .f32 ∧
      (s.thread 4).fenable = 0) := by decide +kernel
theorem test_met_WideAccumulators : (let s := lanes [(1, one0)] 0;
    s.cur = .thread 4 ∧ (3 : Reg).toNat < 4 ∧ Runs (.wclr 3) s ∧ (5 : BitVec 3).toNat ≥ 5 ∧ ((s.thread 4).getW 3).nan = false ∧ ((s.thread 4).getW 3).pinf = false ∧
    ((s.thread 4).getW 3).ninf = false ∧ ∀ i, i ∈ [.wacc 5 1 0, .waccp 5 28 1 3, .wrnd 3 2, .wsave 0 31, .wload 28 3] →
      Runs i s ∧ headCheck i false = none ∧ s.queueMisuse 4 i = none ∧ s.queueWaits 4 i s.cycle = none) := by decide +kernel
/-- A hash table of 16 entries of integers in the well of core 0. -/
def hashTile : Desc := { wellTile with kind := 2, fmt := 8, dim0 := 16, dim1 := 1, s1 := 0 }
def hashS (s : State) : State := { s with ctxs := [(0, { part := 0, super := true, root := 0, tensors := [(9, hashTile)] })] }
theorem test_met_HashIssue : (let s := hashS (twoWells [(5, 64)]); let s := { s with cur := .thread 4, threads := [(0, thr []), (4, thr [])] };
    s.cur = .thread 4 ∧ s.tensor (s.thread 4).ctx ((1 : BitVec 3) ++ (1 : BitVec 5) : BitVec 8).toNat = none ∧ NoTrace s ∧
    s.tensor (s.thread 4).ctx ((0 : BitVec 3) ++ (9 : BitVec 5) : BitVec 8).toNat = some hashTile ∧ hashTile.kind = 2 ∧ hashTile.ro = false ∧
    hashTile.base.toNat % 8 = 0 ∧ wfield hashTile.base 63 25 = 0 ∧ wellOff hashTile.base + 8 * hashTile.dim0 ≤ 2 ^ 20 ∧
    wellCore 4 hashTile.base = coreOf 4 ∧ (∀ w, nbit (s.rights (coreOf 4) 0) w = true ∨ 1 < w) ∧
    ∀ i, i ∈ [.hacc 0 9 2 1, .hlook 0 9 1 2, .hclr 0 9] → (hashOf i).isSome = true ∧ Runs i s ∧ headCheck i false = none ∧ Opens s 4 i) ∧
    (∀ d, d ∈ [wellTile, { hashTile with ro := true }, { hashTile with base := 0x1004 }, { hashTile with base := 2 ^ 30 }, { hashTile with base := 0xFFFF8 },
      { hashTile with base := 0x100000 }] → let s := { hashS (lanes [] 0) with ctxs := [(0, { part := 0, super := true, root := 0, tensors := [(9, d)] })] };
      s.tensor (s.thread 4).ctx 9 = some d) ∧
    (hashS (lanes [] 0)).rights 0 1 = 0 ∧ NoTrace (hashS (lanes [] 0)) ∧ headCheck (.hlook 0 9 1 28) false ≠ none := by
  refine ⟨⟨rfl, rfl, noTrace_of rfl, by decide +kernel, rfl, rfl, by decide +kernel, by decide +kernel, by decide +kernel, by decide +kernel, ?_, by decide +kernel⟩,
    by decide +kernel, by decide +kernel, noTrace_of rfl, by decide +kernel⟩
  rintro (_ | _ | w)
  · exact Or.inl (by decide +kernel)
  · exact Or.inl (by decide +kernel)
  · exact Or.inr (by omega)
/-- The words of HACC, HLOOK and HCLR on the tensor 9 (R166). -/
def HACC : Nat := (encodeTable (.hacc 0 9 2 1)).elim 0 (·.2)
def HLOOK : Nat := (encodeTable (.hlook 0 9 1 2)).elim 0 (·.2)
def HCLR : Nat := (encodeTable (.hclr 0 9)).elim 0 (·.2)
/-- The access arrives at the table d, which holds entries e, with LANECUR at its first or last lane. -/
def hashEv (d : Desc) (e : Word) (insn : Nat) (w : HashWait) (j : BitVec 5) : State :=
  core0 { well := memWrite [] (wellOff d.base) ((List.range 16).flatMap fun _ => bytesOfWord 8 e) }
    (ev (.hashAccessComplete 4) [(4, { wait (.hash { w with d := d }) with insn := insn, lanecur := j, fenable := 31 })])
/-- What the three instructions wait with. -/
def hclrW : HashWait := { d := hashTile, rs := [], ops := [], dst := none }
def hlookW (r : Reg) (push : Option Nat) : HashWait := { d := hashTile, rs := [1], ops := [one0], dst := some r, push := push }
def haccW : HashWait := { d := hashTile, rs := [1, 2], ops := [one0, snan0], dst := none }
/-- An empty entry; an entry of the key 0 whose value is a signalling NaN. -/
def emptyE : Word := 0xFFFFFFFF
def nanE : Word := 0x7F80000100000000
theorem no_wait {s : State} (h1 : s.locks = []) (h2 : s.taccs = []) (h3 : s.bks = []) (h4 : s.agenda = []) (h5 : s.waiting = []) (us : List LockUnit) (w : Bool)
    (c h : Nat) (k : ∀ u, u ∈ us → s.unitUnready u = false) : s.mustWait us w c h = false := by
  simpa [State.mustWait, State.waitsAt, State.lockStops, State.earlierWaits, h1, h2, h3, h4, h5] using k
theorem no_broken {s : State} (h : s.broken = []) (us : List LockUnit) : s.brokenSector us = none := by
  unfold State.brokenSector State.unitBroken
  rw [h, List.findSome?_eq_none_iff]
  rintro (_ | _) _ <;> rfl
theorem no_race {s : State} (h1 : s.clusters = []) (c x : Nat) (w : Bool) (l : List (Nat × Nat × Nat)) : (s.raceCheck c x w l).1 = none := by
  have e : (s.cluster (c / 32)).raceEn = [] := by unfold State.cluster; rw [h1]; rfl
  simp [State.raceCheck, e]
theorem test_met_HashTables :
    (let s := hashEv hashTile emptyE HCLR hclrW 0; (∀ us wr, (∀ u, u ∈ us → ∃ c o, u = .sector c o) → s.mustWait us wr (s.reachedAt (.hash 4)) (orderKey 4 (s.thread 4).since) = false) ∧ NoTrace s ∧
      (∀ us, s.brokenSector us = none) ∧
      ∀ wr l, (s.raceCheck (coreOf 4) (s.thread 4).ctx wr l).1 = none) ∧
    (∀ x, x ∈ [(HCLR, Instr.hclr 0 9, hclrW, (0 : BitVec 5)), (HLOOK, .hlook 0 9 1 2, hlookW 2 none, 0), (HLOOK, .hlook 0 9 1 2, hlookW 30 (some 7), 0),
        (HACC, .hacc 0 9 2 1, haccW, 0), (HACC, .hacc 0 9 2 1, haccW, 31)] →
      let s := hashEv hashTile emptyE x.1 x.2.2.1 x.2.2.2;
      Takes (.hashAccessComplete 4) s ∧ BlockedFor 4 (.hash x.2.2.1) s ∧ Alone 4 s ∧ x.2.2.1.done = none ∧
      Memory.wf (s.core (wellCore 4 hashTile.base)).well = true ∧ blockedInsn (s.thread 4) = some x.2.1) ∧
    (let s := hashEv hashTile emptyE HACC haccW 0; (probes hashTile 0x3F800000).find? (fun n => (s.hashEntry 0 hashTile n).1 = 2 ^ 32 - 1) ≠ none) ∧
    (let s := hashEv hashTile 1 HACC haccW 0;
      (probes hashTile 0x3F800000).find? (fun n => (s.hashEntry 0 hashTile n).1 = 0x3F800000 ∨ (s.hashEntry 0 hashTile n).1 = 2 ^ 32 - 1) = none) :=
  ⟨⟨fun us wr k => no_wait rfl rfl rfl rfl rfl us wr _ _ fun u hu => by obtain ⟨c, o, rfl⟩ := k u hu; rfl, noTrace_of rfl, fun us => no_broken rfl us, fun wr l => no_race rfl _ _ wr l⟩, by decide +kernel, by decide +kernel, by decide +kernel⟩
/-- A race, a lock in the way, and an enabled event at the table. -/
theorem test_met_HashTables_stops :
    (let d := { hashTile with base := 64 }; let s := raced (hashEv d emptyE HCLR hclrW 0);
      NoTrace s ∧ (s.raceCheck (coreOf 4) (s.thread 4).ctx true [(0, wellOff d.base, 8 * d.dim0)]).1 = some 64) ∧
    (let s := { hashEv hashTile emptyE HCLR hclrW 0 with locks := [{ unit := .sector 0 0x1000, excl := true, acc := 3 }] };
      s.mustWait (sectorsOf 0 0x1000 128) true (s.reachedAt (.hash 4)) (orderKey 4 (s.thread 4).since) = true) ∧
    (let s := { hashEv hashTile emptyE HCLR hclrW 0 with broken := [.sector 0 0x1000] };
      s.brokenSector (sectorsOf 0 0x1000 128) = some (wellAddr 0 0x1000) ∧ NoTrace s) ∧
    (let d := { hashTile with fmt := 0 }; let s := hashEv d nanE HACC { haccW with ops := [0, one0] } 0;
      (s.hashEntry 0 d ((probes d 0).getD 0 0)).1 = 0 ∧ NoTrace s ∧ (s.thread 4).fenable = 31 ∧
      (FF.f32.add 0 (s.hashEntry 0 d ((probes d 0).getD 0 0)).2 0x3F800000).2 &&& 31 ≠ 0) := by
  refine ⟨⟨raced_noTrace _, by decide +kernel⟩, by decide +kernel, ⟨by decide +kernel, noTrace_of rfl⟩, ⟨by decide +kernel, noTrace_of rfl, by decide +kernel, by decide +kernel⟩⟩

/-! #### The cistern and the matrix engine -/

/-- Tensors in the wells of core 0: 11 with tiles of 32 rows of 32 numbers, 12 of 32 rows of 48 bytes; 13 a list of four
steps in memory. -/
def cisTile : Desc := { rowTile with well := true, rows := 31, rowBytes := 127, base := 0x1000, dim0 := 32, dim1 := 32, s1 := 128 }
def matTile : Desc := { rowTile with fmt := 7, well := true, rows := 31, rowBytes := 47, base := 0x4000, dim0 := 96, dim1 := 32, s1 := 96 }
def listTile : Desc := { rowTile with kind := 3, fmt := 7, rows := 0, rowBytes := 15, base := 0x10000, dim0 := 4, dim1 := 1, s1 := 0 }
def matCtx (s : State) : State :=
  { s with ctxs := [(0, { part := 0, super := true, root := 0, tensors := [(11, cisTile), (12, matTile), (13, listTile)] })] }
def refOf (t off : Nat) : Word := word (t * 2 ^ 56 + off)
/-- A thread of context 0, with CWAIT. -/
def cis (h : Nat) (xs : List (Nat × Word)) (cw : BitVec 5) : State :=
  matCtx (core0 { holder := some 0, tlb := [placeEntry 0] } (st h [(h, { thr xs with cwait := cw, sup := true })]))
theorem test_met_CisternInstructions_tiles :
    (let s := cis 0 [(5, 0x3F00), (6, 63), (7, 64), (8, refOf 11 0x1000), (9, refOf 11 0x1001)] 0;
      s.cur = .thread 0 ∧ Rising (s.core (coreOf 0)).cistern ∧ Runs (.mzero 0 5) s ∧ (0 : BitVec 6).toNat + wfield (s.getX 5) 13 8 ≤ 63 ∧
      63 < (1 : BitVec 6).toNat + wfield (s.getX 5) 13 8 ∧ Runs (.mzero 1 5) s ∧
      Runs (.mcopy 1 6) s ∧ wfield (s.getX 6) 63 6 = 0 ∧ wfield (s.getX 7) 63 6 ≠ 0 ∧
      (∀ m, m ∈ [0, 1, 63] → (s.core 0).tileHeld m s.cycle = false ∧ (s.core 0).lastCycle m s.cycle = false) ∧
      s.refDesc (s.getX 8) = some cisTile ∧ s.refDesc (s.getX 9) = some cisTile ∧ Ungated s ∧
      Runs (.mldc 1 8) s ∧ Runs (.mstc 1 8) s ∧ (s.thread 0).fenable = 0 ∧
      ∀ w, (s.raceCheck 0 0 w (rowSegs (tileRefOf 0 cisTile (s.getX 8)) 0x1000 128)).1 = none ∧
        refChecks s { elems := some 32, write := w, dense := true, third := fullRow } (cisternFmt s (s.getX 8) (if w then 0 else s.getX 8)) [s.getX 8] = none ∧
        (refChecks s { elems := some 32, write := w, dense := true, third := fullRow } (cisternFmt s (s.getX 9) (if w then 0 else s.getX 9)) [s.getX 9]).isSome = true) ∧
    (let k : Core := { heldTiles := [{ tile := 1, issued := 0 }], lastWrite := some (2, 0) }; k.tileHeld 1 0 = true ∧ k.lastCycle 2 0 = true) ∧
    (let s := raced (cis 0 [(8, refOf 11 64)] 0);
      s.refDesc (s.getX 8) = some cisTile ∧ ∀ w, (s.raceCheck 0 0 w (rowSegs (tileRefOf 0 cisTile (s.getX 8)) 64 128)).1 = some 64) := by decide +kernel
theorem test_met_CisternInstructions_traps : NoTrace (cis 0 [(5, 0x3F00)] 0) ∧ NoTrace (raced (cis 0 [] 0)) ∧
    (narrow 1 0x7F800001).2 &&& 31 ≠ 0 := ⟨noTrace_of rfl, raced_noTrace _, by decide +kernel⟩
theorem test_met_CisternInstructions_rows :
    (let s := cis 4 [(7, 0x7FF)] 15;
      s.cur = .thread 4 ∧ Runs (.vldc 7 27) s ∧ wfield (s.getX 7) 63 11 = 0 ∧ (27 : Reg).toNat < 28 ∧ (s.thread 4).cwait.toNat < 16 ∧ Runs (.vstc 7 27) s ∧
      s.queueMisuse 4 (.vstc 7 27) = none ∧ s.queueWaits 4 (.vstc 7 27) s.cycle = none ∧ Runs (.vwaitc 15) s ∧ (15 : Reg).toNat < 16 ∧
      (s.thread 4).gang = none ∧ (s.thread 4).cwait.toNat ≤ 15 ∧ Runs (.vwaitc 0) s ∧ 0 < (s.thread 4).cwait.toNat ∧
      Runs (.vwaitc 0) (ganged s) ∧ ((ganged s).thread 4).gang ≠ none) := by decide +kernel
/-- A row move of thread 4 on tile 5. -/
def move (op : CisOp) (p : Option Nat) : RowMove := { h := 4, tile := 5, op := op, issued := 0, at_ := 0, performed := p }
def moveEv (op : CisOp) (p : Option Nat) (cycle : Nat) : State :=
  { core0 { moves := [(3, move op p)] } (ev (.cisternRowMove 4 3) [(4, { wait (.vwaitc 0) with cwait := 1 })]) with cycle := cycle }
theorem test_met_CisternSteps :
    (∀ op, op = .load 31 2 ∨ op = .store 31 9 ∨ op = .zero ∨ op = .copy 7 → let s := moveEv op none 4; Rising (s.core (coreOf 4)).cistern ∧ Takes (.cisternRowMove 4 3) s ∧
      (s.core 0).moves = [(3, move op none)] ∧ (move op none).h = 4 ∧ (move op none).tile < 64 ∧ (move op none).performed = none ∧
      s.moveWaits 0 3 (move op none) = false ∧ 31 < 32) ∧
    (let s := moveEv (.load 31 2) (some 4) 5; Takes (.cisternRowMove 4 3) s ∧ (s.core 0).moves = [(3, move (.load 31 2) (some 4))] ∧ 4 < s.cycle ∧
      (s.thread 4).cwait ≠ 0 ∧ BlockedFor 4 (.vwaitc 0) s ∧ Alone 4 s ∧ (s.thread 4).cwait.toNat ≤ 0 + 1) ∧
    (∀ rows, rows = none ∨ rows = some [one0] → let r := tileRefOf 0 cisTile (refOf 11 0x1000); let m : MldcHold := { tile := 5, issued := 0, rows := rows };
      let s := core0 { heldTiles := [m] } (ev (.mldcPerform 0 5 r) [(0, thr [])]);
      Takes (.mldcPerform 0 5 r) s ∧ Rising (s.core (coreOf 0)).cistern ∧ (s.core (coreOf 0)).mldc 5 = some m ∧ s.storesOut 0 m.issued = false ∧ s.takeOut (.thread 0) m.issued = false ∧
      s.banksBehind 0 (rowUnits r r.off r.rowBytes) m.issued = false ∧ s.brokenSector (rowUnits r r.off r.rowBytes) = none ∧
      { s with broken := [.sector 0 0x1000] }.brokenSector (rowUnits r r.off r.rowBytes) = some (wellAddr 0 0x1000) ∧ Alone 0 s ∧ (s.thread 0).born ≤ m.issued ∧
      (s.thread 0).run = .ready ∧
      (s.core 0).lastCycle 5 s.cycle = false ∧ s.mustWait (rowUnits r r.off r.rowBytes) false (s.reachedAt (.mldc 0 5)) (orderKey 0 m.issued) = false ∧ r.core = coreOf 0) ∧
    (let r := tileRefOf 0 cisTile (refOf 11 0x1000); let m : MldcHold := { tile := 5, issued := 1 };
      let s := { core0 { heldTiles := [m], lastWrite := some (5, 0) } (ev (.mldcPerform 0 5 r) [(0, thr [])]) with agenda := [(3, .wellStoreLand 0 0 64 [1] 0)] };
      s.storesOut 0 m.issued = true ∧ (s.core 0).lastCycle 5 s.cycle = true) ∧
    (let s := { moveEv .zero none 4 with cycle := 3 }; s.moveWaits 0 3 { move .zero none with at_ := 4 } = true) := by
  refine ⟨?_, by decide +kernel, ?_, by decide +kernel, by decide +kernel⟩
  · rintro _ (rfl | rfl | rfl | rfl) <;> decide +kernel
  · rintro _ (rfl | rfl) <;> decide +kernel
theorem test_met_MatrixStepValues :
    (0 < (List.replicate 32 (0 : VReg)).length ∧ nbit 2 0 = false) ∧
    (let as := List.replicate 32 (List.replicate 48 (0x80 : Byte)); let p : Prep := { a := some as, b := some as };
      (List.replicate 32 (0 : VReg)).length = 32 ∧ as.length = 32 ∧ p.a = some as ∧ p.b = some as ∧ nbit (2 ^ 31) 31 = true ∧ (as.getD 31 []).length = 48) ∧
    (∀ y, y ∈ [FVal.fin true 3 1].zip [FVal.fin false 5 1] → ∃ g n, y.1.mul y.2 = .fin g n 1 ∧ (-15 : Int) = if g then -(n : Int) else (n : Int)) ∧
    (∃ a m e, FF.f32.val 0x3F800000 = .fin a m e) ∧
    (∀ x, x = (4, 4, [0x3F800000]) ∨ x = (11, 1, []) → let as := List.replicate 32 (List.replicate (bytesOfElems x.1 48) (0x38 : Byte));
      let bs := List.replicate 32 (List.replicate (bytesOfElems x.2.1 48) (0x38 : Byte)); let p : Prep := { a := some as, b := some bs };
      (pairCycles x.1 x.2.1).isSome = true ∧ x.1 ≠ 7 ∧ as.length = 32 ∧ bs.length = 32 ∧ p.a = some as ∧ p.b = some bs ∧ (∀ r, r ∈ as → r.length = bytesOfElems x.1 48) ∧
      (∀ r, r ∈ bs → r.length = bytesOfElems x.2.1 48) ∧ ∀ y, y ∈ x.2.2 ++ x.2.2 → superscaleOk y = true) :=
  ⟨by decide, by decide, by intro y h; cases List.mem_singleton.mp h; exact ⟨true, 15, rfl, rfl⟩, ⟨_, _, _, rfl⟩, by rintro _ (rfl | rfl) <;> decide +kernel⟩
/-- MMA c0 of two references of matrix 12, and MSPW of the list 13. -/
def mat (spw : BitVec 32) : State :=
  let s := cis 0 [(5, 0x3E02), (6, refOf 12 0x4000), (7, refOf 12 0x4000), (8, refOf 13 0), (9, 0xFFFFFFFF), (10, 0xFFFFFFFF00000001)] 0
  s.modThread 0 fun t => { t with spwidx := spw }
theorem test_met_MatrixInstructions :
    (∀ n, n = 0 ∨ n = 1 ∨ n = 4 → let s := mat n; s.cur = .thread 0 ∧ Ungated s ∧ Runs (.mma 1 7 6 5) s ∧ mmaCheck 1 false 7 6 5 s = none ∧
      Runs (.mmaM 0 7 6 10) s ∧ mmaCheck 0 true 7 6 10 s = none ∧ s.refDesc (s.getX 6) = some matTile ∧ s.refDesc (s.getX 7) = some matTile ∧
      (s.thread 0).gang = none ∧ ((ganged s).thread 0).gang ≠ none ∧ Runs (.mma 1 7 6 5) (ganged s) ∧ wfield (s.getX 5) 6 0 = 2 ∧ wfield (s.getX 10) 6 0 = 1 ∧ Runs (.mspw 0 7 8) s ∧ mspwCheck none 7 8 s = none ∧ Runs (.mspwM 0 7 8 9) s ∧
      mspwCheck (some 9) 7 8 s = none ∧ s.refDesc (s.getX 8) = some listTile ∧ listTile.dim0 = 4) ∧
    NoTrace (mat 0) ∧ (let s := mat 0; (mmaCheck 1 false 7 6 0 s).isSome = true ∧ (mspwCheck (some 10) 7 8 s).isSome = true) := by
  refine ⟨?_, noTrace_of rfl, by decide +kernel⟩; rintro _ (rfl | rfl | rfl) <;> decide +kernel
/-- A selector of no step, a reference with reserved bits, to no tensor, to a list, and of a pair without a row. -/
theorem test_met_MatrixChecks : (let s := cis 0 [(5, 0x3E02), (6, refOf 12 0x4000), (7, refOf 12 0x400000), (8, refOf 13 0), (9, refOf 9 0), (10, refOf 11 0x1000)] 0;
    wfield (s.getX 0) 6 0 = 0 ∧ ((wfield (s.getX 5) 6 0 ≠ 0 ∧ wfield (s.getX 5) 6 0 ≤ 64) ∧ wbit (s.getX 5) 7 = false ∧ wfield (s.getX 5) 31 14 = 0 ∧
      wfield (s.getX 5) 63 32 = 0 ∧ (1 : BitVec 6).toNat + wfield (s.getX 5) 13 8 ≤ 63) ∧
    ([s.getX 6, s.getX 7].find? fun w => wfield w 47 20 ≠ 0) = some (s.getX 7) ∧ ([s.getX 6, s.getX 8, s.getX 9, s.getX 10].all fun w => wfield w 47 20 = 0) = true ∧
    ([s.getX 6, s.getX 8].find? fun w => (s.refDesc w).all fun e => 2 ≤ e.kind) = some (s.getX 8) ∧
    ([s.getX 6, s.getX 9].find? fun w => (s.refDesc w).all fun e => 2 ≤ e.kind) = some (s.getX 9) ∧
    s.refDesc (s.getX 6) = some matTile ∧ s.refDesc (s.getX 10) = some cisTile ∧ matTile.kind < 2 ∧ cisTile.kind < 2 ∧ pairCycles cisTile.fmt matTile.fmt = none ∧
    mmaCheck 1 false 6 6 5 s = none) := by decide +kernel
/-- An active MMA of thread 0 on two tiles of matrix 12. -/
def mref : TileRef := tileRefOf 0 matTile (refOf 12 0x4000)
def job (ps : Table Prep) : MatJob :=
  { h := 0, since := 0, tile := 1, steps := 2, mask := 2 ^ 32 - 1, a := some mref, b := mref, list := none, first := 0, next := 0, preps := ps }
def rows0 : List (List Byte) := List.replicate 32 (List.replicate 48 1)
/-- No other thread's matrix instruction ends. -/
theorem no_ends {s : State} (h : ∃ t, s.threads = [(0, t)]) : ∀ g, coreOf g = 0 → g ≠ 0 → s.matrixEnds g = false := by
  obtain ⟨t, h⟩ := h
  intro g _ hg
  have e : (s.thread g).run ≠ .blocked .matrix := by
    unfold State.thread; rw [h]; simp only [tget, if_neg hg]; split <;> decide
  simp [State.matrixEnds, e]
def ready0 : Prep := { asked := true, a := some rows0, b := some rows0, aAt := some 0, bAt := some 0, passed := true }
def jobEv (e : Event) (j : MatJob) (r : Option MatRun) : State :=
  { matCtx (core0 { holder := some 0, tlb := [placeEntry 0], jobs := [(0, j)], running := r } (ev e [(0, { wait .matrix with sup := true })])) with
    pf := placed.pf, parts := placed.parts }
def run0 (idx : Nat) : MatRun := { slot := 0, idx := idx, last := 5, tile := 1 }
theorem test_met_MatrixSteps :
    (let j := job [(0, ready0)]; let s := jobEv (.matrixStepStart 0) j none;
      tfind (s.core 0).jobs 0 = some j ∧ 0 < 4 ∧ coreOf j.h = 0 ∧ slotOf j.h = 0 ∧ Alone j.h s ∧ Takes (.matrixStepStart 0) s ∧ j.ready s.cycle = true ∧ (s.thread j.h).parkReq = false ∧
      (∀ x, x ∈ (s.core 0).jobs → x.2.trap = none ∧ (x.2.prep x.2.next).fault = none) ∧ 0 = ((s.core 0).lastServed + 1 + 0) % 4 ∧
      (s.core 0).running = none ∧ (s.core 0).tileHeld j.stepTileNo s.cycle = false ∧ (s.core 0).halted = false ∧ (s.core 0).lastWrite = none ∧
      pairCycles j.fmtA j.b.fmt = some 6 ∧ (s.raceCheck 0 (s.thread j.h).ctx false (stepSegs j)).1 = none) ∧
    (∀ n, n = 0 ∨ n = 1 → ∀ stop, let j := { job [(0, ready0), (1, ready0)] with next := n + 1, stop := stop };
      let s := { jobEv (.matrixStepEnd 0) j (some (run0 n)) with cycle := 5 };
      Takes (.matrixStepEnd 0) s ∧ (s.core 0).running = some (run0 n) ∧ (run0 n).last ≤ s.cycle ∧ (run0 n).slot = 0 ∧ (run0 n).tile < 64 ∧
      Rising (s.core 0).cistern ∧ Rising (s.core 0).jobs ∧ BlockedFor j.h .matrix s ∧ j.trap = none ∧
      (s.thread j.h).fenable = 0 ∧ (n = 0 → n + 1 < j.steps) ∧ (n = 1 → j.steps ≤ n + 1)) ∧
    ∀ j r g, coreOf g = 0 → g ≠ 0 → State.matrixEnds { jobEv (.matrixStepEnd 0) j r with cycle := 5 } g = false := by
  refine ⟨by decide +kernel, ?_, fun j r => no_ends ⟨_, rfl⟩⟩; rintro _ (rfl | rfl) <;> decide +kernel
/-- Traps of a matrix instruction: after a step with an event, a held fault, a race. -/
theorem test_met_MatrixSteps_traps :
    (∀ j, j = { job [] with trap := some 17 } ∨ j = job [(0, { fault := some (0x0F, 3) })] → let s := { jobEv (.matrixStepStart 0) j none with cycle := 1 };
      Takes (.matrixStepStart 0) s ∧ (s.core 0).jobs = [(0, j)] ∧ (s.core 0).running = none ∧ j.stop = false ∧ (j.prep j.next).faultAt < s.cycle) ∧
    NoTrace (jobEv (.matrixStepStart 0) (job []) none) ∧
    (let j := { job [(0, ready0)] with b := tileRefOf 0 matTile (refOf 12 64) }; let s := raced (jobEv (.matrixStepStart 0) j none);
      (s.raceCheck 0 (s.thread j.h).ctx false (stepSegs j)).1 = some 64) ∧ NoTrace (raced (jobEv (.matrixStepStart 0) (job []) none)) := by
  refine ⟨?_, noTrace_of rfl, by decide +kernel, raced_noTrace _⟩; rintro _ (rfl | rfl) <;> decide +kernel
/-- Members of a multicast group of cluster 0. -/
def member (h dog : Nat) : McMember := { h := h, idx := 0, isA := true, dog := dog, pc := 0x1000, instret := 0 }
def group (ms : List McMember) : Mcast := { ctx := 0, g := 1, owner := 0, off := 0x4000, stride := 96, rowLen := 48, members := ms }
def grouped (x : Mcast) (ts : Table Thread) (s : State) : State := { s with clusters := [(0, { mcast := [(2, x)] })], threads := s.threads ++ ts }
theorem test_met_MatrixPreparation :
    (let j := job [(0, { asked := true, aAt := some 0 })]; let s := jobEv (.operandArrival 0 0 0) j none;
      s.job 0 = some j ∧ Takes (.operandArrival 0 j.since 0) s ∧ j.a = some mref ∧ (j.prep 0).a = none ∧ (j.prep 0).aAt = some 0 ∧ 0 ≤ s.cycle ∧
      (j.prep 0).checkAt = none ∧ (j.prep 0).codesAt = none ∧ (j.prep 0).fault = none ∧ (j.prep 0).asked = true ∧ (j.prep 0).bAt = none ∧
      let us := rowUnits mref (MatJob.offA mref 0) (bytesOfElems mref.fmt 48)
      s.storesOut 0 j.since = false ∧ s.banksBehind 0 us j.since = false ∧ s.brokenSector us = none ∧
      { s with broken := us.take 1 }.brokenSector us = some (wellAddr 0 0x4000) ∧
      s.mustWait us false (s.reachedAt (.operand 0 0 4)) (orderKey 0 j.since) = false) ∧
    (let j := job [(0, { asked := true, regA := some 0 })]; let s := jobEv (.multicastRegister 0 0 0) j none;
      s.job 0 = some j ∧ Takes (.multicastRegister 0 j.since 0) s ∧ (j.prep 0).a = none ∧ (j.prep 0).regA = some s.cycle ∧ (j.prep 0).regB = none ∧
      (s.cluster 0).mcast = [] ∧ BlockedFor 0 .matrix s ∧ (s.thread 0).dbgStop = false) ∧
    (let j := job [(0, { asked := true, passed := true })]; let x := group [member 0 0]; let s := grouped x [] (jobEv (.multicastLaunch 0 2) j none);
      s.job 0 = some j ∧ Takes (.multicastLaunch (clusterOf 0) 2) s ∧ (s.cluster 0).mcast = [(2, x)] ∧ (member 0 0).isA = true ∧ s.fetcherReady x = true ∧
      let us := (List.range 32).flatMap fun i => sectorsOf x.owner (x.off + i * x.stride) x.rowLen
      s.storesOut 0 j.since = false ∧ s.banksBehind 0 us j.since = false ∧ s.brokenSector us = none ∧
      { s with broken := us.take 1 }.brokenSector us = some (wellAddr 0 0x4000) ∧ s.mustWait us false (s.reachedAt (.mcast 0 2)) (orderKey 0 j.since) = false) ∧
    (∀ n, n = 0 ∨ n = 65535 → ∀ r, r = Run.blocked .matrix ∨ r = .parked → let x := group [member 8 0, member 0 n];
      let s := grouped x [(8, { wait .matrix with run := r })] (jobEv (.groupWatchdogExpiry 0 0) (job []) none);
      s.job 0 = some (job []) ∧ Takes (.groupWatchdogExpiry 0 (job []).since) s ∧ (s.cluster (clusterOf 0)).mcast = [(2, x)] ∧ (member 8 0).h ≠ 0 ∧
      s.memberOk x.ctx (member 8 0) = true ∧ (s.thread 8).run = r ∧ ((job []).prep 0).fault = none) := by
  refine ⟨by decide +kernel, by decide +kernel, by decide +kernel, ?_⟩; rintro _ (rfl | rfl) _ (rfl | rfl) <;> decide +kernel
/-- A request joins the one that waits. -/
theorem test_met_MatrixPreparation_join : (let j := { job [(0, { asked := true, regA := some 0 })] with a := some { mref with group := 1 } };
    let s := jobEv (.multicastRegister 0 0 0) j none;
    let key := s.mcastKey j { h := 0, idx := 0, isA := true, pc := 0x1000, instret := 0 };
    let x := { key with members := [member 8 0] }; let s := grouped x [(8, wait .matrix)] s;
    s.job 0 = some j ∧ x.members = [member 8 0] ∧ (member 8 0).h ≠ 0 ∧ sameFetch x key = true ∧ s.memberOk x.ctx (member 8 0) = true ∧
      (s.cluster (clusterOf 0)).mcast = [(2, x)]) := by decide +kernel
/-- An active MSPW of thread 0; its list starts with a good entry (A block at 0x10400, B block 0), or a bad one. -/
def spJob (p : Prep) : MatJob := { job [(0, p)] with a := none, list := some listTile, tile := 0, steps := 4 }
def spEv (p : Prep) (w0 : Word) : State :=
  { jobEv (.mspwEntryArrival 0 0 0) (spJob p) none with mem := memWrite [] 0x10000 (bytesOfWord 8 w0 ++ bytesOfWord 8 0x10400) }
/-- The lines of these ranges have been let in. -/
def letIn : Table Nat := [(0, 999), (1, 999), (2, 999), (3, 999)]
/-- A fetch of a step whose data is there. -/
abbrev Fetched (s : State) (j : MatJob) (idx kind : Nat) (l : List (Word × Nat)) : Prop :=
  let at_ := s.linesAt 0 l
  let ls := dedup (at_.map Prod.fst)
  ls ≠ [] ∧ ls.length ≤ tget 0 (j.prep idx).entered kind ∧ ls.any s.missesLine = false ∧ s.fetchBehind 0 j.since ls = false ∧
    ((pagesIn l).all fun x => !s.walkStalls (s.viewOf 0) (word x.1) .read) = true ∧
    s.mustWait (ls.map .line) false (s.reachedAt (.operand 0 idx kind)) (orderKey 0 j.since) = false ∧
    at_.find? (fun x => s.unitDead (.line x.1) || s.unitBroken (.line x.1)) = none ∧ s.tags = [] ∧ (at_.all fun x => x.1 % 256 == 0) = true
/-- The lines of the page of `spEv` that its slices hold. -/
def heldPage : Table HeldLine := (List.range 16).map fun k => (0x100 + k, {})
theorem test_met_MatrixPreparation_entries :
    (let s := spEv {} 0; s.job 0 = some (spJob {}) ∧ Takes (.mspwEntryArrival 0 (spJob {}).since 0) s ∧ (spJob {}).list = some listTile ∧
      ((spJob {}).prep 0).entry = none ∧ ((spJob {}).prep 0).fault = none ∧ ((spJob {}).prep 0).checkAt = none ∧ s.isCurrent (spJob {}) 0 = true ∧
      s.takeOut (.thread 0) (spJob {}).since = false ∧ UnlimitedOf 0 s ∧
      (s.probe 0 [(0x10000, 16)]).isOk = true ∧ (s.probe 0 [(0x80000000000, 16)]).isOk = false) ∧
    (∀ w, w = 0 ∨ w = 63 ∨ w = 64 → let p : Prep := { checkAt := some 0, entered := letIn }; let s := { spEv p w with lines := heldPage };
      let bs := s.peekVirt 0 0x10000 16;
      ((spJob p).prep 0).checkAt = some 0 ∧ 0 ≤ s.cycle ∧ (entryBad (spJob p) (wordAt bs 0).toNat (wordAt bs 1) = true ↔ w = 64) ∧
      Fetched s (spJob p) 0 0 [(0x10000, 16)]) ∧
    (∀ held, let p : Prep := { asked := true, entry := some { blk := 0x10400, toff := 0, bidx := 0 }, aAt := some 0, entered := letIn };
      let s := { spEv p 0 with ev := some (.operandArrival 0 0 0), lines := if held then heldPage else [] };
      let l : List (Word × Nat) := [(0x10400, blockBytes (spJob p))];
      Takes (.operandArrival 0 (spJob p).since 0) s ∧ s.job 0 = some (spJob p) ∧ (spJob p).a = none ∧ ((spJob p).prep 0).a = none ∧
      ((spJob p).prep 0).asked = true ∧ ((spJob p).prep 0).aAt = some 0 ∧ ((spJob p).prep 0).bAt = none ∧ ((spJob p).prep 0).checkAt = none ∧
      ((spJob p).prep 0).codesAt = none ∧ ((spJob p).prep 0).fault = none ∧
      ((spJob p).prep 0).late = [] ∧ (held = false → (dedup ((s.linesAt 0 l).map Prod.fst)).any s.missesLine = true) ∧
      (held = true → Fetched s (spJob p) 0 1 l ∧ { s with broken := [.line 0x10400] }.unitBroken (.line 0x10400) = true)) := by
  refine ⟨by decide +kernel, ?_, by rintro (_ | _) <;> decide +kernel⟩; rintro _ (rfl | rfl | rfl) <;> decide +kernel
/-- An MMA of scaled operands, whose scales stand at 0x10000 and whose superscales at 0x10040. -/
def scaledRef : TileRef := { mref with fmt := 4, scaled := true, scaleBase := 0x10000 }
def scJob (p : Prep) (t : TileRef → TileRef) : MatJob := { job [(0, p)] with a := some (t scaledRef), b := t scaledRef }
def scEv (p : Prep) (t : TileRef → TileRef) (sup : Word) : State :=
  { jobEv (.operandArrival 0 0 0) (scJob p t) none with lines := heldPage, mem := memWrite [] 0x10040 ((List.range 16).flatMap fun _ => bytesOfWord 8 sup) }
theorem test_met_MatrixPreparation_asks : ∀ t, t = id ∨ t = (fun r => { r with group := 1 }) ∨ t = (fun r => { r with scaled := false }) →
    let j := scJob {} t; let s := scEv {} t 0;
    s.job 0 = some j ∧ Takes (.operandArrival 0 j.since 0) s ∧ (j.prep 0).asked = false ∧ (j.prep 0).fault = none ∧ 0 < j.steps ∧ j.list = none ∧
    (j.prep 0).codesAt = none ∧ (j.prep 0).checkAt = none ∧ (j.prep 0).aAt = none ∧ (j.prep 0).bAt = none ∧ (j.prep 0).a = none ∧ (j.prep 0).b = none ∧
    s.isCurrent j 0 = true ∧ s.takeOut (.thread 0) j.since = false ∧ UnlimitedOf 0 s ∧
    (match s.probe 0 (supRanges j ++ codeRanges j 0), s.probe 0 (codeRanges j 0), s.probe 0 (supRanges j) with
      | .ok _, .ok m, .ok k => (codeRanges j 0 = [] || decide (0 < m)) && (supRanges j = [] || decide (0 < k))
      | _, _, _ => false) = true := by
  rintro _ (rfl | rfl | rfl) <;> decide +kernel
theorem test_met_MatrixPreparation_scales :
    (let p : Prep := { asked := true, codesAt := some 0, entered := letIn }; let j := scJob p id; let s := scEv p id 0;
      s.job 0 = some j ∧ Takes (.operandArrival 0 j.since 0) s ∧ (j.prep 0).asked = true ∧ (j.prep 0).aAt = none ∧ (j.prep 0).bAt = none ∧
      (j.prep 0).fault = none ∧ 0 ≤ s.cycle ∧ (j.prep 0).codesAt = some 0 ∧ (j.prep 0).checkAt = none ∧ Fetched s j 0 2 (codeRanges j 0)) ∧
    (∀ x, x = ((0x3F8000003F800000 : Word), none) ∨ x = (0x7F8000003F800000, some 0x10044) →
      let p : Prep := { asked := true, checkAt := some 0, entered := letIn }; let j := scJob p id; let s := scEv p id x.1;
      s.job 0 = some j ∧ Takes (.operandArrival 0 j.since 0) s ∧ (j.prep 0).asked = true ∧ (j.prep 0).aAt = none ∧ (j.prep 0).bAt = none ∧
      (j.prep 0).fault = none ∧ 0 ≤ s.cycle ∧ (j.prep 0).checkAt = some 0 ∧ (j.prep 0).codesAt = none ∧ Fetched s j 0 3 (supRanges j) ∧
      let read := (List.range 32).map fun i => ofBytes (s.peekVirt 0 (supAddr scaledRef i) 4)
      (read.findIdx? fun x => !superscaleOk x).map (supAddr scaledRef) = x.2) := by
  refine ⟨by decide +kernel, ?_⟩; rintro _ (rfl | rfl) <;> decide +kernel

/-! #### Copies, near-bank commands, pumps, tasks -/

/-- A copier: 128 bytes from the page of `pl` into the own well at 0x40, in memory, or with a bad length. -/
def copier (xs : List (Nat × Word)) : State := core0 { holder := some 0, tlb := [placeEntry 0] } (pl xs)
def req (k : CopyKind) (e f : Bool) (dst src len : Word) : CopyReq := { kind := k, dstWell := f, srcWell := e, dst := dst, src := src, len := len, complete := 0 }
theorem test_met_CopyInstructions :
    (let s := copier [(5, 0x40), (6, 0x10000), (7, 128)];
      s.cur = .thread 0 ∧ Runs (.cpy 0 1 7 6 5) s ∧ Runs (.cpyt 1 1 7 6 5) s ∧ Runs (.fill 1 7 6 5) s ∧ Ungated s ∧ s.copiesOf 0 < 32 ∧ copyCheck s 0 (req .cpy false true 0x40 0x10000 128) = none ∧
      copyCheck s 0 (req .cpyt true true 0x40 0x1000 128) = none ∧ copyCheck s 0 (req .fill false true 0x40 7 128) = none ∧
      (copyCheck s 0 (req .cpy false true 0x40 0x10000 0)).isSome = true ∧ (s.thread 0).complete = 0 ∧
      (acceptCopy s s.view 0 none (s.thread 0).node (req .cpy false true 0x40 0x10000 128)).isOk = true ∧
      (acceptCopy s s.view 0 none (s.thread 0).node (req .cpyt true true 0x40 0x1000 128)).isOk = true ∧
      (acceptCopy s s.view 0 none (s.thread 0).node (req .fill false true 0x40 7 128)).isOk = true ∧
      (acceptCopy s s.view 0 none (s.thread 0).node (req .cpy false true 0x40 0x10000 0xFFFFFFFFFFFFFFFF)).isOk = false) ∧
    NoTrace (copier [(7, 0xFFFFFFFFFFFFFFFF)]) ∧ Unlimited (copier [(5, 0x40), (6, 0x10000), (7, 128)]) :=
  ⟨by decide +kernel, noTrace_of rfl, unlimited_of (h := 0) rfl (by decide +kernel)⟩
/-- A copy of thread 0 in the engine. -/
def aCopy (k : CopyKind) (f : Bool) (complete : Word) (off : Nat) (pipe : List (Nat × Nat × List Byte × Nat × Nat)) : Copy :=
  { kind := k, h := 0, ctx := 0, sup := true, core := 0, dstWell := f, srcWell := true, dst := if f then 0x60 else 0x10020, src := 0x1000, len := 128,
    complete := complete, off := off, t0 := 0, ls := 4, ld := 4, pipe := pipe, entered := [0, 1, 2] }
def copyEv (e : Event) (c : Copy) : State := { copier [] with ev := some e, copies := [(3, c)] }
theorem test_met_CopyEngine :
    (∀ x, x ∈ [(CopyKind.cpy, 0), (.cpy, 96), (.fill, 0)] → let c := aCopy x.1 true 0 x.2 []; let s := copyEv (.copyPiece 3) c;
      tfind s.copies 3 = some c ∧ Rising s.copies ∧ c.stop = false ∧ c.ended = none ∧ Takes (.copyPiece 3) s ∧ c.pipe = [] ∧ c.off < c.len ∧ c.t0 ≤ s.cycle ∧
      s.copyFrozen c = false ∧ c.dstWell = true ∧ (c.srcWell = true ∨ c.kind = .fill) ∧ c.kind ≠ .cpyt ∧ c.held = false ∧
      s.takeOut (.thread c.h) c.sent = false ∧ s.mustWait (sectorsOf (wellCore c.h c.src) (wellOff c.src + c.off) (min (64 - (c.dst.toNat + c.off) % 64) (c.len - c.off))) false
        (s.reachedAt (.copy 3 false)) (orderKey c.h c.sent) = false) ∧
    (let c := { aCopy .cpy true 0 0 [] with srcWell := false, src := 0x10000 }; let s := { copyEv (.copyPiece 3) c with lines := [(0x100, {})] };
      c.srcWell = false ∧ c.src.toNat % 4096 + 32 ≤ 4096 ∧ s.translate (copyView c) c.src .read = .ok p10 0 ∧ s.missesLine p10.key = false ∧ s.onDeadLink p10.key = false ∧
      c.entered.contains 1 = true ∧
      s.mustWait (linesOf p10.key 32) false (s.reachedAt (.copy 3 false)) (orderKey c.h c.sent) = false) ∧
    (let s := { copyEv (.copyPiece 3) (aCopy .cpy true 0 0 []) with locks := [{ unit := .sector 0 0x1000, excl := true, acc := 9 },
        { unit := .sector 0 0xC0, excl := true, acc := 9 }, { unit := .line 0x10000, excl := true, acc := 9 }] };
      (∀ w, s.mustWait (sectorsOf 0 0x1000 32) w (s.reachedAt (.copy 3 w)) (orderKey 0 0) = true) ∧ s.mustWait (linesOf 0x10008 8) true (s.reachedAt (.copy 3 true)) (orderKey 0 0) = true) ∧
    (let c := aCopy .cpy true 0 128 [(0, 96, List.replicate 32 1, 0, 0)]; let s := copyEv (.copyPiece 3) c;
      c.pipe = [(0, 96, List.replicate 32 1, 0, 0)] ∧ c.held = false ∧ 0 ≤ s.cycle ∧ c.len ≤ c.off ∧ counterAddr c.complete = 0 ∧
      s.mustWait (sectorsOf (wellCore c.h c.dst) (wellOff c.dst + 96) 32) true (s.reachedAt (.copy 3 true)) (orderKey c.h c.sent) = false ∧
      Memory.wf (s.core (wellCore c.h c.dst)).well = true) ∧
    (let c := { aCopy .cpy false 0 128 [(0, 96, List.replicate 32 1, 0x10080, 0)] with dram := [1] }; let s := copyEv (.copyPiece 3) c;
      c.dstWell = false ∧ c.entered.contains 0 = true ∧ c.dram.contains 1 = true ∧ s.onDeadLink 0x10080 = false ∧
      s.mustWait (linesOf 0x10080 32) true (s.reachedAt (.copy 3 true)) (orderKey c.h c.sent) = false ∧ KeyFits s 0x10080 0 32 ∧ PlainBytes s 0x10080 32 ∧
      Memory.wf s.mem = true) ∧
    (let c := { aCopy .cpy false 0 128 [(0, 96, List.replicate 32 1, 2 ^ 51, 0)] with dram := [1] }; let s := { copyEv (.copyPiece 3) c with linkDown := [16] };
      s.onDeadLink (2 ^ 51) = true) ∧
    (let c := aCopy .cpyt true 0 0 []; Takes (.copytRead 3) (copyEv (.copytRead 3) c) ∧ Takes (.copytWrite 3) (copyEv (.copytWrite 3) c) ∧ UnlimitedOf c.h (copyEv (.copytRead 3) c) ∧ counterAddr c.complete = 0) ∧
    (let c := aCopy .cpy true 1 128 []; let s := copyEv (.copyComplete 3) c; Takes (.copyComplete 3) s ∧ counterAddr c.complete = 0 ∧ c.node = none ∧ wbit c.complete 0 = true) ∧
    (let c := { aCopy .cpy true 0x10008 128 [] with dram := [2] }; let s := copyEv (.copyComplete 3) c; let p : Phys := { p10 with key := 0x10008 };
      counterAddr c.complete ≠ 0 ∧ s.translate (copyView c) (counterAddr c.complete) .write = .ok p 0 ∧ c.dram.contains 2 = true ∧
      s.mustWait (linesOf p.key 8) true (s.reachedAt (.copy 3 true)) (orderKey c.h c.sent) = false ∧ KeyFits s p.key p.ks 8 ∧ PlainBytes s p.key 8 ∧ Memory.wf s.mem = true) := by
  refine ⟨by decide +kernel, by decide +kernel, by decide +kernel, by decide +kernel, ⟨by decide +kernel, by decide +kernel, by decide +kernel, by decide +kernel, by decide +kernel,
    keyFits_of rfl (by decide), by decide +kernel, by decide +kernel⟩, by decide +kernel, by decide +kernel, by decide +kernel,
    ⟨by decide +kernel, by decide +kernel, by decide +kernel, by decide +kernel, keyFits_of rfl (by decide), by decide +kernel, by decide +kernel⟩⟩
/-- A page of 2 MiB of contiguous pool beside the page of `pl`. -/
def pool (xs : List (Nat × Word)) : State :=
  core0 { holder := some 0, tlb := [{ placeEntry 0 with va := 0x400000, size := 21, frame := 0x400000, cc := true }, placeEntry 0] } (pl xs)
def poolPhys (a : Nat) : Phys := { key := a, ks := 0, nc := false, sa := false, cc := true }
theorem test_met_NearBankInstructions :
    (let s := pool [(5, 0x400000), (6, 0x400400), (7, 0x400800), (8, 0x400C00), (9, 1024)];
      s.cur = .thread 0 ∧ bankOf (.bkMaj 6 5 9) = some (.maj, 3, 6, 5, 9) ∧ bankOf (.bkFil 6 5 9) = some (.fil, 0, 6, 5, 9) ∧ Runs (.bkMaj 6 5 9) s ∧
      Runs (.bkFil 6 5 9) s ∧ (6 : Reg) ≠ 0 ∧ (6 : Reg).toNat + 3 ≤ 32 ∧ (29 : Reg).toNat + 3 ≤ 32 ∧ Ungated s ∧ s.banksOf 0 < 8 ∧
      [poolPhys 0x400400, poolPhys 0x400800, poolPhys 0x400C00].length = 3 ∧
      (∀ k, k < 3 → s.translate s.view (s.getX (regPlus 6 k)) .read = .ok (poolPhys (0x400400 + 0x400 * k)) 0) ∧
      s.translate s.view (s.getX 5) .write = .ok (poolPhys 0x400000) 0 ∧
      bankStatus [poolPhys 0x400000, poolPhys 0x400400, poolPhys 0x400800, poolPhys 0x400C00] (s.getX 5) [s.getX 6, s.getX 7, s.getX 8] (s.getX 9) = 0 ∧
      bankStatus [poolPhys 0x400000] (s.getX 5) [] 0 ≠ 0) ∧
    (let s := { pool [(5, 0x600000), (6, 0x400400), (7, 0x400800), (8, 0x400C00), (9, 1024)] with
          clusters := [(0, { tlb := [{ placeEntry 0 with va := 0x600000, size := 21, frame := 0x600000, cc := true }] })] };
      s.translate s.view (s.getX 5) .write = .ok (poolPhys 0x600000) 4 ∧ ∀ k, k < 3 → s.translate s.view (s.getX (regPlus 6 k)) .read = .ok (poolPhys (0x400400 + 0x400 * k)) 0) ∧
    Unlimited (pool []) := ⟨by decide +kernel, by decide +kernel, unlimited_of (h := 0) rfl (by decide +kernel)⟩
/-- A page without permissions. -/
def locked (xs : List (Nat × Word)) : State := core0 { holder := some 0, tlb := [{ placeEntry 0 with r := false, w := false }] } (pl xs)
/-- A register range that does not exist, and pages that fail. -/
theorem test_met_NearBankInstructions_traps : ¬ (2 ≤ 3 → (30 : Reg) ≠ 0 ∧ (30 : Reg).toNat + 3 ≤ 32) ∧
    (let s := locked [(5, 0x10000), (6, 0x10400), (9, 1024)];
      NoTrace s ∧ Ungated s ∧ Runs (.bkMaj 6 5 9) s ∧ Runs (.bkFil 6 5 9) s ∧ ∀ w, w = Access.read ∨ w = .write → s.translate s.view (s.getX 6) w = .fault 6) := by
  refine ⟨by decide, noTrace_of rfl, by decide +kernel, by decide +kernel, by decide +kernel, ?_⟩
  rintro _ (rfl | rfl) <;> decide +kernel
/-- A BK.NOT on the fast path of thread 0. -/
def aBank (started : Bool) (step : Nat) : Bk :=
  { op := .not, h := 0, ctx := 0, chan := 0, dVa := 0x400000, d := 0x400000, dKey := 0, srcs := [(0x400400, 0)], len := 1024, pattern := 0, fast := true,
    steps := 2, cost := 96, marks := if started then [] else bankMarks 0x400000 [0x400400] 1024, snap := if started then [List.replicate 1024 1] else [],
    started := started, entered := true, step := step, t0 := 0 }
theorem keysFit_of {s : State} {key ks n : Nat} (h : s.tags = []) (hk : key % 256 = 0) : KeysFit s key ks n := ⟨hk, fun k _ => keyFits_of h (by omega)⟩
theorem test_met_NearBankSteps :
    (let s := { ev (.bkProbeStart 3) [(0, thr [])] with bks := [(3, aBank false 0)] }; s.bks = [(3, aBank false 0)] ∧ Takes (.bkProbeStart 3) s ∧ s.locks = [] ∧
      ((aBank false 0).marks.map Prod.fst).Nodup ∧ s.takeOut (.thread 0) 0 = false ∧
      (∀ m, m ∈ (aBank false 0).marks → s.earlierWaits (.line m.1) m.2 s.cycle (orderKey 0 0) (some 3) = false)) ∧
    (let b := { aBank false 0 with entered := false }; let s := { ev (.bkProbeStart 3) [(0, thr [])] with bks := [(3, b)] };
      Takes (.bkProbeStart 3) s ∧ b.entered = false ∧ s.limitAt (160 + b.chan) ((s.partOfChan b.chan).getD 0) = 0) ∧
    (let b := { aBank false 0 with sent := 1 }; let s := { ev (.bkProbeStart 3) [(0, thr [])] with bks := [(3, b)], agenda := [(9, .tqRequestPerform { part := 0, h := 0, op := .try_ [] 0, sent := 0 })] };
      b.entered = true ∧ s.takeOut (.thread 0) b.sent = true) ∧
    (let s := { ev (.bkProbeStart 3) [(0, thr [])] with bks := [(3, aBank false 0)], locks := [{ unit := .line 0x400000, excl := true, acc := 9 }] };
      (aBank false 0).marks.head? = some (0x400000, true) ∧ s.pruneLocks.lockStops (.line 0x400000) true (some 3) = true) ∧
    (∀ n, n = 0 ∨ n = 1 → let b := aBank true n; let s := { ev (.bkStep 3) [(0, thr [])] with bks := [(3, b)] };
      Takes (.bkStep 3) s ∧ KeysFit s (b.d + (b.part b.step).1) b.dKey (b.part b.step).2 ∧ Memory.wf s.mem = true ∧ (n = 0 → b.step + 1 < b.steps) ∧ (n = 1 → b.steps ≤ b.step + 1)) ∧
    (let s := { ev (.bkComplete 3) [(0, thr [])] with bks := [(3, aBank true 2)] }; s.bks = [(3, aBank true 2)] ∧ Takes (.bkComplete 3) s) := by
  refine ⟨by decide +kernel, by decide +kernel, by decide +kernel, by decide +kernel, ?_, by decide +kernel⟩; rintro _ (rfl | rfl) <;>
    exact ⟨by decide +kernel, keysFit_of rfl (by decide +kernel), by decide +kernel, by decide +kernel, by decide +kernel⟩
theorem test_met_OverlayInstructions : (let s := { copier [(5, 0x10000), (6, 0x10000), (7, 0xFFE00010000)] with pf := placed.pf };
    s.cur = .thread 0 ∧ Ungated s ∧ (s.core (coreOf 0)).l1 = [] ∧ Runs (.ovld 6 5 9) s ∧ targetCheck false (s.getX 6) s = none ∧ (s.getX 5).toNat % 4096 = 0 ∧
    s.translate s.view (s.getX 5) .read = .ok p10 0 ∧ Runs (.ovldGo 7 5 9) s ∧ targetCheck true (s.getX 7) s = none ∧
      targetCheck false (s.getX 7) s = some (2, s.getX 7)) ∧
    (let s := locked [(5, 0x10000), (6, 0x10000), (7, 1)];
      NoTrace s ∧ (s.getX 7).toNat % 4096 ≠ 0 ∧ s.translate s.view (s.getX 5) .read = .fault 6) := by
  refine ⟨by decide +kernel, noTrace_of rfl, by decide +kernel, by decide +kernel⟩
/-- Pump 0. -/
def pumpEv (e : Event) (p : Pump) : State := { ev e with pumps := [(0, p)] }
def oreq (go : Bool) : OvldReq := { h := 0, rd := 9, chan := 0, handle := 1, go := go, entry := 4094, arg := 7, addr := 0x10000, key := 0, sent := 0 }
def launch1 : Launch := { handle := 1, entry := 4094, arg := 7, ctx := 0, core := 0, page := none, node := none }
def slot1 (st : OvlState) : Overlay := { state := st, handle := 1, image := List.replicate 4096 0 }
theorem test_met_PumpSteps :
    (let s := pumpEv (.ovldAccept (oreq false)) {}; Takes (.ovldAccept (oreq false)) s ∧ (oreq false).chan = 0 ∧ s.cycle ≤ (oreq false).sent + (oreq false).late + 110 ∧
      s.mustWait (linesOf 0x10000 4096) false (s.reachedAt (.image 0)) (orderKey 0 0) = false ∧ s.onDeadLink 0x10000 = false ∧
      (∀ u, u ∈ linesOf 0x10000 4096 → s.unitBroken u = false) ∧ s.ctx (s.thread (oreq false).h).ctx = none ∧ ((s.pump 0).ovl (s.pump 0).loadingSlot).state = .empty) ∧
    (let s := pumpEv (.ovldAccept (oreq false)) { ovl0 := slot1 .loaded, ovl1 := slot1 .loaded, queue := [launch1] };
      ((s.pump 0).ovl (s.pump 0).loadingSlot).state ≠ .empty ∧ (s.pump 0).queue.any (·.handle = ((s.pump 0).ovl (s.pump 0).loadingSlot).handle) = true) ∧
    (∀ n, n = 7 ∨ n = 8 → let s := pumpEv (.ovldAccept (oreq true)) { queue := List.replicate n launch1 }; Takes (.ovldAccept (oreq true)) s ∧ (oreq true).go = true ∧ (oreq true).late = 0 ∧
      ((s.pump 0).queue.length < 8 ↔ n = 7)) ∧
    (let s := ev (.ovldStatus (oreq true) 3) [(0, wait .ovld)]; Takes (.ovldStatus (oreq true) 3) s ∧ BlockedFor (oreq true).h .ovld s) ∧
    (let s := pumpEv (.overlayLoaded 0 1 1) { ovl1 := slot1 .loading }; Takes (.overlayLoaded 0 1 1) s ∧ 1 < 2 ∧ ((s.pump 0).ovl 1).state = .loading ∧ ((s.pump 0).ovl 1).handle = 1) ∧
    (let s := pumpEv (.kernelLaunchStart 0) { ovl1 := slot1 .loaded, queue := [launch1] }; Takes (.kernelLaunchStart 0) s ∧ (s.pump 0).ended = [] ∧ (s.pump 0).kernel = none ∧
      (s.pump 0).queue = [launch1] ∧ launch1.rel = none ∧ (s.pump 0).slotOf launch1.handle .loaded = some 1) ∧
    (let s := pumpEv (.kernelLaunchStart 0) { queue := [launch1] }; (s.pump 0).slotOf launch1.handle .loaded = none ∧ (s.pump 0).slotOf launch1.handle .loading = none) ∧
    (let s := pumpEv (.kernelLaunchStart 0) { ovl0 := slot1 .loading, queue := [launch1] }; (s.pump 0).slotOf launch1.handle .loaded = none ∧
      ((s.pump 0).slotOf launch1.handle .loading).isSome = true) ∧
    (let l := { launch1 with rel := some (0, 1) }; let s := storing (pumpEv (.kernelLaunchStart 0) { ovl1 := slot1 .loaded, queue := [l] });
      (s.pump 0).queue = [l] ∧ l.rel = some (0, 1) ∧ s.releaseDone (.thread 0) 1 4 = false) ∧
    (let e : LaunchEnd := { launch := launch1, status := 0, val := 9 }; let s := pumpEv (.kernelLaunchStart 0) { ended := [e] };
      (s.pump 0).ended = [e] ∧ e.launch.page = none ∧ e.launch.node = none ∧ e.status = 0 ∧ (s.pump 0).queue = [] ∧ s.anyOut (.pump 0) e.from_ e.before = false) ∧
    (let e : LaunchEnd := { launch := { launch1 with page := some 0x2000 }, status := 0, val := 9, before := 1 };
      let s := { pumpEv (.kernelLaunchStart 0) { ended := [e] } with agenda := [(9, .farAccessPerform { far (.store [1]) with h := 4095, pump := some 0 })] };
      PlainBytes s (0x2000 + 16) 16 ∧ Memory.wf s.mem = true ∧ e.status < 2 ^ 64 ∧ s.anyOut (.pump 0) e.from_ e.before = true) ∧
    (let s := pumpEv (.launchPageQueue 0 launch1) { queue := List.replicate 7 launch1 }; Takes (.launchPageQueue 0 launch1) s ∧ (s.pump 0).dispatch = [] ∧ (s.pump 0).queue.length < 8) ∧
    (let s := { pumpEv (.pumpKernelSaveTimeout 0) { ovl1 := slot1 .running, kernel := some (launch1, 1), saveReq := some 0 } with cycle := 2 ^ 20 };
      Takes (.pumpKernelSaveTimeout 0) s ∧ (s.pump 0).kernel = some (launch1, 1) ∧ 1 < 2 ∧ (s.pump 0).saveReq = some 0 ∧ 0 + 2 ^ 20 ≤ s.cycle) ∧
    (∀ n, n = 1 ∨ n = 2 → let s := pumpEv (.zeroFillStep 0) { fill := n }; Takes (.zeroFillStep 0) s ∧ (s.pump 0).fill ≠ 0 ∧ ((s.pump 0).fill ≠ 1 ↔ n = 2)) := by
  refine ⟨by decide +kernel, by decide +kernel, ?_, by decide +kernel, by decide +kernel, by decide +kernel, by decide +kernel, by decide +kernel, by decide +kernel,
    by decide +kernel, by decide +kernel, by decide +kernel, by decide +kernel, ?_⟩ <;> rintro _ (rfl | rfl) <;> decide +kernel
/-- The image of a load is locked. -/
theorem test_met_PumpSteps_locked : (let s := { pumpEv (.ovldAccept (oreq false)) {} with locks := [{ unit := .line 0x10000, excl := true, acc := 9 }] };
    s.mustWait (linesOf 0x10000 4096) false (s.reachedAt (.image 0)) (orderKey 0 0) = true) := by decide +kernel
/-- The image of a load cannot be read; a launch of a context that is saved; a locked launch page. -/
theorem test_met_PumpSteps_cases :
    (let s := { pumpEv (.ovldAccept (oreq false)) {} with broken := [.line 0x10100], threads := [(0, wait .ovld)] };
      Takes (.ovldAccept (oreq false)) s ∧ (∃ u, u ∈ linesOf 0x10000 4096 ∧ s.unitBroken u = true) ∧ Alone 0 s ∧ (s.thread 0).born ≤ (oreq false).sent ∧
      BlockedFor 0 .ovld s ∧ NoTrace s) ∧
    (let s := { pumpEv (.ovldAccept (oreq true)) {} with ctxs := [(0, { part := 0, root := 0, phase := .saved })] };
      Takes (.ovldAccept (oreq true)) s ∧ (s.pump 0).queue.length < 8 ∧ ∃ x, s.ctx (s.thread 0).ctx = some x ∧ x.phase = .saved) ∧
    (let s := { pumpEv (.kernelLaunchStart 0) { ended := [{ launch := { launch1 with page := some 0x2000 }, status := 0, val := 9 }] } with
          locks := [{ unit := .line 0x2000, excl := true, acc := 9 }] };
      s.mustWait (dedup (linesOf 0x2000 32)) true (s.reachedAt (.page 0)) (orderKey 4095 0) = true ∧ s.anyOut (.pump 0) 0 0 = false) ∧
    (let s := pumpEv (.kernelLaunchStart 0) { ended := [{ launch := { launch1 with page := some 0x2000 }, status := 0, val := 9 }] };
      s.mustWait (dedup (linesOf 0x2000 32)) true (s.reachedAt (.page 0)) (orderKey 4095 0) = false ∧ s.anyOut (.pump 0) 0 0 = false) :=
  ⟨⟨by decide +kernel, ⟨.line 0x10100, by decide +kernel, by decide +kernel⟩, by decide +kernel, by decide +kernel, by decide +kernel, noTrace_of rfl⟩,
    ⟨by decide +kernel, by decide +kernel, _, rfl, rfl⟩, by decide +kernel, by decide +kernel⟩
theorem test_met_PumpInstructions :
    (let s := plPump [(5, 0x10000), (6, 8), (7, 0x7FF8), (8, 0x8000000000000040)]; let n := (s.getX 6).toNat;
      s.cur = .pump 0 ∧ Runs (.prd 6 5 7) s ∧ Runs (.pwr 6 5 7) s ∧ Runs (.ppush 6 5 7) s ∧ Runs (.ppush 6 8 7) s ∧ bufferCheck 6 5 7 (fun _ => 0x8000) s = none ∧
      s.pumpWrites 0 = false ∧ s.pumpStalls .read (s.getX 5) n = false ∧ s.pumpStalls .write (s.getX 5) n = false ∧ (s.pumpRuns .read (s.getX 5) n).1.toOption.any (fun x => x.1 = [(0x10000, 0, 0, 8)] && x.2 = 12) = true ∧ (s.pumpRuns .write (s.getX 5) n).1.toOption.any (fun x => x.1 = [(0x10000, 0, 0, 8)] && x.2 = 12) = true ∧
      wbit (s.getX 5) 63 = false ∧ wbit (s.getX 8) 63 = true ∧ bufferCheck 6 8 7 (fun _ => 8192) s = none ∧ pushCheck 6 8 s = none ∧
      Runs .pend s ∧ s.outstanding (.pump 0) (s.cycle + 1) = false ∧ ((s.pump 0).kernel.map (·.2)) = some 0) ∧
    (let s := plPump [(5, 0x10001), (6, 8), (8, 0x8000000020000040), (9, 0x800000000)];
      (bufferCheck 6 5 7 (fun _ => 0x8000) s).isSome = true ∧ (pushCheck 6 8 s).isSome = true ∧ (s.pumpRuns .write (s.getX 9) 8).1.isOk = false) ∧
    (let s := { plPump [] with agenda := [(9, .farAccessPerform { far (.store [1]) with h := 4095, pump := some 0 })] };
      s.pumpWrites 0 = true ∧ s.outstanding (.pump 0) (s.cycle + 1) = true) := by decide +kernel
/-- A task of a key. -/
def task (k : Word) : Task := { key := k, r0 := 1, r1 := 2, r2 := 3 }
theorem test_met_TaskInstructions :
    (let s := copier [(28, 5)]; s.cur = .thread 0 ∧ (s.thread 0).gang = none ∧ 1 ≤ (28 : Reg).toNat ∧ (28 : Reg).toNat ≤ 28 ∧ Ungated s ∧ (s.core (coreOf 0)).l1 = [] ∧
      Runs (.tqadd 28) s ∧ s.getX 28 ≠ BitVec.allOnes 64 ∧ (s.thread 0).task = .none ∧ Runs (.tqtake 1) s ∧ Runs (.tqtry 28) s) ∧
    (let s := { copier [] with threads := [(0, { thr [] with sup := true, task := .held (task 4) 0x1000 })] };
      (s.thread 0).task = .held (task 4) 0x1000 ∧ Runs .tcmt s ∧ (s.thread 0).task ≠ .none ∧ Runs .tdone s) := by decide +kernel
theorem test_met_TaskInstructions_traps : NoTrace (ganged (copier [])) ∧ NoTrace (copier []) ∧ ((ganged (copier [])).thread 0).gang.isSome = true ∧
    ((0 : Reg).toNat = 0 ∨ 28 < (0 : Reg).toNat) ∧ 28 < (29 : Reg).toNat ∧ (copier [(5, 0xFFFFFFFFFFFFFFFF)]).getX 5 = BitVec.allOnes 64 :=
  ⟨noTrace_of rfl, noTrace_of rfl, by decide +kernel, by decide, by decide, by decide +kernel⟩
theorem test_met_TaskInstructions_unlimited : Unlimited (copier [(28, 5)]) := unlimited_of (h := 0) rfl (by decide +kernel)
def taskEv (e : Event) (ts : List Task) : State := { ev e [(0, wait .task)] with parts := [(0, { placePart with tasks := ts })] }
def treq (op : TqOp) : TqReq := { part := 0, h := 0, op := op, sent := 0, entered := true }
theorem test_met_TaskQueue :
    (let r := treq (.add (task 4)); let s := taskEv (.tqRequestPerform r) [task 9]; (s.part 0).any (fun q => q.addWait = [] && q.takeWait = [] && q.tasks.length < 65536) = true ∧
      Takes (.tqRequestPerform r) s ∧ r.part = 0 ∧ r.entered = true ∧ r.op = .add (task 4) ∧ s.releaseDone (.thread r.h) r.sent 4 = true) ∧
    (let r := { treq (.add (task 4)) with entered := false }; let s := taskEv (.tqRequestPerform r) [];
      r.entered = false ∧ Takes (.tqRequestPerform r) s ∧ (s.part 0).any (fun q => s.limitAt (32 + servingSlice q (dieOf r.h)) 0 = 0) = true) ∧
    (let r := { treq (.add (task 4)) with sent := 1 }; let s := storing (taskEv (.tqRequestPerform r) []); s.releaseDone (.thread r.h) r.sent 4 = false) ∧
    (∀ op, op = .take [28, 29, 30, 31] 0x1000 ∨ op = .try_ [28, 29, 30, 31] 0x1000 → Takes (.tqRequestPerform (treq op)) (taskEv (.tqRequestPerform (treq op)) []) ∧
      (let s := taskEv (.tqRequestPerform (treq op)) ([task 7] ++ task 4 :: [task 4]); (s.part 0).any (fun q => q.sq = 1 && q.tasks = [task 7] ++ task 4 :: [task 4]) = true ∧
        (∀ x, x ∈ [task 7] → (task 4).key.toNat < x.key.toNat) ∧ (∀ x, x ∈ [task 4] → (task 4).key.toNat ≤ x.key.toNat))) ∧
    Takes (.taskReinsert 0 0 (task 4)) (taskEv (.taskReinsert 0 0 (task 4)) []) ∧
    (∀ a, a = some (task 4) ∨ a = none →
      (let r := treq (.take [28, 28 + 1, 28 + 2, 28 + 3] 0x1000); let s := taskEv (.tqAnswer r a) []; Takes (.tqAnswer r a) s ∧ 1 ≤ 28 ∧ 28 ≤ 28 ∧ BlockedFor r.h .task s ∧
        (s.thread r.h).seq.rptRun = none) ∧
      (let r := treq (.try_ [1, 1 + 1, 1 + 2, 1 + 3] 0x1000)
       let s := { taskEv (.tqAnswer r a) [] with threads := [(0, { thr [] with pend := [(1, none), (2, none), (3, none), (4, none), (takeNum, none)] })] };
        Takes (.tqAnswer r a) s ∧ (s.thread r.h).born ≤ r.sent ∧ tfind (s.thread r.h).pend takeNum = some none ∧
        ∀ k, k < 4 → s.awaitsResult (.thread r.h) r.sent (1 + k) = true)) ∧
    (let r := treq (.try_ [1, 2, 3, 4] 0x1000); let s := { taskEv (.tqAnswer r (some (task 4))) [] with threads := [(0, { thr [] with born := 5 })] };
      r.sent < (s.thread r.h).born) := by
  refine ⟨by decide +kernel, by decide +kernel, by decide +kernel, ?_, by decide +kernel, ?_, by decide +kernel⟩ <;> rintro _ (rfl | rfl) <;> decide +kernel
/-- A full queue holds back an insertion; one in which takes wait. -/
theorem test_met_TaskQueue_full : 65536 ≤ (List.replicate 65536 (task 4)).length ∧
    (let q : Part := { placePart with takeWait := [treq (.take [1, 2, 3, 4] 0)] }; q.tasks = [] ∧ q.takeWait = treq (.take [1, 2, 3, 4] 0) :: []) ∧
    (let q : Part := { placePart with addWait := [treq (.add (task 4))] }; q.addWait = treq (.add (task 4)) :: [] ∧ q.takeWait = [] ∧ q.tasks.length ≤ 65536) := by
  refine ⟨Nat.le_of_eq List.length_replicate.symm, by decide +kernel, by decide +kernel⟩

/-! #### The command processor and the contexts -/

/-- The command processor takes a step for context 0 of partition 0, whose page lies at 0x10000. -/
def cp (e : Event) (x : Ctx) (ts : Table Thread := []) : State :=
  { placed with ev := some e, agenda := [], threads := ts, cores := [], dies := [(0, { tlb := [placeEntry 0] })], ctxs := [(0, x)] }
/-- A context with some nodes. -/
def cx (ns : Table Node) (ph : CtxPhase := .resident) : Ctx :=
  { part := 0, root := 0, qbase := 0x10000, qsize := 16, tslice := 100, notify := 0x10040, accepted := 2, nodes := ns, phase := ph }
/-- A node whose turn has come. -/
def nd (ws : List Word) : Node := { words := ws, queued := true }
theorem test_met_LaunchRecords :
    (∀ v, v = 0 ∨ v = 2 ∨ v = 17 ∨ v = 3 ∨ v = 16 → let x := cx [] .idle; let s := cp (.notifyWrite 0 v) x;
      s.ctx 0 = some x ∧ Takes (.notifyWrite 0 v) s ∧ (v ≤ 2 → v ≤ x.accepted) ∧ x.failed = false ∧
      s.recordsUsable 0 x.accepted (min (v - x.accepted) x.qsize) x = true ∧ (2 < v → { s with pf := {} }.recordsUsable 0 x.accepted (min (v - x.accepted) x.qsize) x = false) ∧
      (v = 17 → x.accepted < v ∧ x.retired + x.qsize < v) ∧
      (v = 3 → v = x.accepted + 1 ∧ v ≤ x.retired + x.qsize ∧ x.loopOf x.accepted = none ∧
        (readRecord 0 x.accepted x (s.modCtx 0 fun x => { x with accepted := v })).1.toOption.any (fun ws => wfield (ws.getD 0 0) 15 8 = 0) = true)) ∧
    (∀ n, n = 19 ∨ n = 20 → let x := cx [(0, { words := [0], phase := .done })]; let s := { cp (.retiredUpdate 0) x with cycle := n }; let p : Phys := { p10 with key := 0x10048 };
      s.ctx 0 = some x ∧ Takes (.retiredUpdate 0) s ∧ x.retiredAt s.cycle (x.accepted - x.retired) x.retired = (if n = 19 then 0 else 1) ∧
      s.usable (cmdView 0) (x.notify + 8).toNat 8 .write = true ∧ s.onDeadLink p.key = false ∧
      s.translate (cmdView 0) (x.notify + 8) .write = .ok p 12 ∧ KeyFits s p.key p.ks 8 ∧ PlainBytes s p.key 8 ∧ Memory.wf s.mem = true) := by
  refine ⟨?_, ?_⟩
  · rintro _ (rfl | rfl | rfl | rfl | rfl) <;> decide +kernel
  · rintro _ (rfl | rfl) <;>
      exact ⟨by decide +kernel, by decide +kernel, by decide +kernel, by decide +kernel, by decide +kernel, by decide +kernel, keyFits_of rfl (by decide), by decide +kernel, by decide +kernel⟩
theorem test_met_NodesComplete : ∀ live, live = 0 ∨ live = 15 →
    let e := Event.nodeComplete 0 0 live
    (let n : Node := { words := [1], phase := .failed }; let s := cp e (cx [(0, n)]); Takes e s ∧ s.ctx 0 = some (cx [(0, n)]) ∧ n = (cx [(0, n)]).node 0 ∧ n.phase = .failed) ∧
    (∀ k : Nat, k = 0 ∨ k = 1 → let n : Node := { words := [0, word k], phase := .running }; let y : Node := { words := [0x102] }; let x := cx [(0, n), (1, y)]; let s := cp e x;
      Takes e s ∧ s.ctx 0 = some x ∧ n = x.node 0 ∧ n.phase = .running ∧ s.nodeBusy 0 0 = false ∧ s.nodeReleased n = true ∧ n.kind ≠ 5 ∧ n.loop = none ∧ wbit (n.w 0) 16 = false ∧
      (∀ i, i < 4 → 1 ≤ i → n.succ i = 0) ∧ n.succ 0 = k ∧ y = x.node 1 ∧ y.accepted = true ∧ y.loop = none ∧ y.phase = .waiting ∧ y.queued = false ∧
      y.arrived + 1 = y.incount ∧ y.live = 0 ∧ live.getLsbD 0 = decide (live ≠ 0)) := by
  rintro _ (rfl | rfl) <;> refine ⟨by decide +kernel, ?_⟩ <;> rintro _ (rfl | rfl) <;> decide +kernel
/-- A node whose thread has ended, with a store still on its way. -/
theorem test_met_NodesComplete_unreleased :
    let e := Event.nodeComplete 0 0 15
    let n : Node := { words := [0], phase := .running, ends := [(0, 5)] }
    let s := { cp e (cx [(0, n)]) with agenda := [(9, .farAccessPerform { far (.store [1]) with sent := 3 })] }
    Takes e s ∧ n.phase = .running ∧ s.nodeBusy 0 0 = false ∧ s.nodeReleased n = false := by decide +kernel
/-- A placement table with one entry: pair 0 of core 0, access entry 0x10000. -/
def kernelNode : Node := nd [0, 0, 0x10080, 1, 0, 4096, 0, 0]
def placing (n : Node) (ts : Table Thread) : State :=
  { cp (.kernelNode 0 0) (cx [(0, n)]) ts with mem := memWrite placed.mem 0x10080 ([0, 0x10000, 0, 5].flatMap (bytesOfWord 8)) }
theorem test_met_KernelNodes :
    (let n := kernelNode; let x := cx [(0, n)]; let s := placing n [];
      Takes (.kernelNode 0 0) s ∧ NodeReady s 0 0 x n ∧ (kernelChecks n).find? Prod.fst = none ∧ n.w 6 = 0 ∧
      s.usable (nodeView 0) (n.w 2).toNat (32 * wfield (n.w 3) 11 0) .read = true ∧ s.zeroedAt 0 0 ≤ s.cycle + 200 ∧
      (s.checkRange (nodeView 0) (n.w 2).toNat (32 * wfield (n.w 3) 11 0) .read).1 = none ∧
      let l := (List.range (wfield (n.w 3) 11 0)).map (placeOf ((s.checkRange (nodeView 0) (n.w 2).toNat 32 .read).2.readVirt (nodeView 0) (n.w 2).toNat 32).1);
      l = [{ core := 0, pair := 0, stage := 0, a := 0x10000, e := 0, arg := 5, reserved := false }] ∧ placesFault s x.part l = none ∧ s.placeWaits 0 false l = false ∧
      s.coresFree 0 [0] = true ∧ s.ahead 0 [0] = false) ∧
    (let n : Node := { kernelNode with phase := .running, startAt := some 0 }; let x := cx [(0, n)]; let s := placing n [(0, { wait .start with node := some 0 })];
      s.ctx 0 = some x ∧ n = x.node 0 ∧ n.phase = .running ∧ n.startAt = some s.cycle ∧ n.w 6 = 0 ∧ (s.thread 0).ctx = 0 ∧ (s.thread 0).node = some 0 ∧ BlockedFor 0 .start s) ∧
    (let n := nd [7]; let x := cx [(0, n)]; let s := placing n []; s.ctx 0 = some x ∧ n = x.node 0 ∧ n.phase = .waiting ∧ n.queued = true ∧ s.startable x n = true ∧ 7 ≤ n.kind) :=
  ⟨⟨rfl, by decide +kernel, by decide +kernel⟩, by decide +kernel, by decide +kernel⟩
def copyNode (len : Word) : Node := nd [1, 0, 0x10080, 0x10000, len, 0, 0]
def nearNode : Node := nd [2, 0, 0x200010005, 7]
def configNode (mask : Word) (at_ : Option Nat) : Node := { nd [3, 0, mask, 3, 0, 0, 0] with startAt := at_ }
theorem test_met_EngineNodes :
    (∀ len, len = 64 ∨ len = 0xFFFFFFFFFFFFFFFF → let n := copyNode len; let x := cx [(0, n)]; let s := cp (.copyNode 0 0) x;
      NodeReady s 0 0 x n ∧ Takes (.copyNode 0 0) s ∧ wfield (n.w 5) 63 2 = 0 ∧ wfield (n.w 5) 1 0 ≠ 3 ∧
      (acceptCopy s (nodeView 0) 0 (some 0) none { kind := .cpy, dstWell := false, srcWell := false, dst := n.w 2, src := n.w 3, len := n.w 4, complete := n.w 6 &&& ~~~ 7 }).isOk
        = decide (len = 64)) ∧
    (∀ k, k = 7 ∨ k = 8 → let n := nearNode; let x := cx [(0, n)]; let s := { cp (.nearMemoryNode 0 0) x with pumps := [(5, { queue := List.replicate k launch1 })] };
      NodeReady s 0 0 x n ∧ Takes (.nearMemoryNode 0 0) s ∧ wfield (n.w 2) 15 9 = 0 ∧ wfield (n.w 2) 63 44 = 0 ∧ wfield (n.w 2) 8 0 = 5 ∧ wfield (n.w 2) 31 16 = 1 ∧
      wbit (n.w 2) 32 = false ∧ s.partOfChan 5 = some 0 ∧ (s.pump 5).queue.length = k) ∧
    (let n := configNode 3 none; let x := cx [(0, n)]; let s := cp (.configureNode 0 0) x;
      NodeReady s 0 0 x n ∧ Takes (.configureNode 0 0) s ∧ wfield (n.w 2) 63 2 = 0 ∧ n.startAt = none ∧ x.phase = .resident) ∧
    (let n := configNode 0x17 (some 0); let x := cx [(0, n)]; let s := cp (.configureNode 0 0) x;
      NodeReady s 0 0 x n ∧ wbit (n.w 2) 3 = false ∧ n.startAt = some s.cycle) := by
  refine ⟨?_, ?_, by decide +kernel, by decide +kernel⟩ <;> rintro _ (rfl | rfl) <;> decide +kernel
/-- A control node that tests the word at 0x10080: it is 1 there. -/
def control (e : Event) (k : Word) (at_ : Option Nat) (value : Word) (w4 : Word) : State × Node :=
  let n : Node := { nd [k, 0, 0x10080, value, w4] with startAt := at_ }
  ({ cp e (cx [(0, n), (1, nd [0])]) with mem := memWrite placed.mem 0x10080 [1] }, n)
theorem tested_of {s : State} {c q m : Nat} {n : Node} (h : n.startAt = some m) (hm : m ≤ s.cycle) (hu : s.usable (nodeView c) (n.w 2).toNat 8 .read = true)
    (g : (s.checkRange (nodeView c) (n.w 2).toNat 8 .read).1 = none) :
    ∃ u, Tested s c n (wordOfBytes (((s.checkRange (nodeView c) (n.w 2).toNat 8 .read).2.readVirt (nodeView c) (n.w 2).toNat 8).1)) u :=
  ⟨_, ⟨m, h, hm⟩, hu, _, _, Prod.ext g rfl, rfl, rfl⟩
theorem test_met_ControlNodes :
    (∀ y, y ∈ [(Event.conditionNode 0 0, (4 : Word)), (.loopNode 0 0, 5), (.switchNode 0 0, 6)] → ∀ at_, at_ ∈ [none, some 0] → ∀ v, v ∈ [0, 1] →
      let s := (control y.1 y.2 at_ (word v) (2 ^ 16)).1; let n := (control y.1 y.2 at_ (word v) (2 ^ 16)).2;
      NodeReady s 0 0 (cx [(0, n), (1, nd [0])]) n ∧ Takes y.1 s ∧ (n.w 2).toNat % 8 = 0 ∧ reserved4 n = false ∧ n.startAt = at_ ∧ (y.2 = 5 → n.bodyLen = 1) ∧
      s.usable (nodeView 0) (n.w 2).toNat 8 .read = true ∧ (s.checkRange (nodeView 0) (n.w 2).toNat 8 .read).1 = none ∧
      wordOfBytes (((s.checkRange (nodeView 0) (n.w 2).toNat 8 .read).2.readVirt (nodeView 0) (n.w 2).toNat 8).1) = 1 ∧
      n.holds 1 = decide (v = 1)) ∧ reserved4 (control (.conditionNode 0 0) 4 none 0 8).2 = true := by
  decide +kernel
theorem test_met_SlicesAndCompletion :
    (∀ b, b = true ∨ b = false → let x := { cx [] with sliceAt := 5 }; let y : Ctx := cx [(0, { nd [0] with need := [0] })] .idle;
      let s := { cp (.timeSliceExpiry 0 5) x with cycle := 6, cores := [(0, { holder := some 0 })], ctxs := [(0, x), (1, if b then y else cx [] .idle)] };
      s.ctx 0 = some x ∧ x.phase = .resident ∧ Takes (.timeSliceExpiry 0 5) s ∧ x.sliceAt = 5 ∧ x.sliceLeft = none ∧
      (s.waiters.any fun y => y.1 ≠ 0 && x.prio ≤ y.2.prio && y.2.needs.any (s.heldCores 0).contains) = b) ∧
    (∀ b, b = true ∨ b = false → ∀ f : Bool, let x := { cx [] with failed := f }; let s := cp (.contextComplete 0) x (if b then [(0, thr [])] else []);
      s.ctx 0 = some x ∧ x.phase = .resident ∧ Takes (.contextComplete 0) s ∧ s.ctxBusy 0 = b ∧ x.failed = f ∧ Rising s.cores) := by
  refine ⟨?_, ?_⟩ <;> rintro _ (rfl | rfl) <;> decide +kernel
/-- A context with thread 0 on core 0, in a stage of its save. -/
def saving (stage : Nat) (ph : CtxPhase) (late : Bool := false) : State × Ctx :=
  let x := { cx [] ph with saveStage := stage }
  ({ cp (.contextSave 0 late) x [(0, thr [])] with cores := [(0, { holder := some 0 })] }, x)
def aSave : Saved := { threads := [(0, thr [])], cores := [(0, {})], bars := [], copies := [], launches := [], overlays := [] }
theorem test_met_SaveAndRestore :
    (∀ late, let s := (saving 0 .saving late).1; let x := (saving 0 .saving late).2; s.ctx 0 = some x ∧ Takes (.contextSave 0 late) s ∧ s.mightTrap 0 = true ∧
      { s with threads := [(0, { thr [] with notBefore := 9 })] }.mightTrap 0 = false ∧ (saving 0 .saved).2.phase ≠ .saving ∧ x.phase = .saving ∧
      x.saveStage = 0 ∧ s.ctxThreads 0 = [0] ∧ (s.thread 0).run = .ready ∧ (s.thread 0).frozen = false ∧ (s.thread 0).seq.skip = 0 ∧ (s.thread 0).pend = [] ∧
      (s.thread 0).task = .none ∧ (s.thread 0).claims = [] ∧ (s.thread 0).gang = none) ∧
    (let s := (saving 1 .saving).1; s.ctx 0 = some (saving 1 .saving).2 ∧ (s.reqs.any fun r => reqIsWb r && (s.heldCores 0).contains (coreOf r.h)) = false) ∧
    (let s := { (saving 1 .saving).1 with agenda := [(1, .farAccessPerform (far (.writeBack [])))] };
      (s.reqs.any fun r => reqIsWb r && (s.heldCores 0).contains (coreOf r.h)) = true) ∧
    (saving 2 .saving).2.saveStage = 2 ∧ Rising (saving 2 .saving).1.cores ∧ Memory.wf (saving 2 .saving).1.mem = true ∧
    (∀ k, k ∈ (saving 2 .saving).1.cores → Memory.wf k.2.well = true) ∧ NoLaunchPage (saving 2 .saving).1 ∧
    (∀ ph, ph = .saved ∨ ph = .restoring → let x := { cx [] ph with saved := some aSave }; let s := cp (.contextRestore 0) x;
      s.ctx 0 = some x ∧ Takes (.contextRestore 0) s ∧ x.saved = some aSave ∧ x.phase = ph ∧ (s.part x.part).any (fun p => !p.quiesced) = true ∧
      s.coresFree 0 [0] = true ∧ s.ahead 0 [0] = false ∧ (∀ w, w ∈ s.ctxs → w.2.prio ≤ x.prio ∨ w.2.isWaiting = false) ∧ Rising aSave.threads ∧ Rising aSave.cores ∧ Memory.wf s.mem = true) := by
  refine ⟨by decide +kernel, by decide +kernel, by decide +kernel, by decide +kernel, by decide +kernel, by decide +kernel, by decide +kernel, by decide +kernel, ?_⟩; rintro _ (rfl | rfl) <;> decide +kernel
/-- A restore whose overlays are to be loaded, or are on their way. -/
theorem test_met_SaveAndRestore_overlays :
    (let v := { aSave with overlays := [(0, { state := .loaded, handle := 1 })] }; let x := { cx [] .restoring with saved := some v }; let s := cp (.contextRestore 0) x;
      s.ctx 0 = some x ∧ v.overlays ≠ [] ∧ Takes (.contextRestore 0) s) ∧
    (let x := { cx [] .restoring with saved := some aSave }
     let s := { cp (.contextRestore 0) x with pumps := [(0, { ovl0 := { state := .loading, handle := 1 } })], agenda := [(9, .overlayLoaded 0 0 1)] };
      s.ctx 0 = some x ∧ s.overlaysDue 0 = some 9 ∧ s.cycle ≤ 9) ∧
    (cp (.contextRestore 0) { cx [] .restoring with saved := some aSave }).overlaysDue 0 = none := by decide +kernel

/-! #### Trap records, partitions, the host -/

/-- A record, and the ring of partition 0 with some counts. -/
def aRecord : TrapRecord := { roomMade with handle := 9 }
def ring (r : TrapRecord) (n m : Nat) (w : List TrapRecord) : State × Part :=
  let q := { placePart with ringWait := w }
  ({ ev (.trapRecordWrite 0 r) with parts := [(0, q)], pf := placed.pf, mem := memWrite [] 0x21000 (toBytes 8 n ++ toBytes 8 m) }, q)
theorem test_met_TrapRing :
    (∀ y, y ∈ [(aRecord, 63, 0, []), (aRecord, 64, 0, []), (aRecord, 64, 1, [aRecord]), (roomMade, 64, 1, [aRecord])] → let s := (ring y.1 y.2.1 y.2.2.1 y.2.2.2).1; let q := (ring y.1 y.2.1 y.2.2.1 y.2.2.2).2;
      Takes (.trapRecordWrite 0 y.1) s ∧ s.part 0 = some q ∧ NoLaunchPage s ∧ ringCounts s q = (y.2.1, y.2.2.1) ∧ q.ringWait = y.2.2.2 ∧
      s.mustWait (ringUnits q s 1) true (s.reachedAt (.ring 0 y.1.handle.toNat)) (orderKey (y.1.handle.toNat % 4096) 0) = false) ∧ aRecord ≠ roomMade ∧
    (let s := (ring aRecord 63 0 []).1; let q := (ring aRecord 63 0 []).2; let s := { s with locks := (ringUnits q s 1).map fun u => { unit := u, excl := true, acc := 5 } };
      s.mustWait (ringUnits q s 1) true (s.reachedAt (.ring 0 9)) (orderKey 9 0) = true) := by decide +kernel
/-- The fault queue of virtual function 0, of 64 records. -/
def fq (e : Event) (prod out : Nat) : State × Part :=
  let q := { placePart with fqOut := out }
  ({ ev e with parts := [(0, q)], vfs := [(0, { fqLog := 6, fqProd := word prod })], pf := { placed.pf with hostAgt := true } }, q)
theorem test_met_FaultQueue :
    (∀ y, y ∈ [(63, 0), (64, 0), (5, 1)] → let e := Event.faultQueueWrite 0 aRecord; let s := (fq e y.1 y.2).1;
      s.part 0 = some (fq e y.1 y.2).2 ∧ Takes e s ∧ (s.vf 0).fqSize = 64 ∧ (s.vf 0).fqProd.toNat - (s.vf 0).fqCons.toNat = y.1 ∧ (fq e y.1 y.2).2.fqOut = y.2 ∧ (fq e y.1 y.2).2.fqWait = [] ∧
      s.onDeadLink (hostKey (s.vf 0).fqBase) = false ∧ s.unready (hostKey (s.vf 0).fqBase) = false ∧ { s with pf := {} }.unready (hostKey (s.vf 0).fqBase) = true ∧
      { s with linkDown := [16] }.onDeadLink (hostKey (s.vf 0).fqBase) = true) ∧
    (∀ n, n ∈ [0, 5] → let e := Event.faultQueueAck 0; let s := (fq e n 1).1; Takes e s ∧ s.part 0 = some (fq e n 1).2 ∧ ((s.vf 0).fqProd = (s.vf 0).fqCons ↔ n = 0)) ∧
    (∀ v, v ∈ [0, 5, 6] → let e := Event.fqconsWrite 0 (word v); let s := (fq e 5 0).1; Takes e s ∧ s.part 0 = some (fq e 5 0).2 ∧
      ((s.vf 0).fqCons.toNat ≤ (word v).toNat ∧ (word v).toNat ≤ (s.vf 0).fqProd.toNat ↔ v ≠ 6)) := by decide +kernel
/-- A partition record of granule 0, whose supervisor thread starts in slot 0 of core 0 at an address. -/
def record (entry : Word) : List Byte :=
  ((List.range 34).map fun i => if i = 0 then (0x108000001 : Word) else if i = 2 then 0x2000 else if i = 29 then entry else if i = 33 then 2 ^ 48 else 0).flatMap (bytesOfWord 8)
/-- The host has the record at 0x1000; the command processor, granule 0 and its channels are ready. -/
def creating (e : Event) (entry : Word) (ps : Table Part) : State :=
  { ev e with mem := memWrite [] (hostKey 0x1000) (record entry), parts := ps, pf := { placed.pf with sched := true, hostAgt := true } }
theorem test_met_CreatePartition :
    (∀ y, y ∈ [(0x10000, true), (0x10001, false)] → let e := Event.create 0 0x1000; let s := creating e (word y.1) []; let bs := s.hostRead (word 0x1000) 272; let q := partOf bs;
      Takes e s ∧ s.part 0 = none ∧ s.onDeadLink (hostKey 0x1000) = false ∧ s.unready (hostKey 0x1000) = false ∧
      { s with linkDown := [16] }.onDeadLink (hostKey 0x1000) = true ∧ { s with pf := {} }.unready (hostKey 0x1000) = true ∧ (s.granulesReady q.gmask && s.shapeOk 0 q && s.supervisorOk q bs) = y.2) ∧
    (∀ b, b ∈ [true, false] → let y := { placePart with creating := b }; let s := creating (.create 0 0x1000) 0 [(0, y)];
      Takes (.create 0 0x1000) s ∧ s.part 0 = some y ∧ y.creating = b ∧ nbit y.sslots 0 = true) := by decide +kernel
theorem test_met_PartitionCommands :
    (∀ e, e ∈ [Event.destroy 0, .resize 0 0x1000, .key 0 3 0x1000] → (creating e 0 []).part 0 = none ∧ Takes e (creating e 0 []) ∧ (creating e 0 [(0, placePart)]).part 0 = some placePart) ∧
    (∀ b, b ∈ [true, false] → let s := { creating (.resize 0 0x1000) 0 [(0, placePart)] with pf := { placed.pf with sched := b } };
      let new := resized placePart (s.hostRead (word 0x1000) 272); (!placePart.creating && s.granulesReady new.gmask && s.shapeOk 0 new) = b ∧ placePart.quiesced = false) ∧
    (∀ y : Bool × CtxPhase, y ∈ [(true, .saving), (false, .saving), (false, .resident)] → let q := { placePart with quiesced := true, creating := y.1 };
      let s := { creating (.resize 0 0x1000) 0 [(0, q)] with ctxs := [(0, cx [] y.2)] };
      s.part 0 = some q ∧ q.quiesced = true ∧ q.creating = y.1 ∧ s.quiet 0 = false ∧ Rising s.ctxs ∧ { s with ctxs := [] }.quiet 0 = true) := by decide +kernel
/-- The host has a context record at 0x1000: root 0, queue 0x10000 of so many records, notify word 0x10040. -/
def ctxRecord (n : Word) : List Byte := [0, 0, 0x10000, n, 0x10040, 0, 0, 0].flatMap (bytesOfWord 8)
def making (e : Event) (n : Word) (cs : Table Ctx) : State :=
  { ev e with mem := memWrite [] (hostKey 0x1000) (ctxRecord n), parts := [(0, placePart)], ctxs := cs, vfs := [(0, { ctxArg := 0x1000 })], pf := { placed.pf with hostAgt := true },
              dies := [(0, { tlb := [{ placeEntry 0 with nc := true }] })] }
theorem test_met_ContextCommands :
    (∀ y, y ∈ [(16, true), (8, false)] → let e := Event.contextCreate 0; let s := making e (word y.1) []; let bs := s.hostRead (s.vf 0).ctxArg 64; let x := ctxOf 0 bs;
      Takes e s ∧ s.part 0 = some placePart ∧ s.onDeadLink (hostKey (s.vf 0).ctxArg) = false ∧ s.unready (hostKey (s.vf 0).ctxArg) = false ∧
      { s with linkDown := [16] }.onDeadLink (hostKey (s.vf 0).ctxArg) = true ∧ { s with pf := {} }.unready (hostKey (s.vf 0).ctxArg) = true ∧ ctxLimits bs x = y.2 ∧ s.ctx (recField bs 0 9 0) = none ∧ (s.ctxs.filter fun y => y.2.part = 0 && !y.2.super).length < 64 ∧
      (y.2 = true → (State.translateNow { s with ctxs := tset s.ctxs 0 x } (cmdView 0) x.notify .write).1.toOption.any (·.nc) = true)) ∧
    (∀ ph, ph ∈ [CtxPhase.idle, .saved, .resident] → let e := Event.contextDestroy 0 0; let s := making e 0 [(0, cx [] ph)];
      Takes e s ∧ (making e 0 []).ctx 0 = none ∧ s.ctx 0 = some (cx [] ph) ∧ (cx [] ph).part = 0 ∧ (cx [] ph).super = false ∧ (cx [] ph).phase = ph) ∧
    ({ cx [] with part := 1 } : Ctx).part ≠ 0 := by decide +kernel
theorem test_met_HostCommands :
    (∀ e, e ∈ [Event.threadRead 0, .threadWrite 0, .threadResume 0, .attest 0] → Takes e (making e 0 []) ∧ (making e 0 []).part 0 = some placePart ∧ (ev e).part 0 = none ∧
      let home := hostKey ((making e 0 []).vf 0).attestAddr
      (making e 0 []).onDeadLink home = false ∧ (making e 0 []).unready home = false ∧ { making e 0 [] with linkDown := [16] }.onDeadLink home = true ∧
      { making e 0 [] with pf := {} }.unready home = true) ∧
    (∀ y, y ∈ [(0, true), (256, false)] → ∀ k, k ∈ [SupKind.read, .write, .resume] → (supCheck (making (.threadRead 0) 0 []) 0 k (word y.1) 0 0).isNone = y.2) := by decide +kernel
/-- A host atomic on a word of the window, its write still to come or due. -/
def hAtom (sa writes : Bool) : HostAtom := { op := .add, size := 8, b := 1, c := 0, sa := sa, writes := writes }
theorem test_met_LinksAndSnoops :
    (∀ y, y ∈ [(72 * 2 ^ 30 - 2, false), (72 * 2 ^ 30 - 1, false), (0, true)] → let e := Event.hostMemAccess 0 y.1 (some [1, 2]) none;
      let s := { ev e with parts := [(0, placePart)], pf := placed.pf, locks := if y.2 then [{ unit := .line 0, excl := true, acc := 7 }] else [] };
      Takes e s ∧ s.part 0 = some placePart ∧ (placePart.windowSize < y.1 + 2 ↔ y.1 = 72 * 2 ^ 30 - 1) ∧
      s.mustWait (linesOf (windowBase 0 + y.1) 2) true (s.reachedAt (.host 0 y.1)) (orderKey 4096 0) = y.2 ∧ s.hostBusy 0 y.1 2 = false ∧ NoLaunchPage s) ∧
    (∀ b : Bool, let e := Event.hostMemAccess 16 64 (some [1, 2]) none;
      let s := { ev e with pf := { placed.pf with hostAgt := true }, hostLines := if b then [(2 ^ 43, ())] else [] };
      Takes e s ∧ 64 + 2 ≤ 2 ^ 51 ∧ s.hostBusy 16 64 2 = false ∧ (tfind s.hostLines (2 ^ 43) ≠ none ↔ b = true) ∧
      LockUnit.line (256 * 2 ^ 43) ∈ linesOf (2 ^ 51 + 64) 2 ∧ s.mustWait (linesOf (2 ^ 51 + 64) 2) true (s.reachedAt (.host 16 64)) (orderKey 4096 0) = false) ∧
    (∀ y, y ∈ [(true, false), (false, false), (false, true)] → let e := Event.hostMemAccess 0 64 (if y.2 then some [1] else none) (some (hAtom y.1 y.2));
      let s := { ev e with parts := [(0, placePart)], pf := placed.pf };
      Takes e s ∧ 64 + 8 ≤ placePart.windowSize ∧ s.hostBusy 0 64 8 = false ∧ s.mustWait (linesOf (windowBase 0 + 64) 8) true (s.reachedAt (.host 0 64)) (orderKey 4096 0) = false) ∧
    (let s := { ev (.hostMemAccess 0 64 none (some (hAtom false false))) with parts := [(0, placePart)], agenda := [(9, .hostMemAccess 0 64 (some [1]) (some (hAtom false true)))] };
      s.hostBusy 0 64 8 = true) ∧
    (∀ e, e ∈ [Event.hostSnoop 3, .backInvalidateResponse 3, .linkFlitReplay 2 0 true, .linkFlitReplay 2 1 true, .linkFailure 2, .injectionWindowStart] → Takes e (ev e)) ∧
    (let s := { ev (.backInvalidateResponse 3) with biAsked := [3] }; 3 ∈ s.biAsked ∧ 4 ∉ s.biAsked) ∧
    (let q := { placePart with fab := [(1, 2)] }; let s := { ev (.fabricWindowActivate 0 0) with parts := [(0, q)], pf := { joined := true } };
      Takes (.fabricWindowActivate 0 0) s ∧ s.part 0 = some q ∧ 0 < q.fab.length ∧ s.pf.joined = true) ∧
    (ev .injectionWindowStart).injWait = [] := by
  refine ⟨by decide +kernel, by decide +kernel, by decide +kernel, by decide +kernel, by decide +kernel, by decide +kernel, by decide +kernel, by decide +kernel⟩
/-- A tile access owns a line of host memory that the host asks for; two requests of one sector combine. -/
theorem test_met_LinksAndSnoops_combine :
    (let a := { acc [.line 768] .tst { seg none with addr := 768, sa := true } with got := 1 }; let s := { ev (.hostSnoop 3) with taccs := [(7, a)] };
      (s.taccs.any fun (_, a) => (a.units.take a.got).contains (.line (256 * 3)) && a.segs.any fun g => g.sa && g.well.isNone && (linesOf g.addr g.len).contains (.line (256 * 3))) = true) ∧
    (∀ point, point ∈ [0, 32, 160] → let q := far (.load 5 8 true none); let r := { q with h := 8 };
      let w : InjWait := { point := point, part := 0, line := 0x10000, ev := .farAccessPerform q }; let v := { w with ev := .farAccessPerform r };
      let s := { ev .injectionWindowStart with lines := [(0x100, {})], injWait := [w, v] };
      Takes .injectionWindowStart s ∧ w.ev = .farAccessPerform q ∧ v.ev = .farAccessPerform r ∧ s.lineHeld w.line = true ∧
      (∀ x, x ∈ s.reqs → s.mustFollow x q = false ∧ s.mustFollow x r = false)) := by decide +kernel
theorem test_met_LinksAndSnoops_kinds : (let q := far (.load 5 8 true none); OfAKind q { q with h := 8, op := .fill none }) ∧
    (let q := far (.amo .add 8 1 0 5 none); OfAKind q { q with h := 8, op := .red .add 4 1 }) :=
  ⟨⟨rfl, rfl, Or.inl ⟨Or.inl ⟨_, _, _, _, rfl⟩, Or.inr ⟨_, rfl⟩, rfl⟩⟩,
   ⟨rfl, rfl, Or.inr ⟨rfl, .add, by decide, by decide, by decide, by decide, Or.inl ⟨_, _, _, _, _, rfl⟩, Or.inr ⟨_, _, rfl⟩⟩⟩⟩
theorem test_met_RegisterWrites :
    (∀ y, y ∈ [(0, 0x000), (0, 0x440), (0, 0x448), (0, 0x040), (0, 0x200), (0, 0x048), (1, 0x118), (16, 0x048), (1, 0x040), (1, 0x200), (0, 0x1000), (1, 0x1010), (1, 0x1040), (2, 0x10F8)] → ∀ v, v ∈ [1, 2, 0x5A] →
      let e := Event.registerWrite y.1 y.2 (word v); let s := { ev e with parts := [(0, placePart)] };
      Takes e s ∧ s.pf.status ≠ 1 ∧ s.pf.resetting = false ∧ (s.vf 0).ctxStatus ≠ 1 ∧ (s.vf 0).thrStatus ≠ 1 ∧ s.partOfCluster 0 = some 0 ∧
      (0x1000 ≤ y.2 → y.2 < 0x1100 ∧ (y.1 = 0 ∨ s.partOfCluster 0 = some (y.1 - 1) ↔ y.1 ≠ 2))) ∧
    ({ status := 1, resetting := true } : Pf).status = 1 := by decide +kernel

/-! #### Debug modules, bring-up -/

/-- Cluster 0 with a debug module. -/
def debugged (e : Event) (d : Dbg) (ts : Table Thread := []) : State := { ev e ts with clusters := [(0, { dbg := d })] }
theorem noTrace_debugged (e : Event) (d : Dbg) (ts : Table Thread) (h : d.trcBase = 0) : NoTrace (debugged e d ts) := by
  intro c; cases c with
  | zero => exact h
  | succ n => rfl
theorem test_met_HaltAndRun :
    (∀ b, b ∈ [true, false] → ∀ e, e ∈ [Event.dbgHalt 0, .haltTriggerArrival 0, .dbgRun 0, .dbgInvi 0] → let s := debugged e { halted := b, ctl := 4 };
      Takes e s ∧ (s.cluster 0).dbg.halted = b ∧ wbit (s.cluster 0).dbg.ctl 2 = true ∧ s.dies.any (fun d => d.2.hot) = false) ∧
    (∀ stop, let s := debugged (.coreHaltStop 0 stop) {} [(7, { thr [] with run := .halted })];
      Takes (.coreHaltStop 0 stop) s ∧ liveThread (s.thread (8 * 0 + 7)) = true ∧ (s.thread (8 * 0 + 7)).run = .halted) ∧
    wbit ({ } : Dbg).ctl 2 = false := by decide +kernel
theorem test_met_HaltAndRun_noTrace : NoTrace (debugged (.dbgHalt 0) { halted := true, ctl := 4 }) := noTrace_debugged _ _ _ rfl
theorem test_met_DebugAccesses :
    ∀ e, e ∈ [Event.dbgRead 0, .dbgWrite 0] →
      (let s := debugged e {}; Takes e s ∧ (s.cluster 0).dbg.halted = false) ∧
      (let s := debugged e { halted := true, hnd := 255, sel := 0xFFFF86000 } [(255, thr [])]; (s.cluster 0).dbg.halted = true ∧ clusterOf 255 = 0 ∧
        wfield (s.cluster 0).dbg.sel 15 12 = 6 ∧ wfield (s.cluster 0).dbg.sel 35 16 % 8 = 0 ∧ wfield (s.cluster 0).dbg.sel 35 16 + 8 ≤ 2 ^ 20) ∧
      (∀ k, k ∈ [0, 31, 0x2000, 0x4000] → let h := if k = 0x4000 then 4 else 0; let s := debugged e { halted := true, hnd := word h, sel := word k } [(0, thr []), (4, thr [])];
        wfield (s.cluster 0).dbg.sel 15 12 ≤ 4 ∧ selectorOk (word (wfield (s.cluster 0).dbg.sel 15 0)) h = true ∧ liveThread (s.thread h) = true ∧ clusterOf h = 0) := by decide +kernel
theorem test_met_BringUpAndPower :
    (∀ e, e ∈ [Event.readySet (.cluster 0), .readySet (.hub 0 0), .readySet (.hub 2 5), .moduleReset 3 true, .powerThrottle 3401, .thermalHalt 0 true, .thermalHalt 0 false] → Takes e (ev e)) ∧
    ((ev (.thermalHalt 0 true)).die 0).hot = false ∧ Memory.wf (ev (.moduleReset 3 true)).mem = true := by decide +kernel
theorem test_met_BringUpAndPower_noTrace : NoTrace (ev (.thermalHalt 0 true)) := noTrace_of rfl
theorem test_met_WellWindowMirrors : ∀ r, r ∈ [(0 : BitVec 2), 3] → Takes (.wellwinMirrorUpdate 1 2 r) (ev (.wellwinMirrorUpdate 1 2 r)) := by decide +kernel

/-! #### Invariants -/

theorem test_met_StepKeepsMemoryCanonical : Memory.wf placed.mem = true ∧ (match step placed with | .next _ => true | _ => false) = true := by decide +kernel
theorem test_met_StepKeepsTablesCanonical : Memory.wf placed.mem = true ∧ (match step placed with | .next _ => true | _ => false) = true ∧ CanonicalTables placed :=
  ⟨by decide +kernel, by decide +kernel, by decide +kernel, by decide +kernel, by decide +kernel, by decide +kernel, by decide +kernel, by decide +kernel, by decide +kernel, by decide +kernel, by decide +kernel, by decide +kernel, by decide +kernel, by decide +kernel, by decide +kernel, by decide +kernel, by decide +kernel, by decide +kernel, by decide +kernel, by decide +kernel,
    ⟨by decide +kernel, by decide +kernel⟩, by decide +kernel, by
    intro x h
    have h : x.2.nodes = [] ∧ x.2.tensors = [] ∧ x.2.saved = none :=
      (by decide +kernel : ∀ x, x ∈ placed.ctxs → x.2.nodes = [] ∧ x.2.tensors = [] ∧ x.2.saved = none) x h
    exact ⟨by rw [h.1]; exact .nil, by rw [h.2.1]; exact .nil, by intro v hv; rw [h.2.2] at hv; cases hv⟩⟩

end Sys2Proof.Tests
end

section
/-!
SUPPORT. What leaves memory as it is: one rule per operation that writes no byte, chapter by chapter in the order of the model. A rule about
an operation that is handed a continuation takes a hypothesis about that.
-/

namespace Sys2Proof.Machine

@[simp] theorem State.ite_mem (c : Prop) [Decidable c] (a b : State) : (if c then a else b).mem = if c then a.mem else b.mem :=
  apply_ite State.mem c a b
theorem State.ite_mem_of {c : Prop} [Decidable c] {a b : State} {m : List Host.Cell} (ha : a.mem = m) (hb : b.mem = m) :
    (if c then a else b).mem = m := by split <;> assumption
@[simp] theorem State.foldl_mem {α : Type} (f : State → α → State) (l : List α) (s : State) (h : ∀ u x, (f u x).mem = u.mem) :
    (l.foldl f s).mem = s.mem :=
  List.foldlRecOn l f (motive := fun t => t.mem = s.mem) rfl fun u e x _ => (h u x).trans e
theorem State.foldlFst_mem {α β : Type} (f : State × β → α → State × β) (l : List α) (s : State × β) (h : ∀ u x, (f u x).1.mem = u.1.mem) :
    (l.foldl f s).1.mem = s.1.mem :=
  List.foldlRecOn l f (motive := fun t => t.1.mem = s.1.mem) rfl fun u e x _ => (h u x).trans e
theorem State.foldlSnd_mem {α β : Type} (f : β × State → α → β × State) (l : List α) (s : β × State) (h : ∀ u x, (f u x).2.mem = u.2.mem) :
    (l.foldl f s).2.mem = s.2.mem :=
  List.foldlRecOn l f (motive := fun t => t.2.mem = s.2.mem) rfl fun u e x _ => (h u x).trans e
@[simp] theorem State.forUpto_mem (n : Nat) (f : Nat → State → State) (s : State) (h : ∀ u i, (f i u).mem = u.mem) :
    (forUpto n s f).mem = s.mem := State.foldl_mem _ _ _ h
@[simp] theorem State.elim_mem {α : Type} (o : Option α) (s t : State) (f : α → State) (h : ∀ x, (f x).mem = t.mem) (k : s.mem = t.mem) :
    (o.elim s f).mem = t.mem := by
  cases o with
  | none => exact k
  | some x => exact h x

/-! ### The operations of the state -/

@[simp] theorem State.choose_mem (s : State) (n : Nat) : (s.choose n).2.mem = s.mem := by simp [State.choose]
@[simp] theorem State.fresh_mem (s : State) : s.fresh.2.mem = s.mem := by simp [State.fresh]
@[simp] theorem State.dropGang_mem (s : State) (leader : Nat) : (s.dropGang leader).mem = s.mem := by simp [State.dropGang]
@[simp] theorem State.before_mem (s : State) (h : Nat) : (s.before h).mem = s.mem := by simp [State.before]
@[simp] theorem State.leavesGang_mem (s : State) (h : Nat) : (s.leavesGang h).mem = s.mem := by
  grind [State.leavesGang, State.elim_mem, State.modThread_mem, State.later_mem, State.dropGang_mem]
@[simp] theorem State.disband_mem (s : State) (ms : List Nat) : (s.disband ms).mem = s.mem := by simp [State.disband]
@[simp] theorem State.trapDisbands_mem (s : State) (h : Nat) (pc : Word) : (s.trapDisbands h pc).mem = s.mem := by simp [State.trapDisbands]
@[simp] theorem parkTrap_mem (h cause : Nat) (pc val : Word) (s : State) : (parkTrap h cause pc val s).mem = s.mem := by simp [parkTrap]

/-- Ending a wait together leaves memory alone if what each member does then does. -/
@[simp] theorem State.together_mem (s : State) (h v : Nat) (fin : Nat → Nat → State → State) (undo : Nat → State → State)
    (hfin : ∀ m v u, (fin m v u).mem = u.mem) (hundo : ∀ m u, (undo m u).mem = u.mem) : (s.together h v fin undo).mem = s.mem := by
  unfold State.together
  dsimp only
  split
  · simp [hfin]
  · split
    · rfl
    · generalize hr : List.foldl _ _ _ = r
      have kept : ∀ u, r = .ok u ∨ r = .error u → u.mem = s.mem := by
        rw [← hr]
        refine List.foldlRecOn (motive := fun r : Except State State => ∀ u, r = .ok u ∨ r = .error u → u.mem = s.mem) _ _ ?_ ?_
        · simp
        · intro r ih m _
          cases r with
          | error u => simpa [Except.bind] using ih u
          | ok u =>
            have e := ih u (.inl rfl)
            simp only [Except.bind]
            split
            · simp [e]
            · split
              · simp [hundo]
              · simp [e, hfin]
      cases r <;> simp [kept]
@[simp] theorem postMsg_mem (core ctx : Nat) (m : Msg) (s : State) : (postMsg core ctx m s).mem = s.mem := by simp [postMsg]
@[simp] theorem notifyNode_mem (c : Nat) (w0 : Word) (q cause : Nat) (s : State) : (notifyNode c w0 q cause s).mem = s.mem := by
  unfold notifyNode
  repeat' split
  all_goals simp
@[simp] theorem failNode_mem (c q cause : Nat) (val : Word) (s : State) : (failNode c q cause val s).mem = s.mem := by
  unfold failNode; split <;> simp
@[simp] theorem endLaunch_mem (c : Nat) (l : LaunchEnd) (s : State) : (endLaunch c l s).mem = s.mem := by simp [endLaunch]
@[simp] theorem pumpFault_mem (c cause : Nat) (val : Word) (s : State) : (pumpFault c cause val s).mem = s.mem := by
  unfold pumpFault; dsimp only; split <;> simp
@[simp] theorem State.trap_mem (s : State) (cause : Nat) (val : Word) : (s.trap cause val).mem = s.mem := by
  unfold State.trap; split <;> simp
@[simp] theorem State.pauseTimed_mem (s : State) (cl : Nat) : (s.pauseTimed cl).mem = s.mem := by simp [State.pauseTimed]
@[simp] theorem State.pauseSlices_mem (s : State) (cl : Nat) : (s.pauseSlices cl).mem = s.mem := by simp [State.pauseSlices]
@[simp] theorem State.resumeTimed_mem (s : State) (cl : Nat) : (s.resumeTimed cl).mem = s.mem := by
  unfold State.resumeTimed
  refine State.foldl_mem _ _ _ fun u x => ?_
  split
  simp
@[simp] theorem haltCluster_mem (cl from_ src : Nat) (ext : Bool) (s : State) : (haltCluster cl from_ src ext s).mem = s.mem := by
  grind [haltCluster, State.forUpto_mem, State.modCluster_mem, State.later_mem, traceEvent_mem, State.pauseTimed_mem, State.pauseSlices_mem]
@[simp] theorem breakHalt_mem (h : Nat) (s : State) : (breakHalt h s).mem = s.mem := by simp [breakHalt]
@[simp] theorem breaks_mem (h : Nat) (s : State) : (breaks h s).mem = s.mem := by simp [breaks]

/-! ### Translation -/

@[simp] theorem State.sliceRoom_mem (s : State) (sl key : Nat) : (s.sliceRoom sl key).mem = s.mem := by simp [State.sliceRoom]
@[simp] theorem State.agentRoom_mem (s : State) (line : Nat) : (s.agentRoom line).mem = s.mem := by simp [State.agentRoom]
@[simp] theorem State.holdLine_mem (s : State) (key : Nat) (ks : Option Nat) : (s.holdLine key ks).mem = s.mem := by
  unfold State.holdLine; split <;> simp
@[simp] theorem State.holdLines_mem (s : State) (key n : Nat) (ks : Option Nat) : (s.holdLines key n ks).mem = s.mem := by
  simp [State.holdLines]
@[simp] theorem State.fillTlb_mem (s : State) (v : View) (e : TlbEntry) : (s.fillTlb v e).mem = s.mem := by
  unfold State.fillTlb; split <;> rfl
@[simp] theorem State.afterWalk_mem (s : State) (v : View) (tr : WalkTrace) : (s.afterWalk v tr).mem = s.mem := by simp [State.afterWalk]
@[simp] theorem State.modMiss_mem (s : State) (die id : Nat) (f : Miss → Miss) : (s.modMiss die id f).mem = s.mem := by simp [State.modMiss]
@[simp] theorem State.walkOn_mem (s : State) (die id n : Nat) : (s.walkOn die id n).mem = s.mem := by
  unfold State.walkOn
  repeat' split
  all_goals simp
@[simp] theorem State.walkBegins_mem (s : State) (die id : Nat) : (s.walkBegins die id).mem = s.mem := by simp [State.walkBegins]
@[simp] theorem State.joins_mem (s : State) (v : View) (va : Nat) (f : Miss → Miss) : (s.joins v va f).mem = s.mem := by
  unfold State.joins; split <;> simp
@[simp] theorem State.engineJoins_mem (s : State) (v : View) (va : Nat) (acc : Access) : (s.engineJoins v va acc).mem = s.mem := by
  simp [State.engineJoins]

/-! ### Homes, locks and coherence -/

@[simp] theorem State.recordWrite_mem (s : State) (w : Landing) : (s.recordWrite w).mem = s.mem := by
  unfold State.recordWrite
  refine State.foldl_mem _ _ _ fun u x => ?_
  dsimp only
  repeat' split
  all_goals simp
@[simp] theorem State.recordWrites_mem (s : State) (core : Option Nat) (first len delay : Nat) :
    (s.recordWrites core first len delay).mem = s.mem := by simp [State.recordWrites]
@[simp] theorem State.landWell_mem (s : State) (core off : Nat) (bs : List Byte) (delay : Nat) : (s.landWell core off bs delay).mem = s.mem := by
  simp [State.landWell]
@[simp] theorem State.wakeCounters_mem (s : State) (key n : Nat) : (s.wakeCounters key n).mem = s.mem := by
  unfold State.wakeCounters
  refine State.foldl_mem _ _ _ fun u x => ?_
  dsimp only
  repeat' split
  all_goals simp
@[simp] theorem State.noteWait_mem (s : State) (who : Waiter) (key : Nat) (write : Bool) (us : List LockUnit) :
    (s.noteWait who key write us).mem = s.mem := by simp [State.noteWait]
@[simp] theorem State.dropWait_mem (s : State) (who : Waiter) : (s.dropWait who).mem = s.mem := by simp [State.dropWait]
@[simp] theorem State.atUnits_mem (s : State) (who : Waiter) (key : Nat) (write : Bool) (us : List LockUnit) (wait go : State → State)
    (hwait : ∀ (u : State), (wait u).mem = u.mem) (hgo : ∀ (u : State), (go u).mem = u.mem) :
    (s.atUnits who key write us wait go).mem = s.mem := by simp [State.atUnits, hwait, hgo]
@[simp] theorem State.pruneLocks_mem (s : State) : s.pruneLocks.mem = s.mem := by simp [State.pruneLocks]
@[simp] theorem State.raceCheck_mem (s : State) (c ctx : Nat) (write : Bool) (segs : List (Nat × Nat × Nat)) :
    (s.raceCheck c ctx write segs).2.mem = s.mem := by
  unfold State.raceCheck
  dsimp only
  repeat' split
  all_goals simp
@[simp] theorem State.raceClear_mem (s : State) (c : Nat) : (s.raceClear c).mem = s.mem := by simp [State.raceClear]
@[simp] theorem State.windowSet_mem (s : State) : s.windowSet.mem = s.mem := by simp [State.windowSet]
@[simp] theorem State.admitAt_mem (s : State) (w : InjWait) (f : State → State) (hf : ∀ (u : State), (f u).mem = u.mem) :
    (s.admitAt w f).mem = s.mem := by simp [State.admitAt, hf]
@[simp] theorem State.leavesCluster_mem (s : State) (h b after : Nat) (e : Event) (f : State → State) (kind : Nat)
    (hf : ∀ (u : State), (f u).mem = u.mem) : (s.leavesCluster h b after e f kind).mem = s.mem := by simp [State.leavesCluster, hf]
@[simp] theorem State.leavesCluster_later_mem (s : State) (h b after n : Nat) (e e' : Event) (kind : Nat) :
    (s.leavesCluster h b after e (fun s => s.later n e') kind).mem = s.mem := State.leavesCluster_mem _ _ _ _ _ _ _ fun _ => rfl
@[simp] theorem State.arrivesAt_mem (s : State) (line b : Nat) (e : Event) (f : State → State) (hf : ∀ (u : State), (f u).mem = u.mem) :
    (s.arrivesAt line b e f).mem = s.mem := by
  unfold State.arrivesAt; split <;> simp [hf]
@[simp] theorem State.addDelayAt_mem (s : State) (core bank n at_ : Nat) : (s.addDelayAt core bank n at_).mem = s.mem := by
  simp [State.addDelayAt]
@[simp] theorem State.addDelay_mem (s : State) (core bank n : Nat) : (s.addDelay core bank n).mem = s.mem := by simp [State.addDelay]
@[simp] theorem State.answered_mem (s : State) (h key field : Nat) : (s.answered h key field).mem = s.mem := by
  unfold State.answered; split <;> rfl
@[simp] theorem State.depart_mem (s : State) (r : FarReq) (delay : Nat) : (s.depart r delay).mem = s.mem := by simp [State.depart]
@[simp] theorem State.leave_mem (s : State) (r : FarReq) (delay : Nat) : (s.leave r delay).mem = s.mem := by
  unfold State.leave; split <;> simp
@[simp] theorem State.sendFar_mem (s : State) (r : FarReq) (delay : Nat) : (s.sendFar r delay).mem = s.mem := by simp [State.sendFar]
@[simp] theorem State.flush_mem (s : State) (h : Nat) (p : Nat → Bool) : (s.flush h p).mem = s.mem := by
  grind [State.flush, State.foldlFst_mem, State.modCore_mem, State.sendFar_mem]
@[simp] theorem State.makeRoom_mem (s : State) (h : Nat) : (s.makeRoom h).mem = s.mem := by
  unfold State.makeRoom
  dsimp only
  repeat' split
  all_goals simp
@[simp] theorem State.fillSector_mem (s : State) (h n ks : Nat) (bs : List Byte) : (s.fillSector h n ks bs).mem = s.mem := by
  simp [State.fillSector]
@[simp] theorem State.putSector_mem (s : State) (h key ks : Nat) (bs : List Byte) (clean : Bool) :
    (s.putSector h key ks bs clean).mem = s.mem := by simp [State.putSector]
@[simp] theorem State.refresh_mem (s : State) (core key : Nat) (bs : List Byte) : (s.refresh core key bs).mem = s.mem := by
  unfold State.refresh; dsimp only; split <;> simp
@[simp] theorem State.ordered_mem (s : State) (afterRel : Bool) (f : State → State) (hf : ∀ (u : State), (f u).mem = u.mem) :
    (s.ordered afterRel f).mem = s.mem := by simp [State.ordered, hf]
@[simp] theorem State.gated_mem (s : State) (afterRel : Bool) (f : State → State) (hf : ∀ (u : State), (f u).mem = u.mem) :
    (s.gated afterRel f).mem = s.mem := by simp [State.gated, hf]
@[simp] theorem State.releaseBegin_mem (s : State) (a : Agent) (scope : Nat) : (s.releaseBegin a scope).mem = s.mem := by
  unfold State.releaseBegin; split <;> simp
@[simp] theorem State.released_mem (s : State) (a : Agent) (scope : Nat) : (s.released a scope).mem = s.mem := by
  unfold State.released; split <;> simp
@[simp] theorem State.retires_mem (s : State) (q : Option Nat) : (s.retires q).mem = s.mem := by
  grind [State.retires, State.elim_mem, State.released_mem]
@[simp] theorem State.dropClean_mem (s : State) (h scope : Nat) : (s.dropClean h scope).mem = s.mem := by simp [State.dropClean]
@[simp] theorem State.forgets_mem (s : State) (h scope : Nat) : (s.forgets h scope).mem = s.mem := by simp [State.forgets]
@[simp] theorem State.acquire_mem (s : State) (h scope : Nat) : (s.acquire h scope).mem = s.mem := by simp [State.acquire]
@[simp] theorem State.withRelease_mem (s : State) (scope : Nat) (f : State → State) (hf : ∀ (u : State), (f u).mem = u.mem) :
    (s.withRelease scope f).mem = s.mem := by
  unfold State.withRelease; split <;> simp [hf]
@[simp] theorem State.sendReleasing_mem (s : State) (r : FarReq) (scope delay : Nat) : (s.sendReleasing r scope delay).mem = s.mem := by
  simp [State.sendReleasing]
@[simp] theorem State.sendWith_mem (s : State) (rel : Option Nat) (r : FarReq) (delay : Nat) : (s.sendWith rel r delay).mem = s.mem := by
  unfold State.sendWith; split <;> simp
@[simp] theorem State.threadJoins_mem (s : State) (h : Nat) (va : Word) (acc : Access) : (s.threadJoins h va acc).mem = s.mem := by
  simp [State.threadJoins]
@[simp] theorem State.awaitLevel_mem (s : State) (n : Nat) (va : Word) (acc : Access) : (s.awaitLevel n va acc).mem = s.mem := by
  simp [State.awaitLevel]

/-! ### Control registers -/

@[simp] theorem State.writeWellwin_mem (s : State) (core : Nat) (v : Word) : (s.writeWellwin core v).mem = s.mem := by
  simp [State.writeWellwin]
@[simp] theorem State.writeDelaySel_mem (s : State) (core : Nat) (v : Word) : (s.writeDelaySel core v).mem = s.mem := by
  simp [State.writeDelaySel]
@[simp] theorem State.csrWrite_mem (s : State) (h n : Nat) (v : Word) : (s.csrWrite h n v).mem = s.mem := by simp [State.csrWrite]
@[simp] theorem State.trapRegWrite_mem (s : State) (h n : Nat) (v : Word) : (s.trapRegWrite h n v).mem = s.mem := by
  simp [State.trapRegWrite]
@[simp] theorem State.seeInterrupts_mem (s : State) (core n : Nat) : (s.seeInterrupts core n).mem = s.mem := by simp [State.seeInterrupts]

/-! ### Flags -/

@[simp] theorem raiseFl_mem (h : Nat) (f : Fl) (s : State) : (raiseFl h f s).mem = s.mem := by simp [raiseFl]

/-! ### Control transfers -/

@[simp] theorem transferTo_mem (t : Word) (s : State) (f : State → State) (hf : ∀ (u : State), (f u).mem = u.mem) :
    (transferTo t s f).mem = s.mem := by
  unfold transferTo
  dsimp only
  repeat' split
  all_goals simp [hf]

/-! ### System instructions -/

@[simp] theorem State.invalidate_mem (s : State) (p : Nat) (va ctl : Word) : (s.invalidate p va ctl).mem = s.mem := by
  simp [State.invalidate]
@[simp] theorem nextMiss_mem (die : Nat) (s : State) : (nextMiss die s).mem = s.mem := by
  unfold nextMiss; split <;> simp
@[simp] theorem State.itemWrite_mem (s : State) (h : Nat) (sel v : Word) : (s.itemWrite h sel v).mem = s.mem := by
  unfold State.itemWrite; split <;> simp
@[simp] theorem State.resume_mem (s : State) (h : Nat) : (s.resume h).mem = s.mem := by simp [State.resume]
@[simp] theorem supEffect_mem (op : SupOp) (s : State) : (supEffect op s).2.mem = s.mem := by
  unfold supEffect
  dsimp only
  repeat' split
  all_goals simp

/-! ### Synchronization -/

@[simp] theorem State.place_mem (s : State) (h : Nat) (t : Thread) : (s.place h t).mem = s.mem := by simp [State.place]
@[simp] theorem leaveGangWait_mem (h n : Nat) (s : State) : (leaveGangWait h n s).mem = s.mem := by simp [leaveGangWait]
@[simp] theorem State.offerSlot_mem (s : State) (dst n : Nat) : (s.offerSlot dst n).mem = s.mem := by
  unfold State.offerSlot
  refine State.foldl_mem _ _ _ fun u x => ?_
  dsimp only
  repeat' split
  all_goals simp
@[simp] theorem State.freeSlot_mem (s : State) (dst n : Nat) : (s.freeSlot dst n).mem = s.mem := by simp [State.freeSlot]
theorem State.claimSlot_mem (s t : State) (src dst n : Nat) (h : s.claimSlot src dst n = some t) : t.mem = s.mem := by
  unfold State.claimSlot at h
  dsimp only at h
  split at h <;> cases h
  rfl
@[simp] theorem State.sendFlit_mem (s : State) (dst n : Nat) (f : Flit) : (s.sendFlit dst n f).mem = s.mem := by simp [State.sendFlit]
@[simp] theorem takeFlit_mem (n : BitVec 2) (a d : Reg) (s : State) (empty : State → State) (hempty : ∀ (u : State), (empty u).mem = u.mem)
    : (takeFlit n a d s empty).mem = s.mem := by
  unfold takeFlit; split <;> simp [hempty]
@[simp] theorem State.armed_mem (s : State) (n : Nat) (p : MonPlace) : (s.armed n p).mem = s.mem := by simp [State.armed]
@[simp] theorem finMwait_mem (h v : Nat) (s : State) : (finMwait h v s).mem = s.mem := by
  unfold finMwait; split <;> simp
@[simp] theorem finCntw_mem (h v : Nat) (s : State) : (finCntw h v s).mem = s.mem := by
  unfold finCntw; split <;> simp
@[simp] theorem State.setBar_mem (s : State) (cl ctx b : Nat) (x : Barrier) : (s.setBar cl ctx b x).mem = s.mem := by simp [State.setBar]
@[simp] theorem arrives_mem (b : Reg) (a : Reg) (bara : Bool) (d : Reg) (s : State) : (arrives b a bara d s).mem = s.mem := by
  simp [arrives]
@[simp] theorem keptArrival_mem (again : Bool) (w : BarArr) (d : Reg) (s : State) : (keptArrival again w d s).mem = s.mem := by
  unfold keptArrival
  repeat' split
  all_goals simp
@[simp] theorem withdrawArrival_mem (h : Nat) (w : BarArr) (s : State) : (withdrawArrival h w s).mem = s.mem := by simp [withdrawArrival]
@[simp] theorem unarrive_mem (m : Nat) (s : State) : (unarrive m s).mem = s.mem := by
  unfold unarrive
  repeat' split
  all_goals simp
@[simp] theorem finBara_mem (h v : Nat) (s : State) : (finBara h v s).mem = s.mem := by
  unfold finBara; split <;> rfl
@[simp] theorem finBarrier_mem (h v : Nat) (s : State) : (finBarrier h v s).mem = s.mem := by
  unfold finBarrier; split <;> simp
@[simp] theorem arrivalMade_mem (h b count : Nat) (bara : Bool) (rd : Reg) (s : State) : (arrivalMade h b count bara rd s).mem = s.mem := by
  unfold arrivalMade
  dsimp only
  repeat' split
  all_goals simp
@[simp] theorem finArrival_mem (h v : Nat) (s : State) : (finArrival h v s).mem = s.mem := by
  unfold finArrival; split <;> simp
@[simp] theorem State.enterInbox_mem (s : State) (core : Nat) (m : Msg) : (s.enterInbox core m).mem = s.mem := by
  unfold State.enterInbox
  refine State.foldl_mem _ _ _ fun u x => ?_
  dsimp only
  repeat' split
  all_goals simp
@[simp] theorem takeMsg_mem (a d : Reg) (s : State) (empty : State → State) (hempty : ∀ (u : State), (empty u).mem = u.mem) :
    (takeMsg a d s empty).mem = s.mem := by
  unfold takeMsg
  dsimp only
  repeat' split
  all_goals simp [hempty]

/-! ### Loads and stores -/

@[simp] theorem earlyAnswer_mem (h sent : Nat) (v : Word) (s : State) : (earlyAnswer h sent v s).mem = s.mem := by
  unfold earlyAnswer; split <;> rfl
@[simp] theorem deliver_mem (r : FarReq) (rd : Nat) (usable : Option (Option Nat)) (v : Word) (s : State) :
    (deliver r rd usable v s).mem = s.mem := by
  unfold deliver
  repeat' split
  all_goals simp
@[simp] theorem State.ownDevice_mem (s : State) (a : Word) (p : Phys) (f : State → State) (hf : ∀ (u : State), (f u).mem = u.mem) :
    (s.ownDevice a p f).mem = s.mem := by
  unfold State.ownDevice; split <;> simp [hf]
@[simp] theorem raceTrap_mem (ord : Option Nat) (h : Nat) (a : Word) (n : Nat) (write : Bool) (s : State) (f : State → State)
    (hf : ∀ (u : State), (f u).mem = u.mem) : (raceTrap ord h a n write s f).mem = s.mem := by
  grind [raceTrap, State.trap_mem, State.raceCheck_mem]
@[simp] theorem pumpReadDone_mem (r : FarReq) (off : Nat) (bs : List Byte) (s : State) : (pumpReadDone r off bs s).mem = s.mem := by
  unfold pumpReadDone; split <;> simp
@[simp] theorem performWell_mem (r : FarReq) (s : State) : (performWell r s).mem = s.mem := by
  unfold performWell
  repeat' split
  all_goals simp
@[simp] theorem amoFlags_mem (r : FarReq) (f : Fl) (s : State) : (amoFlags r f s).mem = s.mem := by
  unfold amoFlags; split <;> simp
@[simp] theorem writesLater_mem (r : FarReq) (new : List Byte) (s : State) : (writesLater r new s).2.mem = s.mem := by simp [writesLater]
@[simp] theorem redNew_mem (r : FarReq) (op : AmoOp) (n : Nat) (b : Word) (s : State) : (redNew r op n b s).2.2.mem = s.mem := by
  unfold redNew; split <;> rfl
@[simp] theorem leaveReleased_mem (r : FarReq) (s : State) : (leaveReleased r s).mem = s.mem := by simp [leaveReleased]
@[simp] theorem failThread_mem (h sent insn : Nat) (va : Word) (s : State) : (failThread h sent insn va s).mem = s.mem := by
  simp [failThread]
@[simp] theorem failFar_mem (r : FarReq) (s : State) : (failFar r s).mem = s.mem := by
  unfold failFar; split <;> simp
@[simp] theorem State.snoops_mem (s : State) (r : FarReq) : (s.snoops r).2.mem = s.mem := by
  unfold State.snoops
  dsimp only
  repeat' split
  all_goals simp
@[simp] theorem performNear_mem (r : FarReq) (s : State) : (performNear r s).mem = s.mem := by
  unfold performNear
  repeat' split
  all_goals simp

/-! ### Atomics -/

@[simp] theorem State.dropSector_mem (s : State) (key : Nat) : (s.dropSector key).mem = s.mem := by
  unfold State.dropSector; split <;> simp

/-! ### Tensor descriptors -/

@[simp] theorem State.holdSegs_mem (s : State) (l : List Seg) : (s.holdSegs l).mem = s.mem := by
  unfold State.holdSegs
  refine State.foldl_mem _ _ _ fun u x => ?_
  split <;> simp
@[simp] theorem State.tileAnswered_mem (s : State) (a : TAcc) : (s.tileAnswered a).mem = s.mem := by
  unfold State.tileAnswered
  refine State.foldl_mem _ _ _ fun u x => ?_
  split <;> simp
@[simp] theorem State.setTensor_mem (s : State) (c t : Nat) (d : Option Desc) : (s.setTensor c t d).mem = s.mem := by simp [State.setTensor]
@[simp] theorem State.awaitAcks_mem (s : State) (h : Nat) : (s.awaitAcks h).mem = s.mem := by
  unfold State.awaitAcks
  refine State.foldl_mem _ _ _ fun u x => ?_
  split <;> simp
@[simp] theorem startDescRead_mem (a : TAcc) (n : Nat) (s : State) : (startDescRead a n s).mem = s.mem := by
  grind [startDescRead, State.fresh_mem, State.later_mem, State.leavesCluster_mem]
@[simp] theorem tableAnswer_mem (h t left : Nat) (d : Option Desc) (s : State) : (tableAnswer h t left d s).mem = s.mem := by
  simp [tableAnswer]
@[simp] theorem State.descRead_mem (s : State) (h : Nat) (bs : List Byte) : (s.descRead h bs).mem = s.mem := by
  unfold State.descRead
  repeat' split
  all_goals simp

/-! ### Tile accesses -/

@[simp] theorem State.setDraw_mem (s : State) (core num : Nat) (d : Draw) : (s.setDraw core num d).mem = s.mem := by simp [State.setDraw]
@[simp] theorem State.fillEntry_mem (s : State) (h q id : Nat) (bs : List Byte) : (s.fillEntry h q id bs).mem = s.mem := by
  simp [State.fillEntry]
@[simp] theorem State.tileLeaves_mem (s : State) (id : Nat) (a : TAcc) (n : Nat) : (s.tileLeaves id a n).mem = s.mem := by
  grind [State.tileLeaves, State.later_mem, State.leavesCluster_mem]
@[simp] theorem State.startTile_mem (s : State) (a : TAcc) (n : Nat) : (s.startTile a n).mem = s.mem := by simp [State.startTile]
@[simp] theorem landDrawRead_mem (id : Nat) (a : TAcc) (buf : List Byte) (s : State) : (landDrawRead id a buf s).mem = s.mem := by
  unfold landDrawRead; split <;> rfl
@[simp] theorem State.copyTileAnswered_mem (s : State) (id : Nat) (a : TAcc) : (s.copyTileAnswered id a).mem = s.mem := by
  simp [State.copyTileAnswered]
@[simp] theorem State.own_mem (s : State) (u : LockUnit) : (s.own u).mem = s.mem := by
  cases u <;> simp [State.own]
@[simp] theorem failTile_mem (id : Nat) (a : TAcc) (u : LockUnit) (s : State) : (failTile id a u s).mem = s.mem := by
  unfold failTile
  dsimp only
  repeat' split
  all_goals simp

/-! ### Queues -/

@[simp] theorem State.modQueue_mem (s : State) (core pair q : Nat) (f : Queue → Queue) : (s.modQueue core pair q f).mem = s.mem := by
  simp [State.modQueue]
@[simp] theorem State.wakePartner_mem (s : State) (h cycle : Nat) : (s.wakePartner h cycle).mem = s.mem := by
  unfold State.wakePartner; split <;> rfl
@[simp] theorem State.partnerGoesOn_mem (s : State) (h : Nat) : (s.partnerGoesOn h).mem = s.mem := by
  unfold State.partnerGoesOn; dsimp only; split <;> simp
@[simp] theorem blockOnQueue_mem (q : Nat) (s : State) : (blockOnQueue q s).mem = s.mem := by
  grind [blockOnQueue, State.foldl_mem, State.at__mem, State.blocks_mem]
@[simp] theorem onQueues_mem (i : Instr) (s : State) (f : State → State) (hf : ∀ (u : State), (f u).mem = u.mem) :
    (onQueues i s f).mem = s.mem := by
  unfold onQueues
  repeat' split
  all_goals simp [hf]
@[simp] theorem State.popQueue_mem (s : State) (h q : Nat) : (s.popQueue h q).2.mem = s.mem := by simp [State.popQueue]
@[simp] theorem State.pushQueue_mem (s : State) (h q : Nat) (v : VReg) (at_ : Nat) (wait : Option Nat) :
    (s.pushQueue h q v at_ wait).mem = s.mem := by simp [State.pushQueue]
@[simp] theorem State.takeOperands_mem (s : State) (rs : List Reg) : (s.takeOperands rs).2.mem = s.mem := by
  grind [State.takeOperands, State.foldlSnd_mem, State.popQueue_mem]
@[simp] theorem State.putV_mem (s : State) (d : Reg) (v : VReg) : (s.putV d v).mem = s.mem := by simp [State.putV]
@[simp] theorem startTransfer_mem (h c off : Nat) (bs : List Byte) (done : TDone) (s : State) :
    (startTransfer h c off bs done s).mem = s.mem := by simp [startTransfer]
@[simp] theorem transfer_mem (i : Instr) (c off : Nat) (write : Bool) (s : State) (f : State → State)
    (hf : ∀ (u : State), (f u).mem = u.mem) : (transfer i c off write s f).mem = s.mem := by
  unfold transfer; dsimp only; split <;> simp [hf]

/-! ### Work -/

@[simp] theorem State.nodeCheck_mem (s : State) (c : Nat) (q : Option Nat) : (s.nodeCheck c q).mem = s.mem := by
  unfold State.nodeCheck; split <;> simp
@[simp] theorem State.ctxCheck_mem (s : State) (c : Nat) : (s.ctxCheck c).mem = s.mem := by
  unfold State.ctxCheck; split <;> simp
@[simp] theorem State.retryNodes_mem (s : State) (c : Nat) : (s.retryNodes c).mem = s.mem := by
  unfold State.retryNodes; split <;> simp
@[simp] theorem State.giveUpTask_mem (s : State) (h : Nat) : (s.giveUpTask h).mem = s.mem := by
  unfold State.giveUpTask; split <;> rfl
@[simp] theorem State.dropFlits_mem (s : State) (h : Nat) : (s.dropFlits h).mem = s.mem := by simp [State.dropFlits]
@[simp] theorem State.noteEnd_mem (s : State) (h : Nat) : (s.noteEnd h).mem = s.mem := by
  unfold State.noteEnd; dsimp only; split <;> simp
@[simp] theorem State.endThread_mem (s : State) (h : Nat) : (s.endThread h).mem = s.mem := by simp [State.endThread]

/-! ### Draws -/

@[simp] theorem State.claims_mem (s : State) (core num seq : Nat) : (s.claims core num seq).mem = s.mem := by simp [State.claims]
@[simp] theorem startDraw_mem (d : Desc) (b : Block) (num : Nat) (rd : Reg) (s : State) : (startDraw d b num rd s).mem = s.mem := by
  simp [startDraw]
@[simp] theorem slotsEnd_mem (core : Nat) (d : Draw) (s : State) : (slotsEnd core d s).mem = s.mem := by simp [slotsEnd]
@[simp] theorem State.finishDraw_mem (s : State) (core num n : Nat) (d : Draw) : (s.finishDraw core num n d).mem = s.mem := by
  simp [State.finishDraw]
@[simp] theorem State.takeTurn_mem (s : State) (c core num : Nat) (d : Draw) : (s.takeTurn c core num d).mem = s.mem := by
  simp [State.takeTurn]
@[simp] theorem State.countPassed_mem (s : State) (c core num : Nat) : (s.countPassed c core num).mem = s.mem := by
  unfold State.countPassed
  refine State.foldl_mem _ _ _ fun u x => ?_
  dsimp only
  repeat' split
  all_goals simp
@[simp] theorem startBody_mem (core num slot idx : Nat) (s : State) : (startBody core num slot idx s).mem = s.mem := by
  unfold startBody
  repeat' split
  all_goals simp
@[simp] theorem countTile_mem (core num slot : Nat) (d : Draw) (s : State) : (countTile core num slot d s).mem = s.mem := by
  simp [countTile]
@[simp] theorem endDraw_mem (core num : Nat) (d : Draw) (s : State) : (endDraw core num d s).mem = s.mem := by simp [endDraw]

/-! ### Copies -/

@[simp] theorem State.setCopy_mem (s : State) (id : Nat) (c : Copy) : (s.setCopy id c).mem = s.mem := by simp [State.setCopy]
@[simp] theorem State.noteFrozen_mem (s : State) (cl : Nat) : (s.noteFrozen cl).mem = s.mem := by simp [State.noteFrozen]
@[simp] theorem State.copyAnswered_mem (s : State) (c : Copy) (key waited : Nat) : (s.copyAnswered c key waited).mem = s.mem := by
  simp [State.copyAnswered]
@[simp] theorem copyPasses_mem (tag : Nat) (c : Copy) (s : State) (at_ : (State → State) → State → State)
    (hat : ∀ u, (at_ (fun s => s) u).mem = u.mem) : (copyPasses tag c s at_).2.mem = s.mem := by
  unfold copyPasses
  split <;> simp [hat]
@[simp] theorem reportCopy_mem (id : Nat) (c : Copy) (s : State) : (reportCopy id c s).mem = s.mem := by
  unfold reportCopy
  repeat' split
  all_goals simp

/-! ### Special functions -/

@[simp] theorem State.sfuNext_mem (s : State) (core : Nat) : (s.sfuNext core).mem = s.mem := by
  unfold State.sfuNext; dsimp only; split <;> simp
@[simp] theorem sfuBack_mem (h : Nat) (s : State) : (sfuBack h s).mem = s.mem := by simp [sfuBack]
@[simp] theorem finSfu_mem (h v : Nat) (s : State) : (finSfu h v s).mem = s.mem := by
  unfold finSfu; split <;> simp

/-! ### Hashing -/

@[simp] theorem State.modHash_mem (s : State) (h : Nat) (f : HashWait → HashWait) : (s.modHash h f).mem = s.mem := by simp [State.modHash]
@[simp] theorem putHash_mem (h : Nat) (w : HashWait) (v : VReg) (s : State) : (putHash h w v s).mem = s.mem := by
  unfold putHash; split <;> simp
@[simp] theorem hashRetires_mem (h : Nat) (s : State) : (hashRetires h s).mem = s.mem := by
  unfold hashRetires; split <;> simp
@[simp] theorem hashBack_mem (h : Nat) (s : State) : (hashBack h s).mem = s.mem := by
  grind [hashBack, State.foldl_mem, State.modQueue_mem]
@[simp] theorem hashDone_mem (h : Nat) (v : VReg) (s : State) : (hashDone h v s).mem = s.mem := by simp [hashDone]
@[simp] theorem hashTrap_mem (h cause : Nat) (v : Word) (s : State) : (hashTrap h cause v s).mem = s.mem := by simp [hashTrap]
@[simp] theorem atTable_mem (h : Nat) (us : List LockUnit) (write : Bool) (s : State) (f : State → State)
    (hf : ∀ (u : State), (f u).mem = u.mem) : (atTable h us write s f).mem = s.mem := by
  grind [atTable, State.later_mem, State.atUnits_mem]
@[simp] theorem State.hashBad_mem (s : State) (h owner : Nat) (d : Desc) (write : Bool) (ns : List Nat) :
    (s.hashBad h owner d write ns).2.mem = s.mem := by
  unfold State.hashBad; split <;> simp
theorem haccLane_mem (h owner : Nat) (d : Desc) (k v i : Nat) (s t : State) (f : Fl) (e : haccLane h owner d k v i s = .ok (t, f)) :
    t.mem = s.mem := by
  have bad := State.hashBad_mem s h owner d true (s.touched owner d false k)
  grind [haccLane, State.landWell_mem]
@[simp] theorem haccNow_mem (h : Nat) (w : HashWait) (s : State) (next : State → State) (hnext : ∀ u, (next u).mem = u.mem) :
    (haccNow h w s next).mem = s.mem := by
  unfold haccNow
  dsimp only
  split
  · simp
  · rename_i e
    have e := haccLane_mem _ _ _ _ _ _ _ _ _ e
    repeat' split
    all_goals simp [hnext, e]
@[simp] theorem haccStep_mem (h : Nat) (w : HashWait) (s : State) : (haccStep h w s).mem = s.mem := by
  grind [haccStep, State.later_mem, atTable_mem, haccNow_mem]
@[simp] theorem haccAll_mem (h n : Nat) : ∀ s, (haccAll h n s).mem = s.mem := by
  induction n with
  | zero => intro s; rfl
  | succ n ih =>
    intro s
    unfold haccAll
    split <;> simp [ih]
@[simp] theorem hlookNow_mem (h : Nat) (w : HashWait) (s : State) : (hlookNow h w s).mem = s.mem := by
  grind [hlookNow, hashDone_mem, hashTrap_mem, State.hashBad_mem]
@[simp] theorem hclrNow_mem (h : Nat) (w : HashWait) (s : State) : (hclrNow h w s).mem = s.mem := by
  grind [hclrNow, State.landWell_mem, State.raceCheck_mem, hashDone_mem, hashTrap_mem]
@[simp] theorem hashNow_mem (h : Nat) (w : HashWait) (s : State) : (hashNow h w s).mem = s.mem := by
  unfold hashNow; split <;> simp
@[simp] theorem finHash_mem (h v : Nat) (s : State) : (finHash h v s).mem = s.mem := by
  unfold finHash; split <;> simp
@[simp] theorem hashInGang_mem (h : Nat) (w : HashWait) (s : State) : (hashInGang h w s).mem = s.mem := by simp [hashInGang]

/-! ### Cisterns -/

@[simp] theorem moveEffect_mem (c : Nat) (m : RowMove) (s : State) : (moveEffect c m s).mem = s.mem := by
  unfold moveEffect; split <;> rfl
@[simp] theorem performMoves_mem (c : Nat) (s : State) : (performMoves c s).mem = s.mem := by simp [performMoves]
@[simp] theorem finVwaitc_mem (h v : Nat) (s : State) : (finVwaitc h v s).mem = s.mem := by simp [finVwaitc]
@[simp] theorem vwaitcEnds_mem (h : Nat) (s : State) : (vwaitcEnds h s).mem = s.mem := by
  unfold vwaitcEnds; dsimp only; split <;> simp
@[simp] theorem countDown_mem (h : Nat) (s : State) : (countDown h s).mem = s.mem := by simp [countDown]
@[simp] theorem State.startMove_mem (s : State) (h tile : Nat) (op : CisOp) (n : Nat) : (s.startMove h tile op n).mem = s.mem := by
  simp [State.startMove]
@[simp] theorem tileOp_mem (tile : Nat) (op : CisOp) (s : State) : (tileOp tile op s).mem = s.mem := by simp [tileOp]
@[simp] theorem State.modMldc_mem (s : State) (c tile : Nat) (f : MldcHold → MldcHold) : (s.modMldc c tile f).mem = s.mem := by
  simp [State.modMldc]
@[simp] theorem mldcArrives_mem (h tile : Nat) (r : TileRef) (rows : List VReg) (s : State) : (mldcArrives h tile r rows s).mem = s.mem := by
  simp [mldcArrives]
@[simp] theorem storeRows_mem (r : TileRef) (rows : List (List Nat)) (s : State) : (storeRows r rows s).mem = s.mem := by simp [storeRows]

/-! ### Matrix instructions -/

@[simp] theorem State.modJob_mem (s : State) (h : Nat) (f : MatJob → MatJob) : (s.modJob h f).mem = s.mem := by
  unfold State.modJob; split <;> rfl
@[simp] theorem State.modPrep_mem (s : State) (h idx : Nat) (f : Prep → Prep) : (s.modPrep h idx f).mem = s.mem := by simp [State.modPrep]
@[simp] theorem holdFault_mem (h idx cause : Nat) (v : Word) (n : Nat) (s : State) : (holdFault h idx cause v n s).mem = s.mem := by
  simp [holdFault]
@[simp] theorem holdError_mem (h idx : Nat) (v : Word) (s : State) : (holdError h idx v s).mem = s.mem := by simp [holdError]
@[simp] theorem State.fetchJoins_mem (s : State) (h : Nat) (l : List (Word × Nat)) : (s.fetchJoins h l).mem = s.mem := by
  simp [State.fetchJoins]
@[simp] theorem fetchedLines_mem (h idx n : Nat) (ls : List (Nat × Nat)) (s : State) : (fetchedLines h idx n ls s).mem = s.mem := by
  unfold fetchedLines
  refine State.foldl_mem _ _ _ fun u x => ?_
  dsimp only
  repeat' split
  all_goals simp
@[simp] theorem fetchArrives_linesEnter_mem (h : Nat) (j : MatJob) (idx kind : Nat) (ls : List Nat) :
    ∀ (n : Nat) (s : State) (f : State → State), (∀ u, (f u).mem = u.mem) → (fetchArrives.linesEnter h j idx kind ls n s f).mem = s.mem := by
  induction ls with
  | nil => intro n s f hf; exact hf s
  | cons l ls ih =>
    intro n s f hf
    unfold fetchArrives.linesEnter
    dsimp only
    split
    · exact ih _ _ _ hf
    · simp [ih _ _ _ hf]
@[simp] theorem fetchArrives_mem (h : Nat) (j : MatJob) (idx kind : Nat) (l : List (Word × Nat)) (wait : Nat → State → State) (s : State)
    (go : State → State) (hwait : ∀ n u, (wait n u).mem = u.mem) (hgo : ∀ u, (go u).mem = u.mem) :
    (fetchArrives h j idx kind l wait s go).mem = s.mem := by
  unfold fetchArrives
  refine fetchArrives_linesEnter_mem h j idx kind _ _ _ _ fun u => ?_
  split
  · simp [hwait]
  · split
    · exact hwait 1 u
    · refine State.atUnits_mem _ _ _ _ _ _ _ (hwait 1) fun u => ?_
      split <;> simp [hgo]
@[simp] theorem fetchLeaves_mem (h idx kind n : Nat) (l : List (Word × Nat)) (set : Option Nat → Prep → Prep) (e : Event) (s : State) :
    (fetchLeaves h idx kind n l set e s).mem = s.mem := by simp [fetchLeaves]
@[simp] theorem State.modMcast_mem (s : State) (cl id : Nat) (f : Mcast → Mcast) : (s.modMcast cl id f).mem = s.mem := by
  simp [State.modMcast]
@[simp] theorem State.cleanMcast_mem (s : State) (cl id : Nat) : (s.cleanMcast cl id).mem = s.mem := by simp [State.cleanMcast]
@[simp] theorem State.offerLaunch_mem (s : State) (cl : Nat) : (s.offerLaunch cl).mem = s.mem := by
  unfold State.offerLaunch
  refine State.foldl_mem _ _ _ fun u x => ?_
  dsimp only
  repeat' split
  all_goals simp
@[simp] theorem State.dropJoins_mem (s : State) (h : Nat) (keep : Bool) (sel : McMember → Bool) : (s.dropJoins h keep sel).mem = s.mem := by
  simp [State.dropJoins]
@[simp] theorem State.watchMember_mem (s : State) (h since : Nat) : (s.watchMember h since).mem = s.mem := by simp [State.watchMember]
@[simp] theorem registerOperand_mem (h since idx : Nat) (isA : Bool) (j : MatJob) (s : State) :
    (registerOperand h since idx isA j s).mem = s.mem := by
  unfold registerOperand
  dsimp only
  repeat' split
  all_goals simp
@[simp] theorem watchCycle_mem (h : Nat) (s : State) : (watchCycle h s).mem = s.mem := by simp [watchCycle]
@[simp] theorem askOperand_mem (h since idx : Nat) (isA : Bool) (r : TileRef) (s : State) : (askOperand h since idx isA r s).mem = s.mem := by
  simp [askOperand]
@[simp] theorem passStep_mem (h idx : Nat) (s : State) : (passStep h idx s).mem = s.mem := by simp [passStep]
@[simp] theorem registerAgain_mem (h : Nat) (s : State) : (registerAgain h s).mem = s.mem := by
  unfold registerAgain
  split
  · rfl
  · refine State.foldl_mem _ _ _ fun u x => ?_
    dsimp only
    generalize e : Option.elim _ u _ = v
    have k : v.mem = u.mem := by
      rw [← e]
      exact State.elim_mem _ _ _ _ (fun r => by split <;> simp) rfl
    split <;> simp [k]
@[simp] theorem prepareStep_mem (h idx : Nat) (s : State) : (prepareStep h idx s).mem = s.mem := by
  unfold prepareStep
  cases s.job h with
  | none => rfl
  | some j =>
    dsimp only
    have ask (isA : Bool) (r : TileRef) (u : State) : (askOperand h j.since idx isA r u).mem = u.mem := askOperand_mem ..
    have asks (u : State) : (j.a.elim u fun a => askOperand h j.since idx true a u).mem = u.mem :=
      State.elim_mem _ _ _ _ (fun a => ask true a u) rfl
    repeat' split
    all_goals simp [asks]
@[simp] theorem takeCodes_mem (h idx : Nat) (j : MatJob) (s : State) : (takeCodes h idx j s).mem = s.mem := by simp [takeCodes]
@[simp] theorem checkScales_mem (h idx : Nat) (j : MatJob) (s : State) : (checkScales h idx j s).mem = s.mem := by
  grind [checkScales, State.later_mem, State.modJob_mem, State.modPrep_mem, holdFault_mem, fetchArrives_mem, passStep_mem]
@[simp] theorem takeOperand_mem (h since idx : Nat) (isA : Bool) (s : State) : (takeOperand h since idx isA s).mem = s.mem := by
  unfold takeOperand
  cases s.jobSince h since with
  | none => rfl
  | some j =>
    refine State.ite_mem_of rfl ?_
    generalize ite (isA = true) j.a (some j.b) = r
    cases r with
    | none =>
      cases (j.prep idx).entry with
      | none => rfl
      | some e => exact fetchArrives_mem _ _ _ _ _ _ _ _ (fun n u => by simp) fun u => by simp
    | some r =>
      refine State.ite_mem_of rfl (State.atUnits_mem _ _ _ _ _ _ _ (fun u => rfl) fun u => ?_)
      split <;> simp
@[simp] theorem fetchBlock_mem (h idx : Nat) (j : MatJob) (blk : Word) (s : State) : (fetchBlock h idx j blk s).mem = s.mem := by
  unfold fetchBlock
  dsimp only
  repeat' split
  all_goals simp
@[simp] theorem entryThere_mem (h idx : Nat) (j : MatJob) (va : Word) (s : State) : (entryThere h idx j va s).mem = s.mem := by
  simp [entryThere]
@[simp] theorem State.endJob_mem (s : State) (h : Nat) : (s.endJob h).mem = s.mem := by simp [State.endJob]
@[simp] theorem trapJob_mem (h cause : Nat) (v : Word) (s : State) : (trapJob h cause v s).mem = s.mem := by simp [trapJob]
@[simp] theorem deliverFaults_mem (c : Nat) (s : State) : (deliverFaults c s).mem = s.mem := by
  unfold deliverFaults
  refine State.foldl_mem _ _ _ fun u x => ?_
  dsimp only
  repeat' split
  all_goals simp
@[simp] theorem endStep_mem (c : Nat) (r : MatRun) (s : State) : (endStep c r s).mem = s.mem := by
  unfold endStep; split <;> simp
@[simp] theorem matrixRetires_mem (h : Nat) (s : State) : (matrixRetires h s).mem = s.mem := by simp [matrixRetires]
@[simp] theorem finMatrix_mem (h v : Nat) (s : State) : (finMatrix h v s).mem = s.mem := by simp [finMatrix]
@[simp] theorem startJob_mem (steps : Nat) (mk : Nat → MatJob) (first : Nat → State → State) (s : State)
    (hfirst : ∀ (x0 : Nat) (u : State), (first x0 u).mem = u.mem) : (startJob steps mk first s).mem = s.mem := by simp [startJob, hfirst]

/-! ### Near-bank steps -/

@[simp] theorem acceptBank_mem (op : BkOp) (d : Word) (dp : Phys) (ss : List Word) (ps : List Phys) (len : Nat) (pattern : Word)
    (s : State) : (acceptBank op d dp ss ps len pattern s).mem = s.mem := by
  grind [acceptBank, State.fresh_mem, State.later_mem, State.leavesCluster_mem]
@[simp] theorem takeMarks_mem (id : Nat) (b : Bk) (l : List (Nat × Bool)) :
    ∀ (reached : Nat) (s : State), (takeMarks id b reached s l).2.mem = s.mem := by
  induction l with
  | nil => intro r s; rfl
  | cons x l ih =>
    intro r s
    unfold takeMarks
    split <;> simp [ih]

/-! ### Pumps and overlays -/

@[simp] theorem sendOvld_mem (r : OvldReq) (n : Nat) (s : State) : (sendOvld r n s).mem = s.mem := by simp [sendOvld]
@[simp] theorem acceptLoad_mem (r : OvldReq) (s : State) : (acceptLoad r s).mem = s.mem := by
  grind [acceptLoad, State.modPump_mem, State.at__mem, State.later_mem, State.dropEvents_mem, State.holdLines_mem, State.atUnits_mem,
      failThread_mem]
@[simp] theorem State.launchTo_mem (s : State) (chan : Nat) (l : Launch) (queue : Pump → Pump) : (s.launchTo chan l queue).mem = s.mem := by
  simp [State.launchTo]
@[simp] theorem acceptGo_mem (r : OvldReq) (s : State) : (acceptGo r s).2.mem = s.mem := by
  unfold acceptGo; split <;> simp
@[simp] theorem startKernel_mem (c k : Nat) (l : Launch) (s : State) : (startKernel c k l s).mem = s.mem := by simp [startKernel]
@[simp] theorem startHead_mem (c : Nat) (s : State) : (startHead c s).mem = s.mem := by
  unfold startHead
  dsimp only
  repeat' split
  all_goals simp
@[simp] theorem State.sendLines_mem (s : State) (due : Nat) (va : Word) (l : List (Nat × Nat × Nat × Nat)) (op : Nat → Nat → FarOp) :
    (s.sendLines due va l op).mem = s.mem := by
  unfold State.sendLines
  refine State.foldl_mem _ _ _ fun u x => ?_
  split
  simp

/-! ### Tasks -/

@[simp] theorem State.sendTask_mem (s : State) (op : TqOp) : (s.sendTask op).mem = s.mem := by
  grind [State.sendTask, State.later_mem, State.leavesCluster_mem]
@[simp] theorem State.takeTask_mem (s : State) (p : Nat) (q : Part) : (s.takeTask p q).2.mem = s.mem := by
  unfold State.takeTask
  dsimp only
  repeat' split
  all_goals simp
@[simp] theorem State.taskReply_mem (s : State) (r : TqReq) (e : Event) : (s.taskReply r e).mem = s.mem := by
  unfold State.taskReply; split <;> rfl
@[simp] theorem State.answerTask_mem (s : State) (r : TqReq) (a : Option Task) : (s.answerTask r a).mem = s.mem := by
  simp [State.answerTask]
@[simp] theorem State.ackTask_mem (s : State) (r : TqReq) : (s.ackTask r).mem = s.mem := by simp [State.ackTask]
@[simp] theorem insertTask_mem (p : Nat) (t : Task) (s : State) : (insertTask p t s).mem = s.mem := by
  unfold insertTask
  dsimp only
  repeat' split
  all_goals simp
@[simp] theorem admitHeld_mem (p : Nat) (s : State) : (admitHeld p s).mem = s.mem := by
  unfold admitHeld
  repeat' split
  all_goals simp
@[simp] theorem takeAnswer_mem (h : Nat) (nums : List Nat) (keep : Nat → Bool) (pc : Word) (a : Option Task) (s : State) :
    (takeAnswer h nums keep pc a s).mem = s.mem := by simp [takeAnswer]
@[simp] theorem refuseAnswer_mem (r : TqReq) (a : Option Task) (s : State) : (refuseAnswer r a s).mem = s.mem := by
  unfold refuseAnswer; split <;> rfl

/-! ### Parking -/

@[simp] theorem finTexit_mem (h v : Nat) (s : State) : (finTexit h v s).mem = s.mem := by
  unfold finTexit
  repeat' split
  all_goals simp
@[simp] theorem State.back_mem (s : State) (h : Nat) : (s.back h).mem = s.mem := by simp [State.back]
@[simp] theorem State.backWithout_mem (s : State) (h : Nat) (p : Event → Bool) : (s.backWithout h p).mem = s.mem := by
  simp [State.backWithout]
@[simp] theorem endMwait_mem (h mask : Nat) (rd : Reg) (s : State) : (endMwait h mask rd s).mem = s.mem := by simp [endMwait]
theorem stopMatrix_mem (h : Nat) (s t : State) (e : stopMatrix h s = some t) : t.mem = s.mem := by
  unfold stopMatrix at e
  dsimp only at e
  split at e <;> cases e
  simp
theorem State.withdraw_mem (s t : State) (h : Nat) (e : s.withdraw h = some t) : t.mem = s.mem := by
  unfold State.withdraw at e
  dsimp only at e
  repeat' split at e
  any_goals exact stopMatrix_mem _ _ _ e
  all_goals cases e
  all_goals simp
@[simp] theorem State.freeze_mem (s : State) (h : Nat) : (s.freeze h).mem = s.mem := by
  unfold State.freeze
  dsimp only
  repeat' split
  all_goals simp
@[simp] theorem enterHandler_mem (h : Nat) (s : State) : (enterHandler h s).mem = s.mem := by simp [enterHandler]
@[simp] theorem State.uiLater_mem (s : State) (core : Nat) : (s.uiLater core).mem = s.mem := by simp [State.uiLater]

/-! ### Scheduling -/

@[simp] theorem State.modNode_mem (s : State) (c q : Nat) (f : Node → Node) : (s.modNode c q f).mem = s.mem := by simp [State.modNode]
@[simp] theorem failCtx_mem (c cause : Nat) (pc val : Word) (s : State) : (failCtx c cause pc val s).mem = s.mem := by
  unfold failCtx; split <;> simp
@[simp] theorem State.readyNode_mem (s : State) (c q n : Nat) : (s.readyNode c q n).mem = s.mem := by
  unfold State.readyNode; split <;> simp
@[simp] theorem acceptRecord_mem (c q : Nat) (words : List Word) (s : State) : (acceptRecord c q words s).mem = s.mem := by
  unfold acceptRecord; split <;> simp
@[simp] theorem arriveEdge_mem (c r : Nat) (l : Option Nat) (live : Bool) (s : State) : (arriveEdge c r l live s).mem = s.mem := by
  unfold arriveEdge; split <;> simp
@[simp] theorem sendEdges_mem (c q : Nat) (live : BitVec 4) (n : Node) (s : State) : (sendEdges c q live n s).mem = s.mem := by
  unfold sendEdges; split <;> simp
@[simp] theorem closeBody_mem (c l : Nat) (note : Bool) (s : State) : (closeBody c l note s).mem = s.mem := by
  unfold closeBody; split <;> simp
@[simp] theorem checkLoop_mem (c : Nat) (l : Option Nat) (s : State) : (checkLoop c l s).mem = s.mem := by
  unfold checkLoop; split <;> simp
@[simp] theorem State.launchEnds_mem (s : State) (c q : Nat) : (s.launchEnds c q).mem = s.mem := by simp [State.launchEnds]
@[simp] theorem State.syncModes_mem (s : State) (c : Nat) : (s.syncModes c).mem = s.mem := by
  unfold State.syncModes; split <;> rfl
@[simp] theorem State.emptyRace_mem (s : State) (cls : List Nat) : (s.emptyRace cls).mem = s.mem := by
  unfold State.emptyRace
  refine State.foldl_mem _ _ _ fun u x => ?_
  simp
@[simp] theorem State.freeCore_mem (s : State) (core : Nat) : (s.freeCore core).mem = s.mem := by simp [State.freeCore]
@[simp] theorem State.freeCores_mem (s : State) (c : Nat) : (s.freeCores c).mem = s.mem := by
  grind [State.freeCores, State.foldl_mem, State.modCluster_mem, State.syncModes_mem, State.emptyRace_mem, State.freeCore_mem]
@[simp] theorem State.serve_mem (s : State) (n : Nat) : (s.serve n).mem = s.mem := by simp [State.serve]
@[simp] theorem State.beginSave_mem (s : State) (c : Nat) : (s.beginSave c).mem = s.mem := by simp [State.beginSave]
@[simp] theorem State.displace_mem (s : State) (prio c : Nat) (l : List Nat) : (s.displace prio c l).mem = s.mem := by
  unfold State.displace
  refine State.foldl_mem _ _ _ fun u x => ?_
  repeat' split
  all_goals simp
@[simp] theorem State.contend_mem (s : State) : s.contend.mem = s.mem := by simp [State.contend]
@[simp] theorem State.beginSlice_mem (s : State) (c : Nat) : (s.beginSlice c).mem = s.mem := by
  unfold State.beginSlice; split <;> simp
@[simp] theorem State.takeCores_mem (s : State) (c : Nat) (l : List Nat) : (s.takeCores c l).mem = s.mem := by
  unfold State.takeCores; dsimp only; split <;> simp
@[simp] theorem State.waitFor_mem (s : State) (c q : Nat) (x : Ctx) (more : List Nat) (inUse : Bool) :
    (s.waitFor c q x more inUse).mem = s.mem := by simp [State.waitFor]
@[simp] theorem beginNode_mem (c q : Nat) (s : State) (f : Ctx → Node → State → State)
    (hf : ∀ (x0 : Ctx) (x1 : Node) (u : State), (f x0 x1 u).mem = u.mem) : (beginNode c q s f).mem = s.mem := by
  unfold beginNode; split <;> simp [hf]
@[simp] theorem withChecks_mem (c q : Nat) (l : List (Bool × Nat × Word)) (s : State) (f : State → State)
    (hf : ∀ (u : State), (f u).mem = u.mem) : (withChecks c q l s f).mem = s.mem := by
  unfold withChecks; split <;> simp [hf]
@[simp] theorem State.evalLater_mem (s : State) (c q : Nat) (n : Node) : (s.evalLater c q n).mem = s.mem := by simp [State.evalLater]
@[simp] theorem placeEntryThreads_mem (c q i : Nat) (base size : Word) (p : Place) (s : State) :
    (placeEntryThreads c q i base size p s).mem = s.mem := by simp [placeEntryThreads]
@[simp] theorem placeNode_mem (c q : Nat) (n : Node) (l : List Place) (s : State) : (placeNode c q n l s).mem = s.mem := by simp [placeNode]
@[simp] theorem startIteration_mem (c q : Nat) (s : State) : (startIteration c q s).mem = s.mem := by
  unfold startIteration; dsimp only; split <;> simp

/-! ### Saves and restores -/

@[simp] theorem giveUpAtSave_mem (h : Nat) (s : State) : (giveUpAtSave h s).mem = s.mem := by
  unfold giveUpAtSave; split <;> simp
@[simp] theorem dropClaims_mem (h : Nat) (s : State) : (dropClaims h s).mem = s.mem := by simp [dropClaims]
@[simp] theorem letGo_mem (h : Nat) (s : State) : (letGo h s).mem = s.mem := by simp [letGo]
@[simp] theorem stopGang_mem (ms : List Nat) (s : State) : (stopGang ms s).mem = s.mem := by
  unfold stopGang
  refine State.ite_mem_of rfl ?_
  have kept : ∀ t, ms.foldl (fun (r : Option State) h => r.bind fun s => s.withdraw h) (some s) = some t → t.mem = s.mem := by
    refine List.foldlRecOn (motive := fun r : Option State => ∀ t, r = some t → t.mem = s.mem) ms _ (by simp) fun r ih m _ t e => ?_
    obtain ⟨u, hu, ht⟩ := Option.bind_eq_some_iff.mp e
    exact (State.withdraw_mem _ _ _ ht).trans (ih u hu)
  split
  · rename_i t e
    simp [kept t e]
  · simp
@[simp] theorem stopThread_mem (h : Nat) (s : State) : (stopThread h s).mem = s.mem := by
  have withdraws : ∀ t, s.withdraw h = some t → t.mem = s.mem := fun t => State.withdraw_mem s t h
  unfold stopThread
  dsimp only
  repeat' split
  all_goals simp_all
@[simp] theorem takeLaunches_mem (c : Nat) (s : State) : (takeLaunches c s).2.mem = s.mem := by
  grind [takeLaunches, State.foldlSnd_mem, State.modPump_mem, State.later_mem]
@[simp] theorem askPumps_mem (c : Nat) (s : State) : (askPumps c s).mem = s.mem := by simp [askPumps]
@[simp] theorem stopCopies_mem (c : Nat) (s : State) : (stopCopies c s).mem = s.mem := by simp [stopCopies]
@[simp] theorem unstartNodes_mem (c : Nat) (s : State) : (unstartNodes c s).mem = s.mem := by
  unfold unstartNodes; split <;> simp
@[simp] theorem takeOverlays_mem (c : Nat) (s : State) : (takeOverlays c s).2.mem = s.mem := by simp [takeOverlays]
@[simp] theorem State.mirrorAll_mem (s : State) (core : Nat) (v : Word) : (s.mirrorAll core v).mem = s.mem := by simp [State.mirrorAll]
@[simp] theorem loadCore_mem (c k : Nat) (v : Core) (s : State) : (loadCore c k v s).mem = s.mem := by
  grind [loadCore, State.foldl_mem, State.setCore_mem, State.later_mem, State.mirrorAll_mem]
@[simp] theorem loadThread_mem (gone h : Nat) (v : Thread) (s : State) : (loadThread gone h v s).mem = s.mem := by
  grind [loadThread, State.foldl_mem, State.setThread_mem, State.at__mem, State.later_mem]
@[simp] theorem loadOverlays_mem (c : Nat) (s : State) : (loadOverlays c s).mem = s.mem := by
  grind [loadOverlays, State.foldlSnd_mem, State.modPump_mem, State.modCtx_mem, State.later_mem, State.dropEvents_mem]
@[simp] theorem finishRestore_mem (c : Nat) (x : Ctx) (v : Saved) (s : State) : (finishRestore c x v s).mem = s.mem := by
  grind [finishRestore, State.foldl_mem, State.modCluster_mem, State.modPump_mem, State.modCtx_mem, State.later_mem, endLaunch_mem,
      State.ctxCheck_mem, State.syncModes_mem, State.emptyRace_mem, State.contend_mem, State.beginSlice_mem, loadCore_mem, loadThread_mem]

/-! ### Partitions and contexts -/

@[simp] theorem State.withHost_mem (s : State) (a : Word) (dead f : State → State) (hdead : ∀ u, (dead u).mem = u.mem)
    (hf : ∀ u, (f u).mem = u.mem) : (s.withHost a dead f).mem = s.mem := by
  unfold State.withHost
  repeat' split
  all_goals simp [hdead, hf]
@[simp] theorem State.pcmdDone_mem (s : State) (status : Nat) : (s.pcmdDone status).mem = s.mem := by simp [State.pcmdDone]
@[simp] theorem State.zeroPumps_mem (s : State) (gmask : Nat) : (s.zeroPumps gmask).mem = s.mem := by simp [State.zeroPumps]
@[simp] theorem State.zeroClusters_mem (s : State) (gmask : Nat) : (s.zeroClusters gmask).mem = s.mem := by simp [State.zeroClusters]
@[simp] theorem startSupervisors_mem (p : Nat) (q : Part) (s : State) : (startSupervisors p q s).mem = s.mem := by simp [startSupervisors]
@[simp] theorem offerWindows_mem (p : Nat) (q : Part) (s : State) : (offerWindows p q s).mem = s.mem := by
  grind [offerWindows, State.forUpto_mem, State.choose_mem, State.later_mem]
@[simp] theorem State.dropTranslations_mem (s : State) (ctx : Nat → Bool) : (s.dropTranslations ctx).mem = s.mem := by
  simp [State.dropTranslations]
@[simp] theorem State.dropWork_mem (s : State) (core ctx chan part : Nat → Bool) : (s.dropWork core ctx chan part).mem = s.mem := by
  simp [State.dropWork]
@[simp] theorem State.saveResidents_mem (s : State) (p : Nat) : (s.saveResidents p).mem = s.mem := by simp [State.saveResidents]
@[simp] theorem State.rekeyHeld_mem (s : State) (p slot : Nat) : (s.rekeyHeld p slot).mem = s.mem := by simp [State.rekeyHeld]
@[simp] theorem State.ctxDone_mem (s : State) (p status : Nat) : (s.ctxDone p status).mem = s.mem := by simp [State.ctxDone]
@[simp] theorem eraseCtx_mem (p c : Nat) (s : State) : (eraseCtx p c s).mem = s.mem := by simp [eraseCtx]
@[simp] theorem threadCommand_mem (p : Nat) (kind : SupKind) (s : State) : (threadCommand p kind s).mem = s.mem := by
  unfold threadCommand; dsimp only; split <;> simp
@[simp] theorem State.snoopAgent_mem (s : State) (ls : List Nat) : (s.snoopAgent ls).mem = s.mem := by simp [State.snoopAgent]
@[simp] theorem entryKnown_mem (w : InjWait) (s : State) : (entryKnown w s).mem = s.mem := by
  unfold entryKnown
  repeat' split
  all_goals simp
@[simp] theorem enterLate_mem (w : InjWait) (s : State) : (enterLate w s).mem = s.mem := by
  unfold enterLate; split <;> simp
@[simp] theorem writePcmd_mem (v : Word) (s : State) : (writePcmd v s).mem = s.mem := by
  unfold writePcmd
  dsimp only
  repeat' split
  all_goals simp
@[simp] theorem writeReset_mem (v : Word) (s : State) : (writeReset v s).mem = s.mem := by simp [writeReset]
@[simp] theorem writePf_mem (a : Nat) (v : Word) (s : State) : (writePf a v s).mem = s.mem := by simp [writePf]
@[simp] theorem writeDbg_mem (g a : Nat) (v : Word) (s : State) : (writeDbg g a v s).mem = s.mem := by simp [writeDbg]

/-! ### Debug modules and bring-up -/

@[simp] theorem stopCore_mem (core : Nat) (s : State) : (stopCore core s).mem = s.mem := by simp [stopCore]
@[simp] theorem runCore_mem (core : Nat) (s : State) : (runCore core s).mem = s.mem := by simp [runCore]
@[simp] theorem resumeSlices_mem (s : State) : (resumeSlices s).mem = s.mem := by
  unfold resumeSlices
  refine State.foldl_mem _ _ _ fun u x => ?_
  dsimp only
  repeat' split
  all_goals simp
@[simp] theorem State.runCores_mem (s : State) (g : Nat) : (s.runCores g).mem = s.mem := by
  unfold State.runCores
  refine State.foldl_mem _ _ _ fun u x => ?_
  dsimp only
  simp
@[simp] theorem State.dbgStatus_mem (s : State) (g status : Nat) : (s.dbgStatus g status).mem = s.mem := by simp [State.dbgStatus]
@[simp] theorem comesUp_mem (u : ReadyUnit) (s : State) (f : State → State) (hf : ∀ (u : State), (f u).mem = u.mem) :
    (comesUp u s f).mem = s.mem := by
  grind [comesUp, State.choose_mem, State.later_mem]
@[simp] theorem checkHub_mem (s : State) : (checkHub s).mem = s.mem := by
  grind [checkHub, State.foldl_mem, State.choose_mem, State.later_mem]
@[simp] theorem checkStacks_mem (s : State) : (checkStacks s).mem = s.mem := by
  grind [checkStacks, State.forUpto_mem, State.later_mem]

/-! ### Fetching and issuing -/

@[simp] theorem State.cachedParcel_mem (s : State) (core : Nat) (va : Word) (p : Phys) : (s.cachedParcel core va p).2.mem = s.mem := by
  grind [State.cachedParcel, State.modCore_mem, State.choose_mem]
@[simp] theorem State.fetchThread_mem (s : State) (h : Nat) (va : Word) : (s.fetchThread h va).2.mem = s.mem := by
  unfold State.fetchThread
  dsimp only
  repeat' split
  all_goals simp
@[simp] theorem State.fetchPump_mem (s : State) (c : Nat) (va : Word) : (s.fetchPump c va).2.mem = s.mem := by
  unfold State.fetchPump
  dsimp only
  repeat' split
  all_goals simp
@[simp] theorem State.fetch_mem (s : State) (va : Word) : (s.fetch va).2.mem = s.mem := by
  unfold State.fetch; split <;> simp
@[simp] theorem State.fetchInsn_mem (s : State) (va : Word) : (s.fetchInsn va).2.2.mem = s.mem := by
  grind [State.fetchInsn, State.fetch_mem]
@[simp] theorem State.slotTaken_mem (s : State) (h place : Nat) : (s.slotTaken h place).mem = s.mem := by simp [State.slotTaken]
@[simp] theorem State.skipPlace_mem (s : State) (place : Nat) : (s.skipPlace place).mem = s.mem := by simp [State.skipPlace]
@[simp] theorem State.useBrkSkip_mem (s : State) (h : Nat) : (s.useBrkSkip h).mem = s.mem := by simp [State.useBrkSkip]
@[simp] theorem State.spendBrkSkip_mem (s : State) (h : Nat) (had : Bool) : (s.spendBrkSkip h had).mem = s.mem := by
  simp [State.spendBrkSkip]
@[simp] theorem State.modGang_mem (s : State) (leader : Nat) (f : Gang → Gang) : (s.modGang leader f).mem = s.mem := by simp [State.modGang]
@[simp] theorem State.onPath_mem (s : State) (h : Nat) (p : Path) : (s.onPath h p).mem = s.mem := by simp [State.onPath]
theorem followerEffect_mem (i : Instr) (leader h : Nat) (s t : State) (e : followerEffect i leader h s = some t) : t.mem = s.mem := by
  unfold followerEffect at e
  dsimp only at e
  split at e <;> cases e <;> simp
@[simp] theorem State.issued_mem (s : State) (h place : Nat) (i : Instr) (had : Bool) : (s.issued h place i had).mem = s.mem := by
  simp [State.issued]
@[simp] theorem State.movePath_mem (s : State) (leader : Nat) (ms : List Nat) (p : Path) : (s.movePath leader ms p).mem = s.mem := by
  simp [State.movePath]
@[simp] theorem State.keepFetch_mem (s u : State) (core : Nat) : (s.keepFetch u core).mem = s.mem := rfl
@[simp] theorem State.holdTimed_mem (s : State) : s.holdTimed.mem = s.mem := by simp [State.holdTimed]

end Sys2Proof.Machine
end

section
/-!
SUPPORT. What keeps memory in canonical form: one rule per operation that writes memory, and per instruction or step of an engine that is
more than one use of a shared operation. Writers rest on `memWrite_wf` and its like; everything else rests on the rules above.
-/

namespace Sys2Proof.Machine

/-- Memory of the state that an answer goes on in is in canonical form. -/
def AnsWf (a : Ans) : Prop := ∀ t, a = .next t → Memory.wf t.mem = true
theorem ansWf_next_iff (t : State) : AnsWf (.next t) ↔ Memory.wf t.mem = true := by
  constructor
  · intro h; exact h t rfl
  · intro h u e; cases e; exact h
@[simp] theorem ansWf_next (t : State) (hm : Memory.wf t.mem = true) : AnsWf (.next t) := (ansWf_next_iff t).mpr hm
theorem State.ite_wf {c : Prop} [Decidable c] {a b : State} (ha : Memory.wf a.mem = true) (hb : Memory.wf b.mem = true) :
    Memory.wf (if c then a else b).mem = true := by split <;> assumption
@[simp] theorem State.foldl_wf {α : Type} (f : State → α → State) (l : List α) (s : State)
    (h : ∀ u x, Memory.wf u.mem = true → Memory.wf (f u x).mem = true) (hm : Memory.wf s.mem = true) :
    Memory.wf (l.foldl f s).mem = true :=
  List.foldlRecOn l f (motive := fun t => Memory.wf t.mem = true) hm fun u e x _ => h u x e
theorem State.foldlSnd_wf {α β : Type} (f : β × State → α → β × State) (l : List α) (s : β × State)
    (h : ∀ u x, Memory.wf u.2.mem = true → Memory.wf (f u x).2.mem = true) (hm : Memory.wf s.2.mem = true) :
    Memory.wf (l.foldl f s).2.mem = true :=
  List.foldlRecOn l f (motive := fun t => Memory.wf t.2.mem = true) hm fun u e x _ => h u x e
@[simp] theorem State.forUpto_wf (n : Nat) (f : Nat → State → State) (s : State)
    (h : ∀ u i, Memory.wf u.mem = true → Memory.wf (f i u).mem = true) (hm : Memory.wf s.mem = true) :
    Memory.wf (forUpto n s f).mem = true :=
  State.foldl_wf _ _ _ h hm
section
variable (s : State) (f : State → State) (hm : Memory.wf s.mem = true) (hf : ∀ u, Memory.wf u.mem = true → Memory.wf (f u).mem = true)
include hm hf

/-! ### The operations of the state -/

@[simp] theorem checkedBy_wf (i : Instr) (pre : State → Option (Nat × Word)) : AnsWf (checkedBy i pre s f) := by
  unfold checkedBy
  rw [ansWf_next_iff]
  repeat' split
  all_goals simp [hm, hf]
@[simp] theorem checked_wf (i : Instr) : AnsWf (checked i s f) := checkedBy_wf s f hm hf i _

/-! ### Homes, locks and coherence -/

@[simp] theorem State.admitAt_wf (x : InjWait) : Memory.wf (s.admitAt x f).mem = true := by
  unfold State.admitAt
  dsimp only
  repeat' split
  all_goals simp [hm, hf]
@[simp] theorem State.arrivesAt_wf (line b : Nat) (e : Event) : Memory.wf (s.arrivesAt line b e f).mem = true := by
  unfold State.arrivesAt
  split
  · refine State.admitAt_wf s _ hm (fun u hu => ?_) _
    split
    · exact hf u hu
    · exact State.admitAt_wf u f hu hf _
  · exact hf s hm
@[simp] theorem State.ordered_wf (b : Bool) : Memory.wf (s.ordered b f).mem = true := by
  unfold State.ordered
  split
  · exact hm
  · exact hf s hm
@[simp] theorem State.gated_wf (b : Bool) : Memory.wf (s.gated b f).mem = true := by
  unfold State.gated
  split
  · exact hm
  · exact State.ordered_wf s f hm hf b

/-! ### Loads and stores -/

@[simp] theorem State.ownDevice_wf (a : Word) (p : Phys) : Memory.wf (s.ownDevice a p f).mem = true := by
  unfold State.ownDevice
  repeat' split
  all_goals simp [hm, hf]

/-! ### Homes, locks and coherence -/

@[simp] theorem State.withRelease_wf (scope : Nat) : Memory.wf (s.withRelease scope f).mem = true := by
  unfold State.withRelease
  dsimp only
  repeat' split
  all_goals simp [hm, hf]
end

/-! ### The operations of the state -/

@[simp] theorem result_wf (i : Instr) (d : Reg) (s : State) (f : State → Word) (hm : Memory.wf s.mem = true) : AnsWf (result i d s f) :=
  checked_wf s _ hm (fun u hu => by simp [hu]) i
@[simp] theorem onEvent_wf (s : State) (f : Event → State) (hm : Memory.wf s.mem = true) (hf : ∀ e, Memory.wf (f e).mem = true) :
    AnsWf (onEvent s f) := by
  unfold onEvent
  rw [ansWf_next_iff]
  split
  · exact hf _
  · exact hm

/-! ### Homes, locks and coherence -/

@[simp] theorem State.atUnits_wf (s : State) (who : Waiter) (key : Nat) (write : Bool) (us : List LockUnit) (wait go : State → State)
    (hm : Memory.wf s.mem = true) (hwait : ∀ u, Memory.wf u.mem = true → Memory.wf (wait u).mem = true)
    (hgo : ∀ u, Memory.wf u.mem = true → Memory.wf (go u).mem = true) : Memory.wf (s.atUnits who key write us wait go).mem = true := by
  unfold State.atUnits; split <;> simp [hm, hwait, hgo]

/-! ### Partitions and contexts -/

@[simp] theorem State.withHost_wf (s : State) (a : Word) (dead f : State → State) (hm : Memory.wf s.mem = true)
    (hdead : ∀ u, Memory.wf u.mem = true → Memory.wf (dead u).mem = true) (hf : ∀ u, Memory.wf u.mem = true → Memory.wf (f u).mem = true) :
    Memory.wf (s.withHost a dead f).mem = true := by
  unfold State.withHost
  repeat' split
  all_goals simp [hm, hdead, hf]

/-! ### Integers -/

@[simp] theorem alu2_wf (i : Instr) (b a d : Reg) (s : State) (f : Word → Word → Word) (hm : Memory.wf s.mem = true) :
    AnsWf (alu2 i b a d s f) := by simp [alu2, hm]
@[simp] theorem alu1_wf (i : Instr) (a d : Reg) (s : State) (f : Word → Word) (hm : Memory.wf s.mem = true) : AnsWf (alu1 i a d s f) := by
  simp [alu1, hm]

/-! ### Translation -/

@[simp] theorem State.walkLeaf_wf (s : State) (v : View) (va : Nat) (acc : Access) (r : Except Nat Walked) (hm : Memory.wf s.mem = true) :
    Memory.wf (s.walkLeaf v va acc r).2.mem = true := by
  have put (a leaf old : Nat) :
      Memory.wf (if leaf = old then s else { s with mem := memWrite s.mem a (toBytes 8 leaf) }).mem = true := by
    split
    · exact hm
    · exact memWrite_wf _ _ _ hm
  cases r with
  | error c => exact hm
  | ok x =>
    unfold State.walkLeaf
    dsimp only
    split
    · exact hm
    · exact put _ _ _
@[simp] theorem State.walk_wf (s : State) (v : View) (va : Nat) (acc : Access) (hm : Memory.wf s.mem = true) :
    Memory.wf (s.walk v va acc).2.mem = true := by
  grind [State.walk, State.walkLeaf_wf, State.fillTlb_mem, State.afterWalk_mem]
@[simp] theorem State.translateNow_wf (s : State) (v : View) (va : Word) (acc : Access) (hm : Memory.wf s.mem = true) :
    Memory.wf (s.translateNow v va acc).2.mem = true := by
  grind [State.translateNow, State.walkLeaf_wf, State.engineJoins_mem]
@[simp] theorem State.checkRange_wf (s : State) (v : View) (va n : Nat) (acc : Access) (hm : Memory.wf s.mem = true) :
    Memory.wf (s.checkRange v va n acc).2.mem = true := by
  grind [State.checkRange, State.foldlSnd_wf, State.translateNow_wf]
@[simp] theorem State.readVirt_wf (s : State) (v : View) (va n : Nat) (hm : Memory.wf s.mem = true) :
    Memory.wf (s.readVirt v va n).2.mem = true := by
  grind [State.readVirt, State.foldlSnd_wf, State.translateNow_wf, State.holdLines_mem]

/-! ### Homes, locks and coherence -/

@[simp] theorem State.seeNotify_wf (s : State) (key n : Nat) (hm : Memory.wf s.mem = true) : Memory.wf (s.seeNotify key n).mem = true := by
  unfold State.seeNotify
  refine State.foldl_wf _ _ _ (fun u x hu => ?_) hm
  dsimp only
  repeat' split
  all_goals simp [hu]
@[simp] theorem State.seeDoorbell_wf (s : State) (key n : Nat) (hm : Memory.wf s.mem = true) : Memory.wf (s.seeDoorbell key n).mem = true := by
  grind [State.seeDoorbell, State.foldl_wf, State.forUpto_wf, putRaw_wf, State.later_mem, endLaunch_mem]
@[simp] theorem State.afterWrite_wf (s : State) (key n delay : Nat) (hm : Memory.wf s.mem = true) :
    Memory.wf (s.afterWrite key n delay).mem = true := by
  unfold State.afterWrite; split <;> simp [hm]
@[simp] theorem State.recordReleases_wf (s : State) (hm : Memory.wf s.mem = true) : Memory.wf s.recordReleases.mem = true := by
  unfold State.recordReleases
  refine State.foldl_wf _ _ _ (fun u x hu => ?_) hm
  split <;> simp [hu]
@[simp] theorem State.landMem_wf (s : State) (h key ks : Nat) (bs : List Byte) (delay : Nat) (hm : Memory.wf s.mem = true) :
    Memory.wf (s.landMem h key ks bs delay).mem = true := by
  grind [State.landMem, State.writeBytes_wf, State.afterWrite_wf, State.later_mem, State.holdLines_mem]
@[simp] theorem State.withPhys_wf (s : State) (va : Word) (acc : Access) (f : Phys → Nat → State → State) (hm : Memory.wf s.mem = true)
    (hf : ∀ (x0 : Phys) (x1 : Nat) (u : State), Memory.wf u.mem = true → Memory.wf (f x0 x1 u).mem = true) :
    Memory.wf (s.withPhys va acc f).mem = true := by
  grind [State.withPhys, State.translateNow_wf, State.blocks_mem, State.trap_mem, State.fillTlb_mem, State.threadJoins_mem]

/-! ### Control registers -/

@[simp] theorem csrModify_wf (i : Instr) (n : BitVec 12) (s : State) (skip : Bool) (f : Word → Word) (hm : Memory.wf s.mem = true) :
    AnsWf (csrModify i n s skip f) := by simp [csrModify, hm]
@[simp] theorem execCsrr_wf (n : BitVec 12) (d : Reg) (s : State) (hm : Memory.wf s.mem = true) : AnsWf (execCsrr n d s) := by
  simp [execCsrr, hm]
@[simp] theorem execWellwinMirrorUpdate_wf (s : State) (hm : Memory.wf s.mem = true) : AnsWf (execWellwinMirrorUpdate s) := by
  unfold execWellwinMirrorUpdate
  refine onEvent_wf _ _ hm fun e => ?_
  split <;> simp [hm]

/-! ### Control transfers -/

@[simp] theorem compareSkip_wf (i : Instr) (k : BitVec 2) (c : BitVec 3) (s : State) (a b : Word) (hm : Memory.wf s.mem = true) :
    AnsWf (compareSkip i k c s a b) := by simp [compareSkip, hm]
@[simp] theorem execBCc_wf (o : BitVec 10) (b a : Reg) (p : BitVec 2) (c : BitVec 3) (s : State) (hm : Memory.wf s.mem = true) :
    AnsWf (execBCc o b a p c s) := by simp [execBCc, hm]
@[simp] theorem execBr_wf (i : BitVec 25) (s : State) (hm : Memory.wf s.mem = true) : AnsWf (execBr i s) := by simp [execBr, hm]
@[simp] theorem execCall_wf (i : BitVec 25) (s : State) (hm : Memory.wf s.mem = true) : AnsWf (execCall i s) := by simp [execCall, hm]
@[simp] theorem execJalr_wf (i : BitVec 15) (a d : Reg) (s : State) (hm : Memory.wf s.mem = true) : AnsWf (execJalr i a d s) := by
  simp [execJalr, hm]
@[simp] theorem execLoop_wf (i : BitVec 15) (d : Reg) (s : State) (hm : Memory.wf s.mem = true) : AnsWf (execLoop i d s) := by
  simp [execLoop, hm]
@[simp] theorem execNop16_wf (s : State) (hm : Memory.wf s.mem = true) : AnsWf (execNop16 s) := by simp [execNop16, hm]
@[simp] theorem execNop_wf (s : State) (hm : Memory.wf s.mem = true) : AnsWf (execNop s) := by simp [execNop, hm]
@[simp] theorem execTrap_wf (a : Reg) (s : State) (hm : Memory.wf s.mem = true) : AnsWf (execTrap a s) := by simp [execTrap, hm]
@[simp] theorem execBkpt_wf (s : State) (hm : Memory.wf s.mem = true) : AnsWf (execBkpt s) := by simp [execBkpt, hm]
@[simp] theorem execRpt_wf (p q r : BitVec 1) (n : BitVec 6) (s : State) (hm : Memory.wf s.mem = true) : AnsWf (execRpt p q r n s) := by
  simp [execRpt, hm]
@[simp] theorem execIllegalInstruction_wf (s : State) (hm : Memory.wf s.mem = true) : AnsWf (execIllegalInstruction s) := by
  simp [execIllegalInstruction, hm]

/-! ### System instructions -/

@[simp] theorem execFencei_wf (s : State) (hm : Memory.wf s.mem = true) : AnsWf (execFencei s) := by simp [execFencei, hm]
@[simp] theorem execEret_wf (a : Reg) (s : State) (hm : Memory.wf s.mem = true) : AnsWf (execEret a s) := by
  grind [execEret, checkedBy_wf, State.modSelf_mem, transferTo_mem]
@[simp] theorem execHalt_wf (s : State) (hm : Memory.wf s.mem = true) : AnsWf (execHalt s) := by simp [execHalt, hm]
@[simp] theorem execTlbi_wf (b a : Reg) (s : State) (hm : Memory.wf s.mem = true) : AnsWf (execTlbi b a s) := by
  unfold execTlbi
  refine checkedBy_wf _ _ hm (fun u hu => ?_) _ _
  simp [hu]
@[simp] theorem execTlbiRetire_wf (s : State) (hm : Memory.wf s.mem = true) : AnsWf (execTlbiRetire s) := by
  unfold execTlbiRetire
  refine onEvent_wf _ _ hm fun e => ?_
  dsimp only
  repeat' split
  all_goals simp [hm]
@[simp] theorem wakeWaits_wf (die : Nat) (m : Miss) (cause : Option Nat) (s : State) (hm : Memory.wf s.mem = true) :
    Memory.wf (wakeWaits die m cause s).mem = true := by
  grind [wakeWaits, State.foldl_wf, State.walk_wf, State.modThread_mem, State.goesOn_mem]
@[simp] theorem wakeEngines_wf (die : Nat) (m : Miss) (s : State) (hm : Memory.wf s.mem = true) : Memory.wf (wakeEngines die m s).mem = true := by
  unfold wakeEngines
  refine State.foldl_wf _ _ _ (fun u x hu => ?_) hm
  split
  simp [hu]
@[simp] theorem missOver_wf (die id : Nat) (m : Miss) (cause : Option Nat) (s : State) (hm : Memory.wf s.mem = true) :
    Memory.wf (missOver die id m cause s).mem = true := by
  unfold missOver; split <;> simp [hm]
@[simp] theorem walkerReads_wf (die id : Nat) (m : Miss) (a : Nat) (s : State) (hm : Memory.wf s.mem = true) :
    Memory.wf (walkerReads die id m a s).mem = true := by
  grind [walkerReads, State.atUnits_wf, State.arrivesAt_wf, missOver_wf, State.later_mem, State.holdLine_mem, State.modMiss_mem,
      State.walkOn_mem]
@[simp] theorem execTlbWalkComplete_wf (s : State) (hm : Memory.wf s.mem = true) : AnsWf (execTlbWalkComplete s) := by
  unfold execTlbWalkComplete
  refine onEvent_wf _ _ hm fun e => ?_
  repeat' split
  all_goals simp [hm]
@[simp] theorem supIssue_wf (i : Instr) (kind : SupKind) (handle sel v : Word) (rd : Reg) (s : State) (hm : Memory.wf s.mem = true) :
    AnsWf (supIssue i kind handle sel v rd s) := by
  unfold supIssue
  refine checkedBy_wf _ _ hm (fun u hu => ?_) _ _
  simp [hu]
@[simp] theorem execSupervisorOpArrival_wf (s : State) (hm : Memory.wf s.mem = true) : AnsWf (execSupervisorOpArrival s) := by
  unfold execSupervisorOpArrival
  refine onEvent_wf _ _ hm fun e => ?_
  split <;> simp [hm]
@[simp] theorem execSupervisorReply_wf (s : State) (hm : Memory.wf s.mem = true) : AnsWf (execSupervisorReply s) := by
  unfold execSupervisorReply
  refine onEvent_wf _ _ hm fun e => ?_
  repeat' split
  all_goals simp [hm]

/-! ### Synchronization -/

@[simp] theorem execTstart_wf (b a d : Reg) (s : State) (hm : Memory.wf s.mem = true) : AnsWf (execTstart b a d s) := by
  simp [execTstart, hm]
@[simp] theorem execTstartReady_wf (s : State) (hm : Memory.wf s.mem = true) : AnsWf (execTstartReady s) := by
  unfold execTstartReady
  refine onEvent_wf _ _ hm fun e => ?_
  repeat' split
  all_goals simp [hm]
@[simp] theorem execYield_wf (s : State) (hm : Memory.wf s.mem = true) : AnsWf (execYield s) := by simp [execYield, hm]
@[simp] theorem execYieldWake_wf (s : State) (hm : Memory.wf s.mem = true) : AnsWf (execYieldWake s) := by
  unfold execYieldWake
  refine onEvent_wf _ _ hm fun e => ?_
  split <;> simp [hm]
@[simp] theorem execGang_wf (b d : Reg) (s : State) (hm : Memory.wf s.mem = true) : AnsWf (execGang b d s) := by simp [execGang, hm]
@[simp] theorem execGangForm_wf (s : State) (hm : Memory.wf s.mem = true) : AnsWf (execGangForm s) := by
  unfold execGangForm
  refine onEvent_wf _ _ hm fun e => ?_
  split
  · dsimp only
    split
    · exact hm
    · rw [State.foldlFst_mem _ _ _ fun u x => by simp]
      exact hm
  · exact hm
@[simp] theorem execGangTimeout_wf (s : State) (hm : Memory.wf s.mem = true) : AnsWf (execGangTimeout s) := by
  unfold execGangTimeout
  refine onEvent_wf _ _ hm fun e => ?_
  repeat' split
  all_goals simp [hm]
@[simp] theorem execUngang_wf (s : State) (hm : Memory.wf s.mem = true) : AnsWf (execUngang s) := by simp [execUngang, hm]
@[simp] theorem execSend_wf (b a : Reg) (n : BitVec 2) (s : State) (hm : Memory.wf s.mem = true) : AnsWf (execSend b a n s) := by
  grind [execSend, State.foldl_wf, checked_wf, State.at__mem, State.modSelf_mem, State.pass_mem, State.blocks_mem, State.claimSlot_mem,
      State.sendFlit_mem]
@[simp] theorem execChannelClaim_wf (s : State) (hm : Memory.wf s.mem = true) : AnsWf (execChannelClaim s) := by
  unfold execChannelClaim
  refine onEvent_wf _ _ hm fun e => ?_
  split
  · split
    · split
      · rename_i c
        simp [State.claimSlot_mem _ _ _ _ _ c, hm]
      · exact hm
    · exact hm
  · exact hm
@[simp] theorem execFlitArrival_wf (s : State) (hm : Memory.wf s.mem = true) : AnsWf (execFlitArrival s) := by
  unfold execFlitArrival
  refine onEvent_wf _ _ hm fun e => ?_
  dsimp only
  repeat' split
  all_goals simp [hm]
@[simp] theorem execRecvWake_wf (s : State) (hm : Memory.wf s.mem = true) : AnsWf (execRecvWake s) := by
  unfold execRecvWake
  refine onEvent_wf _ _ hm fun e => ?_
  repeat' split
  all_goals simp [hm]
@[simp] theorem execRecv_wf (n : BitVec 2) (a d : Reg) (s : State) (hm : Memory.wf s.mem = true) : AnsWf (execRecv n a d s) := by
  grind [execRecv, checkedBy_wf, State.blocks_mem, takeFlit_mem]
@[simp] theorem execRecvn_wf (n : BitVec 2) (a d : Reg) (s : State) (hm : Memory.wf s.mem = true) : AnsWf (execRecvn n a d s) := by
  simp [execRecvn, hm]
@[simp] theorem execMon_wf (a : Reg) (n : BitVec 2) (s : State) (hm : Memory.wf s.mem = true) : AnsWf (execMon a n s) := by
  simp [execMon, hm]
@[simp] theorem execMonG_wf (a : Reg) (n : BitVec 2) (s : State) (hm : Memory.wf s.mem = true) : AnsWf (execMonG a n s) := by
  unfold execMonG
  refine checked_wf _ _ hm (fun u hu => ?_) _
  simp [hu]
@[simp] theorem execMclr_wf (n : BitVec 2) (s : State) (hm : Memory.wf s.mem = true) : AnsWf (execMclr n s) := by simp [execMclr, hm]
@[simp] theorem execMwait_wf (b : Reg) (m : BitVec 4) (d : Reg) (s : State) (hm : Memory.wf s.mem = true) : AnsWf (execMwait b m d s) := by
  simp [execMwait, hm]
@[simp] theorem execMonitorWake_wf (s : State) (hm : Memory.wf s.mem = true) : AnsWf (execMonitorWake s) := by
  unfold execMonitorWake
  refine onEvent_wf _ _ hm fun e => ?_
  repeat' split
  all_goals simp [hm]
@[simp] theorem execMwaitTimeout_wf (s : State) (hm : Memory.wf s.mem = true) : AnsWf (execMwaitTimeout s) := by
  unfold execMwaitTimeout
  refine onEvent_wf _ _ hm fun e => ?_
  dsimp only
  repeat' split
  all_goals simp [hm]
@[simp] theorem execCntw_wf (c : BitVec 3) (b a : Reg) (s : State) (hm : Memory.wf s.mem = true) : AnsWf (execCntw c b a s) := by
  grind [execCntw, checkedBy_wf, State.ordered_wf, State.withPhys_wf, State.stalls_mem, State.blocks_mem, State.sendFar_mem]
@[simp] theorem execCntwWake_wf (s : State) (hm : Memory.wf s.mem = true) : AnsWf (execCntwWake s) := by
  unfold execCntwWake
  refine onEvent_wf _ _ hm fun e => ?_
  repeat' split
  all_goals simp [hm]
@[simp] theorem execBar_wf (b a d : Reg) (s : State) (hm : Memory.wf s.mem = true) : AnsWf (execBar b a d s) := by
  unfold execBar
  refine checkedBy_wf _ _ hm (fun u hu => ?_) _ _
  split <;> simp [hu]
@[simp] theorem execBara_wf (b a d : Reg) (s : State) (hm : Memory.wf s.mem = true) : AnsWf (execBara b a d s) := by simp [execBara, hm]
@[simp] theorem execBarw_wf (a d : Reg) (s : State) (hm : Memory.wf s.mem = true) : AnsWf (execBarw a d s) := by
  unfold execBarw
  refine checkedBy_wf _ _ hm (fun u hu => ?_) _ _
  dsimp only
  repeat' split
  all_goals simp [hu]
@[simp] theorem execBarrierArrival_wf (s : State) (hm : Memory.wf s.mem = true) : AnsWf (execBarrierArrival s) := by
  unfold execBarrierArrival
  refine onEvent_wf _ _ hm fun e => ?_
  repeat' split
  all_goals simp [hm]
@[simp] theorem execBarrierRelease_wf (s : State) (hm : Memory.wf s.mem = true) : AnsWf (execBarrierRelease s) := by
  unfold execBarrierRelease
  refine onEvent_wf _ _ hm fun e => ?_
  split
  · refine State.foldl_wf _ _ _ (fun u x hu => ?_) hm
    dsimp only
    repeat' split
    all_goals simp [hu]
  · exact hm
@[simp] theorem execBarrierTimeout_wf (s : State) (hm : Memory.wf s.mem = true) : AnsWf (execBarrierTimeout s) := by
  unfold execBarrierTimeout
  refine onEvent_wf _ _ hm fun e => ?_
  dsimp only
  repeat' split
  all_goals simp [hm]
@[simp] theorem execInboxMessageArrival_wf (s : State) (hm : Memory.wf s.mem = true) : AnsWf (execInboxMessageArrival s) := by
  unfold execInboxMessageArrival
  refine onEvent_wf _ _ hm fun e => ?_
  split <;> simp [hm]
@[simp] theorem execIbx_wf (a d : Reg) (s : State) (hm : Memory.wf s.mem = true) : AnsWf (execIbx a d s) := by
  grind [execIbx, checkedBy_wf, State.gated_wf, State.blocks_mem, takeMsg_mem]
@[simp] theorem execIbxn_wf (a d : Reg) (s : State) (hm : Memory.wf s.mem = true) : AnsWf (execIbxn a d s) := by
  unfold execIbxn
  refine checkedBy_wf _ _ hm (fun u hu => ?_) _ _
  simp [hu]
@[simp] theorem execUien_wf (a d : Reg) (s : State) (hm : Memory.wf s.mem = true) : AnsWf (execUien a d s) := by simp [execUien, hm]
@[simp] theorem execUiret_wf (s : State) (hm : Memory.wf s.mem = true) : AnsWf (execUiret s) := by simp [execUiret, hm]

/-! ### Loads and stores -/

@[simp] theorem loadFrom_wf (acq : Option Nat) (a : Word) (size : Nat) (nat : Bool) (d : Reg) (s : State) (hm : Memory.wf s.mem = true) :
    Memory.wf (loadFrom acq a size nat d s).mem = true := by
  unfold loadFrom
  refine State.ordered_wf _ _ hm (fun u hu => State.withPhys_wf _ _ _ _ hu fun p n v hv => State.ownDevice_wf _ _ hv (fun x hx => ?_) _ _) _
  dsimp only
  repeat' split
  all_goals simp [hx]
@[simp] theorem storeTo_wf (rel : Option Nat) (a : Word) (bs : List Byte) (s : State) (hm : Memory.wf s.mem = true) :
    Memory.wf (storeTo rel a bs s).mem = true := by
  grind [storeTo, State.ordered_wf, State.withPhys_wf, State.ownDevice_wf, State.pass_mem, State.stalls_mem, State.sendFar_mem,
      State.flush_mem, State.putSector_mem, State.sendWith_mem]
@[simp] theorem execLd_wf (p : BitVec 9) (o : BitVec 3) (n : BitVec 1) (z : BitVec 2) (a d : Reg) (s : State) (hm : Memory.wf s.mem = true)
    : AnsWf (execLd p o n z a d s) := by
  unfold execLd
  refine checkedBy_wf _ _ hm (fun u hu => ?_) _ _
  simp [hu]
@[simp] theorem execSt_wf (p : BitVec 9) (o : BitVec 3) (z : BitVec 2) (a d : Reg) (s : State) (hm : Memory.wf s.mem = true) :
    AnsWf (execSt p o z a d s) := by
  unfold execSt
  refine checkedBy_wf _ _ hm (fun u hu => ?_) _ _
  simp [hu]
@[simp] theorem execLdl_wf (p : BitVec 9) (o : BitVec 3) (n : BitVec 1) (z : BitVec 2) (a d : Reg) (s : State)
    (hm : Memory.wf s.mem = true) : AnsWf (execLdl p o n z a d s) := by
  unfold execLdl
  refine checkedBy_wf _ _ hm (fun u hu => ?_) _ _
  simp [hu]
@[simp] theorem execStl_wf (p : BitVec 9) (o : BitVec 3) (z : BitVec 2) (a d : Reg) (s : State) (hm : Memory.wf s.mem = true) :
    AnsWf (execStl p o z a d s) := by
  unfold execStl
  refine checkedBy_wf _ _ hm (fun u hu => ?_) _ _
  split <;> simp [hu]
@[simp] theorem execWellStoreLand_wf (s : State) (hm : Memory.wf s.mem = true) : AnsWf (execWellStoreLand s) := by
  unfold execWellStoreLand
  refine onEvent_wf _ _ hm fun e => ?_
  split <;> simp [hm]
@[simp] theorem putAtomic_wf (r : FarReq) (new : List Byte) (s : State) (hm : Memory.wf s.mem = true) :
    Memory.wf (putAtomic r new s).2.mem = true := by
  unfold putAtomic; split <;> simp [hm]
@[simp] theorem performForeign_wf (r : FarReq) (s : State) (hm : Memory.wf s.mem = true) : Memory.wf (performForeign r s).mem = true := by
  unfold performForeign
  repeat' split
  all_goals simp [hm]
@[simp] theorem performFar_wf (r : FarReq) (s : State) (hm : Memory.wf s.mem = true) : Memory.wf (performFar r s).mem = true := by
  grind [performFar, State.foldl_wf, State.landMem_wf, putAtomic_wf, State.modThread_mem, State.later_mem, State.holdLine_mem,
      State.answered_mem, State.fillSector_mem, State.refresh_mem, State.dropClean_mem, deliver_mem, pumpReadDone_mem, amoFlags_mem,
      redNew_mem]
@[simp] theorem enterHome_wf (r : FarReq) (s : State) (f : State → State) (hm : Memory.wf s.mem = true)
    (hf : ∀ (u : State), Memory.wf u.mem = true → Memory.wf (f u).mem = true) : Memory.wf (enterHome r s f).mem = true := by
  grind [enterHome, State.arrivesAt_wf]
@[simp] theorem tryFar_wf (r : FarReq) (s : State) (hm : Memory.wf s.mem = true) : Memory.wf (tryFar r s).mem = true := by
  have asked := State.snoops_mem s r
  unfold tryFar
  generalize s.snoops r = x at asked ⊢
  obtain ⟨b, t⟩ := x
  cases b
  all_goals
    dsimp only at asked ⊢
    repeat' split
    all_goals simp [hm, asked]
@[simp] theorem execFarAccessPerform_wf (s : State) (hm : Memory.wf s.mem = true) : AnsWf (execFarAccessPerform s) := by
  unfold execFarAccessPerform
  refine onEvent_wf _ _ hm fun e => ?_
  split
  · split
    · simp [hm]
    · split
      · simp [hm]
      · exact enterHome_wf _ _ _ hm fun u hu => tryFar_wf _ u hu
  · exact hm
@[simp] theorem execRedAck_wf (s : State) (hm : Memory.wf s.mem = true) : AnsWf (execRedAck s) := by
  unfold execRedAck
  refine onEvent_wf _ _ hm fun e => ?_
  split <;> simp [hm]
@[simp] theorem execSliceLineEvict_wf (s : State) (hm : Memory.wf s.mem = true) : AnsWf (execSliceLineEvict s) := by
  unfold execSliceLineEvict
  refine onEvent_wf _ _ hm fun e => ?_
  split <;> simp [hm]
@[simp] theorem execHasha_wf (a d : Reg) (s : State) (hm : Memory.wf s.mem = true) : AnsWf (execHasha a d s) := by
  unfold execHasha
  refine checked_wf _ _ hm (fun u hu => ?_) _
  simp [hu]
@[simp] theorem execFence_wf (q : BitVec 3) (s : State) (hm : Memory.wf s.mem = true) : AnsWf (execFence q s) := by
  grind [execFence, checked_wf, State.withRelease_wf, State.modSelf_mem, State.pass_mem, State.trap_mem, State.acquire_mem]
@[simp] theorem State.sectorsIn_wf (s : State) (v : View) (acc : Access) (va n : Nat) (ok : Phys → Bool) (hm : Memory.wf s.mem = true) :
    Memory.wf (s.sectorsIn v acc va n ok).2.mem = true := by
  grind [State.sectorsIn, State.foldlSnd_wf, State.translateNow_wf]
@[simp] theorem cacheRange_wf (a n : Word) (s : State) (hm : Memory.wf s.mem = true) : Memory.wf (cacheRange a n s).2.mem = true := by
  unfold cacheRange; split <;> simp [hm]
@[simp] theorem writeBackRange_wf (a n : Word) (s : State) (f : (Nat → Bool) → State → State) (hm : Memory.wf s.mem = true)
    (hf : ∀ (x0 : (Nat → Bool)) (u : State), Memory.wf u.mem = true → Memory.wf (f x0 u).mem = true) :
    Memory.wf (writeBackRange a n s f).mem = true := by
  unfold writeBackRange
  dsimp only
  repeat' split
  all_goals simp [hm, hf]
@[simp] theorem execCwb_wf (b a : Reg) (s : State) (hm : Memory.wf s.mem = true) : AnsWf (execCwb b a s) := by
  grind [execCwb, checkedBy_wf, State.ordered_wf, writeBackRange_wf]
@[simp] theorem execCinv_wf (b a : Reg) (s : State) (hm : Memory.wf s.mem = true) : AnsWf (execCinv b a s) := by
  grind [execCinv, checkedBy_wf, State.ordered_wf, writeBackRange_wf, State.modCore_mem]
@[simp] theorem execPfx_wf (b a : Reg) (s : State) (hm : Memory.wf s.mem = true) : AnsWf (execPfx b a s) := by
  grind [execPfx, State.foldl_wf, checkedBy_wf, State.ordered_wf, State.sectorsIn_wf, State.pass_mem, State.sendFar_mem]

/-! ### Atomics -/

@[simp] theorem atomicGo_wf (acq : Option Nat) (a : Word) (size : Nat) (s : State) (f : Phys → Nat → State → State)
    (hm : Memory.wf s.mem = true) (hf : ∀ (x0 : Phys) (x1 : Nat) (u : State), Memory.wf u.mem = true → Memory.wf (f x0 x1 u).mem = true) :
    Memory.wf (atomicGo acq a size s f).mem = true := by
  grind [atomicGo, State.ordered_wf, State.withPhys_wf, State.ownDevice_wf, State.stalls_mem, State.dropSector_mem]
@[simp] theorem amo_wf (i : Instr) (op : AmoOp) (q : BitVec 3) (k : BitVec 2) (w : BitVec 1) (b a d : Reg) (s : State)
    (hm : Memory.wf s.mem = true) : AnsWf (amo i op q k w b a d s) := by
  unfold amo
  refine checkedBy_wf _ _ hm (fun u hu => ?_) _ _
  split <;> simp [hu]
@[simp] theorem red_wf (i : Instr) (op : AmoOp) (q : BitVec 3) (k : BitVec 2) (w : BitVec 1) (b a : Reg) (s : State)
    (hm : Memory.wf s.mem = true) : AnsWf (red i op q k w b a s) := by
  unfold red
  refine checkedBy_wf _ _ hm (fun u hu => ?_) _ _
  simp [hu]

/-! ### Tensor descriptors -/

@[simp] theorem State.segsOf_wf (s : State) (v : View) (acc : Access) (ps : List Piece) (hm : Memory.wf s.mem = true) :
    Memory.wf (s.segsOf v acc ps).2.mem = true := by
  unfold State.segsOf
  refine List.foldlRecOn (motive := fun x : Except MemFault (List Seg) × Option Nat × State => Memory.wf x.2.2.mem = true) _ _ hm ?_
  intro x hx y _
  grind [State.translateNow_wf]
@[simp] theorem State.scatter_wf (s : State) (h : Nat) (l : List Seg) (buf : List Byte) (hm : Memory.wf s.mem = true) :
    Memory.wf (s.scatter h l buf).mem = true := by
  unfold State.scatter
  refine State.foldl_wf _ _ _ (fun u x hu => ?_) hm
  dsimp only
  repeat' split
  all_goals simp [hu]
@[simp] theorem execTdef_wf (t : BitVec 8) (a : Reg) (s : State) (hm : Memory.wf s.mem = true) : AnsWf (execTdef t a s) := by
  grind [execTdef, checkedBy_wf, State.translateNow_wf, State.ordered_wf, State.blocks_mem, State.trap_mem, State.awaitAcks_mem,
      startDescRead_mem]
@[simp] theorem execTinv_wf (t : BitVec 8) (s : State) (hm : Memory.wf s.mem = true) : AnsWf (execTinv t s) := by
  grind [execTinv, checkedBy_wf, State.ordered_wf, State.pass_mem, State.blocks_mem, State.setTensor_mem, State.awaitAcks_mem]
@[simp] theorem execTableChangeAck_wf (s : State) (hm : Memory.wf s.mem = true) : AnsWf (execTableChangeAck s) := by
  unfold execTableChangeAck
  refine onEvent_wf _ _ hm fun e => ?_
  repeat' split
  all_goals simp [hm]
@[simp] theorem execTqry_wf (t : BitVec 8) (b d : Reg) (s : State) (hm : Memory.wf s.mem = true) : AnsWf (execTqry t b d s) := by
  simp [execTqry, hm]

/-! ### Tile accesses -/

@[simp] theorem performTile_wf (id : Nat) (a : TAcc) (s : State) (hm : Memory.wf s.mem = true) : Memory.wf (performTile id a s).mem = true := by
  unfold performTile
  dsimp only
  repeat' split
  all_goals simp [hm]
@[simp] theorem grantUnit_enter_wf (h id : Nat) (a : TAcc) (u : LockUnit) (s : State) (f : TAcc → State → State)
    (hm : Memory.wf s.mem = true) (hf : ∀ b v, Memory.wf v.mem = true → Memory.wf (f b v).mem = true) :
    Memory.wf (grantUnit.enter h id a u s f).mem = true := by
  unfold grantUnit.enter
  split
  · exact hf _ _ hm
  · dsimp only
    split
    · exact hf _ _ hm
    · refine State.arrivesAt_wf _ _ ?_ (hf _) _ _ _
      exact hm
@[simp] theorem grantUnit_wf (h id : Nat) (a : TAcc) (s : State) (hm : Memory.wf s.mem = true) : Memory.wf (grantUnit h id a s).mem = true := by
  unfold grantUnit
  split
  · simp [hm]
  · refine grantUnit_enter_wf h id a _ s _ hm fun b v hv => ?_
    dsimp only
    repeat' split
    all_goals simp [hv]
@[simp] theorem execTileLockGrant_wf (s : State) (hm : Memory.wf s.mem = true) : AnsWf (execTileLockGrant s) := by
  unfold execTileLockGrant
  refine onEvent_wf _ _ hm fun e => ?_
  dsimp only
  repeat' split
  all_goals simp [hm]
@[simp] theorem tileSegs_wf (d : Desc) (j : List Nat) (write race : Bool) (s : State) (f : List Seg → State → State)
    (hm : Memory.wf s.mem = true) (hf : ∀ (x0 : List Seg) (u : State), Memory.wf u.mem = true → Memory.wf (f x0 u).mem = true) :
    Memory.wf (tileSegs d j write race s f).mem = true := by
  grind [tileSegs, State.segsOf_wf, State.trap_mem, State.raceCheck_mem]
@[simp] theorem execTld_wf (t : BitVec 8) (b a : Reg) (o : BitVec 3) (s : State) (hm : Memory.wf s.mem = true) : AnsWf (execTld t b a o s) := by
  grind [execTld, checkedBy_wf, State.ordered_wf, tileSegs_wf, State.blocks_mem, State.startTile_mem]
@[simp] theorem execTst_wf (t : BitVec 8) (b a : Reg) (o : BitVec 3) (s : State) (hm : Memory.wf s.mem = true) : AnsWf (execTst t b a o s) := by
  grind [execTst, checkedBy_wf, State.ordered_wf, tileSegs_wf, State.pass_mem, State.stalls_mem, State.releaseBegin_mem, State.retires_mem,
      State.startTile_mem]

/-! ### Queues -/

@[simp] theorem execQueueWake_wf (s : State) (hm : Memory.wf s.mem = true) : AnsWf (execQueueWake s) := by
  unfold execQueueWake
  refine onEvent_wf _ _ hm fun e => ?_
  repeat' split
  all_goals simp [hm]
@[simp] theorem execQld_wf (a : Reg) (n : BitVec 2) (s : State) (hm : Memory.wf s.mem = true) : AnsWf (execQld a n s) := by
  unfold execQld
  refine checkedBy_wf _ _ hm (fun u hu => ?_) _ _
  simp [hu]
@[simp] theorem execQldEntryArrival_wf (s : State) (hm : Memory.wf s.mem = true) : AnsWf (execQldEntryArrival s) := by
  unfold execQldEntryArrival
  refine onEvent_wf _ _ hm fun e => ?_
  split <;> simp [hm]
@[simp] theorem execQst_wf (a : Reg) (n : BitVec 2) (s : State) (hm : Memory.wf s.mem = true) : AnsWf (execQst a n s) := by
  unfold execQst
  refine checkedBy_wf _ _ hm (fun u hu => ?_) _ _
  simp [hu]
@[simp] theorem execQpx_wf (b a : Reg) (n : BitVec 2) (s : State) (hm : Memory.wf s.mem = true) : AnsWf (execQpx b a n s) := by
  simp [execQpx, hm]

/-! ### Draws -/

@[simp] theorem execDraw_wf (t : BitVec 8) (a d : Reg) (s : State) (hm : Memory.wf s.mem = true) : AnsWf (execDraw t a d s) := by
  unfold execDraw
  refine checkedBy_wf _ _ hm (fun u hu => ?_) _ _
  dsimp only
  split
  · exact hu
  · simp [hu]
  · split
    · simp [hu]
    · refine State.gated_wf _ _ hu (fun v hv => State.withRelease_wf _ _ hv (fun x hx => ?_) _) _
      split <;> simp [hx]
@[simp] theorem execDcan_wf (a : Reg) (s : State) (hm : Memory.wf s.mem = true) : AnsWf (execDcan a s) := by
  unfold execDcan
  refine checkedBy_wf _ _ hm (fun u hu => ?_) _ _
  split <;> simp [hu]
@[simp] theorem execDstat_wf (a d : Reg) (s : State) (hm : Memory.wf s.mem = true) : AnsWf (execDstat a d s) := by simp [execDstat, hm]
@[simp] theorem claimTile_wf (core num idx slot : Nat) (d : Draw) (s : State) (hm : Memory.wf s.mem = true) :
    Memory.wf (claimTile core num idx slot d s).mem = true := by
  grind [claimTile, State.segsOf_wf, State.choose_mem, State.setDraw_mem, State.startTile_mem, State.claims_mem, State.finishDraw_mem,
      State.takeTurn_mem]
@[simp] theorem execDrawTileClaim_wf (s : State) (hm : Memory.wf s.mem = true) : AnsWf (execDrawTileClaim s) := by
  unfold execDrawTileClaim
  refine onEvent_wf _ _ hm fun e => ?_
  dsimp only
  repeat' split
  all_goals simp [hm]
@[simp] theorem execDrawTileLand_wf (s : State) (hm : Memory.wf s.mem = true) : AnsWf (execDrawTileLand s) := by
  unfold execDrawTileLand
  refine onEvent_wf _ _ hm fun e => ?_
  dsimp only
  repeat' split
  all_goals simp [hm]
@[simp] theorem execBodyStart_wf (s : State) (hm : Memory.wf s.mem = true) : AnsWf (execBodyStart s) := by
  unfold execBodyStart
  refine onEvent_wf _ _ hm fun e => ?_
  split <;> simp [hm]
@[simp] theorem execBdone_wf (s : State) (hm : Memory.wf s.mem = true) : AnsWf (execBdone s) := by
  grind [execBdone, checkedBy_wf, State.gated_wf, State.later_mem, State.pass_mem, State.raceClear_mem, State.releaseBegin_mem,
      State.setDraw_mem, State.endThread_mem]
@[simp] theorem execDrawCompleteMessage_wf (s : State) (hm : Memory.wf s.mem = true) : AnsWf (execDrawCompleteMessage s) := by
  unfold execDrawCompleteMessage
  refine onEvent_wf _ _ hm fun e => ?_
  dsimp only
  repeat' split
  case isTrue => exact State.atUnits_wf _ _ _ _ _ _ _ hm (fun u hu => hu) fun u hu => by simp [hu]
  all_goals simp [hm]

/-! ### Copies -/

@[simp] theorem copySegs_wf (s : State) (v : View) (h : Nat) (well : Bool) (acc : Access) (a : Word) (n : Nat)
    (hm : Memory.wf s.mem = true) : Memory.wf (copySegs s v h well acc a n).2.mem = true := by
  unfold copySegs; split <;> simp [hm]
@[simp] theorem counterCheck_wf (s : State) (v : View) (complete : Word) (hm : Memory.wf s.mem = true) :
    Memory.wf (counterCheck s v complete).2.mem = true := by
  grind [counterCheck, State.translateNow_wf]
theorem acceptCopy_wf (s t : State) (v : View) (h : Nat) (node kern : Option Nat) (r : CopyReq) (hm : Memory.wf s.mem = true)
    (e : acceptCopy s v h node kern r = .ok t) : Memory.wf t.mem = true := by
  have segs (b : Bool) (u : State) (well : Bool) (acc : Access) (a : Word) (n : Nat) (hu : Memory.wf u.mem = true) :
      Memory.wf (if b then copySegs u v h well acc a n else (.ok [], u)).2.mem = true := by
    cases b <;> simp [hu]
  unfold acceptCopy at e
  split at e
  · cases e
  · dsimp only at e
    generalize hx : (if decide (r.kind = .cpyt) = true then copySegs s v h r.srcWell _ _ _ else (.ok [], _)) = x at e
    have wx : Memory.wf x.2.mem = true := hx ▸ segs _ s _ _ _ _ hm
    generalize hy : (if decide (r.kind = .cpyt) = true then copySegs x.2 v h r.dstWell _ _ _ else (.ok [], _)) = y at e
    have wy : Memory.wf y.2.mem = true := hy ▸ segs _ x.2 _ _ _ _ wx
    have wz := counterCheck_wf y.2 v r.complete wy
    generalize counterCheck y.2 v r.complete = z at e wz
    obtain ⟨f | f, t⟩ := z
    all_goals
      dsimp only at e wz
      repeat' split at e
      all_goals cases e
      all_goals simp [wz]
@[simp] theorem copyInsn_wf (i : Instr) (r : State → CopyReq) (s : State) (hm : Memory.wf s.mem = true) : AnsWf (copyInsn i r s) := by
  unfold copyInsn
  refine checkedBy_wf _ _ hm (fun u hu => State.ordered_wf _ _ hu (fun v hv => ?_) _) _ _
  split
  · exact hv
  · split
    · simp [hv]
    · rename_i e
      simp [acceptCopy_wf _ _ _ _ _ _ _ hv e]
@[simp] theorem State.endCopy_wf (s : State) (id n : Nat) (c : Copy) (hm : Memory.wf s.mem = true) : Memory.wf (s.endCopy id n c).mem = true := by
  simp [State.endCopy, hm]
@[simp] theorem pageFault_wf (c : Copy) (o : Nat) (s : State) (hm : Memory.wf s.mem = true) : Memory.wf (pageFault c o s).2.mem = true := by
  grind [pageFault, State.translateNow_wf]
@[simp] theorem pieceFault_wf (c : Copy) (n : Nat) (s : State) (hm : Memory.wf s.mem = true) : Memory.wf (pieceFault c n s).2.mem = true := by
  grind [pieceFault, State.foldlSnd_wf, pageFault_wf]
@[simp] theorem pieceRead_wf (c : Copy) (n : Nat) (s : State) (hm : Memory.wf s.mem = true) : Memory.wf (pieceRead c n s).2.2.mem = true := by
  unfold pieceRead
  repeat' split
  all_goals simp [hm]
@[simp] theorem readPasses_wf (id : Nat) (c : Copy) (s : State) (hm : Memory.wf s.mem = true) : Memory.wf (readPasses id c s).2.mem = true := by
  unfold readPasses
  repeat' split
  all_goals simp [hm]
@[simp] theorem readPiece_wf (id : Nat) (c : Copy) (s : State) (hm : Memory.wf s.mem = true) : Memory.wf (readPiece id c s).2.mem = true := by
  grind [readPiece, State.foldl_wf, pieceFault_wf, pieceRead_wf, readPasses_wf, State.noteWait_mem, State.dropWait_mem,
      State.copyAnswered_mem]
@[simp] theorem writePiece_wf (id : Nat) (c : Copy) (s : State) (hm : Memory.wf s.mem = true) : Memory.wf (writePiece id c s).2.mem = true := by
  grind [writePiece, State.landMem_wf, State.landWell_mem, State.noteWait_mem, State.dropWait_mem, State.arrivesAt_mem,
      State.copyAnswered_mem, copyPasses_mem]
@[simp] theorem execCopyPiece_wf (s : State) (hm : Memory.wf s.mem = true) : AnsWf (execCopyPiece s) := by
  unfold execCopyPiece
  refine onEvent_wf _ _ hm fun e => ?_
  split
  · split
    · exact hm
    · split
      · exact hm
      · rename_i id _ c _ _
        have wrote := writePiece_wf id c s hm
        generalize writePiece id c s = x at wrote ⊢
        have read := readPiece_wf id x.1 x.2 wrote
        dsimp only
        generalize readPiece id x.1 x.2 = y at read ⊢
        repeat' split
        all_goals simp [read]
  · exact hm
@[simp] theorem execCopytRead_wf (s : State) (hm : Memory.wf s.mem = true) : AnsWf (execCopytRead s) := by
  unfold execCopytRead
  refine onEvent_wf _ _ hm fun e => ?_
  repeat' split
  all_goals simp [hm]
@[simp] theorem execCopytWrite_wf (s : State) (hm : Memory.wf s.mem = true) : AnsWf (execCopytWrite s) := by
  unfold execCopytWrite
  refine onEvent_wf _ _ hm fun e => ?_
  repeat' split
  all_goals simp [hm]
@[simp] theorem execCopyComplete_wf (s : State) (hm : Memory.wf s.mem = true) : AnsWf (execCopyComplete s) := by
  unfold execCopyComplete
  refine onEvent_wf _ _ hm fun e => ?_
  split
  · split
    · exact hm
    · rename_i c _
      have found := State.translateNow_wf s (copyView c) (counterAddr c.complete) .write hm
      dsimp only
      repeat' split
      case h_2.isFalse => 
        rename_i e _
        rw [e] at found
        exact State.atUnits_wf _ _ _ _ _ _ _ found (fun u hu => hu) fun u hu => by simp [hu]
      all_goals simp_all
  · exact hm

/-! ### Lanes -/

@[simp] theorem vectorInsn_wf (i : Instr) (readsD : Bool) (limits : State → Option (Nat × Word)) (s : State)
    (f : State → List VReg → VReg × List Fl) (hm : Memory.wf s.mem = true) : AnsWf (vectorInsn i readsD limits s f) := by
  unfold vectorInsn
  repeat' split
  all_goals simp [hm]
@[simp] theorem lanewise_wf (i : Instr) (w : Nat) (s : State) (f : Nat → List Nat → Nat × Fl) (hm : Memory.wf s.mem = true) :
    AnsWf (lanewise i w s f) := by simp [lanewise, hm]
@[simp] theorem lanes2_wf (i : Instr) (w : Nat) (s : State) (f : Nat → Nat → Nat → Nat × Fl) (hm : Memory.wf s.mem = true) :
    AnsWf (lanes2 i w s f) := by simp [lanes2, hm]
@[simp] theorem lanes1_wf (i : Instr) (w : Nat) (s : State) (f : Nat → Nat → Nat × Fl) (hm : Memory.wf s.mem = true) :
    AnsWf (lanes1 i w s f) := by simp [lanes1, hm]

/-! ### Special functions -/

@[simp] theorem special_wf (i : Instr) (fn : SfuFn) (t : BitVec 3) (b a d : Reg) (s : State) (hm : Memory.wf s.mem = true) :
    AnsWf (special i fn t b a d s) := by simp [special, hm]
@[simp] theorem execSfuStart_wf (s : State) (hm : Memory.wf s.mem = true) : AnsWf (execSfuStart s) := by
  unfold execSfuStart
  refine onEvent_wf _ _ hm fun e => ?_
  dsimp only
  repeat' split
  all_goals simp [hm]
@[simp] theorem execSfuComplete_wf (s : State) (hm : Memory.wf s.mem = true) : AnsWf (execSfuComplete s) := by
  unfold execSfuComplete
  refine onEvent_wf _ _ hm fun e => ?_
  repeat' split
  all_goals simp [hm]

/-! ### Wide accumulators -/

@[simp] theorem wideAdd_wf (i : Instr) (width : Nat) (w : Reg) (s : State) (f : WAcc → Nat → Nat → WAcc × Fl) (hm : Memory.wf s.mem = true)
    : AnsWf (wideAdd i width w s f) := by simp [wideAdd, hm]
@[simp] theorem execWclr_wf (w : Reg) (s : State) (hm : Memory.wf s.mem = true) : AnsWf (execWclr w s) := by simp [execWclr, hm]
@[simp] theorem fromWide_wf (i : Instr) (w d : Reg) (s : State) (f : State → WAcc → VReg × List Fl) (hm : Memory.wf s.mem = true) :
    AnsWf (fromWide i w d s f) := by simp [fromWide, hm]
@[simp] theorem execWload_wf (a w : Reg) (s : State) (hm : Memory.wf s.mem = true) : AnsWf (execWload a w s) := by simp [execWload, hm]

/-! ### Hashing -/

@[simp] theorem hashInsn_wf (i : Instr) (t : BitVec 8) (write : Bool) (s : State) (hm : Memory.wf s.mem = true) :
    AnsWf (hashInsn i t write s) := by
  grind [hashInsn, checkedBy_wf, State.fresh_mem, State.later_mem, State.blocks_mem, onQueues_mem, State.pushQueue_mem,
      State.takeOperands_mem]
@[simp] theorem execHashAccessComplete_wf (s : State) (hm : Memory.wf s.mem = true) : AnsWf (execHashAccessComplete s) := by
  unfold execHashAccessComplete
  refine onEvent_wf _ _ hm fun e => ?_
  dsimp only
  repeat' split
  all_goals simp [hm]

/-! ### Cisterns -/

@[simp] theorem execCisternRowMove_wf (s : State) (hm : Memory.wf s.mem = true) : AnsWf (execCisternRowMove s) := by
  unfold execCisternRowMove
  refine onEvent_wf _ _ hm fun e => ?_
  dsimp only
  repeat' split
  all_goals simp [hm]
@[simp] theorem execVldc_wf (a d : Reg) (s : State) (hm : Memory.wf s.mem = true) : AnsWf (execVldc a d s) := by simp [execVldc, hm]
@[simp] theorem execVstc_wf (a d : Reg) (s : State) (hm : Memory.wf s.mem = true) : AnsWf (execVstc a d s) := by simp [execVstc, hm]
@[simp] theorem execVwaitc_wf (n : BitVec 5) (s : State) (hm : Memory.wf s.mem = true) : AnsWf (execVwaitc n s) := by simp [execVwaitc, hm]
@[simp] theorem execMzero_wf (c : BitVec 6) (d : Reg) (s : State) (hm : Memory.wf s.mem = true) : AnsWf (execMzero c d s) := by
  simp [execMzero, hm]
@[simp] theorem execMcopy_wf (c : BitVec 6) (a : Reg) (s : State) (hm : Memory.wf s.mem = true) : AnsWf (execMcopy c a s) := by
  simp [execMcopy, hm]
@[simp] theorem execMldc_wf (c : BitVec 6) (a : Reg) (s : State) (hm : Memory.wf s.mem = true) : AnsWf (execMldc c a s) := by
  grind [execMldc, checkedBy_wf, State.ordered_wf, State.modCore_mem, State.later_mem, State.pass_mem, State.stalls_mem, State.trap_mem,
      State.raceCheck_mem]
@[simp] theorem execMldcPerform_wf (s : State) (hm : Memory.wf s.mem = true) : AnsWf (execMldcPerform s) := by
  unfold execMldcPerform
  refine onEvent_wf _ _ hm fun e => ?_
  split
  · dsimp only
    split
    · exact hm
    · split
      · simp [hm]
      · split
        · exact hm
        · refine State.atUnits_wf _ _ _ _ _ _ _ hm (fun u hu => hu) fun u hu => ?_
          repeat' split
          all_goals simp [hu]
  · exact hm
@[simp] theorem execMstc_wf (c : BitVec 6) (a : Reg) (s : State) (hm : Memory.wf s.mem = true) : AnsWf (execMstc c a s) := by
  grind [execMstc, checkedBy_wf, State.ordered_wf, State.pass_mem, State.stalls_mem, State.trap_mem, State.raceCheck_mem, raiseFl_mem,
      storeRows_mem]

/-! ### Matrix instructions -/

@[simp] theorem State.commitRead_wf (s : State) (h : Nat) (va : Word) (n : Nat) (hm : Memory.wf s.mem = true) :
    Memory.wf (s.commitRead h va n).mem = true := by
  unfold State.commitRead
  refine State.foldl_wf _ _ _ (fun u x hu => ?_) hm
  split
  simp [hu]
@[simp] theorem execMulticastRegister_wf (s : State) (hm : Memory.wf s.mem = true) : AnsWf (execMulticastRegister s) := by
  unfold execMulticastRegister
  refine onEvent_wf _ _ hm fun e => ?_
  dsimp only
  repeat' split
  all_goals simp [hm]
@[simp] theorem execMulticastLaunch_wf (s : State) (hm : Memory.wf s.mem = true) : AnsWf (execMulticastLaunch s) := by
  have given (segs : List (Nat × Nat × Nat)) (x : Mcast) (u v : State) (hv : Memory.wf v.mem = true) : Memory.wf (x.members.foldl (fun s m
      => match s.job m.h with
      | none => s
      | some j =>
        let at_ := s.cycle + 6 + 2 * hops x.owner (coreOf m.h)
        let s := s.modPrep m.h m.idx fun p =>
          if m.isA then { p with a := some (segs.map fun (c, o, n) => u.wellRead c o n), aAt := some at_, regA := none }
          else { p with b := some (segs.map fun (c, o, n) => u.wellRead c o n), bAt := some at_, regB := none }
        s.at_ at_ (.operandArrival m.h j.since m.idx)) v).mem = true := by
    refine State.foldl_wf _ _ _ (fun y m hy => ?_) hv
    split <;> simp [hy]
  unfold execMulticastLaunch
  refine onEvent_wf _ _ hm fun e => ?_
  split
  · dsimp only
    split
    · exact hm
    · split
      · exact hm
      · split
        · exact hm
        · refine State.atUnits_wf _ _ _ _ _ _ _ hm (fun u hu => hu) fun u hu => ?_
          split
          · simp [hu]
          · exact given _ _ _ _ hu
  · exact hm
@[simp] theorem execGroupWatchdogExpiry_wf (s : State) (hm : Memory.wf s.mem = true) : AnsWf (execGroupWatchdogExpiry s) := by
  unfold execGroupWatchdogExpiry
  refine onEvent_wf _ _ hm fun e => ?_
  dsimp only
  repeat' split
  all_goals simp [hm]
@[simp] theorem execOperandArrival_wf (s : State) (hm : Memory.wf s.mem = true) : AnsWf (execOperandArrival s) := by
  unfold execOperandArrival
  refine onEvent_wf _ _ hm fun e => ?_
  dsimp only
  repeat' split
  all_goals simp [hm]
@[simp] theorem execMspwEntryArrival_wf (s : State) (hm : Memory.wf s.mem = true) : AnsWf (execMspwEntryArrival s) := by
  unfold execMspwEntryArrival
  refine onEvent_wf _ _ hm fun e => ?_
  dsimp only
  repeat' split
  all_goals simp [hm]
@[simp] theorem commitStep_wf (h : Nat) (j : MatJob) (s : State) (hm : Memory.wf s.mem = true) : Memory.wf (commitStep h j s).mem = true := by
  grind [commitStep, State.foldl_wf, State.forUpto_wf, State.commitRead_wf, State.addDelay_mem]
@[simp] theorem startStep_wf (c slot : Nat) (j : MatJob) (s : State) (hm : Memory.wf s.mem = true) :
    Memory.wf (startStep c slot j s).mem = true := by
  grind [startStep, commitStep_wf, State.modCore_mem, State.at__mem, State.later_mem, State.raceCheck_mem, prepareStep_mem, trapJob_mem]
@[simp] theorem execMatrixStepStart_wf (s : State) (hm : Memory.wf s.mem = true) : AnsWf (execMatrixStepStart s) := by
  unfold execMatrixStepStart
  refine onEvent_wf _ _ hm fun e => ?_
  dsimp only
  repeat' split
  all_goals simp [hm]
@[simp] theorem execMatrixStepEnd_wf (s : State) (hm : Memory.wf s.mem = true) : AnsWf (execMatrixStepEnd s) := by
  unfold execMatrixStepEnd
  refine onEvent_wf _ _ hm fun e => ?_
  dsimp only
  repeat' split
  all_goals simp [hm]
@[simp] theorem mmaInsn_wf (i : Instr) (c : BitVec 6) (masked : Bool) (b a d : Reg) (s : State) (hm : Memory.wf s.mem = true) :
    AnsWf (mmaInsn i c masked b a d s) := by
  grind [mmaInsn, checkedBy_wf, State.ordered_wf, prepareStep_mem, startJob_mem]
@[simp] theorem mspwInsn_wf (i : Instr) (c : BitVec 6) (mask : Option Reg) (b a : Reg) (s : State) (hm : Memory.wf s.mem = true) :
    AnsWf (mspwInsn i c mask b a s) := by
  unfold mspwInsn
  refine checkedBy_wf _ _ hm (fun u hu => State.ordered_wf _ _ hu (fun v hv => ?_) _) _ _
  split
  · dsimp only
    rw [startJob_mem _ _ (fun n s => forUpto _ s fun k s => s.later k _) _ fun n u => State.forUpto_mem _ _ _ fun _ _ => rfl]
    exact hv
  · exact hv

/-! ### Near-bank steps -/

@[simp] theorem State.withKnown_wf (s : State) (va : Word) (acc : Access) (f : Phys → State → State) (hm : Memory.wf s.mem = true)
    (hf : ∀ (x0 : Phys) (u : State), Memory.wf u.mem = true → Memory.wf (f x0 u).mem = true) :
    Memory.wf (s.withKnown va acc f).mem = true := by
  grind [State.withKnown, State.withPhys_wf, State.awaitLevel_mem]
@[simp] theorem withSources_wf (as : List Word) :
    ∀ (acc : List Phys) (f : List Phys → State → State) (s : State), Memory.wf s.mem = true → (∀ l u,
      Memory.wf u.mem = true → Memory.wf (f l u).mem = true) → Memory.wf (withSources as acc f s).mem = true := by
  induction as with
  | nil => intro acc f s hm hf; exact hf acc s hm
  | cons a as ih => intro acc f s hm hf; exact State.withKnown_wf _ _ _ _ hm fun p u hu => ih _ f u hu hf
@[simp] theorem bankInsn_wf (i : Instr) (op : BkOp) (n : Nat) (b a d : Reg) (s : State) (hm : Memory.wf s.mem = true) :
    AnsWf (bankInsn i op n b a d s) := by
  grind [bankInsn, checkedBy_wf, State.ordered_wf, State.withKnown_wf, withSources_wf, State.setX_mem, State.pass_mem, State.stalls_mem,
      acceptBank_mem]
@[simp] theorem execBkProbeStart_wf (s : State) (hm : Memory.wf s.mem = true) : AnsWf (execBkProbeStart s) := by
  grind [execBkProbeStart, onEvent_wf, State.admitAt_wf, State.later_mem, State.pruneLocks_mem, takeMarks_mem]
@[simp] theorem execBkStep_wf (s : State) (hm : Memory.wf s.mem = true) : AnsWf (execBkStep s) := by
  grind [execBkStep, onEvent_wf, State.writeBytes_wf, State.later_mem]
@[simp] theorem execBkComplete_wf (s : State) (hm : Memory.wf s.mem = true) : AnsWf (execBkComplete s) := by
  unfold execBkComplete
  refine onEvent_wf _ _ hm fun e => ?_
  dsimp only
  repeat' split
  all_goals simp [hm]

/-! ### Pumps and overlays -/

@[simp] theorem execOvld_wf (b a d : Reg) (s : State) (hm : Memory.wf s.mem = true) : AnsWf (execOvld b a d s) := by
  grind [execOvld, checkedBy_wf, State.gated_wf, State.withPhys_wf, sendOvld_mem]
@[simp] theorem execOvldGo_wf (b a d : Reg) (s : State) (hm : Memory.wf s.mem = true) : AnsWf (execOvldGo b a d s) := by
  simp [execOvldGo, hm]
@[simp] theorem execOvldAccept_wf (s : State) (hm : Memory.wf s.mem = true) : AnsWf (execOvldAccept s) := by
  unfold execOvldAccept
  refine onEvent_wf _ _ hm fun e => ?_
  split <;> simp [hm]
@[simp] theorem execOvldStatus_wf (s : State) (hm : Memory.wf s.mem = true) : AnsWf (execOvldStatus s) := by
  unfold execOvldStatus
  refine onEvent_wf _ _ hm fun e => ?_
  dsimp only
  repeat' split
  all_goals simp [hm]
@[simp] theorem execOverlayLoaded_wf (s : State) (hm : Memory.wf s.mem = true) : AnsWf (execOverlayLoaded s) := by
  unfold execOverlayLoaded
  refine onEvent_wf _ _ hm fun e => ?_
  split <;> simp [hm]
@[simp] theorem reportEnd_wf (c : Nat) (l : Launch) (status : Nat) (val : Word) (s : State) (hm : Memory.wf s.mem = true) :
    Memory.wf (reportEnd c l status val s).mem = true := by
  grind [reportEnd, putRaw_wf, State.afterWrite_wf, State.later_mem, postMsg_mem, failNode_mem]
@[simp] theorem reportEnds_wf (c : Nat) (s : State) (hm : Memory.wf s.mem = true) : Memory.wf (reportEnds c s).mem = true := by
  unfold reportEnds
  dsimp only
  refine State.foldl_wf _ _ _ (fun u e hu => by simp [hu]) ?_
  generalize s.mustWait _ _ _ _ = locked
  cases locked
  all_goals
    simp only [Bool.false_eq_true, ↓reduceIte]
    split <;> exact hm
@[simp] theorem execKernelLaunchStart_wf (s : State) (hm : Memory.wf s.mem = true) : AnsWf (execKernelLaunchStart s) := by
  unfold execKernelLaunchStart
  refine onEvent_wf _ _ hm fun e => ?_
  split <;> simp [hm]
@[simp] theorem execLaunchPageQueue_wf (s : State) (hm : Memory.wf s.mem = true) : AnsWf (execLaunchPageQueue s) := by
  unfold execLaunchPageQueue
  refine onEvent_wf _ _ hm fun e => ?_
  split <;> simp [hm]
@[simp] theorem execPumpKernelSaveTimeout_wf (s : State) (hm : Memory.wf s.mem = true) : AnsWf (execPumpKernelSaveTimeout s) := by
  unfold execPumpKernelSaveTimeout
  refine onEvent_wf _ _ hm fun e => ?_
  split <;> simp [hm]
@[simp] theorem State.pumpRuns_wf (s : State) (acc : Access) (a : Word) (n : Nat) (hm : Memory.wf s.mem = true) :
    Memory.wf (s.pumpRuns acc a n).2.mem = true := by
  grind [State.pumpRuns, State.foldlSnd_wf, State.translateNow_wf]
@[simp] theorem execPrd_wf (b a d : Reg) (s : State) (hm : Memory.wf s.mem = true) : AnsWf (execPrd b a d s) := by
  grind [execPrd, checkedBy_wf, State.pumpRuns_wf, State.modPump_mem, State.stalls_mem, State.trap_mem, State.sendLines_mem]
@[simp] theorem pumpStore_wf (b a d : Reg) (val : Word → Word) (s : State) (hm : Memory.wf s.mem = true) :
    Memory.wf (pumpStore b a d val s).mem = true := by
  grind [pumpStore, State.pumpRuns_wf, State.pass_mem, State.stalls_mem, State.trap_mem, State.sendLines_mem]
@[simp] theorem execPwr_wf (b a d : Reg) (s : State) (hm : Memory.wf s.mem = true) : AnsWf (execPwr b a d s) := by
  unfold execPwr
  refine checkedBy_wf _ _ hm (fun u hu => ?_) _ _
  simp [hu]
@[simp] theorem execPpush_wf (b a d : Reg) (s : State) (hm : Memory.wf s.mem = true) : AnsWf (execPpush b a d s) := by
  unfold execPpush
  refine checkedBy_wf _ _ hm (fun u hu => ?_) _ _
  dsimp only
  split <;> simp [hu]
@[simp] theorem execPend_wf (s : State) (hm : Memory.wf s.mem = true) : AnsWf (execPend s) := by
  unfold execPend
  refine checked_wf _ _ hm (fun u hu => ?_) _
  dsimp only
  repeat' split
  all_goals simp [hu]
@[simp] theorem execZeroFillStep_wf (s : State) (hm : Memory.wf s.mem = true) : AnsWf (execZeroFillStep s) := by
  unfold execZeroFillStep
  refine onEvent_wf _ _ hm fun e => ?_
  split <;> simp [hm]

/-! ### Tasks -/

@[simp] theorem execTqadd_wf (a : Reg) (s : State) (hm : Memory.wf s.mem = true) : AnsWf (execTqadd a s) := by simp [execTqadd, hm]
@[simp] theorem execTqtake_wf (d : Reg) (s : State) (hm : Memory.wf s.mem = true) : AnsWf (execTqtake d s) := by simp [execTqtake, hm]
@[simp] theorem execTqtry_wf (d : Reg) (s : State) (hm : Memory.wf s.mem = true) : AnsWf (execTqtry d s) := by simp [execTqtry, hm]
@[simp] theorem execTcmt_wf (s : State) (hm : Memory.wf s.mem = true) : AnsWf (execTcmt s) := by simp [execTcmt, hm]
@[simp] theorem execTdone_wf (s : State) (hm : Memory.wf s.mem = true) : AnsWf (execTdone s) := by simp [execTdone, hm]
@[simp] theorem execTqRequestPerform_wf (s : State) (hm : Memory.wf s.mem = true) : AnsWf (execTqRequestPerform s) := by
  unfold execTqRequestPerform
  refine onEvent_wf _ _ hm fun e => ?_
  split
  · split
    · exact hm
    · rename_i r _ q _
      have taken := State.takeTask_mem s r.part q
      dsimp only
      split
      · refine State.admitAt_wf _ _ hm (fun u hu => ?_) _
        exact hu
      · repeat' split
        all_goals simp [hm]
  · exact hm
@[simp] theorem execTaskReinsert_wf (s : State) (hm : Memory.wf s.mem = true) : AnsWf (execTaskReinsert s) := by
  unfold execTaskReinsert
  refine onEvent_wf _ _ hm fun e => ?_
  split <;> simp [hm]
@[simp] theorem execTqAnswer_wf (s : State) (hm : Memory.wf s.mem = true) : AnsWf (execTqAnswer s) := by
  unfold execTqAnswer
  refine onEvent_wf _ _ hm fun e => ?_
  repeat' split
  all_goals simp [hm]

/-! ### Parking -/

@[simp] theorem execTexit_wf (s : State) (hm : Memory.wf s.mem = true) : AnsWf (execTexit s) := by
  grind [execTexit, checkedBy_wf, State.gated_wf, State.later_mem, State.blocks_mem]
@[simp] theorem execTexitRetire_wf (s : State) (hm : Memory.wf s.mem = true) : AnsWf (execTexitRetire s) := by
  unfold execTexitRetire
  refine onEvent_wf _ _ hm fun e => ?_
  dsimp only
  repeat' split
  all_goals simp [hm]
@[simp] theorem execParkRequestEffect_wf (s : State) (hm : Memory.wf s.mem = true) : AnsWf (execParkRequestEffect s) := by
  grind [execParkRequestEffect, onEvent_wf, State.modThread_mem, State.later_mem, State.disband_mem, State.withdraw_mem, State.freeze_mem]
@[simp] theorem execUiDelivery_wf (s : State) (hm : Memory.wf s.mem = true) : AnsWf (execUiDelivery s) := by
  unfold execUiDelivery
  refine onEvent_wf _ _ hm fun e => ?_
  dsimp only
  repeat' split
  case h_2 e => simp [State.withdraw_mem _ _ _ e, hm]
  all_goals simp [hm]

/-! ### Scheduling -/

@[simp] theorem readRecord_wf (c q : Nat) (x : Ctx) (s : State) (hm : Memory.wf s.mem = true) : Memory.wf (readRecord c q x s).2.mem = true := by
  grind [readRecord, State.checkRange_wf, State.readVirt_wf]
@[simp] theorem execNotifyWrite_wf (s : State) (hm : Memory.wf s.mem = true) : AnsWf (execNotifyWrite s) := by
  unfold execNotifyWrite
  refine onEvent_wf _ _ hm fun e => ?_
  split
  · split
    · exact hm
    · rename_i c v _ x _
      dsimp only
      repeat' split
      case isFalse =>
        refine State.foldl_wf _ _ _ (fun u i hu => ?_) (by simp [hm])
        have read := readRecord_wf c (x.accepted + i) x u hu
        generalize readRecord c (x.accepted + i) x u = y at read ⊢
        obtain ⟨_ | _, t⟩ := y
        all_goals
          dsimp only at read ⊢
          split <;> simp [hu, read]
      all_goals simp [hm]
  · exact hm
@[simp] theorem execNodeComplete_wf (s : State) (hm : Memory.wf s.mem = true) : AnsWf (execNodeComplete s) := by
  unfold execNodeComplete
  refine onEvent_wf _ _ hm fun e => ?_
  dsimp only
  repeat' split
  all_goals simp [hm]
@[simp] theorem execRetiredUpdate_wf (s : State) (hm : Memory.wf s.mem = true) : AnsWf (execRetiredUpdate s) := by
  unfold execRetiredUpdate
  refine onEvent_wf _ _ hm fun e => ?_
  split
  · split
    · exact hm
    · rename_i c _ x _
      have found := State.translateNow_wf s (cmdView c) (x.notify + 8) .write hm
      generalize s.translateNow (cmdView c) (x.notify + 8) .write = y at found ⊢
      obtain ⟨_ | _, t⟩ := y
      all_goals
        dsimp only at found ⊢
        repeat' split
        all_goals simp [hm, found]
  · exact hm
@[simp] theorem obtain_wf (c q : Nat) (l : List Nat) (s : State) (f : State → State) (hm : Memory.wf s.mem = true)
    (hf : ∀ (u : State), Memory.wf u.mem = true → Memory.wf (f u).mem = true) : Memory.wf (obtain c q l s f).mem = true := by
  unfold obtain
  dsimp only
  repeat' split
  all_goals simp [hm, hf]
@[simp] theorem execTimeSliceExpiry_wf (s : State) (hm : Memory.wf s.mem = true) : AnsWf (execTimeSliceExpiry s) := by
  unfold execTimeSliceExpiry
  refine onEvent_wf _ _ hm fun e => ?_
  dsimp only
  repeat' split
  all_goals simp [hm]
@[simp] theorem execContextComplete_wf (s : State) (hm : Memory.wf s.mem = true) : AnsWf (execContextComplete s) := by
  unfold execContextComplete
  refine onEvent_wf _ _ hm fun e => ?_
  repeat' split
  all_goals simp [hm]
@[simp] theorem beginNode_wf (c q : Nat) (s : State) (f : Ctx → Node → State → State) (hm : Memory.wf s.mem = true)
    (hf : ∀ (x0 : Ctx) (x1 : Node) (u : State), Memory.wf u.mem = true → Memory.wf (f x0 x1 u).mem = true) :
    Memory.wf (beginNode c q s f).mem = true := by
  unfold beginNode
  dsimp only
  repeat' split
  all_goals simp [hm, hf]
@[simp] theorem withChecks_wf (c q : Nat) (l : List (Bool × Nat × Word)) (s : State) (f : State → State) (hm : Memory.wf s.mem = true)
    (hf : ∀ (u : State), Memory.wf u.mem = true → Memory.wf (f u).mem = true) : Memory.wf (withChecks c q l s f).mem = true := by
  unfold withChecks; split <;> simp [hm, hf]
@[simp] theorem withReadable_wf (c q : Nat) (a : Word) (n : Nat) (s : State) (f : List Byte → State → State) (hm : Memory.wf s.mem = true)
    (hf : ∀ (x0 : List Byte) (u : State), Memory.wf u.mem = true → Memory.wf (f x0 u).mem = true) :
    Memory.wf (withReadable c q a n s f).mem = true := by
  grind [withReadable, State.checkRange_wf, State.readVirt_wf, State.later_mem, failNode_mem]
@[simp] theorem withImage_wf (c q : Nat) (n : Node) (cores : List Nat) (s : State) (f : List Byte → State → State)
    (hm : Memory.wf s.mem = true) (hf : ∀ (x0 : List Byte) (u : State), Memory.wf u.mem = true → Memory.wf (f x0 u).mem = true) :
    Memory.wf (withImage c q n cores s f).mem = true := by
  grind [withImage, State.readVirt_wf, State.atUnits_wf, State.later_mem, State.modNode_mem]
@[simp] theorem startPlaced_wf (c q : Nat) (n : Node) (s : State) (hm : Memory.wf s.mem = true) : Memory.wf (startPlaced c q n s).mem = true := by
  grind [startPlaced, State.foldl_wf, withImage_wf, State.modThread_mem, State.modCore_mem, State.landWell_mem, State.dropClean_mem,
      State.wakePartner_mem, State.modNode_mem]
@[simp] theorem execKernelNode_wf (s : State) (hm : Memory.wf s.mem = true) : AnsWf (execKernelNode s) := by
  unfold execKernelNode
  refine onEvent_wf _ _ hm fun e => ?_
  split
  · dsimp only
    split
    · split <;> simp [hm]
    · refine beginNode_wf _ _ _ _ hm fun x n u hu => withChecks_wf _ _ _ _ _ hu fun v hv => withReadable_wf _ _ _ _ _ _ hv fun bs y hy =>
        withReadable_wf _ _ _ _ _ _ hy fun _ z hz => ?_
      split
      · simp [hz]
      · split
        · simp [hz]
        · exact obtain_wf _ _ _ _ _ hz fun a ha => by simp [ha]
  · exact hm
@[simp] theorem execCopyNode_wf (s : State) (hm : Memory.wf s.mem = true) : AnsWf (execCopyNode s) := by
  unfold execCopyNode
  refine onEvent_wf _ _ hm fun e => ?_
  split
  · refine beginNode_wf _ _ _ _ hm fun x n u hu => withChecks_wf _ _ _ _ _ hu fun v hv => ?_
    dsimp only
    split
    · simp [hv]
    · rename_i e
      simp [acceptCopy_wf _ _ _ _ _ _ _ hv e]
  · exact hm
@[simp] theorem execNearMemoryNode_wf (s : State) (hm : Memory.wf s.mem = true) : AnsWf (execNearMemoryNode s) := by
  unfold execNearMemoryNode
  refine onEvent_wf _ _ hm fun e => ?_
  split <;> simp [hm]
@[simp] theorem State.nextCores_wf (s : State) (c : Nat) (x : Ctx) (hm : Memory.wf s.mem = true) : Memory.wf (s.nextCores c x).2.mem = true := by
  grind [State.nextCores, State.checkRange_wf, State.readVirt_wf]
@[simp] theorem withSource_wf (on : Bool) (c q : Nat) (a : Word) (n : Nat) (s : State) (f : List Byte → State → State)
    (hm : Memory.wf s.mem = true) (hf : ∀ (x0 : List Byte) (u : State), Memory.wf u.mem = true → Memory.wf (f x0 u).mem = true) :
    Memory.wf (withSource on c q a n s f).mem = true := by
  grind [withSource, withReadable_wf]
@[simp] theorem withLaunchPage_wf (on : Bool) (c q : Nat) (a : Word) (s : State) (f : Option Nat → State → State)
    (hm : Memory.wf s.mem = true) (hf : ∀ (x0 : Option Nat) (u : State), Memory.wf u.mem = true → Memory.wf (f x0 u).mem = true) :
    Memory.wf (withLaunchPage on c q a s f).mem = true := by
  grind [withLaunchPage, State.translateNow_wf, failNode_mem]
@[simp] theorem readSources_wf (c q : Nat) (x : Ctx) (n : Node) (s : State) (hm : Memory.wf s.mem = true) :
    Memory.wf (readSources c q x n s).mem = true := by
  grind [readSources, withChecks_wf, withSource_wf, withLaunchPage_wf, failNode_mem, State.modNode_mem, State.evalLater_mem]
@[simp] theorem applyModes_wf (c q : Nat) (x : Ctx) (n : Node) (s : State) (hm : Memory.wf s.mem = true) :
    Memory.wf (applyModes c q x n s).mem = true := by
  grind [applyModes, State.foldl_wf, State.translateNow_wf, State.checkRange_wf, State.landMem_wf, State.modCtx_mem, State.later_mem,
      failNode_mem, State.syncModes_mem, State.emptyRace_mem]
@[simp] theorem execConfigureNode_wf (s : State) (hm : Memory.wf s.mem = true) : AnsWf (execConfigureNode s) := by
  grind [execConfigureNode, onEvent_wf, obtain_wf, beginNode_wf, State.nextCores_wf, readSources_wf, applyModes_wf, State.modNode_mem,
      State.takeCores_mem]
@[simp] theorem evaluate_wf (c q : Nat) (s : State) (bad : Node → List (Bool × Nat × Word)) (f : Node → Word → State → State)
    (hm : Memory.wf s.mem = true) (hf : ∀ (x0 : Node) (x1 : Word) (u : State), Memory.wf u.mem = true → Memory.wf (f x0 x1 u).mem = true) :
    Memory.wf (evaluate c q s bad f).mem = true := by
  grind [evaluate, beginNode_wf, withChecks_wf, withReadable_wf, State.modNode_mem, State.evalLater_mem]
@[simp] theorem execConditionNode_wf (s : State) (hm : Memory.wf s.mem = true) : AnsWf (execConditionNode s) := by
  grind [execConditionNode, onEvent_wf, evaluate_wf, State.later_mem]
@[simp] theorem execSwitchNode_wf (s : State) (hm : Memory.wf s.mem = true) : AnsWf (execSwitchNode s) := by
  grind [execSwitchNode, onEvent_wf, evaluate_wf, State.later_mem]
@[simp] theorem execLoopNode_wf (s : State) (hm : Memory.wf s.mem = true) : AnsWf (execLoopNode s) := by
  unfold execLoopNode
  refine onEvent_wf _ _ hm fun e => ?_
  split <;> simp [hm]

/-! ### Saves and restores -/

@[simp] theorem finishSave_wf (c : Nat) (s : State) (hm : Memory.wf s.mem = true) : Memory.wf (finishSave c s).mem = true := by
  have launches := takeLaunches_mem c s
  have overlays := takeOverlays_mem c (takeLaunches c s).2
  unfold finishSave
  dsimp only
  generalize takeLaunches c s = x at launches overlays ⊢
  generalize takeOverlays c x.2 = y at overlays ⊢
  have hy : Memory.wf y.2.mem = true := by rw [overlays, launches]; exact hm
  rw [State.serve_mem, State.freeCores_mem]
  split
  · refine State.afterWrite_wf _ _ _ _ (saveArea_wf _ _ _ _ ?_)
    simp [hy]
  · simp [hy]
@[simp] theorem execContextSave_wf (s : State) (hm : Memory.wf s.mem = true) : AnsWf (execContextSave s) := by
  unfold execContextSave
  refine onEvent_wf _ _ hm fun e => ?_
  split
  · split
    · exact hm
    · have met (l : List Nat) :
          (l.foldl (fun s h => s.modThread h fun t => { t with frozen := true, meets := some s.cycle }) s).mem = s.mem :=
        State.foldl_mem _ _ _ fun _ _ => rfl
      dsimp only
      repeat' split
      all_goals simp [hm, met]
  · exact hm
@[simp] theorem execContextRestore_wf (s : State) (hm : Memory.wf s.mem = true) : AnsWf (execContextRestore s) := by
  unfold execContextRestore
  have taken (c : Nat) (l : List Nat) : (l.foldl (fun s k => s.modCore k fun y => { y with holder := some c }) s).mem = s.mem :=
    State.foldl_mem _ _ _ fun _ _ => rfl
  refine onEvent_wf _ _ hm fun e => ?_
  dsimp only
  repeat' split
  all_goals simp [hm, taken]

/-! ### Records -/

@[simp] theorem ringPut_wf (q : Part) (r : TrapRecord) (s : State) (hm : Memory.wf s.mem = true) : Memory.wf (ringPut q r s).mem = true := by
  grind [ringPut, putRaw_wf, State.afterWrite_wf]
@[simp] theorem execTrapRecordWrite_wf (s : State) (hm : Memory.wf s.mem = true) : AnsWf (execTrapRecordWrite s) := by
  unfold execTrapRecordWrite
  refine onEvent_wf _ _ hm fun e => ?_
  split
  · split
    · exact hm
    · dsimp only
      split
      · refine State.atUnits_wf _ _ _ _ _ _ _ hm (fun u hu => hu) fun u hu => ?_
        exact State.foldl_wf _ _ _ (fun v r hv => ringPut_wf _ r v hv) (by simp [hu])
      · split
        · simp [hm]
        · exact State.atUnits_wf _ _ _ _ _ _ _ hm (fun u hu => hu) fun u hu => ringPut_wf _ _ u hu
  · exact hm
@[simp] theorem State.fqSend_wf (s : State) (p : Nat) (hm : Memory.wf s.mem = true) : Memory.wf (s.fqSend p).mem = true := by
  grind [State.fqSend, putRaw_wf, State.modPart_mem, State.choose_mem, State.later_mem]
@[simp] theorem execFaultQueueWrite_wf (s : State) (hm : Memory.wf s.mem = true) : AnsWf (execFaultQueueWrite s) := by
  unfold execFaultQueueWrite
  refine onEvent_wf _ _ hm fun e => ?_
  split <;> simp [hm]
@[simp] theorem execFaultQueueAck_wf (s : State) (hm : Memory.wf s.mem = true) : AnsWf (execFaultQueueAck s) := by
  unfold execFaultQueueAck
  refine onEvent_wf _ _ hm fun e => ?_
  dsimp only
  repeat' split
  all_goals simp [hm]
@[simp] theorem execFqconsWrite_wf (s : State) (hm : Memory.wf s.mem = true) : AnsWf (execFqconsWrite s) := by
  unfold execFqconsWrite
  refine onEvent_wf _ _ hm fun e => ?_
  dsimp only
  repeat' split
  all_goals simp [hm]

/-! ### Partitions and contexts -/

@[simp] theorem execCreate_wf (s : State) (hm : Memory.wf s.mem = true) : AnsWf (execCreate s) := by
  grind [execCreate, onEvent_wf, State.withHost_wf, State.zeroRange_wf, State.modCore_mem, State.modPart_mem, State.later_mem,
      State.pcmdDone_mem, State.zeroPumps_mem, State.zeroClusters_mem, startSupervisors_mem, offerWindows_mem]
@[simp] theorem execDestroy_wf (s : State) (hm : Memory.wf s.mem = true) : AnsWf (execDestroy s) := by
  grind [execDestroy, onEvent_wf, State.zeroRange_wf, State.modVf_mem, State.pcmdDone_mem, State.zeroClusters_mem,
      State.dropTranslations_mem, State.dropWork_mem]
@[simp] theorem migrate_wf (p : Nat) (q new : Part) (s : State) (hm : Memory.wf s.mem = true) : Memory.wf (migrate p q new s).mem = true := by
  unfold migrate
  rw [State.pcmdDone_mem, State.serve_mem]
  refine State.foldl_wf _ _ _ (fun u x hu => ?_) (State.foldl_wf _ _ _ (fun u x hu => ?_) ?_)
  · dsimp only
    split
    · exact State.foldl_wf _ _ _ (fun v y hv => by split <;> simp [hv]) hu
    · exact hu
  · dsimp only
    split <;> simp [hu]
  · simp only [State.zeroPumps_mem, State.zeroClusters_mem]
    exact State.zeroRange_wf s _ _ hm
@[simp] theorem execResize_wf (s : State) (hm : Memory.wf s.mem = true) : AnsWf (execResize s) := by
  unfold execResize
  refine onEvent_wf _ _ hm fun e => ?_
  dsimp only
  repeat' split
  all_goals simp [hm]
@[simp] theorem execKey_wf (s : State) (hm : Memory.wf s.mem = true) : AnsWf (execKey s) := by
  unfold execKey
  refine onEvent_wf _ _ hm fun e => ?_
  dsimp only
  repeat' split
  all_goals simp [hm]
@[simp] theorem execContextCreate_wf (s : State) (hm : Memory.wf s.mem = true) : AnsWf (execContextCreate s) := by
  unfold execContextCreate
  refine onEvent_wf _ _ hm fun e => ?_
  split
  · split
    · simp [hm]
    · refine State.withHost_wf _ _ _ _ hm (fun u hu => by simp [hu]) fun u hu => ?_
      dsimp only
      split
      · simp [hu]
      · generalize e : State.translateNow _ _ _ _ = y
        have found : Memory.wf y.2.mem = true := e ▸ State.translateNow_wf { u with ctxs := _ } _ _ _ hu
        obtain ⟨_ | _, t⟩ := y
        all_goals
          dsimp only at found ⊢
          repeat' split
          all_goals simp [hu, found]
  · exact hm
@[simp] theorem execContextDestroy_wf (s : State) (hm : Memory.wf s.mem = true) : AnsWf (execContextDestroy s) := by
  unfold execContextDestroy
  refine onEvent_wf _ _ hm fun e => ?_
  dsimp only
  repeat' split
  all_goals simp [hm]
@[simp] theorem execThreadRead_wf (s : State) (hm : Memory.wf s.mem = true) : AnsWf (execThreadRead s) := by
  unfold execThreadRead
  refine onEvent_wf _ _ hm fun e => ?_
  split <;> simp [hm]
@[simp] theorem execThreadWrite_wf (s : State) (hm : Memory.wf s.mem = true) : AnsWf (execThreadWrite s) := by
  unfold execThreadWrite
  refine onEvent_wf _ _ hm fun e => ?_
  split <;> simp [hm]
@[simp] theorem execThreadResume_wf (s : State) (hm : Memory.wf s.mem = true) : AnsWf (execThreadResume s) := by
  unfold execThreadResume
  refine onEvent_wf _ _ hm fun e => ?_
  split <;> simp [hm]
@[simp] theorem execAttest_wf (s : State) (hm : Memory.wf s.mem = true) : AnsWf (execAttest s) := by
  grind [execAttest, onEvent_wf, putRaw_wf, State.withHost_wf, State.modVf_mem]
@[simp] theorem hostAtomic_wf (p off key : Nat) (a : HostAtom) (st : Option (List Byte)) (s : State) (hm : Memory.wf s.mem = true) :
    Memory.wf (hostAtomic p off key a st s).mem = true := by
  grind [hostAtomic, putRaw_wf, State.afterWrite_wf, State.choose_mem, State.later_mem]
@[simp] theorem execHostMemAccess_wf (s : State) (hm : Memory.wf s.mem = true) : AnsWf (execHostMemAccess s) := by
  unfold execHostMemAccess
  refine onEvent_wf _ _ hm fun e => ?_
  split
  · split
    · exact hm
    · dsimp only
      refine State.ite_wf hm (State.ite_wf (by simp [hm]) (State.ite_wf (by simp [hm]) ?_))
      refine State.atUnits_wf _ _ _ _ _ _ _ hm (fun u hu => by simp [hu]) fun u hu => ?_
      split
      · simp [hu]
      · split <;> simp [hu, putRaw_wf]
  · exact hm
@[simp] theorem execHostSnoop_wf (s : State) (hm : Memory.wf s.mem = true) : AnsWf (execHostSnoop s) := by
  unfold execHostSnoop
  refine onEvent_wf _ _ hm fun e => ?_
  split <;> simp [hm]
@[simp] theorem execBackInvalidateResponse_wf (s : State) (hm : Memory.wf s.mem = true) : AnsWf (execBackInvalidateResponse s) := by
  unfold execBackInvalidateResponse
  refine onEvent_wf _ _ hm fun e => ?_
  split <;> simp [hm]
@[simp] theorem execLinkFlitReplay_wf (s : State) (hm : Memory.wf s.mem = true) : AnsWf (execLinkFlitReplay s) := by
  unfold execLinkFlitReplay
  refine onEvent_wf _ _ hm fun e => ?_
  split <;> simp [hm]
@[simp] theorem execLinkFailure_wf (s : State) (hm : Memory.wf s.mem = true) : AnsWf (execLinkFailure s) := by
  unfold execLinkFailure
  refine onEvent_wf _ _ hm fun e => ?_
  split <;> simp [hm]
@[simp] theorem execFabricWindowActivate_wf (s : State) (hm : Memory.wf s.mem = true) : AnsWf (execFabricWindowActivate s) := by
  unfold execFabricWindowActivate
  refine onEvent_wf _ _ hm fun e => ?_
  split <;> simp [hm]
@[simp] theorem execInjectionWindowStart_wf (s : State) (hm : Memory.wf s.mem = true) : AnsWf (execInjectionWindowStart s) := by
  grind [execInjectionWindowStart, State.foldlSnd_wf, onEvent_wf, State.windowSet_mem, enterLate_mem]
@[simp] theorem writeVf_wf (p a : Nat) (v : Word) (s : State) (hm : Memory.wf s.mem = true) : Memory.wf (writeVf p a v s).mem = true := by
  unfold writeVf
  repeat' split
  all_goals simp [hm]
@[simp] theorem execRegisterWrite_wf (s : State) (hm : Memory.wf s.mem = true) : AnsWf (execRegisterWrite s) := by
  unfold execRegisterWrite
  refine onEvent_wf _ _ hm fun e => ?_
  dsimp only
  repeat' split
  all_goals simp [hm]

/-! ### Debug modules and bring-up -/

@[simp] theorem execDbgHalt_wf (s : State) (hm : Memory.wf s.mem = true) : AnsWf (execDbgHalt s) := by
  unfold execDbgHalt
  refine onEvent_wf _ _ hm fun e => ?_
  split <;> simp [hm]
@[simp] theorem execHaltTriggerArrival_wf (s : State) (hm : Memory.wf s.mem = true) : AnsWf (execHaltTriggerArrival s) := by
  unfold execHaltTriggerArrival
  refine onEvent_wf _ _ hm fun e => ?_
  split <;> simp [hm]
@[simp] theorem execCoreHaltStop_wf (s : State) (hm : Memory.wf s.mem = true) : AnsWf (execCoreHaltStop s) := by
  unfold execCoreHaltStop
  refine onEvent_wf _ _ hm fun e => ?_
  split <;> simp [hm]
@[simp] theorem execDbgRun_wf (s : State) (hm : Memory.wf s.mem = true) : AnsWf (execDbgRun s) := by
  unfold execDbgRun
  refine onEvent_wf _ _ hm fun e => ?_
  split <;> simp [hm]
@[simp] theorem execDbgInvi_wf (s : State) (hm : Memory.wf s.mem = true) : AnsWf (execDbgInvi s) := by
  unfold execDbgInvi
  refine onEvent_wf _ _ hm fun e => ?_
  split <;> simp [hm]
@[simp] theorem execDbgRead_wf (s : State) (hm : Memory.wf s.mem = true) : AnsWf (execDbgRead s) := by
  unfold execDbgRead
  refine onEvent_wf _ _ hm fun e => ?_
  dsimp only
  repeat' split
  all_goals simp [hm]
@[simp] theorem execDbgWrite_wf (s : State) (hm : Memory.wf s.mem = true) : AnsWf (execDbgWrite s) := by
  unfold execDbgWrite
  refine onEvent_wf _ _ hm fun e => ?_
  dsimp only
  repeat' split
  all_goals simp [hm]
@[simp] theorem execReadySet_wf (s : State) (hm : Memory.wf s.mem = true) : AnsWf (execReadySet s) := by
  unfold execReadySet
  refine onEvent_wf _ _ hm fun e => ?_
  dsimp only
  repeat' split
  all_goals simp [hm]
@[simp] theorem execModuleReset_wf (s : State) (hm : Memory.wf s.mem = true) : AnsWf (execModuleReset s) := by
  unfold execModuleReset
  refine onEvent_wf _ _ hm fun e => ?_
  split
  · refine State.foldl_wf _ _ _ (fun u x hu => by simp [hu]) ?_
    exact filter_wf _ _ hm
  · exact hm
@[simp] theorem execPowerThrottle_wf (s : State) (hm : Memory.wf s.mem = true) : AnsWf (execPowerThrottle s) := by
  unfold execPowerThrottle
  refine onEvent_wf _ _ hm fun e => ?_
  split <;> simp [hm]
@[simp] theorem execThermalHalt_wf (s : State) (hm : Memory.wf s.mem = true) : AnsWf (execThermalHalt s) := by
  unfold execThermalHalt
  refine onEvent_wf _ _ hm fun e => ?_
  split <;> simp [hm]

/-! ### Vectors -/

@[simp] theorem bitwise_wf (i : Instr) (s : State) (f : VReg → VReg → VReg) (hm : Memory.wf s.mem = true) : AnsWf (bitwise i s f) := by
  simp [bitwise, hm]
@[simp] theorem execVcvt_wf (t : BitVec 3) (n : BitVec 1) (sc : BitVec 4) (p : BitVec 5) (a d : Reg) (s : State)
    (hm : Memory.wf s.mem = true) : AnsWf (execVcvt t n sc p a d s) := by simp [execVcvt, hm]
@[simp] theorem execVqnt_wf (t : BitVec 3) (n : BitVec 1) (p : BitVec 2) (b a d : Reg) (s : State) (hm : Memory.wf s.mem = true) :
    AnsWf (execVqnt t n p b a d s) := by simp [execVqnt, hm]
@[simp] theorem execVdq_wf (p : BitVec 3) (sc : BitVec 2) (b a d : Reg) (s : State) (hm : Memory.wf s.mem = true) :
    AnsWf (execVdq p sc b a d s) := by simp [execVdq, hm]
@[simp] theorem execVbcast_wf (t : BitVec 3) (a d : Reg) (s : State) (hm : Memory.wf s.mem = true) : AnsWf (execVbcast t a d s) := by
  simp [execVbcast, hm]
@[simp] theorem extract_wf (i : Instr) (w : Nat) (signed : Bool) (b d : Reg) (s : State) (hm : Memory.wf s.mem = true) :
    AnsWf (extract i w signed b d s) := by simp [extract, hm]
@[simp] theorem execVins_wf (t : BitVec 3) (b a d : Reg) (s : State) (hm : Memory.wf s.mem = true) : AnsWf (execVins t b a d s) := by
  simp [execVins, hm]
@[simp] theorem execVperm_wf (t : BitVec 3) (b a d : Reg) (s : State) (hm : Memory.wf s.mem = true) : AnsWf (execVperm t b a d s) := by
  simp [execVperm, hm]
@[simp] theorem execVslide_wf (t : BitVec 3) (b a d : Reg) (s : State) (hm : Memory.wf s.mem = true) : AnsWf (execVslide t b a d s) := by
  simp [execVslide, hm]
@[simp] theorem execViota_wf (t : BitVec 3) (d : Reg) (s : State) (hm : Memory.wf s.mem = true) : AnsWf (execViota t d s) := by
  simp [execViota, hm]
@[simp] theorem execVmovi_wf (t : BitVec 3) (i : BitVec 10) (d : Reg) (s : State) (hm : Memory.wf s.mem = true) : AnsWf (execVmovi t i d s) := by
  simp [execVmovi, hm]
@[simp] theorem reduce_wf (i : Instr) (w : Nat) (s : State) (f : Nat → Nat → Nat → Nat × Fl) (hm : Memory.wf s.mem = true) :
    AnsWf (reduce i w s f) := by simp [reduce, hm]
@[simp] theorem topk_wf (i : Instr) (e : Elt) (k : BitVec 5) (d : Reg) (s : State) (hm : Memory.wf s.mem = true) : AnsWf (topk i e k d s) := by
  simp [topk, hm]

end Sys2Proof.Machine
end

section
/-!
SUPPORT and O58. An instruction keeps memory canonical, whichever it is; so do issuing, gangs, events and the end of a cycle; so does a step.
-/

namespace Sys2Proof.Machine

theorem exec_wf (i : Instr) (s : State) (hm : Memory.wf s.mem = true) : AnsWf (exec i s) := by
  -- an arm that is one of the shared operations is opened; each other arm has its lemma
  cases i <;> simp [exec, hm,
    execAdd, execSub, execMul, execMulh, execMulhn, execDiv, execDivn, execRem, execRemn, execAnd, execOr, execXor, execAndn,
    execOrn, execShl, execShr, execSra, execRotl, execRotr, execMin, execMax, execMinn, execMaxn, execSlt, execSltn, execBfx,
    execBfxn, execClz, execCtz, execPopc, execSextB, execSextH, execSextW, execZextB, execZextH, execZextW, execBswap, execAddi,
    execAndi, execOri, execXori, execShli, execShri, execSrai, execRoti, execSlti, execBfi, execLih, execAddpc, execCsrw,
    execCsrs, execCsrc, execSk, execSki, execTresume, execTstatr, execTstatw, execAmoAdd, execAmoAnd, execAmoOr, execAmoXor,
    execAmoMin, execAmoMax, execAmoMinn, execAmoMaxn, execAmoSwap, execAmoCas, execAmoFadd, execAmoFmax, execRedAdd, execRedAnd,
    execRedOr, execRedXor, execRedMin, execRedMax, execRedMinn, execRedMaxn, execRedFadd, execRedFmax, execCpy, execCpyt,
    execFill, execVabs, execVneg, execVnegF32Parcel, execVadd, execVsub, execVmul, execVmin, execVminN, execVmax, execVmaxN,
    execVshl, execVshr, execVsra, execVcmp, execVaddF32Parcel, execVsubF32Parcel, execVmulF32Parcel, execVmaxF32Parcel,
    execVminF32Parcel, execVaddI32Parcel, execVsubI32Parcel, execVaddB16Parcel, execVmulB16Parcel, execVshlI32Parcel,
    execVsraI32Parcel, execVand, execVor, execVxor, execVnot, execVandParcel, execVorParcel, execVxorParcel, execVmovParcel,
    execVfma, execVfms, execVsel, execVrsum, execVrmax, execVrmaxN, execVrmin, execVrminN, execVext, execVextN, execVtopk,
    execVtopkN, execVrcp, execVrsq, execVsqrt, execVdiv, execVexp2, execVlog2, execVsinp, execVcosp, execVtanh, execWacc,
    execWaccp, execWrnd, execWsave, execHacc, execHlook, execHclr, execMma, execMmaM, execMspw, execMspwM, execBkCpy, execBkFil,
    execBkAnd, execBkOr, execBkXor, execBkNot, execBkMaj]

/-- The state that what an agent does at its program counter starts from. -/
@[simp] def Next.state : Next → State
  | .run _ s | .done s _ | .wait s => s
@[simp] theorem State.fetchEnd_mem (s : State) (p : Parcel) : (s.fetchEnd p).state.mem = s.mem := by
  unfold State.fetchEnd
  split
  · simp
  · dsimp only [Next.state]
    split <;> simp
@[simp] theorem State.annul_mem (s : State) : s.annul.state.mem = s.mem := by
  grind [State.annul, State.fetch_mem, State.fetchEnd_mem, Next.state, State.modSeq_mem]
@[simp] theorem State.nextInsn_mem (s : State) : s.nextInsn.state.mem = s.mem := by
  grind [State.nextInsn, State.fetchInsn_mem, State.fetchEnd_mem, Next.state, State.trap_mem, State.annul_mem]
theorem State.nextInsn_wf {s : State} {n : Next} (hm : Memory.wf s.mem = true) (found : s.nextInsn = n) : Memory.wf n.state.mem = true := by
  rw [← found, s.nextInsn_mem]
  exact hm
theorem stateOf_wf (s : State) (a : Ans) (hm : Memory.wf s.mem = true) (ha : AnsWf a) : Memory.wf (stateOf s a).mem = true := by
  unfold stateOf
  split
  · exact ha _ rfl
  · exact hm

/-! ### Issuing, with any meaning of instructions that keeps memory canonical -/

/-- A meaning of instructions that keeps memory in canonical form. -/
def KeepsWf (ex : Instr → State → Ans) : Prop := ∀ i s, Memory.wf s.mem = true → AnsWf (ex i s)

/-- What the members of a gang have come to, one after the other, keeps memory in canonical form. -/
def RetireWf : Except (Option State) State → Prop
  | .ok s | .error (some s) => Memory.wf s.mem = true
  | .error none => True

section
variable {ex : Instr → State → Ans} (hex : KeepsWf ex)
include hex

theorem memberRun_wf (leader h : Nat) (e : GangInsn) (s : State) (hm : Memory.wf s.mem = true) :
    Memory.wf (memberRun ex leader h e s).mem = true := by
  have onPath : Memory.wf (s.onPath h e.path).mem = true := by simp [hm]
  unfold memberRun
  dsimp only
  split
  · simp [hm]
  · split
    next t effect =>
      have same : t.mem = (s.onPath h e.path).mem := by
        split at effect
        · cases effect
        · exact followerEffect_mem _ _ _ _ _ effect
      simp [same, hm]
    · exact stateOf_wf _ _ onPath (hex _ _ onPath)
theorem memberAhead_wf (leader h : Nat) (es : List GangInsn) (s : State) (hm : Memory.wf s.mem = true) :
    Memory.wf (memberAhead ex leader h es s).mem = true :=
  State.foldl_wf _ _ _ (fun u e hu => by simpa using memberRun_wf hex leader h e u hu) hm
theorem issueEarly_wf (leader h : Nat) (e : GangInsn) (a s t : State) (x : EarlyLoad) (hm : Memory.wf s.mem = true)
    (r : issueEarly ex leader h e a s = some (x, t)) : Memory.wf t.mem = true := by
  unfold issueEarly at r
  split at r
  · cases r
  · split at r
    · cases r
    · cases r
      simpa using memberRun_wf hex leader h e (s.setThread h (a.thread h)) (by simpa using hm)
theorem commitGang_wf (leader : Nat) (ms : List Nat) (e : GangInsn) (s t : State) (hm : Memory.wf s.mem = true)
    (r : commitGang ex leader ms e s = some t) : Memory.wf t.mem = true := by
  have start : Memory.wf (ms.foldl (fun s h => s.onPath h e.path) s).mem = true :=
    State.foldl_wf _ _ _ (fun u h hu => by simpa using hu) hm
  have own (h : Nat) : ∀ u, Memory.wf u.mem = true → Memory.wf (memberRun ex leader h e u).mem = true := memberRun_wf hex leader h e
  unfold commitGang at r
  dsimp only at r
  generalize ms.foldl (fun s h => s.onPath h e.path) s = s0 at r start
  generalize found : ms.foldl _ (Except.ok s0) = y at r
  have members : RetireWf y := by
    rw [← found]
    refine List.foldlRecOn ms _ (motive := RetireWf) start fun u hu h _ => ?_
    split
    · exact hu
    · split
      · split
        · exact own h _ start
        · simpa [RetireWf] using start
      · split
        · trivial
        · exact own h _ hu
  split at r
  · subst r
    exact members
  · cases r
    refine State.ite_wf members (State.foldl_wf _ _ _ (fun u h hu => ?_) members)
    split <;> simpa using hu
theorem issueMember_wf (h place leader n : Nat) (ms : List Nat) (es : List GangInsn) (e : GangInsn) (s : State)
    (hm : Memory.wf s.mem = true) : Memory.wf (issueMember ex h place leader n ms es e s).mem = true := by
  have ahead := memberAhead_wf hex leader h es s hm
  unfold issueMember
  dsimp only
  refine State.ite_wf (by simpa using hm) ?_
  generalize memberAhead ex leader h es s = a at ahead
  generalize { e with at_ := e.at_ ++ [s.cycle] } = e'
  have run := memberRun_wf hex leader h e' a ahead
  refine State.ite_wf (State.ite_wf (by simpa using hm) ?_) (State.ite_wf (State.ite_wf (by simpa using hm) (by simpa using run)) ?_)
  · simpa using memberRun_wf hex leader h e' _ (State.foldl_wf _ _ s (fun u m hu => by simpa using hu) hm)
  · generalize found : (if e.at_.length + 1 = n then (e', s) else _) = y
    have early : Memory.wf y.2.mem = true := by
      rw [← found]
      split
      · exact hm
      · split
        next x t r => exact issueEarly_wf hex leader h e' a s t x hm r
        · exact hm
    refine State.ite_wf (by simpa using early) ?_
    split
    next t r => simpa using commitGang_wf hex _ _ _ _ _ (by simpa using early) r
    · simpa using early
theorem issueLeader_wf (h place n : Nat) (ms : List Nat) (s : State) (hm : Memory.wf s.mem = true) :
    Memory.wf (issueLeader ex h place n ms s).mem = true := by
  have ahead := memberAhead_wf hex h h (s.gangOf h).insns s hm
  unfold issueLeader
  dsimp only
  generalize memberAhead ex h h (s.gangOf h).insns s = a at ahead
  refine State.ite_wf (by simpa using hm) ?_
  split
  next u found =>
    have start := State.nextInsn_wf (by dsimp only; split <;> simpa using ahead) found
    exact State.ite_wf (by simpa using start) (by simpa using hm)
  next u slot found =>
    have start := State.nextInsn_wf (by dsimp only; split <;> simpa using ahead) found
    exact State.ite_wf (by simpa using hm) (State.ite_wf (by simpa using start) (by simpa using hm))
  next i u found =>
    have member := issueMember_wf hex h place h n ms (s.gangOf h).insns
    refine State.ite_wf (by simpa using hm) (State.ite_wf (member _ _ (by simpa using hm)) ?_)
    simpa using member _ (s.keepFetch u (coreOf h)) (by simpa using hm)
theorem issueOwn_wf (h place : Nat) (s : State) (hm : Memory.wf s.mem = true) : AnsWf (issueOwn ex h place s) := by
  unfold issueOwn
  split
  next t found => simpa [ansWf_next_iff] using State.nextInsn_wf hm found
  next t slot found =>
    have start : Memory.wf t.mem = true := State.nextInsn_wf hm found
    exact ansWf_next _ (State.ite_wf (by simpa using start) (State.ite_wf (by simpa using hm) (by simpa using start)))
  next i t found =>
    have start : Memory.wf t.mem = true := State.nextInsn_wf hm found
    have operands : Memory.wf (t.useBrkSkip h).mem = true := by simpa using start
    split
    · exact ansWf_next _ (by simpa using start)
    · dsimp only
      split
      next u run => exact ansWf_next _ (State.ite_wf (by simpa using start) (by simpa using hex _ _ operands _ run))
      · exact hex _ _ operands
theorem issueTrap_wf (h place : Nat) (s : State) (hm : Memory.wf s.mem = true) : Memory.wf (issueTrap ex h place s).mem = true := by
  have once : ∀ u, Memory.wf u.mem = true → Memory.wf (stateOf u (issueOwn ex h place u)).mem = true := fun u hu =>
    stateOf_wf _ _ hu (issueOwn_wf hex h place u hu)
  unfold issueTrap
  dsimp only
  refine State.ite_wf (State.ite_wf (once _ (once _ hm)) (once _ hm)) (by simp [hm])
theorem issueThread_wf (h place : Nat) (s : State) (hm : Memory.wf s.mem = true) : AnsWf (issueThread ex h place s) := by
  unfold issueThread
  dsimp only
  split
  next leader n j gang =>
    rw [ansWf_next_iff]
    refine State.ite_wf (by simpa using hm) ?_
    split
    · exact issueLeader_wf hex _ _ _ _ _ hm
    · split
      · exact issueMember_wf hex _ _ _ _ _ _ _ _ hm
      · simpa using hm
  · split
    · exact ansWf_next _ (issueTrap_wf hex _ _ _ hm)
    · exact issueOwn_wf hex _ _ _ hm
theorem issuePump_wf (c place : Nat) (s : State) (hm : Memory.wf s.mem = true) : AnsWf (issuePump ex c place s) := by
  have start (n : Next) (found : State.nextInsn { s with cur := .pump c, issue := {} } = n) : Memory.wf n.state.mem = true :=
    State.nextInsn_wf (s := { s with cur := .pump c, issue := {} }) hm found
  unfold issuePump
  dsimp only
  split
  next t found => exact ansWf_next _ (by simpa using start _ found)
  next t slot found => exact ansWf_next _ (State.ite_wf (by simpa using start _ found) (start _ found))
  next i t found =>
    split
    · exact ansWf_next _ (by simpa using start _ found)
    · split
      next u run =>
        have after : Memory.wf u.mem = true := hex i t (start _ found) _ run
        exact ansWf_next _ (State.ite_wf after (by simpa using after))
      · exact hex _ _ (start _ found)
theorem issueNext_wf (s : State) (end_ : State → Ans) (hm : Memory.wf s.mem = true) (hend : AnsWf (end_ s)) : AnsWf (issueNext ex s end_) := by
  unfold issueNext
  split
  · exact issueThread_wf hex _ _ _ hm
  · exact issuePump_wf hex _ _ _ hm
  · exact hend
theorem takeEvent_wf (s : State) (e : Event) (rest : List (Nat × Event)) (hm : Memory.wf s.mem = true) : AnsWf (takeEvent ex s e rest) := by
  unfold takeEvent
  split
  · intro t r; cases r
  · split
    next u run =>
      have := hex e.instr { s with agenda := rest, ev := some e } hm _ run
      rw [ansWf_next_iff]
      refine State.ite_wf (by simpa using hm) this
    · exact hex _ _ hm
end

/-! ### The end of a cycle -/

theorem State.writeTrace_wf (s : State) (cl : Nat) (hm : Memory.wf s.mem = true) : Memory.wf (s.writeTrace cl).mem = true := by
  unfold State.writeTrace
  dsimp only
  split
  · simpa using hm
  · split
    · simpa using hm
    · exact State.atUnits_wf _ _ _ _ _ _ _ (by simpa using hm) (fun u hu => hu) fun u hu => by simp [hu, putRaw_wf]
@[simp] theorem State.writeTraces_wf (s : State) (hm : Memory.wf s.mem = true) : Memory.wf s.writeTraces.mem = true :=
  State.foldl_wf _ _ _ (fun u x hu => State.ite_wf hu (State.writeTrace_wf u x.1 hu)) hm
@[simp] theorem State.tick_wf (s : State) (hm : Memory.wf s.mem = true) : Memory.wf s.tick.mem = true := by
  unfold State.tick
  simp [hm]

/-! ### One step -/

theorem stepWith_wf {ex : Instr → State → Ans} (hex : KeepsWf ex) (s : State) (hm : Memory.wf s.mem = true) : AnsWf (stepWith ex s) := by
  have tick : AnsWf (.next s.tick) := ansWf_next _ (s.tick_wf hm)
  unfold stepWith
  split
  next due e rest _ =>
    have event := takeEvent_wf hex s e rest hm
    split
    · exact issueNext_wf hex s _ hm tick
    · split
      · exact issueNext_wf hex s _ hm event
      · exact event
  · exact issueNext_wf hex s _ hm tick

end Sys2Proof.Machine

open Sys2Proof Sys2Proof.Machine Sys2Proof.Spec

/-- Settles O58: each instruction and each step of an engine keeps memory canonical, and so do issuing and the end of a cycle. -/
theorem stepKeepsMemoryCanonical : Obligations.StepKeepsMemoryCanonical :=
  fun s t hm next => stepWith_wf exec_wf s hm t next
end

section
/-!
SUPPORT and O8. The three things that a step does: it takes the event that is due, it ends the cycle, it stops at a malformed event.
-/

namespace Sys2Proof.Machine

/-! ### The event that is due -/

theorem step_of_due (s : State) (due : Nat) (e : Event) (rest : List (Nat × Event)) (a : s.agenda = (due, e) :: rest) (d : due ≤ s.cycle)
    (l : isLate e = false) : step s = takeEvent exec s e rest := by
  unfold step stepWith
  simp [a, Nat.not_lt.mpr d, l]
theorem takeEvent_of_next (ex : Instr → State → Ans) (s t : State) (e : Event) (rest : List (Nat × Event)) (w : e.wf = true)
    (run : ex e.instr { s with agenda := rest, ev := some e } = .next t) :
    takeEvent ex s e rest = .next (if s.parksEarly t then State.later { s with agenda := rest } 1 e else { t with ev := none, issue := {} }) := by
  unfold takeEvent
  simp [w, run]
theorem State.parksEarly_of_noTqtry (s t : State) (n : ∀ h, tfind (s.thread h).pend takeNum = none) (r : Spec.Rising s.threads) :
    s.parksEarly t = false := by
  unfold State.parksEarly
  rw [List.any_eq_false]
  intro x mem
  have found : s.thread x.1 = x.2 := tget_of_mem ({} : Thread) s.threads x.1 x.2 r mem
  simp [← found, n]
theorem State.parksEarly_of_parks (s t : State) (h : Nat) (mem : (h, s.thread h) ∈ s.threads)
    (p : (tfind (s.thread h).pend takeNum).isSome = true) (live : (s.thread h).run ≠ .parked) (parks : (t.thread h).run = .parked) :
    s.parksEarly t = true :=
  List.any_eq_true.mpr ⟨_, mem, by simp [p, live, parks]⟩

/-! ### Where a step stops -/

theorem issueOwn_exec_next (h place : Nat) (s : State) : ∃ t, issueOwn exec h place s = .next t := by
  unfold issueOwn
  split
  · exact ⟨_, rfl⟩
  · exact ⟨_, rfl⟩
  next i u _ =>
    obtain ⟨t, run⟩ := exec_next i (u.useBrkSkip h)
    split
    · exact ⟨_, rfl⟩
    · simp only [run]
      exact ⟨_, rfl⟩
theorem issueThread_exec_next (h place : Nat) (s : State) : ∃ t, issueThread exec h place s = .next t := by
  unfold issueThread
  dsimp only
  split
  · exact ⟨_, rfl⟩
  · split
    · exact ⟨_, rfl⟩
    · exact issueOwn_exec_next _ _ _
theorem issuePump_exec_next (c place : Nat) (s : State) : ∃ t, issuePump exec c place s = .next t := by
  unfold issuePump
  dsimp only
  split
  · exact ⟨_, rfl⟩
  · exact ⟨_, rfl⟩
  next i u _ =>
    obtain ⟨t, run⟩ := exec_next i u
    split
    · exact ⟨_, rfl⟩
    · simp only [run]
      exact ⟨_, rfl⟩

/-- An agent that issues goes on, and so does the step where there is none. -/
theorem issueNext_exec_cases (s : State) (end_ : State → Ans) : (∃ t, issueNext exec s end_ = .next t) ∨ issueNext exec s end_ = end_ s := by
  unfold issueNext
  split
  · exact .inl (issueThread_exec_next _ _ _)
  · exact .inl (issuePump_exec_next _ _ _)
  · exact .inr rfl
theorem takeEvent_exec_cases (s : State) (e : Event) (rest : List (Nat × Event)) :
    (∃ t, takeEvent exec s e rest = .next t) ∨ takeEvent exec s e rest = .fault .malformedEvent ∧ e.wf = false := by
  cases w : e.wf
  · exact .inr ⟨by simp [takeEvent, w], rfl⟩
  · obtain ⟨t, run⟩ := exec_next e.instr { s with agenda := rest, ev := some e }
    exact .inl ⟨_, takeEvent_of_next exec s t e rest w run⟩

/-! ### The end of a cycle -/

theorem step_of_idle (s : State) (a : ∀ x, s.agenda.head? = some x → s.cycle < x.1) (c : s.candidate = none) : step s = .next s.tick := by
  have idle (end_ : State → Ans) : issueNext exec s end_ = end_ s := by simp [issueNext, c]
  unfold step stepWith
  split
  next due e rest agenda => simp [idle, a (due, e) (by simp [agenda])]
  · exact idle _

/-- A fold whose every step leaves the state as it is. -/
theorem State.foldl_eq_self {α : Type} (f : State → α → State) (l : List α) (s : State) (h : ∀ x, x ∈ l → f s x = s) : l.foldl f s = s :=
  List.foldlRecOn l f (motive := (· = s)) rfl fun u e x mem => by rw [e, h x mem]
theorem State.writeTraces_of_noRecords (s : State) (h : ∀ x, x ∈ s.clusters → x.2.dbg.trcNow = [] ∧ x.2.dbg.trcWait = []) :
    s.writeTraces = s :=
  State.foldl_eq_self _ _ _ fun x mem => by simp [h x mem]
theorem State.holdTimed_of_noneHalted (s : State) (h : ∀ x, x ∈ s.clusters → x.2.dbg.halted = false) : s.holdTimed = s :=
  State.foldl_eq_self _ _ _ fun x mem => by simp [h x mem]
theorem State.recordReleases_of_noLanding (s : State) (h : ∀ w, w ∈ s.landings → w.at_ ≠ s.cycle) : s.recordReleases = s := by
  unfold State.recordReleases
  have none : s.landings.filter (fun w => w.at_ = s.cycle) = [] := List.filter_eq_nil_iff.mpr fun w mem => by simp [h w mem]
  rw [none]
  rfl

/-! ### What those who see a write note of it -/

/-- Nothing but what is noted of a write sets t apart from s: lines held, landings, monitors, the agenda. -/
structure NotesOnly (s t : State) : Prop where
  cycle : t.cycle = s.cycle
  mem : t.mem = s.mem
  clusters : t.clusters = s.clusters
  ctxs : t.ctxs = s.ctxs
  seq : ∀ h, (t.thread h).seq = (s.thread h).seq

theorem NotesOnly.refl (s : State) : NotesOnly s s := ⟨rfl, rfl, rfl, rfl, fun _ => rfl⟩
theorem NotesOnly.trans {s t u : State} (a : NotesOnly s t) (b : NotesOnly t u) : NotesOnly s u :=
  ⟨b.cycle.trans a.cycle, b.mem.trans a.mem, b.clusters.trans a.clusters, b.ctxs.trans a.ctxs, fun h => (b.seq h).trans (a.seq h)⟩
theorem NotesOnly.foldl {α : Type} (f : State → α → State) (l : List α) (s : State) (h : ∀ u x, NotesOnly u (f u x)) :
    NotesOnly s (l.foldl f s) :=
  List.foldlRecOn l f (motive := NotesOnly s) (.refl s) fun u e x _ => e.trans (h u x)
theorem NotesOnly.later (s : State) (n : Nat) (e : Event) : NotesOnly s (s.later n e) := ⟨rfl, rfl, rfl, rfl, fun _ => rfl⟩
theorem NotesOnly.lines (s : State) (l : Table HeldLine) : NotesOnly s { s with lines := l } := ⟨rfl, rfl, rfl, rfl, fun _ => rfl⟩
theorem NotesOnly.hostLines (s : State) (l : Table Unit) : NotesOnly s { s with hostLines := l } := ⟨rfl, rfl, rfl, rfl, fun _ => rfl⟩
theorem NotesOnly.landings (s : State) (l : List Landing) : NotesOnly s { s with landings := l } := ⟨rfl, rfl, rfl, rfl, fun _ => rfl⟩
theorem NotesOnly.choose (s : State) (n : Nat) : NotesOnly s (s.choose n).2 := by
  constructor <;> simp [State.choose, State.thread]
theorem NotesOnly.modThread (s : State) (h : Nat) (f : Thread → Thread) (k : (f (s.thread h)).seq = (s.thread h).seq) :
    NotesOnly s (s.modThread h f) :=
  ⟨rfl, rfl, rfl, rfl, fun g => by
    rw [State.modThread_thread]
    split
    next e => rw [e, k]
    · rfl⟩
theorem NotesOnly.sliceRoom (s : State) (sl key : Nat) : NotesOnly s (s.sliceRoom sl key) := by
  unfold State.sliceRoom
  split
  · exact .refl s
  · dsimp only
    split
    · exact .refl s
    · exact (NotesOnly.choose s _).trans (.lines _ _)
theorem NotesOnly.agentRoom (s : State) (line : Nat) : NotesOnly s (s.agentRoom line) := by
  unfold State.agentRoom
  split
  · exact .refl s
  · exact (NotesOnly.choose s s.hostLines.length).trans (.hostLines _ _)
theorem NotesOnly.holdLine (s : State) (key : Nat) (ks : Option Nat) : NotesOnly s (s.holdLine key ks) := by
  unfold State.holdLine
  split
  · split
    · exact .refl s
    · exact (NotesOnly.sliceRoom s _ _).trans (.lines _ _)
  · exact (NotesOnly.agentRoom s _).trans (.hostLines _ _)
  · exact .refl s
theorem NotesOnly.recordWrite (s : State) (w : Landing) : NotesOnly s (s.recordWrite w) := by
  refine NotesOnly.foldl _ _ s fun u x => ?_
  dsimp only
  split
  · exact .refl u
  · have hit := NotesOnly.modThread u x.1 (fun t => { t with mons := t.mons.map fun m => { m with hit := m.hit || m.place.any w.meets } })
      rfl
    split
    · split
      · exact hit.trans (.later _ _ _)
      · exact hit
    · exact hit
theorem NotesOnly.recordWrites (s : State) (core : Option Nat) (first len delay : Nat) : NotesOnly s (s.recordWrites core first len delay) := by
  unfold State.recordWrites
  dsimp only
  split
  · exact (NotesOnly.landings s _).trans (.recordWrite _ _)
  · exact .landings s _
theorem NotesOnly.wakeCounters (s : State) (key n : Nat) : NotesOnly s (s.wakeCounters key n) := by
  refine NotesOnly.foldl _ _ s fun u x => ?_
  dsimp only
  split
  · split
    · exact .later _ _ _
    · exact .refl u
  · exact .refl u
theorem NotesOnly.seeNotify (s : State) (key n : Nat) : NotesOnly s (s.seeNotify key n) := by
  refine NotesOnly.foldl _ _ s fun u x => ?_
  dsimp only
  split
  · exact .refl u
  · split
    · split
      · exact .later _ _ _
      · exact .refl u
    · exact .refl u

/-- No context has a launch page whose doorbell a write could ring. -/
def State.NoLaunchPage (s : State) : Prop := ∀ x, x ∈ s.ctxs → x.2.launchPage = none
theorem NotesOnly.noLaunchPage {s t : State} (a : NotesOnly s t) (n : s.NoLaunchPage) : t.NoLaunchPage := by
  unfold State.NoLaunchPage
  rw [a.ctxs]
  exact n
theorem State.seeDoorbell_of_noLaunchPage (s : State) (key n : Nat) (h : s.NoLaunchPage) : s.seeDoorbell key n = s :=
  State.foldl_eq_self _ _ _ fun x mem => by simp [h x mem]
theorem NotesOnly.afterWrite (s : State) (key n delay : Nat) (h : s.NoLaunchPage) : NotesOnly s (s.afterWrite key n delay) := by
  have notes : NotesOnly s (((((s.holdLines key n).recordWrites none key n delay).wakeCounters key n).seeNotify key n)) :=
    (NotesOnly.foldl _ _ s fun u i => .holdLine u _ _).trans <| (NotesOnly.recordWrites _ _ _ _ _).trans <|
      (NotesOnly.wakeCounters _ _ _).trans (.seeNotify _ _ _)
  unfold State.afterWrite
  dsimp only
  split
  · rwa [State.seeDoorbell_of_noLaunchPage _ _ _ (notes.noLaunchPage h)]
  · exact notes
theorem NotesOnly.recordReleases (s : State) (h : s.NoLaunchPage) : NotesOnly s s.recordReleases := by
  refine List.foldlRecOn _ _ (motive := NotesOnly s) (.refl s) fun u notes w _ => ?_
  have more := notes.trans (.recordWrite u w)
  dsimp only
  split
  · rwa [State.seeDoorbell_of_noLaunchPage _ _ _ (more.noLaunchPage h)]
  · exact more

/-! ### A trace record that is written at the end of a cycle (R396) -/

/-- A record that finds none waiting has its turn. -/
theorem Dbg.takeTurns_of_first (d : Dbg) (r : TraceRec) (now : d.trcNow = [r]) (wait : d.trcWait = []) :
    d.takeTurns = { d with trcNow := [], trcWait := [r], trcLost := d.trcLost } := by
  simp [Dbg.takeTurns, now, wait, sortBy, insertBy]

/-- A taken control transfer that finds a record waiting is dropped and counted. -/
theorem Dbg.takeTurns_of_dropped (d : Dbg) (x r : TraceRec) (now : d.trcNow = [x]) (transfer : x.kind = 5)
    (room : d.trcLost.toNat < 2 ^ 32 - 1) (wait : d.trcWait = [r]) :
    d.takeTurns = { d with trcNow := [], trcWait := [r], trcLost := d.trcLost + 1 } := by
  simp [Dbg.takeTurns, now, wait, sortBy, insertBy, transfer]
  omega

/-- The place in the ring of the record whose turn it is. -/
def Dbg.recordPlace (d : Dbg) : Nat := d.trcBase.toNat + 16 * (d.trcPos.toNat % 2 ^ d.trcLog)

/-- A cluster whose module has written the record whose turn it was, and has dropped what TRCLOST counts. -/
def Cluster.recordWritten (k : Cluster) (lost : Word) : Cluster :=
  { k with dbg := { k.dbg with trcNow := [], trcWait := [], trcPos := k.dbg.trcPos + 1, trcLost := lost } }

/-- The machine with the record in the ring, before those who see the write note it. -/
def State.withRecord (s : State) (cl : Nat) (k : Cluster) (r : TraceRec) (lost : Word) : State :=
  { s with
    clusters := [(cl, k.recordWritten lost)]
    waiting := s.waiting.filter (·.who ≠ .trace cl)
    mem := memWrite s.mem k.dbg.recordPlace (bytesOfWord 8 r.w0 ++ bytesOfWord 8 r.w1) }

section
variable {s : State} {cl : Nat} {k : Cluster} {r : TraceRec} {lost : Word}
  (one : s.clusters = [(cl, k)]) (base : k.dbg.trcBase ≠ 0)
  (turns : k.dbg.takeTurns = { k.dbg with trcNow := [], trcWait := [r], trcLost := lost })
  (goes : s.mustWait (linesOf k.dbg.recordPlace 16) true (s.reachedAt (.trace cl)) 0 = false)
include one base turns goes

theorem State.writeTrace_of_turn : s.writeTrace cl = (s.withRecord cl k r lost).afterWrite k.dbg.recordPlace 16 0 := by
  have turned : s.modCluster cl (fun k => { k with dbg := k.dbg.takeTurns }) =
      { s with clusters := [(cl, { k with dbg := { k.dbg with trcNow := [], trcWait := [r], trcLost := lost } })] } := by
    simp [State.modCluster, State.cluster, one, tset, tget, turns]
  have free (c : Table Cluster) :
      State.mustWait { s with clusters := c } (linesOf k.dbg.recordPlace 16) true (State.reachedAt { s with clusters := c } (.trace cl)) 0
          = false := goes
  unfold State.writeTrace
  rw [turned]
  simp [State.cluster, tget, State.atUnits, ← Dbg.recordPlace.eq_1, free, State.withRecord, Cluster.recordWritten, putRaw, State.dropWait,
      State.modCluster, tset]
  exact fun zero => absurd zero base

/-- The machine at the end of the cycle in which the record leaves. -/
theorem State.tick_of_turn (pending : ¬(k.dbg.trcNow = [] ∧ k.dbg.trcWait = [])) (running : k.dbg.halted = false) (pages : s.NoLaunchPage) :
    NotesOnly { s.withRecord cl k r lost with cycle := s.cycle + 1, cursor := 0 } s.tick := by
  have written : s.writeTraces = (s.withRecord cl k r lost).afterWrite k.dbg.recordPlace 16 0 := by
    rw [← State.writeTrace_of_turn one base turns goes]
    simp [State.writeTraces, one, pending]
  have notes := NotesOnly.afterWrite (s.withRecord cl k r lost) k.dbg.recordPlace 16 0 pages
  unfold State.tick
  rw [written, State.holdTimed_of_noneHalted]
  · have ticked : NotesOnly { s.withRecord cl k r lost with cycle := s.cycle + 1, cursor := 0 }
        { (s.withRecord cl k r lost).afterWrite k.dbg.recordPlace 16 0 with
          cycle := ((s.withRecord cl k r lost).afterWrite k.dbg.recordPlace 16 0).cycle + 1, cursor := 0 } :=
      ⟨congrArg (· + 1) notes.cycle, notes.mem, notes.clusters, notes.ctxs, notes.seq⟩
    exact ticked.trans (.recordReleases _ (ticked.noLaunchPage pages))
  · rw [notes.clusters]
    simpa [State.withRecord, Cluster.recordWritten] using running
end

end Sys2Proof.Machine

open Sys2Proof Sys2Proof.Machine Sys2Proof.Spec

theorem stepTakesDueEvent : StepTakesDueEvent := by
  intro s due e rest agenda isDue early wf
  have taken := step_of_due s due e rest agenda isDue early
  obtain ⟨t, run⟩ := exec_next e.instr { s with agenda := rest, ev := some e }
  refine ⟨fun none rising => ?_, fun t h run mem out live parks => ?_⟩
  · rw [taken, takeEvent_of_next exec s t e rest wf run, s.parksEarly_of_noTqtry t none rising, run]
    rfl
  · rw [taken, takeEvent_of_next exec s t e rest wf run, s.parksEarly_of_parks t h mem out live parks]
    rfl
theorem stepEndsCycle : StepEndsCycle := by
  intro s agenda idle
  have ticks := step_of_idle s agenda idle
  constructor
  · intro quiet landings
    rw [ticks]
    unfold State.tick
    rw [s.writeTraces_of_noRecords fun x mem => ⟨(quiet x mem).1, (quiet x mem).2.1⟩,
      s.holdTimed_of_noneHalted fun x mem => (quiet x mem).2.2, State.recordReleases_of_noLanding _ landings]
  · intro cl k r one base running landings pages a goes written
    have ends (lost : Word) (pending : ¬(k.dbg.trcNow = [] ∧ k.dbg.trcWait = []))
        (turns : k.dbg.takeTurns = { k.dbg with trcNow := [], trcWait := [r], trcLost := lost }) :
        written s.tick ∧ (s.tick.cluster cl).dbg.trcLost = lost := by
      have notes := State.tick_of_turn one base turns goes pending running pages
      have cluster : s.tick.cluster cl = k.recordWritten lost := by
        simp [State.cluster, notes.clusters, State.withRecord, tget]
      rw [cluster]
      refine ⟨⟨notes.cycle, notes.seq, notes.mem, ?_⟩, rfl⟩
      rw [cluster]
      exact ⟨rfl, rfl, rfl⟩
    refine ⟨fun now wait => ?_, fun x now transfer room wait => ?_⟩
    · exact ⟨_, ticks, ends _ (by simp [now]) (Dbg.takeTurns_of_first _ r now wait)⟩
    · exact ⟨_, ticks, ends _ (by simp [now]) (Dbg.takeTurns_of_dropped _ x r now transfer room wait)⟩
theorem stepStopsOnlyAtMalformedEvent : StepStopsOnlyAtMalformedEvent := by
  intro s
  have event (due : Nat) (e : Event) (rest : List (Nat × Event)) (agenda : s.agenda = (due, e) :: rest) :
      (∃ t, takeEvent exec s e rest = .next t) ∨ takeEvent exec s e rest = .fault .malformedEvent ∧
        ∃ due e rest, s.agenda = (due, e) :: rest ∧ e.wf = false :=
    (takeEvent_exec_cases s e rest).imp_right fun ⟨fault, bad⟩ => ⟨fault, due, e, rest, agenda, bad⟩
  have tick : ∃ t, issueNext exec s (fun s => .next s.tick) = .next t :=
    (issueNext_exec_cases s fun s => .next s.tick).elim id fun ends => ⟨_, ends⟩
  unfold step stepWith
  split
  next due e rest agenda =>
    split
    · exact .inl tick
    · split
      · obtain issues | ends := issueNext_exec_cases s fun s => takeEvent exec s e rest
        · exact .inl issues
        · rw [ends]
          exact event due e rest agenda
      · exact event due e rest agenda
  · exact .inl tick

/-- Settles O8: the event that is due is taken, an idle machine ends its cycle, and only a malformed event stops it. -/
theorem agendaSteps : Obligations.AgendaSteps := ⟨stepTakesDueEvent, stepEndsCycle, stepStopsOnlyAtMalformedEvent⟩
end

section
/-!
SUPPORT. The instruction at the program counter: how a step comes to it, and what stands around its `exec` (O4).
-/

namespace Sys2Proof.Machine

/-- With nothing due before the instructions of the cycle, the thread whose turn it is issues. -/
theorem step_of_threadTurn (s : State) (h place : Nat) (idle : Spec.NothingDue s) (turn : s.candidate = some (place, .thread h)) :
    step s = issueThread exec h place s := by
  have issues (end_ : State → Ans) : issueNext exec s end_ = issueThread exec h place s := by simp [issueNext, turn]
  unfold Spec.NothingDue at idle
  unfold step stepWith
  cases agenda : s.agenda with
  | nil => exact issues _
  | cons x rest =>
    obtain ⟨due, e⟩ := x
    simp only [agenda] at idle
    obtain early | late := idle
    · simp only [early, if_true, issues]
    · simp only [late, if_true, issues, ite_self]

/-- A thread in no gang that no save stops issues an instruction of its own. -/
theorem issueThread_of_ungrouped (ex : Instr → State → Ans) (h place : Nat) (s : State) (alone : (s.thread h).gang = none)
    (running : (s.thread h).frozen = false) : issueThread ex h place s = issueOwn ex h place { s with cur := .thread h, issue := {} } := by
  have alone' : (State.thread { s with cur := .thread h, issue := {} } h).gang = none := alone
  have running' : (State.thread { s with cur := .thread h, issue := {} } h).frozen = false := running
  simp [issueThread, alone', running']

/-- Outside RPT and annulment the next instruction is the one that the fetched word decodes to. -/
theorem State.nextInsn_of_fetched (s u : State) (w n : Nat) (b : Bool) (i : Instr) (skip : s.seq.skip = 0) (once : s.seq.rptRun = none)
    (fetched : s.fetchInsn s.seq.pc = (.ok w b, n, u)) (decoded : decodeInsn (w % 2 = 0) w = some i) (single : isRpt i = false) :
    s.nextInsn = .run i { u with issue := { insn := w, brk := b } } := by
  have insn : insnOf w = i := by simp [insnOf, decoded]
  unfold State.nextInsn
  simp [skip, once, fetched, insn, single]

end Sys2Proof.Machine

open Sys2Proof Sys2Proof.Machine Sys2Proof.Spec

/-- Settles O4: the fetched word becomes the next instruction, and `issueOwn` puts its `exec` between the use of a resumed thread's break
bit and the taking of the slot. -/
theorem stepRunsDecodedInstruction : Obligations.StepRunsDecodedInstruction := by
  intro s u h place w n b i idle turn alone running skip once fetched decoded single ready
  have next := State.nextInsn_of_fetched { s with cur := .thread h, issue := {} } u w n b i skip once fetched decoded single
  rw [step_of_threadTurn s h place idle turn, issueThread_of_ungrouped exec h place s alone running]
  unfold issueOwn
  simp only [next, ready, Bool.not_true, Bool.false_eq_true, if_false]
  cases exec i (State.useBrkSkip { u with issue := { insn := w, brk := b } } h) <;> rfl
end

section
/-!
SUPPORT. What an instruction of a thread comes to once the checks let it through or make it trap, how far a thread stands behind it, and what
leaves a core with an access.
-/

namespace Sys2Proof.Machine

/-! ### Checks and traps -/

section
variable {i : Instr} {s : State} {h : Nat} {pre : State → Option (Nat × Word)} {f : State → State}

theorem checkedBy_runs (thread : s.cur = .thread h) (runs : Spec.Runs i s) (passes : pre s = none) : checkedBy i pre s f = .next (f s) := by
  simp only [Spec.Runs, thread, Bool.and_eq_true, Bool.or_eq_true, Bool.not_eq_true'] at runs
  obtain ⟨⟨⟨wf, role⟩, level⟩, unbroken⟩ := runs
  exact checkedBy_thread i pre s f h thread wf role (fun sup => level.resolve_left (by simp [sup])) unbroken passes
theorem checkedBy_traps {cause : Nat} {v : Word} (thread : s.cur = .thread h) (runs : Spec.Runs i s) (fails : pre s = some (cause, v)) :
    checkedBy i pre s f = .next (parkTrap h cause (s.thread h).seq.pc v s) := by
  simp only [Spec.Runs, thread, Bool.and_eq_true, Bool.or_eq_true, Bool.not_eq_true'] at runs
  obtain ⟨⟨⟨wf, role⟩, level⟩, _⟩ := runs
  rw [checkedBy_fails i pre s f h thread wf role (fun sup => level.resolve_left (by simp [sup])) cause v fails, State.trap, thread]
end

theorem State.trap_thread (s : State) (h cause : Nat) (v : Word) (thread : s.cur = .thread h) :
    s.trap cause v = parkTrap h cause (s.thread h).seq.pc v s := by simp [State.trap, thread]

/-- A trap parks its thread as R358 says; what the thread's wait has come to does not matter. -/
theorem parkTrap_trapped (h cause : Nat) (val : Word) (s u : State) (same : ∀ g, u.thread g = { s.thread g with fin := (u.thread g).fin }) :
    Spec.Trapped h cause val s (parkTrap h cause (s.thread h).seq.pc val u) := by
  have own := parkTrap_thread h cause (s.thread h).seq.pc val u h
  rw [if_pos rfl, same h] at own
  have others (g : Nat) (e : g ≠ h) := parkTrap_thread h cause (s.thread h).seq.pc val u g
  refine ⟨by rw [own], by rw [own], by rw [own]; simp [pcField, wfield, field], by rw [own], by rw [own], by rw [own], by rw [own], by rw [own],
    fun g e => ?_⟩
  rw [others g e, if_neg e, same g]
  exact ⟨rfl, rfl⟩
theorem trapped_of_trap (s : State) (h cause : Nat) (v : Word) : Spec.Trapped h cause v s (parkTrap h cause (s.thread h).seq.pc v s) :=
  parkTrap_trapped h cause v s s fun _ => rfl

/-! ### The thread that issues -/

section
variable {s u : State} {h : Nat}

theorem State.me_of_thread (thread : s.cur = .thread h) : s.me = h := by simp [State.me, thread]
theorem State.self_of_thread (thread : s.cur = .thread h) : s.self = s.thread h := by simp [State.self, State.me_of_thread thread]
theorem State.getX_of_thread (thread : s.cur = .thread h) (r : Reg) : s.getX r = (s.thread h).getX r := by simp [State.getX, thread]
theorem State.pc_of_thread (thread : s.cur = .thread h) : s.pc = (s.thread h).seq.pc := by simp [State.pc, State.seq, thread]
theorem State.getX_congr (cur : u.cur = s.cur) (threads : u.threads = s.threads) (pumps : u.pumps = s.pumps) (r : Reg) : u.getX r = s.getX r := by
  simp [State.getX, cur, State.thread, State.pump, threads, pumps]

/-- The thread has not moved on between two states: only what it holds and waits for may differ. -/
structure StaysAt (h : Nat) (s u : State) : Prop where
  before : s.cur = .thread h
  cur : u.cur = .thread h
  seq : (u.thread h).seq = { (s.thread h).seq with x := (u.thread h).seq.x }
  instret : (u.thread h).instret = (s.thread h).instret

theorem StaysAt.of_thread (before : s.cur = .thread h) (cur : u.cur = s.cur) (same : u.thread h = s.thread h) : StaysAt h s u :=
  ⟨before, cur.trans before, by rw [same], by rw [same]⟩

theorem State.pass_thread (n : Nat) (thread : s.cur = .thread h) : (s.pass n).thread h =
    { s.thread h with seq := (s.thread h).seq.pass n, instret := (s.thread h).instret + 1 } := by
  simp [State.pass, State.count, State.modSeq, thread]

/-- Passing its instruction takes the thread behind it (R24, R38). -/
theorem StaysAt.passed (stays : StaysAt h s u) (n : Nat) : Spec.Passed n s (u.pass n) := by
  obtain ⟨before, cur, seq, instret⟩ := stays
  have own := State.pass_thread n cur
  have mine : (u.pass n).seq = ({ (s.thread h).seq with x := (u.thread h).seq.x } : Seq).pass n := by
    rw [← seq, State.seq, State.pass_cur, cur]
    simp [own]
  have old : s.seq = (s.thread h).seq := by simp [State.seq, before]
  refine ⟨fun g thread => ?_, by simp [mine, old], ?_⟩
  · obtain rfl : g = h := by simpa [before] using thread.symm
    simp [own, instret]
  · simp only [Spec.Moved, State.pc, mine, old, Seq.pass]
    cases (s.thread h).seq.rptRun with
    | none => simp
    | some r => by_cases last : (s.thread h).seq.rpt.toNat ≤ 1 <;> simp [last]
theorem StaysAt.pc (stays : StaysAt h s u) : u.pc = s.pc := by
  rw [State.pc_of_thread stays.cur, State.pc_of_thread stays.before, stays.seq]
theorem StaysAt.reads (stays : StaysAt h s u) (same : ∀ r, (u.thread h).getX r = (s.thread h).getX r) : Spec.WritesNone s u := fun r => by
  rw [State.getX_of_thread stays.cur, State.getX_of_thread stays.before, same]
/-- Passing writes no register. -/
theorem StaysAt.writesNone (stays : StaysAt h s u) (n : Nat) (same : ∀ r, (u.thread h).getX r = (s.thread h).getX r) :
    Spec.WritesNone s (u.pass n) := fun r => by
  rw [State.pass_getX, State.getX_of_thread stays.cur, State.getX_of_thread stays.before, same]
/-- A thread that blocks stays at its instruction. -/
theorem State.blocks_thread (w : Why) (thread : s.cur = .thread h) : (s.blocks w).thread h =
    { s.thread h with run := .blocked w, since := s.cycle, insn := s.issue.insn } := by
  simp [State.blocks, State.modSelf, State.me_of_thread thread]
theorem State.blocks_other (w : Why) (thread : s.cur = .thread h) (g : Nat) (other : g ≠ h) : (s.blocks w).thread g = s.thread g := by
  simp [State.blocks, State.modSelf, State.me_of_thread thread, State.modThread_thread, other]
theorem StaysAt.blocks (w : Why) (thread : s.cur = .thread h) : StaysAt h s (s.blocks w) :=
  ⟨thread, thread, by rw [State.blocks_thread w thread], by rw [State.blocks_thread w thread]⟩
theorem State.blocks_reads (w : Why) (thread : s.cur = .thread h) : Spec.WritesNone s (s.blocks w) :=
  (StaysAt.blocks w thread).reads fun r => by rw [State.blocks_thread w thread]; rfl
theorem State.blocks_blockedFor (w : Why) (thread : s.cur = .thread h) : Spec.BlockedFor h w (s.blocks w) := by
  rw [Spec.BlockedFor, State.blocks_thread w thread]
end

end Sys2Proof.Machine
end

section
/-!
SUPPORT. What leaves alone the threads and the wells of the machine as an access of a thread leaves its core: the agenda, the limits of R377,
first-level caches and race marks are what differs.
-/

namespace Sys2Proof.Machine

/-- Nothing but requests on their way, first-level caches and race marks sets u apart from s, as far as an instruction's own effect goes. -/
structure SentOnly (s u : State) : Prop where
  cycle : u.cycle = s.cycle
  cur : u.cur = s.cur
  issue : u.issue = s.issue
  threads : u.threads = s.threads
  pumps : u.pumps = s.pumps
  mem : u.mem = s.mem
  wells : ∀ g, (u.core g).well = (s.core g).well

theorem SentOnly.refl (s : State) : SentOnly s s := ⟨rfl, rfl, rfl, rfl, rfl, rfl, fun _ => rfl⟩
theorem SentOnly.trans {s t u : State} (a : SentOnly s t) (b : SentOnly t u) : SentOnly s u :=
  ⟨b.cycle.trans a.cycle, b.cur.trans a.cur, b.issue.trans a.issue, b.threads.trans a.threads, b.pumps.trans a.pumps, b.mem.trans a.mem,
    fun g => (b.wells g).trans (a.wells g)⟩
theorem SentOnly.ite {s a b : State} {c : Prop} [Decidable c] (ha : SentOnly s a) (hb : SentOnly s b) : SentOnly s (if c then a else b) := by
  split <;> assumption
theorem SentOnly.foldlFst {α β : Type} (f : State × β → α → State × β) (l : List α) (x : State × β) (h : ∀ y a, SentOnly y.1 (f y a).1) :
    SentOnly x.1 (l.foldl f x).1 :=
  List.foldlRecOn l f (motive := fun y => SentOnly x.1 y.1) (.refl x.1) fun y e a _ => e.trans (h y a)
theorem SentOnly.at_ (s : State) (due : Nat) (e : Event) : SentOnly s (s.at_ due e) := ⟨rfl, rfl, rfl, rfl, rfl, rfl, fun _ => rfl⟩
theorem SentOnly.later (s : State) (n : Nat) (e : Event) : SentOnly s (s.later n e) := .at_ s _ e
theorem SentOnly.modCluster (s : State) (cl : Nat) (f : Cluster → Cluster) : SentOnly s (s.modCluster cl f) :=
  ⟨rfl, rfl, rfl, rfl, rfl, rfl, fun _ => rfl⟩
theorem SentOnly.modCore (s : State) (c : Nat) (f : Core → Core) (well : (f (s.core c)).well = (s.core c).well) : SentOnly s (s.modCore c f) :=
  ⟨rfl, rfl, rfl, rfl, rfl, rfl, fun g => by
    rw [State.modCore_core]
    split
    next e => rw [e, well]
    · rfl⟩

/-! ### Requests -/

theorem SentOnly.windowSet (s : State) : SentOnly s s.windowSet := .ite (.refl s) (.at_ s _ _)
theorem SentOnly.admitAt (s : State) (w : InjWait) (f : State → State) (h : ∀ u, SentOnly u (f u)) : SentOnly s (s.admitAt w f) := by
  have inj (t : Table Nat) : SentOnly s { s with inj := t } := ⟨rfl, rfl, rfl, rfl, rfl, rfl, fun _ => rfl⟩
  have injWait (l : List InjWait) : SentOnly s { s with injWait := l } := ⟨rfl, rfl, rfl, rfl, rfl, rfl, fun _ => rfl⟩
  exact .ite (h s) (.ite (((inj _).trans (.windowSet _)).trans (h _)) ((injWait _).trans (.windowSet _)))
theorem SentOnly.depart (s : State) (r : FarReq) (delay : Nat) : SentOnly s (s.depart r delay) := .later s _ _
theorem SentOnly.leave (s : State) (r : FarReq) (delay : Nat) : SentOnly s (s.leave r delay) := by
  unfold State.leave
  split
  · exact .depart s r delay
  · exact .ite (.depart s r delay) (.admitAt s _ _ fun u => .depart u r delay)
theorem SentOnly.sendFar (s : State) (r : FarReq) (delay : Nat) : SentOnly s (s.sendFar r delay) := .ite (.later s _ _) (.leave s _ _)

/-! ### Releases and race marks -/

theorem SentOnly.flush (s : State) (h : Nat) (p : Nat → Bool) : SentOnly s (s.flush h p) := by
  have sends := SentOnly.foldlFst (fun (y : State × Nat) (x : Nat × Sector) => (y.1.sendFar (writeBackOf h x.1 x.2) y.2, y.2 + 1))
    ((s.core (coreOf h)).l1.filter fun x => x.2.dirty ≠ 0 && p x.1) (s, 0) fun y x => .sendFar y.1 _ _
  unfold State.flush
  exact sends.trans (.modCore _ _ _ rfl)
theorem SentOnly.releaseBegin (s : State) (a : Agent) (scope : Nat) : SentOnly s (s.releaseBegin a scope) := by
  cases a with
  | thread h => exact .ite (.refl s) (.flush s h _)
  | pump c => exact .refl s
theorem SentOnly.sendReleasing (s : State) (r : FarReq) (scope delay : Nat) : SentOnly s (s.sendReleasing r scope delay) :=
  (SentOnly.releaseBegin s s.cur scope).trans (.ite (.leave _ _ _) (.later _ _ _))
theorem SentOnly.dropClean (s : State) (h scope : Nat) : SentOnly s (s.dropClean h scope) := .ite (.refl s) (.modCore s _ _ rfl)
theorem SentOnly.acquire (s : State) (h scope : Nat) : SentOnly s (s.acquire h scope) :=
  (SentOnly.dropClean s h scope).trans (.ite (.refl _) (.modCluster _ _ _))

/-- Race detection changes the marks of a cluster, and nothing else (R279). -/
theorem State.raceCheck_only (s : State) (c ctx : Nat) (write : Bool) (segs : List (Nat × Nat × Nat)) :
    (s.raceCheck c ctx write segs).2 = { s with clusters := (s.raceCheck c ctx write segs).2.clusters } := by
  unfold State.raceCheck
  dsimp only
  repeat' split
  all_goals rfl
/-- Only clusters differ, of which an access sets or forgets race marks as it issues. -/
structure MarksOnly (s u : State) : Prop extends SentOnly s u where
  agenda : u.agenda = s.agenda
  injWait : u.injWait = s.injWait
  cores : u.cores = s.cores
theorem MarksOnly.clusters (s : State) (k : Table Cluster) : MarksOnly s { s with clusters := k } :=
  ⟨⟨rfl, rfl, rfl, rfl, rfl, rfl, fun _ => rfl⟩, rfl, rfl, rfl⟩
theorem MarksOnly.refl (s : State) : MarksOnly s s := .clusters s s.clusters
theorem MarksOnly.trans {s t u : State} (a : MarksOnly s t) (b : MarksOnly t u) : MarksOnly s u :=
  ⟨a.toSentOnly.trans b.toSentOnly, b.agenda.trans a.agenda, b.injWait.trans a.injWait, b.cores.trans a.cores⟩
theorem MarksOnly.raceClear (s : State) (c : Nat) : MarksOnly s (s.raceClear c) := .clusters s _
theorem MarksOnly.released (s : State) (a : Agent) (scope : Nat) : MarksOnly s (s.released a scope) := by
  unfold State.released
  split
  · split
    · exact .refl s
    · exact .raceClear s _
  · exact .refl s
theorem MarksOnly.retires (s : State) (q : Option Nat) : MarksOnly s (s.retires q) := by
  cases q with
  | none => exact .refl s
  | some scope => exact .released s s.cur scope
theorem MarksOnly.raceCheck (s : State) (c ctx : Nat) (write : Bool) (segs : List (Nat × Nat × Nat)) :
    MarksOnly s (s.raceCheck c ctx write segs).2 := by
  rw [State.raceCheck_only]
  exact .clusters s _

theorem due_pass {s : State} {due : Nat} {e : Event} (n : Nat) (onAgenda : Spec.Due due e s) : Spec.Due due e (s.pass n) := by
  rwa [Spec.Due, State.pass_agenda]
theorem requestedFor_pass {s t : State} {due : Nat} {p : Phys} {op : FarOp} (n : Nat) (requested : Spec.RequestedFor due s t p op) :
    Spec.RequestedFor due s (t.pass n) p op :=
  have ⟨r, onWay, rest⟩ := requested
  ⟨r, due_pass n onWay, rest⟩

section
variable {s u : State} {h : Nat} (sent : SentOnly s u)
include sent

theorem SentOnly.thread (g : Nat) : u.thread g = s.thread g := by simp [State.thread, sent.threads]
theorem SentOnly.getX (r : Reg) : u.getX r = s.getX r := State.getX_congr sent.cur sent.threads sent.pumps r
theorem SentOnly.numOf (d : Reg) : u.numOf d = s.numOf d := by simp [State.numOf, sent.cur, sent.thread]
theorem SentOnly.requestedFor {due : Nat} {t : State} {p : Phys} {op : FarOp} (requested : Spec.RequestedFor due u t p op) :
    Spec.RequestedFor due s t p op := by
  obtain ⟨r, onWay, addr, key, does, issued, h, pump⟩ := requested
  exact ⟨r, onWay, addr, key, does, issued.trans sent.cycle, by rw [h]; simp [State.farReq, sent.cur], by rw [pump]; simp [State.farReq, sent.cur]⟩
theorem SentOnly.staysAt (thread : s.cur = .thread h) : StaysAt h s u := .of_thread thread sent.cur (sent.thread h)
end

end Sys2Proof.Machine
end

section
/-!
SUPPORT. LDL, STL and the landing of a store (O29).
-/

namespace Sys2Proof.Machine

/-! ### Keys of wells -/

theorem isWellKey_wellKey (core off : Nat) : isWellKey (wellKey core off) = true := by
  exact decide_eq_true (by rw [wellKey]; omega)
theorem keyCore_wellKey (core off : Nat) (inside : off < 2 ^ 20) : keyCore (wellKey core off) = core := by
  simp only [keyCore, wellKey]
  omega
theorem wellOff_lt (a : Word) : wellOff a < 2 ^ 20 := by
  simp only [wellOff, wfield, field]
  exact Nat.mod_lt _ (by decide)

/-! ### The checks -/

/-- The address of R282 as a sum of words is the one that the instruction's own form gives. -/
theorem accessAddr_eq (s : State) (p : BitVec 9) (a : Reg) (size : Nat) :
    accessAddr s p a size = s.getX a + BitVec.ofInt 64 (p.toInt * (size : Int)) := by
  simp [accessAddr, imm, word, BitVec.ofInt_mul, BitVec.signExtend]

theorem wellCheck_passes (s : State) (h : Nat) (a : Word) (n : Nat) (write : Bool) (inside : wfield a 63 25 = 0) (aligned : a.toNat % n = 0)
    (right : nbit (s.rights (coreOf h) (wellCore h a)) (b2n write) = true) : (wellCheck s h a n write false).1 = none := by
  simp [wellCheck, inside, aligned, right]

/-- An access that race detection lets through goes on, with its marks set (R279). -/
theorem raceTrap_of_free (ord : Option Nat) (h : Nat) (a : Word) (n : Nat) (write : Bool) (s : State) (f : State → State)
    (free : ord = none → (s.raceCheck (coreOf h) (s.thread h).ctx write [(wellCore h a, wellOff a, n)]).1 = none) :
    ∃ u, MarksOnly s u ∧ raceTrap ord h a n write s f = f u := by
  cases ord with
  | some q => exact ⟨s, .refl s, rfl⟩
  | none =>
    have marked := MarksOnly.raceCheck s (coreOf h) (s.thread h).ctx write [(wellCore h a, wellOff a, n)]
    have passes := free rfl
    unfold raceTrap
    simp only [Option.isSome_none, Bool.false_eq_true, if_false]
    split
    next v u found => simp [found] at passes
    next u found => exact ⟨u, by rwa [found] at marked, rfl⟩
theorem ordScope_none (o : BitVec 3) (plain : ordScope o = none) : o = 0 := by
  by_contra other
  rw [ordScope, if_neg other] at plain
  exact absurd plain (by simp)

theorem State.ordered_of_ungated (s : State) (afterRel : Bool) (f : State → State) (ungated : Spec.Ungated s) : s.ordered afterRel f = f s := by
  obtain ⟨acq, rel, _⟩ := ungated
  simp [State.ordered, acq, rel]

/-! ### Requests to a well bank -/

/-- An event is a TQTRY that an agent has issued before a cycle, on its way or with its answer on the way back. -/
def tryBefore (a : Agent) (sent : Nat) : Event → Bool
  | .tqRequestPerform r => a = .thread r.h && r.sent < sent && (match r.op with | .try_ _ _ => true | _ => false)
  | .tqAnswer r _ => a = .thread r.h && r.sent < sent && (match r.op with | .try_ _ _ => true | _ => false)
  | _ => false
theorem State.takeOut_eq (s : State) (a : Agent) (sent : Nat) : s.takeOut a sent = s.anyEvent (tryBefore a sent) := rfl
theorem tryBefore_mono {a : Agent} {m n : Nat} (le : m ≤ n) (e : Event) (early : tryBefore a m e = true) : tryBefore a n e = true := by
  have later (g sent : Nat) (tries : Bool) : (a = .thread g && sent < m && tries) = true → (a = .thread g && sent < n && tries) = true := by
    simp only [Bool.and_eq_true, decide_eq_true_eq]
    exact fun ⟨⟨own, before⟩, is⟩ => ⟨⟨own, Nat.lt_of_lt_of_le before le⟩, is⟩
  cases e
  case tqRequestPerform r => exact later _ _ _ early
  case tqAnswer r _ => exact later _ _ _ early
  all_goals exact early
/-- A TQTRY that has no answer in this cycle has none in the next one. -/
theorem State.takeOut_mono (s : State) (a : Agent) {m n : Nat} (le : m ≤ n) (out : s.takeOut a n = false) : s.takeOut a m = false := by
  rw [State.takeOut_eq, State.anyEvent, Bool.or_eq_false_iff, List.any_eq_false, List.any_eq_false] at *
  exact ⟨fun x mem early => out.1 x mem (tryBefore_mono le _ early), fun x mem early => out.2 x mem (tryBefore_mono le _ early)⟩
theorem State.takeOut_congr {s u : State} (agenda : u.agenda = s.agenda) (injWait : u.injWait = s.injWait) (a : Agent) (sent : Nat) :
    u.takeOut a sent = s.takeOut a sent := by
  rw [State.takeOut_eq, State.takeOut_eq, State.anyEvent, State.anyEvent, agenda, injWait]
theorem State.answered_of_ungated {s : State} {h : Nat} (thread : s.cur = .thread h) (ungated : Spec.Ungated s) :
    s.takeOut (.thread h) s.cycle = false :=
  s.takeOut_mono _ (Nat.le_succ _) (thread ▸ ungated.2.2)

theorem State.wayTo_well (s : State) (r : FarReq) (core off : Nat) (bank : r.addr = wellKey core off) (inside : off < 2 ^ 20) (far : r.near = false) :
    s.wayTo r = if core = coreOf r.h ∧ farWrites r.op = false then 4 else 6 + 2 * hops (coreOf r.h) core := by
  have key := keyCore_wellKey core off inside
  simp [State.wayTo, far, bank, isWellKey_wellKey, key, eq_comm (a := core)]
/-- A request to a bank of a well passes no limit (R377). -/
theorem State.leave_toWell (s : State) (r : FarReq) (delay core off : Nat) (bank : r.addr = wellKey core off) (thread : r.pump = none) :
    s.leave r delay = s.later (delay + s.wayTo r) (.farAccessPerform { r with held := false }) := by
  simp [State.leave, State.depart, thread, bank, isWellKey_wellKey]
theorem State.mem_leave_toWell (s : State) (r : FarReq) (delay core off : Nat) (bank : r.addr = wellKey core off) (thread : r.pump = none) :
    (s.cycle + (delay + s.wayTo r), .farAccessPerform { r with held := false }) ∈ (s.leave r delay).agenda := by
  rw [State.leave_toWell s r delay core off bank thread]
  exact State.due_later _ _ _
theorem State.mem_sendFar_toWell (s : State) (r : FarReq) (core off : Nat) (bank : r.addr = wellKey core off) (thread : r.pump = none)
    (answered : s.takeOut (.thread r.h) s.cycle = false) :
    (s.cycle + (0 + s.wayTo r), .farAccessPerform { r with sent := s.cycle, left := s.cycle, insn := s.issue.insn, held := false }) ∈
      (s.sendFar r 0).agenda := by
  have free : s.takeOut (reqAgent { r with sent := s.cycle, left := s.cycle + 0, insn := s.issue.insn }) s.cycle = false := by
    rwa [reqAgent, thread]
  unfold State.sendFar
  rw [if_neg (by rw [free]; decide)]
  exact State.mem_leave_toWell s _ 0 core off bank thread
/-- An access with a release to a well is on its way, or is held until the release has its conditions (R284). -/
theorem State.sendReleasing_toWell (s : State) (r : FarReq) (scope core off : Nat) (bank : r.addr = wellKey core off) (thread : r.pump = none) :
    ∃ due q, (due, .farAccessPerform q) ∈ (s.sendReleasing r scope 0).agenda ∧
      q = { r with sent := s.cycle, left := q.left, rel := q.rel, held := q.held, insn := q.insn } := by
  have begun := SentOnly.releaseBegin s s.cur scope
  unfold State.sendReleasing
  dsimp only
  split
  · exact ⟨_, _, State.mem_leave_toWell _ _ 0 core off bank thread, by simp [begun.cycle]⟩
  · exact ⟨_, _, State.due_later _ _ _, by simp [begun.cycle]⟩

/-! ### LDL and STL -/

/-- A register that the issuing thread awaits; nothing else of it changes. -/
theorem State.await_thread {s : State} {h : Nat} (thread : s.cur = .thread h) (d : Reg) (usable : Option Nat) : ∃ pend,
    (s.await d usable).thread h = { s.thread h with pend := pend } ∧ (d ≠ 0 → tfind pend (s.numOf d) = some usable) := by
  unfold State.await
  split
  next zero => exact ⟨_, rfl, fun other => absurd zero other⟩
  · simp only [thread, State.modThread_thread_same]
    exact ⟨_, rfl, fun _ => by simp [tfind_tset, State.numOf, thread]⟩
/-- The place of an access to a well among those of memory. -/
def wellPhys (core off : Nat) : Phys := { key := wellKey core off, ks := 0, nc := true, sa := false, cc := false }
/-- What LDL does once its checks have let it through: its register is awaited, and its request leaves. -/
def State.wellLoad (s : State) (h : Nat) (va : Word) (size : Nat) (nat : Bool) (acq : Option Nat) (d : Reg) : State :=
  ((s.retires acq).await d none).sendFar (s.farReq va (wellPhys (wellCore h va) (wellOff va)) (.load (s.numOf d) size nat acq)) 0

section
variable {s : State} {h : Nat} (thread : s.cur = .thread h) (ungated : Spec.Ungated s)
include thread ungated

theorem exec_ldl (p : BitVec 9) (o : BitVec 3) (n : BitVec 1) (z : BitVec 2) (a d : Reg) (va : Word)
    (runs : Spec.Runs (.ldl p o n z a d) s) (address : accessAddr s p a (2 ^ z.toNat) = va)
    (passes : (wellCheck s h va (2 ^ z.toNat) false false).1 = none)
    (free : o = 0 → (s.raceCheck (coreOf h) (s.thread h).ctx false [(wellCore h va, wellOff va, 2 ^ z.toNat)]).1 = none) :
    ∃ u, MarksOnly s u ∧ exec (.ldl p o n z a d) s = .next ((u.wellLoad h va (2 ^ z.toNat) (n = 1) (ordScope o) d).pass 4) := by
  show ∃ u, MarksOnly s u ∧ execLdl p o n z a d s = _
  unfold execLdl
  dsimp only
  rw [checkedBy_runs thread runs (by rwa [State.me_of_thread thread, address]), State.ordered_of_ungated _ _ _ ungated,
    State.me_of_thread thread, address]
  obtain ⟨u, marked, raced⟩ := raceTrap_of_free (ordScope o) h va (2 ^ z.toNat) false s
    (fun s => (s.wellLoad h va (2 ^ z.toNat) (n = 1) (ordScope o) d).pass 4) fun plain => free (ordScope_none o plain)
  exact ⟨u, marked, congrArg _ raced⟩
end

theorem State.farReq_of_thread {s : State} {h : Nat} (thread : s.cur = .thread h) (va : Word) (p : Phys) (op : FarOp) :
    s.farReq va p op = { h := h, pump := none, va := va, addr := p.key, key := p.ks, sa := p.sa, op := op } := by simp [State.farReq, thread]

section
variable {s : State} {h : Nat} (thread : s.cur = .thread h) (va : Word) (size : Nat) (nat : Bool) (acq : Option Nat) (d : Reg)
include thread

/-- An LDL leaves its thread as it is, but for the register that it awaits. -/
theorem State.wellLoad_frame : ∃ pend, (s.wellLoad h va size nat acq d).thread h = { s.thread h with pend := pend } ∧
    (d ≠ 0 → tfind pend (s.numOf d) = some none) ∧ (s.wellLoad h va size nat acq d).cur = s.cur ∧ (s.wellLoad h va size nat acq d).mem = s.mem ∧
    ∀ g, ((s.wellLoad h va size nat acq d).core g).well = (s.core g).well := by
  have retired := MarksOnly.retires s acq
  have sent := SentOnly.sendFar ((s.retires acq).await d none)
    (s.farReq va (wellPhys (wellCore h va) (wellOff va)) (.load (s.numOf d) size nat acq)) 0
  obtain ⟨pend, own, waits⟩ := State.await_thread (retired.cur.trans thread) d none
  rw [retired.thread] at own
  rw [retired.numOf] at waits
  refine ⟨pend, (sent.thread h).trans own, waits, ?_, ?_, fun g => ?_⟩
  · exact sent.cur.trans ((State.await_cur _ _ _).trans retired.cur)
  · exact sent.mem.trans ((State.await_mem _ _ _).trans retired.mem)
  · rw [State.wellLoad, sent.wells, State.core, State.await_cores, retired.cores, State.core]
/-- Its request is at the bank 4 cycles later in the own well and 6 + 2h cycles later in a peer's (R285). -/
theorem State.wellLoad_requests (answered : s.takeOut (.thread h) s.cycle = false) :
    Spec.RequestedFor (s.cycle + if wellCore h va = coreOf h then 4 else 6 + 2 * hops (coreOf h) (wellCore h va)) s
      (s.wellLoad h va size nat acq d) (wellPhys (wellCore h va) (wellOff va)) (.load (s.numOf d) size nat acq) := by
  have retired := MarksOnly.retires s acq
  have free : ((s.retires acq).await d none).takeOut (.thread h) ((s.retires acq).await d none).cycle = false := by
    rw [State.takeOut_congr (s := s) (by simp [retired.agenda]) (by simp [retired.injWait]), State.await_cycle, retired.cycle, answered]
  have onWay := State.mem_sendFar_toWell ((s.retires acq).await d none) (s.farReq va (wellPhys (wellCore h va) (wellOff va))
    (.load (s.numOf d) size nat acq)) (wellCore h va) (wellOff va) rfl (by rw [State.farReq_of_thread thread])
    (by rwa [State.farReq_of_thread thread])
  have way (w : State) : w.wayTo (s.farReq va (wellPhys (wellCore h va) (wellOff va)) (.load (s.numOf d) size nat acq)) =
      if wellCore h va = coreOf h then 4 else 6 + 2 * hops (coreOf h) (wellCore h va) := by
    rw [State.farReq_of_thread thread, State.wayTo_well _ _ (wellCore h va) (wellOff va) rfl (wellOff_lt va) rfl]
    simp [farWrites]
  rw [way, Nat.zero_add, State.await_cycle, retired.cycle] at onWay
  exact ⟨_, onWay, rfl, rfl, rfl, rfl, rfl, rfl⟩
end

/-- What STL does once its checks have let it through: its bytes leave for the bank, or are held behind its release. -/
def State.wellPut (s : State) (h : Nat) (va : Word) (bs : List Byte) (rel : Option Nat) : State :=
  let r := wellStore h (wellCore h va) (wellOff va) bs va s.cycle
  match rel with
  | none => if s.takeOut s.cur s.cycle then s.sendFar r 0
      else s.later (6 + 2 * hops (coreOf h) (wellCore h va)) (.wellStoreLand h (wellCore h va) (wellOff va) bs s.cycle)
  | some _ => s.sendWith rel r 0
theorem exec_stl {s : State} {h : Nat} (thread : s.cur = .thread h) (ungated : Spec.Ungated s) (p : BitVec 9) (o : BitVec 3) (z : BitVec 2)
    (a d : Reg) (va : Word) (runs : Spec.Runs (.stl p o z a d) s) (address : accessAddr s p a (2 ^ z.toNat) = va)
    (passes : (wellCheck s h va (2 ^ z.toNat) true false).1 = none)
    (free : o = 0 → (s.raceCheck (coreOf h) (s.thread h).ctx true [(wellCore h va, wellOff va, 2 ^ z.toNat)]).1 = none) :
    ∃ u, MarksOnly s u ∧
      exec (.stl p o z a d) s = .next ((u.wellPut h va (bytesOfWord (2 ^ z.toNat) (s.getX d)) (ordScope o)).pass 4) := by
  show ∃ u, MarksOnly s u ∧ execStl p o z a d s = _
  unfold execStl
  dsimp only
  rw [checkedBy_runs thread runs (by rwa [State.me_of_thread thread, address]), State.ordered_of_ungated _ _ _ ungated,
    State.me_of_thread thread, address]
  obtain ⟨u, marked, raced⟩ := raceTrap_of_free (ordScope o) h va (2 ^ z.toNat) true s
    (fun t => (t.wellPut h va (bytesOfWord (2 ^ z.toNat) (s.getX d)) (ordScope o)).pass 4) fun plain => free (ordScope_none o plain)
  refine ⟨u, marked, ?_⟩
  rw [← raced]
  unfold State.wellPut
  cases ordScope o <;> rfl
theorem SentOnly.wellPut (s : State) (h : Nat) (va : Word) (bs : List Byte) (rel : Option Nat) : SentOnly s (s.wellPut h va bs rel) := by
  cases rel with
  | none => exact .ite (.sendFar s _ 0) (.later s _ _)
  | some scope => exact (MarksOnly.released s s.cur scope).toSentOnly.trans (.sendReleasing _ _ scope 0)
/-- Without a release the bytes are at the bank 6 + 2h cycles later (R285). -/
theorem State.wellPut_lands {s : State} {h : Nat} (thread : s.cur = .thread h) (answered : s.takeOut (.thread h) s.cycle = false) (va : Word)
    (bs : List Byte) : (s.cycle + (6 + 2 * hops (coreOf h) (wellCore h va)), .wellStoreLand h (wellCore h va) (wellOff va) bs s.cycle) ∈
      (s.wellPut h va bs none).agenda := by
  simp only [State.wellPut, thread, answered, Bool.false_eq_true, if_false]
  exact State.due_later _ _ _
/-- With one they leave as a request (R284). -/
theorem State.wellPut_requests {s : State} {h : Nat} (thread : s.cur = .thread h) (va : Word) (bs : List Byte) (scope : Nat) :
    Spec.Requested s (s.wellPut h va bs (some scope)) (wellPhys (wellCore h va) (wellOff va)) (.store bs) := by
  obtain ⟨due, q, onWay, request⟩ := State.sendReleasing_toWell (s.released s.cur scope)
    (wellStore h (wellCore h va) (wellOff va) bs va s.cycle) scope (wellCore h va) (wellOff va) rfl rfl
  refine ⟨due, q, onWay, ?_⟩
  rw [State.farReq_of_thread thread, request]
  exact ⟨rfl, rfl, rfl, (MarksOnly.released s s.cur scope).cycle, rfl, rfl⟩

/-! ### A store that lands -/

@[simp] theorem State.recordWrite_cores (s : State) (w : Landing) : (s.recordWrite w).cores = s.cores := by
  refine List.foldlRecOn _ _ (motive := fun u : State => u.cores = s.cores) rfl fun u e x _ => ?_
  dsimp only
  repeat' split
  all_goals simpa using e
@[simp] theorem State.recordWrites_cores (s : State) (core : Option Nat) (first len delay : Nat) :
    (s.recordWrites core first len delay).cores = s.cores := by
  simp only [State.recordWrites, apply_ite State.cores, State.recordWrite_cores, ite_self]

end Sys2Proof.Machine

open Sys2Proof Sys2Proof.Machine Sys2Proof.Spec

theorem wellAccesses : WellAccesses := by
  intro s h p o n z a d thread ungated size va c off ph way inside aligned
  have address : accessAddr s p a size = va := accessAddr_eq s p a size
  have answered := State.answered_of_ungated thread ungated
  have ord : ordScope o = if o = 0 then none else some o.toNat := rfl
  constructor
  · intro runs right free
    obtain ⟨u, marked, run⟩ := exec_ldl thread ungated p o n z a d va runs address (wellCheck_passes s h va size false inside aligned right) free
    have thread' := marked.cur.trans thread
    obtain ⟨pend, own, waits, cur, mem, wells⟩ := State.wellLoad_frame thread' va size (n = 1) (ordScope o) d
    have requested := State.wellLoad_requests thread' va size (n = 1) (ordScope o) d
      (by rw [State.takeOut_congr marked.agenda marked.injWait, marked.cycle, answered])
    rw [marked.thread] at own
    have stays : StaysAt h s (u.wellLoad h va size (n = 1) (ordScope o) d) := ⟨thread, cur.trans thread', by rw [own], by rw [own]⟩
    refine ⟨_, run, stays.writesNone 4 fun r => by rw [own]; rfl, stays.passed 4, by rw [State.pass_mem, mem, marked.mem], fun g => ?_, fun named => ?_, ?_⟩
    · rw [State.core, State.pass_cores, ← State.core, wells, marked.wells]
    · rw [State.pass_thread 4 stays.cur, own]
      exact marked.numOf d ▸ waits named
    · rw [marked.numOf, marked.cycle] at requested
      exact requestedFor_pass 4 (marked.requestedFor requested)
  · intro runs right free
    obtain ⟨u, marked, run⟩ := exec_stl thread ungated p o z a d va runs address (wellCheck_passes s h va size true inside aligned right) free
    have thread' := marked.cur.trans thread
    have sent := marked.toSentOnly.trans (.wellPut u h va (bytesOfWord size (s.getX d)) (ordScope o))
    have stays := sent.staysAt thread
    refine ⟨_, run, stays.writesNone 4 fun r => by rw [sent.thread], stays.passed 4, by rw [State.pass_mem, sent.mem], fun g => ?_, fun plain => ?_,
      fun releases => ?_⟩
    · rw [State.core, State.pass_cores, ← State.core, sent.wells]
    · rw [ord, if_pos plain]
      have lands := State.wellPut_lands thread' (by rw [State.takeOut_congr marked.agenda marked.injWait, marked.cycle, answered]) va
        (bytesOfWord size (s.getX d))
      rw [marked.cycle] at lands
      exact due_pass 4 lands
    · rw [ord, if_neg releases]
      obtain ⟨due, requested⟩ := State.wellPut_requests thread' va (bytesOfWord size (s.getX d)) o.toNat
      exact ⟨due, requestedFor_pass 4 (marked.requestedFor requested)⟩
theorem wellStoreLands : WellStoreLands := by
  intro s h core off sent bs takes behind locked
  have run : exec .wellStoreLand s = .next (if s.wellBehind h core off bs.length sent then
        s.later 1 (.farAccessPerform (wellStore h core off bs (wellAddr core off) sent))
      else if s.mustWait (sectorsOf core off bs.length) true s.cycle (orderKey h sent) then
        s.later 1 (.farAccessPerform { wellStore h core off bs (wellAddr core off) sent with reached := some s.cycle })
      else s.landWell core off bs 0) := onEvent_some s _ _ takes
  constructor
  · intro first free canonical
    rw [if_neg first, if_neg free, State.landWell] at run
    refine ⟨_, run, fun x => ?_, fun c other => ?_, by simp, (NotesOnly.recordWrites _ _ _ _ _).seq⟩
    · rw [State.core, State.recordWrites_cores, ← State.core, State.modCore_core_same]
      exact memGet_memWrite bs _ off canonical x
    · rw [State.core, State.recordWrites_cores, ← State.core, State.modCore_core, if_neg other]
  · intro waits
    by_cases follows : s.wellBehind h core off bs.length sent = true
    · rw [if_pos follows] at run
      exact ⟨_, run, rfl, _, State.due_later _ _ _, rfl, rfl, rfl, rfl, rfl, (if_pos follows).symm⟩
    · rw [if_neg follows, if_pos (waits.resolve_left follows)] at run
      exact ⟨_, run, rfl, _, State.due_later _ _ _, rfl, rfl, rfl, rfl, rfl, (if_neg follows).symm⟩

/-- Settles O29: what an LDL and an STL send, and what a store does at its bank. -/
theorem wellAccess : Obligations.WellAccess := ⟨wellAccesses, wellStoreLands⟩
end

section
/-!
SUPPORT. The tile queues of a pair: places and waits, and what QLD, QST and QPX do (O34).
-/

namespace Sys2Proof.Machine

/-! ### The units of a transfer -/

/-- What comes behind all that is sorted already is put at the end. -/
theorem insertBy_last {β : Type} (m : β → Nat) (x : β) (l : List β) (last : ∀ y ∈ l, m y ≤ m x) : insertBy m x l = l ++ [x] := by
  induction l with
  | nil => rfl
  | cons y l ih =>
    simp only [insertBy, last y (by simp), if_true, List.cons_append]
    rw [ih fun z mem => last z (by simp [mem])]
/-- A list whose measure rises is sorted, and has no equal entries. -/
theorem sortBy_of_rising {β : Type} (m : β → Nat) (l : List β) (rising : l.Pairwise fun x y => m x < m y) : sortBy m l = l := by
  have grows (acc : List β) (all : (acc ++ l).Pairwise fun x y => m x < m y) : l.foldl (fun acc x => insertBy m x acc) acc = acc ++ l := by
    clear rising
    induction l generalizing acc with
    | nil => simp
    | cons x l ih =>
      have before := (List.pairwise_append.mp all).2.2
      rw [List.foldl_cons, insertBy_last m x acc fun y mem => Nat.le_of_lt (before y mem x (by simp)), ih _ (by simpa using all)]
      simp
  exact grows [] rising
theorem dedup_of_nodup {β : Type} [DecidableEq β] (l : List β) (nodup : l.Nodup) : dedup l = l := by
  have grows (acc : List β) (all : (acc ++ l).Nodup) : l.foldl (fun acc x => if acc.contains x then acc else acc ++ [x]) acc = acc ++ l := by
    clear nodup
    induction l generalizing acc with
    | nil => simp
    | cons x l ih =>
      have new : x ∉ acc := fun mem => (List.nodup_append.mp all).2.2 x mem x (by simp) rfl
      rw [List.foldl_cons, if_neg (by simpa using new), ih _ (by simpa using all)]
      simp
  exact grows [] nodup
theorem sectorsOf_rising (core off n : Nat) : (sectorsOf core off n).Pairwise fun x y => unitKey x < unitKey y := by
  unfold sectorsOf
  split
  · exact .nil
  · rw [List.pairwise_map]
    exact List.pairwise_lt_range.imp fun {i j} less => by simp only [unitKey]; omega
/-- The units of one run of a well are its sectors, in their order. -/
theorem unitsOf_well (core off n key : Nat) : unitsOf [{ well := some core, addr := off, off := 0, len := n, key := key }] = sectorsOf core off n := by
  have rising := sectorsOf_rising core off n
  simp only [unitsOf, List.flatMap_cons, List.flatMap_nil, List.append_nil]
  rw [sortBy_of_rising _ _ rising, dedup_of_nodup _ (rising.imp fun less same => by simp [same] at less)]

/-! ### Queues of a pair -/

theorem State.modQueue_queue (s : State) (core pair q : Nat) (f : Queue → Queue) :
    (s.modQueue core pair q f).queue core pair q = f (s.queue core pair q) := by
  simp [State.modQueue, State.queue, tmod]
theorem State.queue_congr {s u : State} (cores : u.cores = s.cores) (core pair q : Nat) : u.queue core pair q = s.queue core pair q := by
  simp [State.queue, State.core, cores]
theorem State.anyEvent_at_ (s : State) (due : Nat) (e : Event) (p : Event → Bool) (other : p e = false) : (s.at_ due e).anyEvent p = s.anyEvent p := by
  have same : (s.at_ due e).agenda.any (fun x => p x.2) = s.agenda.any fun x => p x.2 := by
    rw [Bool.eq_iff_iff, List.any_eq_true, List.any_eq_true]
    constructor
    · rintro ⟨x, mem, yes⟩
      obtain rfl | mem := (mem_insertEvent ..).mp mem
      · simp [other] at yes
      · exact ⟨x, mem, yes⟩
    · rintro ⟨x, mem, yes⟩
      exact ⟨x, (mem_insertEvent ..).mpr (.inr mem), yes⟩
  rw [State.anyEvent, State.anyEvent, same]
  rfl
/-- A partner is woken by an event, and nothing else. -/
theorem State.wakePartner_only (s : State) (h due : Nat) : s.wakePartner h due = { s with agenda := (s.wakePartner h due).agenda } := by
  unfold State.wakePartner
  split <;> rfl
theorem State.wakePartner_takeOut (s : State) (h due : Nat) (a : Agent) (sent : Nat) : (s.wakePartner h due).takeOut a sent = s.takeOut a sent := by
  unfold State.wakePartner
  split
  · exact State.anyEvent_at_ s due (.queueWake (partner h)) (tryBefore a sent) rfl
  · rfl

/-! ### Issue, wait or trap -/

/-- A thread that blocks on a queue is blocked, with its looks on the agenda; nothing else happens. -/
theorem blockOnQueue_only (q : Nat) (s : State) : ∃ a, blockOnQueue q s = { s.blocks (.queue q) with agenda := a } := by
  unfold blockOnQueue
  refine List.foldlRecOn _ _ (motive := fun u : State => ∃ a, u = { s.blocks (.queue q) with agenda := a }) ⟨_, rfl⟩ fun u only n _ => ?_
  refine List.foldlRecOn _ _ (motive := fun u : State => ∃ a, u = { s.blocks (.queue q) with agenda := a }) only fun v only c _ => ?_
  obtain ⟨a, rfl⟩ := only
  exact ⟨_, rfl⟩

section
variable {s : State} {h : Nat} {i : Instr} (thread : s.cur = .thread h)
include thread

/-- The spec's three cases of an instruction on queues are those of `onQueues`. -/
theorem onQueues_spec (f : State → State) (P : State → Prop) (run : exec i s = .next (onQueues i s f))
    (opens : Spec.QueuesOpen s h i → P (f s)) : Spec.OnQueues i h s P := by
  have me := State.me_of_thread thread
  unfold onQueues at run
  rw [me] at run
  refine ⟨fun open_ => ⟨_, run, ?_⟩, fun q fits waits => ⟨_, run, ?_⟩, fun q misused _ => ⟨_, run, ?_⟩⟩
  · have goes := opens open_
    obtain ⟨fits, free⟩ := open_
    simpa [fits, free] using goes
  · obtain ⟨a, blocked⟩ := blockOnQueue_only q s
    simp only [fits, waits, blocked]
    exact ⟨State.blocks_blockedFor _ thread, (StaysAt.blocks (.queue q) thread).pc, State.blocks_reads _ thread, rfl,
      State.blocks_other (.queue q) thread⟩
  · simp only [misused, State.trap_thread s h _ _ thread]
    exact trapped_of_trap s h _ _
end

/-! ### What changes as queues are pushed and popped -/

theorem SentOnly.wakePartner (s : State) (h due : Nat) : SentOnly s (s.wakePartner h due) := by
  rw [State.wakePartner_only]
  exact ⟨rfl, rfl, rfl, rfl, rfl, rfl, fun _ => rfl⟩
theorem State.wakePartner_cores (s : State) (h due : Nat) : (s.wakePartner h due).cores = s.cores := by rw [State.wakePartner_only]
theorem SentOnly.modQueue (s : State) (core pair q : Nat) (f : Queue → Queue) : SentOnly s (s.modQueue core pair q f) := .modCore s core _ rfl
theorem SentOnly.pushQueue (s : State) (h q : Nat) (v : VReg) (due : Nat) (wait : Option Nat) : SentOnly s (s.pushQueue h q v due wait) :=
  (SentOnly.modQueue s _ _ _ _).trans (.ite (.refl _) (.wakePartner _ _ _))
theorem SentOnly.popQueue (s : State) (h q : Nat) : SentOnly s (s.popQueue h q).2 :=
  (SentOnly.modQueue s _ _ _ _).trans (.wakePartner _ _ _)
theorem State.pushQueue_pushed (s : State) (h q : Nat) (v : VReg) (due : Nat) (wait : Option Nat) :
    Spec.Pushed s (s.pushQueue h q v due wait) h q { val := v, at_ := due, wait := wait } := by
  have cores (u : State) : (if wait.isSome then u else u.wakePartner h (due - 1)).cores = u.cores := by
    split
    · rfl
    · exact State.wakePartner_cores u h _
  rw [Spec.Pushed, State.pushQueue, State.queue_congr (cores _), State.modQueue_queue]
/-- The oldest entry of a queue leaves it. -/
theorem State.popQueue_queue (s : State) (h q : Nat) :
    ((s.popQueue h q).2.queue (coreOf h) (pairOf h) q).ents = (s.queue (coreOf h) (pairOf h) q).ents.drop 1 := by
  rw [State.popQueue, State.queue_congr (State.wakePartner_cores ..), State.modQueue_queue]
/-- Pushes and pops leave a TQTRY on its way as it is. -/
theorem State.pushQueue_takeOut (s : State) (h q : Nat) (v : VReg) (due : Nat) (wait : Option Nat) (a : Agent) (sent : Nat) :
    (s.pushQueue h q v due wait).takeOut a sent = s.takeOut a sent := by
  have same := State.takeOut_congr (s := s) (u := s.modQueue (coreOf h) (pairOf h) q
    fun x => { x with ents := x.ents ++ [{ val := v, at_ := due, wait := wait }] }) rfl rfl a sent
  unfold State.pushQueue
  dsimp only
  split
  · exact same
  · rw [State.wakePartner_takeOut, same]
theorem State.popQueue_takeOut (s : State) (h q : Nat) (a : Agent) (sent : Nat) : (s.popQueue h q).2.takeOut a sent = s.takeOut a sent := by
  rw [State.popQueue, State.wakePartner_takeOut]
  exact State.takeOut_congr rfl rfl a sent

/-! ### The tile access of a transfer -/

/-- The run of a transfer in a well. -/
def transferSeg (c off : Nat) : Seg := { well := some c, addr := off, off := 0, len := 128, key := 0 }
/-- The access of a transfer that no TQTRY holds back is under way when it has its first latency (R263). -/
theorem State.startTile_inWell (s : State) (a : TAcc) (n c off : Nat) (seg : a.segs = [transferSeg c off]) (free : a.relWait = false)
    (unheld : s.tileHeld a = false) : ∃ insn left, s.startTile a n =
      State.later { s with nextId := s.nextId + 1,
                           taccs := tset s.taccs s.nextId { a with reqAt := s.cycle + n, relWait := false, insn := insn, left := left } }
        n (.tileLockGrant a.h s.nextId) := by
  have unheld' : ({ s with nextId := s.nextId + 1 } : State).tileHeld a = false := unheld
  have near : farTileBytes a.segs = 0 := by rw [seg]; rfl
  refine ⟨s.issue.insn, s.cycle + n - State.firstLatency { s with nextId := s.nextId + 1 } a.h a.excl a.units, ?_⟩
  simp only [State.startTile, State.fresh, State.tileLeaves, free, unheld', near, Bool.or_self, Bool.false_eq_true, if_false, ne_eq, not_true,
    decide_false, Bool.and_false]

theorem hops_self (c : Nat) : hops c c = 0 := by simp [hops, dist]
/-- The cycles to the bank of a transfer (R8, R192, R263). -/
def transferLatency (h c : Nat) (write : Bool) : Nat :=
  if write then 6 + 2 * hops (coreOf h) c else if c = coreOf h then 1 else 12 + 4 * hops (coreOf h) c
/-- What a QLD or a QST begins is its access, and nothing else; no TQTRY of the thread is without an answer. -/
theorem startTransfer_begun (s : State) (h c off : Nat) (bs : List Byte) (done : TDone) (transfers : done = .qst ∨ ∃ q n, done = .qld q n)
    (answered : s.takeOut (.thread h) s.cycle = false) :
    SentOnly s (startTransfer h c off bs done s) ∧ (startTransfer h c off bs done s).cores = s.cores ∧
      Spec.TileBegun s (startTransfer h c off bs done s) h (done = .qst) [transferSeg c off] bs done (transferLatency h c (done = .qst)) := by
  have latency : (if c = coreOf h then (if decide (done = .qst) = true then 6 else 1) else s.firstLatency h (done = .qst) [.sector c off]) =
      transferLatency h c (done = .qst) := by
    unfold transferLatency State.firstLatency
    by_cases own : c = coreOf h
    · subst own; simp [hops_self]
    · simp [own]
  unfold startTransfer
  dsimp only
  rw [latency]
  obtain ⟨insn, left, begun⟩ := State.startTile_inWell s
    { h := h, excl := done = .qst, units := sectorsOf c off 128, reqAt := 0, sent := s.cycle, buf := bs, done := done, segs := [transferSeg c off] }
    (transferLatency h c (done = .qst)) c off rfl rfl (by
      obtain rfl | ⟨q, n, rfl⟩ := transfers
      · exact answered
      · exact answered)
  rw [transferSeg] at begun
  rw [begun]
  refine ⟨⟨rfl, rfl, rfl, rfl, rfl, rfl, fun _ => rfl⟩, rfl, s.nextId, _, by rw [State.later_taccs, tfind_tset, if_pos rfl], rfl, rfl, rfl,
    (unitsOf_well c off 128 0).symm, rfl, rfl, rfl, rfl, State.due_later _ _ _⟩
theorem tileBegun_pass {s t : State} {h : Nat} {excl : Bool} {l : List Seg} {buf : List Byte} {done : TDone} {due : Nat} (n : Nat)
    (begun : Spec.TileBegun s t h excl l buf done due) : Spec.TileBegun s (t.pass n) h excl l buf done due := by
  simpa only [Spec.TileBegun, Spec.Due, State.pass_taccs, State.pass_agenda] using begun
theorem tileBegun_congr {s u t : State} {h : Nat} {excl : Bool} {l : List Seg} {buf : List Byte} {done : TDone} {due : Nat}
    (cycle : u.cycle = s.cycle) (begun : Spec.TileBegun u t h excl l buf done due) : Spec.TileBegun s t h excl l buf done due := by
  rwa [Spec.TileBegun, cycle] at begun
theorem pushed_pass {s t : State} {h q : Nat} {e : QEntry} (n : Nat) (pushed : Spec.Pushed s t h q e) : Spec.Pushed s (t.pass n) h q e := by
  rwa [Spec.Pushed, State.queue_congr (State.pass_cores ..)]

/-! ### QLD and QST -/

/-- What a QLD does that its checks and its queue let through. -/
def State.queueLoad (s : State) (h q c off : Nat) : State :=
  startTransfer h c off (List.replicate 128 0) (.qld q s.nextId)
    (s.fresh.2.pushQueue h q 0 (s.cycle + if c = coreOf h then 2 else 12 + 4 * hops (coreOf h) c) (some s.nextId))
/-- What a QST does. -/
def State.queueStore (s : State) (h q c off : Nat) : State := startTransfer h c off (bytesOfVreg (s.popQueue h q).1) .qst (s.popQueue h q).2

/-- The entry takes its place at issue, and its bytes are read. -/
theorem State.queueLoad_spec (s : State) (h q c off : Nat) (answered : s.takeOut (.thread h) s.cycle = false) :
    SentOnly s (s.queueLoad h q c off) ∧
    Spec.Pushed s (s.queueLoad h q c off) h q
      { val := 0, at_ := s.cycle + (if c = coreOf h then 2 else 12 + 4 * hops (coreOf h) c), wait := some s.nextId } ∧
    Spec.TileBegun s (s.queueLoad h q c off) h false [transferSeg c off] (List.replicate 128 0) (.qld q s.nextId) (transferLatency h c false) := by
  have counted : SentOnly s s.fresh.2 := ⟨rfl, rfl, rfl, rfl, rfl, rfl, fun _ => rfl⟩
  have pushed := SentOnly.pushQueue s.fresh.2 h q 0 (s.cycle + if c = coreOf h then 2 else 12 + 4 * hops (coreOf h) c) (some s.nextId)
  have entered := counted.trans pushed
  obtain ⟨sent, cores, begun⟩ := startTransfer_begun _ h c off (List.replicate 128 0) (.qld q s.nextId) (.inr ⟨q, _, rfl⟩)
    (by rw [State.pushQueue_takeOut, entered.cycle]; exact answered)
  refine ⟨entered.trans sent, ?_, tileBegun_congr entered.cycle begun⟩
  rw [Spec.Pushed, State.queueLoad, State.queue_congr cores]
  exact State.pushQueue_pushed s.fresh.2 h q 0 _ (some s.nextId)
/-- The oldest entry leaves its queue, and is written. -/
theorem State.queueStore_spec (s : State) (h q c off : Nat) (answered : s.takeOut (.thread h) s.cycle = false)
    (filled : (s.queue (coreOf h) (pairOf h) q).ents ≠ []) :
    SentOnly s (s.queueStore h q c off) ∧
    ∃ e, (s.queue (coreOf h) (pairOf h) q).ents = e :: ((s.queueStore h q c off).queue (coreOf h) (pairOf h) q).ents ∧
      Spec.TileBegun s (s.queueStore h q c off) h true [transferSeg c off] (bytesOfVreg e.val) .qst (transferLatency h c true) := by
  have popped := SentOnly.popQueue s h q
  obtain ⟨sent, cores, begun⟩ := startTransfer_begun _ h c off (bytesOfVreg (s.popQueue h q).1) .qst (.inl rfl)
    (by rw [State.popQueue_takeOut, popped.cycle]; exact answered)
  obtain ⟨e, rest, ents⟩ := List.exists_cons_of_ne_nil filled
  have oldest : (s.popQueue h q).1 = e.val := by simp [State.popQueue, ents]
  refine ⟨popped.trans sent, e, ?_, ?_⟩
  · rw [State.queueStore, State.queue_congr cores, State.popQueue_queue, ents]
    rfl
  · rw [← oldest]
    exact tileBegun_congr popped.cycle begun

/-! ### The checks of a transfer -/

section
variable (s : State) (h : Nat) (va : Word) (write : Bool)

theorem transferCheck_eq : transferCheck s h va 128 write =
    if wfield va 63 25 ≠ 0 ∨ 2 ^ 20 < wellOff va + 128 then some (6, va)
    else if va.toNat % 16 ≠ 0 then some (4, va)
    else if nbit (s.rights (coreOf h) (wellCore h va)) (b2n write) then none else some (7, va) := by
  cases right : nbit (s.rights (coreOf h) (wellCore h va)) (b2n write) <;>
    simp only [transferCheck, right, Bool.or_eq_true, decide_eq_true_eq] <;> rfl
theorem transferCheck_outside (outside : wfield va 63 25 ≠ 0 ∨ 2 ^ 20 < wellOff va + 128) : transferCheck s h va 128 write = some (6, va) := by
  rw [transferCheck_eq, if_pos outside]
theorem transferCheck_misaligned (inside : ¬ (wfield va 63 25 ≠ 0 ∨ 2 ^ 20 < wellOff va + 128)) (odd : va.toNat % 16 ≠ 0) :
    transferCheck s h va 128 write = some (4, va) := by
  rw [transferCheck_eq, if_neg inside, if_pos odd]
theorem transferCheck_aligned (inside : ¬ (wfield va 63 25 ≠ 0 ∨ 2 ^ 20 < wellOff va + 128)) (aligned : va.toNat % 16 = 0) :
    transferCheck s h va 128 write = if nbit (s.rights (coreOf h) (wellCore h va)) (b2n write) then none else some (7, va) := by
  rw [transferCheck_eq, if_neg inside, if_neg (by simpa using aligned)]
end
/-- A queue that the instruction may name passes (R190). -/
theorem queueIn_named (n : BitVec 2) (push : Bool) (named : decide (n.toNat < 2) = push) : queueIn n push = none := if_pos named
theorem queueIn_refused (n : BitVec 2) (push : Bool) (other : decide (n.toNat < 2) ≠ push) : queueIn n push = some (2, n.zeroExtend 64) := if_neg other

section
variable {s : State} {h : Nat} {i : Instr} {pre : State → Option (Nat × Word)} {f : State → State} (thread : s.cur = .thread h)
  (runs : Spec.Runs i s) (run : exec i s = checkedBy i pre s f)
include thread runs run

/-- An instruction that its own checks refuse traps. -/
theorem completes_trapped {cause : Nat} {v : Word} (fails : pre s = some (cause, v)) : Spec.Completes i s (Spec.Trapped h cause v s) :=
  ⟨_, run.trans (checkedBy_traps thread runs fails), trapped_of_trap s h cause v⟩

/-- The spec's cases of a QLD or QST at va are those of `transferCheck` and `transfer`. -/
theorem transfers_spec (va : Word) (write : Bool) (effect : State → State) (P : Nat → Nat → State → Prop)
    (checks : pre s = transferCheck s h va 128 write)
    (does : f s = s.ordered false fun s => transfer i (wellCore h va) (wellOff va) write s effect)
    (holds : ∀ u, Spec.Ungated s → MarksOnly s u → Spec.QueuesOpen s h i → P (wellCore h va) (wellOff va) (effect u)) :
    Spec.Transfers i h va write s P := by
  have traps {cause : Nat} {v : Word} (fails : transferCheck s h va 128 write = some (cause, v)) :=
    completes_trapped thread runs run (checks.trans fails)
  refine ⟨fun outside _ => traps (transferCheck_outside s h va write outside),
    fun inside odd _ => traps (transferCheck_misaligned s h va write inside odd),
    fun inside aligned right _ => traps (by rw [transferCheck_aligned s h va write inside aligned, right]; rfl),
    fun inside aligned right ungated => ?_⟩
  have passes : pre s = none := by rw [checks, transferCheck_aligned s h va write inside aligned, right]; rfl
  have core : s.myCore = coreOf h := by rw [State.myCore, State.me_of_thread thread]
  have marked := MarksOnly.raceCheck s (coreOf h) (s.thread h).ctx write [(wellCore h va, wellOff va, 128)]
  rw [checkedBy_runs thread runs passes, does, State.ordered_of_ungated _ _ _ ungated] at run
  dsimp only [transfer] at run
  rw [core, State.self_of_thread thread] at run
  refine ⟨fun v race _ => ?_, fun free => ?_⟩
  · simp only [race, State.trap_thread s h _ _ thread] at run
    exact ⟨_, run, trapped_of_trap s h 0x0C v⟩
  · simp only [free] at run
    refine onQueues_spec thread _ _ run fun opens => ?_
    rw [core, State.self_of_thread thread]
    exact holds _ ungated marked opens
end

/-- A pop that the queues let through finds an entry (R17). -/
theorem ents_of_popped {s : State} {h : Nat} {a : Reg} {n : BitVec 2} (opens : Spec.QueuesOpen s h (.qst a n)) :
    (s.queue (coreOf h) (pairOf h) n.toNat).ents ≠ [] := by
  intro empty
  have waits := opens.2
  simp [State.queueWaits, queueUses, Queue.canPop, empty] at waits

/-! ### Waits -/

theorem State.wake_other (s : State) (h g : Nat) (other : g ≠ h) : (s.wake h).thread g = s.thread g := by
  simp [State.wake, State.modThread_thread, other]
theorem State.goesOn_other (s : State) (h g : Nat) (other : g ≠ h) : (s.goesOn h).thread g = s.thread g := by
  simp [State.goesOn, State.modThread_thread, other]
/-- The partner goes on, or nothing happens. -/
theorem State.partnerGoesOn_or (s : State) (h : Nat) : s.partnerGoesOn h = s.goesOn (partner h) ∨ s.partnerGoesOn h = s := by
  unfold State.partnerGoesOn
  dsimp only
  repeat' split
  all_goals simp
/-- A partner that no longer has to wait goes on. -/
theorem State.partnerGoesOn_ready {s : State} {h q : Nat} {i : Instr} (blocked : Spec.BlockedFor (partner h) (.queue q) s)
    (insn : blockedInsn (s.thread (partner h)) = some i) (fits : (s.partnerGoesOn h).queueMisuse (partner h) i = none)
    (free : (s.partnerGoesOn h).queueWaits (partner h) i s.cycle = none) : Spec.ReadyAt (partner h) s.cycle (s.partnerGoesOn h) := by
  have goes : s.partnerGoesOn h =
      if (s.queueMisuse (partner h) i).isNone && (s.queueWaits (partner h) i s.cycle).isNone then s.goesOn (partner h) else s := by
    simp only [State.partnerGoesOn, blocked, insn]
  by_cases may : ((s.queueMisuse (partner h) i).isNone && (s.queueWaits (partner h) i s.cycle).isNone) = true
  · rw [goes, if_pos may, Spec.ReadyAt, State.goesOn_blocked s _ _ blocked]
    exact ⟨rfl, rfl⟩
  · rw [if_neg may] at goes
    rw [goes] at fits free
    exact absurd (by rw [fits, free]; rfl) may
/-- A partner that waits for a queue looks at it. -/
theorem State.wakePartner_due {s : State} {h q : Nat} (blocked : Spec.BlockedFor (partner h) (.queue q) s) (due : Nat) :
    Spec.Due (max due s.cycle) (.queueWake (partner h)) (s.wakePartner h due) := by
  simp only [State.wakePartner, blocked]
  exact (mem_insertEvent ..).mpr (.inl rfl)

/-- An entry of a QLD whose bytes have been read: it can be popped from a cycle on. -/
def entryRead (id usable : Nat) (e : QEntry) : QEntry := if e.wait = some id then { e with wait := none, at_ := max e.at_ usable } else e
/-- The bytes of a QLD have been read. -/
def State.entryRead (s : State) (h q id usable : Nat) : State :=
  s.modQueue (coreOf h) (pairOf h) q fun x => { x with ents := x.ents.map (Machine.entryRead id usable) }
theorem SentOnly.entryRead (s : State) (h q id usable : Nat) : SentOnly s (s.entryRead h q id usable) := .modQueue s _ _ _ _
theorem State.entryRead_queue (s : State) (h q id usable : Nat) : ((s.entryRead h q id usable).queue (coreOf h) (pairOf h) q).ents =
    (s.queue (coreOf h) (pairOf h) q).ents.map (Machine.entryRead id usable) := by rw [State.entryRead, State.modQueue_queue]
/-- From the own well, the partner looks in this cycle whether it can pop in the next one. -/
theorem exec_qldEntryArrival_own {s : State} {h q id c off : Nat} (takes : s.ev = some (.qldEntryArrival h q id c off)) (own : c = coreOf h) :
    exec .qldEntryArrival s = .next ((s.entryRead h q id (s.cycle + 1)).wakePartner h s.cycle) := by
  subst own
  refine (onEvent_some s _ _ takes).trans ?_
  simp only [if_true]
  rfl
/-- From a peer's well, the partner may pop in this cycle. -/
theorem exec_qldEntryArrival_peer {s : State} {h q id c off : Nat} (takes : s.ev = some (.qldEntryArrival h q id c off)) (peer : c ≠ coreOf h) :
    exec .qldEntryArrival s = .next ((s.entryRead h q id s.cycle).partnerGoesOn h) := by
  refine (onEvent_some s _ _ takes).trans ?_
  simp only [if_neg peer]
  rfl

end Sys2Proof.Machine

open Sys2Proof Sys2Proof.Machine Sys2Proof.Spec

theorem queueInstructions : QueueInstructions := by
  intro s h a n thread seg
  have me := State.me_of_thread thread
  refine ⟨fun runs => ?_, fun runs => ?_, fun b runs => ?_⟩
  · have run : exec (.qld a n) s = execQld a n s := rfl
    refine ⟨fun other _ => completes_trapped thread runs run (by rw [queueIn_refused n true (by simp; omega)]; rfl), fun named => ?_⟩
    refine transfers_spec thread runs run (s.getX a) false
      (fun u => (u.queueLoad h n.toNat (wellCore h (s.getX a)) (wellOff (s.getX a))).pass 4) _
      (by rw [queueIn_named n true (by simpa using named), me]; rfl) (by dsimp only; rw [me]; rfl) fun u ungated marked _ => ?_
    have answered := State.answered_of_ungated thread ungated
    obtain ⟨sent, pushed, begun⟩ := u.queueLoad_spec h n.toNat (wellCore h (s.getX a)) (wellOff (s.getX a))
      (by rw [State.takeOut_congr marked.agenda marked.injWait, marked.cycle, answered])
    have stays := (marked.toSentOnly.trans sent).staysAt thread
    refine ⟨stays.writesNone 4 fun r => by rw [sent.thread, marked.thread], stays.passed 4, by rw [State.pass_mem, sent.mem, marked.mem], u.nextId, ?_, ?_⟩
    · rw [Pushed, State.queue_congr marked.cores, marked.cycle] at pushed
      exact pushed_pass 4 pushed
    · exact tileBegun_pass 4 (tileBegun_congr marked.cycle begun)
  · have run : exec (.qst a n) s = execQst a n s := rfl
    refine ⟨fun other _ => completes_trapped thread runs run (by rw [queueIn_refused n false (by simp; omega)]; rfl), fun named => ?_⟩
    refine transfers_spec thread runs run (s.getX a) true
      (fun u => (u.queueStore h n.toNat (wellCore h (s.getX a)) (wellOff (s.getX a))).pass 4) _
      (by rw [queueIn_named n false (by simp; omega), me]; rfl) (by dsimp only; rw [me]; rfl) fun u ungated marked opens => ?_
    have answered := State.answered_of_ungated thread ungated
    obtain ⟨sent, e, popped, begun⟩ := u.queueStore_spec h n.toNat (wellCore h (s.getX a)) (wellOff (s.getX a))
      (by rw [State.takeOut_congr marked.agenda marked.injWait, marked.cycle, answered])
      (by rw [State.queue_congr marked.cores]; exact ents_of_popped opens)
    have stays := (marked.toSentOnly.trans sent).staysAt thread
    rw [State.queue_congr marked.cores] at popped
    exact ⟨stays.writesNone 4 fun r => by rw [sent.thread, marked.thread], stays.passed 4, by rw [State.pass_mem, sent.mem, marked.mem], e,
      by rw [popped, State.queue_congr (State.pass_cores ..)], tileBegun_pass 4 (tileBegun_congr marked.cycle begun)⟩
  · have run : exec (.qpx b a n) s = execQpx b a n s := rfl
    refine ⟨fun other _ => completes_trapped thread runs run (queueIn_refused n true (by simp; omega)), fun named => ?_⟩
    rw [execQpx, checkedBy_runs thread runs (queueIn_named n true (by simpa using named))] at run
    refine onQueues_spec thread _ _ run fun _ => ?_
    rw [me]
    have pushed := SentOnly.pushQueue s h n.toNat (BitVec.ofNat 1024 ((s.getX a).toNat + (s.getX b).toNat * 2 ^ 64)) (s.cycle + 2) none
    have stays := pushed.staysAt thread
    exact ⟨stays.writesNone 4 fun r => by rw [pushed.thread], stays.passed 4, by rw [State.pass_mem, pushed.mem],
      pushed_pass 4 (State.pushQueue_pushed s h n.toNat _ _ none)⟩

theorem queueWaits : QueueWaits := by
  intro s h q
  refine ⟨fun i takes blocked insn => ?_, fun id c off takes => ?_⟩
  · have run : exec .queueWake s = _ := onEvent_some s _ _ takes
    simp only [blocked, insn] at run
    refine ⟨fun fits free => ?_, fun k fits waits => ?_, fun k misused _ => ?_⟩
    · simp only [fits, free, Option.isNone_none, if_true] at run
      have own := State.wake_blocked s h _ blocked
      exact ⟨_, run, by rw [ReadyAt, own]; exact ⟨rfl, rfl⟩, by rw [own], rfl, s.wake_other h⟩
    · simpa [fits, waits] using run
    · simp only [misused] at run
      exact ⟨_, run, trapped_of_trap s h 0x12 (word k)⟩
  · by_cases own : c = coreOf h
    · have read := SentOnly.entryRead s h q id (s.cycle + 1)
      have woken := read.trans (.wakePartner _ h s.cycle)
      refine ⟨_, exec_qldEntryArrival_own takes own, woken.mem, fun g _ => woken.thread g, fun k i blocked _ => ⟨fun _ => ?_, (absurd own ·)⟩, ?_⟩
      · have due := State.wakePartner_due (s := s.entryRead h q id (s.cycle + 1)) (by rwa [BlockedFor, read.thread]) s.cycle
        rwa [read.cycle, Nat.max_self] at due
      · rw [State.queue_congr (State.wakePartner_cores ..), State.entryRead_queue, if_pos own]
        rfl
    · have read := SentOnly.entryRead s h q id s.cycle
      refine ⟨_, exec_qldEntryArrival_peer takes own, ?_, fun g spared => ?_,
        fun k i blocked insn => ⟨(absurd · own), fun _ fits free => ?_⟩, ?_⟩
      · obtain goes | stays := State.partnerGoesOn_or (s.entryRead h q id s.cycle) h
        · rw [goes, State.goesOn_mem, read.mem]
        · rw [stays, read.mem]
      · obtain goes | stays := State.partnerGoesOn_or (s.entryRead h q id s.cycle) h
        · rw [goes, State.goesOn_other _ _ _ (spared.resolve_right own), read.thread]
        · rw [stays, read.thread]
      · rw [← read.cycle] at free ⊢
        exact State.partnerGoesOn_ready (q := k) (by rwa [BlockedFor, read.thread]) (by rwa [read.thread]) fits free
      · have cores : ((s.entryRead h q id s.cycle).partnerGoesOn h).cores = (s.entryRead h q id s.cycle).cores := by
          obtain goes | stays := State.partnerGoesOn_or (s.entryRead h q id s.cycle) h
          · rw [goes, State.goesOn_cores]
          · rw [stays]
        rw [State.queue_congr cores, State.entryRead_queue, if_neg own]
        rfl

/-- Settles O34: QLD, QST and QPX, and the waits on their queues. -/
theorem queues : Obligations.Queues := ⟨queueInstructions, queueWaits⟩
end

section
/-!
SUPPORT. A barrier release that a stray gang spoils (O24). R30 keeps the gang records of threads together; the statement speaks of all states
and asks for no such thing.
-/

namespace Sys2Proof.Machine

/-- An arrival whose phase 0 at barrier 0 is complete. -/
def completedArrival : BarArr := { b := 0, phase := 0, done := some 0 }
/-- Three threads whose gang records do not agree. Thread 0 waits at the barrier and takes thread 16, which has parked with its wait over, for its
whole gang; thread 16 takes thread 8 for its own; thread 8, in no gang, waits at the barrier for x1. -/
def strayGangState : State :=
  { State.reset with
    agenda := []
    ev := some (.barrierRelease 0 0 0 0)
    threads :=
      [(0, { run := .blocked (.barrier 0 0), barWait := [completedArrival], gang := some (16, 1, 0) }),
       (8, { run := .blocked (.barrier 0 1), barWait := [completedArrival] }),
       (16, { run := .parked, fin := some 0, gang := some (8, 1, 0) })] }

/-- The release ends the wait of thread 0 together with that of thread 16, whose trap is then taken anew and undoes what thread 8 waits in; thread 8
retires with the status of an instruction that is to be undone. -/
theorem strayGangState_status (t : State) (run : exec .barrierRelease strayGangState = .next t) :
    (t.thread 8).getX 1 = word undoes := by
  have status : (match exec .barrierRelease strayGangState with | .next t => (t.thread 8).getX 1 | _ => 0) = word undoes := by decide
  rwa [run] at status

end Sys2Proof.Machine

open Sys2Proof Sys2Proof.Machine Sys2Proof.Spec

/-- Refutes O24: a gang of inconsistent records has a release retire a thread with the status of an instruction that is to be undone. -/
theorem not_barriers : ¬ Obligations.Barriers := by
  intro ⟨_, _, releases⟩
  have waits := releases strayGangState 8 completedArrival 1 (by decide) (by simp [strayGangState, State.thread, tget]) rfl ⟨rfl, rfl⟩ rfl rfl
  obtain ⟨t, run, released, _⟩ := waits.1 0 rfl rfl
  have status := released 1
  rw [strayGangState_status t run] at status
  exact absurd status (by decide)
end

section
/-!
SUPPORT for O59. What the canonical form of wells and tables is, part by part, and what keeps it: tables first, then what the tables hold, then
the state.
-/

namespace Sys2Proof.Machine
open Spec (Rising)

/-! ### Tables whose entries meet a condition -/

/-- A table in rising order whose entries all meet a condition. -/
structure Lists {β : Type} (P : β → Prop) (t : Table β) : Prop where
  rising : Rising t
  all : ∀ x, x ∈ t → P x.2

theorem rising_tmod {β : Type} (d : β) (t : Table β) (n : Nat) (f : β → β) (h : Rising t) : Rising (tmod d t n f) := tset_rising _ _ _ h
theorem rising_filter {β : Type} (p : Nat × β → Bool) (t : Table β) (h : Rising t) : Rising (t.filter p) := h.sublist t.filter_sublist
/-- Entries are changed and dropped under the numbers that they have. -/
theorem rising_filterMap {β γ : Type} (f : Nat × β → Option (Nat × γ)) (t : Table β) (key : ∀ x y, f x = some y → y.1 = x.1) (h : Rising t) :
    Rising (t.filterMap f) := by
  refine List.pairwise_filterMap.mpr (h.imp fun {x y} l a ha b hb => ?_)
  rw [key x a ha, key y b hb]
  exact l
theorem rising_map {β γ : Type} (f : Nat × β → Nat × γ) (t : Table β) (key : ∀ x, (f x).1 = x.1) (h : Rising t) : Rising (t.map f) := by
  refine List.pairwise_map.mpr (h.imp fun {x y} l => ?_)
  rw [key x, key y]
  exact l
theorem rising_foldl {α β : Type} (f : Table β → α → Table β) (l : List α) (t : Table β) (hf : ∀ u x, Rising u → Rising (f u x)) (h : Rising t) :
    Rising (l.foldl f t) := List.foldlRecOn l f (motive := Rising) h fun u hu x _ => hf u x hu

theorem tfind_mem {β : Type} (t : Table β) (n : Nat) (b : β) (h : tfind t n = some b) : (n, b) ∈ t := by
  induction t with
  | nil => cases h
  | cons y t ih =>
    simp only [tfind] at h
    split at h
    · cases h; subst n; exact .head _
    · split at h
      · cases h
      · exact .tail _ (ih h)
theorem tget_mem {β : Type} (d : β) (t : Table β) (n : Nat) : tget d t n = d ∨ (n, tget d t n) ∈ t := by
  induction t with
  | nil => exact .inl rfl
  | cons y t ih =>
    simp only [tget]
    split
    · subst n; exact .inr (.head _)
    · split
      · exact .inl rfl
      · exact ih.imp_right (.tail _)

namespace Lists
variable {β γ : Type} {P : β → Prop} {Q : γ → Prop} {t : Table β}

theorem nil : Lists P [] := ⟨.nil, by simp⟩
theorem tset (h : Lists P t) (n : Nat) {b : β} (hb : P b) : Lists P (tset t n b) :=
  ⟨tset_rising _ _ _ h.rising, fun x m => (tset_mem t n b x m).elim (fun e => by rw [e]; exact hb) (h.all x)⟩
theorem terase (h : Lists P t) (n : Nat) : Lists P (terase t n) :=
  ⟨terase_rising _ _ h.rising, fun x m => h.all x ((terase_sublist t n).subset m)⟩
theorem tfind (h : Lists P t) {n : Nat} {b : β} (f : tfind t n = some b) : P b := h.all _ (tfind_mem t n b f)
theorem tget (h : Lists P t) {d : β} (hd : P d) (n : Nat) : P (tget d t n) := by
  rcases tget_mem d t n with e | m
  · rw [e]; exact hd
  · exact h.all _ m
theorem tmod (h : Lists P t) {d : β} (hd : P d) (n : Nat) {f : β → β} (hf : ∀ b, P b → P (f b)) : Lists P (tmod d t n f) :=
  h.tset n (hf _ (h.tget hd n))
theorem filter (h : Lists P t) (p : Nat × β → Bool) : Lists P (t.filter p) :=
  ⟨rising_filter p t h.rising, fun x m => h.all x (List.mem_of_mem_filter m)⟩
theorem map (h : Lists P t) (f : Nat × β → Nat × γ) (key : ∀ x, (f x).1 = x.1) (hf : ∀ x, P x.2 → Q (f x).2) : Lists Q (t.map f) := by
  refine ⟨rising_map f t key h.rising, fun y m => ?_⟩
  obtain ⟨x, mx, rfl⟩ := List.mem_map.mp m
  exact hf x (h.all x mx)
theorem tmap (h : Lists P t) {f : Nat → β → β} (hf : ∀ n b, P b → P (f n b)) : Lists P (tmap f t) :=
  h.map (fun x => (x.1, f x.1 x.2)) (fun _ => rfl) fun x => hf x.1 x.2
theorem foldl {α : Type} (f : Table β → α → Table β) (l : List α) (hf : ∀ u x, Lists P u → Lists P (f u x)) (h : Lists P t) :
    Lists P (l.foldl f t) := List.foldlRecOn l f (motive := Lists P) h fun u hu x _ => hf u x hu
end Lists

/-! ### What the tables hold -/

/-- The tables of a draw rise. -/
structure Draw.Canonical (d : Draw) : Prop where
  slots : Rising d.slots
  passed : Rising d.passed
/-- The well and the tables of a core are canonical. -/
structure Core.Canonical (k : Core) : Prop where
  well : Memory.wf k.well = true
  cistern : Rising k.cistern
  mirror : Rising k.mirror
  queues : Rising k.queues
  l1 : Rising k.l1
  icache : Rising k.icache
  moves : Rising k.moves
  delays : Rising k.delays
  draws : Lists Draw.Canonical k.draws
  jobs : Lists (fun j : MatJob => Rising j.preps) k.jobs
theorem Core.canonical_iff (k : Core) : k.Canonical ↔ Spec.CanonicalCore k := by
  constructor
  · rintro ⟨well, cistern, mirror, queues, l1, icache, moves, delays, draws, jobs⟩
    exact ⟨well, cistern, mirror, queues, l1, icache, moves, delays, draws.rising, fun d m => ⟨(draws.all d m).slots, (draws.all d m).passed⟩,
      jobs.rising, jobs.all⟩
  · rintro ⟨well, cistern, mirror, queues, l1, icache, moves, delays, draws, inDraws, jobs, inJobs⟩
    exact ⟨well, cistern, mirror, queues, l1, icache, moves, delays, ⟨draws, fun d m => ⟨(inDraws d m).1, (inDraws d m).2⟩⟩, ⟨jobs, inJobs⟩⟩
/-- The tables of a cluster rise. -/
structure Cluster.Canonical (k : Cluster) : Prop where
  bars : Rising k.bars
  mcast : Rising k.mcast
  race : Rising k.race
/-- The misses of a die rise; its walker cache holds entries that name tables (R247). -/
structure Die.Canonical (d : Die) : Prop where
  misses : Rising d.misses
  walk : ∀ w, w ∈ d.walk → nbit w.2.2.2.toNat 7 = false
/-- What a save keeps of a context is canonical. -/
structure Saved.Canonical (v : Saved) : Prop where
  threads : Rising v.threads
  copies : Rising v.copies
  cores : Lists Core.Canonical v.cores
/-- The tables of a context rise, and what a save keeps of it is canonical. -/
structure Ctx.Canonical (x : Ctx) : Prop where
  nodes : Rising x.nodes
  tensors : Rising x.tensors
  saved : ∀ v, x.saved = some v → v.Canonical
theorem Ctx.canonical_iff (x : Ctx) : x.Canonical ↔ Spec.CanonicalCtx x := by
  constructor
  · intro h
    exact ⟨h.nodes, h.tensors, fun v e =>
      ⟨(h.saved v e).threads, (h.saved v e).copies, (h.saved v e).cores.rising, fun k m => (Core.canonical_iff _).mp ((h.saved v e).cores.all k m)⟩⟩
  · rintro ⟨nodes, tensors, saved⟩
    refine ⟨nodes, tensors, fun v e => ?_⟩
    obtain ⟨threads, copies, cores, inCores⟩ := saved v e
    exact ⟨threads, copies, cores, fun k m => (Core.canonical_iff _).mpr (inCores k m)⟩

/-! ### The state -/

/-- Memory, wells and tables are canonical: what every step keeps. -/
structure Canonical (s : State) : Prop where
  mem : Memory.wf s.mem = true
  threads : Rising s.threads
  cores : Lists Core.Canonical s.cores
  clusters : Lists Cluster.Canonical s.clusters
  dies : Lists Die.Canonical s.dies
  pumps : Rising s.pumps
  parts : Lists (fun q : Part => Rising q.keys) s.parts
  ctxs : Lists Ctx.Canonical s.ctxs
  vfs : Rising s.vfs
  gangs : Rising s.gangs
  copies : Rising s.copies
  taccs : Rising s.taccs
  bks : Rising s.bks
  lines : Rising s.lines
  hostLines : Rising s.hostLines
  tags : Rising s.tags
  inj : Rising s.inj
  linkSeq : Rising s.linkSeq
/-- The invariant is what O58 and O59 speak of. -/
theorem canonical_iff (s : State) : Canonical s ↔ Memory.wf s.mem = true ∧ Spec.CanonicalTables s := by
  constructor
  · intro h
    exact ⟨h.mem, h.threads, h.cores.rising, h.clusters.rising, h.dies.rising, h.pumps, h.parts.rising, h.ctxs.rising, h.vfs, h.gangs, h.copies,
      h.taccs, h.bks, h.lines, h.hostLines, h.tags, h.inj, h.linkSeq, fun k m => (Core.canonical_iff _).mp (h.cores.all k m),
      ⟨fun k m => ⟨(h.clusters.all k m).bars, (h.clusters.all k m).mcast, (h.clusters.all k m).race⟩,
        fun d m => ⟨(h.dies.all d m).misses, (h.dies.all d m).walk⟩⟩, h.parts.all, fun x m => (Ctx.canonical_iff _).mp (h.ctxs.all x m)⟩
  · rintro ⟨mem, threads, cores, clusters, dies, pumps, parts, ctxs, vfs, gangs, copies, taccs, bks, lines, hostLines, tags, inj, linkSeq, inCores,
      ⟨inClusters, inDies⟩, inParts, inCtxs⟩
    exact ⟨mem, threads, ⟨cores, fun k m => (Core.canonical_iff _).mpr (inCores k m)⟩,
      ⟨clusters, fun k m => ⟨(inClusters k m).1, (inClusters k m).2.1, (inClusters k m).2.2⟩⟩, ⟨dies, fun d m => ⟨(inDies d m).1, (inDies d m).2⟩⟩,
      pumps, ⟨parts, inParts⟩, ⟨ctxs, fun x m => (Ctx.canonical_iff _).mpr (inCtxs x m)⟩, vfs, gangs, copies, taccs, bks, lines, hostLines, tags, inj,
          linkSeq⟩
end Sys2Proof.Machine
end

section
/-!
SUPPORT for O59. The rules of the invariant for each way in which the model changes a part of the state; `simp` runs through an operation with
them.
-/

namespace Sys2Proof.Machine
open Spec (Rising)

/-! ### What the invariant says of a part -/

theorem Core.canonical_def (k : Core) : k.Canonical ↔ Memory.wf k.well = true ∧ Rising k.cistern ∧ Rising k.mirror ∧ Rising k.queues ∧ Rising k.l1 ∧
    Rising k.icache ∧ Rising k.moves ∧ Rising k.delays ∧ Lists Draw.Canonical k.draws ∧ Lists (fun j : MatJob => Rising j.preps) k.jobs :=
  ⟨fun ⟨a, b, c, d, e, f, g, h, i, j⟩ => ⟨a, b, c, d, e, f, g, h, i, j⟩, fun ⟨a, b, c, d, e, f, g, h, i, j⟩ => ⟨a, b, c, d, e, f, g, h, i, j⟩⟩
theorem Cluster.canonical_def (k : Cluster) : k.Canonical ↔ Rising k.bars ∧ Rising k.mcast ∧ Rising k.race :=
  ⟨fun ⟨a, b, c⟩ => ⟨a, b, c⟩, fun ⟨a, b, c⟩ => ⟨a, b, c⟩⟩
theorem Die.canonical_def (d : Die) : d.Canonical ↔ Rising d.misses ∧ ∀ w, w ∈ d.walk → nbit w.2.2.2.toNat 7 = false :=
  ⟨fun ⟨a, b⟩ => ⟨a, b⟩, fun ⟨a, b⟩ => ⟨a, b⟩⟩
theorem Draw.canonical_def (d : Draw) : d.Canonical ↔ Rising d.slots ∧ Rising d.passed := ⟨fun ⟨a, b⟩ => ⟨a, b⟩, fun ⟨a, b⟩ => ⟨a, b⟩⟩
theorem Ctx.canonical_def (x : Ctx) : x.Canonical ↔ Rising x.nodes ∧ Rising x.tensors ∧ ∀ v, x.saved = some v → v.Canonical :=
  ⟨fun ⟨a, b, c⟩ => ⟨a, b, c⟩, fun ⟨a, b, c⟩ => ⟨a, b, c⟩⟩
theorem Saved.canonical_def (v : Saved) : v.Canonical ↔ Rising v.threads ∧ Rising v.copies ∧ Lists Core.Canonical v.cores :=
  ⟨fun ⟨a, b, c⟩ => ⟨a, b, c⟩, fun ⟨a, b, c⟩ => ⟨a, b, c⟩⟩
theorem Core.new_canonical : ({} : Core).Canonical := ⟨rfl, .nil, .nil, .nil, .nil, .nil, .nil, .nil, .nil, .nil⟩
theorem Cluster.new_canonical : ({} : Cluster).Canonical := ⟨.nil, .nil, .nil⟩
theorem Die.new_canonical : ({} : Die).Canonical := ⟨.nil, by simp⟩

section
variable {s : State} (hs : Canonical s)
include hs
theorem Canonical.core (c : Nat) : (s.core c).Canonical := hs.cores.tget Core.new_canonical c
theorem Canonical.cluster (c : Nat) : (s.cluster c).Canonical := hs.clusters.tget Cluster.new_canonical c
theorem Canonical.die (d : Nat) : (s.die d).Canonical := hs.dies.tget Die.new_canonical d
theorem Canonical.ctx {c : Nat} {x : Ctx} (e : s.ctx c = some x) : x.Canonical := hs.ctxs.tfind e
theorem Canonical.drawAt {core num : Nat} {d : Draw} (e : tfind (s.core core).draws num = some d) : d.Canonical := (hs.core core).draws.tfind e
theorem Canonical.draw {core num seq : Nat} {d : Draw} (e : s.draw core num seq = some d) :
    d.Canonical := hs.drawAt (Option.filter_eq_some_iff.mp e).1
theorem Canonical.job {h : Nat} {j : MatJob} (e : s.job h = some j) : Rising j.preps :=
  (hs.core _).jobs.tfind (Option.filter_eq_some_iff.mp e).1
theorem Canonical.part {p : Nat} {q : Part} (e : s.part p = some q) : Rising q.keys := hs.parts.tfind e
@[simp] theorem State.mem_wf : Memory.wf s.mem = true := hs.mem
@[simp] theorem State.threads_rising : Rising s.threads := hs.threads
@[simp] theorem State.cores_canonical : Lists Core.Canonical s.cores := hs.cores
@[simp] theorem State.clusters_canonical : Lists Cluster.Canonical s.clusters := hs.clusters
@[simp] theorem State.dies_canonical : Lists Die.Canonical s.dies := hs.dies
@[simp] theorem State.pumps_rising : Rising s.pumps := hs.pumps
@[simp] theorem State.parts_canonical : Lists (fun q : Part => Rising q.keys) s.parts := hs.parts
@[simp] theorem State.ctxs_canonical : Lists Ctx.Canonical s.ctxs := hs.ctxs
@[simp] theorem State.vfs_rising : Rising s.vfs := hs.vfs
@[simp] theorem State.gangs_rising : Rising s.gangs := hs.gangs
@[simp] theorem State.copies_rising : Rising s.copies := hs.copies
@[simp] theorem State.taccs_rising : Rising s.taccs := hs.taccs
@[simp] theorem State.bks_rising : Rising s.bks := hs.bks
@[simp] theorem State.lines_rising : Rising s.lines := hs.lines
@[simp] theorem State.hostLines_rising : Rising s.hostLines := hs.hostLines
@[simp] theorem State.tags_rising : Rising s.tags := hs.tags
@[simp] theorem State.inj_rising : Rising s.inj := hs.inj
@[simp] theorem State.linkSeq_rising : Rising s.linkSeq := hs.linkSeq
end
/-- What an update of fields of the state has to keep. -/
@[simp] theorem canonical_mk (cycle agenda ev cur cursor gangs issue freeCtr nextId threads cores clusters dies pumps mem tags lines hostLines locks
    waiting taccs copies bks parts ctxs pf vfs msix inj injWait biAsked biDone linkDown broken linkSeq throttle landings) :
    Canonical ⟨cycle, agenda, ev, cur, cursor, gangs, issue, freeCtr, nextId, threads, cores, clusters, dies, pumps, mem, tags, lines, hostLines,
        locks,
      waiting, taccs, copies, bks, parts, ctxs, pf, vfs, msix, inj, injWait, biAsked, biDone, linkDown, broken, linkSeq, throttle, landings⟩ ↔
    Memory.wf mem = true ∧ Rising threads ∧ Lists Core.Canonical cores ∧ Lists Cluster.Canonical clusters ∧ Lists Die.Canonical dies ∧ Rising pumps ∧
    Lists (fun q : Part => Rising q.keys) parts ∧ Lists Ctx.Canonical ctxs ∧ Rising vfs ∧ Rising gangs ∧ Rising copies ∧ Rising taccs ∧ Rising bks ∧
    Rising lines ∧ Rising hostLines ∧ Rising tags ∧ Rising inj ∧ Rising linkSeq :=
  ⟨fun ⟨a, b, c, d, e, f, g, h, i, j, k, l, m, n, o, p, q, r⟩ => ⟨a, b, c, d, e, f, g, h, i, j, k, l, m, n, o, p, q, r⟩,
    fun ⟨a, b, c, d, e, f, g, h, i, j, k, l, m, n, o, p, q, r⟩ => ⟨a, b, c, d, e, f, g, h, i, j, k, l, m, n, o, p, q, r⟩⟩

/-- An update that touches neither memory nor a table. -/
theorem canonical_same (s : State) (cycle agenda ev cur cursor issue freeCtr nextId locks waiting pf msix injWait biAsked biDone linkDown broken throttle
    landings) (hs : Canonical s) :
    Canonical ⟨cycle, agenda, ev, cur, cursor, s.gangs, issue, freeCtr, nextId, s.threads, s.cores, s.clusters, s.dies, s.pumps, s.mem, s.tags,
        s.lines,
      s.hostLines, locks, waiting, s.taccs, s.copies, s.bks, s.parts, s.ctxs, pf, s.vfs, msix, s.inj, injWait, biAsked, biDone, linkDown, broken,
      s.linkSeq, throttle, landings⟩ := { hs with }

/-- The table of threads alone is replaced. -/
theorem canonical_threads (s : State) (t : Table Thread) (ht : Rising t) (hs : Canonical s) :
    Canonical { s with threads := t } := { hs with threads := ht }

/-! ### Control structures -/

@[simp] theorem State.ite_canonical {c : Prop} [Decidable c] {a b : State} (ha : Canonical a) (hb : Canonical b) :
    Canonical (if c then a else b) := by
  split <;> assumption
@[simp] theorem State.foldl_canonical {α : Type} (f : State → α → State) (l : List α) (s : State) (hf : ∀ u x, Canonical u → Canonical (f u x))
    (hs : Canonical s) : Canonical (l.foldl f s) :=
  List.foldlRecOn l f (motive := Canonical) hs fun u hu x _ => hf u x hu
theorem State.foldlFst_canonical {α β : Type} (f : State × β → α → State × β) (l : List α) (s : State × β)
    (hf : ∀ u x, Canonical u.1 → Canonical (f u x).1) (hs : Canonical s.1) : Canonical (l.foldl f s).1 :=
  List.foldlRecOn l f (motive := fun t => Canonical t.1) hs fun u hu x _ => hf u x hu
theorem State.foldlSnd_canonical {α β : Type} (f : β × State → α → β × State) (l : List α) (s : β × State)
    (hf : ∀ u x, Canonical u.2 → Canonical (f u x).2) (hs : Canonical s.2) : Canonical (l.foldl f s).2 :=
  List.foldlRecOn l f (motive := fun t => Canonical t.2) hs fun u hu x _ => hf u x hu
@[simp] theorem State.forUpto_canonical (n : Nat) (f : Nat → State → State) (s : State) (hf : ∀ u i, Canonical u → Canonical (f i u))
    (hs : Canonical s) : Canonical (forUpto n s f) := State.foldl_canonical _ _ _ hf hs
@[simp] theorem State.elim_canonical {α : Type} (o : Option α) (s : State) (f : α → State) (hf : ∀ x, Canonical (f x)) (hs : Canonical s) :
    Canonical (o.elim s f) := by
  cases o with
  | none => exact hs
  | some x => exact hf x
/-- The state that an answer goes on in is canonical. -/
def AnsCanonical (a : Ans) : Prop := ∀ t, a = .next t → Canonical t
theorem ansCanonical_next_iff (t : State) : AnsCanonical (.next t) ↔ Canonical t :=
  ⟨fun h => h t rfl, fun h u e => by cases e; exact h⟩
@[simp] theorem ansCanonical_next (t : State) (ht : Canonical t) : AnsCanonical (.next t) := (ansCanonical_next_iff t).mpr ht

/-! ### What changes a core, a draw, a context -/

@[simp] theorem Core.ite_canonical {c : Prop} [Decidable c] {a b : Core} (ha : a.Canonical) (hb : b.Canonical) : (if c then a else b).Canonical := by
  split <;> assumption
section
variable (k : Core) (hk : k.Canonical)
include hk
@[simp] theorem Core.settleDelays_canonical (cycle : Nat) : (k.settleDelays cycle).Canonical :=
  { hk with delays := rising_foldl _ _ _ (fun _ _ ht => tset_rising _ _ _ ht) hk.delays }
@[simp] theorem Core.clearPair_canonical (pair : Nat) : (k.clearPair pair).Canonical := { hk with queues := rising_filter _ _ hk.queues }
@[simp] theorem Core.dropSfu_canonical (h : Nat) : (k.dropSfu h).Canonical := { hk with }
@[simp] theorem Core.setRow_canonical (tile row : Nat) (v : VReg) : (k.setRow tile row v).Canonical := by
  refine { hk with cistern := ?_ }
  unfold Core.setRow
  dsimp only
  split
  · exact terase_rising _ _ hk.cistern
  · exact tset_rising _ _ _ hk.cistern
@[simp] theorem Core.setTile_canonical (tile : Nat) (rows : List VReg) : (k.setTile tile rows).Canonical :=
  List.foldlRecOn _ _ (motive := Core.Canonical) hk fun u hu i _ => u.setRow_canonical hu tile i _
@[simp] theorem Core.cleared_canonical (cycle : Nat) : (k.cleared cycle).Canonical :=
  { Core.new_canonical with icache := hk.icache, mirror := hk.mirror }
@[simp] theorem Core.block_canonical : k.block.Canonical := { hk with l1 := .nil, icache := .nil, delays := .nil }
end
/-- The misses of a die are changed under their numbers. -/
theorem Die.mapMisses_canonical (d : Die) (hd : d.Canonical) (f : Nat → Miss → Miss) : Die.Canonical { d with misses := tmap f d.misses } :=
  { hd with misses := tmap_rising f _ hd.misses }
theorem restoredDraw_canonical (d : Draw) (hd : d.Canonical) : (restoredDraw d).Canonical := by
  unfold restoredDraw
  refine ⟨?_, .nil⟩
  dsimp only
  exact tmap_rising _ _ hd.slots
theorem Draw.setSlot_canonical (d : Draw) (hd : d.Canonical) (n : Nat) (v : RingSlot) : Draw.Canonical { d with slots := tset d.slots n v } :=
  { hd with slots := tset_rising _ _ _ hd.slots }
theorem Draw.ofRecord_canonical (d : Draw) (bs : List Byte) (hd : d.Canonical) : (d.ofRecord bs).Canonical :=
  { hd with slots := rising_filter _ _ hd.slots }
theorem rowsOf_rising (cs : List Host.Cell) : Rising (rowsOf cs) := rising_foldl _ _ _ (fun _ _ ht => tset_rising _ _ _ ht) .nil
/-- A context keeps launches with what its save keeps, or with nothing else. -/
@[simp] theorem Ctx.addLaunches_canonical (x : Ctx) (l : List (Nat × Launch)) (hx : x.Canonical) : (x.addLaunches l).Canonical := by
  refine { hx with saved := fun v e => ?_ }
  cases e
  cases h : x.saved with
  | none => exact ⟨.nil, .nil, .nil⟩
  | some v => exact { hx.saved v h with }

/-! ### Parts of the state -/

section
variable (s : State) (hs : Canonical s)
include hs
@[simp] theorem State.setThread_canonical (h : Nat) (t : Thread) : Canonical (s.setThread h t) := { hs with threads := tset_rising _ _ _ hs.threads }
@[simp] theorem State.modThread_canonical (h : Nat) (f : Thread → Thread) : Canonical (s.modThread h f) := s.setThread_canonical hs _ _
@[simp] theorem State.modSelf_canonical (f : Thread → Thread) : Canonical (s.modSelf f) := s.modThread_canonical hs _ _
@[simp] theorem State.setCore_canonical (c : Nat) (k : Core) (hk : k.Canonical) : Canonical (s.setCore c k) :=
  { hs with cores := hs.cores.tset c hk }
@[simp] theorem State.modCore_canonical (c : Nat) (f : Core → Core) (hf : ∀ k, k.Canonical → (f k).Canonical) : Canonical (s.modCore c f) :=
  s.setCore_canonical hs c _ (hf _ (hs.core c))
@[simp] theorem State.modCluster_canonical (c : Nat) (f : Cluster → Cluster) (hf : ∀ k, k.Canonical → (f k).Canonical) :
    Canonical (s.modCluster c f) := { hs with clusters := hs.clusters.tset c (hf _ (hs.cluster c)) }
@[simp] theorem State.modDie_canonical (c : Nat) (f : Die → Die) (hf : ∀ k, k.Canonical → (f k).Canonical) : Canonical (s.modDie c f) :=
  { hs with dies := hs.dies.tset c (hf _ (hs.die c)) }
@[simp] theorem State.modPump_canonical (c : Nat) (f : Pump → Pump) : Canonical (s.modPump c f) := { hs with pumps := tset_rising _ _ _ hs.pumps }
@[simp] theorem State.modPart_canonical (p : Nat) (f : Part → Part) (hf : ∀ q, Rising q.keys → Rising (f q).keys) : Canonical (s.modPart p f) := by
  unfold State.modPart
  split
  next x e => exact { hs with parts := hs.parts.tset p (hf x (hs.part e)) }
  · exact hs
@[simp] theorem State.modCtx_canonical (c : Nat) (f : Ctx → Ctx) (hf : ∀ x, x.Canonical → (f x).Canonical) : Canonical (s.modCtx c f) := by
  unfold State.modCtx
  split
  next x e => exact { hs with ctxs := hs.ctxs.tset c (hf x (hs.ctx e)) }
  · exact hs
@[simp] theorem State.modVf_canonical (p : Nat) (f : Vf → Vf) : Canonical (s.modVf p f) := { hs with vfs := tset_rising _ _ _ hs.vfs }
@[simp] theorem State.fire_canonical (fn vec : Nat) : Canonical (s.fire fn vec) := { hs with }
@[simp] theorem State.choose_canonical (n : Nat) : Canonical (s.choose n).2 := { hs with }
@[simp] theorem State.fresh_canonical : Canonical s.fresh.2 := { hs with }
@[simp] theorem State.atCycle_canonical (due : Nat) (e : Event) : Canonical (s.at_ due e) := { hs with }
@[simp] theorem State.later_canonical (n : Nat) (e : Event) : Canonical (s.later n e) := s.atCycle_canonical hs _ e
@[simp] theorem State.dropEvents_canonical (p : Event → Bool) : Canonical (s.dropEvents p) := { hs with }
@[simp] theorem State.modSeq_canonical (f : Seq → Seq) : Canonical (s.modSeq f) := by
  unfold State.modSeq; split <;> simp [hs]
@[simp] theorem State.setX_canonical (r : Reg) (v : Word) : Canonical (s.setX r v) := by
  unfold State.setX; split <;> simp [hs]
@[simp] theorem State.await_canonical (r : Reg) (c : Option Nat) : Canonical (s.await r c) := by
  unfold State.await
  split
  · exact hs
  · split <;> simp [hs]
@[simp] theorem State.count_canonical : Canonical s.count := by
  unfold State.count; split <;> simp [hs]
@[simp] theorem State.pass_canonical (len : Nat) : Canonical (s.pass len) := by simp [State.pass, hs]
@[simp] theorem State.jump_canonical (t : Word) : Canonical (s.jump t) := by simp [State.jump, hs]
@[simp] theorem State.passOf_canonical (h len : Nat) : Canonical (s.passOf h len) := s.modThread_canonical hs _ _
@[simp] theorem State.stalls_canonical : Canonical s.stalls := { hs with }
@[simp] theorem State.blocks_canonical (w : Why) : Canonical (s.blocks w) := s.modSelf_canonical hs _
@[simp] theorem State.wake_canonical (h : Nat) : Canonical (s.wake h) := s.modThread_canonical hs _ _
@[simp] theorem State.goesOn_canonical (h : Nat) : Canonical (s.goesOn h) := s.modThread_canonical hs _ _
@[simp] theorem putRaw_canonical (a : Nat) (bs : List Byte) : Canonical (putRaw a bs s) := { hs with mem := memWrite_wf _ _ _ hs.mem }
@[simp] theorem sendRecord_canonical (p cause lat : Nat) (sup hard : Bool) (r : TrapRecord) : Canonical (sendRecord s p cause lat sup hard r) := by
  grind [sendRecord, State.later_canonical]
@[simp] theorem traceEvent_canonical (cl kind h cause : Nat) (pc : Word) : Canonical (traceEvent cl kind h cause pc s) := by
  unfold traceEvent
  refine State.ite_canonical hs (s.modCluster_canonical hs _ _ fun k hk => { hk with })
end
end Sys2Proof.Machine
end

section
/-!
SUPPORT for O59. What the operations of the machine keep canonical: one rule per operation, in the order of the model.
-/

namespace Sys2Proof.Machine
open Spec (Rising)

/-! ### The operations of the state -/

@[simp] theorem State.dropGang_canonical (s : State) (leader : Nat) (hs : Canonical s) : Canonical (s.dropGang leader) := by
  simp +contextual [State.dropGang, hs, terase_rising]
@[simp] theorem State.before_canonical (s : State) (h : Nat) (hs : Canonical s) : Canonical (s.before h) := by simp [State.before, hs]
@[simp] theorem State.leavesGang_canonical (s : State) (h : Nat) (hs : Canonical s) : Canonical (s.leavesGang h) := by
  grind [State.leavesGang, State.elim_canonical, State.modThread_canonical, State.later_canonical, State.dropGang_canonical]
@[simp] theorem State.disband_canonical (s : State) (ms : List Nat) (hs : Canonical s) : Canonical (s.disband ms) := by
  simp +contextual [State.disband, hs]
@[simp] theorem State.trapDisbands_canonical (s : State) (h : Nat) (pc : Word) (hs : Canonical s) : Canonical (s.trapDisbands h pc) := by
  grind [State.trapDisbands, State.foldl_canonical, State.leavesGang_canonical, State.modThread_canonical]
@[simp] theorem parkTrap_canonical (h cause : Nat) (pc val : Word) (s : State) (hs : Canonical s) : Canonical (parkTrap h cause pc val s) := by
  grind [parkTrap, State.modThread_canonical, State.trapDisbands_canonical, sendRecord_canonical, traceEvent_canonical]
@[simp] theorem State.together_canonical (s : State) (h v : Nat) (fin : Nat → Nat → State → State) (undo : Nat → State → State)
    (hfin : ∀ m v u, Canonical u → Canonical (fin m v u)) (hundo : ∀ m u, Canonical u → Canonical (undo m u)) (hs : Canonical s) :
    Canonical (s.together h v fin undo) := by
  unfold State.together
  dsimp only
  split
  · exact hfin _ _ _ (s.modThread_canonical hs _ _)
  · have waits := s.modThread_canonical hs h fun t => { t with fin := some ((s.thread h).fin.getD v) }
    generalize s.modThread h _ = s at waits ⊢
    refine State.ite_canonical waits ?_
    generalize hr : List.foldl _ _ _ = r
    have kept : ∀ u, r = .ok u ∨ r = .error u → Canonical u := by
      rw [← hr]
      refine List.foldlRecOn (motive := fun r : Except State State => ∀ u, r = .ok u ∨ r = .error u → Canonical u) _ _ ?_ ?_
      · rintro u (e | e) <;> cases e
        exact waits
      · intro r ih m _ u e
        cases r with
        | error w => exact ih u (by simpa [Except.bind] using e)
        | ok w =>
          have hw := ih w (.inl rfl)
          have ends (v : Nat) := hfin m v _ (w.modThread_canonical hw m fun t => { t with fin := none })
          have undone := hundo m _ waits
          grind [Except.bind, parkTrap_canonical, State.modThread_canonical]
    cases r with
    | ok u => exact kept u (.inl rfl)
    | error u => exact kept u (.inr rfl)
@[simp] theorem postMsg_canonical (core ctx : Nat) (m : Msg) (s : State) (hs : Canonical s) : Canonical (postMsg core ctx m s) := by
  simp [postMsg, hs]
@[simp] theorem notifyNode_canonical (c : Nat) (w0 : Word) (q cause : Nat) (s : State) (hs : Canonical s) :
    Canonical (notifyNode c w0 q cause s) := by
  unfold notifyNode
  repeat' split
  all_goals simp [hs]
@[simp] theorem failNode_canonical (c q cause : Nat) (val : Word) (s : State) (hs : Canonical s) : Canonical (failNode c q cause val s) := by
  grind [failNode, State.later_canonical, State.modCtx_canonical, notifyNode_canonical, tset_rising, Ctx.canonical_def, canonical_same]
@[simp] theorem endLaunch_canonical (c : Nat) (l : LaunchEnd) (s : State) (hs : Canonical s) : Canonical (endLaunch c l s) := by
  simp [endLaunch, hs]
@[simp] theorem pumpFault_canonical (c cause : Nat) (val : Word) (s : State) (hs : Canonical s) : Canonical (pumpFault c cause val s) := by
  grind [pumpFault, State.modPump_canonical, endLaunch_canonical, postMsg_canonical]
@[simp] theorem State.trap_canonical (s : State) (cause : Nat) (val : Word) (hs : Canonical s) : Canonical (s.trap cause val) := by
  unfold State.trap; split <;> simp [hs]
@[simp] theorem State.pauseTimed_canonical (s : State) (cl : Nat) (hs : Canonical s) : Canonical (s.pauseTimed cl) := by
  simp +contextual [State.pauseTimed, hs, Cluster.canonical_def]
@[simp] theorem State.pauseSlices_canonical (s : State) (cl : Nat) (hs : Canonical s) : Canonical (s.pauseSlices cl) := by
  unfold State.pauseSlices
  refine { hs with ctxs := ?_ }
  dsimp only
  refine hs.ctxs.tmap fun c x hx => ?_
  split <;> exact { hx with }
@[simp] theorem State.resumeTimed_canonical (s : State) (cl : Nat) (hs : Canonical s) : Canonical (s.resumeTimed cl) := by
  simp +contextual [State.resumeTimed, hs, Cluster.canonical_def]
@[simp] theorem haltCluster_canonical (cl from_ src : Nat) (ext : Bool) (s : State) (hs : Canonical s) :
    Canonical (haltCluster cl from_ src ext s) := by
  grind [haltCluster, State.forUpto_canonical, State.later_canonical, State.modCluster_canonical, State.pauseSlices_canonical,
      State.pauseTimed_canonical,
    traceEvent_canonical, Cluster.canonical_def, canonical_same]
@[simp] theorem breakHalt_canonical (h : Nat) (s : State) (hs : Canonical s) : Canonical (breakHalt h s) := by simp [breakHalt, hs]
@[simp] theorem breaks_canonical (h : Nat) (s : State) (hs : Canonical s) : Canonical (breaks h s) := by
  unfold breaks
  dsimp only
  repeat' split
  all_goals simp [hs]

/-! ### Translation -/

@[simp] theorem State.sliceRoom_canonical (s : State) (sl key : Nat) (hs : Canonical s) : Canonical (s.sliceRoom sl key) := by
  unfold State.sliceRoom
  exact State.ite_canonical hs (State.ite_canonical hs { hs with lines := terase_rising _ _ hs.lines })
@[simp] theorem State.agentRoom_canonical (s : State) (line : Nat) (hs : Canonical s) : Canonical (s.agentRoom line) :=
  State.ite_canonical hs { hs with hostLines := terase_rising _ _ hs.hostLines }
@[simp] theorem State.holdLine_canonical (s : State) (key : Nat) (ks : Option Nat) (hs : Canonical s) : Canonical (s.holdLine key ks) := by
  unfold State.holdLine
  split
  next sl _ _ =>
    have room := s.sliceRoom_canonical sl key hs
    exact State.ite_canonical hs { room with lines := tset_rising _ _ _ room.lines }
  · have room := s.agentRoom_canonical (key / 256) hs
    exact { room with hostLines := tset_rising _ _ _ room.hostLines }
  · exact hs
@[simp] theorem State.holdLines_canonical (s : State) (key n : Nat) (ks : Option Nat) (hs : Canonical s) : Canonical (s.holdLines key n ks) := by
  simp +contextual [State.holdLines, hs]
@[simp] theorem State.fillTlb_canonical (s : State) (v : View) (e : TlbEntry) (hs : Canonical s) : Canonical (s.fillTlb v e) := by
  grind [State.fillTlb, State.modCluster_canonical, State.modCore_canonical, State.modDie_canonical, Cluster.canonical_def, Core.canonical_def,
    Die.canonical_def, canonical_same]
/-- What a walk has met names tables: bit 7 of a leaf is set (R243). -/
theorem State.walkFrom_met (s : State) (p va : Nat) (cache : List (Nat × Nat × Word)) (n table : Nat) :
    ∀ m, m ∈ (s.walkFrom p va cache n table).2.met → nbit m.2.2.toNat 7 = false := by
  have inner (e : Nat) (h : ¬ nbit e 7 = true) : nbit (word e).toNat 7 = false := by
    simp only [nbit, word, BitVec.toNat_ofNat, decide_eq_true_eq, decide_eq_false_iff_not] at h ⊢
    omega
  induction n generalizing table with
  | zero => simp [State.walkFrom]
  | succ n ih =>
    intro m
    have one (e : Nat) (h : ¬ nbit e 7 = true) (t : WalkTrace) (l pre : Nat) (ht : t.met = [(l, pre, word e)]) :
        m ∈ t.met → nbit m.2.2.toNat 7 = false := by
      simpa [ht] using fun hm => hm ▸ inner e h
    unfold State.walkFrom
    dsimp only
    split
    · simp
    · split
      all_goals
        generalize malformed _ _ _ false _ = bad
        split
        · simp
        · split
          · simp
          · next leaf =>
            split
            · refine one _ leaf _ (n + 1) (va / 2 ^ (12 + 9 * n)) ?_
              repeat' split
              all_goals rfl
            · intro h
              rcases List.mem_cons.mp h with e | h
              · rw [e]; exact inner _ leaf
              · exact ih _ m h
/-- The walker cache takes what a walk has met. -/
@[simp] theorem State.afterWalk_canonical (s : State) (v : View) (tr : WalkTrace) (ht : ∀ m, m ∈ tr.met → nbit m.2.2.toNat 7 = false)
    (hs : Canonical s) : Canonical (s.afterWalk v tr) := by
  have cache (l : List (Nat × Nat × Nat × Word)) (hl : ∀ w, w ∈ l → nbit w.2.2.2.toNat 7 = false) :
      ∀ w, w ∈ addMet v.ctx tr.met l → nbit w.2.2.2.toNat 7 = false := by
    refine List.foldlRecOn tr.met _ (motive := fun l : List (Nat × Nat × Nat × Word) => ∀ w, w ∈ l → nbit w.2.2.2.toNat 7 = false) hl ?_
    intro l hl m mm w hw
    split at hw
    · exact hl w hw
    · rcases List.mem_cons.mp hw with e | hw
      · rw [e]; exact ht m mm
      · exact hl w hw
  refine State.foldl_canonical _ _ _ (fun u x hu => u.holdLine_canonical x none hu) (s.modDie_canonical hs _ _ fun d hd => ?_)
  exact { hd with walk := cache _ hd.walk }
@[simp] theorem State.modMiss_canonical (s : State) (die id : Nat) (f : Miss → Miss) (hs : Canonical s) : Canonical (s.modMiss die id f) := by
  grind [State.modMiss, State.modDie_canonical, tset_rising, Die.canonical_def, canonical_same]
@[simp] theorem State.walkOn_canonical (s : State) (die id n : Nat) (hs : Canonical s) : Canonical (s.walkOn die id n) := by
  unfold State.walkOn
  repeat' split
  all_goals simp [hs]
@[simp] theorem State.walkBegins_canonical (s : State) (die id : Nat) (hs : Canonical s) : Canonical (s.walkBegins die id) := by
  simp [State.walkBegins, hs]
@[simp] theorem State.joins_canonical (s : State) (v : View) (va : Nat) (f : Miss → Miss) (hs : Canonical s) : Canonical (s.joins v va f) := by
  grind [State.joins, State.fresh_canonical, State.modDie_canonical, State.modMiss_canonical, State.walkBegins_canonical, tset_rising,
      Die.canonical_def,
    canonical_same]
@[simp] theorem State.engineJoins_canonical (s : State) (v : View) (va : Nat) (acc : Access) (hs : Canonical s) :
    Canonical (s.engineJoins v va acc) := by
  simp [State.engineJoins, hs]

/-! ### Homes, locks and coherence -/

@[simp] theorem State.recordWrite_canonical (s : State) (w : Landing) (hs : Canonical s) : Canonical (s.recordWrite w) := by
  unfold State.recordWrite
  refine State.foldl_canonical _ _ _ (fun u x hu => ?_) hs
  dsimp only
  repeat' split
  all_goals simp [hu]
@[simp] theorem State.recordWrites_canonical (s : State) (core : Option Nat) (first len delay : Nat) (hs : Canonical s) :
    Canonical (s.recordWrites core first len delay) := by
  unfold State.recordWrites
  split <;> simp [hs]
@[simp] theorem State.landWell_canonical (s : State) (core off : Nat) (bs : List Byte) (delay : Nat) (hs : Canonical s) :
    Canonical (s.landWell core off bs delay) := by
  grind [State.landWell, State.modCore_canonical, State.recordWrites_canonical, memWrite_wf, Core.canonical_def, canonical_same]
@[simp] theorem State.wakeCounters_canonical (s : State) (key n : Nat) (hs : Canonical s) : Canonical (s.wakeCounters key n) := by
  unfold State.wakeCounters
  refine State.foldl_canonical _ _ _ (fun u x hu => ?_) hs
  dsimp only
  repeat' split
  all_goals simp [hu]
@[simp] theorem State.noteWait_canonical (s : State) (who : Waiter) (key : Nat) (write : Bool) (us : List LockUnit) (hs : Canonical s) :
    Canonical (s.noteWait who key write us) := by simp [State.noteWait, hs]
@[simp] theorem State.dropWait_canonical (s : State) (who : Waiter) (hs : Canonical s) : Canonical (s.dropWait who) := by simp [State.dropWait, hs]
@[simp] theorem State.atUnits_canonical (s : State) (who : Waiter) (key : Nat) (write : Bool) (us : List LockUnit) (wait go : State → State)
    (hwait : ∀ u, Canonical u → Canonical (wait u)) (hgo : ∀ u, Canonical u → Canonical (go u)) (hs : Canonical s) :
    Canonical (s.atUnits who key write us wait go) := by
  unfold State.atUnits
  split <;> simp [hwait, hgo, hs]
@[simp] theorem State.pruneLocks_canonical (s : State) (hs : Canonical s) : Canonical s.pruneLocks := by simp [State.pruneLocks, hs]
@[simp] theorem State.raceCheck_canonical (s : State) (c ctx : Nat) (write : Bool) (segs : List (Nat × Nat × Nat)) (hs : Canonical s) :
    Canonical (s.raceCheck c ctx write segs).2 := by
  unfold State.raceCheck
  dsimp only
  split
  · exact hs
  · split
    · exact hs
    · dsimp only
      refine s.modCluster_canonical hs _ _ fun k hk => ?_
      exact { hk with race := rising_foldl _ _ _ (fun _ _ ht => tset_rising _ _ _ ht) hk.race }
@[simp] theorem State.raceClear_canonical (s : State) (c : Nat) (hs : Canonical s) : Canonical (s.raceClear c) := by
  grind [State.raceClear, State.modCluster_canonical, Cluster.canonical_def, canonical_same]
@[simp] theorem State.windowSet_canonical (s : State) (hs : Canonical s) : Canonical s.windowSet := by simp [State.windowSet, hs]
@[simp] theorem State.admitAt_canonical (s : State) (w : InjWait) (f : State → State) (hf : ∀ u, Canonical u → Canonical (f u)) (hs : Canonical s) :
    Canonical (s.admitAt w f) := by
  have counted (n : Nat) := State.windowSet_canonical { s with inj := tset s.inj (16 * w.point + w.part) n } { hs with inj := tset_rising _ _ _ hs.inj }
  unfold State.admitAt
  exact State.ite_canonical (hf _ hs) (State.ite_canonical (hf _ (counted _)) (State.windowSet_canonical _ { hs with }))
@[simp] theorem State.leavesCluster_canonical (s : State) (h b after : Nat) (e : Event) (f : State → State) (kind : Nat)
    (hf : ∀ u, Canonical u → Canonical (f u)) (hs : Canonical s) :
    Canonical (s.leavesCluster h b after e f kind) := by simp +contextual [State.leavesCluster, hs, hf]
@[simp] theorem State.leavesCluster_later_canonical (s : State) (h b after n : Nat) (e e' : Event) (kind : Nat) (hs : Canonical s) :
    Canonical (s.leavesCluster h b after e (fun s => s.later n e') kind) :=
  State.leavesCluster_canonical _ _ _ _ _ _ _ (fun u hu => u.later_canonical hu _ _) hs
@[simp] theorem State.arrivesAt_canonical (s : State) (line b : Nat) (e : Event) (f : State → State) (hf : ∀ u, Canonical u → Canonical (f u))
    (hs : Canonical s) :
    Canonical (s.arrivesAt line b e f) := by grind [State.arrivesAt, State.admitAt_canonical]
@[simp] theorem State.addDelayAt_canonical (s : State) (core bank n at_ : Nat) (hs : Canonical s) : Canonical (s.addDelayAt core bank n at_) :=
  s.modCore_canonical hs _ _ fun k hk => { k.settleDelays_canonical hk s.cycle with }
@[simp] theorem State.addDelay_canonical (s : State) (core bank n : Nat) (hs : Canonical s) : Canonical (s.addDelay core bank n) := by
  simp [State.addDelay, hs]
@[simp] theorem State.answered_canonical (s : State) (h key field : Nat) (hs : Canonical s) : Canonical (s.answered h key field) := by
  unfold State.answered
  split <;> simp [hs]
@[simp] theorem State.depart_canonical (s : State) (r : FarReq) (delay : Nat) (hs : Canonical s) : Canonical (s.depart r delay) := by
  simp [State.depart, hs]
@[simp] theorem State.leave_canonical (s : State) (r : FarReq) (delay : Nat) (hs : Canonical s) : Canonical (s.leave r delay) := by
  grind [State.leave, State.depart_canonical, State.leavesCluster_canonical]
@[simp] theorem State.sendFar_canonical (s : State) (r : FarReq) (delay : Nat) (hs : Canonical s) : Canonical (s.sendFar r delay) := by
  simp [State.sendFar, hs]
@[simp] theorem State.flush_canonical (s : State) (h : Nat) (p : Nat → Bool) (hs : Canonical s) : Canonical (s.flush h p) := by
  unfold State.flush
  exact State.modCore_canonical _ (State.foldlFst_canonical _ _ _ (fun u x hu => State.sendFar_canonical _ _ _ hu) hs) _ _
    fun k hk => { hk with l1 := rising_map _ _ (fun _ => rfl) hk.l1 }
@[simp] theorem State.makeRoom_canonical (s : State) (h : Nat) (hs : Canonical s) : Canonical (s.makeRoom h) := by
  grind [State.makeRoom, State.choose_canonical, State.modCore_canonical, State.sendFar_canonical, terase_rising, Core.canonical_def, canonical_same]
@[simp] theorem State.fillSector_canonical (s : State) (h n ks : Nat) (bs : List Byte) (hs : Canonical s) : Canonical (s.fillSector h n ks bs) := by
  grind [State.fillSector, State.makeRoom_canonical, State.modCore_canonical, tset_rising, Core.canonical_def, canonical_same]
@[simp] theorem State.putSector_canonical (s : State) (h key ks : Nat) (bs : List Byte) (clean : Bool) (hs : Canonical s) :
    Canonical (s.putSector h key ks bs clean) := by
  grind [State.putSector, State.makeRoom_canonical, State.modCore_canonical, tset_rising, Core.canonical_def, canonical_same]
@[simp] theorem State.refresh_canonical (s : State) (core key : Nat) (bs : List Byte) (hs : Canonical s) : Canonical (s.refresh core key bs) := by
  grind [State.refresh, State.modCore_canonical, tset_rising, Core.canonical_def, canonical_same]
@[simp] theorem State.ordered_canonical (s : State) (afterRel : Bool) (f : State → State) (hf : ∀ u, Canonical u → Canonical (f u))
    (hs : Canonical s) :
    Canonical (s.ordered afterRel f) := by simp [State.ordered, hf, hs]
@[simp] theorem State.gated_canonical (s : State) (afterRel : Bool) (f : State → State) (hf : ∀ u, Canonical u → Canonical (f u)) (hs : Canonical s) :
    Canonical (s.gated afterRel f) := by grind [State.gated, State.ordered_canonical, State.stalls_canonical]
@[simp] theorem State.releaseBegin_canonical (s : State) (a : Agent) (scope : Nat) (hs : Canonical s) : Canonical (s.releaseBegin a scope) := by
  unfold State.releaseBegin; split <;> simp [hs]
@[simp] theorem State.released_canonical (s : State) (a : Agent) (scope : Nat) (hs : Canonical s) : Canonical (s.released a scope) := by
  unfold State.released; split <;> simp [hs]
@[simp] theorem State.retires_canonical (s : State) (q : Option Nat) (hs : Canonical s) : Canonical (s.retires q) := by
  grind [State.retires, State.elim_canonical, State.released_canonical]
@[simp] theorem State.dropClean_canonical (s : State) (h scope : Nat) (hs : Canonical s) : Canonical (s.dropClean h scope) := by
  grind [State.dropClean, State.modCore_canonical, Core.canonical_def, canonical_same]
@[simp] theorem State.forgets_canonical (s : State) (h scope : Nat) (hs : Canonical s) : Canonical (s.forgets h scope) := by
  simp [State.forgets, hs]
@[simp] theorem State.acquire_canonical (s : State) (h scope : Nat) (hs : Canonical s) : Canonical (s.acquire h scope) := by
  simp [State.acquire, hs]
@[simp] theorem State.withRelease_canonical (s : State) (scope : Nat) (f : State → State) (hf : ∀ u, Canonical u → Canonical (f u))
    (hs : Canonical s) :
    Canonical (s.withRelease scope f) := by
  grind [State.withRelease, State.modThread_canonical, State.releaseBegin_canonical, State.released_canonical, State.stalls_canonical]
@[simp] theorem State.sendReleasing_canonical (s : State) (r : FarReq) (scope delay : Nat) (hs : Canonical s) :
    Canonical (s.sendReleasing r scope delay) := by
  unfold State.sendReleasing
  dsimp only
  repeat' split
  all_goals simp [hs]
@[simp] theorem State.sendWith_canonical (s : State) (rel : Option Nat) (r : FarReq) (delay : Nat) (hs : Canonical s) :
    Canonical (s.sendWith rel r delay) := by unfold State.sendWith; split <;> simp [hs]
@[simp] theorem State.threadJoins_canonical (s : State) (h : Nat) (va : Word) (acc : Access) (hs : Canonical s) :
    Canonical (s.threadJoins h va acc) := by
  simp [State.threadJoins, hs]
@[simp] theorem State.awaitLevel_canonical (s : State) (n : Nat) (va : Word) (acc : Access) (hs : Canonical s) :
    Canonical (s.awaitLevel n va acc) := by
  simp [State.awaitLevel, hs]

/-! ### Control registers -/

@[simp] theorem State.writeWellwin_canonical (s : State) (core : Nat) (v : Word) (hs : Canonical s) : Canonical (s.writeWellwin core v) := by
  grind [State.writeWellwin, State.forUpto_canonical, State.later_canonical, State.modCore_canonical, Core.canonical_def, canonical_same]
@[simp] theorem State.writeDelaySel_canonical (s : State) (core : Nat) (v : Word) (hs : Canonical s) : Canonical (s.writeDelaySel core v) := by
  unfold State.writeDelaySel
  refine s.modCore_canonical hs _ _ fun k hk => ?_
  have settled := k.settleDelays_canonical hk s.cycle
  refine { settled with delays := ?_ }
  dsimp only
  split
  · exact terase_rising _ _ settled.delays
  · exact settled.delays
@[simp] theorem State.csrWrite_canonical (s : State) (h n : Nat) (v : Word) (hs : Canonical s) : Canonical (s.csrWrite h n v) := by
  have thread (f : Thread → Thread) : Canonical (s.modThread h f) := s.modThread_canonical hs h f
  have well := s.writeWellwin_canonical (coreOf h) v hs
  have delays := s.writeDelaySel_canonical (coreOf h) v hs
  unfold State.csrWrite
  dsimp only
  iterate 8 refine State.ite_canonical (thread _) ?_
  refine State.ite_canonical well ?_
  iterate 4 refine State.ite_canonical (thread _) ?_
  exact State.ite_canonical delays hs
@[simp] theorem State.trapRegWrite_canonical (s : State) (h n : Nat) (v : Word) (hs : Canonical s) : Canonical (s.trapRegWrite h n v) := by
  grind [State.trapRegWrite, State.csrWrite_canonical, State.modThread_canonical]
@[simp] theorem State.seeInterrupts_canonical (s : State) (core n : Nat) (hs : Canonical s) : Canonical (s.seeInterrupts core n) := by
  simp [State.seeInterrupts, hs]

/-! ### Flags -/

@[simp] theorem raiseFl_canonical (h : Nat) (f : Fl) (s : State) (hs : Canonical s) : Canonical (raiseFl h f s) := by simp [raiseFl, hs]

/-! ### Control transfers -/

@[simp] theorem transferTo_canonical (t : Word) (s : State) (f : State → State) (hf : ∀ u, Canonical u → Canonical (f u)) (hs : Canonical s) :
    Canonical (transferTo t s f) := by grind [transferTo, State.jump_canonical, State.trap_canonical, traceEvent_canonical]

/-! ### System instructions -/

@[simp] theorem State.invalidate_canonical (s : State) (p : Nat) (va ctl : Word) (hs : Canonical s) : Canonical (s.invalidate p va ctl) := by
  unfold State.invalidate
  refine { hs with cores := ?_, clusters := ?_, dies := ?_ } <;> dsimp only
  · exact hs.cores.tmap fun _ k hk => { hk with }
  · exact hs.clusters.tmap fun _ k hk => { hk with }
  · refine hs.dies.tmap fun _ d hd => { hd with walk := ?_ }
    dsimp only
    split
    · exact fun w hw => hd.walk w (List.mem_of_mem_filter hw)
    · exact hd.walk
@[simp] theorem nextMiss_canonical (die : Nat) (s : State) (hs : Canonical s) : Canonical (nextMiss die s) := by
  unfold nextMiss; split <;> simp [hs]
@[simp] theorem State.itemWrite_canonical (s : State) (h : Nat) (sel v : Word) (hs : Canonical s) : Canonical (s.itemWrite h sel v) := by
  unfold State.itemWrite
  dsimp only
  repeat' split
  all_goals simp [hs]
@[simp] theorem State.resume_canonical (s : State) (h : Nat) (hs : Canonical s) : Canonical (s.resume h) := by simp [State.resume, hs]
@[simp] theorem supEffect_canonical (op : SupOp) (s : State) (hs : Canonical s) : Canonical (supEffect op s).2 := by
  unfold supEffect
  dsimp only
  repeat' split
  all_goals simp [hs]

/-! ### Synchronization -/

@[simp] theorem State.place_canonical (s : State) (h : Nat) (t : Thread) (hs : Canonical s) : Canonical (s.place h t) := by simp [State.place, hs]
@[simp] theorem leaveGangWait_canonical (h n : Nat) (s : State) (hs : Canonical s) : Canonical (leaveGangWait h n s) := by
  grind [leaveGangWait, State.atCycle_canonical, State.dropEvents_canonical, State.foldl_canonical]
@[simp] theorem State.offerSlot_canonical (s : State) (dst n : Nat) (hs : Canonical s) : Canonical (s.offerSlot dst n) := by
  unfold State.offerSlot
  refine State.foldl_canonical _ _ _ (fun u x hu => ?_) hs
  dsimp only
  repeat' split
  all_goals simp [hu]
@[simp] theorem State.freeSlot_canonical (s : State) (dst n : Nat) (hs : Canonical s) : Canonical (s.freeSlot dst n) := by simp [State.freeSlot, hs]
theorem State.claimSlot_canonical (s t : State) (src dst n : Nat) (h : s.claimSlot src dst n = some t) (hs : Canonical s) : Canonical t := by
  grind [State.claimSlot, State.modThread_canonical]
@[simp] theorem State.sendFlit_canonical (s : State) (dst n : Nat) (f : Flit) (hs : Canonical s) : Canonical (s.sendFlit dst n f) := by
  simp [State.sendFlit, hs]
@[simp] theorem takeFlit_canonical (n : BitVec 2) (a d : Reg) (s : State) (empty : State → State) (hempty : ∀ u, Canonical u → Canonical
    (empty u)) (hs : Canonical s) :
    Canonical (takeFlit n a d s empty) := by
  grind [takeFlit, State.freeSlot_canonical, State.modSelf_canonical, State.pass_canonical, State.setX_canonical]
@[simp] theorem State.armed_canonical (s : State) (n : Nat) (p : MonPlace) (hs : Canonical s) : Canonical (s.armed n p) := by simp [State.armed, hs]
@[simp] theorem finMwait_canonical (h v : Nat) (s : State) (hs : Canonical s) : Canonical (finMwait h v s) := by
  grind [finMwait, State.before_canonical, State.modThread_canonical, State.passOf_canonical, State.setX_canonical, State.wake_canonical]
@[simp] theorem finCntw_canonical (h v : Nat) (s : State) (hs : Canonical s) : Canonical (finCntw h v s) := by
  grind [finCntw, State.acquire_canonical, State.before_canonical, State.goesOn_canonical, State.passOf_canonical, State.wake_canonical]
@[simp] theorem State.setBar_canonical (s : State) (cl ctx b : Nat) (x : Barrier) (hs : Canonical s) : Canonical (s.setBar cl ctx b x) := by
  simp +contextual [State.setBar, hs, tset_rising, Cluster.canonical_def]
@[simp] theorem arrives_canonical (b : Reg) (a : Reg) (bara : Bool) (d : Reg) (s : State) (hs : Canonical s) : Canonical (arrives b a bara d s) := by
  grind [arrives, State.blocks_canonical, State.later_canonical, State.releaseBegin_canonical]
@[simp] theorem keptArrival_canonical (again : Bool) (w : BarArr) (d : Reg) (s : State) (hs : Canonical s) : Canonical (keptArrival again w d s) := by
  grind [keptArrival, State.acquire_canonical, State.atCycle_canonical, State.blocks_canonical, State.modSelf_canonical, State.pass_canonical,
    State.setX_canonical]
@[simp] theorem withdrawArrival_canonical (h : Nat) (w : BarArr) (s : State) (hs : Canonical s) : Canonical (withdrawArrival h w s) := by
  unfold withdrawArrival
  dsimp only
  repeat' split
  all_goals simp [hs]
@[simp] theorem unarrive_canonical (m : Nat) (s : State) (hs : Canonical s) : Canonical (unarrive m s) := by
  grind [unarrive, State.before_canonical, State.dropEvents_canonical, State.modThread_canonical, withdrawArrival_canonical]
@[simp] theorem finBara_canonical (h v : Nat) (s : State) (hs : Canonical s) : Canonical (finBara h v s) := by
  unfold finBara
  split <;> simp [hs]
@[simp] theorem finBarrier_canonical (h v : Nat) (s : State) (hs : Canonical s) : Canonical (finBarrier h v s) := by
  grind [finBarrier, State.acquire_canonical, State.modThread_canonical, State.passOf_canonical, State.setX_canonical, State.wake_canonical]
@[simp] theorem arrivalMade_canonical (h b count : Nat) (bara : Bool) (rd : Reg) (s : State) (hs : Canonical s) :
    Canonical (arrivalMade h b count bara rd s) := by
  grind [arrivalMade, parkTrap_canonical, State.released_canonical, State.modThread_canonical, State.atCycle_canonical, State.setBar_canonical,
    canonical_threads, tmap_rising, State.threads_rising, finBara_canonical]
@[simp] theorem finArrival_canonical (h v : Nat) (s : State) (hs : Canonical s) : Canonical (finArrival h v s) := by
  unfold finArrival; split <;> simp [hs]
@[simp] theorem State.enterInbox_canonical (s : State) (core : Nat) (m : Msg) (hs : Canonical s) : Canonical (s.enterInbox core m) := by
  grind [State.enterInbox, State.forUpto_canonical, State.later_canonical, State.modCore_canonical, State.modThread_canonical, Core.canonical_def,
    canonical_same]

@[simp] theorem takeMsg_canonical (a d : Reg) (s : State) (empty : State → State) (hempty : ∀ u, Canonical u → Canonical (empty u))
    (hs : Canonical s) :
    Canonical (takeMsg a d s empty) := by
  grind [takeMsg, State.acquire_canonical, State.enterInbox_canonical, State.later_canonical, State.modCore_canonical, State.pass_canonical,
    State.setX_canonical, Core.canonical_def, canonical_same]

/-! ### Loads and stores -/

@[simp] theorem earlyAnswer_canonical (h sent : Nat) (v : Word) (s : State) (hs : Canonical s) : Canonical (earlyAnswer h sent v s) := by
  unfold earlyAnswer
  split
  · exact hs
  · exact { hs with gangs := tset_rising _ _ _ hs.gangs }
@[simp] theorem deliver_canonical (r : FarReq) (rd : Nat) (usable : Option (Option Nat)) (v : Word) (s : State) (hs : Canonical s) :
    Canonical (deliver r rd usable v s) := by
  unfold deliver
  repeat' split
  all_goals simp [hs]
@[simp] theorem State.ownDevice_canonical (s : State) (a : Word) (p : Phys) (f : State → State) (hf : ∀ u, Canonical u → Canonical (f u))
    (hs : Canonical s) :
    Canonical (s.ownDevice a p f) := by unfold State.ownDevice; split <;> simp [hf, hs]
@[simp] theorem raceTrap_canonical (ord : Option Nat) (h : Nat) (a : Word) (n : Nat) (write : Bool) (s : State) (f : State → State)
    (hf : ∀ u, Canonical u → Canonical (f u)) (hs : Canonical s) :
    Canonical (raceTrap ord h a n write s f) := by grind [raceTrap, State.trap_canonical, State.raceCheck_canonical]
@[simp] theorem pumpReadDone_canonical (r : FarReq) (off : Nat) (bs : List Byte) (s : State) (hs : Canonical s) :
    Canonical (pumpReadDone r off bs s) := by
  unfold pumpReadDone; split <;> simp [hs]
@[simp] theorem performWell_canonical (r : FarReq) (s : State) (hs : Canonical s) : Canonical (performWell r s) := by
  unfold performWell
  repeat' split
  all_goals simp [hs]
@[simp] theorem amoFlags_canonical (r : FarReq) (f : Fl) (s : State) (hs : Canonical s) : Canonical (amoFlags r f s) := by
  grind [amoFlags, State.modThread_canonical, parkTrap_canonical, raiseFl_canonical, terase_rising]
@[simp] theorem writesLater_canonical (r : FarReq) (new : List Byte) (s : State) (hs : Canonical s) : Canonical (writesLater r new s).2 := by
  simp [writesLater, hs]
@[simp] theorem redNew_canonical (r : FarReq) (op : AmoOp) (n : Nat) (b : Word) (s : State) (hs : Canonical s) :
    Canonical (redNew r op n b s).2.2 := by
  unfold redNew
  split <;> simp [hs]
@[simp] theorem leaveReleased_canonical (r : FarReq) (s : State) (hs : Canonical s) : Canonical (leaveReleased r s) := by simp [leaveReleased, hs]
@[simp] theorem failThread_canonical (h sent insn : Nat) (va : Word) (s : State) (hs : Canonical s) : Canonical (failThread h sent insn va s) := by
  unfold failThread
  dsimp only
  repeat' split
  all_goals simp [hs]
@[simp] theorem failFar_canonical (r : FarReq) (s : State) (hs : Canonical s) : Canonical (failFar r s) := by unfold failFar; split <;> simp [hs]
@[simp] theorem State.snoops_canonical (s : State) (r : FarReq) (hs : Canonical s) : Canonical (s.snoops r).2 := by
  grind [State.snoops, State.choose_canonical, State.later_canonical, canonical_same]
@[simp] theorem performNear_canonical (r : FarReq) (s : State) (hs : Canonical s) : Canonical (performNear r s) := by
  unfold performNear
  repeat' split
  all_goals simp [hs]

/-! ### Atomics -/

@[simp] theorem State.dropSector_canonical (s : State) (key : Nat) (hs : Canonical s) : Canonical (s.dropSector key) := by
  grind [State.dropSector, State.flush_canonical, State.modCore_canonical, terase_rising, Core.canonical_def, canonical_same]

/-! ### Tensor descriptors -/

@[simp] theorem State.holdSegs_canonical (s : State) (l : List Seg) (hs : Canonical s) : Canonical (s.holdSegs l) := by
  unfold State.holdSegs
  refine State.foldl_canonical _ _ _ (fun u x hu => ?_) hs
  split <;> simp [hu]
@[simp] theorem State.tileAnswered_canonical (s : State) (a : TAcc) (hs : Canonical s) : Canonical (s.tileAnswered a) := by
  unfold State.tileAnswered
  refine State.foldl_canonical _ _ _ (fun u x hu => ?_) hs
  split <;> simp [hu]
@[simp] theorem State.setTensor_canonical (s : State) (c t : Nat) (d : Option Desc) (hs : Canonical s) : Canonical (s.setTensor c t d) := by
  grind [State.setTensor, State.modCtx_canonical, tset_rising, terase_rising, Ctx.canonical_def, canonical_same]
@[simp] theorem State.awaitAcks_canonical (s : State) (h : Nat) (hs : Canonical s) : Canonical (s.awaitAcks h) := by
  unfold State.awaitAcks
  refine State.foldl_canonical _ _ _ (fun u x hu => ?_) hs
  split <;> simp [hu]
@[simp] theorem startDescRead_canonical (a : TAcc) (n : Nat) (s : State) (hs : Canonical s) : Canonical (startDescRead a n s) := by
  have entered (b : TAcc) : Canonical { s.fresh.2 with taccs := tset s.fresh.2.taccs s.fresh.1 b } := { hs with taccs := tset_rising _ _ _ hs.taccs }
  exact State.ite_canonical (State.later_canonical _ (entered _) _ _) (State.leavesCluster_later_canonical _ _ _ _ _ _ _ _ (entered _))
@[simp] theorem tableAnswer_canonical (h t left : Nat) (d : Option Desc) (s : State) (hs : Canonical s) : Canonical (tableAnswer h t left d s) := by
  grind [tableAnswer, State.goesOn_canonical, State.modThread_canonical, State.passOf_canonical, State.setTensor_canonical]
@[simp] theorem State.descRead_canonical (s : State) (h : Nat) (bs : List Byte) (hs : Canonical s) : Canonical (s.descRead h bs) := by
  unfold State.descRead
  repeat' split
  all_goals simp [hs]

/-! ### Tile accesses -/

@[simp] theorem State.setDraw_canonical (s : State) (core num : Nat) (d : Draw) (hd : d.Canonical) (hs : Canonical s) :
    Canonical (s.setDraw core num d) :=
  s.modCore_canonical hs _ _ fun _ hk => { hk with draws := hk.draws.tset num hd }
@[simp] theorem State.fillEntry_canonical (s : State) (h q id : Nat) (bs : List Byte) (hs : Canonical s) : Canonical (s.fillEntry h q id bs) := by
  simp +contextual [State.fillEntry, hs, rising_tmod, Core.canonical_def]
@[simp] theorem State.tileLeaves_canonical (s : State) (id : Nat) (a : TAcc) (n : Nat) (hs : Canonical s) : Canonical (s.tileLeaves id a n) := by
  grind [State.tileLeaves, State.later_canonical, State.leavesCluster_canonical]
@[simp] theorem State.startTile_canonical (s : State) (a : TAcc) (n : Nat) (hs : Canonical s) : Canonical (s.startTile a n) := by
  have entered (b : TAcc) : Canonical { s.fresh.2 with taccs := tset s.fresh.2.taccs s.fresh.1 b } := { hs with taccs := tset_rising _ _ _ hs.taccs }
  exact State.ite_canonical (State.later_canonical _ (entered _) _ _) (State.tileLeaves_canonical _ _ _ _ (entered _))
@[simp] theorem landDrawRead_canonical (id : Nat) (a : TAcc) (buf : List Byte) (s : State) (hs : Canonical s) :
    Canonical (landDrawRead id a buf s) := by
  have without (l : List Lock) : Canonical { s with taccs := terase s.taccs id, locks := l } := { hs with taccs := terase_rising _ _ hs.taccs }
  unfold landDrawRead
  dsimp only
  split
  · exact State.later_canonical _ (State.choose_canonical _ (without _) _) _ _
  · exact without _
@[simp] theorem State.copyTileAnswered_canonical (s : State) (id : Nat) (a : TAcc) (hs : Canonical s) : Canonical (s.copyTileAnswered id a) := by
  simp [State.copyTileAnswered, hs]
@[simp] theorem State.own_canonical (s : State) (u : LockUnit) (hs : Canonical s) : Canonical (s.own u) := by cases u <;> simp [State.own, hs]
@[simp] theorem failTile_canonical (id : Nat) (a : TAcc) (u : LockUnit) (s : State) (hs : Canonical s) : Canonical (failTile id a u s) := by
  have without (l : List Lock) : Canonical { s with taccs := terase s.taccs id, locks := l } := { hs with taccs := terase_rising _ _ hs.taccs }
  have copy (l : List Lock) (t : Table Copy) (ht : Rising t) : Canonical { s with taccs := terase s.taccs id, locks := l, copies := t } :=
    { without l with copies := ht }
  have ended (c : Nat) (f : Copy → Copy) : Rising (match tfind s.copies c with | some x => tset s.copies c (f x) | none => s.copies) := by
    split
    · exact tset_rising _ _ _ hs.copies
    · exact hs.copies
  unfold failTile
  dsimp only
  split
  · exact State.later_canonical _ (copy _ _ (ended _ _)) _ _
  · exact State.later_canonical _ (copy _ _ (ended _ _)) _ _
  · split
    next d e =>
      have hd := (without _).draw e
      refine State.later_canonical _ (State.setDraw_canonical _ _ _ _ ?_ (without _)) _ _
      exact { hd with slots := terase_rising _ _ hd.slots }
    · exact without _
  · exact State.ite_canonical (without _) (pumpFault_canonical _ _ _ _ (without _))
  · exact failThread_canonical _ _ _ _ _ (without _)

/-! ### Queues -/

@[simp] theorem State.modQueue_canonical (s : State) (core pair q : Nat) (f : Queue → Queue) (hs : Canonical s) :
    Canonical (s.modQueue core pair q f) := by
  simp +contextual [State.modQueue, hs, rising_tmod, Core.canonical_def]
@[simp] theorem State.wakePartner_canonical (s : State) (h cycle : Nat) (hs : Canonical s) : Canonical (s.wakePartner h cycle) := by
  unfold State.wakePartner
  split <;> simp [hs]
@[simp] theorem State.partnerGoesOn_canonical (s : State) (h : Nat) (hs : Canonical s) : Canonical (s.partnerGoesOn h) := by
  unfold State.partnerGoesOn; dsimp only; split <;> simp [hs]
@[simp] theorem blockOnQueue_canonical (q : Nat) (s : State) (hs : Canonical s) : Canonical (blockOnQueue q s) := by
  grind [blockOnQueue, State.atCycle_canonical, State.blocks_canonical, State.foldl_canonical]
@[simp] theorem onQueues_canonical (i : Instr) (s : State) (f : State → State) (hf : ∀ u, Canonical u → Canonical (f u)) (hs : Canonical s) :
    Canonical (onQueues i s f) := by
  unfold onQueues
  repeat' split
  all_goals simp [hf, hs]
@[simp] theorem State.popQueue_canonical (s : State) (h q : Nat) (hs : Canonical s) : Canonical (s.popQueue h q).2 := by simp [State.popQueue, hs]
@[simp] theorem State.pushQueue_canonical (s : State) (h q : Nat) (v : VReg) (at_ : Nat) (wait : Option Nat) (hs : Canonical s) :
    Canonical (s.pushQueue h q v at_ wait) := by
  unfold State.pushQueue
  split <;> simp [hs]
@[simp] theorem State.takeOperands_canonical (s : State) (rs : List Reg) (hs : Canonical s) : Canonical (s.takeOperands rs).2 := by
  grind [State.takeOperands, State.foldlSnd_canonical, State.popQueue_canonical]
@[simp] theorem State.putV_canonical (s : State) (d : Reg) (v : VReg) (hs : Canonical s) : Canonical (s.putV d v) := by simp [State.putV, hs]
@[simp] theorem startTransfer_canonical (h c off : Nat) (bs : List Byte) (done : TDone) (s : State) (hs : Canonical s) :
    Canonical (startTransfer h c off bs done s) := by simp [startTransfer, hs]
@[simp] theorem transfer_canonical (i : Instr) (c off : Nat) (write : Bool) (s : State) (f : State → State) (hf : ∀ u, Canonical u → Canonical
    (f u)) (hs : Canonical s) :
    Canonical (transfer i c off write s f) := by grind [transfer, State.raceCheck_canonical, State.trap_canonical, onQueues_canonical]

/-! ### Work -/

@[simp] theorem State.nodeCheck_canonical (s : State) (c : Nat) (q : Option Nat) (hs : Canonical s) : Canonical (s.nodeCheck c q) := by
  unfold State.nodeCheck; split <;> simp [hs]
@[simp] theorem State.ctxCheck_canonical (s : State) (c : Nat) (hs : Canonical s) : Canonical (s.ctxCheck c) := by
  unfold State.ctxCheck; split <;> simp [hs]
@[simp] theorem State.retryNodes_canonical (s : State) (c : Nat) (hs : Canonical s) : Canonical (s.retryNodes c) := by
  grind [State.retryNodes, State.foldl_canonical, State.later_canonical]
@[simp] theorem State.giveUpTask_canonical (s : State) (h : Nat) (hs : Canonical s) : Canonical (s.giveUpTask h) := by
  unfold State.giveUpTask
  split <;> simp [hs]
@[simp] theorem State.dropFlits_canonical (s : State) (h : Nat) (hs : Canonical s) : Canonical (s.dropFlits h) := by
  grind [State.dropFlits, State.forUpto_canonical, State.freeSlot_canonical, State.modThread_canonical]
@[simp] theorem State.noteEnd_canonical (s : State) (h : Nat) (hs : Canonical s) : Canonical (s.noteEnd h) := by
  grind [State.noteEnd, State.modCtx_canonical, tset_rising, Ctx.canonical_def, canonical_same]
@[simp] theorem State.endThread_canonical (s : State) (h : Nat) (hs : Canonical s) : Canonical (s.endThread h) := by
  grind [State.endThread, State.giveUpTask_canonical, State.dropFlits_canonical, State.noteEnd_canonical, State.modThread_canonical,
    State.modCore_canonical, Core.clearPair_canonical, State.wakePartner_canonical, State.later_canonical, State.nodeCheck_canonical,
    State.ctxCheck_canonical, State.retryNodes_canonical, State.seeInterrupts_canonical]

/-! ### Draws -/

@[simp] theorem State.claims_canonical (s : State) (core num seq : Nat) (hs : Canonical s) : Canonical (s.claims core num seq) := by
  unfold State.claims
  split <;> simp [hs]
@[simp] theorem startDraw_canonical (d : Desc) (b : Block) (num : Nat) (rd : Reg) (s : State) (hs : Canonical s) :
    Canonical (startDraw d b num rd s) := by
  have new (w : Draw) (hw : w.slots = [] ∧ w.passed = []) : w.Canonical := ⟨hw.1 ▸ .nil, hw.2 ▸ .nil⟩
  unfold startDraw
  refine State.claims_canonical _ _ _ _ (State.pass_canonical _ (State.setX_canonical _ (State.modSelf_canonical _ (State.modCore_canonical _
    (State.setDraw_canonical _ _ _ _ (new _ ⟨rfl, rfl⟩) hs) _ _ ?_) _) _ _) _)
  exact fun k hk => { hk with }
@[simp] theorem slotsEnd_canonical (core : Nat) (d : Draw) (s : State) (hs : Canonical s) : Canonical (slotsEnd core d s) := by
  grind [slotsEnd, State.forUpto_canonical, State.modCore_canonical, Core.clearPair_canonical, State.wakePartner_canonical]
@[simp] theorem State.finishDraw_canonical (s : State) (core num n : Nat) (d : Draw) (hd : d.Canonical) (hs : Canonical s) :
    Canonical (s.finishDraw core num n d) := by
  have posted : Draw.Canonical { d with posted := true } := { hd with }
  grind [State.finishDraw, State.setDraw_canonical, slotsEnd_canonical, State.later_canonical]
@[simp] theorem State.takeTurn_canonical (s : State) (c core num : Nat) (d : Draw) (hs : Canonical s) : Canonical (s.takeTurn c core num d) := by
  simp [State.takeTurn, hs]
@[simp] theorem State.countPassed_canonical (s : State) (c core num : Nat) (hs : Canonical s) : Canonical (s.countPassed c core num) := by
  unfold State.countPassed
  refine State.foldl_canonical _ _ _ (fun u x hu => ?_) hs
  dsimp only
  split
  next d e =>
    have hd := hu.drawAt e
    refine State.setDraw_canonical _ _ _ _ { hd with passed := ?_ } hu
    dsimp only
    split
    · exact terase_rising _ _ hd.passed
    · exact tset_rising _ _ _ hd.passed
  · exact hu
@[simp] theorem startBody_canonical (core num slot idx : Nat) (s : State) (hs : Canonical s) : Canonical (startBody core num slot idx s) := by
  unfold startBody
  split
  · exact hs
  next d e =>
    split
    · exact hs
    · exact State.setDraw_canonical _ _ _ _ ⟨tset_rising _ _ _ (hs.drawAt e).slots, (hs.drawAt e).passed⟩ (State.place_canonical _ _ _ hs)
@[simp] theorem countTile_canonical (core num slot : Nat) (d : Draw) (s : State) (hd : d.Canonical) (hs : Canonical s) :
    Canonical (countTile core num slot d s) := by
  have counted := State.finishDraw_canonical _ core num 1 { d with slots := terase d.slots slot, counted := d.counted + 1 }
    { hd with slots := terase_rising _ _ hd.slots } (State.landWell_canonical s core d.counter (toBytes 8 (ofBytes
        (s.wellRead core d.counter 8) + 1)) 0 hs)
  exact State.ite_canonical counted (State.claims_canonical _ _ _ _ counted)
@[simp] theorem endDraw_canonical (core num : Nat) (d : Draw) (s : State) (hs : Canonical s) : Canonical (endDraw core num d s) := by
  have without := State.modCore_canonical _ (postMsg_canonical core d.ctx (drawMessage d num) s hs) core
      (fun k => { k with draws := terase k.draws num })
    fun k hk => { hk with draws := hk.draws.terase num }
  exact State.ctxCheck_canonical _ _ (State.nodeCheck_canonical _ _ _ without)

/-! ### Copies -/

@[simp] theorem State.setCopy_canonical (s : State) (id : Nat) (c : Copy) (hs : Canonical s) : Canonical (s.setCopy id c) := by
  simp +contextual [State.setCopy, hs, tset_rising]
@[simp] theorem State.noteFrozen_canonical (s : State) (cl : Nat) (hs : Canonical s) : Canonical (s.noteFrozen cl) := by
  simp +contextual [State.noteFrozen, hs, Cluster.canonical_def]
@[simp] theorem State.copyAnswered_canonical (s : State) (c : Copy) (key waited : Nat) (hs : Canonical s) :
    Canonical (s.copyAnswered c key waited) := by
  simp [State.copyAnswered, hs]
@[simp] theorem copyPasses_canonical (tag : Nat) (c : Copy) (s : State) (at_ : (State → State) → State → State)
    (hat : ∀ u, Canonical u → Canonical (at_ (fun s => s) u)) (hs : Canonical s) :
    Canonical (copyPasses tag c s at_).2 := by
  unfold copyPasses
  split <;> simp [hat, hs]
@[simp] theorem reportCopy_canonical (id : Nat) (c : Copy) (s : State) (hs : Canonical s) : Canonical (reportCopy id c s) := by
  have without : Canonical { s with copies := terase s.copies id } := { hs with copies := terase_rising _ _ hs.copies }
  grind [reportCopy, failNode_canonical, postMsg_canonical, State.later_canonical, State.nodeCheck_canonical, State.ctxCheck_canonical]

/-! ### Special functions -/

@[simp] theorem State.sfuNext_canonical (s : State) (core : Nat) (hs : Canonical s) : Canonical (s.sfuNext core) := by
  unfold State.sfuNext; dsimp only; split <;> simp [hs]
@[simp] theorem sfuBack_canonical (h : Nat) (s : State) (hs : Canonical s) : Canonical (sfuBack h s) :=
  s.modCore_canonical hs _ _ fun k hk => k.dropSfu_canonical hk h
@[simp] theorem finSfu_canonical (h v : Nat) (s : State) (hs : Canonical s) : Canonical (finSfu h v s) := by
  have dropped : Canonical (s.modCore (coreOf h) fun k => k.dropSfu h) := sfuBack_canonical h s hs
  grind [finSfu, sfuBack_canonical, State.before_canonical, State.sfuNext_canonical, parkTrap_canonical, raiseFl_canonical, State.modThread_canonical,
    State.passOf_canonical, State.goesOn_canonical]

/-! ### Hashing -/

@[simp] theorem State.modHash_canonical (s : State) (h : Nat) (f : HashWait → HashWait) (hs : Canonical s) : Canonical (s.modHash h f) := by
  simp [State.modHash, hs]
@[simp] theorem putHash_canonical (h : Nat) (w : HashWait) (v : VReg) (s : State) (hs : Canonical s) : Canonical (putHash h w v s) := by
  unfold putHash; split <;> simp [hs]
@[simp] theorem hashRetires_canonical (h : Nat) (s : State) (hs : Canonical s) : Canonical (hashRetires h s) := by
  grind [hashRetires, State.goesOn_canonical, State.passOf_canonical, putHash_canonical]
@[simp] theorem hashBack_canonical (h : Nat) (s : State) (hs : Canonical s) : Canonical (hashBack h s) := by
  grind [hashBack, State.foldl_canonical, State.modQueue_canonical]
@[simp] theorem hashDone_canonical (h : Nat) (v : VReg) (s : State) (hs : Canonical s) : Canonical (hashDone h v s) := by simp [hashDone, hs]
@[simp] theorem hashTrap_canonical (h cause : Nat) (v : Word) (s : State) (hs : Canonical s) : Canonical (hashTrap h cause v s) := by
  grind [hashTrap, State.modThread_canonical, hashBack_canonical, parkTrap_canonical]
@[simp] theorem atTable_canonical (h : Nat) (us : List LockUnit) (write : Bool) (s : State) (f : State → State) (hf : ∀ u, Canonical u → Canonical
    (f u)) (hs : Canonical s) :
    Canonical (atTable h us write s f) := by grind [atTable, State.later_canonical, State.atUnits_canonical]
@[simp] theorem State.hashBad_canonical (s : State) (h owner : Nat) (d : Desc) (write : Bool) (ns : List Nat) (hs : Canonical s) :
    Canonical (s.hashBad h owner d write ns).2 := by unfold State.hashBad; split <;> simp [hs]
theorem haccLane_canonical (h owner : Nat) (d : Desc) (k v i : Nat) (s t : State) (f : Fl) (e : haccLane h owner d k v i s = .ok (t, f))
    (hs : Canonical s) :
    Canonical t := by
  have bad := State.hashBad_canonical s h owner d true (s.touched owner d false k)
  grind [haccLane, State.landWell_canonical]
@[simp] theorem haccNow_canonical (h : Nat) (w : HashWait) (s : State) (next : State → State) (hnext : ∀ u, Canonical u → Canonical (next u))
    (hs : Canonical s) :
    Canonical (haccNow h w s next) := by
  grind [haccNow, State.modHash_canonical, State.modThread_canonical, haccLane_canonical, hashDone_canonical, hashTrap_canonical, raiseFl_canonical]
@[simp] theorem haccStep_canonical (h : Nat) (w : HashWait) (s : State) (hs : Canonical s) : Canonical (haccStep h w s) := by
  grind [haccStep, State.later_canonical, atTable_canonical, haccNow_canonical]
@[simp] theorem haccAll_canonical (h n : Nat) : ∀ s, Canonical s → Canonical (haccAll h n s) := by
  induction n with
  | zero => exact fun s hs => hs
  | succ n ih =>
    intro s hs
    unfold haccAll
    split
    · exact haccNow_canonical _ _ _ _ ih hs
    · exact hs
@[simp] theorem hlookNow_canonical (h : Nat) (w : HashWait) (s : State) (hs : Canonical s) : Canonical (hlookNow h w s) := by
  grind [hlookNow, hashDone_canonical, hashTrap_canonical, State.hashBad_canonical]
@[simp] theorem hclrNow_canonical (h : Nat) (w : HashWait) (s : State) (hs : Canonical s) : Canonical (hclrNow h w s) := by
  grind [hclrNow, State.landWell_canonical, State.raceCheck_canonical, hashDone_canonical, hashTrap_canonical]
@[simp] theorem hashNow_canonical (h : Nat) (w : HashWait) (s : State) (hs : Canonical s) : Canonical (hashNow h w s) := by
  unfold hashNow
  split
  · exact haccAll_canonical h 32 s hs
  · exact hlookNow_canonical h w s hs
  · exact hclrNow_canonical h w s hs
  · exact hs
@[simp] theorem finHash_canonical (h v : Nat) (s : State) (hs : Canonical s) : Canonical (finHash h v s) := by
  grind [finHash, State.before_canonical, hashBack_canonical, hashNow_canonical]
@[simp] theorem hashInGang_canonical (h : Nat) (w : HashWait) (s : State) (hs : Canonical s) : Canonical (hashInGang h w s) := by
  grind [hashInGang, State.later_canonical, State.modHash_canonical, State.together_canonical, finHash_canonical, hashBack_canonical]

/-! ### Cisterns -/

@[simp] theorem moveEffect_canonical (c : Nat) (m : RowMove) (s : State) (hs : Canonical s) : Canonical (moveEffect c m s) := by
  unfold moveEffect
  split
  · exact s.modThread_canonical hs _ _
  · exact s.modCore_canonical hs _ _ fun k hk => k.setRow_canonical hk _ _ _
  · exact s.modCore_canonical hs _ _ fun k hk => k.setTile_canonical hk _ _
  · exact s.modCore_canonical hs _ _ fun k hk => k.setTile_canonical hk _ _
@[simp] theorem performMoves_canonical (c : Nat) (s : State) (hs : Canonical s) : Canonical (performMoves c s) := by
  grind [performMoves, State.foldl_canonical, State.modCore_canonical, moveEffect_canonical, tset_rising, Core.canonical_def, canonical_same]
@[simp] theorem finVwaitc_canonical (h v : Nat) (s : State) (hs : Canonical s) : Canonical (finVwaitc h v s) := by
  unfold finVwaitc
  split <;> simp [hs]
@[simp] theorem vwaitcEnds_canonical (h : Nat) (s : State) (hs : Canonical s) : Canonical (vwaitcEnds h s) := by
  grind [vwaitcEnds, State.together_canonical, finVwaitc_canonical]
@[simp] theorem countDown_canonical (h : Nat) (s : State) (hs : Canonical s) : Canonical (countDown h s) := by simp [countDown, hs]
@[simp] theorem State.startMove_canonical (s : State) (h tile : Nat) (op : CisOp) (n : Nat) (hs : Canonical s) :
    Canonical (s.startMove h tile op n) := by
  grind [State.startMove, State.fresh_canonical, State.later_canonical, State.modCore_canonical, tset_rising, Core.canonical_def, canonical_same]
@[simp] theorem tileOp_canonical (tile : Nat) (op : CisOp) (s : State) (hs : Canonical s) : Canonical (tileOp tile op s) := by
  unfold tileOp
  dsimp only
  repeat' split
  all_goals simp [hs]
@[simp] theorem State.modMldc_canonical (s : State) (c tile : Nat) (f : MldcHold → MldcHold) (hs : Canonical s) : Canonical (s.modMldc c tile f) := by
  simp +contextual [State.modMldc, hs, Core.canonical_def]
@[simp] theorem mldcArrives_canonical (h tile : Nat) (r : TileRef) (rows : List VReg) (s : State) (hs : Canonical s) :
    Canonical (mldcArrives h tile r rows s) := by
  have arrived := State.modCore_canonical _ (performMoves_canonical (coreOf h) s hs) (coreOf h)
    (fun k => { k.setTile tile rows with heldTiles := k.heldTiles.filter (·.tile ≠ tile) }) fun k hk => { k.setTile_canonical hk tile rows with }
  exact State.ite_canonical (State.later_canonical _ (State.modMldc_canonical _ _ _ _ hs) _ _)
    (State.later_canonical _ (performMoves_canonical _ _ arrived) _ _)
@[simp] theorem storeRows_canonical (r : TileRef) (rows : List (List Nat)) (s : State) (hs : Canonical s) : Canonical (storeRows r rows s) := by
  grind [storeRows, State.forUpto_canonical, State.later_canonical, State.sendFar_canonical]

/-! ### Matrix instructions -/

@[simp] theorem State.modJob_canonical (s : State) (h : Nat) (f : MatJob → MatJob) (hf : ∀ j, Rising j.preps → Rising (f j).preps)
    (hs : Canonical s) :
    Canonical (s.modJob h f) := by
  unfold State.modJob
  split
  next j e => exact s.modCore_canonical hs _ _ fun k hk => { hk with jobs := hk.jobs.tset _ (hf j (hs.job e)) }
  · exact hs
@[simp] theorem State.modPrep_canonical (s : State) (h idx : Nat) (f : Prep → Prep) (hs : Canonical s) : Canonical (s.modPrep h idx f) :=
  s.modJob_canonical h _ (fun _ hj => tset_rising _ _ _ hj) hs
@[simp] theorem holdFault_canonical (h idx cause : Nat) (v : Word) (n : Nat) (s : State) (hs : Canonical s) :
    Canonical (holdFault h idx cause v n s) := by
  simp [holdFault, hs]
@[simp] theorem holdError_canonical (h idx : Nat) (v : Word) (s : State) (hs : Canonical s) : Canonical (holdError h idx v s) := by
  simp [holdError, hs]
@[simp] theorem State.fetchJoins_canonical (s : State) (h : Nat) (l : List (Word × Nat)) (hs : Canonical s) : Canonical (s.fetchJoins h l) := by
  grind [State.fetchJoins, State.engineJoins_canonical, State.foldl_canonical]
@[simp] theorem fetchedLines_canonical (h idx n : Nat) (ls : List (Nat × Nat)) (s : State) (hs : Canonical s) :
    Canonical (fetchedLines h idx n ls s) := by
  unfold fetchedLines
  refine State.foldl_canonical _ _ _ (fun u x hu => ?_) hs
  dsimp only
  repeat' split
  all_goals simp [hu]
@[simp] theorem fetchArrives_linesEnter_canonical (h : Nat) (j : MatJob) (idx kind : Nat) (ls : List Nat) :
    ∀ (n : Nat) (s : State) (f : State → State),
    (∀ u, Canonical u → Canonical (f u)) → Canonical s → Canonical (fetchArrives.linesEnter h j idx kind ls n s f) := by
  induction ls with
  | nil => exact fun n s f hf hs => hf s hs
  | cons l ls ih =>
    intro n s f hf hs
    have entered := State.arrivesAt_canonical _ l 64 (if kind = 0 then Event.mspwEntryArrival h j.since idx else .operandArrival h j.since idx)
      (fun s => s) (fun u hu => hu) (s.modPrep_canonical h idx (fun p => { p with entered := tmod 0 p.entered kind (· + 1) }) hs)
    unfold fetchArrives.linesEnter
    exact State.ite_canonical (ih _ _ _ hf hs) (State.ite_canonical entered (ih _ _ _ hf entered))
@[simp] theorem fetchArrives_canonical (h : Nat) (j : MatJob) (idx kind : Nat) (l : List (Word × Nat)) (wait : Nat → State → State) (s : State)
    (go : State → State) (hwait : ∀ n u, Canonical u → Canonical (wait n u)) (hgo : ∀ u, Canonical u → Canonical (go u)) (hs : Canonical s) :
    Canonical (fetchArrives h j idx kind l wait s go) := by
  unfold fetchArrives
  refine fetchArrives_linesEnter_canonical h j idx kind _ _ _ _ (fun u hu => ?_) hs
  refine State.ite_canonical (hwait _ _ (u.modPrep_canonical _ _ _ hu)) (State.ite_canonical (hwait _ _ hu) ?_)
  refine State.atUnits_canonical _ _ _ _ _ _ _ (hwait 1) (fun x hx => ?_) hu
  split
  · exact holdError_canonical _ _ _ _ hx
  · exact hgo _ (fetchedLines_canonical _ _ _ _ _ hx)
@[simp] theorem fetchLeaves_canonical (h idx kind n : Nat) (l : List (Word × Nat)) (set : Option Nat → Prep → Prep) (e : Event) (s : State)
    (hs : Canonical s) :
    Canonical (fetchLeaves h idx kind n l set e s) := by
  grind [fetchLeaves, State.fetchJoins_canonical, State.later_canonical, State.leavesCluster_canonical, State.modPrep_canonical]
@[simp] theorem State.modMcast_canonical (s : State) (cl id : Nat) (f : Mcast → Mcast) (hs : Canonical s) : Canonical (s.modMcast cl id f) := by
  grind [State.modMcast, State.modCluster_canonical, tset_rising, terase_rising, Cluster.canonical_def, canonical_same]
@[simp] theorem State.cleanMcast_canonical (s : State) (cl id : Nat) (hs : Canonical s) : Canonical (s.cleanMcast cl id) := by
  simp [State.cleanMcast, hs]
@[simp] theorem State.offerLaunch_canonical (s : State) (cl : Nat) (hs : Canonical s) : Canonical (s.offerLaunch cl) := by
  unfold State.offerLaunch
  refine State.foldl_canonical _ _ _ (fun u x hu => ?_) hs
  dsimp only
  repeat' split
  all_goals simp [hu]
@[simp] theorem State.dropJoins_canonical (s : State) (h : Nat) (keep : Bool) (sel : McMember → Bool) (hs : Canonical s) :
    Canonical (s.dropJoins h keep sel) := by simp +contextual [State.dropJoins, hs]
@[simp] theorem State.watchMember_canonical (s : State) (h since : Nat) (hs : Canonical s) : Canonical (s.watchMember h since) := by
  simp [State.watchMember, hs]
@[simp] theorem registerOperand_canonical (h since idx : Nat) (isA : Bool) (j : MatJob) (s : State) (hs : Canonical s) :
    Canonical (registerOperand h since idx isA j s) := by
  grind [registerOperand, State.cleanMcast_canonical, State.dropJoins_canonical, State.foldl_canonical, State.fresh_canonical,
      State.modCluster_canonical,
    State.modMcast_canonical, State.watchMember_canonical, tset_rising, Cluster.canonical_def, canonical_same]
@[simp] theorem watchCycle_canonical (h : Nat) (s : State) (hs : Canonical s) : Canonical (watchCycle h s) := by
  grind [watchCycle, State.foldl_canonical, State.modMcast_canonical, State.offerLaunch_canonical]
@[simp] theorem askOperand_canonical (h since idx : Nat) (isA : Bool) (r : TileRef) (s : State) (hs : Canonical s) :
    Canonical (askOperand h since idx isA r s) := by
  unfold askOperand
  split <;> simp [hs]
@[simp] theorem passStep_canonical (h idx : Nat) (s : State) (hs : Canonical s) : Canonical (passStep h idx s) := by simp [passStep, hs]
@[simp] theorem registerAgain_canonical (h : Nat) (s : State) (hs : Canonical s) : Canonical (registerAgain h s) := by
  unfold registerAgain
  split
  · exact hs
  · refine State.foldl_canonical _ _ _ (fun u x hu => ?_) hs
    have again (idx : Nat) (p : Prep) (isA : Bool) (r : TileRef) (v : State) (c : Prop) [Decidable c] (hv : Canonical v) (since : Nat) :
        Canonical (if c then askOperand h since idx isA r v else v) := State.ite_canonical (askOperand_canonical _ _ _ _ _ _ hv) hv
    exact again _ x.2 _ _ _ _ (State.elim_canonical _ _ _ (fun r => again _ x.2 _ _ _ _ hu _) hu) _
@[simp] theorem prepareStep_canonical (h idx : Nat) (s : State) (hs : Canonical s) : Canonical (prepareStep h idx s) := by
  unfold prepareStep
  split
  · exact hs
  next j _ =>
    have asks (u : State) (hu : Canonical u) : Canonical (askOperand h j.since idx false j.b
        (j.a.elim u fun a => askOperand h j.since idx true a u)) :=
      askOperand_canonical _ _ _ _ _ _ (State.elim_canonical _ _ _ (fun a => askOperand_canonical _ _ _ _ _ _ hu) hu)
    have asked := s.modPrep_canonical h idx (fun p => { p with asked := true }) hs
    dsimp only
    generalize s.modPrep h idx _ = s' at asked ⊢
    have comes (l : List (Word × Nat)) (kind : Nat) (u : State) (hu : Canonical u) : Canonical (match u.probe h l with
        | .ok n => fetchLeaves h idx kind n l (Prep.setAt kind) (.operandArrival h j.since idx) u
        | .error _ => u) := by
      split
      · exact fetchLeaves_canonical _ _ _ _ _ _ _ _ hu
      · exact hu
    refine State.ite_canonical hs (State.ite_canonical (s.later_canonical hs _ _) ?_)
    split
    · exact asks _ (holdFault_canonical _ _ _ _ _ _ (State.fetchJoins_canonical _ _ _ asked))
    · have codes := State.ite_canonical (c := codeRanges j idx = []) asked (comes (codeRanges j idx) 2 s' asked)
      exact asks _ (State.ite_canonical (passStep_canonical _ _ _ codes) (comes _ 3 _ codes))
@[simp] theorem takeCodes_canonical (h idx : Nat) (j : MatJob) (s : State) (hs : Canonical s) : Canonical (takeCodes h idx j s) := by
  grind [takeCodes, State.later_canonical, State.modPrep_canonical, fetchArrives_canonical]
@[simp] theorem checkScales_canonical (h idx : Nat) (j : MatJob) (s : State) (hs : Canonical s) : Canonical (checkScales h idx j s) := by
  grind [checkScales, State.later_canonical, State.modJob_canonical, State.modPrep_canonical, holdFault_canonical, fetchArrives_canonical,
      passStep_canonical]
@[simp] theorem takeOperand_canonical (h since idx : Nat) (isA : Bool) (s : State) (hs : Canonical s) :
    Canonical (takeOperand h since idx isA s) := by
  unfold takeOperand
  cases s.jobSince h since with
  | none => exact hs
  | some j =>
    refine State.ite_canonical hs ?_
    generalize ite (isA = true) j.a (some j.b) = r
    cases r with
    | none =>
      cases (j.prep idx).entry with
      | none => exact hs
      | some e =>
        exact fetchArrives_canonical _ _ _ _ _ _ _ _ (fun n u hu => State.later_canonical _ (u.modPrep_canonical _ _ _ hu) _ _)
          (fun u hu => u.modPrep_canonical _ _ _ hu) hs
    | some r =>
      refine State.ite_canonical (s.later_canonical hs _ _) (State.atUnits_canonical _ _ _ _ _ _ _ (fun u hu => u.later_canonical hu _ _)
          (fun u hu => ?_) hs)
      split
      · exact holdError_canonical _ _ _ _ hu
      · exact u.modPrep_canonical _ _ _ hu
@[simp] theorem fetchBlock_canonical (h idx : Nat) (j : MatJob) (blk : Word) (s : State) (hs : Canonical s) :
    Canonical (fetchBlock h idx j blk s) := by
  unfold fetchBlock
  dsimp only
  repeat' split
  all_goals simp [hs]
@[simp] theorem entryThere_canonical (h idx : Nat) (j : MatJob) (va : Word) (s : State) (hs : Canonical s) : Canonical (entryThere h idx j va s) := by
  grind [entryThere, State.modPrep_canonical, fetchBlock_canonical, holdFault_canonical, prepareStep_canonical]
@[simp] theorem State.endJob_canonical (s : State) (h : Nat) (hs : Canonical s) : Canonical (s.endJob h) :=
  State.dropJoins_canonical _ _ _ _ (s.modCore_canonical hs _ _ fun _ hk => { hk with jobs := hk.jobs.terase _ })
@[simp] theorem trapJob_canonical (h cause : Nat) (v : Word) (s : State) (hs : Canonical s) : Canonical (trapJob h cause v s) := by
  simp [trapJob, hs]
@[simp] theorem deliverFaults_canonical (c : Nat) (s : State) (hs : Canonical s) : Canonical (deliverFaults c s) := by
  unfold deliverFaults
  refine State.foldl_canonical _ _ _ (fun u x hu => ?_) hs
  dsimp only
  repeat' split
  all_goals simp [hu]
@[simp] theorem endStep_canonical (c : Nat) (r : MatRun) (s : State) (hs : Canonical s) : Canonical (endStep c r s) := by
  unfold endStep
  split
  · exact s.modCore_canonical hs _ _ fun k hk => { hk with }
  next j _ =>
    dsimp only
    generalize stepTile _ _ _ _ _ _ _ = x
    have written := State.modCore_canonical s hs c (fun k => { k.setTile r.tile x.1 with running := none, lastWrite := some (r.tile, s.cycle) })
      fun k hk => { k.setTile_canonical hk r.tile x.1 with }
    have started := State.later_canonical _ (State.modThread_canonical _ (raiseFl_canonical j.h x.2 _ written) j.h
      fun t => { t with spwidx := BitVec.ofNat 32 (r.idx + 1) }) 1 (.matrixStepStart c)
    have ended (n : Nat) := State.modJob_canonical _ j.h (fun j => { j with next := r.idx + 1, preps := terase j.preps r.idx, ended := some n })
      (fun j hj => terase_rising _ _ hj) started
    have trapped (u : State) (hu : Canonical u) (v : Option Word) : Canonical (u.modJob j.h fun j => { j with trap := v }) :=
      u.modJob_canonical _ _ (fun _ hj => hj) hu
    have prepared (n : Nat) := prepareStep_canonical j.h (r.idx + 1) _ (ended n)
    refine State.ite_canonical (trapped _ (ended _) _) (State.ite_canonical (ended _) (State.ite_canonical (prepared _) ?_))
    have entry (n : Nat) := State.later_canonical _ (prepared n) 0 (.mspwEntryArrival j.h j.since (r.idx + 1))
    exact State.ite_canonical (State.later_canonical _ (entry _) _ _) (entry _)
@[simp] theorem matrixRetires_canonical (h : Nat) (s : State) (hs : Canonical s) : Canonical (matrixRetires h s) := by
  grind [matrixRetires, State.endJob_canonical, State.modThread_canonical, State.passOf_canonical, State.wake_canonical]
@[simp] theorem finMatrix_canonical (h v : Nat) (s : State) (hs : Canonical s) : Canonical (finMatrix h v s) := by
  grind [finMatrix, State.before_canonical, State.endJob_canonical, State.later_canonical, State.modJob_canonical, State.modThread_canonical,
    matrixRetires_canonical]
@[simp] theorem startJob_canonical (steps : Nat) (mk : Nat → MatJob) (first : Nat → State → State) (s : State) (hmk : ∀ n, Rising (mk n).preps)
    (hfirst : ∀ n u, Canonical u → Canonical (first n u)) (hs : Canonical s) : Canonical (startJob steps mk first s) := by
  have blocked := s.blocks_canonical hs .matrix
  exact State.ite_canonical (State.pass_canonical _ (s.modSelf_canonical hs _) _) (State.ite_canonical (State.later_canonical _ blocked _ _)
    (hfirst _ _ (State.modCore_canonical _ blocked _ _ fun k hk => { hk with jobs := hk.jobs.tset _ (hmk _) })))

/-! ### Near-bank steps -/

@[simp] theorem acceptBank_canonical (op : BkOp) (d : Word) (dp : Phys) (ss : List Word) (ps : List Phys) (len : Nat) (pattern : Word) (s : State)
    (hs : Canonical s) : Canonical (acceptBank op d dp ss ps len pattern s) := by
  have fresh := s.fresh_canonical hs
  exact State.leavesCluster_later_canonical _ _ _ _ _ _ _ _ { fresh with bks := tset_rising _ _ _ fresh.bks }
@[simp] theorem takeMarks_canonical (id : Nat) (b : Bk) (l : List (Nat × Bool)) : ∀ (reached : Nat) (s : State), Canonical s →
    Canonical (takeMarks id b reached s l).2 := by
  induction l with
  | nil => exact fun _ s hs => hs
  | cons x l ih =>
    intro r s hs
    unfold takeMarks
    split
    · exact hs
    · exact ih _ _ (State.ite_canonical { hs with lines := terase_rising _ _ hs.lines } { hs with })

/-! ### Pumps and overlays -/

@[simp] theorem sendOvld_canonical (r : OvldReq) (n : Nat) (s : State) (hs : Canonical s) : Canonical (sendOvld r n s) := by simp [sendOvld, hs]
@[simp] theorem acceptLoad_canonical (r : OvldReq) (s : State) (hs : Canonical s) : Canonical (acceptLoad r s) := by
  grind [acceptLoad, State.atCycle_canonical, State.atUnits_canonical, State.dropEvents_canonical, State.holdLines_canonical, State.later_canonical,
    State.modPump_canonical, failThread_canonical]
@[simp] theorem State.launchTo_canonical (s : State) (chan : Nat) (l : Launch) (queue : Pump → Pump) (hs : Canonical s) :
    Canonical (s.launchTo chan l queue) :=
  State.ite_canonical (s.modCtx_canonical hs _ _ fun x hx => x.addLaunches_canonical _ hx) (State.later_canonical _ (s.modPump_canonical hs _ _) _ _)
@[simp] theorem acceptGo_canonical (r : OvldReq) (s : State) (hs : Canonical s) : Canonical (acceptGo r s).2 := by
  unfold acceptGo; split <;> simp [hs]
@[simp] theorem startKernel_canonical (c k : Nat) (l : Launch) (s : State) (hs : Canonical s) : Canonical (startKernel c k l s) := by
  simp [startKernel, hs]
@[simp] theorem startHead_canonical (c : Nat) (s : State) (hs : Canonical s) : Canonical (startHead c s) := by
  unfold startHead
  dsimp only
  repeat' split
  all_goals simp [hs]
@[simp] theorem State.sendLines_canonical (s : State) (due : Nat) (va : Word) (l : List (Nat × Nat × Nat × Nat)) (op : Nat → Nat → FarOp)
    (hs : Canonical s) :
    Canonical (s.sendLines due va l op) := by
  unfold State.sendLines
  refine State.foldl_canonical _ _ _ (fun u x hu => ?_) hs
  split
  simp [hu]

/-! ### Tasks -/

@[simp] theorem State.sendTask_canonical (s : State) (op : TqOp) (hs : Canonical s) : Canonical (s.sendTask op) := by
  grind [State.sendTask, State.later_canonical, State.leavesCluster_canonical]
@[simp] theorem State.takeTask_canonical (s : State) (p : Nat) (q : Part) (hs : Canonical s) : Canonical (s.takeTask p q).2 := by
  unfold State.takeTask
  dsimp only
  repeat' split
  all_goals simp [hs]
@[simp] theorem State.taskReply_canonical (s : State) (r : TqReq) (e : Event) (hs : Canonical s) : Canonical (s.taskReply r e) := by
  unfold State.taskReply
  split <;> simp [hs]
@[simp] theorem State.answerTask_canonical (s : State) (r : TqReq) (a : Option Task) (hs : Canonical s) : Canonical (s.answerTask r a) := by
  simp [State.answerTask, hs]
@[simp] theorem State.ackTask_canonical (s : State) (r : TqReq) (hs : Canonical s) : Canonical (s.ackTask r) := by simp [State.ackTask, hs]
@[simp] theorem insertTask_canonical (p : Nat) (t : Task) (s : State) (hs : Canonical s) : Canonical (insertTask p t s) := by
  have added := s.modPart_canonical hs p (fun q => { q with tasks := q.tasks ++ [t] }) fun q hq => hq
  grind [insertTask, State.takeTask_canonical, State.modPart_canonical, State.answerTask_canonical]
@[simp] theorem admitHeld_canonical (p : Nat) (s : State) (hs : Canonical s) : Canonical (admitHeld p s) := by
  grind [admitHeld, State.ackTask_canonical, State.modPart_canonical, insertTask_canonical]
@[simp] theorem takeAnswer_canonical (h : Nat) (nums : List Nat) (keep : Nat → Bool) (pc : Word) (a : Option Task) (s : State) (hs : Canonical s) :
    Canonical (takeAnswer h nums keep pc a s) := by
  unfold takeAnswer
  split <;> simp [hs]
@[simp] theorem refuseAnswer_canonical (r : TqReq) (a : Option Task) (s : State) (hs : Canonical s) : Canonical (refuseAnswer r a s) := by
  unfold refuseAnswer
  split <;> simp [hs]

/-! ### Parking -/

@[simp] theorem finTexit_canonical (h v : Nat) (s : State) (hs : Canonical s) : Canonical (finTexit h v s) := by
  grind [finTexit, State.before_canonical, State.endThread_canonical, State.modThread_canonical, State.releaseBegin_canonical,
      State.released_canonical,
    parkTrap_canonical]
@[simp] theorem State.back_canonical (s : State) (h : Nat) (hs : Canonical s) : Canonical (s.back h) := by simp [State.back, hs]
@[simp] theorem State.backWithout_canonical (s : State) (h : Nat) (p : Event → Bool) (hs : Canonical s) : Canonical (s.backWithout h p) := by
  simp [State.backWithout, hs]
@[simp] theorem endMwait_canonical (h mask : Nat) (rd : Reg) (s : State) (hs : Canonical s) : Canonical (endMwait h mask rd s) := by
  grind [endMwait, State.back_canonical, State.modThread_canonical, State.passOf_canonical, State.setX_canonical]
theorem stopMatrix_canonical (h : Nat) (s t : State) (e : stopMatrix h s = some t) (hs : Canonical s) : Canonical t := by
  unfold stopMatrix at e
  dsimp only at e
  split at e <;> cases e
  simp [hs]
theorem State.withdraw_canonical (s t : State) (h : Nat) (e : s.withdraw h = some t) (hs : Canonical s) : Canonical t := by
  have without (p : Event → Bool) : Canonical (s.backWithout h p) := s.backWithout_canonical h p hs
  have walk := s.modDie_canonical hs (dieOf h)
      (fun d => { d with misses := tmap (fun _ (m : Miss) => { m with waits := m.waits.filter (·.1 ≠ h) }) d.misses })
    fun d hd => Die.mapMisses_canonical d hd _
  have sfu := sfuBack_canonical h s hs
  unfold sfuBack at sfu
  have task (p : Nat) := s.modPart_canonical hs p (fun q => { q with takeWait := q.takeWait.filter fun r => r.h ≠ h }) fun q hq => hq
  unfold State.withdraw at e
  dsimp only at e
  repeat' split at e
  any_goals exact stopMatrix_canonical _ _ _ e hs
  all_goals cases e
  all_goals grind [State.back_canonical, State.backWithout_canonical, endMwait_canonical, leaveGangWait_canonical, State.sfuNext_canonical,
      hashBack_canonical]
@[simp] theorem State.freeze_canonical (s : State) (h : Nat) (hs : Canonical s) : Canonical (s.freeze h) := by
  grind [State.freeze, State.dropGang_canonical, State.modJob_canonical, State.modThread_canonical]
@[simp] theorem enterHandler_canonical (h : Nat) (s : State) (hs : Canonical s) : Canonical (enterHandler h s) := by simp [enterHandler, hs]
@[simp] theorem State.uiLater_canonical (s : State) (core : Nat) (hs : Canonical s) : Canonical (s.uiLater core) := by simp [State.uiLater, hs]

/-! ### Scheduling -/

@[simp] theorem State.modNode_canonical (s : State) (c q : Nat) (f : Node → Node) (hs : Canonical s) : Canonical (s.modNode c q f) := by
  simp +contextual [State.modNode, hs, tset_rising, Ctx.canonical_def]
@[simp] theorem failCtx_canonical (c cause : Nat) (pc val : Word) (s : State) (hs : Canonical s) : Canonical (failCtx c cause pc val s) := by
  grind [failCtx, State.later_canonical, State.modCtx_canonical, Ctx.canonical_def, canonical_same]
@[simp] theorem State.readyNode_canonical (s : State) (c q n : Nat) (hs : Canonical s) : Canonical (s.readyNode c q n) := by
  unfold State.readyNode; split <;> simp [hs]
@[simp] theorem acceptRecord_canonical (c q : Nat) (words : List Word) (s : State) (hs : Canonical s) : Canonical (acceptRecord c q words s) := by
  grind [acceptRecord, State.later_canonical, State.modNode_canonical, State.readyNode_canonical]
@[simp] theorem arriveEdge_canonical (c r : Nat) (l : Option Nat) (live : Bool) (s : State) (hs : Canonical s) :
    Canonical (arriveEdge c r l live s) := by
  grind [arriveEdge, State.later_canonical, State.modNode_canonical, State.readyNode_canonical]
@[simp] theorem sendEdges_canonical (c q : Nat) (live : BitVec 4) (n : Node) (s : State) (hs : Canonical s) : Canonical (sendEdges c q live n s) := by
  grind [sendEdges, State.foldl_canonical, arriveEdge_canonical, failNode_canonical]
@[simp] theorem closeBody_canonical (c l : Nat) (note : Bool) (s : State) (hs : Canonical s) : Canonical (closeBody c l note s) := by
  grind [closeBody, State.foldl_canonical, State.modNode_canonical, notifyNode_canonical]
@[simp] theorem checkLoop_canonical (c : Nat) (l : Option Nat) (s : State) (hs : Canonical s) : Canonical (checkLoop c l s) := by
  unfold checkLoop
  dsimp only
  repeat' split
  all_goals simp [hs]
@[simp] theorem State.launchEnds_canonical (s : State) (c q : Nat) (hs : Canonical s) : Canonical (s.launchEnds c q) := by
  simp +contextual [State.launchEnds, hs, tmap_rising]
@[simp] theorem State.syncModes_canonical (s : State) (c : Nat) (hs : Canonical s) : Canonical (s.syncModes c) := by
  unfold State.syncModes
  split
  · exact hs
  · refine { hs with clusters := ?_ }
    dsimp only
    exact Lists.foldl _ _ (fun t cl ht => ht.tmod Cluster.new_canonical _ fun k hk => { hk with }) hs.clusters
@[simp] theorem State.emptyRace_canonical (s : State) (cls : List Nat) (hs : Canonical s) : Canonical (s.emptyRace cls) := by
  simp +contextual [State.emptyRace, hs, Cluster.canonical_def]
@[simp] theorem State.freeCore_canonical (s : State) (core : Nat) (hs : Canonical s) : Canonical (s.freeCore core) := by
  have rights : Canonical (if (s.core core).wellwin = 0 then s else s.writeWellwin core 0) := State.ite_canonical hs
      (s.writeWellwin_canonical core 0 hs)
  have freed := fun n => State.modCore_canonical _ rights core (fun k => k.cleared n) fun k hk => k.cleared_canonical hk n
  unfold State.freeCore
  dsimp only
  generalize hu : State.dropEvents _ _ = u
  have hu : Canonical u := hu ▸ State.dropEvents_canonical _ (freed _) _
  refine { hu with gangs := rising_filter _ _ hu.gangs, threads := rising_filterMap _ _ (fun x y e => ?_) hu.threads }
  split at e
  · cases e; rfl
  · split at e <;> cases e
    rfl
@[simp] theorem State.freeCores_canonical (s : State) (c : Nat) (hs : Canonical s) : Canonical (s.freeCores c) := by
  grind [State.freeCores, State.emptyRace_canonical, State.foldl_canonical, State.freeCore_canonical, State.modCluster_canonical,
      State.syncModes_canonical,
    Cluster.canonical_def, canonical_same]
@[simp] theorem State.serve_canonical (s : State) (n : Nat) (hs : Canonical s) : Canonical (s.serve n) := by
  grind [State.serve, State.foldl_canonical, State.later_canonical]
@[simp] theorem State.beginSave_canonical (s : State) (c : Nat) (hs : Canonical s) : Canonical (s.beginSave c) := by
  simp +contextual [State.beginSave, hs, Ctx.canonical_def]
@[simp] theorem State.displace_canonical (s : State) (prio c : Nat) (l : List Nat) (hs : Canonical s) : Canonical (s.displace prio c l) := by
  unfold State.displace
  refine State.foldl_canonical _ _ _ (fun u x hu => ?_) hs
  repeat' split
  all_goals simp [hu]
@[simp] theorem State.contend_canonical (s : State) (hs : Canonical s) : Canonical s.contend := by simp +contextual [State.contend, hs]
@[simp] theorem State.beginSlice_canonical (s : State) (c : Nat) (hs : Canonical s) : Canonical (s.beginSlice c) := by
  grind [State.beginSlice, State.later_canonical, State.modCtx_canonical, Ctx.canonical_def, canonical_same]
@[simp] theorem State.takeCores_canonical (s : State) (c : Nat) (l : List Nat) (hs : Canonical s) : Canonical (s.takeCores c l) := by
  grind [State.takeCores, State.beginSlice_canonical, State.contend_canonical, State.foldl_canonical, State.modCore_canonical, State.modCtx_canonical,
    State.serve_canonical, State.syncModes_canonical, Core.canonical_def, Ctx.canonical_def, canonical_same]
@[simp] theorem State.waitFor_canonical (s : State) (c q : Nat) (x : Ctx) (more : List Nat) (inUse : Bool) (hs : Canonical s) :
    Canonical (s.waitFor c q x more inUse) := by
  grind [State.waitFor, State.displace_canonical, State.modCtx_canonical, State.modNode_canonical, Ctx.canonical_def, canonical_same]
@[simp] theorem beginNode_canonical (c q : Nat) (s : State) (f : Ctx → Node → State → State) (hf : ∀ (x0 : Ctx)
    (x1 : Node) u, Canonical u → Canonical (f x0 x1 u)) (hs : Canonical s) :
    Canonical (beginNode c q s f) := by
  unfold beginNode
  dsimp only
  repeat' split
  all_goals simp [hf, hs]
@[simp] theorem withChecks_canonical (c q : Nat) (l : List (Bool × Nat × Word)) (s : State) (f : State → State) (hf : ∀ u, Canonical u → Canonical
    (f u)) (hs : Canonical s) :
    Canonical (withChecks c q l s f) := by unfold withChecks; split <;> simp [hf, hs]
@[simp] theorem State.evalLater_canonical (s : State) (c q : Nat) (n : Node) (hs : Canonical s) : Canonical (s.evalLater c q n) := by
  simp [State.evalLater, hs]
@[simp] theorem placeEntryThreads_canonical (c q i : Nat) (base size : Word) (p : Place) (s : State) (hs : Canonical s) :
    Canonical (placeEntryThreads c q i base size p s) := by simp +contextual [placeEntryThreads, hs, Core.canonical_def]
@[simp] theorem placeNode_canonical (c q : Nat) (n : Node) (l : List Place) (s : State) (hs : Canonical s) : Canonical (placeNode c q n l s) := by
  grind [placeNode, State.atCycle_canonical, State.foldl_canonical, State.modNode_canonical, State.takeCores_canonical, placeEntryThreads_canonical]
@[simp] theorem startIteration_canonical (c q : Nat) (s : State) (hs : Canonical s) : Canonical (startIteration c q s) := by
  grind [startIteration, State.foldl_canonical, State.modNode_canonical, State.readyNode_canonical]

/-! ### Saves and restores -/

@[simp] theorem giveUpAtSave_canonical (h : Nat) (s : State) (hs : Canonical s) : Canonical (giveUpAtSave h s) := by
  unfold giveUpAtSave; split <;> simp [hs]
@[simp] theorem dropClaims_canonical (h : Nat) (s : State) (hs : Canonical s) : Canonical (dropClaims h s) := by simp +contextual [dropClaims, hs]
@[simp] theorem letGo_canonical (h : Nat) (s : State) (hs : Canonical s) : Canonical (letGo h s) := by
  grind [letGo, State.dropJoins_canonical, State.offerLaunch_canonical, dropClaims_canonical, giveUpAtSave_canonical]
@[simp] theorem stopGang_canonical (ms : List Nat) (s : State) (hs : Canonical s) : Canonical (stopGang ms s) := by
  have kept : ∀ t, ms.foldl (fun (r : Option State) h => r.bind fun s => s.withdraw h) (some s) = some t → Canonical t := by
    refine List.foldlRecOn (motive := fun r : Option State => ∀ t, r = some t → Canonical t) ms _ (by simpa using hs) fun r ih m _ t e => ?_
    obtain ⟨u, hu, ht⟩ := Option.bind_eq_some_iff.mp e
    exact State.withdraw_canonical _ _ _ ht (ih u hu)
  unfold stopGang
  refine State.ite_canonical hs ?_
  split
  next t e =>
    exact State.foldl_canonical _ _ _ (fun u h hu => letGo_canonical _ _ (u.modThread_canonical hu _ _)) (State.dropGang_canonical _ _ (kept t e))
  · exact State.foldl_canonical _ _ _ (fun u h hu => u.freeze_canonical h hu) hs
@[simp] theorem stopThread_canonical (h : Nat) (s : State) (hs : Canonical s) : Canonical (stopThread h s) := by
  grind [stopThread, State.freeze_canonical, State.modThread_canonical, State.withdraw_canonical, letGo_canonical, stopGang_canonical]
@[simp] theorem takeLaunches_canonical (c : Nat) (s : State) (hs : Canonical s) : Canonical (takeLaunches c s).2 := by
  grind [takeLaunches, State.foldlSnd_canonical, State.modPump_canonical, State.later_canonical]
@[simp] theorem askPumps_canonical (c : Nat) (s : State) (hs : Canonical s) : Canonical (askPumps c s) := by
  grind [askPumps, State.foldl_canonical, State.later_canonical, State.modPump_canonical]
@[simp] theorem stopCopies_canonical (c : Nat) (s : State) (hs : Canonical s) : Canonical (stopCopies c s) := by
  simp +contextual [stopCopies, hs, tmap_rising]
@[simp] theorem unstartNodes_canonical (c : Nat) (s : State) (hs : Canonical s) : Canonical (unstartNodes c s) := by
  unfold unstartNodes
  split
  · exact hs
  · refine State.foldl_canonical _ _ _ (fun u x hu => State.ite_canonical hu (State.modNode_canonical _ _ _ _ ?_)) hs
    exact { hu with threads := rising_filter _ _ hu.threads }
@[simp] theorem takeOverlays_canonical (c : Nat) (s : State) (hs : Canonical s) : Canonical (takeOverlays c s).2 := by
  simp +contextual [takeOverlays, hs, tmap_rising]
@[simp] theorem State.mirrorAll_canonical (s : State) (core : Nat) (v : Word) (hs : Canonical s) : Canonical (s.mirrorAll core v) := by
  grind [State.mirrorAll, State.forUpto_canonical, State.modCore_canonical, tset_rising, terase_rising, Core.canonical_def, canonical_same]
@[simp] theorem loadCore_canonical (c k : Nat) (v : Core) (s : State) (hv : v.Canonical) (hs : Canonical s) : Canonical (loadCore c k v s) := by
  have loaded := s.setCore_canonical hs k
    { v with holder := some c, icache := (s.core k).icache, tlb := (s.core k).tlb, halted := (s.core k).halted, mirror := (s.core k).mirror,
             drawSeq := (s.core k).drawSeq, draws := tmap (fun _ d => restoredDraw d) v.draws }
    { hv with icache := (hs.core k).icache, mirror := (hs.core k).mirror, draws := hv.draws.tmap fun _ d hd => restoredDraw_canonical d hd }
  grind [loadCore, State.foldl_canonical, State.later_canonical, State.mirrorAll_canonical]
@[simp] theorem loadThread_canonical (gone h : Nat) (v : Thread) (s : State) (hs : Canonical s) : Canonical (loadThread gone h v s) := by
  grind [loadThread, State.atCycle_canonical, State.foldl_canonical, State.later_canonical, State.setThread_canonical]
@[simp] theorem loadOverlays_canonical (c : Nat) (s : State) (hs : Canonical s) : Canonical (loadOverlays c s) := by
  unfold loadOverlays
  refine State.modCtx_canonical _ (State.foldlSnd_canonical _ _ _ (fun u x hu => ?_) hs) _ _ fun x hx => { hx with saved := fun v e => ?_ }
  · dsimp only
    split
    · exact hu
    · exact State.later_canonical _ (State.modPump_canonical _ (State.dropEvents_canonical _ hu _) _ _) _ _
  · obtain ⟨w, hw, rfl⟩ := Option.map_eq_some_iff.mp e
    exact { hx.saved w hw with }
theorem readCore_canonical (m : List Host.Cell) (base j c : Nat) (v : Saved) (k : Core) (hm : Memory.wf m = true) (hk : k.Canonical) :
    (readCore m base j c v k).Canonical := by
  refine { hk with well := memWindow_wf _ _ _ hm, cistern := rowsOf_rising _, draws := ?_ }
  unfold readCore
  dsimp only
  refine hk.draws.tmap fun n d hd => ?_
  split
  · exact d.ofRecord_canonical _ hd
  · exact hd
@[simp] theorem finishRestore_canonical (c : Nat) (x : Ctx) (v : Saved) (s : State) (hv : v.Canonical) (hs : Canonical s) :
    Canonical (finishRestore c x v s) := by
  unfold finishRestore
  have resident := s.modCtx_canonical hs c
      (fun x => { x with phase := .resident, saved := none }) fun x hx => { hx with saved := fun v e => nomatch e }
  generalize s.modCtx c _ = s1 at resident ⊢
  have cores : Canonical (v.cores.zipIdx.foldl (fun s ((k, y), j) => loadCore c k (readCore s.mem x.save j k v y) s) s1) := by
    refine List.foldlRecOn _ _ (motive := Canonical) resident fun u hu y hy => ?_
    exact loadCore_canonical _ _ _ _ (readCore_canonical _ _ _ _ _ _ hu.mem (hv.cores.all _ (List.fst_mem_of_mem_zipIdx hy))) hu
  dsimp only
  generalize v.cores.zipIdx.foldl _ s1 = s2 at cores ⊢
  generalize hs3 : v.threads.foldl _ s2 = s3
  have threads : Canonical s3 := hs3 ▸ State.foldl_canonical _ _ _ (fun u x hu => loadThread_canonical _ _ _ _ hu) cores
  generalize hs4 : v.bars.foldl _ s3 = s4
  have bars : Canonical s4 := by
    refine hs4 ▸ State.foldl_canonical _ _ _ (fun u x hu => ?_) threads
    exact u.modCluster_canonical hu _ _ fun k hk => { hk with bars := tset_rising _ _ _ hk.bars }
  generalize hs5 : v.copies.foldl _ s4 = s5
  have copies : Canonical s5 := by
    refine hs5 ▸ State.foldl_canonical _ _ _ (fun u x hu => ?_) bars
    have put (y : Copy) : Canonical { u with copies := tset u.copies x.1 y } := { hu with copies := tset_rising _ _ _ hu.copies }
    exact State.later_canonical _ (put _) _ _
  generalize hs6 : v.launches.foldl _ s5 = s6
  have launches : Canonical s6 := by
    refine hs6 ▸ State.foldl_canonical _ _ _ (fun u x hu => ?_) copies
    exact State.ite_canonical (endLaunch_canonical _ _ _ hu) (State.later_canonical _ (State.modPump_canonical _ hu _ _) _ _)
  refine State.contend_canonical _ (State.ctxCheck_canonical _ _ (State.foldl_canonical _ _ _ (fun u x hu => ?_)
    (State.beginSlice_canonical _ _ (State.emptyRace_canonical _ _ (s6.syncModes_canonical _ launches)))))
  exact State.ite_canonical (u.later_canonical hu _ _) hu

/-! ### Partitions and contexts -/

@[simp] theorem State.withHost_canonical (s : State) (a : Word) (dead f : State → State) (hdead : ∀ u, Canonical u → Canonical (dead u))
    (hf : ∀ u, Canonical u → Canonical (f u)) (hs : Canonical s) :
    Canonical (s.withHost a dead f) := by
  unfold State.withHost
  repeat' split
  all_goals simp [hdead, hf, hs]
@[simp] theorem State.pcmdDone_canonical (s : State) (status : Nat) (hs : Canonical s) : Canonical (s.pcmdDone status) := by
  simp [State.pcmdDone, hs]
@[simp] theorem State.zeroPumps_canonical (s : State) (gmask : Nat) (hs : Canonical s) : Canonical (s.zeroPumps gmask) := by
  unfold State.zeroPumps
  refine State.foldl_canonical _ _ _ (fun u c hu => ?_) hs
  have filled (p : Pump) : Canonical { u with pumps := tset u.pumps c p } := { hu with pumps := tset_rising _ _ _ hu.pumps }
  exact State.ite_canonical (State.later_canonical _ (filled _) _ _) hu
@[simp] theorem State.zeroClusters_canonical (s : State) (gmask : Nat) (hs : Canonical s) : Canonical (s.zeroClusters gmask) := by
  unfold State.zeroClusters
  refine { hs with cores := ?_, threads := rising_filter _ _ hs.threads, gangs := rising_filter _ _ hs.gangs, clusters := ?_ } <;> dsimp only
  · refine (hs.cores.filter _).map _ (fun x => ?_) fun x hx => ?_
    · split <;> rfl
    · split
      · exact { Core.new_canonical with }
      · exact hx
  · refine hs.clusters.tmap fun cl k hk => ?_
    split
    · exact { Cluster.new_canonical with }
    · exact hk
@[simp] theorem startSupervisors_canonical (p : Nat) (q : Part) (s : State) (hs : Canonical s) : Canonical (startSupervisors p q s) := by
  grind [startSupervisors, State.forUpto_canonical, State.modCore_canonical, State.place_canonical, Core.canonical_def, canonical_same]
@[simp] theorem offerWindows_canonical (p : Nat) (q : Part) (s : State) (hs : Canonical s) : Canonical (offerWindows p q s) := by
  grind [offerWindows, State.forUpto_canonical, State.choose_canonical, State.later_canonical]
@[simp] theorem State.dropTranslations_canonical (s : State) (ctx : Nat → Bool) (hs : Canonical s) : Canonical (s.dropTranslations ctx) := by
  unfold State.dropTranslations
  refine { hs with cores := ?_, clusters := ?_, dies := ?_ } <;> dsimp only
  · exact hs.cores.tmap fun _ k hk => { hk with }
  · exact hs.clusters.tmap fun _ k hk => { hk with }
  · exact hs.dies.tmap fun _ d hd => { d.mapMisses_canonical hd _ with walk := fun w hw => hd.walk w (List.mem_of_mem_filter hw) }
@[simp] theorem State.dropWork_canonical (s : State) (core ctx chan part : Nat → Bool) (hs : Canonical s) :
    Canonical (s.dropWork core ctx chan part) :=
  { hs with taccs := rising_filter _ _ hs.taccs, copies := rising_filter _ _ hs.copies, bks := rising_filter _ _ hs.bks, gangs := rising_filter _ _ hs.gangs }
@[simp] theorem State.saveResidents_canonical (s : State) (p : Nat) (hs : Canonical s) : Canonical (s.saveResidents p) := by
  grind [State.saveResidents, State.beginSave_canonical, State.ctxs_canonical, State.foldl_canonical]
@[simp] theorem State.rekeyHeld_canonical (s : State) (p slot : Nat) (hs : Canonical s) : Canonical (s.rekeyHeld p slot) := by
  unfold State.rekeyHeld
  refine { hs with tags := rising_foldl _ _ _ (fun t x ht => ?_) hs.tags }
  dsimp only
  split
  · cases s.keyTag (256 * x.1) slot with
    | none => exact ht
    | some c => exact tset_rising _ _ _ ht
  · exact ht
@[simp] theorem State.ctxDone_canonical (s : State) (p status : Nat) (hs : Canonical s) : Canonical (s.ctxDone p status) := by
  simp [State.ctxDone, hs]
@[simp] theorem State.terase_ctxs_canonical (s : State) (c : Nat) (hs : Canonical s) : Canonical { s with ctxs := terase s.ctxs c } :=
  { hs with ctxs := hs.ctxs.terase c }
@[simp] theorem eraseCtx_canonical (p c : Nat) (s : State) (hs : Canonical s) : Canonical (eraseCtx p c s) := by
  have empty := s.dropWork_canonical (fun _ => false) (· = c) (fun _ => false) (fun _ => false) hs
  have bare := takeOverlays_canonical c _ (takeLaunches_canonical c _ empty)
  unfold eraseCtx
  exact State.ctxDone_canonical _ _ _ (State.serve_canonical _ _ (State.terase_ctxs_canonical _ c
    (State.dropTranslations_canonical _ _ (State.freeCores_canonical _ c bare))))
@[simp] theorem threadCommand_canonical (p : Nat) (kind : SupKind) (s : State) (hs : Canonical s) : Canonical (threadCommand p kind s) := by
  unfold threadCommand; dsimp only; split <;> simp [hs]
@[simp] theorem State.snoopAgent_canonical (s : State) (ls : List Nat) (hs : Canonical s) : Canonical (s.snoopAgent ls) := by
  grind [State.snoopAgent, State.foldl_canonical, State.later_canonical]
@[simp] theorem entryKnown_canonical (w : InjWait) (s : State) (hs : Canonical s) : Canonical (entryKnown w s) := by
  unfold entryKnown
  dsimp only
  split
  · split
    · exact { hs with taccs := tset_rising _ _ _ hs.taccs }
    · exact hs
  · exact State.ite_canonical (s.modPrep_canonical _ _ _ hs) hs
  · exact State.ite_canonical (s.modPrep_canonical _ _ _ hs) hs
  · split
    · exact s.setCopy_canonical _ _ hs
    · exact hs
  · exact s.modThread_canonical hs _ _
  · exact hs
@[simp] theorem enterLate_canonical (w : InjWait) (s : State) (hs : Canonical s) : Canonical (enterLate w s) := by
  grind [enterLate, State.admitAt_canonical, State.later_canonical, entryKnown_canonical]
@[simp] theorem writePcmd_canonical (v : Word) (s : State) (hs : Canonical s) : Canonical (writePcmd v s) := by
  unfold writePcmd
  dsimp only
  repeat' split
  all_goals simp [hs]
@[simp] theorem writeReset_canonical (v : Word) (s : State) (hs : Canonical s) : Canonical (writeReset v s) := by
  grind [writeReset, State.choose_canonical, State.later_canonical, canonical_same]
@[simp] theorem writePf_canonical (a : Nat) (v : Word) (s : State) (hs : Canonical s) : Canonical (writePf a v s) := by
  unfold writePf
  dsimp only
  repeat' split
  all_goals simp [hs]
@[simp] theorem writeDbg_canonical (g a : Nat) (v : Word) (s : State) (hs : Canonical s) : Canonical (writeDbg g a v s) := by
  have dbg (f : Cluster → Dbg) : Canonical (s.modCluster g fun k => { k with dbg := f k }) := s.modCluster_canonical hs _ _ fun k hk => { hk with }
  have later (f : Cluster → Dbg) (e : Event) := State.later_canonical _ (dbg f) 0 e
  unfold writeDbg
  dsimp only
  refine State.ite_canonical (dbg _) (State.ite_canonical ?_ ?_)
  · exact State.ite_canonical (later _ _) (State.ite_canonical (later _ _) (State.ite_canonical (later _ _) (dbg _)))
  · iterate 5 refine State.ite_canonical (dbg _) ?_
    refine State.ite_canonical ?_ (State.ite_canonical (dbg _) (State.ite_canonical (dbg _) hs))
    exact State.ite_canonical (later _ _) (State.ite_canonical (later _ _) (dbg _))

/-! ### Debug modules and bring-up -/

@[simp] theorem stopCore_canonical (core : Nat) (s : State) (hs : Canonical s) : Canonical (stopCore core s) := by
  grind [stopCore, State.forUpto_canonical, State.modCore_canonical, State.modThread_canonical, State.noteFrozen_canonical, Core.canonical_def,
      canonical_same]
@[simp] theorem runCore_canonical (core : Nat) (s : State) (hs : Canonical s) : Canonical (runCore core s) := by
  grind [runCore, State.forUpto_canonical, State.later_canonical, State.modCore_canonical, State.modThread_canonical, State.sfuNext_canonical,
    State.uiLater_canonical, registerAgain_canonical, Core.canonical_def, canonical_same]
@[simp] theorem resumeSlices_canonical (s : State) (hs : Canonical s) : Canonical (resumeSlices s) := by
  grind [resumeSlices, State.ctxs_canonical, State.foldl_canonical, State.later_canonical, State.modCtx_canonical, Ctx.canonical_def, canonical_same]
@[simp] theorem State.runCores_canonical (s : State) (g : Nat) (hs : Canonical s) : Canonical (s.runCores g) := by
  unfold State.runCores
  refine State.foldl_canonical _ _ _ (fun u x hu => ?_) hs
  dsimp only
  simp [hu]
@[simp] theorem State.dbgStatus_canonical (s : State) (g status : Nat) (hs : Canonical s) : Canonical (s.dbgStatus g status) := by
  simp +contextual [State.dbgStatus, hs, Cluster.canonical_def]
@[simp] theorem comesUp_canonical (u : ReadyUnit) (s : State) (f : State → State) (hf : ∀ u, Canonical u → Canonical (f u)) (hs : Canonical s) :
    Canonical (comesUp u s f) := by grind [comesUp, State.choose_canonical, State.later_canonical]
@[simp] theorem checkHub_canonical (s : State) (hs : Canonical s) : Canonical (checkHub s) := by
  grind [checkHub, State.choose_canonical, State.foldl_canonical, State.later_canonical, canonical_same]
@[simp] theorem checkStacks_canonical (s : State) (hs : Canonical s) : Canonical (checkStacks s) := by
  grind [checkStacks, State.forUpto_canonical, State.later_canonical, canonical_same]

/-! ### Fetching and issuing -/

@[simp] theorem State.cachedParcel_canonical (s : State) (core : Nat) (va : Word) (p : Phys) (hs : Canonical s) :
    Canonical (s.cachedParcel core va p).2 := by
  grind [State.cachedParcel, State.choose_canonical, State.modCore_canonical, tset_rising, Core.canonical_def, canonical_same]
@[simp] theorem State.fetchThread_canonical (s : State) (h : Nat) (va : Word) (hs : Canonical s) : Canonical (s.fetchThread h va).2 := by
  have left : Canonical (s.leavesCluster h 64 0 (.tlbWalkComplete h va .fetch) fun s => s) := s.leavesCluster_canonical _ _ _ _ _ _
      (fun u hu => hu) hs
  have arrived (key : Nat) (u : State) (hu : Canonical u) : Canonical (u.arrivesAt key 64 (.tlbWalkComplete h va .fetch) fun s => s) :=
    u.arrivesAt_canonical _ _ _ _ (fun u hu => hu) hu
  grind [State.fetchThread, State.later_canonical, State.modThread_canonical, State.cachedParcel_canonical, State.threadJoins_canonical]
@[simp] theorem State.fetchPump_canonical (s : State) (c : Nat) (va : Word) (hs : Canonical s) : Canonical (s.fetchPump c va).2 := by
  unfold State.fetchPump
  dsimp only
  repeat' split
  all_goals simp [hs]
@[simp] theorem State.fetch_canonical (s : State) (va : Word) (hs : Canonical s) : Canonical (s.fetch va).2 := by
  unfold State.fetch; split <;> simp [hs]
@[simp] theorem State.fetchInsn_canonical (s : State) (va : Word) (hs : Canonical s) : Canonical (s.fetchInsn va).2.2 := by
  grind [State.fetchInsn, State.fetch_canonical]
@[simp] theorem State.slotTaken_canonical (s : State) (h place : Nat) (hs : Canonical s) : Canonical (s.slotTaken h place) := by
  grind [State.slotTaken, State.modCore_canonical, Core.canonical_def, canonical_same]
@[simp] theorem State.skipPlace_canonical (s : State) (place : Nat) (hs : Canonical s) : Canonical (s.skipPlace place) := by
  simp [State.skipPlace, hs]
@[simp] theorem State.useBrkSkip_canonical (s : State) (h : Nat) (hs : Canonical s) : Canonical (s.useBrkSkip h) := by simp [State.useBrkSkip, hs]
@[simp] theorem State.spendBrkSkip_canonical (s : State) (h : Nat) (had : Bool) (hs : Canonical s) : Canonical (s.spendBrkSkip h had) := by
  simp [State.spendBrkSkip, hs]
@[simp] theorem State.modGang_canonical (s : State) (leader : Nat) (f : Gang → Gang) (hs : Canonical s) : Canonical (s.modGang leader f) := by
  simp +contextual [State.modGang, hs, rising_tmod]
@[simp] theorem State.onPath_canonical (s : State) (h : Nat) (p : Path) (hs : Canonical s) : Canonical (s.onPath h p) := by simp [State.onPath, hs]
theorem followerEffect_canonical (i : Instr) (leader h : Nat) (s t : State) (e : followerEffect i leader h s = some t) (hs : Canonical s) :
    Canonical t := by
  have traced (cl kind g cause : Nat) (pc : Word) (c : Prop) [Decidable c] : Canonical (if c then traceEvent cl kind g cause pc s else s) :=
    State.ite_canonical (traceEvent_canonical s hs _ _ _ _ _) hs
  unfold followerEffect at e
  dsimp only at e
  split at e <;> cases e <;> simp [traced]
@[simp] theorem State.issued_canonical (s : State) (h place : Nat) (i : Instr) (had : Bool) (hs : Canonical s) :
    Canonical (s.issued h place i had) := by
  grind [State.issued, State.skipPlace_canonical, State.slotTaken_canonical, State.spendBrkSkip_canonical, canonical_same]
@[simp] theorem State.movePath_canonical (s : State) (leader : Nat) (ms : List Nat) (p : Path) (hs : Canonical s) :
    Canonical (s.movePath leader ms p) := by
  grind [State.movePath, State.foldl_canonical, State.modGang_canonical, State.onPath_canonical]
@[simp] theorem State.keepFetch_canonical (s u : State) (core : Nat) (hu : Canonical u) (hs : Canonical s) : Canonical (s.keepFetch u core) := by
  have kept := s.modCore_canonical hs core
      (fun k => { k with icache := (u.core core).icache }) fun k hk => { hk with icache := (hu.core core).icache }
  exact { kept with }
@[simp] theorem State.holdTimed_canonical (s : State) (hs : Canonical s) : Canonical s.holdTimed := by
  grind [State.holdTimed, State.clusters_canonical, State.foldl_canonical, State.pauseSlices_canonical, State.pauseTimed_canonical]

end Sys2Proof.Machine
end

section
/-!
SUPPORT for O59. Keys, the checks before an instruction, and each instruction or step of an engine that is more than one use of a shared
operation.
-/

namespace Sys2Proof.Machine
open Spec (Rising)

/-! ### Keys and the bytes of memory -/

@[simp] theorem State.rekeyLine_canonical (s : State) (key ks c : Nat) (hs : Canonical s) : Canonical (s.rekeyLine key ks c) := by
  unfold State.rekeyLine
  dsimp only
  generalize s.readBytes _ ks 256 = bs
  split
  · refine { hs with lines := tset_rising _ _ _ hs.lines, mem := memWrite_wf _ _ _ hs.mem, tags := ?_ }
    split
    · exact tset_rising _ _ _ hs.tags
    · exact hs.tags
  · exact hs
@[simp] theorem State.rekey_canonical (s : State) (key ks : Nat) (hs : Canonical s) : Canonical (s.rekey key ks) := by
  unfold State.rekey
  split
  · exact hs
  next c _ =>
    have line := s.rekeyLine_canonical key ks c hs
    dsimp only
    generalize s.rekeyLine key ks c = t at line
    generalize t.readBytes _ ks 256 = bs
    split
    · have tags (ls : List Nat) : Rising (ls.foldl (fun u i => if (tfind u i).isSome then u else tset u i c) t.tags) := by
        refine rising_foldl _ _ _ (fun u i hu => ?_) line.tags
        split
        · exact hu
        · exact tset_rising _ _ _ hu
      exact { line with tags := tags _ }
    · split
      · exact line
      · exact { line with mem := memWrite_wf _ _ _ line.mem, tags := tset_rising _ _ _ line.tags }
@[simp] theorem State.writeBytes_canonical (s : State) (key ks : Nat) (bs : List Byte) (hs : Canonical s) : Canonical (s.writeBytes key ks bs) := by
  have keyed := State.forUpto_canonical ((key + bs.length - 1) / 256 + 1 - key / 256) (fun i u => u.rekey (key + 256 * i) ks) s
    (fun u i hu => u.rekey_canonical _ _ hu) hs
  unfold State.writeBytes
  exact { keyed with mem := memWrite_wf _ _ _ keyed.mem }
@[simp] theorem State.zeroRange_canonical (s : State) (a n : Nat) (hs : Canonical s) : Canonical (s.zeroRange a n) :=
  { hs with mem := memClear_wf _ _ _ hs.mem, tags := rising_filter _ _ hs.tags, lines := rising_filter _ _ hs.lines }

/-! ### Checks before an instruction's own effect -/

@[simp] theorem checkedBy_canonical (i : Instr) (pre : State → Option (Nat × Word)) (s : State) (f : State → State) (hs : Canonical s)
    (hf : ∀ u, Canonical u → Canonical (f u)) : AnsCanonical (checkedBy i pre s f) := by
  unfold checkedBy
  rw [ansCanonical_next_iff]
  repeat' split
  all_goals simp [hs, hf]
@[simp] theorem checked_canonical (i : Instr) (s : State) (f : State → State) (hs : Canonical s)
    (hf : ∀ u, Canonical u → Canonical (f u)) : AnsCanonical (checked i s f) := checkedBy_canonical i _ s f hs hf

@[simp] theorem result_canonical (i : Instr) (d : Reg) (s : State) (f : State → Word) (hs : Canonical s) : AnsCanonical (result i d s f) := by
  grind [result, State.pass_canonical, State.setX_canonical, checked_canonical]
@[simp] theorem onEvent_canonical (s : State) (f : Event → State) (hs : Canonical s) (hf : ∀ e, Canonical (f e)) : AnsCanonical (onEvent s f) := by
  unfold onEvent
  rw [ansCanonical_next_iff]
  split
  · exact hf _
  · exact hs

/-! ### Homes, locks and coherence -/

/-! ### Partitions and contexts -/

/-! ### Integers -/

@[simp] theorem alu2_canonical (i : Instr) (b a d : Reg) (s : State) (f : Word → Word → Word) (hs : Canonical s) :
    AnsCanonical (alu2 i b a d s f) := by
  simp [alu2, hs]
@[simp] theorem alu1_canonical (i : Instr) (a d : Reg) (s : State) (f : Word → Word) (hs : Canonical s) : AnsCanonical (alu1 i a d s f) := by
  simp [alu1, hs]

/-! ### Translation -/

@[simp] theorem State.walkLeaf_canonical (s : State) (v : View) (va : Nat) (acc : Access) (r : Except Nat Walked) (hs : Canonical s) :
    Canonical (s.walkLeaf v va acc r).2 := by
  have put (a leaf old : Nat) : Canonical (if leaf = old then s else { s with mem := memWrite s.mem a (toBytes 8 leaf) }) :=
    State.ite_canonical hs { hs with mem := memWrite_wf _ _ _ hs.mem }
  cases r with
  | error c => exact hs
  | ok w =>
    unfold State.walkLeaf
    dsimp only
    split
    · exact hs
    · exact put _ _ _
@[simp] theorem State.walk_canonical (s : State) (v : View) (va : Nat) (acc : Access) (hs : Canonical s) : Canonical (s.walk v va acc).2 := by
  unfold State.walk
  split
  · exact hs
  next x _ =>
    have walked := (s.afterWalk v (s.walkOf v x va).2).walkLeaf_canonical v va acc (s.walkOf v x va).1
      (s.afterWalk_canonical v _ (s.walkFrom_met _ _ _ _ _) hs)
    dsimp only
    generalize (s.afterWalk v (s.walkOf v x va).2).walkLeaf v va acc (s.walkOf v x va).1 = y at walked
    obtain ⟨_ | _, t⟩ := y
    · exact walked
    · exact t.fillTlb_canonical v _ walked
@[simp] theorem State.translateNow_canonical (s : State) (v : View) (va : Word) (acc : Access) (hs : Canonical s) :
    Canonical (s.translateNow v va acc).2 := by grind [State.translateNow, State.walkLeaf_canonical, State.engineJoins_canonical]
@[simp] theorem State.checkRange_canonical (s : State) (v : View) (va n : Nat) (acc : Access) (hs : Canonical s) :
    Canonical (s.checkRange v va n acc).2 := by grind [State.checkRange, State.foldlSnd_canonical, State.translateNow_canonical]
@[simp] theorem State.readVirt_canonical (s : State) (v : View) (va n : Nat) (hs : Canonical s) : Canonical (s.readVirt v va n).2 := by
  grind [State.readVirt, State.foldlSnd_canonical, State.translateNow_canonical, State.holdLines_canonical]

/-! ### Homes, locks and coherence -/

@[simp] theorem State.seeNotify_canonical (s : State) (key n : Nat) (hs : Canonical s) : Canonical (s.seeNotify key n) := by
  unfold State.seeNotify
  refine State.foldl_canonical _ _ _ (fun u x hu => ?_) hs
  dsimp only
  repeat' split
  all_goals simp [hu]
@[simp] theorem State.seeDoorbell_canonical (s : State) (key n : Nat) (hs : Canonical s) : Canonical (s.seeDoorbell key n) := by
  grind [State.seeDoorbell, State.ctxs_canonical, State.foldl_canonical, State.forUpto_canonical, State.later_canonical, endLaunch_canonical,
      putRaw_canonical]
@[simp] theorem State.afterWrite_canonical (s : State) (key n delay : Nat) (hs : Canonical s) : Canonical (s.afterWrite key n delay) := by
  grind [State.afterWrite, State.holdLines_canonical, State.recordWrites_canonical, State.seeDoorbell_canonical, State.seeNotify_canonical,
    State.wakeCounters_canonical]
@[simp] theorem State.recordReleases_canonical (s : State) (hs : Canonical s) : Canonical s.recordReleases := by
  unfold State.recordReleases
  refine State.foldl_canonical _ _ _ (fun u x hu => ?_) hs
  split <;> simp [hu]
@[simp] theorem State.landMem_canonical (s : State) (h key ks : Nat) (bs : List Byte) (delay : Nat) (hs : Canonical s) :
    Canonical (s.landMem h key ks bs delay) := by
  grind [State.landMem, State.writeBytes_canonical, State.afterWrite_canonical, State.later_canonical, State.holdLines_canonical]
@[simp] theorem State.withPhys_canonical (s : State) (va : Word) (acc : Access) (f : Phys → Nat → State → State) (hs : Canonical s) (hf : ∀
    (x0 : Phys) (x1 : Nat) u, Canonical u → Canonical (f x0 x1 u)) :
    Canonical (s.withPhys va acc f) := by
  grind [State.withPhys, State.translateNow_canonical, State.blocks_canonical, State.trap_canonical, State.fillTlb_canonical,
      State.threadJoins_canonical]

/-! ### Control registers -/

@[simp] theorem csrModify_canonical (i : Instr) (n : BitVec 12) (s : State) (skip : Bool) (f : Word → Word) (hs : Canonical s) :
    AnsCanonical (csrModify i n s skip f) := by
  grind [csrModify, State.csrWrite_canonical, State.pass_canonical, State.seeInterrupts_canonical, checkedBy_canonical]
@[simp] theorem execCsrr_canonical (n : BitVec 12) (d : Reg) (s : State) (hs : Canonical s) : AnsCanonical (execCsrr n d s) := by
  grind [execCsrr, State.pass_canonical, State.setX_canonical, checkedBy_canonical]
@[simp] theorem execWellwinMirrorUpdate_canonical (s : State) (hs : Canonical s) : AnsCanonical (execWellwinMirrorUpdate s) := by
  grind [execWellwinMirrorUpdate, State.modCore_canonical, onEvent_canonical, tset_rising, terase_rising, Core.canonical_def, canonical_same]

/-! ### Control transfers -/

@[simp] theorem compareSkip_canonical (i : Instr) (k : BitVec 2) (c : BitVec 3) (s : State) (a b : Word) (hs : Canonical s) :
    AnsCanonical (compareSkip i k c s a b) := by grind [compareSkip, State.modSeq_canonical, State.pass_canonical, checked_canonical]
@[simp] theorem execBCc_canonical (o : BitVec 10) (b a : Reg) (p : BitVec 2) (c : BitVec 3) (s : State) (hs : Canonical s) :
    AnsCanonical (execBCc o b a p c s) := by grind [execBCc, State.pass_canonical, checked_canonical, transferTo_canonical]
@[simp] theorem execBr_canonical (i : BitVec 25) (s : State) (hs : Canonical s) : AnsCanonical (execBr i s) := by simp +contextual [execBr, hs]
@[simp] theorem execCall_canonical (i : BitVec 25) (s : State) (hs : Canonical s) : AnsCanonical (execCall i s) := by
  grind [execCall, State.setX_canonical, checked_canonical, transferTo_canonical]
@[simp] theorem execJalr_canonical (i : BitVec 15) (a d : Reg) (s : State) (hs : Canonical s) : AnsCanonical (execJalr i a d s) := by
  grind [execJalr, State.setX_canonical, checked_canonical, transferTo_canonical]
@[simp] theorem execLoop_canonical (i : BitVec 15) (d : Reg) (s : State) (hs : Canonical s) : AnsCanonical (execLoop i d s) := by
  grind [execLoop, State.pass_canonical, State.setX_canonical, checkedBy_canonical, transferTo_canonical]
@[simp] theorem execNop16_canonical (s : State) (hs : Canonical s) : AnsCanonical (execNop16 s) := by simp +contextual [execNop16, hs]
@[simp] theorem execNop_canonical (s : State) (hs : Canonical s) : AnsCanonical (execNop s) := by simp +contextual [execNop, hs]
@[simp] theorem execTrap_canonical (a : Reg) (s : State) (hs : Canonical s) : AnsCanonical (execTrap a s) := by simp +contextual [execTrap, hs]
@[simp] theorem execBkpt_canonical (s : State) (hs : Canonical s) : AnsCanonical (execBkpt s) := by simp +contextual [execBkpt, hs]
@[simp] theorem execRpt_canonical (p q r : BitVec 1) (n : BitVec 6) (s : State) (hs : Canonical s) : AnsCanonical (execRpt p q r n s) := by
  simp +contextual [execRpt, hs]
@[simp] theorem execIllegalInstruction_canonical (s : State) (hs : Canonical s) : AnsCanonical (execIllegalInstruction s) := by
  unfold execIllegalInstruction
  split <;> simp [hs]

/-! ### System instructions -/

@[simp] theorem execFencei_canonical (s : State) (hs : Canonical s) : AnsCanonical (execFencei s) := by
  grind [execFencei, State.modCore_canonical, State.pass_canonical, checked_canonical, Core.canonical_def, canonical_same]
@[simp] theorem execEret_canonical (a : Reg) (s : State) (hs : Canonical s) : AnsCanonical (execEret a s) := by
  grind [execEret, checkedBy_canonical, State.modSelf_canonical, transferTo_canonical]
@[simp] theorem execHalt_canonical (s : State) (hs : Canonical s) : AnsCanonical (execHalt s) := by
  grind [execHalt, State.modSelf_canonical, State.pass_canonical, checkedBy_canonical]
@[simp] theorem execTlbi_canonical (b a : Reg) (s : State) (hs : Canonical s) : AnsCanonical (execTlbi b a s) := by
  grind [execTlbi, State.blocks_canonical, State.later_canonical, checkedBy_canonical]
@[simp] theorem execTlbiRetire_canonical (s : State) (hs : Canonical s) : AnsCanonical (execTlbiRetire s) := by
  grind [execTlbiRetire, State.goesOn_canonical, State.invalidate_canonical, State.later_canonical, State.passOf_canonical, onEvent_canonical]
@[simp] theorem wakeWaits_canonical (die : Nat) (m : Miss) (cause : Option Nat) (s : State) (hs : Canonical s) :
    Canonical (wakeWaits die m cause s) := by
  grind [wakeWaits, State.foldl_canonical, State.walk_canonical, State.modThread_canonical, State.goesOn_canonical]
@[simp] theorem wakeEngines_canonical (die : Nat) (m : Miss) (s : State) (hs : Canonical s) : Canonical (wakeEngines die m s) := by
  unfold wakeEngines
  refine State.foldl_canonical _ _ _ (fun u x hu => ?_) hs
  split
  simp [hu]
@[simp] theorem missOver_canonical (die id : Nat) (m : Miss) (cause : Option Nat) (s : State) (hs : Canonical s) :
    Canonical (missOver die id m cause s) := by
  grind [missOver, State.modDie_canonical, nextMiss_canonical, wakeEngines_canonical, wakeWaits_canonical, terase_rising, Die.canonical_def,
      canonical_same]
@[simp] theorem walkerReads_canonical (die id : Nat) (m : Miss) (a : Nat) (s : State) (hs : Canonical s) : Canonical (walkerReads die id m a s) := by
  grind [walkerReads, State.atUnits_canonical, State.arrivesAt_canonical, missOver_canonical, State.later_canonical, State.holdLine_canonical,
      State.modMiss_canonical,
      State.walkOn_canonical]
@[simp] theorem execTlbWalkComplete_canonical (s : State) (hs : Canonical s) : AnsCanonical (execTlbWalkComplete s) := by
  unfold execTlbWalkComplete
  refine onEvent_canonical _ _ hs fun e => ?_
  repeat' split
  all_goals simp [hs]
@[simp] theorem supIssue_canonical (i : Instr) (kind : SupKind) (handle sel v : Word) (rd : Reg) (s : State) (hs : Canonical s) :
    AnsCanonical (supIssue i kind handle sel v rd s) := by grind [supIssue, State.blocks_canonical, State.later_canonical, checkedBy_canonical]
@[simp] theorem execSupervisorOpArrival_canonical (s : State) (hs : Canonical s) : AnsCanonical (execSupervisorOpArrival s) := by
  unfold execSupervisorOpArrival
  refine onEvent_canonical _ _ hs fun e => ?_
  split <;> simp [hs]
@[simp] theorem execSupervisorReply_canonical (s : State) (hs : Canonical s) : AnsCanonical (execSupervisorReply s) := by
  unfold execSupervisorReply
  refine onEvent_canonical _ _ hs fun e => ?_
  split
  next op r =>
    split
    · cases r <;> simp [hs]
    · split
      · cases r <;> grind [State.modThread_canonical, State.passOf_canonical, State.goesOn_canonical, parkTrap_canonical]
      · exact hs
  · exact hs

/-! ### Synchronization -/

@[simp] theorem execTstart_canonical (b a d : Reg) (s : State) (hs : Canonical s) : AnsCanonical (execTstart b a d s) := by
  refine checkedBy_canonical _ _ _ _ hs fun u hu => ?_
  have queues : Canonical (u.modCore u.myCore fun k => k.clearPair (slotOf (8 * u.myCore + wfield (u.getX b) 2 0) % 4)) :=
    u.modCore_canonical hu _ _ fun k hk => k.clearPair_canonical hk _
  exact State.later_canonical _ (State.pass_canonical _ (State.place_canonical _ _ _ (State.ite_canonical queues hu)) _) _ _
@[simp] theorem execTstartReady_canonical (s : State) (hs : Canonical s) : AnsCanonical (execTstartReady s) := by
  unfold execTstartReady
  refine onEvent_canonical _ _ hs fun e => ?_
  repeat' split
  all_goals simp [hs]
@[simp] theorem execYield_canonical (s : State) (hs : Canonical s) : AnsCanonical (execYield s) := by
  grind [execYield, State.atCycle_canonical, State.blocks_canonical, State.modSelf_canonical, State.pass_canonical, checked_canonical]
@[simp] theorem execYieldWake_canonical (s : State) (hs : Canonical s) : AnsCanonical (execYieldWake s) := by
  unfold execYieldWake
  refine onEvent_canonical _ _ hs fun e => ?_
  split <;> simp [hs]
@[simp] theorem execGang_canonical (b d : Reg) (s : State) (hs : Canonical s) : AnsCanonical (execGang b d s) := by
  grind [execGang, State.blocks_canonical, State.dropEvents_canonical, State.later_canonical, checkedBy_canonical]
@[simp] theorem execGangForm_canonical (s : State) (hs : Canonical s) : AnsCanonical (execGangForm s) := by
  unfold execGangForm
  refine onEvent_canonical _ _ hs fun e => ?_
  split
  · refine State.ite_canonical hs (State.foldlFst_canonical _ _ _ (fun u x hu => ?_) hs)
    simpa using u.1.modThread_canonical hu _ _
  · exact hs
@[simp] theorem execGangTimeout_canonical (s : State) (hs : Canonical s) : AnsCanonical (execGangTimeout s) := by
  grind [execGangTimeout, State.modThread_canonical, State.passOf_canonical, State.setX_canonical, State.wake_canonical, onEvent_canonical]
@[simp] theorem execUngang_canonical (s : State) (hs : Canonical s) : AnsCanonical (execUngang s) := by
  grind [execUngang, State.modSelf_canonical, State.pass_canonical, checked_canonical]
@[simp] theorem execSend_canonical (b a : Reg) (n : BitVec 2) (s : State) (hs : Canonical s) : AnsCanonical (execSend b a n s) := by
  grind [execSend, State.atCycle_canonical, State.blocks_canonical, State.claimSlot_canonical, State.claims_canonical, State.foldl_canonical,
    State.modSelf_canonical, State.pass_canonical, State.sendFlit_canonical, checked_canonical]
@[simp] theorem execChannelClaim_canonical (s : State) (hs : Canonical s) : AnsCanonical (execChannelClaim s) := by
  unfold execChannelClaim
  refine onEvent_canonical _ _ hs fun e => ?_
  split
  · split
    · split
      next t claimed => exact State.wake_canonical _ (t.modThread_canonical (s.claimSlot_canonical _ _ _ _ claimed hs) _ _) _
      · exact hs
    · exact hs
  · exact hs
@[simp] theorem execFlitArrival_canonical (s : State) (hs : Canonical s) : AnsCanonical (execFlitArrival s) := by
  unfold execFlitArrival
  refine onEvent_canonical _ _ hs fun e => ?_
  dsimp only
  repeat' split
  all_goals simp [hs]
@[simp] theorem execRecvWake_canonical (s : State) (hs : Canonical s) : AnsCanonical (execRecvWake s) := by
  unfold execRecvWake
  refine onEvent_canonical _ _ hs fun e => ?_
  repeat' split
  all_goals simp [hs]
@[simp] theorem execRecv_canonical (n : BitVec 2) (a d : Reg) (s : State) (hs : Canonical s) : AnsCanonical (execRecv n a d s) := by
  grind [execRecv, checkedBy_canonical, State.blocks_canonical, takeFlit_canonical]
@[simp] theorem execRecvn_canonical (n : BitVec 2) (a d : Reg) (s : State) (hs : Canonical s) : AnsCanonical (execRecvn n a d s) := by
  grind [execRecvn, State.pass_canonical, State.setX_canonical, checkedBy_canonical, takeFlit_canonical]
@[simp] theorem execMon_canonical (a : Reg) (n : BitVec 2) (s : State) (hs : Canonical s) : AnsCanonical (execMon a n s) := by
  grind [execMon, State.armed_canonical, State.pass_canonical, checkedBy_canonical]
@[simp] theorem execMonG_canonical (a : Reg) (n : BitVec 2) (s : State) (hs : Canonical s) : AnsCanonical (execMonG a n s) := by
  grind [execMonG, State.armed_canonical, State.pass_canonical, State.withPhys_canonical, checked_canonical]
@[simp] theorem execMclr_canonical (n : BitVec 2) (s : State) (hs : Canonical s) : AnsCanonical (execMclr n s) := by
  grind [execMclr, State.modSelf_canonical, State.pass_canonical, checked_canonical]
@[simp] theorem execMwait_canonical (b : Reg) (m : BitVec 4) (d : Reg) (s : State) (hs : Canonical s) : AnsCanonical (execMwait b m d s) := by
  grind [execMwait, State.blocks_canonical, State.later_canonical, State.modSelf_canonical, State.pass_canonical, State.setX_canonical,
      checkedBy_canonical]
@[simp] theorem execMonitorWake_canonical (s : State) (hs : Canonical s) : AnsCanonical (execMonitorWake s) := by
  unfold execMonitorWake
  refine onEvent_canonical _ _ hs fun e => ?_
  repeat' split
  all_goals simp +contextual [hs]
@[simp] theorem execMwaitTimeout_canonical (s : State) (hs : Canonical s) : AnsCanonical (execMwaitTimeout s) := by
  unfold execMwaitTimeout
  refine onEvent_canonical _ _ hs fun e => ?_
  dsimp only
  repeat' split
  all_goals simp +contextual [hs]
@[simp] theorem execCntw_canonical (c : BitVec 3) (b a : Reg) (s : State) (hs : Canonical s) : AnsCanonical (execCntw c b a s) := by
  grind [execCntw, checkedBy_canonical, State.ordered_canonical, State.withPhys_canonical, State.stalls_canonical, State.blocks_canonical,
    State.sendFar_canonical]
@[simp] theorem execCntwWake_canonical (s : State) (hs : Canonical s) : AnsCanonical (execCntwWake s) := by
  unfold execCntwWake
  refine onEvent_canonical _ _ hs fun e => ?_
  repeat' split
  all_goals simp +contextual [hs]
@[simp] theorem execBar_canonical (b a d : Reg) (s : State) (hs : Canonical s) : AnsCanonical (execBar b a d s) := by
  grind [execBar, arrives_canonical, checkedBy_canonical, keptArrival_canonical]
@[simp] theorem execBara_canonical (b a d : Reg) (s : State) (hs : Canonical s) : AnsCanonical (execBara b a d s) := by
  simp +contextual [execBara, hs]
@[simp] theorem execBarw_canonical (a d : Reg) (s : State) (hs : Canonical s) : AnsCanonical (execBarw a d s) := by
  grind [execBarw, State.atCycle_canonical, State.modSelf_canonical, checkedBy_canonical, keptArrival_canonical]
@[simp] theorem execBarrierArrival_canonical (s : State) (hs : Canonical s) : AnsCanonical (execBarrierArrival s) := by
  unfold execBarrierArrival
  refine onEvent_canonical _ _ hs fun e => ?_
  repeat' split
  all_goals simp +contextual [hs]
@[simp] theorem execBarrierRelease_canonical (s : State) (hs : Canonical s) : AnsCanonical (execBarrierRelease s) := by
  unfold execBarrierRelease
  refine onEvent_canonical _ _ hs fun e => ?_
  split
  · refine State.foldl_canonical _ _ _ (fun u x hu => ?_) hs
    dsimp only
    repeat' split
    all_goals simp +contextual [hu]
  · exact hs
@[simp] theorem execBarrierTimeout_canonical (s : State) (hs : Canonical s) : AnsCanonical (execBarrierTimeout s) := by
  unfold execBarrierTimeout
  refine onEvent_canonical _ _ hs fun e => ?_
  split
  next h due =>
    have ends (b : Nat) (u : State) (hu : Canonical u) : Canonical (match (s.thread h).run with
        | .blocked (.barrier n _) => if n = b then u.together h 1 finBarrier else u
        | _ => u) := by
      repeat' split
      all_goals simp +contextual [hu]
    dsimp only
    split
    · exact State.ite_canonical (ends _ _ hs) (ends _ _ (by simp [hs]))
    · exact hs
  · exact hs
@[simp] theorem execInboxMessageArrival_canonical (s : State) (hs : Canonical s) : AnsCanonical (execInboxMessageArrival s) := by
  unfold execInboxMessageArrival
  refine onEvent_canonical _ _ hs fun e => ?_
  split
  next core ctx m =>
    have enters (v : Saved) (hv : v.Canonical) (f : Nat → Core → Core) (hf : ∀ n k, k.Canonical → (f n k).Canonical) :
        Saved.Canonical { v with cores := tmap f v.cores } := { hv with cores := hv.cores.tmap hf }
    have holds (k : Core) (hk : k.Canonical) : Core.Canonical { k with held := k.held ++ [m] } := { hk with }
    have away : Canonical (s.modCtx ctx fun x => { x with saved := x.saved.map fun v => { v with
        cores := tmap (fun n k => if n ≠ core then k else if 64 ≤ k.inbox.length then { k with held := k.held ++ [m] }
          else { k with inbox := k.inbox ++ [(s.cycle, m)] }) v.cores } }) := by
      refine s.modCtx_canonical hs _ _ fun x hx => { hx with saved := fun v e => ?_ }
      obtain ⟨w, ew, rfl⟩ := Option.map_eq_some_iff.mp e
      exact enters w (hx.saved w ew) _ fun n k hk => Core.ite_canonical hk (Core.ite_canonical (holds k hk) { hk with })
    exact State.ite_canonical away (State.ite_canonical hs (State.ite_canonical (s.modCore_canonical hs _ _ holds) (s.enterInbox_canonical _ _ hs)))
  · exact hs
@[simp] theorem execIbx_canonical (a d : Reg) (s : State) (hs : Canonical s) : AnsCanonical (execIbx a d s) := by
  grind [execIbx, checkedBy_canonical, State.gated_canonical, State.blocks_canonical, takeMsg_canonical]
@[simp] theorem execIbxn_canonical (a d : Reg) (s : State) (hs : Canonical s) : AnsCanonical (execIbxn a d s) := by
  grind [execIbxn, State.gated_canonical, State.pass_canonical, State.setX_canonical, checkedBy_canonical, takeMsg_canonical]
@[simp] theorem execUien_canonical (a d : Reg) (s : State) (hs : Canonical s) : AnsCanonical (execUien a d s) := by
  grind [execUien, State.modSelf_canonical, State.pass_canonical, State.seeInterrupts_canonical, State.setX_canonical, checked_canonical]
@[simp] theorem execUiret_canonical (s : State) (hs : Canonical s) : AnsCanonical (execUiret s) := by
  grind [execUiret, State.jump_canonical, State.modSelf_canonical, State.seeInterrupts_canonical, checkedBy_canonical, traceEvent_canonical]

/-! ### Loads and stores -/

@[simp] theorem loadFrom_canonical (acq : Option Nat) (a : Word) (size : Nat) (nat : Bool) (d : Reg) (s : State) (hs : Canonical s) :
    Canonical (loadFrom acq a size nat d s) := by
  unfold loadFrom
  refine s.ordered_canonical _ _ (fun u hu => u.withPhys_canonical _ _ _ hu fun p n v hv => v.ownDevice_canonical _ _ _ (fun x hx => ?_) hv) hs
  dsimp only
  grind [State.stalls_canonical, State.retires_canonical, State.await_canonical, State.sendFar_canonical, State.pass_canonical, State.setX_canonical]
@[simp] theorem storeTo_canonical (rel : Option Nat) (a : Word) (bs : List Byte) (s : State) (hs : Canonical s) : Canonical (storeTo rel a bs s) := by
  grind [storeTo, State.ordered_canonical, State.withPhys_canonical, State.ownDevice_canonical, State.pass_canonical, State.stalls_canonical,
      State.sendFar_canonical,
      State.flush_canonical, State.putSector_canonical, State.sendWith_canonical]
@[simp] theorem execLd_canonical (p : BitVec 9) (o : BitVec 3) (n : BitVec 1) (z : BitVec 2) (a d : Reg) (s : State) (hs : Canonical s) :
    AnsCanonical (execLd p o n z a d s) := by simp +contextual [execLd, hs]
@[simp] theorem execSt_canonical (p : BitVec 9) (o : BitVec 3) (z : BitVec 2) (a d : Reg) (s : State) (hs : Canonical s) :
    AnsCanonical (execSt p o z a d s) := by simp +contextual [execSt, hs]
@[simp] theorem execLdl_canonical (p : BitVec 9) (o : BitVec 3) (n : BitVec 1) (z : BitVec 2) (a d : Reg) (s : State) (hs : Canonical s) :
    AnsCanonical (execLdl p o n z a d s) := by
  grind [execLdl, State.await_canonical, State.ordered_canonical, State.pass_canonical, State.retires_canonical, State.sendFar_canonical,
      checkedBy_canonical,
    raceTrap_canonical]
@[simp] theorem execStl_canonical (p : BitVec 9) (o : BitVec 3) (z : BitVec 2) (a d : Reg) (s : State) (hs : Canonical s) :
    AnsCanonical (execStl p o z a d s) := by
  grind [execStl, State.later_canonical, State.ordered_canonical, State.pass_canonical, State.sendFar_canonical, State.sendWith_canonical,
    checkedBy_canonical, raceTrap_canonical]
@[simp] theorem execWellStoreLand_canonical (s : State) (hs : Canonical s) : AnsCanonical (execWellStoreLand s) := by
  grind [execWellStoreLand, State.landWell_canonical, State.later_canonical, onEvent_canonical]

@[simp] theorem putAtomic_canonical (r : FarReq) (new : List Byte) (s : State) (hs : Canonical s) : Canonical (putAtomic r new s).2 := by
  unfold putAtomic; split <;> simp [hs]
@[simp] theorem performForeign_canonical (r : FarReq) (s : State) (hs : Canonical s) : Canonical (performForeign r s) := by
  unfold performForeign
  repeat' split
  all_goals simp [hs]
@[simp] theorem performFar_canonical (r : FarReq) (s : State) (hs : Canonical s) : Canonical (performFar r s) := by
  grind [performFar, State.foldl_canonical, State.landMem_canonical, putAtomic_canonical, State.modThread_canonical, State.later_canonical,
      State.holdLine_canonical,
      State.answered_canonical, State.fillSector_canonical, State.refresh_canonical, State.dropClean_canonical, deliver_canonical,
          pumpReadDone_canonical, amoFlags_canonical,
      redNew_canonical]
@[simp] theorem enterHome_canonical (r : FarReq) (s : State) (f : State → State) (hs : Canonical s) (hf : ∀ u, Canonical u → Canonical (f u)) :
    Canonical (enterHome r s f) := by grind [enterHome, State.arrivesAt_canonical]
@[simp] theorem tryFar_canonical (r : FarReq) (s : State) (hs : Canonical s) : Canonical (tryFar r s) := by
  have asked := State.snoops_canonical s r
  unfold tryFar
  generalize s.snoops r = x at asked ⊢
  obtain ⟨b, t⟩ := x
  cases b
  all_goals
    dsimp only at asked ⊢
    repeat' split
    all_goals simp [asked, hs]
@[simp] theorem execFarAccessPerform_canonical (s : State) (hs : Canonical s) : AnsCanonical (execFarAccessPerform s) := by
  unfold execFarAccessPerform
  refine onEvent_canonical _ _ hs fun e => ?_
  split
  · split
    · simp [hs]
    · split
      · simp [hs]
      · exact enterHome_canonical _ _ _ hs fun u hu => tryFar_canonical _ u hu
  · exact hs
@[simp] theorem execRedAck_canonical (s : State) (hs : Canonical s) : AnsCanonical (execRedAck s) := by
  unfold execRedAck
  refine onEvent_canonical _ _ hs fun e => ?_
  split <;> simp [hs]
@[simp] theorem execSliceLineEvict_canonical (s : State) (hs : Canonical s) : AnsCanonical (execSliceLineEvict s) := by
  unfold execSliceLineEvict
  refine onEvent_canonical _ _ hs fun e => ?_
  split
  · exact { hs with lines := terase_rising _ _ hs.lines }
  · exact hs
@[simp] theorem execHasha_canonical (a d : Reg) (s : State) (hs : Canonical s) : AnsCanonical (execHasha a d s) := by
  grind [execHasha, State.awaitLevel_canonical, State.await_canonical, State.pass_canonical, State.setX_canonical, State.withPhys_canonical,
      checked_canonical]
@[simp] theorem execFence_canonical (q : BitVec 3) (s : State) (hs : Canonical s) : AnsCanonical (execFence q s) := by
  grind [execFence, checked_canonical, State.withRelease_canonical, State.modSelf_canonical, State.pass_canonical, State.trap_canonical,
    State.acquire_canonical]
@[simp] theorem State.sectorsIn_canonical (s : State) (v : View) (acc : Access) (va n : Nat) (ok : Phys → Bool) (hs : Canonical s) :
    Canonical (s.sectorsIn v acc va n ok).2 := by grind [State.sectorsIn, State.foldlSnd_canonical, State.translateNow_canonical]
@[simp] theorem cacheRange_canonical (a n : Word) (s : State) (hs : Canonical s) : Canonical (cacheRange a n s).2 := by
  unfold cacheRange; split <;> simp [hs]
@[simp] theorem writeBackRange_canonical (a n : Word) (s : State) (f : (Nat → Bool) → State → State) (hs : Canonical s) (hf : ∀ (x0 :
    (Nat → Bool)) u, Canonical u → Canonical (f x0 u)) :
    Canonical (writeBackRange a n s f) := by
  grind [writeBackRange, State.flush_canonical, State.modThread_canonical, State.pass_canonical, State.stalls_canonical, cacheRange_canonical]
@[simp] theorem execCwb_canonical (b a : Reg) (s : State) (hs : Canonical s) : AnsCanonical (execCwb b a s) := by
  grind [execCwb, checkedBy_canonical, State.ordered_canonical, writeBackRange_canonical]
@[simp] theorem execCinv_canonical (b a : Reg) (s : State) (hs : Canonical s) : AnsCanonical (execCinv b a s) := by
  grind [execCinv, State.modCore_canonical, State.ordered_canonical, checkedBy_canonical, writeBackRange_canonical, Core.canonical_def,
      canonical_same]
@[simp] theorem execPfx_canonical (b a : Reg) (s : State) (hs : Canonical s) : AnsCanonical (execPfx b a s) := by
  grind [execPfx, State.foldl_canonical, checkedBy_canonical, State.ordered_canonical, State.sectorsIn_canonical, State.pass_canonical,
      State.sendFar_canonical]

/-! ### Atomics -/

@[simp] theorem atomicGo_canonical (acq : Option Nat) (a : Word) (size : Nat) (s : State) (f : Phys → Nat → State → State) (hs : Canonical s)
    (hf : ∀ (x0 : Phys) (x1 : Nat) u, Canonical u → Canonical (f x0 x1 u)) :
    Canonical (atomicGo acq a size s f) := by
  grind [atomicGo, State.ordered_canonical, State.withPhys_canonical, State.ownDevice_canonical, State.stalls_canonical, State.dropSector_canonical]
@[simp] theorem amo_canonical (i : Instr) (op : AmoOp) (q : BitVec 3) (k : BitVec 2) (w : BitVec 1) (b a d : Reg) (s : State) (hs : Canonical s) :
    AnsCanonical (amo i op q k w b a d s) := by
  grind [amo, State.await_canonical, State.modSelf_canonical, State.pass_canonical, State.retires_canonical, State.sendWith_canonical,
      atomicGo_canonical,
    checkedBy_canonical, tset_rising]
@[simp] theorem red_canonical (i : Instr) (op : AmoOp) (q : BitVec 3) (k : BitVec 2) (w : BitVec 1) (b a : Reg) (s : State) (hs : Canonical s) :
    AnsCanonical (red i op q k w b a s) := by grind [red, State.pass_canonical, State.sendWith_canonical, atomicGo_canonical, checkedBy_canonical]

/-! ### Tensor descriptors -/

@[simp] theorem State.segsOf_canonical (s : State) (v : View) (acc : Access) (ps : List Piece) (hs : Canonical s) :
    Canonical (s.segsOf v acc ps).2 := by
  unfold State.segsOf
  refine List.foldlRecOn (motive := fun x : Except MemFault (List Seg) × Option Nat × State => Canonical x.2.2) _ _ hs ?_
  intro x hx y _
  grind [State.translateNow_canonical]
@[simp] theorem State.scatter_canonical (s : State) (h : Nat) (l : List Seg) (buf : List Byte) (hs : Canonical s) :
    Canonical (s.scatter h l buf) := by
  unfold State.scatter
  refine State.foldl_canonical _ _ _ (fun u x hu => ?_) hs
  dsimp only
  repeat' split
  all_goals simp [hu]
@[simp] theorem execTdef_canonical (t : BitVec 8) (a : Reg) (s : State) (hs : Canonical s) : AnsCanonical (execTdef t a s) := by
  grind [execTdef, checkedBy_canonical, State.translateNow_canonical, State.ordered_canonical, State.blocks_canonical, State.trap_canonical,
      State.awaitAcks_canonical,
      startDescRead_canonical]
@[simp] theorem execTinv_canonical (t : BitVec 8) (s : State) (hs : Canonical s) : AnsCanonical (execTinv t s) := by
  grind [execTinv, checkedBy_canonical, State.ordered_canonical, State.pass_canonical, State.blocks_canonical, State.setTensor_canonical,
    State.awaitAcks_canonical]
@[simp] theorem execTableChangeAck_canonical (s : State) (hs : Canonical s) : AnsCanonical (execTableChangeAck s) := by
  unfold execTableChangeAck
  refine onEvent_canonical _ _ hs fun e => ?_
  repeat' split
  all_goals simp [hs]
@[simp] theorem execTqry_canonical (t : BitVec 8) (b d : Reg) (s : State) (hs : Canonical s) : AnsCanonical (execTqry t b d s) := by
  grind [execTqry, State.pass_canonical, State.setX_canonical, checkedBy_canonical]

/-! ### Tile accesses -/

@[simp] theorem performTile_canonical (id : Nat) (a : TAcc) (s : State) (hs : Canonical s) : Canonical (performTile id a s) := by
  have pruned := s.pruneLocks_canonical hs
  have released (l : List Lock) : Canonical { s.pruneLocks with locks := l, taccs := terase s.pruneLocks.taccs id } :=
    { pruned with taccs := terase_rising _ _ pruned.taccs }
  have copies (u : State) (hu : Canonical u) (c : Nat) (buf : List Byte) : Canonical { u with copies := match tfind u.copies c with
      | some x => tset u.copies c { x with buf := buf }
      | none => u.copies } := by
    refine { hu with copies := ?_ }
    dsimp only
    split
    · exact tset_rising _ _ _ hu.copies
    · exact hu.copies
  unfold performTile
  extract_lets p u
  have hu : Canonical u := released _
  clear_value u
  have held := u.holdSegs_canonical a.segs hu
  have written := u.scatter_canonical a.h a.segs a.buf hu
  split
  case h_1 => grind [State.tileAnswered_canonical, State.landWell_canonical, State.acquire_canonical, State.passOf_canonical, State.wake_canonical]
  case h_7 =>
    have chosen (l : List (Nat × TAcc)) : Canonical (if l = [] then (0, u) else u.choose 2).2 := by
      split
      · exact hu
      · exact u.choose_canonical hu 2
    exact State.foldl_canonical _ _ _ (fun v x hv => landDrawRead_canonical _ _ _ _ hv) (State.holdSegs_canonical _ _ (chosen _))
  case h_8 => exact State.later_canonical _ (copies _ (State.copyTileAnswered_canonical _ _ _ held) _ _) _ _
  all_goals simp [hu, held, written]
@[simp] theorem grantUnit_enter_canonical (h id : Nat) (a : TAcc) (u : LockUnit) (s : State) (f : TAcc → State → State) (hs : Canonical s)
    (hf : ∀ b v, Canonical v → Canonical (f b v)) : Canonical (grantUnit.enter h id a u s f) := by
  unfold grantUnit.enter
  split
  · exact hf _ _ hs
  · refine State.ite_canonical (hf _ _ hs) (State.arrivesAt_canonical _ _ _ _ _ (hf _) ?_)
    exact { hs with taccs := tset_rising _ _ _ hs.taccs }
@[simp] theorem grantUnit_canonical (h id : Nat) (a : TAcc) (s : State) (hs : Canonical s) : Canonical (grantUnit h id a s) := by
  have put (u : State) (hu : Canonical u) (b : TAcc) : Canonical { u with taccs := tset u.taccs id b } :=
    { hu with taccs := tset_rising _ _ _ hu.taccs }
  have again (u : State) (hu : Canonical u) (b : TAcc) (n : Nat) :
      Canonical (State.later { u with taccs := tset u.taccs id b } n (.tileLockGrant h id)) := State.later_canonical _ (put u hu b) _ _
  have locked (u : State) (hu : Canonical u) (l : Lock) : Canonical { u with locks := l :: u.locks } := { hu with }
  unfold grantUnit
  split
  · exact performTile_canonical _ _ _ hs
  · refine grantUnit_enter_canonical h id a _ s _ hs fun b v hv => ?_
    split
    · exact failTile_canonical _ _ _ _ hv
    · refine State.ite_canonical (again _ hv _ _) (State.ite_canonical (again _ hv _ _) (State.ite_canonical (v.later_canonical hv _ _) ?_))
      dsimp only
      split
      · exact performTile_canonical _ _ _ (locked _ (State.ite_canonical (v.own_canonical _ hv) hv) _)
      · exact again _ (locked _ (State.ite_canonical (v.own_canonical _ hv) hv) _) _ _
@[simp] theorem execTileLockGrant_canonical (s : State) (hs : Canonical s) : AnsCanonical (execTileLockGrant s) := by
  have put (id : Nat) (b : TAcc) : Canonical { s with taccs := tset s.taccs id b } := { hs with taccs := tset_rising _ _ _ hs.taccs }
  unfold execTileLockGrant
  refine onEvent_canonical _ _ hs fun e => ?_
  split
  · split
    · exact hs
    · exact State.ite_canonical (grantUnit_canonical _ _ _ _ hs)
        (State.ite_canonical (State.tileLeaves_canonical _ _ _ _ (put _ _)) (s.later_canonical hs _ _))
  · exact hs
@[simp] theorem tileSegs_canonical (d : Desc) (j : List Nat) (write race : Bool) (s : State) (f : List Seg → State → State) (hs : Canonical s)
    (hf : ∀ (x0 : List Seg) u, Canonical u → Canonical (f x0 u)) :
    Canonical (tileSegs d j write race s f) := by grind [tileSegs, State.segsOf_canonical, State.trap_canonical, State.raceCheck_canonical]
@[simp] theorem execTld_canonical (t : BitVec 8) (b a : Reg) (o : BitVec 3) (s : State) (hs : Canonical s) : AnsCanonical (execTld t b a o s) := by
  grind [execTld, checkedBy_canonical, State.ordered_canonical, tileSegs_canonical, State.blocks_canonical, State.startTile_canonical]
@[simp] theorem execTst_canonical (t : BitVec 8) (b a : Reg) (o : BitVec 3) (s : State) (hs : Canonical s) : AnsCanonical (execTst t b a o s) := by
  grind [execTst, checkedBy_canonical, State.ordered_canonical, tileSegs_canonical, State.pass_canonical, State.stalls_canonical,
      State.releaseBegin_canonical, State.retires_canonical,
      State.startTile_canonical]

/-! ### Queues -/

@[simp] theorem execQueueWake_canonical (s : State) (hs : Canonical s) : AnsCanonical (execQueueWake s) := by
  unfold execQueueWake
  refine onEvent_canonical _ _ hs fun e => ?_
  repeat' split
  all_goals simp [hs]
@[simp] theorem execQld_canonical (a : Reg) (n : BitVec 2) (s : State) (hs : Canonical s) : AnsCanonical (execQld a n s) := by
  grind [execQld, State.fresh_canonical, State.ordered_canonical, State.pass_canonical, State.pushQueue_canonical, checkedBy_canonical,
    startTransfer_canonical, transfer_canonical]
@[simp] theorem execQldEntryArrival_canonical (s : State) (hs : Canonical s) : AnsCanonical (execQldEntryArrival s) := by
  grind [execQldEntryArrival, State.atCycle_canonical, State.modQueue_canonical, State.partnerGoesOn_canonical, State.wakePartner_canonical,
      onEvent_canonical]
@[simp] theorem execQst_canonical (a : Reg) (n : BitVec 2) (s : State) (hs : Canonical s) : AnsCanonical (execQst a n s) := by
  grind [execQst, State.ordered_canonical, State.pass_canonical, State.popQueue_canonical, checkedBy_canonical, startTransfer_canonical,
      transfer_canonical]
@[simp] theorem execQpx_canonical (b a : Reg) (n : BitVec 2) (s : State) (hs : Canonical s) : AnsCanonical (execQpx b a n s) := by
  grind [execQpx, State.pass_canonical, State.pushQueue_canonical, checkedBy_canonical, onQueues_canonical]

/-! ### Draws -/

@[simp] theorem execDraw_canonical (t : BitVec 8) (a d : Reg) (s : State) (hs : Canonical s) : AnsCanonical (execDraw t a d s) := by
  unfold execDraw
  refine checkedBy_canonical _ _ _ _ hs fun u hu => ?_
  dsimp only
  split
  · exact hu
  · simp [hu]
  · refine State.ite_canonical (by simp [hu]) (State.gated_canonical _ _ _ (fun v hv => State.withRelease_canonical _ _ _ (fun x hx => ?_) hv) hu)
    split <;> simp [hx]
@[simp] theorem execDcan_canonical (a : Reg) (s : State) (hs : Canonical s) : AnsCanonical (execDcan a s) := by
  unfold execDcan
  refine checkedBy_canonical _ _ _ _ hs fun u hu => State.pass_canonical _ ?_ _
  split
  next d found => exact u.finishDraw_canonical _ _ _ _ { hu.draw found with } hu
  · exact hu
@[simp] theorem execDstat_canonical (a d : Reg) (s : State) (hs : Canonical s) : AnsCanonical (execDstat a d s) := by
  grind [execDstat, State.pass_canonical, State.setX_canonical, checkedBy_canonical]
@[simp] theorem claimTile_canonical (core num idx slot : Nat) (d : Draw) (s : State) (hd : d.Canonical) (hs : Canonical s) :
    Canonical (claimTile core num idx slot d s) := by
  unfold claimTile
  dsimp only
  have found := State.segsOf_canonical (s.takeTurn (s.pumpOf d idx) core num d)
    { ctx := d.ctx, sup := d.sup, die := chanDie (s.pumpOf d idx), core := none } .read (d.desc.pieces (d.coords idx))
    (s.takeTurn_canonical _ _ _ _ hs)
  generalize State.segsOf _ _ _ _ = y at found
  obtain ⟨_ | l, t⟩ := y
  · exact t.finishDraw_canonical _ _ _ _ { hd with } found
  · exact State.claims_canonical _ _ _ _ (State.startTile_canonical _ _ _ (State.choose_canonical _
      (t.setDraw_canonical _ _ _ (d.setSlot_canonical hd _ _) found) _))
@[simp] theorem execDrawTileClaim_canonical (s : State) (hs : Canonical s) : AnsCanonical (execDrawTileClaim s) := by
  unfold execDrawTileClaim
  refine onEvent_canonical _ _ hs fun e => ?_
  split
  · split
    · exact hs
    next d found =>
      have hd := hs.draw found
      have chosen := s.choose_canonical hs (max d.tiles 1)
      refine State.ite_canonical (State.finishDraw_canonical _ _ _ _ _ hd chosen) (State.ite_canonical chosen ?_)
      split
      · exact chosen
      · exact claimTile_canonical _ _ _ _ _ _ hd chosen
      · exact State.claims_canonical _ _ _ _ chosen
  · exact hs
@[simp] theorem execDrawTileLand_canonical (s : State) (hs : Canonical s) : AnsCanonical (execDrawTileLand s) := by
  unfold execDrawTileLand
  refine onEvent_canonical _ _ hs fun e => ?_
  split
  next core num seq slot idx rows =>
    split
    · exact hs
    next d found =>
      have counted := s.countPassed_canonical (s.pumpOf d idx) core num hs
      have now : (((s.countPassed (s.pumpOf d idx) core num).draw core num seq).getD d).Canonical := by
        cases e : (s.countPassed (s.pumpOf d idx) core num).draw core num seq with
        | none => exact hs.draw found
        | some x => exact counted.draw e
      refine State.ite_canonical ?_ (State.ite_canonical (s.later_canonical hs _ _) (s.startTile_canonical _ _ hs))
      have landed := Draw.setSlot_canonical _ now slot (.landed idx (s.countPassed (s.pumpOf d idx) core num).cycle)
      refine State.later_canonical _ (State.setDraw_canonical _ _ _ _ ?_ counted) _ _
      exact { landed with }
  · exact hs
@[simp] theorem execBodyStart_canonical (s : State) (hs : Canonical s) : AnsCanonical (execBodyStart s) := by
  grind [execBodyStart, State.foldl_canonical, onEvent_canonical, startBody_canonical]
@[simp] theorem execBdone_canonical (s : State) (hs : Canonical s) : AnsCanonical (execBdone s) := by
  unfold execBdone
  refine checkedBy_canonical _ _ _ _ hs fun u hu => State.gated_canonical _ _ _ (fun v hv => ?_) hu
  split
  · exact hv
  next b _ =>
    have cleared := State.raceClear_canonical _ v.myCore (State.pass_canonical _ (v.releaseBegin_canonical v.cur 2 hv) 4)
    dsimp only
    split
    · exact State.endThread_canonical _ _ cleared
    next d found =>
      refine State.later_canonical _ (State.endThread_canonical _ _ (State.setDraw_canonical _ _ _ _ ?_ cleared)) _ _
      exact { cleared.drawAt found with }
@[simp] theorem execDrawCompleteMessage_canonical (s : State) (hs : Canonical s) : AnsCanonical (execDrawCompleteMessage s) := by
  unfold execDrawCompleteMessage
  refine onEvent_canonical _ _ hs fun e => ?_
  split
  · split
    · exact hs
    next d found =>
      split
      · exact State.ite_canonical (s.atUnits_canonical _ _ _ _ _ _ (fun u hu => u.later_canonical hu _ _)
          (fun u hu => countTile_canonical _ _ _ _ _ (hs.draw found) hu) hs) (s.later_canonical hs _ _)
      · exact endDraw_canonical _ _ _ _ hs
  · exact hs

/-! ### Copies -/

@[simp] theorem copySegs_canonical (s : State) (v : View) (h : Nat) (well : Bool) (acc : Access) (a : Word) (n : Nat) (hs : Canonical s) :
    Canonical (copySegs s v h well acc a n).2 := by unfold copySegs; split <;> simp [hs]
@[simp] theorem counterCheck_canonical (s : State) (v : View) (complete : Word) (hs : Canonical s) : Canonical (counterCheck s v complete).2 := by
  grind [counterCheck, State.translateNow_canonical]
theorem acceptCopy_canonical (s t : State) (v : View) (h : Nat) (node kern : Option Nat) (r : CopyReq) (hs : Canonical s)
    (e : acceptCopy s v h node kern r = .ok t) : Canonical t := by
  have segs (b : Bool) (u : State) (well : Bool) (acc : Access) (a : Word) (n : Nat) (hu : Canonical u) :
      Canonical (if b then copySegs u v h well acc a n else (.ok [], u)).2 := by
    cases b <;> simp [hu]
  have put (u : State) (hu : Canonical u) (c : Copy) : Canonical { u.fresh.2 with copies := tset u.fresh.2.copies u.fresh.1 c } :=
    { hu with copies := tset_rising _ _ _ hu.copies }
  unfold acceptCopy at e
  split at e
  · cases e
  · dsimp only at e
    generalize hx : (if decide (r.kind = .cpyt) = true then copySegs s v h r.srcWell _ _ _ else (.ok [], _)) = x at e
    have wx : Canonical x.2 := hx ▸ segs _ s _ _ _ _ hs
    generalize hy : (if decide (r.kind = .cpyt) = true then copySegs x.2 v h r.dstWell _ _ _ else (.ok [], _)) = y at e
    have wy : Canonical y.2 := hy ▸ segs _ x.2 _ _ _ _ wx
    have wz := counterCheck_canonical y.2 v r.complete wy
    generalize counterCheck y.2 v r.complete = z at e wz
    obtain ⟨f | f, t⟩ := z
    all_goals
      dsimp only at e wz
      repeat' split at e
      all_goals cases e
      all_goals grind [State.startTile_canonical, State.leavesCluster_canonical, State.later_canonical]
@[simp] theorem copyInsn_canonical (i : Instr) (r : State → CopyReq) (s : State) (hs : Canonical s) : AnsCanonical (copyInsn i r s) := by
  grind [copyInsn, State.ordered_canonical, State.pass_canonical, State.stalls_canonical, State.trap_canonical, acceptCopy_canonical,
      checkedBy_canonical]
@[simp] theorem State.endCopy_canonical (s : State) (id n : Nat) (c : Copy) (hs : Canonical s) : Canonical (s.endCopy id n c) := by
  simp [State.endCopy, hs]
@[simp] theorem pageFault_canonical (c : Copy) (o : Nat) (s : State) (hs : Canonical s) : Canonical (pageFault c o s).2 := by
  grind [pageFault, State.translateNow_canonical]
@[simp] theorem pieceFault_canonical (c : Copy) (n : Nat) (s : State) (hs : Canonical s) : Canonical (pieceFault c n s).2 := by
  grind [pieceFault, State.foldlSnd_canonical, pageFault_canonical]
@[simp] theorem pieceRead_canonical (c : Copy) (n : Nat) (s : State) (hs : Canonical s) : Canonical (pieceRead c n s).2.2 := by
  unfold pieceRead
  repeat' split
  all_goals simp [hs]
@[simp] theorem readPasses_canonical (id : Nat) (c : Copy) (s : State) (hs : Canonical s) : Canonical (readPasses id c s).2 := by
  grind [readPasses, State.arrivesAt_canonical, State.leavesCluster_canonical, State.translateNow_canonical, copyPasses_canonical]
@[simp] theorem readPiece_canonical (id : Nat) (c : Copy) (s : State) (hs : Canonical s) : Canonical (readPiece id c s).2 := by
  grind [readPiece, State.foldl_canonical, pieceFault_canonical, pieceRead_canonical, readPasses_canonical, State.noteWait_canonical,
      State.dropWait_canonical,
      State.copyAnswered_canonical]
@[simp] theorem writePiece_canonical (id : Nat) (c : Copy) (s : State) (hs : Canonical s) : Canonical (writePiece id c s).2 := by
  grind [writePiece, State.landMem_canonical, State.landWell_canonical, State.noteWait_canonical, State.dropWait_canonical, State.arrivesAt_canonical,
      State.copyAnswered_canonical, copyPasses_canonical]
@[simp] theorem execCopyPiece_canonical (s : State) (hs : Canonical s) : AnsCanonical (execCopyPiece s) := by
  unfold execCopyPiece
  refine onEvent_canonical _ _ hs fun e => ?_
  split
  next id =>
    split
    · exact hs
    next c _ =>
      refine State.ite_canonical (s.later_canonical hs _ _) ?_
      have wrote := writePiece_canonical id c s hs
      generalize writePiece id c s = x at wrote
      have read := readPiece_canonical id x.1 x.2 wrote
      dsimp only
      generalize readPiece id x.1 x.2 = y at read
      repeat' split
      all_goals simp [read]
  · exact hs
@[simp] theorem execCopytRead_canonical (s : State) (hs : Canonical s) : AnsCanonical (execCopytRead s) := by
  unfold execCopytRead
  refine onEvent_canonical _ _ hs fun e => ?_
  repeat' split
  all_goals simp [hs]
@[simp] theorem execCopytWrite_canonical (s : State) (hs : Canonical s) : AnsCanonical (execCopytWrite s) := by
  unfold execCopytWrite
  refine onEvent_canonical _ _ hs fun e => ?_
  repeat' split
  all_goals simp [hs]
@[simp] theorem execCopyComplete_canonical (s : State) (hs : Canonical s) : AnsCanonical (execCopyComplete s) := by
  unfold execCopyComplete
  refine onEvent_canonical _ _ hs fun e => ?_
  split
  · split
    · exact hs
    next c _ =>
      refine State.ite_canonical (reportCopy_canonical _ _ _ hs) (State.ite_canonical (s.later_canonical hs _ _) ?_)
      have found := s.translateNow_canonical (copyView c) (counterAddr c.complete) .write hs
      generalize s.translateNow (copyView c) (counterAddr c.complete) .write = y at found
      obtain ⟨_ | p, t⟩ := y
      · exact reportCopy_canonical _ _ _ found
      · exact State.ite_canonical (State.later_canonical _ (t.setCopy_canonical _ _ found) _ _) (t.atUnits_canonical _ _ _ _ _ _
          (fun u hu => u.later_canonical hu _ _) (fun u hu => reportCopy_canonical _ _ _ (u.landMem_canonical _ _ _ _ _ hu)) found)
  · exact hs

/-! ### Lanes -/

@[simp] theorem vectorInsn_canonical (i : Instr) (readsD : Bool) (limits : State → Option (Nat × Word)) (s : State)
    (f : State → List VReg → VReg × List Fl) (hs : Canonical s) :
    AnsCanonical (vectorInsn i readsD limits s f) := by
  grind [vectorInsn, State.pass_canonical, State.putV_canonical, State.takeOperands_canonical, State.trap_canonical, checkedBy_canonical,
      onQueues_canonical,
    raiseFl_canonical]
@[simp] theorem lanewise_canonical (i : Instr) (w : Nat) (s : State) (f : Nat → List Nat → Nat × Fl) (hs : Canonical s) :
    AnsCanonical (lanewise i w s f) := by simp [lanewise, hs]
@[simp] theorem lanes2_canonical (i : Instr) (w : Nat) (s : State) (f : Nat → Nat → Nat → Nat × Fl) (hs : Canonical s) :
    AnsCanonical (lanes2 i w s f) := by
  simp [lanes2, hs]
@[simp] theorem lanes1_canonical (i : Instr) (w : Nat) (s : State) (f : Nat → Nat → Nat × Fl) (hs : Canonical s) : AnsCanonical (lanes1 i w s f) := by
  simp [lanes1, hs]

/-! ### Special functions -/

@[simp] theorem special_canonical (i : Instr) (fn : SfuFn) (t : BitVec 3) (b a d : Reg) (s : State) (hs : Canonical s) :
    AnsCanonical (special i fn t b a d s) := by
  grind [special, State.blocks_canonical, State.modCore_canonical, State.sfuNext_canonical, State.stalls_canonical, checkedBy_canonical,
      Core.canonical_def,
    canonical_same]
@[simp] theorem execSfuStart_canonical (s : State) (hs : Canonical s) : AnsCanonical (execSfuStart s) := by
  grind [execSfuStart, State.atCycle_canonical, State.later_canonical, State.modCore_canonical, State.sfuNext_canonical, onEvent_canonical,
    Core.canonical_def, canonical_same]
@[simp] theorem execSfuComplete_canonical (s : State) (hs : Canonical s) : AnsCanonical (execSfuComplete s) := by
  unfold execSfuComplete
  refine onEvent_canonical _ _ hs fun e => ?_
  repeat' split
  all_goals simp +contextual [hs]

/-! ### Wide accumulators -/

@[simp] theorem wideAdd_canonical (i : Instr) (width : Nat) (w : Reg) (s : State) (f : WAcc → Nat → Nat → WAcc × Fl) (hs : Canonical s) :
    AnsCanonical (wideAdd i width w s f) := by
  grind [wideAdd, State.foldl_canonical, State.modSelf_canonical, State.pass_canonical, State.takeOperands_canonical, State.trap_canonical,
    checkedBy_canonical, onQueues_canonical, raiseFl_canonical]

@[simp] theorem execWclr_canonical (w : Reg) (s : State) (hs : Canonical s) : AnsCanonical (execWclr w s) := by
  grind [execWclr, State.modSelf_canonical, State.pass_canonical, checkedBy_canonical]
@[simp] theorem fromWide_canonical (i : Instr) (w d : Reg) (s : State) (f : State → WAcc → VReg × List Fl) (hs : Canonical s) :
    AnsCanonical (fromWide i w d s f) := by
  grind [fromWide, State.pass_canonical, State.putV_canonical, State.trap_canonical, checkedBy_canonical, onQueues_canonical, raiseFl_canonical]
@[simp] theorem execWload_canonical (a w : Reg) (s : State) (hs : Canonical s) : AnsCanonical (execWload a w s) := by
  grind [execWload, State.modSelf_canonical, State.pass_canonical, State.takeOperands_canonical, checkedBy_canonical, onQueues_canonical]

/-! ### Hashing -/

@[simp] theorem hashInsn_canonical (i : Instr) (t : BitVec 8) (write : Bool) (s : State) (hs : Canonical s) :
    AnsCanonical (hashInsn i t write s) := by
  grind [hashInsn, checkedBy_canonical, State.fresh_canonical, State.later_canonical, State.blocks_canonical, onQueues_canonical,
      State.pushQueue_canonical,
      State.takeOperands_canonical]
@[simp] theorem execHashAccessComplete_canonical (s : State) (hs : Canonical s) : AnsCanonical (execHashAccessComplete s) := by
  unfold execHashAccessComplete
  refine onEvent_canonical _ _ hs fun e => ?_
  dsimp only
  repeat' split
  all_goals simp +contextual [hs]

/-! ### Cisterns -/

@[simp] theorem execCisternRowMove_canonical (s : State) (hs : Canonical s) : AnsCanonical (execCisternRowMove s) := by
  unfold execCisternRowMove
  refine onEvent_canonical _ _ hs fun e => ?_
  split
  next h id =>
    have moved := performMoves_canonical (coreOf h) s hs
    have taken := State.modCore_canonical _ moved (coreOf h) (fun k => { k with moves := terase k.moves id }) fun k hk =>
      { hk with moves := terase_rising _ _ hk.moves }
    dsimp only
    split
    · exact vwaitcEnds_canonical _ _ moved
    · split
      · split
        · exact countDown_canonical _ _ taken
        · exact countDown_canonical _ _ taken
        · exact taken
      · exact State.later_canonical _ moved _ _
  · exact hs
@[simp] theorem execVldc_canonical (a d : Reg) (s : State) (hs : Canonical s) : AnsCanonical (execVldc a d s) := by
  grind [execVldc, State.modSelf_canonical, State.pass_canonical, State.stalls_canonical, State.startMove_canonical, checkedBy_canonical, tset_rising]
@[simp] theorem execVstc_canonical (a d : Reg) (s : State) (hs : Canonical s) : AnsCanonical (execVstc a d s) := by
  grind [execVstc, State.modSelf_canonical, State.pass_canonical, State.stalls_canonical, State.startMove_canonical, State.takeOperands_canonical,
    checkedBy_canonical, onQueues_canonical]
@[simp] theorem execVwaitc_canonical (n : BitVec 5) (s : State) (hs : Canonical s) : AnsCanonical (execVwaitc n s) := by
  grind [execVwaitc, State.blocks_canonical, State.later_canonical, State.pass_canonical, checkedBy_canonical]
@[simp] theorem execMzero_canonical (c : BitVec 6) (d : Reg) (s : State) (hs : Canonical s) : AnsCanonical (execMzero c d s) := by
  simp +contextual [execMzero, hs]
@[simp] theorem execMcopy_canonical (c : BitVec 6) (a : Reg) (s : State) (hs : Canonical s) : AnsCanonical (execMcopy c a s) := by
  simp +contextual [execMcopy, hs]
@[simp] theorem execMldc_canonical (c : BitVec 6) (a : Reg) (s : State) (hs : Canonical s) : AnsCanonical (execMldc c a s) := by
  unfold execMldc
  refine checkedBy_canonical _ _ _ _ hs fun u hu => u.ordered_canonical _ _ (fun v hv => ?_) hu
  split
  · exact hv
  next d _ =>
    refine State.ite_canonical (v.stalls_canonical hv) ?_
    have raced := v.raceCheck_canonical v.myCore v.self.ctx false
      (rowSegs (tileRefOf v.me d (v.getX a)) (tileRefOf v.me d (v.getX a)).off (tileRefOf v.me d (v.getX a)).rowBytes) hv
    dsimp only
    generalize v.raceCheck _ _ _ _ = y at raced
    obtain ⟨_ | _, t⟩ := y
    · have held := t.modCore_canonical raced t.myCore
        (fun k => { k with heldTiles := k.heldTiles ++ [{ tile := c.toNat, issued := t.cycle, insn := t.issue.insn }] }) fun k hk => { hk with }
      exact State.pass_canonical _ (State.later_canonical _ held _ _) _
    · exact t.trap_canonical _ _ raced
@[simp] theorem execMldcPerform_canonical (s : State) (hs : Canonical s) : AnsCanonical (execMldcPerform s) := by
  unfold execMldcPerform
  refine onEvent_canonical _ _ hs fun e => ?_
  split
  next h tile r =>
    dsimp only
    split
    · exact hs
    · split
      · exact mldcArrives_canonical _ _ _ _ _ hs
      · refine State.ite_canonical (s.later_canonical hs _ _) (s.atUnits_canonical _ _ _ _ _ _ (fun u hu => u.later_canonical hu _ _)
          (fun u hu => ?_) hs)
        have freed := u.modCore_canonical hu (coreOf h) (fun k => { k with heldTiles := k.heldTiles.filter (·.tile ≠ tile) }) fun k hk => { hk with }
        split
        · exact failThread_canonical _ _ _ _ _ freed
        · exact State.ite_canonical (mldcArrives_canonical _ _ _ _ _ hu) (State.later_canonical _ (u.modMldc_canonical _ _ _ hu) _ _)
  · exact hs
@[simp] theorem execMstc_canonical (c : BitVec 6) (a : Reg) (s : State) (hs : Canonical s) : AnsCanonical (execMstc c a s) := by
  grind [execMstc, checkedBy_canonical, State.ordered_canonical, State.pass_canonical, State.stalls_canonical, State.trap_canonical,
      State.raceCheck_canonical, raiseFl_canonical,
      storeRows_canonical]

/-! ### Matrix instructions -/

@[simp] theorem State.commitRead_canonical (s : State) (h : Nat) (va : Word) (n : Nat) (hs : Canonical s) : Canonical (s.commitRead h va n) := by
  unfold State.commitRead
  refine State.foldl_canonical _ _ _ (fun u x hu => ?_) hs
  split
  simp [hu]
@[simp] theorem execMulticastRegister_canonical (s : State) (hs : Canonical s) : AnsCanonical (execMulticastRegister s) := by
  grind [execMulticastRegister, State.modPrep_canonical, State.offerLaunch_canonical, onEvent_canonical, registerOperand_canonical]
@[simp] theorem execMulticastLaunch_canonical (s : State) (hs : Canonical s) : AnsCanonical (execMulticastLaunch s) := by
  have given (segs : List (Nat × Nat × Nat)) (x : Mcast) (u v : State) (hv : Canonical v) : Canonical (x.members.foldl (fun s m
      => match s.job m.h with
      | none => s
      | some j =>
        let at_ := s.cycle + 6 + 2 * hops x.owner (coreOf m.h)
        let s := s.modPrep m.h m.idx fun p =>
          if m.isA then { p with a := some (segs.map fun (c, o, n) => u.wellRead c o n), aAt := some at_, regA := none }
          else { p with b := some (segs.map fun (c, o, n) => u.wellRead c o n), bAt := some at_, regB := none }
        s.at_ at_ (.operandArrival m.h j.since m.idx)) v) := by
    refine State.foldl_canonical _ _ _ (fun y m hy => ?_) hv
    split
    · exact hy
    · exact State.atCycle_canonical _ (y.modPrep_canonical _ _ _ hy) _ _
  unfold execMulticastLaunch
  refine onEvent_canonical _ _ hs fun e => ?_
  split
  next cl id =>
    dsimp only
    split
    · exact hs
    · refine State.ite_canonical hs (State.ite_canonical (s.later_canonical hs _ _)
        (s.atUnits_canonical _ _ _ _ _ _ (fun u hu => u.later_canonical hu _ _) (fun u hu => ?_) hs))
      have launched := u.modCluster_canonical hu cl (fun k => { k with mcast := terase k.mcast id }) fun k hk =>
        { hk with mcast := terase_rising _ _ hk.mcast }
      split
      · exact State.foldl_canonical _ _ _ (fun v m hv => holdError_canonical _ _ _ _ hv) launched
      · exact given _ _ _ _ launched
  · exact hs
@[simp] theorem execGroupWatchdogExpiry_canonical (s : State) (hs : Canonical s) : AnsCanonical (execGroupWatchdogExpiry s) := by
  unfold execGroupWatchdogExpiry
  refine onEvent_canonical _ _ hs fun e => ?_
  split
  next h since =>
    have watched := watchCycle_canonical h s hs
    split
    · exact hs
    · dsimp only
      split
      · exact holdFault_canonical _ _ _ _ _ _ (State.dropJoins_canonical _ _ _ _ watched)
      · exact State.ite_canonical watched (State.later_canonical _ watched _ _)
  · exact hs
@[simp] theorem execOperandArrival_canonical (s : State) (hs : Canonical s) : AnsCanonical (execOperandArrival s) := by
  grind [execOperandArrival, State.later_canonical, checkScales_canonical, onEvent_canonical, prepareStep_canonical, takeCodes_canonical,
      takeOperand_canonical]
@[simp] theorem execMspwEntryArrival_canonical (s : State) (hs : Canonical s) : AnsCanonical (execMspwEntryArrival s) := by
  unfold execMspwEntryArrival
  refine onEvent_canonical _ _ hs fun e => ?_
  split
  next h since idx =>
    have checks (n : Nat) (u : State) (hu : Canonical u) : Canonical ((u.modPrep h idx fun p =>
        { p with checkAt := some (u.cycle + n) }).later n (.mspwEntryArrival h since idx)) := State.later_canonical _
            (u.modPrep_canonical _ _ _ hu) _ _
    split
    · exact hs
    next j _ =>
      split
      · exact hs
      next l _ =>
        refine State.ite_canonical (fetchArrives_canonical _ _ _ _ _ _ _ _ checks (fun u hu =>
          entryThere_canonical _ _ _ _ _ (u.modPrep_canonical _ _ _ hu)) hs) (State.ite_canonical hs (State.ite_canonical
              (s.later_canonical hs _ _) ?_))
        split
        · exact State.ite_canonical hs (fetchBlock_canonical _ _ _ _ _ hs)
        · refine State.ite_canonical hs ?_
          split
          · exact holdFault_canonical _ _ _ _ _ _ (s.fetchJoins_canonical _ _ hs)
          · exact fetchLeaves_canonical _ _ _ _ _ _ _ _ hs
  · exact hs
@[simp] theorem commitStep_canonical (h : Nat) (j : MatJob) (s : State) (hs : Canonical s) : Canonical (commitStep h j s) := by
  grind [commitStep, State.foldl_canonical, State.forUpto_canonical, State.commitRead_canonical, State.addDelay_canonical]
@[simp] theorem startStep_canonical (c slot : Nat) (j : MatJob) (s : State) (hs : Canonical s) : Canonical (startStep c slot j s) := by
  grind [startStep, State.atCycle_canonical, State.later_canonical, State.modCore_canonical, State.raceCheck_canonical, commitStep_canonical,
    prepareStep_canonical, trapJob_canonical, Core.canonical_def, canonical_same]
@[simp] theorem execMatrixStepStart_canonical (s : State) (hs : Canonical s) : AnsCanonical (execMatrixStepStart s) := by
  unfold execMatrixStepStart
  refine onEvent_canonical _ _ hs fun e => ?_
  dsimp only
  repeat' split
  all_goals simp [hs]
@[simp] theorem execMatrixStepEnd_canonical (s : State) (hs : Canonical s) : AnsCanonical (execMatrixStepEnd s) := by
  grind [execMatrixStepEnd, State.forUpto_canonical, State.together_canonical, endStep_canonical, finMatrix_canonical, onEvent_canonical]
@[simp] theorem mmaInsn_canonical (i : Instr) (c : BitVec 6) (masked : Bool) (b a d : Reg) (s : State) (hs : Canonical s) :
    AnsCanonical (mmaInsn i c masked b a d s) := by
  refine checkedBy_canonical _ _ _ _ hs fun u hu => u.ordered_canonical _ _ (fun v hv => ?_) hu
  split
  · exact startJob_canonical _ _ _ _ (fun n => .nil) (fun n w hw => prepareStep_canonical _ _ _ hw) hv
  · exact hv
@[simp] theorem mspwInsn_canonical (i : Instr) (c : BitVec 6) (mask : Option Reg) (b a : Reg) (s : State) (hs : Canonical s) :
    AnsCanonical (mspwInsn i c mask b a s) := by
  refine checkedBy_canonical _ _ _ _ hs fun u hu => u.ordered_canonical _ _ (fun v hv => ?_) hu
  split
  · exact startJob_canonical _ _ _ _ (fun n => .nil) (fun n w hw => w.forUpto_canonical _ _ (fun x k hx => x.later_canonical hx _ _) hw) hv
  · exact hv

/-! ### Near-bank steps -/

@[simp] theorem State.withKnown_canonical (s : State) (va : Word) (acc : Access) (f : Phys → State → State) (hs : Canonical s) (hf : ∀
    (x0 : Phys) u, Canonical u → Canonical (f x0 u)) :
    Canonical (s.withKnown va acc f) := by grind [State.withKnown, State.withPhys_canonical, State.awaitLevel_canonical]
@[simp] theorem withSources_canonical (as : List Word) :
    ∀ (acc : List Phys) (f : List Phys → State → State) (s : State), Canonical s → (∀ l u, Canonical u → Canonical (f l u)) → Canonical
        (withSources as acc f s) := by
  induction as with
  | nil => intro acc f s hs hf; exact hf acc s hs
  | cons a as ih => intro acc f s hs hf; exact State.withKnown_canonical _ _ _ _ hs fun p u hu => ih _ f u hu hf
@[simp] theorem bankInsn_canonical (i : Instr) (op : BkOp) (n : Nat) (b a d : Reg) (s : State) (hs : Canonical s) :
    AnsCanonical (bankInsn i op n b a d s) := by
  grind [bankInsn, checkedBy_canonical, State.ordered_canonical, State.withKnown_canonical, withSources_canonical, State.setX_canonical,
      State.pass_canonical, State.stalls_canonical,
      acceptBank_canonical]
@[simp] theorem execBkProbeStart_canonical (s : State) (hs : Canonical s) : AnsCanonical (execBkProbeStart s) := by
  have put (u : State) (hu : Canonical u) (id : Nat) (b : Bk) : Canonical { u with bks := tset u.bks id b } :=
    { hu with bks := tset_rising _ _ _ hu.bks }
  unfold execBkProbeStart
  refine onEvent_canonical _ _ hs fun e => ?_
  split
  next id =>
    split
    · exact hs
    next b _ =>
      refine State.ite_canonical (State.admitAt_canonical _ _ _ (fun u hu => u.later_canonical hu _ _) (put _ hs _ _))
        (State.ite_canonical (s.later_canonical hs _ _) ?_)
      have marked := takeMarks_canonical id b b.marks (if b.reqAt = 0 then s.cycle else b.reqAt) s.pruneLocks (s.pruneLocks_canonical hs)
      dsimp only
      generalize takeMarks _ _ _ _ _ = y at marked
      exact State.ite_canonical (State.later_canonical _ (put _ marked _ _) _ _) (State.later_canonical _ (put _ marked _ _) _ _)
  · exact hs
@[simp] theorem execBkStep_canonical (s : State) (hs : Canonical s) : AnsCanonical (execBkStep s) := by
  have put (u : State) (hu : Canonical u) (ls : List Nat) (locks : List Lock) (id : Nat) (b : Bk) : Canonical { u with
      lines := ls.foldl (fun t l => terase t (l / 256)) u.lines, locks := locks, bks := tset u.bks id b } :=
    { hu with lines := rising_foldl _ _ _ (fun t l ht => terase_rising _ _ ht) hu.lines, bks := tset_rising _ _ _ hu.bks }
  unfold execBkStep
  refine onEvent_canonical _ _ hs fun e => ?_
  split
  next id =>
    split
    · exact hs
    next b _ =>
      have stepped := put _ (s.writeBytes_canonical (b.d + (b.part b.step).1) b.dKey
        ((List.range (b.part b.step).2).map fun i => b.byteAt ((b.part b.step).1 + i)) hs)
      exact State.ite_canonical (State.later_canonical _ (stepped _ _ _ _) _ _) (State.later_canonical _ (stepped _ _ _ _) _ _)
  · exact hs
@[simp] theorem execBkComplete_canonical (s : State) (hs : Canonical s) : AnsCanonical (execBkComplete s) := by
  have ended (id : Nat) : Canonical { s with bks := terase s.bks id } := { hs with bks := terase_rising _ _ hs.bks }
  unfold execBkComplete
  refine onEvent_canonical _ _ hs fun e => ?_
  split
  · split
    · exact hs
    · exact State.ctxCheck_canonical _ _ (State.nodeCheck_canonical _ _ _ (postMsg_canonical _ _ _ _ (ended _)))
  · exact hs

/-! ### Pumps and overlays -/

@[simp] theorem execOvld_canonical (b a d : Reg) (s : State) (hs : Canonical s) : AnsCanonical (execOvld b a d s) := by
  grind [execOvld, checkedBy_canonical, State.gated_canonical, State.withPhys_canonical, sendOvld_canonical]
@[simp] theorem execOvldGo_canonical (b a d : Reg) (s : State) (hs : Canonical s) : AnsCanonical (execOvldGo b a d s) := by
  grind [execOvldGo, State.gated_canonical, State.releaseBegin_canonical, checkedBy_canonical, sendOvld_canonical]
@[simp] theorem execOvldAccept_canonical (s : State) (hs : Canonical s) : AnsCanonical (execOvldAccept s) := by
  grind [execOvldAccept, State.atCycle_canonical, acceptGo_canonical, acceptLoad_canonical, onEvent_canonical]
@[simp] theorem execOvldStatus_canonical (s : State) (hs : Canonical s) : AnsCanonical (execOvldStatus s) := by
  grind [execOvldStatus, State.addDelay_canonical, State.goesOn_canonical, State.modThread_canonical, State.passOf_canonical,
      State.released_canonical,
    State.setX_canonical, onEvent_canonical]
@[simp] theorem execOverlayLoaded_canonical (s : State) (hs : Canonical s) : AnsCanonical (execOverlayLoaded s) := by
  grind [execOverlayLoaded, State.later_canonical, State.modPump_canonical, onEvent_canonical]
@[simp] theorem reportEnd_canonical (c : Nat) (l : Launch) (status : Nat) (val : Word) (s : State) (hs : Canonical s) :
    Canonical (reportEnd c l status val s) := by
  grind [reportEnd, State.afterWrite_canonical, State.later_canonical, failNode_canonical, postMsg_canonical, putRaw_canonical]
@[simp] theorem reportEnds_canonical (c : Nat) (s : State) (hs : Canonical s) : Canonical (reportEnds c s) := by
  grind [reportEnds, State.before_canonical, State.ctxCheck_canonical, State.dropWait_canonical, State.foldl_canonical, State.later_canonical,
    State.modPump_canonical, State.noteWait_canonical, reportEnd_canonical]
@[simp] theorem execKernelLaunchStart_canonical (s : State) (hs : Canonical s) : AnsCanonical (execKernelLaunchStart s) := by
  unfold execKernelLaunchStart
  refine onEvent_canonical _ _ hs fun e => ?_
  split <;> simp [hs]
@[simp] theorem execLaunchPageQueue_canonical (s : State) (hs : Canonical s) : AnsCanonical (execLaunchPageQueue s) := by
  unfold execLaunchPageQueue
  refine onEvent_canonical _ _ hs fun e => ?_
  split <;> simp [hs]
@[simp] theorem execPumpKernelSaveTimeout_canonical (s : State) (hs : Canonical s) : AnsCanonical (execPumpKernelSaveTimeout s) := by
  unfold execPumpKernelSaveTimeout
  refine onEvent_canonical _ _ hs fun e => ?_
  split <;> simp [hs]
@[simp] theorem State.pumpRuns_canonical (s : State) (acc : Access) (a : Word) (n : Nat) (hs : Canonical s) : Canonical (s.pumpRuns acc a n).2 := by
  grind [State.pumpRuns, State.foldlSnd_canonical, State.translateNow_canonical]
@[simp] theorem execPrd_canonical (b a d : Reg) (s : State) (hs : Canonical s) : AnsCanonical (execPrd b a d s) := by
  grind [execPrd, checkedBy_canonical, State.pumpRuns_canonical, State.modPump_canonical, State.stalls_canonical, State.trap_canonical,
    State.sendLines_canonical]
@[simp] theorem pumpStore_canonical (b a d : Reg) (val : Word → Word) (s : State) (hs : Canonical s) : Canonical (pumpStore b a d val s) := by
  grind [pumpStore, State.pumpRuns_canonical, State.pass_canonical, State.stalls_canonical, State.trap_canonical, State.sendLines_canonical]
@[simp] theorem execPwr_canonical (b a d : Reg) (s : State) (hs : Canonical s) : AnsCanonical (execPwr b a d s) := by simp +contextual [execPwr, hs]
@[simp] theorem execPpush_canonical (b a d : Reg) (s : State) (hs : Canonical s) : AnsCanonical (execPpush b a d s) := by
  grind [execPpush, State.pass_canonical, State.startTile_canonical, checkedBy_canonical, pumpStore_canonical]
@[simp] theorem execPend_canonical (s : State) (hs : Canonical s) : AnsCanonical (execPend s) := by
  grind [execPend, State.modPump_canonical, State.stalls_canonical, checked_canonical, endLaunch_canonical]
@[simp] theorem execZeroFillStep_canonical (s : State) (hs : Canonical s) : AnsCanonical (execZeroFillStep s) := by
  grind [execZeroFillStep, State.later_canonical, State.modPump_canonical, onEvent_canonical]

/-! ### Tasks -/

@[simp] theorem execTqadd_canonical (a : Reg) (s : State) (hs : Canonical s) : AnsCanonical (execTqadd a s) := by
  grind [execTqadd, State.ordered_canonical, State.pass_canonical, State.releaseBegin_canonical, State.retires_canonical, State.sendTask_canonical,
    checkedBy_canonical]
@[simp] theorem execTqtake_canonical (d : Reg) (s : State) (hs : Canonical s) : AnsCanonical (execTqtake d s) := by
  grind [execTqtake, State.blocks_canonical, State.ordered_canonical, State.sendTask_canonical, checkedBy_canonical]
@[simp] theorem execTqtry_canonical (d : Reg) (s : State) (hs : Canonical s) : AnsCanonical (execTqtry d s) := by
  grind [execTqtry, State.foldl_canonical, State.gated_canonical, State.modSelf_canonical, State.pass_canonical, State.sendTask_canonical,
    checkedBy_canonical, tset_rising]
@[simp] theorem execTcmt_canonical (s : State) (hs : Canonical s) : AnsCanonical (execTcmt s) := by
  grind [execTcmt, State.modSelf_canonical, State.pass_canonical, checkedBy_canonical]
@[simp] theorem execTdone_canonical (s : State) (hs : Canonical s) : AnsCanonical (execTdone s) := by
  grind [execTdone, State.modSelf_canonical, State.pass_canonical, checkedBy_canonical]
@[simp] theorem execTqRequestPerform_canonical (s : State) (hs : Canonical s) : AnsCanonical (execTqRequestPerform s) := by
  have held (p : Nat) (f : Part → Part) (hf : ∀ q, (f q).keys = q.keys) : Canonical (s.modPart p f) :=
    s.modPart_canonical hs p f fun q hq => by rw [hf]; exact hq
  have answered (r : TqReq) (q : Part) : Canonical (admitHeld r.part ((s.takeTask r.part q).2.answerTask r (s.takeTask r.part q).1)) :=
    admitHeld_canonical _ _ (State.answerTask_canonical _ _ _ (s.takeTask_canonical _ _ hs))
  unfold execTqRequestPerform
  refine onEvent_canonical _ _ hs fun e => ?_
  split
  next r =>
    split
    · exact hs
    next q _ =>
      refine State.ite_canonical (s.admitAt_canonical _ _ (fun u hu => u.later_canonical hu _ _) hs) ?_
      split
      · exact State.ite_canonical (s.later_canonical hs _ _) (State.ite_canonical (held _ _ fun _ => rfl)
          (insertTask_canonical _ _ _ (s.ackTask_canonical _ hs)))
      · exact State.ite_canonical (held _ _ fun _ => rfl) (answered _ _)
      · exact answered _ _
      · exact hs
  · exact hs
@[simp] theorem execTaskReinsert_canonical (s : State) (hs : Canonical s) : AnsCanonical (execTaskReinsert s) := by
  unfold execTaskReinsert
  refine onEvent_canonical _ _ hs fun e => ?_
  split <;> simp [hs]
@[simp] theorem execTqAnswer_canonical (s : State) (hs : Canonical s) : AnsCanonical (execTqAnswer s) := by
  grind [execTqAnswer, State.back_canonical, State.passOf_canonical, State.wake_canonical, onEvent_canonical, refuseAnswer_canonical,
      takeAnswer_canonical]

/-! ### Parking -/

@[simp] theorem execTexit_canonical (s : State) (hs : Canonical s) : AnsCanonical (execTexit s) := by
  grind [execTexit, checkedBy_canonical, State.gated_canonical, State.later_canonical, State.blocks_canonical]
@[simp] theorem execTexitRetire_canonical (s : State) (hs : Canonical s) : AnsCanonical (execTexitRetire s) := by
  grind [execTexitRetire, State.later_canonical, State.together_canonical, finTexit_canonical, onEvent_canonical]
@[simp] theorem execParkRequestEffect_canonical (s : State) (hs : Canonical s) : AnsCanonical (execParkRequestEffect s) := by
  grind [execParkRequestEffect, onEvent_canonical, State.modThread_canonical, State.later_canonical, State.disband_canonical,
      State.withdraw_canonical,
    State.freeze_canonical]
@[simp] theorem execUiDelivery_canonical (s : State) (hs : Canonical s) : AnsCanonical (execUiDelivery s) := by
  unfold execUiDelivery
  refine onEvent_canonical _ _ hs fun e => ?_
  dsimp only
  repeat' split
  case h_2 e => simp [State.withdraw_canonical _ _ _ e, hs]
  all_goals simp [hs]

/-! ### Scheduling -/

@[simp] theorem readRecord_canonical (c q : Nat) (x : Ctx) (s : State) (hs : Canonical s) : Canonical (readRecord c q x s).2 := by
  grind [readRecord, State.checkRange_canonical, State.readVirt_canonical]
@[simp] theorem execNotifyWrite_canonical (s : State) (hs : Canonical s) : AnsCanonical (execNotifyWrite s) := by
  unfold execNotifyWrite
  refine onEvent_canonical _ _ hs fun e => ?_
  split
  next c v =>
    split
    · exact hs
    next x _ =>
      have accepts := s.modCtx_canonical hs c (fun x => { x with accepted := v }) fun x hx => { hx with }
      refine State.ite_canonical hs (State.ite_canonical (s.later_canonical hs _ _) (State.ite_canonical (failCtx_canonical _ _ _ _ _ hs)
        (State.foldl_canonical _ _ _ (fun u i hu => State.ite_canonical hu ?_) accepts)))
      have read := readRecord_canonical c (x.accepted + i) x u hu
      generalize readRecord c (x.accepted + i) x u = y at read
      obtain ⟨_ | _, t⟩ := y
      · exact failCtx_canonical _ _ _ _ _ read
      · exact acceptRecord_canonical _ _ _ _ read
  · exact hs
@[simp] theorem execNodeComplete_canonical (s : State) (hs : Canonical s) : AnsCanonical (execNodeComplete s) := by
  grind [execNodeComplete, State.ctxCheck_canonical, State.later_canonical, State.launchEnds_canonical, State.modNode_canonical, checkLoop_canonical,
    closeBody_canonical, notifyNode_canonical, onEvent_canonical, sendEdges_canonical]
@[simp] theorem execRetiredUpdate_canonical (s : State) (hs : Canonical s) : AnsCanonical (execRetiredUpdate s) := by
  unfold execRetiredUpdate
  refine onEvent_canonical _ _ hs fun e => ?_
  split
  next c =>
    split
    · exact hs
    next x _ =>
      refine State.ite_canonical hs (State.ite_canonical (s.later_canonical hs _ _) ?_)
      have found := s.translateNow_canonical (cmdView c) (x.notify + 8) .write hs
      generalize s.translateNow (cmdView c) (x.notify + 8) .write = y at found
      obtain ⟨_ | p, t⟩ := y
      · exact failCtx_canonical _ _ _ _ _ found
      · exact State.ite_canonical (failCtx_canonical _ _ _ _ _ found)
          (State.modCtx_canonical _ (t.landMem_canonical _ _ _ _ _ found) _ _ fun x hx => { hx with })
  · exact hs
@[simp] theorem obtain_canonical (c q : Nat) (l : List Nat) (s : State) (f : State → State) (hs : Canonical s) (hf : ∀ u, Canonical u → Canonical
    (f u)) :
    Canonical (obtain c q l s f) := by
  grind [obtain, State.modCtx_canonical, State.modNode_canonical, State.waitFor_canonical, Ctx.canonical_def, canonical_same]
@[simp] theorem execTimeSliceExpiry_canonical (s : State) (hs : Canonical s) : AnsCanonical (execTimeSliceExpiry s) := by
  grind [execTimeSliceExpiry, State.atCycle_canonical, State.beginSave_canonical, State.modCtx_canonical, onEvent_canonical, Ctx.canonical_def,
      canonical_same]
@[simp] theorem execContextComplete_canonical (s : State) (hs : Canonical s) : AnsCanonical (execContextComplete s) := by
  grind [execContextComplete, State.freeCores_canonical, State.modCtx_canonical, State.serve_canonical, onEvent_canonical, Ctx.canonical_def,
      canonical_same]

@[simp] theorem withReadable_canonical (c q : Nat) (a : Word) (n : Nat) (s : State) (f : List Byte → State → State) (hs : Canonical s) (hf : ∀
    (x0 : List Byte) u, Canonical u → Canonical (f x0 u)) :
    Canonical (withReadable c q a n s f) := by
  grind [withReadable, State.checkRange_canonical, State.readVirt_canonical, State.later_canonical, failNode_canonical]
@[simp] theorem withImage_canonical (c q : Nat) (n : Node) (cores : List Nat) (s : State) (f : List Byte → State → State) (hs : Canonical s)
    (hf : ∀ (x0 : List Byte) u, Canonical u → Canonical (f x0 u)) :
    Canonical (withImage c q n cores s f) := by
  grind [withImage, State.readVirt_canonical, State.atUnits_canonical, State.later_canonical, State.modNode_canonical]
@[simp] theorem startPlaced_canonical (c q : Nat) (n : Node) (s : State) (hs : Canonical s) : Canonical (startPlaced c q n s) := by
  unfold startPlaced
  refine withImage_canonical _ _ _ _ _ _ hs fun bs u hu => State.modNode_canonical _ _ _ _ (State.foldl_canonical _ _ _ (fun v h hv => ?_)
    (State.foldl_canonical _ _ _ (fun v h hv => v.modThread_canonical hv _ _) (State.foldl_canonical _ _ _ (fun v k hv => ?_) hu)))
  · exact State.wakePartner_canonical _ _ _ (v.modCore_canonical hv _ _ fun k hk => k.clearPair_canonical hk _)
  · exact State.modCore_canonical _ (State.landWell_canonical _ _ _ _ _ (v.dropClean_canonical _ _ hv)) _ _ fun k hk => { hk with }
@[simp] theorem execKernelNode_canonical (s : State) (hs : Canonical s) : AnsCanonical (execKernelNode s) := by
  unfold execKernelNode
  refine onEvent_canonical _ _ hs fun e => ?_
  split
  · refine State.ite_canonical (State.ite_canonical (startPlaced_canonical _ _ _ _ hs) hs) (beginNode_canonical _ _ _ _ (fun x n u hu =>
      withChecks_canonical _ _ _ _ _ (fun v hv => withReadable_canonical _ _ _ _ _ _ hv fun bs y hy =>
        withReadable_canonical _ _ _ _ _ _ hy fun _ z hz => ?_) hu) hs)
    dsimp only
    split
    · exact failNode_canonical _ _ _ _ _ hz
    · exact State.ite_canonical (z.waitFor_canonical _ _ _ _ _ hz) (obtain_canonical _ _ _ _ _ hz fun a ha => placeNode_canonical _ _ _ _ _ ha)
  · exact hs
@[simp] theorem execCopyNode_canonical (s : State) (hs : Canonical s) : AnsCanonical (execCopyNode s) := by
  unfold execCopyNode
  refine onEvent_canonical _ _ hs fun e => ?_
  split
  · refine beginNode_canonical _ _ _ _ (fun x n u hu => withChecks_canonical _ _ _ _ _ (fun v hv => ?_) hu) hs
    dsimp only
    split
    · exact failNode_canonical _ _ _ _ _ hv
    next t accepted => exact t.modNode_canonical _ _ _ (acceptCopy_canonical _ _ _ _ _ _ _ hv accepted)
  · exact hs
@[simp] theorem execNearMemoryNode_canonical (s : State) (hs : Canonical s) : AnsCanonical (execNearMemoryNode s) := by
  grind [execNearMemoryNode, State.later_canonical, State.modNode_canonical, State.modPump_canonical, beginNode_canonical, onEvent_canonical,
    withChecks_canonical]
@[simp] theorem State.nextCores_canonical (s : State) (c : Nat) (x : Ctx) (hs : Canonical s) : Canonical (s.nextCores c x).2 := by
  grind [State.nextCores, State.checkRange_canonical, State.readVirt_canonical]
@[simp] theorem withSource_canonical (on : Bool) (c q : Nat) (a : Word) (n : Nat) (s : State) (f : List Byte → State → State) (hs : Canonical s)
    (hf : ∀ (x0 : List Byte) u, Canonical u → Canonical (f x0 u)) :
    Canonical (withSource on c q a n s f) := by grind [withSource, withReadable_canonical]
@[simp] theorem withLaunchPage_canonical (on : Bool) (c q : Nat) (a : Word) (s : State) (f : Option Nat → State → State) (hs : Canonical s)
    (hf : ∀ (x0 : Option Nat) u, Canonical u → Canonical (f x0 u)) :
    Canonical (withLaunchPage on c q a s f) := by grind [withLaunchPage, State.translateNow_canonical, failNode_canonical]
@[simp] theorem readSources_canonical (c q : Nat) (x : Ctx) (n : Node) (s : State) (hs : Canonical s) : Canonical (readSources c q x n s) := by
  grind [readSources, withChecks_canonical, withSource_canonical, withLaunchPage_canonical, failNode_canonical, State.modNode_canonical,
    State.evalLater_canonical]
theorem tableOf_rising (bs : List Byte) : Rising (tableOf bs) := by
  refine List.pairwise_filterMap.mpr (List.pairwise_lt_range.imp fun {i j} l a ha b hb => ?_)
  dsimp only at ha hb
  split at ha <;> cases ha
  split at hb <;> cases hb
  exact l
@[simp] theorem applyModes_canonical (c q : Nat) (x : Ctx) (n : Node) (s : State) (hs : Canonical s) : Canonical (applyModes c q x n s) := by
  have checked (b : Bool) (a k : Nat) : Canonical (if b then s.checkRange (cmdView c) a k .write else (none, s)).2 := by
    cases b <;> simp [hs]
  have hy := checked (wbit (n.w 2) 3) x.mapva.toNat 128
  unfold applyModes
  dsimp only
  generalize (if wbit (n.w 2) 3 = true then s.checkRange (cmdView c) x.mapva.toNat 128 .write else (none, s)) = y at hy
  obtain ⟨_ | e, t⟩ := y
  · have mapped (l : List (Nat × Nat)) (f : Nat × Nat → List Byte) : Canonical (l.foldl (fun s x =>
        match s.translateNow (cmdView c) (word x.1) .write with
        | (.ok p, s) => s.landMem 0 p.key p.ks (f x)
        | (.error _, s) => s) t) := by
      refine State.foldl_canonical _ _ _ (fun u x hu => ?_) hy
      have walked := u.translateNow_canonical (cmdView c) (word x.1) .write hu
      generalize u.translateNow _ _ _ = z at walked
      obtain ⟨_ | p, v⟩ := z
      · exact walked
      · exact v.landMem_canonical _ _ _ _ _ walked
    refine State.later_canonical _ (State.syncModes_canonical _ _ (State.ite_canonical (State.emptyRace_canonical _ _ ?_) ?_)) _ _
    all_goals
      refine State.modCtx_canonical _ (State.ite_canonical (mapped _ _) hy) _ _ fun x hx => { hx with tensors := ?_ }
      dsimp only
      split
      · exact tableOf_rising _
      · exact hx.tensors
  · exact failNode_canonical _ _ _ _ _ hy
@[simp] theorem execConfigureNode_canonical (s : State) (hs : Canonical s) : AnsCanonical (execConfigureNode s) := by
  grind [execConfigureNode, onEvent_canonical, obtain_canonical, beginNode_canonical, State.nextCores_canonical, readSources_canonical,
      applyModes_canonical, State.modNode_canonical,
      State.takeCores_canonical]
@[simp] theorem evaluate_canonical (c q : Nat) (s : State) (bad : Node → List (Bool × Nat × Word)) (f : Node → Word → State → State)
    (hs : Canonical s) (hf : ∀ (x0 : Node) (x1 : Word) u, Canonical u → Canonical (f x0 x1 u)) :
    Canonical (evaluate c q s bad f) := by
  grind [evaluate, beginNode_canonical, withChecks_canonical, withReadable_canonical, State.modNode_canonical, State.evalLater_canonical]
@[simp] theorem execConditionNode_canonical (s : State) (hs : Canonical s) : AnsCanonical (execConditionNode s) := by
  grind [execConditionNode, onEvent_canonical, evaluate_canonical, State.later_canonical]
@[simp] theorem execSwitchNode_canonical (s : State) (hs : Canonical s) : AnsCanonical (execSwitchNode s) := by
  grind [execSwitchNode, onEvent_canonical, evaluate_canonical, State.later_canonical]
@[simp] theorem execLoopNode_canonical (s : State) (hs : Canonical s) : AnsCanonical (execLoopNode s) := by
  grind [execLoopNode, State.later_canonical, evaluate_canonical, onEvent_canonical, startIteration_canonical]

/-! ### Saves and restores -/

@[simp] theorem finishSave_canonical (c : Nat) (s : State) (hs : Canonical s) : Canonical (finishSave c s) := by
  have launches := takeLaunches_canonical c s hs
  have overlays := takeOverlays_canonical c (takeLaunches c s).2 launches
  unfold finishSave
  dsimp only
  generalize takeLaunches c s = x at overlays
  generalize takeOverlays c x.2 = y at overlays
  obtain ⟨o, t⟩ := y
  have cores (p : Nat × Core → Bool) : Lists Core.Canonical ((t.cores.filter p).map fun x => (x.1, x.2.block)) :=
    (overlays.cores.filter _).map _ (fun _ => rfl) fun x hx => x.2.block_canonical hx
  have gone : Canonical { t with copies := t.copies.filter fun y => y.2.ctx ≠ c } := { overlays with copies := rising_filter _ _ overlays.copies }
  have launched (z : Ctx) (hz : z.Canonical) := z.addLaunches_canonical x.1 hz
  have saved : Canonical (State.modCtx { t with copies := t.copies.filter fun y => y.2.ctx ≠ c } c fun z => { z.addLaunches x.1 with
      saved := (z.addLaunches x.1).saved.map fun v => { v with
        threads := t.threads.filter fun x => (s.heldCores c).contains (coreOf x.1)
        cores := (t.cores.filter fun x => (s.heldCores c).contains x.1).map fun x => (x.1, x.2.block)
        bars := t.clusters.flatMap fun x => (x.2.bars.filter fun b => b.1 / 32 = c).map fun b => (x.1, b.1, b.2)
        copies := t.copies.filter fun y => y.2.ctx = c, overlays := o }
      phase := .saved, saveAt := t.cycle, waitSince := some t.cycle }) := by
    refine State.modCtx_canonical _ gone _ _ fun z hz => ⟨(launched z hz).nodes, (launched z hz).tensors, fun v e => ?_⟩
    dsimp only at e
    obtain ⟨w, _, rfl⟩ := Option.map_eq_some_iff.mp e
    exact ⟨rising_filter _ _ overlays.threads, rising_filter _ _ overlays.copies, cores _⟩
  refine State.serve_canonical _ _ (State.freeCores_canonical _ _ ?_)
  split
  · exact State.afterWrite_canonical _ _ _ _ { saved with mem := saveArea_wf _ _ _ _ saved.mem }
  · exact saved
@[simp] theorem execContextSave_canonical (s : State) (hs : Canonical s) : AnsCanonical (execContextSave s) := by
  have met (u : State) (hu : Canonical u) (l : List Nat) :
      Canonical (l.foldl (fun s h => s.modThread h fun t => { t with frozen := true, meets := some s.cycle }) u) :=
    State.foldl_canonical _ _ _ (fun v h hv => v.modThread_canonical hv _ _) hu
  have flushed (u : State) (hu : Canonical u) (l : List Nat) :
      Canonical (l.foldl (fun s k => (s.flush (8 * k) fun _ => true).modCore k fun y => { y with l1 := [] }) u) :=
    State.foldl_canonical _ _ _ (fun v h hv => State.modCore_canonical _ (v.flush_canonical _ _ hv) _ _ fun k hk => { hk with l1 := .nil }) hu
  have staged (u : State) (hu : Canonical u) (c n : Nat) : Canonical (u.modCtx c fun x => { x with saveStage := n }) :=
    u.modCtx_canonical hu _ _ fun x hx => { hx with }
  have stops (u : State) (hu : Canonical u) (c : Nat) (l : List Nat) : Canonical (l.foldl (fun s h => stopThread h s) (unstartNodes c u)) :=
    State.foldl_canonical _ _ _ (fun v h hv => stopThread_canonical _ _ hv) (unstartNodes_canonical _ _ hu)
  unfold execContextSave
  refine onEvent_canonical _ _ hs fun e => ?_
  split
  next c late =>
    split
    · exact hs
    · refine State.ite_canonical hs (State.ite_canonical (State.later_canonical _ (met _ hs _) _ _) (State.ite_canonical ?_
        (State.ite_canonical (State.ite_canonical (s.later_canonical hs _ _) (State.later_canonical _ (staged _ hs _ _) _ _))
            (finishSave_canonical _ _ hs))))
      have launches := takeLaunches_canonical c _ (stops s hs c ((unstartNodes c s).ctxThreads c))
      dsimp only
      generalize takeLaunches c _ = y at launches
      have asked := askPumps_canonical c _ (y.2.modCtx_canonical launches c (fun x => x.addLaunches y.1) fun x hx => x.addLaunches_canonical _ hx)
      generalize askPumps c _ = t at asked
      exact State.ite_canonical (State.later_canonical _ (State.ite_canonical (stopCopies_canonical _ _ asked) asked) _ _)
        (State.later_canonical _ (staged _ (flushed _ (State.ite_canonical (stopCopies_canonical _ _ asked) asked) _) _ _) _ _)
  · exact hs
@[simp] theorem execContextRestore_canonical (s : State) (hs : Canonical s) : AnsCanonical (execContextRestore s) := by
  have begins (c : Nat) (u : State) (hu : Canonical u) : Canonical ((loadOverlays c ((u.modCtx c fun x =>
      { x with phase := .restoring, waitSince := none }).serve 1)).later 5319 (.contextRestore c)) := by
    refine State.later_canonical _ (loadOverlays_canonical _ _ (State.serve_canonical _ _ ?_)) _ _
    exact u.modCtx_canonical hu _ _ fun x hx => { hx with }
  have taken (c : Nat) (l : List Nat) : Canonical (l.foldl (fun s k => s.modCore k fun y => { y with holder := some c }) s) :=
    State.foldl_canonical _ _ _ (fun u k hu => u.modCore_canonical hu _ _ fun k hk => { hk with }) hs
  unfold execContextRestore
  refine onEvent_canonical _ _ hs fun e => ?_
  split
  next c =>
    split
    · exact hs
    next x here =>
      split
      · exact hs
      next v kept =>
        have restored := (hs.ctx here).saved v kept
        refine State.ite_canonical (State.ite_canonical (State.later_canonical _ (loadOverlays_canonical _ _ hs) _ _) ?_)
          (State.ite_canonical hs (State.ite_canonical (s.displace_canonical _ _ _ hs) (begins _ _ (taken _ _))))
        split
        · exact s.atCycle_canonical hs _ _
        · exact finishRestore_canonical _ _ _ _ restored hs
  · exact hs

/-! ### Records -/

@[simp] theorem ringPut_canonical (q : Part) (r : TrapRecord) (s : State) (hs : Canonical s) : Canonical (ringPut q r s) := by
  grind [ringPut, State.afterWrite_canonical, putRaw_canonical]
@[simp] theorem execTrapRecordWrite_canonical (s : State) (hs : Canonical s) : AnsCanonical (execTrapRecordWrite s) := by
  unfold execTrapRecordWrite
  refine onEvent_canonical _ _ hs fun e => ?_
  split
  · split
    · exact hs
    · refine State.ite_canonical (s.atUnits_canonical _ _ _ _ _ _ (fun u hu => u.later_canonical hu _ _) (fun u hu => ?_) hs)
        (State.ite_canonical ?_ (s.atUnits_canonical _ _ _ _ _ _ (fun u hu => u.later_canonical hu _ _) (fun u hu => ringPut_canonical _ _ _ hu) hs))
      · refine State.foldl_canonical _ _ _ (fun v r hv => ringPut_canonical _ r v hv) ?_
        exact u.modPart_canonical hu _ _ fun q hq => hq
      · exact s.modPart_canonical hs _ _ fun q hq => hq
  · exact hs
@[simp] theorem State.fqSend_canonical (s : State) (p : Nat) (hs : Canonical s) : Canonical (s.fqSend p) := by
  grind [State.fqSend, State.choose_canonical, State.later_canonical, State.modPart_canonical, putRaw_canonical]
@[simp] theorem execFaultQueueWrite_canonical (s : State) (hs : Canonical s) : AnsCanonical (execFaultQueueWrite s) := by
  unfold execFaultQueueWrite
  refine onEvent_canonical _ _ hs fun e => ?_
  split <;> simp [hs]
@[simp] theorem execFaultQueueAck_canonical (s : State) (hs : Canonical s) : AnsCanonical (execFaultQueueAck s) := by
  grind [execFaultQueueAck, State.fire_canonical, State.fqSend_canonical, State.modPart_canonical, State.modVf_canonical, onEvent_canonical]
@[simp] theorem execFqconsWrite_canonical (s : State) (hs : Canonical s) : AnsCanonical (execFqconsWrite s) := by
  unfold execFqconsWrite
  refine onEvent_canonical _ _ hs fun e => ?_
  dsimp only
  repeat' split
  all_goals simp [hs]

/-! ### Partitions and contexts -/

@[simp] theorem execCreate_canonical (s : State) (hs : Canonical s) : AnsCanonical (execCreate s) := by
  have creates (u : State) (hu : Canonical u) (p arg : Nat) (bs : List Byte) : Canonical ((offerWindows p (partOf bs) (State.modCore
      { u with
        parts := tset u.parts p { partOf bs with creating := true }
        ctxs := tset u.ctxs (partOf bs).sctxid { part := p, super := true, prio := 3, root := (partOf bs).sroot } }
      (partOf bs).supcore fun k => { k with holder := some (partOf bs).sctxid })).later 4096 (.create p arg)) := by
    refine State.later_canonical _ (offerWindows_canonical _ _ _ (State.modCore_canonical _ ?_ _ _ ?_)) _ _
    · exact { hu with parts := hu.parts.tset p .nil, ctxs := hu.ctxs.tset _ ⟨.nil, .nil, by simp⟩ }
    · exact fun k hk => { hk with }
  unfold execCreate
  refine onEvent_canonical _ _ hs fun e => ?_
  split
  next p arg =>
    split
    next q _ =>
      exact State.ite_canonical (State.pcmdDone_canonical _ _ (State.modPart_canonical _ (startSupervisors_canonical _ _ _ hs) _ _ fun q hq => hq))
        (s.pcmdDone_canonical _ hs)
    · refine s.withHost_canonical _ _ _ (fun u hu => u.pcmdDone_canonical _ hu) (fun u hu => State.ite_canonical (u.pcmdDone_canonical _ hu) ?_) hs
      exact creates _ (State.zeroClusters_canonical _ _ (State.zeroPumps_canonical _ _ (u.zeroRange_canonical _ _ hu))) _ _ _
  · exact hs
@[simp] theorem execDestroy_canonical (s : State) (hs : Canonical s) : AnsCanonical (execDestroy s) := by
  have gone (u : State) (hu : Canonical u) (f : Nat × Pump → Bool) (g : Nat × Ctx → Bool) (p : Nat) :
      Canonical { u with pumps := u.pumps.filter f, ctxs := u.ctxs.filter g, parts := terase u.parts p } :=
    { hu with pumps := rising_filter _ _ hu.pumps, ctxs := hu.ctxs.filter _, parts := hu.parts.terase p }
  unfold execDestroy
  refine onEvent_canonical _ _ hs fun e => ?_
  split
  · split
    · exact s.pcmdDone_canonical _ hs
    · exact State.pcmdDone_canonical _ _ (State.zeroRange_canonical _ _ _ (State.modVf_canonical _ (gone _ (State.zeroClusters_canonical _ _
        (State.dropTranslations_canonical _ _ (s.dropWork_canonical _ _ _ _ hs))) _ _ _) _ _))
  · exact hs
@[simp] theorem migrate_canonical (p : Nat) (q new : Part) (s : State) (hn : Rising new.keys) (hs : Canonical s) : Canonical (migrate p q new s) := by
  have lines (u : State) (hu : Canonical u) (f : Nat × HeldLine → Bool) : Canonical { u with lines := u.lines.filter f } :=
    { hu with lines := rising_filter _ _ hu.lines }
  have parts (u : State) (hu : Canonical u) (f : Nat × Pump → Bool) (q : Part) (hq : Rising q.keys) :
      Canonical { u with pumps := u.pumps.filter f, parts := tset u.parts p q } :=
    { hu with pumps := rising_filter _ _ hu.pumps, parts := hu.parts.tset p hq }
  unfold migrate
  refine State.pcmdDone_canonical _ _ (State.serve_canonical _ _ (State.foldl_canonical _ _ _ (fun u x hu => State.ite_canonical ?_ hu)
    (State.foldl_canonical _ _ _ (fun u x hu => State.ite_canonical ?_ hu) ?_)))
  · exact State.foldl_canonical _ _ _ (fun v y hv => State.ite_canonical (v.later_canonical hv _ _) hv) hu
  · exact State.modCtx_canonical _ (failCtx_canonical _ _ _ _ _ hu) _ _ fun x hx => { hx with saved := by simp }
  · have cleared := lines _ (s.zeroRange_canonical (windowBase p + min q.hashed new.hashed) (2 ^ 41 - min q.hashed new.hashed) hs)
    exact parts _ (State.zeroPumps_canonical _ _ (State.zeroClusters_canonical _ _
        (cleared _))) _ { new with quiesced := false, next := [], creating := false } hn
@[simp] theorem execResize_canonical (s : State) (hs : Canonical s) : AnsCanonical (execResize s) := by
  have hosted (b : Bool) (a : Word) (f : State → State) (hf : ∀ u, Canonical u → Canonical (f u)) :
      Canonical ((if b then fun f => f s else s.withHost a (·.pcmdDone 2)) f) := by
    cases b
    · exact s.withHost_canonical _ _ _ (fun u hu => u.pcmdDone_canonical _ hu) hf hs
    · exact hf s hs
  unfold execResize
  refine onEvent_canonical _ _ hs fun e => ?_
  split
  next p arg =>
    split
    · exact s.pcmdDone_canonical _ hs
    next q here =>
      have keys := hs.part here
      refine hosted _ _ _ fun u hu => State.ite_canonical (State.ite_canonical (migrate_canonical _ _ _ _ keys hu) (State.ite_canonical ?_ ?_))
        (State.ite_canonical (u.pcmdDone_canonical _ hu) ?_)
      · exact State.later_canonical _ (u.saveResidents_canonical _ hu) _ _
      · refine State.later_canonical _ ?_ _ _
        exact u.modPart_canonical hu _ _ fun q hq => hq
      · refine State.later_canonical _ (State.saveResidents_canonical _ _ ?_) _ _
        exact u.modPart_canonical hu _ _ fun q hq => hq
  · exact hs
@[simp] theorem execKey_canonical (s : State) (hs : Canonical s) : AnsCanonical (execKey s) := by
  unfold execKey
  refine onEvent_canonical _ _ hs fun e => ?_
  split
  · split
    · exact s.pcmdDone_canonical _ hs
    · refine s.withHost_canonical _ _ _ (fun u hu => u.pcmdDone_canonical _ hu) (fun u hu => ?_) hs
      exact State.pcmdDone_canonical _ _ (State.rekeyHeld_canonical _ _ _ (u.modPart_canonical hu _ _ fun q hq => tset_rising _ _ _ hq))
  · exact hs
theorem State.translateNow_canonical_of (s : State) {t : State} {v : View} {va : Word} {acc : Access} {r : Except Nat Phys}
    (found : s.translateNow v va acc = (r, t)) (hs : Canonical s) : Canonical t := by
  have walked := s.translateNow_canonical v va acc hs
  rw [found] at walked
  exact walked
@[simp] theorem execContextCreate_canonical (s : State) (hs : Canonical s) : AnsCanonical (execContextCreate s) := by
  have put (u : State) (hu : Canonical u) (c p : Nat) (bs : List Byte) : Canonical { u with ctxs := tset u.ctxs c (ctxOf p bs) } :=
    { hu with ctxs := hu.ctxs.tset c ⟨.nil, .nil, by simp [ctxOf]⟩ }
  unfold execContextCreate
  refine onEvent_canonical _ _ hs fun e => ?_
  split
  next p =>
    split
    · exact s.ctxDone_canonical _ _ hs
    · refine s.withHost_canonical _ _ _ (fun u hu => u.ctxDone_canonical _ _ hu) (fun u hu => ?_) hs
      have refused := u.ctxDone_canonical p 2 hu
      refine State.ite_canonical refused ?_
      dsimp only
      split
      next ph t found =>
        have walked : Canonical t := State.translateNow_canonical_of _ found (put u hu _ _ _)
        exact State.ite_canonical (t.ctxDone_canonical _ _ walked) refused
      · exact refused
  · exact hs
@[simp] theorem execContextDestroy_canonical (s : State) (hs : Canonical s) : AnsCanonical (execContextDestroy s) := by
  have stops (c : Nat) (l : List Nat) : Canonical (l.foldl (fun s h => stopThread h s)
      (s.modCtx c fun x => { x with phase := .saving, saveStage := 3, failed := true, sliceLeft := none })) :=
    State.foldl_canonical _ _ _ (fun v h hv => stopThread_canonical _ _ hv) (s.modCtx_canonical hs _ _ fun x hx => { hx with })
  unfold execContextDestroy
  refine onEvent_canonical _ _ hs fun e => ?_
  split
  next p c =>
    have refused := s.ctxDone_canonical p 2 hs
    split
    · exact refused
    · have copies (u : State) (hu : Canonical u) := stopCopies_canonical c _ (askPumps_canonical c _ (takeLaunches_canonical c u hu))
      exact State.ite_canonical refused (State.ite_canonical (eraseCtx_canonical _ _ _ hs) (State.ite_canonical (s.later_canonical hs _ _)
        (State.ite_canonical (eraseCtx_canonical _ _ _ (copies _ (stops _ _))) (State.later_canonical _ (copies _ (stops _ _)) _ _))))
  · exact hs
@[simp] theorem execThreadRead_canonical (s : State) (hs : Canonical s) : AnsCanonical (execThreadRead s) := by
  unfold execThreadRead
  refine onEvent_canonical _ _ hs fun e => ?_
  split <;> simp [hs]
@[simp] theorem execThreadWrite_canonical (s : State) (hs : Canonical s) : AnsCanonical (execThreadWrite s) := by
  unfold execThreadWrite
  refine onEvent_canonical _ _ hs fun e => ?_
  split <;> simp [hs]
@[simp] theorem execThreadResume_canonical (s : State) (hs : Canonical s) : AnsCanonical (execThreadResume s) := by
  unfold execThreadResume
  refine onEvent_canonical _ _ hs fun e => ?_
  split <;> simp [hs]
@[simp] theorem execAttest_canonical (s : State) (hs : Canonical s) : AnsCanonical (execAttest s) := by
  unfold execAttest
  refine onEvent_canonical _ _ hs fun e => ?_
  split
  next p =>
    have answered (u : State) (hu : Canonical u) := u.modVf_canonical hu p fun f => { f with attestGo := false }
    refine s.withHost_canonical _ _ _ (fun u hu => answered u hu) (fun u hu => ?_) hs
    dsimp only
    split
    · exact answered u hu
    · exact putRaw_canonical _ (answered u hu) _ _
  · exact hs
@[simp] theorem hostAtomic_canonical (p off key : Nat) (a : HostAtom) (st : Option (List Byte)) (s : State) (hs : Canonical s) :
    Canonical (hostAtomic p off key a st s) := by
  unfold hostAtomic
  dsimp only
  repeat' split
  all_goals simp [hs]
@[simp] theorem execHostMemAccess_canonical (s : State) (hs : Canonical s) : AnsCanonical (execHostMemAccess s) := by
  unfold execHostMemAccess
  refine onEvent_canonical _ _ hs fun e => ?_
  split
  · split
    · exact hs
    · refine State.ite_canonical hs (State.ite_canonical (s.later_canonical hs _ _) (State.ite_canonical
        (State.later_canonical _ (s.snoopAgent_canonical _ hs) _ _) (s.atUnits_canonical _ _ _ _ _ _ (fun u hu => u.later_canonical hu _ _)
          (fun u hu => ?_) hs)))
      split
      · exact hostAtomic_canonical _ _ _ _ _ _ hu
      · split
        · exact u.holdLine_canonical _ _ hu
        · exact State.afterWrite_canonical _ _ _ _ (putRaw_canonical _ hu _ _)
  · exact hs
@[simp] theorem execHostSnoop_canonical (s : State) (hs : Canonical s) : AnsCanonical (execHostSnoop s) := by
  unfold execHostSnoop
  refine onEvent_canonical _ _ hs fun e => ?_
  split
  · exact State.ite_canonical (s.later_canonical hs _ _) { hs with hostLines := terase_rising _ _ hs.hostLines }
  · exact hs
@[simp] theorem execBackInvalidateResponse_canonical (s : State) (hs : Canonical s) : AnsCanonical (execBackInvalidateResponse s) := by
  unfold execBackInvalidateResponse
  refine onEvent_canonical _ _ hs fun e => ?_
  split <;> simp [hs]
@[simp] theorem execLinkFlitReplay_canonical (s : State) (hs : Canonical s) : AnsCanonical (execLinkFlitReplay s) := by
  unfold execLinkFlitReplay
  refine onEvent_canonical _ _ hs fun e => ?_
  split
  · exact State.ite_canonical { hs with linkSeq := tset_rising _ _ _ hs.linkSeq } hs
  · exact hs
@[simp] theorem execLinkFailure_canonical (s : State) (hs : Canonical s) : AnsCanonical (execLinkFailure s) := by
  grind [execLinkFailure, State.dropEvents_canonical, State.foldl_canonical, State.modPart_canonical, State.parts_canonical, failFar_canonical,
    onEvent_canonical, canonical_same]
@[simp] theorem execFabricWindowActivate_canonical (s : State) (hs : Canonical s) : AnsCanonical (execFabricWindowActivate s) := by
  grind [execFabricWindowActivate, State.modPart_canonical, onEvent_canonical]
@[simp] theorem execInjectionWindowStart_canonical (s : State) (hs : Canonical s) : AnsCanonical (execInjectionWindowStart s) := by
  have counts (u : State) (hu : Canonical u) (k n : Nat) : Canonical { u with inj := tset u.inj k n } := { hu with inj := tset_rising _ _ _ hu.inj }
  unfold execInjectionWindowStart
  refine onEvent_canonical _ _ hs fun e => ?_
  split
  · extract_lets old
    split
    rename_i l t entered
    have ht : Canonical (l, t).2 := by
      rw [← entered]
      refine State.foldlSnd_canonical _ _ _ (fun u w hu => ?_) { hs with inj := .nil }
      obtain ⟨ins, v⟩ := u
      dsimp only
      split
      · exact enterLate_canonical _ _ hu
      · split
        · exact enterLate_canonical _ _ (counts _ hu _ _)
        · exact { hu with }
    exact State.ite_canonical ht (State.windowSet_canonical _ ht)
  · exact hs
@[simp] theorem writeVf_canonical (p a : Nat) (v : Word) (s : State) (hs : Canonical s) : Canonical (writeVf p a v s) := by
  unfold writeVf
  dsimp only
  repeat' split
  all_goals simp [hs]
@[simp] theorem execRegisterWrite_canonical (s : State) (hs : Canonical s) : AnsCanonical (execRegisterWrite s) := by
  unfold execRegisterWrite
  refine onEvent_canonical _ _ hs fun e => ?_
  dsimp only
  repeat' split
  all_goals simp [hs]

/-! ### Debug modules and bring-up -/

@[simp] theorem execDbgHalt_canonical (s : State) (hs : Canonical s) : AnsCanonical (execDbgHalt s) := by
  unfold execDbgHalt
  refine onEvent_canonical _ _ hs fun e => ?_
  split <;> simp [hs]
@[simp] theorem execHaltTriggerArrival_canonical (s : State) (hs : Canonical s) : AnsCanonical (execHaltTriggerArrival s) := by
  unfold execHaltTriggerArrival
  refine onEvent_canonical _ _ hs fun e => ?_
  split <;> simp [hs]
@[simp] theorem execCoreHaltStop_canonical (s : State) (hs : Canonical s) : AnsCanonical (execCoreHaltStop s) := by
  unfold execCoreHaltStop
  refine onEvent_canonical _ _ hs fun e => ?_
  split <;> simp [hs]
@[simp] theorem execDbgRun_canonical (s : State) (hs : Canonical s) : AnsCanonical (execDbgRun s) := by
  grind [execDbgRun, State.dies_canonical, State.foldl_canonical, State.later_canonical, State.modCluster_canonical, State.resumeTimed_canonical,
    State.runCores_canonical, State.serve_canonical, onEvent_canonical, resumeSlices_canonical, traceEvent_canonical, Cluster.canonical_def,
    canonical_same]
@[simp] theorem execDbgInvi_canonical (s : State) (hs : Canonical s) : AnsCanonical (execDbgInvi s) := by
  unfold execDbgInvi
  refine onEvent_canonical _ _ hs fun e => ?_
  split
  · refine { hs with cores := ?_ }
    dsimp only
    exact hs.cores.tmap fun n k hk => Core.ite_canonical { hk with icache := .nil } hk
  · exact hs
@[simp] theorem execDbgRead_canonical (s : State) (hs : Canonical s) : AnsCanonical (execDbgRead s) := by
  grind [execDbgRead, State.dbgStatus_canonical, State.modCluster_canonical, onEvent_canonical, Cluster.canonical_def, canonical_same]
@[simp] theorem execDbgWrite_canonical (s : State) (hs : Canonical s) : AnsCanonical (execDbgWrite s) := by
  grind [execDbgWrite, State.dbgStatus_canonical, State.itemWrite_canonical, State.landWell_canonical, State.modCore_canonical, onEvent_canonical,
    tset_rising, Core.canonical_def, canonical_same]
@[simp] theorem execReadySet_canonical (s : State) (hs : Canonical s) : AnsCanonical (execReadySet s) := by
  unfold execReadySet
  refine onEvent_canonical _ _ hs fun e => ?_
  split
  · split
    · exact checkHub_canonical _ hs
    · exact { hs with }
    · exact checkStacks_canonical _ hs
    next g =>
      refine comesUp_canonical _ _ _ (fun u hu => ?_) hs
      exact { u.modCluster_canonical hu g (fun k => { k with readyAt := u.cycle }) (fun k hk => { hk with }) with }
    all_goals exact comesUp_canonical _ _ _ (fun u hu => { hu with }) hs
  · exact hs
@[simp] theorem execModuleReset_canonical (s : State) (hs : Canonical s) : AnsCanonical (execModuleReset s) := by
  have fresh : Canonical State.reset :=
    ⟨rfl, .nil, .nil, .nil, .nil, .nil, .nil, .nil, .nil, .nil, .nil, .nil, .nil, .nil, .nil, .nil, .nil, .nil⟩
  unfold execModuleReset
  refine onEvent_canonical _ _ hs fun e => ?_
  split
  · refine State.foldl_canonical _ _ _ (fun u x hu => u.later_canonical hu _ _) ?_
    exact { fresh with mem := filter_wf _ _ hs.mem }
  · exact hs
@[simp] theorem execPowerThrottle_canonical (s : State) (hs : Canonical s) : AnsCanonical (execPowerThrottle s) := by
  unfold execPowerThrottle
  refine onEvent_canonical _ _ hs fun e => ?_
  split <;> simp [hs]
@[simp] theorem execThermalHalt_canonical (s : State) (hs : Canonical s) : AnsCanonical (execThermalHalt s) := by
  grind [execThermalHalt, State.fire_canonical, State.forUpto_canonical, State.modDie_canonical, haltCluster_canonical, onEvent_canonical,
      Die.canonical_def,
    canonical_same]

/-! ### Vectors -/

@[simp] theorem bitwise_canonical (i : Instr) (s : State) (f : VReg → VReg → VReg) (hs : Canonical s) : AnsCanonical (bitwise i s f) := by
  simp [bitwise, hs]
@[simp] theorem execVcvt_canonical (t : BitVec 3) (n : BitVec 1) (sc : BitVec 4) (p : BitVec 5) (a d : Reg) (s : State) (hs : Canonical s) :
    AnsCanonical (execVcvt t n sc p a d s) := by simp [execVcvt, hs]
@[simp] theorem execVqnt_canonical (t : BitVec 3) (n : BitVec 1) (p : BitVec 2) (b a d : Reg) (s : State) (hs : Canonical s) :
    AnsCanonical (execVqnt t n p b a d s) := by simp [execVqnt, hs]
@[simp] theorem execVdq_canonical (p : BitVec 3) (sc : BitVec 2) (b a d : Reg) (s : State) (hs : Canonical s) :
    AnsCanonical (execVdq p sc b a d s) := by
  simp [execVdq, hs]
@[simp] theorem execVbcast_canonical (t : BitVec 3) (a d : Reg) (s : State) (hs : Canonical s) : AnsCanonical (execVbcast t a d s) := by
  simp [execVbcast, hs]
@[simp] theorem extract_canonical (i : Instr) (w : Nat) (signed : Bool) (b d : Reg) (s : State) (hs : Canonical s) :
    AnsCanonical (extract i w signed b d s) := by
  grind [extract, State.pass_canonical, State.setX_canonical, State.takeOperands_canonical, checkedBy_canonical, onQueues_canonical]
@[simp] theorem execVins_canonical (t : BitVec 3) (b a d : Reg) (s : State) (hs : Canonical s) : AnsCanonical (execVins t b a d s) := by
  simp [execVins, hs]
@[simp] theorem execVperm_canonical (t : BitVec 3) (b a d : Reg) (s : State) (hs : Canonical s) : AnsCanonical (execVperm t b a d s) := by
  simp [execVperm, hs]
@[simp] theorem execVslide_canonical (t : BitVec 3) (b a d : Reg) (s : State) (hs : Canonical s) : AnsCanonical (execVslide t b a d s) := by
  simp [execVslide, hs]
@[simp] theorem execViota_canonical (t : BitVec 3) (d : Reg) (s : State) (hs : Canonical s) : AnsCanonical (execViota t d s) := by
  simp [execViota, hs]
@[simp] theorem execVmovi_canonical (t : BitVec 3) (i : BitVec 10) (d : Reg) (s : State) (hs : Canonical s) : AnsCanonical (execVmovi t i d s) := by
  simp [execVmovi, hs]
@[simp] theorem reduce_canonical (i : Instr) (w : Nat) (s : State) (f : Nat → Nat → Nat → Nat × Fl) (hs : Canonical s) :
    AnsCanonical (reduce i w s f) := by
  simp [reduce, hs]
@[simp] theorem topk_canonical (i : Instr) (e : Elt) (k : BitVec 5) (d : Reg) (s : State) (hs : Canonical s) : AnsCanonical (topk i e k d s) := by
  grind [topk, State.foldl_canonical, State.modSelf_canonical, State.pass_canonical, State.takeOperands_canonical, State.trap_canonical,
      checkedBy_canonical,
    onQueues_canonical, raiseFl_canonical]

end Sys2Proof.Machine
end

section
/-!
SUPPORT and O59. An instruction keeps the state canonical, whichever it is; so do issuing, gangs, events and the end of a cycle; so does a step.
-/

namespace Sys2Proof.Machine
open Spec (Rising)

theorem exec_canonical (i : Instr) (s : State) (hs : Canonical s) : AnsCanonical (exec i s) := by
  -- an arm that is one of the shared operations is opened; each other arm has its lemma
  cases i <;> simp [exec, hs,
    execAdd, execSub, execMul, execMulh, execMulhn, execDiv, execDivn, execRem, execRemn, execAnd, execOr, execXor, execAndn,
    execOrn, execShl, execShr, execSra, execRotl, execRotr, execMin, execMax, execMinn, execMaxn, execSlt, execSltn, execBfx,
    execBfxn, execClz, execCtz, execPopc, execSextB, execSextH, execSextW, execZextB, execZextH, execZextW, execBswap, execAddi,
    execAndi, execOri, execXori, execShli, execShri, execSrai, execRoti, execSlti, execBfi, execLih, execAddpc, execCsrw,
    execCsrs, execCsrc, execSk, execSki, execTresume, execTstatr, execTstatw, execAmoAdd, execAmoAnd, execAmoOr, execAmoXor,
    execAmoMin, execAmoMax, execAmoMinn, execAmoMaxn, execAmoSwap, execAmoCas, execAmoFadd, execAmoFmax, execRedAdd, execRedAnd,
    execRedOr, execRedXor, execRedMin, execRedMax, execRedMinn, execRedMaxn, execRedFadd, execRedFmax, execCpy, execCpyt,
    execFill, execVabs, execVneg, execVnegF32Parcel, execVadd, execVsub, execVmul, execVmin, execVminN, execVmax, execVmaxN,
    execVshl, execVshr, execVsra, execVcmp, execVaddF32Parcel, execVsubF32Parcel, execVmulF32Parcel, execVmaxF32Parcel,
    execVminF32Parcel, execVaddI32Parcel, execVsubI32Parcel, execVaddB16Parcel, execVmulB16Parcel, execVshlI32Parcel,
    execVsraI32Parcel, execVand, execVor, execVxor, execVnot, execVandParcel, execVorParcel, execVxorParcel, execVmovParcel,
    execVfma, execVfms, execVsel, execVrsum, execVrmax, execVrmaxN, execVrmin, execVrminN, execVext, execVextN, execVtopk,
    execVtopkN, execVrcp, execVrsq, execVsqrt, execVdiv, execVexp2, execVlog2, execVsinp, execVcosp, execVtanh, execWacc,
    execWaccp, execWrnd, execWsave, execHacc, execHlook, execHclr, execMma, execMmaM, execMspw, execMspwM, execBkCpy, execBkFil,
    execBkAnd, execBkOr, execBkXor, execBkNot, execBkMaj]

/-- The instruction that an agent is at is no part of the tables, nor is who issues. -/
theorem canonical_issue (s : State) (i : Issue) (hs : Canonical s) : Canonical { s with issue := i } := { hs with }
theorem canonical_cur (s : State) (a : Agent) (i : Issue) (hs : Canonical s) : Canonical { s with cur := a, issue := i } := { hs with }
/-- A gang goes on with what it has not issued yet, or has issued everything. -/
theorem canonical_gangs (s : State) (leader : Nat) (g : Gang) {c : Prop} [Decidable c] (hs : Canonical s) :
    Canonical { s with gangs := if c then tset s.gangs leader g else terase s.gangs leader } := by
  refine { hs with gangs := ?_ }
  dsimp only
  split
  · exact tset_rising _ _ _ hs.gangs
  · exact terase_rising _ _ hs.gangs
@[simp] theorem State.fetchEnd_canonical (s : State) (p : Parcel) (hs : Canonical s) : Canonical (s.fetchEnd p).state := by
  unfold State.fetchEnd
  split
  · exact State.trap_canonical _ _ _ (canonical_issue s {} hs)
  · dsimp only [Next.state]
    split
    · exact s.blocks_canonical hs _
    · exact hs
@[simp] theorem State.annul_canonical (s : State) (hs : Canonical s) : Canonical s.annul.state := by
  grind [State.annul, State.fetch_canonical, State.fetchEnd_canonical, Next.state, State.modSeq_canonical]
/-- What an agent comes to at its program counter. -/
theorem State.nextInsn_canonical (s : State) (hs : Canonical s) : Canonical s.nextInsn.state := by
  grind [State.nextInsn, State.fetchInsn_canonical, State.fetchEnd_canonical, Next.state, State.trap_canonical, State.annul_canonical,
      canonical_issue]
theorem State.nextInsn_canonical_of {s : State} {n : Next} (hs : Canonical s) (found : s.nextInsn = n) : Canonical n.state :=
  found ▸ s.nextInsn_canonical hs
theorem stateOf_canonical (s : State) (a : Ans) (hs : Canonical s) (ha : AnsCanonical a) : Canonical (stateOf s a) := by
  unfold stateOf
  split
  · exact ha _ rfl
  · exact hs

/-! ### Issuing, with any meaning of instructions that keeps the state canonical -/

/-- A meaning of instructions that keeps the state canonical. -/
def KeepsCanonical (ex : Instr → State → Ans) : Prop := ∀ i s, Canonical s → AnsCanonical (ex i s)

/-- What the members of a gang have come to, one after the other, keeps the state canonical. -/
def RetireCanonical : Except (Option State) State → Prop
  | .ok s | .error (some s) => Canonical s
  | .error none => True

section
variable {ex : Instr → State → Ans} (hex : KeepsCanonical ex)
include hex

theorem memberRun_canonical (leader h : Nat) (e : GangInsn) (s : State) (hs : Canonical s) : Canonical (memberRun ex leader h e s) := by
  have onPath := s.onPath_canonical h e.path hs
  unfold memberRun
  dsimp only
  split
  · exact State.modThread_canonical _ onPath _ _
  · split
    next t effect =>
      refine State.modThread_canonical _ ?_ _ _
      split at effect
      · cases effect
      · exact followerEffect_canonical _ _ _ _ _ effect onPath
    · exact stateOf_canonical _ _ onPath (hex _ _ (canonical_cur _ _ _ onPath))
theorem memberAhead_canonical (leader h : Nat) (es : List GangInsn) (s : State) (hs : Canonical s) : Canonical (memberAhead ex leader h es s) :=
  State.foldl_canonical _ _ _ (fun u e hu => State.modThread_canonical _ (memberRun_canonical hex leader h e u hu) _ _) hs
theorem issueEarly_canonical (leader h : Nat) (e : GangInsn) (a s t : State) (x : EarlyLoad) (hs : Canonical s)
    (r : issueEarly ex leader h e a s = some (x, t)) : Canonical t := by
  unfold issueEarly at r
  split at r
  · cases r
  · split at r
    · cases r
    · cases r
      exact canonical_cur _ _ _ (State.setThread_canonical _ (memberRun_canonical hex leader h e _ (s.setThread_canonical hs _ _)) _ _)
theorem commitGang_canonical (leader : Nat) (ms : List Nat) (e : GangInsn) (s t : State) (hs : Canonical s)
    (r : commitGang ex leader ms e s = some t) : Canonical t := by
  have start : Canonical (ms.foldl (fun s h => s.onPath h e.path) s) := State.foldl_canonical _ _ _ (fun u h hu => u.onPath_canonical _ _ hu) hs
  have own (h : Nat) : ∀ u, Canonical u → Canonical (memberRun ex leader h e u) := memberRun_canonical hex leader h e
  unfold commitGang at r
  dsimp only at r
  generalize ms.foldl (fun s h => s.onPath h e.path) s = s0 at r start
  generalize found : ms.foldl _ (Except.ok s0) = y at r
  have members : RetireCanonical y := by
    rw [← found]
    refine List.foldlRecOn ms _ (motive := RetireCanonical) start fun u hu h _ => ?_
    split
    · exact hu
    · split
      · split
        · exact own h _ start
        · exact parkTrap_canonical _ _ _ _ _ (State.modThread_canonical _ (canonical_issue _ _ start) _ _)
      · split
        · trivial
        · exact own h _ hu
  split at r
  · subst r
    exact members
  · cases r
    refine canonical_gangs _ leader _ ?_
    refine State.ite_canonical members (State.foldl_canonical _ _ _ (fun u h hu => ?_) members)
    exact State.ite_canonical hu (u.onPath_canonical _ _ hu)
theorem issueMember_canonical (h place leader n : Nat) (ms : List Nat) (es : List GangInsn) (e : GangInsn) (s : State)
    (hs : Canonical s) : Canonical (issueMember ex h place leader n ms es e s) := by
  have ahead := memberAhead_canonical hex leader h es s hs
  have skips := s.skipPlace_canonical place hs
  unfold issueMember
  dsimp only
  refine State.ite_canonical skips ?_
  generalize memberAhead ex leader h es s = a at ahead
  generalize { e with at_ := e.at_ ++ [s.cycle] } = e'
  have run := memberRun_canonical hex leader h e' a ahead
  have parks := memberRun_canonical hex leader h e' _ (State.foldl_canonical (fun s m => s.onPath m e.path) ms s
      (fun u m hu => u.onPath_canonical _ _ hu) hs)
  refine State.ite_canonical (State.ite_canonical skips (State.slotTaken_canonical _ _ _ (canonical_issue _ _ parks)))
    (State.ite_canonical (State.ite_canonical skips (State.skipPlace_canonical _ _ (canonical_issue _ _ run))) ?_)
  generalize found : (if e.at_.length + 1 = n then (e', s) else _) = y
  have early : Canonical y.2 := by
    rw [← found]
    split
    · exact hs
    · split
      next x t r => exact issueEarly_canonical hex leader h e' a s t x hs r
      · exact hs
  have noted := y.2.modGang_canonical leader (fun g => if e.at_.length = 0 then { insns := g.insns ++ [y.1], path := none }
    else { g with insns := es ++ y.1 :: g.insns.drop (es.length + 1) }) early
  refine State.ite_canonical (State.slotTaken_canonical _ _ _ noted) ?_
  split
  next t r => exact State.slotTaken_canonical _ _ _ (canonical_issue _ _ (commitGang_canonical hex _ _ _ _ _ noted r))
  · exact State.skipPlace_canonical _ _ (State.modGang_canonical _ _ _ noted)
theorem issueLeader_canonical (h place n : Nat) (ms : List Nat) (s : State) (hs : Canonical s) : Canonical (issueLeader ex h place n ms s) := by
  have ahead := memberAhead_canonical hex h h (s.gangOf h).insns s hs
  have skips := s.skipPlace_canonical place hs
  have begins (o : Option Path) (u : State) (hu : Canonical u) : Canonical (match o with | some p => u.onPath h p | none => u) := by
    cases o
    · exact hu
    · exact u.onPath_canonical _ _ hu
  unfold issueLeader
  dsimp only
  refine State.ite_canonical skips ?_
  have start {m : Next} := State.nextInsn_canonical_of (n := m) (canonical_cur _ (.thread h) {} (begins (s.gangOf h).path _ ahead))
  split
  next u found => exact State.ite_canonical (State.skipPlace_canonical _ _ (start found)) skips
  next u slot found =>
    exact State.ite_canonical (State.movePath_canonical _ _ _ _ (s.keepFetch_canonical _ _ (start found) hs))
      (State.ite_canonical (State.slotTaken_canonical _ _ _ (canonical_issue _ _ (start found))) skips)
  next i u found =>
    have kept := s.keepFetch_canonical u (coreOf h) (start found) hs
    have member := issueMember_canonical hex h place h n ms (s.gangOf h).insns
    exact State.ite_canonical (State.movePath_canonical _ _ _ _ kept)
      (State.ite_canonical (member _ _ kept) (State.spendBrkSkip_canonical _ _ _ (member _ _ kept)))
theorem issueOwn_canonical (h place : Nat) (s : State) (hs : Canonical s) : AnsCanonical (issueOwn ex h place s) := by
  unfold issueOwn
  split
  next t found => exact ansCanonical_next _ (t.skipPlace_canonical _ (State.nextInsn_canonical_of hs found))
  next t slot found =>
    have start : Canonical t := State.nextInsn_canonical_of hs found
    exact ansCanonical_next _ (State.ite_canonical (canonical_issue _ _ start)
      (State.ite_canonical (State.skipPlace_canonical _ _ (s.keepFetch_canonical _ _ start hs)) (State.slotTaken_canonical _ _ _
          (canonical_issue _ _ start))))
  next i t found =>
    have start : Canonical t := State.nextInsn_canonical_of hs found
    have operands := t.useBrkSkip_canonical h start
    split
    · exact ansCanonical_next _ (t.skipPlace_canonical _ start)
    · dsimp only
      split
      next u run => exact ansCanonical_next _ (State.ite_canonical (t.skipPlace_canonical _ start) (u.issued_canonical _ _ _ _
          (hex _ _ operands _ run)))
      · exact hex _ _ operands
theorem issueTrap_canonical (h place : Nat) (s : State) (hs : Canonical s) : Canonical (issueTrap ex h place s) := by
  have once (u : State) (hu : Canonical u) : Canonical (stateOf u (issueOwn ex h place u)) := stateOf_canonical _ _ hu
      (issueOwn_canonical hex h place u hu)
  unfold issueTrap
  refine State.ite_canonical (State.ite_canonical (once _ (once _ hs)) (once _ hs))
    (State.skipPlace_canonical _ _ (s.keepFetch_canonical _ _ ?_ hs))
  exact State.ite_canonical (once _ (once _ hs)) (once _ hs)
theorem issueThread_canonical (h place : Nat) (s : State) (hs : Canonical s) : AnsCanonical (issueThread ex h place s) := by
  have begins := canonical_cur s (.thread h) {} hs
  unfold issueThread
  extract_lets t r
  have ht : Canonical t := begins
  clear_value t
  split
  next leader n j gang =>
    have members : Canonical (if j = 0 then issueLeader ex h place n (membersOf (t.thread h) h) t
        else match (t.gangOf leader).next j t.cycle with
          | some (es, e) => issueMember ex h place leader n (membersOf (t.thread h) h) es e t
          | none => t.skipPlace place) := by
      refine State.ite_canonical (issueLeader_canonical hex _ _ _ _ _ ht) ?_
      split
      · exact issueMember_canonical hex _ _ _ _ _ _ _ _ ht
      · exact t.skipPlace_canonical _ ht
    exact ansCanonical_next _ (State.ite_canonical (t.skipPlace_canonical _ ht) members)
  · split
    · exact ansCanonical_next _ (issueTrap_canonical hex _ _ _ ht)
    · exact issueOwn_canonical hex _ _ _ ht
theorem issuePump_canonical (c place : Nat) (s : State) (hs : Canonical s) : AnsCanonical (issuePump ex c place s) := by
  have start {m : Next} := State.nextInsn_canonical_of (n := m) (canonical_cur s (.pump c) {} hs)
  unfold issuePump
  dsimp only
  split
  next t found => exact ansCanonical_next _ (t.skipPlace_canonical _ (start found))
  next t slot found =>
    have done := canonical_issue _ {} (start found)
    exact ansCanonical_next _ (State.ite_canonical (State.skipPlace_canonical _ _ done) done)
  next i t found =>
    split
    · exact ansCanonical_next _ (t.skipPlace_canonical _ (start found))
    · split
      next u run =>
        have after := canonical_issue _ {} (hex _ _ (start found) _ run)
        exact ansCanonical_next _ (State.ite_canonical after (State.skipPlace_canonical _ _ after))
      · exact hex _ _ (start found)
theorem issueNext_canonical (s : State) (end_ : State → Ans) (hs : Canonical s) (hend : AnsCanonical (end_ s)) :
    AnsCanonical (issueNext ex s end_) := by
  unfold issueNext
  split
  · exact issueThread_canonical hex _ _ _ hs
  · exact issuePump_canonical hex _ _ _ hs
  · exact hend
theorem takeEvent_canonical (s : State) (e : Event) (rest : List (Nat × Event)) (hs : Canonical s) : AnsCanonical (takeEvent ex s e rest) := by
  have taken : Canonical { s with agenda := rest } := { hs with }
  have due : Canonical { s with agenda := rest, ev := some e } := { hs with }
  unfold takeEvent
  split
  · intro t r; cases r
  · split
    next u run =>
      have done := hex _ _ due _ run
      exact ansCanonical_next _ (State.ite_canonical (State.later_canonical _ taken _ _) { done with })
    · exact hex _ _ due
end

/-! ### The end of a cycle -/

theorem State.writeTrace_canonical (s : State) (cl : Nat) (hs : Canonical s) : Canonical (s.writeTrace cl) := by
  have turns := s.modCluster_canonical hs cl (fun k => { k with dbg := k.dbg.takeTurns }) fun k hk => { hk with }
  unfold State.writeTrace
  dsimp only
  split
  · exact turns
  · refine State.ite_canonical turns (State.atUnits_canonical _ _ _ _ _ _ _ (fun u hu => hu) (fun u hu => ?_) turns)
    refine State.afterWrite_canonical _ _ _ _ (putRaw_canonical _ ?_ _ _)
    exact u.modCluster_canonical hu _ _ fun k hk => { hk with }
@[simp] theorem State.writeTraces_canonical (s : State) (hs : Canonical s) : Canonical s.writeTraces :=
  State.foldl_canonical _ _ _ (fun u x hu => State.ite_canonical hu (State.writeTrace_canonical u x.1 hu)) hs
@[simp] theorem State.tick_canonical (s : State) (hs : Canonical s) : Canonical s.tick := by
  have held := State.holdTimed_canonical _ (s.writeTraces_canonical hs)
  exact State.recordReleases_canonical _ { held with }

/-! ### One step -/

theorem stepWith_canonical {ex : Instr → State → Ans} (hex : KeepsCanonical ex) (s : State) (hs : Canonical s) : AnsCanonical (stepWith ex s) := by
  have tick : AnsCanonical (.next s.tick) := ansCanonical_next _ (s.tick_canonical hs)
  unfold stepWith
  split
  next due e rest _ =>
    have event := takeEvent_canonical hex s e rest hs
    split
    · exact issueNext_canonical hex s _ hs tick
    · split
      · exact issueNext_canonical hex s _ hs event
      · exact event
  · exact issueNext_canonical hex s _ hs tick

end Sys2Proof.Machine

open Sys2Proof Sys2Proof.Machine Sys2Proof.Spec

/-- Settles O59: each instruction and each step of an engine keeps wells and tables canonical, and so do issuing and the end of a cycle. -/
theorem stepKeepsTablesCanonical : Obligations.StepKeepsTablesCanonical := by
  intro s t hm ht next
  have kept := stepWith_canonical exec_canonical s ((canonical_iff s).mpr ⟨hm, ht⟩) t next
  exact ((canonical_iff t).mp kept).2
end

section
/-!
SUPPORT and O9. A write of a scalar register changes the register, what was awaited for it, and nothing else.
-/

namespace Sys2Proof.Machine

theorem Seq.put_only (q : Seq) (d : Reg) (v : Word) : q.put d v = { q with x := (q.put d v).x } := by
  unfold Seq.put
  split <;> rfl
theorem isShadow_of_handler {t : Thread} {r : Reg} (handler : t.uiAct = true) (low : 24 ≤ r.toNat) (high : r.toNat ≤ 29) : isShadow t r = true := by
  simp [isShadow, handler, low, high]
theorem isShadow_outside {t : Thread} (r : Reg) (outside : t.uiAct = false) : isShadow t r = false := by simp [isShadow, outside]
/-- A write to a thread: the shadow registers or its own are written, and nothing is awaited for the register any more (R23, R45). -/
theorem Thread.setX_only (t : Thread) (d : Reg) (v : Word) : t.setX d v =
    { t with seq := { t.seq with x := (t.setX d v).seq.x }, shadow := (t.setX d v).shadow, pend := terase t.pend (pendNum t d) } := by
  unfold Thread.setX
  split
  · rfl
  · dsimp only
    rw [← Seq.put_only]
theorem Thread.setX_seq_of_shadow (t : Thread) (d : Reg) (v : Word) (shadow : isShadow t d = true) : (t.setX d v).seq = t.seq := by
  simp [Thread.setX, shadow]
theorem Thread.setX_shadow_of_own (t : Thread) (d : Reg) (v : Word) (own : isShadow t d = false) : (t.setX d v).shadow = t.shadow := by
  simp [Thread.setX, own]

end Sys2Proof.Machine

open Sys2Proof Sys2Proof.Machine Sys2Proof.Spec

/-- Settles O9: a register reads back what was written, and the write changes nothing else of the agent. -/
theorem scalarRegisterFile : Obligations.ScalarRegisterFile := by
  intro s d v
  refine ⟨s.getX_zero, fun r => s.setX_getX d r v, fun h thread => ?_, fun c pump => ?_⟩
  · have write : s.setX d v = s.modThread h fun t => t.setX d v := by simp [State.setX, thread]
    have own : (s.setX d v).thread h = (s.thread h).setX d v := by rw [write, State.modThread_thread_same]
    refine ⟨⟨by rw [write]; rfl, fun g other => ?_⟩, ?_, fun handler low high => ?_, fun outside => ?_⟩
    · rw [write, State.modThread_thread, if_neg other]
    · rw [own]
      exact Thread.setX_only _ d v
    · rw [own, Thread.setX_seq_of_shadow _ d v (isShadow_of_handler handler low high)]
    · rw [own, Thread.setX_shadow_of_own _ d v (isShadow_outside d outside)]
  · have write : s.setX d v = s.modPump c fun p => { p with seq := p.seq.put d v, pend := terase p.pend d.toNat } := by simp [State.setX, pump]
    refine ⟨by rw [write]; rfl, fun g other => ?_, ?_⟩
    · rw [write, State.modPump_pump, if_neg other]
    · rw [write, State.modPump_pump_same, ← Seq.put_only]
end

section
/-!
SUPPORT and O14. Every instruction that an agent can issue first makes the checks of R15 and R329.
-/

namespace Sys2Proof.Machine
open Spec (Encoded)

/-- The answer `a` is what the common checks of instruction `i` answer in state `s`, with some checks and some effect of its own. -/
def ChecksFirst (i : Instr) (s : State) (a : Ans) : Prop := ∃ pre f, a = checkedBy i pre s f

section
variable (i : Instr) (s : State)
theorem checksFirst_checkedBy (pre : State → Option (Nat × Word)) (f : State → State) : ChecksFirst i s (checkedBy i pre s f) := ⟨pre, f, rfl⟩
theorem checksFirst_checked (f : State → State) : ChecksFirst i s (checked i s f) := checksFirst_checkedBy i s _ f
theorem checksFirst_result (d : Reg) (f : State → Word) : ChecksFirst i s (result i d s f) := checksFirst_checked i s _
theorem checksFirst_alu2 (b a d : Reg) (f : Word → Word → Word) : ChecksFirst i s (alu2 i b a d s f) := checksFirst_result i s d _
theorem checksFirst_alu1 (a d : Reg) (f : Word → Word) : ChecksFirst i s (alu1 i a d s f) := checksFirst_result i s d _
theorem checksFirst_compareSkip (k : BitVec 2) (c : BitVec 3) (a b : Word) : ChecksFirst i s (compareSkip i k c s a b) :=
  checksFirst_checked i s _
theorem checksFirst_csrModify (n : BitVec 12) (skip : Bool) (f : Word → Word) : ChecksFirst i s (csrModify i n s skip f) :=
  checksFirst_checkedBy i s _ _
theorem checksFirst_supIssue (kind : SupKind) (handle sel v : Word) (d : Reg) : ChecksFirst i s (supIssue i kind handle sel v d s) :=
  checksFirst_checkedBy i s _ _
theorem checksFirst_vectorInsn (readsD : Bool) (limits : State → Option (Nat × Word)) (f : State → List VReg → VReg × List Fl) :
    ChecksFirst i s (vectorInsn i readsD limits s f) := checksFirst_checkedBy i s _ _
theorem checksFirst_lanewise (w : Nat) (f : Nat → List Nat → Nat × Fl) : ChecksFirst i s (lanewise i w s f) :=
  checksFirst_vectorInsn i s false _ _
theorem checksFirst_lanes2 (w : Nat) (f : Nat → Nat → Nat → Nat × Fl) : ChecksFirst i s (lanes2 i w s f) := checksFirst_lanewise i s w _
theorem checksFirst_lanes1 (w : Nat) (f : Nat → Nat → Nat × Fl) : ChecksFirst i s (lanes1 i w s f) := checksFirst_lanewise i s w _
theorem checksFirst_bitwise (f : VReg → VReg → VReg) : ChecksFirst i s (bitwise i s f) := checksFirst_vectorInsn i s false _ _
theorem checksFirst_extract (w : Nat) (signed : Bool) (b d : Reg) : ChecksFirst i s (extract i w signed b d s) := checksFirst_checkedBy i s _ _
theorem checksFirst_reduce (w : Nat) (f : Nat → Nat → Nat → Nat × Fl) : ChecksFirst i s (reduce i w s f) :=
  checksFirst_vectorInsn i s false _ _
theorem checksFirst_topk (e : Elt) (k : BitVec 5) (d : Reg) : ChecksFirst i s (topk i e k d s) := checksFirst_checkedBy i s _ _
theorem checksFirst_special (fn : SfuFn) (t : BitVec 3) (b a d : Reg) : ChecksFirst i s (special i fn t b a d s) := checksFirst_checkedBy i s _ _
theorem checksFirst_wideAdd (w : Nat) (r : Reg) (f : WAcc → Nat → Nat → WAcc × Fl) : ChecksFirst i s (wideAdd i w r s f) :=
  checksFirst_checkedBy i s _ _
theorem checksFirst_fromWide (w d : Reg) (f : State → WAcc → VReg × List Fl) : ChecksFirst i s (fromWide i w d s f) :=
  checksFirst_checkedBy i s _ _
theorem checksFirst_hashInsn (t : BitVec 8) (write : Bool) : ChecksFirst i s (hashInsn i t write s) := checksFirst_checkedBy i s _ _
theorem checksFirst_mmaInsn (c : BitVec 6) (masked : Bool) (b a d : Reg) : ChecksFirst i s (mmaInsn i c masked b a d s) :=
  checksFirst_checkedBy i s _ _
theorem checksFirst_mspwInsn (c : BitVec 6) (mask : Option Reg) (b a : Reg) : ChecksFirst i s (mspwInsn i c mask b a s) :=
  checksFirst_checkedBy i s _ _
theorem checksFirst_amo (op : AmoOp) (q : BitVec 3) (k : BitVec 2) (w : BitVec 1) (b a d : Reg) : ChecksFirst i s (amo i op q k w b a d s) := by
  unfold amo
  exact checksFirst_checkedBy i s _ _
theorem checksFirst_red (op : AmoOp) (q : BitVec 3) (k : BitVec 2) (w : BitVec 1) (b a : Reg) : ChecksFirst i s (red i op q k w b a s) := by
  unfold red
  exact checksFirst_checkedBy i s _ _
theorem checksFirst_copyInsn (r : State → CopyReq) : ChecksFirst i s (copyInsn i r s) := checksFirst_checkedBy i s _ _
theorem checksFirst_bankInsn (op : BkOp) (n : Nat) (b a d : Reg) : ChecksFirst i s (bankInsn i op n b a d s) := checksFirst_checkedBy i s _ _
end

theorem execRpt_checksFirst (p q r : BitVec 1) (n : BitVec 6) (s : State) : ChecksFirst (.rpt p q r n) s (execRpt p q r n s) := by
  unfold execRpt
  exact checksFirst_checkedBy ..
theorem execGang_checksFirst (b d : Reg) (s : State) : ChecksFirst (.gang b d) s (execGang b d s) := by
  unfold execGang
  exact checksFirst_checkedBy ..
theorem execVcvt_checksFirst (t : BitVec 3) (n : BitVec 1) (sc : BitVec 4) (p : BitVec 5) (a d : Reg) (s : State) :
    ChecksFirst (.vcvt t n sc p a d) s (execVcvt t n sc p a d s) := by
  unfold execVcvt
  exact checksFirst_vectorInsn ..
theorem execVqnt_checksFirst (t : BitVec 3) (n : BitVec 1) (p : BitVec 2) (b a d : Reg) (s : State) :
    ChecksFirst (.vqnt t n p b a d) s (execVqnt t n p b a d s) := by
  unfold execVqnt
  exact checksFirst_vectorInsn ..
theorem execVdq_checksFirst (p : BitVec 3) (sc : BitVec 2) (b a d : Reg) (s : State) : ChecksFirst (.vdq p sc b a d) s (execVdq p sc b a d s) := by
  unfold execVdq
  exact checksFirst_vectorInsn ..
theorem execVbcast_checksFirst (t : BitVec 3) (a d : Reg) (s : State) : ChecksFirst (.vbcast t a d) s (execVbcast t a d s) := by
  unfold execVbcast
  exact checksFirst_vectorInsn ..
theorem execVins_checksFirst (t : BitVec 3) (b a d : Reg) (s : State) : ChecksFirst (.vins t b a d) s (execVins t b a d s) := by
  unfold execVins
  exact checksFirst_vectorInsn ..
theorem execVperm_checksFirst (t : BitVec 3) (b a d : Reg) (s : State) : ChecksFirst (.vperm t b a d) s (execVperm t b a d s) := by
  unfold execVperm
  exact checksFirst_vectorInsn ..
theorem execVslide_checksFirst (t : BitVec 3) (b a d : Reg) (s : State) : ChecksFirst (.vslide t b a d) s (execVslide t b a d s) := by
  unfold execVslide
  exact checksFirst_vectorInsn ..
theorem execViota_checksFirst (t : BitVec 3) (d : Reg) (s : State) : ChecksFirst (.viota t d) s (execViota t d s) := by
  unfold execViota
  exact checksFirst_vectorInsn ..
theorem execVmovi_checksFirst (t : BitVec 3) (i : BitVec 10) (d : Reg) (s : State) : ChecksFirst (.vmovi t i d) s (execVmovi t i d s) := by
  unfold execVmovi
  exact checksFirst_vectorInsn ..
theorem execMzero_checksFirst (c : BitVec 6) (d : Reg) (s : State) : ChecksFirst (.mzero c d) s (execMzero c d s) := by
  unfold execMzero
  exact checksFirst_checkedBy ..
theorem execMldc_checksFirst (c : BitVec 6) (a : Reg) (s : State) : ChecksFirst (.mldc c a) s (execMldc c a s) := by
  unfold execMldc
  exact checksFirst_checkedBy ..
theorem execMstc_checksFirst (c : BitVec 6) (a : Reg) (s : State) : ChecksFirst (.mstc c a) s (execMstc c a s) := by
  unfold execMstc
  exact checksFirst_checkedBy ..
theorem execLd_checksFirst (p : BitVec 9) (o : BitVec 3) (n : BitVec 1) (z : BitVec 2) (a d : Reg) (s : State) :
    ChecksFirst (.ld p o n z a d) s (execLd p o n z a d s) := by
  unfold execLd
  exact checksFirst_checkedBy ..
theorem execSt_checksFirst (p : BitVec 9) (o : BitVec 3) (z : BitVec 2) (a d : Reg) (s : State) :
    ChecksFirst (.st p o z a d) s (execSt p o z a d s) := by
  unfold execSt
  exact checksFirst_checkedBy ..
theorem execLdl_checksFirst (p : BitVec 9) (o : BitVec 3) (n : BitVec 1) (z : BitVec 2) (a d : Reg) (s : State) :
    ChecksFirst (.ldl p o n z a d) s (execLdl p o n z a d s) := by
  unfold execLdl
  exact checksFirst_checkedBy ..
theorem execStl_checksFirst (p : BitVec 9) (o : BitVec 3) (z : BitVec 2) (a d : Reg) (s : State) :
    ChecksFirst (.stl p o z a d) s (execStl p o z a d s) := by
  unfold execStl
  exact checksFirst_checkedBy ..

/-- Every instruction with an encoding makes the common checks first; the steps of the engines have no encoding. -/
theorem exec_checksFirst (i : Instr) (s : State) (e : Encoded i) : ChecksFirst i s (exec i s) := by
  unfold exec
  cases i
  case bfi | lih | addpc =>
    exact checksFirst_result ..
  case hasha | bCc | br | call | jalr | nop | trap | bkpt | fencei | nop16 | send | monG | mclr | uien | yield | ungang | fence | pend =>
    exact checksFirst_checked ..
  case loop | csrr | eret | halt | tlbi | recv | recvn | mon | mwait | cntw | bar | bara | barw | ibx | ibxn | uiret | tstart | texit | draw |
    dcan | dstat | bdone | tdef | tinv | tqry | qld | qst | qpx | wclr | wload | vldc | vstc | vwaitc | mcopy | tld | tst | cwb | cinv | pfx |
    ovld | ovldGo | prd | pwr | ppush | tqadd | tqtake | tqtry | tcmt | tdone =>
    exact checksFirst_checkedBy ..
  case add | sub | mul | mulh | mulhn | div | divn | rem | remn | and | or | xor | andn | orn | shl | shr | sra | rotl | rotr | min | max |
    minn | maxn | slt | sltn | bfx | bfxn =>
    exact checksFirst_alu2 ..
  case clz | ctz | popc | sextB | sextH | sextW | zextB | zextH | zextW | bswap | addi | andi | ori | xori | shli | shri | srai | roti | slti
    =>
    exact checksFirst_alu1 ..
  case sk | ski =>
    exact checksFirst_compareSkip ..
  case csrw | csrs | csrc =>
    exact checksFirst_csrModify ..
  case tresume | tstatr | tstatw =>
    exact checksFirst_supIssue ..
  case vfma | vfms | vsel =>
    exact checksFirst_lanewise ..
  case vaddF32Parcel | vsubF32Parcel | vmulF32Parcel | vmaxF32Parcel | vminF32Parcel | vaddI32Parcel | vsubI32Parcel | vaddB16Parcel |
    vmulB16Parcel | vshlI32Parcel | vsraI32Parcel | vadd | vsub | vmul | vmin | vminN | vmax | vmaxN | vshl | vshr | vsra | vcmp =>
    exact checksFirst_lanes2 ..
  case vnegF32Parcel | vabs | vneg =>
    exact checksFirst_lanes1 ..
  case vandParcel | vorParcel | vxorParcel | vmovParcel | vand | vor | vxor | vnot =>
    exact checksFirst_bitwise ..
  case vext | vextN =>
    exact checksFirst_extract ..
  case vrsum | vrmax | vrmaxN | vrmin | vrminN =>
    exact checksFirst_reduce ..
  case vtopk | vtopkN =>
    exact checksFirst_topk ..
  case vrcp | vrsq | vsqrt | vdiv | vexp2 | vlog2 | vsinp | vcosp | vtanh =>
    exact checksFirst_special ..
  case wacc | waccp =>
    exact checksFirst_wideAdd ..
  case wrnd | wsave =>
    exact checksFirst_fromWide ..
  case hacc | hlook | hclr =>
    exact checksFirst_hashInsn ..
  case mma | mmaM =>
    exact checksFirst_mmaInsn ..
  case mspw | mspwM =>
    exact checksFirst_mspwInsn ..
  case amoAdd | amoAnd | amoOr | amoXor | amoMin | amoMax | amoMinn | amoMaxn | amoSwap | amoCas | amoFadd | amoFmax =>
    exact checksFirst_amo ..
  case redAdd | redAnd | redOr | redXor | redMin | redMax | redMinn | redMaxn | redFadd | redFmax =>
    exact checksFirst_red ..
  case cpy | cpyt | fill =>
    exact checksFirst_copyInsn ..
  case bkCpy | bkFil | bkAnd | bkOr | bkXor | bkNot | bkMaj =>
    exact checksFirst_bankInsn ..
  case rpt =>
    exact execRpt_checksFirst ..
  case gang =>
    exact execGang_checksFirst ..
  case vcvt =>
    exact execVcvt_checksFirst ..
  case vqnt =>
    exact execVqnt_checksFirst ..
  case vdq =>
    exact execVdq_checksFirst ..
  case vbcast =>
    exact execVbcast_checksFirst ..
  case vins =>
    exact execVins_checksFirst ..
  case vperm =>
    exact execVperm_checksFirst ..
  case vslide =>
    exact execVslide_checksFirst ..
  case viota =>
    exact execViota_checksFirst ..
  case vmovi =>
    exact execVmovi_checksFirst ..
  case mzero =>
    exact execMzero_checksFirst ..
  case mldc =>
    exact execMldc_checksFirst ..
  case mstc =>
    exact execMstc_checksFirst ..
  case ld =>
    exact execLd_checksFirst ..
  case st =>
    exact execSt_checksFirst ..
  case ldl =>
    exact execLdl_checksFirst ..
  case stl =>
    exact execStl_checksFirst ..
  case tlbiRetire | supervisorOpArrival | supervisorReply | parkRequestEffect | barrierArrival | barrierRelease | barrierTimeout | tstartReady
    | texitRetire | yieldWake | gangForm | gangTimeout | flitArrival | recvWake | channelClaim | monitorWake | mwaitTimeout | cntwWake |
    inboxMessageArrival | uiDelivery | queueWake | drawTileClaim | drawTileLand | bodyStart | drawCompleteMessage | tableChangeAck |
    qldEntryArrival | sfuStart | sfuComplete | cisternRowMove | mldcPerform | mspwEntryArrival | operandArrival | matrixStepStart |
    matrixStepEnd | multicastRegister | multicastLaunch | groupWatchdogExpiry | wellStoreLand | wellwinMirrorUpdate | tileLockGrant | redAck |
    farAccessPerform | sliceLineEvict | tlbWalkComplete | copyPiece | copytRead | copytWrite | copyComplete | bkProbeStart | bkStep | bkComplete
    | ovldAccept | ovldStatus | overlayLoaded | kernelLaunchStart | pumpKernelSaveTimeout | launchPageQueue | zeroFillStep | tqRequestPerform |
    tqAnswer | taskReinsert | notifyWrite | kernelNode | copyNode | nearMemoryNode | configureNode | conditionNode | loopNode | switchNode |
    nodeComplete | retiredUpdate | timeSliceExpiry | contextSave | contextRestore | contextComplete | trapRecordWrite | faultQueueWrite |
    faultQueueAck | create | resize | destroy | key | contextCreate | contextDestroy | fqconsWrite | threadRead | threadWrite | threadResume |
    attest | hostMemAccess | linkFailure | fabricWindowActivate | injectionWindowStart | dbgHalt | dbgRun | dbgInvi | dbgRead | dbgWrite |
    haltTriggerArrival | coreHaltStop | moduleReset | readySet | powerThrottle | thermalHalt | registerWrite | illegalInstruction |
    hashAccessComplete | hostSnoop | backInvalidateResponse | linkFlitReplay =>
    exact Bool.noConfusion e

/-- A kernel core ends its kernel with the cause of R329 at an instruction that it does not execute. -/
theorem checkedBy_pump_refuses (i : Instr) (pre : State → Option (Nat × Word)) (s : State) (f : State → State) (c : Nat) (hc : s.cur = .pump c)
    (refused : pumpRuns i = false) : checkedBy i pre s f = .next (pumpFault c (pumpCause i) 0 s) := by
  simp [checkedBy, hc, refused, State.trap]

end Sys2Proof.Machine

open Sys2Proof.Machine Sys2Proof.Spec

theorem issueChecksInOrder : IssueChecksInOrder := by
  intro i s h c e
  obtain ⟨pre, f, checks⟩ := exec_checksFirst i s e
  rw [checks]
  exact ⟨checkedBy_illegal i pre s f h c, checkedBy_role i pre s f h c, checkedBy_privilege i pre s f h c⟩
theorem kernelCoreRefuses : KernelCoreRefuses := by
  intro i s c hc e refused
  obtain ⟨pre, f, checks⟩ := exec_checksFirst i s e
  rw [checks]
  exact ⟨checkedBy_pump_refuses i pre s f c hc refused, rfl⟩
/-- Settles O14: the common checks come first in every instruction with an encoding. -/
theorem instructionChecks : Obligations.InstructionChecks := ⟨issueChecksInOrder, kernelCoreRefuses⟩
end

section
/-!
SUPPORT and O15. A trap ends the gang of its thread: what that does to the members, to the other threads and to the rest of the
state; and the fields of word 0 of a trap record as arithmetic.
-/

namespace Sys2Proof.Machine

/-- Nothing but threads, the agenda and what gangs have under way differs. -/
def GangsOnly (s t : State) : Prop := t = { s with threads := t.threads, agenda := t.agenda, gangs := t.gangs }
theorem GangsOnly.refl (s : State) : GangsOnly s s := rfl
theorem GangsOnly.trans {s t u : State} (first : GangsOnly s t) (second : GangsOnly t u) : GangsOnly s u := by
  unfold GangsOnly at *
  rw [second, first]
theorem GangsOnly.foldl {α : Type} (f : State → α → State) (keeps : ∀ u x, GangsOnly u (f u x)) (l : List α) (s : State) :
    GangsOnly s (l.foldl f s) :=
  List.foldlRecOn l f (motive := GangsOnly s) (.refl s) fun u so x _ => so.trans (keeps u x)
theorem State.modThread_gangsOnly (s : State) (h : Nat) (f : Thread → Thread) : GangsOnly s (s.modThread h f) := rfl
theorem State.later_gangsOnly (s : State) (n : Nat) (e : Event) : GangsOnly s (s.later n e) := rfl
theorem State.leavesGang_gangsOnly (s : State) (h : Nat) : GangsOnly s (s.leavesGang h) := by
  unfold State.leavesGang
  dsimp only
  cases (s.thread h).gang with
  | none => rfl
  | some g =>
    obtain ⟨leader, n, j⟩ := g
    cases (s.thread h).fin with
    | none => rfl
    | some v =>
      dsimp only
      cases finEvent h v (s.thread h) <;> rfl
theorem sendRecord_gangsOnly (s : State) (p cause latency : Nat) (sup hard : Bool) (r : TrapRecord) :
    GangsOnly s (sendRecord s p cause latency sup hard r) := by
  unfold sendRecord
  split
  · rfl
  · dsimp only
    split <;> split <;> rfl

/-- Member m waits in the instruction that traps for thread h at `pc`. -/
def trapUndoes (h : Nat) (pc : Word) (t : Thread) (m : Nat) : Bool :=
  m ≠ h && (match t.run with | .blocked _ => true | _ => false) && t.seq.pc = pc
/-- What a trap of thread h at `pc` does to member m of its gang. -/
def trapReleases (h : Nat) (pc : Word) (s : State) (m : Nat) : State :=
  (if trapUndoes h pc (s.thread m) m then s.modThread m fun t => { t with fin := some undoes } else s).leavesGang m
theorem State.trapDisbands_eq (s : State) (h : Nat) (pc : Word) :
    s.trapDisbands h pc = (membersOf (s.thread h) h).foldl (trapReleases h pc) s := rfl
theorem trapReleases_gangsOnly (h : Nat) (pc : Word) (s : State) (m : Nat) : GangsOnly s (trapReleases h pc s m) := by
  unfold trapReleases
  refine GangsOnly.trans ?_ (State.leavesGang_gangsOnly _ m)
  split
  · exact s.modThread_gangsOnly m _
  · rfl
theorem trapReleases_gang (h : Nat) (pc : Word) (s : State) (m : Nat) : ((trapReleases h pc s m).thread m).gang = none := by
  unfold trapReleases
  rw [State.leavesGang_thread, if_pos rfl]
theorem trapReleases_other (h : Nat) (pc : Word) (s : State) {m g : Nat} (other : g ≠ m) : (trapReleases h pc s m).thread g = s.thread g := by
  unfold trapReleases
  rw [State.leavesGang_thread, if_neg other]
  split
  · rw [State.modThread_thread, if_neg other]
  · rfl
theorem foldl_trapReleases_other (h : Nat) (pc : Word) (g : Nat) (ms : List Nat) (s : State) (outside : g ∉ ms) :
    (ms.foldl (trapReleases h pc) s).thread g = s.thread g :=
  List.foldlRecOn ms (trapReleases h pc) (motive := fun u : State => u.thread g = s.thread g) rfl fun u same _ member =>
    (trapReleases_other h pc u (ne_of_mem_of_not_mem member outside).symm).trans same
theorem foldl_trapReleases_gang (h : Nat) (pc : Word) (g : Nat) (ms : List Nat) :
    ∀ s : State, g ∈ ms → ((ms.foldl (trapReleases h pc) s).thread g).gang = none := by
  induction ms with
  | nil => intro s member; exact absurd member List.not_mem_nil
  | cons m ms ih =>
    intro s member
    by_cases later : g ∈ ms
    · exact ih _ later
    · obtain rfl : g = m := (List.mem_cons.mp member).resolve_right later
      rw [List.foldl_cons, foldl_trapReleases_other h pc g ms _ later]
      exact trapReleases_gang h pc s g

/-- The trap's own thread as it parks, before its gang ends. -/
def parkedState (h cause : Nat) (pc val : Word) (s : State) : State :=
  s.modThread h fun t =>
    { t with run := .parked, parkReq := false, frozen := false, trapCause := BitVec.ofNat 8 cause, trapPc := pcField pc, trapVal := val,
             record := some (trapRecord s h cause pc val), walkFault := none, relAt := none, fin := none, drawWait := false, meets := none,
             seq := { t.seq with rptRun := none } }
theorem parkTrap_untraced (h cause : Nat) (pc val : Word) (s : State) (untraced : Spec.NoTrace s) :
    parkTrap h cause pc val s =
      sendRecord ((parkedState h cause pc val s).trapDisbands h pc) ((s.partOfCluster (clusterOf h)).getD 0) cause
        (ringLatency ((parkedState h cause pc val s).trapDisbands h pc) ((s.partOfCluster (clusterOf h)).getD 0) (dieOf h))
        (s.thread h).sup (s.thread h).dataError (trapRecord s h cause pc val) := by
  have silent : (((parkedState h cause pc val s).trapDisbands h pc).cluster (clusterOf h)).dbg.trcBase = 0 := by
    have same : GangsOnly s ((parkedState h cause pc val s).trapDisbands h pc) :=
      (s.modThread_gangsOnly h _).trans (GangsOnly.foldl _ (trapReleases_gangsOnly h pc) _ _)
    rw [same]
    exact untraced (clusterOf h)
  have quiet := traceEvent_off (clusterOf h) 1 h cause pc _ silent
  unfold parkedState at quiet ⊢
  unfold parkTrap
  dsimp only
  rw [quiet]
theorem parkTrap_gangsOnly (h cause : Nat) (pc val : Word) (s : State) (untraced : Spec.NoTrace s) :
    GangsOnly s (parkTrap h cause pc val s) := by
  rw [parkTrap_untraced h cause pc val s untraced]
  exact ((s.modThread_gangsOnly h _).trans (GangsOnly.foldl _ (trapReleases_gangsOnly h pc) _ _)).trans (sendRecord_gangsOnly ..)
theorem membersOf_parkedState (h cause : Nat) (pc val : Word) (s : State) :
    membersOf ((parkedState h cause pc val s).thread h) h = membersOf (s.thread h) h := by
  unfold parkedState
  rw [State.modThread_thread_same]
  rfl
theorem parkTrap_threads (h cause : Nat) (pc val : Word) (s : State) (g : Nat) :
    (parkTrap h cause pc val s).thread g = ((membersOf (s.thread h) h).foldl (trapReleases h pc) (parkedState h cause pc val s)).thread g := by
  have threads : (parkTrap h cause pc val s).threads = ((parkedState h cause pc val s).trapDisbands h pc).threads :=
    (sendRecord_threads ..).trans (traceEvent_threads ..)
  rw [State.trapDisbands_eq, membersOf_parkedState] at threads
  exact congrArg (fun table => tget {} table g) threads
theorem parkTrap_gang (h cause : Nat) (pc val : Word) (s : State) {g : Nat} (member : g ∈ membersOf (s.thread h) h) :
    ((parkTrap h cause pc val s).thread g).gang = none := by
  rw [parkTrap_threads]
  exact foldl_trapReleases_gang h pc g _ _ member
theorem parkTrap_outside (h cause : Nat) (pc val : Word) (s : State) {g : Nat} (outside : g ∉ membersOf (s.thread h) h) (other : g ≠ h) :
    (parkTrap h cause pc val s).thread g = s.thread g := by
  rw [parkTrap_threads, foldl_trapReleases_other h pc g _ _ outside]
  unfold parkedState
  rw [State.modThread_thread, if_neg other]

/-- The bits of word 0 that say what place in a gang the thread had. -/
def gangBits : Option (Nat × Nat × Nat) → Nat
  | some (_, n, j) => 1 + 2 * (if n = 2 then 1 else if n = 4 then 2 else 3) + 8 * j
  | none => 0
theorem recordWord0_eq (cause part ctx : Nat) (gang : Option (Nat × Nat × Nat)) (sup : Bool) : recordWord0 cause part ctx gang sup =
    word (cause + gangBits gang * 2 ^ 8 + b2n sup * 2 ^ 14 + ctx * 2 ^ 16 + part * 2 ^ 26) := by
  cases gang with
  | none => rfl
  | some g =>
    obtain ⟨leader, n, j⟩ := g
    unfold recordWord0 gangBits
    dsimp only
    exact congrArg word (by omega)
section
variable {cause part ctx : Nat} {gang : Option (Nat × Nat × Nat)} {sup : Bool}
  (hcause : cause < 256) (hpart : part < 16) (hctx : ctx < 1024) (hgang : gangBits gang < 64)
include hcause hpart hctx hgang
/-- Word 0 of a record as a number: its fields do not overlap. -/
theorem recordWord0_toNat : (recordWord0 cause part ctx gang sup).toNat =
    cause + gangBits gang * 2 ^ 8 + b2n sup * 2 ^ 14 + ctx * 2 ^ 16 + part * 2 ^ 26 := by
  have flag : b2n sup ≤ 1 := by cases sup <;> decide
  rw [recordWord0_eq, word, BitVec.toNat_ofNat]
  exact Nat.mod_eq_of_lt (by omega)
theorem recordWord0_fields : wfield (recordWord0 cause part ctx gang sup) 7 0 = cause ∧ wbit (recordWord0 cause part ctx gang sup) 14 = sup ∧
    wbit (recordWord0 cause part ctx gang sup) 15 = false ∧ wfield (recordWord0 cause part ctx gang sup) 25 16 = ctx ∧
    wfield (recordWord0 cause part ctx gang sup) 29 26 = part ∧ wfield (recordWord0 cause part ctx gang sup) 63 30 = 0 := by
  have flag : b2n sup ≤ 1 := by cases sup <;> decide
  simp only [wfield, field, wbit, recordWord0_toNat hcause hpart hctx hgang]
  refine ⟨by omega, ?_, decide_eq_false (by omega), by omega, by omega, by omega⟩
  have bit : (cause + gangBits gang * 2 ^ 8 + b2n sup * 2 ^ 14 + ctx * 2 ^ 16 + part * 2 ^ 26) / 2 ^ 14 % 2 = b2n sup := by omega
  rw [bit]
  cases sup <;> rfl
theorem recordWord0_gang : wfield (recordWord0 cause part ctx gang sup) 13 8 = gangBits gang ∧
    wbit (recordWord0 cause part ctx gang sup) 8 = decide (gangBits gang % 2 = 1) ∧
    wfield (recordWord0 cause part ctx gang sup) 10 9 = gangBits gang / 2 % 4 ∧
    wfield (recordWord0 cause part ctx gang sup) 13 11 = gangBits gang / 8 := by
  have flag : b2n sup ≤ 1 := by cases sup <;> decide
  simp only [wfield, field, wbit, recordWord0_toNat hcause hpart hctx hgang]
  refine ⟨by omega, decide_eq_decide.mpr (by omega), by omega, by omega⟩
end

end Sys2Proof.Machine

open Sys2Proof Sys2Proof.Machine Sys2Proof.Spec

theorem trapParksTheThread : TrapParksTheThread := by
  intro s h cause val untraced member
  have own := parkTrap_thread h cause (s.thread h).seq.pc val s h
  rw [if_pos rfl] at own
  exact ⟨trapped_of_trap s h cause val, by rw [own], parkTrap_gang h cause _ val s member, fun g => parkTrap_gang h cause _ val s,
    fun g => parkTrap_outside h cause _ val s, parkTrap_gangsOnly h cause _ val s untraced,
    trapRecord s h cause (s.thread h).seq.pc val, by rw [own], by simp [trapRecord, pcField, wfield, field], rfl, rfl, rfl⟩
theorem trapRecordWord0 : TrapRecordWord0 := by
  intro cause part ctx leader n j sup hcause hpart hctx hn hj
  have code : ∃ k, 2 ^ k = n ∧ k < 4 ∧ gangBits (some (leader, n, j)) = 1 + 2 * k + 8 * j := by
    rcases hn with rfl | rfl | rfl
    · exact ⟨1, rfl, by decide, rfl⟩
    · exact ⟨2, rfl, by decide, rfl⟩
    · exact ⟨3, rfl, by decide, rfl⟩
  obtain ⟨k, power, hk, bits⟩ := code
  have small : gangBits (some (leader, n, j)) < 64 := by omega
  have alone := recordWord0_gang (gang := none) (sup := sup) hcause hpart hctx (by decide)
  obtain ⟨-, member, size, place⟩ := recordWord0_gang (sup := sup) hcause hpart hctx small
  dsimp only
  refine ⟨?_, alone.1, ?_, ?_, ?_⟩
  · rintro w (rfl | rfl)
    · exact recordWord0_fields hcause hpart hctx (by decide)
    · exact recordWord0_fields hcause hpart hctx small
  · rw [member]
    exact decide_eq_true (by omega)
  · have part : gangBits (some (leader, n, j)) / 2 % 4 = k := by omega
    rw [size, part, power]
  · rw [place]
    omega
/-- Settles O15: the thread that traps parks, its gang ends, and its record says where and why. -/
theorem trapEntry : Obligations.TrapEntry := ⟨trapParksTheThread, trapRecordWord0⟩
end

section
/-!
SUPPORT. What changes one thread and no other part of the state, with or without events that it puts on the agenda; and what a thread's
instruction or the end of its wait leaves in its registers.
-/

namespace Sys2Proof.Machine
open Spec (ThreadOnly ThreadAgenda)

section
variable {h : Nat} {s t u : State}

/-! ### One thread -/

theorem threadOnly_refl (h : Nat) (s : State) : ThreadOnly h s s := ⟨rfl, fun _ _ => rfl⟩
theorem threadOnly_trans (first : ThreadOnly h s t) (second : ThreadOnly h t u) : ThreadOnly h s u := by
  obtain ⟨frame, others⟩ := first
  obtain ⟨frame', others'⟩ := second
  refine ⟨?_, fun g other => (others' g other).trans (others g other)⟩
  unfold Spec.ThreadsOnly at *
  rw [frame', frame]
theorem threadOnly_modThread (h : Nat) (s : State) (f : Thread → Thread) : ThreadOnly h s (s.modThread h f) :=
  ⟨rfl, fun g other => by rw [State.modThread_thread, if_neg other]⟩
theorem threadOnly_modSelf (thread : s.cur = .thread h) (f : Thread → Thread) : ThreadOnly h s (s.modSelf f) := by
  rw [State.modSelf, State.me_of_thread thread]
  exact threadOnly_modThread h s f
theorem threadOnly_passOf (h : Nat) (s : State) (n : Nat) : ThreadOnly h s (s.passOf h n) := threadOnly_modThread h s _
theorem threadOnly_wake (h : Nat) (s : State) : ThreadOnly h s (s.wake h) := threadOnly_modThread h s _
theorem threadOnly_goesOn (h : Nat) (s : State) : ThreadOnly h s (s.goesOn h) := threadOnly_modThread h s _
theorem threadOnly_blocks (thread : s.cur = .thread h) (w : Why) : ThreadOnly h s (s.blocks w) := threadOnly_modSelf thread _
theorem threadOnly_pass (thread : s.cur = .thread h) (n : Nat) : ThreadOnly h s (s.pass n) := by
  simp only [State.pass, State.count, State.modSeq, thread, State.modThread_cur]
  exact threadOnly_trans (threadOnly_modThread h s _) (threadOnly_modThread h _ _)
theorem State.setX_of_thread (thread : s.cur = .thread h) (d : Reg) (v : Word) : s.setX d v = s.modThread h fun t => t.setX d v := by
  unfold State.setX
  rw [thread]
theorem threadOnly_setX (thread : s.cur = .thread h) (d : Reg) (v : Word) : ThreadOnly h s (s.setX d v) := by
  rw [State.setX_of_thread thread]
  exact threadOnly_modThread h s _

/-! ### One thread and the agenda -/

theorem threadAgenda_of_threadOnly (only : ThreadOnly h s t) : ThreadAgenda h s t := by
  obtain ⟨frame, others⟩ := only
  refine ⟨?_, others⟩
  unfold Spec.ThreadsOnly at frame
  rw [frame]
theorem threadAgenda_trans (first : ThreadAgenda h s t) (second : ThreadAgenda h t u) : ThreadAgenda h s u := by
  obtain ⟨frame, others⟩ := first
  obtain ⟨frame', others'⟩ := second
  refine ⟨?_, fun g other => (others' g other).trans (others g other)⟩
  rw [frame', frame]
theorem threadAgenda_later (only : ThreadAgenda h s t) (n : Nat) (e : Event) : ThreadAgenda h s (t.later n e) :=
  threadAgenda_trans only ⟨rfl, fun _ _ => rfl⟩
theorem threadAgenda_dropEvents (only : ThreadAgenda h s t) (p : Event → Bool) : ThreadAgenda h s (t.dropEvents p) :=
  threadAgenda_trans only ⟨rfl, fun _ _ => rfl⟩
end

/-! ### Events -/

@[simp] theorem State.at_thread (s : State) (due : Nat) (e : Event) (g : Nat) : (s.at_ due e).thread g = s.thread g := rfl
@[simp] theorem State.later_thread (s : State) (n : Nat) (e : Event) (g : Nat) : (s.later n e).thread g = s.thread g := rfl
theorem State.due_at (s : State) (due : Nat) (e : Event) (ahead : s.cycle ≤ due) : (due, e) ∈ (s.at_ due e).agenda :=
  (mem_insertEvent ..).mpr (.inl (by rw [Nat.max_eq_left ahead]))

/-! ### Registers and the place of a thread -/

theorem Seq.pass_withX (q : Seq) (x : Vector Word 32) (n : Nat) : ({ q with x := x } : Seq).pass n = { q.pass n with x := x } := by
  unfold Seq.pass
  cases q.rptRun with
  | none => rfl
  | some r => dsimp only; split <;> rfl
/-- A thread's registers are those of its sequencer and its shadow registers. -/
theorem Thread.getX_congr {t u : Thread} (x : t.seq.x = u.seq.x) (shadow : t.shadow = u.shadow) (handler : t.uiAct = u.uiAct) (r : Reg) :
    t.getX r = u.getX r := by
  simp [Thread.getX, isShadow, Seq.get, x, shadow, handler]
theorem Thread.setX_seq (t : Thread) (d : Reg) (v : Word) : (t.setX d v).seq = { t.seq with x := (t.setX d v).seq.x } := by
  rw [Thread.setX_only]
theorem Thread.setX_run (t : Thread) (d : Reg) (v : Word) : (t.setX d v).run = t.run := by rw [Thread.setX_only]
theorem Thread.setX_instret (t : Thread) (d : Reg) (v : Word) : (t.setX d v).instret = t.instret := by rw [Thread.setX_only]

section
variable {s t : State} {h : Nat} (thread : s.cur = .thread h) (cur : t.cur = s.cur)
include thread cur
/-- The issuing thread has passed its instruction if its sequencer has. -/
theorem passed_of_thread {n : Nat} (seq : (t.thread h).seq = { (s.thread h).seq.pass n with x := (t.thread h).seq.x })
    (instret : (t.thread h).instret = (s.thread h).instret + 1) : Spec.Passed n s t := by
  have mine : t.seq = (t.thread h).seq := by simp [State.seq, cur, thread]
  have old : s.seq = (s.thread h).seq := by simp [State.seq, thread]
  refine ⟨fun g own => ?_, by rw [mine, old, seq]; exact Seq.pass_skip .., ?_⟩
  · obtain rfl : g = h := by simpa [thread] using own.symm
    exact instret
  · simp only [Spec.Moved, State.pc, mine, old]
    rw [seq]
    unfold Seq.pass
    cases (s.thread h).seq.rptRun with
    | none => exact ⟨rfl, rfl, rfl⟩
    | some r => by_cases last : (s.thread h).seq.rpt.toNat ≤ 1 <;> simp [last]
theorem writesNone_of_thread (same : ∀ r, (t.thread h).getX r = (s.thread h).getX r) : Spec.WritesNone s t := fun r => by
  rw [State.getX_of_thread (cur.trans thread), State.getX_of_thread thread, same]
theorem writes_of_thread {d : Reg} {v : Word} (write : ∀ r, (t.thread h).getX r = if r = d ∧ r ≠ 0 then v else (s.thread h).getX r) :
    Spec.Writes s t d v := fun r => by
  rw [State.getX_of_thread (cur.trans thread), State.getX_of_thread thread, write]
theorem pc_of_thread_eq (same : (t.thread h).seq.pc = (s.thread h).seq.pc) : t.pc = s.pc := by
  rw [State.pc_of_thread (cur.trans thread), State.pc_of_thread thread, same]
end
theorem State.modSelf_thread {s : State} {h : Nat} (thread : s.cur = .thread h) (f : Thread → Thread) : (s.modSelf f).thread h = f (s.thread h) := by
  rw [State.modSelf, State.me_of_thread thread, State.modThread_thread_same]

/-- A thread whose wait ends with a result: it is written, the instruction passed, and the thread back. -/
def Thread.ends (t : Thread) (d : Reg) (v : Word) (n from_ : Nat) : Thread :=
  { t.setX d v with seq := (t.setX d v).seq.pass n, instret := t.instret + 1, run := .ready, notBefore := from_ }
theorem Thread.ends_getX (t : Thread) (d : Reg) (v : Word) (n from_ : Nat) (r : Reg) :
    (t.ends d v n from_).getX r = if r = d ∧ r ≠ 0 then v else t.getX r := by
  rw [← Thread.setX_getX]
  exact Thread.getX_congr (t := t.ends d v n from_) (u := t.setX d v) (Seq.pass_x ..) rfl rfl r
theorem Thread.ends_seq (t : Thread) (d : Reg) (v : Word) (n from_ : Nat) :
    (t.ends d v n from_).seq = { t.seq.pass n with x := (t.ends d v n from_).seq.x } := by
  unfold Thread.ends
  dsimp only
  rw [Seq.pass_x, Thread.setX_seq, Seq.pass_withX]
theorem Thread.ends_instret (t : Thread) (d : Reg) (v : Word) (n from_ : Nat) : (t.ends d v n from_).instret = t.instret + 1 := rfl
section
variable {s : State} {h : Nat} {w : Why} {f : Thread → Thread} (t : Thread) (d : Reg) (v : Word) (n : Nat) (does : f (s.thread h) = t.setX d v)
include does
theorem State.ends_thread (waits : t.run = .blocked w) : (((s.modThread h f).passOf h n).wake h).thread h = t.ends d v n (s.cycle + 1) := by
  have held : (((s.modThread h f).passOf h n).thread h).run = .blocked w := by
    rw [State.passOf_thread, State.modThread_thread_same, does]
    exact (Thread.setX_run ..).trans waits
  rw [State.wake_blocked _ h w held, State.passOf_thread, State.modThread_thread_same, does]
  unfold Thread.ends
  rw [Thread.setX_instret]
  rfl
/-- A wait that ends with a result in x[d] and with other records in the monitors. -/
theorem endsWaitBy_spec (only : t = { s.thread h with mons := t.mons }) (waits : (s.thread h).run = .blocked w) :
    let u := ((s.modThread h f).passOf h n).wake h
    Spec.WritesOf h s u d v ∧ Spec.PassedOf h n s u ∧ Spec.ReadyAt h (s.cycle + 1) u ∧ ThreadOnly h s u := by
  have run : t.run = .blocked w := by
    rw [only]
    exact waits
  have own := State.ends_thread t d v n does run
  refine ⟨fun r => ?_, ⟨?_, ?_⟩, ⟨?_, ?_⟩,
    threadOnly_trans (threadOnly_trans (threadOnly_modThread h s _) (threadOnly_passOf h _ n)) (threadOnly_wake h _)⟩
  · rw [own, Thread.ends_getX, only]
    rfl
  · rw [own, Thread.ends_seq, only]
  · rw [own, Thread.ends_instret, only]
  · rw [own]
    rfl
  · rw [own]
    rfl
end
/-- A wait that ends with a result in x[d]: what the thread has, and that nothing else changes. -/
theorem endsWait_spec {s : State} {h : Nat} {w : Why} (waits : (s.thread h).run = .blocked w) (d : Reg) (v : Word) (n : Nat) :
    let t := ((s.modThread h fun t => t.setX d v).passOf h n).wake h
    Spec.WritesOf h s t d v ∧ Spec.PassedOf h n s t ∧ Spec.ReadyAt h (s.cycle + 1) t ∧ ThreadOnly h s t :=
  endsWaitBy_spec (s.thread h) d v n rfl rfl waits

end Sys2Proof.Machine
end

section
/-!
SUPPORT and O20. The members of a gang that is asked for, what a GANG does before the last of them issues its own, and what the forming of
the gang does to each.
-/

namespace Sys2Proof.Machine

/-! ### Who waits -/

theorem inGangWait_iff {s : State} {ctx n m : Nat} :
    inGangWait s ctx n m = true ↔ (s.thread m).ctx = ctx ∧ ∃ d, (s.thread m).run = .blocked (.gang n d) := by
  unfold inGangWait
  dsimp only
  rw [Bool.and_eq_true, decide_eq_true_iff]
  refine and_congr_right fun _ => ?_
  split
  next k d run => simp [run]
  next other =>
    refine ⟨fun no => absurd no Bool.false_ne_true, fun ⟨d, run⟩ => absurd run (other n d)⟩
theorem inGangWait_congr {s t : State} {m : Nat} (same : t.thread m = s.thread m) (ctx n : Nat) :
    inGangWait t ctx n m = inGangWait s ctx n m := by
  unfold inGangWait
  rw [same]
theorem mem_gangRange_self (h : Nat) {n : Nat} (some : 0 < n) : h ∈ gangRange h n := by
  have inside : coreOf h % 8 % n < n := Nat.mod_lt _ some
  have low : coreOf h % 8 % n ≤ h / 8 := ((Nat.mod_le _ _).trans (Nat.mod_le _ _)).trans (le_of_eq rfl)
  exact List.mem_map.mpr ⟨coreOf h % 8 % n, List.mem_range.mpr inside, by omega⟩
theorem gangRange_of_leader {h n : Nat} (leads : coreOf h % 8 % n = 0) : gangRange h n = (List.range n).map fun j => h + 8 * j := by
  simp [gangRange, leads]

/-- Member m waits in a GANG of another size than n. -/
def otherGangWait (s : State) (ctx n m : Nat) : Bool :=
  (s.thread m).ctx = ctx && (match (s.thread m).run with | .blocked (.gang k _) => k ≠ n | _ => false)
theorem otherGangWait_iff {s : State} {ctx n m : Nat} :
    otherGangWait s ctx n m = true ↔ (s.thread m).ctx = ctx ∧ ∃ k d, (s.thread m).run = .blocked (.gang k d) ∧ k ≠ n := by
  unfold otherGangWait
  rw [Bool.and_eq_true, decide_eq_true_iff]
  refine and_congr_right fun _ => ?_
  split
  next k d run => simp [run]
  next other => exact ⟨fun no => absurd no Bool.false_ne_true, fun ⟨k, d, run, _⟩ => absurd run (other k d)⟩

/-! ### GANG -/

/-- The checks of GANG (R78). -/
def gangCheck (b : Reg) (s : State) : Option (Nat × Word) :=
  if b = 0 || 3 < b.toNat then some (2, 0)
  else if !(s.cluster (clusterOf s.me)).gangOk.contains s.self.ctx || s.self.gang.isSome then some (0x11, 0)
  else if (gangRange s.me (2 ^ b.toNat)).any (otherGangWait s s.self.ctx (2 ^ b.toNat)) then some (0x11, 0)
  else none
/-- What GANG does once its checks are passed. -/
def gangIssue (b d : Reg) (s : State) : State :=
  let n := 2 ^ b.toNat
  let ms := gangRange s.me n
  let u := s.blocks (.gang n d)
  if ms.all (inGangWait u s.self.ctx n) then
    (u.dropEvents fun | .gangTimeout m _ => ms.contains m | _ => false).later n (.gangForm (ms.headD s.me) n)
  else if s.self.bartmo = 0 then u
  else u.later s.self.bartmo.toNat (.gangTimeout s.me u.cycle)
theorem exec_gang (b d : Reg) (s : State) : exec (.gang b d) s = checkedBy (.gang b d) (gangCheck b) s (gangIssue b d) := rfl

section
variable {s : State} {h : Nat} {b d : Reg}

theorem gangSize_iff : (b = 0 || 3 < b.toNat : Bool) = true ↔ ¬ (b = 1 ∨ b = 2 ∨ b = 3) := by
  rw [Bool.or_eq_true, decide_eq_true_iff, decide_eq_true_iff]
  constructor
  · rintro bad (rfl | rfl | rfl) <;> exact absurd bad (by decide)
  · intro bad
    bv_omega
theorem gangCheck_size (size : ¬ (b = 1 ∨ b = 2 ∨ b = 3)) : gangCheck b s = some (2, 0) := if_pos (gangSize_iff.mpr size)
theorem gangCheck_passes (thread : s.cur = .thread h) (size : b = 1 ∨ b = 2 ∨ b = 3)
    (ok : (s.cluster (clusterOf h)).gangOk.contains (s.thread h).ctx = true)
    (free : (s.thread h).gang = none) (same : ∀ m, m ∈ gangRange h (2 ^ b.toNat) → otherGangWait s (s.thread h).ctx (2 ^ b.toNat) m = false) :
    gangCheck b s = none := by
  have agree : (gangRange h (2 ^ b.toNat)).any (otherGangWait s (s.thread h).ctx (2 ^ b.toNat)) = false :=
    List.any_eq_false.mpr fun m member => by simp [same m member]
  unfold gangCheck
  rw [if_neg (fun bad => gangSize_iff.mp bad size), State.me_of_thread thread, State.self_of_thread thread, ok, free, agree]
  rfl
theorem gangCheck_barred (thread : s.cur = .thread h) (size : b = 1 ∨ b = 2 ∨ b = 3)
    (barred : ¬ ((s.cluster (clusterOf h)).gangOk.contains (s.thread h).ctx = true ∧ (s.thread h).gang = none) ∨
      ∃ m, m ∈ gangRange h (2 ^ b.toNat) ∧ otherGangWait s (s.thread h).ctx (2 ^ b.toNat) m = true) : gangCheck b s = some (0x11, 0) := by
  unfold gangCheck
  rw [if_neg (fun bad => gangSize_iff.mp bad size), State.me_of_thread thread, State.self_of_thread thread]
  obtain mayNot | ⟨m, member, waits⟩ := barred
  · rw [if_pos]
    rw [Bool.or_eq_true, Bool.not_eq_true', Option.isSome_iff_ne_none, ← Bool.not_eq_true]
    exact Decidable.not_and_iff_not_or_not.mp mayNot
  · rw [if_pos (List.any_eq_true.mpr ⟨m, member, waits⟩), ite_self]

theorem gangIssue_cases (thread : s.cur = .thread h) : gangIssue b d s =
    if (gangRange h (2 ^ b.toNat)).all (inGangWait (s.blocks (.gang (2 ^ b.toNat) d)) (s.thread h).ctx (2 ^ b.toNat)) then
      ((s.blocks (.gang (2 ^ b.toNat) d)).dropEvents fun | .gangTimeout m _ => (gangRange h (2 ^ b.toNat)).contains m | _ => false).later
        (2 ^ b.toNat) (.gangForm ((gangRange h (2 ^ b.toNat)).headD h) (2 ^ b.toNat))
    else if (s.thread h).bartmo = 0 then s.blocks (.gang (2 ^ b.toNat) d)
    else (s.blocks (.gang (2 ^ b.toNat) d)).later (s.thread h).bartmo.toNat (.gangTimeout h s.cycle) := by
  unfold gangIssue
  rw [State.me_of_thread thread, State.self_of_thread thread]
  rfl
/-- However GANG goes on, its thread waits at it and nothing but events is added. -/
theorem gangIssue_waits (thread : s.cur = .thread h) : Spec.BlockedFor h (.gang (2 ^ b.toNat) d) (gangIssue b d s) ∧
    (gangIssue b d s).pc = s.pc ∧ Spec.WritesNone s (gangIssue b d s) ∧ Spec.ThreadAgenda h s (gangIssue b d s) := by
  have held := State.blocks_blockedFor (.gang (2 ^ b.toNat) d) thread
  have stays := (StaysAt.blocks (.gang (2 ^ b.toNat) d) thread).pc
  have reads := State.blocks_reads (.gang (2 ^ b.toNat) d) thread
  have only := threadAgenda_of_threadOnly (threadOnly_blocks thread (.gang (2 ^ b.toNat) d))
  rw [gangIssue_cases thread]
  split
  · exact ⟨held, stays, reads, threadAgenda_later (threadAgenda_dropEvents only _) _ _⟩
  · split
    · exact ⟨held, stays, reads, only⟩
    · exact ⟨held, stays, reads, threadAgenda_later only _ _⟩
theorem gangIssue_last (thread : s.cur = .thread h)
    (last : ∀ m, m ∈ gangRange h (2 ^ b.toNat) → m ≠ h → inGangWait s (s.thread h).ctx (2 ^ b.toNat) m = true) :
    Spec.Due (s.cycle + 2 ^ b.toNat) (.gangForm ((gangRange h (2 ^ b.toNat)).headD h) (2 ^ b.toNat)) (gangIssue b d s) := by
  have all : (gangRange h (2 ^ b.toNat)).all (inGangWait (s.blocks (.gang (2 ^ b.toNat) d)) (s.thread h).ctx (2 ^ b.toNat)) = true := by
    refine List.all_eq_true.mpr fun m member => ?_
    by_cases own : m = h
    · subst own
      rw [inGangWait_iff, State.blocks_thread _ thread]
      exact ⟨rfl, d, rfl⟩
    · rw [inGangWait_congr (State.blocks_other _ thread m own)]
      exact last m member own
  rw [gangIssue_cases thread, if_pos all]
  exact State.due_later ..
theorem gangIssue_timed (thread : s.cur = .thread h)
    (missing : ∃ m, m ∈ gangRange h (2 ^ b.toNat) ∧ m ≠ h ∧ inGangWait s (s.thread h).ctx (2 ^ b.toNat) m = false)
    (timed : (s.thread h).bartmo ≠ 0) : Spec.Due (s.cycle + (s.thread h).bartmo.toNat) (.gangTimeout h s.cycle) (gangIssue b d s) := by
  obtain ⟨m, member, other, absent⟩ := missing
  have notAll : (gangRange h (2 ^ b.toNat)).all (inGangWait (s.blocks (.gang (2 ^ b.toNat) d)) (s.thread h).ctx (2 ^ b.toNat)) ≠ true := by
    intro all
    have waits := List.all_eq_true.mp all m member
    rw [inGangWait_congr (State.blocks_other _ thread m other), absent] at waits
    exact absurd waits Bool.false_ne_true
  rw [gangIssue_cases thread, if_neg notAll, if_neg timed]
  exact State.due_later ..
end
theorem exec_ungang (s : State) :
    exec .ungang s = checkedBy .ungang (fun _ => none) s fun s => (s.pass 4).modSelf fun t => { t with gang := none } := rfl

/-! ### The gang forms -/

/-- What the forming of a gang does to its member j, whose leader's sequencer behind GANG is q. -/
def Thread.joins (q : Seq) (cycle leader n j : Nat) (t : Thread) : Thread :=
  let t := match t.run with | .blocked (.gang _ d) => t.setX d 0 | _ => t
  { t with seq := { t.seq with pc := q.pc, rpt := q.rpt, skip := q.skip, rptRun := q.rptRun }, instret := t.instret + 1, run := .ready,
           notBefore := cycle + 1, gang := some (leader, n, j) }
/-- The forming of a gang at one member: the state, and the member's place. -/
def gangJoins (q : Seq) (leader n : Nat) (x : State × Nat) (m : Nat) : State × Nat :=
  (x.1.modThread m (Thread.joins q x.1.cycle leader n x.2), x.2 + 1)
theorem execGangForm_eq (s : State) (leader n : Nat) (takes : s.ev = some (.gangForm leader n))
    (all : ∀ m, m ∈ gangRange leader n → inGangWait s (s.thread leader).ctx n m = true) :
    exec .gangForm s = .next ((gangRange leader n).foldl (gangJoins ((s.thread leader).seq.pass 4) leader n) (s, 0)).1 := by
  have waits : (gangRange leader n).all (inGangWait s (s.thread leader).ctx n) = true := List.all_eq_true.mpr all
  have run : exec .gangForm s = execGangForm s := rfl
  rw [run, execGangForm, onEvent_some s _ _ takes]
  dsimp only
  rw [waits]
  rfl
/-- The members join in their order; no other thread does. -/
theorem gangJoins_range (q : Seq) (leader n : Nat) (s : State) (k : Nat) :
    let x := ((List.range k).map fun j => leader + 8 * j).foldl (gangJoins q leader n) (s, 0)
    x.2 = k ∧ x.1.cycle = s.cycle ∧ x.1.mem = s.mem ∧
      (∀ g, (∀ j, j < k → g ≠ leader + 8 * j) → x.1.thread g = s.thread g) ∧
      ∀ j, j < k → x.1.thread (leader + 8 * j) = (s.thread (leader + 8 * j)).joins q s.cycle leader n j := by
  induction k with
  | zero => exact ⟨rfl, rfl, rfl, fun _ _ => rfl, fun j low => absurd low (Nat.not_lt_zero j)⟩
  | succ k ih =>
    rw [List.range_succ, List.map_append, List.foldl_append, List.map_singleton]
    dsimp only at ih ⊢
    obtain ⟨place, cycle, mem, others, joined⟩ := ih
    refine ⟨congrArg (· + 1) place, cycle, mem, fun g outside => ?_, fun j low => ?_⟩
    · exact (State.modThread_thread ..).trans ((if_neg (outside k (Nat.lt_succ_self k))).trans
        (others g fun j low => outside j (Nat.lt_succ_of_lt low)))
    · refine (State.modThread_thread ..).trans ?_
      by_cases last : j = k
      · subst last
        rw [if_pos rfl, others _ fun i before => by omega, cycle, place]
      · rw [if_neg (by omega)]
        exact joined j (by omega)
theorem Thread.joins_getX {t : Thread} {k : Nat} {d : Reg} (waits : t.run = .blocked (.gang k d)) (q : Seq) (cycle leader n j : Nat) (r : Reg) :
    (t.joins q cycle leader n j).getX r = if r = d ∧ r ≠ 0 then 0 else t.getX r := by
  rw [← Thread.setX_getX]
  unfold Thread.joins
  rw [waits]
  exact Thread.getX_congr rfl rfl rfl r
theorem Thread.joins_seq (t : Thread) (q : Seq) (cycle leader n j : Nat) :
    (t.joins q cycle leader n j).seq = { q with x := (t.joins q cycle leader n j).seq.x } := rfl
theorem Thread.joins_instret (t : Thread) (q : Seq) (cycle leader n j : Nat) : (t.joins q cycle leader n j).instret = t.instret + 1 := by
  unfold Thread.joins
  dsimp only
  split
  · rw [Thread.setX_instret]
  · rfl

/-! ### The time-out -/

theorem exec_gangTimeout (s : State) (h n : Nat) (d : Reg) (takes : s.ev = some (.gangTimeout h (s.thread h).since))
    (waits : (s.thread h).run = .blocked (.gang n d)) :
    exec .gangTimeout s = .next (((s.modThread h fun t => t.setX d 1).passOf h 4).wake h) := by
  have run : exec .gangTimeout s = execGangTimeout s := rfl
  rw [run, execGangTimeout, onEvent_some s _ _ takes]
  dsimp only
  rw [waits]
  simp

/-! ### Waits that end together -/

/-- The end of a member's wait is only noted while another member waits on (R29, R30). -/
theorem State.together_held (s : State) (h v : Nat) (fin : Nat → Nat → State → State) (gang : (s.thread h).gang ≠ none)
    (held : ∃ m w, m ∈ membersOf (s.thread h) h ∧ m ≠ h ∧ (s.thread m).fin = none ∧ (s.thread m).run = .blocked w) :
    s.together h v fin = s.modThread h fun t => { t with fin := some (t.fin.getD v) } := by
  obtain ⟨m, w, member, other, unended, waits⟩ := held
  unfold State.together
  dsimp only
  split
  next alone => exact absurd alone gang
  next x inGang =>
    rw [if_pos]
    · rfl
    · rw [Bool.not_eq_true', List.all_eq_false]
      refine ⟨m, member, ?_⟩
      rw [State.modThread_thread, if_neg other, unended, waits]
      simp

end Sys2Proof.Machine

open Sys2Proof Sys2Proof.Machine Sys2Proof.Spec

theorem gangInstruction (s : State) (h : Nat) (thread : s.cur = .thread h) (b d : Reg) (runs : Runs (.gang b d) s) :
    let n := 2 ^ b.toNat
    let size : Prop := b = 1 ∨ b = 2 ∨ b = 3
    let may : Prop := (s.cluster (clusterOf h)).gangOk.contains (s.thread h).ctx = true ∧ (s.thread h).gang = none
    let other : Prop := ∃ m k r, m ∈ gangRange h n ∧ (s.thread m).ctx = (s.thread h).ctx ∧ BlockedFor m (.gang k r) s ∧ k ≠ n
    (¬ size → Completes (.gang b d) s (Trapped h 2 0 s)) ∧ (size → ¬ may ∨ other → Completes (.gang b d) s (Trapped h 0x11 0 s)) ∧
    (size → may → ¬ other → exec (.gang b d) s = .next (gangIssue b d s)) := by
  dsimp only
  refine ⟨fun size => ?_, fun size barred => ?_, fun size may agree => ?_⟩
  · exact ⟨_, (exec_gang b d s).trans (checkedBy_traps thread runs (gangCheck_size size)), trapped_of_trap s h 2 0⟩
  · have fails := gangCheck_barred thread size (barred.imp_right fun ⟨m, k, r, member, ctx, waits, differs⟩ =>
      ⟨m, member, otherGangWait_iff.mpr ⟨ctx, k, r, waits, differs⟩⟩)
    exact ⟨_, (exec_gang b d s).trans (checkedBy_traps thread runs fails), trapped_of_trap s h 0x11 0⟩
  · have passes := gangCheck_passes thread size may.1 may.2 fun m member => by
      rw [← Bool.not_eq_true, otherGangWait_iff]
      rintro ⟨ctx, k, r, waits, differs⟩
      exact agree ⟨m, k, r, member, ctx, waits, differs⟩
    exact (exec_gang b d s).trans (checkedBy_runs thread runs passes)
theorem ungangInstruction (s : State) (h : Nat) (thread : s.cur = .thread h) (runs : Runs .ungang s) :
    ∃ t, exec .ungang s = .next t ∧ (t.thread h).gang = none ∧ WritesNone s t ∧ Passed 4 s t ∧ ThreadOnly h s t := by
  have behind : (s.pass 4).cur = .thread h := (State.pass_cur s 4).trans thread
  have own : ((s.pass 4).modSelf fun t => { t with gang := none }).thread h =
      { s.thread h with seq := (s.thread h).seq.pass 4, instret := (s.thread h).instret + 1, gang := none } := by
    rw [State.modSelf_thread behind, State.pass_thread 4 thread]
  have cur : ((s.pass 4).modSelf fun t => { t with gang := none }).cur = s.cur := State.pass_cur s 4
  refine ⟨_, (exec_ungang s).trans (checkedBy_runs thread runs rfl), by rw [own], ?_, ?_,
    threadOnly_trans (threadOnly_pass thread 4) (threadOnly_modSelf behind _)⟩
  · refine writesNone_of_thread thread cur fun r => ?_
    rw [own]
    apply Thread.getX_congr <;> simp
  · refine passed_of_thread thread cur ?_ ?_
    · rw [own]
    · rw [own]
/-- Settles O20: GANG waits or forms its gang by who waits with it, and the end of a member's wait is noted until all are over. -/
theorem gangs : Obligations.Gangs := by
  intro s h
  refine ⟨fun thread => ⟨fun b d runs => ?_, ungangInstruction s h thread⟩, fun n takes sizes leads waits => ?_, fun n d takes waits => ?_,
    fun v fin gang held => s.together_held h v fin gang held⟩
  · obtain ⟨size, barred, passes⟩ := gangInstruction s h thread b d runs
    obtain ⟨held, stays, reads, only⟩ := gangIssue_waits (b := b) (d := d) thread
    refine ⟨fun _ => size, fun _ => barred, fun hsize may agree => ⟨fun last => ?_, fun missing => ?_⟩⟩
    · exact ⟨_, passes hsize may agree, held, stays, reads, only, gangIssue_last thread last⟩
    · exact ⟨_, passes hsize may agree, held, stays, reads, only, gangIssue_timed thread missing⟩
  · refine ⟨_, execGangForm_eq s h n takes waits, ?_⟩
    rw [gangRange_of_leader leads]
    obtain ⟨-, -, mem, others, joined⟩ := gangJoins_range ((s.thread h).seq.pass 4) h n s n
    refine ⟨mem, fun g outside => others g fun j low e => outside (List.mem_map.mpr ⟨j, List.mem_range.mpr low, e.symm⟩), fun j low => ?_⟩
    dsimp only
    unfold Spec.ReadyAt
    rw [joined j low]
    refine ⟨rfl, ⟨rfl, rfl⟩, fun k d waits r => ?_, Thread.joins_seq .., Thread.joins_instret ..⟩
    rw [joined j low]
    exact Thread.joins_getX waits ..
  · exact ⟨_, exec_gangTimeout s h n d takes waits, endsWait_spec waits d 1 4⟩
end

section
/-!
SUPPORT and O21. A thread that TSTART places, and what the end of a thread leaves of it.
-/

namespace Sys2Proof.Machine

/-! ### The end of a thread -/

/-- The cycle and the count of retired instructions of thread h are as before. -/
def CountKept (h : Nat) (s t : State) : Prop := t.cycle = s.cycle ∧ (t.thread h).instret = (s.thread h).instret
theorem CountKept.refl (h : Nat) (s : State) : CountKept h s s := ⟨rfl, rfl⟩
theorem CountKept.trans {h : Nat} {s t u : State} (first : CountKept h s t) (second : CountKept h t u) : CountKept h s u :=
  ⟨second.1.trans first.1, second.2.trans first.2⟩
theorem CountKept.modThread (h : Nat) (s : State) (g : Nat) (f : Thread → Thread) (same : ∀ t, (f t).instret = t.instret) :
    CountKept h s (s.modThread g f) := by
  refine ⟨rfl, ?_⟩
  rw [State.modThread_thread]
  split
  next own => rw [same, own]
  · rfl
theorem CountKept.of_threads {h : Nat} {s t : State} (cycle : t.cycle = s.cycle) (threads : t.threads = s.threads) : CountKept h s t :=
  ⟨cycle, by rw [State.thread, threads]; rfl⟩
theorem CountKept.of_sentOnly {h : Nat} {s t : State} (sent : SentOnly s t) : CountKept h s t := .of_threads sent.cycle sent.threads
theorem SentOnly.foldl {α : Type} (f : State → α → State) (l : List α) (s : State) (keeps : ∀ u a, SentOnly u (f u a)) : SentOnly s (l.foldl f s) :=
  List.foldlRecOn l f (motive := SentOnly s) (.refl s) fun u so a _ => so.trans (keeps u a)
theorem SentOnly.offerSlot (s : State) (dst n : Nat) : SentOnly s (s.offerSlot dst n) :=
  .foldl _ _ _ fun u x => by
    obtain ⟨g, t⟩ := x
    dsimp only
    split
    · exact .ite (.at_ ..) (.refl u)
    · exact .refl u
theorem CountKept.forUpto (h n : Nat) (s : State) (f : Nat → State → State) (keeps : ∀ i u, CountKept h u (f i u)) :
    CountKept h s (forUpto n s f) :=
  List.foldlRecOn (List.range n) _ (motive := CountKept h s) (.refl h s) fun u so i _ => so.trans (keeps i u)
theorem CountKept.freeSlot (h : Nat) (s : State) (dst n : Nat) : CountKept h s (s.freeSlot dst n) := by
  refine .trans ?_ (.of_sentOnly (.offerSlot _ dst n))
  exact .modThread h s dst _ fun _ => rfl
theorem CountKept.dropFlits (h : Nat) (s : State) (g : Nat) : CountKept h s (s.dropFlits g) :=
  .forUpto h 4 s _ fun n u => by
    refine .trans ?_ (.forUpto h _ _ _ fun _ u => .freeSlot h u g n)
    exact .modThread h u g _ fun _ => rfl
theorem CountKept.giveUpTask (h : Nat) (s : State) (g : Nat) : CountKept h s (s.giveUpTask g) := by
  unfold State.giveUpTask
  split
  · exact (CountKept.of_sentOnly (.later ..)).trans (.modThread h _ g _ fun _ => rfl)
  · exact .refl h s
theorem CountKept.noteEnd (h : Nat) (s : State) (g : Nat) : CountKept h s (s.noteEnd g) := by
  unfold State.noteEnd
  dsimp only
  split
  · exact .of_threads (by simp) (by simp)
  · exact .refl h s
theorem SentOnly.clearPair (s : State) (c pair : Nat) : SentOnly s (s.modCore c fun k => k.clearPair pair) := .modCore s c _ rfl
theorem SentOnly.nodeCheck (s : State) (c : Nat) (q : Option Nat) : SentOnly s (s.nodeCheck c q) := by
  cases q with
  | none => exact .refl s
  | some q => exact .ite (.refl s) (.later ..)
theorem SentOnly.ctxCheck (s : State) (c : Nat) : SentOnly s (s.ctxCheck c) := by
  unfold State.ctxCheck
  split
  · exact .ite (.later ..) (.refl s)
  · exact .refl s
theorem SentOnly.retryNodes (s : State) (c : Nat) : SentOnly s (s.retryNodes c) := by
  unfold State.retryNodes
  split
  · exact .refl s
  · exact .foldl _ _ _ fun u x => .ite (.later ..) (.refl u)
theorem SentOnly.seeInterrupts (s : State) (core n : Nat) : SentOnly s (s.seeInterrupts core n) := .ite (.later ..) (.refl s)

/-- The thread as it ends (R76). -/
def Thread.exits (t : Thread) (cycle : Nat) : Thread :=
  { t with run := .exited, notBefore := cycle + 1, mons := Vector.replicate 4 {}, task := .none, gang := none, body := none,
           claims := [], parkReq := false, relAt := none, drawWait := false, redEvents := [], bara := [], barWait := [] }
/-- Behind the exit of the thread itself, only events and queues change. -/
theorem State.endThread_exits (s : State) (h : Nat) :
    ∃ u, CountKept h s u ∧ SentOnly (u.modThread h fun t => t.exits u.cycle) (s.endThread h) := by
  refine ⟨((s.giveUpTask h).dropFlits h).noteEnd h, ((CountKept.giveUpTask h s h).trans (.dropFlits h _ h)).trans (.noteEnd h _ h), ?_⟩
  unfold State.endThread
  extract_lets t c u v core both w x y
  have queues : SentOnly v w := .ite (.clearPair v core _) (.refl v)
  have partner : SentOnly w x := .wakePartner ..
  have body : SentOnly x y := .ite (.later ..) (.refl x)
  exact ((((queues.trans partner).trans body).trans (.nodeCheck ..)).trans (.ctxCheck ..)).trans ((SentOnly.retryNodes ..).trans (.seeInterrupts ..))
theorem State.endThread_spec (s : State) (h : Nat) :
    (s.endThread h).cycle = s.cycle ∧ ∃ t : Thread, t.instret = (s.thread h).instret ∧ (s.endThread h).thread h = t.exits s.cycle := by
  obtain ⟨u, ⟨cycle, instret⟩, sent⟩ := s.endThread_exits h
  refine ⟨sent.cycle.trans cycle, u.thread h, instret, ?_⟩
  rw [State.thread, sent.threads, ← cycle]
  exact State.modThread_thread_same ..
theorem State.together_alone {s : State} {h : Nat} (alone : Spec.Alone h s) (v : Nat) (fin : Nat → Nat → State → State) :
    s.together h v fin = fin h v (s.modThread h fun t => { t with fin := none }) := by
  obtain ⟨gang, none⟩ := alone
  unfold State.together
  dsimp only
  rw [gang, none]
  rfl
theorem State.forgetFin_thread {s : State} {h : Nat} (alone : Spec.Alone h s) :
    (s.modThread h fun t => { t with fin := none }).thread h = s.thread h := by
  rw [State.modThread_thread_same, ← alone.2]

/-- What a TEXIT that retires comes to, outside gangs and without a RED event to report. -/
theorem finTexit_ends {s : State} {h : Nat} (waits : (s.thread h).run = .blocked .texit) (quiet : redEvent (s.thread h) = none) :
    finTexit h 0 s =
      (((s.releaseBegin (.thread h) 4).released (.thread h) 4).modThread h fun t => { t with instret := t.instret + 1 }).endThread h := by
  unfold finTexit
  rw [waits, quiet]
  rfl
theorem finTexit_spec {s : State} {h : Nat} (waits : (s.thread h).run = .blocked .texit) (quiet : redEvent (s.thread h) = none) :
    (finTexit h 0 s).cycle = s.cycle ∧
      ∃ t : Thread, t.instret = (s.thread h).instret + 1 ∧ (finTexit h 0 s).thread h = t.exits s.cycle := by
  have sent : SentOnly s ((s.releaseBegin (.thread h) 4).released (.thread h) 4) :=
    (SentOnly.releaseBegin ..).trans (MarksOnly.released ..).toSentOnly
  rw [finTexit_ends waits quiet]
  generalize (s.releaseBegin (.thread h) 4).released (.thread h) 4 = u at sent
  obtain ⟨cycle, t, instret, exits⟩ := (u.modThread h fun t => { t with instret := t.instret + 1 }).endThread_spec h
  rw [State.modThread_thread_same, sent.thread] at instret
  rw [State.modThread_cycle, sent.cycle] at cycle exits
  exact ⟨cycle, t, instret, exits⟩
theorem exec_texitRetire {s : State} {h : Nat} (takes : s.ev = some (.texitRetire h)) (waits : (s.thread h).run = .blocked .texit)
    (moved : (s.thread h).cwait = 0) (acked : s.redsOut h = false) : exec .texitRetire s = .next (s.together h 0 finTexit) := by
  have run : exec .texitRetire s = execTexitRetire s := rfl
  rw [run, execTexitRetire, onEvent_some s _ _ takes]
  dsimp only
  rw [waits]
  simp [moved, acked]
theorem State.slotFree_of_exited {s : State} {h : Nat} {t : Thread} {cycle : Nat} (exits : s.thread h = t.exits cycle) :
    s.slotFree h = decide (cycle + 1 ≤ s.cycle) := by
  unfold State.slotFree
  rw [exits]
  rfl

/-! ### TSTART, YIELD, TEXIT -/

theorem State.gated_of_ungated (s : State) (afterRel : Bool) (f : State → State) (ungated : Spec.Ungated s) : s.gated afterRel f = f s := by
  rw [State.gated, if_neg (by rw [ungated.2.2]; exact Bool.false_ne_true), State.ordered_of_ungated _ _ _ ungated]
theorem exec_texit (s : State) : exec .texit s = checkedBy .texit (fun s => if s.self.body.isSome then some (2, 0) else none) s
    fun s => s.gated false fun s => (s.blocks .texit).later 0 (.texitRetire s.me) := rfl
theorem exec_yield (s : State) : exec .yield s = checkedBy .yield (fun _ => none) s fun s =>
    if s.issuedAt + 8 ≤ s.cycle then (s.pass 4).modSelf fun t => { t with notBefore := s.issuedAt + 9 }
    else ((s.pass 4).blocks .yield).at_ (s.issuedAt + 8) (.yieldWake s.me s.cycle) := rfl
theorem exec_tstartReady {s : State} {h : Nat} (takes : s.ev = some (.tstartReady h)) (waits : (s.thread h).run = .blocked .start) :
    exec .tstartReady s = .next (s.wake h) := by
  have run : exec .tstartReady s = execTstartReady s := rfl
  rw [run, execTstartReady, onEvent_some s _ _ takes]
  dsimp only
  rw [waits]
theorem exec_yieldWake {s : State} {h : Nat} (takes : s.ev = some (.yieldWake h (s.thread h).since)) (waits : (s.thread h).run = .blocked .yield) :
    exec .yieldWake s = .next (s.wake h) := by
  have run : exec .yieldWake s = execYieldWake s := rfl
  have blocked : blockedSince (s.thread h) (s.thread h).since = true := by simp [blockedSince, waits]
  rw [run, execYieldWake, onEvent_some s _ _ takes]
  dsimp only
  rw [blocked]
  rfl

/-- The checks of TSTART (R75). -/
def tstartCheck (b a : Reg) (s : State) : Option (Nat × Word) :=
  if !s.slotFree (8 * s.myCore + wfield (s.getX b) 2 0) then some (2, word (wfield (s.getX b) 2 0))
  else if wbit (s.getX a) 0 then some (4, s.getX a)
  else none
/-- The thread that TSTART puts into slot h. -/
def tstartThread (b a d : Reg) (s : State) (h : Nat) : Thread :=
  { startThread (s.thread h) (s.getX a) (s.getX d) (s.getX b &&& ~~~ 0xFFF) s.self.ctx s.self.sup with
    run := .blocked .start, launch := s.self.launch, node := s.self.node }
/-- The queues of the pair of slot h are empty, if it is to hold the pair's first thread. -/
def State.clearsPair (s : State) (h : Nat) : State :=
  if s.slotFree (partner h) then s.modCore s.myCore fun k => k.clearPair (slotOf h % 4) else s
theorem exec_tstart (b a d : Reg) (s : State) : exec (.tstart b a d) s = checkedBy (.tstart b a d) (tstartCheck b a) s fun s =>
    (((s.clearsPair (8 * s.myCore + wfield (s.getX b) 2 0)).place (8 * s.myCore + wfield (s.getX b) 2 0)
      (tstartThread b a d s (8 * s.myCore + wfield (s.getX b) 2 0))).pass 4).later 2 (.tstartReady (8 * s.myCore + wfield (s.getX b) 2 0)) := rfl
theorem SentOnly.clearsPair (s : State) (h : Nat) : SentOnly s (s.clearsPair h) := .ite (.clearPair ..) (.refl s)

/-- A thread that is placed has what it is given, whatever the slot held. -/
theorem State.place_thread (s : State) (h : Nat) (t : Thread) : ∃ borns, (s.place h t).thread h =
    { t with since := s.cycle, born := s.cycle, borns := borns, dbgStop := (s.core (coreOf h)).halted } :=
  ⟨_, (State.setThread_thread ..).trans (if_pos rfl)⟩
theorem State.place_other (s : State) (h : Nat) (t : Thread) {g : Nat} (other : g ≠ h) : (s.place h t).thread g = s.thread g :=
  (State.setThread_thread ..).trans (if_neg other)
/-- The registers of a thread that starts (R26). -/
theorem tstartThread_getX (b a d : Reg) (s : State) (h : Nat) (r : Reg) :
    (tstartThread b a d s h).getX r = if r = 1 then s.getX d else if r = 31 then s.getX b &&& ~~~ 0xFFF else 0 := by
  have plain : isShadow (tstartThread b a d s h) r = false := isShadow_outside r rfl
  have one : 1 = r.toNat ↔ r = 1 := by constructor <;> intro e <;> bv_omega
  have last : 31 = r.toNat ↔ r = 31 := by constructor <;> intro e <;> bv_omega
  have regs : (tstartThread b a d s h).seq.x = ((Vector.replicate 32 0).set 1 (s.getX d)).set 31 (s.getX b &&& ~~~ 0xFFF) := rfl
  simp only [Thread.getX, plain, Seq.get, regs, Vector.getElem_set, one, last, Vector.getElem_replicate]
  by_cases zero : r = 0
  · subst zero
    rfl
  · by_cases first : r = 1
    · subst first
      rfl
    · rw [if_neg Bool.false_ne_true, if_neg zero, if_neg first, if_neg first]

end Sys2Proof.Machine

open Sys2Proof Sys2Proof.Machine Sys2Proof.Spec

theorem startYieldExitSteps : StartYieldExitSteps := by
  intro s h
  refine ⟨fun takes waits => ?_, fun takes waits => ?_, fun takes waits alone moved acked quiet => ?_⟩
  · have own := State.wake_blocked s h _ waits
    exact ⟨_, exec_tstartReady takes waits, ⟨by rw [own], by rw [own]⟩, threadOnly_wake h s⟩
  · have own := State.wake_blocked s h _ waits
    exact ⟨_, exec_yieldWake takes waits, ⟨by rw [own], by rw [own]⟩, by rw [own], threadOnly_wake h s⟩
  · have same := State.forgetFin_thread alone
    obtain ⟨cycle, t, instret, exits⟩ := finTexit_spec (h := h) (s := s.modThread h fun t => { t with fin := none })
      (by rw [same]; exact waits) (by rw [same]; exact quiet)
    rw [same] at instret
    rw [State.modThread_cycle] at cycle exits
    refine ⟨_, (exec_texitRetire takes waits moved acked).trans (congrArg _ (State.together_alone alone 0 finTexit)), ?_⟩
    refine ⟨by rw [exits]; rfl, by rw [exits]; rfl, by rw [exits]; exact instret, by rw [exits]; rfl, ?_, ?_⟩
    · rw [State.slotFree_of_exited exits, cycle]
      exact decide_eq_false (Nat.not_succ_le_self _)
    · rw [State.slotFree_of_exited (s := { finTexit h 0 (s.modThread h fun t => { t with fin := none }) with
        cycle := (finTexit h 0 (s.modThread h fun t => { t with fin := none })).cycle + 1 }) exits, cycle]
      exact decide_eq_true (le_refl _)
theorem yieldInstruction (s : State) (h : Nat) (thread : s.cur = .thread h) (ready : (s.thread h).run = .ready) (runs : Runs .yield s) :
    (s.cycle < s.issuedAt + 8 → Completes .yield s fun t => WritesNone s t ∧ Passed 4 s t ∧ BlockedFor h .yield t ∧
      Due (s.issuedAt + 8) (.yieldWake h s.cycle) t ∧ ThreadAgenda h s t) ∧
    (s.issuedAt + 8 ≤ s.cycle → Completes .yield s fun t => WritesNone s t ∧ Passed 4 s t ∧ ReadyAt h (s.issuedAt + 9) t ∧ ThreadOnly h s t) := by
  have run := (exec_yield s).trans (checkedBy_runs thread runs rfl)
  have behind : (s.pass 4).cur = .thread h := (State.pass_cur s 4).trans thread
  have passed := State.pass_thread 4 thread
  have pass := threadOnly_pass thread 4
  rw [State.me_of_thread thread] at run
  refine ⟨fun early => ?_, fun late => ?_⟩
  · rw [if_neg (Nat.not_le.mpr early)] at run
    have held := State.blocks_thread .yield behind
    have cur : (((s.pass 4).blocks .yield).at_ (s.issuedAt + 8) (.yieldWake h s.cycle)).cur = s.cur := State.pass_cur s 4
    refine ⟨_, run, writesNone_of_thread thread cur fun r => ?_, passed_of_thread thread cur ?_ ?_, State.blocks_blockedFor .yield behind, ?_,
      threadAgenda_trans (threadAgenda_of_threadOnly (threadOnly_trans pass (threadOnly_blocks behind .yield))) ⟨rfl, fun _ _ => rfl⟩⟩
    · rw [State.at_thread, held, passed]
      apply Thread.getX_congr <;> simp
    · rw [State.at_thread, held, passed]
    · rw [State.at_thread, held, passed]
    · refine State.due_at _ _ _ (le_of_eq_of_le ?_ (Nat.le_of_lt early))
      exact State.pass_cycle s 4
  · rw [if_pos late] at run
    have own := State.modSelf_thread behind fun t => { t with notBefore := s.issuedAt + 9 }
    rw [passed] at own
    have cur : ((s.pass 4).modSelf fun t => { t with notBefore := s.issuedAt + 9 }).cur = s.cur := State.pass_cur s 4
    refine ⟨_, run, writesNone_of_thread thread cur fun r => ?_, passed_of_thread thread cur ?_ ?_, ⟨?_, ?_⟩,
      threadOnly_trans pass (threadOnly_modSelf behind _)⟩
    · rw [own]
      apply Thread.getX_congr <;> simp
    · rw [own]
    · rw [own]
    · rw [own]
      exact ready
    · rw [own]
theorem tstartInstruction (s : State) (h : Nat) (thread : s.cur = .thread h) (ready : (s.thread h).run = .ready) (b a d : Reg)
    (runs : Runs (.tstart b a d) s) :
    let g := 8 * coreOf h + wfield (s.getX b) 2 0
    s.slotFree g = true → wbit (s.getX a) 0 = false →
    Completes (.tstart b a d) s fun t => WritesNone s t ∧ Passed 4 s t ∧ Due (s.cycle + 2) (.tstartReady g) t ∧
      BlockedFor g .start t ∧ (t.thread g).seq.pc = s.getX a ∧ (t.thread g).ctx = (s.thread h).ctx ∧
      (t.thread g).sup = (s.thread h).sup ∧ (t.thread g).v = Vector.replicate 32 0 ∧ (t.thread g).fflags = 0 ∧
      ∀ r, (t.thread g).getX r = if r = 1 then s.getX d else if r = 31 then s.getX b &&& ~~~ 0xFFF else 0 := by
  intro g free even
  have core : s.myCore = coreOf h := congrArg coreOf (State.me_of_thread thread)
  have other : h ≠ g := by
    intro same
    rw [← same, State.slotFree, ready] at free
    exact absurd free Bool.false_ne_true
  have passes : tstartCheck b a s = none := by simp [tstartCheck, core, g, free, even]
  have run := (exec_tstart b a d s).trans (checkedBy_runs thread runs passes)
  rw [core] at run
  have sent := SentOnly.clearsPair s g
  generalize s.clearsPair g = u at sent run
  obtain ⟨borns, placed⟩ := u.place_thread g (tstartThread b a d s g)
  have kept := u.place_other g (tstartThread b a d s g) other
  rw [sent.thread] at kept
  have behind : (u.place g (tstartThread b a d s g)).cur = .thread h := sent.cur.trans thread
  have own := State.pass_thread 4 behind
  rw [kept] at own
  obtain ⟨-, others⟩ := threadOnly_pass behind 4
  have started := (others g other.symm).trans placed
  have cur : (((u.place g (tstartThread b a d s g)).pass 4).later 2 (.tstartReady g)).cur = s.cur := (State.pass_cur ..).trans sent.cur
  refine ⟨_, run, writesNone_of_thread thread cur fun r => ?_, passed_of_thread thread cur ?_ ?_, ?_, ?_, ?_, ?_, ?_, ?_, ?_, fun r => ?_⟩
  · rw [State.later_thread, own]
    apply Thread.getX_congr <;> simp
  · rw [State.later_thread, own]
  · rw [State.later_thread, own]
  · have cycle : ((u.place g (tstartThread b a d s g)).pass 4).cycle = s.cycle := (State.pass_cycle ..).trans sent.cycle
    rw [← cycle]
    exact State.due_later ..
  · rw [BlockedFor, State.later_thread, started]
    rfl
  · rw [State.later_thread, started]
    rfl
  · rw [State.later_thread, started, ← State.self_of_thread thread]
    rfl
  · rw [State.later_thread, started, ← State.self_of_thread thread]
    rfl
  · rw [State.later_thread, started]
    rfl
  · rw [State.later_thread, started]
    rfl
  · rw [State.later_thread, started, ← tstartThread_getX b a d s g r]
    rfl
/-- Settles O21: what TSTART puts into a slot, when YIELD's thread is back, and what is left of a thread that exits. -/
theorem threadsStartYieldExit : Obligations.ThreadsStartYieldExit := by
  refine ⟨fun s h thread ready single => ⟨fun b a d runs => ?_, yieldInstruction s h thread ready, fun runs noBody ungated => ?_⟩, startYieldExitSteps⟩
  · exact tstartInstruction s h thread ready b a d runs
  · have passes : (if s.self.body.isSome then some ((2 : Nat), (0 : Word)) else none) = none := by rw [State.self_of_thread thread, noBody]; rfl
    have run := (exec_texit s).trans (checkedBy_runs thread runs passes)
    rw [State.gated_of_ungated _ _ _ ungated, State.me_of_thread thread] at run
    exact ⟨_, run, State.blocks_reads _ thread, (StaysAt.blocks _ thread).pc, State.blocks_blockedFor _ thread, State.due_later ..,
      threadAgenda_later (threadAgenda_of_threadOnly (threadOnly_blocks thread _)) _ _⟩
end

section
/-!
SUPPORT. The monitors of a thread: arming, disarming, records, and MON, MON.g, MCLR and MWAIT, which set and read them (O23).
-/

namespace Sys2Proof.Machine

/-! ### Four monitors -/

theorem Thread.setMon_mon (t : Thread) (n : Nat) (m : Mon) (k : Nat) : (t.setMon n m).mon k = if n % 4 = k % 4 then m else t.mon k := by
  unfold Thread.setMon Thread.mon
  rw [Vector.getElem_set]
theorem Thread.setMon_same (t : Thread) (n : Nat) (m : Mon) : (t.setMon n m).mon n = m := by rw [Thread.setMon_mon, if_pos rfl]
theorem Thread.setMon_other (t : Thread) {n k : Nat} (m : Mon) (hn : n < 4) (hk : k < 4) (other : k ≠ n) : (t.setMon n m).mon k = t.mon k := by
  rw [Thread.setMon_mon, if_neg (by omega)]
/-- Monitor n without its record, if the mask names it. -/
def Thread.clearHit (mask : Nat) (t : Thread) (n : Nat) : Thread := if nbit mask n then t.setMon n { t.mon n with hit := false } else t
theorem Thread.clearHits_eq (t : Thread) (mask : Nat) : t.clearHits mask = (List.range 4).foldl (Thread.clearHit mask) t := rfl
theorem Thread.clearHit_only (mask : Nat) (t : Thread) (n : Nat) : t.clearHit mask n = { t with mons := (t.clearHit mask n).mons } := by
  unfold Thread.clearHit
  split <;> rfl
theorem Thread.clearHits_only (t : Thread) (mask : Nat) : t.clearHits mask = { t with mons := (t.clearHits mask).mons } := by
  rw [Thread.clearHits_eq]
  refine List.foldlRecOn (List.range 4) _ (motive := fun u : Thread => u = { t with mons := u.mons }) rfl fun u only n _ => ?_
  rw [Thread.clearHit_only, only]
theorem Thread.clearHit_mon (mask : Nat) (t : Thread) {n k : Nat} (hn : n < 4) (hk : k < 4) :
    (t.clearHit mask n).mon k = if k = n then { t.mon k with hit := (t.mon k).hit && !nbit mask k } else t.mon k := by
  unfold Thread.clearHit
  by_cases own : k = n
  · subst own
    rw [if_pos rfl]
    cases nbit mask k
    · simp
    · simp [Thread.setMon_same]
  · rw [if_neg own]
    split
    · exact Thread.setMon_other t _ hn hk own
    · rfl
theorem Thread.clearHits_mon (t : Thread) (mask : Nat) {k : Nat} (hk : k < 4) :
    (t.clearHits mask).mon k = { t.mon k with hit := (t.mon k).hit && !nbit mask k } := by
  have upTo (n : Nat) (hn : n ≤ 4) : ((List.range n).foldl (Thread.clearHit mask) t).mon k =
      if k < n then { t.mon k with hit := (t.mon k).hit && !nbit mask k } else t.mon k := by
    induction n with
    | zero => rfl
    | succ n ih =>
      rw [List.range_succ, List.foldl_append, List.foldl_cons, List.foldl_nil, Thread.clearHit_mon mask _ hn hk, ih (by omega)]
      by_cases own : k = n
      · rw [if_pos own, if_neg (by omega), if_pos (by omega)]
      · rw [if_neg own]
        by_cases low : k < n
        · rw [if_pos low, if_pos (by omega)]
        · rw [if_neg low, if_neg (by omega)]
  rw [Thread.clearHits_eq, upTo 4 (le_refl 4), if_pos hk]
theorem Thread.clearHits_getX (t : Thread) (mask : Nat) (r : Reg) : (t.clearHits mask).getX r = t.getX r := by
  rw [Thread.clearHits_only]
  rfl
theorem Thread.setX_mon (t : Thread) (d : Reg) (v : Word) (k : Nat) : (t.setX d v).mon k = t.mon k := by
  rw [Thread.setX_only]
  rfl

/-! ### MON, MON.g, MCLR -/

/-- An access with a translation in the TLB reaches its address. -/
theorem State.withPhys_of_known {s : State} {va : Word} {acc : Access} {p : Phys} (known : s.translate s.view va acc = .ok p 0)
    (f : Phys → Nat → State → State) :
    s.withPhys va acc f = f p 0 s := by
  unfold State.withPhys
  dsimp only
  rw [known]
  rfl

section
variable {s : State} {h : Nat} (thread : s.cur = .thread h)
include thread

/-- A monitor is set and the instruction passed; nothing else changes. -/
theorem setsMonitor_spec (n : BitVec 2) (m : Mon) :
    let t := (s.modSelf fun t => t.setMon n.toNat m).pass 4
    (t.thread h).mon n.toNat = m ∧ (∀ k, k < 4 → k ≠ n.toNat → (t.thread h).mon k = (s.thread h).mon k) ∧ Spec.WritesNone s t ∧
      Spec.Passed 4 s t ∧ Spec.ThreadOnly h s t := by
  have behind : (s.modSelf fun t => t.setMon n.toNat m).cur = .thread h := thread
  have own := State.pass_thread 4 behind
  rw [State.modSelf_thread thread] at own
  have cur : ((s.modSelf fun t => t.setMon n.toNat m).pass 4).cur = s.cur := State.pass_cur ..
  refine ⟨?_, fun k hk other => ?_, writesNone_of_thread thread cur fun r => ?_, passed_of_thread thread cur ?_ ?_,
    threadOnly_trans (threadOnly_modSelf thread _) (threadOnly_pass behind 4)⟩
  · rw [own]
    exact Thread.setMon_same ..
  · rw [own]
    exact Thread.setMon_other _ m n.isLt hk other
  · rw [own]
    apply Thread.getX_congr <;> simp [Thread.setMon]
  · rw [own]
    rfl
  · rw [own]
    rfl
theorem exec_mon (a : Reg) (n : BitVec 2) (runs : Spec.Runs (.mon a n) s) (passes : (wellCheck s h (s.getX a) 1 false true).1 = none) :
    let place : MonPlace := .well (wellCore h (s.getX a)) (wellOff (s.getX a) / 64)
    exec (.mon a n) s = .next ((s.modSelf fun t => t.setMon n.toNat { place := some place, hit := s.landed place }).pass 4) := by
  have run : exec (.mon a n) s = checkedBy (.mon a n) (fun s => (wellCheck s s.me (s.getX a) 1 false true).1) s fun s =>
    (s.armed n.toNat (.well (wellCore s.me (s.getX a)) (wellOff (s.getX a) / 64))).pass 4 := rfl
  rw [run, checkedBy_runs thread runs (by rw [State.me_of_thread thread]; exact passes), State.me_of_thread thread]
  rfl
theorem exec_monG (a : Reg) (n : BitVec 2) (p : Phys) (runs : Spec.Runs (.monG a n) s) (known : s.translate s.view (s.getX a) .read = .ok p 0) :
    let place : MonPlace := .line (256 * (p.key / 256))
    exec (.monG a n) s = .next ((s.modSelf fun t => t.setMon n.toNat { place := some place, hit := s.landed place }).pass 4) := by
  have run : exec (.monG a n) s = checkedBy (.monG a n) (fun _ => none) s fun s => s.withPhys (s.getX a) .read fun p _ s =>
    (s.armed n.toNat (.line (256 * (p.key / 256)))).pass 4 := rfl
  rw [run, checkedBy_runs thread runs rfl, State.withPhys_of_known known]
  rfl
theorem exec_mclr (n : BitVec 2) (runs : Spec.Runs (.mclr n) s) :
    exec (.mclr n) s = .next ((s.modSelf fun t => t.setMon n.toNat {}).pass 4) := by
  have run : exec (.mclr n) s = checkedBy (.mclr n) (fun _ => none) s fun s => (s.modSelf fun t => t.setMon n.toNat {}).pass 4 := rfl
  rw [run, checkedBy_runs thread runs rfl]

/-! ### MWAIT -/

/-- What MWAIT does once its checks are passed (R86). -/
def mwaitIssue (b : Reg) (m : BitVec 4) (d : Reg) (s : State) : State :=
  if s.self.monHit m.toNat then
    if s.self.gang.isSome then (s.blocks (.mwait m.toNat d)).later 0 (.monitorWake s.me s.cycle)
    else ((s.modSelf fun t => t.clearHits m.toNat).setX d 1).pass 4
  else if wfield (s.getX b) 31 0 = 0 then s.blocks (.mwait m.toNat d)
  else (s.blocks (.mwait m.toNat d)).later (wfield (s.getX b) 31 0) (.mwaitTimeout s.me s.cycle)
theorem exec_mwait (b : Reg) (m : BitVec 4) (d : Reg) (runs : Spec.Runs (.mwait b m d) s) (nonzero : m ≠ 0)
    (ends : (s.thread h).monArmed m.toNat = true ∨ wfield (s.getX b) 31 0 ≠ 0) : exec (.mwait b m d) s = .next (mwaitIssue b m d s) := by
  have run : exec (.mwait b m d) s = checkedBy (.mwait b m d) (fun s =>
      if m = 0 then some (2, 0)
      else if !s.self.monArmed m.toNat && wfield (s.getX b) 31 0 = 0 then some (2, word m.toNat)
      else none) s (mwaitIssue b m d) := rfl
  have passes : (!(s.thread h).monArmed m.toNat && decide (wfield (s.getX b) 31 0 = 0)) = false := by
    rcases ends with armed | timed
    · simp [armed]
    · simp [timed]
  rw [run, checkedBy_runs thread runs (by rw [State.self_of_thread thread, passes, if_neg nonzero]; rfl)]
theorem mwaitIssue_hit {b : Reg} {m : BitVec 4} {d : Reg} (hit : (s.thread h).monHit m.toNat = true) (alone : (s.thread h).gang = none) :
    mwaitIssue b m d s = ((s.modSelf fun t => t.clearHits m.toNat).setX d 1).pass 4 := by
  unfold mwaitIssue
  rw [State.self_of_thread thread, hit, alone]
  rfl
theorem mwaitIssue_together {b : Reg} {m : BitVec 4} {d : Reg} (hit : (s.thread h).monHit m.toNat = true) (gang : (s.thread h).gang ≠ none) :
    mwaitIssue b m d s = (s.blocks (.mwait m.toNat d)).later 0 (.monitorWake h s.cycle) := by
  unfold mwaitIssue
  rw [State.self_of_thread thread, hit, State.me_of_thread thread, Option.isSome_iff_ne_none.mpr gang]
  rfl
theorem mwaitIssue_waits {b : Reg} {m : BitVec 4} {d : Reg} (unhit : (s.thread h).monHit m.toNat = false) :
    mwaitIssue b m d s = if wfield (s.getX b) 31 0 = 0 then s.blocks (.mwait m.toNat d)
      else (s.blocks (.mwait m.toNat d)).later (wfield (s.getX b) 31 0) (.mwaitTimeout h s.cycle) := by
  unfold mwaitIssue
  rw [State.self_of_thread thread, unhit, State.me_of_thread thread]
  rfl
/-- A thread that blocks, with or without an event to wake it, stays at its instruction. -/
theorem blocksLater_spec (w : Why) (n : Nat) (e : Event) :
    let t := (s.blocks w).later n e
    Spec.BlockedFor h w t ∧ t.pc = s.pc ∧ Spec.WritesNone s t ∧ Spec.ThreadAgenda h s t :=
  ⟨State.blocks_blockedFor w thread, (StaysAt.blocks w thread).pc, State.blocks_reads w thread,
    threadAgenda_later (threadAgenda_of_threadOnly (threadOnly_blocks thread w)) n e⟩
theorem blocks_spec (w : Why) : Spec.BlockedFor h w (s.blocks w) ∧ (s.blocks w).pc = s.pc ∧ Spec.WritesNone s (s.blocks w) ∧
    Spec.ThreadAgenda h s (s.blocks w) :=
  ⟨State.blocks_blockedFor w thread, (StaysAt.blocks w thread).pc, State.blocks_reads w thread, threadAgenda_of_threadOnly (threadOnly_blocks thread w)⟩
/-- MWAIT with a record retires with 1, and the records of its mask are gone. -/
theorem mwaitRetires_spec (mask : Nat) (d : Reg) :
    let t := ((s.modSelf fun t => t.clearHits mask).setX d 1).pass 4
    Spec.Writes s t d 1 ∧ Spec.Passed 4 s t ∧ Spec.ThreadOnly h s t ∧
      ∀ k, k < 4 → ((t.thread h).mon k).place = ((s.thread h).mon k).place ∧ ((t.thread h).mon k).hit = (((s.thread h).mon k).hit && !nbit mask k) := by
  have cleared : (s.modSelf fun t => t.clearHits mask).cur = .thread h := thread
  have written : ((s.modSelf fun t => t.clearHits mask).setX d 1).thread h = ((s.thread h).clearHits mask).setX d 1 := by
    rw [State.setX_of_thread cleared, State.modThread_thread_same, State.modSelf_thread thread]
  have behind : ((s.modSelf fun t => t.clearHits mask).setX d 1).cur = .thread h := (State.setX_cur ..).trans cleared
  have own := State.pass_thread 4 behind
  rw [written] at own
  have cur : (((s.modSelf fun t => t.clearHits mask).setX d 1).pass 4).cur = s.cur := (State.pass_cur ..).trans (State.setX_cur ..)
  have seq : (((s.thread h).clearHits mask).setX d 1).seq = { (s.thread h).seq with x := (((s.thread h).clearHits mask).setX d 1).seq.x } := by
    rw [Thread.setX_seq, Thread.clearHits_only]
  refine ⟨writes_of_thread thread cur fun r => ?_, passed_of_thread thread cur ?_ ?_,
    threadOnly_trans (threadOnly_trans (threadOnly_modSelf thread _) (threadOnly_setX cleared d 1)) (threadOnly_pass behind 4), fun k hk => ?_⟩
  · rw [own, ← Thread.clearHits_getX (s.thread h) mask, ← Thread.setX_getX]
    apply Thread.getX_congr <;> simp
  · rw [own]
    dsimp only
    rw [Seq.pass_x, seq, Seq.pass_withX]
  · rw [own]
    dsimp only
    rw [Thread.setX_instret, Thread.clearHits_only]
  · have mon : ((((s.modSelf fun t => t.clearHits mask).setX d 1).pass 4).thread h).mon k =
        { (s.thread h).mon k with hit := ((s.thread h).mon k).hit && !nbit mask k } := by
      rw [own, ← Thread.clearHits_mon _ mask hk]
      exact Thread.setX_mon ((s.thread h).clearHits mask) d 1 k
    rw [mon]
    exact ⟨rfl, rfl⟩
end

end Sys2Proof.Machine

open Sys2Proof Sys2Proof.Machine Sys2Proof.Spec

theorem monitorInstructions : MonitorInstructions := by
  intro s h thread
  refine ⟨fun a n runs passes => ?_, fun a n p runs known => ?_, fun n runs => ?_, fun b m d runs nonzero ends =>
    ⟨fun hit gang => ?_, fun hit alone => ?_, fun unhit => ?_⟩⟩
  · exact ⟨_, exec_mon thread a n runs passes, setsMonitor_spec thread n _⟩
  · exact ⟨_, exec_monG thread a n p runs known, setsMonitor_spec thread n _⟩
  · exact ⟨_, exec_mclr thread n runs, setsMonitor_spec thread n _⟩
  · obtain ⟨held, stays, reads, only⟩ := blocksLater_spec thread (.mwait m.toNat d) 0 (.monitorWake h s.cycle)
    have run := exec_mwait thread b m d runs nonzero ends
    rw [mwaitIssue_together thread hit gang] at run
    exact ⟨_, run, held, stays, reads, only, State.due_later ..⟩
  · have run := exec_mwait thread b m d runs nonzero ends
    rw [mwaitIssue_hit thread hit alone] at run
    exact ⟨_, run, mwaitRetires_spec thread m.toNat d⟩
  · have run := exec_mwait thread b m d runs nonzero ends
    rw [mwaitIssue_waits thread unhit] at run
    by_cases untimed : wfield (s.getX b) 31 0 = 0
    · rw [if_pos untimed] at run
      obtain ⟨held, stays, reads, only⟩ := blocks_spec thread (.mwait m.toNat d)
      exact ⟨_, run, held, stays, reads, only, fun timed => absurd untimed timed⟩
    · rw [if_neg untimed] at run
      obtain ⟨held, stays, reads, only⟩ := blocksLater_spec thread (.mwait m.toNat d) (wfield (s.getX b) 31 0) (.mwaitTimeout h s.cycle)
      exact ⟨_, run, held, stays, reads, only, fun _ => State.due_later ..⟩
end

section
/-!
SUPPORT. A write that lands looks at every thread in turn: what it records and whom it wakes (O23).
-/

namespace Sys2Proof.Machine

/-! ### A look at every thread -/

/-- From s to t the cycle, memory and the landings are the same, and no event is withdrawn. -/
structure Wakes (s t : State) : Prop where
  cycle : t.cycle = s.cycle
  mem : t.mem = s.mem
  landings : t.landings = s.landings
  agenda : ∀ x, x ∈ s.agenda → x ∈ t.agenda

theorem Wakes.refl (s : State) : Wakes s s := ⟨rfl, rfl, rfl, fun _ x => x⟩
theorem Wakes.trans {s t u : State} (first : Wakes s t) (second : Wakes t u) : Wakes s u :=
  ⟨second.cycle.trans first.cycle, second.mem.trans first.mem, second.landings.trans first.landings,
    fun x member => second.agenda x (first.agenda x member)⟩
theorem Wakes.modThread (s : State) (h : Nat) (f : Thread → Thread) : Wakes s (s.modThread h f) := ⟨rfl, rfl, rfl, fun _ x => x⟩
theorem Wakes.later (s : State) (n : Nat) (e : Event) : Wakes s (s.later n e) := ⟨rfl, rfl, rfl, fun x member => s.later_keeps n e x member⟩

/-- A step for each thread of a table, which touches that thread only. -/
structure VisitsThreads (f : State → Nat × Thread → State) : Prop where
  wakes : ∀ u x, Wakes u (f u x)
  others : ∀ u x g, g ≠ x.1 → (f u x).thread g = u.thread g

theorem VisitsThreads.foldl_wakes {f : State → Nat × Thread → State} (visits : VisitsThreads f) (l : Table Thread) (s : State) :
    Wakes s (l.foldl f s) :=
  List.foldlRecOn l f (motive := Wakes s) (.refl s) fun u so x _ => so.trans (visits.wakes u x)
theorem VisitsThreads.foldl_other {f : State → Nat × Thread → State} (visits : VisitsThreads f) (l : Table Thread) (s : State) {g : Nat}
    (absent : ∀ x, x ∈ l → g ≠ x.1) : (l.foldl f s).thread g = s.thread g :=
  List.foldlRecOn l f (motive := fun u : State => u.thread g = s.thread g) rfl fun u same x member => (visits.others u x g (absent x member)).trans same
/-- A thread that is listed once is visited once: before, it is as it was, and after, as its visit has left it. -/
theorem VisitsThreads.foldl_visit {f : State → Nat × Thread → State} (visits : VisitsThreads f) {l : Table Thread} (rising : Spec.Rising l)
    {h : Nat} {t : Thread} (member : (h, t) ∈ l) (s : State) :
    ∃ u, Wakes s u ∧ u.thread h = s.thread h ∧ Wakes (f u (h, t)) (l.foldl f s) ∧ (l.foldl f s).thread h = (f u (h, t)).thread h := by
  obtain ⟨before, after, rfl⟩ := List.append_of_mem member
  obtain ⟨-, later, earlier⟩ := List.pairwise_append.mp rising
  have notBefore : ∀ x, x ∈ before → h ≠ x.1 := fun x mem => Nat.ne_of_gt (earlier x mem (h, t) List.mem_cons_self)
  have notAfter : ∀ x, x ∈ after → h ≠ x.1 := fun x mem => Nat.ne_of_lt (List.rel_of_pairwise_cons later mem)
  rw [List.foldl_append, List.foldl_cons]
  exact ⟨before.foldl f s, visits.foldl_wakes before s, visits.foldl_other before s notBefore, visits.foldl_wakes after _,
    visits.foldl_other after _ notAfter⟩

/-! ### Records of monitors -/

/-- A monitor behind a write. -/
def Mon.notes (w : Landing) (m : Mon) : Mon := { m with hit := m.hit || m.place.any w.meets }
/-- The monitors of a thread on whose places a write lands. -/
def Thread.hitsOf (t : Thread) (w : Landing) : List Nat :=
  (List.range 4).filter fun n => match t.mons.toList.getD n {} with | (m : Mon) => m.place.any w.meets
/-- What a write does at one thread (R84, R86). -/
def recordVisit (w : Landing) (s : State) (x : Nat × Thread) : State :=
  if (x.2.hitsOf w).isEmpty then s
  else
    let u := s.modThread x.1 fun t => { t with mons := t.mons.map fun m => { m with hit := m.hit || m.place.any w.meets } }
    match x.2.run with
    | .blocked (.mwait mask _) => if (x.2.hitsOf w).any (nbit mask) then u.later 3 (.monitorWake x.1 x.2.since) else u
    | _ => u
theorem State.recordWrite_eq (s : State) (w : Landing) : s.recordWrite w = s.threads.foldl (recordVisit w) s := rfl
theorem mem_hitsOf {t : Thread} {w : Landing} {k : Nat} (hk : k < 4) : k ∈ t.hitsOf w ↔ (t.mon k).place.any w.meets = true := by
  have entry : t.mons.toList.getD k {} = t.mon k := by
    have inside : k < t.mons.toList.length := by simpa using hk
    rw [← List.getElem_eq_getD (h := inside), Vector.getElem_toList]
    unfold Thread.mon
    simp [Nat.mod_eq_of_lt hk]
  unfold Thread.hitsOf
  rw [List.mem_filter, entry]
  exact and_iff_right (List.mem_range.mpr hk)
theorem recordVisit_none {t : Thread} {w : Landing} {h : Nat} (s : State) (none : (t.hitsOf w).isEmpty = true) : recordVisit w s (h, t) = s := if_pos none
theorem recordVisit_some {t : Thread} {w : Landing} {h : Nat} (s : State) (some : (t.hitsOf w).isEmpty = false) :
    Wakes (s.modThread h fun t => { t with mons := t.mons.map (Mon.notes w) }) (recordVisit w s (h, t)) ∧
      (recordVisit w s (h, t)).threads = (s.modThread h fun t => { t with mons := t.mons.map (Mon.notes w) }).threads := by
  unfold recordVisit
  rw [some, if_neg Bool.false_ne_true]
  dsimp only
  split
  · split
    · exact ⟨.later .., rfl⟩
    · exact ⟨.refl _, rfl⟩
  · exact ⟨.refl _, rfl⟩
theorem recordVisit_visits (w : Landing) : VisitsThreads (recordVisit w) := by
  refine ⟨fun u x => ?_, fun u x g other => ?_⟩
  · obtain ⟨h, t⟩ := x
    cases none : (t.hitsOf w).isEmpty
    · exact (Wakes.modThread ..).trans (recordVisit_some u none).1
    · rw [recordVisit_none u none]
      exact .refl u
  · obtain ⟨h, t⟩ := x
    cases none : (t.hitsOf w).isEmpty
    · rw [State.thread, (recordVisit_some u none).2]
      exact (State.modThread_thread ..).trans (if_neg other)
    · rw [recordVisit_none u none]
theorem recordVisit_mon {t : Thread} {w : Landing} {h k : Nat} {u : State} (same : u.thread h = t) (hk : k < 4) :
    ((recordVisit w u (h, t)).thread h).mon k = (t.mon k).notes w := by
  cases none : (t.hitsOf w).isEmpty
  · have visited : (recordVisit w u (h, t)).thread h = { t with mons := t.mons.map (Mon.notes w) } := by
      rw [State.thread, (recordVisit_some u none).2, ← same]
      exact State.modThread_thread_same ..
    rw [visited]
    exact Vector.getElem_map ..
  · have missed : (t.mon k).place.any w.meets = false := by
      rw [← Bool.not_eq_true, ← mem_hitsOf hk, List.isEmpty_iff.mp none]
      exact List.not_mem_nil
    rw [recordVisit_none u none, same, Mon.notes, missed, Bool.or_false]
theorem recordVisit_wakes {t : Thread} {w : Landing} {h k mask : Nat} {rd : Reg} (u : State) (hk : k < 4) (waits : t.run = .blocked (.mwait mask rd))
    (named : nbit mask k = true) (meets : (t.mon k).place.any w.meets = true) :
    (u.cycle + 3, .monitorWake h t.since) ∈ (recordVisit w u (h, t)).agenda := by
  have hit := (mem_hitsOf hk).mpr meets
  have someHit : ¬ (t.hitsOf w).isEmpty = true := fun none => List.ne_nil_of_mem hit (List.isEmpty_iff.mp none)
  have wakes : (t.hitsOf w).any (nbit mask) = true := List.any_eq_true.mpr ⟨k, hit, named⟩
  unfold recordVisit
  dsimp only
  rw [if_neg someHit, waits]
  dsimp only
  rw [if_pos wakes]
  exact State.due_later ..

section
variable (s : State) (core : Option Nat) (first len : Nat)
/-- A write of this cycle is among the landings, and every thread is visited. -/
theorem State.recordWrites_now : s.recordWrites core first len 0 =
    let w : Landing := { core := core, first := first, len := len, at_ := s.cycle }
    { s with landings := s.landings.filter (fun (x : Landing) => s.cycle ≤ x.at_) ++ [w] }.recordWrite w := rfl
theorem State.recordWrites_visit (rising : Spec.Rising s.threads) {h : Nat} (member : (h, s.thread h) ∈ s.threads) :
    let w : Landing := { core := core, first := first, len := len, at_ := s.cycle }
    ∃ u : State, u.cycle = s.cycle ∧ u.thread h = s.thread h ∧ Wakes (recordVisit w u (h, s.thread h)) (s.recordWrites core first len 0) ∧
      (s.recordWrites core first len 0).thread h = (recordVisit w u (h, s.thread h)).thread h := by
  intro w
  rw [State.recordWrites_now, State.recordWrite_eq]
  obtain ⟨u, before, same, after, visited⟩ := (recordVisit_visits w).foldl_visit rising member
    { s with landings := s.landings.filter (fun (x : Landing) => s.cycle ≤ x.at_) ++ [w] }
  exact ⟨u, before.cycle, same, after, visited⟩
theorem State.recordWrites_landed (p : MonPlace)
    (meets : Landing.meets { core := core, first := first, len := len, at_ := s.cycle } p = true) : (s.recordWrites core first len 0).landed p = true := by
  have kept := (recordVisit_visits { core := core, first := first, len := len, at_ := s.cycle }).foldl_wakes s.threads
    { s with landings := s.landings.filter (fun (x : Landing) => s.cycle ≤ x.at_) ++ [{ core := core, first := first, len := len, at_ := s.cycle }] }
  rw [State.recordWrites_now, State.recordWrite_eq, State.landed, kept.landings, kept.cycle]
  refine List.any_eq_true.mpr ⟨_, List.mem_append_right _ (List.mem_singleton_self _), ?_⟩
  simp [meets]
end

end Sys2Proof.Machine
end

section
/-!
SUPPORT and O23. The ends of MWAIT and CNTW: records and counters that wake, time-outs, and what their threads have then.
-/

namespace Sys2Proof.Machine

/-! ### MWAIT ends -/

section
variable {s : State} {h mask : Nat} {rd : Reg}

theorem exec_monitorWake (takes : s.ev = some (.monitorWake h (s.thread h).since)) (waits : (s.thread h).run = .blocked (.mwait mask rd)) :
    exec .monitorWake s = .next (s.together h 1 finMwait) := by
  have run : exec .monitorWake s = execMonitorWake s := rfl
  rw [run, execMonitorWake, onEvent_some s _ _ takes]
  dsimp only
  rw [waits]
  simp
theorem exec_mwaitTimeout (takes : s.ev = some (.mwaitTimeout h (s.thread h).since)) (waits : (s.thread h).run = .blocked (.mwait mask rd))
    (unhit : (s.thread h).monHit mask = false) : exec .mwaitTimeout s = .next (s.together h 2 finMwait) := by
  have run : exec .mwaitTimeout s = execMwaitTimeout s := rfl
  rw [run, execMwaitTimeout, onEvent_some s _ _ takes]
  dsimp only
  rw [waits]
  simp [unhit]
theorem finMwait_waiting {v : Nat} (waits : (s.thread h).run = .blocked (.mwait mask rd)) (ends : v ≠ undoes) :
    finMwait h v s = ((s.modThread h fun t => (if v = 1 then t.clearHits mask else t).setX rd (word v)).passOf h 4).wake h := by
  unfold finMwait
  rw [waits]
  exact if_neg ends
/-- An MWAIT that ends on a write: status 1, and no record in a monitor of its mask. -/
theorem finMwait_hit (waits : (s.thread h).run = .blocked (.mwait mask rd)) :
    (Spec.WritesOf h s (finMwait h 1 s) rd 1 ∧ Spec.PassedOf h 4 s (finMwait h 1 s) ∧ Spec.ReadyAt h (s.cycle + 1) (finMwait h 1 s) ∧
      Spec.ThreadOnly h s (finMwait h 1 s)) ∧ ∀ k, k < 4 → nbit mask k = true → (((finMwait h 1 s).thread h).mon k).hit = false := by
  have run : ((s.thread h).clearHits mask).run = .blocked (.mwait mask rd) := by
    rw [Thread.clearHits_only]
    exact waits
  rw [finMwait_waiting waits (by decide)]
  refine ⟨endsWaitBy_spec ((s.thread h).clearHits mask) rd 1 4 rfl (Thread.clearHits_only ..) waits, fun k hk named => ?_⟩
  rw [State.ends_thread ((s.thread h).clearHits mask) rd 1 4 rfl run]
  have mon : (((s.thread h).clearHits mask).ends rd 1 4 (s.cycle + 1)).mon k = ((s.thread h).clearHits mask).mon k := Thread.setX_mon ..
  rw [mon, Thread.clearHits_mon _ mask hk]
  simp [named]
theorem finMwait_out (waits : (s.thread h).run = .blocked (.mwait mask rd)) :
    Spec.WritesOf h s (finMwait h 2 s) rd 2 ∧ Spec.PassedOf h 4 s (finMwait h 2 s) ∧ Spec.ReadyAt h (s.cycle + 1) (finMwait h 2 s) ∧
      Spec.ThreadOnly h s (finMwait h 2 s) := by
  rw [finMwait_waiting waits (by decide)]
  exact endsWait_spec waits rd 2 4
end

/-- The end of a wait is the same with what was noted of it forgotten, if nothing was. -/
theorem ends_of_forgetFin {s t : State} {h n : Nat} {d : Reg} {v : Word} (alone : Spec.Alone h s)
    (ends : let u := s.modThread h fun t => { t with fin := none }
      Spec.WritesOf h u t d v ∧ Spec.PassedOf h n u t ∧ Spec.ReadyAt h (u.cycle + 1) t ∧ Spec.ThreadOnly h u t) :
    Spec.WritesOf h s t d v ∧ Spec.PassedOf h n s t ∧ Spec.ReadyAt h (s.cycle + 1) t ∧ Spec.ThreadOnly h s t := by
  obtain ⟨writes, passed, ready, only⟩ := ends
  unfold Spec.WritesOf at *
  unfold Spec.PassedOf at *
  rw [State.forgetFin_thread alone] at writes passed
  exact ⟨writes, passed, ready, threadOnly_trans (threadOnly_modThread h s _) only⟩

/-! ### CNTW -/

section
variable {s : State} {h : Nat}

theorem exec_cntw (c : BitVec 3) (b a : Reg) (s : State) : exec (.cntw c b a) s =
    checkedBy (.cntw c b a) (fun s => if (s.getX a).toNat % 8 ≠ 0 then some (4, s.getX a) else none) s fun s =>
      s.ordered true fun u => u.withPhys (u.getX a) .read fun p n v =>
        if v.tileWaits (linesOf p.key 8) then v.stalls
        else (v.blocks (.cntw p.key none (c.toNat + 1))).sendFar
          { h := v.me, pump := none, va := v.getX a, addr := p.key, key := p.ks, sa := p.sa, op := .count (s.getX b) } n := rfl
/-- With no limit on its cluster's router a core's request is under way, with its release or without (R251, R377). -/
theorem State.sendFar_of_unlimited (s : State) (r : FarReq) (n : Nat) (core : r.pump = none)
    (unlimited : s.limitAt (clusterOf r.h) ((s.partOfCluster (clusterOf r.h)).getD 0) = 0) :
    ∃ k q, s.sendFar r n = s.later k (.farAccessPerform q) ∧ q.addr = r.addr ∧ q.key = r.key ∧ q.op = r.op ∧ q.sent = s.cycle ∧ q.h = r.h ∧
      q.pump = r.pump := by
  unfold State.sendFar
  dsimp only
  split
  · exact ⟨1, _, rfl, rfl, rfl, rfl, rfl, rfl, rfl⟩
  · unfold State.leave
    dsimp only
    rw [core]
    dsimp only
    split
    · exact ⟨_, _, rfl, rfl, rfl, rfl, rfl, rfl, rfl⟩
    · unfold State.leavesCluster State.admitAt
      dsimp only
      rw [unlimited, if_pos rfl]
      exact ⟨_, _, rfl, rfl, rfl, rfl, rfl, rfl, rfl⟩
theorem exec_cntw_misaligned {c : BitVec 3} {b a : Reg} (thread : s.cur = .thread h) (runs : Spec.Runs (.cntw c b a) s)
    (odd : (s.getX a).toNat % 8 ≠ 0) : exec (.cntw c b a) s = .next (parkTrap h 4 (s.thread h).seq.pc (s.getX a) s) :=
  (exec_cntw c b a s).trans (checkedBy_traps thread runs (if_pos odd))
theorem exec_cntw_asks {c : BitVec 3} {b a : Reg} {p : Phys} (thread : s.cur = .thread h) (runs : Spec.Runs (.cntw c b a) s)
    (ungated : Spec.Ungated s) (aligned : (s.getX a).toNat % 8 = 0) (known : s.translate s.view (s.getX a) .read = .ok p 0)
    (unlocked : s.tileWaits (linesOf p.key 8) = false) : exec (.cntw c b a) s =
      .next ((s.blocks (.cntw p.key none (c.toNat + 1))).sendFar
        { h := h, pump := none, va := s.getX a, addr := p.key, key := p.ks, sa := p.sa, op := .count (s.getX b) } 0) := by
  rw [exec_cntw, checkedBy_runs thread runs (if_neg (not_not_intro aligned)), State.ordered_of_ungated _ _ _ ungated, State.withPhys_of_known known,
    unlocked, State.me_of_thread thread]
  rfl

/-- What a write does to the CNTW of one thread (R88). -/
def counterVisit (key n : Nat) (s : State) (x : Nat × Thread) : State :=
  match x.2.run with
  | .blocked (.cntw k (some target) _) =>
    if rangeMeets key n k 8 && target.toNat ≤ ofBytes (memRead s.mem k 8) then s.later 3 (.cntwWake x.1 x.2.since) else s
  | _ => s
theorem State.wakeCounters_eq (s : State) (key n : Nat) : s.wakeCounters key n = s.threads.foldl (counterVisit key n) s := rfl
theorem counterVisit_only (key n : Nat) (s : State) (x : Nat × Thread) :
    counterVisit key n s x = s ∨ counterVisit key n s x = s.later 3 (.cntwWake x.1 x.2.since) := by
  unfold counterVisit
  split
  · split
    · exact .inr rfl
    · exact .inl rfl
  · exact .inl rfl
theorem counterVisit_visits (key n : Nat) : VisitsThreads (counterVisit key n) := by
  refine ⟨fun u x => ?_, fun u x g _ => ?_⟩ <;> obtain same | wakes := counterVisit_only key n u x
  · rw [same]
    exact .refl u
  · rw [wakes]
    exact .later ..
  · rw [same]
  · rw [wakes]
    rfl
/-- A counter that is brought to its target wakes the thread that waits for it. -/
theorem State.wakeCounters_due {key n k : Nat} {target : Word} {scope : Nat} (rising : Spec.Rising s.threads) (member : (h, s.thread h) ∈ s.threads)
    (waits : (s.thread h).run = .blocked (.cntw k (some target) scope)) (meets : rangeMeets key n k 8 = true)
    (reached : target.toNat ≤ ofBytes (memRead s.mem k 8)) : (s.cycle + 3, .cntwWake h (s.thread h).since) ∈ (s.wakeCounters key n).agenda := by
  obtain ⟨u, before, -, after, -⟩ := (counterVisit_visits key n).foldl_visit rising member s
  have wakes : counterVisit key n u (h, s.thread h) = u.later 3 (.cntwWake h (s.thread h).since) := by
    unfold counterVisit
    dsimp only
    rw [waits]
    dsimp only
    rw [meets, before.mem, decide_eq_true reached]
    rfl
  rw [State.wakeCounters_eq]
  refine after.agenda _ ?_
  rw [wakes, ← before.cycle]
  exact State.due_later ..

theorem exec_cntwWake {key : Nat} {target : Option Word} {scope : Nat} (takes : s.ev = some (.cntwWake h (s.thread h).since))
    (waits : (s.thread h).run = .blocked (.cntw key target scope)) : exec .cntwWake s = .next (s.together h 0 finCntw) := by
  have run : exec .cntwWake s = execCntwWake s := rfl
  rw [run, execCntwWake, onEvent_some s _ _ takes]
  dsimp only
  rw [waits]
  simp
theorem finCntw_ends {key : Nat} {target : Option Word} {scope : Nat} (waits : (s.thread h).run = .blocked (.cntw key target scope)) :
    finCntw h 0 s = if target.isNone then ((s.acquire h scope).passOf h 4).goesOn h else ((s.acquire h scope).passOf h 4).wake h := by
  unfold finCntw
  rw [waits]
  exact if_neg (by decide)
/-- A thread behind its CNTW. -/
theorem finCntw_thread {key : Nat} {target : Option Word} {scope : Nat} (waits : (s.thread h).run = .blocked (.cntw key target scope)) :
    (finCntw h 0 s).thread h = { s.thread h with
      seq := (s.thread h).seq.pass 4, instret := (s.thread h).instret + 1, run := .ready,
      notBefore := if target.isNone then s.cycle else s.cycle + 1 } := by
  have sent := SentOnly.acquire s h scope
  have held : (((s.acquire h scope).passOf h 4).thread h).run = .blocked (.cntw key target scope) := by
    rw [State.passOf_thread, sent.thread]
    exact waits
  have cycle : ((s.acquire h scope).passOf h 4).cycle = s.cycle := sent.cycle
  rw [finCntw_ends waits]
  cases target with
  | none =>
    refine (State.goesOn_blocked _ h _ held).trans ?_
    rw [State.passOf_thread, sent.thread, cycle]
    rfl
  | some v =>
    refine (State.wake_blocked _ h _ held).trans ?_
    rw [State.passOf_thread, sent.thread, cycle]
    rfl
theorem finCntw_rest {key : Nat} {target : Option Word} {scope : Nat} (waits : (s.thread h).run = .blocked (.cntw key target scope)) :
    (finCntw h 0 s).mem = s.mem ∧ (finCntw h 0 s).cores = (s.acquire h scope).cores := by
  have mem := (SentOnly.acquire s h scope).mem
  rw [finCntw_ends waits]
  cases target <;> exact ⟨mem, rfl⟩
/-- Behind an acquire of a cluster or wider, a core's cache holds dirty bytes only (R249). -/
theorem State.acquire_l1 (s : State) (h : Nat) {scope : Nat} (wide : 2 ≤ scope) (x : Nat × Sector)
    (member : x ∈ ((s.acquire h scope).core (coreOf h)).l1) :
    x.2.dirty ≠ 0 := by
  have cache : ((s.acquire h scope).core (coreOf h)).l1 =
      (s.core (coreOf h)).l1.filterMap fun (n, x) => if x.dirty = 0 then none else some (n, { x with valid := x.dirty }) := by
    have unmarked (u : State) : (u.raceClear (coreOf h)).core (coreOf h) = u.core (coreOf h) := rfl
    unfold State.acquire State.forgets State.dropClean
    rw [if_neg (Nat.not_lt.mpr wide), if_neg (Nat.not_lt.mpr wide), unmarked, State.modCore_core_same]
  rw [cache] at member
  obtain ⟨⟨n, y⟩, -, kept⟩ := List.mem_filterMap.mp member
  dsimp only at kept
  by_cases clean : y.dirty = 0
  · simp [clean] at kept
  · rw [if_neg clean] at kept
    obtain rfl := Option.some.inj kept
    exact clean
end

end Sys2Proof.Machine

open Sys2Proof Sys2Proof.Machine Sys2Proof.Spec

theorem monitorsRecordWrites : MonitorsRecordWrites := by
  refine ⟨fun s core first len rising => ⟨fun h k hk member => ?_, fun h k mask rd hk member waits named meets => ?_,
      s.recordWrites_landed core first len⟩,
    fun s h mask rd leader n j m waits place fin member other unended held takes => ?_,
    fun s h mask rd waits alone => ⟨fun takes => ?_, fun takes unhit => ?_⟩⟩
  · obtain ⟨u, -, same, -, visited⟩ := s.recordWrites_visit core first len rising member
    rw [visited, recordVisit_mon same hk]
    exact ⟨rfl, rfl⟩
  · obtain ⟨u, cycle, -, after, -⟩ := s.recordWrites_visit core first len rising member
    refine after.agenda _ ?_
    rw [← cycle]
    exact recordVisit_wakes u hk waits named meets
  · obtain ⟨w, blocked⟩ := held
    have inGang : (s.thread h).gang ≠ none := by rw [place]; exact Option.some_ne_none _
    have run := exec_monitorWake takes waits
    rw [State.together_held s h 1 finMwait inGang ⟨m, w, member, other, unended, blocked⟩] at run
    refine ⟨_, run, rfl, fun g outside => ?_, ?_⟩
    · rw [State.modThread_thread, if_neg outside]
    · rw [State.modThread_thread_same, fin]
      rfl
  · have same := State.forgetFin_thread alone
    have run := exec_monitorWake takes waits
    rw [State.together_alone alone] at run
    obtain ⟨ends, cleared⟩ := finMwait_hit (h := h) (mask := mask) (rd := rd) (s := s.modThread h fun t => { t with fin := none })
      (by rw [same]; exact waits)
    obtain ⟨writes, passed, ready, only⟩ := ends_of_forgetFin alone ends
    exact ⟨_, run, writes, passed, ready, only, cleared⟩
  · have same := State.forgetFin_thread alone
    have run := exec_mwaitTimeout takes waits unhit
    rw [State.together_alone alone] at run
    exact ⟨_, run, ends_of_forgetFin alone
      (finMwait_out (h := h) (mask := mask) (rd := rd) (s := s.modThread h fun t => { t with fin := none }) (by rw [same]; exact waits))⟩
theorem counterWait : CounterWait := by
  intro s h
  refine ⟨fun c b a p thread runs => ⟨fun odd _ => ?_, fun ungated aligned known unlocked unlimited => ?_⟩,
    fun key n k target scope rising member waits meets reached => State.wakeCounters_due rising member waits meets reached,
    fun key target scope takes waits alone => ?_⟩
  · exact ⟨_, exec_cntw_misaligned thread runs odd, trapped_of_trap s h 4 _⟩
  · have run := exec_cntw_asks thread runs ungated aligned known unlocked
    obtain ⟨due, q, sends, addr, key, does, sent, owner, core⟩ := (s.blocks (.cntw p.key none (c.toNat + 1))).sendFar_of_unlimited
      { h := h, pump := none, va := s.getX a, addr := p.key, key := p.ks, sa := p.sa, op := .count (s.getX b) } 0 rfl (unlimited h thread)
    rw [sends] at run
    obtain ⟨held, stays, reads, only⟩ := blocksLater_spec thread (.cntw p.key none (c.toNat + 1)) due (.farAccessPerform q)
    refine ⟨_, run, held, stays, ⟨_, q, State.due_later .., addr, key, does, sent, ?_, ?_⟩, reads, only⟩
    · rw [owner, State.farReq_of_thread thread]
    · rw [core, State.farReq_of_thread thread]
  · have same := State.forgetFin_thread alone
    have run := exec_cntwWake takes waits
    rw [State.together_alone alone] at run
    have waits' : ((s.modThread h fun t => { t with fin := none }).thread h).run = .blocked (.cntw key target scope) := by rw [same]; exact waits
    have own := finCntw_thread waits'
    obtain ⟨mem, cores⟩ := finCntw_rest waits'
    rw [same] at own
    refine ⟨_, run, ⟨?_, ?_⟩, ⟨?_, ?_⟩, mem, ?_, fun wide x member => ?_⟩
    · rw [own]
    · rw [own]
    · rw [own]
    · rw [own]
      rfl
    · rw [own]
      exact Seq.pass_x ..
    · rw [State.core, cores] at member
      exact State.acquire_l1 _ h wide x member
/-- Settles O23: what sets and clears a monitor's record, and whom a record, a counter or a time-out takes past its wait. -/
theorem monitorsAndCounters : Obligations.MonitorsAndCounters := ⟨monitorInstructions, monitorsRecordWrites, counterWait⟩
end

section
/-!
SUPPORT. What every vector instruction does with its operands, its result and the events of its lanes (R17, R147, R148, R174).
-/

namespace Sys2Proof.Machine
open Spec (operand operands)

/-! ### Queues of a pair -/

theorem State.modQueue_other (s : State) (core pair : Nat) {q r : Nat} (f : Queue → Queue) (other : r ≠ q) :
    (s.modQueue core pair q f).queue core pair r = s.queue core pair r := by
  unfold State.modQueue State.queue
  rw [State.modCore_core_same]
  exact tget_tset_ne _ _ _ _ _ (by omega)
theorem State.popQueue_other (s : State) (h : Nat) {q r : Nat} (other : r ≠ q) :
    (s.popQueue h q).2.queue (coreOf h) (pairOf h) r = s.queue (coreOf h) (pairOf h) r := by
  rw [State.popQueue, State.queue_congr (State.wakePartner_cores ..), State.modQueue_other _ _ _ _ other]
theorem State.popQueue_oldest (s : State) (h q : Nat) :
    (s.popQueue h q).1 = ((s.queue (coreOf h) (pairOf h) q).ents.map (·.val)).getD 0 0 := by
  unfold State.popQueue
  dsimp only
  cases (s.queue (coreOf h) (pairOf h) q).ents <;> rfl
theorem State.pushQueue_other (s : State) (h : Nat) {q r : Nat} (v : VReg) (due : Nat) (wait : Option Nat) (other : r ≠ q) :
    (s.pushQueue h q v due wait).queue (coreOf h) (pairOf h) r = s.queue (coreOf h) (pairOf h) r := by
  have cores : (s.pushQueue h q v due wait).cores =
      (s.modQueue (coreOf h) (pairOf h) q fun x => { x with ents := x.ents ++ [{ val := v, at_ := due, wait := wait }] }).cores := by
    unfold State.pushQueue
    dsimp only
    split
    · rfl
    · exact State.wakePartner_cores ..
  rw [State.queue_congr cores, State.modQueue_other _ _ _ _ other]

/-! ### Operands -/

/-- How many of the operands pop queue q. -/
def popsOf (rs : List Reg) (q : Nat) : Nat := (rs.filter fun r => r.toNat = 28 + q).length
theorem popsOf_append (rs : List Reg) (r : Reg) (q : Nat) : popsOf (rs ++ [r]) q = popsOf rs q + if r.toNat = 28 + q then 1 else 0 := by
  unfold popsOf
  rw [List.filter_append, List.length_append]
  by_cases own : r.toNat = 28 + q <;> simp [own]
theorem popsOf_eq (rs : List Reg) {r : Reg} {q : Nat} (named : r.toNat = 28 + q) : (rs.filter (· = r)).length = popsOf rs q := by
  unfold popsOf
  congr 2
  funext x
  exact decide_eq_decide.mpr ⟨fun same => same ▸ named, fun number => BitVec.eq_of_toNat_eq (number.trans named.symm)⟩
theorem operand_append (s : State) (h : Nat) (rs : List Reg) (r : Reg) {k : Nat} (hk : k < rs.length) : operand s h (rs ++ [r]) k = operand s h rs k := by
  unfold Spec.operand
  dsimp only
  rw [List.getD_append _ _ _ _ hk, List.take_append_of_le_length hk.le]
theorem operands_append (s : State) (h : Nat) (rs : List Reg) (r : Reg) :
    operands s h (rs ++ [r]) = operands s h rs ++ [operand s h (rs ++ [r]) rs.length] := by
  unfold Spec.operands
  rw [List.length_append, List.length_singleton, List.range_succ, List.map_append]
  congr 1
  exact List.map_congr_left fun k mem => operand_append s h rs r (List.mem_range.mp mem)
theorem operand_last (s : State) (h : Nat) (rs : List Reg) (r : Reg) : operand s h (rs ++ [r]) rs.length =
    if r = 28 ∨ r = 29 then ((s.queue (coreOf h) (pairOf h) (r.toNat - 28)).ents.map (·.val)).getD (popsOf rs (r.toNat - 28)) 0
    else (s.thread h).getV r.toNat := by
  unfold Spec.operand
  dsimp only
  rw [List.getD_append_right _ _ _ _ le_rfl, Nat.sub_self, List.take_left, List.getD_cons_zero]
  split
  next queue => rw [popsOf_eq rs (q := r.toNat - 28) (by rcases queue with rfl | rfl <;> rfl)]
  · rfl

theorem State.takeOperands_append (s : State) (rs : List Reg) (r : Reg) : s.takeOperands (rs ++ [r]) =
    if r = 28 || r = 29 then
      ((s.takeOperands rs).1 ++ [((s.takeOperands rs).2.popQueue (s.takeOperands rs).2.me (r.toNat - 28)).1],
        ((s.takeOperands rs).2.popQueue (s.takeOperands rs).2.me (r.toNat - 28)).2)
    else ((s.takeOperands rs).1 ++ [(s.takeOperands rs).2.self.getV r.toNat], (s.takeOperands rs).2) := by
  unfold State.takeOperands
  rw [List.foldl_append]
  rfl
/-- The operands are taken from registers and from the heads of queues, in their order, and nothing else changes (R17). -/
theorem State.takeOperands_spec {s : State} {h : Nat} (thread : s.cur = .thread h) (rs : List Reg) :
    (s.takeOperands rs).1 = operands s h rs ∧ SentOnly s (s.takeOperands rs).2 ∧
      ∀ q, ((s.takeOperands rs).2.queue (coreOf h) (pairOf h) q).ents = (s.queue (coreOf h) (pairOf h) q).ents.drop (if q < 2 then popsOf rs q else 0) := by
  induction rs using List.reverseRecOn with
  | nil => exact ⟨rfl, .refl s, fun q => by simp [popsOf, State.takeOperands]⟩
  | append_singleton rs r ih =>
    obtain ⟨vals, sent, queues⟩ := ih
    have me : (s.takeOperands rs).2.me = h := State.me_of_thread (sent.cur.trans thread)
    have self : (s.takeOperands rs).2.self = s.thread h := (State.self_of_thread (sent.cur.trans thread)).trans (sent.thread h)
    rw [State.takeOperands_append, me, self, operands_append, operand_last, vals]
    by_cases queue : r = 28 ∨ r = 29
    · have number : r.toNat = 28 + (r.toNat - 28) ∧ r.toNat - 28 < 2 := by rcases queue with rfl | rfl <;> decide
      obtain ⟨named, low⟩ := number
      rw [if_pos (by simpa using queue), if_pos queue]
      refine ⟨?_, sent.trans (.popQueue ..), fun q => ?_⟩
      · dsimp only
        rw [State.popQueue_oldest, queues, if_pos low]
        simp [List.getD_eq_getElem?_getD]
      · dsimp only
        by_cases own : q = r.toNat - 28
        · subst own
          rw [State.popQueue_queue, queues, if_pos low, if_pos low, popsOf_append, if_pos named, List.drop_drop]
        · rw [State.popQueue_other _ _ own, queues]
          congr 1
          split
          · rw [popsOf_append, if_neg (by omega), Nat.add_zero]
          · rfl
    · rw [if_neg (by simpa using queue), if_neg queue]
      refine ⟨rfl, sent, fun q => ?_⟩
      dsimp only
      rw [queues]
      congr 1
      split
      next low =>
        have other : r.toNat ≠ 28 + q := by
          intro named
          refine queue ?_
          rcases Nat.lt_or_ge q 1 with zero | one
          · left; bv_omega
          · right; bv_omega
        rw [popsOf_append, if_neg other, Nat.add_zero]
      · rfl

/-! ### Results -/

theorem Thread.setV_getV (t : Thread) (d : Nat) (v : VReg) {r : Nat} (hd : d < 32) (hr : r < 32) :
    (t.setV d v).getV r = if r = d then v else t.getV r := by
  unfold Thread.setV Thread.getV
  rw [Vector.getElem_set]
  simp only [Nat.mod_eq_of_lt hd, Nat.mod_eq_of_lt hr, eq_comm]

/-- The events of an instruction go to FFLAGS. -/
theorem raiseFl_thread (h : Nat) (f : Fl) (s : State) : (raiseFl h f s).thread h = { s.thread h with fflags := (s.thread h).fflags ||| f } :=
  State.modThread_thread_same ..
theorem raiseFl_other (h : Nat) (f : Fl) (s : State) {g : Nat} (other : g ≠ h) : (raiseFl h f s).thread g = s.thread g :=
  (State.modThread_thread ..).trans (if_neg other)

/-- A vector result is written to its register, or enters its queue (R17). -/
theorem State.putV_register {s : State} {h : Nat} (thread : s.cur = .thread h) {d : Reg} (v : VReg) (register : d.toNat < 28) :
    s.putV d v = s.modThread h fun t => t.setV d.toNat v := by
  have plain : ¬ (d = 30 || d = 31) = true := by
    rw [Bool.or_eq_true, decide_eq_true_iff, decide_eq_true_iff]
    rintro (rfl | rfl) <;> exact absurd register (by decide)
  rw [State.putV, if_neg plain, State.modSelf, State.me_of_thread thread]
theorem State.putV_queue {s : State} {h : Nat} (thread : s.cur = .thread h) {d : Reg} (v : VReg) (queue : 30 ≤ d.toNat) :
    s.putV d v = s.pushQueue h (d.toNat - 28) v (s.cycle + 2) none := by
  have named : (d = 30 || d = 31) = true := by
    rw [Bool.or_eq_true, decide_eq_true_iff, decide_eq_true_iff]
    rcases Nat.lt_or_ge d.toNat 31 with low | high
    · left; bv_omega
    · right; bv_omega
  rw [State.putV, if_pos named, State.me_of_thread thread]

/-- What holds behind a vector instruction that raises no enabled event: u has its operands taken, `all` are its events. -/
structure VectorDone (u t : State) (h len : Nat) (d : Reg) (v : VReg) (all : Fl) : Prop where
  mem : t.mem = u.mem
  others : ∀ g, g ≠ h → t.thread g = u.thread g
  own : t.thread h = { u.thread h with
    v := if d.toNat < 28 then ((u.thread h).setV d.toNat v).v else (u.thread h).v, fflags := (u.thread h).fflags ||| all,
    seq := (u.thread h).seq.pass len, instret := (u.thread h).instret + 1 }
  queues : ∀ q, q < 2 → (t.queue (coreOf h) (pairOf h) q).ents = (u.queue (coreOf h) (pairOf h) q).ents
  pushed : 30 ≤ d.toNat → Spec.Pushed u t h (d.toNat - 28) { val := v, at_ := u.cycle + 2 }
  cur : t.cur = u.cur
theorem vectorDone {u : State} {h : Nat} (thread : u.cur = .thread h) (len : Nat) (d : Reg) (v : VReg) (all : Fl)
    (named : d.toNat < 28 ∨ 30 ≤ d.toNat) : VectorDone u (((raiseFl h all u).putV d v).pass len) h len d v all := by
  have raised : (raiseFl h all u).cur = .thread h := thread
  rcases named with register | queue
  · rw [State.putV_register raised v register]
    have behind : ((raiseFl h all u).modThread h fun t => t.setV d.toNat v).cur = .thread h := thread
    obtain ⟨frame, others⟩ := threadOnly_trans (threadOnly_trans (threadOnly_modThread h u _) (threadOnly_modThread h _ _)) (threadOnly_pass behind len)
    refine ⟨by rw [State.pass_mem]; rfl, others, ?_, fun q _ => ?_, fun queue => absurd queue (by omega), State.pass_cur ..⟩
    · rw [State.pass_thread len behind, State.modThread_thread_same, raiseFl_thread, if_pos register]
      rfl
    · exact congrArg Queue.ents (State.queue_congr (State.pass_cores ..) ..)
  · rw [State.putV_queue raised v queue]
    have sent := SentOnly.pushQueue (raiseFl h all u) h (d.toNat - 28) v ((raiseFl h all u).cycle + 2) none
    have behind := sent.cur.trans raised
    refine ⟨?_, fun g other => ?_, ?_, fun q low => ?_, fun _ => ?_, (State.pass_cur ..).trans sent.cur⟩
    · rw [State.pass_mem]
      exact sent.mem
    · rw [(threadOnly_pass behind len).2 g other, sent.thread, raiseFl_other h all u other]
    · rw [State.pass_thread len behind, sent.thread, raiseFl_thread, if_neg (by omega)]
    · rw [State.queue_congr (State.pass_cores ..), State.pushQueue_other _ _ _ _ _ (by omega)]
      rfl
    · exact pushed_pass len (State.pushQueue_pushed (raiseFl h all u) h (d.toNat - 28) v ((raiseFl h all u).cycle + 2) none)

/-- The result and the place of a vector instruction whose operands s has given (R17). -/
theorem vecResult_of_done {s u t : State} {h len : Nat} {d : Reg} {v : VReg} {all : Fl} {rs : List Reg} (thread : s.cur = .thread h)
    (sent : SentOnly s u)
    (queues : ∀ q, (u.queue (coreOf h) (pairOf h) q).ents = (s.queue (coreOf h) (pairOf h) q).ents.drop (if q < 2 then popsOf rs q else 0))
    (done : VectorDone u t h len d v all) : Spec.WritesNone s t ∧ Spec.Passed len s t ∧ Spec.VecResult s t h rs d v ∧
      (t.thread h).fflags = (s.thread h).fflags ||| all := by
  have own := done.own
  rw [sent.thread] at own
  have cur := done.cur.trans sent.cur
  refine ⟨writesNone_of_thread thread cur fun r => ?_, passed_of_thread thread cur ?_ ?_,
    ⟨done.mem.trans sent.mem, fun g other => ?_, fun r hr => ?_, fun q low => ?_, fun queue => ?_⟩, ?_⟩
  · rw [own]
    apply Thread.getX_congr <;> simp
  · rw [own]
  · rw [own]
  · rw [done.others g other, sent.thread]
    exact ⟨rfl, rfl⟩
  · rw [own]
    by_cases register : d.toNat < 28
    · rw [if_pos register]
      refine ((s.thread h).setV_getV d.toNat v d.isLt hr).trans ?_
      simp [register]
    · rw [if_neg register, if_neg fun both => register both.2]
      rfl
  · rw [done.queues q low, queues, if_pos low]
    rfl
  · have pushed := done.pushed queue
    have high : ¬ d.toNat - 28 < 2 := by omega
    rw [Spec.Pushed, queues, if_neg high, List.drop_zero, sent.cycle] at pushed
    exact pushed
  · rw [own]

/-! ### The instruction -/

/-- The first lane with an enabled event (R174). -/
theorem trapLane_eq (en : Fl) (lanes : List Fl) : trapLane en lanes = (lanes.takeWhile fun f => f &&& en = 0).length := by
  unfold trapLane
  induction lanes with
  | nil => rfl
  | cons f lanes ih =>
    rw [List.findIdx_cons, List.takeWhile_cons]
    by_cases clear : f &&& en = 0
    · rw [decide_eq_false (not_not_intro clear), decide_eq_true clear, ih]
      rfl
    · rw [decide_eq_true clear, decide_eq_false clear]
      rfl
/-- A trap behind events that have gone to FFLAGS (R174). -/
theorem trap_raised {s : State} {h cause : Nat} {all : Fl} {val : Word} (thread : s.cur = .thread h) (untraced : Spec.NoTrace s) :
    let t := (raiseFl h all s).trap cause val
    Spec.Trapped h cause val s t ∧ t.mem = s.mem ∧ (t.thread h).fflags = (s.thread h).fflags ||| all ∧ (t.thread h).v = (s.thread h).v ∧
      t.cores = s.cores := by
  have pc : ((raiseFl h all s).thread h).seq.pc = (s.thread h).seq.pc := by rw [raiseFl_thread]
  have only := parkTrap_gangsOnly h cause (s.thread h).seq.pc val (raiseFl h all s) untraced
  have own := parkTrap_thread h cause (s.thread h).seq.pc val (raiseFl h all s) h
  rw [if_pos rfl, raiseFl_thread] at own
  dsimp only
  rw [State.trap_thread (raiseFl h all s) h cause val thread, pc]
  refine ⟨⟨by rw [own], by rw [own], by rw [own]; simp [pcField, wfield, field], by rw [own], by rw [own], by rw [own], by rw [own], by rw [own],
    fun g other => ?_⟩, ?_, by rw [own], by rw [own], ?_⟩
  · have same := parkTrap_thread h cause (s.thread h).seq.pc val (raiseFl h all s) g
    rw [if_neg other, raiseFl_other h all s other] at same
    rw [same]
    exact ⟨rfl, rfl⟩
  · rw [only]
    rfl
  · rw [only]
    rfl

theorem headCheck_none {i : Instr} {old : Bool} {rs : List Reg} {d : Reg} (uses : vectorUses i = (rs, some d)) (passes : headCheck i old = none) :
    d.toNat < 28 ∨ 30 ≤ d.toNat := by
  unfold headCheck at passes
  by_contra between
  have bad : vectorBad i = true := by
    unfold vectorBad
    rw [uses]
    have named : d = 28 ∨ d = 29 := by
      rcases Nat.lt_or_ge d.toNat 29 with low | high
      · left; bv_omega
      · right; bv_omega
    rcases named with rfl | rfl <;> simp
  rw [bad] at passes
  exact absurd passes (by simp)
theorem headCheck_some {i : Instr} {old : Bool} (fails : headCheck i old ≠ none) : headCheck i old = some (2, 0) := by
  unfold headCheck at *
  split
  · rfl
  next passes => exact absurd (if_neg passes) fails

section
variable {i : Instr} {s : State} {h : Nat} {rs : List Reg} {d : Reg} {old limits : Bool} {val : Word} {lims : State → Option (Nat × Word)}
  {g : State → List VReg → VReg × List Fl} (thread : s.cur = .thread h) (runs : Spec.Runs i s) (run : exec i s = vectorInsn i old lims s g)
  (uses : vectorUses i = (rs, some d)) (limit : lims s = if limits then none else some (2, val))
include thread runs run limit

/-- A vector instruction is stopped by its fields, its own limits or its queues, or has its effect. -/
theorem vectorInsn_stops : Spec.VecStops i s h old limits val := by
  refine ⟨fun fails _ => ?_, fun passes outside _ => ?_, fun passes inside => ?_⟩
  · exact completes_trapped thread runs run (by rw [headCheck_some fails]; rfl)
  · exact completes_trapped thread runs run (by rw [passes, limit, outside]; rfl)
  · have issues := run.trans (checkedBy_runs thread runs (by rw [passes, limit, inside]; rfl))
    exact (onQueues_spec thread _ (fun _ => True) issues fun _ => trivial).2
include uses in
theorem vectorInsn_completes (passes : headCheck i old = none) (inside : limits = true) (opens : Spec.QueuesOpen s h i) :
    Spec.VecCompletes i s h rs d (g s (operands s h rs)).1 (g s (operands s h rs)).2 := by
  have issues := run.trans (checkedBy_runs thread runs (by rw [passes, limit, inside]; rfl))
  obtain ⟨vals, sent, queues⟩ := State.takeOperands_spec thread rs
  refine ⟨fun quiet => (onQueues_spec thread _ _ issues fun _ => ?_).1 opens,
    fun enabled untraced => (onQueues_spec thread _ _ issues fun _ => ?_).1 opens⟩ <;>
    rw [uses] <;> dsimp only <;> rw [State.self_of_thread thread, State.me_of_thread thread, vals]
  · have silent : ¬ enabledFl (s.thread h) (orFl (g s (operands s h rs)).2) = true :=
      fun on => of_decide_eq_true on quiet
    rw [if_neg silent]
    exact vecResult_of_done thread sent queues (vectorDone (sent.cur.trans thread) i.len d _ _ (headCheck_none uses passes))
  · have loud : enabledFl (s.thread h) (orFl (g s (operands s h rs)).2) = true := decide_eq_true enabled
    rw [if_pos loud, fpVal, trapLane_eq, Nat.mul_comm]
    exact trap_raised thread untraced
end

end Sys2Proof.Machine
end

section
/-!
SUPPORT and O38. The lanes of a register as numbers, and what conversions, lane moves and reductions do with them.
-/

namespace Sys2Proof.Machine

theorem eltOf_width (t : BitVec 3) (n : Bool) : (eltOf t n).width = 32 ∨ (eltOf t n).width = 16 ∨ (eltOf t n).width = 8 := by
  unfold eltOf
  split <;> cases n <;> decide
theorem lanesOf_length (w : Nat) (v : VReg) : (lanesOf w v).length = 1024 / w := by simp [lanesOf, elems]
theorem lanesOf_getD (w : Nat) (v : VReg) (k : Nat) : (lanesOf w v).getD k 0 = if k < 1024 / w then v.toNat / 2 ^ (w * k) % 2 ^ w else 0 := by
  unfold lanesOf elems
  rw [List.getD_eq_getElem?_getD, List.getElem?_map]
  by_cases inside : k < 1024 / w
  · rw [List.getElem?_range inside, if_pos inside]
    rfl
  · rw [List.getElem?_eq_none (by simpa using inside), if_neg inside]
    rfl
theorem lset_lanesOf (w : Nat) (v : VReg) (k x : Nat) : lset (lanesOf w v) k x =
    (List.range (1024 / w)).map fun i => if i = k then x else v.toNat / 2 ^ (w * i) % 2 ^ w := by
  refine List.ext_getElem (by simp [lset, lanesOf_length]) fun i hi _ => ?_
  simp only [lset, List.getElem_set, lanesOf, elems, List.getElem_map, List.getElem_range, eq_comm]
/-- A part of a conversion is one that exists (R153): the smaller width divides the larger. -/
theorem partCheck_eq {ws wd : Nat} (p : Nat) (s : State) (hs : ws = 32 ∨ ws = 16 ∨ ws = 8 ∨ ws = 4) (hd : wd = 32 ∨ wd = 16 ∨ wd = 8) :
    partCheck ws wd p s = if decide (p * min ws wd < max ws wd) = true then none else some (2, 0) := by
  have iff : max ws wd / min ws wd ≤ p ↔ ¬ p * min ws wd < max ws wd := by
    rcases hs with rfl | rfl | rfl | rfl <;> rcases hd with rfl | rfl | rfl <;> norm_num <;> omega
  unfold partCheck
  by_cases inside : p * min ws wd < max ws wd
  · rw [if_neg (fun out => iff.mp out inside), if_pos (decide_eq_true inside)]
  · rw [if_pos (iff.mpr inside), decide_eq_false inside]
    rfl
theorem dqFmt_width (c : BitVec 2) : fmtWidth (dqFmt c) = 32 ∨ fmtWidth (dqFmt c) = 16 ∨ fmtWidth (dqFmt c) = 8 ∨ fmtWidth (dqFmt c) = 4 := by
  revert c
  decide
theorem vdqCheck_eq (sc : BitVec 2) (p : BitVec 3) (s : State) : partCheck (fmtWidth (dqFmt sc)) 32 p.toNat s =
    if decide (p.toNat * fmtWidth (dqFmt sc) < 32) = true then none else some (2, 0) := by
  rw [partCheck_eq p.toNat s (dqFmt_width sc) (.inl rfl)]
  rcases dqFmt_width sc with e | e | e | e <;> rw [e] <;> rfl
theorem lanes_pos (t : BitVec 3) (n : Bool) : 0 < 1024 / (eltOf t n).width := by
  rcases eltOf_width t n with e | e | e <;> rw [e] <;> decide
theorem laneCheck_eq (w : Nat) (b : Reg) (s : State) :
    laneCheck w b s = if decide ((s.getX b).toNat < 1024 / w) = true then none else some (2, s.getX b) := by
  unfold laneCheck
  by_cases inside : (s.getX b).toNat < 1024 / w
  · rw [if_neg (Nat.not_le.mpr inside), if_pos (decide_eq_true inside)]
  · rw [if_pos (Nat.not_lt.mp inside), decide_eq_false inside]
    rfl
/-- A source format of VCVT is one of R110's (R17). -/
theorem fmtWidth_of_wf {c : Nat} (low : c < 12) : fmtWidth c = 32 ∨ fmtWidth c = 16 ∨ fmtWidth c = 8 ∨ fmtWidth c = 4 := by
  interval_cases c <;> decide
theorem wf_of_runs {i : Instr} {s : State} (runs : Spec.Runs i s) : i.wf = true := by
  unfold Spec.Runs at runs
  cases agent : s.cur with
  | thread h =>
    simp only [agent, Bool.and_eq_true] at runs
    exact runs.1.1.1
  | pump c =>
    simp only [agent, Bool.and_eq_true] at runs
    exact runs.2

section
variable {i : Instr} {s : State} {h : Nat} {rs : List Reg} {d : Reg} {old limits : Bool} {val : Word} {lims : State → Option (Nat × Word)}
  {g : State → List VReg → VReg × List Fl} {f : List VReg → VReg × List Fl} (thread : s.cur = .thread h) (runs : Spec.Runs i s)
include thread runs
/-- The statement for one instruction: its form, its registers, its limits and its result. -/
theorem vectorInsn_spec (run : exec i s = vectorInsn i old lims s g) (uses : vectorUses i = (rs, some d))
    (limit : lims s = if limits = true then none else some (2, val)) (result : ∀ vs, g s vs = f vs) :
    Spec.VecStops i s h old limits val ∧ (headCheck i old = none → limits = true → Spec.QueuesOpen s h i →
      Spec.VecCompletes i s h rs d (f (Spec.operands s h rs)).1 (f (Spec.operands s h rs)).2) := by
  refine ⟨vectorInsn_stops thread runs run limit, fun passes inside opens => ?_⟩
  rw [← result]
  exact vectorInsn_completes thread runs run uses limit passes inside opens
/-- The same for an instruction without limits of its own. -/
theorem vectorInsn_free_spec (run : exec i s = vectorInsn i old (fun _ => none) s g) (uses : vectorUses i = (rs, some d))
    (result : ∀ vs, g s vs = f vs) :
    Spec.VecStops i s h old true 0 ∧ (headCheck i old = none → true = true → Spec.QueuesOpen s h i →
      Spec.VecCompletes i s h rs d (f (Spec.operands s h rs)).1 (f (Spec.operands s h rs)).2) :=
  vectorInsn_spec thread runs run uses rfl result
end

/-! ### Results -/

section
variable {s : State} {h : Nat} (w : Nat) (b : Reg) (vs : List VReg)
theorem vins_result (x : Nat) : (pack w (lset (lanesOf w (vs.getD 0 0)) (s.getX b).toNat x), ([] : List Fl)) =
    (pack w ((List.range (1024 / w)).map fun k => if k = (s.getX b).toNat then x else (vs.getD 0 0).toNat / 2 ^ (w * k) % 2 ^ w), []) := by
  rw [lset_lanesOf]
theorem vperm_result (some : 0 < 1024 / w) :
    (pack w ((lanesOf w (vs.getD 1 0)).map fun i => (lanesOf w (vs.getD 0 0)).getD (i % (1024 / w)) 0), ([] : List Fl)) =
    (pack w ((List.range (1024 / w)).map fun k =>
      (vs.getD 0 0).toNat / 2 ^ (w * ((vs.getD 1 0).toNat / 2 ^ (w * k) % 2 ^ w % (1024 / w))) % 2 ^ w), []) := by
  have picks (i : Nat) : (lanesOf w (vs.getD 0 0)).getD (i % (1024 / w)) 0 =
      (vs.getD 0 0).toNat / 2 ^ (w * (i % (1024 / w))) % 2 ^ w := by rw [lanesOf_getD, if_pos (Nat.mod_lt _ some)]
  simp only [picks]
  simp only [lanesOf, elems, List.map_map, Function.comp_def]
theorem replicate_result (x : Nat) : (pack w (List.replicate (1024 / w) x), ([] : List Fl)) =
    (pack w ((List.range (1024 / w)).map fun _ => x), []) := by
  rw [List.map_const', List.length_range]
theorem vslide_result :
    (pack w ((List.range (1024 / w)).map fun (i : Nat) =>
      let j := (i : Int) + (s.getX b).toInt
      if 0 ≤ j then (lanesOf w (vs.getD 0 0)).getD j.toNat 0 else 0), ([] : List Fl)) =
    (pack w ((List.range (1024 / w)).map fun (k : Nat) =>
      let j : Int := (k : Int) + (s.getX b).toInt
      if 0 ≤ j ∧ j < 1024 / (w : Int) then (vs.getD 0 0).toNat / 2 ^ (w * j.toNat) % 2 ^ w else 0), []) := by
  congr 3
  funext i
  dsimp only
  rw [lanesOf_getD]
  have bound : (1024 : Int) / (w : Int) = ((1024 / w : Nat) : Int) := rfl
  rw [bound]
  generalize (i : Int) + (s.getX b).toInt = j
  by_cases low : 0 ≤ j
  · rw [if_pos low]
    by_cases inside : j.toNat < 1024 / w
    · rw [if_pos inside, if_pos ⟨low, by omega⟩]
    · rw [if_neg inside, if_neg (by omega)]
  · rw [if_neg low, if_neg fun both => low both.1]
end

end Sys2Proof.Machine

open Sys2Proof Sys2Proof.Machine Sys2Proof.Spec

/-- Settles O38: each is the common form of vector instructions, with the limits and the result that R153-R158 and R120 give it. -/
theorem conversionsMovesReductions : Obligations.ConversionsMovesReductions := by
  intro i s h rs d old limits f thread found runs
  have self := State.self_of_thread thread
  unfold moveOf at found
  split at found
  case h_1 t n sc p a d =>
    have wf : (decide (sc.toNat < 12) && (decide (n = 0) || tyIn t [5, 6, 7])) = true := wf_of_runs runs
    have low : sc.toNat < 12 := of_decide_eq_true (Bool.and_eq_true_iff.mp wf).1
    have run : exec (.vcvt t n sc p a d) s = execVcvt t n sc p a d s := rfl
    unfold execVcvt at run
    cases found
    exact vectorInsn_spec thread runs run rfl (partCheck_eq _ s (fmtWidth_of_wf low) (eltOf_width t _)) fun vs => by rw [self]
  case h_2 t n p b a d =>
    have run : exec (.vqnt t n p b a d) s = execVqnt t n p b a d s := rfl
    unfold execVqnt at run
    cases found
    exact vectorInsn_spec thread runs run rfl (partCheck_eq _ s (.inl rfl) (eltOf_width t _)) fun vs => by rw [self]
  case h_3 p sc b a d =>
    have run : exec (.vdq p sc b a d) s = execVdq p sc b a d s := rfl
    unfold execVdq at run
    cases found
    exact vectorInsn_spec thread runs run rfl (vdqCheck_eq sc p s) fun vs => by rw [self]
  case h_4 t a d =>
    have run : exec (.vbcast t a d) s = execVbcast t a d s := rfl
    unfold execVbcast at run
    cases found
    exact vectorInsn_free_spec thread runs run rfl fun _ => replicate_result _ _
  case h_5 t b a d =>
    have run : exec (.vins t b a d) s = execVins t b a d s := rfl
    unfold execVins at run
    cases found
    exact vectorInsn_spec thread runs run rfl (laneCheck_eq _ b s) fun vs => vins_result _ b vs _
  case h_6 t b a d =>
    have run : exec (.vperm t b a d) s = execVperm t b a d s := rfl
    unfold execVperm at run
    cases found
    exact vectorInsn_free_spec thread runs run rfl fun vs => vperm_result _ vs (lanes_pos t false)
  case h_7 t b a d =>
    have run : exec (.vslide t b a d) s = execVslide t b a d s := rfl
    unfold execVslide at run
    cases found
    exact vectorInsn_free_spec thread runs run rfl fun vs => vslide_result _ b vs
  case h_8 t d =>
    have run : exec (.viota t d) s = execViota t d s := rfl
    unfold execViota at run
    cases found
    exact vectorInsn_free_spec thread runs run rfl fun vs => rfl
  case h_9 t i d =>
    have run : exec (.vmovi t i d) s = execVmovi t i d s := rfl
    unfold execVmovi at run
    cases found
    exact vectorInsn_free_spec thread runs run rfl fun _ => replicate_result _ _
  case h_10 t a d =>
    have run : exec (.vrsum t a d) s = execVrsum t a d s := rfl
    unfold execVrsum reduce at run
    cases found
    exact vectorInsn_free_spec thread runs run rfl fun vs => by rw [self]
  case h_11 t a d =>
    have run : exec (.vrmax t a d) s = execVrmax t a d s := rfl
    unfold execVrmax reduce at run
    cases found
    exact vectorInsn_free_spec thread runs run rfl fun vs => by rw [self]
  case h_12 t a d =>
    have run : exec (.vrmaxN t a d) s = execVrmaxN t a d s := rfl
    unfold execVrmaxN reduce at run
    cases found
    exact vectorInsn_free_spec thread runs run rfl fun vs => by rw [self]
  case h_13 t a d =>
    have run : exec (.vrmin t a d) s = execVrmin t a d s := rfl
    unfold execVrmin reduce at run
    cases found
    exact vectorInsn_free_spec thread runs run rfl fun vs => by rw [self]
  case h_14 t a d =>
    have run : exec (.vrminN t a d) s = execVrminN t a d s := rfl
    unfold execVrminN reduce at run
    cases found
    exact vectorInsn_free_spec thread runs run rfl fun vs => by rw [self]
  case h_15 => exact absurd found (by simp)
end

section
/-!
SUPPORT and O44. The hash instructions issue: their checks, their operands, and what waits for the table's well.
-/

namespace Sys2Proof.Machine
open Spec (operands)

/-- The three instructions are those of `hashInsn`. -/
theorem hashOf_spec {i : Instr} {rs : List Reg} {dst : Option Reg} {id : BitVec 8} {write : Bool} (found : Spec.hashOf i = some (rs, dst, id, write))
    (s : State) : exec i s = hashInsn i id write s ∧ vectorUses i = (rs, dst) := by
  unfold Spec.hashOf at found
  split at found
  case h_1 u v b a => cases found; exact ⟨rfl, rfl⟩
  case h_2 u v a d => cases found; exact ⟨rfl, rfl⟩
  case h_3 u v => cases found; exact ⟨rfl, rfl⟩
  case h_4 => exact absurd found (by simp)

/-! ### The table's checks -/

/-- The table may be used: it is one, lies in the wells, and the rights suffice (R122, R166, R167, R185). -/
structure TableOpen (s : State) (h : Nat) (d : Desc) (write : Bool) : Prop where
  kind : d.kind = 2
  writable : write = true → d.ro = false
  aligned : d.base.toNat % 8 = 0
  well : wfield d.base 63 25 = 0
  ends : wellOff d.base + 8 * d.dim0 ≤ 2 ^ 20
  readable : nbit (s.rights (coreOf h) (wellCore h d.base)) 0 = true
  writes : write = true → nbit (s.rights (coreOf h) (wellCore h d.base)) 1 = true

section
variable {s : State} {h : Nat} {id : BitVec 8} {write : Bool} (thread : s.cur = .thread h)
include thread
theorem hashCheck_missing (missing : s.tensor (s.thread h).ctx id.toNat = none) : hashCheck id write s = some (2, id.zeroExtend 64) := by
  unfold hashCheck
  rw [State.self_of_thread thread, missing]
variable {d : Desc} (found : s.tensor (s.thread h).ctx id.toNat = some d)
include found
theorem hashCheck_found : hashCheck id write s =
    if d.kind ≠ 2 then some (2, id.zeroExtend 64)
    else if write && d.ro then some (6, d.base)
    else if d.base.toNat % 8 ≠ 0 then some (4, d.base)
    else if wfield d.base 63 25 ≠ 0 then some (6, d.base)
    else if 2 ^ 20 < wellOff d.base + 8 * d.dim0 then some (6, wellAddr (wellCore h d.base) 0 + 2 ^ 20)
    else if !nbit (s.rights (coreOf h) (wellCore h d.base)) 0 || write && !nbit (s.rights (coreOf h) (wellCore h d.base)) 1 then some (7, d.base)
    else none := by
  unfold hashCheck
  rw [State.self_of_thread thread, found]
  unfold State.myCore
  rw [State.me_of_thread thread]
theorem hashCheck_open (opens : TableOpen s h d write) : hashCheck id write s = none := by
  obtain ⟨kind, writable, aligned, well, ends, readable, writes⟩ := opens
  have silent : (write && d.ro) = false := by cases write <;> simp_all
  have granted : (write && !nbit (s.rights (coreOf h) (wellCore h d.base)) 1) = false := by cases write <;> simp_all
  rw [hashCheck_found thread found, if_neg (not_not_intro kind), silent, if_neg Bool.false_ne_true, if_neg (not_not_intro aligned),
    if_neg (not_not_intro well), if_neg (Nat.not_lt.mpr ends), readable, granted]
  rfl
end

/-! ### What waits -/

/-- The entry of the queue that the result will enter is kept (R17). -/
def keepsEntry (h num : Nat) (dst : Option Reg) (s : State) : State :=
  if dst.any (30 ≤ ·.toNat) = true then s.pushQueue h ((dst.getD 0).toNat - 28) 0 (s.cycle + 2) (some num) else s
/-- What is kept of an instruction that waits for its table. -/
def hashWaitFor (d : Desc) (rs : List Reg) (ops : List VReg) (dst : Option Reg) (num : Nat) : HashWait :=
  { d := d, rs := rs, ops := ops, dst := dst, push := if dst.any (30 ≤ ·.toNat) = true then some num else none }
/-- What a hash instruction that its queues let go on does (R17, R148). -/
def hashWaits (rs : List Reg) (dst : Option Reg) (d : Desc) (s : State) : State :=
  let u := (s.takeOperands rs).2
  let v := keepsEntry s.me u.nextId dst u.fresh.2
  (v.blocks (.hash (hashWaitFor d rs (s.takeOperands rs).1 dst u.nextId))).later
    (v.firstLatency s.me false [.sector (wellCore s.me d.base) (wellOff d.base)]) (.hashAccessComplete s.me)
theorem SentOnly.fresh (s : State) : SentOnly s s.fresh.2 := ⟨rfl, rfl, rfl, rfl, rfl, rfl, fun _ => rfl⟩
theorem SentOnly.keepsEntry (h num : Nat) (dst : Option Reg) (s : State) : SentOnly s (keepsEntry h num dst s) := .ite (.pushQueue ..) (.refl s)
/-- A result enters one of the queues that no operand comes from. -/
theorem keepsEntry_queue (h num : Nat) (dst : Option Reg) (s : State) {q : Nat} (low : q < 2) :
    (keepsEntry h num dst s).queue (coreOf h) (pairOf h) q = s.queue (coreOf h) (pairOf h) q := by
  unfold keepsEntry
  split
  next pushes =>
    refine State.pushQueue_other _ _ _ _ _ ?_
    cases dst with
    | none => exact absurd pushes (by simp)
    | some r =>
      have high : 30 ≤ r.toNat := of_decide_eq_true pushes
      rw [Option.getD_some]
      omega
  · rfl
theorem hashWaitFor_push (d : Desc) (rs : List Reg) (ops : List VReg) (dst : Option Reg) (num : Nat) :
    (hashWaitFor d rs ops dst num).push.isSome = true ↔ ∃ r, dst = some r ∧ 30 ≤ r.toNat := by
  unfold hashWaitFor
  cases dst with
  | none => simp
  | some r => simp

section
variable {i : Instr} {s : State} {h : Nat} {rs : List Reg} {dst : Option Reg} {id : BitVec 8} {write : Bool} {d : Desc} (thread : s.cur = .thread h)
include thread

theorem hashWaits_spec :
    let t := hashWaits rs dst d s
    t.pc = s.pc ∧ Spec.WritesNone s t ∧ t.mem = s.mem ∧
      (∃ w, Spec.BlockedFor h (.hash w) t ∧ w.d = d ∧ w.rs = rs ∧ w.ops = operands s h rs ∧ w.dst = dst ∧ w.done = none ∧
        (w.push.isSome = true ↔ ∃ r, dst = some r ∧ 30 ≤ r.toNat)) ∧
      (∀ q, q < 2 → (t.queue (coreOf h) (pairOf h) q).ents = (s.queue (coreOf h) (pairOf h) q).ents.drop (popsOf rs q)) ∧
      Spec.Due (s.cycle + if wellCore h d.base = coreOf h then 4 else 12 + 4 * hops (coreOf h) (wellCore h d.base)) (.hashAccessComplete h) t := by
  obtain ⟨vals, taken, queues⟩ := State.takeOperands_spec thread rs
  unfold hashWaits
  rw [State.me_of_thread thread, vals]
  generalize (s.takeOperands rs).2 = u at taken queues
  dsimp only
  have kept {q : Nat} (low : q < 2) := keepsEntry_queue h u.nextId dst u.fresh.2 low
  have sent := (taken.trans (.fresh u)).trans (.keepsEntry h u.nextId dst u.fresh.2)
  generalize keepsEntry h u.nextId dst u.fresh.2 = v at kept sent
  have behind := sent.cur.trans thread
  have due := State.due_later (v.blocks (.hash (hashWaitFor d rs (operands s h rs) dst u.nextId)))
    (v.firstLatency h false [.sector (wellCore h d.base) (wellOff d.base)]) (.hashAccessComplete h)
  have cycle : (v.blocks (.hash (hashWaitFor d rs (operands s h rs) dst u.nextId))).cycle = s.cycle := sent.cycle
  obtain ⟨held, stays, reads, only⟩ := blocksLater_spec behind (.hash (hashWaitFor d rs (operands s h rs) dst u.nextId))
    (v.firstLatency h false [.sector (wellCore h d.base) (wellOff d.base)]) (.hashAccessComplete h)
  refine ⟨stays.trans ?_, fun r => (reads r).trans (sent.getX r), ?_, ⟨_, held, rfl, rfl, rfl, rfl, rfl, hashWaitFor_push ..⟩, fun q low => ?_, ?_⟩
  · rw [State.pc_of_thread behind, State.pc_of_thread thread, sent.thread]
  · rw [only.1]
    exact sent.mem
  · have ents := queues q
    rw [if_pos low] at ents
    rw [← ents]
    exact congrArg Queue.ents ((State.queue_congr (by rw [only.1]) ..).trans (kept low))
  · rw [cycle] at due
    exact due

variable (runs : Spec.Runs i s) (run : exec i s = hashInsn i id write s)
include runs run
/-- A hash instruction traps with what its checks find. -/
theorem hashInsn_traps {cause : Nat} {val : Word} (passes : headCheck i false = none) (fails : hashCheck id write s = some (cause, val)) :
    Spec.Completes i s (Spec.Trapped h cause val s) :=
  completes_trapped thread runs run (by rw [passes]; exact fails)
theorem hashInsn_badFields (fails : headCheck i false ≠ none) : Spec.Completes i s (Spec.Trapped h 2 0 s) :=
  completes_trapped thread runs run (by rw [headCheck_some fails]; rfl)
theorem hashInsn_issues (uses : vectorUses i = (rs, dst)) (passes : headCheck i false = none) (found : s.tensor (s.thread h).ctx id.toNat = some d)
    (opens : TableOpen s h d write) {P : State → Prop} (holds : P (hashWaits rs dst d s)) : Spec.OnQueues i h s P := by
  have issues := run.trans (checkedBy_runs thread runs (by rw [passes]; exact hashCheck_open thread found opens))
  refine onQueues_spec thread _ P issues fun _ => ?_
  rw [State.self_of_thread thread, found, uses]
  exact holds
end

end Sys2Proof.Machine

open Sys2Proof Sys2Proof.Machine Sys2Proof.Spec

theorem hashIssue : HashIssue := by
  intro i s h rs dst id write thread is runs
  obtain ⟨run, uses⟩ := hashOf_spec is s
  refine ⟨fun fails _ => hashInsn_badFields thread runs run fails,
    fun passes missing _ => hashInsn_traps thread runs run passes (hashCheck_missing thread missing), fun d passes found => ?_⟩
  have check := hashCheck_found (write := write) thread found
  have traps {cause : Nat} {val : Word} := hashInsn_traps (cause := cause) (val := val) thread runs run passes
  refine ⟨fun other _ => traps (by rw [check, if_pos other]), fun kind writes ro _ => traps ?_, fun kind writable => ?_⟩
  · rw [check, if_neg (not_not_intro kind), writes, ro]
    rfl
  have silent : (write && d.ro) = false := by cases write <;> simp_all
  rw [if_neg (not_not_intro kind), silent, if_neg Bool.false_ne_true] at check
  refine ⟨fun odd _ => traps (by rw [check, if_pos odd]), fun aligned outside _ => traps ?_, fun lies runsOut _ => traps ?_,
    fun lies ends refused _ => traps ?_, fun lies ends rights => ?_⟩
  · rw [check, if_neg (not_not_intro aligned), if_pos outside]
  · rw [check, if_neg (not_not_intro lies.1), if_neg (not_not_intro lies.2), if_pos (Nat.not_le.mp runsOut)]
  · rw [check, if_neg (not_not_intro lies.1), if_neg (not_not_intro lies.2), if_neg (Nat.not_lt.mpr ends), if_pos]
    by_contra granted
    refine refused ?_
    cases write <;> simp_all
  · obtain ⟨aligned, well⟩ := lies
    obtain ⟨readable, writes⟩ := rights
    exact hashInsn_issues thread runs run uses passes found ⟨kind, writable, aligned, well, ends, readable, writes⟩ (hashWaits_spec thread)
end

section
/-!
SUPPORT. The step of a hash instruction at its table: waiting for units, trapping, retiring, and what each of the three does.
-/

namespace Sys2Proof.Machine
open Spec (ThreadOnly)

/-! ### Waiting for units -/

theorem MarksOnly.dropWait (s : State) (who : Waiter) : MarksOnly s (s.dropWait who) := ⟨⟨rfl, rfl, rfl, rfl, rfl, rfl, fun _ => rfl⟩, rfl, rfl, rfl⟩

section
variable {s : State} {h : Nat} {us : List LockUnit} {write : Bool} (f : State → State)
theorem atTable_waits (must : s.mustWait us write (s.reachedAt (.hash h)) (orderKey h (s.thread h).since) = true) :
    atTable h us write s f = (s.noteWait (.hash h) (orderKey h (s.thread h).since) write us).later 1 (.hashAccessComplete h) := if_pos must
theorem atTable_goes (free : s.mustWait us write (s.reachedAt (.hash h)) (orderKey h (s.thread h).since) = false) :
    atTable h us write s f = f (s.dropWait (.hash h)) := if_neg (by rw [free]; exact Bool.false_ne_true)
end

/-! ### The step -/

section
variable {s : State} {h : Nat} {w : HashWait} (takes : s.ev = some (.hashAccessComplete h)) (waits : (s.thread h).run = .blocked (.hash w))
  (alone : Spec.Alone h s)

theorem hashWaitOf_blocked {t : Thread} (blocked : t.run = .blocked (.hash w)) : hashWaitOf t = some w := by
  unfold hashWaitOf
  rw [blocked]
include takes waits alone
theorem exec_hash {i : Instr} (insn : blockedInsn (s.thread h) = some i) (other : ∀ u v b a, i ≠ .hacc u v b a) :
    exec .hashAccessComplete s = .next (atTable h (hashUnits h w i s).1 (hashUnits h w i s).2 s (hashNow h w)) := by
  have run : exec .hashAccessComplete s = execHashAccessComplete s := rfl
  rw [run, execHashAccessComplete, onEvent_some s _ _ takes]
  dsimp only
  rw [hashWaitOf_blocked waits]
  dsimp only
  rw [alone.2, if_neg (Option.some_ne_none _).symm, alone.1, Option.isSome_none, if_neg Bool.false_ne_true, insn, Option.getD_some]
  split
  next u v b a => exact absurd rfl (other u v b a)
  · rfl
theorem exec_hacc {u : BitVec 3} {v b a : Reg} (insn : blockedInsn (s.thread h) = some (.hacc u v b a)) :
    exec .hashAccessComplete s = .next (haccStep h w s) := by
  have run : exec .hashAccessComplete s = execHashAccessComplete s := rfl
  rw [run, execHashAccessComplete, onEvent_some s _ _ takes]
  dsimp only
  rw [hashWaitOf_blocked waits]
  dsimp only
  rw [alone.2, if_neg (Option.some_ne_none _).symm, alone.1, Option.isSome_none, if_neg Bool.false_ne_true, insn]
  rfl
end

/-- An instruction whose units are not free asks again in the next cycle (R260). -/
theorem completes_again {s : State} {h : Nat} {us : List LockUnit} {write : Bool} {f : State → State}
    (run : exec .hashAccessComplete s = .next (atTable h us write s f))
    (must : s.mustWait us write (s.reachedAt (.hash h)) (orderKey h (s.thread h).since) = true) :
    Spec.Completes .hashAccessComplete s fun t => t = { s with agenda := t.agenda, waiting := t.waiting } ∧
      Spec.Due (s.cycle + 1) (.hashAccessComplete h) t := by
  rw [atTable_waits f must] at run
  exact ⟨_, run, rfl, State.due_later ..⟩

/-! ### Traps -/

theorem SentOnly.hashBack (h : Nat) (u : State) : SentOnly u (hashBack h u) := by
  unfold Machine.hashBack
  split
  · exact .refl u
  next w _ =>
    have back := SentOnly.foldl (fun (s : State) (x : Reg × VReg) =>
      if x.1 = 28 || x.1 = 29 then s.modQueue (coreOf h) (pairOf h) (x.1.toNat - 28) fun q => { q with ents := { val := x.2, at_ := s.cycle } :: q.ents }
      else s) (w.rs.zip w.ops).reverse u fun v x => .ite (.modQueue ..) (.refl v)
    dsimp only
    split
    · exact back.trans (.modQueue ..)
    · exact back
theorem State.cluster_congr {s u : State} (clusters : u.clusters = s.clusters) (cl : Nat) : u.cluster cl = s.cluster cl := by
  unfold State.cluster
  rw [clusters]
theorem hashBack_clusters (h : Nat) (u : State) : (hashBack h u).clusters = u.clusters := by
  unfold hashBack
  split
  · rfl
  next w _ =>
    have back : ((w.rs.zip w.ops).reverse.foldl (fun (s : State) (x : Reg × VReg) =>
        if x.1 = 28 || x.1 = 29 then s.modQueue (coreOf h) (pairOf h) (x.1.toNat - 28) fun q => { q with ents := { val := x.2, at_ := s.cycle } :: q.ents }
        else s) u).clusters = u.clusters := by
      refine List.foldlRecOn _ _ (motive := fun v : State => v.clusters = u.clusters) rfl fun v same x _ => ?_
      split
      · exact same
      · exact same
    dsimp only
    split
    · exact back
    · exact back

section
variable {s u : State} {h : Nat} (own : u.thread h = { s.thread h with mons := (u.thread h).mons, fflags := (u.thread h).fflags })
  (others : ∀ g, g ≠ h → (u.thread g).run = (s.thread g).run ∧ (u.thread g).seq = (s.thread g).seq) (cause : Nat) (v : Word)
include own others in
theorem hashTrap_trapped : Spec.Trapped h cause v s (hashTrap h cause v u) := by
  have pc : (u.thread h).seq.pc = (s.thread h).seq.pc := by rw [own]
  have back := SentOnly.hashBack h u
  have parked := parkTrap_thread h cause (s.thread h).seq.pc v ((hashBack h u).modThread h fun t => { t with dataError := cause = 6 }) h
  rw [if_pos rfl, State.modThread_thread_same, back.thread, own] at parked
  unfold hashTrap
  rw [pc]
  refine ⟨by rw [parked], by rw [parked], by rw [parked]; simp [pcField, wfield, field], by rw [parked], by rw [parked], by rw [parked],
    by rw [parked], by rw [parked], fun g other => ?_⟩
  have same := parkTrap_thread h cause (s.thread h).seq.pc v ((hashBack h u).modThread h fun t => { t with dataError := cause = 6 }) g
  rw [if_neg other, State.modThread_thread, if_neg other, back.thread] at same
  rw [same]
  exact others g other
theorem hashTrap_wells (untraced : Spec.NoTrace u) (c : Nat) : ((hashTrap h cause v u).core c).well = (u.core c).well := by
  unfold hashTrap
  have silent : Spec.NoTrace ((hashBack h u).modThread h fun t => { t with dataError := cause = 6 }) := fun cl => by
    have same : ((hashBack h u).modThread h fun t => { t with dataError := cause = 6 }).cluster cl = u.cluster cl :=
      State.cluster_congr (hashBack_clusters h u) cl
    rw [same]
    exact untraced cl
  rw [parkTrap_gangsOnly _ _ _ _ _ silent]
  exact (SentOnly.hashBack h u).wells c
end

/-! ### Retirement -/

theorem threadOnly_mem {h : Nat} {s t : State} (only : ThreadOnly h s t) : t.mem = s.mem := by
  obtain ⟨frame, -⟩ := only
  rw [frame]
theorem threadOnly_cores {h : Nat} {s t : State} (only : ThreadOnly h s t) : t.cores = s.cores := by
  obtain ⟨frame, -⟩ := only
  rw [frame]
theorem State.modQueue_same (s : State) (core pair q : Nat) (f : Queue → Queue) : (s.modQueue core pair q f).queue core pair q = f (s.queue core pair q) := by
  unfold State.modQueue State.queue
  rw [State.modCore_core_same]
  exact tget_tset_same ..
/-- A queue whose kept entry has its value. -/
def Queue.fills (id : Nat) (v : VReg) (due : Nat) (q : Queue) : Queue :=
  { q with ents := q.ents.map fun e => if e.wait = some id then { val := v, at_ := due } else e }
/-- A thread behind its hash instruction. -/
def Thread.behindHash (t : Thread) (from_ : Nat) : Thread :=
  { t with seq := t.seq.pass 4, instret := t.instret + 1, run := .ready, notBefore := from_ }
theorem State.passes_spec {x : State} {h : Nat} {y : Why} (blocked : (x.thread h).run = .blocked y) :
    ThreadOnly h x ((x.passOf h 4).goesOn h) ∧ ((x.passOf h 4).goesOn h).thread h = (x.thread h).behindHash x.cycle := by
  refine ⟨threadOnly_trans (threadOnly_passOf h x 4) (threadOnly_goesOn h _), ?_⟩
  unfold State.goesOn State.passOf
  rw [State.modThread_thread_same, State.modThread_thread_same]
  dsimp only
  rw [blocked]
  rfl

section
variable {u : State} {h : Nat} {w : HashWait} (waits : (u.thread h).run = .blocked (.hash w))
include waits
theorem State.modHash_thread (f : HashWait → HashWait) : (u.modHash h f).thread h = { u.thread h with run := .blocked (.hash (f w)) } := by
  unfold State.modHash
  rw [State.modThread_thread_same, waits]
theorem hashDone_eq (v : VReg) : hashDone h v u =
    ((putHash h { w with done := some v } v (u.modHash h fun w => { w with done := some v })).passOf h 4).goesOn h := by
  have found := hashWaitOf_blocked (t := (u.modHash h fun w => { w with done := some v }).thread h) (w := { w with done := some v })
    (by rw [State.modHash_thread waits])
  unfold hashDone hashRetires
  rw [found]
  rfl
/-- Without a destination, the instruction retires and nothing else happens. -/
theorem hashDone_plain (v : VReg) (plain : w.dst = none) :
    ThreadOnly h u (hashDone h v u) ∧ (hashDone h v u).thread h = (u.thread h).behindHash u.cycle := by
  have nothing : putHash h { w with done := some v } v (u.modHash h fun w => { w with done := some v }) = u.modHash h fun w => { w with done := some v } := by
    unfold putHash
    dsimp only
    rw [plain]
  rw [hashDone_eq waits, nothing]
  obtain ⟨only, own⟩ := State.passes_spec (x := u.modHash h fun w => { w with done := some v }) (h := h) (y := .hash { w with done := some v })
    (by rw [State.modHash_thread waits])
  refine ⟨threadOnly_trans (threadOnly_modThread h u _) only, ?_⟩
  rw [own, State.modHash_thread waits]
  rfl
/-- A result is written to its register. -/
theorem hashDone_register (v : VReg) {r : Reg} (dst : w.dst = some r) (push : w.push = none) :
    ThreadOnly h u (hashDone h v u) ∧ (hashDone h v u).thread h = ((u.thread h).setV r.toNat v).behindHash u.cycle := by
  have written : putHash h { w with done := some v } v (u.modHash h fun w => { w with done := some v }) =
      (u.modHash h fun w => { w with done := some v }).modThread h fun t => t.setV r.toNat v := by
    unfold putHash
    dsimp only
    rw [dst, push]
  rw [hashDone_eq waits, written]
  obtain ⟨only, own⟩ := State.passes_spec (x := (u.modHash h fun w => { w with done := some v }).modThread h fun t => t.setV r.toNat v) (h := h)
    (y := .hash { w with done := some v }) (by rw [State.modThread_thread_same, State.modHash_thread waits]; rfl)
  refine ⟨threadOnly_trans (threadOnly_trans (threadOnly_modThread h u _) (threadOnly_modThread h _ _)) only, ?_⟩
  rw [own, State.modThread_thread_same, State.modHash_thread waits]
  rfl
/-- A result takes the entry of its queue that was kept for it (R17). -/
theorem hashDone_queue (v : VReg) {r : Reg} {id : Nat} (dst : w.dst = some r) (push : w.push = some id) :
    (hashDone h v u).thread h = (u.thread h).behindHash u.cycle ∧ (hashDone h v u).mem = u.mem ∧
      (hashDone h v u).queue (coreOf h) (pairOf h) (r.toNat - 28) = (u.queue (coreOf h) (pairOf h) (r.toNat - 28)).fills id v (u.cycle + 2) := by
  have filled : putHash h { w with done := some v } v (u.modHash h fun w => { w with done := some v }) =
      ((u.modHash h fun w => { w with done := some v }).modQueue (coreOf h) (pairOf h) (r.toNat - 28) (·.fills id v (u.cycle + 2))).wakePartner h
        (u.cycle + 1) := by
    unfold putHash
    dsimp only
    rw [dst, push]
    rfl
  rw [hashDone_eq waits, filled]
  have sent := (SentOnly.modQueue (u.modHash h fun w => { w with done := some v }) (coreOf h) (pairOf h) (r.toNat - 28)
    (·.fills id v (u.cycle + 2))).trans (.wakePartner _ h (u.cycle + 1))
  obtain ⟨only, own⟩ := State.passes_spec (y := .hash { w with done := some v }) (by rw [sent.thread, State.modHash_thread waits])
  refine ⟨?_, (threadOnly_mem only).trans sent.mem, ?_⟩
  · rw [own, sent.thread, State.modHash_thread waits, sent.cycle]
    rfl
  · rw [State.queue_congr (threadOnly_cores only), State.queue_congr (State.wakePartner_cores ..), State.modQueue_same]
    rfl
end

end Sys2Proof.Machine
end

section
/-!
SUPPORT and O44. HCLR, HLOOK and the lanes of HACC at their table.
-/

namespace Sys2Proof.Machine
open Spec (ThreadOnly)

/-! ### Frames -/

/-- Whether an access races depends on clusters only (R279). -/
theorem State.raceCheck_congr {s u : State} (clusters : u.clusters = s.clusters) (c ctx : Nat) (write : Bool) (segs : List (Nat × Nat × Nat)) :
    (u.raceCheck c ctx write segs).1 = (s.raceCheck c ctx write segs).1 := by
  unfold State.raceCheck
  dsimp only
  rw [State.cluster_congr clusters]
  split
  · rfl
  · split <;> rfl
theorem State.raceCheck_untraced {s : State} (untraced : Spec.NoTrace s) (c ctx : Nat) (write : Bool) (segs : List (Nat × Nat × Nat)) :
    Spec.NoTrace (s.raceCheck c ctx write segs).2 := fun cl => by
  unfold State.raceCheck
  dsimp only
  split
  · exact untraced cl
  · split
    · exact untraced cl
    · rw [State.modCluster_cluster]
      split
      next same => exact same ▸ untraced cl
      · exact untraced cl
theorem State.hashEntry_congr {s u : State} (cores : u.cores = s.cores) (owner : Nat) (d : Desc) : u.hashEntry owner d = s.hashEntry owner d := by
  funext n
  unfold State.hashEntry State.wellRead State.core
  rw [cores]

theorem State.touched_congr {s u : State} (cores : u.cores = s.cores) (owner : Nat) (d : Desc) (look : Bool) (k : Nat) :
    u.touched owner d look k = s.touched owner d look k := by
  unfold State.touched
  rw [State.hashEntry_congr cores]

theorem State.recordWrite_thread (s : State) (w : Landing) (g : Nat) :
    (s.recordWrite w).thread g = { s.thread g with mons := ((s.recordWrite w).thread g).mons } := by
  refine List.foldlRecOn s.threads _ (motive := fun u : State => u.thread g = { s.thread g with mons := (u.thread g).mons }) rfl fun u same x _ => ?_
  have hit : (u.modThread x.1 fun t => { t with mons := t.mons.map fun m => { m with hit := m.hit || m.place.any w.meets } }).thread g =
      { s.thread g with mons :=
        ((u.modThread x.1 fun t => { t with mons := t.mons.map fun m => { m with hit := m.hit || m.place.any w.meets } }).thread g).mons } := by
    rw [State.modThread_thread]
    split
    next own => subst own; rw [same]
    · exact same
  dsimp only
  split
  · exact same
  · split
    · split
      · exact hit
      · exact hit
    · exact hit
/-- A write to a well bank changes the bank and what monitors record; t is behind it. -/
structure Landed (s t : State) (core off : Nat) (bs : List Byte) : Prop where
  cycle : t.cycle = s.cycle
  mem : t.mem = s.mem
  thread : ∀ g, t.thread g = { s.thread g with mons := (t.thread g).mons }
  well : Memory.wf (s.core core).well = true → Spec.BytesWritten (s.core core).well (t.core core).well off bs
theorem State.landWell_landed (s : State) (core off : Nat) (bs : List Byte) : Landed s (s.landWell core off bs 0) core off bs := by
  have notes := NotesOnly.recordWrites (s.modCore core fun k => { k with well := memWrite k.well off bs }) (some core) off bs.length 0
  refine ⟨notes.cycle, notes.mem, fun g => ?_, fun canonical x => ?_⟩
  · exact State.recordWrite_thread { s.modCore core fun k => { k with well := memWrite k.well off bs } with
      landings := s.landings.filter (fun (x : Landing) => s.cycle ≤ x.at_) ++
        [{ core := some core, first := off, len := bs.length, at_ := s.cycle + 0 }] } _ g
  · rw [State.landWell, State.core, State.recordWrites_cores, ← State.core, State.modCore_core_same]
    exact memGet_memWrite bs _ off canonical x
/-- The same bank, with what s has elsewhere. -/
theorem Landed.of_marks {s u t : State} {core off : Nat} {bs : List Byte} (marks : MarksOnly s u) (landed : Landed u t core off bs) :
    Landed s t core off bs := by
  obtain ⟨cycle, mem, thread, well⟩ := landed
  rw [marks.wells] at well
  refine ⟨cycle.trans marks.cycle, mem.trans marks.mem, fun g => ?_, well⟩
  rw [thread g, marks.thread]

/-- A thread that is as it was but for its monitors, and has retired since, is past its instruction. -/
theorem retires_of_behind {s u t : State} {h : Nat} (own : t.thread h = (u.thread h).behindHash u.cycle) (cycle : u.cycle = s.cycle)
    (seq : (u.thread h).seq = (s.thread h).seq) (instret : (u.thread h).instret = (s.thread h).instret) :
    Spec.PassedOf h 4 s t ∧ Spec.ReadyAt h s.cycle t := by
  have pass : (t.thread h).seq = (s.thread h).seq.pass 4 := by
    rw [own, ← seq]
    rfl
  refine ⟨⟨by rw [pass], ?_⟩, ?_, ?_⟩ <;> rw [own]
  · exact congrArg (· + 1) instret
  · rfl
  · exact cycle

/-! ### What stops an access -/

section
variable {s : State} {h owner : Nat} {d : Desc} {write : Bool} {ns : List Nat} {y : Word}
theorem hashBad_broken (bad : s.brokenSector (ns.flatMap fun n => sectorsOf owner (hashOff d n) 8) = some y) :
    s.hashBad h owner d write ns = (some (6, y), s) := by
  unfold State.hashBad
  rw [bad]
variable (whole : s.brokenSector (ns.flatMap fun n => sectorsOf owner (hashOff d n) 8) = none)
include whole
theorem hashBad_whole : s.hashBad h owner d write ns =
    (((s.raceCheck (coreOf h) (s.thread h).ctx write (ns.map fun n => (owner, hashOff d n, 8))).1.map fun a => (0x0C, a)),
      (s.raceCheck (coreOf h) (s.thread h).ctx write (ns.map fun n => (owner, hashOff d n, 8))).2) := by
  unfold State.hashBad
  rw [whole]
end

/-! ### HCLR -/

section
variable {u : State} {h : Nat} {w : HashWait}
theorem hclrNow_race {x : Word}
    (race : (u.raceCheck (coreOf h) (u.thread h).ctx true [(wellCore h w.d.base, wellOff w.d.base, 8 * w.d.dim0)]).1 = some x) :
    hclrNow h w u = hashTrap h 0x0C x (u.raceCheck (coreOf h) (u.thread h).ctx true [(wellCore h w.d.base, wellOff w.d.base, 8 * w.d.dim0)]).2 := by
  unfold hclrNow
  dsimp only
  split
  next y v e => rw [e] at race ⊢; cases race; rfl
  next v e => rw [e] at race; cases race
theorem hclrNow_free
    (race : (u.raceCheck (coreOf h) (u.thread h).ctx true [(wellCore h w.d.base, wellOff w.d.base, 8 * w.d.dim0)]).1 = none) :
    hclrNow h w u = hashDone h 0 ((u.raceCheck (coreOf h) (u.thread h).ctx true [(wellCore h w.d.base, wellOff w.d.base, 8 * w.d.dim0)]).2.landWell
      (wellCore h w.d.base) (wellOff w.d.base) ((List.range w.d.dim0).flatMap fun _ => toBytes 8 emptyKey) 0) := by
  unfold hclrNow
  dsimp only
  split
  next y v e => rw [e] at race; cases race
  next v e => rw [e]

/-! ### HLOOK -/

/-- The answer to a key (R170). -/
def lookup (u : State) (owner : Nat) (d : Desc) (k : Nat) : Nat :=
  if k = emptyKey then 0
  else match (probes d k).find? fun n => (u.hashEntry owner d n).1 = k with
    | some n => (u.hashEntry owner d n).2
    | none => 0
theorem lookup_congr {s u : State} (cores : u.cores = s.cores) (owner : Nat) (d : Desc) : lookup u owner d = lookup s owner d := by
  unfold lookup
  rw [State.hashEntry_congr cores]
/-- The entries that HLOOK touches. -/
def lookedAt (u : State) (owner : Nat) (w : HashWait) : List Nat :=
  ((lanesOf 32 (w.ops.getD 0 0)).filter (· ≠ emptyKey)).flatMap (u.touched owner w.d true)
theorem lookedAt_congr {s u : State} (cores : u.cores = s.cores) (owner : Nat) (w : HashWait) : lookedAt u owner w = lookedAt s owner w := by
  unfold lookedAt
  rw [funext (State.touched_congr cores owner w.d true)]
theorem hlookNow_stops {c : Nat} {x : Word} {v : State}
    (bad : u.hashBad h (wellCore h w.d.base) w.d false (lookedAt u (wellCore h w.d.base) w) = (some (c, x), v)) : hlookNow h w u = hashTrap h c x v := by
  unfold lookedAt at bad
  unfold hlookNow
  dsimp only
  rw [bad]
theorem hlookNow_answers {v : State}
    (free : u.hashBad h (wellCore h w.d.base) w.d false (lookedAt u (wellCore h w.d.base) w) = (none, v)) :
    hlookNow h w u = hashDone h (pack 32 ((lanesOf 32 (w.ops.getD 0 0)).map (lookup v (wellCore h w.d.base) w.d))) v := by
  unfold lookedAt at free
  unfold hlookNow
  dsimp only
  rw [free]
  dsimp only
  refine congrArg (fun look => hashDone h (pack 32 ((lanesOf 32 (w.ops.getD 0 0)).map look)) v) (funext fun k => ?_)
  unfold lookup
  generalize (probes w.d k).find? _ = found
  cases found <;> rfl
end

/-! ### A lane of HACC -/

/-- A search that ends at the first hit finds it among what it has looked at. -/
theorem find?_take_of_findIdx? {α : Type} {p : α → Bool} {l : List α} {i : Nat} (place : l.findIdx? p = some i) :
    (l.take (i + 1)).find? p = l.find? p := by
  induction l generalizing i with
  | nil => simp
  | cons x l ih =>
    rw [List.findIdx?_cons] at place
    rw [List.take_succ_cons, List.find?_cons, List.find?_cons]
    by_cases hit : p x = true
    · rw [hit]
    · rw [Bool.not_eq_true] at hit
      rw [hit, if_neg Bool.false_ne_true] at place
      rw [hit]
      obtain ⟨j, later, rfl⟩ := Option.map_eq_some_iff.mp place
      exact ih later
/-- What a lane of HACC looks for: its key's entry, or an empty one. -/
def fits (u : State) (owner : Nat) (d : Desc) (k n : Nat) : Bool := (u.hashEntry owner d n).1 = k || (u.hashEntry owner d n).1 = emptyKey
theorem touched_find (u : State) (owner : Nat) (d : Desc) (k : Nat) :
    (u.touched owner d false k).find? (fits u owner d k) = (probes d k).find? (fits u owner d k) := by
  unfold State.touched fits
  simp only [Bool.not_false, Bool.true_and]
  split
  next i place => exact find?_take_of_findIdx? place
  · rfl
theorem fits_congr {s u : State} (cores : u.cores = s.cores) (owner : Nat) (d : Desc) (k : Nat) : fits u owner d k = fits s owner d k := by
  funext n
  unfold fits
  rw [State.hashEntry_congr cores]
/-- The value that a lane of HACC leaves in an entry, and its events (R168). -/
def hashSum (u : State) (h owner : Nat) (d : Desc) (k x n : Nat) : Nat × Fl :=
  if (u.hashEntry owner d n).1 ≠ k then (x, 0)
  else if d.fmt = 0 then FF.f32.add (u.thread h).frm.toNat (u.hashEntry owner d n).2 x else (((u.hashEntry owner d n).2 + x) % 2 ^ 32, 0)

theorem hashSum_congr {s u : State} (cores : u.cores = s.cores) (threads : u.threads = s.threads) (h owner : Nat) (d : Desc) (k x n : Nat) :
    hashSum u h owner d k x n = hashSum s h owner d k x n := by
  unfold hashSum
  rw [State.hashEntry_congr cores, State.thread, threads, State.thread]

section
variable {u v : State} {h owner k x j : Nat} {d : Desc}
theorem haccLane_idle (idle : k = emptyKey) : haccLane h owner d k x j u = .ok (u, 0) := if_pos idle
variable (key : k ≠ emptyKey)
include key
theorem haccLane_stops {e : Nat × Word} (bad : u.hashBad h owner d true (u.touched owner d false k) = (some e, v)) :
    haccLane h owner d k x j u = .error e := by
  unfold haccLane
  rw [if_neg key]
  dsimp only
  rw [bad]
variable (free : u.hashBad h owner d true (u.touched owner d false k) = (none, v)) (cores : v.cores = u.cores) (threads : v.threads = u.threads)
include free cores
theorem haccLane_full (none : (probes d k).find? (fits u owner d k) = none) : haccLane h owner d k x j u = .error (0x0B, word j) := by
  unfold haccLane
  rw [if_neg key]
  dsimp only
  rw [free]
  dsimp only
  have search : (u.touched owner d false k).find? (fits v owner d k) = .none := by rw [fits_congr cores, touched_find, none]
  unfold fits at search
  rw [search]
include threads in
theorem haccLane_found {n : Nat} (found : (probes d k).find? (fits u owner d k) = some n) :
    haccLane h owner d k x j u = 
      if enabledFl (u.thread h) (hashSum u h owner d k x n).2 then .ok (v, (hashSum u h owner d k x n).2)
      else .ok (v.landWell owner (hashOff d n) (toBytes 8 (k + (hashSum u h owner d k x n).1 * 2 ^ 32)) 0, (hashSum u h owner d k x n).2) := by
  have search : (u.touched owner d false k).find? (fits v owner d k) = some n := by rw [fits_congr cores, touched_find, found]
  have own : v.thread h = u.thread h := by rw [State.thread, threads, ← State.thread]
  unfold fits at search
  unfold haccLane
  rw [if_neg key]
  dsimp only
  rw [free]
  dsimp only
  rw [search]
  dsimp only
  rw [own, State.hashEntry_congr cores]
  rfl
end

end Sys2Proof.Machine
end

section
/-!
O44. A lane of HACC from its search to the next lane, and the three hash instructions at their table together.
-/

namespace Sys2Proof.Machine

/-! ### The next lane -/

/-- A lane's events go to FFLAGS, and LANECUR moves (R168, R174). -/
def laneDone (h : Nat) (fl : Fl) (moves : BitVec 5 → BitVec 5) (x : State) : State :=
  (raiseFl h fl x).modThread h fun t => { t with lanecur := moves t.lanecur }
/-- HACC behind its lane n, whose events were fl: the next lane follows, or the instruction retires. -/
def haccGoesOn (h n : Nat) (w : HashWait) (fl : Fl) (x : State) : State :=
  if n = 31 then hashDone h 0 (laneDone h fl (fun _ => 0) x)
  else ((laneDone h fl (· + 1) x).modHash h fun y => { y with fl := w.fl ||| fl }).later 1 (.hashAccessComplete h)
/-- A lane of HACC is done: memory is as before, and the next one follows in the next cycle, or the instruction is over (R168). -/
def HaccNext (s : State) (h : Nat) (w : HashWait) (t : State) : Prop :=
  t.mem = s.mem ∧
  ((s.thread h).lanecur.toNat < 31 → (t.thread h).lanecur = (s.thread h).lanecur + 1 ∧ Spec.Due (s.cycle + 1) (.hashAccessComplete h) t ∧
    (t.thread h).seq = (s.thread h).seq ∧ ∃ y, Spec.BlockedFor h (.hash y) t ∧ y.ops = w.ops ∧ y.d = w.d) ∧
  ((s.thread h).lanecur.toNat = 31 → (t.thread h).lanecur = 0 ∧ Spec.PassedOf h 4 s t ∧ Spec.ReadyAt h s.cycle t)

section
variable {s x : State} {h : Nat} {w : HashWait} (waits : (s.thread h).run = .blocked (.hash w)) (plain : w.dst = none)
  (own : x.thread h = { s.thread h with mons := (x.thread h).mons }) (cycle : x.cycle = s.cycle) (mem : x.mem = s.mem) (fl : Fl)
include own
theorem laneDone_thread (moves : BitVec 5 → BitVec 5) : (laneDone h fl moves x).thread h =
    { s.thread h with mons := (x.thread h).mons, fflags := (s.thread h).fflags ||| fl, lanecur := moves (s.thread h).lanecur } := by
  unfold laneDone
  rw [State.modThread_thread_same, raiseFl_thread, own]
include waits cycle mem
theorem haccGoesOn_more (more : (s.thread h).lanecur.toNat ≠ 31) : HaccNext s h w (haccGoesOn h (s.thread h).lanecur.toNat w fl x) ∧
    ((haccGoesOn h (s.thread h).lanecur.toNat w fl x).thread h).fflags = (s.thread h).fflags ||| fl ∧
    (haccGoesOn h (s.thread h).lanecur.toNat w fl x).cores = x.cores := by
  unfold haccGoesOn
  rw [if_neg more]
  have now := laneDone_thread own fl (· + 1)
  have noted := State.modHash_thread (u := laneDone h fl (· + 1) x) (w := w) (by rw [now]; exact waits) fun y => { y with fl := w.fl ||| fl }
  have due := State.due_later ((laneDone h fl (· + 1) x).modHash h fun y => { y with fl := w.fl ||| fl }) 1 (.hashAccessComplete h)
  have same : ((laneDone h fl (· + 1) x).modHash h fun y => { y with fl := w.fl ||| fl }).cycle = s.cycle := cycle
  rw [same] at due
  rw [now] at noted
  refine ⟨⟨mem, fun _ => ⟨?_, due, ?_, { w with fl := w.fl ||| fl }, congrArg Thread.run noted, rfl, rfl⟩,
    fun last => absurd last more⟩, ?_, rfl⟩ <;>
    rw [State.later_thread, noted]
include plain
theorem haccGoesOn_spec : HaccNext s h w (haccGoesOn h (s.thread h).lanecur.toNat w fl x) ∧
    ((haccGoesOn h (s.thread h).lanecur.toNat w fl x).thread h).fflags = (s.thread h).fflags ||| fl ∧
    (haccGoesOn h (s.thread h).lanecur.toNat w fl x).cores = x.cores := by
  by_cases last : (s.thread h).lanecur.toNat = 31
  · unfold haccGoesOn
    rw [if_pos last]
    have now := laneDone_thread own fl fun _ => 0
    obtain ⟨only, ends⟩ := hashDone_plain (u := laneDone h fl (fun _ => 0) x) (by rw [now]; exact waits) 0 plain
    have retires := retires_of_behind (s := s) ends cycle (by rw [now]) (by rw [now])
    rw [now] at ends
    refine ⟨⟨(threadOnly_mem only).trans mem, fun more => absurd last (Nat.ne_of_lt more), fun _ => ⟨?_, retires⟩⟩, ?_,
      (threadOnly_cores only).trans rfl⟩
    · rw [ends]
      rfl
    · rw [ends]
      rfl
  · exact haccGoesOn_more waits own cycle mem fl last
end

section
variable {u x : State} {h : Nat} {w : HashWait} {fl : Fl}
theorem haccNow_stops {e : Nat × Word} (lane : haccLane h (wellCore h w.d.base) w.d (w.lane (u.thread h).lanecur.toNat).1
      (w.lane (u.thread h).lanecur.toNat).2 (u.thread h).lanecur.toNat u = .error e) (next : State → State) :
    haccNow h w u next = hashTrap h e.1 e.2 u := by
  unfold haccNow
  dsimp only
  rw [lane]
variable (lane : haccLane h (wellCore h w.d.base) w.d (w.lane (u.thread h).lanecur.toNat).1 (w.lane (u.thread h).lanecur.toNat).2
  (u.thread h).lanecur.toNat u = .ok (x, fl))
include lane
theorem haccNow_event (loud : enabledFl (u.thread h) fl = true) (next : State → State) :
    haccNow h w u next = hashTrap h 9 (fpVal (w.fl ||| fl) (u.thread h).lanecur.toNat) (raiseFl h fl x) := by
  unfold haccNow
  dsimp only
  rw [lane]
  exact if_pos loud
theorem haccNow_goes (quiet : enabledFl (u.thread h) fl = false) :
    haccNow h w u (fun s => s.later 1 (.hashAccessComplete h)) = haccGoesOn h (u.thread h).lanecur.toNat w fl x := by
  unfold haccNow
  dsimp only
  rw [lane]
  dsimp only
  rw [quiet, if_neg Bool.false_ne_true]
  rfl
end

theorem raiseFl_untraced {v : State} (h : Nat) (f : Fl) (untraced : Spec.NoTrace v) : Spec.NoTrace (raiseFl h f v) := untraced
theorem raiseFl_core (h : Nat) (f : Fl) (v : State) (c : Nat) : (raiseFl h f v).core c = v.core c := rfl
/-- A lane's key and value are words of the operands. -/
theorem HashWait.lane_eq (w : HashWait) {j : Nat} (low : j < 32) :
    w.lane j = ((w.ops.getD 0 0).toNat / 2 ^ (32 * j) % 2 ^ 32, (w.ops.getD 1 0).toNat / 2 ^ (32 * j) % 2 ^ 32) := by
  unfold HashWait.lane
  rw [lanesOf_getD, lanesOf_getD, if_pos low, if_pos low]
theorem hashTrap_of_marks {s u : State} {h : Nat} (marks : MarksOnly s u) (cause : Nat) (v : Word) : Spec.Trapped h cause v s (hashTrap h cause v u) :=
  hashTrap_trapped (by rw [marks.thread]) (fun g _ => by rw [marks.thread]; exact ⟨rfl, rfl⟩) cause v

theorem State.core_congr {s u : State} (cores : u.cores = s.cores) (c : Nat) : u.core c = s.core c := by rw [State.core, cores, State.core]

/-! ### What the units and marks of a table let on -/

/-- The units do not make the instruction wait (R260). -/
abbrev UnitsFree (s : State) (h : Nat) (us : List LockUnit) (write : Bool) : Prop :=
  s.mustWait us write (s.reachedAt (.hash h)) (orderKey h (s.thread h).since) = false
/-- The sectors of entries of a table, and the bytes that race detection sees. -/
abbrev entryUnits (owner : Nat) (d : Desc) (ns : List Nat) : List LockUnit := ns.flatMap fun e => sectorsOf owner (hashOff d e) 8
abbrev entrySegs (owner : Nat) (d : Desc) (ns : List Nat) : List (Nat × Nat × Nat) := ns.map fun e => (owner, hashOff d e, 8)

section
variable {s : State} {h owner : Nat} {d : Desc} {write : Bool} {ns : List Nat}
theorem dropWait_broken {y : Word} (bad : s.brokenSector (entryUnits owner d ns) = some y) :
    ∃ v, MarksOnly s v ∧ (s.dropWait (.hash h)).hashBad h owner d write ns = (some (6, y), v) :=
  ⟨_, .dropWait s _, hashBad_broken bad⟩
variable (whole : s.brokenSector (entryUnits owner d ns) = none)
include whole
theorem dropWait_race {y : Word} (race : (s.raceCheck (coreOf h) (s.thread h).ctx write (entrySegs owner d ns)).1 = some y) :
    ∃ v, MarksOnly s v ∧ (s.dropWait (.hash h)).hashBad h owner d write ns = (some (0x0C, y), v) := by
  have race' := (State.raceCheck_congr (s := s) (u := s.dropWait (.hash h)) rfl _ _ _ _).trans race
  refine ⟨((s.dropWait (.hash h)).raceCheck (coreOf h) (s.thread h).ctx write (entrySegs owner d ns)).2, (MarksOnly.dropWait s _).trans (.raceCheck ..), ?_⟩
  rw [hashBad_whole (s := s.dropWait (.hash h)) whole]
  exact congrArg (fun r : Option Word => (r.map _, _)) race'
theorem dropWait_free (race : (s.raceCheck (coreOf h) (s.thread h).ctx write (entrySegs owner d ns)).1 = none) :
    ∃ v, MarksOnly s v ∧ (Spec.NoTrace s → Spec.NoTrace v) ∧ (s.dropWait (.hash h)).hashBad h owner d write ns = (none, v) := by
  have race' := (State.raceCheck_congr (s := s) (u := s.dropWait (.hash h)) rfl _ _ _ _).trans race
  refine ⟨((s.dropWait (.hash h)).raceCheck (coreOf h) (s.thread h).ctx write (entrySegs owner d ns)).2, (MarksOnly.dropWait s _).trans (.raceCheck ..),
    fun untraced => ?_, ?_⟩
  · exact State.raceCheck_untraced (s := s.dropWait (.hash h)) untraced (coreOf h) (s.thread h).ctx write (entrySegs owner d ns)
  · rw [hashBad_whole (s := s.dropWait (.hash h)) whole]
    exact congrArg (fun r : Option Word => (r.map _, _)) race'
end

/-! ### HCLR and HLOOK at their table -/

theorem hashNow_hclr {u : State} {h : Nat} {w : HashWait} {a : BitVec 3} {b : Reg} (insn : blockedInsn (u.thread h) = some (.hclr a b)) :
    hashNow h w u = hclrNow h w u := by
  unfold hashNow
  rw [insn]
theorem hashNow_hlook {u : State} {h : Nat} {w : HashWait} {a : BitVec 3} {b c d : Reg} (insn : blockedInsn (u.thread h) = some (.hlook a b c d)) :
    hashNow h w u = hlookNow h w u := by
  unfold hashNow
  rw [insn]

section
variable {s : State} {h : Nat} {w : HashWait} (takes : s.ev = some (.hashAccessComplete h)) (waits : (s.thread h).run = .blocked (.hash w))
  (alone : Spec.Alone h s)
include takes waits alone

section
variable {a : BitVec 3} {b : Reg} (insn : blockedInsn (s.thread h) = some (.hclr a b))
include insn
theorem exec_hclr :
    exec .hashAccessComplete s = .next (atTable h (sectorsOf (wellCore h w.d.base) (wellOff w.d.base) (8 * w.d.dim0)) true s (hashNow h w)) :=
  exec_hash takes waits alone insn (by simp)
variable (free : UnitsFree s h (sectorsOf (wellCore h w.d.base) (wellOff w.d.base) (8 * w.d.dim0)) true)
include free
theorem exec_hclr_race {x : Word}
    (race : (s.raceCheck (coreOf h) (s.thread h).ctx true [(wellCore h w.d.base, wellOff w.d.base, 8 * w.d.dim0)]).1 = some x) :
    Spec.Completes .hashAccessComplete s (Spec.Trapped h 0x0C x s) := by
  have run := exec_hclr takes waits alone insn
  have race' := (State.raceCheck_congr (s := s) (u := s.dropWait (.hash h)) rfl _ _ _ _).trans race
  rw [atTable_goes _ free, hashNow_hclr (u := s.dropWait _) insn, hclrNow_race race'] at run
  exact ⟨_, run, hashTrap_of_marks ((MarksOnly.dropWait s _).trans (.raceCheck ..)) _ _⟩
/-- HCLR empties every entry (R170). -/
theorem exec_hclr_clears (plain : w.dst = none) (canonical : Memory.wf (s.core (wellCore h w.d.base)).well = true)
    (race : (s.raceCheck (coreOf h) (s.thread h).ctx true [(wellCore h w.d.base, wellOff w.d.base, 8 * w.d.dim0)]).1 = none) :
    Spec.Completes .hashAccessComplete s fun t => (Spec.PassedOf h 4 s t ∧ Spec.ReadyAt h s.cycle t) ∧ t.mem = s.mem ∧
      Spec.BytesWritten (s.core (wellCore h w.d.base)).well (t.core (wellCore h w.d.base)).well (wellOff w.d.base)
        ((List.range w.d.dim0).flatMap fun _ => toBytes 8 emptyKey) := by
  have run := exec_hclr takes waits alone insn
  have race' := (State.raceCheck_congr (s := s) (u := s.dropWait (.hash h)) rfl _ _ _ _).trans race
  rw [atTable_goes _ free, hashNow_hclr (u := s.dropWait _) insn, hclrNow_free race'] at run
  have marks := (MarksOnly.dropWait s (.hash h)).trans (.raceCheck _ (coreOf h) ((s.dropWait (.hash h)).thread h).ctx true
    [(wellCore h w.d.base, wellOff w.d.base, 8 * w.d.dim0)])
  generalize ((s.dropWait (.hash h)).raceCheck (coreOf h) ((s.dropWait (.hash h)).thread h).ctx true
    [(wellCore h w.d.base, wellOff w.d.base, 8 * w.d.dim0)]).2 = v at run marks
  obtain ⟨cycle, mem, thread, well⟩ := (State.landWell_landed v (wellCore h w.d.base) (wellOff w.d.base)
    ((List.range w.d.dim0).flatMap fun _ => toBytes 8 emptyKey)).of_marks marks
  obtain ⟨only, ends⟩ := hashDone_plain ((congrArg Thread.run (thread h)).trans waits) 0 plain
  refine ⟨_, run, retires_of_behind ends cycle (by rw [thread h]) (by rw [thread h]),
    (threadOnly_mem only).trans mem, ?_⟩
  rw [State.core_congr (threadOnly_cores only)]
  exact well canonical
end

section
variable {a : BitVec 3} {b c r : Reg} (insn : blockedInsn (s.thread h) = some (.hlook a b c r))
include insn
theorem exec_hlook : exec .hashAccessComplete s =
    .next (atTable h (entryUnits (wellCore h w.d.base) w.d (lookedAt s (wellCore h w.d.base) w)) false s (hashNow h w)) :=
  exec_hash takes waits alone insn (by simp)
variable (free : UnitsFree s h (entryUnits (wellCore h w.d.base) w.d (lookedAt s (wellCore h w.d.base) w)) false) {v : State} (marks : MarksOnly s v)
include free marks
theorem exec_hlook_stops {cause : Nat} {x : Word} (bad : (s.dropWait (.hash h)).hashBad h (wellCore h w.d.base) w.d false
      (lookedAt s (wellCore h w.d.base) w) = (some (cause, x), v)) : Spec.Completes .hashAccessComplete s (Spec.Trapped h cause x s) := by
  have run := exec_hlook takes waits alone insn
  rw [← lookedAt_congr (u := s.dropWait (.hash h)) (s := s) rfl] at bad
  rw [atTable_goes _ free, hashNow_hlook (u := s.dropWait _) insn, hlookNow_stops bad] at run
  exact ⟨_, run, hashTrap_of_marks marks _ _⟩
/-- HLOOK retires, with each key's value in its register, or in the entry that was kept for it (R17, R170). -/
theorem exec_hlook_answers (dst : w.dst = some r) (good : (s.dropWait (.hash h)).hashBad h (wellCore h w.d.base) w.d false
      (lookedAt s (wellCore h w.d.base) w) = (none, v)) :
    Spec.Completes .hashAccessComplete s fun t => (Spec.PassedOf h 4 s t ∧ Spec.ReadyAt h s.cycle t) ∧ t.mem = s.mem ∧
      (w.push = none → (t.thread h).getV r.toNat = pack 32 ((lanesOf 32 (w.ops.getD 0 0)).map (lookup s (wellCore h w.d.base) w.d))) ∧
      ∀ id, w.push = some id → t.queue (coreOf h) (pairOf h) (r.toNat - 28) = (s.queue (coreOf h) (pairOf h) (r.toNat - 28)).fills id
        (pack 32 ((lanesOf 32 (w.ops.getD 0 0)).map (lookup s (wellCore h w.d.base) w.d))) (s.cycle + 2) := by
  have run := exec_hlook takes waits alone insn
  rw [← lookedAt_congr (u := s.dropWait (.hash h)) (s := s) rfl] at good
  rw [atTable_goes _ free, hashNow_hlook (u := s.dropWait _) insn, hlookNow_answers good, lookup_congr marks.cores] at run
  refine ⟨_, run, ?_⟩
  generalize pack 32 ((lanesOf 32 (w.ops.getD 0 0)).map (lookup s (wellCore h w.d.base) w.d)) = answer
  have own := marks.thread h
  have blocked : (v.thread h).run = .blocked (.hash w) := by rw [own]; exact waits
  cases push : w.push with
  | none =>
    obtain ⟨only, ends⟩ := hashDone_register blocked answer dst push
    refine ⟨retires_of_behind (u := v.modThread h fun t => t.setV r.toNat answer) ?_ marks.cycle ?_ ?_, (threadOnly_mem only).trans marks.mem,
      fun _ => ?_, fun id none => absurd none (by simp)⟩
    · rw [ends, State.modThread_thread_same]
      rfl
    · rw [State.modThread_thread_same, own]
      rfl
    · rw [State.modThread_thread_same, own]
      rfl
    · rw [ends]
      exact (Thread.setV_getV (v.thread h) r.toNat answer r.isLt r.isLt).trans (if_pos rfl)
  | some id =>
    obtain ⟨ends, mem, fills⟩ := hashDone_queue blocked answer dst push
    refine ⟨retires_of_behind ends marks.cycle (by rw [own]) (by rw [own]), mem.trans marks.mem, fun none => absurd none (by simp), fun _ same => ?_⟩
    cases same
    rw [fills, marks.cycle, State.queue_congr marks.cores]
end

/-! ### HACC at its table -/

section
variable {a : BitVec 3} {b c e : Reg} (insn : blockedInsn (s.thread h) = some (.hacc a b c e)) {k x : Nat}
  (lane : w.lane (s.thread h).lanecur.toNat = (k, x))
include insn lane
theorem exec_hacc_lane : exec .hashAccessComplete s =
    .next (atTable h (if k = emptyKey then [] else entryUnits (wellCore h w.d.base) w.d (s.touched (wellCore h w.d.base) w.d false k)) true s fun s =>
      haccNow h w s fun s => s.later 1 (.hashAccessComplete h)) := by
  rw [exec_hacc takes waits alone insn]
  unfold haccStep
  rw [lane]
/-- The lane of an empty key does nothing (R168). -/
theorem exec_hacc_idle (idle : k = emptyKey) (plain : w.dst = none) : Spec.Completes .hashAccessComplete s fun t => HaccNext s h w t ∧ t.cores = s.cores := by
  have run := exec_hacc_lane takes waits alone insn lane
  have does : haccLane h (wellCore h w.d.base) w.d (w.lane (s.thread h).lanecur.toNat).1 (w.lane (s.thread h).lanecur.toNat).2
      (s.thread h).lanecur.toNat (s.dropWait (.hash h)) = .ok (s.dropWait (.hash h), 0) := by
    rw [lane]
    exact haccLane_idle idle
  have quiet : enabledFl ((s.dropWait (.hash h)).thread h) 0 = false := by simp [enabledFl]
  rw [if_pos idle, atTable_goes _ rfl, haccNow_goes (u := s.dropWait _) does quiet] at run
  obtain ⟨next, -, cores⟩ := haccGoesOn_spec (x := s.dropWait (.hash h)) waits plain rfl rfl rfl 0
  exact ⟨_, run, next, cores⟩

variable (key : k ≠ emptyKey)
  (free : UnitsFree s h (entryUnits (wellCore h w.d.base) w.d (s.touched (wellCore h w.d.base) w.d false k)) true) {v : State} (marks : MarksOnly s v)
include key free
theorem exec_hacc_now : exec .hashAccessComplete s = .next (haccNow h w (s.dropWait (.hash h)) fun s => s.later 1 (.hashAccessComplete h)) := by
  have run := exec_hacc_lane takes waits alone insn lane
  rwa [if_neg key, atTable_goes _ free] at run
theorem exec_hacc_stops {bad : Nat × Word} (stops : (s.dropWait (.hash h)).hashBad h (wellCore h w.d.base) w.d true
      (s.touched (wellCore h w.d.base) w.d false k) = (some bad, v)) : Spec.Completes .hashAccessComplete s (Spec.Trapped h bad.1 bad.2 s) := by
  have run := exec_hacc_now takes waits alone insn lane key free
  rw [haccNow_stops (by
    rw [show w.lane ((s.dropWait (.hash h)).thread h).lanecur.toNat = (k, x) from lane]
    exact haccLane_stops key (by rw [State.touched_congr (u := s.dropWait (.hash h)) (s := s) rfl]; exact stops))] at run
  exact ⟨_, run, hashTrap_of_marks (.dropWait s _) _ _⟩
variable (good : (s.dropWait (.hash h)).hashBad h (wellCore h w.d.base) w.d true (s.touched (wellCore h w.d.base) w.d false k) = (none, v))
include marks good
theorem exec_hacc_full (none : (probes w.d k).find? (fits s (wellCore h w.d.base) w.d k) = none) :
    Spec.Completes .hashAccessComplete s (Spec.Trapped h 0x0B (word (s.thread h).lanecur.toNat) s) := by
  have run := exec_hacc_now takes waits alone insn lane key free
  rw [haccNow_stops (by
    rw [show w.lane ((s.dropWait (.hash h)).thread h).lanecur.toNat = (k, x) from lane]
    exact haccLane_full key (by rw [State.touched_congr (u := s.dropWait (.hash h)) (s := s) rfl]; exact good) marks.cores
      (by rw [fits_congr (u := s.dropWait (.hash h)) (s := s) rfl]; exact none))] at run
  exact ⟨_, run, hashTrap_of_marks (.dropWait s _) _ _⟩
variable {n : Nat} (found : (probes w.d k).find? (fits s (wellCore h w.d.base) w.d k) = some n)
include found
omit takes waits alone insn free in
theorem haccLane_dropWait : haccLane h (wellCore h w.d.base) w.d (w.lane (s.thread h).lanecur.toNat).1 (w.lane (s.thread h).lanecur.toNat).2
    (s.thread h).lanecur.toNat (s.dropWait (.hash h)) =
      if enabledFl (s.thread h) (hashSum s h (wellCore h w.d.base) w.d k x n).2 then .ok (v, (hashSum s h (wellCore h w.d.base) w.d k x n).2)
      else .ok (v.landWell (wellCore h w.d.base) (hashOff w.d n) (toBytes 8 (k + (hashSum s h (wellCore h w.d.base) w.d k x n).1 * 2 ^ 32)) 0,
        (hashSum s h (wellCore h w.d.base) w.d k x n).2) := by
  have touched : (s.dropWait (.hash h)).touched (wellCore h w.d.base) w.d false k = s.touched (wellCore h w.d.base) w.d false k :=
    State.touched_congr (u := s.dropWait (.hash h)) (s := s) rfl ..
  have sum : hashSum (s.dropWait (.hash h)) h (wellCore h w.d.base) w.d k x n = hashSum s h (wellCore h w.d.base) w.d k x n :=
    hashSum_congr (u := s.dropWait (.hash h)) (s := s) rfl rfl ..
  rw [← touched] at good
  rw [← fits_congr (u := s.dropWait (.hash h)) (s := s) rfl] at found
  rw [lane, ← sum]
  exact haccLane_found key good marks.cores marks.threads found
/-- An enabled event traps, and the table is as before (R174). -/
theorem exec_hacc_event (loud : (hashSum s h (wellCore h w.d.base) w.d k x n).2 &&& (s.thread h).fenable ≠ 0) (untraced : Spec.NoTrace v) :
    Spec.Completes .hashAccessComplete s fun t =>
      Spec.Trapped h 9 (fpVal (w.fl ||| (hashSum s h (wellCore h w.d.base) w.d k x n).2) (s.thread h).lanecur.toNat) s t ∧
      (t.core (wellCore h w.d.base)).well = (s.core (wellCore h w.d.base)).well := by
  have run := exec_hacc_now takes waits alone insn lane key free
  have enabled : enabledFl (s.thread h) (hashSum s h (wellCore h w.d.base) w.d k x n).2 = true := decide_eq_true loud
  have does := haccLane_dropWait lane key marks good found
  rw [if_pos enabled] at does
  rw [haccNow_event (u := s.dropWait _) does enabled] at run
  refine ⟨_, run, hashTrap_trapped ?_ (fun g other => ?_) _ _, (hashTrap_wells _ _ (raiseFl_untraced h _ untraced) _).trans ?_⟩
  · rw [raiseFl_thread, marks.thread]
  · rw [raiseFl_other _ _ _ other, marks.thread]
    exact ⟨rfl, rfl⟩
  · rw [raiseFl_core, marks.wells]
/-- The entry has its key and its new value, and the next lane follows (R168). -/
theorem exec_hacc_adds (plain : w.dst = none) (canonical : Memory.wf (s.core (wellCore h w.d.base)).well = true)
    (silent : (hashSum s h (wellCore h w.d.base) w.d k x n).2 &&& (s.thread h).fenable = 0) :
    Spec.Completes .hashAccessComplete s fun t => HaccNext s h w t ∧
      (t.thread h).fflags = (s.thread h).fflags ||| (hashSum s h (wellCore h w.d.base) w.d k x n).2 ∧
      Spec.BytesWritten (s.core (wellCore h w.d.base)).well (t.core (wellCore h w.d.base)).well (hashOff w.d n)
        (toBytes 8 (k + (hashSum s h (wellCore h w.d.base) w.d k x n).1 * 2 ^ 32)) := by
  have run := exec_hacc_now takes waits alone insn lane key free
  have quiet : enabledFl (s.thread h) (hashSum s h (wellCore h w.d.base) w.d k x n).2 = false := by simp [enabledFl, silent]
  have does := haccLane_dropWait lane key marks good found
  rw [if_neg (by rw [quiet]; exact Bool.false_ne_true)] at does
  rw [haccNow_goes (u := s.dropWait _) does quiet] at run
  obtain ⟨cycle, mem, thread, well⟩ := (State.landWell_landed v (wellCore h w.d.base) (hashOff w.d n)
    (toBytes 8 (k + (hashSum s h (wellCore h w.d.base) w.d k x n).1 * 2 ^ 32))).of_marks marks
  obtain ⟨next, flags, cores⟩ := haccGoesOn_spec waits plain (thread h) cycle mem (hashSum s h (wellCore h w.d.base) w.d k x n).2
  refine ⟨_, run, next, flags, ?_⟩
  change Spec.BytesWritten _ ((haccGoesOn h (s.thread h).lanecur.toNat w _ _).core _).well _ _
  rw [State.core_congr cores]
  exact well canonical
end
end

end Sys2Proof.Machine

open Sys2Proof Sys2Proof.Machine Sys2Proof.Spec

theorem hashTables : HashTables := by
  intro s h w takes waits _ alone d owner wait again retires race bad canonical
  refine ⟨fun a b insn plain => ?_, fun a b c r insn dst => ?_, fun a b c e insn plain => ?_⟩
  · refine ⟨completes_again (exec_hclr takes waits alone insn), fun x free race _ => exec_hclr_race takes waits alone insn free race,
      fun free race => exec_hclr_clears takes waits alone insn free plain canonical race⟩
  · intro ks ns us answer l
    have same : answer = pack 32 ((lanesOf 32 (w.ops.getD 0 0)).map (lookup s (wellCore h w.d.base) w.d)) := by
      refine congrArg (fun look => pack 32 (ks.map look)) (funext fun k => ?_)
      unfold lookup
      generalize (probes w.d k).find? _ = found
      cases found <;> rfl
    refine ⟨completes_again (exec_hlook takes waits alone insn), fun x free bad _ => ?_, fun x free whole race _ => ?_, fun free whole race => ?_⟩
    · obtain ⟨v, marks, stops⟩ := dropWait_broken (h := h) (write := false) bad
      exact exec_hlook_stops takes waits alone insn free marks stops
    · obtain ⟨v, marks, stops⟩ := dropWait_race whole race
      exact exec_hlook_stops takes waits alone insn free marks stops
    · obtain ⟨v, marks, -, good⟩ := dropWait_free whole race
      rw [same]
      obtain ⟨t, run, retires, mem, register, queue⟩ := exec_hlook_answers takes waits alone insn free marks dst good
      exact ⟨t, run, retires, mem, fun none _ => register none, fun id push => congrArg Queue.ents (queue id push)⟩
  · intro j k x ns us l next
    have lane : w.lane (s.thread h).lanecur.toNat = (k, x) := w.lane_eq (s.thread h).lanecur.isLt
    refine ⟨fun idle => ?_, fun (key : k ≠ emptyKey) => ?_⟩
    · obtain ⟨t, run, goes, cores⟩ := exec_hacc_idle takes waits alone insn lane idle plain
      exact ⟨t, run, goes, congrArg Core.well (State.core_congr cores _)⟩
    have atUnits := exec_hacc_lane takes waits alone insn lane
    rw [if_neg key] at atUnits
    refine ⟨completes_again atUnits, fun y free bad _ => ?_, fun y free whole race _ => ?_, fun free whole race => ?_⟩
    · obtain ⟨v, marks, stops⟩ := dropWait_broken (h := h) (write := true) bad
      exact exec_hacc_stops takes waits alone insn lane key free stops
    · obtain ⟨v, marks, stops⟩ := dropWait_race whole race
      exact exec_hacc_stops takes waits alone insn lane key free stops
    obtain ⟨v, marks, quiet, good⟩ := dropWait_free whole race
    have search : (fun n => decide ((s.hashEntry (wellCore h w.d.base) w.d n).1 = k ∨ (s.hashEntry (wellCore h w.d.base) w.d n).1 = 2 ^ 32 - 1)) =
        fits s (wellCore h w.d.base) w.d k := funext fun n => Bool.decide_or ..
    refine ⟨fun none _ => ?_, fun n found => ⟨fun silent => ?_, fun loud untraced => ?_⟩⟩
    · exact exec_hacc_full takes waits alone insn lane key free marks good (by rw [← search]; exact none)
    · exact exec_hacc_adds takes waits alone insn lane key free marks good (by rw [← search]; exact found) plain canonical silent
    · have event := exec_hacc_event takes waits alone insn lane key free marks good (by rw [← search]; exact found) loud (quiet untraced)
      rw [fpVal, Nat.mul_comm] at event
      exact event

/-- Settles O44: the checks and the issue of hash instructions, and what each does with the entries of its table. -/
theorem hashing : Obligations.Hashing := ⟨hashIssue, hashTables⟩
end

section
/-!
SUPPORT and O1-O3. The family `Roundtrip` put together: every instruction is read back from its parcels; and the length of what a decoder
reads.
-/

namespace Sys2Proof.Laws.Roundtrip

/-- The statement of the family for every instruction, by the lemma of its row. -/
theorem statement : ∀ i : Instr, Statement i
  | .add .. => add _ _ _ | .sub .. => sub _ _ _ | .mul .. => mul _ _ _ | .mulh .. => mulh _ _ _ | .mulhn .. => mulhn _ _ _
  | .div .. => div _ _ _ | .divn .. => divn _ _ _ | .rem .. => rem _ _ _ | .remn .. => remn _ _ _ | .and .. => and _ _ _
  | .or .. => or _ _ _ | .xor .. => xor _ _ _ | .andn .. => andn _ _ _ | .orn .. => orn _ _ _ | .shl .. => shl _ _ _ | .shr .. => shr _ _ _
  | .sra .. => sra _ _ _ | .rotl .. => rotl _ _ _ | .rotr .. => rotr _ _ _ | .min .. => min _ _ _ | .max .. => max _ _ _
  | .minn .. => minn _ _ _ | .maxn .. => maxn _ _ _ | .slt .. => slt _ _ _ | .sltn .. => sltn _ _ _ | .clz .. => clz _ _
  | .ctz .. => ctz _ _ | .popc .. => popc _ _ | .sextB .. => sextB _ _ | .sextH .. => sextH _ _ | .sextW .. => sextW _ _
  | .zextB .. => zextB _ _ | .zextH .. => zextH _ _ | .zextW .. => zextW _ _ | .bfx .. => bfx _ _ _ | .bfxn .. => bfxn _ _ _
  | .bfi .. => bfi _ _ _ | .bswap .. => bswap _ _ | .hasha .. => hasha _ _ | .addi .. => addi _ _ _ | .andi .. => andi _ _ _
  | .ori .. => ori _ _ _ | .xori .. => xori _ _ _ | .shli .. => shli _ _ _ | .shri .. => shri _ _ _ | .srai .. => srai _ _ _
  | .roti .. => roti _ _ _ | .slti .. => slti _ _ _ | .lih .. => lih _ _ | .addpc .. => addpc _ _ | .sk .. => sk _ _ _ _
  | .ski .. => ski _ _ _ _ | .bCc .. => bCc _ _ _ _ _ | .br .. => br _ | .call .. => call _ | .jalr .. => jalr _ _ _ | .loop .. => loop _ _
  | .csrr .. => csrr _ _ | .csrw .. => csrw _ _ | .csrs .. => csrs _ _ | .csrc .. => csrc _ _ | .nop => nop | .trap .. => trap _
  | .bkpt => bkpt | .fencei => fencei | .eret .. => eret _ | .halt => halt | .tlbi .. => tlbi _ _ | .tresume .. => tresume _
  | .tstatr .. => tstatr _ _ _ | .tstatw .. => tstatw _ _ _ | .vaddF32Parcel .. => vaddF32Parcel _ _
  | .vsubF32Parcel .. => vsubF32Parcel _ _ | .vmulF32Parcel .. => vmulF32Parcel _ _ | .vmaxF32Parcel .. => vmaxF32Parcel _ _
  | .vminF32Parcel .. => vminF32Parcel _ _ | .vaddI32Parcel .. => vaddI32Parcel _ _ | .vsubI32Parcel .. => vsubI32Parcel _ _
  | .vandParcel .. => vandParcel _ _ | .vorParcel .. => vorParcel _ _ | .vxorParcel .. => vxorParcel _ _ | .vmovParcel .. => vmovParcel _ _
  | .vaddB16Parcel .. => vaddB16Parcel _ _ | .vmulB16Parcel .. => vmulB16Parcel _ _ | .vshlI32Parcel .. => vshlI32Parcel _ _
  | .vsraI32Parcel .. => vsraI32Parcel _ _ | .vnegF32Parcel .. => vnegF32Parcel _ _ | .rpt .. => rpt _ _ _ _ | .nop16 => nop16
  | .send .. => send _ _ _ | .recv .. => recv _ _ _ | .recvn .. => recvn _ _ _ | .mon .. => mon _ _ | .monG .. => monG _ _
  | .mwait .. => mwait _ _ _ | .mclr .. => mclr _ | .cntw .. => cntw _ _ _ | .bar .. => bar _ _ _ | .bara .. => bara _ _ _
  | .barw .. => barw _ _ | .ibx .. => ibx _ _ | .ibxn .. => ibxn _ _ | .uien .. => uien _ _ | .uiret => uiret | .tstart .. => tstart _ _ _
  | .texit => texit | .yield => yield | .gang .. => gang _ _ | .ungang => ungang | .draw .. => draw _ _ _ | .dcan .. => dcan _
  | .dstat .. => dstat _ _ | .bdone => bdone | .tdef .. => tdef _ _ | .tinv .. => tinv _ | .tqry .. => tqry _ _ _ | .qld .. => qld _ _
  | .qst .. => qst _ _ | .qpx .. => qpx _ _ _ | .vadd .. => vadd _ _ _ _ | .vsub .. => vsub _ _ _ _ | .vmul .. => vmul _ _ _ _
  | .vfma .. => vfma _ _ _ _ | .vfms .. => vfms _ _ _ _ | .vmin .. => vmin _ _ _ _ | .vminN .. => vminN _ _ _ _ | .vmax .. => vmax _ _ _ _
  | .vmaxN .. => vmaxN _ _ _ _ | .vabs .. => vabs _ _ _ | .vneg .. => vneg _ _ _ | .vand .. => vand _ _ _ _ | .vor .. => vor _ _ _ _
  | .vxor .. => vxor _ _ _ _ | .vnot .. => vnot _ _ _ | .vshl .. => vshl _ _ _ _ | .vshr .. => vshr _ _ _ _ | .vsra .. => vsra _ _ _ _
  | .vcmp .. => vcmp _ _ _ _ _ | .vsel .. => vsel _ _ _ _ | .vcvt .. => vcvt _ _ _ _ _ _ | .vqnt .. => vqnt _ _ _ _ _ _
  | .vdq .. => vdq _ _ _ _ _ | .vbcast .. => vbcast _ _ _ | .vext .. => vext _ _ _ _ | .vextN .. => vextN _ _ _ _ | .vins .. => vins _ _ _ _
  | .vperm .. => vperm _ _ _ _ | .vslide .. => vslide _ _ _ _ | .viota .. => viota _ _ | .vmovi .. => vmovi _ _ _ | .vrsum .. => vrsum _ _ _
  | .vrmax .. => vrmax _ _ _ | .vrmaxN .. => vrmaxN _ _ _ | .vrmin .. => vrmin _ _ _ | .vrminN .. => vrminN _ _ _
  | .vtopk .. => vtopk _ _ _ _ | .vtopkN .. => vtopkN _ _ _ _ | .vrcp .. => vrcp _ _ _ | .vrsq .. => vrsq _ _ _ | .vsqrt .. => vsqrt _ _ _
  | .vdiv .. => vdiv _ _ _ _ | .vexp2 .. => vexp2 _ _ _ | .vlog2 .. => vlog2 _ _ _ | .vsinp .. => vsinp _ _ _ | .vcosp .. => vcosp _ _ _
  | .vtanh .. => vtanh _ _ _ | .wclr .. => wclr _ | .wacc .. => wacc _ _ _ | .waccp .. => waccp _ _ _ _ | .wrnd .. => wrnd _ _
  | .wsave .. => wsave _ _ | .wload .. => wload _ _ | .hacc .. => hacc _ _ _ _ | .hlook .. => hlook _ _ _ _ | .hclr .. => hclr _ _
  | .vldc .. => vldc _ _ | .vstc .. => vstc _ _ | .vwaitc .. => vwaitc _ | .mma .. => mma _ _ _ _ | .mmaM .. => mmaM _ _ _ _
  | .mzero .. => mzero _ _ | .mcopy .. => mcopy _ _ | .mldc .. => mldc _ _ | .mstc .. => mstc _ _ | .mspw .. => mspw _ _ _
  | .mspwM .. => mspwM _ _ _ _ | .ld .. => ld _ _ _ _ _ _ | .st .. => st _ _ _ _ _ | .ldl .. => ldl _ _ _ _ _ _ | .stl .. => stl _ _ _ _ _
  | .tld .. => tld _ _ _ _ | .tst .. => tst _ _ _ _ | .amoAdd .. => amoAdd _ _ _ _ _ _ | .amoAnd .. => amoAnd _ _ _ _ _ _
  | .amoOr .. => amoOr _ _ _ _ _ _ | .amoXor .. => amoXor _ _ _ _ _ _ | .amoMin .. => amoMin _ _ _ _ _ _ | .amoMax .. => amoMax _ _ _ _ _ _
  | .amoMinn .. => amoMinn _ _ _ _ _ _ | .amoMaxn .. => amoMaxn _ _ _ _ _ _ | .amoSwap .. => amoSwap _ _ _ _ _ _
  | .amoCas .. => amoCas _ _ _ _ _ _ | .amoFadd .. => amoFadd _ _ _ _ _ | .amoFmax .. => amoFmax _ _ _ _ _ | .redAdd .. => redAdd _ _ _ _ _
  | .redAnd .. => redAnd _ _ _ _ _ | .redOr .. => redOr _ _ _ _ _ | .redXor .. => redXor _ _ _ _ _ | .redMin .. => redMin _ _ _ _ _
  | .redMax .. => redMax _ _ _ _ _ | .redMinn .. => redMinn _ _ _ _ _ | .redMaxn .. => redMaxn _ _ _ _ _ | .redFadd .. => redFadd _ _ _ _
  | .redFmax .. => redFmax _ _ _ _ | .fence .. => fence _ | .cwb .. => cwb _ _ | .cinv .. => cinv _ _ | .pfx .. => pfx _ _
  | .cpy .. => cpy _ _ _ _ _ | .cpyt .. => cpyt _ _ _ _ _ | .fill .. => fill _ _ _ _ | .bkCpy .. => bkCpy _ _ _ | .bkFil .. => bkFil _ _ _
  | .bkAnd .. => bkAnd _ _ _ | .bkOr .. => bkOr _ _ _ | .bkXor .. => bkXor _ _ _ | .bkNot .. => bkNot _ _ _ | .bkMaj .. => bkMaj _ _ _
  | .ovld .. => ovld _ _ _ | .ovldGo .. => ovldGo _ _ _ | .prd .. => prd _ _ _ | .pwr .. => pwr _ _ _ | .ppush .. => ppush _ _ _
  | .pend => pend | .tqadd .. => tqadd _ | .tqtake .. => tqtake _ | .tqtry .. => tqtry _ | .tcmt => tcmt | .tdone => tdone
  | .tlbiRetire | .supervisorOpArrival | .supervisorReply | .parkRequestEffect | .barrierArrival | .barrierRelease | .barrierTimeout
  | .tstartReady | .texitRetire | .yieldWake | .gangForm | .gangTimeout | .flitArrival | .recvWake | .channelClaim | .monitorWake
  | .mwaitTimeout | .cntwWake | .inboxMessageArrival | .uiDelivery | .queueWake | .drawTileClaim | .drawTileLand | .bodyStart
  | .drawCompleteMessage | .tableChangeAck | .qldEntryArrival | .sfuStart | .sfuComplete | .cisternRowMove | .mldcPerform
  | .mspwEntryArrival | .operandArrival | .matrixStepStart | .matrixStepEnd | .multicastRegister | .multicastLaunch | .groupWatchdogExpiry
  | .wellStoreLand | .wellwinMirrorUpdate | .tileLockGrant | .redAck | .farAccessPerform | .sliceLineEvict | .tlbWalkComplete | .copyPiece
  | .copytRead | .copytWrite | .copyComplete | .bkProbeStart | .bkStep | .bkComplete | .ovldAccept | .ovldStatus | .overlayLoaded
  | .kernelLaunchStart | .pumpKernelSaveTimeout | .launchPageQueue | .zeroFillStep | .tqRequestPerform | .tqAnswer | .taskReinsert
  | .notifyWrite | .kernelNode | .copyNode | .nearMemoryNode | .configureNode | .conditionNode | .loopNode | .switchNode | .nodeComplete
  | .retiredUpdate | .timeSliceExpiry | .contextSave | .contextRestore | .contextComplete | .trapRecordWrite | .faultQueueWrite
  | .faultQueueAck | .create | .resize | .destroy | .key | .contextCreate | .contextDestroy | .fqconsWrite | .threadRead | .threadWrite
  | .threadResume | .attest | .hostMemAccess | .linkFailure | .fabricWindowActivate | .injectionWindowStart | .dbgHalt | .dbgRun | .dbgInvi
  | .dbgRead | .dbgWrite | .haltTriggerArrival | .coreHaltStop | .moduleReset | .readySet | .powerThrottle | .thermalHalt | .registerWrite
  | .illegalInstruction | .hashAccessComplete | .hostSnoop | .backInvalidateResponse | .linkFlitReplay => of_none _ rfl

end Sys2Proof.Laws.Roundtrip

namespace Sys2Proof

/-! ### Parcels -/

theorem parcelsOf_parcel (w : Nat) : parcelsOf 16 w = [BitVec.ofNat 16 w] := by simp [parcelsOf, fld]
theorem parcelsOf_word (w : Nat) : parcelsOf 32 w = [BitVec.ofNat 16 w, BitVec.ofNat 16 (w / 2 ^ 16)] := by
  simp [parcelsOf, fld, List.range_succ]

/-- A parcel whose bit 0 is 0 is an instruction by itself (R32, R33, R35). -/
theorem decode_parcel {w : Nat} {i : Instr} (even : w % 2 = 0) (low : w < 2 ^ 16) (reads : decodeParcel w = some i) (rest : List (BitVec 16)) :
    decode (parcelsOf 16 w ++ rest) = .ok (i, rest) := by
  have number : (BitVec.ofNat 16 w).toNat = w := by simpa using Nat.mod_eq_of_lt low
  simp [parcelsOf_parcel, decode, number, even, reads]
/-- One whose bit 0 is 1 begins a word of two parcels (R32, R39). -/
theorem decode_word {w : Nat} {i : Instr} (odd : w % 2 = 1) (low : w < 2 ^ 32) (reads : decodeWord w = some i) (rest : List (BitVec 16)) :
    decode (parcelsOf 32 w ++ rest) = .ok (i, rest) := by
  have bit : (BitVec.ofNat 16 w).toNat % 2 = 1 := by rw [BitVec.toNat_ofNat]; omega
  have number : (BitVec.ofNat 16 (w / 2 ^ 16)).toNat * 65536 + (BitVec.ofNat 16 w).toNat = w := by simp only [BitVec.toNat_ofNat]; omega
  simp only [parcelsOf_word, List.cons_append, List.nil_append, decode, bit, number, reads, Nat.one_ne_zero, if_false]

/-! ### Lengths -/

/-- What a decoder reads, if it reads anything, has n bytes. -/
def OfLength (n : Nat) (o : Option Instr) : Prop := ∀ i, o = some i → i.len = n
theorem OfLength.none (n : Nat) : OfLength n none := fun _ e => by cases e
theorem OfLength.some {n : Nat} {i : Instr} (len : i.len = n) : OfLength n (some i) := fun _ e => by cases e; exact len
theorem OfLength.ite {n : Nat} {c : Prop} [Decidable c] {a b : Option Instr} (ha : OfLength n a) (hb : OfLength n b) :
    OfLength n (if c then a else b) := by split <;> assumption

theorem decodeParcel_ofLength (w : Nat) : OfLength 2 (decodeParcel w) := by
  unfold decodeParcel
  refine .ite ?_ (.ite (.some rfl) (.ite (.some rfl) (.none 2)))
  split
  case h_17 => exact .none 2
  all_goals exact .some rfl
theorem decodeWord_ofLength (w : Nat) : OfLength 4 (decodeWord w) := by
  unfold decodeWord
  split
  case h_50 => exact .none 4
  all_goals
    simp only [decMajor01, decMajor02, decMajor03, decMajor04, decMajor05, decMajor06, decMajor07, decMajor08, decMajor09, decMajor0A,
      decMajor0B, decMajor0C, decMajor0D, decMajor0E, decMajor0F, decMajor10, decMajor11, decMajor12, decMajor13, decMajor14, decMajor15,
      decMajor16, decMajor17, decMajor18, decMajor19, decMajor1A, decMajor1B, decMajor1C, decMajor1D, decMajor1E, decMajor1F, decMajor20,
      decMajor21, decMajor22, decMajor23, decMajor24, decMajor25, decMajor26, decMajor27, decMajor28, decMajor29, decMajor2A, decMajor2B,
      decMajor2C, decMajor2D, decMajor2E, decMajor2F, decMajor30, decMajor31]
    repeat' refine OfLength.ite (.some rfl) ?_
  case h_2 | h_3 | h_4 | h_5 | h_7 | h_8 | h_10 | h_11 | h_12 | h_13 | h_14 | h_16 | h_18 => exact .some rfl
  all_goals exact .none 4

/-- What is read from a parcel with bit 0 clear is that parcel. -/
theorem decode_even {p : BitVec 16} {rest left : List (BitVec 16)} {i : Instr} (even : p.toNat % 2 = 0)
    (reads : decode (p :: rest) = .ok (i, left)) : decodeParcel p.toNat = some i ∧ left = rest := by
  simp only [decode, even, if_true] at reads
  split at reads
  next found =>
    cases reads
    exact ⟨found, rfl⟩
  next => cases reads
/-- What is read from one with bit 0 set is a word with the parcel behind it. -/
theorem decode_odd {p : BitVec 16} {rest left : List (BitVec 16)} {i : Instr} (odd : p.toNat % 2 = 1)
    (reads : decode (p :: rest) = .ok (i, left)) : (∃ w, decodeWord w = some i) ∧ left = rest.drop 1 := by
  simp only [decode, odd, Nat.one_ne_zero, if_false] at reads
  cases rest with
  | nil => cases reads
  | cons q rest =>
    dsimp only at reads
    split at reads
    next found =>
      cases reads
      exact ⟨⟨_, found⟩, rfl⟩
    next => split at reads <;> cases reads

end Sys2Proof

open Sys2Proof

/-- Settles O1: each word is decoded. -/
theorem decodedExamples : Obligations.DecodedExamples := by
  unfold Obligations.DecodedExamples
  decide +kernel

/-- Settles O2: the encoding is a parcel or a word by its bit 0, and the decoder of parcels or of words reads it. -/
theorem decodeOfEncode : Obligations.DecodeOfEncode := by
  intro i rest encoded wf
  obtain ⟨⟨n, w⟩, table⟩ := Option.isSome_iff_exists.mp encoded
  have parcels : encode i = parcelsOf n w := by simp [encode, table]
  rw [parcels]
  obtain ⟨rfl, even, low, reads⟩ | ⟨rfl, odd, low, reads⟩ := Laws.Roundtrip.statement i n w table wf
  · exact decode_parcel even low reads rest
  · exact decode_word odd low reads rest

/-- Settles O3: a parcel with bit 0 clear is an instruction of two bytes, one with bit 0 set begins one of four. -/
theorem lengthFromFirstParcel : Obligations.LengthFromFirstParcel := by
  intro p rest i left reads
  refine ⟨fun even => ?_, fun odd => ?_⟩
  · obtain ⟨found, behind⟩ := decode_even even reads
    exact ⟨behind, decodeParcel_ofLength _ i found⟩
  · obtain ⟨⟨w, found⟩, behind⟩ := decode_odd odd reads
    exact ⟨behind, decodeWord_ofLength w i found⟩
end

section
/-!
SUPPORT and O37. The lanewise and bitwise instructions: the operation that each puts into the common form of vector instructions.
-/

namespace Sys2Proof.Machine
open Spec (laneOf bitwiseOf operands)

/-- A 32-bit sum and difference of two lanes, wrapped (R33, R107). -/
theorem laneAdd_int (w m a b : Nat) : laneAdd (.int w) m a b = ((a + b) % 2 ^ w, 0) := by
  have cast : ((a : Int) + b) % ((2 ^ w : Nat) : Int) = (((a + b) % 2 ^ w : Nat) : Int) := by push_cast; rfl
  simp only [laneAdd, wrapLane, wrapTo, Elt.width]
  rw [cast, Int.toNat_natCast]
theorem laneSub_int {w : Nat} (m a : Nat) {b : Nat} (hb : b < 2 ^ w) : laneSub (.int w) m a b = ((a + 2 ^ w - b) % 2 ^ w, 0) := by
  have cast : ((a : Int) - b) % ((2 ^ w : Nat) : Int) = (((a + 2 ^ w - b) % 2 ^ w : Nat) : Int) := by
    rw [Int.natCast_emod, Nat.cast_sub (by omega), Nat.cast_add, ← Int.add_emod_right]
    congr 1
    ring
  simp only [laneSub, wrapLane, wrapTo, Elt.width]
  rw [cast, Int.toNat_natCast]

/-- Two operations agree on lanes of w bits. -/
def AgreeOnLanes (w : Nat) (g f : Nat → List Nat → Nat × Fl) : Prop := ∀ m l, (∀ k, l.getD k 0 < 2 ^ w) → g m l = f m l
theorem AgreeOnLanes.refl (w : Nat) (f : Nat → List Nat → Nat × Fl) : AgreeOnLanes w f f := fun _ _ _ => rfl

/-- A lanewise instruction is the common form, with an operation that agrees with the statement's. -/
theorem exec_of_laneOf {i : Instr} {rs : List Reg} {d : Reg} {w : Nat} {f : Nat → List Nat → Nat × Fl} (s : State)
    (found : laneOf i = some (rs, d, w, f)) :
    vectorUses i = (rs, some d) ∧ ∃ g, AgreeOnLanes w g f ∧ exec i s = lanewise i w s g := by
  unfold laneOf at found
  split at found <;> cases found
  case h_22 => exact ⟨rfl, fun m l => laneAdd (.int 32) m (l.getD 0 0) (l.getD 1 0), fun m l _ => laneAdd_int 32 m _ _, rfl⟩
  case h_23 => exact ⟨rfl, fun m l => laneSub (.int 32) m (l.getD 0 0) (l.getD 1 0), fun m l low => laneSub_int m _ (low 1), rfl⟩
  all_goals exact ⟨rfl, _, .refl _ _, rfl⟩
theorem exec_of_bitwiseOf {i : Instr} {rs : List Reg} {d : Reg} {f : VReg → VReg → VReg} (s : State) (found : bitwiseOf i = some (rs, d, f)) :
    vectorUses i = (rs, some d) ∧ exec i s = bitwise i s f := by
  unfold bitwiseOf at found
  split at found <;> cases found
  all_goals exact ⟨rfl, rfl⟩

/-- The lanes of the operands at one place, each of w bits. -/
theorem lanes_getD (w : Nat) (vs : List VReg) {k : Nat} (hk : k < 1024 / w) :
    (vs.map (lanesOf w)).map (·.getD k 0) = vs.map fun v => v.toNat / 2 ^ (w * k) % 2 ^ w := by
  rw [List.map_map]
  refine List.map_congr_left fun v _ => ?_
  rw [Function.comp_apply, lanesOf_getD, if_pos hk]
theorem lanes_low (w k : Nat) (vs : List VReg) (j : Nat) : (vs.map fun v => v.toNat / 2 ^ (w * k) % 2 ^ w).getD j 0 < 2 ^ w := by
  rw [List.getD_eq_getElem?_getD, List.getElem?_map]
  cases vs[j]? with
  | none => exact Nat.two_pow_pos w
  | some v => exact Nat.mod_lt _ (Nat.two_pow_pos w)

theorem lanewise_results {w : Nat} {g f : Nat → List Nat → Nat × Fl} (same : AgreeOnLanes w g f) (m : Nat) (vs : List VReg) :
    (List.range (1024 / w)).map (fun k => g m ((vs.map (lanesOf w)).map (·.getD k 0))) =
    (List.range (1024 / w)).map fun k => f m (vs.map fun v => v.toNat / 2 ^ (w * k) % 2 ^ w) :=
  List.map_congr_left fun k mem => by rw [lanes_getD w vs (List.mem_range.mp mem), same m _ (lanes_low w k vs)]

end Sys2Proof.Machine

open Sys2Proof Sys2Proof.Machine Sys2Proof.Spec

/-- What a lanewise instruction does: the statement for one of them. -/
theorem lanewise_spec {i : Instr} {s : State} {h w : Nat} {rs : List Reg} {d : Reg} {f : Nat → List Nat → Nat × Fl} (thread : s.cur = .thread h)
    (runs : Runs i s) (found : laneOf i = some (rs, d, w, f)) :
    let ls := (List.range (1024 / w)).map fun k => f (s.thread h).frm.toNat ((operands s h rs).map fun v => v.toNat / 2 ^ (w * k) % 2 ^ w)
    VecStops i s h false true 0 ∧ (headCheck i false = none → QueuesOpen s h i → VecCompletes i s h rs d (pack w (ls.map Prod.fst)) (ls.map Prod.snd)) := by
  obtain ⟨uses, g, same, run⟩ := exec_of_laneOf s found
  unfold lanewise at run
  have limit : (fun _ => none : State → Option (Nat × Word)) s = if true = true then none else some (2, 0) := rfl
  refine ⟨vectorInsn_stops thread runs run limit, fun passes opens => ?_⟩
  have completes := vectorInsn_completes thread runs run uses limit passes rfl opens
  simp only [State.self_of_thread thread, lanewise_results same] at completes
  exact completes
/-- What a bitwise one does. -/
theorem bitwise_spec {i : Instr} {s : State} {h : Nat} {rs : List Reg} {d : Reg} {f : VReg → VReg → VReg} (thread : s.cur = .thread h)
    (runs : Runs i s) (found : bitwiseOf i = some (rs, d, f)) :
    VecStops i s h false true 0 ∧ (headCheck i false = none → QueuesOpen s h i →
      VecCompletes i s h rs d (f ((operands s h rs).getD 0 0) ((operands s h rs).getD 1 0)) []) := by
  obtain ⟨uses, run⟩ := exec_of_bitwiseOf s found
  have limit : (fun _ => none : State → Option (Nat × Word)) s = if true = true then none else some (2, 0) := rfl
  exact ⟨vectorInsn_stops thread runs run limit, fun passes opens => vectorInsn_completes thread runs run uses limit passes rfl opens⟩

/-- Settles O37: each is the common form of vector instructions, with the operation on lanes or on registers that R33 and R149-R152 give it. -/
theorem lanewiseInstructions : Obligations.LanewiseInstructions := by
  intro i s h rs d thread runs vs
  refine ⟨?_, fun passes opens => ⟨fun w f found => (lanewise_spec thread runs found).2 passes opens,
    fun f found => (bitwise_spec thread runs found).2 passes opens⟩⟩
  rintro (found | found)
  · obtain ⟨⟨rs, d, w, f⟩, found⟩ := Option.isSome_iff_exists.mp found
    exact (lanewise_spec thread runs found).1
  · obtain ⟨⟨rs, d, f⟩, found⟩ := Option.isSome_iff_exists.mp found
    exact (bitwise_spec thread runs found).1
end

section
/-!
SUPPORT. Two states that statements about every state do not fit. O13 has CSRW leave the bits of a register that it does not write as they
were; a write of UIVEC clears them, which shows where they are not clear already. R48 keeps them clear, but the statement does not ask for
that. O57 has DBGACC write x24 of an interrupt handler as the handler reads it; the selector of R69 names the thread's own x24, and the
handler reads the shadow register (R45).
-/

namespace Sys2Proof.Machine

/-- Access thread 0 with bit 0 of UIVEC set, which every write of UIVEC leaves clear (R48). -/
def oddVectorState : State :=
  { State.reset with
    agenda := []
    cur := .thread 0
    threads := [(0, { run := .ready, uivec := 1 })] }
/-- CSRW of x0 to UIVEC clears bit 0 too. -/
theorem oddVectorState_cleared (t : State) (run : exec (.csrw 0x020 0) oddVectorState = .next t) : t.csrRead 0 0x020 = 0 := by
  have cleared : (match exec (.csrw 0x020 0) oddVectorState with | .next t => t.csrRead 0 0x020 | _ => 1) = 0 := by decide
  rwa [run] at cleared

/-- A halted cluster whose access thread 0 runs an interrupt handler, and a write of 1 to its x24 by DBGACC. -/
def haltedHandlerState : State :=
  { State.reset with
    agenda := []
    ev := some (.dbgWrite 0)
    threads := [(0, { run := .ready, uiAct := true, dbgStop := true })]
    clusters := [(0, { dbg := { halted := true, hnd := 0, sel := 24, val := 1 } })] }
/-- The thread's own x24 is written, and the handler's is as before. -/
theorem haltedHandlerState_kept (t : State) (run : exec .dbgWrite haltedHandlerState = .next t) : (t.thread 0).getX 24 = 0 := by
  have kept : (match exec .dbgWrite haltedHandlerState with | .next t => (t.thread 0).getX 24 | _ => 1) = 0 := by decide
  rwa [run] at kept

end Sys2Proof.Machine

open Sys2Proof Sys2Proof.Machine Sys2Proof.Spec

/-- Refutes O13: a CSRW to UIVEC clears the bits that it is to leave as they were, in a state in which one of them is set. -/
theorem not_controlRegisterInstructions : ¬ Obligations.ControlRegisterInstructions := by
  intro controls
  obtain ⟨_, accesses, _⟩ := controls oddVectorState 0 0x020 rfl
  have holds : HoldsCsr 0 0x020 := ⟨fun _ => by decide, fun no => absurd no (by decide)⟩
  have level : LevelCsr oddVectorState 0 0x020 := fun no => absurd no (by decide)
  obtain ⟨_, writes⟩ := accesses holds level
  obtain ⟨t, run, _, _, _, _, _, _, leaves, _⟩ := (writes (fun no => absurd no (by decide)) 0).1 (by decide)
  have cleared := oddVectorState_cleared t run
  have kept : t.csrRead 0 0x020 = 1 := leaves.trans (by decide)
  exact absurd (cleared.symm.trans kept) (by decide)

/-- Refutes O57: a write by DBGACC of x24 of a thread that runs an interrupt handler is not what the handler reads in x24. -/
theorem not_debugAndBringUp : ¬ Obligations.DebugAndBringUp := by
  intro ⟨_, accesses, _, _⟩
  obtain ⟨_, write⟩ := accesses haltedHandlerState 0
  obtain ⟨_, _, writesRegister⟩ := write rfl
  obtain ⟨t, run, _, _, written⟩ := writesRegister rfl rfl (by decide) (by decide) (by decide)
  have kept := haltedHandlerState_kept t run
  have reads : (t.thread 0).getX 24 = 1 := written 24
  exact absurd (kept.symm.trans reads) (by decide)
end

section
/-!
SUPPORT. What an instruction of a thread or of a kernel core comes to, whichever issues it: its checks, its place, and what it leaves alone.
-/

namespace Sys2Proof.Machine
open Spec (RegsOnly Counted Moved Runs WritesNone)

/-! ### Checks -/

section
variable {i : Instr} {s : State} {pre : State → Option (Nat × Word)} {f : State → State} (runs : Runs i s)
include runs
/-- An instruction that every check lets through has its own effect, on either kind of agent. -/
theorem checkedBy_goesOn (passes : pre s = none) : checkedBy i pre s f = .next (f s) := by
  cases agent : s.cur with
  | thread h => exact checkedBy_runs agent runs passes
  | pump c =>
    simp only [Runs, agent, Bool.and_eq_true] at runs
    exact checkedBy_pump i pre s f c agent runs.2 runs.1 passes
/-- One that its own checks refuse raises their cause. -/
theorem checkedBy_refuses {cause : Nat} {v : Word} (fails : pre s = some (cause, v)) : checkedBy i pre s f = .next (s.trap cause v) := by
  cases agent : s.cur with
  | thread h => rw [checkedBy_traps agent runs fails, State.trap_thread s h cause v agent]
  | pump c =>
    simp only [Runs, agent, Bool.and_eq_true] at runs
    obtain ⟨role, wf⟩ := runs
    simp [checkedBy, agent, wf, role, fails]
theorem raises_of_check {cause : Nat} {v : Word} (run : exec i s = checkedBy i pre s f) (fails : pre s = some (cause, v)) :
    Spec.Raises i s cause v := by
  rw [Spec.Raises, run, checkedBy_refuses runs fails]
  rfl
end

/-! ### The sequencer -/

section
variable (s : State) (f : Seq → Seq)
@[simp] theorem State.modSeq_seq : (s.modSeq f).seq = f s.seq := by
  cases agent : s.cur <;> simp [State.modSeq, State.seq, agent]
@[simp] theorem State.count_seq : s.count.seq = s.seq := by
  cases agent : s.cur <;> simp [State.count, State.seq, agent]
@[simp] theorem State.pass_seq (n : Nat) : (s.pass n).seq = s.seq.pass n := by simp [State.pass]
theorem State.modSeq_getX (same : (f s.seq).x = s.seq.x) (r : Reg) : (s.modSeq f).getX r = s.getX r := by
  cases agent : s.cur with
  | thread h =>
    simp only [State.seq, agent] at same
    simp only [State.modSeq, State.getX, agent, State.modThread_cur, State.modThread_thread_same]
    exact Thread.getX_congr (t := { s.thread h with seq := f (s.thread h).seq }) (u := s.thread h) same rfl rfl r
  | pump c =>
    simp only [State.seq, agent] at same
    simp [State.modSeq, State.getX, agent, Seq.get, same]
end

/-! ### What stays as it is -/

section
variable {s t u : State}
theorem regsOnly_trans (cur : t.cur = s.cur) (first : RegsOnly s t) (second : RegsOnly t u) : RegsOnly s u := by
  obtain ⟨mem, first⟩ := first
  obtain ⟨mem', second⟩ := second
  refine ⟨fun a => (mem' a).trans (mem a), ?_⟩
  rw [cur] at second
  cases agent : s.cur with
  | thread h =>
    simp only [agent] at first second ⊢
    obtain ⟨only, own, pend⟩ := first
    obtain ⟨only', own', pend'⟩ := second
    exact ⟨threadOnly_trans only only', by rw [own', own], fun x mem => pend x (pend' x mem)⟩
  | pump c =>
    simp only [agent] at first second ⊢
    obtain ⟨frame, others, own, pend⟩ := first
    obtain ⟨frame', others', own', pend'⟩ := second
    exact ⟨by rw [frame', frame], fun g other => (others' g other).trans (others g other), by rw [own', own], fun x mem => pend x (pend' x mem)⟩
theorem regsOnly_of_thread {h : Nat} (agent : s.cur = .thread h) (mem : t.mem = s.mem) (only : Spec.ThreadOnly h s t)
    (own : t.thread h = { s.thread h with seq := (t.thread h).seq, shadow := (t.thread h).shadow, instret := (t.thread h).instret,
                                          pend := (t.thread h).pend })
    (pend : ∀ x, x ∈ (t.thread h).pend → x ∈ (s.thread h).pend) : RegsOnly s t := by
  refine ⟨fun a => by rw [mem], ?_⟩
  split
  next g thread =>
    cases agent.symm.trans thread
    exact ⟨only, own, pend⟩
  next c pump => cases agent.symm.trans pump
theorem regsOnly_of_pump {c : Nat} (agent : s.cur = .pump c) (frame : t = { s with pumps := t.pumps }) (others : ∀ g, g ≠ c → t.pump g = s.pump g)
    (own : t.pump c = { s.pump c with seq := (t.pump c).seq, pend := (t.pump c).pend })
    (pend : ∀ x, x ∈ (t.pump c).pend → x ∈ (s.pump c).pend) : RegsOnly s t := by
  refine ⟨fun a => by rw [frame], ?_⟩
  split
  next g thread => cases agent.symm.trans thread
  next g pump =>
    cases agent.symm.trans pump
    exact ⟨frame, others, own, pend⟩
theorem State.modSeq_of_thread {h : Nat} (thread : s.cur = .thread h) (f : Seq → Seq) :
    s.modSeq f = s.modThread h fun t => { t with seq := f t.seq } := by simp [State.modSeq, thread]
theorem State.modSeq_of_pump {c : Nat} (pump : s.cur = .pump c) (f : Seq → Seq) :
    s.modSeq f = s.modPump c fun p => { p with seq := f p.seq } := by simp [State.modSeq, pump]
theorem State.count_of_thread {h : Nat} (thread : s.cur = .thread h) : s.count = s.modThread h fun t => { t with instret := t.instret + 1 } := by
  simp [State.count, thread]
theorem State.count_of_pump {c : Nat} (pump : s.cur = .pump c) : s.count = s := by simp [State.count, pump]
theorem regsOnly_modSeq (s : State) (f : Seq → Seq) : RegsOnly s (s.modSeq f) := by
  cases agent : s.cur with
  | thread h =>
    rw [State.modSeq_of_thread agent]
    refine regsOnly_of_thread agent rfl (threadOnly_modThread h s _) ?_ ?_ <;> rw [State.modThread_thread_same]
    exact fun _ mem => mem
  | pump c =>
    rw [State.modSeq_of_pump agent]
    refine regsOnly_of_pump agent rfl (fun g other => by rw [State.modPump_pump, if_neg other]) ?_ ?_ <;> rw [State.modPump_pump_same]
    exact fun _ mem => mem
theorem regsOnly_count (s : State) : RegsOnly s s.count := by
  cases agent : s.cur with
  | thread h =>
    rw [State.count_of_thread agent]
    refine regsOnly_of_thread agent rfl (threadOnly_modThread h s _) ?_ ?_ <;> rw [State.modThread_thread_same]
    exact fun _ mem => mem
  | pump c =>
    rw [State.count_of_pump agent]
    exact regsOnly_of_pump agent rfl (fun _ _ => rfl) rfl fun _ mem => mem
theorem regsOnly_pass (s : State) (n : Nat) : RegsOnly s (s.pass n) :=
  regsOnly_trans (State.modSeq_cur ..) (regsOnly_modSeq s _) (regsOnly_count _)

/-! ### What passing does -/

theorem counted_pass (s : State) (n : Nat) : Counted s (s.pass n) := fun h thread => by rw [State.pass_thread n thread]
theorem counted_modSeq (cur : t.cur = s.cur) (f : Seq → Seq) (counted : Counted s t) : Counted s (t.modSeq f) := fun h thread => by
  rw [← counted h thread]
  simp [State.modSeq, cur.trans thread]
/-- The sequencer stands behind the instruction if it has passed it; what is annulled does not matter (R38, R44). -/
theorem moved_of_seq {n : Nat} (seq : t.seq = { s.seq.pass n with skip := t.seq.skip }) : Moved n s t := by
  simp only [Moved, State.pc]
  rw [seq]
  unfold Seq.pass
  cases s.seq.rptRun with
  | none => exact ⟨rfl, rfl, rfl⟩
  | some r => by_cases last : s.seq.rpt.toNat ≤ 1 <;> simp [last]
theorem passed_pass (s : State) (n : Nat) : Spec.Passed n s (s.pass n) :=
  ⟨counted_pass s n, by rw [State.pass_seq, Seq.pass_skip], moved_of_seq (by rw [State.pass_seq])⟩
theorem pass_writesNone (s : State) (n : Nat) : WritesNone s (s.pass n) := s.pass_getX n
end

end Sys2Proof.Machine
end

section
/-!
SUPPORT and O16. The conditions of SK and SKI, and what is annulled.
-/

namespace Sys2Proof.Machine
open Spec (condRef Runs WritesNone RegsOnly Counted Moved)

/-- The conditions of R41 on numbers. -/
theorem cond_iff (c : BitVec 3) (a b : Word) : cond c a b = true ↔ condRef c a b := by
  have bit : a.getLsbD (b.toNat % 64) = decide (a.toNat / 2 ^ (b.toNat % 64) % 2 = 1) := Nat.testBit_eq_decide_div_mod_eq
  have cases : c = 0 ∨ c = 1 ∨ c = 2 ∨ c = 3 ∨ c = 4 ∨ c = 5 ∨ c = 6 ∨ c = 7 := by
    revert c
    decide
  rcases cases with rfl | rfl | rfl | rfl | rfl | rfl | rfl | rfl
  · simp [cond, condRef]
  · simp [cond, condRef]
  · simp [cond, condRef, BitVec.slt]
  · simp [cond, condRef, BitVec.slt]
  · simp [cond, condRef, BitVec.ult]
  · simp [cond, condRef, BitVec.ult]
  · simp [cond, condRef, bit]
  · simp [cond, condRef, bit]

/-- A compare-skip passes, and annuls what follows if its condition holds (R57). -/
theorem compareSkip_spec {i : Instr} {s : State} {k : BitVec 2} {c : BitVec 3} {a b : Word} (run : exec i s = compareSkip i k c s a b)
    (runs : Runs i s) : ∃ t, exec i s = .next t ∧ WritesNone s t ∧ RegsOnly s t ∧ Counted s t ∧ Moved 4 s t ∧
      (condRef c a b → t.seq.skip = k) ∧ (¬ condRef c a b → t.seq.skip = s.seq.skip) := by
  unfold compareSkip checked at run
  refine ⟨_, run.trans (checkedBy_goesOn runs rfl), ?_⟩
  by_cases holds : condRef c a b
  · dsimp only
    rw [if_pos ((cond_iff c a b).mpr holds)]
    refine ⟨fun r => ?_, regsOnly_trans (State.pass_cur ..) (regsOnly_pass s 4) (regsOnly_modSeq _ _),
      counted_modSeq (State.pass_cur ..) _ (counted_pass s 4), moved_of_seq (by rw [State.modSeq_seq, State.pass_seq]),
      fun _ => by rw [State.modSeq_seq], fun fails => absurd holds fails⟩
    rw [State.modSeq_getX _ _ rfl, State.pass_getX]
  · dsimp only
    rw [if_neg fun met => holds ((cond_iff c a b).mp met)]
    obtain ⟨counted, skip, moved⟩ := passed_pass s 4
    exact ⟨pass_writesNone s 4, regsOnly_pass s 4, counted, moved, fun met => absurd met holds, fun _ => skip⟩

/-- While instructions are annulled, the next one is (R44). -/
theorem State.nextInsn_of_skip {s : State} (annuls : s.seq.skip ≠ 0) (once : s.seq.rptRun = none) : s.nextInsn = s.annul := by
  unfold State.nextInsn
  dsimp only
  rw [if_pos (Bool.and_eq_true_iff.mpr ⟨decide_eq_true annuls, by rw [once]; rfl⟩)]

end Sys2Proof.Machine

open Sys2Proof Sys2Proof.Machine Sys2Proof.Spec

theorem compareSkips : CompareSkips := by
  intro s a k c skips
  exact ⟨fun b => compareSkip_spec rfl, fun n => compareSkip_spec rfl⟩

theorem annulledInstructionIsPassed : AnnulledInstructionIsPassed := by
  intro s u lo b annuls once fetched passes
  have next := State.nextInsn_of_skip annuls once
  unfold State.annul at next
  simp only [fetched] at next
  refine ⟨fun even single => ?_, fun hi y v odd second => ?_, fun x y v even rpt second => ⟨fun short => ?_, fun hi z w long third => ?_⟩⟩
  · exact next.trans ((if_neg (by simp [single])).trans (if_pos even))
  · refine next.trans ((if_neg (by simp [odd])).trans ((if_neg (by omega)).trans ?_))
    rw [second]
  all_goals
    refine next.trans ((if_pos (by simp [even, rpt])).trans ?_)
    rw [second]
  · exact if_pos short
  · refine (if_neg (by omega)).trans ?_
    rw [third]

/-- Settles O16: SK and SKI annul by their condition, and an annulled instruction is only counted. -/
theorem skipsAndAnnulment : Obligations.SkipsAndAnnulment := ⟨compareSkips, annulledInstructionIsPassed⟩
end

section
/-!
SUPPORT and O17. What RPT accepts as its target, and what it leaves its target to do.
-/

namespace Sys2Proof.Machine
open Spec (Runs Completes Raises WritesNone RegsOnly neverRepeated Result)

/-- An instruction that only passes has no result and no other effect. -/
theorem result_of_pass {i : Instr} {s : State} {n : Nat} (run : exec i s = checked i s fun s => s.pass n) (len : i.len = n) (runs : Runs i s) :
    Result i s 0 0 := by
  unfold checked at run
  subst len
  refine ⟨_, run.trans (checkedBy_goesOn runs rfl), fun r => ?_, passed_pass s _, regsOnly_pass s _⟩
  rw [State.pass_getX, if_neg fun both => both.2 both.1]

/-! ### Targets of RPT -/

theorem rptFields_of_neverRepeated {i : Instr} (never : neverRepeated i = true) : i.rptFields = none := by
  cases i
  case sk | ski | bCc | br | call | jalr | loop | ibx | ibxn | uien | uiret | tstart | texit | yield | gang | ungang | tqadd | tqtake | tqtry |
    tcmt | tdone | nop | trap | bkpt | fencei | eret | halt | tlbi | tresume | tstatr | tstatw | rpt | nop16 | bdone => rfl
  all_goals exact absurd never Bool.false_ne_true
/-- The targets that R37 refuses. -/
theorem rptTargetOk_none {pump : Bool} {r : RptRun} {parcel : Bool} {w : Nat} (nothing : decodeInsn parcel w = none) :
    rptTargetOk pump r parcel w = false := by
  unfold rptTargetOk
  rw [nothing]
theorem rptTargetOk_some {pump : Bool} {r : RptRun} {parcel : Bool} {w : Nat} {i : Instr} (found : decodeInsn parcel w = some i) :
    rptTargetOk pump r parcel w = (if i = .pend then !pump && stepOk .pend r else i.wf && stepOk i r) := by
  unfold rptTargetOk
  rw [found]
  split
  next e =>
    cases e
    rfl
  next other e =>
    cases e
    exact (if_neg other).symm
  next e => cases e
theorem rptTargetOk_refused {pump : Bool} {r : RptRun} {parcel : Bool} {w : Nat} {i : Instr} (found : decodeInsn parcel w = some i)
    (refused : neverRepeated i = true ∨ i.wf = false ∧ i ≠ .pend ∨ i = .pend ∧ pump = true) : rptTargetOk pump r parcel w = false := by
  rw [rptTargetOk_some found]
  rcases refused with never | ⟨wf, other⟩ | ⟨rfl, rfl⟩
  · have fixed : stepOk i r = false := by simp [stepOk, rptFields_of_neverRepeated never]
    have other : i ≠ .pend := by
      rintro rfl
      exact absurd never Bool.false_ne_true
    simp [other, fixed]
  · simp [other, wf]
  · rfl

/-! ### RPT -/

/-- The repeats that are left as an RPT issues: all of them, or those that REMAIN counts (R38). -/
theorem rptLeft_toNat (left : BitVec 7) (n : BitVec 6) :
    (if left = 0 then BitVec.ofNat 7 (n.toNat + 1) else left).toNat = if left = 0 then n.toNat + 1 else left.toNat := by
  split
  · have low : n.toNat < 64 := n.isLt
    rw [BitVec.toNat_ofNat]
    omega
  · rfl
/-- What an RPT does that its checks let through: the repeats are to issue, and the agent stays where it is (R36). -/
theorem rpt_sets (s : State) (run : RptRun) (left : BitVec 7 → BitVec 7) :
    let t := s.modSeq fun q => { q with rptRun := some run, rpt := left q.rpt }
    WritesNone s t ∧ RegsOnly s t ∧ t.pc = s.pc ∧ t.seq.rptRun = some run ∧ t.seq.skip = s.seq.skip ∧ t.seq.rpt = left s.seq.rpt ∧
      ∀ h, s.cur = .thread h → (t.thread h).instret = (s.thread h).instret := by
  refine ⟨fun r => State.modSeq_getX _ _ rfl r, regsOnly_modSeq s _, ?_, ?_, ?_, ?_, fun h thread => ?_⟩
  · simp only [State.pc, State.modSeq_seq]
  · rw [State.modSeq_seq]
  · rw [State.modSeq_seq]
  · rw [State.modSeq_seq]
  · rw [State.modSeq_of_thread thread, State.modThread_thread_same]

end Sys2Proof.Machine

open Sys2Proof Sys2Proof.Machine Sys2Proof.Spec

theorem idleInstructionsAndRepeat : IdleInstructionsAndRepeat := by
  intro s
  refine ⟨result_of_pass rfl rfl, result_of_pass rfl rfl, fun p q r n runs => ?_⟩
  intro target w run pump ok
  have exec_rpt : exec (.rpt p q r n) s = execRpt p q r n s := rfl
  unfold execRpt at exec_rpt
  refine ⟨fun refused => ?_, fun accepted beyond => ?_, rptTargetOk_none, fun i => rptTargetOk_refused, fun accepted within => ?_⟩
  · exact raises_of_check runs exec_rpt (if_pos (Bool.not_eq_true' _ ▸ refused))
  · exact raises_of_check runs exec_rpt ((if_neg (by rw [show rptTargetOk _ _ _ _ = true from accepted]; simp)).trans (if_pos beyond))
  · refine ⟨_, exec_rpt.trans (checkedBy_goesOn runs ?_), ?_⟩
    · exact (if_neg (by rw [show rptTargetOk _ _ _ _ = true from accepted]; simp)).trans (if_neg (by omega))
    · obtain ⟨writes, regs, pc, repeats, skip, left, instret⟩ := rpt_sets s run fun left => if left = 0 then BitVec.ofNat 7 (n.toNat + 1) else left
      exact ⟨writes, regs, pc, repeats, skip, (congrArg BitVec.toNat left).trans (rptLeft_toNat _ n), instret⟩

theorem trappingInstructions : TrappingInstructions := by
  intro s h _ thread
  have traps (cause : Nat) (v : Word) : Trapped h cause v s (s.trap cause v) := by
    rw [State.trap_thread s h cause v thread]
    exact trapped_of_trap s h cause v
  have exec_trap (a : Reg) : exec (.trap a) s = execTrap a s := rfl
  have exec_bkpt : exec .bkpt s = execBkpt s := rfl
  unfold execTrap checked at exec_trap
  unfold execBkpt checked at exec_bkpt
  refine ⟨fun a runs => ⟨_, (exec_trap a).trans (checkedBy_goesOn runs rfl), traps _ _⟩,
    fun runs => ⟨_, exec_bkpt.trans (checkedBy_goesOn runs rfl), traps _ _⟩, fun issues => ⟨s.trap 1 0, ?_, traps _ _⟩⟩
  have none : ¬ s.ev.isSome = true := by simp [issues]
  exact congrArg Host.Outcome.next (if_neg none)

/-- Settles O17: NOP and NOP16 pass, RPT leaves its target to issue its repeats or refuses it, and the others trap. -/
theorem idleAndTrappingInstructions : Obligations.IdleAndTrappingInstructions := ⟨idleInstructionsAndRepeat, trappingInstructions⟩
end

section
/-!
SUPPORT and O10. The values of the integer instructions as arithmetic on numbers, and what an instruction does whose whole effect is a
register result.
-/

namespace Sys2Proof.Machine
open Spec (RegsOnly Counted Moved Runs Writes Result Passed aluRef)

/-! ### Sums, products, quotients -/

theorem add_eq_ofInt (a b : Word) : a + b = BitVec.ofInt 64 (a.toInt + b.toInt) := by
  rw [BitVec.ofInt_add, BitVec.ofInt_toInt, BitVec.ofInt_toInt]
theorem sub_eq_ofInt (a b : Word) : a - b = BitVec.ofInt 64 (a.toInt - b.toInt) :=
  BitVec.eq_of_toInt_eq (by rw [BitVec.toInt_sub, BitVec.toInt_ofInt])
theorem mul_eq_ofInt (a b : Word) : a * b = BitVec.ofInt 64 (a.toInt * b.toInt) := by
  rw [BitVec.ofInt_mul, BitVec.ofInt_toInt, BitVec.ofInt_toInt]
/-- The quotient that does not fit, of R52: the operands as bits and as numbers. -/
theorem overflows_iff (a b : Word) : (a = BitVec.intMin 64 ∧ b = BitVec.allOnes 64) ↔ (a.toInt = -2 ^ 63 ∧ b.toInt = -1) := by
  have least : (BitVec.intMin 64).toInt = -2 ^ 63 := by decide
  have minusOne : (BitVec.allOnes 64).toInt = -1 := by decide
  rw [← least, ← minusOne, BitVec.toInt_inj, BitVec.toInt_inj]
theorem divS_eq (a b : Word) : divS a b = if b = 0 then BitVec.ofInt 64 (-1)
    else if a.toInt = -2 ^ 63 ∧ b.toInt = -1 then BitVec.ofInt 64 (-2 ^ 63) else BitVec.ofInt 64 (a.toInt.tdiv b.toInt) := by
  simp only [divS, overflows_iff]
  rfl
theorem remS_eq (a b : Word) : remS a b = if b = 0 then a
    else if a.toInt = -2 ^ 63 ∧ b.toInt = -1 then 0 else BitVec.ofInt 64 (a.toInt - a.toInt.tdiv b.toInt * b.toInt) := by
  simp only [remS, overflows_iff]
theorem eq_word_of_toNat {a : Word} {n : Nat} (e : a.toNat = n) : a = word n := by
  rw [← e, word, BitVec.ofNat_toNat, BitVec.setWidth_eq]
theorem divN_eq (a b : Word) : divN a b = if b = 0 then word (2 ^ 64 - 1) else word (a.toNat / b.toNat) := by
  rw [divN, eq_word_of_toNat (BitVec.toNat_udiv (x := a) (y := b))]
  rfl
theorem remN_eq (a b : Word) : remN a b = if b = 0 then a else word (a.toNat % b.toNat) := by
  rw [remN, eq_word_of_toNat (BitVec.toNat_umod (x := a) (y := b))]

/-! ### Shifts and rotations -/

theorem shCount_eq (b : Word) : shCount b = b.toNat % 64 := by simp [shCount, wfield, field]
theorem shCount_lt (b : Word) : shCount b < 64 := by
  rw [shCount_eq]
  exact Nat.mod_lt _ (by decide)
theorem shiftLeft_eq_word (a : Word) (n : Nat) : a <<< n = word (a.toNat * 2 ^ n) :=
  BitVec.eq_of_toNat_eq (by rw [BitVec.toNat_shiftLeft, Nat.shiftLeft_eq, word, BitVec.toNat_ofNat])
theorem ushiftRight_eq_word (a : Word) (n : Nat) : a >>> n = word (a.toNat / 2 ^ n) :=
  eq_word_of_toNat (by rw [BitVec.toNat_ushiftRight, Nat.shiftRight_eq_div_pow])
theorem sshiftRight_eq_ofInt (a : Word) (n : Nat) : a.sshiftRight n = BitVec.ofInt 64 (a.toInt / 2 ^ n) := by
  rw [BitVec.sshiftRight_eq, Int.shiftRight_eq_div_pow]
  push_cast
  rfl
/-- What a rotation brings to either end does not meet: the halves add up. -/
theorem shiftLeft_or_ushiftRight (a : Word) {m n : Nat} (whole : m + n = 64) : a <<< m ||| a >>> n = word (a.toNat * 2 ^ m + a.toNat / 2 ^ n) := by
  have apart : a <<< m &&& a >>> n = 0#64 := by
    ext i low
    simp only [BitVec.getElem_and, BitVec.getElem_shiftLeft, BitVec.getElem_ushiftRight, BitVec.getElem_zero]
    by_cases below : i < m
    · simp [below]
    · simp [BitVec.getLsbD_of_ge a (n + i) (by omega)]
  rw [← BitVec.add_eq_or_of_and_eq_zero _ _ apart, shiftLeft_eq_word, ushiftRight_eq_word, word, word, word, ← BitVec.ofNat_add]
theorem rotl_eq (a : Word) (n : Nat) (low : n < 64) : rotl a n = word (a.toNat * 2 ^ n + a.toNat / 2 ^ (64 - n)) := by
  rw [rotl, BitVec.rotateLeft_def, Nat.mod_eq_of_lt low, shiftLeft_or_ushiftRight a (by omega)]
theorem rotr_eq (a : Word) (n : Nat) (low : n < 64) : rotr a n = word (a.toNat / 2 ^ n + a.toNat * 2 ^ (64 - n)) := by
  rw [rotr, BitVec.rotateRight_def, Nat.mod_eq_of_lt low, BitVec.or_comm, shiftLeft_or_ushiftRight a (by omega), Nat.add_comm]

/-! ### Comparisons -/

theorem slt_iff (a b : Word) : a.slt b = true ↔ a.toInt < b.toInt := by simp [BitVec.slt]
theorem ult_iff (a b : Word) : a.ult b = true ↔ a.toNat < b.toNat := by simp [BitVec.ult]
theorem boolWord_slt (a b : Word) : boolWord (a.slt b) = if a.toInt < b.toInt then 1 else 0 := by simp only [boolWord, slt_iff]
theorem boolWord_ult (a b : Word) : boolWord (a.ult b) = if a.toNat < b.toNat then 1 else 0 := by simp only [boolWord, ult_iff]
theorem minS_eq (a b : Word) : minS a b = if b.toInt < a.toInt then b else a := by simp only [minS, slt_iff]
theorem maxS_eq (a b : Word) : maxS a b = if a.toInt < b.toInt then b else a := by simp only [maxS, slt_iff]
theorem minN_eq (a b : Word) : minN a b = if b.toNat < a.toNat then b else a := by simp only [minN, ult_iff]
theorem maxN_eq (a b : Word) : maxN a b = if a.toNat < b.toNat then b else a := by simp only [maxN, ult_iff]

/-! ### Counts of bits -/

/-- The leading zeros of the low n bits, by the first bit from above that is set. -/
theorem clzBelow_eq (a : Word) (n : Nat) : clzBelow a n = ((List.range n).find? fun k => a.getLsbD (n - 1 - k)).getD n := by
  induction n with
  | zero => rfl
  | succ n ih =>
    rw [clzBelow, List.range_succ_eq_map, List.find?_cons]
    cases top : a.getLsbD n with
    | true => simp [top]
    | false =>
      have shifted : ((fun k => a.getLsbD (n + 1 - 1 - k)) ∘ Nat.succ) = fun k => a.getLsbD (n - 1 - k) :=
        funext fun k => congrArg a.getLsbD (by simp only [Nat.succ_eq_add_one]; omega)
      simp only [Nat.add_sub_cancel, Nat.sub_zero, top, Bool.false_eq_true, if_false, List.find?_map]
      simp only [Nat.add_sub_cancel] at shifted
      rw [ih, shifted]
      cases (List.range n).find? fun k => a.getLsbD (n - 1 - k) <;> rfl
/-- The trailing zeros of the high n bits, by the first bit from below that is set. -/
theorem ctzFrom_eq (a : Word) (n : Nat) (inside : n ≤ 64) : ctzFrom a n = ((List.range n).find? fun k => a.getLsbD (64 - n + k)).getD n := by
  induction n with
  | zero => rfl
  | succ n ih =>
    have first : 64 - (n + 1) + 0 = 63 - n := by omega
    have shifted : ((fun k => a.getLsbD (64 - (n + 1) + k)) ∘ Nat.succ) = fun k => a.getLsbD (64 - n + k) :=
      funext fun k => congrArg a.getLsbD (by simp only [Nat.succ_eq_add_one]; omega)
    rw [ctzFrom, List.range_succ_eq_map, List.find?_cons, List.find?_map, shifted, first, ih (by omega)]
    cases a.getLsbD (63 - n) with
    | true => rfl
    | false => cases (List.range n).find? fun k => a.getLsbD (64 - n + k) <;> rfl
theorem popBelow_eq (a : Word) (n : Nat) : popBelow a n = ((List.range n).filter fun k => a.getLsbD k).length := by
  induction n with
  | zero => rfl
  | succ n ih =>
    rw [popBelow, ih, List.range_succ, List.filter_append, List.length_append]
    cases bit : a.getLsbD n <;> simp [bit, b2n]

theorem clz_eq (a : Word) : clz a = word (((List.range 64).find? fun k => a.getLsbD (63 - k)).getD 64) := congrArg word (clzBelow_eq a 64)
theorem ctz_eq (a : Word) : ctz a = word (((List.range 64).find? fun k => a.getLsbD k).getD 64) := by
  rw [ctz, ctzFrom_eq a 64 (Nat.le_refl _)]
  simp only [Nat.sub_self, Nat.zero_add]
theorem popc_eq (a : Word) : popc a = word ((List.range 64).filter fun k => a.getLsbD k).length := congrArg word (popBelow_eq a 64)

/-! ### Extensions, bit fields, bytes -/

theorem zextLow_eq (n : Nat) (a : Word) (inside : n ≤ 64) : zextLow n a = word (a.toNat % 2 ^ n) := by
  have low : a.toNat % 2 ^ n < 2 ^ 64 := Nat.lt_of_lt_of_le (Nat.mod_lt _ (Nat.two_pow_pos n)) (Nat.pow_le_pow_right (by decide) inside)
  refine eq_word_of_toNat ?_
  rw [zextLow, BitVec.toNat_setWidth, BitVec.toNat_setWidth, Nat.mod_eq_of_lt low]
theorem bfPos_eq (b : Word) : bfPos b = b.toNat % 64 := by simp [bfPos, wfield, field]
theorem bfLen_eq (b : Word) : bfLen b = b.toNat / 2 ^ 8 % 64 + 1 := by simp [bfLen, wfield, field]
theorem bfLen_le (b : Word) : bfLen b ≤ 64 := by
  rw [bfLen_eq]
  omega
theorem bfMask_toNat {len : Nat} (inside : len ≤ 64) : (bfMask len).toNat = 2 ^ len - 1 := by
  have bound : 2 ^ len ≤ 2 ^ 64 := Nat.pow_le_pow_right (by decide) inside
  have positive : 0 < 2 ^ len := Nat.two_pow_pos len
  rw [bfMask, word, BitVec.toNat_ofNat, Nat.mod_eq_of_lt (by omega)]
theorem bfxN_toNat (a b : Word) : (bfxN a b).toNat = a.toNat / 2 ^ bfPos b % 2 ^ bfLen b := by
  rw [bfxN, BitVec.toNat_and, bfMask_toNat (bfLen_le b), Nat.and_two_pow_sub_one_eq_mod, BitVec.toNat_ushiftRight, Nat.shiftRight_eq_div_pow]
theorem bfxN_eq (a b : Word) : bfxN a b = word (a.toNat / 2 ^ bfPos b % 2 ^ bfLen b) := eq_word_of_toNat (bfxN_toNat a b)
/-- The bits above a mask are those of the number that the mask's length takes away. -/
theorem not_bfMask (len : Nat) : ~~~ bfMask len = BitVec.ofInt 64 (-((2 ^ len : Nat) : Int)) := by
  have next : bfMask len + 1#64 = BitVec.ofNat 64 (2 ^ len) := by
    rw [bfMask, word, ← BitVec.ofNat_add, Nat.sub_add_cancel (Nat.two_pow_pos len)]
  rw [BitVec.ofInt_neg, BitVec.ofInt_natCast, ← next, BitVec.neg_add, ← BitVec.not_eq_neg_add]
/-- BFX: a field whose highest bit is set stands for a negative number. -/
theorem bfxS_eq (a b : Word) : bfxS a b = BitVec.ofInt 64 (let f := a.toNat / 2 ^ bfPos b % 2 ^ bfLen b
    if 2 ^ (bfLen b - 1) ≤ f then (f : Int) - ((2 ^ bfLen b : Nat) : Int) else (f : Int)) := by
  have value := bfxN_toNat a b
  have low : (bfxN a b).toNat < 2 ^ bfLen b := by
    rw [value]
    exact Nat.mod_lt _ (Nat.two_pow_pos _)
  have length : bfLen b = bfLen b - 1 + 1 := by
    rw [bfLen_eq]
    omega
  have sign : (bfxN a b).getLsbD (bfLen b - 1) = decide (2 ^ (bfLen b - 1) ≤ (bfxN a b).toNat) := by
    by_cases high : 2 ^ (bfLen b - 1) ≤ (bfxN a b).toNat
    · rw [decide_eq_true high]
      exact Nat.testBit_of_two_pow_le_and_two_pow_add_one_gt high (by rwa [← length])
    · rw [decide_eq_false high]
      exact Nat.testBit_lt_two_pow (Nat.lt_of_not_le high)
  have apart : bfxN a b &&& ~~~ bfMask (bfLen b) = 0#64 := by
    rw [bfxN, BitVec.and_assoc, BitVec.and_not_self]
    exact BitVec.and_zero
  rw [bfxS, sign, ← value]
  by_cases negative : 2 ^ (bfLen b - 1) ≤ (bfxN a b).toNat
  · rw [if_pos negative, if_pos (decide_eq_true negative), ← BitVec.add_eq_or_of_and_eq_zero _ _ apart, not_bfMask, Int.sub_eq_add_neg,
      BitVec.ofInt_add, BitVec.ofInt_natCast, BitVec.ofNat_toNat, BitVec.setWidth_eq]
  · rw [if_neg negative, if_neg (by simp [negative]), BitVec.ofInt_natCast, BitVec.ofNat_toNat, BitVec.setWidth_eq]
theorem bfiInto_eq (d a b : Word) : bfiInto d a b =
    (d &&& ~~~ word ((bfMask (bfLen b)).toNat * 2 ^ bfPos b)) ||| word ((a &&& bfMask (bfLen b)).toNat * 2 ^ bfPos b) := by
  rw [bfiInto, shiftLeft_eq_word, shiftLeft_eq_word]
theorem bswapWord_eq (a : Word) : bswapWord a = word (sumList ((List.range 8).map fun k => a.toNat / 2 ^ (8 * k) % 256 * 2 ^ (8 * (7 - k)))) := by
  refine congrArg word ?_
  have places : List.range 8 = [0, 1, 2, 3, 4, 5, 6, 7] := rfl
  simp only [bytesOfWord, toBytes, places, List.map_cons, List.map_nil, List.reverse_cons, List.reverse_nil, List.nil_append, List.cons_append,
    ofBytes, sumList, List.foldl_cons, List.foldl_nil, BitVec.toNat_ofNat]
  omega
theorem add_imm {n : Nat} (a : Word) (i : BitVec n) : a + imm i = BitVec.ofInt 64 (a.toInt + i.toInt) := by
  rw [BitVec.ofInt_add, BitVec.ofInt_toInt]
  rfl
theorem imm_toInt {n : Nat} (i : BitVec n) (inside : n ≤ 64) : (imm i).toInt = i.toInt := BitVec.toInt_signExtend_of_le inside
theorem imm20_eq (i : BitVec 20) : imm20 i = BitVec.ofInt 64 (i.toInt * 2 ^ 12) := by
  rw [BitVec.ofInt_mul]
  rfl
theorem pageOf_eq (pc : Word) : pc &&& ~~~(0xFFF : Word) = word (pc.toNat / 2 ^ 12 * 2 ^ 12) := by
  have mask : ∀ i < 64, (0xFFF : Word).getLsbD i = decide (i < 12) := by decide
  have cut : pc &&& ~~~(0xFFF : Word) = (pc >>> 12) <<< 12 := by
    ext i low
    rw [BitVec.getElem_and, BitVec.getElem_not, ← BitVec.getLsbD_eq_getElem (x := (0xFFF : Word)), mask i low, BitVec.getElem_shiftLeft]
    by_cases below : i < 12
    · simp [below]
    · simp [below, BitVec.getLsbD_eq_getElem, Nat.add_sub_cancel' (Nat.le_of_not_lt below), low]
  rw [cut, shiftLeft_eq_word, BitVec.toNat_ushiftRight, Nat.shiftRight_eq_div_pow]

/-! ### An instruction whose whole effect is a result -/

section
variable (s : State) (d : Reg) (v : Word)
/-- A write of a scalar register leaves the rest of the sequencer alone. -/
theorem State.setX_seq : (s.setX d v).seq = { s.seq with x := (s.setX d v).seq.x } := by
  obtain ⟨_, _, onThread, onPump⟩ := scalarRegisterFile s d v
  have cur := s.setX_cur d v
  cases agent : s.cur with
  | thread h =>
    obtain ⟨_, own, _⟩ := onThread h agent
    simp only [State.seq, cur, agent]
    rw [own]
  | pump c =>
    obtain ⟨_, _, own⟩ := onPump c agent
    simp only [State.seq, cur, agent]
    rw [own]
@[simp] theorem State.setX_pc : (s.setX d v).pc = s.pc := by rw [State.pc, State.setX_seq, State.pc]
theorem State.setX_instret {h : Nat} (thread : s.cur = .thread h) : ((s.setX d v).thread h).instret = (s.thread h).instret := by
  rw [State.setX_of_thread thread, State.modThread_thread_same, Thread.setX_instret]
theorem regsOnly_setX : RegsOnly s (s.setX d v) := by
  obtain ⟨_, _, onThread, onPump⟩ := scalarRegisterFile s d v
  cases agent : s.cur with
  | thread h =>
    obtain ⟨only, own, _, _⟩ := onThread h agent
    refine regsOnly_of_thread agent (State.setX_mem ..) only ?_ ?_
    · rw [own]
    · rw [own]
      exact fun x mem => (terase_sublist _ _).mem mem
  | pump c =>
    obtain ⟨frame, others, own⟩ := onPump c agent
    refine regsOnly_of_pump agent frame others ?_ ?_
    · rw [own]
    · rw [own]
      exact fun x mem => (terase_sublist _ _).mem mem
/-- Passing an instruction that has written its result is passing it. -/
theorem passed_setX_pass (n : Nat) : Passed n s ((s.setX d v).pass n) := by
  obtain ⟨counted, skip, moved⟩ := passed_pass (s.setX d v) n
  refine ⟨fun h thread => ?_, ?_, ?_⟩
  · rw [counted h (by simpa using thread), State.setX_instret s d v thread]
  · rw [skip, State.setX_seq]
  · rw [Moved, State.setX_pc, State.setX_seq] at moved
    exact moved
end
section
variable {i : Instr} {s : State} {d : Reg} {v : Word}
theorem result_of_run (run : exec i s = .next ((s.setX d v).pass i.len)) : Result i s d v := by
  refine ⟨_, run, fun r => ?_, passed_setX_pass s d v _, regsOnly_trans (State.setX_cur ..) (regsOnly_setX s d v) (regsOnly_pass _ _)⟩
  rw [State.pass_getX, State.setX_getX]
theorem result_spec (f : State → Word) (runs : Runs i s) (run : exec i s = result i d s f) (value : f s = v) : Result i s d v := by
  unfold result checked at run
  subst value
  exact result_of_run (run.trans (checkedBy_goesOn runs rfl))
theorem alu2_spec (b a : Reg) (f : Word → Word → Word) (runs : Runs i s) (run : exec i s = alu2 i b a d s f)
    (value : f (s.getX a) (s.getX b) = v) : Result i s d v := result_spec _ runs run value
theorem alu1_spec (a : Reg) (f : Word → Word) (runs : Runs i s) (run : exec i s = alu1 i a d s f) (value : f (s.getX a) = v) :
    Result i s d v := result_spec _ runs run value
end

end Sys2Proof.Machine

open Sys2Proof Sys2Proof.Machine Sys2Proof.Spec

/-- Settles O10: each is a result, of the value that R51, R52 and R54-R56 give. -/
theorem integerInstructions : Obligations.IntegerInstructions := by
  intro i s d v found runs
  cases i
  case add b a _ =>
    cases found
    exact alu2_spec b a (· + ·) runs rfl (add_eq_ofInt _ _)
  case sub b a _ =>
    cases found
    exact alu2_spec b a (· - ·) runs rfl (sub_eq_ofInt _ _)
  case mul b a _ =>
    cases found
    exact alu2_spec b a (· * ·) runs rfl (mul_eq_ofInt _ _)
  case mulh b a _ =>
    cases found
    exact alu2_spec b a mulHigh runs rfl rfl
  case mulhn b a _ =>
    cases found
    exact alu2_spec b a mulHighN runs rfl rfl
  case div b a _ =>
    cases found
    exact alu2_spec b a divS runs rfl (divS_eq _ _)
  case divn b a _ =>
    cases found
    exact alu2_spec b a divN runs rfl (divN_eq _ _)
  case rem b a _ =>
    cases found
    exact alu2_spec b a remS runs rfl (remS_eq _ _)
  case remn b a _ =>
    cases found
    exact alu2_spec b a remN runs rfl (remN_eq _ _)
  case and b a _ =>
    cases found
    exact alu2_spec b a (· &&& ·) runs rfl rfl
  case or b a _ =>
    cases found
    exact alu2_spec b a (· ||| ·) runs rfl rfl
  case xor b a _ =>
    cases found
    exact alu2_spec b a (· ^^^ ·) runs rfl rfl
  case andn b a _ =>
    cases found
    exact alu2_spec b a (· &&& ~~~ ·) runs rfl rfl
  case orn b a _ =>
    cases found
    exact alu2_spec b a (· ||| ~~~ ·) runs rfl rfl
  case shl b a _ =>
    cases found
    exact alu2_spec b a (fun x y => x <<< shCount y) runs rfl (by rw [← shCount_eq]; exact shiftLeft_eq_word _ _)
  case shr b a _ =>
    cases found
    exact alu2_spec b a (fun x y => x >>> shCount y) runs rfl (by rw [← shCount_eq]; exact ushiftRight_eq_word _ _)
  case sra b a _ =>
    cases found
    exact alu2_spec b a (fun x y => x.sshiftRight (shCount y)) runs rfl (by rw [← shCount_eq]; exact sshiftRight_eq_ofInt _ _)
  case rotl b a _ =>
    cases found
    exact alu2_spec b a (fun x y => rotl x (shCount y)) runs rfl (by rw [← shCount_eq]; exact rotl_eq _ _ (shCount_lt _))
  case rotr b a _ =>
    cases found
    exact alu2_spec b a (fun x y => rotr x (shCount y)) runs rfl (by rw [← shCount_eq]; exact rotr_eq _ _ (shCount_lt _))
  case min b a _ =>
    cases found
    exact alu2_spec b a minS runs rfl (minS_eq _ _)
  case max b a _ =>
    cases found
    exact alu2_spec b a maxS runs rfl (maxS_eq _ _)
  case minn b a _ =>
    cases found
    exact alu2_spec b a minN runs rfl (minN_eq _ _)
  case maxn b a _ =>
    cases found
    exact alu2_spec b a maxN runs rfl (maxN_eq _ _)
  case slt b a _ =>
    cases found
    exact alu2_spec b a (fun x y => boolWord (x.slt y)) runs rfl (boolWord_slt _ _)
  case sltn b a _ =>
    cases found
    exact alu2_spec b a (fun x y => boolWord (x.ult y)) runs rfl (boolWord_ult _ _)
  case clz a _ =>
    cases found
    exact alu1_spec a clz runs rfl (clz_eq _)
  case ctz a _ =>
    cases found
    exact alu1_spec a ctz runs rfl (ctz_eq _)
  case popc a _ =>
    cases found
    exact alu1_spec a popc runs rfl (popc_eq _)
  case sextB a _ =>
    cases found
    exact alu1_spec a (sextLow 8) runs rfl rfl
  case sextH a _ =>
    cases found
    exact alu1_spec a (sextLow 16) runs rfl rfl
  case sextW a _ =>
    cases found
    exact alu1_spec a (sextLow 32) runs rfl rfl
  case zextB a _ =>
    cases found
    exact alu1_spec a (zextLow 8) runs rfl (zextLow_eq 8 _ (by decide))
  case zextH a _ =>
    cases found
    exact alu1_spec a (zextLow 16) runs rfl (zextLow_eq 16 _ (by decide))
  case zextW a _ =>
    cases found
    exact alu1_spec a (zextLow 32) runs rfl (zextLow_eq 32 _ (by decide))
  case bfxn b a _ =>
    cases found
    exact alu2_spec b a bfxN runs rfl (by rw [← bfPos_eq, ← bfLen_eq, bfxN_eq])
  case bfx b a _ =>
    cases found
    exact alu2_spec b a bfxS runs rfl (by rw [← bfPos_eq, ← bfLen_eq, bfxS_eq])
  case bfi b a _ =>
    cases found
    exact result_spec (fun s => bfiInto (s.getX d) (s.getX a) (s.getX b)) runs rfl (by rw [← bfPos_eq, ← bfLen_eq, bfiInto_eq, bfMask])
  case bswap a _ =>
    cases found
    exact alu1_spec a bswapWord runs rfl (bswapWord_eq _)
  case addi n a _ =>
    cases found
    exact alu1_spec a (· + imm n) runs rfl (add_imm _ n)
  case andi n a _ =>
    cases found
    exact alu1_spec a (· &&& imm n) runs rfl rfl
  case ori n a _ =>
    cases found
    exact alu1_spec a (· ||| imm n) runs rfl rfl
  case xori n a _ =>
    cases found
    exact alu1_spec a (· ^^^ imm n) runs rfl rfl
  case shli n a _ =>
    cases found
    exact alu1_spec a (· <<< n.toNat) runs rfl (shiftLeft_eq_word _ _)
  case shri n a _ =>
    cases found
    exact alu1_spec a (· >>> n.toNat) runs rfl (ushiftRight_eq_word _ _)
  case srai n a _ =>
    cases found
    exact alu1_spec a (fun x => x.sshiftRight n.toNat) runs rfl (sshiftRight_eq_ofInt _ _)
  case roti n a _ =>
    cases found
    exact alu1_spec a (fun x => rotl x n.toNat) runs rfl (rotl_eq _ _ n.isLt)
  case slti n a _ =>
    cases found
    exact alu1_spec a (fun x => boolWord (x.slt (imm n))) runs rfl ((boolWord_slt _ _).trans (by rw [imm_toInt n (by decide)]))
  case lih n _ =>
    cases found
    exact result_spec (fun _ => imm20 n) runs rfl (imm20_eq n)
  case addpc n _ =>
    cases found
    exact result_spec (fun s => (s.insnAddr &&& ~~~ 0xFFF) + imm20 n) runs rfl (by rw [pageOf_eq, imm20_eq])
  all_goals exact absurd found (by simp [aluRef])
end

section
/-!
SUPPORT, O11 and O12. Immediates, and control transfers: where they go, what they write, and what they refuse.
-/

namespace Sys2Proof.Machine
open Spec (RegsOnly Counted Moved Runs Writes WritesNone Result Reachable TransfersTo RefusesTarget NoTrace)

/-- Offsets count parcels of two bytes (R40). -/
theorem parcels_eq {n : Nat} (i : BitVec n) : parcels i = BitVec.ofInt 64 (2 * i.toInt) := by
  rw [BitVec.ofInt_mul, BitVec.mul_comm]
  rfl

/-- The I form of R33. -/
theorem enc3_iForm (major : Nat) (i : BitVec 15) (a d : Reg) :
    enc3 (major * 2 + 1) i 17 a 12 d 7 = i.toNat * 2 ^ 17 + a.toNat * 2 ^ 12 + d.toNat * 2 ^ 7 + major * 2 + 1 := by
  unfold enc3 enc2 enc1
  omega
/-- The form of BR and CALL. -/
theorem enc1_jForm (major : Nat) (i : BitVec 25) : enc1 (major * 2 + 1) i 7 = i.toNat * 2 ^ 7 + major * 2 + 1 := by
  unfold enc1
  omega

/-! ### Jumps -/

section
variable {s u : State} {t : Word}
@[simp] theorem State.jump_seq (s : State) (t : Word) : (s.jump t).seq = { s.seq with pc := t } := by simp [State.jump]
@[simp] theorem State.jump_pc (s : State) (t : Word) : (s.jump t).pc = t := by rw [State.pc, State.jump_seq]
theorem State.count_getX (s : State) (r : Reg) : s.count.getX r = s.getX r := by
  cases agent : s.cur with
  | thread h => simp [State.count, State.getX, agent, Thread.getX, isShadow]
  | pump c => rw [State.count_of_pump agent]
theorem State.jump_getX (s : State) (t : Word) (r : Reg) : (s.jump t).getX r = s.getX r := by
  rw [State.jump, State.count_getX, State.modSeq_getX _ _ rfl]
theorem regsOnly_jump (s : State) (t : Word) : RegsOnly s (s.jump t) :=
  regsOnly_trans (State.modSeq_cur ..) (regsOnly_modSeq s _) (regsOnly_count _)
theorem State.jump_thread {h : Nat} (thread : s.cur = .thread h) (t : Word) : (s.jump t).thread h =
    { s.thread h with seq := { (s.thread h).seq with pc := t }, instret := (s.thread h).instret + 1 } := by
  simp [State.jump, State.count, State.modSeq, thread]
theorem counted_jump (s : State) (t : Word) : Counted s (s.jump t) := fun h thread => by rw [State.jump_thread thread]

/-! ### Transfers -/

theorem transferTo_of_unreachable (f : State → State) (refused : ¬ Reachable s t) : transferTo t s f = s.trap 4 t := by
  unfold transferTo
  refine if_pos (Bool.or_eq_true_iff.mpr ?_)
  by_contra neither
  obtain ⟨even, inside⟩ := not_or.mp neither
  refine refused ⟨Bool.eq_false_iff.mpr even, fun c pump => ?_⟩
  simpa [pump] using inside
/-- A transfer to an address that is allowed is what goes with it and the jump; a trace of it changes clusters (R396). -/
theorem transferTo_of_reachable (f : State → State) (reach : Reachable s t) : ∃ k, transferTo t s f = { (f s).jump t with clusters := k } ∧
    (NoTrace s → (f s).clusters = s.clusters → k = ((f s).jump t).clusters) := by
  obtain ⟨even, inside⟩ := reach
  have allowed : (wbit t 0 || (match s.cur with | .pump _ => decide (4095 < t.toNat) | .thread _ => false)) = false := by
    rw [even, Bool.false_or]
    split
    next c pump => exact decide_eq_false (Nat.not_lt.mpr (inside c pump))
    next => rfl
  unfold transferTo
  dsimp only
  generalize hbad : (wbit t 0 || _) = bad
  obtain rfl : bad = false := hbad.symm.trans allowed
  simp only [Bool.false_eq_true, if_false]
  split
  next h thread =>
    refine ⟨_, traceEvent_only .., fun untraced same => ?_⟩
    rw [traceEvent_off]
    rw [State.cluster, State.jump_clusters, same]
    exact untraced _
  next => exact ⟨_, rfl, fun _ _ => rfl⟩
theorem transferTo_of_untraced (f : State → State) (reach : Reachable s t) (clusters : (f s).clusters = s.clusters) (untraced : NoTrace s) :
    transferTo t s f = (f s).jump t := by
  obtain ⟨k, run, plain⟩ := transferTo_of_reachable f reach
  rw [run, plain untraced clusters]

/-- What an instruction does besides its transfer: it writes a register, if any. -/
structure WritesOnly (s u : State) (d : Reg) (v : Word) : Prop where
  cur : u.cur = s.cur
  clusters : u.clusters = s.clusters
  writes : Writes s u d v
  skip : u.seq.skip = s.seq.skip
  rpt : u.seq.rpt = s.seq.rpt
  instret : ∀ h, s.cur = .thread h → (u.thread h).instret = (s.thread h).instret
  only : RegsOnly s u
theorem regsOnly_refl (s : State) : RegsOnly s s := by
  cases agent : s.cur with
  | thread h => exact regsOnly_of_thread agent rfl (threadOnly_refl h s) rfl fun _ mem => mem
  | pump c => exact regsOnly_of_pump agent rfl (fun _ _ => rfl) rfl fun _ mem => mem
/-- x0 takes nothing, whatever is written to it (R14). -/
theorem writesNothing {s u : State} (none : WritesNone s u) (v : Word) : Writes s u 0 v := fun r => by
  rw [if_neg fun both => both.2 both.1, none]
theorem WritesOnly.none (s : State) : WritesOnly s s 0 0 :=
  ⟨rfl, rfl, writesNothing (fun _ => rfl) 0, rfl, rfl, fun _ _ => rfl, regsOnly_refl s⟩
theorem WritesOnly.setX (s : State) (d : Reg) (v : Word) : WritesOnly s (s.setX d v) d v :=
  ⟨State.setX_cur .., State.setX_clusters .., fun r => s.setX_getX d r v, by rw [State.setX_seq], by rw [State.setX_seq], fun _ => State.setX_instret s d v,
    regsOnly_setX s d v⟩

variable {i : Instr} {f : State → State} {d : Reg} {v : Word} (run : exec i s = .next (transferTo t s f))
include run
theorem refusesTarget_of_run (refused : ¬ Reachable s t) : RefusesTarget i s t := by
  rw [RefusesTarget, Spec.Raises, run, transferTo_of_unreachable f refused]
  rfl
theorem transfersTo_of_run (wrote : WritesOnly s (f s) d v) (reach : Reachable s t) : TransfersTo i s t d v := by
  obtain ⟨cur, clusters, writes, skip, rpt, instret, only⟩ := wrote
  have plain (k : Table Cluster) : let u := { (f s).jump t with clusters := k }
      u.pc = t ∧ Writes s u d v ∧ Counted s u ∧ u.seq.skip = s.seq.skip ∧ u.seq.rpt = s.seq.rpt := by
    refine ⟨State.jump_pc (f s) t, fun r => ?_, fun h thread => ?_, ?_, ?_⟩
    · exact ((f s).jump_getX t r).trans (writes r)
    · exact (counted_jump (f s) t h (cur.trans thread)).trans (congrArg (· + 1) (instret h thread))
    · exact (congrArg Seq.skip (State.jump_seq (f s) t)).trans skip
    · exact (congrArg Seq.rpt (State.jump_seq (f s) t)).trans rpt
  obtain ⟨k, same, _⟩ := transferTo_of_reachable f reach
  obtain ⟨pc, writes, counted, skip, rpt⟩ := plain k
  rw [← same] at pc writes counted skip rpt
  refine ⟨_, run, pc, writes, counted, skip, rpt, fun untraced => ?_⟩
  rw [transferTo_of_untraced f reach clusters untraced]
  exact regsOnly_trans cur only (regsOnly_jump _ t)
end

/-! ### The instructions that transfer control -/

section
variable {s : State}
theorem exec_bCc {o : BitVec 10} {b a : Reg} {p : BitVec 2} {c : BitVec 3} (runs : Runs (.bCc o b a p c) s) : exec (.bCc o b a p c) s =
    .next (if cond c (s.getX a) (s.getX b) then transferTo (s.pc + BitVec.ofInt 64 (2 * (o ++ p : BitVec 12).toInt)) s id else s.pass 4) := by
  have run : exec (.bCc o b a p c) s = execBCc o b a p c s := rfl
  unfold execBCc checked at run
  simpa only [parcels_eq, offB] using run.trans (checkedBy_goesOn runs rfl)
theorem exec_br {n : BitVec 25} (runs : Runs (.br n) s) : exec (.br n) s = .next (transferTo (s.pc + BitVec.ofInt 64 (2 * n.toInt)) s id) := by
  have run : exec (.br n) s = execBr n s := rfl
  unfold execBr checked at run
  simpa only [parcels_eq] using run.trans (checkedBy_goesOn runs rfl)
theorem exec_call {n : BitVec 25} (runs : Runs (.call n) s) : exec (.call n) s =
    .next (transferTo (s.pc + BitVec.ofInt 64 (2 * n.toInt)) s fun s => s.setX 30 (s.pc + 4)) := by
  have run : exec (.call n) s = execCall n s := rfl
  unfold execCall checked at run
  simpa only [parcels_eq] using run.trans (checkedBy_goesOn runs rfl)
theorem exec_jalr {n : BitVec 15} {a d : Reg} (runs : Runs (.jalr n a d) s) : exec (.jalr n a d) s =
    .next (transferTo (s.getX a + BitVec.ofInt 64 n.toInt) s fun s => s.setX d (s.pc + 4)) := by
  have run : exec (.jalr n a d) s = execJalr n a d s := rfl
  unfold execJalr checked at run
  exact run.trans (checkedBy_goesOn runs rfl)
theorem exec_loop {n : BitVec 15} {d : Reg} (runs : Runs (.loop n d) s) (counts : d ≠ 0) : exec (.loop n d) s =
    .next (if s.getX d - 1 = 0 then (s.setX d (s.getX d - 1)).pass 4
      else transferTo (s.pc + BitVec.ofInt 64 (2 * n.toInt)) s fun u => u.setX d (s.getX d - 1)) := by
  have run : exec (.loop n d) s = execLoop n d s := rfl
  unfold execLoop at run
  simpa only [parcels_eq] using run.trans (checkedBy_goesOn runs (if_neg counts))
theorem loop_x0_raises {n : BitVec 15} (runs : Runs (.loop n 0) s) : Spec.Raises (.loop n 0) s 2 0 := by
  have run : exec (.loop n 0) s = execLoop n 0 s := rfl
  unfold execLoop at run
  exact raises_of_check runs run (if_pos rfl)
end

end Sys2Proof.Machine

open Sys2Proof Sys2Proof.Machine Sys2Proof.Spec

/-- Settles O11: the encodings are the I form, and each result is the operation on the sign-extended immediate. -/
theorem immediateArithmetic : Obligations.ImmediateArithmetic := by
  intro s imm a d v
  have low := BitVec.le_toInt imm
  have high := BitVec.toInt_lt (x := imm)
  refine ⟨⟨rfl, by simpa using low, by omega⟩, fun i f major form => ?_, fun runs => ?_, fun runs => ?_⟩
  · simp only [List.mem_cons, Prod.mk.injEq, List.not_mem_nil, or_false] at form
    obtain ⟨rfl, rfl, rfl⟩ | ⟨rfl, rfl, rfl⟩ | ⟨rfl, rfl, rfl⟩ | ⟨rfl, rfl, rfl⟩ := form
    · exact ⟨congrArg (fun n => some (32, n)) (enc3_iForm 2 imm a d), fun runs => alu1_spec a (· + v) runs rfl rfl⟩
    · exact ⟨congrArg (fun n => some (32, n)) (enc3_iForm 3 imm a d), fun runs => alu1_spec a (· &&& v) runs rfl rfl⟩
    · exact ⟨congrArg (fun n => some (32, n)) (enc3_iForm 4 imm a d), fun runs => alu1_spec a (· ||| v) runs rfl rfl⟩
    · exact ⟨congrArg (fun n => some (32, n)) (enc3_iForm 5 imm a d), fun runs => alu1_spec a (· ^^^ v) runs rfl rfl⟩
  · exact alu1_spec a (· &&& BitVec.allOnes 64) runs rfl BitVec.and_allOnes
  · exact alu1_spec 0 (· + v) runs rfl ((congrArg (· + v) s.getX_zero).trans (BitVec.zero_add v))

/-- Settles O12: each is a transfer with what it writes, or passes. -/
theorem controlTransfers : Obligations.ControlTransfers := by
  intro s once
  refine ⟨fun o b a p c runs => ⟨fun holds => ?_, fun holds => ?_, fun fails => ?_⟩, fun i => ⟨?_, ?_⟩, fun i runs => ⟨?_, ?_⟩,
    fun i runs => ⟨?_, ?_⟩, fun i a d runs => ⟨?_, ?_⟩, fun i => loop_x0_raises, fun i d runs counts => ⟨fun last => ?_, fun more => ?_, fun more => ?_⟩⟩
  · exact transfersTo_of_run ((exec_bCc runs).trans (congrArg _ (if_pos ((cond_iff ..).mpr holds)))) (.none s)
  · exact refusesTarget_of_run ((exec_bCc runs).trans (congrArg _ (if_pos ((cond_iff ..).mpr holds))))
  · have run := (exec_bCc runs).trans (congrArg _ (if_neg fun met => fails ((cond_iff ..).mp met)))
    exact ⟨_, run, writesNothing (pass_writesNone s 4) 0, passed_pass s 4, regsOnly_pass s 4⟩
  · exact congrArg (fun n => some (32, n)) (enc1_jForm 0x0C i)
  · exact congrArg (fun n => some (32, n)) (enc1_jForm 0x0D i)
  · exact transfersTo_of_run (exec_br runs) (.none s)
  · exact refusesTarget_of_run (exec_br runs)
  · exact transfersTo_of_run (exec_call runs) (.setX s 30 _)
  · exact refusesTarget_of_run (exec_call runs)
  · exact transfersTo_of_run (exec_jalr runs) (.setX s d _)
  · exact refusesTarget_of_run (exec_jalr runs)
  · have run := exec_loop runs counts
    rw [last] at run
    exact result_of_run run
  · exact transfersTo_of_run ((exec_loop runs counts).trans (congrArg _ (if_neg fun zero => more (eq_of_sub_eq_zero zero)))) (.setX s d _)
  · exact refusesTarget_of_run ((exec_loop runs counts).trans (congrArg _ (if_neg fun zero => more (eq_of_sub_eq_zero zero))))
end

section
/-!
SUPPORT and O6. What a thread's fetch comes to: a wait for a translation or a fault, else the parcel of its core's instruction cache, which
where it is not cached is what the core sees in memory.
-/

namespace Sys2Proof.Machine

/-! ### Limits that let everything in (R377) -/

section
variable {s : State} (open_ : ∀ point q, s.limitAt point q = 0)
include open_
theorem State.admitAt_of_open (w : InjWait) (f : State → State) : s.admitAt w f = f s := if_pos (open_ w.point w.part)
theorem State.leavesCluster_of_open (h b after : Nat) (e : Event) (f : State → State) : s.leavesCluster h b after e f = f s :=
  State.admitAt_of_open open_ _ f
theorem State.arrivesAt_of_open (line b : Nat) (e : Event) : s.arrivesAt line b e (fun s => s) = s := by
  unfold State.arrivesAt
  split
  · rw [State.admitAt_of_open open_]
    split
    · rfl
    · exact State.admitAt_of_open open_ _ _
  · rfl
end

/-! ### The fetch of a thread -/

section
variable {s : State} {h : Nat} {va : Word} {p : Phys}
theorem State.fetch_of_thread (thread : s.cur = .thread h) (va : Word) : s.fetch va = s.fetchThread h va := by rw [State.fetch, thread]
/-- A translation of a farther level is waited for (R246). -/
theorem State.fetchThread_waits {n : Nat} (found : s.translate (s.viewOf h) va .fetch = .ok p n) (far : n ≠ 0) :
    s.fetchThread h va = (.wait, s.later n (.tlbWalkComplete h va .fetch)) := by
  unfold State.fetchThread
  dsimp only
  rw [found]
  exact if_pos far
variable (found : s.translate (s.viewOf h) va .fetch = .ok p 0) (absent : tfind (s.core (coreOf h)).icache (p.key / 2) = none)
include found absent
/-- Memory with an uncorrectable error fails the fetch (R367). -/
theorem State.fetchThread_broken (broken : (linesOf p.key 2).any s.unitBroken = true) : (s.fetchThread h va).1 = .fault 6 va := by
  unfold State.fetchThread
  dsimp only
  rw [found]
  simp [absent, broken]
/-- Where nothing holds the fetch back, it is that of the instruction cache (R66). -/
theorem State.fetchThread_cachedParcel (alive : s.onDeadLink p.key = false) (ready : s.unready p.key = false)
    (whole : (linesOf p.key 2).any s.unitBroken = false) (first : (s.thread h).fetchIn = none) (open_ : ∀ point q, s.limitAt point q = 0) :
    s.fetchThread h va = s.cachedParcel (coreOf h) va p := by
  unfold State.fetchThread
  dsimp only
  rw [found]
  simp [absent, alive, ready, whole, first, State.leavesCluster_of_open open_, State.arrivesAt_of_open open_]
omit found in
/-- A parcel that the cache does not hold is read, as the core sees it (R66, R391). -/
theorem State.cachedParcel_absent : (s.cachedParcel (coreOf h) va p).1 =
      .ok (ofBytes (s.ownBytes (coreOf h) p.key (s.readBytes p.key p.ks 2)) % 2 ^ 16) (s.breakBit (coreOf h / 32) va) ∧
    (s.cachedParcel (coreOf h) va p).2.threads = s.threads := by
  unfold State.cachedParcel
  dsimp only
  rw [absent]
  exact ⟨congrArg (Parcel.ok · _) (BitVec.toNat_ofNat ..), rfl⟩
end

end Sys2Proof.Machine

open Sys2Proof Sys2Proof.Machine Sys2Proof.Spec

/-- Settles O6: what a fetch comes to where its core's instruction cache does not have the parcel. -/
theorem fetchReadsMemory : Obligations.FetchReadsMemory := by
  refine ⟨fun s h va p thread found absent alive ready whole first open_ => ?_, fun s h va p thread found absent broken => ?_,
    fun s h va p n thread found far => ?_⟩
  · obtain ⟨parcel, threads⟩ := State.cachedParcel_absent (va := va) absent
    rw [State.fetch_of_thread thread, State.fetchThread_cachedParcel found absent alive ready whole first open_]
    exact ⟨parcel, State.cachedParcel_mem .., threads⟩
  · rw [State.fetch_of_thread thread]
    exact State.fetchThread_broken found absent broken
  · rw [State.fetch_of_thread thread]
    exact State.fetchThread_waits found far
end

section
/-!
SUPPORT and O18. FENCEI, ERET, HALT and TLBI as they issue, and what the end of a TLBI leaves in the translation buffers and the walkers' caches.
-/

namespace Sys2Proof.Machine
open Spec (Runs Completes WritesNone Passed ThreadOnly ThreadAgenda BlockedFor Due Reachable NoTrace TlbiNames WalksLeft)

/-! ### The instructions -/

theorem threadOnly_jump {s : State} {h : Nat} (thread : s.cur = .thread h) (t : Word) : ThreadOnly h s (s.jump t) := by
  simp only [State.jump, State.count, State.modSeq, thread, State.modThread_cur]
  exact threadOnly_trans (threadOnly_modThread h s _) (threadOnly_modThread h _ _)
section
variable {s : State} {h : Nat} (thread : s.cur = .thread h) (f : Thread → Thread)
include thread
theorem modSelf_writesNone (same : ∀ r, (f (s.thread h)).getX r = (s.thread h).getX r) : WritesNone s (s.modSelf f) :=
  writesNone_of_thread thread (State.modSelf_cur ..) fun r => by rw [State.modSelf_thread thread, same]
theorem modSelf_pc (same : (f (s.thread h)).seq.pc = (s.thread h).seq.pc) : (s.modSelf f).pc = s.pc :=
  pc_of_thread_eq thread (State.modSelf_cur ..) (by rw [State.modSelf_thread thread, same])
end

section
variable {s : State} {h : Nat} (thread : s.cur = .thread h) (alone : (s.thread h).gang = none)
include thread
theorem exec_fencei (runs : Runs .fencei s) : exec .fencei s = .next ((s.modCore (coreOf h) fun k => { k with icache := [] }).pass 4) := by
  have run : exec .fencei s = execFencei s := rfl
  unfold execFencei checked at run
  rw [run, checkedBy_goesOn runs rfl, State.myCore, State.me_of_thread thread]
theorem fencei_spec (runs : Runs .fencei s) : Completes .fencei s fun t => WritesNone s t ∧ Passed 4 s t ∧
    (t.core (coreOf h)).icache = [] ∧ t.mem = s.mem ∧ ∀ c, c ≠ coreOf h → t.core c = s.core c := by
  have stays : StaysAt h s (s.modCore (coreOf h) fun k => { k with icache := [] }) := .of_thread thread rfl rfl
  refine ⟨_, exec_fencei thread runs, stays.writesNone 4 fun _ => rfl, stays.passed 4, ?_, State.pass_mem .., fun c other => ?_⟩
  · rw [State.core, State.pass_cores, ← State.core, State.modCore_core, if_pos rfl]
  · rw [State.core, State.pass_cores, ← State.core, State.modCore_core, if_neg other]
include alone
/-- A thread in no gang may leave its level or stop (R72). -/
theorem noGang_passes : noGang s = none := by
  unfold noGang
  rw [State.self_of_thread thread, alone]
  rfl
theorem eret_spec {a : Reg} (runs : Runs (.eret a) s) (reach : Reachable s (s.getX a)) (untraced : NoTrace s) :
    Completes (.eret a) s fun t => t.pc = s.getX a ∧ (t.thread h).sup = false ∧ WritesNone s t ∧ ThreadOnly h s t := by
  have run : exec (.eret a) s = execEret a s := rfl
  unfold execEret at run
  replace run := run.trans (checkedBy_goesOn runs (noGang_passes thread alone))
  rw [transferTo_of_untraced _ reach (State.modSelf_clusters ..) untraced] at run
  have own := State.modSelf_thread thread fun t => { t with sup := false }
  have cur : (s.modSelf fun t => { t with sup := false }).cur = .thread h := thread
  refine ⟨_, run, State.jump_pc .., ?_, fun r => (State.jump_getX _ _ r).trans ?_, threadOnly_trans (threadOnly_modSelf thread _) (threadOnly_jump cur _)⟩
  · rw [State.jump_thread cur, own]
  · exact modSelf_writesNone thread _ (fun _ => rfl) r
theorem halt_spec (runs : Runs .halt s) (once : s.seq.rptRun = none) :
    Completes .halt s fun t => (t.thread h).run = .halted ∧ t.pc = s.pc + 4 ∧ WritesNone s t ∧ ThreadOnly h s t := by
  have run : exec .halt s = execHalt s := rfl
  unfold execHalt at run
  replace run := run.trans (checkedBy_goesOn runs (noGang_passes thread alone))
  have cur : (s.pass 4).cur = .thread h := (State.pass_cur ..).trans thread
  have own := State.modSelf_thread cur fun t => { t with run := .halted }
  obtain ⟨_, _, moved⟩ := passed_pass s 4
  rw [Spec.Moved, once] at moved
  refine ⟨_, run, by rw [own], (modSelf_pc cur _ rfl).trans moved.1, fun r => ?_,
    threadOnly_trans (threadOnly_pass thread 4) (threadOnly_modSelf cur _)⟩
  exact (modSelf_writesNone cur _ (fun _ => rfl) r).trans (s.pass_getX 4 r)
/-- TLBI's figure of R67: 60 cycles if the partition lies on the thread's die, or is not known. -/
def State.tlbiCycles (s : State) (h : Nat) : Nat :=
  match (s.partOfCluster (clusterOf h)).bind s.part with
  | some q => if allOnDie q (dieOf h) then 60 else 110
  | none => 60
theorem exec_tlbi {b a : Reg} (runs : Runs (.tlbi b a) s) : exec (.tlbi b a) s =
    .next ((s.blocks (.tlbi (s.getX a) (s.getX b))).later (s.tlbiCycles h) (.tlbiRetire h)) := by
  have run : exec (.tlbi b a) s = execTlbi b a s := rfl
  unfold execTlbi at run
  rw [run, checkedBy_goesOn runs (noGang_passes thread alone), State.me_of_thread thread]
  rfl
end
theorem State.tlbiCycles_cases (s : State) (h : Nat) : s.tlbiCycles h = 60 ∨ s.tlbiCycles h = 110 := by
  unfold State.tlbiCycles
  split
  · split
    · exact .inl rfl
    · exact .inr rfl
  · exact .inl rfl
theorem State.tlbiCycles_iff {s : State} {h : Nat} {q : Part} (owner : (s.partOfCluster (clusterOf h)).bind s.part = some q) :
    s.tlbiCycles h = 60 ↔ allOnDie q (dieOf h) = true := by
  unfold State.tlbiCycles
  rw [owner]
  dsimp only
  split <;> simp_all
/-- What blocks a thread and puts an event on the agenda leaves the rest alone. -/
theorem blocks_later_spec {s : State} {h : Nat} (thread : s.cur = .thread h) (w : Why) (n : Nat) (e : Event) :
    let t := (s.blocks w).later n e
    BlockedFor h w t ∧ t.pc = s.pc ∧ WritesNone s t ∧ ThreadAgenda h s t ∧ Due (s.cycle + n) e t :=
  ⟨State.blocks_blockedFor w thread, (StaysAt.blocks w thread).pc, State.blocks_reads w thread,
    threadAgenda_later (threadAgenda_of_threadOnly (threadOnly_blocks thread w)) n e, State.due_later (s.blocks w) n e⟩

/-! ### The end of a TLBI -/

/-- A table's parts, each changed in the same way. -/
theorem tget_tmap {β : Type} (f : Nat → β → β) (d : β) (t : Table β) (n : Nat) (unlisted : f n d = d) : tget d (tmap f t) n = f n (tget d t n) := by
  induction t with
  | nil => exact unlisted.symm
  | cons x t ih =>
    obtain ⟨k, b⟩ := x
    unfold tmap at ih ⊢
    simp only [List.map_cons, tget]
    split
    next e => rw [e]
    next other =>
      split
      · exact unlisted.symm
      · exact ih

theorem wbit_eq (w : Word) (n : Nat) : wbit w n = w.getLsbD n := Nat.testBit_eq_decide_div_mod_eq.symm
theorem walksOut_iff (s : State) (h : Nat) : s.walksOut h = true ↔ WalksLeft s h := by
  simp only [State.walksOut, WalksLeft, List.any_eq_true, Bool.and_eq_true, decide_eq_true_eq, Option.any_eq_true, Prod.exists]
  constructor
  · rintro ⟨d, k, die, id, m, miss, early, x, ctx, part⟩
    exact ⟨d, k, id, m, x, die, miss, early, ctx, part⟩
  · rintro ⟨d, k, id, m, x, die, miss, early, ctx, part⟩
    exact ⟨d, k, die, id, m, miss, early, x, ctx, part⟩
theorem tlbiHits_iff (s : State) (p : Nat) (va ctl : Word) (e : TlbEntry) : tlbiHits s p va ctl e = true ↔ TlbiNames s p va ctl e := by
  have context : wfield ctl 9 0 = ctl.toNat % 1024 := by simp [wfield, field]
  simp only [tlbiHits, TlbiNames, Bool.and_eq_true, Bool.or_eq_true, decide_eq_true_eq, Option.any_eq_true, wbit_eq, context, and_assoc,
    eq_comm (a := e.va / 2 ^ e.size)]
section
variable (s : State) (p : Nat) (va ctl : Word)
/-- What a TLBI leaves of a buffer. -/
theorem mem_tlb_kept (l : List TlbEntry) (e : TlbEntry) :
    e ∈ l.filter (fun e => !tlbiHits s p va ctl e) ↔ e ∈ l ∧ ¬ TlbiNames s p va ctl e := by
  rw [List.mem_filter, Bool.not_eq_true', Bool.eq_false_iff, Ne, tlbiHits_iff]
theorem mem_invalidate_core (c : Nat) (e : TlbEntry) : e ∈ ((s.invalidate p va ctl).core c).tlb ↔ e ∈ (s.core c).tlb ∧ ¬ TlbiNames s p va ctl e := by
  rw [← mem_tlb_kept]
  unfold State.core State.invalidate
  dsimp only
  rw [tget_tmap _ _ _ _ rfl]
theorem mem_invalidate_cluster (c : Nat) (e : TlbEntry) :
    e ∈ ((s.invalidate p va ctl).cluster c).tlb ↔ e ∈ (s.cluster c).tlb ∧ ¬ TlbiNames s p va ctl e := by
  rw [← mem_tlb_kept]
  unfold State.cluster State.invalidate
  dsimp only
  rw [tget_tmap _ _ _ _ rfl]
theorem State.invalidate_die (c : Nat) : (s.invalidate p va ctl).die c =
    { s.die c with tlb := (s.die c).tlb.filter fun e => !tlbiHits s p va ctl e
                   walk := if wbit ctl 16 then
                       (s.die c).walk.filter fun x => !((s.ctx x.1).any (·.part = p) && (wbit ctl 17 || x.1 = wfield ctl 9 0))
                     else (s.die c).walk } := by
  unfold State.die State.invalidate
  dsimp only
  rw [tget_tmap]
  simp
theorem mem_invalidate_die (c : Nat) (e : TlbEntry) : e ∈ ((s.invalidate p va ctl).die c).tlb ↔ e ∈ (s.die c).tlb ∧ ¬ TlbiNames s p va ctl e := by
  rw [← mem_tlb_kept, State.invalidate_die]
theorem mem_invalidate_walk (c : Nat) (y : Nat × Nat × Nat × Word) : y ∈ ((s.invalidate p va ctl).die c).walk ↔ y ∈ (s.die c).walk ∧
    ¬ (ctl.getLsbD 16 = true ∧ (∃ x, s.ctx y.1 = some x ∧ x.part = p) ∧ (ctl.getLsbD 17 = true ∨ y.1 = ctl.toNat % 1024)) := by
  have context : wfield ctl 9 0 = ctl.toNat % 1024 := by simp [wfield, field]
  have matched (c : Nat) : ((s.ctx c).any (·.part = p) && (wbit ctl 17 || c = wfield ctl 9 0)) = true ↔
      (∃ x, s.ctx c = some x ∧ x.part = p) ∧ (ctl.getLsbD 17 = true ∨ c = ctl.toNat % 1024) := by
    simp only [Bool.and_eq_true, Bool.or_eq_true, decide_eq_true_eq, Option.any_eq_true, wbit_eq, context]
  rw [State.invalidate_die]
  dsimp only
  rw [wbit_eq ctl 16]
  split
  next all => rw [List.mem_filter, Bool.not_eq_true', Bool.eq_false_iff, Ne, matched, and_iff_right all]
  next one => rw [and_iff_left fun both => one both.1]
end

section
variable {s : State} {h : Nat} {va ctl : Word} (takes : Spec.Takes (.tlbiRetire h) s) (blocked : BlockedFor h (.tlbi va ctl) s)
include takes blocked
theorem exec_tlbiRetire : exec .tlbiRetire s = .next (if s.walksOut h then s.later 1 (.tlbiRetire h)
    else ((s.invalidate ((s.partOfCluster (clusterOf h)).getD 0) va ctl).passOf h 4).goesOn h) := by
  have run : exec .tlbiRetire s = execTlbiRetire s := rfl
  unfold execTlbiRetire at run
  rw [run, onEvent_some s _ _ takes]
  dsimp only
  rw [blocked]
end
/-- What an engine's step does that takes a blocked thread past its instruction. -/
theorem passOf_goesOn_spec {s : State} {h n : Nat} {w : Why} (blocked : BlockedFor h w s) :
    let t := (s.passOf h n).goesOn h
    Spec.PassedOf h n s t ∧ Spec.ReadyAt h s.cycle t ∧ ThreadOnly h s t := by
  have held : ((s.passOf h n).thread h).run = .blocked w := by
    rw [State.passOf_thread]
    exact blocked
  have own := State.goesOn_blocked (s.passOf h n) h w held
  rw [State.passOf_thread] at own
  refine ⟨⟨?_, ?_⟩, ⟨?_, ?_⟩, threadOnly_trans (threadOnly_passOf h s n) (threadOnly_goesOn h _)⟩
  · rw [own]
  · rw [own]
  · rw [own]
  · rw [own]
    rfl

end Sys2Proof.Machine

open Sys2Proof Sys2Proof.Machine Sys2Proof.Spec

theorem systemInstructions : SystemInstructions := by
  intro s h thread once alone
  refine ⟨fencei_spec thread, fun a => eret_spec thread alone, fun runs => halt_spec thread alone runs once, fun b a runs => ?_⟩
  obtain ⟨blocked, pc, _, only, due⟩ := blocks_later_spec thread (.tlbi (s.getX a) (s.getX b)) (s.tlbiCycles h) (.tlbiRetire h)
  exact ⟨_, exec_tlbi thread alone runs, blocked, pc, only, _, s.tlbiCycles_cases h, fun q => State.tlbiCycles_iff, due⟩

theorem tlbiRetires : TlbiRetires := by
  intro s h va ctl takes blocked p
  refine ⟨fun left => ⟨_, (exec_tlbiRetire takes blocked).trans (congrArg _ (if_pos ((walksOut_iff s h).mpr left))), blocked, s.due_later 1 _, rfl⟩,
    fun done => ?_⟩
  refine ⟨_, (exec_tlbiRetire takes blocked).trans (congrArg _ (if_neg fun out => done ((walksOut_iff s h).mp out))), ?_⟩
  have kept : BlockedFor h (.tlbi va ctl) (s.invalidate p va ctl) := blocked
  obtain ⟨passed, ready, frame, _⟩ := passOf_goesOn_spec (n := 4) kept
  refine ⟨passed, ready, by simp, fun e => ⟨fun c => ?_, fun c => ?_, fun c => ?_⟩, fun c y => ?_⟩
  · exact mem_invalidate_core s p va ctl c e
  · exact mem_invalidate_cluster s p va ctl c e
  · exact mem_invalidate_die s p va ctl c e
  · exact mem_invalidate_walk s p va ctl c y

/-- Settles O18: what each system instruction does as it issues, and what a TLBI invalidates as it retires. -/
theorem systemAndTlbi : Obligations.SystemAndTlbi := ⟨systemInstructions, tlbiRetires⟩
end

section
/-!
SUPPORT and O19. The supervisor's operations: how they leave, what they do at their target, what their replies do, and the effect of a park
request.
-/

namespace Sys2Proof.Machine
open Spec (Runs Completes WritesNone ThreadOnly ThreadAgenda BlockedFor ReadyAt Due Takes PassedOf)

/-! ### The issue -/

theorem supIssue_spec {s : State} {h : Nat} (thread : s.cur = .thread h) (alone : (s.thread h).gang = none) {i : Instr} {kind : SupKind}
    {handle sel v : Word} {rd : Reg} (run : exec i s = supIssue i kind handle sel v rd s) (runs : Runs i s)
    (passes : supCheck s ((s.partOfCluster (clusterOf h)).getD 0) kind handle sel v = none) :
    Completes i s fun t => BlockedFor h .sup t ∧ t.pc = s.pc ∧ WritesNone s t ∧ ThreadAgenda h s t ∧
      Due (s.cycle + (supDelay h (handle.toNat % 4096)).1)
        (.supervisorOpArrival { part := (s.partOfCluster (clusterOf h)).getD 0, issuer := some h, kind := kind, handle := handle, sel := sel,
                                value := v, rd := rd }) t := by
  have me := State.me_of_thread thread
  unfold supIssue at run
  refine ⟨_, run.trans (checkedBy_goesOn runs ?_), ?_⟩
  · rw [noGang_passes thread alone, me]
    exact passes
  · dsimp only
    rw [me]
    exact blocks_later_spec thread .sup _ _

/-! ### The operation -/

section
variable {s : State} {op : SupOp} {g : Nat}
theorem exec_supervisorOpArrival (takes : Takes (.supervisorOpArrival op) s) : ∃ n, exec .supervisorOpArrival s =
    .next ((supEffect op s).2.later n (.supervisorReply op (supEffect op s).1)) :=
  ⟨_, onEvent_some s _ _ takes⟩
/-- The operation is done, and its reply leaves (R414). -/
theorem supervisorOp_completes (takes : Takes (.supervisorOpArrival op) s) {r : SupResult} {u : State} (effect : supEffect op s = (r, u))
    {P : State → Prop} (done : ∀ n, P (u.later n (.supervisorReply op r))) :
    Completes .supervisorOpArrival s fun t => P t ∧ ∃ n, Due n (.supervisorReply op r) t := by
  obtain ⟨n, run⟩ := exec_supervisorOpArrival takes
  rw [effect] at run
  exact ⟨_, run, done n, _, u.due_later n _⟩

variable (target : handleOf op.handle = some g)
include target
/-- A target that is not parked is refused, but for its run state (R70, R71). -/
theorem supEffect_refused (running : (s.thread g).run ≠ .parked) (state : wfield op.sel 15 12 ≠ 5) : supEffect op s = (.refused 2 0, s) := by
  unfold supEffect
  rw [target]
  dsimp only
  cases op.kind <;> simp [running, state]
variable (parked : (s.thread g).run = .parked)
include parked
theorem supEffect_read (kind : op.kind = .read) : supEffect op s = (.value (s.itemRead g op.sel), s) := by
  unfold supEffect
  rw [target, kind]
  simp [parked]
/-- A write of the program counter (R69). -/
theorem supEffect_writePc (kind : op.kind = .write) (sel : wfield op.sel 15 0 = 0x2000) :
    supEffect op s = (.done, s.modThread g fun t => { t with seq := { t.seq with pc := op.value, rptRun := none } }) := by
  have cls : wfield op.sel 15 12 = 2 := by
    simp only [wfield, field] at sel ⊢
    omega
  have write : s.itemWrite g op.sel op.value = s.modThread g fun t => { t with seq := { t.seq with pc := op.value, rptRun := none } } := by
    unfold State.itemWrite
    simp [cls]
  unfold supEffect
  rw [target, kind]
  simp [parked, cls, write, State.seeInterrupts]
theorem supEffect_resume (kind : op.kind = .resume) (free : (s.thread g).dbgStop = false) :
    supEffect op s = (.done, (s.resume g).seeInterrupts (coreOf g) 0x022) := by
  unfold supEffect
  rw [target, kind]
  simp [parked, free]
end
theorem State.resume_thread (s : State) (g : Nat) : (s.resume g).thread g =
    { s.thread g with run := .ready, notBefore := s.cycle + 1, record := none, walkFault := none, dataError := false
                      brkSkip := (s.thread g).brkSkip || ((s.thread g).trapCause = 0x0E && (s.thread g).trapVal = 1) } := by
  rw [State.resume, State.modThread_thread_same]

/-! ### The reply -/

/-- What a reply does to its issuer, whose register d takes a value (R70, R71). -/
def replied (h : Nat) (d : Reg) (r : SupResult) (s : State) : State :=
  match r with
  | .value v => ((s.modThread h fun t => t.setX d v).passOf h 4).goesOn h
  | .done => (s.passOf h 4).goesOn h
  | .refused c v => parkTrap h c (s.thread h).seq.pc v s

section
variable {s : State} {op : SupOp} {r : SupResult} {h : Nat} (takes : Takes (.supervisorReply op r) s) (issuer : op.issuer = some h)
  (blocked : BlockedFor h .sup s)
include takes issuer blocked
theorem exec_supervisorReply : exec .supervisorReply s = .next (replied h op.rd r s) := by
  have run : exec .supervisorReply s = execSupervisorReply s := rfl
  unfold execSupervisorReply at run
  rw [run, onEvent_some s _ _ takes]
  dsimp only
  rw [issuer]
  dsimp only
  rw [blocked]
  cases r <;> rfl
end
/-- The value of a read is the issuer's result, with which its wait ends. -/
theorem replied_value {s : State} {h : Nat} (blocked : BlockedFor h .sup s) (d : Reg) (v : Word) : let t := replied h d (.value v) s
    (∀ r, (t.thread h).getX r = if r = d ∧ r ≠ 0 then v else (s.thread h).getX r) ∧ ReadyAt h s.cycle t ∧ ThreadOnly h s t := by
  have held : (((s.modThread h fun t => t.setX d v).passOf h 4).thread h).run = .blocked .sup := by
    rw [State.passOf_thread, State.modThread_thread_same]
    exact (Thread.setX_run ..).trans blocked
  have own : (replied h d (.value v) s).thread h = (s.thread h).ends d v 4 s.cycle := by
    rw [replied, State.goesOn_blocked _ h .sup held, State.passOf_thread, State.modThread_thread_same, Thread.ends, Thread.setX_instret]
    rfl
  refine ⟨fun r => ?_, ⟨?_, ?_⟩, threadOnly_trans (threadOnly_trans (threadOnly_modThread h s _) (threadOnly_passOf h _ 4)) (threadOnly_goesOn h _)⟩
  · rw [own, Thread.ends_getX]
  · rw [own]
    rfl
  · rw [own]
    rfl

/-! ### A park request -/

theorem State.withdraw_of_ready {s : State} {h : Nat} (ready : (s.thread h).run = .ready) (skip : (s.thread h).seq.skip = 0)
    (pend : (s.thread h).pend = []) : s.withdraw h = some (s.back h) := by
  unfold State.withdraw
  simp [ready, skip, pend]
/-- The thread parks at its boundary, behind the end of its gang. -/
def State.parksAtBoundary (s : State) (g : Nat) : State :=
  ((s.back g).disband (membersOf ((s.back g).thread g) g)).modThread g fun t =>
    { t with run := .parked, parkReq := false, frozen := false, record := none, seq := { t.seq with rptRun := none } }
theorem exec_parkRequestEffect {s : State} {g : Nat} (takes : Takes (.parkRequestEffect g) s) (asked : (s.thread g).parkReq = true)
    (ready : (s.thread g).run = .ready) (skip : (s.thread g).seq.skip = 0) (pend : (s.thread g).pend = []) (acked : s.redLeft g = false) :
    exec .parkRequestEffect s = .next (s.parksAtBoundary g) := by
  have run : exec .parkRequestEffect s = execParkRequestEffect s := rfl
  unfold execParkRequestEffect at run
  rw [run, onEvent_some s _ _ takes]
  simp [asked, ready, acked, State.withdraw_of_ready ready skip pend, State.parksAtBoundary]
theorem State.back_seq (s : State) (g : Nat) : ((s.back g).thread g).seq = (s.thread g).seq := by
  rw [State.back, State.modThread_thread_same]
  split <;> rfl
theorem State.parksAtBoundary_seq (s : State) (g : Nat) : ((s.parksAtBoundary g).thread g).seq = { (s.thread g).seq with rptRun := none } := by
  rw [State.parksAtBoundary, State.modThread_thread_same, State.disband_other]
  dsimp only
  rw [State.back_seq]

end Sys2Proof.Machine

open Sys2Proof Sys2Proof.Machine Sys2Proof.Spec

theorem supervisorInstructions : SupervisorInstructions := by
  intro s h thread alone p sends
  exact ⟨fun a runs passes => supIssue_spec thread alone rfl runs passes, fun b a d runs passes => supIssue_spec thread alone rfl runs passes,
    fun b a d runs passes => supIssue_spec thread alone rfl runs passes⟩

theorem supervisorOperations : SupervisorOperations := by
  intro s op g target
  refine ⟨fun takes parked free => ⟨fun kind => ?_, fun kind sel => ?_, fun kind => ?_⟩, fun takes running state => ?_,
    fun h v issuer blocked => ⟨fun takes => ?_, fun takes => ?_, fun c _ takes => ?_⟩, fun takes asked ready skip pend acked => ?_⟩
  · exact supervisorOp_completes takes (supEffect_read target parked kind) fun _ => rfl
  · obtain ⟨t, run, ⟨pc, others⟩, due⟩ := supervisorOp_completes takes (supEffect_writePc target parked kind sel)
      (P := fun t => (t.thread g).seq.pc = op.value ∧ ∀ o, o ≠ g → t.thread o = s.thread o)
      fun n => ⟨by rw [State.later_thread, State.modThread_thread_same], fun o other => by rw [State.later_thread, State.modThread_thread, if_neg other]⟩
    exact ⟨t, run, pc, due, others⟩
  · have sees (o : Nat) := (SentOnly.seeInterrupts (s.resume g) (coreOf g) 0x022).thread o
    obtain ⟨t, run, ⟨ready, seq, others⟩, due⟩ := supervisorOp_completes takes (supEffect_resume target parked kind free)
      (P := fun t => ReadyAt g (s.cycle + 1) t ∧ (t.thread g).seq = (s.thread g).seq ∧ ∀ o, o ≠ g → t.thread o = s.thread o)
      fun n => ⟨by rw [ReadyAt, State.later_thread, sees, State.resume_thread]; exact ⟨rfl, rfl⟩,
        by rw [State.later_thread, sees, State.resume_thread],
        fun o other => by rw [State.later_thread, sees, State.resume, State.modThread_thread, if_neg other]⟩
    exact ⟨t, run, ready, seq, due, others⟩
  · exact supervisorOp_completes takes (supEffect_refused target running state) fun _ => rfl
  · exact ⟨_, exec_supervisorReply takes issuer blocked, replied_value blocked op.rd v⟩
  · exact ⟨_, exec_supervisorReply takes issuer blocked, passOf_goesOn_spec blocked⟩
  · exact ⟨_, exec_supervisorReply takes issuer blocked, trapped_of_trap s h c v⟩
  · have own := s.parksAtBoundary_seq g
    refine ⟨_, exec_parkRequestEffect takes asked ready skip pend acked, ?_, ?_, ?_, by rw [own], by rw [own], by simp [State.parksAtBoundary]⟩
    all_goals rw [State.parksAtBoundary, State.modThread_thread_same]

/-- Settles O19: the way of a supervisor's operation, its effect and its reply, and a park request that finds its thread between instructions. -/
theorem supervisorAccess : Obligations.SupervisorAccess := ⟨supervisorInstructions, supervisorOperations⟩
end

section
/-!
SUPPORT. A state that O30 does not fit. HASHA without a translation is to wait in a miss of its die; the statement is about every state, also one
whose misses are not listed by rising number (O59 has each step keep them so), where the miss of the page is found by its page and not by its
number.
-/

namespace Sys2Proof.Machine

/-- Access thread 0 on a die that lists its misses by falling number, the second of them that of the page at 0 of context 0. -/
def fallingMissesState : State :=
  { State.reset with
    agenda := []
    cur := .thread 0
    threads := [(0, { run := .ready })]
    dies := [(0, { misses := [(1, { ctx := 1, va := 0, since := 0, due := 0, begun := true }),
                              (0, { ctx := 0, va := 0, since := 0, due := 0, begun := true })] })] }
/-- HASHA joins neither. -/
theorem fallingMissesState_waits (t : State) (run : exec (.hasha 0 0) fallingMissesState = .next t) :
    ((t.die 0).misses.all fun x => x.2.waits.isEmpty) = true := by
  have none : (match exec (.hasha 0 0) fallingMissesState with
      | .next t => (t.die 0).misses.all fun x => x.2.waits.isEmpty
      | _ => false) = true := by decide
  rwa [run] at none

end Sys2Proof.Machine

open Sys2Proof Sys2Proof.Machine Sys2Proof.Spec

/-- Refutes O30: a HASHA whose page's miss stands out of order on its die waits in no miss. -/
theorem not_homesAndCaches : ¬ Obligations.HomesAndCaches := by
  intro ⟨hasha, _, _⟩
  obtain ⟨_, onThread⟩ := hasha fallingMissesState 0 0 (by decide)
  obtain ⟨_, misses, _⟩ := onThread 0 rfl
  obtain ⟨t, run, _, _, _, _, id, m, found, waits⟩ := misses (by decide) rfl
  have empty := List.all_eq_true.mp (fallingMissesState_waits t run) _ (tfind_mem _ id m found)
  rw [List.isEmpty_iff] at empty
  rw [empty] at waits
  exact absurd waits List.not_mem_nil
end

section
/-!
SUPPORT. An instruction of a thread that writes two registers, and steps that change the agenda only.
-/

namespace Sys2Proof.Machine
open Spec (ThreadOnly ThreadAgenda WritesTwo Passed)

/-! ### Two results -/

theorem StaysAt.setX {s u : State} {h : Nat} (stays : StaysAt h s u) (d : Reg) (v : Word) : StaysAt h s (u.setX d v) := by
  obtain ⟨before, cur, seq, instret⟩ := stays
  have own : (u.setX d v).thread h = (u.thread h).setX d v := by rw [State.setX_of_thread cur, State.modThread_thread_same]
  refine ⟨before, (State.setX_cur ..).trans cur, ?_, by rw [own, Thread.setX_instret, instret]⟩
  rw [own, Thread.setX_seq, seq]
theorem twoDest_passes {a d : Reg} (apart : a ≠ d ∨ a = 0) (s : State) : twoDest a d s = none :=
  if_neg fun both => apart.elim (fun differ => differ both.1) both.2
/-- A thread that has not moved writes two registers and passes its instruction. -/
theorem twoResults_spec {s u : State} {h : Nat} (stays : StaysAt h s u) (same : ∀ r, (u.thread h).getX r = (s.thread h).getX r) (d a : Reg)
    (v w : Word) :
    let t := ((u.setX d v).setX a w).pass 4
    WritesTwo s t d v a w ∧ Passed 4 s t ∧ ThreadOnly h u t := by
  have first := stays.setX d v
  have second := first.setX a w
  refine ⟨fun r => ?_, second.passed 4,
    threadOnly_trans (threadOnly_trans (threadOnly_setX stays.cur d v) (threadOnly_setX first.cur a w)) (threadOnly_pass second.cur 4)⟩
  rw [State.pass_getX, State.setX_getX, State.setX_getX, State.getX_of_thread stays.cur, same, State.getX_of_thread stays.before]

/-- That leaves nothing but registers and the place of the agent behind. -/
theorem twoResults_regsOnly {s : State} {h : Nat} (thread : s.cur = .thread h) (d a : Reg) (v w : Word) :
    let t := ((s.setX d v).setX a w).pass 4
    WritesTwo s t d v a w ∧ Passed 4 s t ∧ Spec.RegsOnly s t := by
  obtain ⟨writes, passed, -⟩ := twoResults_spec (.of_thread thread rfl rfl) (fun _ => rfl) d a v w
  exact ⟨writes, passed, regsOnly_trans (State.setX_cur ..) (regsOnly_setX s d v)
    (regsOnly_trans (State.setX_cur ..) (regsOnly_setX _ a w) (regsOnly_pass _ 4))⟩

/-! ### Steps that change the agenda only -/

/-- Only the agenda differs. -/
def AgendaOnly (s t : State) : Prop := t = { s with agenda := t.agenda }
theorem AgendaOnly.refl (s : State) : AgendaOnly s s := rfl
theorem AgendaOnly.trans {s t u : State} (first : AgendaOnly s t) (second : AgendaOnly t u) : AgendaOnly s u := by
  unfold AgendaOnly at *
  rw [second, first]
theorem AgendaOnly.at_ (s : State) (due : Nat) (e : Event) : AgendaOnly s (s.at_ due e) := rfl
theorem AgendaOnly.later (s : State) (n : Nat) (e : Event) : AgendaOnly s (s.later n e) := rfl
theorem AgendaOnly.ite {s a b : State} {c : Prop} [Decidable c] (ha : AgendaOnly s a) (hb : AgendaOnly s b) : AgendaOnly s (if c then a else b) := by
  split <;> assumption
theorem AgendaOnly.foldl {α : Type} (f : State → α → State) (l : List α) (s : State) (keeps : ∀ u a, AgendaOnly u (f u a)) :
    AgendaOnly s (l.foldl f s) :=
  List.foldlRecOn l f (motive := AgendaOnly s) (.refl s) fun u so a _ => so.trans (keeps u a)
theorem AgendaOnly.seeInterrupts (s : State) (core n : Nat) : AgendaOnly s (s.seeInterrupts core n) := .ite (.later ..) (.refl s)
theorem AgendaOnly.offerSlot (s : State) (dst n : Nat) : AgendaOnly s (s.offerSlot dst n) :=
  .foldl _ _ _ fun u x => by
    obtain ⟨g, t⟩ := x
    dsimp only
    split
    · exact .ite (.at_ ..) (.refl u)
    · exact .refl u
section
variable {s t : State} (only : AgendaOnly s t)
include only
theorem AgendaOnly.thread (g : Nat) : t.thread g = s.thread g := by rw [only]; rfl
theorem AgendaOnly.core (c : Nat) : t.core c = s.core c := by rw [only]; rfl
theorem AgendaOnly.cur : t.cur = s.cur := by rw [only]
theorem AgendaOnly.threadAgenda (h : Nat) : ThreadAgenda h s t := ⟨by rw [only], fun g _ => only.thread g⟩
end

end Sys2Proof.Machine
end

section
/-!
SUPPORT and O22. Channels: a flit that leaves, arrives, is taken or is discarded, and the slots that senders claim.
-/

namespace Sys2Proof.Machine
open Spec (ThreadOnly ThreadAgenda WritesNone Passed Due BlockedFor)

/-! ### The channels of a thread -/

@[simp] theorem Thread.setChan_chan (t : Thread) (n : Nat) (c : Chan) : (t.setChan n c).chan n = c := Vector.getElem_set_self ..
@[simp] theorem Thread.setX_chan (t : Thread) (d : Reg) (v : Word) (n : Nat) : (t.setX d v).chan n = t.chan n := by
  rw [Thread.setX_only]
  rfl
theorem State.freeSlot_thread (s : State) (dst n : Nat) :
    (s.freeSlot dst n).thread dst = (s.thread dst).setChan n { (s.thread dst).chan n with free := ((s.thread dst).chan n).free ++ [s.cycle] } :=
  ((AgendaOnly.offerSlot ..).thread dst).trans (State.modThread_thread_same ..)
theorem threadAgenda_freeSlot (s : State) (dst n : Nat) : ThreadAgenda dst s (s.freeSlot dst n) :=
  threadAgenda_trans (threadAgenda_of_threadOnly (threadOnly_modThread dst s _)) ((AgendaOnly.offerSlot ..).threadAgenda dst)

/-! ### SEND -/

/-- A flit of a thread that has not moved leaves, and its SEND is passed (R80). -/
theorem flitLeaves_spec {s u : State} {h : Nat} (stays : StaysAt h s u) (same : ∀ r, (u.thread h).getX r = (s.thread h).getX r)
    (cycle : u.cycle = s.cycle) (ctx : (u.thread h).ctx = (s.thread h).ctx) (dst n : Nat) (f : Flit) :
    let t := (u.sendFlit dst n f).pass 4
    WritesNone s t ∧ Passed 4 s t ∧ Due (s.cycle + 5 + 2 * hops (coreOf h) (coreOf dst)) (.flitArrival h dst n (s.thread h).ctx f) t ∧
      ThreadAgenda h u t := by
  have me : u.me = h := State.me_of_thread stays.cur
  have sent : StaysAt h s (u.sendFlit dst n f) := ⟨stays.before, stays.cur, stays.seq, stays.instret⟩
  refine ⟨sent.writesNone 4 same, sent.passed 4, due_pass 4 ?_,
    threadAgenda_trans ((AgendaOnly.later ..).threadAgenda h) (threadAgenda_of_threadOnly (threadOnly_pass sent.cur 4))⟩
  rw [State.sendFlit, State.myCore, State.self, me, ctx, Nat.add_assoc, ← cycle]
  exact State.due_later ..
/-- What SEND does (R80, R81). -/
def sendIssue (dst n : Nat) (f : Flit) (s : State) : State :=
  if s.self.claims.contains (dst, n) then ((s.modSelf fun t => { t with claims := t.claims.erase (dst, n) }).sendFlit dst n f).pass 4
  else match s.claimSlot s.me dst n with
    | some u => (u.sendFlit dst n f).pass 4
    | none =>
      let u := s.blocks (.send dst n)
      ((u.thread dst).chan n).free.foldl (fun u x => u.at_ (claimFrom u.me dst x) (.channelClaim u.me)) u
/-- The flit that SEND makes of its registers (R80). -/
def flitOf (s : State) (b a : Reg) : Flit := { data := s.getX a, tag := BitVec.ofNat 8 (wfield (s.getX b) 15 8) }
section
variable {s : State} {h : Nat} (thread : s.cur = .thread h)
include thread
theorem exec_send {b a : Reg} {n : BitVec 2} (runs : Spec.Runs (.send b a n) s) :
    exec (.send b a n) s = .next (sendIssue (256 * clusterOf h + wfield (s.getX b) 7 0) n.toNat (flitOf s b a) s) := by
  have run : exec (.send b a n) s = checkedBy (.send b a n) (fun _ => none) s fun s =>
    sendIssue (sendDest s.me (s.getX b)) n.toNat (flitOf s b a) s := rfl
  rw [run, checkedBy_runs thread runs rfl, State.me_of_thread thread]
  rfl
theorem sendIssue_claimed {dst n : Nat} (claimed : (dst, n) ∈ (s.thread h).claims) (f : Flit) : sendIssue dst n f s =
    ((s.modThread h fun t => { t with claims := t.claims.erase (dst, n) }).sendFlit dst n f).pass 4 := by
  have holds : s.self.claims.contains (dst, n) = true := by rw [State.self_of_thread thread, List.contains_iff_mem]; exact claimed
  rw [sendIssue, if_pos holds, State.modSelf, State.me_of_thread thread]
section
variable {dst n : Nat} (unclaimed : (dst, n) ∉ (s.thread h).claims) (f : Flit)
include unclaimed
theorem sendIssue_claims {u : State} (claims : s.claimSlot h dst n = some u) : sendIssue dst n f s = (u.sendFlit dst n f).pass 4 := by
  have lacks : ¬ s.self.claims.contains (dst, n) = true := by rw [State.self_of_thread thread, List.contains_iff_mem]; exact unclaimed
  rw [sendIssue, if_neg lacks, State.me_of_thread thread, claims]
theorem sendIssue_waits (none : s.claimSlot h dst n = none) : AgendaOnly (s.blocks (.send dst n)) (sendIssue dst n f s) := by
  have lacks : ¬ s.self.claims.contains (dst, n) = true := by rw [State.self_of_thread thread, List.contains_iff_mem]; exact unclaimed
  rw [sendIssue, if_neg lacks, State.me_of_thread thread, none]
  exact .foldl _ _ _ fun _ _ => .at_ ..
end
end

/-! ### Claims -/

/-- A sender that claims a freed slot takes it off the channel's free ones. -/
def State.withoutSlot (s : State) (dst n x : Nat) : State :=
  s.modThread dst fun t => t.setChan n { t.chan n with free := (t.chan n).free.erase x }
theorem State.claimSlot_of_free {s : State} {src dst n x : Nat} (free : x ∈ ((s.thread dst).chan n).free) (claimable : claimFrom src dst x ≤ s.cycle) :
    ∃ y, y ∈ ((s.thread dst).chan n).free ∧ s.claimSlot src dst n = some (s.withoutSlot dst n y) := by
  have some : (((s.thread dst).chan n).free.find? fun f => claimFrom src dst f ≤ s.cycle).isSome = true :=
    List.find?_isSome.mpr ⟨x, free, decide_eq_true claimable⟩
  obtain ⟨y, found⟩ := Option.isSome_iff_exists.mp some
  refine ⟨y, List.mem_of_find?_eq_some found, ?_⟩
  unfold State.claimSlot
  dsimp only
  rw [found]
  rfl
theorem State.claimSlot_of_none {s : State} {src dst n : Nat} (early : ∀ x, x ∈ ((s.thread dst).chan n).free → s.cycle < claimFrom src dst x) :
    s.claimSlot src dst n = none := by
  have none : (((s.thread dst).chan n).free.find? fun f => claimFrom src dst f ≤ s.cycle) = none :=
    List.find?_eq_none.mpr fun x free => by simpa using early x free
  unfold State.claimSlot
  dsimp only
  rw [none]
theorem State.withoutSlot_length {s : State} {dst n x : Nat} (free : x ∈ ((s.thread dst).chan n).free) :
    (((s.withoutSlot dst n x).thread dst).chan n).free.length + 1 = ((s.thread dst).chan n).free.length := by
  rw [State.withoutSlot, State.modThread_thread_same, Thread.setChan_chan]
  exact List.length_erase_add_one free
/-- What it changes of any thread is in its channels. -/
theorem State.withoutSlot_thread (s : State) (dst n x g : Nat) :
    (s.withoutSlot dst n x).thread g = { s.thread g with chans := ((s.withoutSlot dst n x).thread g).chans } := by
  rw [State.withoutSlot, State.modThread_thread]
  split
  next own =>
    rw [own]
    rfl
  · rfl

/-! ### RECV -/

/-- The oldest flit of a channel is taken, and its slot freed (R82). -/
def State.flitTaken (s : State) (h n : Nat) (fs : List Flit) : State :=
  (s.modThread h fun t => t.setChan n { t.chan n with flits := fs }).freeSlot h n
theorem State.flitTaken_thread (s : State) (h n : Nat) (fs : List Flit) :
    (s.flitTaken h n fs).thread h = { s.thread h with chans := ((s.flitTaken h n fs).thread h).chans } := by
  rw [State.flitTaken, State.freeSlot_thread, State.modThread_thread_same]
  rfl
theorem State.flitTaken_flits (s : State) (h n : Nat) (fs : List Flit) : (((s.flitTaken h n fs).thread h).chan n).flits = fs := by
  rw [State.flitTaken, State.freeSlot_thread, State.modThread_thread_same, Thread.setChan_chan, Thread.setChan_chan]
theorem threadAgenda_flitTaken (s : State) (h n : Nat) (fs : List Flit) : ThreadAgenda h s (s.flitTaken h n fs) :=
  threadAgenda_trans (threadAgenda_of_threadOnly (threadOnly_modThread h s _)) (threadAgenda_freeSlot _ h n)
section
variable {s : State} {h : Nat} (thread : s.cur = .thread h) {n : BitVec 2}
include thread
theorem takeFlit_of_flit {a d : Reg} {f : Flit} {fs : List Flit} (oldest : ((s.thread h).chan n.toNat).flits = f :: fs) (empty : State → State) :
    takeFlit n a d s empty = (((s.flitTaken h n.toNat fs).setX d f.data).setX a (f.tag.zeroExtend 64)).pass 4 := by
  unfold takeFlit
  have own (f : Thread → Thread) : (s.modThread h f).me = h := State.me_of_thread thread
  rw [State.self_of_thread thread, oldest]
  dsimp only
  rw [State.modSelf, State.me_of_thread thread, own]
  rfl
theorem takeFlit_of_none {a d : Reg} (none : ((s.thread h).chan n.toNat).flits = []) (empty : State → State) : takeFlit n a d s empty = empty s := by
  unfold takeFlit
  rw [State.self_of_thread thread, none]
/-- The oldest flit goes to the registers, and its instruction is passed. -/
theorem takesFlit_spec (a d : Reg) (f : Flit) (fs : List Flit) :
    let t := (((s.flitTaken h n.toNat fs).setX d f.data).setX a (f.tag.zeroExtend 64)).pass 4
    Spec.WritesTwo s t d f.data a (f.tag.zeroExtend 64) ∧ Passed 4 s t ∧ ((t.thread h).chan n.toNat).flits = fs ∧ ThreadAgenda h s t := by
  have only := threadAgenda_flitTaken s h n.toNat fs
  have own := s.flitTaken_thread h n.toNat fs
  have cur : (s.flitTaken h n.toNat fs).cur = .thread h := by rw [only.1]; exact thread
  have stays : StaysAt h s (s.flitTaken h n.toNat fs) := ⟨thread, cur, by rw [own], by rw [own]⟩
  obtain ⟨writes, passed, rest⟩ := twoResults_spec stays (fun r => by rw [own]; rfl) d a f.data (f.tag.zeroExtend 64)
  refine ⟨writes, passed, ?_, threadAgenda_trans only (threadAgenda_of_threadOnly rest)⟩
  have first := stays.setX d f.data
  have second := first.setX a (f.tag.zeroExtend 64)
  have chan : ((((((s.flitTaken h n.toNat fs).setX d f.data).setX a (f.tag.zeroExtend 64)).pass 4).thread h).chan n.toNat) =
      ((s.flitTaken h n.toNat fs).thread h).chan n.toNat := by
    rw [State.pass_thread 4 second.cur, State.setX_of_thread first.cur, State.modThread_thread_same, State.setX_of_thread cur,
      State.modThread_thread_same]
    exact (Thread.setX_chan ..).trans (Thread.setX_chan ..)
  rw [chan, State.flitTaken_flits]
theorem exec_recv {a d : Reg} (apart : a ≠ d ∨ a = 0) (runs : Spec.Runs (.recv n a d) s) :
    exec (.recv n a d) s = .next (takeFlit n a d s fun s => s.blocks (.recv n.toNat)) := by
  have run : exec (.recv n a d) s = checkedBy (.recv n a d) (twoDest a d) s fun s => takeFlit n a d s fun s => s.blocks (.recv n.toNat) := rfl
  rw [run, checkedBy_runs thread runs (twoDest_passes apart s)]
theorem exec_recvn {a d : Reg} (apart : a ≠ d ∨ a = 0) (runs : Spec.Runs (.recvn n a d) s) :
    exec (.recvn n a d) s = .next (takeFlit n a d s fun s => ((s.setX d 0).setX a (BitVec.allOnes 64)).pass 4) := by
  have run : exec (.recvn n a d) s = checkedBy (.recvn n a d) (twoDest a d) s fun s => takeFlit n a d s fun s =>
    ((s.setX d 0).setX a (BitVec.allOnes 64)).pass 4 := rfl
  rw [run, checkedBy_runs thread runs (twoDest_passes apart s)]
end

/-! ### Flits that arrive and senders that are woken -/

/-- A flit behind those that its channel holds (R80). -/
def State.withFlit (s : State) (h n : Nat) (f : Flit) : State :=
  s.modThread h fun t => t.setChan n { t.chan n with flits := (t.chan n).flits ++ [f] }
/-- A flit enters its channel, and wakes the thread if it waits there (R80, R82). -/
def State.flitEnters (s : State) (h n : Nat) (f : Flit) : State :=
  match (s.thread h).run with
  | .blocked (.recv m) => if m = n then (s.withFlit h n f).later 2 (.recvWake h) else s.withFlit h n f
  | _ => s.withFlit h n f
theorem exec_flitArrival {s : State} {src h n c : Nat} {f : Flit} (takes : s.ev = some (.flitArrival src h n c f)) : exec .flitArrival s = .next (
    if (s.thread h).run = .unused || (s.thread h).run = .exited || (s.thread h).ctx ≠ c then s.freeSlot h n else s.flitEnters h n f) := by
  have run : exec .flitArrival s = execFlitArrival s := rfl
  exact run.trans (onEvent_some s _ _ takes)
theorem State.flitEnters_of_waiting {s : State} {h n : Nat} (waits : (s.thread h).run = .blocked (.recv n)) (f : Flit) :
    s.flitEnters h n f = (s.withFlit h n f).later 2 (.recvWake h) := by
  unfold State.flitEnters
  rw [waits]
  exact if_pos rfl
/-- But for that event nothing else differs. -/
theorem State.flitEnters_only (s : State) (h n : Nat) (f : Flit) : AgendaOnly (s.withFlit h n f) (s.flitEnters h n f) := by
  unfold State.flitEnters
  split
  · exact .ite (.later ..) (.refl _)
  · exact .refl _
theorem exec_recvWake {s : State} {h n : Nat} (takes : s.ev = some (.recvWake h)) (waits : (s.thread h).run = .blocked (.recv n)) :
    exec .recvWake s = .next (s.wake h) := by
  have run : exec .recvWake s = execRecvWake s := rfl
  rw [run, execRecvWake, onEvent_some s _ _ takes]
  dsimp only
  rw [waits]
theorem exec_channelClaim {s u : State} {h dst n : Nat} (takes : s.ev = some (.channelClaim h)) (waits : (s.thread h).run = .blocked (.send dst n))
    (claims : s.claimSlot h dst n = some u) :
    exec .channelClaim s = .next ((u.modThread h fun t => { t with claims := t.claims ++ [(dst, n)] }).wake h) := by
  have run : exec .channelClaim s = execChannelClaim s := rfl
  rw [run, execChannelClaim, onEvent_some s _ _ takes]
  dsimp only
  rw [waits]
  dsimp only
  rw [claims]

end Sys2Proof.Machine

open Sys2Proof Sys2Proof.Machine Sys2Proof.Spec

theorem sendInstruction {s : State} {h : Nat} (thread : s.cur = .thread h) (b a : Reg) (n : BitVec 2) (runs : Runs (.send b a n) s) :
    let dst := 256 * clusterOf h + wfield (s.getX b) 7 0
    ((dst, n.toNat) ∈ (s.thread h).claims → Completes (.send b a n) s fun t => WritesNone s t ∧ Passed 4 s t ∧
      Due (s.cycle + 5 + 2 * hops (coreOf h) (coreOf dst)) (.flitArrival h dst n.toNat (s.thread h).ctx (flitOf s b a)) t ∧
      (t.thread h).claims = (s.thread h).claims.erase (dst, n.toNat) ∧ ThreadAgenda h s t) ∧
    ((dst, n.toNat) ∉ (s.thread h).claims →
      ((∃ x, x ∈ ((s.thread dst).chan n.toNat).free ∧ claimFrom h dst x ≤ s.cycle) → Completes (.send b a n) s fun t =>
        WritesNone s t ∧ Passed 4 s t ∧
        Due (s.cycle + 5 + 2 * hops (coreOf h) (coreOf dst)) (.flitArrival h dst n.toNat (s.thread h).ctx (flitOf s b a)) t ∧
        ((t.thread dst).chan n.toNat).free.length + 1 = ((s.thread dst).chan n.toNat).free.length) ∧
      ((∀ x, x ∈ ((s.thread dst).chan n.toNat).free → s.cycle < claimFrom h dst x) → Completes (.send b a n) s fun t =>
        BlockedFor h (.send dst n.toNat) t ∧ t.pc = s.pc ∧ WritesNone s t ∧ ThreadAgenda h s t)) := by
  intro dst
  have run := exec_send thread runs
  refine ⟨fun claimed => ?_, fun unclaimed => ⟨fun ⟨x, free, claimable⟩ => ?_, fun early => ?_⟩⟩
  · rw [sendIssue_claimed thread claimed] at run
    have own : (s.modThread h fun t => { t with claims := t.claims.erase (dst, n.toNat) }).thread h =
        { s.thread h with claims := (s.thread h).claims.erase (dst, n.toNat) } := State.modThread_thread_same ..
    have stays : StaysAt h s (s.modThread h fun t => { t with claims := t.claims.erase (dst, n.toNat) }) :=
      ⟨thread, thread, by rw [own], by rw [own]⟩
    obtain ⟨reads, passed, due, leaves⟩ := flitLeaves_spec stays (fun r => by rw [own]; rfl) rfl (by rw [own]) dst n.toNat (flitOf s b a)
    refine ⟨_, run, reads, passed, due, ?_, ?_⟩
    · rw [State.pass_thread 4 (by exact thread)]
      exact congrArg Thread.claims own
    · exact threadAgenda_trans (threadAgenda_of_threadOnly (threadOnly_modThread h s _)) leaves
  · obtain ⟨y, taken, claims⟩ := State.claimSlot_of_free free claimable
    rw [sendIssue_claims thread unclaimed _ claims] at run
    have own := s.withoutSlot_thread dst n.toNat y h
    have stays : StaysAt h s (s.withoutSlot dst n.toNat y) := ⟨thread, thread, by rw [own], by rw [own]⟩
    obtain ⟨reads, passed, due, -⟩ := flitLeaves_spec stays (fun r => by rw [own]; rfl) rfl (by rw [own]) dst n.toNat (flitOf s b a)
    refine ⟨_, run, reads, passed, due, ?_⟩
    have chan : (((((s.withoutSlot dst n.toNat y).sendFlit dst n.toNat (flitOf s b a)).pass 4).thread dst).chan n.toNat) =
        ((s.withoutSlot dst n.toNat y).thread dst).chan n.toNat := by
      by_cases self : dst = h
      · rw [self, State.pass_thread 4 (by exact thread)]
        rfl
      · rw [(threadOnly_pass (h := h) (by exact thread) 4).2 dst self]
        rfl
    rw [chan]
    exact State.withoutSlot_length taken
  · obtain ⟨held, stays, reads, only⟩ := blocks_spec thread (.send dst n.toNat)
    have rest := sendIssue_waits thread unclaimed (flitOf s b a) (State.claimSlot_of_none early)
    have behind : (s.blocks (.send dst n.toNat)).cur = .thread h := thread
    refine ⟨_, run, ?_, (pc_of_thread_eq behind rest.cur (by rw [rest.thread])).trans stays,
      fun r => (writesNone_of_thread behind rest.cur (fun r => by rw [rest.thread]) r).trans (reads r), threadAgenda_trans only (rest.threadAgenda h)⟩
    rw [BlockedFor, rest.thread]
    exact held
theorem channelInstructions : ChannelInstructions := by
  intro s h thread
  refine ⟨fun b a n runs => sendInstruction thread b a n runs, fun n a d f fs oldest apart => ⟨fun runs => ?_, fun runs => ?_⟩,
    fun n a d none apart => ⟨fun runs => ?_, fun runs => ?_⟩⟩
  · have run := exec_recv thread apart runs
    rw [takeFlit_of_flit thread oldest] at run
    exact ⟨_, run, takesFlit_spec thread a d f fs⟩
  · have run := exec_recvn thread apart runs
    rw [takeFlit_of_flit thread oldest] at run
    exact ⟨_, run, takesFlit_spec thread a d f fs⟩
  · have run := exec_recv thread apart runs
    rw [takeFlit_of_none thread none] at run
    obtain ⟨held, stays, reads, -⟩ := blocks_spec thread (.recv n.toNat)
    exact ⟨_, run, held, stays, reads, threadOnly_blocks thread _⟩
  · have run := exec_recvn thread apart runs
    rw [takeFlit_of_none thread none] at run
    exact ⟨_, run, twoResults_regsOnly thread d a 0 (BitVec.allOnes 64)⟩
theorem channelSteps : ChannelSteps := by
  intro s h n
  refine ⟨fun src f takes used living => ?_, fun src f c takes gone => ?_, fun takes waits => ?_, fun dst x takes waits other free claimable => ?_⟩
  · have run := exec_flitArrival takes
    have enters : ((s.thread h).run = .unused || (s.thread h).run = .exited || (s.thread h).ctx ≠ (s.thread h).ctx) ≠ true := by simp [used, living]
    rw [if_neg enters] at run
    have only := s.flitEnters_only h n f
    refine ⟨_, run, ?_, threadAgenda_trans (threadAgenda_of_threadOnly (threadOnly_modThread h s _)) (only.threadAgenda h), fun waits => ?_⟩
    · rw [only.thread, State.withFlit, State.modThread_thread_same, Thread.setChan_chan]
    · rw [State.flitEnters_of_waiting waits]
      exact State.due_later ..
  · have run := exec_flitArrival takes
    have leaves : ((s.thread h).run = .unused || (s.thread h).run = .exited || (s.thread h).ctx ≠ c) = true := by
      rcases gone with unused | exited | foreign
      · simp [unused]
      · simp [exited]
      · simp [Ne.symm foreign]
    rw [if_pos leaves] at run
    have own : ((s.freeSlot h n).thread h).chan n = { (s.thread h).chan n with free := ((s.thread h).chan n).free ++ [s.cycle] } := by
      rw [State.freeSlot_thread, Thread.setChan_chan]
    exact ⟨_, run, by rw [own], by rw [own], threadAgenda_freeSlot s h n⟩
  · have own := State.wake_blocked s h _ waits
    exact ⟨_, exec_recvWake takes waits, ⟨by rw [own], by rw [own]⟩, by rw [own], threadOnly_wake h s⟩
  · obtain ⟨y, taken, claims⟩ := State.claimSlot_of_free free claimable
    have run := exec_channelClaim takes waits claims
    have claimed : (((s.withoutSlot dst n y).modThread h fun t => { t with claims := t.claims ++ [(dst, n)] }).thread h) =
        { s.thread h with claims := (s.thread h).claims ++ [(dst, n)] } := by
      rw [State.modThread_thread_same, State.withoutSlot, State.modThread_thread, if_neg (Ne.symm other)]
    have own := State.wake_blocked _ h _ (by rw [claimed]; exact waits)
    rw [claimed] at own
    refine ⟨_, run, by rw [own], ⟨by rw [own], by rw [own]; rfl⟩, ?_⟩
    rw [(threadOnly_wake h _).2 dst other, (threadOnly_modThread h _ _).2 dst other]
    exact State.withoutSlot_length taken
/-- Settles O22: which flit goes where, what waits for it, and which slot a sender takes. -/
theorem channels : Obligations.Channels := ⟨channelInstructions, channelSteps⟩
end

section
/-!
SUPPORT and O25. The inbox of a core: what puts a message there or takes it, and a thread that enters its handler and comes back.
-/

namespace Sys2Proof.Machine
open Spec (ThreadOnly ThreadAgenda WritesTwo WritesNone Passed)

/-! ### Messages that are taken -/

theorem State.acquire_inbox (s : State) (h scope c : Nat) : ((s.acquire h scope).core c).inbox = (s.core c).inbox := by
  have forgets (u : State) : ((u.forgets h scope).core c) = u.core c := by
    unfold State.forgets
    split <;> rfl
  rw [State.acquire, forgets]
  unfold State.dropClean
  split
  · rfl
  · rw [State.modCore_core]
    split
    next own => rw [own]
    · rfl
/-- The oldest message leaves the inbox, with none held behind it: the thread acquires, and the next message may interrupt (R94, R96). -/
def State.messageTaken (s : State) (h : Nat) (ms : List (Nat × Msg)) : State :=
  let u := s.modCore (coreOf h) fun k => { k with inbox := ms }
  (if ms = [] then u else u.later 1 (.uiDelivery (coreOf h))).acquire h 4
theorem SentOnly.messageTaken (s : State) (h : Nat) (ms : List (Nat × Msg)) : SentOnly s (s.messageTaken h ms) :=
  ((SentOnly.modCore s _ _ rfl).trans (.ite (.refl _) (.later ..))).trans (.acquire ..)
theorem State.messageTaken_inbox (s : State) (h : Nat) (ms : List (Nat × Msg)) : ((s.messageTaken h ms).core (coreOf h)).inbox = ms := by
  have own : ((s.modCore (coreOf h) fun k => { k with inbox := ms }).core (coreOf h)).inbox = ms := by rw [State.modCore_core_same]
  rw [State.messageTaken, State.acquire_inbox]
  split <;> exact own
section
variable {s : State} {h : Nat} (thread : s.cur = .thread h) {a d : Reg}
include thread
theorem takeMsg_of_message {k : Nat} {m : Msg} {ms : List (Nat × Msg)} (oldest : (s.core (coreOf h)).inbox = (k, m) :: ms)
    (behind : (s.core (coreOf h)).held = []) (empty : State → State) :
    takeMsg a d s empty = (((s.messageTaken h ms).setX d m.w0).setX a m.w1).pass 4 := by
  have core : s.myCore = coreOf h := congrArg coreOf (State.me_of_thread thread)
  have held : ((s.modCore (coreOf h) fun k => { k with inbox := ms }).core (coreOf h)).held = [] := by rw [State.modCore_core_same, behind]
  have me : (if ms = [] then s.modCore (coreOf h) fun k => { k with inbox := ms }
      else (s.modCore (coreOf h) fun k => { k with inbox := ms }).later 1 (.uiDelivery (coreOf h))).me = h := by
    split <;> exact State.me_of_thread thread
  unfold takeMsg
  dsimp only
  rw [core, oldest]
  dsimp only
  rw [held]
  dsimp only
  rw [me]
  rfl
theorem takeMsg_of_none (none : (s.core (coreOf h)).inbox = []) (empty : State → State) : takeMsg a d s empty = empty s := by
  have core : s.myCore = coreOf h := congrArg coreOf (State.me_of_thread thread)
  unfold takeMsg
  dsimp only
  rw [core, none]
/-- A message goes to the registers, and its instruction is passed. -/
theorem takesMessage_spec (a d : Reg) (m : Msg) (ms : List (Nat × Msg)) :
    let t := (((s.messageTaken h ms).setX d m.w0).setX a m.w1).pass 4
    WritesTwo s t d m.w0 a m.w1 ∧ Passed 4 s t ∧ (t.core (coreOf h)).inbox = ms ∧ t.mem = s.mem := by
  have sent := SentOnly.messageTaken s h ms
  obtain ⟨writes, passed, ⟨frame, -⟩⟩ := twoResults_spec (sent.staysAt thread) (fun r => by rw [sent.thread]) d a m.w0 m.w1
  refine ⟨writes, passed, ?_, ?_⟩
  · rw [frame]
    exact s.messageTaken_inbox h ms
  · rw [frame]
    exact sent.mem
variable (apart : a ≠ d ∨ a = 0) (ungated : Spec.Ungated s)
include apart ungated
theorem exec_ibx (runs : Spec.Runs (.ibx a d) s) : exec (.ibx a d) s = .next (takeMsg a d s fun s => s.blocks .inbox) := by
  have run : exec (.ibx a d) s = checkedBy (.ibx a d) (twoDest a d) s fun s => s.gated true fun s => takeMsg a d s fun s => s.blocks .inbox := rfl
  rw [run, checkedBy_runs thread runs (twoDest_passes apart s), State.gated_of_ungated _ _ _ ungated]
theorem exec_ibxn (runs : Spec.Runs (.ibxn a d) s) :
    exec (.ibxn a d) s = .next (takeMsg a d s fun s => ((s.setX d 0).setX a 0).pass 4) := by
  have run : exec (.ibxn a d) s = checkedBy (.ibxn a d) (twoDest a d) s fun s => s.gated true fun s => takeMsg a d s fun s =>
    ((s.setX d 0).setX a 0).pass 4 := rfl
  rw [run, checkedBy_runs thread runs (twoDest_passes apart s), State.gated_of_ungated _ _ _ ungated]
end

/-! ### UIEN and UIRET -/

section
variable {s : State} {h : Nat} (thread : s.cur = .thread h)
include thread
theorem exec_uien {a d : Reg} (runs : Spec.Runs (.uien a d) s) : exec (.uien a d) s = .next ((((s.modThread h fun t =>
    { t with uiEn := wbit (s.getX a) 0 }).setX d (word (b2n (s.thread h).uiEn))).pass 4).seeInterrupts (coreOf h) 0x022) := by
  have run : exec (.uien a d) s = checkedBy (.uien a d) (fun _ => none) s fun s =>
    (((s.modSelf fun t => { t with uiEn := wbit (s.getX a) 0 }).setX d (word (b2n s.self.uiEn))).pass 4).seeInterrupts s.myCore 0x022 := rfl
  have core : s.myCore = coreOf h := congrArg coreOf (State.me_of_thread thread)
  rw [run, checkedBy_runs thread runs rfl, core, State.self_of_thread thread, State.modSelf, State.me_of_thread thread]
/-- The enable is exchanged: its old value is in the register, and nothing but the thread and the agenda differs. -/
theorem exchangesEnable_spec (d : Reg) (v : Word) (new : Bool) :
    let t := (((s.modThread h fun t => { t with uiEn := new }).setX d v).pass 4).seeInterrupts (coreOf h) 0x022
    Spec.Writes s t d v ∧ Passed 4 s t ∧ (t.thread h).uiEn = new ∧ ThreadAgenda h s t := by
  have enabled : (s.modThread h fun t => { t with uiEn := new }).thread h = { s.thread h with uiEn := new } := State.modThread_thread_same ..
  have begun : StaysAt h s (s.modThread h fun t => { t with uiEn := new }) := ⟨thread, thread, by rw [enabled], by rw [enabled]⟩
  have stays := begun.setX d v
  have sees := AgendaOnly.seeInterrupts (((s.modThread h fun t => { t with uiEn := new }).setX d v).pass 4) (coreOf h) 0x022
  have passes := State.pass_thread 4 stays.cur
  rw [State.setX_of_thread begun.cur, State.modThread_thread_same, enabled, ← State.setX_of_thread begun.cur, ← sees.thread h] at passes
  have cur := sees.cur.trans (State.pass_cur ..) |>.trans (stays.cur.trans thread.symm)
  have only := threadOnly_trans (threadOnly_trans (threadOnly_modThread h s fun t => { t with uiEn := new }) (threadOnly_setX begun.cur d v))
    (threadOnly_pass stays.cur 4)
  refine ⟨writes_of_thread thread cur fun r => ?_, passed_of_thread thread cur ?_ ?_, ?_,
    threadAgenda_trans (threadAgenda_of_threadOnly only) (sees.threadAgenda h)⟩
  · have before : ({ s.thread h with uiEn := new } : Thread).getX r = (s.thread h).getX r := rfl
    rw [passes, ← before, ← Thread.setX_getX]
    apply Thread.getX_congr <;> simp
  · rw [passes]
    dsimp only
    rw [Seq.pass_x, Thread.setX_seq, Seq.pass_withX]
  · rw [passes]
    dsimp only
    rw [Thread.setX_instret]
  · rw [passes]
    dsimp only
    rw [Thread.setX_only]

/-- A thread that has left its handler (R97). -/
def Thread.leavesHandler (t : Thread) : Thread :=
  { t with uiAct := false, seq := { t.seq with rpt := t.shadowRpt, skip := t.shadowSkip }, shadowRpt := 0, shadowSkip := 0 }
/-- UIRET behind its checks; u is the state with the trace of the transfer. -/
theorem exec_uiret (runs : Spec.Runs .uiret s) (handler : (s.thread h).uiAct = true) (even : wbit (s.thread h).shadow[5] 0 = false) :
    ∃ u, u = { s with clusters := u.clusters } ∧ (Spec.NoTrace s → u = s) ∧
      exec .uiret s = .next (((u.jump (s.thread h).shadow[5]).modThread h Thread.leavesHandler).seeInterrupts (coreOf h) 0x022) := by
  have run : exec .uiret s = checkedBy .uiret (fun s =>
      if !s.self.uiAct then some (2, 0) else if wbit s.self.shadow[5] 0 then some (4, s.self.shadow[5]) else none) s fun s =>
    (((traceEvent (clusterOf s.me) 5 s.me 0 s.pc s).jump s.self.shadow[5]).modSelf Thread.leavesHandler).seeInterrupts
      ((traceEvent (clusterOf s.me) 5 s.me 0 s.pc s).jump s.self.shadow[5]).myCore 0x022 := rfl
  have me : ((traceEvent (clusterOf h) 5 h 0 s.pc s).jump (s.thread h).shadow[5]).me = h := by
    refine State.me_of_thread ((State.jump_cur ..).trans ?_)
    rw [traceEvent_only]
    exact thread
  refine ⟨traceEvent (clusterOf h) 5 h 0 s.pc s, traceEvent_only .., fun untraced => traceEvent_off _ _ _ _ _ _ (untraced _), ?_⟩
  rw [run, checkedBy_runs thread runs (by rw [State.self_of_thread thread, handler, even]; rfl), State.self_of_thread thread,
    State.me_of_thread thread, State.modSelf, State.myCore, me]
end

/-! ### Messages that arrive -/

theorem State.enterInbox_cores (s : State) (core : Nat) (m : Msg) :
    (s.enterInbox core m).cores = (s.modCore core fun k => { k with inbox := k.inbox ++ [(s.cycle, m)] }).cores :=
  List.foldlRecOn (List.range 4) _
    (motive := fun u : State => u.cores = (s.modCore core fun k => { k with inbox := k.inbox ++ [(s.cycle, m)] }).cores) rfl fun u same i _ => by
      dsimp only
      split
      · exact same
      · exact same
theorem State.enterInbox_inbox (s : State) (core : Nat) (m : Msg) :
    ((s.enterInbox core m).core core).inbox = (s.core core).inbox ++ [(s.cycle, m)] := by
  rw [State.core, State.enterInbox_cores, ← State.core, State.modCore_core_same]
/-- A message for a context whose cores are saved is kept with them (R93). -/
def Core.keeps (cycle core : Nat) (m : Msg) (n : Nat) (k : Core) : Core :=
  if n ≠ core then k else if 64 ≤ k.inbox.length then { k with held := k.held ++ [m] } else { k with inbox := k.inbox ++ [(cycle, m)] }
theorem exec_inboxMessageArrival {s : State} {core ctx : Nat} {m : Msg} (takes : s.ev = some (.inboxMessageArrival core ctx m)) :
    exec .inboxMessageArrival s = .next (
      if (s.ctx ctx).any Ctx.away then s.modCtx ctx fun x => { x with saved := x.saved.map fun v =>
        { v with cores := tmap (Core.keeps s.cycle core m) v.cores } }
      else if (s.core core).holder ≠ some ctx then s
      else if 64 ≤ (s.core core).inbox.length then s.modCore core fun k => { k with held := k.held ++ [m] }
      else s.enterInbox core m) := by
  have run : exec .inboxMessageArrival s = execInboxMessageArrival s := rfl
  rw [run, execInboxMessageArrival, onEvent_some s _ _ takes]
  rfl
theorem tfind_tmap {β : Type} (f : Nat → β → β) (t : Table β) (n : Nat) : tfind (tmap f t) n = (tfind t n).map (f n) := by
  induction t with
  | nil => rfl
  | cons x t ih =>
    obtain ⟨k, b⟩ := x
    unfold tmap at ih ⊢
    simp only [List.map_cons, tfind]
    split
    next e =>
      rw [e]
      rfl
    next other =>
      split
      · rfl
      · exact ih
theorem State.modCtx_ctx_same {s : State} {c : Nat} {x : Ctx} (found : s.ctx c = some x) (f : Ctx → Ctx) : (s.modCtx c f).ctx c = some (f x) := by
  unfold State.ctx at found
  unfold State.modCtx
  rw [found]
  exact (tfind_tset ..).trans (if_pos rfl)

/-! ### A thread that is interrupted -/

theorem State.back_of_ready {s : State} {h : Nat} (ready : (s.thread h).run = .ready) :
    (s.back h).thread h = { s.thread h with relAt := none, drawWait := false, walkFault := none } := by
  unfold State.back
  rw [State.modThread_thread_same]
  split
  next w waits => cases ready.symm.trans waits
  next => rfl
theorem wants_of_interruptible {s : State} {kind h : Nat} (free : s.interruptible kind h = true) : wants kind (s.thread h) = true := by
  by_contra unwanted
  rw [State.interruptible, Bool.eq_false_iff.mpr unwanted] at free
  exact absurd free Bool.false_ne_true
/-- The oldest message interrupts a thread that is between its instructions (R96). -/
theorem exec_uiDelivery {s : State} {core c h : Nat} {m : Msg} {ms : List (Nat × Msg)} (takes : s.ev = some (.uiDelivery core))
    (oldest : (s.core core).inbox = (c, m) :: ms) (due : c + 2 ≤ s.cycle)
    (first : ((List.range 4).map (8 * core + ·)).find? (s.interruptible (wfield m.w0 7 0)) = some h)
    (outside : ∀ i, i < 4 → liveThread (s.thread (8 * core + i)) = true → (s.thread (8 * core + i)).uiAct = false)
    (ready : (s.thread h).run = .ready) (skip : (s.thread h).seq.skip = 0) (pend : (s.thread h).pend = []) :
    exec .uiDelivery s = .next (enterHandler h (s.back h)) := by
  have run : exec .uiDelivery s = execUiDelivery s := rfl
  have wanted : ((List.range 4).map (8 * core + ·)).any (fun h => wants (wfield m.w0 7 0) (s.thread h)) = true :=
    List.any_eq_true.mpr ⟨h, List.mem_of_find?_eq_some first, wants_of_interruptible (List.find?_some first)⟩
  have noHandler : ((List.range 4).map (8 * core + ·)).any (fun h => liveThread (s.thread h) && (s.thread h).uiAct) = false := by
    refine List.any_eq_false.mpr fun g member => ?_
    obtain ⟨i, low, rfl⟩ := List.mem_map.mp member
    intro both
    obtain ⟨live, inside⟩ := Bool.and_eq_true_iff.mp both
    rw [outside i (List.mem_range.mp low) live] at inside
    exact absurd inside Bool.false_ne_true
  rw [run, execUiDelivery, onEvent_some s _ _ takes]
  dsimp only
  rw [oldest]
  dsimp only
  rw [if_neg (Nat.not_lt.mpr due), wanted, noHandler, first]
  dsimp only
  rw [State.withdraw_of_ready ready skip pend]
  rfl

end Sys2Proof.Machine

open Sys2Proof Sys2Proof.Machine Sys2Proof.Spec

theorem uiretInstruction {s : State} {h : Nat} (thread : s.cur = .thread h) (runs : Runs .uiret s) (handler : (s.thread h).uiAct = true)
    (even : wbit (s.thread h).shadow[5] 0 = false) : Completes .uiret s fun t =>
      t.pc = (s.thread h).shadow[5] ∧ (t.thread h).uiAct = false ∧ (t.thread h).seq.x = (s.thread h).seq.x ∧
      (t.thread h).seq.rpt = (s.thread h).shadowRpt ∧ (t.thread h).seq.skip = (s.thread h).shadowSkip ∧ Counted s t ∧
      (NoTrace s → ThreadAgenda h s t) := by
  obtain ⟨u, traced, untraced, run⟩ := exec_uiret thread runs handler even
  have cur : u.cur = .thread h := by rw [traced]; exact thread
  have same : u.thread h = s.thread h := by rw [traced]; rfl
  have sees := AgendaOnly.seeInterrupts ((u.jump (s.thread h).shadow[5]).modThread h Thread.leavesHandler) (coreOf h) 0x022
  have cur' := sees.cur.trans ((State.jump_cur ..).trans cur)
  have own := sees.thread h
  rw [State.modThread_thread_same, State.jump_thread cur, same] at own
  refine ⟨_, run, ?_, by rw [own]; rfl, by rw [own]; rfl, by rw [own]; rfl, by rw [own]; rfl, fun g issues => ?_, fun silent => ?_⟩
  · rw [State.pc_of_thread cur', own]
    rfl
  · obtain rfl : g = h := by simpa [thread] using issues.symm
    rw [own]
    rfl
  · obtain rfl := untraced silent
    have jump : ThreadOnly h u (u.jump (u.thread h).shadow[5]) := by
      have only := (regsOnly_jump u (u.thread h).shadow[5]).2
      rw [thread] at only
      exact only.1
    exact threadAgenda_trans (threadAgenda_of_threadOnly (threadOnly_trans jump (threadOnly_modThread h _ _))) (sees.threadAgenda h)
theorem inboxInstructions : InboxInstructions := by
  intro s h a d thread
  refine ⟨fun k m ms ungated oldest behind apart => ⟨fun runs => ?_, fun runs => ?_⟩,
    fun ungated none apart => ⟨fun runs => ?_, fun runs => ?_⟩, fun runs => ?_, fun runs handler even => uiretInstruction thread runs handler even⟩
  · have run := exec_ibx thread apart ungated runs
    rw [takeMsg_of_message thread oldest behind] at run
    exact ⟨_, run, takesMessage_spec thread a d m ms⟩
  · have run := exec_ibxn thread apart ungated runs
    rw [takeMsg_of_message thread oldest behind] at run
    exact ⟨_, run, takesMessage_spec thread a d m ms⟩
  · have run := exec_ibx thread apart ungated runs
    rw [takeMsg_of_none thread none] at run
    obtain ⟨held, stays, reads, -⟩ := blocks_spec thread .inbox
    exact ⟨_, run, held, stays, reads, threadOnly_blocks thread _⟩
  · have run := exec_ibxn thread apart ungated runs
    rw [takeMsg_of_none thread none] at run
    exact ⟨_, run, twoResults_regsOnly thread d a 0 0⟩
  · have old : word (b2n (s.thread h).uiEn) = if (s.thread h).uiEn then 1 else 0 := by cases (s.thread h).uiEn <;> rfl
    have run := exec_uien thread runs
    rw [old] at run
    exact ⟨_, run, exchangesEnable_spec thread d _ _⟩
theorem inboxMessageSteps {s : State} {core ctx : Nat} {m : Msg} (takes : Takes (.inboxMessageArrival core ctx m) s) :
    ((∀ x, s.ctx ctx = some x → x.away = false) →
      ((s.core core).holder = some ctx → (s.core core).inbox.length < 64 → Completes .inboxMessageArrival s fun t =>
        (t.core core).inbox = (s.core core).inbox ++ [(s.cycle, m)] ∧ t.mem = s.mem) ∧
      ((s.core core).holder = some ctx → 64 ≤ (s.core core).inbox.length → Completes .inboxMessageArrival s fun t =>
        (t.core core).inbox = (s.core core).inbox ∧ (t.core core).held = (s.core core).held ++ [m]) ∧
      ((s.core core).holder ≠ some ctx → Completes .inboxMessageArrival s fun t => t = s)) ∧
    (∀ x v k, s.ctx ctx = some x → x.away = true → x.saved = some v → tfind v.cores core = some k →
      Completes .inboxMessageArrival s fun t => t.cores = s.cores ∧ t.mem = s.mem ∧ ∃ y u l, t.ctx ctx = some y ∧ y.saved = some u ∧
        tfind u.cores core = some l ∧ (k.inbox.length < 64 → l = { k with inbox := k.inbox ++ [(s.cycle, m)] }) ∧
        (64 ≤ k.inbox.length → l = { k with held := k.held ++ [m] })) := by
  have run := exec_inboxMessageArrival takes
  refine ⟨fun here => ?_, fun x v k found away saved kept => ?_⟩
  · have present : ¬ (s.ctx ctx).any Ctx.away = true := by
      rw [Option.any_eq_true]
      rintro ⟨x, found, away⟩
      rw [here x found] at away
      exact absurd away Bool.false_ne_true
    rw [if_neg present] at run
    refine ⟨fun holds room => ?_, fun holds full => ?_, fun foreign => ?_⟩
    · rw [if_neg (not_not_intro holds), if_neg (Nat.not_le.mpr room)] at run
      exact ⟨_, run, s.enterInbox_inbox core m, State.enterInbox_mem ..⟩
    · rw [if_neg (not_not_intro holds), if_pos full] at run
      exact ⟨_, run, by rw [State.modCore_core_same], by rw [State.modCore_core_same]⟩
    · rw [if_pos foreign] at run
      exact ⟨_, run, rfl⟩
  · have absent : (s.ctx ctx).any Ctx.away = true := by
      rw [found]
      exact away
    rw [if_pos absent] at run
    refine ⟨_, run, State.modCtx_cores .., State.modCtx_mem .., _, { v with cores := tmap (Core.keeps s.cycle core m) v.cores },
      Core.keeps s.cycle core m core k, State.modCtx_ctx_same found _, ?_, ?_, fun room => ?_, fun full => ?_⟩
    · dsimp only
      rw [saved]
      rfl
    · rw [tfind_tmap, kept]
      rfl
    · rw [Core.keeps, if_neg (not_not_intro rfl), if_neg (Nat.not_le.mpr room)]
    · rw [Core.keeps, if_neg (not_not_intro rfl), if_pos full]
theorem inboxSteps : InboxSteps := by
  intro s core
  refine ⟨fun ctx m takes => (inboxMessageSteps takes).1, fun ctx m x v k takes => (inboxMessageSteps takes).2 x v k,
    fun c m ms h takes oldest due first outside ready skip pend => ?_⟩
  have own : (enterHandler h (s.back h)).thread h = _ := State.modThread_thread_same ..
  rw [State.back_of_ready ready] at own
  refine ⟨_, exec_uiDelivery takes oldest due first outside ready skip pend, by rw [own], by rw [own], ?_, by rw [own], by rw [own],
    ⟨by rw [own], by rw [own]; rfl⟩, threadOnly_trans (threadOnly_modThread h s _) (threadOnly_modThread h _ _), oldest⟩
  rw [own]
  exact Vector.getElem_set_self ..
/-- Settles O25: which messages an inbox takes and gives, and what an interrupt and the return from it do to a thread. -/
theorem inboxes : Obligations.Inboxes := ⟨inboxInstructions, inboxSteps⟩
end

section
/-!
SUPPORT. A state that O41 does not fit. A load behind a fill is to answer the home's bytes when its core does not hold the sector; the statement is
about every state, also one whose full first-level cache is not listed by rising sector (O59 has each step keep it so). There a sector that is
listed out of order is not found until the one before it has made room for it, and the load then answers its bytes.
-/

namespace Sys2Proof.Machine

/-- An access of a thread at its home needs no more than to be performed there (R251). -/
theorem exec_farAccessPerform_atHome {s : State} {r : FarReq} (home : Spec.AtHome s r) : exec .farAccessPerform s = .next (performFar r s) := by
  obtain ⟨⟨takes, free, entered, far, memory, ready, first, unlocked⟩, alive, whole, plain, own⟩ := home
  have held : (!r.dram && s.missesLine r.addr) = false := by
    rcases ready with dram | holds
    · rw [dram, Bool.not_true, Bool.false_and]
    · rw [holds, Bool.and_false]
  have unasked : s.snoops r = (false, s) := by simp [State.snoops, plain]
  have run : exec .farAccessPerform s = execFarAccessPerform s := rfl
  rw [run, execFarAccessPerform, onEvent_some s _ _ takes]
  dsimp only
  rw [free, entered, tryFar]
  simp [memory, far, held, first, unlocked, alive, whole, unasked, own]
/-- A full cache, of whose sectors all but one are being filled, and that one is clean, gives up that one (R248). -/
theorem State.makeRoom_of_single {s : State} {h n : Nat} {x : Sector} (full : 32768 ≤ (s.core (coreOf h)).l1.length)
    (single : ((s.core (coreOf h)).l1.filter fun y => !s.filling (coreOf h) y.1) = [(n, x)]) (clean : x.dirty = 0) :
    s.makeRoom h = { s with freeCtr := s.freeCtr + 1 }.modCore (coreOf h) fun k => { k with l1 := terase k.l1 n } := by
  unfold State.makeRoom
  dsimp only
  rw [single, decide_eq_false (Nat.not_lt.mpr full)]
  simp [State.choose, Nat.mod_one, clean]

/-- A sector that is absent until the cache has made room is filled as one that is there. -/
theorem State.fillSector_of_room {s : State} {h n ks : Nat} {bs : List Byte} (absent : tfind (s.core (coreOf h)).l1 n = none)
    (found : (tfind ((s.makeRoom h).core (coreOf h)).l1 n).isSome = true) : s.fillSector h n ks bs = (s.makeRoom h).fillSector h n ks bs := by
  unfold State.fillSector
  dsimp only
  rw [absent, if_pos found]
  rfl

/-- A sector with a 1 in every byte. -/
def onesSector : Sector := { data := List.replicate 64 1, valid := 2 ^ 64 - 1, dirty := 0, key := 0 }
/-- A full cache: sector 5, and behind it sector 3. -/
def unorderedCache : Table Sector := (5, { data := [], valid := 0, dirty := 0, key := 0 }) :: List.replicate 32767 (3, onesSector)
/-- A load of thread 0 that has missed sector 3; it has come to the sector's home. -/
def missedLoad : FarReq :=
  { h := 0, pump := none, va := 192, addr := 192, key := 0, sa := false, op := .fill (some (5, 8, true, none)), entered := true }
/-- Another fill of the sector, for thread 1 of the core, is on its way. -/
def unorderedCacheState : State :=
  { State.reset with
    agenda := [(0, .farAccessPerform { missedLoad with h := 1, op := .fill none })]
    ev := some (.farAccessPerform missedLoad)
    threads := [(0, { run := .ready, pend := [(5, none)] })]
    cores := [(0, { l1 := unorderedCache })] }
theorem unorderedCacheState_atHome : Spec.AtHome unorderedCacheState missedLoad := by decide
theorem unorderedCacheState_awaits : Spec.StillAwaits unorderedCacheState 0 0 5 := by decide
/-- The state in which sector 5 has made room. -/
def unorderedCacheRoom : State :=
  { unorderedCacheState with freeCtr := unorderedCacheState.freeCtr + 1 }.modCore 0 fun k => { k with l1 := terase k.l1 5 }
theorem unorderedCacheState_makeRoom : unorderedCacheState.makeRoom 0 = unorderedCacheRoom := by
  have cache : (unorderedCacheState.core (coreOf 0)).l1 = unorderedCache := rfl
  have waits : unorderedCacheState.filling (coreOf 0) 3 = true := by decide
  have leaves : unorderedCacheState.filling (coreOf 0) 5 = false := by decide
  refine State.makeRoom_of_single (h := 0) (n := 5) (x := { data := [], valid := 0, dirty := 0, key := 0 }) ?_ ?_ rfl
  · rw [cache, unorderedCache, List.length_cons, List.length_replicate]
  · rw [cache, unorderedCache, List.filter_cons, List.filter_replicate]
    simp [waits, leaves]
/-- The cache then finds sector 3, which it holds already: its bytes stay, and those of the home are dropped (R248). -/
theorem unorderedCacheState_fillSector (bs : List Byte) :
    unorderedCacheState.fillSector 0 3 0 bs = unorderedCacheRoom.fillSector 0 3 0 bs := by
  have found : (tfind (unorderedCacheRoom.core (coreOf 0)).l1 3).isSome = true := rfl
  rw [State.fillSector_of_room rfl (by rw [unorderedCacheState_makeRoom]; exact found), unorderedCacheState_makeRoom]
theorem unorderedCacheState_performs : performFar missedLoad unorderedCacheState =
    let bs := unorderedCacheState.readBytes 192 0 64
    deliver missedLoad 5 none (loadValue 8 true ((unorderedCacheRoom.fillSector 0 3 0 bs).filled 0 192 (bs.take 8)))
      (unorderedCacheRoom.fillSector 0 3 0 bs) := by
  dsimp only
  rw [← unorderedCacheState_fillSector]
  rfl
/-- The load answers the sector's ones, where its home holds zeros. -/
theorem unorderedCacheState_answers (t : State) (run : exec .farAccessPerform unorderedCacheState = .next t) :
    (t.thread 0).seq.x.toList.getD 5 0 = 0x0101010101010101 := by
  rw [exec_farAccessPerform_atHome unorderedCacheState_atHome, unorderedCacheState_performs] at run
  cases run
  decide
theorem unorderedCacheState_home : loadValue 8 true (((unorderedCacheState.readBytes 192 0 64).drop 0).take 8) = 0 := by decide

end Sys2Proof.Machine

open Sys2Proof Sys2Proof.Machine Sys2Proof.Spec

/-- Refutes O41: a load behind a fill answers the bytes of a sector that its core's full cache has listed out of order, not the home's. -/
theorem not_homePerformsAccesses : ¬ Obligations.HomePerformsAccesses := by
  intro ⟨performs, _⟩
  obtain ⟨_, _, atHome⟩ := performs unorderedCacheState missedLoad (by decide)
  obtain ⟨_, fill, _⟩ := atHome unorderedCacheState_atHome
  obtain ⟨t, run, _, _, value, _⟩ := fill 0 5 8 true none rfl rfl rfl unorderedCacheState_awaits rfl (by decide)
  have answer := unorderedCacheState_answers t run
  rw [value] at answer
  exact absurd (unorderedCacheState_home.symm.trans answer) (by decide)
end
